-- ==== Sys2Proof/Word.lean ====
section
/-!
DEFINITION. Words of the QX8 (R4, R5): bytes, 32-bit words, 64-bit pairs, line contents, and plain little-endian
composition.
-/
namespace Sys2Proof

/-- A byte of memory (R5). -/
abbrev Byte := BitVec 8

/-- A 32-bit register value, a lane mask or a parcel (R49, R32). -/
abbrev Word := BitVec 32

/-- A 64-bit register pair, an address or a program counter (R50, R34). -/
abbrev DWord := BitVec 64

/-- One register row: the 32 lanes of a register (R209). -/
abbrev Row := Vector Word 32

/-- A register tag: SHI [23:16], SLO [15:8], FMT [7:0] (R209). -/
abbrev Tag := BitVec 24

/-- A line or granule sideband: scale [15:8], format code [7:0] (R206). -/
abbrev Side := BitVec 16

/-- The number that little-endian bytes spell (R5). -/
def leNat : List Byte → Nat
  | [] => 0
  | b :: bs => b.toNat + 256 * leNat bs

/-- The `n` little-endian bytes of a number (R5). -/
def natLe : Nat → Nat → List Byte
  | 0, _ => []
  | n + 1, x => BitVec.ofNat 8 x :: natLe n (x / 256)

/-- The word that the first four of some bytes spell. -/
def leWord (bs : List Byte) : Word := BitVec.ofNat 32 (leNat (bs.take 4))

/-- Low and high words of a pair (R50). -/
def DWord.lo (x : DWord) : Word := x.setWidth 32
def DWord.hi (x : DWord) : Word := (x >>> 32).setWidth 32

/-- The pair of a low and a high word. -/
def pairWord (lo hi : Word) : DWord := hi ++ lo

end Sys2Proof
end

