-- ==== Sys2Proof/Syntax.lean ====
section
/-!
DEFINITION. The instructions and engine steps of the QX8: one constructor for each row of the opcode table
(R53, R144, R175, R217, R250, R285, R311, R362, R391, R440, R476, R528, R575, and the steps that have no encoding).
-/
namespace Sys2Proof

/-- An operand specifier (R49): registers by number, the constants, IMM32, and the reserved codes 0xF6 to 0xFF. -/
inductive Opnd where
  | v (n : Fin 192) | s (n : Fin 32) | x (n : Fin 8) | p (n : Fin 8)
  | zero | lane | quad | gang | exec | imm
  | rsv (n : Fin 10)
  deriving DecidableEq, Repr

/-- The PRED field (R45): register and negation. -/
structure Pred where
  reg : Fin 8
  neg : Bool
  deriving DecidableEq, Repr

/-- The instruction formats (R44). -/
inductive Fmt where
  | S | L | X
  deriving DecidableEq, Repr

/-- Type codes that are not reserved (R46). -/
inductive TypeCode where
  | f32 | f16 | bf16 | e4m3 | e5m2 | e2m1 | int8 | int4 | lg8 | lg4 | i32 | n32 | i64 | n64 | b8 | b16 | b32 | b64 | b128
  deriving DecidableEq, Repr

/-- Identifiers of GETID (R149). -/
inductive IdCode where
  | core | subcore | sect | slot | gangs | package | ring
  deriving DecidableEq, Repr

/-- Engine classes of WAITE (R157). -/
inductive EngClass where
  | copy | matrix | push
  deriving DecidableEq, Repr

/-- Integer conditions (R187, R324). -/
inductive Cond where
  | eq | ne | lt | le | gt | ge
  deriving DecidableEq, Repr

/-- Float conditions (R222). -/
inductive FCond where
  | eq | ne | lt | le | gt | ge | un | ord
  deriving DecidableEq, Repr

/-- Source widths of EXT (R191). -/
inductive ExtW where
  | w8 | w16 | w32
  deriving DecidableEq, Repr

/-- Narrowings of PACK (R192). -/
inductive Narrow where
  | keep | ssat | usat
  deriving DecidableEq, Repr

/-- Rounding fields (R213). -/
inductive Rnd where
  | dyn | rn | rz | rm | rp
  deriving DecidableEq, Repr

/-- Source codes of CVT and CVTP (R229). -/
inductive SrcCode where
  | f32 | f16 | bf16 | e4m3 | e5m2 | e2m1 | int8 | int4 | lg8 | lg4 | i32 | n32
  deriving DecidableEq, Repr

/-- Reduction operations (R254). -/
inductive RedOp where
  | add | min | max | and | or | xor
  deriving DecidableEq, Repr

/-- Shuffle modes (R259). -/
inductive ShflMode where
  | idx | up | down | xor
  deriving DecidableEq, Repr

/-- Vote modes (R260). -/
inductive VoteMode where
  | any | all | ballot | eq
  deriving DecidableEq, Repr

/-- Source formats of LDW (R294). -/
inductive LdwSrc where
  | e4m3 | e5m2 | e2m1 | int8 | int4
  deriving DecidableEq, Repr

/-- Atomic operations (R313). -/
inductive AtomOp where
  | add | minI | minN | maxI | maxN | and | or | xor | swap | inc | dec | fadd
  deriving DecidableEq, Repr

/-- TLBI scopes (R369). -/
inductive TlbiScope where
  | page | asid | all
  deriving DecidableEq, Repr

/-- Destination spaces of a copy (R391). -/
inductive DSp where
  | glob | sp | wb
  deriving DecidableEq, Repr

/-- Source spaces of a copy (R391). -/
inductive SSp where
  | glob | sp | ab
  deriving DecidableEq, Repr

/-- How CMP and FCMP combine with a second predicate, and which one (R187). -/
inductive Comb where
  | none | and (c : Opnd) | or (c : Opnd) | xor (c : Opnd)
  deriving DecidableEq, Repr

/-- A part, named by its cohort, its gang and one of its quads (R124). -/
structure PartRef where
  cohort : Nat
  gang : Nat
  quad : Nat
  deriving DecidableEq, Repr

/-- A queue, named by partition, graph slot and queue index (R455). -/
structure QKey where
  part : Nat
  slot : Nat
  idx : Nat
  deriving DecidableEq, Repr

/-- Where a summary entry arrives (R467): a core's launch logic or a fabric port. -/
inductive SumDst where
  | core (n : Nat) | port (n : Nat)
  deriving DecidableEq, Repr

/-- What a peer asks of a line here (R511). -/
inductive PeerKind where
  | load (len : Nat)
  | store (bs : List Byte) (side : Option Side) (bad : Bool)
  | atomic (op : AtomOp) (w64 : Bool) (b : DWord)
  | cas (w64 : Bool) (cmp new : DWord)
  deriving DecidableEq, Repr

/-- A request that arrives from a peer: its number there, source package, source partition, source part (R94, R511),
physical address here, what it asks, what further lanes ask of the same word after it (R316), and its deadline in fabric time. -/
structure PeerReq where
  id : Nat
  pkg : Fin 16
  part : Nat
  src : Nat
  addr : Nat
  kind : PeerKind
  more : List PeerKind
  deadline : Nat
  deriving DecidableEq, Repr

/-- What a peer answers (R511, R513, R514): data with its sidebands, an acknowledgement, a refusal, poisoned data. -/
inductive RemoteRep where
  | data (bs : List Byte) (sides : List Side)
  | ack
  | refused
  | poison
  deriving DecidableEq, Repr

/-- How a device completes an I/O load (R604). -/
inductive IoResult where
  | data (bs : List Byte) | poison | error
  deriving DecidableEq, Repr

/-- A fabric flit (R500): the clear and the sealed fields; `pad` are bytes 98 to 111. -/
structure Flit where
  lseq : Nat
  lack : Nat
  kind : Nat
  kslot : Bool
  relayed : Bool
  poison : Bool
  cid : BitVec 13
  src : Fin 16
  dst : Fin 16
  cls : Nat
  header : List Byte
  data : List Byte
  side : Side
  pad : List Byte
  tag : List Byte
  deriving DecidableEq, Repr

/-- What an uncorrectable error strikes (R371, R438): a line in HBM or, `inSlice`, in its home slice; the payload of the flit that brings
the answer to a request, at a core; a structure of a cohort; a core's array. -/
inductive ErrTarget where
  | line (inSlice : Bool) (a : Nat) (cid : BitVec 13)
  | payload (req core : Nat) (cid : BitVec 13)
  | cohort (co : Nat) (structure_ : Nat) (a : Nat)
  | array (core : Nat)
  deriving DecidableEq, Repr

/-- A corrupt header (R371): the core whose router detected it, and which of the steps that are due is the packet, counted from the next one. -/
structure RouterHit where
  core : Nat
  packet : Nat
  deriving DecidableEq, Repr

/-- One constructor for each row of the opcode table: the engine steps with what they act
on first (compiled code can only build constructors with small tags), then the instruction forms with their fields. -/
inductive Instr where
  /-- RUN_COMMIT (R101) -/
  | runCommit (r : PartRef)
  /-- CONTINUE_WITHOUT_LOGGING (R110) -/
  | continueWithoutLogging (r : PartRef)
  /-- PART_SPLIT (R126) -/
  | partSplit (r : PartRef)
  /-- REGANG_MERGE (R155) -/
  | regangMerge (co : Nat) (g : Nat)
  /-- CLAIM_GRANT (R141) -/
  | claimGrant (core : Nat) (sub : Nat)
  /-- CLAIM_DEADLOCK (R142) -/
  | claimDeadlock (co : Nat)
  /-- TRAP_ENTRY (R355) -/
  | trapEntry (r : PartRef)
  /-- OWNERSHIP_REQUEST (R283) -/
  | ownershipRequest (e : Nat)
  /-- OWNERSHIP_GRANT (R283) -/
  | ownershipGrant (e : Nat)
  /-- STORE_BUFFER_DRAIN (R283) -/
  | storeBufferDrain (e : Nat)
  /-- PAGE_WALK (R273) -/
  | pageWalk (sec : Nat)
  /-- LOAD_REPLY (R278) -/
  | loadReply (r : PartRef)
  /-- HOME_SLICE_ATOMIC (R308) -/
  | homeSliceAtomic (qs : List Nat)
  /-- ATOMIC_REPLY (R322) -/
  | atomicReply (q : Nat)
  /-- REMOTE_REQUEST_INGRESS (R511) -/
  | remoteRequestIngress (q : PeerReq)
  /-- REMOTE_REPLY (R94) -/
  | remoteReply (q : Nat) (rep : RemoteRep)
  /-- REMOTE_TIMEOUT (R512) -/
  | remoteTimeout (q : Nat)
  /-- IO_COMPLETION (R604) -/
  | ioCompletion (q : Nat) (c : IoResult)
  /-- IO_TIMEOUT (R604) -/
  | ioTimeout (q : Nat)
  /-- COPY_CHUNK_ISSUE (R386) -/
  | copyChunkIssue (core : Nat)
  /-- COPY_CHUNK_DATA (R85) -/
  | copyChunkData (core : Nat) (op : Nat)
  /-- MATRIX_OPERATION_START (R430) -/
  | matrixOperationStart (core : Nat)
  /-- MATRIX_ROW_ENTRY (R433) -/
  | matrixRowEntry (core : Nat)
  /-- MATRIX_ROW_WRITE (R424) -/
  | matrixRowWrite (core : Nat)
  /-- QUEUE_ENQUEUE (R462) -/
  | queueEnqueue (op : Nat)
  /-- ENQUEUE_ROOM_RESUME (R462) -/
  | enqueueRoomResume (q : QKey)
  /-- REFILL_START (R463) -/
  | refillStart (q : QKey)
  /-- REFILL_COMPLETE (R463) -/
  | refillComplete (q : QKey)
  /-- QUEUE_DEQUEUE (R464) -/
  | queueDequeue (q : QKey)
  /-- QPOP_WAIT_SERVE (R482) -/
  | qpopWaitServe (q : QKey)
  /-- SUMMARY_PUBLISH (R467) -/
  | summaryPublish
  /-- SUMMARY_ENTRY_ARRIVE (R467) -/
  | summaryEntryArrive (dst : SumDst) (q : QKey) (len : Nat) (aged : Bool)
  /-- LAUNCH_DECISION (R472) -/
  | launchDecision (core : Nat)
  /-- LAUNCH_DELIVERY (R473) -/
  | launchDelivery (core : Nat)
  /-- FLIT_RECEIVE (R502) -/
  | flitReceive (port : Nat) (f : Flit)
  /-- FLIT_TRANSMIT (R501) -/
  | flitTransmit (port : Nat)
  /-- REPLAY_TIMEOUT (R502) -/
  | replayTimeout (port : Nat)
  /-- LINK_SILENCE_TIMEOUT (R502) -/
  | linkSilenceTimeout (port : Nat)
  /-- LINK_TRAINING_SUCCESS (R499) -/
  | linkTrainingSuccess (port : Nat) (peer : Fin 16)
  /-- LINK_TRAINING_TIMEOUT (R499) -/
  | linkTrainingTimeout (port : Nat)
  /-- TOKEN_GRANT (R516) -/
  | tokenGrant (port : Nat) (part : Nat)
  /-- TOKEN_TICK (R517) -/
  | tokenTick
  /-- LENGTH_REPORT_SEND (R521) -/
  | lengthReportSend (entry : Nat)
  /-- LENGTH_REPORT_RECEIVE (R521) -/
  | lengthReportReceive (entry : Nat) (len : Nat) (room : Nat) (rseq : Nat)
  /-- PORT_FORWARD_DECISION (R523) -/
  | portForwardDecision (port : Nat)
  /-- BATCH_RECEIVE (R524) -/
  | batchReceive (src : Fin 16) (back : Nat) (entry : Nat) (seq : Nat) (recs : List (List Byte × Bool)) (deadline : Nat)
  /-- BATCH_ACK (R525) -/
  | batchAck (entry : Nat) (seq : Nat)
  /-- BATCH_REFUSAL (R525) -/
  | batchRefusal (entry : Nat) (seq : Nat)
  /-- BATCH_TIMEOUT (R525) -/
  | batchTimeout (entry : Nat) (seq : Nat)
  /-- TIER_PAGE_MOVE (R557) -/
  | tierPageMove (part : Nat)
  /-- TIER_MOVE_COMPLETE (R557) -/
  | tierMoveComplete (mv : Nat)
  /-- LOG_CLOSE (R555) -/
  | logClose (part : Nat)
  /-- TIER_JOB_COMPLETE (R577) -/
  | tierJobComplete (part : Nat)
  /-- SLICE_EXPIRY (R561) -/
  | sliceExpiry (part : Nat)
  /-- HALT_COMPLETE (R561) -/
  | haltComplete (part : Nat)
  /-- HALT_DEADLINE_KILL (R567) -/
  | haltDeadlineKill (part : Nat)
  /-- HALT_DEADLINE_RESET (R567) -/
  | haltDeadlineReset (part : Nat)
  /-- CCTL_CREATE (R547) -/
  | cctlCreate (part : Nat)
  /-- CCTL_DESTROY (R573) -/
  | cctlDestroy (part : Nat)
  /-- CCTL_RESET (R573) -/
  | cctlReset (part : Nat)
  /-- HPCTL_CREATE (R547) -/
  | hpctlCreate
  /-- HPCTL_DESTROY (R573) -/
  | hpctlDestroy
  /-- HPCTL_RESET (R573) -/
  | hpctlReset
  /-- LEND_SECTION (R552) -/
  | lendSection (part : Nat) (sec : Nat) (borrower : Nat)
  /-- RECLAIM_SECTION (R552) -/
  | reclaimSection (part : Nat) (sec : Nat)
  /-- BORROWER_SPILL (R552) -/
  | borrowerSpill (co : Nat)
  /-- SOFT_ERROR_CORRECTED (R371) -/
  | softErrorCorrected (sec : Nat)
  /-- UNCORRECTABLE_ERROR (R371) -/
  | uncorrectableError (w : ErrTarget)
  /-- CORRUPT_HEADER (R371) -/
  | corruptHeader (at_ : RouterHit)
  /-- HOST_MEMORY_READ (R591) -/
  | hostMemoryRead (vf : Nat) (addr : Nat) (len : Nat)
  /-- HOST_MEMORY_WRITE (R591) -/
  | hostMemoryWrite (vf : Nat) (addr : Nat) (bs : List Byte)
  /-- HOST_INVALIDATE (R90) -/
  | hostInvalidate (line : Nat) (bs : List Byte)
  /-- HOST_RECORD_WRITE (R593) -/
  | hostRecordWrite (vf : Nat) (off : Nat) (bs : List Byte)
  /-- HOST_SINK_READ (R594) -/
  | hostSinkRead (vf : Nat) (off : Nat) (len : Nat)
  /-- LOCK_INTERFACE (R596) -/
  | lockInterface (vf : Nat)
  /-- START_INTERFACE (R595) -/
  | startInterface (vf : Nat)
  /-- STOP_INTERFACE (R596) -/
  | stopInterface (vf : Nat)
  /-- GET_MEASUREMENTS (R598) -/
  | getMeasurements (vf : Nat) (nonce : List Byte)
  /-- CONFIG_WRITE (R596) -/
  | configWrite (vf : Nat) (item : Nat) (val : Word)
  /-- PACKAGE_RESET (R597) -/
  | packageReset
  /-- POWER_LIMIT_WRITE (R599) -/
  | powerLimitWrite (watts : Nat)
  /-- POWER_ARBITER_TICK (R599) -/
  | powerArbiterTick
  /-- FREEZE (R601) -/
  | freeze
  /-- SCAN_READOUT (R601) -/
  | scanReadout
  /-- BATCH_DEADLINE_DISCARD (R524) -/
  | batchDeadlineDiscard (entry : Nat) (seq : Nat)
  /-- NOP (R146) -/
  | nop (p : Pred)
  /-- EXIT (R147) -/
  | exit (p : Pred)
  /-- YIELD (R146) -/
  | yield (p : Pred)
  /-- ELECT (R148) -/
  | elect (p : Pred) (d : Opnd)
  /-- GETID (R149) -/
  | getid (p : Pred) (d : Opnd) (id : IdCode)
  /-- TIME (R150) -/
  | time (p : Pred) (d : Opnd)
  /-- BRA (R151) -/
  | bra (p : Pred) (imm : Word)
  /-- BRC (R151) -/
  | brc (p : Pred) (a : Opnd) (all : Bool) (neg : Bool) (imm : Word)
  /-- CALL (R152) -/
  | call (p : Pred) (d : Opnd) (imm : Word)
  /-- LOOP (R153) -/
  | loop (d : Opnd) (imm : Word)
  /-- BRX (R152) -/
  | brx (p : Pred) (a : Opnd)
  /-- CALLX (R152) -/
  | callx (p : Pred) (d a : Opnd)
  /-- RET (R152) -/
  | ret (p : Pred) (a : Opnd)
  /-- ENDR (R154) -/
  | endr (a b c : Opnd)
  /-- REGANG_L (R155) -/
  | regangL (a : Opnd)
  /-- REGANG_X (R155) -/
  | regangX (a : Opnd) (imm : Word)
  /-- BAR_L (R156) -/
  | barL (a : Opnd)
  /-- BAR_X (R156) -/
  | barX (a : Opnd) (imm : Word)
  /-- WAITE_L (R157) -/
  | waiteL (a : Opnd) (cls : EngClass)
  /-- WAITE_X (R157) -/
  | waiteX (a : Opnd) (cls : EngClass) (imm : Word)
  /-- RCLAIM (R158) -/
  | rclaim (a : Opnd) (imm : Word)
  /-- RRELEASE (R158) -/
  | rrelease (a : Opnd) (imm : Word)
  /-- PINFO (R159) -/
  | pinfo (p : Pred) (d : Opnd)
  /-- ADD_L (R177) -/
  | addL (p : Pred) (t : TypeCode) (sat : Bool) (d a b : Opnd)
  /-- ADD_X (R177) -/
  | addX (p : Pred) (t : TypeCode) (sat : Bool) (d a b : Opnd) (imm : Word)
  /-- SUB_L (R177) -/
  | subL (p : Pred) (t : TypeCode) (sat : Bool) (d a b : Opnd)
  /-- SUB_X (R177) -/
  | subX (p : Pred) (t : TypeCode) (sat : Bool) (d a b : Opnd) (imm : Word)
  /-- ADD64_L (R177) -/
  | add64L (p : Pred) (t : TypeCode) (sat : Bool) (d a b : Opnd)
  /-- ADD64_X (R177) -/
  | add64X (p : Pred) (t : TypeCode) (sat : Bool) (d a b : Opnd) (imm : Word)
  /-- SUB64_L (R177) -/
  | sub64L (p : Pred) (t : TypeCode) (sat : Bool) (d a b : Opnd)
  /-- SUB64_X (R177) -/
  | sub64X (p : Pred) (t : TypeCode) (sat : Bool) (d a b : Opnd) (imm : Word)
  /-- MUL_L (R178) -/
  | mulL (p : Pred) (t : TypeCode) (sat : Bool) (d a b : Opnd)
  /-- MUL_X (R178) -/
  | mulX (p : Pred) (t : TypeCode) (sat : Bool) (d a b : Opnd) (imm : Word)
  /-- MULHI_L (R178) -/
  | mulhiL (p : Pred) (t : TypeCode) (d a b : Opnd)
  /-- MULHI_X (R178) -/
  | mulhiX (p : Pred) (t : TypeCode) (d a b : Opnd) (imm : Word)
  /-- MAD_L (R178) -/
  | madL (p : Pred) (t : TypeCode) (sat : Bool) (d a b c : Opnd)
  /-- MAD_X (R178) -/
  | madX (p : Pred) (t : TypeCode) (sat : Bool) (d a b c : Opnd) (imm : Word)
  /-- MADW_L (R178) -/
  | madwL (p : Pred) (t : TypeCode) (sat : Bool) (d a b c : Opnd)
  /-- MADW_X (R178) -/
  | madwX (p : Pred) (t : TypeCode) (sat : Bool) (d a b c : Opnd) (imm : Word)
  /-- DIV_L (R179) -/
  | divL (p : Pred) (t : TypeCode) (d a b : Opnd)
  /-- DIV_X (R179) -/
  | divX (p : Pred) (t : TypeCode) (d a b : Opnd) (imm : Word)
  /-- REM_L (R179) -/
  | remL (p : Pred) (t : TypeCode) (d a b : Opnd)
  /-- REM_X (R179) -/
  | remX (p : Pred) (t : TypeCode) (d a b : Opnd) (imm : Word)
  /-- MIN_L (R180) -/
  | minL (p : Pred) (t : TypeCode) (d a b : Opnd)
  /-- MIN_X (R180) -/
  | minX (p : Pred) (t : TypeCode) (d a b : Opnd) (imm : Word)
  /-- MAX_L (R180) -/
  | maxL (p : Pred) (t : TypeCode) (d a b : Opnd)
  /-- MAX_X (R180) -/
  | maxX (p : Pred) (t : TypeCode) (d a b : Opnd) (imm : Word)
  /-- ABS_L (R180) -/
  | absL (p : Pred) (t : TypeCode) (sat : Bool) (d a : Opnd)
  /-- ABS_X (R180) -/
  | absX (p : Pred) (t : TypeCode) (sat : Bool) (d a : Opnd) (imm : Word)
  /-- NEG_L (R180) -/
  | negL (p : Pred) (t : TypeCode) (sat : Bool) (d a : Opnd)
  /-- NEG_X (R180) -/
  | negX (p : Pred) (t : TypeCode) (sat : Bool) (d a : Opnd) (imm : Word)
  /-- AND_L (R181) -/
  | andL (p : Pred) (t : TypeCode) (d a b : Opnd)
  /-- AND_X (R181) -/
  | andX (p : Pred) (t : TypeCode) (d a b : Opnd) (imm : Word)
  /-- OR_L (R181) -/
  | orL (p : Pred) (t : TypeCode) (d a b : Opnd)
  /-- OR_X (R181) -/
  | orX (p : Pred) (t : TypeCode) (d a b : Opnd) (imm : Word)
  /-- XOR_L (R181) -/
  | xorL (p : Pred) (t : TypeCode) (d a b : Opnd)
  /-- XOR_X (R181) -/
  | xorX (p : Pred) (t : TypeCode) (d a b : Opnd) (imm : Word)
  /-- ANDN_L (R181) -/
  | andnL (p : Pred) (t : TypeCode) (d a b : Opnd)
  /-- ANDN_X (R181) -/
  | andnX (p : Pred) (t : TypeCode) (d a b : Opnd) (imm : Word)
  /-- NOT_L (R181) -/
  | notL (p : Pred) (t : TypeCode) (d a : Opnd)
  /-- NOT_X (R181) -/
  | notX (p : Pred) (t : TypeCode) (d a : Opnd) (imm : Word)
  /-- SHL_L (R182) -/
  | shlL (p : Pred) (t : TypeCode) (d a b : Opnd)
  /-- SHL_X (R182) -/
  | shlX (p : Pred) (t : TypeCode) (d a b : Opnd) (imm : Word)
  /-- SHR_L (R182) -/
  | shrL (p : Pred) (t : TypeCode) (d a b : Opnd)
  /-- SHR_X (R182) -/
  | shrX (p : Pred) (t : TypeCode) (d a b : Opnd) (imm : Word)
  /-- SAR_L (R182) -/
  | sarL (p : Pred) (t : TypeCode) (d a b : Opnd)
  /-- SAR_X (R182) -/
  | sarX (p : Pred) (t : TypeCode) (d a b : Opnd) (imm : Word)
  /-- ROTL_L (R182) -/
  | rotlL (p : Pred) (t : TypeCode) (d a b : Opnd)
  /-- ROTL_X (R182) -/
  | rotlX (p : Pred) (t : TypeCode) (d a b : Opnd) (imm : Word)
  /-- FUNNEL_L (R182) -/
  | funnelL (p : Pred) (t : TypeCode) (d a b c : Opnd)
  /-- FUNNEL_X (R182) -/
  | funnelX (p : Pred) (t : TypeCode) (d a b c : Opnd) (imm : Word)
  /-- POPC_L (R183) -/
  | popcL (p : Pred) (t : TypeCode) (d a : Opnd)
  /-- POPC_X (R183) -/
  | popcX (p : Pred) (t : TypeCode) (d a : Opnd) (imm : Word)
  /-- CLZ_L (R183) -/
  | clzL (p : Pred) (t : TypeCode) (d a : Opnd)
  /-- CLZ_X (R183) -/
  | clzX (p : Pred) (t : TypeCode) (d a : Opnd) (imm : Word)
  /-- CTZ_L (R183) -/
  | ctzL (p : Pred) (t : TypeCode) (d a : Opnd)
  /-- CTZ_X (R183) -/
  | ctzX (p : Pred) (t : TypeCode) (d a : Opnd) (imm : Word)
  /-- BREV_L (R183) -/
  | brevL (p : Pred) (t : TypeCode) (d a : Opnd)
  /-- BREV_X (R183) -/
  | brevX (p : Pred) (t : TypeCode) (d a : Opnd) (imm : Word)
  /-- BFE_L (R184) -/
  | bfeL (p : Pred) (t : TypeCode) (d a b : Opnd)
  /-- BFE_X (R184) -/
  | bfeX (p : Pred) (t : TypeCode) (d a b : Opnd) (imm : Word)
  /-- BFI_L (R185) -/
  | bfiL (p : Pred) (t : TypeCode) (d a b c : Opnd)
  /-- BFI_X (R185) -/
  | bfiX (p : Pred) (t : TypeCode) (d a b c : Opnd) (imm : Word)
  /-- PERMB_L (R186) -/
  | permbL (p : Pred) (t : TypeCode) (d a b c : Opnd)
  /-- PERMB_X (R186) -/
  | permbX (p : Pred) (t : TypeCode) (d a b c : Opnd) (imm : Word)
  /-- CMP_L (R187) -/
  | cmpL (p : Pred) (t : TypeCode) (cond : Cond) (comb : Comb) (d a b : Opnd)
  /-- CMP_X (R187) -/
  | cmpX (p : Pred) (t : TypeCode) (cond : Cond) (comb : Comb) (d a b : Opnd) (imm : Word)
  /-- PAND_L (R188) -/
  | pandL (p : Pred) (d a b : Opnd)
  /-- PAND_X (R188) -/
  | pandX (p : Pred) (d a b : Opnd) (imm : Word)
  /-- POR_L (R188) -/
  | porL (p : Pred) (d a b : Opnd)
  /-- POR_X (R188) -/
  | porX (p : Pred) (d a b : Opnd) (imm : Word)
  /-- PXOR_L (R188) -/
  | pxorL (p : Pred) (d a b : Opnd)
  /-- PXOR_X (R188) -/
  | pxorX (p : Pred) (d a b : Opnd) (imm : Word)
  /-- PNOT_L (R188) -/
  | pnotL (p : Pred) (d a : Opnd)
  /-- PNOT_X (R188) -/
  | pnotX (p : Pred) (d a : Opnd) (imm : Word)
  /-- MOV_L (R189) -/
  | movL (p : Pred) (t : TypeCode) (d a : Opnd)
  /-- MOV_X (R189) -/
  | movX (p : Pred) (t : TypeCode) (d a : Opnd) (imm : Word)
  /-- MOVI (R189) -/
  | movi (p : Pred) (t : TypeCode) (h : Fin 4) (d a : Opnd) (imm : Word)
  /-- SEL_L (R190) -/
  | selL (p : Pred) (t : TypeCode) (d a b c : Opnd)
  /-- SEL_X (R190) -/
  | selX (p : Pred) (t : TypeCode) (d a b c : Opnd) (imm : Word)
  /-- EXT_L (R191) -/
  | extL (p : Pred) (t : TypeCode) (w : ExtW) (d a : Opnd)
  /-- EXT_X (R191) -/
  | extX (p : Pred) (t : TypeCode) (w : ExtW) (d a : Opnd) (imm : Word)
  /-- PACK_L (R192) -/
  | packL (p : Pred) (t : TypeCode) (nar : Narrow) (d a b : Opnd)
  /-- PACK_X (R192) -/
  | packX (p : Pred) (t : TypeCode) (nar : Narrow) (d a b : Opnd) (imm : Word)
  /-- UNPACK_L (R193) -/
  | unpackL (p : Pred) (t : TypeCode) (idx : Fin 4) (sx : Bool) (d a : Opnd)
  /-- UNPACK_X (R193) -/
  | unpackX (p : Pred) (t : TypeCode) (idx : Fin 4) (sx : Bool) (d a : Opnd) (imm : Word)
  /-- FADD_L (R219) -/
  | faddL (p : Pred) (t : TypeCode) (rnd : Rnd) (d a b : Opnd)
  /-- FADD_X (R219) -/
  | faddX (p : Pred) (t : TypeCode) (rnd : Rnd) (d a b : Opnd) (imm : Word)
  /-- FSUB_L (R219) -/
  | fsubL (p : Pred) (t : TypeCode) (rnd : Rnd) (d a b : Opnd)
  /-- FSUB_X (R219) -/
  | fsubX (p : Pred) (t : TypeCode) (rnd : Rnd) (d a b : Opnd) (imm : Word)
  /-- FMUL_L (R219) -/
  | fmulL (p : Pred) (t : TypeCode) (rnd : Rnd) (d a b : Opnd)
  /-- FMUL_X (R219) -/
  | fmulX (p : Pred) (t : TypeCode) (rnd : Rnd) (d a b : Opnd) (imm : Word)
  /-- FFMA_L (R219) -/
  | ffmaL (p : Pred) (t : TypeCode) (rnd : Rnd) (d a b c : Opnd)
  /-- FFMA_X (R219) -/
  | ffmaX (p : Pred) (t : TypeCode) (rnd : Rnd) (d a b c : Opnd) (imm : Word)
  /-- FMIN_L (R220) -/
  | fminL (p : Pred) (t : TypeCode) (d a b : Opnd)
  /-- FMIN_X (R220) -/
  | fminX (p : Pred) (t : TypeCode) (d a b : Opnd) (imm : Word)
  /-- FMAX_L (R220) -/
  | fmaxL (p : Pred) (t : TypeCode) (d a b : Opnd)
  /-- FMAX_X (R220) -/
  | fmaxX (p : Pred) (t : TypeCode) (d a b : Opnd) (imm : Word)
  /-- FABS_L (R221) -/
  | fabsL (p : Pred) (t : TypeCode) (d a : Opnd)
  /-- FABS_X (R221) -/
  | fabsX (p : Pred) (t : TypeCode) (d a : Opnd) (imm : Word)
  /-- FNEG_L (R221) -/
  | fnegL (p : Pred) (t : TypeCode) (d a : Opnd)
  /-- FNEG_X (R221) -/
  | fnegX (p : Pred) (t : TypeCode) (d a : Opnd) (imm : Word)
  /-- FCMP_L (R222) -/
  | fcmpL (p : Pred) (t : TypeCode) (cond : FCond) (comb : Comb) (d a b : Opnd)
  /-- FCMP_X (R222) -/
  | fcmpX (p : Pred) (t : TypeCode) (cond : FCond) (comb : Comb) (d a b : Opnd) (imm : Word)
  /-- FRND_L (R223) -/
  | frndL (p : Pred) (t : TypeCode) (rnd : Rnd) (d a : Opnd)
  /-- FRND_X (R223) -/
  | frndX (p : Pred) (t : TypeCode) (rnd : Rnd) (d a : Opnd) (imm : Word)
  /-- FCLASS_L (R224) -/
  | fclassL (p : Pred) (t : TypeCode) (d a : Opnd)
  /-- FCLASS_X (R224) -/
  | fclassX (p : Pred) (t : TypeCode) (d a : Opnd) (imm : Word)
  /-- FSCALE_L (R225) -/
  | fscaleL (p : Pred) (t : TypeCode) (rnd : Rnd) (d a b : Opnd)
  /-- FSCALE_X (R225) -/
  | fscaleX (p : Pred) (t : TypeCode) (rnd : Rnd) (d a b : Opnd) (imm : Word)
  /-- FRCP (R226) -/
  | frcp (p : Pred) (t : TypeCode) (d a : Opnd)
  /-- FRSQ (R226) -/
  | frsq (p : Pred) (t : TypeCode) (d a : Opnd)
  /-- FSQRT (R226) -/
  | fsqrt (p : Pred) (t : TypeCode) (rnd : Rnd) (d a : Opnd)
  /-- FDIV (R226) -/
  | fdiv (p : Pred) (t : TypeCode) (rnd : Rnd) (d a b : Opnd)
  /-- FEXP2 (R226) -/
  | fexp2 (p : Pred) (t : TypeCode) (d a : Opnd)
  /-- FLOG2 (R226) -/
  | flog2 (p : Pred) (t : TypeCode) (d a : Opnd)
  /-- FSIN (R226) -/
  | fsin (p : Pred) (t : TypeCode) (d a : Opnd)
  /-- FCOS (R226) -/
  | fcos (p : Pred) (t : TypeCode) (d a : Opnd)
  /-- CVT (R231) -/
  | cvt (p : Pred) (src : SrcCode) (t : TypeCode) (rnd : Rnd) (d a : Opnd)
  /-- CVTP (R232) -/
  | cvtp (p : Pred) (src : SrcCode) (t : TypeCode) (rnd : Rnd) (d a b : Opnd) (slot : Fin 8)
  /-- TAGGET (R233) -/
  | tagget (p : Pred) (d a : Opnd)
  /-- TAGSET (R234) -/
  | tagset (p : Pred) (d a : Opnd)
  /-- HADD2_L (R239) -/
  | hadd2L (p : Pred) (t : TypeCode) (rnd : Rnd) (d a b : Opnd)
  /-- HADD2_X (R239) -/
  | hadd2X (p : Pred) (t : TypeCode) (rnd : Rnd) (d a b : Opnd) (imm : Word)
  /-- HMUL2_L (R239) -/
  | hmul2L (p : Pred) (t : TypeCode) (rnd : Rnd) (d a b : Opnd)
  /-- HMUL2_X (R239) -/
  | hmul2X (p : Pred) (t : TypeCode) (rnd : Rnd) (d a b : Opnd) (imm : Word)
  /-- HFMA2_L (R239) -/
  | hfma2L (p : Pred) (t : TypeCode) (rnd : Rnd) (d a b c : Opnd)
  /-- HFMA2_X (R239) -/
  | hfma2X (p : Pred) (t : TypeCode) (rnd : Rnd) (d a b c : Opnd) (imm : Word)
  /-- DOT4_L (R240) -/
  | dot4L (p : Pred) (t : TypeCode) (rnd : Rnd) (d a b c : Opnd)
  /-- DOT4_X (R240) -/
  | dot4X (p : Pred) (t : TypeCode) (rnd : Rnd) (d a b c : Opnd) (imm : Word)
  /-- DOT8_L (R240) -/
  | dot8L (p : Pred) (t : TypeCode) (rnd : Rnd) (d a b c : Opnd)
  /-- DOT8_X (R240) -/
  | dot8X (p : Pred) (t : TypeCode) (rnd : Rnd) (d a b c : Opnd) (imm : Word)
  /-- QSWAP (R252) -/
  | qswap (p : Pred) (t : TypeCode) (pat : Fin 4) (d a : Opnd)
  /-- QBCAST (R252) -/
  | qbcast (p : Pred) (t : TypeCode) (j : Fin 4) (d a : Opnd)
  /-- QSHUF (R252) -/
  | qshuf (p : Pred) (t : TypeCode) (d a b : Opnd)
  /-- QRED (R256) -/
  | qred (p : Pred) (t : TypeCode) (op : RedOp) (d a : Opnd)
  /-- SHFL (R259) -/
  | shfl (p : Pred) (t : TypeCode) (mode : ShflMode) (d a b : Opnd)
  /-- VOTE (R260) -/
  | vote (p : Pred) (mode : VoteMode) (d a : Opnd)
  /-- PREFIX (R257) -/
  | scanPrefix (p : Pred) (t : TypeCode) (op : RedOp) (ex : Bool) (d a : Opnd)
  /-- GRED (R258) -/
  | gred (p : Pred) (t : TypeCode) (op : RedOp) (d a : Opnd)
  /-- XPOSE (R261) -/
  | xpose (p : Pred) (t : TypeCode) (d a : Opnd)
  /-- LD_L (R289) -/
  | ldL (p : Pred) (t : TypeCode) (sx : Bool) (d a : Opnd)
  /-- LD_X (R289) -/
  | ldX (p : Pred) (t : TypeCode) (sx : Bool) (d a : Opnd) (imm : Word)
  /-- LDD_L (R292) -/
  | lddL (p : Pred) (rows : Fin 8) (d a : Opnd)
  /-- LDD_X (R292) -/
  | lddX (p : Pred) (rows : Fin 8) (d a : Opnd) (imm : Word)
  /-- LDW_L (R294) -/
  | ldwL (p : Pred) (t : TypeCode) (rows : Fin 4) (src : LdwSrc) (d a : Opnd)
  /-- LDW_X (R294) -/
  | ldwX (p : Pred) (t : TypeCode) (rows : Fin 4) (src : LdwSrc) (d a : Opnd) (imm : Word)
  /-- PREF_L (R291) -/
  | prefL (p : Pred) (slice : Bool) (a : Opnd)
  /-- PREF_X (R291) -/
  | prefX (p : Pred) (slice : Bool) (a : Opnd) (imm : Word)
  /-- ST_L (R290) -/
  | stL (p : Pred) (t : TypeCode) (a b : Opnd)
  /-- ST_X (R290) -/
  | stX (p : Pred) (t : TypeCode) (a b : Opnd) (imm : Word)
  /-- STD_L (R295) -/
  | stdL (p : Pred) (rows : Fin 8) (a b : Opnd)
  /-- STD_X (R295) -/
  | stdX (p : Pred) (rows : Fin 8) (a b : Opnd) (imm : Word)
  /-- LDS_L (R296) -/
  | ldsL (p : Pred) (t : TypeCode) (sx : Bool) (d a : Opnd)
  /-- LDS_X (R296) -/
  | ldsX (p : Pred) (t : TypeCode) (sx : Bool) (d a : Opnd) (imm : Word)
  /-- LDA_L (R296) -/
  | ldaL (p : Pred) (t : TypeCode) (sx : Bool) (d a : Opnd)
  /-- LDA_X (R296) -/
  | ldaX (p : Pred) (t : TypeCode) (sx : Bool) (d a : Opnd) (imm : Word)
  /-- LDWB_L (R296) -/
  | ldwbL (p : Pred) (t : TypeCode) (sx : Bool) (d a : Opnd)
  /-- LDWB_X (R296) -/
  | ldwbX (p : Pred) (t : TypeCode) (sx : Bool) (d a : Opnd) (imm : Word)
  /-- STS_L (R296) -/
  | stsL (p : Pred) (t : TypeCode) (a b : Opnd)
  /-- STS_X (R296) -/
  | stsX (p : Pred) (t : TypeCode) (a b : Opnd) (imm : Word)
  /-- STA_L (R296) -/
  | staL (p : Pred) (t : TypeCode) (a b : Opnd)
  /-- STA_X (R296) -/
  | staX (p : Pred) (t : TypeCode) (a b : Opnd) (imm : Word)
  /-- ATOM_L (R315) -/
  | atomL (p : Pred) (op : AtomOp) (nr : Bool) (w64 : Bool) (d a b : Opnd)
  /-- ATOM_X (R315) -/
  | atomX (p : Pred) (op : AtomOp) (nr : Bool) (w64 : Bool) (d a b : Opnd) (imm : Word)
  /-- CAS_L (R315) -/
  | casL (p : Pred) (w64 : Bool) (d a b c : Opnd)
  /-- CAS_X (R315) -/
  | casX (p : Pred) (w64 : Bool) (d a b c : Opnd) (imm : Word)
  /-- ATOMS_L (R320) -/
  | atomsL (p : Pred) (op : AtomOp) (nr : Bool) (w64 : Bool) (d a b : Opnd)
  /-- ATOMS_X (R320) -/
  | atomsX (p : Pred) (op : AtomOp) (nr : Bool) (w64 : Bool) (d a b : Opnd) (imm : Word)
  /-- CASS_L (R320) -/
  | cassL (p : Pred) (w64 : Bool) (d a b c : Opnd)
  /-- CASS_X (R320) -/
  | cassX (p : Pred) (w64 : Bool) (d a b c : Opnd) (imm : Word)
  /-- WAITC_L (R326) -/
  | waitcL (p : Pred) (cond : Cond) (t : TypeCode) (d a b c : Opnd)
  /-- WAITC_X (R326) -/
  | waitcX (p : Pred) (cond : Cond) (t : TypeCode) (d a b c : Opnd) (imm : Word)
  /-- ARMC_L (R329) -/
  | armcL (p : Pred) (cond : Cond) (t : TypeCode) (d a b : Opnd)
  /-- ARMC_X (R329) -/
  | armcX (p : Pred) (cond : Cond) (t : TypeCode) (d a b : Opnd) (imm : Word)
  /-- CHECKC (R330) -/
  | checkc (p : Pred) (d : Opnd)
  /-- SYSC_L (R364) -/
  | syscL (a : Opnd)
  /-- SYSC_X (R364) -/
  | syscX (a : Opnd) (imm : Word)
  /-- HCALL_L (R364) -/
  | hcallL (a : Opnd)
  /-- HCALL_X (R364) -/
  | hcallX (a : Opnd) (imm : Word)
  /-- MCALL_L (R364) -/
  | mcallL (a : Opnd)
  /-- MCALL_X (R364) -/
  | mcallX (a : Opnd) (imm : Word)
  /-- TRAP_L (R364) -/
  | trapL (a : Opnd)
  /-- TRAP_X (R364) -/
  | trapX (a : Opnd) (imm : Word)
  /-- TRET (R358) -/
  | tret
  /-- TRET_PARK (R365) -/
  | tretPark
  /-- TFENCE (R361) -/
  | tfence
  /-- MFSR (R367) -/
  | mfsr (p : Pred) (num : Fin 1024) (d : Opnd)
  /-- MTSR_L (R367) -/
  | mtsrL (p : Pred) (num : Fin 1024) (a : Opnd)
  /-- MTSR_X (R367) -/
  | mtsrX (p : Pred) (num : Fin 1024) (a : Opnd) (imm : Word)
  /-- GRESUME_L (R368) -/
  | gresumeL (d a : Opnd)
  /-- GRESUME_X (R368) -/
  | gresumeX (d a : Opnd) (imm : Word)
  /-- GKILL_L (R360) -/
  | gkillL (drop : Bool) (d a : Opnd)
  /-- GKILL_X (R360) -/
  | gkillX (drop : Bool) (d a : Opnd) (imm : Word)
  /-- TLBI (R369) -/
  | tlbi (scope : TlbiScope) (s2 : Bool) (a b : Opnd)
  /-- TLBSYNC (R370) -/
  | tlbsync
  /-- CPY (R393) -/
  | cpy (p : Pred) (dsp : DSp) (ssp : SSp) (d a b c : Opnd) (imm : Word)
  /-- CPYS (R394) -/
  | cpys (p : Pred) (dsp : DSp) (ssp : SSp) (d a b c : Opnd) (imm : Word)
  /-- CPYG (R399) -/
  | cpyg (p : Pred) (dsp : DSp) (d a b c : Opnd) (imm : Word)
  /-- CPYT (R400) -/
  | cpyt (p : Pred) (ssp : SSp) (d a b c : Opnd) (imm : Word)
  /-- CPYM (R401) -/
  | cpym (p : Pred) (dsp : DSp) (d a b : Opnd) (imm : Word)
  /-- CPYF (R395) -/
  | cpyf (p : Pred) (dsp : DSp) (fc : Fin 11) (d a b c : Opnd) (imm : Word)
  /-- SWINIT (R407) -/
  | swinit (p : Pred) (a b : Opnd) (imm : Word)
  /-- SWWAIT (R408) -/
  | swwait (p : Pred) (d a b : Opnd) (imm : Word)
  /-- MMA (R443) -/
  | mma (p : Pred) (m : Fin 32) (reuse : Bool) (z : Bool) (d a b : Opnd) (imm : Word)
  /-- MMAP (R443) -/
  | mmap (p : Pred) (m : Fin 32) (reuse : Bool) (z : Bool) (d a b : Opnd) (imm : Word)
  /-- MCLR (R444) -/
  | mclr (p : Pred) (m : Fin 32) (d : Opnd) (imm : Word)
  /-- MCVT (R445) -/
  | mcvt (p : Pred) (m : Fin 32) (fmt : TypeCode) (d a b : Opnd) (imm : Word)
  /-- MACC (R446) -/
  | macc (p : Pred) (m : Fin 32) (team : Bool) (d a : Opnd) (imm : Word)
  /-- MREL (R447) -/
  | mrel (p : Pred) (imm : Word)
  /-- QPOP_L (R481) -/
  | qpopL (p : Pred) (wait : Bool) (d a : Opnd)
  /-- QPOP_X (R481) -/
  | qpopX (p : Pred) (wait : Bool) (d a : Opnd) (imm : Word)
  /-- QPUSH_L (R479) -/
  | qpushL (p : Pred) (o : Fin 8) (a : Opnd)
  /-- QPUSH_X (R479) -/
  | qpushX (p : Pred) (o : Fin 8) (a : Opnd) (imm : Word)
  /-- QPUSHS_L (R479) -/
  | qpushsL (p : Pred) (o : Fin 8) (a b : Opnd)
  /-- QPUSHS_X (R479) -/
  | qpushsX (p : Pred) (o : Fin 8) (a b : Opnd) (imm : Word)
  /-- QDONE (R483) -/
  | qdone (p : Pred)
  /-- QLEN (R484) -/
  | qlen (p : Pred) (sel : Fin 9) (d : Opnd)
  /-- QSEED_L (R485) -/
  | qseedL (p : Pred) (o : Fin 8) (d a b c : Opnd)
  /-- QSEED_X (R485) -/
  | qseedX (p : Pred) (o : Fin 8) (d a b c : Opnd) (imm : Word)
  /-- QCTL_SETQ (R486) -/
  | qctlSetq (p : Pred) (d a b c : Opnd)
  /-- QCTL_SETS (R486) -/
  | qctlSets (p : Pred) (d a b c : Opnd)
  /-- QCTL_BIND (R460) -/
  | qctlBind (p : Pred) (d a b c : Opnd)
  /-- QCTL_UNBIND (R486) -/
  | qctlUnbind (p : Pred) (d a b c : Opnd)
  /-- QCTL_STAT (R487) -/
  | qctlStat (p : Pred) (d a b c : Opnd)
  /-- QCTL_STOP (R486) -/
  | qctlStop (p : Pred) (d a b c : Opnd)
  /-- QCTL_START (R486) -/
  | qctlStart (p : Pred) (d a b c : Opnd)
  /-- QCTL_CLEAR (R486) -/
  | qctlClear (p : Pred) (d a b c : Opnd)
  /-- FSTAT_PORT (R530) -/
  | fstatPort (p : Pred) (d a : Opnd)
  /-- FSTAT_ROUTE (R530) -/
  | fstatRoute (p : Pred) (d a : Opnd)
  /-- FSTAT_MIRROR (R530) -/
  | fstatMirror (p : Pred) (d a : Opnd)
  /-- FSTAT_TOKENS (R530) -/
  | fstatTokens (p : Pred) (d a : Opnd)
  /-- FSTAT_RTO (R530) -/
  | fstatRto (p : Pred) (d a : Opnd)
  /-- FCLR (R531) -/
  | fclr (p : Pred) (psn : Bool) (d : Opnd)
  /-- FTOK (R532) -/
  | ftok (fld : Fin 5) (rd : Bool) (d a b c : Opnd)
  /-- FLINK_PORT (R533) -/
  | flinkPort (d a b c : Opnd)
  /-- FLINK_ROUTE (R533) -/
  | flinkRoute (d a b c : Opnd)
  /-- FLINK_KEY (R504) -/
  | flinkKey (d a b c : Opnd)
  /-- FLINK_MIRROR (R520) -/
  | flinkMirror (d a b c : Opnd)
  /-- FLINK_UNMIRROR (R533) -/
  | flinkUnmirror (d a b c : Opnd)
  /-- FLINK_GRANT (R513) -/
  | flinkGrant (d a b c : Opnd)
  /-- FLINK_REVOKE (R533) -/
  | flinkRevoke (d a b c : Opnd)
  /-- FLINK_SETID (R533) -/
  | flinkSetid (d a b c : Opnd)
  /-- TSWAP (R578) -/
  | tswap (p : Pred) (up : Bool) (d a b : Opnd)
  /-- TPIN_L (R579) -/
  | tpinL (p : Pred) (d a b : Opnd)
  /-- TPIN_X (R579) -/
  | tpinX (p : Pred) (d a b : Opnd) (imm : Word)
  /-- TUNPIN_L (R579) -/
  | tunpinL (p : Pred) (d a b : Opnd)
  /-- TUNPIN_X (R579) -/
  | tunpinX (p : Pred) (d a b : Opnd) (imm : Word)
  /-- TRES_L (R580) -/
  | tresL (p : Pred) (d a b : Opnd)
  /-- TRES_X (R580) -/
  | tresX (p : Pred) (d a b : Opnd) (imm : Word)
  /-- TRES_STAGE (R580) -/
  | tresStage (p : Pred) (d a b c : Opnd)
  /-- TWREC_WS (R581) -/
  | twrecWs (p : Pred) (d a b : Opnd)
  /-- TWREC_DECLARE (R581) -/
  | twrecDeclare (p : Pred) (d a b : Opnd)
  /-- TWREC_UNDECLARE (R581) -/
  | twrecUndeclare (p : Pred) (d a b : Opnd)
  /-- TWREC_DIRTY (R581) -/
  | twrecDirty (p : Pred) (d a b : Opnd)
  /-- HALTC (R582) -/
  | haltc (p : Pred) (d a b : Opnd)
  /-- HALTC_STOP (R571) -/
  | haltcStop (p : Pred) (d a b : Opnd)
  /-- RESUMEC (R583) -/
  | resumec (p : Pred) (d b : Opnd)
  deriving DecidableEq, Repr

end Sys2Proof
end

