-- ==== Sys2Proof/Machine/Types.lean ====
section
/-!
DEFINITION. The records that the state is made of: registers, frames, runs, parts, gangs, cohorts and store-buffer
entries (R101 to R166, R282, R318, R342 to R352).
-/
namespace Sys2Proof.Machine

/-- The rings (R338). -/
inductive Ring where
  | U | S | H | M
  deriving DecidableEq, Repr

def Ring.num : Ring → Nat
  | .U => 0 | .S => 1 | .H => 2 | .M => 3

def Ring.ofNum : Nat → Ring
  | 0 => .U | 1 => .S | 2 => .H | _ => .M

/-- The sticky flags (R347): bit 0 NV, 1 DZ, 2 OF, 3 UF, 4 NX, 5 IV, 6 CV. -/
abbrev Flags := BitVec 7

/-- A set of the eight quads of a gang (R124). -/
abbrev QMask := BitVec 8

/-- A v register: 32 lanes and a tag (R209). -/
structure VReg where
  row : Row
  tag : Tag
  deriving DecidableEq, Repr

/-- Storage addresses: one number for each byte that exists (R16, R17, R22, R23). Local HBM, far memory, host memory and I/O
space stand at their physical addresses, and the typed buffers of the cores above `spBase`, `wbBase` and `abBase`. A line or
granule is a storage address divided by 64. The bytes of far memory are kept where the pooled memory has them, at their CXL
addresses above `poolBase` (`State.cell`). -/
abbrev SAddr := Nat

def poolBase : Nat := 2 ^ 64
def spBase : Nat := 2 ^ 70
def wbBase : Nat := 2 ^ 71
def abBase : Nat := 2 ^ 72

/-- Bytes of a core's SP, WB and AB (R16). -/
def spSize : Nat := 0x40000
def wbSize : Nat := 0x200000
def abSize : Nat := 0x100000

def spAt (core off : Nat) : SAddr := spBase + core * spSize + off
def wbAt (core off : Nat) : SAddr := wbBase + core * wbSize + off
def abAt (core off : Nat) : SAddr := abBase + core * abSize + off

/-- The frame registers of one slot (R348 to R352). Word r of `preds` is TPREDr; `preds 0` is not used and stays 0. -/
structure Frame where
  isOpen : Bool
  cause : Word
  info : Word
  addr : DWord
  fpc : DWord
  exec : Word
  mask : Word
  stat : Word
  afl : Word
  preds : Vector Word 8
  epc : Vector DWord 8
  deriving DecidableEq, Repr

/-- The bank of a gang at a ring above U (R342): v176 to v191, s24 to s31 with one copy for each quad (entry 8 × quad +
register), and eight frame slots. -/
structure Bank where
  v : Vector VReg 16
  s : Vector Word 64
  frames : Vector Frame 8
  deriving DecidableEq, Repr

/-- Engine classes with an outstanding counter (R137). -/
structure Counters where
  copy : Nat
  matrix : Nat
  push : Nat
  deriving DecidableEq, Repr

/-- The A latch (R422): the number of the first register and the captured rows with their tags; none when empty. -/
abbrev Latch := Option (Nat × List VReg)

/-- What a rollback restores beside the v registers (R103, R104). The s copies of the part's ring bank are kept too. -/
structure Ckpt where
  s : Vector Word 32
  p : Vector Word 8
  exec : Word
  aflags : Flags
  banked : Vector Word 64
  latch : Latch
  deriving DecidableEq, Repr

/-- An entry of the undo pool (R104): the register, its bank (ring U: the window), its previous contents, and whether
another part has written the register since. -/
structure Undo where
  ring : Ring
  reg : Nat
  old : VReg
  otherWrote : Bool
  deriving DecidableEq, Repr

/-- An uncommitted run (R101 to R110, R131, R132). `reads` are the lines that it has read and that the exact part of its
core's read-set filter holds, `spill` those that the filter's overflow part took (R14, R105). `cmds` are the numbers of its
buffered commands, oldest first; `finishing` are the quads that finish when it commits (R147); `noLog` is R110. -/
structure Run where
  id : Nat
  start : DWord
  count : Nat
  closed : Bool
  noLog : Bool
  ckpt : Ckpt
  undo : List Undo
  reads : List Nat
  spill : List Nat
  cmds : List Nat
  finishing : QMask
  deriving DecidableEq, Repr

/-- Where a trapped part resumes (R353, R354): the start of the run, which is rolled back; the instruction that follows,
the run having committed; the instruction itself, the run before it having committed. -/
inductive Resume where
  | runStart | next | here
  deriving DecidableEq, Repr

/-- A trap that has been raised and waits for its boundary (R111, R353): cause, trapping lanes, TADDR, TINFO, stage 2,
the faulting instruction's program counter, its position in its run and the address that follows it, where the part
resumes. -/
structure Trap where
  code : Nat
  lanes : Word
  addr : DWord
  info : Word
  s2 : Bool
  fpc : DWord
  runpos : Nat
  after : DWord
  resume : Resume
  deriving DecidableEq, Repr

/-- What a part waits for (R134): nothing; a reply to its load or atomic; a merge at REGANG, where it then goes on; the
commits before a split, with the quads that transfer, their target and its header; the other parts of its frame at TRET; a
barrier unit, with the count it carries and the generation its gang arrived in; an engine counter; a claim, or the other
parts' runs before a window changes; a monitor; a queue; a sync word; room in a buffer; a commit; a remote reply; a tier job. -/
inductive Wait where
  | none
  | load
  | atomic
  | regang (m : QMask) (next : DWord)
  | split (v : QMask) (t hdr : DWord)
  | tret (park : Bool)
  | bar (unit : Nat) (count : Nat) (gen : Option Nat)
  | counter
  | claim (n : Nat)
  | window
  | waitc (entries : List Nat)
  | qpop
  | sync
  | room
  | commit
  | remote
  | job
  deriving DecidableEq, Repr

/-- What an access that waits for replies does with them (R278, R289 to R295, R315): an LD form, LDD, LDW, a returning
atomic or CAS; a store and a reduction need only the answers; a raw one hands them to its instruction. -/
inductive PendOp where
  | ld (d : Opnd) (t : TypeCode) (sx : Bool)
  | ldd (d : Opnd) (rows : Nat)
  | ldw (d : Opnd) (t : TypeCode) (rows : Nat) (src : LdwSrc)
  | atom (d : Opnd) (w64 : Bool)
  | store
  | red
  | raw
  deriving DecidableEq, Repr

/-- An access under way that is performed request by request (R109, R279, R317): what it does, the parcels of its
instruction, whether it makes one access for the part (R288), and ACT. -/
structure Pend where
  op : PendOp
  len : Nat
  uni : Bool
  act : Word
  deriving DecidableEq, Repr

/-- A part (R124). `id` names it across splits and merges. `rbCount` counts the rollbacks under R105 since the last commit
(R114). `pend` is an access of its that waits for replies, `tlbis` the accesses that a TLBSYNC of its waits for (R370).
`under` is the instruction that it fetched last, with its program counter: while the part waits in it, it is not fetched
again (R42). `yielded` says that the part gives way for the next choice (R146); `header` is the header of the line last
fetched for the part (R33). -/
structure Part where
  id : Nat
  quads : QMask
  pc : DWord
  ring : Ring
  s : Vector Word 32
  p : Vector Word 8
  exec : Word
  aflags : Flags
  x : Vector Row 8
  xw : Vector Word 8
  runs : List Run
  rbCount : Nat
  drag : Bool
  dragCommits : Nat
  wait : Wait
  trap : Option Trap
  pend : Option Pend
  tlbis : List Nat
  yielded : Bool
  under : Option (DWord × Instr)
  header : DWord
  deriving DecidableEq, Repr

/-- A place in the order of R135: sub-core, gang slot, lowest quad. -/
structure SeatAt where
  core : Nat
  sub : Nat
  slot : Nat
  quad : Nat
  deriving DecidableEq, Repr

/-- The monitor arm of a gang (R329, R330): idle, armed on an entry, fired with the value read, given retry. -/
inductive Arm where
  | idle
  | armed (entry : Nat)
  | fired (value : DWord)
  | retry
  deriving DecidableEq, Repr

/-- A gang (R73, R124, R137, R209, R342, R345 to R347). `pool` are the numbers of the pool units that its window's lower
units stand in, `out` those that its upper units stood in before they went to the save area (R565). `psn` and `fto` are
GSTAT. -/
structure Gang where
  idx : Nat
  sub : Nat
  slot : Nat
  pool : List Nat
  out : List Nat
  v : Vector VReg 192
  bankS : Bank
  bankH : Bank
  bankM : Bank
  counters : Counters
  fto : Bool
  psn : Bool
  ftomask : Word
  aenable : Flags
  fpmode : Word
  rbcnt : Word
  dragEntries : Nat
  cmrg : Word
  crep : Word
  cjoin : Word
  arm : Arm
  latch : Latch
  cmdbuf : List Nat
  live : QMask
  parts : List Part
  parked : Bool
  monStop : Bool
  deriving DecidableEq, Repr

/-- The register window in units of four registers (R51, R140). -/
def Gang.units (g : Gang) : Nat := g.pool.length + g.out.length

/-- A barrier unit (R138): generation, the count its first arrival carried, and the gangs that have arrived. -/
structure Barrier where
  gen : Nat
  count : Nat
  arrived : List Nat
  deriving DecidableEq, Repr

/-- A line store buffer entry (R282) or a buffered reduction (R318), of partition `own`. `mask` has a bit for each byte of
the line, `data` holds the 64 bytes, `side` the sideband that the store leaves (none: untouched). `red` is a reduction: its
operation, 64-bit flag, storage address and operand. `leaves` are the table entries whose DRT bit the drain sets (R274), with
what the dirty log records of each. -/
structure StoreEntry where
  id : Nat
  own : Nat
  cohort : Nat
  gang : Nat
  part : Nat
  run : Nat
  core : Nat
  sub : Nat
  line : Nat
  mask : BitVec 64
  data : List Byte
  side : Option Side
  owned : Bool
  committed : Bool
  red : Option (AtomOp × Bool × Nat × DWord)
  leaves : List (Nat × Option DWord)
  deriving DecidableEq, Repr

/-- An allocation of a typed buffer (R72): base and size in bytes. -/
structure Alloc where
  base : Nat
  size : Nat
  deriving DecidableEq, Repr

/-- A cohort (R72, R138, R331, R563, R566, R568). `slot` is its cohort slot, none while it is halted; `shared` is the SP
offset of its shared area; `spilledSp` and the like say that an allocation stands in the save area (R565); `order` is the
order of its launch, `haltNo` the order of its halt; `spillsSp` and `spillsWb` count how often it has lost the allocation
(R402); `lastSlot` is the slot that it has or had last (R368); `progress` says that a part has committed a run since the last
resume (R568); `ended` that every gang has finished and only operations remain (R143); `dying` that it is to be killed when
its irrevocable accesses have ended, and whether its records are then released (R113, R360); `tainted` that an error struck
what it holds (R438). -/
structure Cohort where
  id : Nat
  part : Nat
  gslot : Nat
  stage : Nat
  core : Nat
  slot : Option Nat
  sp : Alloc
  wb : Alloc
  ab : Alloc
  shared : Nat
  recSize : Nat
  barriers : List Barrier
  gangs : List Gang
  halted : Bool
  idle : Bool
  ready : Bool
  spilledSp : Bool
  spilledWb : Bool
  spilledAb : Bool
  haltNo : Nat
  spillsSp : Nat
  spillsWb : Nat
  lastSlot : Nat
  bound : Bool
  order : Nat
  progress : Bool
  ended : Bool
  dying : Option Bool
  tainted : Bool
  saveIdx : Option Nat
  deriving DecidableEq, Repr

/-- A monitor entry (R325): whose it is, the storage address of its word, width flag, condition, signedness, compare value, and the
waiter: a part's lanes, or a gang's arm. -/
structure Monitor where
  id : Nat
  own : Nat
  addr : Nat
  w64 : Bool
  cond : Cond
  signed : Bool
  value : DWord
  cohort : Nat
  gang : Nat
  part : Option Nat
  lanes : Word
  deriving DecidableEq, Repr

/-- A lane's WAITC outcome so far (R326). -/
inductive LaneWait where
  | waiting | satisfied (v : DWord) | retry (v : DWord)
  deriving DecidableEq, Repr

/-- A part that waits in WAITC (R326): where it writes, its lanes' outcomes, and where it goes on. -/
structure WaitcRec where
  part : Nat
  lanes : List (Nat × LaneWait)
  deriving DecidableEq, Repr

/-- A cached translation (R273): where it is cached (a core's L1 TLB, or 192 plus the section for an L2 TLB), whose it
is, the page (its address bits and number), what the leaves of the two stages permit, where the page lies, the table entries it
came from, and what a log records of it (R554). -/
structure TlbEntry where
  home : Nat
  part : Nat
  vf : Nat
  asid : Nat
  glb : Bool
  size : Nat
  vpage : Nat
  rd : Bool
  wr : Bool
  ex : Bool
  usr : Bool
  cow : Bool
  two : Bool
  rd2 : Bool
  wr2 : Bool
  ex2 : Bool
  cow2 : Bool
  io : Bool
  tier : Nat
  peer : Nat
  page : Nat
  leaf : Nat
  leaf2 : Option Nat
  log : DWord
  deriving DecidableEq, Repr

/-- A non-leaf entry of a section's walk cache (R273): the entry's address in its own stage's space and its value. -/
structure WalkEntry where
  sec : Nat
  part : Nat
  two : Bool
  addr : Nat
  value : Nat
  deriving DecidableEq, Repr

/-- A walk that waits for its section's walker (R273): core, partition, graph slot, ring, virtual address, load or
store. -/
structure WalkReq where
  sec : Nat
  core : Nat
  part : Nat
  gslot : Nat
  ring : Ring
  va : DWord
  store : Bool
  deriving DecidableEq, Repr

/-- The configuration registers of a ring (R348, R349). -/
structure RegSet where
  tvec : DWord
  tscr : Vector Word 4
  eqbase : DWord
  eqcap : Word
  eqhead : Word
  eqtail : Word
  eqovf : Word
  deriving DecidableEq, Repr

/-- A log of the tier engine (R548, R553): base, entries in a half, entries in the open half, the half in use, overflow. -/
structure TierLog where
  base : DWord
  cap : Word
  n : Nat
  half : Bool
  ovf : Bool
  deriving DecidableEq, Repr

/-- A far-memory window (R23). -/
structure FmWindow where
  pa : DWord
  size : DWord
  ca : DWord
  sb : DWord
  deriving DecidableEq, Repr

end Sys2Proof.Machine
end

