-- ==== Sys2Proof/Machine/Engines.lean ====
section
/-!
DEFINITION. The records of the engines, the partitions and the package registers.
-/
namespace Sys2Proof.Machine

/-- Which error queue (R371, R373). -/
inductive EQ where
  | S (part : Nat) | H | M
  deriving DecidableEq, Repr

/-- A record before it is written (R373). -/
structure ErrRecord where
  kind : Nat
  cid : Nat
  core : Nat
  structure_ : Nat
  addr : Nat
  handle : Nat
  deriving DecidableEq, Repr

/-- A write of an agent of the package that waits for a page under a tier move (R91): a record of an error queue (R373), with
the cycle at which it was made; bytes at an address of the space of a partition, or of H's where `part` is 63, with what
partition's key, sideband and poison they come, and whether they may lie in local HBM only. -/
inductive EngWrite where
  | record (q : EQ) (e : ErrRecord) (cycle : Nat)
  | bytes (part own a : Nat) (bs : List Byte) (side : Option Side) (bad near : Bool)
  deriving DecidableEq, Repr

/-- A claim on a sub-core's register pool (R141): claiming part, core, sub-core, units, whether it is granted and which units
are set aside for it. -/
structure Claim where
  cohort : Nat
  gang : Nat
  part : Nat
  core : Nat
  sub : Nat
  n : Nat
  granted : Bool
  pool : List Nat
  deriving DecidableEq, Repr

/-- A request that is performed one at a time (R94, R97, R279, R317, R512, R604): of a part's access, or of a copy operation
(`copyOp`). `own` is the partition of its containment identifier (R371), `pos` its gang's position on the core and `port` the
port it was handed to (R507); `lane` and `va` are the lane's; `peer` is none for I/O space and for local lines, whose storage
address is `addr`; `off` is the place of its bytes in its lane's element; requests of one `group` are performed as one (R277,
R316); `sent` that it is under way; `deadline` counts fabric time for peers and cycles for I/O; `tout` says that the answer
is a timeout's or a failed I/O load's. -/
structure Request where
  id : Nat
  cohort : Nat
  gang : Nat
  part : Nat
  copyOp : Option Nat
  own : Nat
  pos : Nat
  port : Option Nat
  lane : Nat
  off : Nat
  group : Nat
  va : DWord
  peer : Option Nat
  io : Bool
  addr : Nat
  leaves : List (Nat × Option DWord)
  kind : PeerKind
  sent : Bool
  deadline : Nat
  ans : Option RemoteRep
  tout : Bool
  deriving DecidableEq, Repr

/-- A partition (R547 to R549, and the S set of R348). `kids` are the children that its last halt halted (R561), `began` the
cycle at which its slice began, `key` names its memory key (R546), `ends` is a reset that waits for its parts' run
boundaries, and whether a destroy follows it (R113, R573). -/
structure Partition where
  num : Nat
  level : Nat
  parent : Nat
  vf : Nat
  asidsel : Nat
  asids : Vector Word 16
  roots : Vector DWord 16
  ws : TierLog
  dl : TierLog
  active : Bool
  halting : Bool
  halted : Bool
  deadline : Word
  slice : Nat
  pool0 : DWord
  pool1 : DWord
  uevict : Word
  ufill : Word
  csel : Nat
  cctl : Nat
  lend : Nat
  secs : BitVec 48
  pshare : Nat
  tshare : Nat
  unit : Nat
  save : DWord
  slw : DWord
  s2 : DWord
  toff : DWord
  ctb : DWord
  regs : RegSet
  cdbg : Word
  reserve : DWord
  kids : List Nat
  began : Nat
  key : Nat
  ends : Option Bool
  deriving DecidableEq, Repr

/-- TDISP states (R595). -/
inductive Tdi where
  | unlocked | locked | run | error
  deriving DecidableEq, Repr

/-- The firmware in flash (R597, R602): the version that its header gives, the Prisha image behind that, the signature over
the hash of both, and the public key. -/
structure Flash where
  image : List Byte
  version : Nat
  sig : List Byte
  pub : List Byte
  deriving DecidableEq, Repr

/-- The package registers (R23, R348, R549, R597, R599, R600); the package key (R546); flash, rollback counter, the image and
version that the boot ROM has verified and the device key (R597, R598); the functions' states and configuration writes (R595,
R596); the power limit, whether its last write was taken, and the sections' grants in 1/65,536 W (R599). -/
structure Package where
  number : Nat
  fmsel : Nat
  fm : Vector FmWindow 4
  setH : RegSet
  setM : RegSet
  hrsvsel : Nat
  mrsv : DWord
  hpctl : Nat
  softErr : List (Nat × Nat)
  key : Nat
  flash : Flash
  rollback : Nat
  verified : List Byte × Nat
  devKey : Option Nat
  vfs : List (Nat × Tdi)
  cfg : List (Nat × Nat × Word)
  power : Nat
  powerOk : Bool
  grants : List (Nat × Nat)
  deriving DecidableEq, Repr

/-- The firmware image that is hashed and signed (R597, R602). DESIGN CHOICE: its header is the version in 8 bytes (log 2). -/
def Flash.firmware (f : Flash) : List Byte := natLe 8 f.version ++ f.image

/-- The package registers without the keys, which nothing reads (R546, R598). -/
def Package.noKeys (k : Package) : Package := { k with key := 0, devKey := none }

/-! The copy engine -/

/-- An end of a copy (R380): a virtual address, or a place in a typed buffer as a storage address. -/
inductive CopyEnd where
  | glob (va : DWord)
  | buf (a : SAddr)
  deriving DecidableEq, Repr

/-- What a copy does (R393 to R395, R399 to R401): rows of bytes with a source and a destination stride (CPY: one row); a
fill with a pattern and a format code; a gather or an append of `n` bytes at offset `off` of a sequence through a pool's
descriptor; a multicast into SP or WB at an offset of each target's. -/
inductive CopyKind where
  | rows (rb rows : Nat) (ss ds : Int)
  | fill (n : Nat) (pat : Word) (code : Nat)
  | gather (pool : DWord) (off n : Nat)
  | append (pool : DWord) (off n : Nat)
  | cast (mask : Word) (n : Nat) (wb : Bool) (off : Nat)
  deriving DecidableEq, Repr

/-- A copy command with its captured operands (R382): ends, the table (block table or receiver table), the sync word's
storage address, whose translation it uses, its core and gang position on it (R507), and which ends began at a peer. -/
structure CopyCmd where
  kind : CopyKind
  dst : CopyEnd
  src : CopyEnd
  table : DWord
  sync : Option SAddr
  own : Nat
  core : Nat
  gslot : Nat
  ring : Ring
  lane : Nat
  dstPeer : Bool
  srcPeer : Bool
  deriving DecidableEq, Repr

/-- The partition of the containment identifier of a copy's accesses (R371). -/
def CopyCmd.key (c : CopyCmd) : Nat := if c.ring = .H ∨ c.ring = .M then 63 else c.own

/-- A line read for a chunk (R403, R404): its storage line (for a peer, none), its bytes, sideband, the poisoned line it
carries, and, unless it merged into another read, the cores its reply goes to. -/
structure LineRead where
  line : Option Nat
  bs : List Byte
  side : Side
  bad : Option Nat
  merged : Bool
  cores : List Nat
  deriving DecidableEq, Repr

/-- A chunk under way (R85): its bytes; the sideband all its sources share; the poisoned line it read; the reads it made;
where it goes (for a multicast `dst` is its offset in the range); whether its bytes count (R400); whether its data is here and
its remote write is sent. -/
structure Flight where
  data : List Byte
  side : Option Side
  bad : Option Nat
  reads : List LineRead
  dst : Nat
  dstPeer : Option Nat
  leaves : List (Nat × Option DWord)
  len : Nat
  counts : Bool
  ready : Bool
  sent : Bool
  deriving DecidableEq, Repr

/-- A pool as its descriptor gives it (R397). -/
structure Pool where
  base : Nat
  lbs : Nat
  n : Nat
  free : Nat
  cap : Nat
  refs : Nat
  deriving DecidableEq, Repr

/-- A multicast target (R401): its cohort, how often that had lost an allocation (R402), core, destination and sync word. -/
structure Target where
  cohort : Nat
  spills : Nat
  core : Nat
  dst : SAddr
  sync : Option SAddr
  deriving DecidableEq, Repr

/-- How far an operation through a block table is with its block (R399, R400): all of its source is read first (R85); its
entry is read next; a block is popped; the free list is read at a place; leading bytes are copied; whether its own bytes
overlap their source is decided (R85); its own bytes; its reference count, its entry and the old block's count are written.
-/
inductive BlockPhase where
  | take | entry | pop | free (h : Nat) | lead | meet | data | refs | mark | lower
  deriving DecidableEq, Repr

/-- A copy operation (R386): `place` is its place in the order in which operations passed; `pos` bytes of its range have been
read, `lead` those of the leading bytes of a block; `blk` is the block under way, `old` the shared block it replaces, `fresh`
that its entry is to be written; `upto` is where the block's bytes end in the range; `whole` that every chunk is read before
any is written; `looked` that an append has looked ahead to its blocks, `stash` what it has read before it writes (R85);
`join` the multicast it joined and the first joined line (R405), `recv` the joined lines that have arrived. -/
structure CopyOp where
  id : Nat
  place : Nat
  cohort : Nat
  gang : Nat
  cmd : CopyCmd
  pos : Nat
  flights : List Flight
  whole : Bool
  started : Bool
  pool : Option Pool
  phase : BlockPhase
  looked : Bool
  blk : Nat
  old : Option Nat
  fresh : Bool
  lead : Nat
  upto : Nat
  targets : List Target
  join : Option (Nat × Nat)
  stash : List Flight
  recv : List (Nat × LineRead)
  ended : Bool
  deriving DecidableEq, Repr

/-- The copy engines of all cores (R386): operations in the order in which they passed, and by core the place of the operation
that issued last. -/
structure CopyState where
  ops : List CopyOp
  last : List (Nat × Nat)
  deriving DecidableEq, Repr

/-! The matrix engine -/

/-- What a matrix operation computes (R424, R444 to R446): products with the A and B formats found at issue; zeros; a
conversion with its scale; a sum. -/
inductive MatKind where
  | mma (fa fb : TypeCode) (z : Bool)
  | clr
  | cvt (t : TypeCode) (scale : Nat)
  | acc
  deriving DecidableEq, Repr

/-- A matrix command with its captured operands (R417 to R421, R427, R435): the A rows; storage addresses of the tile, the
destination and the source rows, and of the follower's tile and destination; the partner of a team operation. -/
structure MatCmd where
  kind : MatKind
  rows : Nat
  a : List VReg
  tile : SAddr
  dst : SAddr
  src : SAddr
  pair : Bool
  tile2 : SAddr
  dst2 : SAddr
  team : Option Nat
  own : Nat
  core : Nat
  deriving DecidableEq, Repr

/-- A granule of a loaded tile (R419): its bytes and its sideband when read. -/
structure Granule where
  bs : List Byte
  side : Side
  deriving DecidableEq, Repr

/-- A matrix operation (R430): rows written, and the row that has entered the array and waits to be written. -/
structure MatOp where
  id : Nat
  cohort : Nat
  gang : Nat
  cmd : MatCmd
  started : Bool
  row : Nat
  entered : Option (List Byte)
  ended : Bool
  deriving DecidableEq, Repr

/-- The tile that an array keeps (R432): where it was loaded from, its granules, and whether none of them has been written
there since. -/
structure Kept where
  core : Nat
  addr : SAddr
  tile : List Granule
  clean : Bool
  deriving DecidableEq, Repr

/-- The matrix engines of all cores (R430, R432): operations in the order in which they reached their engines. -/
structure MatrixState where
  ops : List MatOp
  kept : List Kept
  deriving DecidableEq, Repr

/-! The stage engine -/

/-- A queue's settings (R456): LSIZE, LRING, flags, HOME as the partition sees it, CCAP, CBASE. -/
structure QDesc where
  lsize : Nat
  lring : Nat
  entry : Bool
  mirror : Bool
  home : Nat
  ccap : Nat
  cbase : Nat
  deriving DecidableEq, Repr

/-- A stage's settings (R68, R459): input and output queue indices, gangs, weight, minimum batch, batch timer, units for each
gang, gate percentage, shared area in 256-byte units, WB and AB in 4 KiB units, the address of its first code line. -/
structure StageDesc where
  input : Nat
  outs : List Nat
  gangs : Nat
  weight : Nat
  batch : Nat
  timer : Nat
  units : Nat
  gate : Nat
  shared : Nat
  wb : Nat
  ab : Nat
  code : DWord
  deriving DecidableEq, Repr

/-- A stage of a slot (R486, R560): its settings, STOP, its declared pages, and how many of them the last count found
resident. -/
structure StageSet where
  desc : StageDesc
  stopped : Bool
  listed : Option (List DWord)
  resident : Nat
  deriving DecidableEq, Repr

/-- A graph slot with settings (R455): queues and stages by index, whether it is bound, the address of the data block (R73). -/
structure Graph where
  part : Nat
  slot : Nat
  queues : List (Nat × QDesc)
  stages : List (Nat × StageSet)
  bound : Bool
  data : DWord
  deriving DecidableEq, Repr

/-- A record (R466), the cycle of its enqueue (R467), and whether it is poisoned (R514, log 73). -/
structure Record where
  bs : List Byte
  cycle : Nat
  bad : Bool
  deriving DecidableEq, Repr

/-- Who holds a record in flight (R465, R523): a gang, or a batch of a mirror entry. -/
inductive Holder where
  | gang (co g : Nat)
  | batch (entry seq : Nat)
  deriving DecidableEq, Repr

/-- A record in flight. -/
structure Held where
  r : Record
  who : Holder
  deriving DecidableEq, Repr

/-- A QPOP .wait that waits at the home slice (R482): its gang and part, n, its destination, length and ACT; and the records
that it has been served, while its cohort has lost the places that they go to (log 75). -/
structure PopWait where
  cohort : Nat
  gang : Nat
  part : Nat
  n : Nat
  d : Opnd
  len : Nat
  pred : Pred
  got : Option (List Record)
  deriving DecidableEq, Repr

/-- A dequeue request (R464): of a launch on a core, or of a port for a mirror entry. -/
inductive Ask where
  | launch (core n : Nat)
  | batch (port entry n : Nat)
  deriving DecidableEq, Repr

/-- What stands in line at a home slice to enqueue (R462): a push operation, or a host record. -/
inductive Enq where
  | push (op : Nat)
  | host (bs : List Byte)
  deriving DecidableEq, Repr

/-- A bound queue at its home slice (R461 to R465): queued records in the ring and in the coach house, oldest first, the
first `transit` of the latter on their way into the ring; records in flight in dequeue order; enqueuers in order of
arrival; dequeue requests and waiting QPOPs in order of arrival; host records dropped; the next coach-house slot. -/
structure Queue where
  key : QKey
  desc : QDesc
  home : Nat
  ring : List Record
  coach : List Record
  transit : Nat
  flight : List Held
  line : List Enq
  asks : List Ask
  pops : List PopWait
  drop : Word
  next : Nat
  deriving DecidableEq, Repr

/-- The records of a push (R479, R485): places in SP; a template there, a count and a base; and, once they have been read, with
the line whose poison they carry, the records, or the template. -/
inductive PushSrc where
  | places (l : List SAddr)
  | seed (a : SAddr) (k : Nat) (base : Word)
  | read (l : List (List Byte × Option Nat))
  | form (bs : List Byte) (bad : Option Nat) (k : Nat) (base : Word)
  deriving DecidableEq, Repr

/-- A queue-push command (R479): its queue, the record size, and its records. -/
structure PushCmd where
  key : QKey
  size : Nat
  src : PushSrc
  deriving DecidableEq, Repr

/-- A queue-push operation (R480): how many records it has enqueued. -/
structure PushOp where
  id : Nat
  cohort : Nat
  gang : Nat
  cmd : PushCmd
  count : Nat
  ended : Bool
  deriving DecidableEq, Repr

/-- A summary entry as a core or port has it (R467). -/
structure Summary where
  dst : SumDst
  key : QKey
  len : Nat
  aged : Bool
  deriving DecidableEq, Repr

/-- A launch whose dequeue request is out (R473): its core, cohort and queue, and the records of the reply. -/
structure Launch where
  core : Nat
  cohort : Nat
  key : QKey
  recs : Option (List Record)
  deriving DecidableEq, Repr

/-- The stage engine (R455 to R496); `again` are the cores that are to decide again, `decided` from which cycle on each that
has decided may (R472). -/
structure StageState where
  graphs : List Graph
  queues : List Queue
  pushes : List PushOp
  sums : List Summary
  launches : List Launch
  again : List Nat
  decided : List (Nat × Nat)
  deriving DecidableEq, Repr

/-- What a buffered or passed command asks of its engine (R107). -/
inductive CmdBody where
  | copy (c : CopyCmd)
  | matrix (c : MatCmd)
  | push (c : PushCmd)
  deriving DecidableEq, Repr

/-- The classes of engine commands (R137, R157). -/
def CmdBody.cls : CmdBody → EngClass
  | .copy _ => .copy | .matrix _ => .matrix | .push _ => .push

/-- A command of a gang (R107): its number, who issued it, and what it asks. -/
structure Cmd where
  id : Nat
  cohort : Nat
  gang : Nat
  part : Nat
  body : CmdBody
  deriving DecidableEq, Repr

/-! The fabric engine -/

/-- Port states (R499). -/
inductive PortState where
  | disabled | training | up | standby | failed
  deriving DecidableEq, Repr

/-- What flits carry (R500, R511, R521, R524, R525, R502); `back` is the sender's mirror index. -/
inductive FMsg where
  | request (q : PeerReq)
  | reply (id : Nat) (rep : RemoteRep)
  | batch (back entry seq : Nat) (recs : List (List Byte × Bool)) (deadline : Nat)
  | batchAck (entry seq : Nat)
  | batchRefusal (entry seq : Nat)
  | report (entry len room rseq : Nat)
  | replay (lseq : Nat)
  | idle
  deriving DecidableEq, Repr

/-- What the transaction header of a request asks of its address (R511); the bytes and the sideband of a store stand in the
flit's data fields. With what further lanes ask of the word of an atomic (R316). -/
inductive ReqAsk where
  | load (len : Nat)
  | store (len : Nat)
  | rmw (op : AtomOp) (w64 : Bool) (b : DWord) (more : List (AtomOp × DWord))
  | cas (w64 : Bool) (cmp new : DWord) (more : List (DWord × DWord))
  deriving DecidableEq, Repr

/-- The transaction header of a request (R500, R511): its number and its part at the source, the address here, what it asks,
its deadline. -/
structure ReqHead where
  id : Nat
  part : Nat
  addr : Nat
  ask : ReqAsk
  deadline : Nat
  deriving DecidableEq, Repr

/-- The transaction header of a reply or acknowledgement (R500, R511, R513, R525); the data of `data` stand in the flits' data. -/
inductive RepHead where
  | data (id len : Nat)
  | ack (id : Nat)
  | refused (id : Nat)
  | batchAck (entry seq : Nat)
  | batchRefusal (entry seq : Nat)
  deriving DecidableEq, Repr

/-- The transaction header of a record batch (R500, R523, R524): the sender's mirror index, the receiver's, the sequence number,
how many records of which size, the deadline. -/
structure BatchHead where
  back : Nat
  entry : Nat
  seq : Nat
  count : Nat
  size : Nat
  deadline : Nat
  deriving DecidableEq, Repr

/-- What link control asks (R502, R521). -/
inductive LinkAsk where
  | report (entry len room rseq : Nat)
  | replay (lseq : Nat)
  deriving DecidableEq, Repr

/-- What a flit's KIND and header make of it (R500). -/
inductive Head where
  | idle
  | control (a : LinkAsk)
  | request (h : ReqHead)
  | reply (h : RepHead)
  | batch (h : BatchHead)
  deriving DecidableEq, Repr

/-- A flit in the replay buffer, as it was sent, and when it was last sent (R502). -/
structure Sent where
  flit : Flit
  time : Nat
  deriving DecidableEq, Repr

/-- What waits for tokens (R516): a request, or a batch of a mirror entry. -/
inductive Metered where
  | req (id : Nat)
  | batch (entry seq : Nat)
  deriving DecidableEq, Repr

/-- A place in a port's token queue: partition and flits (R516). -/
structure TokenWait where
  part : Nat
  flits : Nat
  what : Metered
  deriving DecidableEq, Repr

/-- A port (R499 to R505): its state, whether training leads to STANDBY and when it began; its peer; the transmit key with
its index, the slot that new flits name, the flits it has carried; the receive slots' keys and the slot whose key was
installed beside a live one and has brought no flit yet (R504); the next LSEQ to send and to accept (none: any); flits ready
to go; the replay buffer, the LSEQ from which it is sent again, and how often the oldest was; when the last valid flit came;
flits of messages that are not complete; requests that wait for tokens; which partitions have had demand in this microsecond
(R517); the cycle from which on it may decide again, and whether a decision waits for it (R523). -/
structure Port where
  num : Nat
  state : PortState
  standby : Bool
  since : Nat
  peer : Nat
  txKey : Option (List Byte × Nat)
  txSlot : Bool
  txCount : Nat
  rx0 : Option (List Byte)
  rx1 : Option (List Byte)
  rxNew : Option Bool
  nextTx : Nat
  nextRx : Option Nat
  egress : List Flit
  held : List Sent
  again : Option Nat
  replays : Nat
  lastValid : Nat
  gathered : List Flit
  waiting : List TokenWait
  demand : List Nat
  decideAt : Nat
  decides : Bool
  deriving DecidableEq, Repr

/-- A port without its keys, which nothing reads (R504). -/
def Port.noKeys (p : Port) : Port :=
  { p with txKey := p.txKey.map fun k => ([], k.2), rx0 := p.rx0.map fun _ => [], rx1 := p.rx1.map fun _ => [] }

/-- A token bucket of a partition on a port (R515). -/
structure Bucket where
  port : Nat
  part : Nat
  rate : Nat
  depth : Nat
  weight : Nat
  balance : Nat
  deriving DecidableEq, Repr

/-- A route word's written fields (R506). -/
structure Route where
  fb : Bool
  force : Bool
  relay : Nat
  deriving DecidableEq, Repr

/-- A batch that its entry has sent (R523, R525): its records and whether each is poisoned, its port, its deadline, and
whether it has been settled; a settled one stays until a report covers it (R522). -/
structure Batch where
  seq : Nat
  recs : List (List Byte × Bool)
  port : Nat
  deadline : Nat
  settled : Bool
  deriving DecidableEq, Repr

/-- A batch that the receiver holds (R524). -/
structure HeldBatch where
  seq : Nat
  recs : List (List Byte × Bool)
  deadline : Nat
  deriving DecidableEq, Repr

/-- A mirror entry (R520 to R525): its queue and peer, W and threshold; records forwarded; the next sequence number; the last
report; batches sent; the next sequence number to enqueue, batches held, sequence numbers above it that are complete, and
those that were discarded for their deadline (R524); RSEQ. -/
structure Mirror where
  idx : Nat
  key : QKey
  peer : Nat
  pidx : Nat
  w : Nat
  theta : Nat
  sentRecs : Word
  seq : Nat
  repLen : Nat
  repRoom : Nat
  repSeq : Nat
  batches : List Batch
  expect : Nat
  held : List HeldBatch
  complete : List Nat
  dropped : List Nat
  rseq : Nat
  deriving DecidableEq, Repr

/-- A grant (R513, R533). -/
structure Grant where
  idx : Nat
  pkg : Nat
  part : Nat
  own : Nat
  base : Nat
  size : Nat
  deriving DecidableEq, Repr

/-- A peer's request that waits at its ingress (R94, R537, R558): `own` is the partition of the grant that it has passed (R533). -/
structure HeldReq where
  q : PeerReq
  own : Option Nat
  deriving DecidableEq, Repr

/-- The fabric engine (R497 to R538): what link training has added to the package's own count of fabric time (R510), ports, buckets and
routes that differ from their reset values, packages whose traffic a failed port has moved to relay (R499), mirror entries, grants, the
partitions' remote timeouts in microseconds (R511), peer requests that wait (R94, R558). -/
structure FabricState where
  offset : Int
  ports : List Port
  buckets : List Bucket
  routes : List (Nat × Route)
  moved : List Nat
  mirrors : List Mirror
  grants : List Grant
  rtos : List (Nat × Nat)
  ingress : List HeldReq
  deriving DecidableEq, Repr

/-! The tier engine -/

/-- Whose translation an address takes (R576). -/
structure Whose where
  core : Nat
  part : Nat
  gslot : Nat
  ring : Ring
  deriving DecidableEq, Repr

/-- What a tier job does (R577). -/
inductive JobKind where
  | swap (up : Bool)
  | close (dirty : Bool)
  | declare
  | undeclare
  | halt (stop : Bool)
  deriving DecidableEq, Repr

/-- A tier job (R572, R577): who issued it and for which partition; its list, graph slot and stage; its completion word; entries
handled, COUNT, whether entries were skipped, RESULT when it was stopped, whether it has begun, whether it waits for a move; `hold` are
the accesses that a close waits for (R555). -/
structure Job where
  id : Nat
  owner : Nat
  target : Nat
  kind : JobKind
  whose : Whose
  list : DWord
  len : Nat
  slot : Nat
  stage : Nat
  word : DWord
  pos : Nat
  count : Nat
  short : Bool
  result : Nat
  begun : Bool
  moving : Bool
  finished : Bool
  hold : List Nat
  deriving DecidableEq, Repr

/-- A page move under way (R557): its job, the partition of the page, the leaf's physical address, the target tier, the
page's old place and its new one as storage addresses, the new frame; whether the move is over and only the old frame is
still to go to its pool. -/
structure Move where
  id : Nat
  job : Nat
  part : Nat
  leaf : Nat
  up : Bool
  old : Nat
  new : Nat
  oldFrame : Nat
  newFrame : Nat
  done : Bool
  deriving DecidableEq, Repr

/-- A halt under way (R561, R562, R567, R571): its partition, when it began, the job of HALTC (none: a slice expiry or an error),
whether a slice word is due, the halt numbers from which on cohorts are its own, whether it has killed. -/
structure Halt where
  part : Nat
  start : Nat
  job : Option Nat
  slice : Bool
  mark : Nat
  killed : Bool
  deriving DecidableEq, Repr

/-- A section lent (R552). -/
structure Lend where
  lender : Nat
  sec : Nat
  borrower : Nat
  deriving DecidableEq, Repr

/-- A pinned page (R579): partition, the leaf's physical address, pin count. -/
structure Pin where
  part : Nat
  leaf : Nat
  count : Nat
  deriving DecidableEq, Repr

/-- The tier engine (R539 to R589); `lastOwner` is the partition whose job began the last move (R559), `onSecs` who was
active on each section when that was last noted (R15, R561). -/
structure TierState where
  jobs : List Job
  moves : List Move
  halts : List Halt
  lends : List Lend
  pins : List Pin
  lastOwner : Nat
  onSecs : List (Nat × Nat)
  deriving DecidableEq, Repr

/-- How far the package has come since reset (R597, R602): the boot ROM has not run; it runs recovery; it has started
the firmware. -/
inductive Boot where
  | notBooted | recovery | running
  deriving DecidableEq, Repr

/-- What a scan readout holds (R601). -/
structure Scan where
  agenda : List Instr
  turn : Option SeatAt
  owed : List (Nat × Nat)
  boot : Boot
  owners : List (Nat × Nat × Nat)
  cycle : Nat
  mem : List (Nat × Byte)
  sides : List (Nat × Side)
  poison : List Nat
  stores : List StoreEntry
  cmds : List Cmd
  monitors : List Monitor
  cohorts : List Cohort
  claims : List Claim
  parts : List Partition
  pkg : Package
  tlb : List TlbEntry
  walkCache : List WalkEntry
  walks : List WalkReq
  bufPoison : List (Nat × Nat)
  hostHeld : List Nat
  waitcs : List WaitcRec
  lastLane : List (Nat × Nat × Int × Nat × Option Nat)
  spoiled : List (Nat × Option (Nat × BitVec 13))
  hostWaits : List Instr
  engWaits : List EngWrite
  reqs : List Request
  copy : CopyState
  matrix : MatrixState
  stage : StageState
  fabric : FabricState
  tier : TierState
  deriving DecidableEq, Repr

/-- What leaves the package (R90, R501, R591 to R601, R604): the monitor alarm; a back-invalidation; accesses to I/O space, at the
address of their CXL.io requests (R22); a flit; the answer to a host read, none for poison; an attestation report; the status
of a power limit write; a scan readout; what the management port reads (R600). -/
inductive Output where
  | alarm
  | backInvalidate (line : Nat)
  | ioRead (id addr len : Nat)
  | ioWrite (addr : Nat) (bs : List Byte)
  | flit (port : Nat) (f : Flit)
  | hostData (vf addr : Nat) (bs : Option (List Byte))
  | report (vf : Nat) (bs : List Byte)
  | powerStatus (ok : Bool)
  | scan (x : Scan)
  | management (bs : List Byte)
  deriving DecidableEq, Repr

end Sys2Proof.Machine
end

