-- ==== Sys2Proof/Config.lean ====
section
/-!
DEFINITION. Values that the spec leaves open: constants without a body, so that no proof can rest on what they are.
-/
namespace Sys2Proof.Config

open Sys2Proof.Machine

/-- The results of FRCP, FRSQ, FEXP2, FLOG2, FSIN and FCOS, numbered from 0 in this order, as functions of the input and FTZ
(R226). Used only where R226's bound admits them (log 7). -/
opaque special : Nat → Word → Bool → Word

/-- A fresh value for what the spec leaves open, by a counter of the state (log 8). -/
opaque free : Nat → Nat

/-- A byte that the spec leaves open: number of the value, place of the byte (log 8). -/
opaque freeByte : Nat → Nat → Byte

/-- What one key and physical line make of bytes that were encrypted under another key or at another line (R546, log 9): the
key and the line of the write, those of the read, the bytes that were written, the place of the byte. -/
opaque recrypt : Nat → Nat → Nat → Nat → List Byte → Nat → Byte

/-- SM4-GCM (R503, log 9): the tag's bytes, from key, nonce, clear and sealed bytes; and the key stream, from key and nonce. -/
opaque gcmTag : List Byte → Nat → List Byte → List Byte → Nat → Byte
opaque gcmStream : List Byte → Nat → Nat → Byte

/-- The transaction header of a message's flit (R500 gives its place, not its layout; log 30): message, flit, place. -/
opaque txHeader : FMsg → Nat → Nat → Byte

/-- The bytes of a link-control message (R500 gives their place, not their layout; log 30): message, place. -/
opaque linkContent : FMsg → Nat → Byte

/-- What link training adds to a package's count of fabric time (R510, log 72), by a counter of the state. -/
opaque timeOffset : Nat → Int

/-- What the transaction header of a flit says, by the flit's KIND, where it is one of that kind; link control has content in
its data field too (R500 gives their places, not their layout; log 30). -/
opaque reqHead : (header : List Byte) → Option ReqHead
opaque repHead : (header : List Byte) → Option RepHead
opaque batchHead : (header : List Byte) → Option BatchHead
opaque linkAsk : (header data : List Byte) → Option LinkAsk

/-- The key index that a receive slot takes from its flits (R533, log 30): port, slot, flit without its tag. -/
opaque keyIndex : Nat → Bool → Flit → Nat

/-- The port at the far end of a port's cable (R497, log 30). -/
opaque farPort : Nat → Nat

/-- SM3 and SM2 (R597, R598, log 9): the bytes of a digest and of a signature. -/
opaque sm3 : List Byte → Nat → Byte
opaque sm2 : Nat → List Byte → Nat → Byte

/-- The hash of a public key that is fused into the package, and whether a signature over a digest holds under a public key (R597, log 9). -/
opaque fusedKey : Nat → Byte
opaque sm2Holds : (key digest sig : List Byte) → Bool

/-- The power that a section drew in a microsecond, in 1/65,536 W, and whether it was throttled (R599, log 31). -/
opaque powerUsed : Nat → Nat → Nat
opaque throttled : Nat → Nat → Bool

/-- Whether the overflow part of the read-set filter, with the lines that it took, hits another line (R14, R105, log 65). -/
opaque overflowHit : List Nat → Nat → Bool

end Sys2Proof.Config
end

