-- ==== Sys2Proof/Machine/Admit.lean ====
section
/-!
DEFINITION. Which operands, types and options each instruction form admits (R46 to R51, and the encoding table of each
engine chapter): the part of row 10 of R56 that depends on the bits alone. What depends on the ring, the window or the
run is checked where the instruction issues (Machine/Issue.lean).
-/
namespace Sys2Proof

/-- PRED = 0b1000 is reserved (R45). -/
def Pred.ok (p : Pred) : Bool := !(p.reg == 0 && p.neg)

/-- 64-bit type codes (R176). -/
def TypeCode.wide : TypeCode → Bool
  | .i64 | .n64 | .b64 => true
  | _ => false

def TypeCode.isI32N32 (t : TypeCode) : Bool := t == .i32 || t == .n32
def TypeCode.isI64N64 (t : TypeCode) : Bool := t == .i64 || t == .n64
def TypeCode.isInt (t : TypeCode) : Bool := t.isI32N32 || t.isI64N64
def TypeCode.isB32B64 (t : TypeCode) : Bool := t == .b32 || t == .b64

/-- Types of LD, ST and the local forms (R285). -/
def TypeCode.isMem (t : TypeCode) : Bool := t == .b8 || t == .b16 || t == .b32 || t == .b64 || t == .b128

/-- Destination types of CVT (R229): the formats, .i32 and .n32. -/
def TypeCode.isCvtDst : TypeCode → Bool
  | .f32 | .f16 | .bf16 | .e4m3 | .e5m2 | .e2m1 | .int8 | .int4 | .lg8 | .lg4 | .i32 | .n32 => true
  | _ => false

/-- Destination formats of MCVT, codes 0x02 to 0x0A (R441). -/
def TypeCode.isMcvt : TypeCode → Bool
  | .f16 | .bf16 | .e4m3 | .e5m2 | .e2m1 | .int8 | .int4 | .lg8 | .lg4 => true
  | _ => false

/-- Registers of a type in a register file of 32-bit registers (R50, R286). -/
def TypeCode.regs (t : TypeCode) : Nat := if t == .b128 then 4 else if t.wide then 2 else 1

/-- Registers per row that LDW writes (R294). -/
def LdwSrc.regs : LdwSrc → Nat
  | .e2m1 | .int4 => 4
  | _ => 2

/-- The type that a source code of CVT names (R229). -/
def SrcCode.code : SrcCode → TypeCode
  | .f32 => .f32 | .f16 => .f16 | .bf16 => .bf16 | .e4m3 => .e4m3 | .e5m2 => .e5m2 | .e2m1 => .e2m1
  | .int8 => .int8 | .int4 => .int4 | .lg8 => .lg8 | .lg4 => .lg4 | .i32 => .i32 | .n32 => .n32

namespace Opnd

def isV : Opnd → Bool | .v _ => true | _ => false
def isS : Opnd → Bool | .s _ => true | _ => false
def isX : Opnd → Bool | .x _ => true | _ => false
def isP : Opnd → Bool | .p _ => true | _ => false

/-- A predicate destination: p1 to p7, never p0 (R49). -/
def isP17 : Opnd → Bool | .p n => n.val != 0 | _ => false
def isVX (o : Opnd) : Bool := o.isV || o.isX
def isVSX (o : Opnd) : Bool := o.isV || o.isS || o.isX
def isVSX0 (o : Opnd) : Bool := o.isVSX || o == .zero
def isVS0 (o : Opnd) : Bool := o.isV || o.isS || o == .zero
def isS0 (o : Opnd) : Bool := o.isS || o == .zero
def isS0I (o : Opnd) : Bool := o.isS0 || o == .imm

/-- An even pair of the s file (R50). -/
def pairS : Opnd → Bool | .s n => n.val % 2 == 0 | _ => false

/-- An even pair of the v, s or x file (R50). -/
def pairVSX : Opnd → Bool
  | .v n => n.val % 2 == 0 | .s n => n.val % 2 == 0 | .x n => n.val % 2 == 0 | _ => false

/-- A global base (R286): an even v, x or s pair, or 0xF0. -/
def basePair (o : Opnd) : Bool := o.pairVSX || o == .zero

/-- A uniform global base: an even s pair, or 0xF0. -/
def basePairU (o : Opnd) : Bool := o.pairS || o == .zero

/-- A local offset (R286): a v, x or s register, or 0xF0. -/
def offReg (o : Opnd) : Bool := o.isVSX0

/-- A group of four s registers (R392). -/
def isGroup : Opnd → Bool | .s n => n.val % 4 == 0 | _ => false

/-- Per-lane specifiers (R167). -/
def perLane : Opnd → Bool
  | .v _ | .x _ | .lane | .quad => true
  | _ => false

/-- 32-bit destinations (R170, R171, R176): v, s, x, 0xF0 and EXEC. -/
def dst32 (o : Opnd) : Bool := o.isVSX0 || o == .exec

/-- 64-bit destinations (R168): an even pair or 0xF0. -/
def dst64 (o : Opnd) : Bool := o.pairVSX || o == .zero

/-- Destinations of PAND, POR, PXOR and PNOT (R175). -/
def dstPred (o : Opnd) : Bool := o.isP17 || o.isS || o == .exec

end Opnd

namespace Machine

/-- 0xF5 stands only in X format (R49). -/
def immOnlyX (f : Fmt) (o : Opnd) : Bool := o != .imm || f == .X

/-- A 32-bit source (R167). -/
def src32 (f : Fmt) : Opnd → Bool
  | .rsv _ => false
  | o => immOnlyX f o

/-- A 64-bit source (R168). -/
def src64 (f : Fmt) (o : Opnd) : Bool :=
  o.pairVSX || o == .zero || o == .lane || o == .quad || o == .gang || (o == .imm && f == .X)

/-- A uniform 32-bit source (R167, R176). -/
def uni32 (f : Fmt) (o : Opnd) : Bool := src32 f o && !o.perLane

def srcT (t : TypeCode) (f : Fmt) (o : Opnd) : Bool := if t.wide then src64 f o else src32 f o
def dstT (t : TypeCode) (o : Opnd) : Bool := if t.wide then o.dst64 else o.dst32
def vxT (t : TypeCode) (o : Opnd) : Bool := o.isVX && (!t.wide || o.pairVSX)

/-- An X encoding whose IMM32 is only an operand is legal only with 0xF5 in a source position (R48). -/
def needImm (f : Fmt) (os : List Opnd) : Bool := f != .X || os.any (· == .imm)

/-- IMM32 is zero unless 0xF5 stands in an operand position (R391). -/
def immIfUsed (os : List Opnd) (imm : Word) : Bool := imm == 0 || os.any (· == .imm)

/-- 0xF0 or an s register in L format, 0xF5 in X format (R157, R362). -/
def uniOrImm (f : Fmt) (o : Opnd) : Bool := if f == .X then o == .imm else o.isS0

/-- An s register in L format, 0xF5 in X format (R362, R476). -/
def sOrImm (f : Fmt) (o : Opnd) : Bool := if f == .X then o == .imm else o.isS

/-- A length of TPIN, TUNPIN and TRES: s or 0xF0 in L format, 0xF5 in X format (R576, R48). -/
def lenOk (f : Fmt) (o : Opnd) : Bool := if f == .X then o == .imm else o.isS0

/-- Parcel index of a direct target below 30 (R39). -/
def parcelOk (imm : Word) : Bool := imm.toNat % 32 < 30

/-- The A operand and IMM32 of REGANG (R155). -/
def regangOk (f : Fmt) (a : Opnd) (imm : Word) : Bool := uniOrImm f a && (f != .X || imm.toNat < 256)

/-- The A operand and IMM32 of BAR (R156). -/
def barOk (f : Fmt) (a : Opnd) (imm : Word) : Bool :=
  if f == .X then a == .imm && imm.toNat < 512 && imm.toNat / 16 ≤ 16 else a == .zero

/-- A register group from a v base stays below v192 (R286). -/
def rowsFit : Opnd → Nat → Bool
  | .v n, r => n.val + r ≤ 192
  | _, _ => false

/-- Groups of XPOSE (R262): the same group or disjoint ones. -/
def xposeOk : Opnd → Opnd → Bool
  | .v d, .v a => d.val + 8 ≤ 192 && a.val + 8 ≤ 192 && (d == a || d.val + 8 ≤ a.val || a.val + 8 ≤ d.val)
  | _, _ => false

/-- Type and operation pairings of QRED, PREFIX and GRED (R255). -/
def redOk (t : TypeCode) (op : RedOp) : Bool :=
  match t with
  | .i32 | .n32 | .f32 => op == .add || op == .min || op == .max
  | .b32 => op == .and || op == .or || op == .xor
  | _ => false

/-- A group of four registers whose base is v4k, s(4k), x0 or x4 (R286). -/
def quadGroup : Opnd → Bool
  | .v n => n.val % 4 == 0 | .s n => n.val % 4 == 0 | .x n => n.val % 4 == 0 | _ => false

/-- Data of a load or store by its type (R286). -/
def dataOk (t : TypeCode) (o : Opnd) : Bool :=
  if t == .b128 then quadGroup o else if t == .b64 then o.pairVSX else o.isVSX

/-- LD and the local loads (R285, R286): type, .sx, data, and no s destination of a per-lane address. -/
def ldOk (t : TypeCode) (sx : Bool) (d a : Opnd) (addrOk : Bool) : Bool :=
  t.isMem && (!sx || t == .b8 || t == .b16) && dataOk t d && addrOk && !(d.isS && a.perLane)

/-- ST and the local stores (R285, R286). -/
def stOk (t : TypeCode) (b : Opnd) (addrOk : Bool) : Bool :=
  t.isMem && (dataOk t b || b == .zero) && addrOk

/-- A value destination of width 32 or 64: a register or 0xF0 (R312). -/
def valD (w64 : Bool) (o : Opnd) : Bool := if w64 then o.dst64 else o.isVSX0

/-- A value source of an atomic or a monitor (R312): R167 and R168 less p registers, EXEC and 0xF5. -/
def valS (w64 : Bool) (o : Opnd) : Bool :=
  if w64 then src64 .L o else src32 .L o && !o.isP && o != .exec

/-- No s destination beside a per-lane operand (R312). -/
def uniD (d : Opnd) (os : List Opnd) : Bool := !d.isS || os.all (fun o => !o.perLane)

def atomOk (op : AtomOp) (nr w64 : Bool) (d a b : Opnd) : Bool :=
  (op != .fadd || !w64) && (!nr || d == .zero) && valD w64 d && valS w64 b && uniD d [a, b]

def casOk (w64 : Bool) (d a b c : Opnd) : Bool :=
  valD w64 d && valS w64 b && valS w64 c && uniD d [a, b, c]

/-- Formats of 8 and of 4 bits (R232). -/
def fmt8 (t : TypeCode) : Bool := t == .e4m3 || t == .e5m2 || t == .int8 || t == .lg8
def fmt4 (t : TypeCode) : Bool := t == .e2m1 || t == .int4 || t == .lg4
def fmt16 (t : TypeCode) : Bool := t == .f16 || t == .bf16

/-- The row of the table of R232 that a CVTP names: how many slots it has and whether it reads B; none if no row. -/
def cvtpRow (src dst : TypeCode) : Option (Nat × Bool) :=
  if src == .f32 && fmt16 dst then some (1, true)
  else if src == .f32 && fmt8 dst then some (2, true)
  else if src == .f32 && fmt4 dst then some (4, true)
  else if dst == .f32 && fmt16 src then some (2, false)
  else if dst == .f32 && fmt8 src then some (4, false)
  else if dst == .f32 && fmt4 src then some (8, false)
  else if fmt16 dst && fmt8 src then some (2, false)
  else if fmt16 dst && fmt4 src then some (4, false)
  else none

/-- CVTP (R232): a row of its table, a slot in range, and B a source or 0x00. -/
def cvtpOk (src : SrcCode) (t : TypeCode) (d a b : Opnd) (slot : Fin 8) : Bool :=
  match cvtpRow src.code t with
  | none => false
  | some (n, useB) => slot.val < n && d.dst32 && src32 .L a && (if useB then src32 .L b else b == .v 0)

/-- Special-register numbers that the manual assigns (R23, R116, R344 to R348, R406, R548, R549). -/
def srAssigned (n : Nat) : Bool :=
  let base := n / 256
  let o := n % 256
  let inSet := o ≤ 1 || (8 ≤ o && o ≤ 0x11) || (0x20 ≤ o && o ≤ 0x2A) || (0x31 ≤ o && o ≤ 0x37) || (0x40 ≤ o && o ≤ 0x4F)
  match base with
  | 0 => o ≤ 0x0D
  | 1 => inSet || (0x80 ≤ o && o ≤ 0x85) || (0x88 ≤ o && o ≤ 0x92) || (0x94 ≤ o && o ≤ 0x9A)
      || (0xA0 ≤ o && o ≤ 0xAA) || o == 0xB0 || o == 0xC0
  | 2 => inSet || (0xC0 ≤ o && o ≤ 0xC2) || (0xD0 ≤ o && o ≤ 0xE0)
  | 3 => inSet || o == 0xC0 || o == 0xC1 || (0xD0 ≤ o && o ≤ 0xD8)
  | _ => false

end Machine

/-- The second operand of a combining compare names p0 to p7 (R187). -/
def Comb.ok : Comb → Bool
  | .none => true
  | .and c | .or c | .xor c => c.isP

/-- A destination or source of a copy in its space: an even s pair or 0xF0 for global, s or 0xF0 for a buffer (R392). -/
def DSp.ok (sp : DSp) (o : Opnd) : Bool := if sp == .glob then o.basePairU else o.isS0
def SSp.ok (sp : SSp) (o : Opnd) : Bool := if sp == .glob then o.basePairU else o.isS0

namespace Machine

/-- What the bits of an instruction must hold beyond its opcode for R56 row 10 to admit it (state apart). The steps
without an encoding are always admitted. -/
def admissible (i : Instr) : Bool :=
  match i with
  | .nop p => p.ok
  | .exit p => p.ok
  | .yield p => p.ok
  | .elect p d => p.ok && (d.isS || d.isP17)
  | .getid p d _ => p.ok && d.isVSX
  | .time p d => p.ok && d.pairVSX
  | .bra p imm => p.ok && parcelOk imm
  | .brc p a _ _ imm => p.ok && (a.isP && parcelOk imm)
  | .call p d imm => p.ok && (d.pairS && imm.toNat % 32 == 0)
  | .loop d imm => (d.isS && parcelOk imm)
  | .brx p a => p.ok && a.pairS
  | .callx p d a => p.ok && (d.pairS && a.pairS)
  | .ret p a => p.ok && a.pairS
  | .endr a b c => (a.isVS0 && b.isVS0 && c.isVS0)
  | .regangL a => regangOk .L a 0
  | .regangX a imm => regangOk .X a imm
  | .barL a => barOk .L a 0
  | .barX a imm => barOk .X a imm
  | .waiteL a _ => uniOrImm .L a
  | .waiteX a _ _ => uniOrImm .X a
  | .rclaim a imm => (a == .imm && 1 ≤ imm.toNat && imm.toNat ≤ 48)
  | .rrelease a imm => (a == .imm && 1 ≤ imm.toNat && imm.toNat ≤ 48)
  | .pinfo p d => p.ok && d.isVSX
  | .addL p t _ d a b => p.ok && (t.isI32N32 && d.dst32 && src32 .L a && src32 .L b && needImm .L [a, b])
  | .addX p t _ d a b _ => p.ok && (t.isI32N32 && d.dst32 && src32 .X a && src32 .X b && needImm .X [a, b])
  | .subL p t _ d a b => p.ok && (t.isI32N32 && d.dst32 && src32 .L a && src32 .L b && needImm .L [a, b])
  | .subX p t _ d a b _ => p.ok && (t.isI32N32 && d.dst32 && src32 .X a && src32 .X b && needImm .X [a, b])
  | .add64L p t _ d a b => p.ok && (t.isI64N64 && d.dst64 && src64 .L a && src64 .L b && needImm .L [a, b])
  | .add64X p t _ d a b _ => p.ok && (t.isI64N64 && d.dst64 && src64 .X a && src64 .X b && needImm .X [a, b])
  | .sub64L p t _ d a b => p.ok && (t.isI64N64 && d.dst64 && src64 .L a && src64 .L b && needImm .L [a, b])
  | .sub64X p t _ d a b _ => p.ok && (t.isI64N64 && d.dst64 && src64 .X a && src64 .X b && needImm .X [a, b])
  | .mulL p t _ d a b => p.ok && (t.isI32N32 && d.dst32 && src32 .L a && src32 .L b && needImm .L [a, b])
  | .mulX p t _ d a b _ => p.ok && (t.isI32N32 && d.dst32 && src32 .X a && src32 .X b && needImm .X [a, b])
  | .mulhiL p t d a b => p.ok && (t.isI32N32 && d.dst32 && src32 .L a && src32 .L b && needImm .L [a, b])
  | .mulhiX p t d a b _ => p.ok && (t.isI32N32 && d.dst32 && src32 .X a && src32 .X b && needImm .X [a, b])
  | .madL p t _ d a b c => p.ok && (t.isI32N32 && d.dst32 && src32 .L a && src32 .L b && src32 .L c && needImm .L [a, b, c])
  | .madX p t _ d a b c _ => p.ok && (t.isI32N32 && d.dst32 && src32 .X a && src32 .X b && src32 .X c && needImm .X [a, b, c])
  | .madwL p t _ d a b c => p.ok && (t.isI32N32 && d.dst64 && src32 .L a && src32 .L b && src64 .L c && needImm .L [a, b, c])
  | .madwX p t _ d a b c _ => p.ok && (t.isI32N32 && d.dst64 && src32 .X a && src32 .X b && src64 .X c && needImm .X [a, b, c])
  | .divL p t d a b => p.ok && (t.isInt && dstT t d && srcT t .L a && srcT t .L b && needImm .L [a, b])
  | .divX p t d a b _ => p.ok && (t.isInt && dstT t d && srcT t .X a && srcT t .X b && needImm .X [a, b])
  | .remL p t d a b => p.ok && (t.isInt && dstT t d && srcT t .L a && srcT t .L b && needImm .L [a, b])
  | .remX p t d a b _ => p.ok && (t.isInt && dstT t d && srcT t .X a && srcT t .X b && needImm .X [a, b])
  | .minL p t d a b => p.ok && (t.isInt && dstT t d && srcT t .L a && srcT t .L b && needImm .L [a, b])
  | .minX p t d a b _ => p.ok && (t.isInt && dstT t d && srcT t .X a && srcT t .X b && needImm .X [a, b])
  | .maxL p t d a b => p.ok && (t.isInt && dstT t d && srcT t .L a && srcT t .L b && needImm .L [a, b])
  | .maxX p t d a b _ => p.ok && (t.isInt && dstT t d && srcT t .X a && srcT t .X b && needImm .X [a, b])
  | .absL p t _ d a => p.ok && ((t == .i32 || t == .i64) && dstT t d && srcT t .L a && needImm .L [a])
  | .absX p t _ d a _ => p.ok && ((t == .i32 || t == .i64) && dstT t d && srcT t .X a && needImm .X [a])
  | .negL p t _ d a => p.ok && ((t == .i32 || t == .i64) && dstT t d && srcT t .L a && needImm .L [a])
  | .negX p t _ d a _ => p.ok && ((t == .i32 || t == .i64) && dstT t d && srcT t .X a && needImm .X [a])
  | .andL p t d a b => p.ok && (t.isB32B64 && dstT t d && srcT t .L a && srcT t .L b && needImm .L [a, b])
  | .andX p t d a b _ => p.ok && (t.isB32B64 && dstT t d && srcT t .X a && srcT t .X b && needImm .X [a, b])
  | .orL p t d a b => p.ok && (t.isB32B64 && dstT t d && srcT t .L a && srcT t .L b && needImm .L [a, b])
  | .orX p t d a b _ => p.ok && (t.isB32B64 && dstT t d && srcT t .X a && srcT t .X b && needImm .X [a, b])
  | .xorL p t d a b => p.ok && (t.isB32B64 && dstT t d && srcT t .L a && srcT t .L b && needImm .L [a, b])
  | .xorX p t d a b _ => p.ok && (t.isB32B64 && dstT t d && srcT t .X a && srcT t .X b && needImm .X [a, b])
  | .andnL p t d a b => p.ok && (t.isB32B64 && dstT t d && srcT t .L a && srcT t .L b && needImm .L [a, b])
  | .andnX p t d a b _ => p.ok && (t.isB32B64 && dstT t d && srcT t .X a && srcT t .X b && needImm .X [a, b])
  | .notL p t d a => p.ok && (t.isB32B64 && dstT t d && srcT t .L a && needImm .L [a])
  | .notX p t d a _ => p.ok && (t.isB32B64 && dstT t d && srcT t .X a && needImm .X [a])
  | .shlL p t d a b => p.ok && (t.isB32B64 && dstT t d && srcT t .L a && src32 .L b && needImm .L [a, b])
  | .shlX p t d a b _ => p.ok && (t.isB32B64 && dstT t d && srcT t .X a && src32 .X b && needImm .X [a, b])
  | .shrL p t d a b => p.ok && (t.isB32B64 && dstT t d && srcT t .L a && src32 .L b && needImm .L [a, b])
  | .shrX p t d a b _ => p.ok && (t.isB32B64 && dstT t d && srcT t .X a && src32 .X b && needImm .X [a, b])
  | .sarL p t d a b => p.ok && (t.isB32B64 && dstT t d && srcT t .L a && src32 .L b && needImm .L [a, b])
  | .sarX p t d a b _ => p.ok && (t.isB32B64 && dstT t d && srcT t .X a && src32 .X b && needImm .X [a, b])
  | .rotlL p t d a b => p.ok && (t.isB32B64 && dstT t d && srcT t .L a && src32 .L b && needImm .L [a, b])
  | .rotlX p t d a b _ => p.ok && (t.isB32B64 && dstT t d && srcT t .X a && src32 .X b && needImm .X [a, b])
  | .funnelL p t d a b c => p.ok && (t == .b32 && d.dst32 && src32 .L a && src32 .L b && src32 .L c && needImm .L [a, b, c])
  | .funnelX p t d a b c _ => p.ok && (t == .b32 && d.dst32 && src32 .X a && src32 .X b && src32 .X c && needImm .X [a, b, c])
  | .popcL p t d a => p.ok && (t.isB32B64 && d.dst32 && srcT t .L a && needImm .L [a])
  | .popcX p t d a _ => p.ok && (t.isB32B64 && d.dst32 && srcT t .X a && needImm .X [a])
  | .clzL p t d a => p.ok && (t.isB32B64 && d.dst32 && srcT t .L a && needImm .L [a])
  | .clzX p t d a _ => p.ok && (t.isB32B64 && d.dst32 && srcT t .X a && needImm .X [a])
  | .ctzL p t d a => p.ok && (t.isB32B64 && d.dst32 && srcT t .L a && needImm .L [a])
  | .ctzX p t d a _ => p.ok && (t.isB32B64 && d.dst32 && srcT t .X a && needImm .X [a])
  | .brevL p t d a => p.ok && (t.isB32B64 && dstT t d && srcT t .L a && needImm .L [a])
  | .brevX p t d a _ => p.ok && (t.isB32B64 && dstT t d && srcT t .X a && needImm .X [a])
  | .bfeL p t d a b => p.ok && (t.isI32N32 && d.dst32 && src32 .L a && src32 .L b && needImm .L [a, b])
  | .bfeX p t d a b _ => p.ok && (t.isI32N32 && d.dst32 && src32 .X a && src32 .X b && needImm .X [a, b])
  | .bfiL p t d a b c => p.ok && (t == .b32 && d.dst32 && src32 .L a && src32 .L b && src32 .L c && needImm .L [a, b, c])
  | .bfiX p t d a b c _ => p.ok && (t == .b32 && d.dst32 && src32 .X a && src32 .X b && src32 .X c && needImm .X [a, b, c])
  | .permbL p t d a b c => p.ok && (t == .b32 && d.dst32 && src32 .L a && src32 .L b && src32 .L c && needImm .L [a, b, c])
  | .permbX p t d a b c _ => p.ok && (t == .b32 && d.dst32 && src32 .X a && src32 .X b && src32 .X c && needImm .X [a, b, c])
  | .cmpL p t _ comb d a b => p.ok && (t.isInt && d.isP17 && comb.ok && srcT t .L a && srcT t .L b && needImm .L [a, b])
  | .cmpX p t _ comb d a b _ => p.ok && (t.isInt && d.isP17 && comb.ok && srcT t .X a && srcT t .X b && needImm .X [a, b])
  | .pandL p d a b => p.ok && (d.dstPred && uni32 .L a && uni32 .L b && needImm .L [a, b])
  | .pandX p d a b _ => p.ok && (d.dstPred && uni32 .X a && uni32 .X b && needImm .X [a, b])
  | .porL p d a b => p.ok && (d.dstPred && uni32 .L a && uni32 .L b && needImm .L [a, b])
  | .porX p d a b _ => p.ok && (d.dstPred && uni32 .X a && uni32 .X b && needImm .X [a, b])
  | .pxorL p d a b => p.ok && (d.dstPred && uni32 .L a && uni32 .L b && needImm .L [a, b])
  | .pxorX p d a b _ => p.ok && (d.dstPred && uni32 .X a && uni32 .X b && needImm .X [a, b])
  | .pnotL p d a => p.ok && (d.dstPred && uni32 .L a && needImm .L [a])
  | .pnotX p d a _ => p.ok && (d.dstPred && uni32 .X a && needImm .X [a])
  | .movL p t d a => p.ok && (t.isB32B64 && dstT t d && srcT t .L a && needImm .L [a])
  | .movX p t d a _ => p.ok && (t.isB32B64 && dstT t d && srcT t .X a && needImm .X [a])
  | .movi p t h d a imm => p.ok && (t.isB32B64 && dstT t d && a == .imm && imm.toNat < 65536 && (t == .b64 || h.val < 2))
  | .selL p t d a b c => p.ok && (t.isB32B64 && dstT t d && srcT t .L a && srcT t .L b && uni32 .L c && needImm .L [a, b, c])
  | .selX p t d a b c _ => p.ok && (t.isB32B64 && dstT t d && srcT t .X a && srcT t .X b && uni32 .X c && needImm .X [a, b, c])
  | .extL p t w d a => p.ok && (t.isInt && (t.wide || w != .w32) && dstT t d && src32 .L a && needImm .L [a])
  | .extX p t w d a _ => p.ok && (t.isInt && (t.wide || w != .w32) && dstT t d && src32 .X a && needImm .X [a])
  | .packL p t _ d a b => p.ok && ((t == .b8 || t == .b16) && d.dst32 && src32 .L a && src32 .L b && needImm .L [a, b])
  | .packX p t _ d a b _ => p.ok && ((t == .b8 || t == .b16) && d.dst32 && src32 .X a && src32 .X b && needImm .X [a, b])
  | .unpackL p t idx _ d a => p.ok && ((t == .b8 || (t == .b16 && idx.val < 2)) && d.dst32 && src32 .L a && needImm .L [a])
  | .unpackX p t idx _ d a _ => p.ok && ((t == .b8 || (t == .b16 && idx.val < 2)) && d.dst32 && src32 .X a && needImm .X [a])
  | .faddL p t _ d a b => p.ok && (t == .f32 && d.dst32 && src32 .L a && src32 .L b && needImm .L [a, b])
  | .faddX p t _ d a b _ => p.ok && (t == .f32 && d.dst32 && src32 .X a && src32 .X b && needImm .X [a, b])
  | .fsubL p t _ d a b => p.ok && (t == .f32 && d.dst32 && src32 .L a && src32 .L b && needImm .L [a, b])
  | .fsubX p t _ d a b _ => p.ok && (t == .f32 && d.dst32 && src32 .X a && src32 .X b && needImm .X [a, b])
  | .fmulL p t _ d a b => p.ok && (t == .f32 && d.dst32 && src32 .L a && src32 .L b && needImm .L [a, b])
  | .fmulX p t _ d a b _ => p.ok && (t == .f32 && d.dst32 && src32 .X a && src32 .X b && needImm .X [a, b])
  | .ffmaL p t _ d a b c => p.ok && (t == .f32 && d.dst32 && src32 .L a && src32 .L b && src32 .L c && needImm .L [a, b, c])
  | .ffmaX p t _ d a b c _ => p.ok && (t == .f32 && d.dst32 && src32 .X a && src32 .X b && src32 .X c && needImm .X [a, b, c])
  | .fminL p t d a b => p.ok && (t == .f32 && d.dst32 && src32 .L a && src32 .L b && needImm .L [a, b])
  | .fminX p t d a b _ => p.ok && (t == .f32 && d.dst32 && src32 .X a && src32 .X b && needImm .X [a, b])
  | .fmaxL p t d a b => p.ok && (t == .f32 && d.dst32 && src32 .L a && src32 .L b && needImm .L [a, b])
  | .fmaxX p t d a b _ => p.ok && (t == .f32 && d.dst32 && src32 .X a && src32 .X b && needImm .X [a, b])
  | .fabsL p t d a => p.ok && (t == .f32 && d.dst32 && src32 .L a && needImm .L [a])
  | .fabsX p t d a _ => p.ok && (t == .f32 && d.dst32 && src32 .X a && needImm .X [a])
  | .fnegL p t d a => p.ok && (t == .f32 && d.dst32 && src32 .L a && needImm .L [a])
  | .fnegX p t d a _ => p.ok && (t == .f32 && d.dst32 && src32 .X a && needImm .X [a])
  | .fcmpL p t _ comb d a b => p.ok && (t == .f32 && d.isP17 && comb.ok && src32 .L a && src32 .L b && needImm .L [a, b])
  | .fcmpX p t _ comb d a b _ => p.ok && (t == .f32 && d.isP17 && comb.ok && src32 .X a && src32 .X b && needImm .X [a, b])
  | .frndL p t _ d a => p.ok && (t == .f32 && d.dst32 && src32 .L a && needImm .L [a])
  | .frndX p t _ d a _ => p.ok && (t == .f32 && d.dst32 && src32 .X a && needImm .X [a])
  | .fclassL p t d a => p.ok && (t == .f32 && d.dst32 && src32 .L a && needImm .L [a])
  | .fclassX p t d a _ => p.ok && (t == .f32 && d.dst32 && src32 .X a && needImm .X [a])
  | .fscaleL p t _ d a b => p.ok && (t == .f32 && d.dst32 && src32 .L a && src32 .L b && needImm .L [a, b])
  | .fscaleX p t _ d a b _ => p.ok && (t == .f32 && d.dst32 && src32 .X a && src32 .X b && needImm .X [a, b])
  | .frcp p t d a => p.ok && (t == .f32 && d.dst32 && src32 .L a)
  | .frsq p t d a => p.ok && (t == .f32 && d.dst32 && src32 .L a)
  | .fsqrt p t _ d a => p.ok && (t == .f32 && d.dst32 && src32 .L a)
  | .fdiv p t _ d a b => p.ok && (t == .f32 && d.dst32 && src32 .L a && src32 .L b)
  | .fexp2 p t d a => p.ok && (t == .f32 && d.dst32 && src32 .L a)
  | .flog2 p t d a => p.ok && (t == .f32 && d.dst32 && src32 .L a)
  | .fsin p t d a => p.ok && (t == .f32 && d.dst32 && src32 .L a)
  | .fcos p t d a => p.ok && (t == .f32 && d.dst32 && src32 .L a)
  | .cvt p src t _ d a => p.ok && (t.isCvtDst && src.code != t && d.dst32 && src32 .L a)
  | .cvtp p src t _ d a b slot => p.ok && cvtpOk src t d a b slot
  | .tagget p d a => p.ok && (d.dst32 && a.isV)
  | .tagset p d a => p.ok && (d.isV && uni32 .L a)
  | .hadd2L p t _ d a b => p.ok && ((t == .f16 || t == .bf16) && d.dst32 && src32 .L a && src32 .L b && needImm .L [a, b])
  | .hadd2X p t _ d a b _ => p.ok && ((t == .f16 || t == .bf16) && d.dst32 && src32 .X a && src32 .X b && needImm .X [a, b])
  | .hmul2L p t _ d a b => p.ok && ((t == .f16 || t == .bf16) && d.dst32 && src32 .L a && src32 .L b && needImm .L [a, b])
  | .hmul2X p t _ d a b _ => p.ok && ((t == .f16 || t == .bf16) && d.dst32 && src32 .X a && src32 .X b && needImm .X [a, b])
  | .hfma2L p t _ d a b c => p.ok && ((t == .f16 || t == .bf16) && d.dst32 && src32 .L a && src32 .L b && src32 .L c && needImm .L [a, b, c])
  | .hfma2X p t _ d a b c _ => p.ok && ((t == .f16 || t == .bf16) && d.dst32 && src32 .X a && src32 .X b && src32 .X c && needImm .X [a, b, c])
  | .dot4L p t rnd d a b c => p.ok && ((t == .e4m3 || t == .e5m2 || t == .int8 || t == .lg8) && (t != .int8 || rnd == .dyn) && d.dst32 && src32 .L a && src32 .L b && src32 .L c && needImm .L [a, b, c])
  | .dot4X p t rnd d a b c _ => p.ok && ((t == .e4m3 || t == .e5m2 || t == .int8 || t == .lg8) && (t != .int8 || rnd == .dyn) && d.dst32 && src32 .X a && src32 .X b && src32 .X c && needImm .X [a, b, c])
  | .dot8L p t rnd d a b c => p.ok && ((t == .e2m1 || t == .int4 || t == .lg4) && (t != .int4 || rnd == .dyn) && d.dst32 && src32 .L a && src32 .L b && src32 .L c && needImm .L [a, b, c])
  | .dot8X p t rnd d a b c _ => p.ok && ((t == .e2m1 || t == .int4 || t == .lg4) && (t != .int4 || rnd == .dyn) && d.dst32 && src32 .X a && src32 .X b && src32 .X c && needImm .X [a, b, c])
  | .qswap p t pat d a => p.ok && (t == .b32 && pat.val != 0 && d.isVX && a.isV)
  | .qbcast p t _ d a => p.ok && (t == .b32 && d.isVX && a.isV)
  | .qshuf p t d a b => p.ok && (t == .b32 && d.isVX && a.isV && src32 .L b)
  | .qred p t op d a => p.ok && (redOk t op && d.isVX && a.isV)
  | .shfl p t _ d a b => p.ok && (t.isB32B64 && vxT t d && vxT t a && src32 .L b)
  | .vote p _ d a => p.ok && ((d.isP17 || d.isS || d == .exec || d.isVX) && src32 .L a)
  | .scanPrefix p t op _ d a => p.ok && (redOk t op && d.isVX && src32 .L a)
  | .gred p t op d a => p.ok && (redOk t op && (d.isS || d == .exec || d.isVX) && src32 .L a)
  | .xpose p t d a => p.ok && ((t == .b8 || t == .b16 || t == .b32) && xposeOk d a)
  | .ldL p t sx d a => p.ok && ldOk t sx d a a.basePair
  | .ldX p t sx d a _ => p.ok && ldOk t sx d a a.basePair
  | .lddL p rows d a => p.ok && (d.isV && rowsFit d (rows.val + 1) && a.basePairU)
  | .lddX p rows d a _ => p.ok && (d.isV && rowsFit d (rows.val + 1) && a.basePairU)
  | .ldwL p t rows src d a => p.ok && ((t == .bf16 || t == .f16) && d.isV && rowsFit d (src.regs * (rows.val + 1)) && a.basePairU)
  | .ldwX p t rows src d a _ => p.ok && ((t == .bf16 || t == .f16) && d.isV && rowsFit d (src.regs * (rows.val + 1)) && a.basePairU)
  | .prefL p _ a => p.ok && a.basePair
  | .prefX p _ a _ => p.ok && a.basePair
  | .stL p t a b => p.ok && stOk t b a.basePair
  | .stX p t a b _ => p.ok && stOk t b a.basePair
  | .stdL p rows a b => p.ok && (b.isV && rowsFit b (rows.val + 1) && a.basePairU)
  | .stdX p rows a b _ => p.ok && (b.isV && rowsFit b (rows.val + 1) && a.basePairU)
  | .ldsL p t sx d a => p.ok && ldOk t sx d a a.offReg
  | .ldsX p t sx d a _ => p.ok && ldOk t sx d a a.offReg
  | .ldaL p t sx d a => p.ok && ldOk t sx d a a.offReg
  | .ldaX p t sx d a _ => p.ok && ldOk t sx d a a.offReg
  | .ldwbL p t sx d a => p.ok && ldOk t sx d a a.offReg
  | .ldwbX p t sx d a _ => p.ok && ldOk t sx d a a.offReg
  | .stsL p t a b => p.ok && stOk t b a.offReg
  | .stsX p t a b _ => p.ok && stOk t b a.offReg
  | .staL p t a b => p.ok && stOk t b a.offReg
  | .staX p t a b _ => p.ok && stOk t b a.offReg
  | .atomL p op nr w64 d a b => p.ok && (atomOk op nr w64 d a b && a.basePair)
  | .atomX p op nr w64 d a b _ => p.ok && (atomOk op nr w64 d a b && a.basePair)
  | .casL p w64 d a b c => p.ok && (casOk w64 d a b c && a.basePair)
  | .casX p w64 d a b c _ => p.ok && (casOk w64 d a b c && a.basePair)
  | .atomsL p op nr w64 d a b => p.ok && (atomOk op nr w64 d a b && a.offReg)
  | .atomsX p op nr w64 d a b _ => p.ok && (atomOk op nr w64 d a b && a.offReg)
  | .cassL p w64 d a b c => p.ok && (casOk w64 d a b c && a.offReg)
  | .cassX p w64 d a b c _ => p.ok && (casOk w64 d a b c && a.offReg)
  | .waitcL p _ t d a b c => p.ok && (t.isInt && a.basePair && valD t.wide d && valS t.wide b && (c.isP17 || c == .zero) && uniD d [a, b])
  | .waitcX p _ t d a b c _ => p.ok && (t.isInt && a.basePair && valD t.wide d && valS t.wide b && (c.isP17 || c == .zero) && uniD d [a, b])
  | .armcL p _ t d a b => p.ok && (t.isInt && a.basePairU && valD t.wide d && valS t.wide b && !b.perLane)
  | .armcX p _ t d a b _ => p.ok && (t.isInt && a.basePairU && valD t.wide d && valS t.wide b && !b.perLane)
  | .checkc p d => p.ok && d.isVSX
  | .syscL a => uniOrImm .L a
  | .syscX a _ => uniOrImm .X a
  | .hcallL a => uniOrImm .L a
  | .hcallX a _ => uniOrImm .X a
  | .mcallL a => uniOrImm .L a
  | .mcallX a _ => uniOrImm .X a
  | .trapL a => uniOrImm .L a
  | .trapX a _ => uniOrImm .X a
  | .tret => true
  | .tretPark => true
  | .tfence => true
  | .mfsr p num d => p.ok && (srAssigned num.val && d.isVSX)
  | .mtsrL p num a => p.ok && (srAssigned num.val && uniOrImm .L a)
  | .mtsrX p num a _ => p.ok && (srAssigned num.val && uniOrImm .X a)
  | .gresumeL d a => (d.isVSX0 && sOrImm .L a)
  | .gresumeX d a _ => (d.isVSX0 && sOrImm .X a)
  | .gkillL _ d a => (d.isVSX0 && sOrImm .L a)
  | .gkillX _ d a _ => (d.isVSX0 && sOrImm .X a)
  | .tlbi _ _ a b => (a.basePairU && b.isS0)
  | .tlbsync => true
  | .cpy p dsp ssp d a b c imm => p.ok && (dsp.ok d && ssp.ok a && b.isS0I && c.isS0 && immIfUsed [b] imm)
  | .cpys p dsp ssp d a b c imm => p.ok && (dsp.ok d && ssp.ok a && b.isGroup && c.isS0 && imm == 0)
  | .cpyg p dsp d a b c imm => p.ok && (dsp != .glob && dsp.ok d && a.basePairU && b.isGroup && c.isS0 && imm == 0)
  | .cpyt p ssp d a b c imm => p.ok && (d.basePairU && ssp.ok a && b.isGroup && c.isS0 && imm == 0)
  | .cpym p dsp d a b imm => p.ok && (dsp != .glob && dsp.ok d && a.basePairU && b.isGroup && imm == 0)
  | .cpyf p dsp _ d a b c imm => p.ok && (dsp.ok d && a.isS0I && b.isS0I && c.isS0 && immIfUsed [a, b] imm)
  | .swinit p a b imm => p.ok && (a.isS0 && b.isS0I && immIfUsed [b] imm)
  | .swwait p d a b imm => p.ok && (d.isVSX0 && a.isS0 && b.isS0I && immIfUsed [b] imm)
  | .mma p m _ _ d a b _ => p.ok && (d.isS0 && a.isV && rowsFit a (m.val + 1) && b.isS0)
  | .mmap p m _ _ d a b _ => p.ok && (d.isS0 && a.isV && rowsFit a (m.val + 1) && b.isS0)
  | .mclr p _ d imm => p.ok && (d.isS0 && imm.toNat < 65536)
  | .mcvt p _ fmt d a b _ => p.ok && (d.isS0 && a.isS0 && b.isS && fmt.isMcvt)
  | .macc p _ _ d a _ => p.ok && (d.isS0 && a.isS0)
  | .mrel p imm => p.ok && (imm == 0)
  | .qpopL p _ d a => p.ok && (d.isVSX0 && sOrImm .L a)
  | .qpopX p _ d a _ => p.ok && (d.isVSX0 && sOrImm .X a)
  | .qpushL p _ a => p.ok && a.isVX
  | .qpushX p _ a _ => p.ok && a.isVX
  | .qpushsL p _ a b => p.ok && (a.isS0 && b.isS)
  | .qpushsX p _ a b _ => p.ok && (a.isS0 && b.isS)
  | .qdone p => p.ok
  | .qlen p _ d => p.ok && d.isVSX
  | .qseedL p _ d a b c => p.ok && (d.isVSX0 && a.basePairU && b.isS0 && c.isS0)
  | .qseedX p _ d a b c _ => p.ok && (d.isVSX0 && a.basePairU && b.isS0 && c.isS0)
  | .qctlSetq p d a b c => p.ok && (d.isVSX0 && a.basePairU && b.isS0 && c.isS0)
  | .qctlSets p d a b c => p.ok && (d.isVSX0 && a.basePairU && b.isS0 && c.isS0)
  | .qctlBind p d a b c => p.ok && (d.isVSX0 && a.basePairU && b.isS0 && c.isS0)
  | .qctlUnbind p d a b c => p.ok && (d.isVSX0 && a.basePairU && b.isS0 && c.isS0)
  | .qctlStat p d a b c => p.ok && (d.isVSX0 && a.basePairU && b.isS0 && c.isS0)
  | .qctlStop p d a b c => p.ok && (d.isVSX0 && a.basePairU && b.isS0 && c.isS0)
  | .qctlStart p d a b c => p.ok && (d.isVSX0 && a.basePairU && b.isS0 && c.isS0)
  | .qctlClear p d a b c => p.ok && (d.isVSX0 && a.basePairU && b.isS0 && c.isS0)
  | .fstatPort p d a => p.ok && (d.isVSX && a.isS0)
  | .fstatRoute p d a => p.ok && (d.isVSX && a.isS0)
  | .fstatMirror p d a => p.ok && (d.isVSX && a.isS0)
  | .fstatTokens p d a => p.ok && (d.isVSX && a.isS0)
  | .fstatRto p d a => p.ok && (d.isVSX && a.isS0)
  | .fclr p _ d => p.ok && d.isVSX0
  | .ftok fld rd d a b c => (d.isVSX0 && a.isS0 && b.isS0 && c.isS0 && (fld.val != 4 || a == .zero) && (!rd || c == .zero))
  | .flinkPort d a b c => (d.isVSX0 && a.basePairU && b.isS0 && c.isS0)
  | .flinkRoute d a b c => (d.isVSX0 && a.basePairU && b.isS0 && c.isS0)
  | .flinkKey d a b c => (d.isVSX0 && a.basePairU && b.isS0 && c.isS0)
  | .flinkMirror d a b c => (d.isVSX0 && a.basePairU && b.isS0 && c.isS0)
  | .flinkUnmirror d a b c => (d.isVSX0 && a.basePairU && b.isS0 && c.isS0)
  | .flinkGrant d a b c => (d.isVSX0 && a.basePairU && b.isS0 && c.isS0)
  | .flinkRevoke d a b c => (d.isVSX0 && a.basePairU && b.isS0 && c.isS0)
  | .flinkSetid d a b c => (d.isVSX0 && a.basePairU && b.isS0 && c.isS0)
  | .tswap p _ d a b => p.ok && (d.isVSX0 && a.basePairU && b.isS0)
  | .tpinL p d a b => p.ok && (d.isVSX0 && a.basePairU && lenOk .L b)
  | .tpinX p d a b _ => p.ok && (d.isVSX0 && a.basePairU && lenOk .X b)
  | .tunpinL p d a b => p.ok && (d.isVSX0 && a.basePairU && lenOk .L b)
  | .tunpinX p d a b _ => p.ok && (d.isVSX0 && a.basePairU && lenOk .X b)
  | .tresL p d a b => p.ok && (d.isVSX0 && a.basePairU && lenOk .L b)
  | .tresX p d a b _ => p.ok && (d.isVSX0 && a.basePairU && lenOk .X b)
  | .tresStage p d a b c => p.ok && (d.isVSX0 && a == .zero && b.isS0 && c.isS0)
  | .twrecWs p d a b => p.ok && (d.isVSX0 && a.basePairU && b.isS0)
  | .twrecDeclare p d a b => p.ok && (d.isVSX0 && a.basePairU && b.isS0)
  | .twrecUndeclare p d a b => p.ok && (d.isVSX0 && a.basePairU && b.isS0)
  | .twrecDirty p d a b => p.ok && (d.isVSX0 && a.basePairU && b.isS0)
  | .haltc p d a b => p.ok && (d.isVSX0 && a.basePairU && b.isS0)
  | .haltcStop p d a b => p.ok && (d.isVSX0 && a.basePairU && b.isS0)
  | .resumec p d b => p.ok && (d.isVSX0 && b.isS0)
  | .runCommit _ => true
  | .continueWithoutLogging _ => true
  | .partSplit _ => true
  | .regangMerge _ _ => true
  | .claimGrant _ _ => true
  | .claimDeadlock _ => true
  | .trapEntry _ => true
  | .ownershipRequest _ => true
  | .ownershipGrant _ => true
  | .storeBufferDrain _ => true
  | .pageWalk _ => true
  | .loadReply _ => true
  | .homeSliceAtomic _ => true
  | .atomicReply _ => true
  | .remoteRequestIngress _ => true
  | .remoteReply _ _ => true
  | .remoteTimeout _ => true
  | .ioCompletion _ _ => true
  | .ioTimeout _ => true
  | .copyChunkIssue _ => true
  | .copyChunkData _ _ => true
  | .matrixOperationStart _ => true
  | .matrixRowEntry _ => true
  | .matrixRowWrite _ => true
  | .queueEnqueue _ => true
  | .enqueueRoomResume _ => true
  | .refillStart _ => true
  | .refillComplete _ => true
  | .queueDequeue _ => true
  | .qpopWaitServe _ => true
  | .summaryPublish => true
  | .summaryEntryArrive _ _ _ _ => true
  | .launchDecision _ => true
  | .launchDelivery _ => true
  | .flitReceive _ _ => true
  | .flitTransmit _ => true
  | .replayTimeout _ => true
  | .linkSilenceTimeout _ => true
  | .linkTrainingSuccess _ _ => true
  | .linkTrainingTimeout _ => true
  | .tokenGrant _ _ => true
  | .tokenTick => true
  | .lengthReportSend _ => true
  | .lengthReportReceive _ _ _ _ => true
  | .portForwardDecision _ => true
  | .batchReceive _ _ _ _ _ _ => true
  | .batchAck _ _ => true
  | .batchRefusal _ _ => true
  | .batchTimeout _ _ => true
  | .tierPageMove _ => true
  | .tierMoveComplete _ => true
  | .logClose _ => true
  | .tierJobComplete _ => true
  | .sliceExpiry _ => true
  | .haltComplete _ => true
  | .haltDeadlineKill _ => true
  | .haltDeadlineReset _ => true
  | .cctlCreate _ => true
  | .cctlDestroy _ => true
  | .cctlReset _ => true
  | .hpctlCreate => true
  | .hpctlDestroy => true
  | .hpctlReset => true
  | .lendSection _ _ _ => true
  | .reclaimSection _ _ => true
  | .borrowerSpill _ => true
  | .softErrorCorrected _ => true
  | .uncorrectableError _ => true
  | .corruptHeader _ => true
  | .hostMemoryRead _ _ _ => true
  | .hostMemoryWrite _ _ _ => true
  | .hostInvalidate _ _ => true
  | .hostRecordWrite _ _ _ => true
  | .hostSinkRead _ _ _ => true
  | .lockInterface _ => true
  | .startInterface _ => true
  | .stopInterface _ => true
  | .getMeasurements _ _ => true
  | .configWrite _ _ _ => true
  | .packageReset => true
  | .powerLimitWrite _ => true
  | .powerArbiterTick => true
  | .freeze => true
  | .scanReadout => true
  | .batchDeadlineDiscard _ _ => true

end Machine
end Sys2Proof
end

