-- ==== Sys2Proof/Machine/Rows.lean ====
section
/-!
DEFINITION. Reading and writing vectors and register rows by number, and sets of lanes and quads (R49, R124).
-/
namespace Sys2Proof.Machine

/-- Element `i`, or `d` past the end. -/
def vget {α : Type} {n : Nat} (v : Vector α n) (i : Nat) (d : α) : α := v.toArray.toList.getD i d

/-- Element `i` replaced; nothing past the end. -/
def vset {α : Type} {n : Nat} (v : Vector α n) (i : Nat) (x : α) : Vector α n :=
  ⟨⟨v.toArray.toList.set i x⟩, by simp⟩

/-- The vector of a list of known length. -/
def vof {α : Type} (n : Nat) (f : Nat → α) : Vector α n := ⟨⟨(List.range n).map f⟩, by simp⟩

/-- A row from its lanes. -/
def rowOf (f : Nat → Word) : Row := vof 32 f

/-- A lane of a row. -/
def Row.lane (r : Row) (l : Nat) : Word := vget r l 0

def rowZero : Row := rowOf fun _ => 0

/-- A row written in the lanes of a mask. -/
def Row.upd (r : Row) (m : Word) (f : Nat → Word) : Row := rowOf fun l => if m.getLsbD l then f l else Row.lane r l

/-- The untyped tag (R342): both scales 0x7F. -/
def untypedTag : Tag := 0x7F7F00

def vregZero : VReg := ⟨rowZero, untypedTag⟩

/-- The quads of a mask in ascending order. -/
def quadList (q : QMask) : List Nat := (List.range 8).filter fun i => q.getLsbD i

/-- The lanes of a mask in ascending order. -/
def laneList (m : Word) : List Nat := (List.range 32).filter fun i => m.getLsbD i

/-- The lanes of quads (R124). -/
def quadLanes (q : QMask) : Word :=
  (quadList q).foldl (fun m i => m ||| ((0xF#32 : Word) <<< (4 * i))) 0

/-- The lowest quad; 8 when there is none. -/
def lowQuad (q : QMask) : Nat := (quadList q).headD 8

/-- The lowest lane; 32 when there is none. -/
def lowLane (m : Word) : Nat := (laneList m).headD 32

def qbit (q : Nat) : QMask := 1#8 <<< q
def lbit (l : Nat) : Word := 1#32 <<< l

/-- Whether a quad has a lane in a mask. -/
def quadIn (m : Word) (q : Nat) : Bool := m.toNat / 2 ^ (4 * q) % 16 != 0

end Sys2Proof.Machine
end

