-- ==== Sys2Proof/Machine/Operands.lean ====
section
/-!
DEFINITION. What a part's instruction sees of its gang and its own copies, how it reads each operand form, and how it
writes each destination (R45, R49, R50, R52, R124, R128, R167 to R172, R190, R195, R196, R209, R210, R342).
-/
namespace Sys2Proof

/-- Whether PRED is 0b0000 (R171, R288). -/
def Pred.always (q : Pred) : Bool := q.reg == 0 && !q.neg

/-- Destinations that hold one value for the part (R171): s registers, EXEC and predicates. -/
def Opnd.uniDst : Opnd → Bool
  | .s _ | .exec | .p _ => true
  | _ => false

/-- The high register of a pair. -/
def Opnd.next : Opnd → Opnd
  | .v n => .v ⟨(n.val + 1) % 192, Nat.mod_lt _ (by decide)⟩
  | .s n => .s ⟨(n.val + 1) % 32, Nat.mod_lt _ (by decide)⟩
  | .x n => .x ⟨(n.val + 1) % 8, Nat.mod_lt _ (by decide)⟩
  | o => o

/-- Register `k` of a group (R286). -/
def Opnd.plus (o : Opnd) : Nat → Opnd
  | 0 => o
  | k + 1 => (o.plus k).next

namespace Machine

/-- A part with its gang while it executes one instruction: IMM32 and the core are at hand. The gang's own list of parts
still holds the part as it was. -/
structure View where
  gang : Gang
  part : Part
  core : Nat
  imm : Word
  deriving DecidableEq, Repr

/-- The bank of a ring; ring U has none and answers S's, which no caller asks for. -/
def Gang.bank (g : Gang) : Ring → Bank
  | .U => g.bankS | .S => g.bankS | .H => g.bankH | .M => g.bankM

def Gang.setBank (g : Gang) (r : Ring) (b : Bank) : Gang :=
  match r with
  | .U => g | .S => { g with bankS := b } | .H => { g with bankH := b } | .M => { g with bankM := b }

/-- Whether the number of a v register names a banked row at a ring (R51, R342). -/
def bankedV (r : Ring) (n : Nat) : Bool := r != .U && 176 ≤ n
def bankedS (r : Ring) (n : Nat) : Bool := r != .U && 24 ≤ n

/-- A v register of a gang as a part at a ring names it. -/
def Gang.vreg (g : Gang) (r : Ring) (n : Nat) : VReg :=
  if bankedV r n then vget (g.bank r).v (n - 176) vregZero else vget g.v n vregZero

def Gang.setVreg (g : Gang) (r : Ring) (n : Nat) (x : VReg) : Gang :=
  if bankedV r n then g.setBank r { g.bank r with v := vset (g.bank r).v (n - 176) x }
  else { g with v := vset g.v n x }

/-- The bank that an undo entry names: ring U for a window register (R104). -/
def undoRing (r : Ring) (n : Nat) : Ring := if bankedV r n then r else .U

/-- An entry of another part's uncommitted run learns that the register has been written since (R104). -/
def Run.markWrite (u : Ring) (n : Nat) (run : Run) : Run :=
  { run with undo := run.undo.map fun e => if e.ring = u ∧ e.reg = n then { e with otherWrote := true } else e }

def Part.markWrite (me : Nat) (u : Ring) (n : Nat) (p : Part) : Part :=
  if p.id = me then p else { p with runs := p.runs.map (Run.markWrite u n) }

/-- The first write of a run to a v register logs what it held (R104). -/
def Run.log (u : Ring) (n : Nat) (old : VReg) (run : Run) : Run :=
  if run.noLog || run.undo.any (fun e => e.ring = u ∧ e.reg = n) then run
  else { run with undo := ⟨u, n, old, false⟩ :: run.undo }

/-- The last run changed. -/
def modLast {α : Type} (f : α → α) : List α → List α
  | [] => []
  | [x] => [f x]
  | x :: y :: t => x :: modLast f (y :: t)

/-- A v register. -/
def View.vreg (v : View) (n : Nat) : VReg := v.gang.vreg v.part.ring n

/-- A v register written, with its undo entry. -/
def View.setVreg (v : View) (n : Nat) (x : VReg) : View :=
  let u := undoRing v.part.ring n
  { v with
    part := { v.part with runs := modLast (Run.log u n (v.vreg n)) v.part.runs }
    gang := { (v.gang.setVreg v.part.ring n x) with
      parts := (v.gang.parts.map (Part.markWrite v.part.id u n)) } }

/-- An s register of the part, banked above ring U (R342). -/
def View.sreg (v : View) (n : Nat) : Word :=
  if bankedS v.part.ring n then vget (v.gang.bank v.part.ring).s (8 * lowQuad v.part.quads + (n - 24)) 0
  else vget v.part.s n 0

/-- The copies of all the part's quads in a bank (R342). -/
def setBankS (b : Vector Word 64) (qs : List Nat) (k : Nat) (x : Word) : Vector Word 64 :=
  match qs with
  | [] => b
  | q :: t => setBankS (vset b (8 * q + k) x) t k x

def View.setSreg (v : View) (n : Nat) (x : Word) : View :=
  if bankedS v.part.ring n then
    let b := v.gang.bank v.part.ring
    { v with gang := v.gang.setBank v.part.ring { b with s := setBankS b.s (quadList v.part.quads) (n - 24) x } }
  else { v with part := { v.part with s := vset v.part.s n x } }

/-- A predicate; p0 is all ones (R45). -/
def Part.preg (p : Part) (n : Nat) : Word := if n = 0 then 0xFFFFFFFF else vget p.p n 0

def View.setPreg (v : View) (n : Nat) (x : Word) : View := { v with part := { v.part with p := vset v.part.p n x } }

def Part.xreg (p : Part) (n : Nat) : Row := vget p.x n rowZero

/-- A run temporary written in some lanes (R52). -/
def View.setX (v : View) (n : Nat) (m : Word) (f : Nat → Word) : View :=
  { v with part := { v.part with
      x := vset v.part.x n (Row.upd (v.part.xreg n) m f)
      xw := vset v.part.xw n (vget v.part.xw n 0 ||| m) } }

/-- The mask that PRED selects (R45). -/
def Part.predMask (p : Part) (q : Pred) : Word := if q.neg then ~~~(p.preg q.reg.val) else p.preg q.reg.val

/-- ACT: EXEC and the predicate, in the lanes of the part's quads (R45, R124). -/
def Part.act (p : Part) (q : Pred) : Word := p.exec &&& p.predMask q &&& quadLanes p.quads

def View.act (v : View) (q : Pred) : Word := v.part.act q

/-- A 32-bit source in a lane (R167). -/
def View.rd32 (v : View) (o : Opnd) (l : Nat) : Word :=
  match o with
  | .v n => Row.lane (v.vreg n.val).row l
  | .s n => v.sreg n.val
  | .x n => Row.lane (v.part.xreg n.val) l
  | .p n => v.part.preg n.val
  | .zero => 0
  | .lane => BitVec.ofNat 32 l
  | .quad => BitVec.ofNat 32 (l / 4)
  | .gang => BitVec.ofNat 32 v.gang.idx
  | .exec => v.part.exec
  | .imm => v.imm
  | .rsv _ => 0

/-- A 64-bit source in a lane (R168); `sx` sign-extends IMM32. -/
def View.rd64 (v : View) (sx : Bool) (o : Opnd) (l : Nat) : DWord :=
  match o with
  | .v n => pairWord (Row.lane (v.vreg n.val).row l) (Row.lane (v.vreg (n.val + 1)).row l)
  | .s n => pairWord (v.sreg n.val) (v.sreg (n.val + 1))
  | .x n => pairWord (Row.lane (v.part.xreg n.val) l) (Row.lane (v.part.xreg (n.val + 1)) l)
  | .imm => if sx then v.imm.signExtend 64 else v.imm.setWidth 64
  | o => (v.rd32 o l).setWidth 64

/-- A source of a type's width in a lane, as 64 bits (R168, R176): IMM32 is sign-extended unless the type is .n64. -/
def View.rdT (v : View) (t : TypeCode) (o : Opnd) (l : Nat) : DWord :=
  if t.wide then v.rd64 (t != .n64) o l else (v.rd32 o l).setWidth 64

/-- Uniform sources (R167). -/
def allUniform (os : List Opnd) : Bool := os.all fun o => !o.perLane

/-- The lane in which a uniform result is computed: the lowest of ACT, or of the part's quads when ACT is empty (R171,
R190). -/
def View.uniLane (v : View) (act : Word) : Nat :=
  if act = 0 then 4 * lowQuad v.part.quads else lowLane act

/-- The lanes in which an instruction computes (R170 to R172, R196). -/
def View.evalLanes (v : View) (q : Pred) (d : Opnd) (srcs : List Opnd) : List Nat :=
  let act := v.act q
  if d.uniDst || (d == .zero && allUniform srcs) then
    if act != 0 || (q.always && allUniform srcs) then [v.uniLane act] else []
  else laneList act

/-- A 32-bit result written: per lane in ACT, whole into a uniform destination, nowhere for 0xF0 (R170, R171). -/
def View.wr32 (v : View) (d : Opnd) (lanes : List Nat) (act : Word) (f : Nat → Word) : View :=
  match d with
  | .v n => if act = 0 then v else v.setVreg n.val ⟨Row.upd (v.vreg n.val).row act f, untypedTag⟩
  | .x n => v.setX n.val act f
  | .s n => match lanes with
    | [] => v
    | l :: _ => v.setSreg n.val (f l)
  | .exec => match lanes with
    | [] => v
    | l :: _ => { v with part := { v.part with exec := f l } }
  | .p n => match lanes with
    | [] => v
    | l :: _ => v.setPreg n.val (f l)
  | _ => v

/-- A 64-bit result written to a pair (R50). -/
def View.wr64 (v : View) (d : Opnd) (lanes : List Nat) (act : Word) (f : Nat → DWord) : View :=
  (v.wr32 d lanes act fun l => (f l).lo).wr32 (if d == .zero then d else d.next) lanes act fun l => (f l).hi

/-- Flags raised in the part's AFLAGS (R173). -/
def View.raiseFlags (v : View) (f : Flags) : View :=
  { v with part := { v.part with aflags := v.part.aflags ||| f } }

/-- An instruction that computes one result in each lane: all sources are read from the view as it was before any
destination is written (R169), flags are raised by the lanes that compute (R172, R173). -/
def View.compute (v : View) (q : Pred) (wide : Bool) (d : Opnd) (srcs : List Opnd) (f : Nat → DWord × Flags) : View :=
  let lanes := v.evalLanes q d srcs
  let act := v.act q
  let v' := if wide then v.wr64 d lanes act fun l => (f l).1 else v.wr32 d lanes act fun l => (f l).1.lo
  v'.raiseFlags (orFlags (lanes.map fun l => (f l).2))

/-- A result that is no computation of lanes, written under the first row of R171: every lane of ACT of a v or x
destination, the part's copy of an s destination when PRED is 0b0000 or ACT is not empty. -/
def View.wrUniform (v : View) (q : Pred) (d : Opnd) (x : Word) : View :=
  let act := v.act q
  v.wr32 d (if q.always || act != 0 then [0] else []) act fun _ => x

def View.wrUniform64 (v : View) (q : Pred) (d : Opnd) (x : DWord) : View :=
  let act := v.act q
  v.wr64 d (if q.always || act != 0 then [0] else []) act fun _ => x

/-- The first temporary that an instruction reads unwritten, with the lanes of ACT in which it is (R52, R195). DESIGN CHOICE: of
several it is the first in the order of the sources, and the lanes are its own (R353, log 103). -/
def Part.tempFault (p : Part) (act : Word) (ts : List (Opnd × Nat)) : Option (Nat × Word) :=
  match ts with
  | [] => none
  | (.x n, k) :: t =>
    let bad := (List.range k).filterMap fun j =>
      let m := act &&& ~~~(vget p.xw (n.val + j) 0)
      if m = 0 then none else some (n.val + j, m)
    match bad with
    | b :: _ => some b
    | [] => p.tempFault act t
  | _ :: t => p.tempFault act t

/-- Whether an operand stays inside the window at a ring (R51): v registers below W, where W is at most 176 above ring U,
or banked ones. -/
def windowOk (units : Nat) (r : Ring) (u : Opnd × Nat) : Bool :=
  match u.1 with
  | .v n => (List.range u.2).all fun k => n.val + k < (if r = .U then 4 * units else min (4 * units) 176) || bankedV r (n.val + k)
  | _ => true

end Machine
end Sys2Proof
end

