-- ==== Sys2Proof/Machine/Mem.lean ====
section
/-!
DEFINITION. Memory as data (R5, R75): a list of cells in one canonical form, addresses strictly rising and no entry equal
to what an unlisted byte reads as; sidebands likewise (R206, R271).
-/
namespace Sys2Proof.Machine

/-- Bytes of storage by storage address. -/
abbrev Memory := List Host.Cell

namespace Memory

/-- What a byte that nothing has written reads as (DESIGN CHOICE, log 3). -/
def blank : Byte := 0

/-- The byte at an address. -/
def read (m : Memory) (a : Nat) : Byte :=
  match m with
  | [] => blank
  | (b, v) :: t => if a = b then v else if a < b then blank else read t a

/-- A byte put in front of cells that stand above it. -/
def cons (a : Nat) (v : Byte) (m : Memory) : Memory := if v = blank then m else (a, v) :: m

/-- One byte written. -/
def write (m : Memory) (a : Nat) (v : Byte) : Memory :=
  match m with
  | [] => cons a v []
  | (b, w) :: t => if a = b then cons a v t else if a < b then cons a v ((b, w) :: t) else (b, w) :: write t a v

/-- The canonical form. -/
def wf : Memory → Bool
  | [] => true
  | [(_, v)] => v != blank
  | (a, v) :: (b, w) :: t => v != blank && a < b && wf ((b, w) :: t)

/-- `n` bytes from an address on. -/
def readBytes (m : Memory) (a : Nat) : Nat → List Byte
  | 0 => []
  | n + 1 => m.read a :: readBytes m (a + 1) n

/-- Bytes written from an address on. -/
def writeBytes (m : Memory) (a : Nat) : List Byte → Memory
  | [] => m
  | b :: bs => writeBytes (m.write a b) (a + 1) bs

end Memory

/-- Sidebands by line number. -/
abbrev Sides := List (Nat × Side)

namespace Sides

/-- An untyped line (R206); what a line that nothing has written carries (DESIGN CHOICE, log 3). -/
def untyped : Side := 0x7F00

def read (m : Sides) (l : Nat) : Side :=
  match m with
  | [] => untyped
  | (b, v) :: t => if l = b then v else if l < b then untyped else read t l

def cons (l : Nat) (v : Side) (m : Sides) : Sides := if v = untyped then m else (l, v) :: m

def write (m : Sides) (l : Nat) (v : Side) : Sides :=
  match m with
  | [] => cons l v []
  | (b, w) :: t => if l = b then cons l v t else if l < b then cons l v ((b, w) :: t) else (b, w) :: write t l v

def wf : Sides → Bool
  | [] => true
  | [(_, v)] => v != untyped
  | (a, v) :: (b, w) :: t => v != untyped && a < b && wf ((b, w) :: t)

end Sides

/-- A set of numbers, each at most once. -/
def insertNat (n : Nat) (l : List Nat) : List Nat := if l.contains n then l else n :: l

end Sys2Proof.Machine
end

