-- ==== Sys2Proof/Machine/State.lean ====
section
/-!
DEFINITION. The state of a QX8 package, what stops the model, and the state after package reset. The records of parts,
gangs and cohorts are in Machine/Types.lean, those of the engines in Machine/Engines.lean.
-/
namespace Sys2Proof.Machine

/-- The state of one package. -/
structure State where
  /-- Steps of engines and of the outside that are due, in the order in which they take place (log 1). -/
  agenda : List Instr
  /-- The part whose turn it is to issue (R134, R135). -/
  cur : Option PartRef
  /-- Where the part stood that was chosen last (R135). -/
  turn : Option SeatAt
  /-- Which part was chosen while which other part of its sub-core was ready that has not been chosen since (R135). -/
  owed : List (Nat × Nat)
  /-- How many free values have been taken (log 8). -/
  freeCtr : Nat
  /-- The next number for a part, run, store entry, command, request or cohort. -/
  nextId : Nat
  /-- What has left the package, newest first (R591 to R601). -/
  out : List Output
  /-- Package cycle count (R150). -/
  cycle : Nat
  boot : Boot
  /-- The clocks are stopped (R601). -/
  frozen : Bool
  /-- Bytes of every storage (R16, R22, R23). -/
  mem : Memory
  /-- Sidebands of HBM lines and of SP and WB granules (R206, R271). -/
  sides : Sides
  /-- Poisoned lines (R372). -/
  poison : List Nat
  /-- Poisoned granules of SP, WB and AB (R371), each with the address of the line whose poison was loaded. -/
  bufPoison : List (Nat × Nat)
  /-- The key and the physical line under which a line was last written (R546), by where its bytes stand in storage. -/
  owners : List (Nat × Nat × Nat)
  /-- Lane accesses to lines, newest first: line, partition, start from the line's first byte on, size, run (R117). The newest of a
  line and partition is the last; older ones stay while a run is uncommitted whose rollback would make one of them the last again. -/
  lastLane : List (Nat × Nat × Int × Nat × Option Nat)
  /-- What an error in a flit's payload has struck (R371): the identifier of a part, request, store entry or copy operation,
  and, until the error has its record, the core and containment identifier that it names. -/
  spoiled : List (Nat × Option (Nat × BitVec 13))
  /-- Host lines that a home slice holds (R90). -/
  hostHeld : List Nat
  /-- Host accesses that wait for a page, oldest first (R558, R591). -/
  hostWaits : List Instr
  /-- Writes of the package's agents that wait for a page, oldest first (R91). -/
  engWaits : List EngWrite
  stores : List StoreEntry
  /-- Commands that wait in the command buffers (R107). -/
  cmds : List Cmd
  monitors : List Monitor
  waitcs : List WaitcRec
  tlb : List TlbEntry
  walkCache : List WalkEntry
  walks : List WalkReq
  cohorts : List Cohort
  /-- Claims in arrival order (R141). -/
  claims : List Claim
  parts : List Partition
  pkg : Package
  copy : CopyState
  matrix : MatrixState
  stage : StageState
  fabric : FabricState
  tier : TierState
  /-- Remote, I/O and atomic requests under way (R97, R317, R511, R604). -/
  reqs : List Request
  deriving DecidableEq, Repr

/-! Reset -/

/-- A configuration set after reset (R348, R349; log 4). -/
def regsZero : RegSet :=
  { tvec := 0, tscr := vof 4 fun _ => 0, eqbase := 0, eqcap := 0, eqhead := 0, eqtail := 0, eqovf := 0 }

def logZero : TierLog := ⟨0, 0, 0, false, false⟩

/-- A port after reset (R499). -/
def portZero (n : Nat) : Port :=
  { num := n, state := .disabled, standby := false, since := 0, peer := 0, txKey := none, txSlot := false, txCount := 0, rx0 := none
    rx1 := none, rxNew := none, nextTx := 0, nextRx := none, egress := [], held := [], again := none, replays := 0, lastValid := 0
    gathered := [], waiting := [], demand := [], decideAt := 0, decides := false }

/-- The package registers after reset (R23, R348, R349, R546, R549, R595, R599; logs 2, 4): nothing in flash, package key 0. -/
def pkgZero : Package :=
  { number := 0, fmsel := 0, fm := vof 4 fun _ => ⟨0, 0, 0, 0⟩, setH := regsZero, setM := regsZero, hrsvsel := 0, mrsv := 0, hpctl := 0
    softErr := [], key := 0, flash := ⟨[], 0, [], []⟩, rollback := 0, verified := ([], 0), devKey := none, vfs := [], cfg := []
    power := 600, powerOk := true, grants := [] }

/-- The machine right after package reset, before the boot ROM runs (R597; logs 2, 3, 4): no partition, no cohort, nothing in
memory, every port disabled. -/
def State.reset : State :=
  { agenda := [], cur := none, turn := none, owed := [], freeCtr := 0, nextId := 1, out := []
    cycle := 0, boot := .notBooted, frozen := false, mem := [], sides := []
    poison := [], bufPoison := [], owners := [], lastLane := [], spoiled := []
    hostHeld := [], hostWaits := [], engWaits := [], stores := [], cmds := [], monitors := []
    waitcs := [], tlb := [], walkCache := [], walks := [], cohorts := [], claims := [], parts := [], pkg := pkgZero
    copy := ⟨[], []⟩, matrix := ⟨[], []⟩, stage := ⟨[], [], [], [], [], [], []⟩
    fabric := ⟨0, (List.range 16).map portZero, [], [], [], [], [], [], []⟩, tier := ⟨[], [], [], [], [], 0, []⟩, reqs := [] }

/-- What stops the machine. -/
inductive Fault where
  /-- Raised by an instruction form that is executed when no part is chosen to issue it. Safe: no hardware executes an
  instruction without a part, and step never asks for it. -/
  | noPart
  deriving DecidableEq, Repr

/-- What the model has no meaning for. -/
inductive Refusal where
  /-- Raised by a constructor without a meaning. Safe. -/
  | notModelled (mnemonic : String)
  deriving DecidableEq, Repr

end Sys2Proof.Machine
end

