-- ==== Sys2Proof/Machine/Parts.lean ====
section
/-!
DEFINITION. Finding and changing cohorts, gangs and parts; runs, their checkpoints, rollback and conflicts (R101 to R106,
R113, R114, R118, R120).
-/
namespace Sys2Proof.Machine

def State.cohort? (s : State) (id : Nat) : Option Cohort := s.cohorts.find? fun c => c.id == id

def Cohort.gang? (c : Cohort) (g : Nat) : Option Gang := c.gangs.find? fun x => x.idx == g

def State.gang? (s : State) (co g : Nat) : Option Gang := (s.cohort? co).bind fun c => c.gang? g

/-- The part that holds a quad (R124). -/
def Gang.partOf? (g : Gang) (q : Nat) : Option Part := g.parts.find? fun p => p.quads.getLsbD q

def Gang.partId? (g : Gang) (pid : Nat) : Option Part := g.parts.find? fun p => p.id == pid

def State.part? (s : State) (r : PartRef) : Option Part := (s.gang? r.cohort r.gang).bind fun g => g.partOf? r.quad

def State.modCohort (s : State) (id : Nat) (f : Cohort → Cohort) : State :=
  { s with cohorts := s.cohorts.map fun c => if c.id = id then f c else c }

def Cohort.modGang (c : Cohort) (g : Nat) (f : Gang → Gang) : Cohort :=
  { c with gangs := c.gangs.map fun x => if x.idx = g then f x else x }

def State.modGang (s : State) (co g : Nat) (f : Gang → Gang) : State := s.modCohort co fun c => c.modGang g f

def Gang.modPart (g : Gang) (q : Nat) (f : Part → Part) : Gang :=
  { g with parts := g.parts.map fun p => if p.quads.getLsbD q then f p else p }

def State.modPart (s : State) (r : PartRef) (f : Part → Part) : State :=
  s.modGang r.cohort r.gang fun g => g.modPart r.quad f

/-- Steps put at the end of the agenda (log 1). -/
def State.due (s : State) (is : List Instr) : State := { s with agenda := s.agenda ++ is }

/-- How a part is named: by its lowest quad. -/
def refOf (co g : Nat) (p : Part) : PartRef := ⟨co, g, lowQuad p.quads⟩

/-- All parts with their names, in the order of cohorts, gangs and parts. -/
def State.allParts (s : State) : List (PartRef × Part) :=
  s.cohorts.flatMap fun c => c.gangs.flatMap fun g => g.parts.map fun p => (refOf c.id g.idx p, p)

/-- The part of a number. -/
def State.partNo? (s : State) (pid : Nat) : Option (PartRef × Part) := s.allParts.find? fun x => x.2.id == pid

/-- The run that is open (R131). -/
def Part.curRun? (p : Part) : Option Run :=
  match p.runs.getLast? with
  | some r => if r.closed then none else some r
  | none => none

/-- The checkpoint at the start of a run (R104). -/
def View.ckpt (v : View) : Ckpt :=
  ⟨v.part.s, v.part.p, v.part.exec, v.part.aflags, (v.gang.bank v.part.ring).s, v.gang.latch⟩

/-- A new run (R101, R104): temporaries unwritten (R52). -/
def View.startRun (v : View) (id : Nat) : View :=
  { v with part := { v.part with
      runs := v.part.runs ++ [⟨id, v.part.pc, 0, false, false, v.ckpt, [], [], [], [], 0⟩]
      xw := vof 8 fun _ => 0 } }

/-- Banked s copies restored in a part's quads. -/
def restoreBank (now old : Vector Word 64) (q : QMask) : Vector Word 64 :=
  vof 64 fun i => if q.getLsbD (i / 8) then vget old i 0 else vget now i 0

/-- One undo entry restored in the lanes of a part's quads (R104, R106). -/
def Gang.restore (q : QMask) (g : Gang) (e : Undo) : Gang :=
  let now := g.vreg e.ring e.reg
  g.setVreg e.ring e.reg
    ⟨Row.upd now.row (quadLanes q) fun l => Row.lane e.old.row l, if e.otherWrote then now.tag else e.old.tag⟩

/-- The undo entries of a part's runs, youngest first (R106). -/
def Part.undoList (p : Part) : List Undo := p.runs.reverse.flatMap fun r => r.undo

/-- The numbers of the commands that a part's uncommitted runs hold. -/
def Part.cmdList (p : Part) : List Nat := p.runs.flatMap fun r => r.cmds

/-- A gang's counters less some commands (R103, R137). -/
def Counters.less (c : Counters) (l : List Cmd) : Counters :=
  { copy := c.copy - (l.filter fun x => x.body.cls == .copy).length
    matrix := c.matrix - (l.filter fun x => x.body.cls == .matrix).length
    push := c.push - (l.filter fun x => x.body.cls == .push).length }

/-- A part returned to the checkpoint of its oldest uncommitted run (R103, R106). -/
def Part.toCkpt (p : Part) (r : Run) : Part :=
  { p with
    s := r.ckpt.s, p := r.ckpt.p, exec := r.ckpt.exec, aflags := r.ckpt.aflags, pc := r.start
    xw := vof 8 fun _ => 0, runs := [], wait := .none, trap := none }

/-- The gang after one of its parts has rolled back (R103 to R106). -/
def Gang.rollback (g : Gang) (p : Part) (r : Run) (dropped : List Cmd) (counted : Bool) : Gang :=
  let g1 := p.undoList.foldl (Gang.restore p.quads) g
  let b := g1.bank p.ring
  let g2 := g1.setBank p.ring { b with s := restoreBank b.s r.ckpt.banked p.quads }
  let enters := counted && p.rbCount + 1 == 8 && !p.drag
  let p' := p.toCkpt r
  let p' := if counted then { p' with rbCount := p.rbCount + 1 } else p'
  let p' := if enters then { p' with drag := true, dragCommits := 0 } else p'
  { g2 with
    latch := r.ckpt.latch
    counters := g2.counters.less dropped
    cmdbuf := g2.cmdbuf.filter fun i => !p.cmdList.contains i
    rbcnt := if counted then g2.rbcnt + 1 else g2.rbcnt
    dragEntries := if enters then (g2.dragEntries + 1) % 2 ^ 31 else g2.dragEntries
    parts := g2.parts.map fun x => if x.id = p.id then p' else x }

/-- The operations of a class and a gang that may retire, by number (R137): those that have ended, with whether each has
ended, before which none was issued that has not ended or that is still held in the command buffer. -/
def retiring (ops : List (Nat × Bool)) (held : List Nat) : List Nat :=
  (ops.filter fun x => x.2 && (ops.all fun y => y.2 || decide (x.1 < y.1)) && held.all fun i => decide (x.1 < i)).map fun x => x.1

/-- The commands of a class that a gang's command buffer holds (R107). -/
def State.heldCmds (s : State) (k : EngClass) (co g : Nat) : List Nat :=
  (s.cmds.filter fun c => c.cohort == co && c.gang == g && c.body.cls == k).map fun c => c.id

/-- Operations of a gang that have ended leave in issue order, and its counter falls (R137, R386). -/
def State.retireCopies (s : State) (co g : Nat) : State :=
  let mine := s.copy.ops.filter fun o => o.cohort == co && o.gang == g
  let gone := retiring (mine.map fun o => (o.id, o.ended)) (s.heldCmds .copy co g)
  let s := { s with copy := { s.copy with ops := s.copy.ops.filter fun o => !gone.contains o.id } }
  s.modGang co g fun x => { x with counters := { x.counters with copy := x.counters.copy - gone.length } }

/-- The same of its matrix operations (R137). -/
def State.retireMatrix (s : State) (co g : Nat) : State :=
  let mine := s.matrix.ops.filter fun o => o.cohort == co && o.gang == g
  let gone := retiring (mine.map fun o => (o.id, o.ended)) (s.heldCmds .matrix co g)
  let s := { s with matrix := { s.matrix with ops := s.matrix.ops.filter fun o => !gone.contains o.id } }
  s.modGang co g fun x => { x with counters := { x.counters with matrix := x.counters.matrix - gone.length } }

/-- The same of its pushes (R137). -/
def State.retirePush (s : State) (co g : Nat) : State :=
  let mine := s.stage.pushes.filter fun o => o.cohort == co && o.gang == g
  let gone := retiring (mine.map fun o => (o.id, o.ended)) (s.heldCmds .push co g)
  let s := { s with stage := { s.stage with pushes := s.stage.pushes.filter fun o => !gone.contains o.id } }
  s.modGang co g fun x => { x with counters := { x.counters with push := x.counters.push - gone.length } }

/-- What waited behind commands that a gang no longer holds retires (R137). -/
def State.retireGang (s : State) (r : PartRef) : State :=
  ((s.retireCopies r.cohort r.gang).retireMatrix r.cohort r.gang).retirePush r.cohort r.gang

/-- Lane accesses of runs that vanish were not made (R102, R117). -/
def State.unmade (s : State) (runs : List Nat) : State :=
  { s with lastLane := s.lastLane.filter fun e => !e.2.2.2.2.any runs.contains }

/-- Lane accesses of runs that have been performed stay, whatever becomes of the runs (R109, R110, R117, R328). -/
def State.made (s : State) (runs : List Nat) : State :=
  { s with lastLane := s.lastLane.map fun (l, p, o, n, r) => (l, p, o, n, r.filter fun k => !runs.contains k) }

/-- The numbers of a part's uncommitted runs. -/
def Part.runIds (p : Part) : List Nat := p.runs.map fun r => r.id

/-- The lane accesses of a part have been performed (R109, R117). -/
def State.madeBy (s : State) (r : PartRef) : State := s.made ((s.part? r).elim [] Part.runIds)

/-- Rollback of a part to the start of its oldest uncommitted run (R106); nothing to do without one. `counted` is true
for the rollbacks of R105. -/
def State.rollback (s : State) (r : PartRef) (counted : Bool) : State :=
  match s.part? r with
  | none => s
  | some p =>
    match p.runs with
    | [] => s
    | run :: _ =>
      let ids := p.runIds
      let dropped := s.cmds.filter fun c => p.cmdList.contains c.id
      (({ (s.modGang r.cohort r.gang fun g => g.rollback p run dropped counted) with
        stores := s.stores.filter fun e => !(ids.contains e.run && !e.committed)
        cmds := s.cmds.filter fun c => !p.cmdList.contains c.id } : State).unmade ids).retireGang r

/-- What is asked of a line (R105, R283, R318). -/
inductive Access where
  | read | write | reduce (op : AtomOp) (w64 : Bool)
  deriving DecidableEq, Repr

/-- Operations whose reductions share a line (R313, R318). -/
def combinable : AtomOp → Bool
  | .add | .minI | .minN | .maxI | .maxN | .and | .or | .xor => true
  | _ => false

/-- Whether an entry keeps its ownership when another agent asks for its line: reductions of one combinable operation
and width share it (R318). -/
def StoreEntry.shares (e : StoreEntry) : Access → Bool
  | .reduce op w => combinable op && (match e.red with | some (o, w', _, _) => o == op && w' == w | none => false)
  | _ => false

/-- Whether a line hits a run's part of the read-set filter (R14, R105): its exact lines, or its overflow lines and whatever else the
overflow part hits with them, which the spec leaves open (log 65). -/
def Run.hasRead (r : Run) (line : Nat) : Bool :=
  r.reads.contains line || r.spill.contains line || (!r.spill.isEmpty && Config.overflowHit r.spill line)

/-- Whether an access strikes a run of another part (R105). DESIGN CHOICE: which further lines hit in the overflow part of
the read-set filter is open; that is `Run.hasRead`'s free value (log 65). -/
def State.strikes (s : State) (line : Nat) (a : Access) (p : Part) : Bool :=
  !p.drag && p.runs.any fun r => !r.noLog &&
    ((a != .read && r.hasRead line) ||
     s.stores.any fun e => e.run == r.id && e.line == line && e.owned && !e.committed && !e.shares a)

/-- The conflicts of an access by agent `me` (the number of a part, or none for engines, the host and peers): every other
part that it strikes rolls back (R105, R106). -/
def State.strike (s : State) (line : Nat) (a : Access) (me : Option Nat) : State :=
  s.allParts.foldl
    (fun t x => if me != some x.2.id && s.strikes line a x.2 then t.rollback x.1 true else t) s

/-- The entry that makes a request of another agent wait (R283, R318): committed and not drained. -/
def State.blocked (s : State) (line : Nat) (a : Access) (me : Option Nat) : Bool :=
  s.stores.any fun e => me != some e.part && e.line == line && e.committed && !e.shares a

end Sys2Proof.Machine
end

