-- ==== Sys2Proof/Machine/Home.lean ====
section
/-!
DEFINITION. What happens at a home slice (R20, R75, R81, R89, R90, R280, R313 to R316, R324 to R330, R372): writes with
their sideband and conflicts, poison, condition monitors, atomics.
-/
namespace Sys2Proof.Machine

/-- Ranges of the physical map (R22), by storage address. -/
def hbmEnd : Nat := 0x6000000000
def farLo : Nat := 0x1000000000000
def hostLo : Nat := 0x2000000000000
def ioLo : Nat := 0x3000000000000
def ioEnd : Nat := 0x3010000000000

def isHbm (a : Nat) : Bool := a < hbmEnd
def isHost (a : Nat) : Bool := hostLo ≤ a && a < ioLo
/-- Far memory, by physical address (R22, R23). -/
def isFar (a : Nat) : Bool := farLo ≤ a && a < hostLo
/-- Where the bytes of the pooled memory stand in `State.mem`: its CXL addresses above `poolBase` (R23). -/
def isPool (a : Nat) : Bool := poolBase ≤ a && a < spBase
def isAb (a : Nat) : Bool := abBase ≤ a
def isBuf (a : Nat) : Bool := spBase ≤ a

/-- The far-memory window of a physical address: the lowest-numbered enabled one (R23). -/
def State.farWindow (s : State) (p : Nat) : Option FmWindow :=
  s.pkg.fm.toArray.toList.find? fun w => w.size != 0 && decide (w.pa.toNat ≤ p) && decide (p < w.pa.toNat + w.size.toNat)

/-- Where in `State.mem` the bytes of a line stand: a line of far memory at the CXL address that its window gives it (R23), every
other line at its own address. -/
def State.cell (s : State) (line : Nat) : Nat :=
  let a := 64 * line
  if isFar a then (s.farWindow a).elim a fun w => poolBase + w.ca.toNat + (a - w.pa.toNat) else a

/-- Where the sideband of a line of far memory stands in `State.mem` (R23); none where no window reaches the line. -/
def State.sideCell (s : State) (line : Nat) : Option Nat :=
  (s.farWindow (64 * line)).map fun w => poolBase + w.sb.toNat + 2 * ((64 * line - w.pa.toNat) / 64)

/-- Format codes that a sideband may hold (R199, R202, R203, R206): 0x00 to 0x0A. -/
def sideCodeOk (c : Nat) : Bool := c ≤ 0x0A

/-- The sideband of a line (R23, R206, R271): host memory, I/O space and AB carry none and read untyped. -/
def State.sideAt (s : State) (line : Nat) : Side :=
  let a := 64 * line
  if isFar a then
    match s.sideCell line with
    | none => Sides.untyped
    | some b =>
      let x : Side := BitVec.ofNat 16 (leNat (s.mem.readBytes b 2))
      if sideCodeOk (x.toNat % 256) then x else Sides.untyped
  else if isHbm a || (isBuf a && !isAb a) then s.sides.read line
  else Sides.untyped

/-- The sideband of a line written. -/
def State.setSide (s : State) (line : Nat) (x : Side) : State :=
  let a := 64 * line
  if isFar a then
    match s.sideCell line with
    | none => s
    | some b => { s with mem := s.mem.writeBytes b (natLe 2 x.toNat) }
  else if isHbm a || (isBuf a && !isAb a) then { s with sides := s.sides.write line x }
  else s

/-! Keys (R546) -/

/-- The partition of a number. -/
def State.partition? (s : State) (n : Nat) : Option Partition := s.parts.find? fun p => p.num == n

def State.modPartition (s : State) (n : Nat) (f : Partition → Partition) : State :=
  { s with parts := s.parts.map fun p => if p.num = n then f p else p }

/-- The partition that an access's containment identifier names (R371): 63 for H and M. -/
def ownAt (ring : Ring) (part : Nat) : Nat := if ring = .H ∨ ring = .M then 63 else part

/-- The key of a partition, or the package's. -/
def State.keyOf (s : State) (part : Nat) : Nat := ((s.partition? part).map (·.key)).getD s.pkg.key

/-- Pairs by key, the last write deciding. -/
def assocSet {α : Type} (l : List (Nat × α)) (k : Nat) (x : α) : List (Nat × α) :=
  (k, x) :: l.filter fun p => p.1 != k

def assocGet {α : Type} (l : List (Nat × α)) (k : Nat) : Option α := (l.find? fun p => p.1 == k).map (·.2)

/-- The key and the physical line under which a line of local HBM or far memory was last written, where they are not a
partition's own key and this line (log 9). They go with the place of the bytes, through whatever window they are read (R23,
R546). -/
def State.foreign (s : State) (own line : Nat) : Option (Nat × Nat) :=
  if isHbm (64 * line) || isFar (64 * line) then
    (assocGet s.owners (s.cell line)).filter fun k => k != (s.keyOf own, line)
  else none

/-- A byte as a partition reads it. -/
def State.byteAs (s : State) (own a : Nat) : Byte :=
  match s.foreign own (a / 64) with
  | none => s.mem.read (s.cell (a / 64) + a % 64)
  | some (k, l) => Config.recrypt k l (s.keyOf own) (a / 64) (s.mem.readBytes (s.cell (a / 64)) 64) (a % 64)

/-- Bytes as a partition reads them. -/
def State.bytesAs (s : State) (own a n : Nat) : List Byte := (List.range n).map fun i => s.byteAs own (a + i)

/-- Signed or unsigned value of the low 32 or 64 bits. -/
def valueOf (signed w64 : Bool) (x : DWord) : Int :=
  if w64 then (if signed then x.toInt else x.toNat) else (if signed then x.lo.toInt else x.lo.toNat)

/-- cond(M, b) (R187, R324). -/
def condHolds (c : Cond) (x y : Int) : Bool :=
  match c with
  | .eq => x == y | .ne => x != y | .lt => decide (x < y) | .le => decide (x ≤ y) | .gt => decide (x > y)
  | .ge => decide (x ≥ y)

/-- A 32-bit or 64-bit word of storage, as a partition reads it. -/
def State.word (s : State) (own a : Nat) (w64 : Bool) : DWord :=
  BitVec.ofNat 64 (leNat (s.bytesAs own a (if w64 then 8 else 4)))

/-- An entry's condition on a value (R324, R325). -/
def Monitor.holds (m : Monitor) (v : DWord) : Bool :=
  condHolds m.cond (valueOf m.signed m.w64 v) (valueOf m.signed m.w64 m.value)

/-- A lane's outcome recorded (R326). -/
def WaitcRec.settle (w : WaitcRec) (lanes : Word) (x : LaneWait) : WaitcRec :=
  { w with lanes := w.lanes.map fun p => if lanes.getLsbD p.1 then (p.1, x) else p }

/-- A cohort halted in place becomes ready when an entry of its fires (R331). -/
def State.wakeCohort (s : State) (co : Nat) : State :=
  s.modCohort co fun c => if c.halted && c.idle then { c with ready := true } else c

/-- An entry fires with an outcome, and is freed (R325, R326, R329). DEDUCED: an arm's entry makes no halted cohort ready, since
its firing wakes nothing (R329, R331, log 133). -/
def State.fire (s : State) (m : Monitor) (x : LaneWait) : State :=
  let s := { s with monitors := s.monitors.filter fun e => e.id != m.id }
  match m.part with
  | some p =>
    ({ s with waitcs := s.waitcs.map fun (w : WaitcRec) => if w.part = p then w.settle m.lanes x else w }).wakeCohort m.cohort
  | none =>
    s.modGang m.cohort m.gang fun g =>
      if g.arm = .armed m.id then
        { g with arm := match x with | .satisfied v => .fired v | _ => .retry }
      else g

/-- The word that an entry watches, as its cohort's partition reads it. -/
def State.watched (s : State) (m : Monitor) : DWord := s.word m.own m.addr m.w64

/-- The entries of a line after a write to it (R325). -/
def State.evalMonitors (s : State) (line : Nat) : State :=
  (s.monitors.filter fun m => m.addr / 64 == line).foldl
    (fun t m => let v := t.watched m; if m.holds v then t.fire m (.satisfied v) else t) s

/-- Entries of some lines fire with retry (R325). -/
def State.retryMonitors (s : State) (p : Nat → Bool) : State :=
  (s.monitors.filter fun m => p (m.addr / 64)).foldl (fun t m => t.fire m (.retry (t.watched m))) s

/-- What arrays keep of tiles that lie in some bytes is no longer as it was loaded (R432). -/
def State.touchTiles (s : State) (a n : Nat) : State :=
  { s with matrix := { s.matrix with kept := s.matrix.kept.map fun k =>
    if k.addr < a + n ∧ a < k.addr + 16384 then { k with clean := false } else k } }

/-- A write to one line as the memory order sees it, by an access of a kind: conflicts, the change of its bytes, poison (a
whole line clears it, R372), sideband (none: unchanged, R81), key (R546), the host's copy (R90), tiles that arrays keep of it
(R432), and the line's monitors (R325). -/
def State.homeCore (s : State) (acc : Access) (me : Option Nat) (own line : Nat) (f : Memory → Memory) (whole : Bool)
    (side : Option Side) : State :=
  let s := s.strike line acc me
  let s := { s with mem := f (match s.foreign own line with
    | none => s.mem
    | some _ => s.mem.writeBytes (s.cell line) (s.bytesAs own (64 * line) 64)) }
  let s := match side with | some x => s.setSide line x | none => s
  let s := if whole then 
      { s with poison := s.poison.filter fun l => l != line, bufPoison := s.bufPoison.filter fun l => l.1 != line } else s
  let s := if isHbm (64 * line) || isFar (64 * line) then { s with owners := assocSet s.owners (s.cell line) (s.keyOf own, line) } else s
  let s := if s.hostHeld.contains line then
      { s with hostHeld := s.hostHeld.filter (fun l => l != line), out := .backInvalidate line :: s.out }
    else s
  (s.touchTiles (64 * line) 64).evalMonitors line

/-- A write of bytes that lie in one line, by an access of a kind of agent `me` for partition `own`. -/
def State.homeWriteAs (s : State) (acc : Access) (me : Option Nat) (own : Nat) (a : Nat) (bs : List Byte) (side : Option Side) : State :=
  if bs.isEmpty then s
  else s.homeCore acc me own (a / 64) (fun m => m.writeBytes (s.cell (a / 64) + a % 64) bs) (bs.length == 64) side

/-- A write that is no reduction. -/
def State.homeWrite (s : State) (me : Option Nat) (own : Nat) (a : Nat) (bs : List Byte) (side : Option Side) : State :=
  s.homeWriteAs .write me own a bs side

/-- The bytes that a mask names of the 64 from an address on. -/
def writeMask (m : Memory) (base : Nat) (mask : BitVec 64) (data : List Byte) : Memory :=
  (List.range 64).foldl (fun t i => if mask.getLsbD i then t.write (base + i) (data.getD i 0) else t) m

/-- A write of the masked bytes of a line. -/
def State.homeMask (s : State) (me : Option Nat) (own line : Nat) (mask : BitVec 64) (data : List Byte)
    (side : Option Side) : State :=
  s.homeCore .write me own line (fun m => writeMask m (s.cell line) mask data) (mask == BitVec.allOnes 64) side

/-- Bytes cut where lines end. -/
def splitLines (a : Nat) (bs : List Byte) : List (Nat × List Byte) :=
  let n := 64 - a % 64
  if bs.length ≤ n then [(a, bs)] else
    (a, bs.take n) :: (List.range ((bs.length - n + 63) / 64)).map fun k =>
      (a + n + 64 * k, ((bs.drop n).drop (64 * k)).take 64)

/-- A write that may span lines, lowest line first. -/
def State.homeWrites (s : State) (me : Option Nat) (own : Nat) (a : Nat) (bs : List Byte) (side : Option Side) : State :=
  (splitLines a bs).foldl (fun t p => t.homeWrite me own p.1 p.2 side) s

/-- A read by agent `me`: it takes ownership away from uncommitted entries of other parts (R105, R283). -/
def State.homeRead (s : State) (me : Option Nat) (line : Nat) : State := s.strike line .read me

end Sys2Proof.Machine
end

