-- ==== Sys2Proof/Machine/Mmu.lean ====
section
/-!
DEFINITION. Addresses, table walks and cached translations (R22, R23, R268, R269, R273, R274, R341, R539 to R545, R554). What a
translation changes is in Machine/Translate.lean.
-/
namespace Sys2Proof.Machine

/-- Why an access is made (R42, R274). -/
inductive Kind where
  | load | store | fetch
  deriving DecidableEq, Repr

/-- A translation that fails: cause, and whether stage 2 found it. -/
structure XFault where
  code : Nat
  s2 : Bool
  deriving DecidableEq, Repr

/-- What a check, a table read or a walk comes to: a result, a fault, or a page under a tier move, for which it waits (R91, R274). -/
inductive XRes (α : Type) where
  | ok (a : α)
  | fault (f : XFault)
  | wait
  deriving DecidableEq, Repr

/-- A translated address: the storage address (for a peer the address in its HBM, for I/O space the physical one), the
peer, I/O space, and the table entries whose DRT a store sets, with what the dirty log records. -/
structure Xlat where
  addr : Nat
  peer : Option Nat
  io : Bool
  leaves : List (Nat × Option DWord)
  deriving DecidableEq, Repr

/-- Whether it names a peer or I/O space (R93). -/
def Xlat.far (x : Xlat) : Bool := x.io || x.peer.isSome

/-- The storage address of a physical address and whether it is I/O space; none where nothing is (R22, R23). -/
def State.physStore (s : State) (p : Nat) : Option (Nat × Bool) :=
  if p < hbmEnd then some (p, false)
  else if farLo ≤ p ∧ p < hostLo then (s.farWindow p).map fun _ => (p, false)
  else if hostLo ≤ p ∧ p < ioLo then some (p, false)
  else if ioLo ≤ p ∧ p < ioEnd then some (p, true)
  else none

/-- A page fault's code by kind (R42, R274). -/
def pageCode : Kind → Nat
  | .store => 9
  | _ => 8

/-- Levels of a table (R539): address bits, index bits, alignment of a table, bits of a page that a leaf maps. -/
def lvShift : Nat → Nat
  | 0 => 43 | 1 => 30 | 2 => 21 | _ => 16
def lvBits : Nat → Nat
  | 0 => 14 | 1 => 13 | 2 => 9 | _ => 5
def tabBits : Nat → Nat
  | 0 => 17 | 1 => 16 | 2 => 12 | _ => 8

/-- The ADDR field as an address (R540). -/
def pteAddr (e : Nat) : Nat := e / 256 % 2 ^ 44 * 256
def pteBit (e i : Nat) : Bool := e / 2 ^ i % 2 == 1

/-- A leaf that a walk found: the entry, its address in the walk's space, its level. -/
structure Leaf where
  e : Nat
  addr : Nat
  level : Nat
  deriving DecidableEq, Repr

/-- What a walk reads on its way (R273, R274): pointers of stage 1 and of stage 2 by their addresses, and the stage-2 leaves of the
table pages that it reads, with what the working-set log records of each. -/
structure Seen where
  p1 : List (Nat × Nat)
  p2 : List (Nat × Nat)
  acc : List (Nat × DWord)
  deriving DecidableEq, Repr

def Seen.none : Seen := ⟨[], [], []⟩

/-- What was read first and what was read then. -/
def Seen.and (a b : Seen) : Seen := ⟨a.p1 ++ b.p1, a.p2 ++ b.p2, a.acc ++ b.acc⟩

/-- A walk of `n` levels from a table (R539, R541): the leaf, and what was read on the way. `rd` reads an entry; `bad` is the
fault of an entry that is not valid. -/
def walkGo (rd : Nat → XRes Nat × Seen) (bad : XFault) (va : Nat) : (n : Nat) → (tab : Nat) → XRes Leaf × Seen
  | 0, _ => (.fault bad, .none)
  | n + 1, tab =>
    let l := 3 - n
    let a := tab + 8 * (va / 2 ^ lvShift l % 2 ^ lvBits l)
    let q := rd a
    match q.1 with
    | .fault f => (.fault f, q.2)
    | .wait => (.wait, q.2)
    | .ok e =>
      if !pteBit e 0 || e / 32 % 8 != 0 then (.fault bad, q.2)
      else if e / 2 % 8 != 0 then
        if l = 0 || pteAddr e % 2 ^ lvShift l != 0 then (.fault bad, q.2) else (.ok ⟨e, a, l⟩, q.2)
      else if l = 3 || e / 2 ^ 52 != 0 || pteBit e 4 || pteAddr e % 2 ^ tabBits (l + 1) != 0 then (.fault bad, q.2)
      else
        let r := walkGo rd bad va n (pteAddr e)
        (r.1, (q.2.and ⟨[(a, e)], [], []⟩).and r.2)

/-- Under which partition's key the walker and the tier engine read and write a table (R371, R546; log 66): a stage-1 table is the
partition's own, a stage-2 table belongs to H, whose traffic is partition 63's. -/
def tableOwn (part : Nat) (two : Bool) : Nat := if two then 63 else part

/-- A table entry in storage, as its owner reads it (R546); 0, which is not valid, where nothing is and in I/O space (log 66). -/
def State.entryAt (s : State) (own p : Nat) : Nat :=
  match s.physStore p with
  | some (a, false) => leNat (s.bytesAs own a 8)
  | _ => 0

/-- A table entry read through the section's walk cache (R273); `phys` is where it lies. DESIGN CHOICE: an entry in a
reserved range, in I/O space or in no enabled window reads as 0, which is not valid (`State.entryAt`, log 66). -/
def State.readPte (s : State) (sec part : Nat) (two : Bool) (ga : Nat) (phys : XRes Nat × Seen) : XRes Nat × Seen :=
  match s.walkCache.find? fun w => w.sec == sec && w.part == part && w.two == two && w.addr == ga with
  | some w => (.ok w.value, .none)
  | none =>
    match phys.1 with
    | .ok p => (.ok (s.entryAt (tableOwn part two) p), phys.2)
    | .fault f => (.fault f, phys.2)
    | .wait => (.wait, phys.2)

/-- The walk of stage 2 for a guest-physical address (R543). -/
def State.walk2 (s : State) (sec : Nat) (p : Partition) (k : Kind) (gpa : Nat) : XRes Leaf × Seen :=
  let r := walkGo (fun a => s.readPte sec p.num true a (.ok a, .none)) ⟨pageCode k, true⟩ gpa 4 p.s2.toNat
  (r.1, ⟨[], r.2.p1, []⟩)

/-- The physical address that a leaf gives. -/
def Leaf.phys (l : Leaf) (va : Nat) : Nat := pteAddr l.e + va % 2 ^ lvShift l.level

/-- What a log records (R554). -/
def logEntry (asid page size : Nat) : DWord := BitVec.ofNat 64 (asid * 2 ^ 48 + page % 2 ^ 41 * 128 + size * 32)

/-- SIZE of R554 by level of the leaf. -/
def sizeOf3 : Nat → Nat
  | 1 => 2 | 2 => 1 | _ => 0

/-- Row 6 of R274: where a page lies by its leaf's IO, TIER and PEER (R544). -/
def State.placeOf (s : State) (io : Bool) (tier peer a : Nat) (leaves : List (Nat × Option DWord)) : Option Xlat :=
  match io, tier with
  | false, 0 => if a < hbmEnd then some ⟨a, none, false, leaves⟩ else none
  | false, 1 => if farLo ≤ a ∧ a < hostLo then (s.physStore a).map fun x => ⟨x.1, none, false, leaves⟩ else none
  | false, 2 => if hostLo ≤ a ∧ a < ioLo then some ⟨a, none, false, leaves⟩ else none
  | false, 3 => if a < hbmEnd then some ⟨a, some peer, false, leaves⟩ else none
  | true, 0 => if ioLo ≤ a ∧ a < ioEnd then some ⟨a, none, true, leaves⟩ else none
  | _, _ => none

/-- The IO, TIER and PEER fields of a leaf (R540). -/
def Leaf.io (l : Leaf) : Bool := pteBit l.e 4
def Leaf.tier (l : Leaf) : Nat := l.e / 2 ^ 58 % 4
def Leaf.peer (l : Leaf) : Nat := l.e / 2 ^ 60 % 16

/-- Whether a move of the page of a leaf is under way (R274, R557). -/
def State.moving (s : State) (leaf : Nat) : Bool := s.tier.moves.any fun m => m.leaf == leaf && !m.done

/-- Whether a frame is being moved away from (R557, R558). -/
def State.underMove (s : State) (a : Nat) : Bool := s.tier.moves.any fun m => !m.done && decide (m.old ≤ a) && decide (a < m.old + 65536)

/-- The rows of R274 on a stage-2 leaf for an access that is no lane's: a table read by the walker (`perm` a load's), an
engine's own read or write. A table page or an engine's own data in a peer's memory or in I/O space is an access fault (log
66). A page under a tier move makes either wait (R91). -/
def State.guestCheck (s : State) (k perm : Kind) (l : Leaf) (gpa : Nat) : XRes Nat :=
  if !pteBit l.e 56 then (if s.moving l.addr then .wait else .fault ⟨pageCode k, true⟩)
  else
    let may := match perm with | .store => pteBit l.e 2 | .fetch => pteBit l.e 3 | .load => pteBit l.e 1
    if !may && !pteBit l.e 57 then .fault ⟨10, true⟩
    else if !may && perm == .store then .fault ⟨9, true⟩
    else
      match s.placeOf l.io l.tier l.peer (l.phys gpa) [] with
      | some ⟨a, none, false, _⟩ => .ok a
      | _ => .fault ⟨10, true⟩

/-- A guest-physical address of a partition made physical for a table read: through stage 2 when the partition has it (R543). -/
def State.guestVia (s : State) (sec : Nat) (p : Partition) (k perm : Kind) (gpa : Nat) : XRes Nat × Seen :=
  if p.s2 = 0 then (.ok gpa, .none)
  else
    let w := s.walk2 sec p k gpa
    match w.1 with
    | .fault f => (.fault f, w.2)
    | .wait => (.wait, w.2)
    | .ok l => (s.guestCheck k perm l gpa, w.2.and ⟨[], [], [(l.addr, logEntry 0xFFFF (gpa / 65536) (sizeOf3 l.level))]⟩)

/-- The space in which a write of an agent lies: a partition's, or H's. -/
def EngWrite.part : EngWrite → Nat
  | .record (.S n) _ _ => n
  | .record _ _ _ => 63
  | .bytes n _ _ _ _ _ _ => n

/-- An address as storage for an agent of the package, in the space of a partition, through stage 2 when it has it, or, for
63, in H's (R373, R548): it fails in I/O space and where nothing is. A page under a tier move makes the access wait, and so
does a write to the space that waits already (R76, R91; log 67). -/
def State.engReach (s : State) (part : Nat) (k : Kind) (a : Nat) : XRes Nat :=
  if s.engWaits.any fun w => w.part == part then .wait
  else
    match (match s.partition? part with | some p => (s.guestVia 48 p k k a).1 | none => .ok a) with
    | .ok b => (if s.underMove b then .wait else match s.physStore b with | some (x, false) => .ok x | _ => .fault ⟨10, true⟩)
    | r => r

/-- The walk of stage 1, its tables reached through stage 2 where the partition has it (R273, R543). -/
def State.walk1 (s : State) (sec : Nat) (p : Partition) (k : Kind) (root va : Nat) : XRes Leaf × Seen :=
  walkGo (fun ga => s.readPte sec p.num false ga (s.guestVia sec p k .load ga)) ⟨pageCode k, false⟩ va 4 root

/-- Rows 3 to 5 of R274 on a cached translation; fetch needs EX (R42). -/
def TlbEntry.check (e : TlbEntry) (ring : Ring) (k : Kind) (atomic : Bool) : Option XFault :=
  if atomic && !e.rd then some ⟨10, false⟩
  else if atomic && e.two && !e.rd2 then some ⟨10, true⟩
  else
    let p1 := match k with | .load => e.rd | .store => e.wr | .fetch => e.ex
    let p2 := !e.two || (match k with | .load => e.rd2 | .store => e.wr2 | .fetch => e.ex2)
    if !p1 && (!e.cow || k == .fetch) then some ⟨10, false⟩
    else if !p2 && (!e.cow2 || k == .fetch) then some ⟨10, true⟩
    else if k == .store && !e.wr && e.cow then some ⟨9, false⟩
    else if k == .store && e.two && !e.wr2 && e.cow2 then some ⟨9, true⟩
    else if ring == .U && !e.usr then some ⟨10, false⟩
    else none

/-- Row 6 of R274 on a cached translation. -/
def State.place (s : State) (e : TlbEntry) (va : Nat) : Option Xlat :=
  s.placeOf e.io e.tier e.peer (e.page + va % 2 ^ e.size) (match e.leaf2 with
    | none => [(e.leaf, some e.log)]
    | some l2 => [(e.leaf, none), (l2, some e.log)])

/-- The root and the ASID of a graph slot (R542, R548). -/
def Partition.root (p : Partition) (g : Nat) : Nat := (vget p.roots g 0).toNat
def Partition.asid (p : Partition) (g : Nat) : Nat := (vget p.asids g 0).toNat % 65536

/-- Whether a cached translation serves an address (R273). -/
def TlbEntry.hits (e : TlbEntry) (home part vf asid va : Nat) : Bool :=
  e.home == home && e.part == part && e.vf == vf && (e.glb || e.asid == asid) && e.vpage == va / 2 ^ e.size

/-- How many of some entries a cache keeps: the newest (log 10). -/
def State.trimTlb (l : List TlbEntry) (home cap : Nat) : List TlbEntry :=
  let mine := l.filter fun e => e.home == home
  if mine.length ≤ cap then l else (l.filter fun e => e.home != home) ++ mine.take cap

/-- A translation put into the L1 TLB of a core and the L2 TLB of its section (R273). -/
def State.fillTlb (s : State) (core : Nat) (e : TlbEntry) : State :=
  let l := { e with home := core } :: { e with home := 192 + core / 4 } :: s.tlb
  { s with tlb := State.trimTlb (State.trimTlb l core 512) (192 + core / 4) 8192 }

/-- Pointers put into the walk cache of a section, which keeps its 256 newest (R273, log 10). -/
def State.fillWalk (s : State) (sec part : Nat) (two : Bool) (l : List (Nat × Nat)) : State :=
  let new := l.map fun p => (⟨sec, part, two, p.1, p.2⟩ : WalkEntry)
  let all := new ++ s.walkCache.filter fun w => !new.any fun v => v.sec == w.sec && v.part == w.part && v.two == w.two && v.addr == w.addr
  { s with walkCache := (all.filter fun w => w.sec == sec).take 256 ++ all.filter fun w => w.sec != sec }

/-- What a walk makes of a virtual address (R274 rows 1 and 2, R539 to R543): the translation it found, what it read, or the fault.
A page under a tier move makes it wait. -/
inductive WalkRes where
  | found (e : TlbEntry) (q : Seen)
  | fault (f : XFault)
  | wait
  deriving DecidableEq, Repr

/-- What the final-stage leaf of a walk gives: its translation, unless it is not resident (R274 row 2). -/
def State.found (s : State) (k : Kind) (l : Leaf) (e : TlbEntry) (q : Seen) : WalkRes :=
  if pteBit l.e 56 then .found e q else if s.moving l.addr then .wait else .fault ⟨pageCode k, e.two⟩

/-- The walk of both stages for a virtual address (R539, R543). DEDUCED: R543's access fault for a stage-1 leaf comes right after
stage 1's residency, before stage 2 and the permissions (log 132). -/
def State.walk (s : State) (core : Nat) (p : Partition) (gslot : Nat) (k : Kind) (va : Nat) : WalkRes :=
  let sec := core / 4
  let asid := p.asid gslot
  let w1 := s.walk1 sec p k (p.root gslot) va
  match w1.1 with
  | .fault f => .fault f
  | .wait => .wait
  | .ok l1 =>
    let b := pteBit l1.e
    let e1 : TlbEntry :=
      { home := core, part := p.num, vf := p.vf, asid := asid, glb := b 53, size := lvShift l1.level
        vpage := va / 2 ^ lvShift l1.level, rd := b 1, wr := b 2, ex := b 3, usr := b 52, cow := b 57, two := false
        rd2 := true, wr2 := true, ex2 := true, cow2 := false, io := l1.io, tier := l1.tier
        peer := l1.peer, page := pteAddr l1.e, leaf := l1.addr, leaf2 := none
        log := logEntry asid (va / 65536) (sizeOf3 l1.level) }
    if p.s2 = 0 then s.found k l1 e1 w1.2
    else if !b 56 then .fault ⟨pageCode k, false⟩
    else if l1.e / 2 ^ 58 != 0 || b 4 then .fault ⟨10, false⟩
    else
      let gpa := l1.phys va
      let w2 := s.walk2 sec p k gpa
      match w2.1, (s.guestVia sec p k .load l1.addr).1 with
      | .fault f, _ => .fault f
      | .wait, _ => .wait
      | _, .fault f => .fault f
      | _, .wait => .wait
      | .ok l2, .ok leafPhys =>
        let c := pteBit l2.e
        let sz := min (lvShift l1.level) (lvShift l2.level)
        s.found k l2
          { e1 with size := sz, vpage := va / 2 ^ sz, two := true, rd2 := c 1, wr2 := c 2, ex2 := c 3, cow2 := c 57
                    io := l2.io, tier := l2.tier, peer := l2.peer
                    page := l2.phys gpa / 2 ^ sz * 2 ^ sz, leaf := leafPhys, leaf2 := some l2.addr
                    log := logEntry 0xFFFF (gpa / 65536) (sizeOf3 l2.level) } (w1.2.and w2.2)

/-- Translation at rings H and M and, at every ring, in the boot context, which is no partition: physical (R341, R603). A page
under a tier move makes it wait (R91, R558). -/
def State.physical (s : State) (va : Nat) : XRes Xlat :=
  if s.underMove va then .wait
  else
    match s.physStore va with
    | some (a, io) => .ok ⟨a, none, io, []⟩
    | none => .fault ⟨10, false⟩

/-- Whether an address is the sign extension of 57 bits (R40, R269). -/
def canonical (va : DWord) : Bool := va.toNat < 2 ^ 56 || 2 ^ 64 - 2 ^ 56 ≤ va.toNat

end Sys2Proof.Machine
end

