-- ==== Sys2Proof/Machine/Errors.lean ====
section
/-!
DEFINITION. Error queues, handles and containment identifiers (R149, R368, R371, R373, R570, R600).
-/
namespace Sys2Proof.Machine

/-- The core number that a partition sees (R149, R570): through the core table at HPCTB, which is H's own memory (R546, log 66), or the
physical number. -/
def State.coreSeen (s : State) (part core : Nat) : Nat :=
  match s.partition? part with
  | none => core
  | some p => if p.ctb = 0 then core else (s.byteAs 63 (p.ctb.toNat + core)).toNat

/-- The physical core that a partition names by a number (R570); none if its table gives none. -/
def State.coreReal (s : State) (part n : Nat) : Option Nat :=
  (List.range 192).find? fun c => s.coreSeen part c == n && n != 255

/-- The handle of a gang (R368); of a cohort that has left its slot, the slot that it had last (R409). -/
def State.handleOf (s : State) (co g : Nat) : Nat :=
  match s.cohort? co with
  | none => 0xFFFFFFFF
  | some c => g * 4096 + (c.slot.getD c.lastSlot) * 256 + s.coreSeen c.part c.core

/-- A containment identifier (R371). -/
def State.cidOf (s : State) (part : Nat) : Nat :=
  part * 128 + (match s.partition? part with | some p => p.vf | none => 127)

def State.eqSet (s : State) : EQ → Option RegSet
  | .S n => (s.partition? n).map (·.regs)
  | .H => some s.pkg.setH
  | .M => some s.pkg.setM

def State.setEqSet (s : State) (q : EQ) (f : RegSet → RegSet) : State :=
  match q with
  | .S n => s.modPartition n fun p => { p with regs := f p.regs }
  | .H => { s with pkg := { s.pkg with setH := f s.pkg.setH } }
  | .M => { s with pkg := { s.pkg with setM := f s.pkg.setM } }

/-- The 32 bytes of a record (R373). -/
def ErrRecord.bytes (e : ErrRecord) (cycle : Nat) : List Byte :=
  natLe 2 e.kind ++ natLe 2 e.cid ++ natLe 2 (e.core / 4 + 256 * (e.core % 4)) ++ natLe 2 e.structure_ ++ natLe 8 e.addr
    ++ natLe 8 cycle ++ natLe 4 e.handle ++ natLe 4 0

/-! Writes of the agents of the package (R75, R76). `clear` lets the committed entries of a line drain, which a request of another agent
waits for (R283). -/

/-- The lines that some bytes touch. -/
def linesOf (a n : Nat) : List Nat := (List.range ((a % 64 + n + 63) / 64)).map fun k => a / 64 + k

/-- A write by an agent for a partition, once the lines are clear. -/
def State.engWith (clear : State → Nat → State) (s : State) (own a : Nat) (bs : List Byte) (side : Option Side) : State :=
  ((linesOf a bs.length).foldl clear s).homeWrites none own a bs side

/-- A write into the space of a partition, or for 63 of H, which waits for a page under a tier move (R91); nothing where the
address fails or, with `near`, lies outside local HBM. -/
def State.putWith (clear : State → Nat → State) (s : State) (part own a : Nat) (bs : List Byte) (side : Option Side) (bad near : Bool) : State :=
  match s.engReach part .store a with
  | .wait => { s with engWaits := s.engWaits ++ [.bytes part own a bs side bad near] }
  | .fault _ => s
  | .ok b =>
    if near && !isHbm b then s
    else
      let s := s.engWith clear own b bs side
      if bad then { s with poison := insertNat (b / 64) s.poison } else s

/-- The space in which an error queue lies (R373): its partition's, or H's. -/
def EQ.space : EQ → Nat
  | .S n => n
  | _ => 63

/-- An error queue's address as storage: in its ring's own physical space, and in local HBM (R373). -/
def State.eqAddr (s : State) (q : EQ) (a : Nat) : XRes Nat :=
  match s.engReach q.space .store a with
  | .ok x => if isHbm x then .ok x else .fault ⟨10, false⟩
  | r => r

/-- A reporter, an agent of its own, writes a record and the tail word, or counts it as dropped (R373); where a page of the
queue is under a tier move, it waits (R91). What concerns package-level traffic, which has no partition's queue, goes to the
H queue (log 37). -/
def State.reportWith (clear : State → Nat → State) (s : State) (q : EQ) (e : ErrRecord) (cycle : Nat) : State :=
  let q := if q = .S 63 then .H else q
  let drop (s : State) := s.setEqSet q fun r => { r with eqovf := r.eqovf + 1 }
  match s.eqSet q with
  | none => s
  | some r =>
    if r.eqcap = 0 ∨ ¬ (r.eqtail - r.eqhead) < r.eqcap then drop s
    else
      let base := r.eqbase.toNat
      match s.eqAddr q (base + 32 * (r.eqtail.toNat % r.eqcap.toNat)), s.eqAddr q (base + 32 * r.eqcap.toNat) with
      | .wait, _ => { s with engWaits := s.engWaits ++ [.record q e cycle] }
      | _, .wait => { s with engWaits := s.engWaits ++ [.record q e cycle] }
      | .fault _, _ => drop s
      | .ok a, t =>
        let bs := e.bytes cycle
        let s := s.engWith clear q.space a (bs.take 16) (some Sides.untyped)
        let s := s.engWith clear q.space (a + 16) (bs.drop 16) (some Sides.untyped)
        let s := s.setEqSet q fun r => { r with eqtail := r.eqtail + 1 }
        match t with
        | .ok t => s.engWith clear q.space t (natLe 4 (r.eqtail + 1).toNat) (some Sides.untyped)
        | _ => drop s

/-- The poisoned line that a storage line carries (R371, R372): itself, or the one whose poison a buffer holds. -/
def State.badOf (s : State) (line : Nat) : Option Nat :=
  if s.poison.contains line then some (64 * line) else assocGet s.bufPoison line

/-- A line or granule poisoned by a line (R385, R371). -/
def State.setBad (s : State) (line src : Nat) : State :=
  if isBuf (64 * line) then { s with bufPoison := assocSet s.bufPoison line src }
  else { s with poison := insertNat line s.poison }

/-- Whether an error has struck the data of what an identifier names on its way to or from a line (R371, log 79), with the
state in which the error has its record. -/
def State.struckWith (clear : State → Nat → State) (s : State) (id line : Nat) : Bool × State :=
  match assocGet s.spoiled id with
  | none => (false, s)
  | some k =>
    let s : State := { s with spoiled := s.spoiled.filter fun x => x.1 != id }
    (true, match k with
      | some (core, cid) => s.reportWith clear (.S (cid.toNat / 128)) ⟨1, cid.toNat, core, 2, 64 * line, 0xFFFFFFFF⟩ s.cycle
      | none => s)

/-- The error alarm is raised while the H queue holds an unread record (R600). -/
def State.errorAlarm (s : State) : Bool := s.pkg.setH.eqtail != s.pkg.setH.eqhead

/-- The record of a poisoned line that a part's access, its fetch or its reduction met (R371, R372; log 42). -/
def State.poisonRecord (s : State) (own core co g line : Nat) : ErrRecord := ⟨2, s.cidOf own, core, 1, 64 * line, s.handleOf co g⟩

end Sys2Proof.Machine
end

