-- ==== Sys2Proof/Machine/Fp.lean ====
section
/-!
DEFINITION. Exact dyadic values and their rounding into a binary format (R199 to R205, R213 to R216, R314): the one place
where a floating result is made.
-/
namespace Sys2Proof.Machine

/-- A value: not a number, an infinity, a zero with its sign, or (−1)^neg × m × 2^e with m not 0. -/
inductive FVal where
  | nan | inf (neg : Bool) | zero (neg : Bool) | fin (neg : Bool) (m : Nat) (e : Int)
  deriving DecidableEq, Repr

/-- How many bits a number needs. -/
def bitLen (n : Nat) : Nat := if n = 0 then 0 else Nat.log2 n + 1

/-- Rounding directions (R213): nearest even, toward zero, down, up. -/
inductive RMode where
  | ne | tz | dn | up
  deriving DecidableEq, Repr

/-- A value with a sign and magnitude; zero magnitude gives a zero. -/
def mkFin (neg : Bool) (m : Nat) (e : Int) : FVal := if m = 0 then .zero neg else .fin neg m e

def FVal.neg : FVal → FVal
  | .nan => .nan | .inf n => .inf (!n) | .zero n => .zero (!n) | .fin n m e => .fin (!n) m e

def FVal.isNeg : FVal → Bool
  | .nan => false | .inf n => n | .zero n => n | .fin n _ _ => n

def FVal.abs : FVal → FVal
  | .nan => .nan | .inf _ => .inf false | .zero _ => .zero false | .fin _ m e => .fin false m e

/-- The signed integer m × 2^(e − base), base at most e. -/
def scaled (neg : Bool) (m : Nat) (e base : Int) : Int :=
  let x : Int := m * 2 ^ (e - base).toNat
  if neg then -x else x

/-- A value from a signed integer times 2^base; an exact zero takes the given sign. -/
def ofScaled (x : Int) (base : Int) (zneg : Bool) : FVal :=
  if x = 0 then .zero zneg else .fin (decide (x < 0)) x.natAbs base

/-- The exact sum (R214, R219): opposite infinities give NaN; an exact zero of opposite signs is +0, or −0 when rounding
down; equal zeros keep their sign. -/
def FVal.add (r : RMode) : FVal → FVal → FVal
  | .nan, _ => .nan
  | _, .nan => .nan
  | .inf a, .inf b => if a = b then .inf a else .nan
  | .inf a, _ => .inf a
  | _, .inf b => .inf b
  | .zero a, .zero b => if a = b then .zero a else .zero (r == .dn)
  | .zero _, y => y
  | x, .zero _ => x
  | .fin a m e, .fin b n f =>
    let base := min e f
    ofScaled (scaled a m e base + scaled b n f base) base (r == .dn)

/-- The exact product. -/
def FVal.mul : FVal → FVal → FVal
  | .nan, _ => .nan
  | _, .nan => .nan
  | .inf _, .zero _ => .nan
  | .zero _, .inf _ => .nan
  | .inf a, y => .inf (a != y.isNeg)
  | x, .inf b => .inf (x.isNeg != b)
  | .zero a, y => .zero (a != y.isNeg)
  | x, .zero b => .zero (x.isNeg != b)
  | .fin a m e, .fin b n f => .fin (a != b) (m * n) (e + f)

/-- Scaling by a power of two. -/
def FVal.shift (k : Int) : FVal → FVal
  | .fin n m e => .fin n m (e + k)
  | x => x

/-- Order of two values that are not NaN: less, equal, greater as −1, 0, 1. -/
def FVal.cmp (x y : FVal) : Int :=
  let key : FVal → Int × Int × Int
    | .inf n => (if n then -1 else 1, 0, 0)
    | _ => (0, 0, 0)
  let kx := (key x).1
  let ky := (key y).1
  if kx ≠ ky then (if kx < ky then -1 else 1)
  else
    let part : FVal → Bool × Nat × Int
      | .fin n m e => (n, m, e)
      | _ => (false, 0, 0)
    let (a, m, e) := part x
    let (b, n, f) := part y
    let base := min e f
    let p := scaled a m e base
    let q := scaled b n f base
    if p < q then -1 else if p = q then 0 else 1

/-- An integer quotient rounded by the part that is cut off: `q` whole, `r` of `d` cut (R213). -/
def roundQ (md : RMode) (neg : Bool) (q r d : Nat) : Nat :=
  if r = 0 then q else
    match md with
    | .tz => q
    | .dn => if neg then q + 1 else q
    | .up => if neg then q else q + 1
    | .ne => if 2 * r > d || (2 * r == d && q % 2 == 1) then q + 1 else q

/-- m × 2^e rounded to multiples of 2^E: the multiple, and whether bits were cut. -/
def roundAt (md : RMode) (neg : Bool) (m : Nat) (e E : Int) : Nat × Bool :=
  if E ≤ e then (m * 2 ^ (e - E).toNat, false)
  else
    let d := 2 ^ (E - e).toNat
    (roundQ md neg (m / d) (m % d) d, m % d != 0)

/-- m × 2^e rounded to `p` bits with no exponent bound below `emin`, the exponent of the lowest bit of a subnormal:
the rounded integer and its exponent, and whether bits were cut. -/
def roundBits (md : RMode) (p : Nat) (emin : Int) (neg : Bool) (m : Nat) (e : Int) : Nat × Int × Bool :=
  let E := max (e + bitLen m - p) emin
  let r := roundAt md neg m e E
  if r.1 = 2 ^ p then (2 ^ (p - 1), E + 1, r.2) else (r.1, E, r.2)

/-- The value of a binary32 pattern (R199). -/
def unpack32 (x : Word) : FVal :=
  let neg := x.getLsbD 31
  let ex : Nat := x.toNat / 2 ^ 23 % 256
  let fr : Nat := x.toNat % 2 ^ 23
  if ex = 255 then (if fr = 0 then .inf neg else .nan)
  else if ex = 0 then mkFin neg fr (-149 : Int)
  else .fin neg (fr + 2 ^ 23) ((ex : Int) - 150)

/-- The canonical NaN (R201). -/
def nan32 : Word := 0x7FC00000

/-- The pattern of sign, integer below 2^24 and exponent, where the value is representable. -/
def pack32 (neg : Bool) (m : Nat) (e : Int) : Word :=
  let s := if neg then 2 ^ 31 else 0
  if m = 0 then BitVec.ofNat 32 s
  else if m < 2 ^ 23 then BitVec.ofNat 32 (s + m)
  else BitVec.ofNat 32 (s + (e + 150).toNat * 2 ^ 23 + (m - 2 ^ 23))

def inf32 (neg : Bool) : Word := if neg then 0xFF800000 else 0x7F800000
def max32 (neg : Bool) : Word := if neg then 0xFF7FFFFF else 0x7F7FFFFF
def zero32 (neg : Bool) : Word := if neg then 0x80000000 else 0

/-- A value rounded to binary32: the pattern, and whether it is inexact, has overflowed, and is tiny before rounding and
after. Overflow gives an infinity or the largest finite number by the direction (IEEE 754-2019). -/
structure Rounded where
  bits : Word
  inexact : Bool
  ovf : Bool
  tinyBefore : Bool
  tinyAfter : Bool
  deriving DecidableEq, Repr

def round32 (md : RMode) : FVal → Rounded
  | .nan => ⟨nan32, false, false, false, false⟩
  | .inf n => ⟨inf32 n, false, false, false, false⟩
  | .zero n => ⟨zero32 n, false, false, false, false⟩
  | .fin n m e =>
    let r := roundBits md 24 (-149) n m e
    let u := roundBits md 24 (e + bitLen m - 24) n m e
    let tb := decide (e + bitLen m < -125)
    let ta := decide (u.2.1 + bitLen u.1 < -125)
    if r.2.1 + bitLen r.1 > 128 then
      let toInf := match md with | .ne => true | .tz => false | .dn => n | .up => !n
      ⟨if toInf then inf32 n else max32 n, true, true, false, false⟩
    else ⟨pack32 n r.1 r.2.1, r.2.2, false, tb, ta⟩

/-- The FP32 sum of the atomic fadd (R314): nearest even, subnormals honoured, no flags. -/
def fadd32 (x y : Word) : Word := (round32 .ne ((unpack32 x).add .ne (unpack32 y))).bits

/-- A new value of an atomic operation (R313) on the low 32 or all 64 bits. -/
def atomNew (op : AtomOp) (w64 : Bool) (old b : DWord) : DWord :=
  let w := if w64 then 64 else 32
  let o := if w64 then old else old.lo.setWidth 64
  let c := if w64 then b else b.lo.setWidth 64
  let so : Int := if w64 then old.toInt else old.lo.toInt
  let sb : Int := if w64 then b.toInt else b.lo.toInt
  match op with
  | .add => BitVec.ofNat 64 ((o.toNat + c.toNat) % 2 ^ w)
  | .minI => if so ≤ sb then o else c
  | .minN => if o.toNat ≤ c.toNat then o else c
  | .maxI => if so ≥ sb then o else c
  | .maxN => if o.toNat ≥ c.toNat then o else c
  | .and => o &&& c
  | .or => o ||| c
  | .xor => o ^^^ c
  | .swap => c
  | .inc => if o.toNat ≥ c.toNat then 0 else o + 1
  | .dec => if o = 0 ∨ o.toNat > c.toNat then c else o - 1
  | .fadd => (fadd32 o.lo c.lo).setWidth 64

end Sys2Proof.Machine
end

