-- ==== Sys2Proof/Machine/Translate.lean ====
section
/-!
DEFINITION. How committed stores reach their home slices (R282, R283, R318), the walker's and the tier engine's writes to tables and logs
(R275, R553) and other accesses of engines (R75), which follow them, and translation (R42, R269, R273, R274, R341).
-/
namespace Sys2Proof.Machine

/-- A committed reduction executes at its home slice, or is dropped on a poisoned line (R318, R372). Entries that share its ownership
keep it. `clear` is as below. -/
def State.reduce (clear : State → Nat → State) (s : State) (me own co g : Nat) (op : AtomOp) (w64 : Bool) (a : Nat) (b : DWord) : State :=
  let line := a / 64
  if s.poison.contains line then
    let s := s.modGang co g fun g => { g with psn := true }
    let part := (s.cohort? co).elim own (·.part)
    s.reportWith clear (.S part) (s.poisonRecord part ((s.cohort? co).elim 0 (·.core)) co g line) s.cycle
  else
    let old := s.word own a w64
    s.homeWriteAs (.reduce op w64) (some me) own a (natLe (if w64 then 8 else 4) (atomNew op w64 old b).toNat) (some Sides.untyped)

/-- Requests that wait for a line are made again (R283). -/
def State.wakeLine (s : State) (line : Nat) : State :=
  s.due ((s.stores.filter fun e => e.line == line && !e.owned).map fun (e : StoreEntry) => Instr.ownershipRequest e.id)

/-! Bits of table entries, and the logs. `clear` lets the committed entries of a line drain, which a request of another agent waits
for (R283). -/

/-- A write of the tier engine into a partition's log (R553): one 8-byte write, or the overflow bit. -/
def State.logWith (clear : State → Nat → State) (s : State) (part : Nat) (dirty : Bool) (x : DWord) : State :=
  match s.partition? part with
  | none => s
  | some p =>
    let g := if dirty then p.dl else p.ws
    let put (g : TierLog) (s : State) : State := s.modPartition part fun p => if dirty then { p with dl := g } else { p with ws := g }
    if g.cap = 0 then s
    else if g.cap.toNat ≤ g.n then put { g with ovf := true } s
    else
      let s := put { g with n := g.n + 1 } s
      s.putWith clear part part (g.base.toNat + 8 * (g.cap.toNat * g.half.toNat + g.n)) (natLe 8 x.toNat) (some Sides.untyped) false false

/-- Whether the entry that a bit belongs to is a stage-2 leaf: what its log records tells it from the stage-1 leaf, of which
a two-stage translation logs nothing. -/
def State.stage2 (s : State) (part : Nat) (log : Option DWord) : Bool := log.isSome && (s.partition? part).any fun p => p.s2 != 0

/-- A bit of a table entry set by the walker, an agent of its own (R275); a log entry when the bit was clear (R553). -/
def State.bitWith (clear : State → Nat → State) (s : State) (part : Nat) (leaf bit : Nat) (dirty : Bool) (log : Option DWord) : State :=
  match s.physStore leaf with
  | some (a, false) =>
    let own := tableOwn part (s.stage2 part log)
    if pteBit (s.entryAt own leaf) bit then s
    else
      let s := clear s (a / 64)
      let e := s.entryAt own leaf
      if pteBit e bit then s
      else
        let s := s.homeWrites none own a (natLe 8 (e + 2 ^ bit)) none
        match log with
        | some x => s.logWith clear part dirty x
        | none => s
  | _ => s

/-- The DRT bits of a store's leaves set (R274). -/
def State.dirtyWith (clear : State → Nat → State) (s : State) (part : Nat) (leaves : List (Nat × Option DWord)) : State :=
  leaves.foldl (fun t l => t.bitWith clear part l.1 55 true l.2) s

/-- Committed entries of a line drain, after whatever their parts committed before them (R283); `one` drains an entry. -/
def State.clearWith (one : State → StoreEntry → State) (s : State) (line : Nat) : State :=
  let ps := ((s.stores.filter fun e => e.line == line && e.committed).map fun e => e.part).dedup
  ps.foldl (fun t p => (t.stores.filter fun e => e.part == p && e.committed).foldl one t) s

/-- An entry drains to its home slice or buffer (R282, R283): dirty bits first (R274), then its bytes or its reduction. The
table and log lines that the dirty bits change may hold committed entries, which drain before; an entry that has drained
meanwhile is done. The fuel is how many entries are left. -/
def State.drainGo : (fuel : Nat) → State → StoreEntry → State
  | 0, s, _ => s
  | n + 1, s, e =>
    if !(s.stores.any fun x => x.id == e.id) then s
    else
      let s := { s with stores := s.stores.filter fun x => x.id != e.id }
      let s := s.dirtyWith (State.clearWith (State.drainGo n)) e.own e.leaves
      let s := match e.red with
        | some (op, w, a, b) => s.reduce (State.clearWith (State.drainGo n)) e.part e.own e.cohort e.gang op w a b
        | none => if e.mask = 0 then s else s.homeMask (some e.part) e.own e.line e.mask e.data e.side
      let k := s.struckWith (State.clearWith (State.drainGo n)) e.id e.line
      (if k.1 then k.2.setBad e.line (64 * e.line) else k.2).wakeLine e.line

def State.drainEntry (s : State) (e : StoreEntry) : State := State.drainGo s.stores.length s e

/-- Committed entries of a line drain before another agent's access to it (R283). -/
def State.clearLine (s : State) (line : Nat) : State := State.clearWith State.drainEntry s line

/-- A table entry's bit set, and the DRT bits of a store's leaves (R274, R275). -/
def State.setPteBit (s : State) (part : Nat) (leaf bit : Nat) (dirty : Bool) (log : Option DWord) : State :=
  State.bitWith State.clearLine s part leaf bit dirty log
def State.setDirty (s : State) (part : Nat) (leaves : List (Nat × Option DWord)) : State := State.dirtyWith State.clearLine s part leaves

/-! Accesses of engines (R75, R283, R372): each follows the committed stores that its line waits for. -/

/-- A read by an engine for a partition: its bytes and the state after it. -/
def State.engRead (s : State) (own a n : Nat) : List Byte × State :=
  let s := (linesOf a n).foldl (fun t l => (t.clearLine l).homeRead none l) s
  (s.bytesAs own a n, s)

/-- Whether an error in a flit's payload has struck what an identifier names (R371). -/
def State.struck (s : State) (id line : Nat) : Bool × State := s.struckWith State.clearLine id line

/-- A write by an engine for a partition. -/
def State.engWrite (s : State) (own a : Nat) (bs : List Byte) (side : Option Side) : State :=
  s.engWith State.clearLine own a bs side

/-- A write by an engine into the space of a partition, or of H (R91). -/
def State.engPut (s : State) (part own a : Nat) (bs : List Byte) (side : Option Side) (bad near : Bool) : State :=
  s.putWith State.clearLine part own a bs side bad near

/-- A record of an error queue (R283, R373). -/
def State.report (s : State) (q : EQ) (e : ErrRecord) : State := s.reportWith State.clearLine q e s.cycle

def State.poisonRead (s : State) (own core co g line : Nat) : State := s.report (.S own) (s.poisonRecord own core co g line)

/-- A write that has waited is made again (R91). -/
def State.engAgain (s : State) : EngWrite → State
  | .record q e cycle => s.reportWith State.clearLine q e cycle
  | .bytes part own a bs side bad near => s.engPut part own a bs side bad near

/-- The writes of agents that wait for pages, made again in their order; those that must go on waiting do. -/
def State.flushEng (s : State) : State := s.engWaits.foldl State.engAgain { s with engWaits := [] }

/-! Translation -/

/-- The accessed bits of a translation set on its first use (R274, R275, R553): those of the stage-2 leaves of the table
pages that its walk read, then its own. -/
def State.setAccessed (s : State) (e : TlbEntry) (q : Seen) : State :=
  let s := q.acc.foldl (fun t l => t.setPteBit e.part l.1 54 false (some l.2)) s
  match e.leaf2 with
  | none => s.setPteBit e.part e.leaf 54 false (some e.log)
  | some l2 => (s.setPteBit e.part e.leaf 54 false none).setPteBit e.part l2 54 false (some e.log)

/-- The rows of R274 that a cached translation decides, and where it leads. -/
def State.useEntry (s : State) (ring : Ring) (k : Kind) (atomic : Bool) (v : Nat) (e : TlbEntry) : XRes Xlat :=
  match e.check ring k atomic with
  | some f => .fault f
  | none =>
    match s.place e v with
    | none => .fault ⟨10, e.two⟩
    | some x => .ok x

/-- What a walk leaves: its pointers in the walk cache, its translation in the TLBs, its accessed bits (R273, R274). -/
def State.afterWalk (s : State) (core part : Nat) (e : TlbEntry) (q : Seen) : State :=
  (((s.fillWalk (core / 4) part false q.p1).fillWalk (core / 4) part true q.p2).fillTlb core e).setAccessed e q

/-- Translation of a virtual address (R273, R274, R341): the core's L1 TLB, its section's L2 TLB, then the walker. Of an
address that is not the sign extension of 57 bits, which only a fetch asks for, bits [56:0] are translated (log 68). -/
def State.translate (s : State) (core part gslot : Nat) (ring : Ring) (k : Kind) (atomic : Bool) (va : DWord) :
    XRes Xlat × State :=
  if ring = .H ∨ ring = .M then (s.physical va.toNat, s)
  else
    match s.partition? part with
    | none => (s.physical va.toNat, s)
    | some p =>
      let v := va.toNat % 2 ^ 57
      let at_ := fun (home : Nat) => s.tlb.find? fun e => e.hits home p.num p.vf (p.asid gslot) v
      match (at_ core).orElse fun _ => at_ (192 + core / 4) with
      | some e => (s.useEntry ring k atomic v e, s)
      | none =>
        match s.walk core p gslot k v with
        | .wait => (.wait, s)
        | .fault f => (.fault f, s)
        | .found e q =>
          match s.useEntry ring k atomic v e with
          | .ok x => (.ok x, s.afterWalk core p.num e q)
          | r => (r, s)

/-- Translation by the tables alone, which reads and fills no section's TLBs and walk cache (R15, R274): 192 is no core. -/
def State.translateAlone (s : State) (part gslot : Nat) (ring : Ring) (k : Kind) (va : DWord) : XRes Xlat × State :=
  if ring = .H ∨ ring = .M then (s.physical va.toNat, s)
  else
    match s.partition? part with
    | none => (s.physical va.toNat, s)
    | some p =>
      let v := va.toNat % 2 ^ 57
      match s.walk 192 p gslot k v with
      | .wait => (.wait, s)
      | .fault f => (.fault f, s)
      | .found e q =>
        match s.useEntry ring k false v e with
        | .ok x => (.ok x, s.setAccessed e q)
        | r => (r, s)

end Sys2Proof.Machine
end

