-- ==== Sys2Proof/Machine/CopyCore.lean ====
section
/-!
DEFINITION. Copy operations as they pass to their engine: where a copy's ends lie, overlap, joining a multicast, and
retirement (R384, R386, R393, R394, R405).
-/
namespace Sys2Proof.Machine

/-- A value that the spec leaves open (log 8). -/
def State.takeFree (s : State) : Nat × State := (Config.free s.freeCtr, { s with freeCtr := s.freeCtr + 1 })

/-- Bytes that the spec leaves open (log 8). -/
def State.takeBytes (s : State) (n : Nat) : List Byte × State :=
  ((List.range n).map (Config.freeByte s.freeCtr), { s with freeCtr := s.freeCtr + 1 })

def State.copyOp? (s : State) (id : Nat) : Option CopyOp := s.copy.ops.find? fun o => o.id == id

def State.modCopy (s : State) (id : Nat) (f : CopyOp → CopyOp) : State :=
  { s with copy := { s.copy with ops := s.copy.ops.map fun o => if o.id = id then f o else o } }

/-! Ends -/

def CopyEnd.plus : CopyEnd → Int → CopyEnd
  | .glob va, k => .glob (va + BitVec.ofInt 64 k)
  | .buf a, k => .buf ((a : Int) + k).toNat

/-- An end's place in its line or granule. -/
def CopyEnd.low : CopyEnd → Nat
  | .glob va => va.toNat % 64
  | .buf a => a % 64

/-- Where an end lies (R384): at a storage address, here or at a peer; it waits for a tier move; or it aborts with a reason. -/
inductive Spot where
  | at_ (addr : Nat) (peer : Option Nat) (leaves : List (Nat × Option DWord))
  | wait
  | abort (reason : Nat)
  deriving DecidableEq, Repr

/-- An end translated (R384); `peer` says what the first byte of its range was. -/
def State.spot (s : State) (c : CopyCmd) (k : Kind) (peer : Bool) (e : CopyEnd) : Spot × State :=
  match e with
  | .buf a => (.at_ a none [], s)
  | .glob va =>
    if !canonical va then (.abort 2, s)
    else
      let r := s.translate c.core c.own c.gslot c.ring k false va
      match r.1 with
      | .wait => (.wait, r.2)
      | .fault f => (.abort (if f.code = 10 then 2 else 1), r.2)
      | .ok x => if x.io || x.peer.isSome != peer then (.abort 7, r.2) else (.at_ x.addr x.peer x.leaves, r.2)

/-- Bytes of an operation's range. -/
def CopyKind.total : CopyKind → Nat
  | .rows rb rn _ _ => rb * rn
  | .fill n _ _ => n
  | .gather _ _ n => n
  | .append _ _ n => n
  | .cast _ n _ _ => n

/-- The chunk at a position of a range whose rows are `rb` bytes long (R85, R394): offsets of source and destination, and
length; it ends with its destination line and its row. -/
def chunkAt (rb : Nat) (ss ds : Int) (dst : CopyEnd) (pos : Nat) : Int × Int × Nat :=
  let r : Int := (pos / rb : Nat)
  let o := pos % rb
  let d := r * ds + o
  (r * ss + o, d, min (64 - (dst.plus d).low) (rb - o))

/-! Overlap -/

/-- The storage pieces of a range, cut where pages end (R393); a page that does not translate has none. None while one of its
pages is under a tier move. -/
def State.segs (s : State) (c : CopyCmd) (k : Kind) (e : CopyEnd) (n : Nat) : (fuel : Nat) → Option (List (Nat × Nat))
  | 0 => some []
  | f + 1 =>
    let m := match e with | .glob va => min n (65536 - va.toNat % 65536) | .buf _ => n
    let rest := if m < n then State.segs s c k (e.plus m) (n - m) f else some []
    match (s.spot c k false e).1 with
    | .at_ a _ _ => rest.map fun l => (a, m) :: l
    | .wait => none
    | .abort _ => rest

/-- The storage pieces of some rows. -/
def State.rowSegs (s : State) (c : CopyCmd) (k : Kind) (e : CopyEnd) (st : Int) (rb : Nat) : (rn : Nat) → Option (List (Nat × Nat))
  | 0 => some []
  | r + 1 =>
    match State.rowSegs s c k e st rb r, s.segs c k (e.plus (st * (r : Int))) rb (rb / 65536 + 2) with
    | some l, some m => some (m ++ l)
    | _, _ => none

/-- Whether two lists of pieces share a byte. -/
def meetAny (l m : List (Nat × Nat)) : Bool := l.any fun x => m.any fun y => decide (x.1 < y.1 + y.2) && decide (y.1 < x.1 + x.2)

/-- Whether rows of source and destination share a byte (R393, R394); none while one of their pages is under a tier move. -/
def State.overlaps (s : State) (c : CopyCmd) : Option Bool :=
  match c.kind with
  | .rows rb rn ss ds =>
    if c.dstPeer || c.srcPeer then some false
    else
      match s.rowSegs c .load c.src ss rb rn, s.rowSegs c .store c.dst ds rb rn with
      | some a, some b => some (meetAny a b)
      | _, _ => none
  | _ => some false

/-! Joining -/

/-- What a joiner and its multicast must share (R405): the first byte's storage address, the length, and the kind of
buffer; none for other copies. -/
def State.joinKey (s : State) (c : CopyCmd) : Option (Nat × Nat × Bool) :=
  let shape := match c.kind, c.dst with
    | .rows n _ _ ds, .buf a =>
      if ds ≠ 0 then none else if a < wbBase then some (n, false) else if a < abBase then some (n, true) else none
    | .cast _ n wb _, _ => some (n, wb)
    | _, _ => none
  match shape, c.src, c.srcPeer with
  | some (n, wb), .glob va, false =>
    match (s.spot c .load false (.glob va)).1 with
    | .at_ a _ _ => some (a, n, wb)
    | _ => none
  | _, _, _ => none

/-- The first line that an operation by source lines has not requested (R405). -/
def CopyOp.nextLine (o : CopyOp) : Nat := if o.pos = 0 then 0 else (o.cmd.src.low + o.pos + 63) / 64

/-- The cores that a multicast's replies go to from a line on (R402, R405). -/
def State.castCores (s : State) (o : CopyOp) (line : Nat) : List Nat :=
  ((o.targets.map fun t => t.core) ++
    (s.copy.ops.filter fun p => !p.ended && (match p.join with | some (m, j) => m == o.id && decide (j ≤ line) | none => false)).map
      fun p => p.cmd.core).dedup

/-- The multicast that a copy joins, with the first joined line (R405). DESIGN CHOICE: of several it is the one that was passed
first (log 117). -/
def State.joinOf (s : State) (c : CopyCmd) : Option (Nat × Nat) :=
  match s.joinKey c with
  | none => none
  | some key =>
    (s.copy.ops.find? fun o =>
      !o.ended && o.started && o.cmd.own == c.own && decide (o.pos < o.cmd.kind.total) &&
      (match o.cmd.kind with | .cast _ _ _ _ => true | _ => false) &&
      decide (o.nextLine ≤ 64) && !(s.castCores o (2 ^ 32)).contains c.core &&
      s.joinKey o.cmd == some key).map fun o => (o.id, o.nextLine)

/-! Records, passing and retiring -/

/-- A record of a copy (R371, R373, R409): an abort's goes to the issuing partition's queue, any other to that of the identifier.
DESIGN CHOICE: a poisoned source's record names structure 1 (log 122). -/
def State.copyRecord (s : State) (o : CopyOp) (kind addr : Nat) : State :=
  s.report (.S (if kind = 9 then o.cmd.own else o.cmd.key))
    ⟨kind, s.cidOf o.cmd.key, o.cmd.core, if kind = 3 then 1 else 0, addr, s.handleOf o.cohort o.gang⟩

/-- A command becomes an operation of its core's engine (R386); one of no bytes retires at once (R382). -/
def State.passCopy (s : State) (id co g : Nat) (c : CopyCmd) : State :=
  let zero := c.kind.total == 0
  let op : CopyOp :=
    { id := id, place := s.nextId, cohort := co, gang := g, cmd := c, pos := 0, flights := [], whole := false, started := false
      pool := none, phase := .entry, looked := false, blk := 0, old := none, fresh := false, lead := 0, upto := 0, targets := []
      join := none, stash := [], recv := [], ended := zero }
  let s := { s with nextId := s.nextId + 1, copy := { s.copy with ops := s.copy.ops ++ [op] } }
  if zero then s.retireCopies co g else s.due [.copyChunkIssue c.core]

end Sys2Proof.Machine
end

