-- ==== Sys2Proof/Machine/QueueCore.lean ====
section
/-!
DEFINITION. Queues at their home slices: enqueue, dequeue, release, re-queue and refill (R461 to R466), and push operations
as they pass to their engine and retire (R137, R480).
-/
namespace Sys2Proof.Machine

/-! One queue -/

/-- Ring capacity, record size and coach-house capacity (R456). -/
def QDesc.cap (d : QDesc) : Nat := 2 ^ d.lring
def QDesc.size (d : QDesc) : Nat := 2 ^ d.lsize
def QDesc.coach (d : QDesc) : Nat := 32 * d.ccap

/-- Free ring slots, and the backlog (R461). -/
def Queue.free (q : Queue) : Nat := q.desc.cap - q.ring.length - q.flight.length - q.transit
def Queue.backlog (q : Queue) : Nat := q.ring.length + q.coach.length

/-- Records that the queue could still accept (R521). -/
def Queue.room (q : Queue) : Nat := q.free + (q.desc.coach - q.coach.length)

/-- Whether some records can be enqueued one after another (R462): the ring is filled only while the coach house is empty. -/
def Queue.fits (q : Queue) (n : Nat) : Bool :=
  decide (n ≤ if q.coach = [] then q.free + q.desc.coach else q.desc.coach - q.coach.length)

/-- A summary's L, saturated (R467). -/
def satLen (n : Nat) : Nat := min n 0xFFFFFFFF

/-- A newly bound queue (R486). -/
def Queue.fresh (key : QKey) (d : QDesc) (home : Nat) : Queue :=
  { key := key, desc := d, home := home, ring := [], coach := [], transit := 0, flight := [], line := [], asks := []
    pops := [], drop := 0, next := 0 }

/-- Queued records taken, oldest first, and now in flight (R464). -/
def Queue.take (q : Queue) (n : Nat) (who : Nat → Holder) : List Record × Queue :=
  let got := q.ring.take n
  (got, { q with ring := q.ring.drop n, flight := q.flight ++ got.zipIdx.map fun p => ⟨p.1, who p.2⟩ })

/-- Records in flight placed in front of all queued ones (R465). -/
def Queue.requeue (q : Queue) (p : Held → Bool) : Queue :=
  { q with ring := (q.flight.filter p).map (fun h => h.r) ++ q.ring, flight := q.flight.filter fun h => !p h }

/-- The oldest queued record has waited for a timer (R467). DESIGN CHOICE: it is the one that stands first, also where records that
were re-queued stand before ones enqueued earlier (R465, log 129). -/
def Queue.aged (q : Queue) (cycle timer : Nat) : Bool :=
  timer != 0 && match (q.ring ++ q.coach).head? with | some r => decide (r.cycle + timer ≤ cycle) | none => false

/-! Queues of the package -/

def State.queue? (s : State) (k : QKey) : Option Queue := s.stage.queues.find? fun q => q.key == k

def State.modQueue (s : State) (k : QKey) (f : Queue → Queue) : State :=
  { s with stage := { s.stage with queues := s.stage.queues.map fun q => if q.key = k then f q else q } }

def State.graph? (s : State) (part slot : Nat) : Option Graph := s.stage.graphs.find? fun g => g.part == part && g.slot == slot

def State.modGraph (s : State) (part slot : Nat) (f : Graph → Graph) : State :=
  { s with stage := { s.stage with graphs := s.stage.graphs.map fun g => if g.part = part ∧ g.slot = slot then f g else g } }

/-- What follows from a record's arrival (R463, R482). -/
def State.stirRing (s : State) (k : QKey) : State :=
  match s.queue? k with
  | none => s
  | some q =>
    let s := if 32 ≤ q.free ∧ q.coach ≠ [] ∧ q.transit = 0 then s.due [.refillStart k] else s
    if q.pops ≠ [] ∧ q.ring ≠ [] then s.due [.qpopWaitServe k] else s

/-- What follows from a freed slot (R462, R463, R482, R524). -/
def State.stirQueue (s : State) (k : QKey) : State :=
  let s := s.stirRing k
  if ((s.queue? k).any fun q => q.line != []) || s.fabric.mirrors.any fun m => m.key == k && m.held != [] then
    s.due [.enqueueRoomResume k]
  else s

/-- The coach-house slot that a queue assigns after `i` others (R456, R462). -/
def Queue.coachSlot (q : Queue) (i : Nat) : Nat := q.desc.cbase + (q.next + i) % q.desc.coach * q.desc.size

/-- Whether the write of one of the next `n` records of a queue must wait, since its coach-house slot lies on a page under a
tier move: a record counts only once it has been written (R88, R91; log 67). -/
def State.coachWaits (s : State) (k : QKey) (n : Nat) : Bool :=
  (s.queue? k).any fun q => (List.range (min (n - if q.coach = [] then q.free else 0) (q.desc.coach - q.coach.length))).any fun i =>
    s.engReach k.part .store (q.coachSlot i) == .wait

/-- A record enqueued (R462, R466): into the ring, or into the coach house, whose slots are in local HBM, at physical
addresses of the partition's own space (R456, R458, R570); none where both are full, or where its slot's page is under a tier
move. A poisoned record poisons what it is written to (R514, log 73). DESIGN CHOICE: a store into a mapped coach house, after which the
queue's contents are unspecified, leaves them as they are (R458, log 127). -/
def State.enqueueAs (s : State) (k : QKey) (bs : List Byte) (bad : Bool) : Option State :=
  match s.queue? k with
  | none => none
  | some q =>
    let r : Record := ⟨bs, s.cycle, bad⟩
    if q.coach ≠ [] ∨ q.free = 0 then
      if q.coach.length < q.desc.coach && !s.coachWaits k 1 then
        let s := s.engPut k.part k.part (q.coachSlot 0) bs (some Sides.untyped) bad true
        some ((s.modQueue k fun q => { q with coach := q.coach ++ [r], next := q.next + 1 }).stirRing k)
      else none
    else some ((s.modQueue k fun q => { q with ring := q.ring ++ [r] }).stirRing k)

/-- Whether a record of the host waits in a queue's line, so that the host's later requests wait too (R462, R591). -/
def State.recordWaits (s : State) : Bool := s.stage.queues.any fun q => q.line.any fun l => match l with | .host _ => true | .push _ => false

/-- The host's requests that wait are made again, in their order, before any later one (R76, R591); while one of its records
waits, none is. -/
def State.wakeHost (s : State) : State :=
  if s.recordWaits then s else { s with hostWaits := [], agenda := s.hostWaits ++ s.agenda }

/-- A sound record enqueued. -/
def State.enqueue (s : State) (k : QKey) (bs : List Byte) : Option State := s.enqueueAs k bs false

/-- Records in flight released (R465). -/
def State.releaseHeld (s : State) (p : Held → Bool) : State :=
  let ks := (s.stage.queues.filter fun q => q.flight.any p).map fun q => q.key
  let s := { s with stage := { s.stage with queues := s.stage.queues.map fun q =>
    { q with flight := q.flight.filter fun h => !p h } } }
  ks.foldl State.stirQueue s

/-- Records in flight re-queued (R465). -/
def State.requeueHeld (s : State) (p : Held → Bool) : State :=
  let ks := (s.stage.queues.filter fun q => q.flight.any p).map fun q => q.key
  let s := { s with stage := { s.stage with queues := s.stage.queues.map fun q => q.requeue p } }
  ks.foldl State.stirQueue s

/-- The delivered records of a gang released as QDONE would (R143, R465, R483). -/
def State.releaseRecords (s : State) (co g : Nat) : State := s.releaseHeld fun h => h.who == .gang co g

/-- The QPOPs of a part no longer wait (R482); one that has been served keeps its records, in flight, until they can be
delivered (R496, log 75). -/
def Queue.cancelPops (pid : Nat) (q : Queue) : Queue := { q with pops := q.pops.filter fun w => w.part != pid || w.got.isSome }

def State.cancelPops (s : State) (pid : Nat) : State :=
  let ks := (s.stage.queues.filter fun q => q.pops.any fun w => w.part == pid).map fun q => q.key
  let s := { s with stage := { s.stage with queues := s.stage.queues.map (Queue.cancelPops pid) } }
  ks.foldl State.stirRing s

/-! Push operations -/

/-- Records of a push (R479, R485). -/
def PushSrc.count : PushSrc → Nat
  | .places l => l.length
  | .seed _ k _ => k
  | .read l => l.length
  | .form _ _ k _ => k

/-- A push command passes to its engine (R480); one of no records retires at once (R479). -/
def State.passPush (s : State) (id co g : Nat) (c : PushCmd) : State :=
  let zero := c.src.count == 0
  let s := { s with stage := { s.stage with pushes := s.stage.pushes ++ [(⟨id, co, g, c, 0, zero⟩ : PushOp)] } }
  if zero then s.retirePush co g
  else (s.modQueue c.key fun (q : Queue) => { q with line := q.line ++ [.push id] }).due [.queueEnqueue id]

end Sys2Proof.Machine
end

