-- ==== Sys2Proof/Machine/FabCore.lean ====
section
/-!
DEFINITION. Ports, routes, token queues and messages of the fabric (R497 to R503, R506 to R508, R510, R514 to R516, R550).
-/
namespace Sys2Proof.Machine

/-- Fabric time in nanoseconds (R510): the package's own count, and what link training has added to it. -/
def State.fabricTime (s : State) : Nat := ((s.cycle * 5 / 12 : Nat) + s.fabric.offset).toNat

/-- The remote timeout of a partition in microseconds (R511, R532). -/
def State.rto (s : State) (part : Nat) : Nat := (assocGet s.fabric.rtos part).getD 200

/-! Ports and routes -/

def State.port? (s : State) (n : Nat) : Option Port := s.fabric.ports.find? fun p => p.num == n

def State.modPort (s : State) (n : Nat) (f : Port → Port) : State :=
  { s with fabric := { s.fabric with ports := s.fabric.ports.map fun p => if p.num = n then f p else p } }

/-- State codes (R499). -/
def PortState.code : PortState → Nat
  | .disabled => 0 | .training => 1 | .up => 2 | .standby => 3 | .failed => 4

/-- A port that carries flits. -/
def Port.live (p : Port) : Bool := p.state == .up || p.state == .standby

/-- A usable port (R506). -/
def State.usable (s : State) (p : Port) : Bool :=
  p.state == .up || (p.state == .standby && !(s.fabric.ports.any fun q => q.peer == p.peer && q.state == .up))

/-- The usable direct ports to a package, in ascending order (R507). -/
def State.directPorts (s : State) (pkg : Nat) : List Nat :=
  (List.range 16).filter fun n => s.fabric.ports.any fun p => p.num == n && p.peer == pkg && s.usable p

def State.routeOf (s : State) (pkg : Nat) : Route := (assocGet s.fabric.routes pkg).getD ⟨false, false, 0⟩

/-- Whether the route to a package is direct (R506). -/
def State.isDirect (s : State) (pkg : Nat) : Bool :=
  pkg != s.pkg.number && !(s.routeOf pkg).force && !(s.directPorts pkg).isEmpty

/-- MODE (R506). -/
def State.mode (s : State) (pkg : Nat) : Nat :=
  if pkg = s.pkg.number then 3
  else if s.isDirect pkg then 1
  else
    let r := s.routeOf pkg
    if (r.fb || r.force) && s.isDirect r.relay then 2 else 0

/-- The usable ports of a route (R507). -/
def State.routePorts (s : State) (pkg : Nat) : List Nat :=
  match s.mode pkg with
  | 1 => s.directPorts pkg
  | 2 => s.directPorts (s.routeOf pkg).relay
  | _ => []

/-- Port number n mod k of a route (R507). -/
def State.pick (s : State) (pkg n : Nat) : Option Nat :=
  let l := s.routePorts pkg
  l[n % l.length]?

/-! Buckets -/

/-- A bucket as it was last written (R515). -/
def State.ownBucket (s : State) (port part : Nat) : Bucket :=
  (s.fabric.buckets.find? fun b => b.port == port && b.part == part).getD ⟨port, part, 0, 64, 1, 0⟩

/-- A partition's bucket on a port (R515); at level 2 all but its balance follows from its parent's (R550). -/
def State.bucket (s : State) (port part : Nat) : Bucket :=
  let b := s.ownBucket port part
  match s.partition? part with
  | some p =>
    if p.level = 2 then
      let a := s.ownBucket port p.parent
      { b with rate := a.rate * p.tshare / 256, depth := a.depth, weight := a.weight, balance := min b.balance a.depth }
    else b
  | none => b

def State.setBucket (s : State) (b : Bucket) : State :=
  { s with fabric := { s.fabric with
    buckets := b :: s.fabric.buckets.filter fun c => !(c.port == b.port && c.part == b.part) } }

/-- The partitions whose buckets a partition's requests draw on (R516, R550): its own and, at level 2, its parent's;
package-level traffic has none (log 32). -/
def State.payers (s : State) (part : Nat) : List Nat :=
  if 48 ≤ part then [] else
  match s.partition? part with
  | some p => if p.level = 2 then [part, p.parent] else [part]
  | none => [part]

/-! Messages -/

/-- KIND and class (R500, R501). -/
def FMsg.kind : FMsg → Nat
  | .request _ => 2
  | .reply _ _ => 3 | .batchAck _ _ => 3 | .batchRefusal _ _ => 3
  | .batch _ _ _ _ _ => 4
  | .report _ _ _ _ => 1 | .replay _ => 1
  | .idle => 0

def FMsg.cls (m : FMsg) : Nat :=
  match m.kind with
  | 0 => 0 | 1 => 0 | 3 => 1 | _ => 3

/-- Bytes cut into segments of up to 64. -/
def segments (bs : List Byte) : List (List Byte) :=
  (List.range (max 1 ((bs.length + 63) / 64))).map fun k => (bs.drop (64 * k)).take 64

/-- A flit's data, its sideband, and whether the data is poisoned (R500, R514). -/
structure Seg where
  bs : List Byte
  side : Side
  bad : Bool
  deriving DecidableEq, Repr

/-- What a message's flits hold as data (R500, R514): one flit for each segment; link control fills its flit with content of
its own. -/
def FMsg.segs (m : FMsg) : List Seg :=
  match m with
  | .request q => match q.kind with
    | .store bs x b => (segments bs).map fun c => ⟨c, x.getD Sides.untyped, b⟩
    | _ => [⟨[], 0, false⟩]
  | .reply _ (.data bs sides) => (segments bs).zipIdx.map fun p => ⟨p.1, sides.getD p.2 Sides.untyped, false⟩
  | .reply _ .poison => [⟨[], 0, true⟩]
  | .batch _ _ _ recs _ => recs.flatMap fun r => (segments r.1).map fun c => ⟨c, 0, r.2⟩
  | .report _ _ _ _ => [⟨(List.range 64).map (Config.linkContent m), 0, false⟩]
  | .replay _ => [⟨(List.range 64).map (Config.linkContent m), 0, false⟩]
  | _ => [⟨[], 0, false⟩]

/-- Some bytes with zeros behind them. -/
def padTo (n : Nat) (bs : List Byte) : List Byte := (bs ++ List.replicate n 0).take n

/-- The flits of a message before they are sealed (R500). -/
def FMsg.flits (m : FMsg) (src dst cid : Nat) : List Flit :=
  m.segs.zipIdx.map fun p =>
    { lseq := 0, lack := 0, kind := m.kind, kslot := false, relayed := false, poison := p.1.bad
      cid := BitVec.ofNat 13 cid, src := Fin.ofNat 16 src, dst := Fin.ofNat 16 dst, cls := m.cls
      header := (List.range 16).map (Config.txHeader m p.2), data := padTo 64 p.1.bs, side := p.1.side, pad := List.replicate 14 0, tag := [] }

/-- Flits put into a port's egress (R501). -/
def State.toEgress (s : State) (port : Nat) (fs : List Flit) : State :=
  (s.modPort port fun p => { p with egress := p.egress ++ fs }).due (fs.map fun _ => Instr.flitTransmit port)

/-- A message sent through a port to a package. -/
def State.emit (s : State) (port : Nat) (m : FMsg) (dst cid : Nat) : State := s.toEgress port (m.flits s.pkg.number dst cid)

/-! Requests -/

/-- The flits of a metered message (R516, R523). -/
def State.meter (s : State) (port part flits : Nat) (w : Metered) : State :=
  (s.modPort port fun p => { p with waiting := p.waiting ++ [⟨part, flits, w⟩] }).due [.tokenGrant port part]

/-- A remote request handed to its port, or held back while its peer is unreachable (R506, R507). -/
def State.sendRemote (s : State) (q : Request) : State :=
  match q.peer with
  | none => s
  | some pkg =>
    match s.pick pkg ((s.cohort? q.cohort).elim 0 (·.core) + q.pos) with
    | none => s
    | some n =>
      let s := { s with reqs := s.reqs.map fun (x : Request) => if x.id = q.id then { x with port := some n } else x }
      s.meter n q.own 1 (.req q.id)

/-- The other requests that are performed as one with a request (R316). -/
def State.fellows (s : State) (q : Request) : List Request := s.reqs.filter fun x => x.group == q.group && x.id != q.id

/-- A request as its peer gets it, with what other lanes ask of its word (R316, R511). -/
def State.toPeer (s : State) (q : Request) (pkg : Nat) : PeerReq :=
  ⟨q.id, Fin.ofNat 16 pkg, q.own, (q.copyOp.getD q.part), q.addr, q.kind, (s.fellows q).map fun x => x.kind, q.deadline⟩

def State.mirror? (s : State) (i : Nat) : Option Mirror := s.fabric.mirrors.find? fun m => m.idx == i

def State.modMirror (s : State) (i : Nat) (f : Mirror → Mirror) : State :=
  { s with fabric := { s.fabric with mirrors := s.fabric.mirrors.map fun m => if m.idx = i then f m else m } }

end Sys2Proof.Machine
end

