-- ==== Sys2Proof/Machine/MatCore.lean ====
section
/-!
DEFINITION. Matrix operations as they reach their engine and retire (R137, R428, R430).
-/
namespace Sys2Proof.Machine

/-- The cores whose arrays an operation uses (R428). -/
def MatOp.cores (o : MatOp) : List Nat := if o.cmd.team.isSome then [o.cmd.core, o.cmd.core + 1] else [o.cmd.core]

/-- A command reaches its engine (R430). -/
def State.passMatrix (s : State) (id co g : Nat) (c : MatCmd) : State :=
  ({ s with matrix := { s.matrix with ops := s.matrix.ops ++ [⟨id, co, g, c, false, 0, none, false⟩] } } : State).due
    [.matrixOperationStart c.core]

end Sys2Proof.Machine
end

