-- ==== Sys2Proof/Machine/Pass.lean ====
section
/-!
DEFINITION. Commands pass to their engines (R82, R107), and what the end of a cohort releases (R143).
-/
namespace Sys2Proof.Machine

/-- A command passes to its engine. -/
def State.passCmd (s : State) (c : Cmd) : State :=
  let s := { s with cmds := s.cmds.filter fun x => x.id != c.id }
  match c.body with
  | .copy k => s.passCopy c.id c.cohort c.gang k
  | .matrix k => s.passMatrix c.id c.cohort c.gang k
  | .push k => s.passPush c.id c.cohort c.gang k

end Sys2Proof.Machine
end

