-- ==== Sys2Proof/Machine/Drain.lean ====
section
/-!
DEFINITION. A part's own entries drained, poison of storage and of buffers, and what a push operation reads (R283, R371, R372, R480,
R485).
-/
namespace Sys2Proof.Machine

/-- The entries of a part, oldest first. -/
def State.entriesOf (s : State) (pid : Nat) : List StoreEntry := s.stores.filter fun e => e.part == pid

/-- All entries of a part drain at once, in program order. -/
def State.drainAll (s : State) (pid : Nat) : State := (s.entriesOf pid).foldl State.drainEntry s

/-- A record of a push: its bytes, the poison that its granules carry (R480, R485). -/
def State.pushRecord (s : State) (c : PushCmd) (i : Nat) : List Byte × Option Nat × State :=
  let at_ := fun (a : SAddr) =>
    let r := s.engRead 63 a c.size
    (r.1, (linesOf a c.size).findSome? r.2.badOf, r.2)
  let seeded := fun (base : Word) (bs : List Byte) => natLe 4 (base + BitVec.ofNat 32 i).toNat ++ bs.drop 4
  match c.src with
  | .places l => at_ (l.getD i spBase)
  | .seed a _ base => let r := at_ a; (seeded base r.1, r.2)
  | .read l => let r := l.getD i ([], none); (r.1, r.2, s)
  | .form bs bad _ base => (seeded base bs, bad, s)

/-- An operation whose cohort ends has read the records that it has yet to enqueue, before the scratchpad goes to another cohort
(R143, R480, R490). -/
def State.readAhead (s : State) (o : PushOp) : State :=
  let put := fun (s : State) (src : PushSrc) =>
    let f := fun (p : PushOp) => if p.id = o.id then { p with cmd := { p.cmd with src := src } } else p
    { s with stage := { s.stage with pushes := s.stage.pushes.map f } }
  match o.cmd.src with
  | .places l =>
    let r := (l.drop o.count).foldl (fun (acc : List (List Byte × Option Nat) × State) a =>
      let e := acc.2.engRead 63 a o.cmd.size
      (acc.1 ++ [(e.1, (linesOf a o.cmd.size).findSome? e.2.badOf)], e.2)) ([], s)
    put r.2 (.read (List.replicate o.count ([], none) ++ r.1))
  | .seed a k base =>
    let e := s.engRead 63 a o.cmd.size
    put e.2 (.form e.1 ((linesOf a o.cmd.size).findSome? e.2.badOf) k base)
  | _ => s

/-- The unfinished pushes of a cohort that ends. -/
def State.readPushes (s : State) (co : Nat) : State :=
  (s.stage.pushes.filter fun o => o.cohort == co && !o.ended).foldl State.readAhead s

end Sys2Proof.Machine
end

