-- ==== Sys2Proof/Machine/Kill.lean ====
section
/-!
DEFINITION. The end of a cohort, and what its kill does to buffers, operations and waits (R140, R143, R336, R412, R429, R438, R439).
-/
namespace Sys2Proof.Machine

/-- A gang that has finished gives its units back once its counters are zero (R140, R143). -/
def Gang.idleDone (g : Gang) : Bool :=
  g.live == 0 && g.counters.copy == 0 && g.counters.matrix == 0 && g.counters.push == 0

/-- A gang of which a copy or a matrix operation is outstanding. -/
def Gang.working (g : Gang) : Bool := g.counters.copy != 0 || g.counters.matrix != 0

/-- Monitor entries of a cohort freed (R328, R336). -/
def State.freeMonitors (s : State) (co : Nat) : State :=
  { s with monitors := s.monitors.filter fun m => m.cohort != co }

/-- The units of finished gangs return to the pool once their counters are zero (R143); claims and launches look again. -/
def State.returnUnits (s : State) (co : Nat) : State :=
  match s.cohort? co with
  | none => s
  | some c =>
    let done := c.gangs.filter fun g => g.idleDone && g.pool != []
    let free := fun (g : Gang) => if g.idleDone then { g with pool := [], out := [], parts := [] } else g
    if done = [] then s
    else (s.modCohort co fun c => { c with gangs := c.gangs.map free }).due
      ((done.map fun g => Instr.claimGrant c.core g.sub) ++ [.launchDecision c.core])

/-- A cohort whose gangs have all finished ends (R143): records released, slot and allocations freed; gangs whose
operations are still under way keep their units. DESIGN CHOICE: it is neither killed nor reset, so that a team operation of
which it is the partner goes on where its tile and rows stood (R429, log 120). -/
def State.tryEndCohort (s : State) (co : Nat) : State :=
  let s := s.returnUnits co
  match s.cohort? co with
  | none => s
  | some c =>
    if c.gangs.any fun g => g.live != 0 then s
    else
      let s := if c.ended then s else c.gangs.foldl (fun t g => t.releaseRecords co g.idx) s
      let s := s.freeMonitors co
      let s := s.due [.launchDecision c.core]
      if c.gangs.all Gang.idleDone then { s with cohorts := s.cohorts.filter fun x => x.id != co }
      else (if c.ended then s else s.readPushes co).modCohort co fun c => { c with
        ended := true, slot := none, sp := ⟨0, 0⟩, wb := ⟨0, 0⟩, ab := ⟨0, 0⟩, barriers := [] }

/-- A range of storage made as it stands before anything is written, untyped (R72, R438). -/
def State.clearRange (s : State) (a n : Nat) : State :=
  let inR := fun (b : Nat) => decide (a ≤ b) && decide (b < a + n)
  { s.touchTiles a n with
    mem := s.mem.filter fun (c : Host.Cell) => !inR c.1
    sides := s.sides.filter fun (c : Nat × Side) => !inR (64 * c.1)
    bufPoison := s.bufPoison.filter fun (c : Nat × Nat) => !inR (64 * c.1) }

/-- WB and AB written to zero before they are freed (R438). -/
def State.scrub (s : State) (c : Cohort) : State :=
  (s.clearRange (wbAt c.core c.wb.base) c.wb.size).clearRange (abAt c.core c.ab.base) c.ab.size

/-- The team operations of other cohorts whose partner a cohort is stop between rows and retire (R429). DESIGN CHOICE: one whose
command has not passed to the engine yet does not run, and is left to start later (log 124). -/
def State.stopTeams (s : State) (co : Nat) : State :=
  (s.matrix.ops.filter fun o => !o.ended && o.cohort != co && o.cmd.team == some co).foldl
    (fun t o =>
      let end_ := fun (p : MatOp) => if p.id = o.id then { p with ended := true, entered := none } else p
      let t := { t with matrix := { t.matrix with ops := t.matrix.ops.map end_ } }
      let t := t.report (.S o.cmd.own) ⟨0x0A, t.cidOf o.cmd.own, o.cmd.core, 7, 0, t.handleOf o.cohort o.gang⟩
      ((t.retireMatrix o.cohort o.gang).tryEndCohort o.cohort).due [.matrixOperationStart o.cmd.core]) s

/-- Copy operations of a cohort stop between chunks and are forgotten; each that had joined another cohort's multicast is
dropped from it with a record, and what had joined one of its own goes on alone (R402, R405, R412). -/
def State.stopCopies (s : State) (co : Nat) : State :=
  let mine := (s.copy.ops.filter fun o => o.cohort == co).map fun o => o.id
  let left := (s.copy.ops.filter fun o => o.cohort == co && !o.ended).filterMap fun o => o.join.map fun j => j.1
  let s := ((left.filter fun m => !mine.contains m).filterMap s.copyOp?).foldl (fun (t : State) o => if o.ended then t else t.copyRecord o 9 0) s
  let keep := s.copy.ops.filter fun o => o.cohort != co
  let fix := fun (o : CopyOp) =>
    { o with join := match o.join with | some (m, j) => if mine.contains m then none else some (m, j) | none => none }
  { s with
    copy := { s.copy with ops := keep.map fix }
    reqs := s.reqs.filter fun (q : Request) => q.cohort != co }

/-- QPOPs of parts no longer wait (R482). -/
def State.dropPops (s : State) (p : Nat → Bool) : State :=
  { s with stage := { s.stage with queues := s.stage.queues.map fun (q : Queue) =>
    { q with pops := q.pops.filter fun w => !p w.part } } }

end Sys2Proof.Machine
end

