-- ==== Sys2Proof/Machine/Ops.lean ====
section
/-!
DEFINITION. The named operations that instructions and engine steps share: drains and commit (R101, R102, R109, R110,
R282, R283, R318), quads, gangs and cohorts that end (R127, R138, R143), branch targets (R34, R40, R349), and taking a
trap, which is one operation (R111, R112, R339, R340, R354, R355), parking (R359) and the kill of a cohort (R113, R360).
-/
namespace Sys2Proof.Machine

/-! Commit and drain -/

/-- The commands of a run pass to their engines in program order (R102, R107). -/
def State.passCmds (s : State) (co g : Nat) (ids : List Nat) : State :=
  let cs := ids.filterMap fun i => s.cmds.find? fun c => c.id == i
  let s := cs.foldl State.passCmd s
  s.modGang co g fun g => { g with cmdbuf := g.cmdbuf.filter fun i => !ids.contains i }

/-! The end of quads, gangs and cohorts -/

/-- A barrier unit that nobody has arrived at (R138). -/
def barrierIdle : Barrier := ⟨0, 0, []⟩

/-- Unfinished gangs of a cohort. -/
def Cohort.liveGangs (c : Cohort) : Nat := (c.gangs.filter fun g => g.live != 0).length

/-- K of a generation (R138). -/
def Cohort.barK (c : Cohort) (b : Barrier) : Nat :=
  if b.count = 0 ∨ c.liveGangs < b.count then c.liveGangs else b.count

/-- The generations of a cohort that have their K gangs complete (R138). -/
def Cohort.tryBars (c : Cohort) : Cohort :=
  { c with barriers := c.barriers.map fun b =>
      if b.arrived ≠ [] ∧ c.barK b ≤ b.arrived.length then ⟨b.gen + 1, 0, []⟩ else b }

/-- Whether every part of a gang waits at one barrier unit; `gen` is the unit's generation, and a part whose own has
completed no longer waits there (R138, R164). -/
def Gang.atBar (g : Gang) (u gen : Nat) : Bool :=
  g.parts.all fun p => match p.wait with | .bar v _ k => v == u && k.all (· == gen) | _ => false

/-- The count that a gang's arrival carries: that of the part with its lowest unfinished quad (R138). -/
def Gang.barCount (g : Gang) : Nat :=
  match g.partOf? (lowQuad g.live) with
  | some p => match p.wait with | .bar _ k _ => k | _ => 0
  | none => 0

/-- A gang arrives at a unit, and the generation completes when K gangs have (R138). -/
def State.arrive (s : State) (co g u : Nat) : State :=
  s.modCohort co fun c =>
    match c.gang? g with
    | none => c
    | some x =>
      let b := c.barriers.getD u barrierIdle
      if x.atBar u b.gen && !b.arrived.contains g then
        let b' : Barrier := ⟨b.gen, if b.arrived = [] then x.barCount else b.count, b.arrived ++ [g]⟩
        let c := c.modGang g fun y => { y with parts := y.parts.map fun p =>
          match p.wait with
          | .bar v k _ => { p with wait := .bar v k (some b.gen) }
          | _ => p }
        Cohort.tryBars { c with barriers := c.barriers.set u b' }
      else c

/-- A gang of which some quads have finished arrives where all its other parts wait (R138, R147). -/
def State.arriveRest (s : State) (co g : Nat) : State :=
  match (s.gang? co g).bind fun x => x.parts.findSome? fun p => match p.wait with | .bar u _ _ => some u | _ => none with
  | some u => s.arrive co g u
  | none => s

/-- Quads of a gang finish (R127, R138, R147). -/
def State.finishQuads (s : State) (co g : Nat) (q : QMask) : State :=
  if q = 0 then s else
  let s := s.modGang co g fun g =>
    { g with
      latch := if g.live &&& ~~~q = 0 then none else g.latch
      live := g.live &&& ~~~q
      parts := (g.parts.map fun p => { p with quads := p.quads &&& ~~~q }).filter fun p => p.quads != 0 }
  let s := (s.arriveRest co g).modCohort co Cohort.tryBars
  (s.tryEndCohort co).due [.regangMerge co g]

/-- Whether a run may commit (R101). -/
def State.canCommit (s : State) (p : Part) (r : Run) : Bool :=
  r.closed && (s.stores.all fun e => e.run != r.id || e.owned)

/-- What a commit does to its part: the run leaves, counts start again, drag mode ends after 16 (R114). -/
def Part.committed (p : Part) : Part :=
  let n := if p.drag then p.dragCommits + 1 else 0
  { p with runs := p.runs.tail, rbCount := 0, drag := p.drag && n < 16, dragCommits := if n < 16 then n else 0 }

/-- The oldest run of a part commits (R101, R102): its entries are committed and drain in order, its commands pass, its
finishing quads finish. -/
def State.commitRun (s : State) (r : PartRef) : State :=
  match s.part? r with
  | none => s
  | some p =>
    match p.runs with
    | [] => s
    | run :: _ =>
      let mine := s.stores.filter fun e => e.run == run.id
      let s := { s with stores := s.stores.map fun (e : StoreEntry) => if e.run = run.id then { e with committed := true } else e }
      let s := s.due (mine.map fun (e : StoreEntry) => Instr.storeBufferDrain e.id)
      let s := s.passCmds r.cohort r.gang run.cmds
      let s := s.modPart r Part.committed
      let s := s.modCohort r.cohort fun c => { c with progress := true }
      s.finishQuads r.cohort r.gang run.finishing

/-- Everything that a part's only run has done is performed, and its commands pass, so that the instruction at its
counter becomes the start of a run (R109, R110, R354). None while an older run or an ownership is outstanding. -/
def State.settle (s : State) (r : PartRef) : Option State :=
  match s.part? r with
  | none => none
  | some p =>
    match p.runs with
    | [] => some (s.drainAll p.id)
    | [run] =>
      if s.stores.all fun e => e.run != run.id || e.owned then
        let s := (s.made [run.id]).drainAll p.id
        let s := s.passCmds r.cohort r.gang run.cmds
        let s := if run.count = 0 then s else s.modCohort r.cohort fun c => { c with progress := true }
        match s.part? r, s.gang? r.cohort r.gang with
        | some p, some g =>
          if p.runs.isEmpty then none
          else
            let k := (View.mk g p 0 0).ckpt
            some (s.modPart r fun p =>
              { p with runs := [{ run with
                  start := p.pc, count := 0, ckpt := k, undo := [], reads := [], spill := [], cmds := [] }] })
        | _, _ => none
      else none
    | _ => none

/-! Branch targets -/

/-- A program counter names a parcel (R34). -/
def pcOk (pc : DWord) : Bool := 8 ≤ pc.toNat % 128 && pc.toNat % 4 == 0

/-- Parcel of a program counter in its line (R34). -/
def parcelOf (pc : DWord) : Nat := (pc.toNat % 128 - 8) / 4

/-- The line of a program counter (R34). -/
def lineOf (pc : DWord) : DWord := BitVec.ofNat 64 (pc.toNat / 128 * 128)

/-- Bits of a line header (R33). -/
def hdrStart (h : DWord) (k : Nat) : Bool := h.getLsbD k
def hdrTgt (h : DWord) (k : Nat) : Bool := h.getLsbD (30 + k)
def hdrKind (h : DWord) : Nat := h.toNat / 2 ^ 60

/-- Where sequential flow goes after an instruction of `n` parcels (R37). -/
def nextPc (h pc : DWord) (n : Nat) : DWord :=
  let k := parcelOf pc
  if k + n ≤ 29 ∧ hdrStart h (k + n) then pc + BitVec.ofNat 64 (4 * n) else lineOf pc + 136

/-- The target of a direct branch (R39). -/
def directTarget (pc : DWord) (imm : Word) : DWord :=
  lineOf pc + 128 * ((imm.sshiftRight 5).signExtend 64) + BitVec.ofNat 64 (8 + 4 * (imm.toNat % 32))

/-- A line through a fetch translation (R42): physical at rings H and M; code lies in memory that is no peer's and no device's (log
20). A page under a tier move makes the fetch wait (R545). -/
def State.fetchLine (s : State) (core part gslot : Nat) (ring : Ring) (pc : DWord) : XRes Nat × State :=
  let r := s.translate core part gslot ring .fetch false (lineOf pc)
  match r.1 with
  | .fault f => (.fault f, r.2)
  | .wait => (.wait, r.2)
  | .ok x => if x.far then (.fault ⟨10, false⟩, r.2) else (.ok x.addr, r.2)

/-- The checks of a target (R40), in their order: a valid counter, canonical where the target is indirect, its line fetched, its
header; `tgt` asks for the TGT bit. The header comes back with success. DEDUCED: the check is no fetch, so poison of the line
raises nothing before the part fetches there (R371, log 107). -/
def State.checkTarget (s : State) (core part gslot : Nat) (ring : Ring) (t : DWord) (tgt indirect : Bool) : XRes DWord × State :=
  if !pcOk t || (indirect && !canonical t) then (.fault ⟨3, false⟩, s)
  else
    let f := s.fetchLine core part gslot ring t
    match f.1 with
    | .fault e => (.fault e, f.2)
    | .wait => (.wait, f.2)
    | .ok a =>
      let h : DWord := BitVec.ofNat 64 (leNat (s.bytesAs (ownAt ring part) a 8))
      if hdrKind h = 0 && hdrStart h (parcelOf t) && (!tgt || hdrTgt h (parcelOf t)) then (.ok h, f.2)
      else (.fault ⟨3, false⟩, f.2)

/-! Parking -/

/-- A WAITC wait is cancelled: its entries are freed and the part stands at the WAITC (R328). -/
def State.cancelWaitc (s : State) (pid : Nat) : State :=
  { s with
    monitors := s.monitors.filter fun m => m.part != some pid
    waitcs := s.waitcs.filter fun (w : WaitcRec) => w.part != pid }

/-- A part that waits at BAR: everything before it is performed and committed, so that its run holds nothing (R139). -/
def Part.barred (p : Part) : Bool := match p.wait with | .bar _ _ _ => true | _ => false

/-- A part that waits in RCLAIM or RRELEASE: everything before it is performed and committed (R109, R142). -/
def Part.resizes (p : Part) : Bool := match p.wait with | .claim _ => true | .window => true | _ => false

/-- The open run of a part continues without logging and has executed something: it cannot be rolled back, and goes on to its boundary
(R110, R113). -/
def Part.unlogged (p : Part) : Bool := p.curRun?.any fun r => r.noLog && decide (0 < r.count)

/-- Whether a part is at no run boundary to which it could be rolled back: its irrevocable access is under way, or its run cannot be
rolled back (R109, R110, R113). -/
def Part.bound (p : Part) : Bool := p.pend.isSome || p.unlogged

/-- The oldest runs of a part that may commit do (R101): `fuel` bounds how many a part has. -/
def State.commitSome (s : State) (pid : Nat) : (fuel : Nat) → State
  | 0 => s
  | n + 1 =>
    match s.partNo? pid with
    | none => s
    | some (r, p) =>
      match p.runs with
      | [] => s
      | run :: _ => if s.canCommit p run then State.commitSome (s.commitRun r) pid n else s

def State.commitReady (s : State) (pid : Nat) : State := s.commitSome pid 5

/-- The parts of a cohort by number. -/
def State.partsOf (s : State) (co : Nat) : List Nat := (s.cohort? co).elim [] fun c => c.gangs.flatMap fun g => g.parts.map fun p => p.id

/-- A part stopped at its run boundary (R113, R359): what may commit commits, the rest rolls back, not counted; a barrier
arrival stays, as do the waits that follow a committed REGANG or transfer; an irrevocable access under way ends first, and so
does a run that cannot be rolled back. -/
def State.stopPart (s : State) (pid : Nat) : State :=
  let s := (s.cancelWaitc pid).cancelPops pid
  let s := ({ s with claims := s.claims.filter fun c => c.part != pid || c.granted } : State).commitReady pid
  match s.partNo? pid with
  | none => s
  | some (r, p) =>
    if p.bound || p.barred then s
    else
      match p.wait, p.runs with
      | .regang _ _, [] => s
      | .split _ _ _, [] => s
      | _, _ =>
        let s := s.modPart r fun p => { p with runs := if p.runs.any fun x => x.noLog then [] else p.runs }
        (s.rollback r false).modPart r fun p => { p with wait := .none, trap := none }

/-- Every part of a gang stopped. -/
def State.stopGang (s : State) (co g : Nat) : State :=
  match s.gang? co g with
  | none => s
  | some x => x.parts.foldl (fun t p => t.stopPart p.id) s

/-- A gang is parked (R359). -/
def State.park (s : State) (co g : Nat) : State :=
  (s.stopGang co g).modGang co g fun x => { x with parked := true }

/-! The kill of a cohort -/

/-- A cohort is killed (R113, R360): its runs that may commit do, the others vanish, its copy and matrix operations stop
while its pushes go on, its monitor entries and waits are freed, its records are re-queued or released, its WB and AB are
scrubbed after an error (R438), and everything that it held is free. Its committed stores go on draining. -/
def State.finishKill (s : State) (co : Nat) (drop : Bool) : State :=
  let s := (s.partsOf co).foldl State.commitReady s
  match s.cohort? co with
  | none => s
  | some c =>
    let pids := c.gangs.flatMap fun g => g.parts.map fun p => p.id
    let s := (s.unmade (c.gangs.flatMap fun g => g.parts.flatMap Part.runIds)).stopTeams co
    let s := { s with
      monitors := s.monitors.filter fun (m : Monitor) => m.cohort != co
      waitcs := s.waitcs.filter fun (w : WaitcRec) => !pids.contains w.part
      claims := s.claims.filter fun (k : Claim) => k.cohort != co
      stores := s.stores.filter fun (e : StoreEntry) => e.cohort != co || e.committed
      cmds := s.cmds.filter fun (k : Cmd) => k.cohort != co }
    let s := ((s.stopCopies co).readPushes co).dropPops pids.contains
    let cores := (s.matrix.ops.filter fun o => o.cohort == co).flatMap fun o => o.cores
    let s := { s with matrix := { s.matrix with ops := s.matrix.ops.filter fun o => o.cohort != co } }
    let mine := fun (h : Held) => match h.who with | .gang k _ => k == co | .batch _ _ => false
    let s := if drop then s.releaseHeld mine else s.requeueHeld mine
    let s := { s with
      cohorts := s.cohorts.filter fun (x : Cohort) => x.id != co
      stage := { s.stage with launches := s.stage.launches.filter fun (l : Launch) => l.cohort != co }
      cur := match s.cur with | some r => if r.cohort = co then none else some r | none => none }
    let s := if c.tainted then s.scrub c else s
    s.due (cores.map .matrixOperationStart ++ ([0, 1, 2, 3].map fun k => .claimGrant c.core k) ++ [.launchDecision c.core])

/-- Whether a part of a cohort stands where no halt and no kill may take effect (R113). -/
def Cohort.inAccess (c : Cohort) : Bool := c.gangs.any fun g => g.parts.any Part.bound

/-- A kill takes effect at a run boundary of every part (R113), and waits for it. -/
def State.killCohort (s : State) (co : Nat) (drop : Bool) : State :=
  match s.cohort? co with
  | none => s
  | some c => if c.inAccess then s.modCohort co fun c => { c with dying := some drop } else s.finishKill co drop

/-- A kill that waited takes effect once nothing holds it back. -/
def State.settleDying (s : State) (co : Nat) : State :=
  match s.cohort? co with
  | none => s
  | some c => match c.dying with
    | some drop => if c.inAccess then s else s.finishKill co drop
    | none => s

/-! Taking a trap -/

/-- The natural ring of a cause (R353). -/
def naturalRing (code : Nat) (s2 : Bool) : Ring :=
  if s2 then .H else if code = 0x15 then .H else if code = 0x16 then .M else .S

/-- The vector of a ring: the partition's at S, the package's at H and M (R348, R349). -/
def State.tvec (s : State) (part : Nat) : Ring → DWord
  | .U => 0
  | .S => (s.partition? part).elim 0 (·.regs.tvec)
  | .H => s.pkg.setH.tvec
  | .M => s.pkg.setM.tvec

def State.accepts (s : State) (part : Nat) (r : Ring) : Bool := (s.tvec part r).getLsbD 0

/-- The ring at which a trap is taken and whether by escalation (R339); none for a monitor stop (R340). -/
def State.trapTarget (s : State) (part : Nat) (cur : Ring) (nat : Ring) : Option (Ring × Bool) :=
  if cur.num < nat.num ∧ s.accepts part nat then some (nat, false)
  else
    ([Ring.S, .H, .M].find? fun r => decide (cur.num < r.num) && decide (nat.num < r.num) && s.accepts part r).map
      fun r => (r, true)

/-- The open frame that holds a quad (R344). -/
def Bank.openSlot (b : Bank) (q : Nat) : Option Nat :=
  (List.range 8).find? fun i =>
    let f := b.frames.toArray.toList[i]?
    match f with | some f => f.isOpen && f.stat.getLsbD q | none => false

/-- The slot of a part's frame at a ring (R344): of the open frame that holds its lowest quad, else of that quad. -/
def Bank.slotOf (b : Bank) (q : Nat) : Nat := (b.openSlot q).getD q

def frameZero : Frame := ⟨false, 0, 0, 0, 0, 0, 0, 0, 0, vof 8 fun _ => 0, vof 8 fun _ => 0⟩

def Bank.frame (b : Bank) (i : Nat) : Frame := vget b.frames i frameZero
def Bank.setFrame (b : Bank) (i : Nat) (f : Frame) : Bank := { b with frames := vset b.frames i f }

/-- TCAUSE (R350). -/
def causeWord (t : Trap) (pring : Ring) (dbl : Bool) : Word :=
  BitVec.ofNat 32 (t.code + 2 ^ 8 * pring.num + 2 ^ 10 * dbl.toNat + 2 ^ 11 * t.s2.toNat
    + 2 ^ 12 * (if pcOk t.fpc then parcelOf t.fpc else 0) + 2 ^ 17 * t.runpos)

/-- The frame that an entry writes (R348 to R355). -/
def entryFrame (p : Part) (t : Trap) (dbl : Bool) (resume : DWord) : Frame :=
  { isOpen := true
    cause := causeWord t p.ring dbl
    info := t.info
    addr := t.addr
    fpc := t.fpc
    exec := p.exec
    mask := t.lanes
    stat := BitVec.ofNat 32 (p.quads.toNat + 256 * p.drag.toNat)
    afl := p.aflags.setWidth 32
    preds := vof 8 fun i => if i = 0 then 0 else p.preg i
    epc := vof 8 fun q => if p.quads.getLsbD q then resume else 0 }

/-- The entered part (R355). -/
def Part.entered (p : Part) (ring : Ring) (lanes : Word) (pc : DWord) : Part :=
  { p with
    ring := ring, exec := lanes, aflags := 0, drag := false, dragCommits := 0, rbCount := 0
    xw := vof 8 fun _ => 0, runs := [], wait := .none, trap := none, pc := pc }

/-- A monitor stop (R340): the gang parks, a record goes to the M queue, the alarm is raised. The part stands at the start of its
run, or at the instruction whose run was performed before it, and issues from there again (R354, R379, log 13). DESIGN CHOICE: the
record names structure 0 (log 122). -/
def State.monitorStop (s : State) (r : PartRef) (part core : Nat) : State :=
  let s := s.modPart r fun p => { p with runs := [], wait := .none, trap := none }
  let s := s.park r.cohort r.gang
  let s := s.modGang r.cohort r.gang fun g => { g with monStop := true }
  let s := s.report .M ⟨8, s.cidOf part, core, 0, 0, s.handleOf r.cohort r.gang⟩
  { s with out := .alarm :: s.out }

/-- Where a ring's traps enter (R349): parcel 0 of its vector line, or of the next line for a double fault. -/
def State.entryPc (s : State) (part : Nat) (ring : Ring) (dbl : Bool) : DWord :=
  BitVec.ofNat 64 ((s.tvec part ring).toNat / 128 * 128 + (if dbl then 128 else 0) + 8)

/-- The frame of the part's lowest quad written, and the part entered (R355). -/
def State.entered (s : State) (r : PartRef) (p : Part) (t : Trap) (ring : Ring) (dbl : Bool) (resume entry : DWord) : State :=
  s.modGang r.cohort r.gang fun g =>
    let b := g.bank ring
    let g := g.setBank ring (b.setFrame (lowQuad p.quads) (entryFrame p t dbl resume))
    g.modPart r.quad fun p => p.entered ring t.lanes entry

/-- Trap entry (R355), with the check of the entry line and its escalation (R339, R349). Where no ring is left, the gang of
the state `s0` in which the trap was taken stops, so that the fault recurs when it is resumed (R340, R379; log 13). None
while the entry line's page is under a tier move (R545). -/
def State.enterTrap (s0 s : State) (r : PartRef) (t : Trap) (resume : DWord) : (fuel : Nat) → Option State
  | 0 => some (s0.monitorStop r ((s0.cohort? r.cohort).elim 0 (·.part)) ((s0.cohort? r.cohort).elim 0 (·.core)))
  | fuel + 1 =>
    match s.cohort? r.cohort, s.part? r with
    | some c, some p =>
      match s.trapTarget c.part p.ring (naturalRing t.code t.s2) with
      | none => some (s0.monitorStop r c.part c.core)
      | some (ring, dbl) =>
        let entry := s.entryPc c.part ring dbl
        let s := s.entered r p t ring dbl resume entry
        let k := s.checkTarget c.core c.part c.gslot ring entry true true
        match k.1 with
        | .ok h => some (k.2.modPart r fun p => { p with header := h })
        | .wait => none
        | .fault f => State.enterTrap s0 k.2 r ⟨f.code, t.lanes, entry, 0, f.s2, entry, 0, entry, .here⟩ entry fuel
    | _, _ => some s

/-- A trap taken (R355): four rings bound the escalation. -/
def State.takeTrap (s : State) (r : PartRef) (t : Trap) (resume : DWord) : Option State := State.enterTrap s s r t resume 4

/-- A pending trap is taken when its part's older runs have committed and every store has drained (R111, R355): the run
rolls back and the part resumes at its start; or the run before the instruction has been performed and the part resumes
there or behind it. Nothing happens while it has to wait. -/
def State.tryTrap (s : State) (r : PartRef) : State :=
  match s.part? r with
  | none => s
  | some p =>
    match p.trap with
    | none => s
    | some t =>
      if 1 < p.runs.length || (s.entriesOf p.id).any (·.committed) then s
      else
        match t.resume with
        | .runStart =>
          let u := (s.rollback r false).modPart r fun p => { p with trap := none }
          (u.takeTrap r t ((u.part? r).elim 0 (·.pc))).getD s
        | .here => (s.takeTrap r t t.fpc).getD s
        | .next => (s.takeTrap r t t.after).getD s

/-- A part's claim is withdrawn (R141): what was set aside for it is free, so that other claims are looked at and its core decides
on launches again (R472). -/
def State.cancelClaim (s : State) (pid : Nat) : State :=
  let (mine, rest) := s.claims.partition fun c => c.part == pid
  ({ s with claims := rest } : State).due ((mine.filter fun c => c.granted).flatMap fun c => [.claimGrant c.core c.sub, .launchDecision c.core])

/-- A trap is raised, which cancels what its part waits for (R141, R328, R482): taken at once where nothing older is outstanding,
else left for TRAP_ENTRY. -/
def State.raise (s : State) (r : PartRef) (t : Trap) : State :=
  let s := match s.part? r with
    | some p => ((s.cancelWaitc p.id).cancelPops p.id).cancelClaim p.id
    | none => s
  let s := s.modPart r fun p => { p with trap := some t, wait := .none }
  let s' := s.tryTrap r
  if ((s'.part? r).bind (·.trap)).isSome then s'.due [.trapEntry r] else s'

end Sys2Proof.Machine
end

