-- ==== Sys2Proof/Machine/Issue.lean ====
section
/-!
DEFINITION. How one instruction form issues for the part whose turn it is: the checks that depend on the ring, the window
and the run (R51, R52, R54, R56 rows 10 to 12), the run it belongs to (R101, R109, R110, R131, R132), and how it completes,
waits or traps (R37, R57, R111, R354).
-/
namespace Sys2Proof.Machine

/-- How an instruction form bounds its run (R55, R131): not at all; last in its run; irrevocable; a run of its own. -/
inductive IKind where
  | plain | endr | irrevocable | alone
  deriving DecidableEq, Repr

/-- What else of a pattern depends on the ring or the window (R147, R158): EXIT above ring U; a claim past Wmax; a release
of the whole window; a group of A rows that is partly banked (R441). -/
inductive Dyn where
  | none | exit | claim (n : Nat) | release (n : Nat) | rows (first n : Nat)
  deriving DecidableEq, Repr

def Dyn.ok (d : Dyn) (r : Ring) (units : Nat) : Bool :=
  match d with
  | .none => true
  | .exit => r == .U
  | .claim n => 4 * units + 4 * n ≤ (if r = .U then 192 else 176)
  | .release n => 4 * n < 4 * units
  | .rows k n => r == .U || decide (k + n ≤ 176) || decide (176 ≤ k)

/-- What the checks at issue need of an instruction form: its predicate, its length in parcels, its lowest ring (R54),
the registers it names and the sources that may be temporaries with how many registers each spans, its kind, and
what else is checked. -/
structure Form where
  pred : Pred
  len : Nat
  ring : Nat
  uses : List (Opnd × Nat)
  temps : List (Opnd × Nat)
  kind : IKind
  dyn : Dyn
  deriving DecidableEq, Repr

/-- Who issues: the part's name and number, its cohort as the instruction finds it, and what the part sees. -/
structure Ctx where
  r : PartRef
  c : Cohort
  v : View
  deriving DecidableEq, Repr

/-- How an instruction ends: it completes and flow goes on sequentially, its run closed or not; it completes at another
counter; it has itself placed its parts; it waits; it traps, with what the trap holds beside the counter and position, where
its kind says to resume or at a place of its own. -/
inductive Done where
  | fall (s : State) (close : Bool)
  | goto (s : State) (pc hdr : DWord)
  | placed (s : State)
  | stall (s : State) (w : Wait)
  | trap (s : State) (code : Nat) (lanes : Word) (addr : DWord) (info : Word) (s2 : Bool)
  | raise (s : State) (resume : Resume) (code : Nat) (lanes : Word) (addr : DWord) (info : Word) (s2 : Bool)
  | illegal (s : State)
  deriving DecidableEq, Repr

/-- The part whose turn it is, with its cohort and gang. -/
def State.ctx? (s : State) (imm : Word) : Option Ctx :=
  match s.cur with
  | none => none
  | some r =>
    match s.cohort? r.cohort with
    | none => none
    | some c =>
      match c.gang? r.gang with
      | none => none
      | some g =>
        match g.partOf? r.quad with
        | none => none
        | some p => some ⟨r, c, ⟨g, p, c.core, imm⟩⟩

/-- A gang with what an instruction has made of it and of its part. -/
def View.toGang (v : View) : Gang :=
  { v.gang with parts := v.gang.parts.map fun p => if p.id = v.part.id then v.part else p }

/-- The context of the issuing part as the state now has it. -/
def State.fresh (s : State) (x : Ctx) : Ctx := (s.ctx? x.v.imm).getD x

/-- The state with what an instruction has made of its gang. -/
def State.putView (s : State) (r : PartRef) (v : View) : State := s.modGang r.cohort r.gang fun _ => v.toGang

/-- A part that waits (R134). -/
def State.waits (s : State) (r : PartRef) (w : Wait) : State := s.modPart r fun p => { p with wait := w }

/-- The last run of a part counts one more instruction, and closes if asked (R131, R132). -/
def Part.counted (p : Part) (close : Bool) : Part :=
  { p with wait := .none, runs := modLast (fun r => { r with count := r.count + 1, closed := close }) p.runs }

/-- Undo entries, store entries and buffered commands in use (R104, R107, R282). -/
def State.undoUsed (s : State) (core sub : Nat) : Nat :=
  s.cohorts.foldl (fun n c => if c.core = core then
    c.gangs.foldl (fun n g => if g.sub = sub then
      g.parts.foldl (fun n p => p.runs.foldl (fun n r => n + r.undo.length) n) n else n) n else n) 0

def State.storesUsed (s : State) (core sub : Nat) : Nat := (s.stores.filter fun e => e.core == core && e.sub == sub).length

def State.cmdsUsed (s : State) (co g : Nat) : Nat := (s.gang? co g).elim 0 (·.cmdbuf.length)

/-- Whether an instruction has taken more entries than there are (R14, R107, R110). -/
def State.overfull (s : State) (x : Ctx) : Bool :=
  256 < s.undoUsed x.c.core x.v.gang.sub || 32 < s.storesUsed x.c.core x.v.gang.sub || 16 < s.cmdsUsed x.r.cohort x.r.gang

/-- The position of the next instruction in its run (R350). -/
def Part.runpos (p : Part) : Nat := (p.curRun?.map (·.count)).getD 0

/-- A trap of an instruction: where it resumes follows from its kind and its run (R57, R111, R112, R354). -/
def State.trapFrom (s : State) (x : Ctx) (f : Form) (resume : Resume) (pos : Nat) (code : Nat) (lanes : Word)
    (addr : DWord) (info : Word) (s2 : Bool) : State :=
  let p := x.v.part
  let s := if resume = .next then s.modCohort x.r.cohort fun c => { c with progress := true } else s
  s.raise x.r ⟨code, lanes, addr, info, s2, p.pc, if resume = .here then 0 else pos, nextPc p.header p.pc f.len, resume⟩

/-- A fault of an instruction that is not irrevocable: rolled back to the start of its run, or, in a run that continues
without logging, at the instruction itself after its run's earlier effects (R111, R354). -/
def State.faultPlain (s : State) (x : Ctx) (f : Form) (pos : Nat) (code : Nat) (lanes : Word) (addr : DWord) (info : Word)
    (s2 : Bool) : State :=
  if (x.v.part.curRun?.map (·.noLog)).getD false then
    match s.settle x.r with
    | some s => s.trapFrom x f .here pos code lanes addr info s2
    | none => s.waits x.r .commit
  else s.trapFrom x f .runStart pos code lanes addr info s2

/-- A boundary closes the part's last run, and the run may commit (R101, R131). -/
def State.afterClose (s : State) (r : PartRef) (close : Bool) : State := if close then s.due [.runCommit r] else s

/-- How an instruction that has executed leaves its part. `x` is the context it began with, `s0` the state it began in. -/
def State.finish (s0 : State) (x : Ctx) (f : Form) (close : Bool) (pos : Nat) (d : Done) : State :=
  let p := x.v.part
  match d with
  | .fall s c =>
    if s.overfull x then
      if p.runs.length ≤ 1 then (s0.waits x.r .room).due [.continueWithoutLogging x.r] else s0.waits x.r .room
    else
      let b := close || c
      (s.modPart x.r fun q => { q.counted b with pc := nextPc p.header p.pc f.len }).afterClose x.r b
  | .goto s pc h => (s.modPart x.r fun q => { q.counted close with pc := pc, header := h }).afterClose x.r close
  | .placed s => s
  | .stall s w => s.waits x.r w
  | .trap s code lanes addr info s2 =>
    if f.kind = .irrevocable || f.kind = .alone then s.trapFrom x f .here pos code lanes addr info s2
    else s.faultPlain x f pos code lanes addr info s2
  | .raise s rs code lanes addr info s2 => s.trapFrom x f rs pos code lanes addr info s2
  | .illegal s => s.faultPlain x f pos 1 p.exec p.pc 0 false

/-- The checks at issue (R56 rows 10 to 12), in table order: a register outside the window, the ring, an unwritten
temporary. -/
def Ctx.check (x : Ctx) (f : Form) : Option (Nat × Word × DWord × Word) :=
  let p := x.v.part
  if !(f.uses.all (windowOk x.v.gang.units p.ring)) || !f.dyn.ok p.ring x.v.gang.units then some (1, p.exec, p.pc, 0)
  else if p.ring.num < f.ring then some (2, p.exec, 0, 0)
  else
    match p.tempFault (p.act f.pred) f.temps with
    | some (n, m) => some (5, m, 0, BitVec.ofNat 32 n)
    | none => none

/-- What an instruction does once it may execute. -/
abbrev Sem := State → Ctx → Done

/-- The state in which an instruction of a kind may execute, and its context there (R109, R363): plain ones at once;
irrevocable ones when their part's earlier instructions have been performed; those that form a run of their own when no
older run is left. None while it waits. -/
def State.prepare (s : State) (x : Ctx) (k : IKind) : Option State :=
  match k with
  | .plain => some s
  | .endr => some s
  | .irrevocable => s.settle x.r
  | .alone =>
    if x.v.part.runs.length ≤ 1 && x.v.part.runpos == 0 && (s.entriesOf x.v.part.id).isEmpty
    then some s else none

/-- What a waiting instruction of its own run does to the run before it: it closes it (R131, R363). -/
def State.stallFor (s : State) (x : Ctx) (k : IKind) : State :=
  let s := s.waits x.r .commit
  if k = .alone && 0 < x.v.part.runpos then
    (s.modPart x.r fun p => { p with runs := modLast (fun r => { r with closed := true }) p.runs }).due [.runCommit x.r]
  else s.due [.runCommit x.r]

/-- A run for the next instruction, if none is open (R101). -/
def State.openRun (s : State) (x : Ctx) : State × Ctx :=
  match x.v.part.curRun? with
  | some _ => (s, x)
  | none =>
    let v := x.v.startRun s.nextId
    (({ s with nextId := s.nextId + 1 } : State).putView x.r v, { x with v := v })

/-- Whether a part stands still until something else moves it (R111, R126, R127, R155): it waits at REGANG or for a split, some
of its quads finish, or a trap of its waits for its boundary. -/
def Part.still (p : Part) : Bool :=
  (match p.wait with | .regang _ _ => true | .split _ _ _ => true | _ => false)
    || (p.runs.any fun r => r.finishing != 0) || p.trap.isSome

/-- Whether another part of the gang is about to change the window, so that no run starts (R158). -/
def View.windowHeld (v : View) : Bool := v.gang.parts.any fun p => p.id != v.part.id && p.wait == .window

/-- Whether no run can be opened for the next instruction (R101, R158). -/
def Ctx.noRun (x : Ctx) : Bool := x.v.part.curRun?.isNone && (4 ≤ x.v.part.runs.length || x.v.windowHeld)

/-- A pattern that is not an instruction, that fetch does not reach, or that is a branch for which there is no room (R42, R56 rows
1 to 9, R57): decided before any effect. -/
def State.failAt (s : State) (x : Ctx) (lanes : Word) (code : Nat) (addr : DWord) (s2 : Bool) : State :=
  if x.noRun then s.waits x.r .commit
  else
    let (s, x) := s.openRun x
    s.faultPlain x ⟨⟨0, false⟩, 1, 0, [], [], .plain, .none⟩ x.v.part.runpos code lanes addr 0 s2

/-- One instruction form issues for the part whose turn it is. -/
def issueAt (f : Form) (sem : Sem) (s : State) (x : Ctx) : State :=
  if x.v.part.still then s
  else if x.noRun then s.waits x.r .commit
  else
    let (s, x) := s.openRun x
    let pos := x.v.part.runpos
    match x.check f with
    | some (code, lanes, addr, info) => s.faultPlain x f pos code lanes addr info false
    | none =>
      match s.prepare x f.kind with
      | none => s.stallFor x f.kind
      | some s' =>
        match s'.ctx? x.v.imm with
        | none => s'
        | some x' => State.finish s' x' f (f.kind != .plain) pos (sem s' x')

/-- The outcome of one instruction. -/
abbrev Out := Host.Outcome State Fault Refusal

/-- The meaning of an instruction form: nothing without a part (log 1), nothing when the clocks have stopped (R601). -/
def issue (f : Form) (imm : Word) (sem : Sem) (s : State) : Host.Outcome State Fault Refusal :=
  if s.frozen then .next s
  else
    match s.ctx? imm with
    | none => .fault .noPart
    | some x => .next (issueAt f sem s x)

/-- Whether the issuing part has been rolled back by its own walk (R275): it no longer holds the runs it had. -/
def State.lost (s0 s : State) (r : PartRef) : Bool :=
  (s0.part? r).map (fun p => p.runs.length) != (s.part? r).map (fun p => p.runs.length)

/-- An instruction that only changes what its part and gang hold. -/
def onView (f : View → View) : Sem := fun s x => .fall (s.putView x.r (f x.v)) false

end Sys2Proof.Machine
end

