-- ==== Sys2Proof/Machine/IntOps.lean ====
section
/-!
DEFINITION. What the integer engine computes in one lane (R177 to R193). Values are 64-bit patterns; a 32-bit operation
uses and makes the low word.
-/
namespace Sys2Proof

/-- Signed integer types (R177). -/
def TypeCode.signed (t : TypeCode) : Bool := t == .i32 || t == .i64
def TypeCode.width (t : TypeCode) : Nat := if t.wide then 64 else 32

/-- The 64-bit type of the same signedness (R178). -/
def TypeCode.widen (t : TypeCode) : TypeCode := if t.signed then .i64 else .n64

namespace Machine

/-- The exact value of a pattern of a type. -/
def valT (t : TypeCode) (x : DWord) : Int := valueOf t.signed t.wide x

def loT (t : TypeCode) : Int := if t.signed then -(2 ^ (t.width - 1) : Int) else 0
def hiT (t : TypeCode) : Int := if t.signed then 2 ^ (t.width - 1) - 1 else 2 ^ t.width - 1

/-- Wrap(r, w). -/
def wrapT (t : TypeCode) (r : Int) : DWord := BitVec.ofInt 64 (r % 2 ^ t.width)

/-- Fit(r, T, sat): wrapped, or clamped with OF. -/
def fit (t : TypeCode) (sat : Bool) (r : Int) : DWord × Flags :=
  if sat && (decide (r < loT t) || decide (hiT t < r)) then
    (wrapT t (if r < loT t then loT t else hiT t), flagOF)
  else (wrapT t r, 0)

def addT (t : TypeCode) (sat : Bool) (a b : DWord) : DWord × Flags := fit t sat (valT t a + valT t b)
def subT (t : TypeCode) (sat : Bool) (a b : DWord) : DWord × Flags := fit t sat (valT t a - valT t b)
def mulT (t : TypeCode) (sat : Bool) (a b : DWord) : DWord × Flags := fit t sat (valT t a * valT t b)
def mulhiT (t : TypeCode) (a b : DWord) : DWord × Flags :=
  (BitVec.ofInt 64 (valT t a * valT t b % 2 ^ 64 / 2 ^ 32), 0)
def madT (t : TypeCode) (sat : Bool) (a b c : DWord) : DWord × Flags := fit t sat (valT t a * valT t b + valT t c)
def madwT (t : TypeCode) (sat : Bool) (a b c : DWord) : DWord × Flags :=
  fit t.widen sat (valT t a * valT t b + valT t.widen c)

/-- Quotient toward zero (R179). -/
def divT (t : TypeCode) (a b : DWord) : DWord × Flags :=
  let x := valT t a
  let y := valT t b
  if y = 0 then (wrapT t (-1), flagDZ)
  else if t.signed && x == loT t && y == -1 then (wrapT t (loT t), flagOF)
  else (wrapT t (x.tdiv y), 0)

/-- Remainder with the sign of the dividend (R179). -/
def remT (t : TypeCode) (a b : DWord) : DWord × Flags :=
  let x := valT t a
  let y := valT t b
  if y = 0 then (wrapT t x, flagDZ)
  else if t.signed && x == loT t && y == -1 then (0, 0)
  else (wrapT t (x.tmod y), 0)

def minT (t : TypeCode) (a b : DWord) : DWord × Flags := (wrapT t (min (valT t a) (valT t b)), 0)
def maxT (t : TypeCode) (a b : DWord) : DWord × Flags := (wrapT t (max (valT t a) (valT t b)), 0)
def absT (t : TypeCode) (sat : Bool) (a : DWord) : DWord × Flags := fit t sat (valT t a).natAbs
def negT (t : TypeCode) (sat : Bool) (a : DWord) : DWord × Flags := fit t sat (-(valT t a))

/-- The low bits of a type's width. -/
def maskT (t : TypeCode) (x : DWord) : DWord := if t.wide then x else x.lo.setWidth 64

/-- SHL, SHR, SAR and ROTL (R182). -/
def shlT (t : TypeCode) (a : DWord) (k : Nat) : DWord := if k < t.width then maskT t (a <<< k) else 0
def shrT (t : TypeCode) (a : DWord) (k : Nat) : DWord := if k < t.width then maskT t a >>> k else 0
def sarT (t : TypeCode) (a : DWord) (k : Nat) : DWord :=
  if t.wide then a.sshiftRight (min k 63) else (a.lo.sshiftRight (min k 31)).setWidth 64
def rotlT (t : TypeCode) (a : DWord) (k : Nat) : DWord :=
  if t.wide then a.rotateLeft (k % 64) else (a.lo.rotateLeft (k % 32)).setWidth 64

/-- FUNNEL (R182). -/
def funnel (a b c : Word) : Word := ((b ++ a : DWord) >>> (c.toNat % 32)).setWidth 32

/-- How many of the bits below `n` are set. -/
def popCount (x : Nat) : (n : Nat) → Nat
  | 0 => 0
  | n + 1 => popCount x n + x / 2 ^ n % 2

/-- Zero bits above the highest set bit, below the lowest (R183). -/
def clz (w x : Nat) : Nat := w - bitLen x
def ctzGo (x : Nat) : (n i : Nat) → Nat
  | 0, i => i
  | n + 1, i => if x / 2 ^ i % 2 = 1 then i else ctzGo x n (i + 1)
def ctz (w x : Nat) : Nat := ctzGo x w 0

/-- The bits of `w` places in reverse. -/
def brev (x : Nat) : (w : Nat) → Nat
  | 0 => 0
  | w + 1 => x % 2 * 2 ^ w + brev (x / 2) w

/-- BFE (R184). -/
def bfe (signed : Bool) (a ctl : Word) : Word :=
  let len := min (ctl.toNat / 256 % 256) 32
  let pos := ctl.toNat % 256
  let f := a.toNat / 2 ^ pos % 2 ^ len
  if signed && 0 < len && f / 2 ^ (len - 1) % 2 == 1 then BitVec.ofNat 32 (f + 2 ^ 32 - 2 ^ len) else BitVec.ofNat 32 f

/-- BFI (R185). -/
def bfi (a b ctl : Word) : Word :=
  let len := min (ctl.toNat / 256 % 256) 32
  let pos := ctl.toNat % 256
  let m : Word := BitVec.ofNat 32 ((2 ^ len - 1) * 2 ^ pos)
  (a &&& ~~~m) ||| (BitVec.ofNat 32 (b.toNat * 2 ^ pos) &&& m)

/-- PERMB (R186). -/
def permb (a b c : Word) : Word :=
  let x := b.toNat * 2 ^ 32 + a.toNat
  let byte (i : Nat) : Nat :=
    let k := c.toNat / 2 ^ (4 * i) % 16
    let y := x / 2 ^ (8 * (k % 8)) % 256
    if k < 8 then y else if 128 ≤ y then 255 else 0
  BitVec.ofNat 32 (byte 0 + byte 1 * 2 ^ 8 + byte 2 * 2 ^ 16 + byte 3 * 2 ^ 24)

/-- MOVI (R189): a halfword of the old value replaced. -/
def movi (old : DWord) (h : Nat) (imm : Word) : DWord :=
  let m : DWord := 0xFFFF <<< (16 * h)
  (old &&& ~~~m) ||| (((imm.setWidth 64) &&& 0xFFFF) <<< (16 * h))

/-- EXT (R191). -/
def extT (t : TypeCode) (w : ExtW) (a : Word) : DWord :=
  let n := match w with | .w8 => 8 | .w16 => 16 | .w32 => 32
  let x : Nat := a.toNat % 2 ^ n
  wrapT t (if t.signed && 2 ^ (n - 1) ≤ x then (x : Int) - 2 ^ n else x)

/-- An element narrowed by PACK (R192). -/
def narrow (n : Narrow) (w : Nat) (a : Word) : Nat × Flags :=
  let x := a.toInt
  match n with
  | .keep => (a.toNat % 2 ^ w, 0)
  | .ssat =>
    let y := max (-(2 ^ (w - 1) : Int)) (min x (2 ^ (w - 1) - 1))
    ((y % 2 ^ w).toNat, flagIf (y != x) flagOF)
  | .usat =>
    let y := max 0 (min x (2 ^ w - 1))
    (y.toNat, flagIf (y != x) flagOF)

/-- PACK (R192). -/
def packT (t : TypeCode) (n : Narrow) (a b : Word) : Word × Flags :=
  let w := if t == .b8 then 8 else 16
  let x := narrow n w a
  let y := narrow n w b
  (BitVec.ofNat 32 (y.1 * 2 ^ w + x.1), x.2 ||| y.2)

/-- UNPACK (R193). -/
def unpackT (t : TypeCode) (i : Nat) (sx : Bool) (a : Word) : Word :=
  let w := if t == .b8 then 8 else 16
  let x := a.toNat / 2 ^ (w * i) % 2 ^ w
  if sx && 2 ^ (w - 1) ≤ x then BitVec.ofNat 32 (x + 2 ^ 32 - 2 ^ w) else BitVec.ofNat 32 x

/-- How CMP and FCMP combine (R187). -/
def combine (k : Comb) (v : View) (l : Nat) (b : Bool) : Bool :=
  match k with
  | .none => b
  | .and c => b && (v.rd32 c l).getLsbD l
  | .or c => b || (v.rd32 c l).getLsbD l
  | .xor c => b != (v.rd32 c l).getLsbD l

/-- One bit of a predicate for each lane of ACT, the others unchanged (R187, R222). -/
def View.setBits (v : View) (d : Opnd) (act : Word) (f : Nat → Bool) : View :=
  match d with
  | .p n => v.setPreg n.val
      ((laneList act).foldl (fun m l => if f l then m ||| lbit l else m &&& ~~~(lbit l)) (v.part.preg n.val))
  | _ => v

/-! The shapes of the integer instructions: sources read as a type reads them, one result for each lane that computes. -/

def un (p : Pred) (t : TypeCode) (d a : Opnd) (f : DWord → DWord × Flags) : View → View :=
  fun v => v.compute p t.wide d [a] fun l => f (v.rdT t a l)

def bin (p : Pred) (t : TypeCode) (d a b : Opnd) (f : DWord → DWord → DWord × Flags) : View → View :=
  fun v => v.compute p t.wide d [a, b] fun l => f (v.rdT t a l) (v.rdT t b l)

def tern (p : Pred) (t : TypeCode) (d a b c : Opnd) (f : DWord → DWord → DWord → DWord × Flags) : View → View :=
  fun v => v.compute p t.wide d [a, b, c] fun l => f (v.rdT t a l) (v.rdT t b l) (v.rdT t c l)

/-- MADW (R178). -/
def madw (p : Pred) (t : TypeCode) (sat : Bool) (d a b c : Opnd) : View → View :=
  fun v => v.compute p true d [a, b, c] fun l => madwT t sat (v.rdT t a l) (v.rdT t b l) (v.rdT t.widen c l)

/-- Shifts: the amount is a 32-bit operand (R182). -/
def shiftOp (p : Pred) (t : TypeCode) (d a b : Opnd) (f : DWord → Nat → DWord) : View → View :=
  fun v => v.compute p t.wide d [a, b] fun l => (f (v.rdT t a l) (v.rd32 b l).toNat, 0)

/-- Counts: a 32-bit result of a type's operand (R183). -/
def countOp (p : Pred) (t : TypeCode) (d a : Opnd) (f : Nat → Nat → Nat) : View → View :=
  fun v => v.compute p false d [a] fun l => (BitVec.ofNat 64 (f t.width (maskT t (v.rdT t a l)).toNat), 0)

/-- 32-bit operations on words. -/
def w2 (p : Pred) (d a b : Opnd) (f : Word → Word → Word) : View → View :=
  fun v => v.compute p false d [a, b] fun l => ((f (v.rd32 a l) (v.rd32 b l)).setWidth 64, 0)

def w3 (p : Pred) (d a b c : Opnd) (f : Word → Word → Word → Word) : View → View :=
  fun v => v.compute p false d [a, b, c] fun l => ((f (v.rd32 a l) (v.rd32 b l) (v.rd32 c l)).setWidth 64, 0)

def w1 (p : Pred) (d a : Opnd) (f : Word → Word) : View → View :=
  fun v => v.compute p false d [a] fun l => ((f (v.rd32 a l)).setWidth 64, 0)

/-- CMP (R187). -/
def cmpOp (p : Pred) (t : TypeCode) (c : Cond) (k : Comb) (d a b : Opnd) : View → View :=
  fun v => v.setBits d (v.act p) fun l => combine k v l (condHolds c (valT t (v.rdT t a l)) (valT t (v.rdT t b l)))

/-- MOVI (R189). -/
def moviOp (p : Pred) (t : TypeCode) (h : Nat) (d : Opnd) : View → View :=
  fun v => v.compute p t.wide d [d] fun l => (movi (v.rdT t d l) h v.imm, 0)

/-- SEL (R190). -/
def selOp (p : Pred) (t : TypeCode) (d a b c : Opnd) : View → View :=
  fun v => v.compute p t.wide d [a, b] fun l =>
    (if (v.rd32 c l).getLsbD l then v.rdT t a l else v.rdT t b l, 0)

end Machine
end Sys2Proof
end

