-- ==== Sys2Proof/Machine/Access.lean ====
section
/-!
DEFINITION. Accesses of lanes (R76 to R81, R93, R97, R109, R116, R117, R268 to R271, R274, R276 to R284, R287 to R296,
R307, R319): who accesses what, the pieces, their checks, performing them, and what a load writes.
-/
namespace Sys2Proof.Machine

/-- The partition of the containment identifier of a part's accesses (R371). -/
def Ctx.own (x : Ctx) : Nat := ownAt x.v.part.ring x.c.part

/-- Where an instruction's addresses point (R268). -/
inductive Space where
  | glob | sp | wb | ab
  deriving DecidableEq, Repr

/-- Size of the next aligned piece (R79). -/
def pieceLen (a rem : Nat) : Nat := (([16, 8, 4, 2, 1] : List Nat).find? fun k => a % k == 0 && k ≤ rem).getD 1

/-- The pieces of `n` bytes at an address as offset and length (R79). -/
def piecesOf (a n : Nat) : (fuel : Nat) → (off : Nat) → List (Nat × Nat)
  | 0, _ => []
  | f + 1, off => if n ≤ off then [] else
    let k := pieceLen (a + off) (n - off)
    (off, k) :: piecesOf a n f (off + k)

/-- Bytes of an element (R46). -/
def memBytes (t : TypeCode) : Nat :=
  match t with
  | .b8 => 1 | .b16 => 2 | .b64 | .i64 | .n64 => 8 | .b128 => 16 | _ => 4

/-- An element that a lane accesses: lane, address or buffer offset, and length. -/
structure Elem where
  lane : Nat
  at_ : Int
  len : Nat
  deriving DecidableEq, Repr

/-- The effective address of a global access (R269). -/
def View.effAddr (v : View) (a : Opnd) (l : Nat) : DWord := v.rd64 false a l + v.imm.signExtend 64

/-- The offset of a local access (R270). -/
def View.offset (v : View) (a : Opnd) (l : Nat) : Int := (v.rd32 a l).toNat + v.imm.toInt

/-- Where a lane accesses. -/
def View.addrIn (v : View) (z : Space) (a : Opnd) (l : Nat) : Int :=
  match z with
  | .glob => (v.effAddr a l).toNat
  | _ => v.offset a l

/-- Whether an instruction makes one access for its part (R288). -/
def oneAccess (os : List Opnd) : Bool := allUniform os

/-- The lanes that access (R287, R288): those of ACT, or the lowest of the part when the access is one for the part, which it is
whatever EXEC holds with PRED 0b0000. -/
def View.accLanes (v : View) (p : Pred) (os : List Opnd) : List Nat :=
  let act := v.act p
  if oneAccess os then (if p.always || act != 0 then [4 * lowQuad v.part.quads] else []) else laneList act

/-- The lanes that access in an ATOM or a CAS: none where ACT is empty. DEDUCED: R332 says so of these two instructions, and R288 of
every access that is one for the part that PRED 0b0000 makes it whatever EXEC holds; the narrower rule decides (log 110). -/
def View.atomLanes (v : View) (p : Pred) (os : List Opnd) : List Nat := if v.act p = 0 then [] else v.accLanes p os

/-- A piece that may be accessed: lane, virtual address or offset, offset in its element, length, where it lies. -/
structure Piece where
  lane : Nat
  va : DWord
  off : Nat
  len : Nat
  x : Xlat
  deriving DecidableEq, Repr

/-- A lane's access that faults; `far` says that its translation names a peer or I/O space all the same (R93, R354). -/
structure Bad where
  lane : Nat
  code : Nat
  s2 : Bool
  addr : DWord
  info : Word
  far : Bool
  deriving DecidableEq, Repr

/-- What the checks of an instruction's accesses find: pieces, faults, and whether a page under a move makes it wait. -/
structure Found where
  ok : List Piece
  bad : List Bad
  wait : Bool
  deriving DecidableEq, Repr

/-- How accesses are checked: the kind of translation, an atomic (R310), an alignment that is required with the cause that
its lack raises, whether the accesses are LOADs and STOREs, which CDBG checks (R116), and whether they admit local lines only
(R327). -/
structure How where
  kind : Kind
  atomic : Bool
  localOnly : Bool
  align : Nat
  alignCode : Nat
  debug : Bool
  deriving DecidableEq, Repr

def howLoad : How := ⟨.load, false, false, 1, 0, true⟩
def howStore : How := ⟨.store, false, false, 1, 0, true⟩

/-- How an instruction's own loads and stores are checked that is no LOAD and no STORE: CDBG does not ask about them (R116). -/
def How.own (h : How) : How := { h with debug := false }

/-- The CDBG bits of a partition (R116). -/
def State.mixe (s : State) (part : Nat) : Bool := (s.partition? part).elim false fun p => p.cdbg.getLsbD 0
def State.mise (s : State) (part : Nat) : Bool := (s.partition? part).elim false fun p => p.cdbg.getLsbD 1

/-- Whether a lane access could still be undone: its run, if it is not performed for good, has not committed yet. -/
def State.liveRun (s : State) (run : Option Nat) : Bool := run.any fun k => s.allParts.any fun x => x.2.runIds.contains k

/-- An access that is not performed, since it faults or has to wait, is not remembered (R117); nor is one of a run that has
been rolled back since. -/
def State.forget (s0 s : State) : State :=
  { s with lastLane := s0.lastLane.filter fun e => s.liveRun e.2.2.2.2 || !s0.liveRun e.2.2.2.2 }

def Done.forget (s0 : State) : Done → Done
  | .fall s c => .fall s c
  | .goto s pc h => .goto s pc h
  | .placed s => .placed (s0.forget s)
  | .stall s w => .stall (s0.forget s) w
  | .trap s c l a i z => .trap (s0.forget s) c l a i z
  | .raise s r c l a i z => .raise (s0.forget s) r c l a i z
  | .illegal s => .illegal (s0.forget s)

/-- A lane access of a run remembered (R117), or of none where it is performed for good. What came before it on its line stays
as long as its rollback could make that the last access again: accesses of other uncommitted runs, and the newest that is
none. -/
def State.remember (s : State) (part line : Nat) (off : Int) (n : Nat) (run : Option Nat) : State :=
  let mine := fun (e : Nat × Nat × Int × Nat × Option Nat) => e.1 == line && e.2.1 == part
  let old := s.lastLane.filter fun e => mine e && run.isSome && e.2.2.2.2 != run
  let k := (old.takeWhile fun e => s.liveRun e.2.2.2.2).length
  { s with lastLane := (line, part, off, n, run) :: old.take (k + 1) ++ s.lastLane.filter fun e => !mine e }

/-- The check of MIXE at a home slice, which remembers the access (R117): a line, where the access starts from the line's
first byte on, its size, and its run. -/
def State.mixCheck (s : State) (part line : Nat) (off : Int) (n : Nat) (run : Option Nat) : Bool × State :=
  match s.lastLane.find? fun e => e.1 == line && e.2.1 == part with
  | some (_, _, o, k, _) =>
    if (decide (o < off + n) && decide (off < o + k)) && (o != off || k != n) then (false, s)
    else (true, s.remember part line off n run)
  | none => (true, s.remember part line off n run)

/-- An access checked at the home slices of the lines that its pieces lie in, in their order (R117). DESIGN CHOICE: one that
faults at its upper line counts on its lower line until its run is undone (log 87). -/
def State.mixChecks (part n : Nat) (run : Option Nat) : List Piece → State → Bool × State
  | [], s => (true, s)
  | p :: t, s =>
    if p.x.far then State.mixChecks part n run t s
    else
      let r := s.mixCheck part (p.x.addr / 64) ((p.x.addr % 64 : Nat) - (p.off : Int)) n run
      if r.1 then State.mixChecks part n run t r.2 else r

/-- Whether the part performs its accesses one by one (R110, R114). -/
def Part.direct (p : Part) : Bool := p.drag || (p.curRun?.map (·.noLog)).getD false

/-- An element's access checked under MIXE (R117). DESIGN CHOICE: what is made while MIXE is clear is not remembered, what
was remembered before stays, and an access that faults is not remembered itself, nor is one that is not checked, such as an
atomic's or a monitor's. One whose run has not committed yet is remembered from when it executes, for the partition's other
parts too (log 87); one of a part that performs its accesses one by one stays whatever becomes of its run. -/
def State.mixElem (s : State) (x : Ctx) (h : How) (l : Nat) (va : DWord) (n : Nat) (r : Found) : Found × State :=
  if h.debug && s.mixe x.c.part && r.bad.isEmpty && !r.wait then
    let m := State.mixChecks x.c.part n (if x.v.part.direct then none else x.v.part.curRun?.map (·.id)) r.ok s
    if m.1 then (r, m.2) else (⟨[], [⟨l, 10, false, va, 0, r.ok.any fun p => p.x.far⟩], false⟩, m.2)
  else (r, s)

/-- Poison of a storage line. -/
def State.poisoned (s : State) (line : Nat) : Bool := s.poison.contains line

/-- The line whose data came to a part's read poisoned by an error in a flit's payload (R371): that of the first piece that
leaves the part. -/
def State.flitHit (s : State) (x : Ctx) (z : Space) (lines : List Nat) : Option Nat × State :=
  match z, lines with
  | .glob, l :: _ => let k := s.struck x.v.part.id l; (if k.1 then some l else none, k.2)
  | _, _ => (none, s)

/-- The record of the first poisoned line that an access read (R371). -/
def State.sawPoison (s : State) (x : Ctx) (lines : List Nat) : State :=
  match lines.find? s.poisoned with
  | some l => s.poisonRead x.own x.c.core x.r.cohort x.r.gang l
  | none => s

/-- One piece of a global access checked (R269, R274, R279, R308, R327): canonical, translated, no I/O for atomics, no I/O
piece across 16 bytes. DEDUCED: a translation that faults names no peer and no I/O space (log 121). -/
def State.checkPiece (s : State) (x : Ctx) (h : How) (l : Nat) (va : DWord) (off n : Nat) :
    (Except Bad (Option Piece)) × State :=
  if !canonical va then (.error ⟨l, 10, false, va, 0, false⟩, s)
  else
    let r := s.translate x.c.core x.c.part x.c.gslot x.v.part.ring h.kind h.atomic va
    match r.1 with
    | .wait => (.ok none, r.2)
    | .fault f => (.error ⟨l, f.code, f.s2, va, 0, false⟩, r.2)
    | .ok y =>
      if (y.io && (h.atomic || 16 < va.toNat % 16 + n)) || (h.localOnly && y.far) then
        (.error ⟨l, 10, false, va, 0, y.far⟩, r.2)
      else (.ok (some ⟨l, va, off, n, y⟩), r.2)

/-- The pieces of one element checked in order; the first that fails is the lane's fault. -/
def State.checkPieces (x : Ctx) (h : How) (l : Nat) (va : DWord) :
    (ps : List (Nat × Nat)) → State → Found × State
  | [], s => (⟨[], [], false⟩, s)
  | (off, n) :: t, s =>
    let r := s.checkPiece x h l (va + BitVec.ofNat 64 off) off n
    match r.1 with
    | .error b => (⟨[], [b], false⟩, r.2)
    | .ok none => (⟨[], [], true⟩, r.2)
    | .ok (some p) =>
      let q := State.checkPieces x h l va t r.2
      (⟨p :: q.1.ok, q.1.bad, q.1.wait⟩, q.2)

/-- The typed buffer's window and base of a cohort (R270), its number in TINFO (R353). -/
def Cohort.window (c : Cohort) : Space → Nat × Nat × SAddr × Nat
  | .glob => (0, 0, 0, 0)
  | .sp => (c.sp.base, c.sp.base + c.sp.size, spAt c.core 0, 0)
  | .wb => (0, c.wb.size, wbAt c.core c.wb.base, 1)
  | .ab => (0, c.ab.size, abAt c.core c.ab.base, 2)

/-- One element checked: a global one under translation, a local one against its window (R270). DESIGN CHOICE: MISE's fault
comes before those of translation, and of peers' memory and I/O space too (R117, log 85); of a local offset below 0 TADDR
gets the low 32 bits, of another all (log 88). -/
def State.checkElem (s : State) (x : Ctx) (z : Space) (h : How) (e : Elem) : Found × State :=
  let va : DWord := BitVec.ofInt 64 e.at_
  if e.at_ % h.align != 0 then (⟨[], [⟨e.lane, h.alignCode, false, va, 0, false⟩], false⟩, s)
  else
    match z with
    | .glob =>
      let ps := piecesOf va.toNat e.len 32 0
      if h.debug && s.mise x.c.part && 1 < ps.length && e.len ≤ 16 then
        (⟨[], [⟨e.lane, 10, false, va, 0, false⟩], false⟩, s)
      else
        let r := State.checkPieces x h e.lane va (if 16 < e.len then [(0, e.len)] else ps) s
        r.2.mixElem x h e.lane va e.len r.1
    | _ =>
      let (lo, hi, base, n) := x.c.window z
      if e.at_ < lo ∨ hi < e.at_ + e.len then
        (⟨[], [⟨e.lane, 12, false, if e.at_ < 0 then (va.setWidth 32).setWidth 64 else va, BitVec.ofNat 32 n, false⟩],
          false⟩, s)
      else
        (⟨(piecesOf e.at_.toNat e.len 32 0).map fun q =>
          ⟨e.lane, va + BitVec.ofNat 64 q.1, q.1, q.2, ⟨base + e.at_.toNat + q.1, none, false, []⟩⟩, [], false⟩, s)

def State.checkElems (x : Ctx) (z : Space) (h : How) : List Elem → State → Found × State
  | [], s => (⟨[], [], false⟩, s)
  | e :: t, s =>
    let r := s.checkElem x z h e
    let q := State.checkElems x z h t r.2
    (⟨r.1.ok ++ q.1.ok, r.1.bad ++ q.1.bad, r.1.wait || q.1.wait⟩, q.2)

/-- What TADDR gets of the lanes that share a fault (R276, R353): the first one's address; of misaligned atomics and of
poison, the lowest. -/
def tAddr (c : Nat) (a : DWord) (l : List DWord) : DWord :=
  if c = 11 ∨ c = 0x20 then l.foldl (fun m b => if b.toNat < m.toNat then b else m) a else a

/-- The fault that some lanes' faults make (R276): the cause of the lowest, the lanes that share it, the lowest's address. -/
def faultOf (uni : Bool) (act : Word) : List Bad → Option (Nat × Word × DWord × Word × Bool)
  | [] => none
  | b :: t =>
    let same := (b :: t).filter fun c => c.code == b.code
    let lanes := same.foldl (fun m c => m ||| lbit c.lane) (0 : Word)
    some (b.code, if uni then act else lanes, tAddr b.code b.addr (same.map (·.addr)), b.info, b.s2)

/-! Performing -/

/-- The entries of a part on a line, youngest first. -/
def State.ownOn (s : State) (pid line : Nat) : List StoreEntry :=
  (s.stores.filter fun e => e.part == pid && e.line == line).reverse

/-- The byte that a part's own entries forward (R284). -/
def forwarded (es : List StoreEntry) (i : Nat) : Option Byte :=
  (es.find? fun e => e.red.isNone && e.mask.getLsbD i).map fun e => e.data.getD i 0

/-- The bytes of a part of a line as its part reads them (R284). -/
def State.readOwn (s : State) (own pid a n : Nat) : List Byte :=
  let es := s.ownOn pid (a / 64)
  (List.range n).map fun i => (forwarded es (a % 64 + i)).getD (s.byteAs own (a + i))

/-- Whether a read reaches the slice or buffer: some byte is not forwarded. -/
def State.reaches (s : State) (pid a n : Nat) : Bool :=
  let es := s.ownOn pid (a / 64)
  (List.range n).any fun i => (forwarded es (a % 64 + i)).isNone

/-- The sideband of a line as a part reads it (R284). -/
def State.sideOwn (s : State) (pid line : Nat) : Side :=
  match (s.ownOn pid line).find? fun e => e.red.isNone && e.mask != 0 with
  | some e => e.side.getD (s.sideAt line)
  | none => s.sideAt line

/-- The lines that the exact part of a core's read-set filter holds (R14): those of every uncommitted run on the core. -/
def State.filterLines (s : State) (core : Nat) : List Nat :=
  ((s.cohorts.filter fun c => c.core == core).flatMap fun c => c.gangs.flatMap fun g => g.parts.flatMap fun p => p.runs.flatMap fun r => r.reads).dedup

/-- A run that has read a line (R281): the filter holds 2,048 lines exactly, and further ones in its overflow part (R14). -/
def Run.record (held : List Nat) (line : Nat) (r : Run) : Run :=
  if r.reads.contains line || r.spill.contains line then r
  else if held.contains line || decide (held.length < 2048) then { r with reads := line :: r.reads }
  else { r with spill := line :: r.spill }

/-- A line read by a part (R105, R281): others lose their claims on it, and the run records it. -/
def State.readLine (s : State) (x : Ctx) (a n : Nat) : State :=
  let line := a / 64
  let s := if s.reaches x.v.part.id a n then s.strike line .read (some x.v.part.id) else s
  s.modPart x.r fun p =>
    if p.direct then p else { p with runs := modLast (Run.record (s.filterLines x.c.core) line) p.runs }

/-- Whether the part holds a reduction on a line (R319): in any run, in its open run. -/
def State.ownRed (s : State) (pid line : Nat) : Bool := (s.ownOn pid line).any fun e => e.red.isSome
def State.runRed (s : State) (x : Ctx) (line : Nat) : Bool :=
  (s.ownOn x.v.part.id line).any fun e => e.red.isSome && some e.run == x.v.part.curRun?.map (·.id)

/-- The instruction waits for its lines; with `red`, a reduction of its own run, that run closes first, so that it may
execute (R319). -/
def State.waitLine (s : State) (x : Ctx) (red : Bool) : Done :=
  if red && 0 < x.v.part.runpos then
    .placed ((s.modPart x.r fun p =>
      { p with wait := .load, runs := modLast (fun r => { r with closed := true }) p.runs }).due [.runCommit x.r])
  else .stall s .load

/-- The open entry of a run for a line: the youngest of its entries there, unless that is a reduction (R282, R334). -/
def State.openEntry (s : State) (x : Ctx) (line : Nat) : Option StoreEntry :=
  match s.ownOn x.v.part.id line with
  | e :: _ => if e.red.isNone && !e.committed && some e.run == (x.v.part.curRun?.map (·.id)) then some e else none
  | [] => none

/-- Bytes put into an entry (R282). -/
def StoreEntry.put (e : StoreEntry) (off : Nat) (bs : List Byte) (side : Side) (leaves : List (Nat × Option DWord)) :
    StoreEntry :=
  { e with
    mask := (List.range bs.length).foldl (fun m i => m ||| ((1#64 : BitVec 64) <<< (off + i))) e.mask
    data := (List.range 64).map fun i => if off ≤ i ∧ i < off + bs.length then bs.getD (i - off) 0 else e.data.getD i 0
    side := some side
    leaves := e.leaves ++ leaves.filter fun l => !e.leaves.contains l }

/-- A new entry of a part's open run, which requests ownership at once (R282, R283). -/
def State.newEntry (s : State) (x : Ctx) (line : Nat) (red : Option (AtomOp × Bool × Nat × DWord))
    (leaves : List (Nat × Option DWord)) : StoreEntry :=
  { id := s.nextId, own := x.own, cohort := x.r.cohort, gang := x.r.gang, part := x.v.part.id
    run := (x.v.part.curRun?.map (·.id)).getD 0, core := x.c.core, sub := x.v.gang.sub, line := line, mask := 0
    data := List.replicate 64 0, side := none, owned := false, committed := false, red := red, leaves := leaves }

def State.addEntry (s : State) (e : StoreEntry) : State :=
  { s with nextId := s.nextId + 1, stores := s.stores ++ [e] }.due [.ownershipRequest e.id]

/-- A piece stored: into the run's entry of the line, or a new one (R282); directly where the part performs its accesses one
by one. -/
def State.storePiece (s : State) (x : Ctx) (p : Piece) (bs : List Byte) (side : Side) : State :=
  let line := p.x.addr / 64
  if x.v.part.direct then
    (s.setDirty x.c.part p.x.leaves).homeWrite (some x.v.part.id) x.own p.x.addr bs (some side)
  else
    match s.openEntry x line with
    | some e =>
      { s with stores := s.stores.map fun d => if d = e then d.put (p.x.addr % 64) bs side p.x.leaves else d }
    | none => s.addEntry ((s.newEntry x line none []).put (p.x.addr % 64) bs side p.x.leaves)

/-! Pieces that are performed one at a time -/

/-- The request of a piece, in a group. -/
def Piece.request (x : Ctx) (id group : Nat) (p : Piece) (k : PeerKind) : Request :=
  { id := id, cohort := x.r.cohort, gang := x.r.gang, part := x.v.part.id, copyOp := none, own := x.own
    pos := x.v.gang.slot, port := none, lane := p.lane, off := p.off, group := group, va := p.va
    peer := p.x.peer, io := p.x.io, addr := p.x.addr, leaves := p.x.leaves, kind := k, sent := false, deadline := 0
    ans := none, tout := false }

/-- What two requests ask as one. -/
def joinKind : PeerKind → PeerKind → PeerKind
  | .load m, .load n => .load (m + n)
  | .store bs x b, .store cs _ _ => .store (bs ++ cs) x b
  | k, _ => k

/-- The pieces of a lane's access to I/O space put together: each is one request (R279). -/
def joinIo : List (Piece × PeerKind) → List (Piece × PeerKind)
  | [] => []
  | a :: t =>
    match joinIo t with
    | [] => [a]
    | b :: u =>
      if a.1.x.io && b.1.x.io && a.1.lane == b.1.lane && b.1.off == a.1.off + a.1.len && b.1.x.addr == a.1.x.addr + a.1.len then
        ({ a.1 with len := a.1.len + b.1.len }, joinKind a.2 b.2) :: u
      else a :: b :: u

/-- Whether two accesses of an instruction are performed as one request: pieces of one line here (R277), atomics on one word (R316). -/
def sameRequest (a b : Piece × PeerKind) : Bool :=
  match a.2, b.2 with
  | .load _, .load _ => here a.1 && here b.1 && a.1.x.addr / 64 == b.1.x.addr / 64
  | .store _ _ _, .store _ _ _ => here a.1 && here b.1 && a.1.x.addr / 64 == b.1.x.addr / 64
  | .atomic _ _ _, .atomic _ _ _ => a.1.x.addr == b.1.x.addr && a.1.x.peer == b.1.x.peer
  | .cas _ _ _, .cas _ _ _ => a.1.x.addr == b.1.x.addr && a.1.x.peer == b.1.x.peer
  | _, _ => false
where here (p : Piece) : Bool := !p.x.io && p.x.peer.isNone

/-- The accesses by request, in order of the first lane that each serves (R277). -/
def groupRequests : (n : Nat) → List (Piece × PeerKind) → List (List (Piece × PeerKind))
  | 0, l => l.map fun a => [a]
  | _, [] => []
  | n + 1, a :: t => (a :: t.filter (sameRequest a)) :: groupRequests n (t.filter fun b => !sameRequest a b)

/-- Groups of accesses numbered from an identifier on. -/
def numberRequests (x : Ctx) : (id : Nat) → List (List (Piece × PeerKind)) → List Request
  | _, [] => []
  | id, g :: t => (g.zipIdx.map fun q => q.1.1.request x (id + q.2) id q.1.2) ++ numberRequests x (id + g.length) t

/-- The requests of an access, in their order. -/
def requestsOf (x : Ctx) (id : Nat) (l : List (Piece × PeerKind)) : List Request :=
  numberRequests x id (groupRequests l.length (joinIo l))

/-- Requests of a part. -/
def State.partReqs (s : State) (pid : Nat) : List Request :=
  s.reqs.filter fun (q : Request) => q.copyOp.isNone && q.part == pid

/-- A gang's position on its core (R507). -/
def State.posOf (s : State) (co g : Nat) : Nat := (s.gang? co g).elim 0 (·.slot)

/-- The bytes that an element's requests brought, in order of address; when one of them timed out, ones that fill every word of its
destination (R97, R307, R604). -/
def answerBytes (n : Nat) (qs : List Request) : List Byte :=
  if qs.any (·.tout) then List.replicate (max n 4) 0xFF
  else qs.flatMap fun q => match q.ans with | some (.data bs _) => bs | _ => []

/-! What a load writes -/

/-- Word `k` of little-endian bytes. -/
def wordAt (bs : List Byte) (k : Nat) : Word := leWord ((bs.drop (4 * k)).take 4)

/-- The word that a loaded element gives (R289). -/
def loadWord (t : TypeCode) (sx : Bool) (bs : List Byte) (k : Nat) : Word :=
  match t with
  | .b8 => if sx then ((wordAt bs 0).setWidth 8).signExtend 32 else wordAt bs 0
  | .b16 => if sx then ((wordAt bs 0).setWidth 16).signExtend 32 else wordAt bs 0
  | _ => wordAt bs k

/-- LD's destination written: in the lanes of ACT, or the part's copy for an access that is one for the part (R288, R289). -/
def View.putLoad (v : View) (uni : Bool) (act : Word) (d : Opnd) (t : TypeCode) (sx : Bool) (data : Nat → List Byte) :
    View :=
  (List.range t.regs).foldl
    (fun (w : View) k => w.wr32 (d.plus k) (if uni then [0] else laneList act) act fun l => loadWord t sx (data l) k) v

/-- A described row written in the lanes of the part's quads, with its tag (R292, R293). -/
def View.putRow (v : View) (n : Nat) (tag : Tag) (f : Nat → Word) : View :=
  v.setVreg n ⟨Row.upd (v.vreg n).row (quadLanes v.part.quads) f, tag⟩

/-- A tag from the sidebands of a row's two lines (R292). -/
def rowTag (lo hi : Side) : Tag := BitVec.ofNat 24 (hi.toNat / 256 * 65536 + lo.toNat)

/-- The offending line of a described row, if there is one (R292, R294): 0 the lower, 1 the upper. `want` is the declared
code of LDW. -/
def rowFault (want : Option Nat) (lo hi : Side) : Option Nat :=
  let a := lo.toNat % 256
  let b := hi.toNat % 256
  match want with
  | some c => if a != c then some 0 else if b != c then some 1 else none
  | none => if !sideCodeOk a then some 0 else if !sideCodeOk b || a != b then some 1 else none

end Sys2Proof.Machine
end

