-- ==== Sys2Proof/Machine/Formats.lean ====
section
/-!
DEFINITION. The number formats: the value of a code, the rounding of a value into a format and its flags (R199 to R207,
R235 to R238), and elements of words and lines (R207).
-/
namespace Sys2Proof.Machine

/-- An IEEE-like format (R199): bits of E and M, bias. -/
structure FFmt where
  eb : Nat
  pb : Nat
  bias : Nat
  deriving DecidableEq, Repr

def ffmt : TypeCode → Option FFmt
  | .f32 => some ⟨8, 23, 127⟩ | .f16 => some ⟨5, 10, 15⟩ | .bf16 => some ⟨8, 7, 127⟩ | .e4m3 => some ⟨4, 3, 7⟩
  | .e5m2 => some ⟨5, 2, 15⟩ | .e2m1 => some ⟨2, 1, 1⟩ | _ => none

/-- Format codes (R199, R202, R203). -/
def fmtCode : TypeCode → Nat
  | .f32 => 1 | .f16 => 2 | .bf16 => 3 | .e4m3 => 4 | .e5m2 => 5 | .e2m1 => 6 | .int8 => 7 | .int4 => 8 | .lg8 => 9
  | .lg4 => 10 | _ => 0

/-- Bits of an element. -/
def elemBits : TypeCode → Nat
  | .f16 | .bf16 | .b16 => 16
  | .e4m3 | .e5m2 | .int8 | .lg8 | .b8 => 8
  | .e2m1 | .int4 | .lg4 => 4
  | _ => 32

/-- Whether the formats have infinities and NaNs at the top exponent (R199). -/
def ieeeTop (t : TypeCode) : Bool := t == .f32 || t == .f16 || t == .bf16 || t == .e5m2

/-- The value of a code of an IEEE-like format (R199, R200). -/
def ffmtValue (t : TypeCode) (f : FFmt) (c : Nat) : FVal :=
  let neg := c / 2 ^ (f.eb + f.pb) % 2 == 1
  let e := c / 2 ^ f.pb % 2 ^ f.eb
  let m := c % 2 ^ f.pb
  if ieeeTop t && e == 2 ^ f.eb - 1 then (if m = 0 then .inf neg else .nan)
  else if t == .e4m3 && e == 15 && m == 7 then .nan
  else if e = 0 then mkFin neg m (1 - (f.bias : Int) - f.pb)
  else .fin neg (m + 2 ^ f.pb) ((e : Int) - f.bias - f.pb)

/-- T of R204. -/
def lgT (i : Nat) : Nat := ([32768, 35734, 38968, 42495, 46341, 50535, 55109, 60097] : List Nat).getD i 0

/-- (−1)^neg × LinLG(E) (R204). -/
def linLg (neg : Bool) (E : Int) : FVal := .fin neg (lgT (E % 8).toNat) (E / 8 - 15)

/-- An LG code (R203, R204): NaN, zero, or sign and eighth-exponent. -/
inductive LgVal where
  | nan | zero | num (neg : Bool) (E : Int)
  deriving DecidableEq, Repr

/-- The eighth-exponent of a magnitude code (R204). -/
def lgE (t : TypeCode) (m : Nat) : Int := if t == .lg8 then (m : Int) - 64 else 4 * (m : Int) - 16

def lgVal (t : TypeCode) (c : Nat) : LgVal :=
  let b := if t == .lg8 then 7 else 3
  let neg := c / 2 ^ b % 2 == 1
  let m := c % 2 ^ b
  if m = 0 then (if neg then .nan else .zero) else .num neg (lgE t m)

def LgVal.value : LgVal → FVal
  | .nan => .nan | .zero => .zero false | .num n E => linLg n E

/-- The product of two LG codes (R205): a zero has the XOR of the signs too, the zero codes being positive. -/
def LgVal.mul : LgVal → LgVal → FVal
  | .nan, _ => .nan
  | _, .nan => .nan
  | .zero, .zero => .zero false
  | .zero, .num n _ => .zero n
  | .num n _, .zero => .zero n
  | .num a E, .num b F => linLg (a != b) (E + F)

/-- The value of an integer. -/
def intValue (x : Int) : FVal := ofScaled x 0 false

/-- Two's complement of the low `n` bits. -/
def sint (n c : Nat) : Int := let x := c % 2 ^ n; if 2 ^ (n - 1) ≤ x then (x : Int) - 2 ^ n else x

/-- The exact value of an element's code. -/
def valueCode (t : TypeCode) (c : Nat) : FVal :=
  match ffmt t with
  | some f => ffmtValue t f c
  | none =>
    match t with
    | .lg8 | .lg4 => (lgVal t c).value
    | .int8 => intValue (sint 8 c)
    | .int4 => intValue (sint 4 c)
    | .i32 => intValue (sint 32 c)
    | _ => intValue (c % 2 ^ 32 : Nat)

/-- Signalling NaNs (R201). -/
def isSnan (t : TypeCode) (c : Nat) : Bool :=
  match t, ffmt t with
  | .f32, some f => ffmtValue t f c == .nan && c / 2 ^ 22 % 2 == 0
  | .f16, some f => ffmtValue t f c == .nan && c / 2 ^ 9 % 2 == 0
  | .bf16, some f => ffmtValue t f c == .nan && c / 2 ^ 6 % 2 == 0
  | _, _ => false

/-- Canonical NaNs (R201); 0 where the format has none. -/
def nanCode : TypeCode → Nat
  | .f32 => 0x7FC00000 | .f16 => 0x7E00 | .bf16 => 0x7FC0 | .e4m3 => 0x7F | .e5m2 => 0x7E | .lg8 => 0x80 | .lg4 => 8
  | _ => 0

/-- The codes of the largest finite magnitudes (R199, R238). -/
def maxCode : TypeCode → Nat
  | .f32 => 0x7F7FFFFF | .f16 => 0x7BFF | .bf16 => 0x7F7F | .e5m2 => 0x7B | .e4m3 => 0x7E | .e2m1 => 7 | .lg8 => 0x7F
  | .lg4 => 7 | _ => 0

/-- A code with a sign in a format's top bit. -/
def signed (t : TypeCode) (neg : Bool) (c : Nat) : Nat := if neg then c + 2 ^ (elemBits t - 1) else c

/-- The infinity of a format that has one. -/
def infCode (t : TypeCode) (f : FFmt) (neg : Bool) : Nat := signed t neg ((2 ^ f.eb - 1) * 2 ^ f.pb)

/-- The code of integer × 2^e with at most pb + 1 bits, where it is representable. -/
def packCode (t : TypeCode) (f : FFmt) (neg : Bool) (m : Nat) (e : Int) : Nat :=
  if m < 2 ^ f.pb then signed t neg m
  else signed t neg ((e + f.bias + f.pb).toNat * 2 ^ f.pb + (m - 2 ^ f.pb))

/-- A finite value rounded to an IEEE-like format (R214, R235): its code where it does not overflow, inexactness,
overflow, and tininess after rounding. -/
structure FRound where
  code : Nat
  inexact : Bool
  ovf : Bool
  tiny : Bool
  deriving DecidableEq, Repr

def roundFmt (t : TypeCode) (f : FFmt) (md : RMode) (neg : Bool) (m : Nat) (e : Int) : FRound :=
  let r := roundBits md (f.pb + 1) (1 - (f.bias : Int) - f.pb) neg m e
  let u := roundBits md (f.pb + 1) (e + bitLen m - (f.pb + 1)) neg m e
  let tiny := decide (u.2.1 + bitLen u.1 < 2 - (f.bias : Int))
  let ovf := match ffmtValue t f (maxCode t) with
    | .fin _ mm me => decide (scaled false r.1 r.2.1 (min r.2.1 me) > scaled false mm me (min r.2.1 me))
    | _ => false
  ⟨if ovf then 0 else packCode t f neg r.1 r.2.1, r.2.2, ovf, tiny⟩

/-- Whether an overflow in a mode gives an infinity (R238, IEEE 754-2019). -/
def ovfToInf (md : RMode) (neg : Bool) : Bool :=
  match md with
  | .ne => true | .tz => false | .dn => neg | .up => !neg

/-- A finite value rounded to the nearest integer of a mode. -/
def roundInt (md : RMode) (neg : Bool) (m : Nat) (e : Int) : Nat × Bool := roundAt md neg m e 0

/-- Range of an integer destination. -/
def intRange : TypeCode → Int × Int
  | .int8 => (-128, 127) | .int4 => (-8, 7) | .i32 => (-(2 ^ 31), 2 ^ 31 - 1) | _ => (0, 2 ^ 32 - 1)

/-- An integer as an element. -/
def intCode (t : TypeCode) (x : Int) : Nat := (x % 2 ^ elemBits t).toNat

/-- Magnitude codes of an LG format. -/
def lgMax (t : TypeCode) : Nat := if t == .lg8 then 127 else 7

/-- The value of a magnitude code; 0 is zero. -/
def lgMag (t : TypeCode) (m : Nat) : FVal := if m = 0 then .zero false else linLg false (lgE t m)

/-- The largest magnitude code not above a magnitude, found downwards. -/
def lgFloor (t : TypeCode) (x : FVal) : (n : Nat) → Nat
  | 0 => 0
  | n + 1 => if (lgMag t (n + 1)).cmp x ≤ 0 then n + 1 else lgFloor t x n

/-- The magnitude code that a mode chooses for a magnitude that does not exceed the largest (R236). -/
def lgRound (t : TypeCode) (md : RMode) (neg : Bool) (x : FVal) : Nat :=
  let k := lgFloor t x (lgMax t)
  if (lgMag t k).cmp x = 0 then k
  else
    match md with
    | .tz => k
    | .dn => if neg then k + 1 else k
    | .up => if neg then k else k + 1
    | .ne =>
      let c := (x.shift 1).cmp ((lgMag t k).add .ne (lgMag t (k + 1)))
      if c < 0 then k else if c > 0 then k + 1 else if k % 2 = 0 then k else k + 1

/-- A value converted into a format (R235 to R238): its code and flags. `snan` says that the source is a signalling NaN. -/
def convertTo (t : TypeCode) (md : RMode) (satn snan : Bool) (x : FVal) : Nat × Flags :=
  match ffmt t with
  | some f =>
    match x with
    | .nan => if t == .e2m1 then (0, flagCV ||| flagNV) else (nanCode t, flagIf snan flagNV)
    | .zero n => (signed t n 0, 0)
    | .inf n =>
      if t == .f32 then (infCode t f n, 0)
      else if t == .e2m1 || satn then (signed t n (maxCode t), flagCV)
      else if t == .e4m3 then (nanCode t, flagNV)
      else (infCode t f n, 0)
    | .fin n m e =>
      let r := roundFmt t f md n m e
      if !r.ovf then (r.code, flagIf r.inexact flagNX ||| flagIf (r.inexact && r.tiny) flagUF)
      else if t == .e2m1 || (satn && t != .f32) then (signed t n (maxCode t), flagCV ||| flagNX)
      else if ovfToInf md n then (if t == .e4m3 then nanCode t else infCode t f n, flagOF ||| flagNX)
      else (signed t n (maxCode t), flagOF ||| flagNX)
  | none =>
    if t == .lg8 || t == .lg4 then
      match x with
      | .nan => (nanCode t, flagIf snan flagNV)
      | .zero _ => (0, 0)
      | .inf n => (signed t n (maxCode t), flagCV)
      | .fin n m e =>
        let y : FVal := .fin false m e
        if y.cmp (lgMag t (lgMax t)) > 0 then (signed t n (maxCode t), flagCV ||| flagNX)
        else
          let k := lgRound t md n y
          if k = 0 then (0, flagUF ||| flagNX)
          else (signed t n k, flagIf ((lgMag t k).cmp y != 0) flagNX)
    else
      let lim := intRange t
      match x with
      | .nan => (0, flagCV ||| flagNV)
      | .zero _ => (0, 0)
      | .inf n => (intCode t (if n then lim.1 else lim.2), flagCV)
      | .fin n m e =>
        let r := roundInt md n m e
        let y : FVal := .fin false m e
        if n && lim.1 == 0 then (0, if r.1 = 0 then flagNX else flagCV ||| flagNX)
        else if y.cmp (intValue (if n then -lim.1 else lim.2)) > 0 then
          (intCode t (if n then lim.1 else lim.2), flagCV ||| flagNX)
        else (intCode t (if n then -(r.1 : Int) else r.1), flagIf r.2 flagNX)

/-! Elements -/

/-- Element `k` of a lane word (R207). -/
def elemOf (t : TypeCode) (w : Word) (k : Nat) : Nat := w.toNat / 2 ^ (elemBits t * k) % 2 ^ elemBits t

/-- Element `k` of little-endian bytes (R207). -/
def elemAt (t : TypeCode) (bs : List Byte) (k : Nat) : Nat :=
  let b := elemBits t
  leNat ((bs.drop (b * k / 8)).take (if b < 8 then 1 else b / 8)) / 2 ^ (b * k % 8) % 2 ^ b

/-- The exact widening of LDW (R294). -/
def widenCode (src dst : TypeCode) (c : Nat) : Nat := (convertTo dst .ne false false (valueCode src c)).1

/-- A value that a scale byte multiplies (R206, R211). -/
def FVal.scale (x : FVal) (b : Nat) : FVal := if b = 255 then .nan else x.shift ((b : Int) - 127)

end Sys2Proof.Machine
end

