-- ==== Sys2Proof/Machine/Remote.lean ====
section
/-!
DEFINITION. Accesses that are performed one request at a time and what completes them (R93 to R98, R109, R279, R307, R308,
R315 to R317, R322, R372, R513, R604), and the destinations of described loads (R292, R294).
-/
namespace Sys2Proof.Machine

/-- What a request does at a home slice or buffer here (R308, R309, R313, R315, R372): the new state and the answer. `me` is
the part that asks, none for a peer. -/
def State.homeAccess (s : State) (me : Option Nat) (own a : Nat) (leaves : List (Nat × Option DWord)) (k : PeerKind) :
    State × RemoteRep :=
  let line := a / 64
  match k with
  | .load len =>
    let ls := (List.range ((a % 64 + len + 63) / 64)).map fun k => line + k
    if ls.any s.poisoned then (s, .poison)
    else (ls.foldl (fun t l => t.homeRead me l) s, .data (s.bytesAs own a len) (ls.map s.sideAt))
  | .store bs side bad =>
    let s := (s.setDirty own leaves).homeWrites me own a bs (some (side.getD Sides.untyped))
    (if bad then { s with poison := insertNat line s.poison } else s, .ack)
  | .atomic op w b =>
    if s.poisoned line then (s, .poison)
    else
      let n := if w then 8 else 4
      let s := s.setDirty own leaves
      let old := s.word own a w
      (s.homeWrite me own a (natLe n (atomNew op w old b).toNat) (some Sides.untyped), .data (natLe n old.toNat) [])
  | .cas w cmp new =>
    if s.poisoned line then (s, .poison)
    else
      let n := if w then 8 else 4
      let old := s.word own a w
      if old = (if w then cmp else cmp.lo.setWidth 64) then
        ((s.setDirty own leaves).homeWrite me own a (natLe n new.toNat) (some Sides.untyped), .data (natLe n old.toNat) [])
      else (s.homeRead me line, .data (natLe n old.toNat) [])

/-- What an access of a kind asks of its line. -/
def peerAccess : PeerKind → Access
  | .load _ => .read
  | _ => .write

/-- What a peer's request does at its home slice, with what other lanes ask of the same word, in their order; its one answer is the
first lane's (R316, R511, log 96). -/
def State.homeMore (own a : Nat) : List PeerKind → State × RemoteRep → State × RemoteRep
  | [], r => r
  | k :: t, r => State.homeMore own a t ((r.1.homeAccess none own a [] k).1, r.2)

/-- The bytes that an atomic leaves of the bytes that it found (R308, R309). -/
def leftBy (k : PeerKind) (bs : List Byte) : List Byte :=
  let old := BitVec.ofNat 64 (leNat bs)
  match k with
  | .atomic op w b => natLe (if w then 8 else 4) (atomNew op w old b).toNat
  | .cas w cmp new => if old = (if w then cmp else cmp.lo.setWidth 64) then natLe (if w then 8 else 4) new.toNat else bs
  | _ => bs

/-- An answer as the next lane of the same request would have got it: the old value that this access left (R316, log 96). -/
def nextRep (k : PeerKind) : RemoteRep → RemoteRep
  | .data bs x => .data (leftBy k bs) x
  | r => r

/-- What each of some requests made as one gets of their one answer (R316, log 96). -/
def answersOf : List Request → RemoteRep → List (Nat × RemoteRep)
  | [], _ => []
  | q :: t, r => (q.id, r) :: answersOf t (nextRep q.kind r)

/-- A request of a list changed. -/
def State.modReq (s : State) (id : Nat) (f : Request → Request) : State :=
  { s with reqs := s.reqs.map fun q => if q.id = id then f q else q }

def State.req? (s : State) (id : Nat) : Option Request := s.reqs.find? fun q => q.id == id

/-- The requests that are performed as one with a request, itself among them (R277, R316). -/
def State.groupOf (s : State) (q : Request) : List Request := s.reqs.filter fun x => x.group == q.group

/-- All requests of a group changed. -/
def State.modGroup (s : State) (g : Nat) (f : Request → Request) : State :=
  { s with reqs := s.reqs.map fun q => if q.group = g then f q else q }

/-- A request here performed; an error in the payload of one of its flits poisons what it brings, or the line that it writes (R371). -/
def State.performOne (s : State) (q : Request) : State × RemoteRep :=
  let line := q.addr / 64
  let r := s.homeAccess (some q.part) q.own q.addr q.leaves q.kind
  let a := r.1.struck q.part line
  let b := a.2.struck q.id line
  if a.1 || b.1 then
    match q.kind with
    | .store _ _ _ => (b.2.setBad line (64 * line), .ack)
    | _ => (b.2, .poison)
  else (b.2, r.2)

/-- Requests here performed, one behind the other (R278, R316). -/
def State.performHere (s : State) (l : List Request) : State :=
  l.foldl (fun t q =>
    let r := t.performOne q
    r.1.modReq q.id fun q => { q with sent := true, ans := some r.2 }) s

/-- What a combined request's constituents share (R321): word, width, operation, the partition of their containment identifier, and
whether they return a value; none for what is never combined. -/
def State.combineKey (s : State) (id : Nat) : Option (Nat × Bool × AtomOp × Nat × Bool) :=
  match s.req? id with
  | some q =>
    (match q.kind, q.peer with
    | .atomic op w _, none => if combinable op && !q.sent then some (q.addr, w, op, q.own, true) else none
    | _, _ => none)
  | none => (s.stores.find? fun e => e.id == id && e.committed).bind fun e =>
      e.red.bind fun (op, w, a, _) => if combinable op then some (a, w, op, e.own, false) else none

/-- Whether requests may be combined (R321): at most 64 that match. -/
def State.mayCombine (s : State) (l : List Nat) : Bool :=
  decide (l.length ≤ 64) && match l with
    | [] => true
    | i :: _ => (s.combineKey i).isSome && l.all fun j => s.combineKey j == s.combineKey i

/-- An atomic request that waits for its line stands in line at the home slice, combined with those that it may be combined with
(R321, log 74). -/
def State.awaitSlice (s : State) (id : Nat) : State :=
  let names := fun (e : Instr) => match e with | .homeSliceAtomic l => l.contains id | _ => false
  let fits := fun (e : Instr) => match e with | .homeSliceAtomic l => s.mayCombine (l ++ [id]) | _ => false
  if s.agenda.any names then s
  else if s.agenda.any fits then
    { s with agenda := s.agenda.map fun e => match e with
      | .homeSliceAtomic l => if fits e then .homeSliceAtomic (l ++ [id]) else e
      | e => e }
  else s.due [.homeSliceAtomic [id]]

/-- Whether a request writes whatever it finds (R309): a CAS may be a read only. -/
def alwaysWrites : PeerKind → Bool
  | .load _ => false
  | .cas _ _ _ => false
  | _ => true

/-- The dirty bits that requests set before what they write is sent (R274). -/
def State.dirtyFor (s : State) (part : Nat) (l : List Request) : State :=
  l.foldl (fun t q => if alwaysWrites q.kind then t.setDirty part q.leaves else t) s

/-- Whether the answer to a request says that it is a CAS whose compare has held (R309). -/
def Request.held (q : Request) : Bool :=
  match q.kind, q.ans with
  | .cas w cmp _, some (.data bs _) => BitVec.ofNat 64 (leNat bs) == (if w then cmp else cmp.lo.setWidth 64)
  | _, _ => false

/-- The dirty bits of CASes at a peer of which the answers have come: only those that hold have written (R274, R309, log 98). -/
def State.dirtyHeld (s : State) (l : List Request) : State :=
  l.foldl (fun t q => if q.held then t.setDirty ((t.cohort? q.cohort).elim q.own (·.part)) q.leaves else t) s

/-- A request of a part that stands in line, performed or sent, with all of its group (R94, R277, R279, R316, R511,
R604): local ones at once, unless the line waits for a drain; an I/O store is performed when it is sent, and an I/O access
goes to its offset in I/O space (R22). -/
def State.issueReq (s : State) (q : Request) : State :=
  let part := (s.cohort? q.cohort).elim q.own (·.part)
  match q.peer, q.io with
  | some _, _ =>
    let d := s.fabricTime + 1000 * s.rto part
    ((s.dirtyFor part (s.groupOf q)).modGroup q.group fun q => { q with sent := true, deadline := d }).sendRemote
      { q with sent := true, deadline := d }
  | none, true =>
    match q.kind with
    | .store bs _ _ =>
      let s := s.dirtyFor part [q]
      { (s.modReq q.id fun q => { q with sent := true, ans := some .ack }) with out := .ioWrite (q.addr - ioLo) bs :: s.out }
    | .load len =>
      { (s.modReq q.id fun q => { q with sent := true, deadline := s.cycle + 2400 * s.rto part }) with
        out := .ioRead q.id (q.addr - ioLo) len :: s.out }
    | _ => s
  | none, false =>
    if s.blocked (q.addr / 64) (peerAccess q.kind) (some q.part) then
      (match q.kind with
      | .load _ => s
      | .store _ _ _ => s
      | _ => s.awaitSlice q.id)
    else s.performHere (s.groupOf q)

/-- The requests of a part one after another, until one has to wait (R279). -/
def State.advance (s : State) (pid : Nat) : (fuel : Nat) → State
  | 0 => s
  | n + 1 =>
    match (s.partReqs pid).find? fun q => q.ans.isNone with
    | none => s
    | some q =>
      if q.sent then s
      else
        let t := s.issueReq q
        if ((t.req? q.id).bind (·.ans)).isSome then State.advance t pid n else t

/-! Completing -/

/-- A request put among others in order of its bytes' place in their element. -/
def putReq (q : Request) : List Request → List Request
  | [] => [q]
  | p :: t => if q.off ≤ p.off then q :: p :: t else p :: putReq q t

/-- The requests of one lane, in order of their bytes' place in its element. -/
def laneReqs (qs : List Request) (l : Nat) : List Request := (qs.filter fun q => q.lane == l).foldr putReq []

/-- A lane's fault by its answers: refused (R513) or poisoned (R372). -/
def Request.bad (q : Request) : Option Bad :=
  match q.ans with
  | some .refused => some ⟨q.lane, 10, false, q.va, 0, true⟩
  | some .poison => some ⟨q.lane, 0x20, false, q.va, 0, true⟩
  | _ => none

/-- Sidebands that the answers of a described row brought. -/
def Request.side (q : Request) : Side :=
  match q.ans with
  | some (.data _ (x :: _)) => x
  | _ => Sides.untyped

/-- The lines of the rows of LDD and LDW: bytes and sidebands in order of address (R292). -/
structure RowLine where
  va : DWord
  bs : List Byte
  side : Side
  deriving DecidableEq, Repr

/-- The format fault of described rows (R292, R294): the offending line's address and sideband. -/
def rowsFault (want : Option Nat) : List RowLine → Option (DWord × Word)
  | lo :: hi :: t =>
    match rowFault want lo.side hi.side with
    | some 0 => some (lo.va, lo.side.setWidth 32)
    | some _ => some (hi.va, hi.side.setWidth 32)
    | none => rowsFault want t
  | _ => none

/-- LDD's rows written (R292, R293). -/
def View.putRows (v : View) (d : Nat) : List RowLine → View
  | lo :: hi :: t =>
    (v.putRow d (rowTag lo.side hi.side) fun l => if l < 16 then wordAt lo.bs l else wordAt hi.bs (l - 16)).putRows (d + 1) t
  | _ => v

/-- Format codes of LDW's source field (R294). -/
def ldwType : LdwSrc → TypeCode
  | .e4m3 => .e4m3 | .e5m2 => .e5m2 | .e2m1 => .e2m1 | .int8 => .int8 | .int4 => .int4

/-- The registers of one widened row (R294). -/
def View.putWide (v : View) (d : Nat) (t src : TypeCode) (lo hi : RowLine) : View :=
  let g := 16 / elemBits src
  let bs := lo.bs ++ hi.bs
  (List.range g).foldl (fun (w : View) j =>
    let sc := (if j < g / 2 then lo.side else hi.side).toNat / 256
    w.putRow (d + j) (BitVec.ofNat 24 (sc * 65536 + sc * 256 + fmtCode t)) fun l =>
      let e := fun k => widenCode src t (elemAt src bs (64 * j + k))
      BitVec.ofNat 32 (e (2 * l) + 65536 * e (2 * l + 1))) v

def View.putWides (v : View) (d : Nat) (t src : TypeCode) : List RowLine → View
  | lo :: hi :: r => (v.putWide d t src lo hi).putWides (d + 16 / elemBits src) t src r
  | _ => v

/-- All ones in every word of some registers of the part's quads, untyped (R307). -/
def View.putOnes (v : View) (d : Nat) : (n : Nat) → View
  | 0 => v
  | n + 1 => (v.putRow d untypedTag fun _ => 0xFFFFFFFF).putOnes (d + 1) n

/-- How many registers an LDD or LDW writes. -/
def PendOp.regs : PendOp → Nat
  | .ldd _ r => r
  | .ldw _ _ r src => 16 / elemBits (ldwType src) * r
  | _ => 0

/-- What described rows do: the format check, then the registers (R292, R294). -/
def rowsDone (s : State) (x : Ctx) (op : PendOp) (act : Word) (ls : List RowLine) : Done :=
  let want := match op with | .ldw _ _ _ src => some (fmtCode (ldwType src)) | _ => none
  match rowsFault want ls with
  | some (a, sb) => .trap s 13 act a sb false
  | none =>
    let v := match op with
      | .ldd (.v d) _ => x.v.putRows d.val ls
      | .ldw (.v d) t _ src => x.v.putWides d.val t (ldwType src) ls
      | _ => x.v
    .fall (s.putView x.r v) false

/-- The access's requests gone. -/
def State.dropReqs (s : State) (pid : Nat) : State :=
  { s with reqs := s.reqs.filter fun (q : Request) => !(q.copyOp.isNone && q.part == pid) }

/-- How an outcome of an irrevocable access reads: its faults resume at the instruction, and it closes its run (R109, R354). -/
def Done.irrev : Done → Done
  | .trap s c l a i z => .raise s .here c l a i z
  | .fall s _ => .fall s true
  | d => d

/-- A part's access under way completed, if every request has its answer (R97, R276, R289, R292, R294, R315, R354). Each
reduction dropped for poison has its record (R372); of the poison that a fault names, the first. An LDD or LDW of which a
line timed out makes no format check (log 89). -/
def State.complete (s : State) (x : Ctx) (pd : Pend) : Done :=
  let qs := s.partReqs x.v.part.id
  if qs.any (·.ans.isNone) || pd.op == .raw then .stall s .remote
  else
    let s := (s.dropReqs x.v.part.id).modPart x.r fun p => { p with pend := none }
    let x := { x with v := { x.v with part := { x.v.part with pend := none } } }
    let drops := pd.op == .red && qs.any fun q => q.ans == some .poison
    let s := if drops then s.modGang x.r.cohort x.r.gang fun g => { g with psn := true } else s
    let struck := qs.filter fun q => q.ans == some .poison
    let s := (if drops then struck else struck.take 1).foldl
      (fun t q => t.poisonRead x.own x.c.core x.r.cohort x.r.gang (q.addr / 64)) s
    match faultOf pd.uni pd.act (qs.filterMap fun q => if drops && q.ans == some .poison then none else q.bad) with
    | some (c, lanes, a, i, z) => .raise s .here c lanes a i z
    | none =>
      let data := fun n l => answerBytes n (if pd.uni then qs else laneReqs qs l)
      match pd.op with
      | .store => .fall s true
      | .red => .fall s true
      | .ld d t sx => .fall (s.putView x.r (x.v.putLoad pd.uni pd.act d t sx fun l => data (memBytes t) l)) true
      | .atom d w =>
        if d = .zero then .fall s true
        else .fall (s.putView x.r
          (x.v.putLoad pd.uni pd.act d (if w then .b64 else .b32) false fun l => data (if w then 8 else 4) l)) true
      | op =>
        if qs.any (·.tout) then
          match op with
          | .ldd (.v d) _ => .fall (s.putView x.r (x.v.putOnes d.val op.regs)) true
          | .ldw (.v d) _ _ _ => .fall (s.putView x.r (x.v.putOnes d.val op.regs)) true
          | _ => .fall s true
        else
          (rowsDone s x op pd.act (qs.map fun q =>
            ⟨q.va, match q.ans with | some (.data bs _) => bs | _ => [], q.side⟩)).irrev

/-- An access goes on: its requests one after another, then its end. -/
def State.goOn (s : State) (x : Ctx) (pd : Pend) : Done :=
  let s := s.advance x.v.part.id ((s.partReqs x.v.part.id).length + 1)
  match s.ctx? x.v.imm with
  | some y => s.complete y pd
  | none => .placed s

/-- An access becomes one that is performed request by request (R109, R279): its part has settled. -/
def State.startPend (s : State) (x : Ctx) (pd : Pend) (ps : List (Piece × PeerKind)) : Done :=
  let s := { s with reqs := s.reqs ++ requestsOf x s.nextId ps, nextId := s.nextId + ps.length }
  let s := s.modPart x.r fun p => { p with pend := some pd }
  match s.ctx? x.v.imm with
  | some y => s.goOn y pd
  | none => .placed s

/-- What an event that answers a request of a part does next: the access goes on, and its instruction ends if it is
complete (R278, R322). -/
def State.answered (s : State) (r : PartRef) : State :=
  let s0 := { s with cur := some r }
  match s0.ctx? 0 with
  | none => s
  | some x =>
    match x.v.part.pend with
    | none => s
    | some pd =>
      let f : Form := ⟨⟨0, false⟩, pd.len, 0, [], [], .irrevocable, .none⟩
      ({ (State.finish s0 x f true x.v.part.runpos (s0.goOn x pd)) with cur := s.cur } : State).settleDying r.cohort

end Sys2Proof.Machine
end

