-- ==== Sys2Proof/Machine/LdSt.lean ====
section
/-!
DEFINITION. What the LOAD, STORE and LOCAL instructions do (R287 to R296, R301, R302).
-/
namespace Sys2Proof.Machine

/-- Whether some translation names a peer or I/O space, so that the instruction executes as irrevocable, also where it
faults (R93, R354). -/
def Found.remote (f : Found) : Bool := (f.ok.any fun p => p.x.far) || f.bad.any (·.far)

/-- An instruction's accesses (R93, R109, R117, R276, R277, R305): checked first, none performed when one faults; request by
request when one is remote; else as `here` says. -/
def State.access (s : State) (x : Ctx) (act : Word) (z : Space) (h : How) (uni : Bool) (op : PendOp) (len : Nat)
    (es : List Elem) (kind : Piece → PeerKind) (here : State → Ctx → List Piece → Done) : Done :=
  match x.v.part.pend with
  | some pd => s.goOn x pd
  | none =>
    if es.isEmpty then .fall s false
    else
      let r := State.checkElems x z h es s
      let s1 := r.2
      let f := r.1
      if s.lost s1 x.r then .placed (s.forget s1)
      else if f.wait then .stall (s.forget s1) .load
      else if f.remote then
        match s1.settle x.r with
        | none => .stall (s.forget (s1.due [.runCommit x.r])) .commit
        | some s2 =>
          match faultOf uni act f.bad with
          | some (c, lanes, a, i, b) => .raise ((s.madeBy x.r).forget s2) .here c lanes a i b
          | none => s2.startPend (s2.fresh x) ⟨op, len, uni, act⟩ (f.ok.map fun p => (p, kind p))
      else
        match faultOf uni act f.bad with
        | some (c, lanes, a, i, b) => .trap (s.forget s1) c lanes a i b
        | none => (here s1 (s1.fresh x) f.ok).forget s

/-- The number of a buffer in an error record (R373). -/
def Space.structure : Space → Nat
  | .sp => 4 | .wb => 5 | .ab => 6 | .glob => 0

/-- Pieces that a part reads here (R105, R276, R281, R283, R284, R319, R371, R372): they wait, consume poison, or are read.
DESIGN CHOICE: an access that meets several poisoned lines has one record, for the first (log 106).
`fin` gets the bytes of each piece as they stand and the state after the reads. -/
def readHere (z : Space) (uni : Bool) (act : Word) (fin : State → Ctx → (Piece → List Byte) → Done) :
    State → Ctx → List Piece → Done := fun s x ps =>
  let red := ps.any fun p => s.ownRed x.v.part.id (p.x.addr / 64)
  if red || ps.any fun p => s.blocked (p.x.addr / 64) .read (some x.v.part.id) then s.waitLine x (ps.any fun p => s.runRed x (p.x.addr / 64))
  else
    let hit := ps.filter fun p => s.reaches x.v.part.id p.x.addr p.len
    match s.bufPoison.find? fun b => hit.any fun p => p.x.addr / 64 == b.1 with
    | some b =>
      .stall { s with agenda := .uncorrectableError (.cohort x.r.cohort z.structure b.2) :: s.agenda } .load
    | none =>
      let k := s.flitHit x z (hit.map fun p => p.x.addr / 64)
      let bad := fun l => k.1 == some l || s.poisoned l
      match faultOf uni act ((hit.filter fun p => bad (p.x.addr / 64)).map fun p => ⟨p.lane, 0x20, false, p.va, 0, false⟩) with
      | some (c, lanes, a, i, b) =>
        .trap (((hit.map fun p => p.x.addr / 64).find? bad).elim k.2 (k.2.poisonRead x.own x.c.core x.r.cohort x.r.gang)) c lanes a i b
      | none =>
        let s' := ps.foldl (fun t p => t.readLine x p.x.addr p.len) s
        fin s' (s'.fresh x) fun p => s.readOwn x.own x.v.part.id p.x.addr p.len

/-- The bytes of a lane's element from its pieces. -/
def elemBytes (ps : List Piece) (rd : Piece → List Byte) (uni : Bool) (l : Nat) : List Byte :=
  (ps.filter fun p => uni || p.lane == l).flatMap rd

/-- LD, LDS, LDA and LDWB (R289, R296). -/
def loadSem (z : Space) (p : Pred) (t : TypeCode) (sx : Bool) (d a : Opnd) (len : Nat) : Sem := fun s x =>
  let uni := oneAccess [a, d]
  let act := x.v.act p
  let es := (x.v.accLanes p [a, d]).map fun l => (⟨l, x.v.addrIn z a l, memBytes t⟩ : Elem)
  s.access x act z howLoad uni (.ld d t sx) len es (fun q => .load q.len) fun s x ps =>
    readHere z uni act (fun s x rd => .fall (s.putView x.r (x.v.putLoad uni act d t sx (elemBytes ps rd uni))) false) s x ps

/-- The lines of `r` rows at an address (R292). -/
def rowElems (l : Nat) (e : DWord) (r : Nat) : List Elem :=
  (List.range (2 * r)).map fun k => ⟨l, (e + BitVec.ofNat 64 (64 * k)).toNat, 64⟩

/-- Accesses of whole gang rows (R288): one for the part. -/
def View.rowsAt (v : View) (p : Pred) (a : Opnd) (r : Nat) : List Elem :=
  if p.always || v.act p != 0 then rowElems (4 * lowQuad v.part.quads) (v.effAddr a 0) r else []

/-- LDD and LDW (R292, R294). -/
def rowLoadSem (p : Pred) (a : Opnd) (rows : Nat) (op : PendOp) (len : Nat) : Sem := fun s x =>
  let act := x.v.act p
  s.access x act .glob ⟨.load, false, false, 64, 10, true⟩ true op len (x.v.rowsAt p a rows) (fun q => .load q.len)
    fun s x ps => readHere .glob true act (fun s' x' rd =>
      rowsDone s' x' op act (ps.map fun q => ⟨q.va, rd q, s.sideOwn x.v.part.id (q.x.addr / 64)⟩)) s x ps

/-- The bytes that a store of a type takes from its data (R290). -/
def View.storeBytes (v : View) (t : TypeCode) (b : Opnd) (l : Nat) : List Byte :=
  ((List.range t.regs).flatMap fun k => natLe 4 (v.rd32 (b.plus k) l).toNat).take (memBytes t)

/-- Pieces stored here (R282, R279): into entries, or directly once nothing of the part or another part is in the way. -/
def storeHere (bytes : Piece → List Byte) (side : Piece → Side) : State → Ctx → List Piece → Done := fun s x ps =>
  if x.v.part.direct && (!(s.entriesOf x.v.part.id).isEmpty ||
      ps.any fun p => s.blocked (p.x.addr / 64) .write (some x.v.part.id)) then .stall s .load
  else .fall (ps.foldl (fun t p => t.storePiece x p (bytes p) (side p)) s) false

/-- ST, STS and STA (R290, R296). -/
def storeSem (z : Space) (p : Pred) (t : TypeCode) (a b : Opnd) (len : Nat) : Sem := fun s x =>
  let es := (x.v.accLanes p [a, b]).map fun l => (⟨l, x.v.addrIn z a l, memBytes t⟩ : Elem)
  let bytes := fun (q : Piece) => ((x.v.storeBytes t b q.lane).drop q.off).take q.len
  s.access x (x.v.act p) z howStore (oneAccess [a, b]) .store len es
    (fun q => .store (bytes q) (some Sides.untyped) false) (storeHere bytes fun _ => Sides.untyped)

/-- Line `k` of the rows that STD stores: lanes of other parts' quads supply zeros (R293, R295). -/
def View.rowBytes (v : View) (b : Nat) (k : Nat) : List Byte :=
  (List.range 16).flatMap fun i =>
    let l := 16 * (k % 2) + i
    natLe 4 (if (quadLanes v.part.quads).getLsbD l then Row.lane (v.vreg (b + k / 2)).row l else 0).toNat

/-- The sideband of such a line: SLO or SHI, and FMT (R295). -/
def View.rowSide (v : View) (b : Nat) (k : Nat) : Side :=
  let t := (v.vreg (b + k / 2)).tag.toNat
  BitVec.ofNat 16 ((if k % 2 = 0 then t / 256 % 256 else t / 65536) * 256 + t % 256)

/-- STD (R295). -/
def stdSem (p : Pred) (a b : Opnd) (rows : Nat) (len : Nat) : Sem := fun s x =>
  let n := match b with | .v n => n.val | _ => 0
  let e := x.v.effAddr a 0
  let k := fun (q : Piece) => (q.va - e).toNat / 64
  s.access x (x.v.act p) .glob ⟨.store, false, false, 64, 10, true⟩ true .store len (x.v.rowsAt p a rows)
    (fun q => .store (x.v.rowBytes n (k q)) (some (x.v.rowSide n (k q))) false)
    (storeHere (fun q => x.v.rowBytes n (k q)) fun q => x.v.rowSide n (k q))

/-- Whether a TLB that serves a core holds a translation (R273). -/
def State.tlbHit (s : State) (core part gslot : Nat) (va : DWord) : Bool :=
  (s.partition? part).elim true fun p =>
    let v := va.toNat % 2 ^ 57
    s.tlb.any fun e => e.hits core p.num p.vf (p.asid gslot) v || e.hits (192 + core / 4) p.num p.vf (p.asid gslot) v

/-- A walk queued for a PREF (R273, R291): dropped when the walker has none free. -/
def State.queueWalk (s : State) (x : Ctx) (va : DWord) : State :=
  let sec := x.c.core / 4
  if !canonical va || 2 ≤ x.v.part.ring.num || s.tlbHit x.c.core x.c.part x.c.gslot va
      || 64 ≤ (s.walks.filter fun w => w.sec == sec).length then s
  else
    ({ s with walks := s.walks ++ [(⟨sec, x.c.core, x.c.part, x.c.gslot, x.v.part.ring, va, false⟩ : WalkReq)] } : State).due [.pageWalk sec]

/-- PREF (R92, R291): no access; a translation that is missing is walked. -/
def prefSem (p : Pred) (a : Opnd) : Sem := fun s x =>
  .fall ((x.v.accLanes p [a]).foldl (fun t l => t.queueWalk x (x.v.effAddr a l)) s) false

end Sys2Proof.Machine
end

