-- ==== Sys2Proof/Machine/AtomOps.lean ====
section
/-!
DEFINITION. What the ATOM and MONITOR instructions do (R308 to R320, R324 to R330, R332, R334, R335).
-/
namespace Sys2Proof.Machine

/-! Ownership -/

/-- What an entry asks of its line (R283, R318). -/
def StoreEntry.asks (e : StoreEntry) : Access :=
  match e.red with
  | some (op, w, _, _) => .reduce op w
  | none => .write

/-- An entry's ownership request at the home slice or in the core (R105, R283, R318): others that it strikes roll back; it
waits for entries that must drain first. True when ownership is granted. -/
def State.requestOwn (s : State) (id : Nat) : Bool × State :=
  match s.stores.find? fun e => e.id == id with
  | none => (false, s)
  | some e =>
    if s.blocked e.line e.asks (some e.part) then (false, s)
    else (true, s.strike e.line e.asks (some e.part))

/-- Ownership reaches an entry (R283). -/
def State.grantOwn (s : State) (id : Nat) : State :=
  { s with stores := s.stores.map fun (e : StoreEntry) => if e.id = id then { e with owned := true } else e }

/-! Atomics -/

/-- A W-bit operand in a lane (R311). -/
def View.rdW (v : View) (w64 : Bool) (o : Opnd) (l : Nat) : DWord :=
  if w64 then v.rd64 true o l else (v.rd32 o l).setWidth 64

def widthOf (w64 : Bool) : Nat := if w64 then 8 else 4

/-- Lanes of one instruction that name the same word follow one another, in lane order (R316). -/
def groupWords : List Piece → List Piece
  | [] => []
  | p :: t => (p :: t.filter fun q => q.x.addr == p.x.addr && q.x.peer == p.x.peer) ++
      (t.filter fun q => !(q.x.addr == p.x.addr && q.x.peer == p.x.peer))

/-- All groups, the first one first. -/
def groupAll : (n : Nat) → List Piece → List Piece
  | 0, ps => ps
  | n + 1, ps =>
    match groupWords ps with
    | [] => []
    | p :: t => p :: groupAll n t

/-- A reduction put into an entry of its own, or performed at once where the part performs its accesses one by one
(R318, R319). DESIGN CHOICE: lanes of one instruction have an entry each, also where they name one word or line (log 90). -/
def State.reducePiece (s : State) (x : Ctx) (op : AtomOp) (w64 : Bool) (p : Piece) (b : DWord) : State :=
  if x.v.part.direct then
    (s.setDirty x.c.part p.x.leaves).reduce State.clearLine x.v.part.id x.own x.r.cohort x.r.gang op w64 p.x.addr b
  else s.addEntry (s.newEntry x (p.x.addr / 64) (some (op, w64, p.x.addr, b)) p.x.leaves)

/-- Reductions here (R318, R319). -/
def reduceHere (op : AtomOp) (w64 : Bool) (b : Nat → DWord) : State → Ctx → List Piece → Done := fun s x ps =>
  if x.v.part.direct && (!(s.entriesOf x.v.part.id).isEmpty ||
      ps.any fun p => s.blocked (p.x.addr / 64) .write (some x.v.part.id)) then .stall s .load
  else .fall (ps.foldl (fun t p => t.reducePiece x op w64 p (b p.lane)) s) false

/-- How atomics are checked (R310). -/
def howAtom (w64 : Bool) : How := ⟨.store, true, false, widthOf w64, 11, false⟩

/-- Atomics that answer: request by request, the lanes of one word together (R316, R317). -/
def atomHere (act : Word) (uni : Bool) (d : Opnd) (w64 : Bool) (len : Nat) (kind : Piece → PeerKind) :
    State → Ctx → List Piece → Done := fun s x ps =>
  s.startPend x ⟨.atom d w64, len, uni, act⟩ ((groupAll ps.length ps).map fun p => (p, kind p))

/-- ATOM (R315 to R319, R332). -/
def atomSem (p : Pred) (op : AtomOp) (nr w64 : Bool) (d a b : Opnd) (len : Nat) : Sem := fun s x =>
  let os := if d == .zero then [a, b] else [a, b, d]
  let uni := oneAccess os
  let act := x.v.act p
  let es := (x.v.atomLanes p os).map fun l => (⟨l, x.v.addrIn .glob a l, widthOf w64⟩ : Elem)
  let val := fun l => x.v.rdW w64 b l
  let kind := fun (q : Piece) => PeerKind.atomic op w64 (val q.lane)
  s.access x act .glob (howAtom w64) uni (if nr then .red else .atom d w64) len es kind
    (if nr then reduceHere op w64 val else atomHere act uni d w64 len kind)

/-- CAS (R315 to R317, R332). -/
def casSem (p : Pred) (w64 : Bool) (d a b c : Opnd) (len : Nat) : Sem := fun s x =>
  let os := if d == .zero then [a, b, c] else [a, b, c, d]
  let uni := oneAccess os
  let act := x.v.act p
  let es := (x.v.atomLanes p os).map fun l => (⟨l, x.v.addrIn .glob a l, widthOf w64⟩ : Elem)
  let kind := fun (q : Piece) => PeerKind.cas w64 (x.v.rdW w64 b q.lane) (x.v.rdW w64 c q.lane)
  s.access x act .glob (howAtom w64) uni (.atom d w64) len es kind (atomHere act uni d w64 len kind)

/-! ATOMS and CASS -/

/-- The part's entry for a granule, made if it has none, with its ownership asked for (R320). -/
def State.ownGranule (s : State) (x : Ctx) (line : Nat) : State :=
  let (id, s) := match s.openEntry x line with
    | some e => (e.id, s)
    | none =>
      let e := s.newEntry x line none []
      (e.id, { s with nextId := s.nextId + 1, stores := s.stores ++ [e] })
  if (s.stores.find? fun e => e.id == id).any (·.owned) then s
  else
    let r := s.requestOwn id
    if r.1 then r.2.grantOwn id else r.2.due [.ownershipRequest id]

/-- Whether the part's open entry of a granule holds it. -/
def State.ownsGranule (s : State) (x : Ctx) (line : Nat) : Bool := (s.openEntry x line).any (·.owned)

/-- One lane of ATOMS or CASS: the word as its part reads it, and the new value written into its entry, or directly (R320).
`new` is none for a CASS that fails. -/
def State.spAtom (s : State) (x : Ctx) (w64 : Bool) (p : Piece) (new : DWord → Option DWord) : DWord × State :=
  let n := widthOf w64
  let old : DWord := BitVec.ofNat 64 (leNat (s.readOwn x.own x.v.part.id p.x.addr n))
  let s := s.readLine x p.x.addr n
  match new old with
  | none => (old, s)
  | some v => (old, s.storePiece x p (natLe n v.toNat) Sides.untyped)

/-- The lanes of ATOMS or CASS one after another: the old values. -/
def State.spAtoms (x : Ctx) (w64 : Bool) (new : Nat → DWord → Option DWord) :
    List Piece → State → List (Nat × DWord) × State
  | [], s => ([], s)
  | p :: t, s =>
    let r := s.spAtom x w64 p (new p.lane)
    let q := State.spAtoms x w64 new t r.2
    ((p.lane, r.1) :: q.1, q.2)

/-- Granules in which some lane of ATOMS or CASS writes: a CASS that fails is a read only (R309). -/
def State.spWrites (x : Ctx) (w64 : Bool) (new : Nat → DWord → Option DWord) : List Piece → State → List Nat
  | [], _ => []
  | p :: t, s =>
    let r := s.spAtom x w64 p (new p.lane)
    (if (new p.lane r.1).isSome then [p.x.addr / 64] else []) ++ State.spWrites x w64 new t r.2

/-- ATOMS and CASS in their granules (R309, R320): once no entry of another part is to drain there, the part obtains those that it
writes, for which it has found out what its compares give; in the others it only reads. -/
def spAtomHere (act : Word) (uni : Bool) (d : Opnd) (w64 : Bool) (new : Nat → DWord → Option DWord) :
    State → Ctx → List Piece → Done := fun s x ps =>
  let lines := ps.map fun p => p.x.addr / 64
  if (x.v.part.direct && !(s.entriesOf x.v.part.id).isEmpty) || lines.any fun l => s.blocked l .write (some x.v.part.id) then .stall s .load
  else
    let need := State.spWrites x w64 new ps s
    let s := if x.v.part.direct then s else need.foldl (fun t l => t.ownGranule x l) s
    let x := s.fresh x
    if s.overfull x then .fall s false
    else if !x.v.part.direct && need.any fun l => !s.ownsGranule x l then .stall s .load
    else
      match s.bufPoison.find? fun b => lines.contains b.1 with
      | some b => .stall { s with agenda := .uncorrectableError (.cohort x.r.cohort 4 b.2) :: s.agenda } .load
      | none =>
        let r := State.spAtoms x w64 new ps s
        let x := r.2.fresh x
        if d == .zero then .fall r.2 false
        else
          let val := fun l => ((r.1.find? fun q => uni || q.1 == l).map (·.2)).getD 0
          .fall (r.2.putView x.r
            (x.v.putLoad uni act d (if w64 then .b64 else .b32) false fun l => natLe 8 (val l).toNat)) false

/-- ATOMS (R315, R320). -/
def atomsSem (p : Pred) (op : AtomOp) (w64 : Bool) (d a b : Opnd) (len : Nat) : Sem := fun s x =>
  let os := if d == .zero then [a, b] else [a, b, d]
  let uni := oneAccess os
  let act := x.v.act p
  let es := (x.v.accLanes p os).map fun l => (⟨l, x.v.addrIn .sp a l, widthOf w64⟩ : Elem)
  s.access x act .sp (howAtom w64) uni .store len es (fun _ => .load 0)
    (spAtomHere act uni d w64 fun l old => some (atomNew op w64 old (x.v.rdW w64 b l)))

/-- CASS (R315, R320). -/
def cassSem (p : Pred) (w64 : Bool) (d a b c : Opnd) (len : Nat) : Sem := fun s x =>
  let os := if d == .zero then [a, b, c] else [a, b, c, d]
  let uni := oneAccess os
  let act := x.v.act p
  let es := (x.v.accLanes p os).map fun l => (⟨l, x.v.addrIn .sp a l, widthOf w64⟩ : Elem)
  s.access x act .sp (howAtom w64) uni .store len es (fun _ => .load 0)
    (spAtomHere act uni d w64 fun l old => if old = x.v.rdW w64 b l then some (x.v.rdW w64 c l) else none)

/-! Monitors -/

/-- The home slice of a storage address (R20). -/
def State.homeSlice (s : State) (a : Nat) : Nat :=
  let range (o : Nat) := o / 64 / 8 % 192
  if isHbm a then
    let L := a / 64
    let stack := Nat.xor (Nat.xor (L % 8) (L / 256 % 8)) (L / 65536 % 8)
    48 * (stack / 2) + L / 8 % 48
  else if isFar a then range (a - farLo)
  else range (a - hostLo)

/-- Whether a slice has a monitor entry free (R325). -/
def State.monitorFree (s : State) (a : Nat) : Bool :=
  (s.monitors.filter fun m => s.homeSlice m.addr == s.homeSlice a).length < 256

/-- How a WAITC or ARMC is checked (R327). -/
def howMon (n : Nat) : How := ⟨.load, false, true, n, 11, false⟩

/-- A lane of WAITC at its word (R326, R335): satisfied at once, registered, sharing an entry with lanes that wait for the
same, or given retry. -/
def State.waitLane (s : State) (x : Ctx) (cond : Cond) (t : TypeCode) (l a : Nat) (b : DWord) : LaneWait × State :=
  let v := s.word x.own a t.wide
  let b := if t.wide then b else b.lo.setWidth 64
  let m : Monitor := ⟨s.nextId, x.own, a, t.wide, cond, t.signed, b, x.r.cohort, x.r.gang, some x.v.part.id, lbit l⟩
  if m.holds v then (.satisfied v, s)
  else
    match s.monitors.find? fun e => e.part == m.part && e.own == m.own && e.addr == a && e.w64 == m.w64 && e.cond == cond && e.signed == m.signed
        && e.value == b with
    | some e =>
      (.waiting, { s with monitors := s.monitors.map fun f => if f.id = e.id then { f with lanes := f.lanes ||| lbit l } else f })
    | none =>
      if s.monitorFree a then (.waiting, { s with monitors := s.monitors ++ [m], nextId := s.nextId + 1 })
      else (.retry v, s)

def State.waitLanes (x : Ctx) (cond : Cond) (t : TypeCode) (b : Nat → DWord) :
    List Piece → State → List (Nat × LaneWait) × State
  | [], s => ([], s)
  | p :: r, s =>
    let q := s.waitLane x cond t p.lane p.x.addr (b p.lane)
    let u := State.waitLanes x cond t b r q.2
    ((p.lane, q.1) :: u.1, u.2)

/-- What WAITC writes when no lane waits (R326): the values, and the status of each lane. -/
def View.waitc (v : View) (act : Word) (uni : Bool) (t : TypeCode) (d c : Opnd) (ls : List (Nat × LaneWait)) : View :=
  let st := fun l => ((ls.find? fun q => uni || q.1 == l).map (·.2)).getD .waiting
  let val := fun l => match st l with | .satisfied v => v | .retry v => v | .waiting => 0
  let w := if d == .zero then v else v.putLoad uni act d (if t.wide then .b64 else .b32) false fun l => natLe 8 (val l).toNat
  w.setBits c act fun l => match st l with | .satisfied _ => true | _ => false

def waitcDone (s : State) (x : Ctx) (act : Word) (uni : Bool) (t : TypeCode) (d c : Opnd) (ls : List (Nat × LaneWait)) : Done :=
  .fall (s.putView x.r (x.v.waitc act uni t d c ls)) true

/-- The check that every monitored word can be read now: no drain is due before, no poison (R283, R372). -/
def State.monReady (s : State) (x : Ctx) (act : Word) (uni : Bool) (ps : List Piece) : Except Done State :=
  if ps.any fun p => s.blocked (p.x.addr / 64) .read (some x.v.part.id) then .error (.stall s .load)
  else
    match faultOf uni act ((ps.filter fun p => s.poisoned (p.x.addr / 64)).map fun p => ⟨p.lane, 0x20, false, p.va, 0, false⟩) with
    | some (c, lanes, a, i, b) => .error (.trap (s.sawPoison x (ps.map fun p => p.x.addr / 64)) c lanes a i b)
    | none => .ok (ps.foldl (fun t p => t.homeRead (some x.v.part.id) (p.x.addr / 64)) s)

/-- WAITC (R326, R327). -/
def waitcSem (p : Pred) (cond : Cond) (t : TypeCode) (d a b c : Opnd) : Sem := fun s x =>
  let os := if d == .zero then [a, b] else [a, b, d]
  let uni := oneAccess os
  let act := x.v.act p
  match s.waitcs.find? fun (w : WaitcRec) => w.part == x.v.part.id with
  | some w =>
    if w.lanes.any fun q => q.2 == .waiting then .stall s (.waitc [])
    else waitcDone { s with waitcs := s.waitcs.filter fun (w : WaitcRec) => w.part != x.v.part.id } x act uni t d c w.lanes
  | none =>
    let es := (x.v.accLanes p os).map fun l => (⟨l, x.v.addrIn .glob a l, if t.wide then 8 else 4⟩ : Elem)
    s.access x act .glob (howMon (if t.wide then 8 else 4)) uni .store 0 es (fun _ => .load 0) fun s x ps =>
      match s.monReady x act uni ps with
      | .error e => e
      | .ok s =>
        let x := s.fresh x
        let r := State.waitLanes x cond t (fun l => x.v.rdT t b l) ps s
        if r.1.any fun q => q.2 == .waiting then
          .stall { r.2 with waitcs := r.2.waitcs ++ [⟨x.v.part.id, r.1⟩] } (.waitc [])
        else waitcDone r.2 x act uni t d c r.1

/-- The entry of a gang's arm released (R329). -/
def State.disarm (s : State) (co g : Nat) : State :=
  let s := match s.gang? co g with
    | some y => (match y.arm with
      | .armed e => { s with monitors := s.monitors.filter fun m => m.id != e }
      | _ => s)
    | none => s
  s.modGang co g fun g => { g with arm := .idle }

/-- A gang's arm set on a word (R326, R329): fired at once, armed, or given retry. -/
def State.arm (s : State) (x : Ctx) (cond : Cond) (t : TypeCode) (b : DWord) (a : Nat) : State :=
  let s := s.disarm x.r.cohort x.r.gang
  let v := s.word x.own a t.wide
  let m : Monitor := ⟨s.nextId, x.own, a, t.wide, cond, t.signed, if t.wide then b else b.lo.setWidth 64, x.r.cohort, x.r.gang, none, 0⟩
  let (arm, s) :=
    if m.holds v then (Arm.fired v, s)
    else if s.monitorFree a then (Arm.armed m.id, { s with monitors := s.monitors ++ [m], nextId := s.nextId + 1 })
    else (Arm.retry, s)
  s.modGang x.r.cohort x.r.gang fun g => { g with arm := arm }

/-- ARMC (R327, R329). -/
def armcSem (p : Pred) (cond : Cond) (t : TypeCode) (d a b : Opnd) : Sem := fun s x =>
  let act := x.v.act p
  let n := if t.wide then 8 else 4
  let es := (x.v.accLanes p [a, b]).map fun l => (⟨l, x.v.addrIn .glob a l, n⟩ : Elem)
  s.access x act .glob (howMon n) true .store 0 es (fun _ => .load 0) fun s x ps =>
    match s.monReady x act true ps, ps with
    | .error e, _ => e
    | .ok s, q :: _ =>
      let s := s.arm x cond t (x.v.rdT t b 0) q.x.addr
      let v := s.word x.own q.x.addr t.wide
      let x := s.fresh x
      .fall (s.putView x.r (if t.wide then x.v.wrUniform64 p d v else x.v.wrUniform p d v.lo)) true
    | .ok s, [] => .fall s true

/-- The number of an arm's state (R329, R330). -/
def Arm.num : Arm → Word
  | .idle => 0 | .armed _ => 1 | .fired _ => 2 | .retry => 3

/-- CHECKC (R330). -/
def checkcOp (p : Pred) (d : Opnd) (v : View) : View := v.wrUniform p d v.gang.arm.num

end Sys2Proof.Machine
end

