-- ==== Sys2Proof/Machine/Atom.lean ====
section
/-!
DEFINITION. The ATOM instructions (R308 to R320).
-/
namespace Sys2Proof.Machine

/-- ATOM_L (R315). -/
def execAtomL (p : Pred) (op : AtomOp) (nr : Bool) (w64 : Bool) (d a b : Opnd) (s : State) : Out :=
  issue ⟨p, 2, 0, [(d, (if w64 then 2 else 1)), (a, 2), (b, (if w64 then 2 else 1))], [(a, 2), (b, (if w64 then 2 else 1))], (if nr then .plain else .irrevocable), .none⟩ 0
    (atomSem p op nr w64 d a b 2) s

/-- ATOM_X (R315). -/
def execAtomX (p : Pred) (op : AtomOp) (nr : Bool) (w64 : Bool) (d a b : Opnd) (imm : Word) (s : State) : Out :=
  issue ⟨p, 3, 0, [(d, (if w64 then 2 else 1)), (a, 2), (b, (if w64 then 2 else 1))], [(a, 2), (b, (if w64 then 2 else 1))], (if nr then .plain else .irrevocable), .none⟩ imm
    (atomSem p op nr w64 d a b 3) s

/-- CAS_L (R315). -/
def execCasL (p : Pred) (w64 : Bool) (d a b c : Opnd) (s : State) : Out :=
  issue ⟨p, 2, 0, [(d, (if w64 then 2 else 1)), (a, 2), (b, (if w64 then 2 else 1)), (c, (if w64 then 2 else 1))], [(a, 2), (b, (if w64 then 2 else 1)), (c, (if w64 then 2 else 1))], .irrevocable, .none⟩ 0
    (casSem p w64 d a b c 2) s

/-- CAS_X (R315). -/
def execCasX (p : Pred) (w64 : Bool) (d a b c : Opnd) (imm : Word) (s : State) : Out :=
  issue ⟨p, 3, 0, [(d, (if w64 then 2 else 1)), (a, 2), (b, (if w64 then 2 else 1)), (c, (if w64 then 2 else 1))], [(a, 2), (b, (if w64 then 2 else 1)), (c, (if w64 then 2 else 1))], .irrevocable, .none⟩ imm
    (casSem p w64 d a b c 3) s

/-- ATOMS_L (R320). -/
def execAtomsL (p : Pred) (op : AtomOp) (nr : Bool) (w64 : Bool) (d a b : Opnd) (s : State) : Out :=
  issue ⟨p, 2, 0, [(d, (if w64 then 2 else 1)), (a, 1), (b, (if w64 then 2 else 1))], [(a, 1), (b, (if w64 then 2 else 1))], .plain, .none⟩ 0
    (atomsSem p op w64 d a b 2) s

/-- ATOMS_X (R320). -/
def execAtomsX (p : Pred) (op : AtomOp) (nr : Bool) (w64 : Bool) (d a b : Opnd) (imm : Word) (s : State) : Out :=
  issue ⟨p, 3, 0, [(d, (if w64 then 2 else 1)), (a, 1), (b, (if w64 then 2 else 1))], [(a, 1), (b, (if w64 then 2 else 1))], .plain, .none⟩ imm
    (atomsSem p op w64 d a b 3) s

/-- CASS_L (R320). -/
def execCassL (p : Pred) (w64 : Bool) (d a b c : Opnd) (s : State) : Out :=
  issue ⟨p, 2, 0, [(d, (if w64 then 2 else 1)), (a, 1), (b, (if w64 then 2 else 1)), (c, (if w64 then 2 else 1))], [(a, 1), (b, (if w64 then 2 else 1)), (c, (if w64 then 2 else 1))], .plain, .none⟩ 0
    (cassSem p w64 d a b c 2) s

/-- CASS_X (R320). -/
def execCassX (p : Pred) (w64 : Bool) (d a b c : Opnd) (imm : Word) (s : State) : Out :=
  issue ⟨p, 3, 0, [(d, (if w64 then 2 else 1)), (a, 1), (b, (if w64 then 2 else 1)), (c, (if w64 then 2 else 1))], [(a, 1), (b, (if w64 then 2 else 1)), (c, (if w64 then 2 else 1))], .plain, .none⟩ imm
    (cassSem p w64 d a b c 3) s

end Sys2Proof.Machine
end

