-- ==== Sys2Proof/Machine/Seq.lean ====
section
/-!
DEFINITION. What the sequencer's instructions do (R126 to R129, R138 to R142, R146 to R159).
-/
namespace Sys2Proof.Machine

/-- NOP (R146). -/
def nopSem : Sem := fun s _ => .fall s false

/-- YIELD (R146): the part gives way for the next choice. -/
def yieldSem : Sem := fun s x => .fall (s.modPart x.r fun p => { p with yielded := true }) true

/-- The part's quads that vote in the mask that PRED selects. -/
def View.votes (v : View) (p : Pred) : QMask :=
  (quadList v.part.quads).foldl (fun m q => if quadIn (v.part.predMask p) q then m ||| qbit q else m) 0

/-- EXIT (R147): the voting quads finish when the run commits. -/
def exitSem (p : Pred) : Sem := fun s x =>
  .fall (s.modPart x.r fun q => { q with runs := modLast (fun r => { r with finishing := x.v.votes p }) q.runs }) true

/-- ELECT (R148). -/
def electOp (p : Pred) (d : Opnd) (v : View) : View :=
  let act := v.act p
  match d with
  | .p n => v.setPreg n.val (if act = 0 then 0 else lbit (lowLane act))
  | .s n => v.setSreg n.val (if act = 0 then 0xFFFFFFFF else BitVec.ofNat 32 (lowLane act))
  | _ => v

/-- GETID (R149, R570). -/
def getidVal (s : State) (x : Ctx) (i : IdCode) : Nat :=
  let core := s.coreSeen x.c.part x.c.core
  match i with
  | .core => core
  | .subcore => x.v.gang.sub
  | .sect => core / 4
  | .slot => x.c.slot.getD 0
  | .gangs => x.c.gangs.length
  | .package => s.pkg.number
  | .ring => x.v.part.ring.num

def getidSem (p : Pred) (d : Opnd) (i : IdCode) : Sem := fun s x =>
  .fall (s.putView x.r (x.v.wrUniform p d (BitVec.ofNat 32 (getidVal s x i)))) false

/-- TIME (R150): the cycle count plus the tenant's offset, modulo 2^64. -/
def timeVal (s : State) (part : Nat) : DWord :=
  BitVec.ofNat 64 s.cycle + (s.partition? part).elim 0 (·.toff)

def timeSem (p : Pred) (d : Opnd) : Sem := fun s x =>
  .fall (s.putView x.r (x.v.wrUniform64 p d (timeVal s x.c.part))) false

/-- Transfer (R126, R151): `vs` are the quads that take it, `t` the target, which is direct or indirect, `w` what the transfer itself
writes; `entry0` asks for parcel 0 (R41) before the checks of R40 are made (log 69). -/
def transfer (p : Pred) (len : Nat) (vs : QMask) (t : DWord) (entry0 indirect : Bool) (w : View → View) : Sem := fun s x =>
  if vs = 0 then .fall s false
  else if entry0 && t.toNat % 128 != 8 then .trap s 3 (x.v.act p) t 0 false
  else
    let k := s.checkTarget x.c.core x.c.part x.c.gslot x.v.part.ring t true indirect
    if s.lost k.2 x.r then .placed k.2
    else
      match k.1 with
      | .fault e => .trap k.2 e.code (x.v.act p) t 0 e.s2
      | .wait => .stall k.2 .load
      | .ok h =>
        let s1 := k.2.putView x.r (w (k.2.fresh x).v)
        if vs = x.v.part.quads then .goto s1 t h
        else .placed ((s1.modPart x.r fun q =>
          { q.counted true with wait := .split vs t h, pc := nextPc q.header q.pc len }).due [.runCommit x.r, .partSplit x.r])

/-- BRA (R151). -/
def braSem (p : Pred) : Sem := fun s x => transfer p 3 (x.v.votes p) (directTarget x.v.part.pc x.v.imm) false false id s x

/-- Quads that take a BRC (R151). -/
def brcVotes (v : View) (p : Pred) (a : Opnd) (all neg : Bool) : QMask :=
  let c := if neg then ~~~(v.rd32 a 0) else v.rd32 a 0
  let act := v.act p
  (quadList v.part.quads).foldl (fun m q =>
    let e := act &&& quadLanes (qbit q)
    let take := if all then e != 0 && c &&& e == e else c &&& e != 0
    if take then m ||| qbit q else m) 0

def brcSem (p : Pred) (a : Opnd) (all neg : Bool) : Sem := fun s x =>
  transfer p 3 (brcVotes x.v p a all neg) (directTarget x.v.part.pc x.v.imm) false false id s x

/-- A pair of s registers read and written. -/
def View.spair (v : View) (o : Opnd) : DWord := v.rd64 false o 0
def View.setSpair (v : View) (o : Opnd) (x : DWord) : View :=
  match o with
  | .s n => (v.setSreg n.val x.lo).setSreg (n.val + 1) x.hi
  | _ => v

/-- CALL (R152). -/
def callSem (p : Pred) (d : Opnd) : Sem := fun s x =>
  transfer p 3 (x.v.votes p) (directTarget x.v.part.pc x.v.imm) true false (fun v => v.setSpair d (nextPc v.part.header v.part.pc 3)) s x

/-- CALLX (R152): the target is read before D is written. -/
def callxSem (p : Pred) (d a : Opnd) : Sem := fun s x =>
  transfer p 2 (x.v.votes p) (x.v.spair a) true true (fun v => v.setSpair d (nextPc v.part.header v.part.pc 2)) s x

/-- RET and BRX (R152). -/
def jumpSem (p : Pred) (a : Opnd) : Sem := fun s x => transfer p 2 (x.v.votes p) (x.v.spair a) false true id s x

/-- LOOP's counter less one (R153). -/
def loopView (d : Opnd) (v : View) : View := match d with | .s k => v.setSreg k.val (v.rd32 d 0 - 1) | _ => v

/-- LOOP (R153). -/
def loopSem (d : Opnd) : Sem := fun s x =>
  if x.v.rd32 d 0 - 1 = 0 then .fall (s.putView x.r (loopView d x.v)) false
  else transfer ⟨0, false⟩ 3 x.v.part.quads (directTarget x.v.part.pc x.v.imm) false false (loopView d) s x

/-- The transfer that a branch would make (R126, R151 to R153): the quads that take it, its target, whether that has to be parcel 0
(R41), whether it is indirect (R40), and ACT. -/
structure Jump where
  quads : QMask
  target : DWord
  entry : Bool
  indirect : Bool
  lanes : Word
  deriving DecidableEq, Repr

/-- The transfer of an instruction, if it is a branch. -/
def View.jump? (v : View) : Instr → Option Jump
  | .bra p imm => some ⟨v.votes p, directTarget v.part.pc imm, false, false, v.act p⟩
  | .brc p a all neg imm => some ⟨brcVotes v p a all neg, directTarget v.part.pc imm, false, false, v.act p⟩
  | .call p _ imm => some ⟨v.votes p, directTarget v.part.pc imm, true, false, v.act p⟩
  | .loop d imm => some ⟨if v.rd32 d 0 - 1 = 0 then 0 else v.part.quads, directTarget v.part.pc imm, false, false, v.act ⟨0, false⟩⟩
  | .brx p a => some ⟨v.votes p, v.spair a, false, true, v.act p⟩
  | .ret p a => some ⟨v.votes p, v.spair a, false, true, v.act p⟩
  | .callx p _ a => some ⟨v.votes p, v.spair a, true, true, v.act p⟩
  | _ => none

/-- REGANG (R155): the run ends, and the part waits for its group. -/
def regangSem (len : Nat) (a : Opnd) : Sem := fun s x =>
  let m : QMask := match a with | .zero => 0xFF | _ => (x.v.rd32 a 0).setWidth 8
  .placed ((s.modPart x.r fun q =>
    { q.counted true with wait := .regang (m ||| q.quads) (nextPc q.header q.pc len) }).due
      [.runCommit x.r, .regangMerge x.r.cohort x.r.gang, .claimDeadlock x.r.cohort])

/-- BAR (R156): arrive, and go on when the generation has completed. -/
def barSem (a : Opnd) : Sem := fun s x =>
  let imm := if a == .imm then x.v.imm.toNat else 0
  let u := imm % 16
  let k := imm / 16 % 32
  let done (s : State) : Bool :=
    match (s.part? x.r).map (fun (p : Part) => p.wait) with
    | some (.bar _ _ (some g)) => decide (g < (((s.cohort? x.r.cohort).map fun c => c.barriers.getD u barrierIdle).getD barrierIdle).gen)
    | _ => false
  match x.v.part.wait with
  | .bar u' k' (some g) => if done s then .fall s true else .stall s (.bar u' k' (some g))
  | _ =>
    let s1 := (s.waits x.r (.bar u k none)).arrive x.r.cohort x.r.gang u
    if done s1 then .fall s1 true
    else .stall (s1.due [.claimDeadlock x.r.cohort]) (((s1.part? x.r).map fun (p : Part) => p.wait).getD (.bar u k none))

/-- A counter of a class (R137). -/
def Counters.get (c : Counters) : EngClass → Nat
  | .copy => c.copy | .matrix => c.matrix | .push => c.push

/-- Operations of a class and a gang that are outstanding, by number, which is the order of their issue (R137): those in the
command buffer, then those in the engines. -/
def State.openOps (s : State) (cls : EngClass) (co g : Nat) : List Nat :=
  s.heldCmds cls co g ++ match cls with
    | .copy => (s.copy.ops.filter fun o => o.cohort == co && o.gang == g).map fun o => o.id
    | .matrix => (s.matrix.ops.filter fun o => o.cohort == co && o.gang == g).map fun o => o.id
    | .push => (s.stage.pushes.filter fun o => o.cohort == co && o.gang == g).map fun o => o.id

/-- Whether a WAITE can complete only once a command of its own run has retired (R83, R108): one is among the operations that
must retire first, which they do in the order of their issue (R137). -/
def State.waiteCloses (s : State) (x : Ctx) (a : Opnd) (cls : EngClass) : Bool :=
  let due := x.v.gang.counters.get cls - (x.v.rd32 a 0).toNat
  let own := x.v.part.curRun?.elim [] fun r => r.cmds
  (s.heldCmds cls x.r.cohort x.r.gang).any fun i =>
    own.contains i && decide (((s.openOps cls x.r.cohort x.r.gang).filter fun j => decide (j < i)).length < due)

/-- WAITE (R83, R108, R157): it completes when the counter is low enough; where only the retirement of a command of its own
run could make it so, that run closes first. -/
def waiteSem (a : Opnd) (cls : EngClass) : Sem := fun s x =>
  if x.v.gang.counters.get cls ≤ (x.v.rd32 a 0).toNat then .fall s false
  else if s.waiteCloses x a cls then
    .placed ((s.modPart x.r fun p =>
      { p with wait := .commit, runs := modLast (fun r => { r with closed := true }) p.runs }).due [.runCommit x.r])
  else .stall s .counter

/-- Units of a sub-core that gangs hold (R140). -/
def State.unitsHeld (s : State) (core sub : Nat) (f : Cohort → Bool) : Nat :=
  s.cohorts.foldl (fun n c => if c.core = core && f c then
    c.gangs.foldl (fun n g => if g.sub = sub then n + g.pool.length else n) n else n) 0

/-- Units set aside for granted claims (R141). -/
def State.unitsGranted (s : State) (core sub : Nat) : Nat :=
  s.claims.foldl (fun n c => if c.core = core && c.sub = sub && c.granted then n + c.n else n) 0

/-- Units of a sub-core that the gangs of some cohorts hold or have been granted (R141, R551). -/
def State.unitsTaken (s : State) (core sub : Nat) (f : Cohort → Bool) : Nat :=
  s.unitsHeld core sub f +
    ((s.claims.filter fun c => c.core == core && c.sub == sub && c.granted && (s.cohort? c.cohort).any f).map fun c => c.n).sum

/-- Free units of a sub-core (R140). -/
def State.unitsFree (s : State) (core sub : Nat) : Nat :=
  256 - s.unitsHeld core sub (fun _ => true) - s.unitsGranted core sub

/-- The unit share that a partition has been given; 0 means all. -/
def Partition.units (p : Partition) : Nat := if p.unit = 0 then 256 else p.unit

/-- The unit share of a partition (R548, R549, R551): a child's never exceeds its parent's (R550). -/
def State.unitShare (s : State) (part : Nat) : Nat :=
  match s.partition? part with
  | none => 256
  | some p => if p.level = 2 then min p.units ((s.partition? p.parent).elim 256 Partition.units) else p.units

/-- No engine operation of a cohort is outstanding (R569). -/
def Cohort.quiet (c : Cohort) : Bool :=
  c.gangs.all fun g => g.counters.copy == 0 && g.counters.matrix == 0 && g.counters.push == 0

/-- A halted cohort whose units and ranges may go to its save area (R565, R569); one of the boot context has none. DESIGN CHOICE:
that it is the partner of a team operation under way does not hold it back (R427, log 125). -/
def Cohort.givesWay (c : Cohort) : Bool := c.halted && c.slot.isNone && c.quiet && c.saveIdx.isSome

/-- available(P) (R551): free units and those of halted cohorts open to eviction, within the partition's share, of which what
is set aside for its granted claims is taken. -/
def State.unitsAvailable (s : State) (part core sub : Nat) : Nat :=
  let f := s.unitsFree core sub
  let e := s.unitsHeld core sub Cohort.givesWay
  let h := s.unitsTaken core sub fun c => c.part == part && !c.halted
  min (f + e) (s.unitShare part - h)

/-- Whether another part of the gang holds an uncommitted run (R158). DEDUCED: one that waits at BAR, in RCLAIM or in RRELEASE has
none, since all before it in its run has committed (R139, R142; log 109). -/
def View.othersRun (v : View) : Bool :=
  v.gang.parts.any fun p => p.id != v.part.id && !p.runs.isEmpty && !p.barred && !p.resizes

/-- Registers from W on read zero, untyped (R158). -/
def Gang.clearFrom (g : Gang) (w n : Nat) : Gang :=
  { g with v := vof 192 fun i => if w ≤ i && i < w + n then vregZero else vget g.v i vregZero }

/-- RCLAIM (R141, R142, R158). -/
def rclaimSem : Sem := fun s x =>
  let n := x.v.imm.toNat
  match s.claims.find? fun c => c.part == x.v.part.id with
  | none =>
    let cl : Claim := ⟨x.r.cohort, x.r.gang, x.v.part.id, x.c.core, x.v.gang.sub, n, false, []⟩
    .stall ({ s with claims := s.claims ++ [cl] }.due [.claimGrant x.c.core x.v.gang.sub, .claimDeadlock x.r.cohort]) (.claim n)
  | some c =>
    if !c.granted then .stall (s.due [.claimGrant x.c.core x.v.gang.sub]) (.claim n)
    else if x.v.othersRun then .stall s .window
    else
      let s := { s with claims := s.claims.filter fun d => d.part != x.v.part.id }
      .fall (s.modGang x.r.cohort x.r.gang fun g =>
        { g.clearFrom (4 * g.units) (4 * n) with pool := g.pool ++ c.pool }) true

/-- RRELEASE (R158): what it frees goes to claims, and the core decides again (R472). -/
def rreleaseSem : Sem := fun s x =>
  if x.v.othersRun then .stall s .window
  else
    .fall ((s.modGang x.r.cohort x.r.gang fun g => { g with pool := g.pool.take (g.pool.length - x.v.imm.toNat) }).due
      [.claimGrant x.c.core x.v.gang.sub, .launchDecision x.c.core]) true

/-- The PINFO word (R159). -/
def pinfoVal (v : View) : Word :=
  BitVec.ofNat 32 (v.part.quads.toNat + v.gang.live.toNat * 2 ^ 8 + v.gang.parts.length * 2 ^ 16
    + (v.part.runs.length - 1) * 2 ^ 20 + v.part.drag.toNat * 2 ^ 22)

def pinfoOp (p : Pred) (d : Opnd) (v : View) : View := v.wrUniform p d (pinfoVal v)

end Sys2Proof.Machine
end

