-- ==== Sys2Proof/Machine/Branch.lean ====
section
/-!
DEFINITION. The BRANCH and BRIND instructions (R151 to R153).
-/
namespace Sys2Proof.Machine

/-- BRA (R151). -/
def execBra (p : Pred) (imm : Word) (s : State) : Out :=
  issue ⟨p, 3, 0, [], [], .plain, .none⟩ imm
    (braSem p) s

/-- BRC (R151). -/
def execBrc (p : Pred) (a : Opnd) (all : Bool) (neg : Bool) (imm : Word) (s : State) : Out :=
  issue ⟨p, 3, 0, [], [], .plain, .none⟩ imm
    (brcSem p a all neg) s

/-- CALL (R152). -/
def execCall (p : Pred) (d : Opnd) (imm : Word) (s : State) : Out :=
  issue ⟨p, 3, 0, [], [], .plain, .none⟩ imm
    (callSem p d) s

/-- LOOP (R153). -/
def execLoop (d : Opnd) (imm : Word) (s : State) : Out :=
  issue ⟨⟨0, false⟩, 3, 0, [], [], .plain, .none⟩ imm
    (loopSem d) s

/-- BRX (R152). -/
def execBrx (p : Pred) (a : Opnd) (s : State) : Out :=
  issue ⟨p, 2, 0, [], [], .plain, .none⟩ 0
    (jumpSem p a) s

/-- CALLX (R152). -/
def execCallx (p : Pred) (d a : Opnd) (s : State) : Out :=
  issue ⟨p, 2, 0, [], [], .plain, .none⟩ 0
    (callxSem p d a) s

/-- RET (R152). -/
def execRet (p : Pred) (a : Opnd) (s : State) : Out :=
  issue ⟨p, 2, 0, [], [], .plain, .none⟩ 0
    (jumpSem p a) s

end Sys2Proof.Machine
end

