-- ==== Sys2Proof/Machine/CopyOps.lean ====
section
/-!
DEFINITION. The copy engine at work (R82, R85, R383 to R405, R409, R411 to R415) and what the COPY instructions do (R381,
R382, R407, R408).
-/
namespace Sys2Proof.Machine

/-! Sync words -/

/-- The words of a sync word (R388). -/
structure SyncWord where
  target : Nat
  count : Nat
  gen : Nat
  flags : Nat
  deriving DecidableEq, Repr

def SyncWord.of (bs : List Byte) : SyncWord :=
  ⟨(wordAt bs 0).toNat, (wordAt bs 1).toNat, (wordAt bs 2).toNat, (wordAt bs 3).toNat⟩

def SyncWord.bytes (w : SyncWord) : List Byte := natLe 4 w.target ++ natLe 4 w.count ++ natLe 4 w.gen ++ natLe 4 w.flags

/-- SyncAdd (R389, R416). -/
def SyncWord.add (w : SyncWord) (k : Nat) : SyncWord :=
  let c := w.count + k
  if w.target = 0 then { w with count := c % 2 ^ 32 }
  else { w with count := c % w.target, gen := (w.gen + c / w.target) % 2 ^ 32 }

/-- What an abort leaves (R390). DESIGN CHOICE: the last word's bits [31:16] and [7:1], which hold nothing, are cleared (log 123). -/
def SyncWord.abort (w : SyncWord) (reason : Nat) : SyncWord :=
  { w with count := 0, gen := (w.gen + 1) % 2 ^ 32, flags := reason * 256 + 1 }

/-- A sync word updated at the SP's atomic port (R86, R389). -/
def State.sync (s : State) (own : Nat) (a : Option SAddr) (f : SyncWord → SyncWord) : State :=
  match a with
  | none => s
  | some a =>
    let r := s.engRead own a 16
    r.2.engWrite own a (f (SyncWord.of r.1)).bytes (some Sides.untyped)

/-! Ends of operations -/

/-- An operation has ended: joiners of it go on alone, its requests are forgotten, and what can retire does (R386, R405). -/
def State.endCopy (s : State) (o : CopyOp) : State :=
  let s := s.modCopy o.id fun p => { p with ended := true, flights := [] }
  let s := { s with
    copy := { s.copy with ops := s.copy.ops.map fun (p : CopyOp) =>
      match p.join with | some (m, _) => if m = o.id then { p with join := none } else p | none => p }
    reqs := s.reqs.filter fun (q : Request) => q.copyOp != some o.id }
  ((s.retireCopies o.cohort o.gang).tryEndCohort o.cohort).due
    (.copyChunkIssue o.cmd.core :: ((s.copy.ops.filter fun (p : CopyOp) => !p.ended).map fun (p : CopyOp) => p.cmd.core).dedup.map .copyChunkIssue)

/-- How often a cohort has lost the allocations in which a target's bytes and sync word lie (R402). -/
def Cohort.losses (c : Cohort) (wb sync : Bool) : Nat := if wb then c.spillsWb + (if sync then c.spillsSp else 0) else c.spillsSp

/-- Whether a multicast target is still there (R402): its cohort has neither ended nor lost the target's allocation since. -/
def State.targetHere (s : State) (t : Target) : Bool :=
  (s.cohort? t.cohort).any fun c => !c.ended && c.losses (decide (wbBase ≤ t.dst)) t.sync.isSome == t.spills

/-- An abort (R390, R409); `addr` is the failing physical line or 0. -/
def State.abortCopy (s : State) (o : CopyOp) (reason addr : Nat) : State :=
  let upd := fun (t : State) (a : Option SAddr) => t.sync o.cmd.own a fun w => w.abort reason
  let s := match o.cmd.kind with
    | .cast _ _ _ _ => (o.targets.filter s.targetHere).foldl (fun t (g : Target) => upd t g.sync) s
    | _ => upd s o.cmd.sync
  let s := if reason = 5 then s.modGang o.cohort o.gang fun g => { g with fto := true } else s
  let s := if reason = 8 then s.modGang o.cohort o.gang fun g => { g with psn := true } else s
  (s.copyRecord o 9 addr).endCopy o

/-! Issuing -/

/-- How an operation's next access comes out: it has none now; it did one; it aborts. -/
inductive Turn where
  | idle (s : State)
  | did (s : State)
  | stop (s : State) (reason addr : Nat)
  deriving DecidableEq, Repr

/-- A word of a table, descriptor, free list or count read by an operation (R397 to R401, R413). -/
def State.tableRead (s : State) (o : CopyOp) (va n : Nat) (k : State → List Byte → Turn) : Turn :=
  let r := s.spot o.cmd .load false (.glob (BitVec.ofNat 64 va))
  match r.1 with
  | .wait => .idle r.2
  | .abort c => .stop r.2 c 0
  | .at_ a _ _ =>
    let b := r.2.engRead o.cmd.key a n
    match b.2.badOf (a / 64) with
    | some l => .stop b.2 8 l
    | none => k b.2 b.1

/-- A word of a table or count written by an operation (R400). -/
def State.tableWrite (s : State) (o : CopyOp) (va : Nat) (bs : List Byte) (k : State → Turn) : Turn :=
  let r := s.spot o.cmd .store false (.glob (BitVec.ofNat 64 va))
  match r.1 with
  | .wait => .idle r.2
  | .abort c => .stop r.2 c 0
  | .at_ a _ l => k ((r.2.setDirty o.cmd.own l).engWrite o.cmd.key a bs (some Sides.untyped))

/-- A read under way that serves another read of its line (R403): it is an earlier read of the same partition, for a chunk that has not
gone on, whose data is still as it was read; with its place: the operation, the chunk, and the read in that. -/
def State.mergeable (s : State) (o : CopyOp) (line : Nat) : Option (LineRead × Nat × Nat × Nat) :=
  if isBuf (64 * line) then none
  else
    ((s.copy.ops.filter fun p => p.id != o.id && !p.ended && !p.whole && p.cmd.key == o.cmd.key).flatMap fun p =>
      (p.flights.zipIdx.filter fun f => !f.1.sent).flatMap fun f => f.1.reads.zipIdx.map fun r => (r.1, p.id, f.2, r.2)).find? fun r =>
        r.1.line == some line && !r.1.merged && r.1.bs == s.bytesAs o.cmd.key (64 * line) 64 && r.1.side == s.sideAt line

/-- A read at a place of an operation's chunks whose reply now goes to further cores (R403). -/
def CopyOp.widen (p : CopyOp) (f r : Nat) (cores : List Nat) : CopyOp :=
  let more := fun (q : LineRead) => { q with cores := (q.cores ++ cores).dedup }
  { p with flights := p.flights.modify f fun k => { k with reads := k.reads.modify r more } }

/-- A line read for a chunk, or merged into a read under way (R403, R404). AB counts as 0x7F01 (R385). -/
def State.lineRead (s : State) (o : CopyOp) (line : Nat) (cores : List Nat) : LineRead × State :=
  match s.mergeable o line with
  | some (r, p, f, k) =>
    let s := s.modCopy p fun p => p.widen f k cores
    ({ r with merged := true, cores := [] }, s.modGang o.cohort o.gang fun g => { g with cmrg := g.cmrg + 1 })
  | none =>
    let t := s.engRead o.cmd.key (64 * line) 64
    let side := if isAb (64 * line) then 0x7F01 else t.2.sideAt line
    let k := t.2.struck o.id line
    (⟨some line, t.1, side, if k.1 then some (64 * line) else t.2.badOf line, false, cores⟩, k.2)

/-- A piece of a chunk's source: a line and the bytes of it, or a range at a peer. -/
inductive Src where
  | line (r : LineRead) (lo n : Nat)
  | peer (p : Nat) (addr n : Nat)
  deriving DecidableEq, Repr

/-- Where a piece of a chunk's source lies: it has come with a multicast; in a line here; at a peer. -/
inductive SrcPlan where
  | got (r : LineRead) (lo n : Nat)
  | line (a n : Nat)
  | peer (p : Nat) (addr n : Nat)
  deriving DecidableEq, Repr

/-- The pieces of a chunk's source, one for each line it touches, before any of them is read (R384, R405). -/
def State.plan (o : CopyOp) (join : Bool) : (fuel : Nat) → CopyEnd → (idx n : Nat) → State →
    (k : State → List SrcPlan → Turn) → Turn
  | 0, _, _, _, s, k => k s []
  | f + 1, e, idx, n, s, k =>
    if n = 0 then k s []
    else
      let m := min n (64 - e.low)
      let next := fun (s : State) (x : SrcPlan) =>
        State.plan o join f (e.plus m) (idx + 1) (n - m) s fun s l => k s (x :: l)
      match if join then (assocGet o.recv idx) else none with
      | some r => next s (.got r e.low m)
      | none =>
        if join && (match o.join with | some (_, j) => decide (j ≤ idx) | none => false) then .idle s
        else
          let r := s.spot o.cmd .load o.cmd.srcPeer e
          match r.1 with
          | .wait => .idle r.2
          | .abort c => .stop r.2 c 0
          | .at_ a (some p) _ => next r.2 (.peer p a m)
          | .at_ a none _ => next r.2 (.line a m)

/-- Such pieces read. -/
def State.readPlan (o : CopyOp) (cores : List Nat) : List SrcPlan → State → List Src × State
  | [], s => ([], s)
  | .got r lo n :: t, s => let q := State.readPlan o cores t s; (.line r lo n :: q.1, q.2)
  | .peer p a n :: t, s => let q := State.readPlan o cores t s; (.peer p a n :: q.1, q.2)
  | .line a n :: t, s =>
    let r := s.lineRead o (a / 64) cores
    let q := State.readPlan o cores t r.2
    (.line r.1 (a % 64) n :: q.1, q.2)

/-- The source of a chunk (R384, R405): its pieces, read once all of them can be. -/
def State.sources (o : CopyOp) (cores : List Nat) (join : Bool) (fuel : Nat) (e : CopyEnd) (idx n : Nat) (s : State)
    (k : State → List Src → Turn) : Turn :=
  State.plan o join fuel e idx n s fun s l => let r := State.readPlan o cores l s; k r.2 r.1

/-- Neighbouring pieces at a peer in one request (R383). -/
def joinPeer : List Src → List Src
  | .peer p a n :: .peer q b m :: t => if p = q ∧ a + n = b then .peer p a (n + m) :: t else .peer p a n :: .peer q b m :: t
  | l => l

/-- The sideband that all sources of a chunk share (R385). -/
def sharedSide : List Side → Option Side
  | [] => none
  | x :: t => if t.all (· == x) then some x else none

/-- A chunk from its local pieces. -/
def flightOf (ps : List Src) (f : Flight) : Flight :=
  let rs := ps.filterMap fun p => match p with | .line r _ _ => some r | .peer _ _ _ => none
  { f with
    data := ps.flatMap fun p => match p with | .line r lo n => (r.bs.drop lo).take n | .peer _ _ _ => []
    side := sharedSide (rs.map fun r => r.side)
    bad := rs.findSome? fun r => r.bad
    reads := rs
    ready := true }

/-- Where the reads end that precede the first write of an operation that reads everything first (R85): for an append whose
blocks turn out otherwise than foreseen, where the bytes of its block do (log 27). -/
def CopyOp.lastRead (o : CopyOp) : Nat := match o.cmd.kind with | .append _ _ _ => o.upto | k => k.total

/-- A chunk's read issued (R85, R383, R386). DEDUCED: at a peer it is one request for each stretch of addresses that follow each
other there, since one request names one (log 115). Its data step follows where all of it is
here and, where everything is read first, nothing is left to read. -/
def State.launch (s : State) (o : CopyOp) (ps : List Src) (f : Flight) (upd : CopyOp → CopyOp) : State :=
  let peers := (joinPeer ps).filterMap fun p => match p with | .peer q a n => some (q, a, n) | .line _ _ _ => none
  if peers.isEmpty then
    let s := s.modCopy o.id fun p => upd { p with flights := p.flights ++ [flightOf ps f] }
    let last := match s.copyOp? o.id with | some p => decide (p.lastRead ≤ p.pos) | none => false
    if o.whole && !last then s else s.due [.copyChunkData o.cmd.core o.id]
  else
    let s := s.modCopy o.id fun p => upd { p with flights := p.flights ++ [f] }
    peers.foldl (fun (t : State) x =>
      let q : Request :=
        { id := t.nextId, cohort := o.cohort, gang := o.gang, part := 0, copyOp := some o.id, own := o.cmd.key
          pos := s.posOf o.cohort o.gang, port := none, lane := 0, off := 0, group := t.nextId, va := 0
          peer := some x.1, io := false, addr := x.2.1, leaves := [], kind := .load x.2.2, sent := false, deadline := 0
          ans := none, tout := false }
      ({ t with reqs := t.reqs ++ [q], nextId := t.nextId + 1 } : State).issueReq q) s

/-- A chunk with its destination (R384, R385). -/
def State.chunkTo (s : State) (o : CopyOp) (dst : CopyEnd) (len : Nat) (counts : Bool) (k : State → Flight → Turn) : Turn :=
  let r := s.spot o.cmd .store o.cmd.dstPeer dst
  match r.1 with
  | .wait => .idle r.2
  | .abort c => .stop r.2 c 0
  | .at_ a p l => k r.2 ⟨[], none, none, [], a, p, l, len, counts, false, false⟩

/-- Byte `k` onwards of a repeated pattern (R395). -/
def patBytes (pat : Word) (k n : Nat) : List Byte :=
  (List.range n).map fun i => (natLe 4 pat.toNat).getD ((k + i) % 4) 0

/-- A chunk of CPY, CPYS or CPYF (R393 to R395, R405). DESIGN CHOICE: its destination is translated when it is read, also where
every chunk is read before any is written (log 116). -/
def State.rowChunk (s : State) (o : CopyOp) (rb : Nat) (ss ds : Int) : Turn :=
  if o.cmd.kind.total ≤ o.pos ∨ (o.flights ≠ [] ∧ o.whole = false) then .idle s
  else
    let (so, d, len) := chunkAt rb ss ds o.cmd.dst o.pos
    s.chunkTo o (o.cmd.dst.plus d) len true fun s f =>
      match o.cmd.kind with
      | .fill _ pat code =>
        .did ((s.modCopy o.id fun p => { p with
          pos := p.pos + len
          flights := p.flights ++ [{ f with
            data := patBytes pat o.pos len, side := some (BitVec.ofNat 16 (0x7F00 + code)), ready := true }] }).due
          [.copyChunkData o.cmd.core o.id])
      | _ =>
        let idx := (o.cmd.src.low + o.pos) / 64
        State.sources o [o.cmd.core] true 3 (o.cmd.src.plus so) idx len s fun s ps =>
          .did (s.launch o ps f fun p => { p with
            pos := p.pos + len
            recv := p.recv.filter fun r => decide ((o.cmd.src.low + o.pos + len) / 64 ≤ r.1) })

/-- The next access of CPY, CPYS or CPYF; before the first, whether every chunk is read before any is written (R393) and
whether the operation joins a multicast (R405) is decided, which waits for pages under a tier move (R384). -/
def State.issueRows (s : State) (o : CopyOp) (rb : Nat) (ss ds : Int) : Turn :=
  if o.started then s.rowChunk o rb ss ds
  else
    match s.overlaps o.cmd with
    | none => .idle s
    | some w =>
      let join := s.joinOf o.cmd
      let f := fun (p : CopyOp) => { p with started := true, whole := w, join := join }
      (s.modCopy o.id f).rowChunk (f o) rb ss ds

/-- The descriptor's limits (R397). -/
def Pool.ok (p : Pool) : Bool :=
  decide (6 ≤ p.lbs) && decide (p.lbs ≤ 21) && p.base % 2 ^ p.lbs == 0 && decide (1 ≤ p.n) && p.free % 4 == 0 &&
    (List.range 25).any (fun k => p.cap == 2 ^ k) && p.refs % 2 == 0

/-- The descriptor read at an operation's start (R397). -/
def State.readPool (s : State) (o : CopyOp) (a : DWord) : Turn :=
  s.tableRead o a.toNat 64 fun s bs =>
    let at_ := fun (k n : Nat) => leNat ((bs.drop k).take n)
    let p : Pool := ⟨at_ 0 8, at_ 8 1, at_ 12 4, at_ 16 8, at_ 24 4, at_ 40 8⟩
    if p.ok then .did (s.modCopy o.id fun q => { q with pool := some p, started := true }) else .stop s 3 0

/-- A block-table entry (R396): whether it is valid, and its block. -/
def entryOf (bs : List Byte) : Bool × Nat := (leNat bs / 2 ^ 48 % 2 == 1, leNat bs % 2 ^ 32)

/-- The entry that names a fresh block (R400). -/
def freshEntry (f : Nat) : List Byte := natLe 8 (2 ^ 48 + 2 ^ 32 + f)

/-- CPYG's next access (R399). -/
def State.issueGather (s : State) (o : CopyOp) (pa : DWord) (off n : Nat) : Turn :=
  match o.pool with
  | none => s.readPool o pa
  | some p =>
    if n ≤ o.pos ∨ o.flights ≠ [] then .idle s
    else
      let bs := 2 ^ p.lbs
      let log := off + o.pos
      if o.pos = o.upto then
        s.tableRead o (o.cmd.table.toNat + 8 * (log / bs)) 8 fun s e =>
          let (valid, b) := entryOf e
          if !valid || p.n ≤ b then .stop s 3 0
          else .did (s.modCopy o.id fun q => { q with blk := b, upto := min n (o.pos + (bs - log % bs)) })
      else
        let d := o.cmd.dst.plus o.pos
        let len := min (64 - d.low) (o.upto - o.pos)
        s.chunkTo o d len true fun s f =>
          State.sources o [o.cmd.core] false 3 (.glob (BitVec.ofNat 64 (p.base + o.blk * bs + log % bs))) 0 len s fun s ps =>
            .did (s.launch o ps f fun q => { q with pos := q.pos + len })

/-- Whether the bytes that an append puts into its block overlap their source (R85, R400); none while one of their pages is
under a tier move. -/
def State.blockMeets (s : State) (o : CopyOp) (p : Pool) (off : Nat) : Option Bool :=
  let n := o.upto - o.pos
  let dst := CopyEnd.glob (BitVec.ofNat 64 (p.base + o.blk * 2 ^ p.lbs + (off + o.pos) % 2 ^ p.lbs))
  match s.segs o.cmd .load (o.cmd.src.plus o.pos) n (n / 65536 + 2), s.segs o.cmd .store dst n (n / 65536 + 2) with
  | some a, some b => some (meetAny a b)
  | _, _ => none

/-- What a word of a table holds now, for an operation that looks ahead (log 27): none while its page is under a tier move,
and in the end nothing where it does not translate. -/
def State.glance (s : State) (o : CopyOp) (va n : Nat) : Option (Option (List Byte)) :=
  match (s.spot o.cmd .load false (.glob (BitVec.ofNat 64 va))).1 with
  | .wait => none
  | .abort _ => some none
  | .at_ a _ _ => some (some (s.bytesAs o.cmd.key a n))

/-- The block that an append will put its bytes at a place into, and whether it pops it, as the table and the free list stand
now (R400; log 27); `pops` is how many blocks it pops before. -/
def State.foreseen (s : State) (o : CopyOp) (p : Pool) (pa : DWord) (i pops : Nat) : Option (Option (Nat × Bool)) :=
  let popped : Option (Option (Nat × Bool)) :=
    match s.glance o (pa.toNat + 0x20) 4 with
    | some (some h) =>
      (match s.glance o (p.free + 4 * ((leNat h + pops) % p.cap)) 4 with
      | some (some f) => some (some (leNat f, true))
      | some none => some none
      | none => none)
    | some none => some none
    | none => none
  match s.glance o (o.cmd.table.toNat + 8 * i) 8 with
  | none => none
  | some none => some none
  | some (some e) =>
    if !(entryOf e).1 then popped
    else
      match s.glance o (p.refs + 2 * (entryOf e).2) 2 with
      | none => none
      | some none => some none
      | some (some c) => if leNat c ≤ 1 then some (some ((entryOf e).2, false)) else popped

/-- The storage pieces that an append will write with the bytes of its range from `pos` on (R85, R400; log 27); none while a
page that it looks at is under a tier move. -/
def State.foresee (s : State) (o : CopyOp) (p : Pool) (pa : DWord) (off n : Nat) : (fuel pos pops : Nat) → Option (List (Nat × Nat))
  | 0, _, _ => some []
  | f + 1, pos, pops =>
    if n ≤ pos then some []
    else
      let bs := 2 ^ p.lbs
      let log := off + pos
      let k := min (n - pos) (bs - log % bs)
      match s.foreseen o p pa (log / bs) pops with
      | none => none
      | some none => some []
      | some (some (b, pop)) =>
        let e := CopyEnd.glob (BitVec.ofNat 64 (p.base + b * bs + log % bs))
        match s.segs o.cmd .store e k (k / 65536 + 2), State.foresee s o p pa off n f (pos + k) (pops + pop.toNat) with
        | some l, some m => some (l ++ m)
        | _, _ => none

/-- Whether the blocks that an append will write overlap its source (R85); none while it cannot be said for a tier move. -/
def State.appendMeets (s : State) (o : CopyOp) (p : Pool) (pa : DWord) (off n : Nat) : Option Bool :=
  match s.segs o.cmd .load o.cmd.src n (n / 65536 + 2), s.foresee o p pa off n (n / 2 ^ p.lbs + 2) 0 0 with
  | some a, some b => some (meetAny a b)
  | _, _ => none

/-- The next chunk of an append that reads everything first (R85). -/
def State.takeChunk (s : State) (o : CopyOp) (off n : Nat) : Turn :=
  let k := (o.stash.map fun f => f.len).sum
  if n ≤ k then .did (s.modCopy o.id fun q => { q with phase := .entry })
  else
    let len := min (64 - (off + k) % 64) (n - k)
    State.sources o [o.cmd.core] false 3 (o.cmd.src.plus k) 0 len s fun s ps =>
      .did (s.modCopy o.id fun q => { q with stash := q.stash ++ [flightOf ps ⟨[], none, none, [], 0, none, [], len, true, false, false⟩] })

/-- A chunk of an append into its block (R400), where everything was read first the one that was read for it (R85); behind
the last one, what follows in its table. -/
def State.blockChunk (s : State) (o : CopyOp) (p : Pool) (off : Nat) : Turn :=
  if o.upto ≤ o.pos then .did (s.modCopy o.id fun q => { q with whole := false, phase := if o.fresh then .refs else .entry })
  else
    let d : CopyEnd := .glob (BitVec.ofNat 64 (p.base + o.blk * 2 ^ p.lbs + (off + o.pos) % 2 ^ p.lbs))
    let len := min (64 - d.low) (o.upto - o.pos)
    s.chunkTo o d len true fun s f =>
      match o.stash with
      | g :: rest =>
        .did ((s.modCopy o.id fun q => { q with
          pos := q.pos + len, stash := rest
          flights := q.flights ++ [{ g with dst := f.dst, dstPeer := f.dstPeer, leaves := f.leaves }] }).due [.copyChunkData o.cmd.core o.id])
      | [] =>
        State.sources o [o.cmd.core] false 3 (o.cmd.src.plus o.pos) 0 len s fun s ps =>
          .did (s.launch o ps f fun q => { q with pos := q.pos + len })

/-- CPYT's next access (R398, R400). -/
def State.issueAppend (s : State) (o : CopyOp) (pa : DWord) (off n : Nat) : Turn :=
  match o.pool with
  | none => s.readPool o pa
  | some p =>
    let bs := 2 ^ p.lbs
    let log := off + o.pos
    let upd := fun (s : State) (f : CopyOp → CopyOp) => Turn.did (s.modCopy o.id f)
    let first := off + (o.upto - 1)
    let entryAt := o.cmd.table.toNat + 8 * (first / bs)
    if o.flights ≠ [] && !(o.whole && decide (o.pos < o.upto)) then .idle s
    else
      match o.phase with
      | .entry =>
        if n ≤ o.pos then .idle s
        else if !o.looked then
          match s.appendMeets o p pa off n with
          | none => .idle s
          | some w => upd s fun q => { q with looked := true, phase := if w then .take else .entry }
        else
          let k := min (n - o.pos) (bs - log % bs)
          s.tableRead o (o.cmd.table.toNat + 8 * (log / bs)) 8 fun s e =>
            let (valid, b) := entryOf e
            if !valid then
              if log % bs ≠ 0 then .stop s 3 0
              else upd s fun q => { q with phase := .pop, old := none, fresh := true, upto := o.pos + k }
            else if p.n ≤ b then .stop s 3 0
            else
              s.tableRead o (p.refs + 2 * b) 2 fun s c =>
                if leNat c ≤ 1 then
                  upd s fun q => { q with phase := .meet, blk := b, old := none, fresh := false, upto := o.pos + k }
                else upd s fun q => { q with phase := .pop, old := some b, fresh := true, upto := o.pos + k }
      | .pop =>
        s.tableRead o (pa.toNat + 0x20) 8 fun s e =>
          let h := leNat (e.take 4)
          if h = leNat (e.drop 4) then .stop s 4 0
          else s.tableWrite o (pa.toNat + 0x20) (natLe 4 ((h + 1) % 2 ^ 32) ++ e.drop 4) fun s =>
            upd s fun q => { q with phase := .free h }
      | .free h =>
        s.tableRead o (p.free + 4 * (h % p.cap)) 4 fun s e =>
          let f := leNat e
          if p.n ≤ f then .stop s 3 0
          else upd s fun q => { q with blk := f, lead := 0, phase := if o.old.isSome then .lead else .meet }
      | .lead =>
        if log % bs ≤ o.lead then upd s fun q => { q with phase := .meet }
        else
          let len := min 64 (log % bs - o.lead)
          s.chunkTo o (.glob (BitVec.ofNat 64 (p.base + o.blk * bs + o.lead))) len false fun s f =>
            State.sources o [o.cmd.core] false 3 (.glob (BitVec.ofNat 64 (p.base + (o.old.getD 0) * bs + o.lead))) 0 len s
              fun s ps => .did (s.launch o ps f fun q => { q with lead := q.lead + len })
      | .take => s.takeChunk o off n
      | .meet =>
        (match if o.stash.isEmpty then s.blockMeets o p off else some false with
        | none => .idle s
        | some w =>
          let f := fun (q : CopyOp) => { q with phase := .data, whole := w }
          (s.modCopy o.id f).blockChunk (f o) p off)
      | .data => s.blockChunk o p off
      | .refs => s.tableWrite o (p.refs + 2 * o.blk) (natLe 2 1) fun s => upd s fun q => { q with phase := .mark }
      | .mark =>
        s.tableWrite o entryAt (freshEntry o.blk) fun s =>
          upd s fun q => { q with phase := if o.old.isSome then .lower else .entry }
      | .lower =>
        let a := p.refs + 2 * (o.old.getD 0)
        s.tableRead o a 2 fun s c =>
          s.tableWrite o a (natLe 2 (leNat c - 1)) fun s => upd s fun q => { q with phase := .entry, old := none }

/-- A used receiver entry's target (R401, R415): none where it is skipped; a cohort that has yet to start is no target. DESIGN
CHOICE: an entry whose bits [31:16] are not zero is skipped with a record (log 108). -/
def State.targetOf (s : State) (o : CopyOp) (n : Nat) (wb : Bool) (off : Nat) (e : Nat) : Option Target :=
  let sync := e / 2 ^ 32
  let h := e % 65536
  match s.coreReal o.cmd.own (h % 256) with
  | none => none
  | some core =>
    match s.cohorts.find? fun c => c.core == core && c.slot == some (h / 256 % 16) && c.part == o.cmd.own &&
        !(s.stage.launches.any fun l => l.cohort == c.id) with
    | none => none
    | some c =>
      let fits := if wb then decide (off + n ≤ c.wb.size) else decide (c.sp.base ≤ off) && decide (off + n ≤ c.sp.base + c.sp.size)
      let okSync := sync == 0xFFFFFFFF ||
        (sync % 16 == 0 && decide (c.sp.base ≤ sync) && decide (sync + 16 ≤ c.sp.base + c.sp.size))
      if fits && okSync && e / 65536 % 65536 == 0 then
        some ⟨c.id, c.losses wb (sync != 0xFFFFFFFF), core, if wb then wbAt core (c.wb.base + off) else spAt core off,
          if sync = 0xFFFFFFFF then none else some (spAt core sync)⟩
      else none

/-- The used entries read, lowest first (R401, R415): each one's target, if it has one. DESIGN CHOICE: the operation has targets
once it has read all of them, so that one that aborts before updates no sync word (R409, log 118). -/
def State.readTargets (o : CopyOp) (n : Nat) (wb : Bool) (off : Nat) : List Nat → State → (State → List (Option Target) → Turn) → Turn
  | [], s, k => k s []
  | t :: l, s, k =>
    s.tableRead o (o.cmd.table.toNat + 8 * t) 8 fun s e =>
      State.readTargets o n wb off l s fun s gs => k s (s.targetOf o n wb off (leNat e) :: gs)

/-- Whether an entry of the receiver table lies in a page under a tier move, for which the operation waits before it reads
any (R384). -/
def State.tableWaits (s : State) (o : CopyOp) (ts : List Nat) : Bool :=
  ts.any fun t => (s.spot o.cmd .load false (.glob (BitVec.ofNat 64 (o.cmd.table.toNat + 8 * t)))).1 == .wait

/-- Targets in ascending core number; those of one core in entry order (R85, R401). -/
def sortTargets (ts : List Target) : List Target := (List.range 192).flatMap fun c => ts.filter fun t => t.core == c

/-- Whether a joiner of a multicast has no room for another line (R402). -/
def State.joinersFull (s : State) (o : CopyOp) : Bool :=
  s.copy.ops.any fun p => !p.ended && (match p.join with | some (m, _) => m == o.id | none => false) && decide (64 ≤ p.recv.length)

/-- CPYM's next access (R402). -/
def State.issueCast (s : State) (o : CopyOp) (mask : Word) (n : Nat) (wb : Bool) (off : Nat) : Turn :=
  let used := (List.range 16).filter fun t => mask.getLsbD t
  if !o.started then
    if s.tableWaits o used || (s.spot o.cmd .load false o.cmd.src).1 == .wait then .idle s
    else State.readTargets o n wb off used s fun s gs =>
      let ts := gs.filterMap id
      let s := (gs.filter Option.isNone).foldl (fun t _ => t.copyRecord o 9 0) s
      let join := s.joinOf o.cmd
      .did (s.modCopy o.id fun q => { q with started := true, join := join, targets := sortTargets ts, pos := if ts = [] then n else q.pos })
  else if n ≤ o.pos ∨ o.flights ≠ [] ∨ s.joinersFull o then .idle s
  else
    let e := o.cmd.src.plus o.pos
    let len := min (64 - e.low) (n - o.pos)
    let idx := (o.cmd.src.low + o.pos) / 64
    State.sources o (s.castCores o idx) true 3 e idx len s fun s ps =>
      .did (s.launch o ps ⟨[], none, none, [], o.pos, none, [], len, true, false, false⟩ fun q => { q with
        pos := q.pos + len, recv := q.recv.filter fun r => decide (idx < r.1) })

/-- An operation's next access. -/
def State.issueOp (s : State) (o : CopyOp) : Turn :=
  match o.cmd.kind with
  | .rows rb _ ss ds => s.issueRows o rb ss ds
  | .fill n _ _ => s.issueRows o (max n 1) 0 0
  | .gather p off n => s.issueGather o p off n
  | .append p off n => s.issueAppend o p off n
  | .cast m n wb off => s.issueCast o m n wb off

/-- Whether an operation has nothing left to do. -/
def CopyOp.complete (o : CopyOp) : Bool :=
  decide (o.cmd.kind.total ≤ o.pos) && o.flights == [] && o.phase == .entry ||
    (o.flights == [] && decide (o.cmd.kind.total ≤ o.pos) && (match o.cmd.kind with | .append _ _ _ => false | _ => true))

/-- An operation that is complete ends (R386). -/
def State.tryEndCopy (s : State) (id : Nat) : State :=
  match s.copyOp? id with
  | none => s
  | some o => if o.complete && !o.ended then s.endCopy o else s.due [.copyChunkIssue o.cmd.core]

/-- The operations that a core works on, the one after the last served first (R386). -/
def State.activeCopies (s : State) (core : Nat) : List CopyOp :=
  let l := (s.copy.ops.filter fun o => o.cmd.core == core && !o.ended).take 8
  match assocGet s.copy.last core with
  | none => l
  | some id => (l.filter fun o => decide (id < o.place)) ++ l.filter fun o => decide (o.place ≤ id)

/-- The operation that a core served last, by its place in the order of passing (R386). -/
def State.servedCopy (s : State) (core place : Nat) : State := { s with copy := { s.copy with last := assocSet s.copy.last core place } }

/-- The first of some operations that has an access to make makes it. -/
def State.serveCopy (core : Nat) : List CopyOp → State → State
  | [], s => s
  | o :: t, s =>
    match s.issueOp o with
    | .idle s => State.serveCopy core t s
    | .did s => (s.servedCopy core o.place).tryEndCopy o.id
    | .stop s r a => (s.servedCopy core o.place).abortCopy ((s.copyOp? o.id).getD o) r a

/-- COPY_CHUNK_ISSUE (R386). -/
def State.copyIssue (s : State) (core : Nat) : State := State.serveCopy core (s.activeCopies core) s

/-! Data -/

/-- Bytes of a chunk written at a storage address: whole lines take the sideband, partial ones are left untyped (R385). -/
def State.writeChunk (s : State) (own a : Nat) (bs : List Byte) (side : Option Side) (bad : Option Nat) : State :=
  (splitLines a bs).foldl (fun t p =>
    let t := t.engWrite own p.1 p.2 (some (if p.2.length = 64 then side.getD Sides.untyped else Sides.untyped))
    match bad with | some l => t.setBad (p.1 / 64) l | none => t) s

/-- Poison met by a copy (R371, R413). -/
def State.copyPoison (s : State) (o : CopyOp) (bad : Option Nat) : State :=
  match bad with
  | none => s
  | some l => (s.modGang o.cohort o.gang fun g => { g with psn := true }).copyRecord o 3 l

/-- Router copies of the replies to a chunk's reads (R404). -/
def State.countReplies (s : State) (o : CopyOp) (f : Flight) : State :=
  let n := f.reads.foldl (fun n r => n + (r.cores.length - 1)) 0
  s.modGang o.cohort o.gang fun g => { g with crep := g.crep + BitVec.ofNat 32 n }

/-- A multicast line written to its targets, those that are gone being dropped (R402, R412). -/
def State.castLine (o : CopyOp) (f : Flight) : List Target → State → State
  | [], s => s
  | t :: l, s =>
    if s.targetHere t then
      let s := s.writeChunk o.cmd.key (t.dst + f.dst) f.data f.side f.bad
      State.castLine o f l (s.sync o.cmd.own t.sync fun w => w.add f.len)
    else
      State.castLine o f l
        ((s.modCopy o.id fun p => { p with targets := p.targets.filter fun u => u != t }).copyRecord o 9 0)

/-- A multicast line handed to its joiners (R405). -/
def State.handJoiners (s : State) (o : CopyOp) (f : Flight) : State :=
  let idx := (o.cmd.src.low + f.dst) / 64
  let joins := fun (p : CopyOp) => !p.ended && (match p.join with | some (m, j) => m == o.id && decide (j ≤ idx) | none => false)
  match f.reads with
  | [] => s
  | r :: _ =>
    let js := s.copy.ops.filter joins
    let take := fun (p : CopyOp) =>
      if joins p then { p with recv := p.recv ++ [(idx, { r with merged := true, cores := [] })] } else p
    let s := { s with copy := { s.copy with ops := s.copy.ops.map take } }
    let s := js.foldl (fun t p => t.modGang p.cohort p.gang fun g => { g with cjoin := g.cjoin + 1 }) s
    s.due (js.map fun p => .copyChunkIssue p.cmd.core)

/-- The front chunk of an operation leaves its list. -/
def State.popFlight (s : State) (id : Nat) : State := s.modCopy id fun p => { p with flights := p.flights.tail }

/-- A chunk as a request to a peer (R409, R511). -/
def State.chunkRequest (s : State) (o : CopyOp) (f : Flight) (p : Nat) : Request :=
  { id := s.nextId, cohort := o.cohort, gang := o.gang, part := 0, copyOp := some o.id, own := o.cmd.key
    pos := s.posOf o.cohort o.gang, port := none, lane := 0, off := 0, group := s.nextId, va := 0
    peer := some p, io := false, addr := f.dst, leaves := []
    kind := .store f.data (if f.len = 64 then f.side else none) f.bad.isSome, sent := false, deadline := 0
    ans := none, tout := false }

/-- A chunk written here (R85, R389): its bytes, then the sync word. -/
def State.chunkHere (s : State) (o : CopyOp) (f : Flight) : State :=
  let s := (s.setDirty o.cmd.own f.leaves).writeChunk o.cmd.key f.dst f.data f.side f.bad
  let s := if f.counts then s.sync o.cmd.own o.cmd.sync fun w => w.add f.len else s
  s.popFlight o.id

/-- COPY_CHUNK_DATA (R85, R389): an operation's oldest chunk is written, or sent to its peer. -/
def State.copyData (s : State) (id : Nat) : State :=
  match s.copyOp? id with
  | none => s
  | some o =>
    match o.flights with
    | [] => s
    | f :: rest =>
      if !f.ready || f.sent || o.ended then s
      else
        let s := (s.copyPoison o f.bad).countReplies o f
        match o.cmd.kind, f.dstPeer with
        | .cast _ _ _ _, _ =>
          (((State.castLine o f o.targets s).handJoiners o f).popFlight id).tryEndCopy id
        | _, some p =>
          let q := s.chunkRequest o f p
          let s := s.setDirty o.cmd.own f.leaves
          let s := s.modCopy id fun p => { p with flights := { f with sent := true } :: rest }
          ({ s with reqs := s.reqs ++ [q], nextId := s.nextId + 1 } : State).issueReq q
        | _, none =>
          let s := s.chunkHere o f
          if rest.isEmpty then s.tryEndCopy id else s.due [.copyChunkData o.cmd.core id]

/-- What the answers to a copy operation's requests bring (R383, R409, R512, R513): the front chunk's data, the end of its
write, or an abort. -/
def State.copyAnswered (s : State) (id : Nat) : State :=
  let qs := s.reqs.filter fun q => q.copyOp == some id
  match s.copyOp? id with
  | none => { s with reqs := s.reqs.filter fun q => q.copyOp != some id }
  | some o =>
    if qs.any (·.tout) then s.abortCopy o 5 0
    else if qs.any fun q => q.ans == some .refused then s.abortCopy o 2 0
    else if qs.any (·.ans.isNone) then s
    else
      let s := { s with reqs := s.reqs.filter fun q => q.copyOp != some id }
      match o.flights with
      | [] => s
      | f :: rest =>
        if f.sent then
          let s := if f.counts then s.sync o.cmd.own o.cmd.sync fun w => w.add f.len else s
          let s := s.popFlight id
          if rest.isEmpty then s.tryEndCopy id else s.due [.copyChunkData o.cmd.core id]
        else
          let bad := (qs.find? fun q => q.ans == some .poison).map fun q => q.addr / 64 * 64
          let free := s.takeBytes f.len
          let s := if bad.isSome then free.2 else s
          let data := if bad.isSome then free.1 else qs.flatMap fun q => match q.ans with | some (.data bs _) => bs | _ => []
          let side := sharedSide (qs.flatMap fun q => match q.ans with | some (.data _ l) => l | _ => [])
          (s.modCopy id fun p => { p with flights := { f with data := data, side := side, bad := bad, ready := true } :: rest }).due
            [.copyChunkData o.cmd.core id]

/-! Issuing commands -/

/-- A command waits in its gang's buffer until its run commits, and counts (R107, R137); a run that continues without logging
passes it on (R110). -/
def State.bufferCmd (s : State) (x : Ctx) (b : CmdBody) : State :=
  let c : Cmd := ⟨s.nextId, x.r.cohort, x.r.gang, x.v.part.id, b⟩
  let s := { s with nextId := s.nextId + 1, cmds := s.cmds ++ [c] }
  let up := fun (k : Counters) => match b.cls with
    | .copy => { k with copy := k.copy + 1 }
    | .matrix => { k with matrix := k.matrix + 1 }
    | .push => { k with push := k.push + 1 }
  let s := s.modGang x.r.cohort x.r.gang fun g => { g with counters := up g.counters }
  if (x.v.part.curRun?.map (·.noLog)).getD false then s.passCmd c
  else
    let s := s.modGang x.r.cohort x.r.gang fun g => { g with cmdbuf := g.cmdbuf ++ [c.id] }
    s.modPart x.r fun p => { p with runs := modLast (fun r => { r with cmds := r.cmds ++ [c.id] }) p.runs }

/-- A range that a copy instruction checks (R382): one of its own operands with its lowest and highest byte, whether it is
written, and whether it may name a peer. -/
structure CopyRange where
  va : DWord
  lo : Int
  hi : Int
  store : Bool
  peer : Bool

/-- Lowest and highest byte of rows at a base (R382, R394). -/
def rowSpan (base : Int) (st : Int) (rb rn : Nat) : Int × Int :=
  let last := base + st * ((rn : Int) - 1)
  (min base last, max base last + rb - 1)

/-- Row 5 of R382: canonical ends and no wrap. -/
def CopyRange.ok (r : CopyRange) : Bool :=
  decide (0 ≤ r.lo) && decide (r.hi < 2 ^ 64) && canonical (BitVec.ofInt 64 r.lo) && canonical (BitVec.ofInt 64 r.hi)

/-- The offending address of a range that fails row 5 of R382: its first byte's, or its last byte's. -/
def CopyRange.offends (r : CopyRange) : DWord :=
  BitVec.ofInt 64 (if 0 ≤ r.lo ∧ canonical (BitVec.ofInt 64 r.lo) then r.hi else r.lo)

/-- Rows 6 and 7 of R382 on some ranges in order: the peers of each, or the fault; none where a page under a tier move makes
the instruction wait. DESIGN CHOICE: of several ranges that fail one row, the first in order gives the address of rows 5 and
6, the last that of row 7, and where both ends are peers the destination (log 94). -/
def State.checkRanges (x : Ctx) : List CopyRange → State → Option (Except Bad (List (Option Nat))) × State
  | [], s => (some (.ok []), s)
  | r :: t, s =>
    let q := s.translate x.c.core x.c.part x.c.gslot x.v.part.ring (if r.store then .store else .load) false r.va
    match q.1 with
    | .wait => (none, q.2)
    | .fault f => (some (.error ⟨0, f.code, f.s2, r.va, 0, false⟩), q.2)
    | .ok y =>
      let k := State.checkRanges x t q.2
      match k.1 with
      | some (.ok l) =>
        if y.io || (y.peer.isSome && !r.peer) then (some (.error ⟨0, 10, false, r.va, 0, true⟩), k.2)
        else (some (.ok (y.peer :: l)), k.2)
      | o => (o, k.2)

/-- Rows 3 and 4 of R382: the fault of a sync word's offset. -/
def syncFault (c : Cohort) (off : Nat) : Option Bad :=
  if off % 16 ≠ 0 then some ⟨0, 11, false, BitVec.ofNat 64 off, 0, false⟩
  else if off < c.sp.base ∨ c.sp.base + c.sp.size < off + 16 then some ⟨0, 12, false, BitVec.ofNat 64 off, 0, false⟩
  else none

/-- Row 2 of R382: a buffer range against the cohort's allocation; the first row that leaves it (R270). -/
def bufFault (c : Cohort) (z : Space) (off : Nat) (st : Int) (rb rn : Nat) : Option Bad :=
  let (lo, hi, _, n) := c.window z
  (List.range rn).findSome? fun (r : Nat) =>
    let a : Int := (off : Int) + st * (r : Int)
    if a < lo ∨ (hi : Int) < a + rb then
      some ⟨0, 12, false, ((BitVec.ofInt 32 a).setWidth 64), BitVec.ofNat 32 n, false⟩
    else none

/-- What a copy instruction captures (R382): its kind; the limits of row 1 and its aligned addresses with their
alignments; the buffer ranges; the sync offset; the global ranges; and the command, given which of its ends began at a
peer. -/
structure CopyAsk where
  limits : Bool
  aligned : List (DWord × Nat)
  bufs : List (Space × Nat × Int × Nat × Nat)
  sync : Option Nat
  ranges : List CopyRange
  total : Nat
  cmd : List Bool → CopyCmd

/-- The checks of R382 in their order, and the command (R381 to R383). DESIGN CHOICE: of several items that fail row 1 an address's
alignment comes before the limits and a pool before its table, and of two ranges that fail row 2 the destination comes
before the source (log 113). DEDUCED: a failing check of a copy with an end at a peer is taken under R111, as R382 says, at
the start of its run (R354, R383; log 114). -/
def copySem (p : Pred) (ask : Ctx → CopyAsk) : Sem := fun s x =>
  let act := x.v.act p
  if !(p.always || act != 0) then .fall s false
  else if 64 ≤ x.v.gang.counters.copy then .stall s .counter
  else
    let a := ask x
    let bad := fun (b : Bad) => Done.trap s b.code act b.addr b.info b.s2
    match a.aligned.find? fun q => q.1.toNat % q.2 != 0 with
    | some q => bad ⟨0, 10, false, q.1, 0, false⟩
    | none =>
      if !a.limits then
        let f := s.takeFree
        .trap f.2 10 act (BitVec.ofNat 64 f.1) 0 false
      else
        match (if a.total = 0 then none else a.bufs.findSome? fun b => bufFault x.c b.1 b.2.1 b.2.2.1 b.2.2.2.1 b.2.2.2.2) with
        | some b => bad b
        | none =>
          match a.sync.bind (syncFault x.c) with
          | some b => bad b
          | none =>
            let rs := if a.total = 0 then [] else a.ranges
            match rs.find? fun r => !r.ok with
            | some r => bad ⟨0, 10, false, r.offends, 0, false⟩
            | none =>
              let k := State.checkRanges x rs s
              if s.lost k.2 x.r then .placed k.2
              else
                match k.1 with
                | none => .stall k.2 .load
                | some (.error b) => .trap k.2 b.code act b.addr b.info b.s2
                | some (.ok peers) =>
                  let n := (peers.filter Option.isSome).length
                  if n = 0 then .fall (k.2.bufferCmd (k.2.fresh x) (.copy (a.cmd (peers.map Option.isSome)))) false
                  else if 1 < n then .trap k.2 10 act ((rs.head?.map fun r => r.va).getD 0) 0 false
                  else
                    match k.2.settle x.r with
                    | none => .stall (k.2.due [.runCommit x.r]) .commit
                    | some s => .fall (s.bufferCmd (s.fresh x) (.copy (a.cmd (peers.map Option.isSome)))) true

/-- The address that a base operand holds. -/
def View.base (v : View) (o : Opnd) : DWord := v.rd64 false o 0

/-- The word that a uniform operand holds. -/
def View.uni (v : View) (o : Opnd) : Word := v.rd32 o 0

/-- Spaces by their codes (R391). -/
def dspSpace : DSp → Space
  | .glob => .glob | .sp => .sp | .wb => .wb
def sspSpace : SSp → Space
  | .glob => .glob | .sp => .sp | .ab => .ab

/-- An operand as an end. -/
def Ctx.endOf (x : Ctx) (z : Space) (o : Opnd) : CopyEnd :=
  match z with
  | .glob => .glob (x.v.base o)
  | _ => let (_, _, b, _) := x.c.window z; .buf (b + (x.v.uni o).toNat)

/-- The command's fields that no operand sets. -/
def Ctx.copyCmd (x : Ctx) (k : CopyKind) (dst src : CopyEnd) (table : DWord) (sync : Option Nat) (dp sp : Bool) : CopyCmd :=
  { kind := k, dst := dst, src := src, table := table, sync := sync.map fun o => spAt x.c.core o, own := x.c.part
    core := x.c.core, gslot := x.c.gslot, ring := x.v.part.ring, lane := x.v.gang.slot, dstPeer := dp, srcPeer := sp }

/-- Group register `k`. -/
def View.group (v : View) (b : Opnd) (k : Nat) : Word := v.uni (b.plus k)

def syncOff (v : View) (c : Opnd) : Option Nat := if c == .zero then none else some (v.uni c).toNat

/-- CPY and CPYS (R393, R394). -/
def cpyRows (x : Ctx) (zd zs : Space) (d a c : Opnd) (rb rn : Nat) (ss ds : Int) (limits : Bool) : CopyAsk :=
  let de := x.endOf zd d
  let se := x.endOf zs a
  let rng := fun (z : Space) (o : Opnd) (st : Int) (w : Bool) =>
    if z = .glob then
      let va := x.v.base o
      let sp := rowSpan va.toNat st rb rn
      [(⟨va, sp.1, sp.2, w, true⟩ : CopyRange)] else []
  let buf := fun (z : Space) (o : Opnd) (st : Int) =>
    if z = .glob then [] else [(z, (x.v.uni o).toNat, st, rb, rn)]
  let so := syncOff x.v c
  { limits := limits, aligned := [], bufs := buf zd d ds ++ buf zs a ss, sync := so
    ranges := rng zd d ds true ++ rng zs a ss false, total := rb * rn
    cmd := fun ps => x.copyCmd (.rows rb rn ss ds) de se 0 so (zd == .glob && ps.headD false) (zs == .glob && ps.getLastD false) }

/-- What CPY captures. -/
def cpyAsk (zd : DSp) (zs : SSp) (d a b c : Opnd) (x : Ctx) : CopyAsk :=
  let n := (x.v.uni b).toNat
  cpyRows x (dspSpace zd) (sspSpace zs) d a c n 1 0 0 (decide (n ≤ 2 ^ 31))

/-- CPY (R393). -/
def cpySem (p : Pred) (zd : DSp) (zs : SSp) (d a b c : Opnd) : Sem := copySem p (cpyAsk zd zs d a b c)

/-- What CPYS captures. -/
def cpysAsk (zd : DSp) (zs : SSp) (d a b c : Opnd) (x : Ctx) : CopyAsk :=
  let rb := (x.v.group b 0).toNat
  let rn := (x.v.group b 1).toNat
  let ds := (x.v.group b 3).toInt
  let ok := decide (1 ≤ rb) && decide (rb ≤ 65536) && decide (1 ≤ rn) && decide (rn ≤ 65536) && decide ((rb : Int) ≤ ds)
  cpyRows x (dspSpace zd) (sspSpace zs) d a c rb rn (x.v.group b 2).toInt ds ok

/-- CPYS (R394). -/
def cpysSem (p : Pred) (zd : DSp) (zs : SSp) (d a b c : Opnd) : Sem := copySem p (cpysAsk zd zs d a b c)

/-- What CPYF captures (R395). -/
def cpyfAsk (zd : DSp) (code : Nat) (d a b c : Opnd) (x : Ctx) : CopyAsk :=
  let n := (x.v.uni b).toNat
  let z := dspSpace zd
  let so := syncOff x.v c
  let va := x.v.base d
  { limits := decide (n ≤ 2 ^ 31), aligned := []
    bufs := if z = .glob then [] else [(z, (x.v.uni d).toNat, 0, n, 1)], sync := so
    ranges := if z = .glob then [⟨va, va.toNat, (va.toNat : Int) + n - 1, true, true⟩] else [], total := n
    cmd := fun ps => x.copyCmd (.fill n (x.v.uni a) code) (x.endOf z d) (.buf 0) 0 so (ps.headD false) false }

/-- CPYF (R395). -/
def cpyfSem (p : Pred) (zd : DSp) (code : Nat) (d a b c : Opnd) : Sem := copySem p (cpyfAsk zd code d a b c)

/-- The descriptor and the table as ranges (R382 rows 5 and 6). -/
def poolRanges (table pool : DWord) (store : Bool) : List CopyRange :=
  [⟨table, table.toNat, (table.toNat : Int) + 7, store, false⟩, ⟨pool, pool.toNat, (pool.toNat : Int) + 63, false, false⟩]

/-- What CPYG captures (R399). -/
def cpygAsk (zd : DSp) (d a b c : Opnd) (x : Ctx) : CopyAsk :=
  let pool := pairWord (x.v.group b 0) (x.v.group b 1)
  let off := (x.v.group b 2).toNat
  let n := (x.v.group b 3).toNat
  let t := x.v.base a
  let z := dspSpace zd
  let so := syncOff x.v c
  { limits := decide (n ≤ 2 ^ 31) && decide (off + n ≤ 2 ^ 32), aligned := [(pool, 64), (t, 8)]
    bufs := [(z, (x.v.uni d).toNat, 0, n, 1)], sync := so, ranges := poolRanges t pool false, total := n
    cmd := fun _ => x.copyCmd (.gather pool off n) (x.endOf z d) (.buf 0) t so false false }

/-- CPYG (R399). -/
def cpygSem (p : Pred) (zd : DSp) (d a b c : Opnd) : Sem := copySem p (cpygAsk zd d a b c)

/-- What CPYT captures (R400). -/
def cpytAsk (zs : SSp) (d a b c : Opnd) (x : Ctx) : CopyAsk :=
  let pool := pairWord (x.v.group b 0) (x.v.group b 1)
  let off := (x.v.group b 2).toNat
  let n := (x.v.group b 3).toNat
  let t := x.v.base d
  let z := sspSpace zs
  let so := syncOff x.v c
  let va := x.v.base a
  { limits := decide (n ≤ 2 ^ 31) && decide (off + n ≤ 2 ^ 32), aligned := [(pool, 64), (t, 8)]
    bufs := if z = .glob then [] else [(z, (x.v.uni a).toNat, 0, n, 1)], sync := so
    ranges := (if z = .glob then [⟨va, va.toNat, (va.toNat : Int) + n - 1, false, false⟩] else []) ++ poolRanges t pool true
    total := n
    cmd := fun _ => x.copyCmd (.append pool off n) (.buf 0) (x.endOf z a) t so false false }

/-- CPYT (R400). -/
def cpytSem (p : Pred) (zs : SSp) (d a b c : Opnd) : Sem := copySem p (cpytAsk zs d a b c)

/-- What CPYM captures (R401): its destination offset is each target's. -/
def cpymAsk (zd : DSp) (d a b : Opnd) (x : Ctx) : CopyAsk :=
  let table := pairWord (x.v.group b 0) (x.v.group b 1)
  let mask := x.v.group b 2
  let n := (x.v.group b 3).toNat
  let va := x.v.base a
  { limits := decide (n ≤ 2 ^ 31) && decide (mask.toNat < 65536), aligned := [(table, 64)], bufs := [], sync := none
    ranges := [⟨va, va.toNat, (va.toNat : Int) + n - 1, false, false⟩], total := n
    cmd := fun _ => x.copyCmd (.cast mask n (zd == .wb) (x.v.uni d).toNat) (.buf 0) (.glob va) table none false false }

/-- CPYM (R401). -/
def cpymSem (p : Pred) (zd : DSp) (d a b : Opnd) : Sem := copySem p (cpymAsk zd d a b)

/-- A sync-word instruction's offset (R407, R408). -/
def swCheck (p : Pred) (a : Opnd) (k : State → Ctx → Nat → Done) : Sem := fun s x =>
  let act := x.v.act p
  if !(p.always || act != 0) then .fall s false
  else
    let off := (x.v.uni a).toNat
    match syncFault x.c off with
    | some b => .trap s b.code act b.addr b.info b.s2
    | none => k s x off

/-- The 16 bytes of a sync word as a piece. -/
def swPiece (x : Ctx) (off : Nat) : Piece :=
  ⟨4 * lowQuad x.v.part.quads, BitVec.ofNat 64 off, 0, 16, ⟨spAt x.c.core off, none, false, []⟩⟩

/-- SWINIT (R407). -/
def swinitSem (p : Pred) (a b : Opnd) : Sem := swCheck p a fun s x off =>
  storeHere (fun _ => natLe 16 (x.v.uni b).toNat) (fun _ => Sides.untyped) s x [swPiece x off]

/-- SWWAIT (R408): it is tested as the part's own loads would read the word. -/
def swwaitSem (p : Pred) (d a b : Opnd) : Sem := swCheck p a fun s x off =>
  let pc := swPiece x off
  let w := SyncWord.of (s.readOwn x.own x.v.part.id pc.x.addr 16)
  if (BitVec.ofNat 32 w.gen - x.v.uni b).toNat < 2 ^ 31 then
    readHere .sp true (x.v.act p) (fun s x rd =>
      .fall (s.putView x.r (x.v.wrUniform p d (wordAt (rd pc) 3))) false) s x [pc]
  else .stall s .sync

end Sys2Proof.Machine
end

