-- ==== Sys2Proof/Machine/Copy.lean ====
section
/-!
DEFINITION. The COPY instructions (R391 to R408).
-/
namespace Sys2Proof.Machine

/-- CPY (R393). -/
def execCpy (p : Pred) (dsp : DSp) (ssp : SSp) (d a b c : Opnd) (imm : Word) (s : State) : Out :=
  issue ⟨p, 3, 0, [], [], .plain, .none⟩ imm
    (cpySem p dsp ssp d a b c) s

/-- CPYS (R394). -/
def execCpys (p : Pred) (dsp : DSp) (ssp : SSp) (d a b c : Opnd) (imm : Word) (s : State) : Out :=
  issue ⟨p, 3, 0, [], [], .plain, .none⟩ imm
    (cpysSem p dsp ssp d a b c) s

/-- CPYG (R399). -/
def execCpyg (p : Pred) (dsp : DSp) (d a b c : Opnd) (imm : Word) (s : State) : Out :=
  issue ⟨p, 3, 0, [], [], .plain, .none⟩ imm
    (cpygSem p dsp d a b c) s

/-- CPYT (R400). -/
def execCpyt (p : Pred) (ssp : SSp) (d a b c : Opnd) (imm : Word) (s : State) : Out :=
  issue ⟨p, 3, 0, [], [], .plain, .none⟩ imm
    (cpytSem p ssp d a b c) s

/-- CPYM (R401). -/
def execCpym (p : Pred) (dsp : DSp) (d a b : Opnd) (imm : Word) (s : State) : Out :=
  issue ⟨p, 3, 0, [], [], .plain, .none⟩ imm
    (cpymSem p dsp d a b) s

/-- CPYF (R395). -/
def execCpyf (p : Pred) (dsp : DSp) (fc : Fin 11) (d a b c : Opnd) (imm : Word) (s : State) : Out :=
  issue ⟨p, 3, 0, [], [], .plain, .none⟩ imm
    (cpyfSem p dsp fc.val d a b c) s

/-- SWINIT (R407). -/
def execSwinit (p : Pred) (a b : Opnd) (imm : Word) (s : State) : Out :=
  issue ⟨p, 3, 0, [], [], .plain, .none⟩ imm
    (swinitSem p a b) s

/-- SWWAIT (R408). -/
def execSwwait (p : Pred) (d a b : Opnd) (imm : Word) (s : State) : Out :=
  issue ⟨p, 3, 0, [(d, 1)], [], .plain, .none⟩ imm
    (swwaitSem p d a b) s

end Sys2Proof.Machine
end

