-- ==== Sys2Proof/Machine/Ctl.lean ====
section
/-!
DEFINITION. The CTL instructions (R146 to R150).
-/
namespace Sys2Proof.Machine

/-- NOP (R146). -/
def execNop (p : Pred) (s : State) : Out :=
  issue ⟨p, 1, 0, [], [], .plain, .none⟩ 0
    (nopSem) s

/-- EXIT (R147). -/
def execExit (p : Pred) (s : State) : Out :=
  issue ⟨p, 1, 0, [], [], .endr, .exit⟩ 0
    (exitSem p) s

/-- YIELD (R146). -/
def execYield (p : Pred) (s : State) : Out :=
  issue ⟨p, 1, 0, [], [], .endr, .none⟩ 0
    (yieldSem) s

/-- ELECT (R148). -/
def execElect (p : Pred) (d : Opnd) (s : State) : Out :=
  issue ⟨p, 1, 0, [], [], .plain, .none⟩ 0
    (onView (electOp p d)) s

/-- GETID (R149). -/
def execGetid (p : Pred) (d : Opnd) (id : IdCode) (s : State) : Out :=
  issue ⟨p, 1, 0, [(d, 1)], [], .plain, .none⟩ 0
    (getidSem p d id) s

/-- TIME (R150). -/
def execTime (p : Pred) (d : Opnd) (s : State) : Out :=
  issue ⟨p, 1, 0, [(d, 2)], [], .plain, .none⟩ 0
    (timeSem p d) s

end Sys2Proof.Machine
end

