-- ==== Sys2Proof/Machine/Event.lean ====
section
/-!
DEFINITION. The form that every meaning of a step without an encoding has: it acts on a package whose clocks run (R601).
-/
namespace Sys2Proof.Machine

/-- A step of an engine or of the outside. While the clocks are stopped nothing happens (R601). -/
def event (f : State → State) (s : State) : Out := if s.frozen then .next s else .next (f s)

end Sys2Proof.Machine
end

