-- ==== Sys2Proof/Machine/FloatOps.lean ====
section
/-!
DEFINITION. What the float engine computes in one lane (R211 to R245).
-/
namespace Sys2Proof.Machine

/-- The mode of a rounding field (R212, R213). -/
def modeOf (fpmode : Word) : Rnd → RMode
  | .rn => .ne | .rz => .tz | .rm => .dn | .rp => .up
  | .dyn => match fpmode.toNat % 4 with | 0 => .ne | 1 => .tz | 2 => .dn | _ => .up

/-- FTZ and SATN (R212). -/
def ftzOf (fpmode : Word) : Bool := fpmode.getLsbD 2
def satnOf (fpmode : Word) : Bool := fpmode.getLsbD 3

/-- A subnormal code of FP32, FP16 or BF16 (R199). -/
def isSub (t : TypeCode) (c : Nat) : Bool :=
  match ffmt t with
  | some f => c / 2 ^ f.pb % 2 ^ f.eb == 0 && c % 2 ^ f.pb != 0
  | none => false

/-- A zero of a code's sign. -/
def signZero (t : TypeCode) (c : Nat) : Nat := c / 2 ^ (elemBits t - 1) % 2 * 2 ^ (elemBits t - 1)

/-- An input under FTZ (R214). -/
def flushIn (t : TypeCode) (ftz : Bool) (c : Nat) : Nat := if ftz && isSub t c then signZero t c else c

/-- The code of a result of FP32, FP16 or BF16, rounded once, with its flags, and FTZ applied (R214, R215). -/
def finishFp (t : TypeCode) (md : RMode) (ftz nv : Bool) (x : FVal) : Nat × Flags :=
  match x with
  | .nan => (nanCode t, flagIf nv flagNV)
  | _ =>
    let r := convertTo t md false false x
    if ftz && isSub t r.1 then (signZero t r.1, flagUF ||| flagNX ||| flagIf nv flagNV)
    else (r.1, r.2 ||| flagIf nv flagNV)

/-- A sum or product with its invalid operation: no operand is NaN and the result is. -/
def invalid2 (x y r : FVal) : Bool := r == .nan && x != .nan && y != .nan

/-- FADD, FSUB, FMUL, FFMA and their packed forms (R219, R239): A × B + C with what the form gives for the rest. -/
inductive FArith where
  | add | sub | mul | fma
  deriving DecidableEq, Repr

def farith (o : FArith) (t : TypeCode) (md : RMode) (ftz : Bool) (a b c : Nat) : Nat × Flags :=
  let ca := flushIn t ftz a
  let cb := flushIn t ftz b
  let cc := flushIn t ftz c
  let x := valueCode t ca
  let y := valueCode t cb
  let z := valueCode t cc
  let sn := isSnan t ca || isSnan t cb
  match o with
  | .add => let r := x.add md y; finishFp t md ftz (sn || invalid2 x y r) r
  | .sub => let r := x.add md y.neg; finishFp t md ftz (sn || invalid2 x y r) r
  | .mul => let r := x.mul y; finishFp t md ftz (sn || invalid2 x y r) r
  | .fma =>
    let p := x.mul y
    let r := p.add md z
    finishFp t md ftz (sn || isSnan t cc || invalid2 x y p || invalid2 p z r) r

/-- A float operation on binary32 words. -/
def w32 (r : Nat × Flags) : DWord × Flags := (BitVec.ofNat 64 r.1, r.2)

/-- FMIN and FMAX (R220). -/
def fminmax (mx : Bool) (ftz : Bool) (a b : Word) : DWord × Flags :=
  let ca := flushIn .f32 ftz a.toNat
  let cb := flushIn .f32 ftz b.toNat
  let x := valueCode .f32 ca
  let y := valueCode .f32 cb
  let nv := flagIf (isSnan .f32 ca || isSnan .f32 cb) flagNV
  if x = .nan then (if y = .nan then w32 (nanCode .f32, nv) else w32 (cb, nv))
  else if y = .nan then w32 (ca, nv)
  else
    let less := if x.cmp y = 0 then x.isNeg && !y.isNeg else decide (x.cmp y < 0)
    let same := x.cmp y == 0 && x.isNeg == y.isNeg
    w32 (if same then ca else if less != mx then ca else cb, nv)

/-- FCMP's relation and its NV (R222). -/
def fcmp (k : FCond) (ftz : Bool) (a b : Word) : Bool × Flags :=
  let ca := flushIn .f32 ftz a.toNat
  let cb := flushIn .f32 ftz b.toNat
  let x := valueCode .f32 ca
  let y := valueCode .f32 cb
  let un := x == .nan || y == .nan
  let sn := isSnan .f32 ca || isSnan .f32 cb
  let c := x.cmp y
  let ordered := k == .lt || k == .le || k == .gt || k == .ge
  (match k with
    | .eq => !un && c == 0 | .ne => un || c != 0 | .lt => !un && decide (c < 0) | .le => !un && decide (c ≤ 0)
    | .gt => !un && decide (c > 0) | .ge => !un && decide (c ≥ 0) | .un => un | .ord => !un,
   flagIf (sn || (ordered && un)) flagNV)

/-- FRND (R223). -/
def frnd (md : RMode) (ftz : Bool) (a : Word) : DWord × Flags :=
  let ca := flushIn .f32 ftz a.toNat
  match valueCode .f32 ca with
  | .nan => w32 (nanCode .f32, flagIf (isSnan .f32 ca) flagNV)
  | .fin n m e =>
    let r := roundAt md n m e 0
    w32 ((convertTo .f32 .ne false false (mkFin n r.1 0)).1, 0)
  | _ => w32 (ca, 0)

/-- FCLASS (R224). -/
def fclass (a : Word) : Word :=
  let c := a.toNat
  let neg := a.getLsbD 31
  match valueCode .f32 c with
  | .nan => if isSnan .f32 c then 1 <<< 8 else 1 <<< 9
  | .inf n => if n then 1 else 1 <<< 7
  | .zero n => if n then 1 <<< 3 else 1 <<< 4
  | .fin _ _ _ =>
    if isSub .f32 c then (if neg then 1 <<< 2 else 1 <<< 5) else if neg then 1 <<< 1 else 1 <<< 6

/-- FSCALE (R225); beyond 400 either way nothing depends on the exponent. -/
def fscale (md : RMode) (ftz : Bool) (a b : Word) : DWord × Flags :=
  let ca := flushIn .f32 ftz a.toNat
  w32 (finishFp .f32 md ftz (isSnan .f32 ca) ((valueCode .f32 ca).shift (max (-400) (min b.toInt 400))))

/-- The integer square root, bit by bit. -/
def isqrtGo (n : Nat) : (k r : Nat) → Nat
  | 0, r => r
  | k + 1, r => let t := r + 2 ^ k; isqrtGo n k (if t * t ≤ n then t else r)

def isqrt (n : Nat) : Nat := isqrtGo n (bitLen n / 2 + 1) 0

/-- A quotient of magnitudes with a sticky bit below all bits that rounding looks at. -/
def divMag (neg : Bool) (m : Nat) (e : Int) (n : Nat) (f : Int) : FVal :=
  let k := 80 + bitLen n - min (bitLen n) (bitLen m)
  let q := m * 2 ^ k / n
  let s := if m * 2 ^ k % n = 0 then 0 else 1
  .fin neg (2 * q + s) (e - f - k - 1)

/-- FDIV (R226, R227). -/
def fdiv (md : RMode) (ftz : Bool) (a b : Word) : DWord × Flags :=
  let ca := flushIn .f32 ftz a.toNat
  let cb := flushIn .f32 ftz b.toNat
  let sn := isSnan .f32 ca || isSnan .f32 cb
  let fin := fun nv (x : FVal) => w32 (finishFp .f32 md ftz (sn || nv) x)
  match valueCode .f32 ca, valueCode .f32 cb with
  | .nan, _ => fin false .nan
  | _, .nan => fin false .nan
  | .inf _, .inf _ => fin true .nan
  | .zero _, .zero _ => fin true .nan
  | .inf p, y => fin false (.inf (p != y.isNeg))
  | x, .inf q => fin false (.zero (x.isNeg != q))
  | .zero p, y => fin false (.zero (p != y.isNeg))
  | .fin p _ _, .zero q => w32 (infCode .f32 ⟨8, 23, 127⟩ (p != q), flagDZ)
  | .fin p m e, .fin q n f => fin false (divMag (p != q) m e n f)

/-- FSQRT (R226, R227). -/
def fsqrt (md : RMode) (ftz : Bool) (a : Word) : DWord × Flags :=
  let ca := flushIn .f32 ftz a.toNat
  match valueCode .f32 ca with
  | .nan => w32 (finishFp .f32 md ftz (isSnan .f32 ca) .nan)
  | .zero n => w32 (finishFp .f32 md ftz false (.zero n))
  | .inf n => w32 (finishFp .f32 md ftz n (if n then .nan else .inf false))
  | .fin n m e =>
    if n then w32 (finishFp .f32 md ftz true .nan)
    else
      let k : Nat := if e % 2 = 0 then 120 else 121
      let r := isqrt (m * 2 ^ k)
      let s := if r * r = m * 2 ^ k then 0 else 1
      w32 (finishFp .f32 md ftz false (.fin false (2 * r + s) ((e - k) / 2 - 1)))

/-! The approximations of R226, in fixed point with 320 bits after the point. -/

def fixBits : Nat := 320
def twoPiFix : Int := 0x6487ed5110b4611a62633145c06e0e68948127044533e63a0105df531d89cd9128a5043cc71a026ef
def ln2Fix : Int := 0xb17217f7d1cf79abc9e3b39803f2f6af40f343267298b62d8a0d175b8baafa2be7b876206debac98

/-- A finite value in fixed point. -/
def fixOf (n : Bool) (m : Nat) (e : Int) : Int := scaled n m (e + fixBits) 0

/-- The sum of `n` terms of a power series, term k + 1 from term k. -/
def seriesGo (next : Nat → Int → Int) : (n k : Nat) → (t acc : Int) → Int
  | 0, _, _, acc => acc
  | n + 1, k, t, acc => seriesGo next n (k + 1) (next k t) (acc + t)

def fixMul (a b : Int) : Int := a * b / 2 ^ fixBits

/-- 2^x for a fixed-point x, as a value. -/
def exp2Fix (x : Int) : FVal :=
  let t := fixMul (x % 2 ^ fixBits) ln2Fix
  let y := seriesGo (fun k u => fixMul u t / (k + 1 : Nat)) 80 0 (2 ^ fixBits) 0
  (ofScaled y (-(fixBits : Int)) false).shift (x / 2 ^ fixBits)

/-- log2 of m × 2^e. -/
def log2Fix (m : Nat) (e : Int) : Int :=
  let b := bitLen m
  let x : Int := m * 2 ^ fixBits / 2 ^ (b - 1)
  let one : Int := 2 ^ fixBits
  let z := (x - one) * one / (x + one)
  let z2 := fixMul z z
  let s := seriesGo (fun k u => fixMul (u * (2 * k + 1 : Nat)) z2 / (2 * k + 3 : Nat)) 120 0 z 0
  2 * s * one / ln2Fix + (e + b - 1) * one

/-- sin and cos of a fixed-point angle. -/
def sinFix (x : Int) : Int :=
  let r := x % twoPiFix
  let r := if 2 * r > twoPiFix then r - twoPiFix else r
  let r2 := fixMul r r
  seriesGo (fun k u => -(fixMul u r2) / ((2 * k + 2) * (2 * k + 3) : Nat)) 60 0 r 0

def cosFix (x : Int) : Int :=
  let r := x % twoPiFix
  let r := if 2 * r > twoPiFix then r - twoPiFix else r
  let r2 := fixMul r r
  seriesGo (fun k u => -(fixMul u r2) / ((2 * k + 1) * (2 * k + 2) : Nat)) 60 0 (2 ^ fixBits) 0

/-- The special functions that R226 bounds. -/
inductive Special where
  | rcp | rsq | exp2 | log2 | sin | cos
  deriving DecidableEq, Repr

def Special.num : Special → Nat
  | .rcp => 0 | .rsq => 1 | .exp2 => 2 | .log2 => 3 | .sin => 4 | .cos => 5

/-- The function's value at a finite non-zero input, to far below every bound of R226. DEDUCED: FRCP is 1/x below −0 too,
though R227 writes −1/x there (log 80). -/
def Special.approx (f : Special) (n : Bool) (m : Nat) (e : Int) : FVal :=
  match f with
  | .rcp => divMag n 1 0 m e
  | .rsq =>
    let k : Nat := if e % 2 = 0 then 240 else 241
    divMag false 1 0 (isqrt (m * 2 ^ k)) ((e - k) / 2)
  | .exp2 => exp2Fix (max (-400 * 2 ^ fixBits) (min (fixOf n m e) (400 * 2 ^ fixBits)))
  | .log2 => ofScaled (log2Fix m e) (-(fixBits : Int)) false
  | .sin => ofScaled (sinFix (fixOf n m e)) (-(fixBits : Int)) false
  | .cos => ofScaled (cosFix (fixOf n m e)) (-(fixBits : Int)) false

/-- Whether a value is a power of two; whether an even one. -/
def isPow2 (m : Nat) : Bool := m == 2 ^ (bitLen m - 1)

/-- The exact cases of R226; those of FRCP and FEXP2 need a normal result. -/
def Special.exact (f : Special) (normal n : Bool) (m : Nat) (e : Int) : Bool :=
  match f with
  | .rcp => normal && isPow2 m
  | .rsq => isPow2 m && (e + bitLen m - 1) % 2 == 0
  | .exp2 => normal && fixOf n m e % 2 ^ fixBits == 0
  | .log2 => isPow2 m
  | _ => false

/-- The bound on the error at a result `v`: 2^k (R226). -/
def Special.bound (f : Special) (x v : FVal) : Int :=
  let ulp := match v with | .fin _ m e => max (e + bitLen m - 1) (-126) - 23 | _ => -149
  match f with
  | .log2 => if (mkFin false 1 (-1)).cmp x ≤ 0 && x.cmp (mkFin false 2 0) ≤ 0 then -22 else ulp + 1
  | .sin | .cos => -21
  | _ => ulp

/-- The result for a finite non-zero input: correctly rounded in the exact cases and where it is infinite; elsewhere a free
value that keeps R226's bound (log 7). -/
def Special.result (f : Special) (ftz : Bool) (a : Word) (n : Bool) (m : Nat) (e : Int) : Nat × Flags :=
  let v := f.approx n m e
  let rn := convertTo .f32 .ne false false v
  let c := Config.special f.num a ftz
  let cv := valueCode .f32 c.toNat
  let keeps := match cv with
    | .nan => false
    | .inf _ => false
    | y => ((v.add .ne y.neg).abs.cmp (mkFin false 1 (f.bound (valueCode .f32 a.toNat) v))) ≤ 0
  let isInf := match valueCode .f32 rn.1 with | .inf _ => true | _ => false
  let normal := !isSub .f32 rn.1 && rn.1 % 2 ^ 31 != 0
  let r := if f.exact normal n m e || isInf || !keeps then rn.1 else c.toNat
  let small := isSub .f32 r || r % 2 ^ 31 == 0
  (if ftz && isSub .f32 r then signZero .f32 r else r,
   flagIf isInf flagOF ||| flagIf (small && v != .zero false && v != .zero true) flagUF)

/-- FRCP, FRSQ, FEXP2, FLOG2, FSIN and FCOS (R226, R227). -/
def Special.op (f : Special) (ftz : Bool) (a : Word) : DWord × Flags :=
  let ca := flushIn .f32 ftz a.toNat
  let nan := fun (b : Bool) => w32 (nanCode .f32, flagIf b flagNV)
  let inf := fun (n : Bool) => (infCode .f32 ⟨8, 23, 127⟩ n)
  match valueCode .f32 ca with
  | .nan => nan (isSnan .f32 ca)
  | .zero n =>
    match f with
    | .rcp | .rsq => w32 (inf n, flagDZ)
    | .exp2 | .cos => w32 (0x3F800000, 0)
    | .log2 => w32 (inf true, flagDZ)
    | .sin => w32 (ca, 0)
  | .inf n =>
    match f with
    | .rcp => w32 (signed .f32 n 0, 0)
    | .rsq => if n then nan true else w32 (0, 0)
    | .exp2 => if n then w32 (0, 0) else w32 (inf false, 0)
    | .log2 => if n then nan true else w32 (inf false, 0)
    | .sin | .cos => nan true
  | .fin n m e =>
    if n && (f == .rsq || f == .log2) then nan true
    else w32 (f.result ftz (BitVec.ofNat 32 ca) n m e)

/-! Conversions -/

/-- The type of a source code (R229). -/
def srcType (c : SrcCode) : TypeCode := c.code

/-- The scale byte that a tag gives an operand in a lane, when it applies (R211). -/
def View.scaleOf (v : View) (o : Opnd) (t : TypeCode) (l : Nat) : Option Nat :=
  match o with
  | .v n =>
    let tag := (v.vreg n.val).tag.toNat
    if fmtCode t != 0 && tag % 256 == fmtCode t then some (if l < 16 then tag / 256 % 256 else tag / 65536) else none
  | _ => none

/-- A value under an optional scale, with IV for a scale of 0xFF (R211, R215). -/
def scaledBy (x : FVal) : Option Nat → FVal
  | none => x
  | some b => x.scale b

def ivOf : Option Nat → Flags
  | some b => flagIf (b == 255) flagIV
  | none => 0

/-- One element converted (R230). DEDUCED: a signalling NaN sets NV whatever its scale (R215, log 82). -/
def View.cvt1 (v : View) (src t : TypeCode) (md : RMode) (o : Opnd) (l : Nat) (code : Nat) : Nat × Flags :=
  let sc := v.scaleOf o src l
  let r := convertTo t md (satnOf v.gang.fpmode) (isSnan src code) (scaledBy (valueCode src code) sc)
  (r.1, r.2 ||| ivOf sc)

/-- CVT (R231). -/
def cvtOp (p : Pred) (src : SrcCode) (t : TypeCode) (rnd : Rnd) (d a : Opnd) (v : View) : View :=
  let md := modeOf v.gang.fpmode rnd
  v.compute p false d [a] fun l => w32 (v.cvt1 (srcType src) t md a l (elemOf (srcType src) (v.rd32 a l) 0))

/-- Elements 2s and 2s + 1 of a word replaced. -/
def putPair (t : TypeCode) (old : Word) (s x y : Nat) : Word :=
  let b := elemBits t
  let keep := old.toNat - old.toNat / 2 ^ (2 * b * s) % 2 ^ (2 * b) * 2 ^ (2 * b * s)
  BitVec.ofNat 32 (keep + (x + y * 2 ^ b) * 2 ^ (2 * b * s))

/-- CVTP (R232). -/
def cvtpOp (p : Pred) (src : SrcCode) (t : TypeCode) (rnd : Rnd) (d a b : Opnd) (s : Nat) (v : View) : View :=
  let md := modeOf v.gang.fpmode rnd
  let st := srcType src
  let word (r1 r2 : Nat × Flags) (w : Word) : DWord × Flags := (w.setWidth 64, r1.2 ||| r2.2)
  if st == .f32 then
    v.compute p false d (if fmt16 t then [a, b] else [a, b, d]) fun l =>
      let x := v.cvt1 st t md a l (v.rd32 a l).toNat
      let y := v.cvt1 st t md b l (v.rd32 b l).toNat
      word x y (if fmt16 t then BitVec.ofNat 32 (y.1 * 65536 + x.1) else putPair t (v.rd32 d l) s x.1 y.1)
  else if t == .f32 then
    v.compute p false d [a] fun l => w32 (v.cvt1 st t md a l (elemOf st (v.rd32 a l) s))
  else
    v.compute p false d [a] fun l =>
      let x := v.cvt1 st t md a l (elemOf st (v.rd32 a l) (2 * s))
      let y := v.cvt1 st t md a l (elemOf st (v.rd32 a l) (2 * s + 1))
      word x y (BitVec.ofNat 32 (y.1 * 65536 + x.1))

/-- TAGGET (R233). -/
def taggetOp (p : Pred) (d a : Opnd) (v : View) : View :=
  match a with
  | .v n => v.wrUniform p d ((v.vreg n.val).tag.setWidth 32)
  | _ => v

/-- TAGSET (R234). -/
def tagsetSem (p : Pred) (d a : Opnd) : Sem := fun s x =>
  let act := x.v.act p
  if !p.always && act = 0 then .fall s false
  else
    let w := x.v.rd32 a 0
    if w.toNat / 2 ^ 24 != 0 || !sideCodeOk (w.toNat % 256) then .trap s 13 act 0 w false
    else
      match d with
      | .v n => .fall (s.putView x.r (x.v.setVreg n.val ⟨(x.v.vreg n.val).row, w.setWidth 24⟩)) false
      | _ => .fall s false

/-! The shapes of the float instructions -/

def f1 (p : Pred) (d a : Opnd) (f : Word → Word → DWord × Flags) (v : View) : View :=
  v.compute p false d [a] fun l => f v.gang.fpmode (v.rd32 a l)

def f2 (p : Pred) (d a b : Opnd) (f : Word → Word → Word → DWord × Flags) (v : View) : View :=
  v.compute p false d [a, b] fun l => f v.gang.fpmode (v.rd32 a l) (v.rd32 b l)

/-- FADD, FSUB and FMUL; FFMA (R219). -/
def farith2 (o : FArith) (p : Pred) (rnd : Rnd) (d a b : Opnd) : View → View :=
  f2 p d a b fun m x y => w32 (farith o .f32 (modeOf m rnd) (ftzOf m) x.toNat y.toNat 0)

def farith3 (p : Pred) (rnd : Rnd) (d a b c : Opnd) (v : View) : View :=
  v.compute p false d [a, b, c] fun l =>
    let m := v.gang.fpmode
    w32 (farith .fma .f32 (modeOf m rnd) (ftzOf m) (v.rd32 a l).toNat (v.rd32 b l).toNat (v.rd32 c l).toNat)

/-- FCMP (R222). -/
def fcmpOp (p : Pred) (k : FCond) (comb : Comb) (d a b : Opnd) (v : View) : View :=
  let act := v.act p
  let r := fun l => fcmp k (ftzOf v.gang.fpmode) (v.rd32 a l) (v.rd32 b l)
  (v.setBits d act fun l => combine comb v l (r l).1).raiseFlags (orFlags ((laneList act).map fun l => (r l).2))

/-- HADD2, HMUL2 and HFMA2 (R239). -/
def packed2 (o : FArith) (p : Pred) (t : TypeCode) (rnd : Rnd) (d a b c : Opnd) (v : View) : View :=
  v.compute p false d (if o = .fma then [a, b, c] else [a, b]) fun l =>
    let m := v.gang.fpmode
    let one := fun k => farith o t (modeOf m rnd) (ftzOf m) (elemOf t (v.rd32 a l) k) (elemOf t (v.rd32 b l) k)
      (if o = .fma then elemOf t (v.rd32 c l) k else 0)
    let x := one 0
    let y := one 1
    (BitVec.ofNat 64 (y.1 * 65536 + x.1), x.2 ||| y.2)

/-- The exact product of two codes of a type (R205, R240). -/
def prodCode (t : TypeCode) (a b : Nat) : FVal :=
  if t == .lg8 || t == .lg4 then (lgVal t a).mul (lgVal t b) else (valueCode t a).mul (valueCode t b)

/-- The exact sum of a value and some products, rounded once, and whether an operation in it is invalid (R214, R240). -/
def dotSum (md : RMode) (c : FVal) (ps : List FVal) : FVal := ps.foldl (FVal.add md) c

/-- DOT4 and DOT8 of the floating and LG types in a lane, each operand under its scale (R211, R240). DESIGN CHOICE: beside a
NaN element or C, NV is set only by a signalling C, whatever infinities the sum has (log 81). -/
def dotLane (t : TypeCode) (md : RMode) (n : Nat) (a b c : Word) (sa sb sc : Option Nat) : DWord × Flags :=
  let ea := fun i => elemOf t a i
  let eb := fun i => elemOf t b i
  let va := fun i => scaledBy (valueCode t (ea i)) sa
  let vb := fun i => scaledBy (valueCode t (eb i)) sb
  let is := List.range n
  let p := fun i => if sa == some 255 || sb == some 255 then .nan
    else scaledBy (scaledBy (prodCode t (ea i) (eb i)) sa) sb
  let z := scaledBy (valueCode .f32 c.toNat) sc
  let bad := is.any fun i => invalid2 (va i) (vb i) (p i)
  let anyNan := z == .nan || is.any fun i => va i == .nan || vb i == .nan
  let r := dotSum md z (is.map p)
  let nv := isSnan .f32 c.toNat || (!anyNan && (bad || r == .nan))
  let f := finishFp .f32 md false nv r
  w32 (f.1, f.2 ||| ivOf sa ||| ivOf sb ||| ivOf sc)

/-- DOT4 and DOT8 of the integer types in a lane (R240). -/
def dotIntLane (t : TypeCode) (n : Nat) (a b c : Word) : DWord × Flags :=
  fit .i32 true ((List.range n).foldl (fun (acc : Int) i =>
    acc + sint (elemBits t) (elemOf t a i) * sint (elemBits t) (elemOf t b i)) c.toInt)

/-- DOT4 and DOT8 (R240). A and B are scaled by tags of their type, C by a tag of FP32's, and of the integer types none is
(R211). -/
def dotOp (p : Pred) (n : Nat) (t : TypeCode) (rnd : Rnd) (d a b c : Opnd) (v : View) : View :=
  v.compute p false d [a, b, c] fun l =>
    if t == .int8 || t == .int4 then dotIntLane t n (v.rd32 a l) (v.rd32 b l) (v.rd32 c l)
    else dotLane t (modeOf v.gang.fpmode rnd) n (v.rd32 a l) (v.rd32 b l) (v.rd32 c l) (v.scaleOf a t l) (v.scaleOf b t l)
      (v.scaleOf c .f32 l)

end Sys2Proof.Machine
end

