-- ==== Sys2Proof/Machine/MatOps.lean ====
section
/-!
DEFINITION. The matrix engine at work (R87, R417 to R433, R437) and what the MATRIX instructions do (R422, R423, R434 to
R436, R443 to R447).
-/
namespace Sys2Proof.Machine

/-! Arithmetic -/

/-- Formats that the array accepts (R418), by code. -/
def matFmt : Nat → Option TypeCode
  | 3 => some .bf16 | 4 => some .e4m3 | 5 => some .e5m2 | 6 => some .e2m1 | 7 => some .int8 | 8 => some .int4
  | 9 => some .lg8 | 10 => some .lg4 | _ => none

/-- Pairs of A and B formats admitted together (R418). -/
def matPair (a b : TypeCode) : Bool :=
  let g8 := fun (t : TypeCode) => t == .e4m3 || t == .e5m2 || t == .int8
  let g4 := fun (t : TypeCode) => t == .e2m1 || t == .int4
  (g8 a && g8 b) || (g4 a && g4 b) || (a == .lg8 && b == .lg8) || (a == .lg4 && b == .lg4) || (a == .bf16 && b == .bf16)

/-- RoundF32 (R424). -/
def rF32 (x : FVal) : FVal := unpack32 (round32 .ne x).bits

/-- A value as FP32 bits, every NaN canonical (R425). -/
def bits32 (x : FVal) : Word := (round32 .ne x).bits

/-- Prod (R424, R425). -/
def matProd (fa fb : TypeCode) (a b : Nat) : FVal :=
  if fa == fb then prodCode fa a b else (valueCode fa a).mul (valueCode fb b)

/-- A segment's rounded, scaled sum (R424, R425): `as` and `bs` are its element codes, `sa` and `sb` its scales. -/
def matSeg (fa fb : TypeCode) (as bs : List Nat) (sa sb : Nat) (ok : Bool) : FVal :=
  if sa = 255 ∨ sb = 255 ∨ !ok then .nan
  else
    match dotSum .ne (.zero false) ((as.zip bs).map fun p => matProd fa fb p.1 p.2) with
    | .zero _ => .zero false
    | x => rF32 (x.shift ((sa : Int) + sb - 254))

/-- The element codes of some bytes (R207). -/
def codesOf (t : TypeCode) (bs : List Byte) : List Nat := (List.range (8 * bs.length / elemBits t)).map (elemAt t bs)

/-- The bytes of a register row (R207). -/
def rowBytes (r : Row) : List Byte := (List.range 32).flatMap fun l => natLe 4 (Row.lane r l).toNat

/-- One value of a D row (R424): `a0`, `a1` are the A row's segments, `g0`, `g1` the column's granules. -/
def matValue (fa fb : TypeCode) (tag : Tag) (a0 a1 : List Nat) (g0 g1 : Granule) (acc : FVal) : FVal :=
  let seg := fun (as : List Nat) (sa : Nat) (g : Granule) =>
    matSeg fa fb as (codesOf fb g.bs) sa (g.side.toNat / 256) (g.side.toNat % 256 == fmtCode fb)
  let x := rF32 (acc.add .ne (seg a0 (tag.toNat / 256 % 256) g0))
  rF32 (x.add .ne (seg a1 (tag.toNat / 65536) g1))

/-- One D row (R424). -/
def matRow (fa fb : TypeCode) (a : VReg) (tile : List Granule) (acc : Nat → FVal) : List Byte :=
  let bs := rowBytes a.row
  let a0 := codesOf fa (bs.take 64)
  let a1 := codesOf fa (bs.drop 64)
  let g := fun k => tile.getD k ⟨[], 0⟩
  (List.range 128).flatMap fun n =>
    natLe 4 (bits32 (matValue fa fb a.tag a0 a1 (g (2 * n)) (g (2 * n + 1)) (acc n))).toNat

/-- One output row of MCVT (R445). -/
def cvtRow (t : TypeCode) (scale : Nat) (src : List Byte) : List Byte :=
  let code := fun n =>
    let x := unpack32 (wordAt src n)
    (convertTo t .ne true false (if scale = 255 then .nan else x.shift (127 - (scale : Int)))).1
  let per := 32 / elemBits t
  (List.range (128 / per)).flatMap fun w =>
    natLe 4 ((List.range per).foldl (fun n k => n + code (per * w + k) * 2 ^ (elemBits t * k)) 0)

/-- One row of MACC (R446). -/
def accRow (src dst : List Byte) : List Byte :=
  (List.range 128).flatMap fun n =>
    natLe 4 (bits32 ((unpack32 (wordAt dst n)).add .ne (unpack32 (wordAt src n)))).toNat

/-! The engine -/

/-- The operation that a core's engine serves: no operation that arrived earlier uses one of its arrays (R428, R430).
DEDUCED: one that has ended, though it cannot retire yet, holds no engine (R137, log 134). -/
def State.matrixNow (s : State) (core : Nat) : Option MatOp :=
  let go := s.matrix.ops.filter fun o => !o.ended
  (go.find? fun o => o.cores.contains core).bind fun o =>
    if o.cmd.core = core && !((go.takeWhile fun p => p.id != o.id).any fun p => p.cores.any fun c => o.cores.contains c)
    then some o else none

def State.modMat (s : State) (id : Nat) (f : MatOp → MatOp) : State :=
  { s with matrix := { s.matrix with ops := s.matrix.ops.map fun o => if o.id = id then f o else o } }

/-- A tile as it stands in WB, granule by granule (R419). -/
def State.tileAt (s : State) (a : SAddr) : List Granule :=
  (List.range 256).map fun k => ⟨s.bytesAs 63 (a + 64 * k) 64, s.sideAt (a / 64 + k)⟩

/-- Whether a core's array still holds a tile (R432): it was loaded from there last, and no write to its granules has been
performed since. -/
def State.tileKept (s : State) (core : Nat) (a : SAddr) : Bool :=
  s.matrix.kept.any fun k => k.core == core && k.addr == a && k.clean

/-- A tile read granule by granule (R419, R431); the poison it carries. -/
def State.loadTile (s : State) (core : Nat) (a : SAddr) : Option Nat × State :=
  let r := s.engRead 63 a 16384
  let lines := (List.range 256).map fun k => a / 64 + k
  let tile := r.2.tileAt a
  (lines.findSome? r.2.badOf,
   { r.2 with matrix := { r.2.matrix with kept := ⟨core, a, tile, true⟩ :: r.2.matrix.kept.filter fun k => k.core != core } })

/-- The tile in a core's array. -/
def State.tileOf (s : State) (core : Nat) : List Granule := ((s.matrix.kept.find? fun k => k.core == core).map (·.tile)).getD []

/-- An operation has ended: what can retire does, and the engines it used go on (R428, R430). -/
def State.endMatrix (s : State) (o : MatOp) : State :=
  let s := s.modMat o.id fun p => { p with ended := true, entered := none }
  ((s.retireMatrix o.cohort o.gang).tryEndCohort o.cohort).due
    ((List.range 3).map fun k => .matrixOperationStart (o.cmd.core + k - 1))

/-- Poison in what an operation uses stops it, and kills its cohort and, in a team operation, the partner (R438). -/
def State.matrixBad (s : State) (o : MatOp) (a : Nat) : State :=
  let hit := (o.cohort :: o.cmd.team.toList).map fun co => Instr.uncorrectableError (.cohort co 7 a)
  let s := s.modMat o.id fun p => { p with ended := true, entered := none }
  ({ s with agenda := hit ++ s.agenda } : State).due ((List.range 3).map fun k => .matrixOperationStart (o.cmd.core + k - 1))

/-- MATRIX_OPERATION_START (R430, R432): the tiles are loaded unless every core that takes part still holds its own. -/
def State.matrixStart (s : State) (core : Nat) : State :=
  match s.matrixNow core with
  | none => s
  | some o =>
    if o.started then s
    else
      let loads := match o.cmd.kind with | .mma _ _ _ => true | _ => false
      let loads := loads && !(s.tileKept core o.cmd.tile && (!o.cmd.pair || s.tileKept (core + 1) o.cmd.tile2))
      let r := if loads then s.loadTile core o.cmd.tile else (none, s)
      let q := if loads && o.cmd.pair then r.2.loadTile (core + 1) o.cmd.tile2 else (none, r.2)
      match r.1, q.1 with
      | some a, _ => q.2.matrixBad o a
      | _, some a => q.2.matrixBad o a
      | none, none => (q.2.modMat o.id fun p => { p with started := true }).due [.matrixRowEntry core]

/-- A row of AB read by an operation: bytes and the poison it carries. -/
def State.abRow (s : State) (a : Nat) : List Byte × Option Nat × State :=
  let r := s.engRead 63 a 512
  (r.1, (linesOf a 512).findSome? r.2.badOf, r.2)

/-- What a row of an operation becomes in the AB of a core that takes part (R424, R444 to R446): its bytes, the poison met.
`at_` is where the destination row stands. -/
def State.matrixRow (s : State) (o : MatOp) (core at_ : Nat) : List Byte × Option Nat × State :=
  match o.cmd.kind with
  | .mma fa fb z =>
    let a := o.cmd.a.getD o.row vregZero
    let r := if z then ([], none, s) else s.abRow at_
    (matRow fa fb a (s.tileOf core) (fun n => if z then .zero false else unpack32 (wordAt r.1 n)), r.2.1, r.2.2)
  | .clr => (List.replicate 512 0, none, s)
  | .cvt t sc =>
    let r := s.abRow (o.cmd.src + 512 * o.row)
    (cvtRow t sc r.1, r.2.1, r.2.2)
  | .acc =>
    let r := s.abRow (o.cmd.src + 512 * o.row)
    let q := r.2.2.abRow at_
    (accRow r.1 q.1, if r.2.1.isSome then r.2.1 else q.2.1, q.2.2)

/-- Where the row of an operation stands in the AB of its own core, and of the follower (R87). -/
def MatOp.rowAt (o : MatOp) : Nat := o.cmd.dst + (match o.cmd.kind with | .cvt t _ => 16 * elemBits t | _ => 512) * o.row
def MatOp.rowAt2 (o : MatOp) : Nat := o.cmd.dst2 + 512 * o.row

/-- MATRIX_ROW_ENTRY (R87, R433): the row's operands are read, at the core that issued the operation. -/
def State.matrixEntry (s : State) (core : Nat) : State :=
  match s.matrixNow core with
  | none => s
  | some o =>
    if !o.started || o.entered.isSome then s
    else
      let r := s.matrixRow o core o.rowAt
      match r.2.1 with
      | some a => r.2.2.matrixBad o a
      | none => (r.2.2.modMat o.id fun p => { p with entered := some r.1 }).due [.matrixRowWrite core]

/-- A row is done; the operation goes on or ends. -/
def State.matrixNext (s : State) (o : MatOp) : State :=
  let s := s.modMat o.id fun p => { p with entered := none, row := p.row + 1 }
  if o.cmd.rows ≤ o.row + 1 then s.endMatrix o else s.due [.matrixRowEntry o.cmd.core]

/-- MATRIX_ROW_WRITE (R87, R424, R431, R433): a row's results reach AB; in a pair, the follower's row is then read and written. -/
def State.matrixWrite (s : State) (core : Nat) : State :=
  match s.matrixNow core with
  | none => s
  | some o =>
    match o.entered with
    | none => s
    | some x =>
      let s := s.engWrite o.cmd.own o.rowAt x none
      if o.cmd.pair then
        let r := s.matrixRow o (core + 1) o.rowAt2
        match r.2.1 with
        | some a => r.2.2.matrixBad o a
        | none => (r.2.2.engWrite o.cmd.own o.rowAt2 r.1 none).matrixNext o
      else s.matrixNext o

/-! The instructions -/

/-- An offset of R421. -/
def View.matOff (v : View) (o : Opnd) (field : Nat) : Nat := (v.uni o).toNat + 64 * field

/-- The partner of a cohort (R427): in the same slot of the follower, of the same stage and graph. DESIGN CHOICE: a cohort that
holds its slot while its launch waits for its records is one (log 126). -/
def State.partnerOf (s : State) (c : Cohort) : Option Cohort :=
  s.cohorts.find? fun p => p.core == c.core + 1 && p.slot.isSome && p.slot == c.slot && p.part == c.part &&
    p.gslot == c.gslot && p.stage == c.stage && !p.halted

/-- A matrix operand fault's TINFO (R436). -/
def matInfo (reason code index : Nat) : Word := BitVec.ofNat 32 (index * 65536 + code * 256 + reason)

/-- The first of some codes that breaks R418's one format: place and code. -/
def firstBad (l : List Nat) : Option (Nat × Nat) :=
  let head := l.headD 0
  (l.zipIdx.find? fun p => p.1 != head || (matFmt p.1).isNone).map fun p => (p.2, p.1)

/-- A range of a MATRIX instruction: which buffer (1 WB, 2 AB), its cohort, offset and length. -/
structure MatRange where
  wb : Bool
  c : Cohort
  off : Nat
  len : Nat

def MatRange.fits (r : MatRange) : Bool := decide (r.off + r.len ≤ (if r.wb then r.c.wb.size else r.c.ab.size))

/-- Where a range lies. -/
def MatRange.at_ (r : MatRange) : SAddr :=
  if r.wb then wbAt r.c.core (r.c.wb.base + r.off) else abAt r.c.core (r.c.ab.base + r.off)

/-- Rows 5 and 6 of R435. DESIGN CHOICE: of several ranges that fail row 6 it is the first in the order in which the
instruction gives them: the tile, D, and then the partner's; a source before its destination (log 119). -/
def rangeFault (rs : List MatRange) (act : Word) (s : State) : Option Done :=
  if rs.any fun r => r.off % 64 != 0 then some (.trap s 0x19 act 0 (matInfo 8 0 0) false)
  else (rs.find? fun r => !r.fits).map fun r =>
    .trap s 12 act (BitVec.ofNat 64 r.off) (if r.wb then 1 else 2) false

/-- The command that MATRIX instructions share; what acts, waits at 64 operations (R137, R434). -/
def matSem (p : Pred) (k : State → Ctx → Word → Done) : Sem := fun s x =>
  let act := x.v.act p
  if !(p.always || act != 0) then .fall s false
  else if 64 ≤ x.v.gang.counters.matrix then .stall s .counter
  else k s x act

def State.issueMat (s : State) (x : Ctx) (c : MatCmd) : Done := .fall (s.bufferCmd x (.matrix c)) false

/-- A captured command without a tile. -/
def plainMat (x : Ctx) (k : MatKind) (rows : Nat) (dst src : SAddr) (team : Option Nat) : MatCmd :=
  { kind := k, rows := rows, a := [], tile := 0, dst := dst, src := src, pair := false, tile2 := 0, dst2 := 0, team := team
    own := x.c.part, core := x.c.core }

/-- Rows 1 and 2 of R435: the partner of a team operation, or the fault; a team is two cores of one section (R30). -/
def State.teamOf (s : State) (x : Ctx) (team : Bool) (act : Word) (k : Option Cohort → Done) : Done :=
  if !team then k none
  else if x.c.core % 2 = 1 then .trap s 0x19 act 0 (matInfo 1 0 0) false
  else
    match s.partnerOf x.c with
    | none => .trap s 0x19 act 0 (matInfo 2 0 0) false
    | some q => k (some q)

/-- Format codes of a tile's granules as they stand (R435). -/
def State.tileCodes (s : State) (a : SAddr) : List Nat := (List.range 256).map fun k => (s.sideAt (a / 64 + k)).toNat % 256

/-- The tile and the accumulator rows of an MMA in a cohort's buffers (R421, R443). -/
def Ctx.mmaTile (x : Ctx) (b : Opnd) (c : Cohort) : MatRange := ⟨true, c, x.v.matOff b (x.v.imm.toNat / 65536), 16384⟩
def Ctx.mmaAcc (x : Ctx) (d : Opnd) (m : Nat) (c : Cohort) : MatRange := ⟨false, c, x.v.matOff d (x.v.imm.toNat % 65536), 512 * m⟩

/-- The ranges that an MMA checks: its own, then its partner's (R435). -/
def Ctx.mmaRanges (x : Ctx) (d b : Opnd) (m : Nat) (q : Option Cohort) : List MatRange :=
  [x.mmaTile b x.c, x.mmaAcc d m x.c] ++ q.elim [] fun k => [x.mmaTile b k, x.mmaAcc d m k]

/-- The number of an MMA's first row. -/
def rowNumber (a : Opnd) : Nat := match a with | .v k => k.val | _ => 0

/-- What the A latch gives a .reuse form (R422). -/
def Ctx.mmaHeld (x : Ctx) (reuse : Bool) : Latch := if reuse then x.v.gang.latch else none

/-- The A rows of an MMA: those of the latch, or of the registers (R422). -/
def Ctx.mmaRows (x : Ctx) (reuse : Bool) (a : Opnd) (m : Nat) : List VReg :=
  match x.mmaHeld reuse with
  | some h => h.2
  | none => (List.range m).map fun k => x.v.vreg (rowNumber a + k)

/-- The format codes that an MMA's tiles carry (R435). -/
def State.mmaCodes (s : State) (x : Ctx) (b : Opnd) (q : Option Cohort) : List Nat :=
  s.tileCodes (x.mmaTile b x.c).at_ ++ q.elim [] fun k => s.tileCodes (x.mmaTile b k).at_

/-- The formats of A and B that codes name, when the array takes them together (R418). -/
def mmaFmts (rows : List VReg) (codes : List Nat) : Option (TypeCode × TypeCode) :=
  match matFmt ((rows.headD vregZero).tag.toNat % 256), matFmt (codes.headD 0) with
  | some fa, some fb => if matPair fa fb then some (fa, fb) else none
  | _, _ => none

/-- The command of an MMA. -/
def Ctx.mmaCmd (x : Ctx) (fa fb : TypeCode) (z : Bool) (m : Nat) (rows : List VReg) (d b : Opnd) (q : Option Cohort) : MatCmd :=
  { kind := .mma fa fb z, rows := m, a := rows, tile := (x.mmaTile b x.c).at_, dst := (x.mmaAcc d m x.c).at_, src := 0
    pair := q.isSome, tile2 := q.elim 0 fun k => (x.mmaTile b k).at_, dst2 := q.elim 0 fun k => (x.mmaAcc d m k).at_
    team := q.map fun k => k.id, own := x.c.part, core := x.c.core }

/-- Whether a team operation that another core leads keeps an MMA from issuing here (R18, R427, R443): one that is
outstanding (R137): still buffered, in its engine, or ended and waiting there for an older command of its gang to retire. -/
def State.ledHere (s : State) (core : Nat) : Bool :=
  let leads := fun (c : MatCmd) => c.team.isSome && c.core + 1 == core
  core % 2 = 1 && ((s.matrix.ops.any fun o => leads o.cmd) ||
    s.cmds.any fun k => match k.body with | .matrix c => leads c | _ => false)

/-- Whether the latch holds other rows than a reusing MMA names (R422). -/
def Ctx.mmaLatchBad (x : Ctx) (reuse : Bool) (a : Opnd) (m : Nat) : Bool :=
  (x.mmaHeld reuse).any fun h => !(decide (h.1 = rowNumber a) && decide (h.2.length = m))

/-- The other checks of R435 in their order, and then the command. -/
def State.mmaGo (s : State) (x : Ctx) (act : Word) (reuse : Bool) (a : Opnd) (m : Nat) (rs : List MatRange) (rows : List VReg) (codes : List Nat)
    (k : TypeCode → TypeCode → Done) : Done :=
  if reuse && 1 < x.v.gang.parts.length then .trap s 0x19 act 0 (matInfo 3 0 0) false
  else if x.mmaLatchBad reuse a m then .trap s 0x19 act 0 (matInfo 4 0 0) false
  else
    match rangeFault rs act s with
    | some f => f
    | none =>
      match firstBad (rows.map fun (v : VReg) => v.tag.toNat % 256) with
      | some (i, c) => .trap s 0x19 act 0 (matInfo 5 c i) false
      | none =>
        match firstBad codes with
        | some (i, c) => .trap s 0x19 act 0 (matInfo 6 c i) false
        | none =>
          match mmaFmts rows codes with
          | some (fa, fb) => k fa fb
          | none => .trap s 0x19 act 0 (matInfo 7 0 0) false

/-- The latch after an MMA (R422, R423). -/
def State.latched (s : State) (x : Ctx) (reuse : Bool) (a : Opnd) (rows : List VReg) : State :=
  s.modGang x.r.cohort x.r.gang fun g => { g with latch := if reuse then some (rowNumber a, rows) else none }

/-- MMA and MMAP (R18, R422, R423, R435, R443). -/
def mmaSem (p : Pred) (m : Nat) (reuse z pair : Bool) (d a b : Opnd) : Sem := matSem p fun s x act =>
  if s.ledHere x.c.core then .stall s .counter
  else s.teamOf x pair act fun q =>
    let rows := x.mmaRows reuse a m
    s.mmaGo x act reuse a m (x.mmaRanges d b m q) rows (s.mmaCodes x b q) fun fa fb =>
      let u := s.latched x reuse a rows
      u.issueMat (u.fresh x) (x.mmaCmd fa fb z m rows d b q)

/-- MCLR (R444). -/
def mclrSem (p : Pred) (m : Nat) (d : Opnd) : Sem := matSem p fun s x act =>
  let r : MatRange := ⟨false, x.c, x.v.matOff d (x.v.imm.toNat % 65536), 512 * m⟩
  match rangeFault [r] act s with
  | some f => f
  | none => s.issueMat x (plainMat x .clr m r.at_ 0 none)

/-- MCVT (R445). -/
def mcvtSem (p : Pred) (m : Nat) (t : TypeCode) (d a b : Opnd) : Sem := matSem p fun s x act =>
  let imm := x.v.imm.toNat
  let src : MatRange := ⟨false, x.c, x.v.matOff a (imm / 65536), 512 * m⟩
  let dst : MatRange := ⟨false, x.c, x.v.matOff d (imm % 65536), 16 * elemBits t * m⟩
  match rangeFault [src, dst] act s with
  | some f => f
  | none => s.issueMat x (plainMat x (.cvt t ((x.v.uni b).toNat % 256)) m dst.at_ src.at_ none)

/-- MACC (R446). -/
def maccSem (p : Pred) (m : Nat) (team : Bool) (d a : Opnd) : Sem := matSem p fun s x act =>
  s.teamOf x team act fun partner =>
    let imm := x.v.imm.toNat
    let src : MatRange := ⟨false, partner.getD x.c, x.v.matOff a (imm / 65536), 512 * m⟩
    let dst : MatRange := ⟨false, x.c, x.v.matOff d (imm % 65536), 512 * m⟩
    match rangeFault [src, dst] act s with
    | some f => f
    | none => s.issueMat x (plainMat x .acc m dst.at_ src.at_ (partner.map fun q => q.id))

/-- MREL (R422, R434, R447). -/
def mrelSem (p : Pred) : Sem := fun s x =>
  if p.always || x.v.act p != 0 then .fall (s.modGang x.r.cohort x.r.gang fun g => { g with latch := none }) false
  else .fall s false

end Sys2Proof.Machine
end

