-- ==== Sys2Proof/Machine/EvEng.lean ====
section
/-!
DEFINITION. The meanings of the steps of the copy unit and the matrix engine (chapters 11, 12 of spec/).
-/
namespace Sys2Proof.Machine

/-- COPY_CHUNK_ISSUE (R386). -/
def execCopyChunkIssue (core : Nat) (s : State) : Out := event (fun s => s.copyIssue core) s

/-- COPY_CHUNK_DATA (R85). -/
def execCopyChunkData (core : Nat) (op : Nat) (s : State) : Out := event (fun s => s.copyData op) s

/-- MATRIX_OPERATION_START (R430). -/
def execMatrixOperationStart (core : Nat) (s : State) : Out := event (fun s => s.matrixStart core) s

/-- MATRIX_ROW_ENTRY (R433). -/
def execMatrixRowEntry (core : Nat) (s : State) : Out := event (fun s => s.matrixEntry core) s

/-- MATRIX_ROW_WRITE (R424). -/
def execMatrixRowWrite (core : Nat) (s : State) : Out := event (fun s => s.matrixWrite core) s

end Sys2Proof.Machine
end

