-- ==== Sys2Proof/Machine/Direct.lean ====
section
/-!
DEFINITION. Loads and stores that an instruction makes for itself, all at once or request by request (R109, R485, R486, R533,
R576).
-/
namespace Sys2Proof.Machine

/-- Whether an instruction with uniform operands acts (R381, R478, R529, R576). -/
def View.acts (v : View) (p : Pred) : Bool := p.always || v.act p != 0

/-- The context of a part as if it stood at another ring (R486). -/
def Ctx.atRing (x : Ctx) (r : Ring) : Ctx := { x with v := { x.v with part := { x.v.part with ring := r } } }

/-- The accesses of `n` bytes at an address, at most 16 bytes each. -/
def directElems (x : Ctx) (va : DWord) (n : Nat) : List Elem :=
  (List.range ((n + 15) / 16)).map fun k =>
    ⟨4 * lowQuad x.v.part.quads, (va + BitVec.ofNat 64 (16 * k)).toNat, min 16 (n - 16 * k)⟩

/-- The access under way of an instruction that makes it request by request: its bytes once all have come. -/
def directDone (n : Nat) (act : Word) (k : State → Ctx → List Byte → Done) : Sem := fun s x =>
  let pid := x.v.part.id
  let s := s.advance pid ((s.partReqs pid).length + 1)
  let qs := s.partReqs pid
  if qs.any (·.ans.isNone) then .stall s .remote
  else
    let s := (s.dropReqs pid).modPart x.r fun p => { p with pend := none }
    match faultOf true act (qs.filterMap Request.bad) with
    | some (c, lanes, a, i, z) => .raise s .here c lanes a i z
    | none => k s (s.fresh x) (answerBytes n qs)

/-- Its accesses checked, and begun where one is remote; `here` performs local ones. -/
def directGo (ring : Ring) (noIo : Bool) (len : Nat) (va : DWord) (n : Nat) (act : Word) (how : How)
    (kind : Piece → PeerKind) (here : State → Ctx → List Piece → Done) (k : State → Ctx → List Byte → Done) : Sem := fun s x =>
  if x.v.part.pend.isSome then directDone n act k s x
  else
    let y := x.atRing ring
    let r := State.checkElems y .glob how (directElems y va n) s
    if s.lost r.2 x.r then .placed r.2
    else if r.1.wait then .stall r.2 .load
    else
      match faultOf true act r.1.bad with
      | some (c, lanes, a, i, z) => .trap r.2 c lanes a i z
      | none =>
        if noIo && r.1.ok.any fun p => p.x.io then .trap r.2 10 act va 0 false
        else if r.1.remote then
          match r.2.startPend y ⟨.raw, len, true, act⟩ (r.1.ok.map fun p => (p, kind p)) with
          | .stall s _ => directDone n act k s (s.fresh x)
          | d => d
        else here r.2 ((r.2.fresh x).atRing ring) r.1.ok

/-- What an irrevocable instruction has read took its place when it was performed: nothing strikes it afterwards (R109). -/
def State.unread (s : State) (r : PartRef) : State :=
  s.modPart r fun p => { p with runs := modLast (fun x => { x with reads := [], spill := [] }) p.runs }

/-- A load of `n` bytes. -/
def directLoad (ring : Ring) (noIo : Bool) (len : Nat) (va : DWord) (n : Nat) (act : Word)
    (k : State → Ctx → List Byte → Done) : Sem :=
  directGo ring noIo len va n act howLoad.own (fun q => .load q.len)
    (fun s x ps => readHere .glob true act (fun s x rd => k (s.unread x.r) ((s.unread x.r).fresh x) (ps.flatMap rd)) s x ps) k

/-- A store. -/
def directStore (ring : Ring) (len : Nat) (va : DWord) (bs : List Byte) (act : Word) (k : State → Ctx → Done) : Sem :=
  let bytes := fun (q : Piece) => (bs.drop (q.va - va).toNat).take q.len
  directGo ring false len va bs.length act howStore.own (fun q => .store (bytes q) (some Sides.untyped) false)
    (fun s x ps =>
      if ps.any fun p => s.blocked (p.x.addr / 64) .write (some x.v.part.id) then .stall s .load
      else
        let put := fun (t : State) (p : Piece) =>
          (t.setDirty x.c.part p.x.leaves).homeWrite (some x.v.part.id) (ownAt ring x.c.part) p.x.addr (bytes p) (some Sides.untyped)
        let s := ps.foldl put s
        k s (s.fresh x))
    fun s x _ => k s x

/-- A status written to D (R171, R486, R529, R576), which ends the instruction. -/
def State.answer (s : State) (x : Ctx) (p : Pred) (d : Opnd) (n : Nat) : Done :=
  let x := s.fresh x
  .fall (s.putView x.r (x.v.wrUniform p d (BitVec.ofNat 32 n))) true

end Sys2Proof.Machine
end

