-- ==== Sys2Proof/Machine/SysOps.lean ====
section
/-!
DEFINITION. Merging waiting parts (R155), return from a trap (R358, R359), and the SYS instructions that act on parts, gangs
and translations (R361, R364, R366, R368 to R370).
-/
namespace Sys2Proof.Machine

/-! Merging -/

/-- Bits of a word in the lanes of some quads from another (R155). -/
def takeLanes (w from_ : Word) (q : QMask) : Word := (w &&& ~~~(quadLanes q)) ||| (from_ &&& quadLanes q)

/-- The merged part of a group whose parts come in ascending order of lowest quad (R155): where it goes on is set by the
caller. A group of one only ends its wait. -/
def mergeParts : List Part → Option Part
  | [] => none
  | [p] => some { p with xw := vof 8 fun _ => 0, runs := [], wait := .none, trap := none }
  | p :: t => some
    { p with
      quads := t.foldl (fun m x => m ||| x.quads) p.quads
      exec := t.foldl (fun m x => takeLanes m x.exec x.quads) p.exec
      aflags := t.foldl (fun m x => m ||| x.aflags) p.aflags
      drag := p.drag || t.any (·.drag)
      dragCommits := 0
      rbCount := 0
      tlbis := t.foldl (fun m x => m ++ x.tlbis) p.tlbis
      xw := vof 8 fun _ => 0
      runs := []
      wait := .none
      trap := none }

/-- Parts in ascending order of their lowest quad. -/
def sortParts (ps : List Part) : List Part :=
  (List.range 8).filterMap fun q => ps.find? fun p => lowQuad p.quads == q

/-- A group replaced by one part in its gang. -/
def Gang.replace (g : Gang) (old : List Part) (new : List Part) : Gang :=
  { g with parts := sortParts ((g.parts.filter fun p => !old.any fun o => o.id == p.id) ++ new) }

/-- The union of some parts' quads. -/
def quadsOf (ps : List Part) : QMask := ps.foldl (fun m p => m ||| p.quads) 0

/-- The banked s copies of some quads made those of one of them (R155, R342). -/
def Bank.spread (b : Bank) (q : QMask) (from_ : Nat) : Bank :=
  { b with s := vof 64 fun i => if q.getLsbD (i / 8) then vget b.s (8 * from_ + i % 8) 0 else vget b.s i 0 }

/-- The s registers of a part's lowest quad made those of some quads: above ring U, where each quad has its copy of s24 to
s31 (R342). -/
def Gang.spread (g : Gang) (ring : Ring) (q : QMask) : Gang :=
  if ring = .U then g else g.setBank ring ((g.bank ring).spread q (lowQuad q))

/-- A group merged into one part (R155): its s24 to s31 are those of its lowest quad. A group of one changes nothing. -/
def Gang.mergeInto (g : Gang) (ps : List Part) (m : Part) : Gang :=
  let g := g.replace ps [m]
  if ps.length ≤ 1 then g else g.spread m.ring m.quads

/-! TRET -/

/-- The slot and frame that TRET returns from (R344, R358). -/
def View.tretFrame (v : View) : Nat × Frame :=
  let b := v.gang.bank v.part.ring
  let i := b.slotOf (lowQuad v.part.quads)
  (i, b.frame i)

/-- The parts that stand at a TRET with a part: same ring and counter, waiting there (R358). -/
def Gang.atTret (g : Gang) (p : Part) (q : QMask) : List Part :=
  sortParts (g.parts.filter fun x => x.quads &&& ~~~q == 0 && x.ring == p.ring && x.pc == p.pc &&
    (x.id == p.id || (match x.wait with | .tret _ => true | _ => false)))

/-- What the checks of a frame's resume counters come to (R358): headers by quad; the first failure, with its counter; a wait. -/
inductive Epcs where
  | ok (l : List (Nat × DWord))
  | fault (f : XFault) (pc : DWord)
  | wait
  deriving DecidableEq, Repr

/-- The resume counters of a frame checked in ascending order of quads (R358). -/
def State.checkEpcs (x : Ctx) (f : Frame) (ring : Ring) : List Nat → State → Epcs × State
  | [], s => (.ok [], s)
  | q :: t, s =>
    let pc := vget f.epc q 0
    let k := s.checkTarget x.c.core x.c.part x.c.gslot ring pc false true
    match k.1 with
    | .fault e => (.fault e pc, k.2)
    | .wait => (.wait, k.2)
    | .ok h =>
      let r := State.checkEpcs x f ring t k.2
      match r.1 with
      | .ok l => (.ok ((q, h) :: l), r.2)
      | e => (e, r.2)

/-- The parts that a frame's quads become, grouped by resume counter (R358); `id` numbers all but the first. -/
def tretParts (f : Frame) (base : Part) (hs : List (Nat × DWord)) : (id : Nat) → List Nat → (fuel : Nat) → List Part
  | _, _, 0 => []
  | _, [], _ => []
  | id, q :: t, n + 1 =>
    let pc := vget f.epc q 0
    let same := t.filter fun k => vget f.epc k 0 == pc
    let rest := t.filter fun k => vget f.epc k 0 != pc
    { base with
      id := id
      quads := same.foldl (fun m k => m ||| qbit k) (qbit q)
      pc := pc
      header := ((hs.find? fun h => h.1 == q).map (·.2)).getD 0 } ::
    tretParts f base hs (id + 1) rest n

/-- The state that a part takes back from its frame (R358). TSTAT keeps drag mode, not how many runs the part has committed
in it, so that the count of R114 starts again (R122, log 70). -/
def Part.restored (p : Part) (f : Frame) (ring : Ring) : Part :=
  { p with
    ring := ring
    p := vof 8 fun i => if i = 0 then 0 else vget f.preds i 0
    aflags := f.afl.setWidth 7
    exec := f.exec
    drag := f.stat.getLsbD 8
    dragCommits := 0
    rbCount := 0
    xw := vof 8 fun _ => 0
    runs := []
    wait := .none
    trap := none
    pend := none }

/-- A part that has returned (R358, R359): its frame closed, its quads where they resume, with what it held before; parts into
which it splits each have a copy of what it has at its new ring, s24 to s31 too (R126, R342). DEDUCED: the
ring is the PRING that the frame holds, also where software has written one that is not below the part's (R338, log 104). -/
def State.returned (s : State) (x : Ctx) (park : Bool) (i : Nat) (f : Frame) (hs : List (Nat × DWord)) : State :=
  let ring := Ring.ofNum (f.cause.toNat / 256 % 4)
  let ps := tretParts f (x.v.part.restored f ring) hs s.nextId (quadList (f.stat.setWidth 8)) 8
  let ps := match ps with | p :: t => { p with id := x.v.part.id } :: t | [] => []
  let s := { s with nextId := s.nextId + 8 }
  let s := s.modGang x.r.cohort x.r.gang fun g =>
    let b := g.bank x.v.part.ring
    let g := (g.setBank x.v.part.ring (b.setFrame i { f with isOpen := false })).replace [x.v.part] ps
    if 1 < ps.length then { g.spread ring x.v.part.quads with latch := none } else g
  let s := s.modCohort x.r.cohort fun c => { c with progress := true }
  if park then s.park x.r.cohort x.r.gang else s

/-- TRET and TRET.park (R358, R359, R365). -/
def tretSem (park : Bool) : Sem := fun s x =>
  let (i, f) := x.v.tretFrame
  let q : QMask := f.stat.setWidth 8
  if x.v.part.quads != q then
    let ps := x.v.gang.atTret x.v.part q
    if quadsOf ps == q then
      match mergeParts ps with
      | some m => .placed ((s.modGang x.r.cohort x.r.gang fun g => g.mergeInto ps m))
      | none => .stall s (.tret park)
    else .stall s (.tret park)
  else
    let ring := Ring.ofNum (f.cause.toNat / 256 % 4)
    let k := State.checkEpcs x f ring (quadList q) s
    if s.lost k.2 x.r then .placed k.2
    else
      match k.1 with
      | .fault e pc => .raise k.2 .here e.code (x.v.act ⟨0, false⟩) pc 0 e.s2
      | .wait => .stall k.2 .load
      | .ok hs => .placed (k.2.returned x park i f hs)

/-! System calls and arithmetic traps -/

/-- What becomes of the trap of a SYSC, HCALL, MCALL or TRAP: it is taken; no ring takes it (R340); or the page of its entry line
is under a tier move (R545). -/
inductive CallFate where
  | taken | stops | waits
  deriving DecidableEq, Repr

/-- Whether a gang is in a monitor stop. -/
def State.monStopped (s : State) (r : PartRef) : Bool := (s.gang? r.cohort r.gang).any fun g => g.monStop

/-- The fate of a call's trap, tried on the state in which the call's run has been performed. In a run that goes on without
logging, which cannot be rolled back, it is taken whatever comes of it (R111). -/
def State.callFate (s : State) (x : Ctx) (code : Nat) (info : Word) : CallFate :=
  let p := x.v.part
  if (p.curRun?.map (·.noLog)).getD false then .taken
  else
    let u := s.raise x.r ⟨code, x.v.act ⟨0, false⟩, 0, info, false, p.pc, 0, p.pc, .next⟩
    if u.monStopped x.r then .stops else if ((u.part? x.r).bind (·.trap)).isSome then .waits else .taken

/-- SYSC, HCALL, MCALL and TRAP (R112, R364), which issue in the state `s0`. Where no ring takes the trap, it is not taken: the
part's run is not committed, and it stands at the run's start (R340, R379, log 13). -/
def callTrapSem (code : Nat) (a : Opnd) (s0 : State) : Sem := fun s x =>
  let act := x.v.act ⟨0, false⟩
  let info := x.v.rd32 a 0
  if act = 0 then .fall s true
  else
    match s.callFate x code info with
    | .taken => .raise s .next code act 0 info false
    | .stops => .placed ((s0.rollback x.r false).monitorStop x.r x.c.part x.c.core)
    | .waits => .stall s0 .load

/-- TFENCE (R361, R366). -/
def tfenceSem : Sem := fun s x =>
  let f := x.v.part.aflags &&& x.v.gang.aenable
  if f = 0 then .fall s true else .raise s .next 0x10 (x.v.act ⟨0, false⟩) 0 (f.setWidth 32) false

/-! Handles -/

/-- The cohort and gang that a handle names for a partition (R368). DESIGN CHOICE: a gang that has finished counts as resident as
long as its cohort does (log 105). -/
def State.ofHandle (s : State) (part : Nat) (h : Word) : Option (Cohort × Gang) :=
  let n := h.toNat
  if n / 65536 != 0 then none
  else
    match s.coreReal part (n % 256) with
    | none => none
    | some core =>
      match s.cohorts.find? fun c => c.core == core && c.slot == some (n / 256 % 16) && c.part == part with
      | none => none
      | some c => (c.gang? (n / 4096 % 16)).map fun g => (c, g)

/-- A status written to D (R171, R368). -/
def State.status (s : State) (x : Ctx) (d : Opnd) (n : Nat) : Done :=
  let x := s.fresh x
  .fall (s.putView x.r (x.v.wrUniform ⟨0, false⟩ d (BitVec.ofNat 32 n))) true

/-- GRESUME (R360, R368, R379). -/
def gresumeSem (d a : Opnd) : Sem := fun s x =>
  match s.ofHandle x.c.part (x.v.rd32 a 0) with
  | none => s.status x d 2
  | some (c, g) =>
    if g.parked then (s.modGang c.id g.idx fun g => { g with parked := false, monStop := false }).status x d 0
    else s.status x d 1

/-! Translations -/

/-- TLBI (R369): the entries that a scope names, with `s2` those of them that went through stage 2. Walk-cache entries name
neither a page nor an ASID, so that every scope removes those of its stage (log 71). DESIGN CHOICE: scope 0 takes its address
as a virtual one, with `s2` too (log 92). -/
def State.tlbi (s : State) (part : Nat) (sc : TlbiScope) (s2 : Bool) (va : DWord) (asid : Nat) : State :=
  let names := fun (e : TlbEntry) => e.part == part && (!s2 || e.two) &&
    (match sc with
      | .page => e.vpage == va.toNat % 2 ^ 57 / 2 ^ e.size && (e.glb || e.asid == asid)
      | .asid => !e.glb && e.asid == asid
      | .all => true)
  { s with
    tlb := s.tlb.filter fun e => !names e
    walkCache := s.walkCache.filter fun w => w.part != part || (s2 && !w.two) }

/-- Accesses of a partition under way, by number (R370): stores, requests and copies. -/
def State.underWay (s : State) (part : Nat) : List Nat :=
  ((s.stores.filter fun e => e.own == part).map fun e => e.id) ++ ((s.reqs.filter fun q => q.own == part).map fun q => q.id) ++
    (s.copy.ops.filter fun o => o.cmd.own == part && !o.flights.isEmpty).map fun o => o.id

def tlbiSem (sc : TlbiScope) (s2 : Bool) (a b : Opnd) : Sem := fun s x =>
  let t := s.tlbi x.c.part sc s2 (x.v.rd64 false a 0) ((x.v.rd32 b 0).toNat % 65536)
  .fall (t.modPart x.r fun p => { p with tlbis := p.tlbis ++ t.underWay x.c.part }) true

/-- TLBSYNC (R370): what was under way when the part's TLBIs removed its translations has been performed. -/
def tlbsyncSem : Sem := fun s x =>
  let now := s.underWay x.c.part
  if x.v.part.tlbis.any now.contains then .stall s .load
  else .fall (s.modPart x.r fun p => { p with tlbis := [] }) true

end Sys2Proof.Machine
end

