-- ==== Sys2Proof/Machine/Units.lean ====
section
/-!
DEFINITION. Who is active on a section, register units, buffer ranges and the save area (R15, R140, R141, R273, R471, R551, R552, R563 to R566, R569).
-/
namespace Sys2Proof.Machine

/-! Sections -/

/-- Sections that a partition holds (R547). -/
def Partition.held (p : Partition) : List Nat := (List.range 48).filter fun k => p.secs.getLsbD k

/-- Sections that a partition has borrowed, ascending (R552). -/
def State.borrowed (s : State) (part : Nat) : List Nat :=
  (List.range 48).filter fun k => s.tier.lends.any fun l => l.sec == k && l.borrower == part

/-- The index of a core's section in the save area and the bank reserve (R564): held sections first, then borrowed ones. -/
def State.secIndex (s : State) (part core : Nat) : Option Nat :=
  match s.partition? part with
  | none => none
  | some p => ((p.held ++ s.borrowed part).zipIdx.find? fun x => x.1 == core / 4).map (·.2)

/-- Whether a section is among those of a partition (R547, R552): held, given to no child and not lent, or borrowed. -/
def State.has (s : State) (part sec : Nat) : Bool :=
  match s.partition? part with
  | none => false
  | some p =>
    (p.secs.getLsbD sec && !(s.parts.any fun q => q.parent == part && q.level == 2 && q.secs.getLsbD sec)
      && !(s.tier.lends.any fun l => l.sec == sec && l.lender == part)) || (s.borrowed part).contains sec

/-- Whether a partition may be active on a section: it is active and has it; the boot context, while a cohort of it is there
(R15, R603). -/
def State.maySit (s : State) (part sec : Nat) : Bool :=
  if part = 63 then s.cohorts.any fun c => c.part == 63 && c.core / 4 == sec
  else (s.partition? part).any (·.active) && s.has part sec

/-- Whether a cohort of a partition still runs on a section: one whose partition halts, is reset or has lost the section goes on
in its slot to its run boundaries, and one that has finished, or is halted in place, may have copies and matrix operations
under way, which use the section's L2 TLB and walker (R15, R113, R143, R331). -/
def State.lingers (s : State) (part sec : Nat) : Bool :=
  s.cohorts.any fun c => c.part == part && c.core / 4 == sec && c.bound && (c.slot.isSome || c.gangs.any Gang.working)

/-- Who is active on a section (R15, R603): who still has a cohort that runs there; else who already was, as long as it may be;
else the boot context or the first of the partitions that may. -/
def State.onSec (s : State) (sec : Nat) : Option Nat :=
  let all := 63 :: s.parts.map (·.num)
  ((all.find? fun k => s.lingers k sec).or ((assocGet s.tier.onSecs sec).filter fun k => s.maySit k sec)).or (all.find? fun k => s.maySit k sec)

/-- The recorded children of other partitions that have a section stay halted, since a partition has become active on it (R561). -/
def State.barOn (s : State) (part sec : Nat) : State :=
  let bars := fun (k : Nat) => k != part && (s.partition? k).any fun q => q.parent != part && (q.held ++ s.borrowed k).contains sec
  let upd := fun (p : Partition) => if p.num = part then p else { p with kids := p.kids.filter fun k => !bars k }
  { s with parts := s.parts.map upd }

/-- Who is active on a section is noted: one that then gets it is not active there before the one that is has left (R15, log
76). A partition that was not noted has become active on it meanwhile (R561). -/
def State.noteSec (s : State) (sec : Nat) : State :=
  let now := s.onSec sec
  if assocGet s.tier.onSecs sec = now then s
  else
    let s := match now with | some p => s.barOn p sec | none => s
    let rest := s.tier.onSecs.filter fun x => x.1 != sec
    { s with tier := { s.tier with onSecs := now.elim rest fun p => (sec, p) :: rest } }

/-- The same on every section. -/
def State.noteSecs (s : State) : State := (List.range 48).foldl State.noteSec s

/-- Whether a section is a partition's or the boot context's to launch and to run on (R15, R547, R552, R603): nobody else is
active there. -/
def State.rules (s : State) (part sec : Nat) : Bool :=
  (part == 63 || s.has part sec) && (s.onSec sec).all (· == part)

/-- Whether another partition than one, or the boot context, is active on a section (R15, R583, R603). -/
def State.usedBy (s : State) (part sec : Nat) : Bool := (s.onSec sec).any (· != part)

/-- The oldest queued walk of a section that its walker serves: only those of the partition active there (R15, R273). -/
def State.nextWalk (s : State) (sec : Nat) : Option WalkReq := s.walks.find? fun w => w.sec == sec && s.onSec sec == some w.part

/-- PAGE_WALK (R273): the walker of a section completes its oldest queued walk; one that would fault is dropped. -/
def State.walkNext (s : State) (sec : Nat) : State :=
  match s.nextWalk sec with
  | none => s
  | some w =>
    let s := { s with walks := s.walks.erase w }
    (s.translate w.core w.part w.gslot w.ring (if w.store then .store else .load) false w.va).2

/-- The core whose TLBs and walker translate for a tier job (R15, R576). DESIGN CHOICE: the one that issued it, or, where the job's
partition is not active on its section, one of a section on which it is; none where it is active on none (log 76). -/
def State.jobCore (s : State) (w : Whose) : Option Nat :=
  if s.onSec (w.core / 4) = some w.part then some w.core
  else ((List.range 48).find? fun k => s.onSec k == some w.part).map fun k => 4 * k

/-! Bank images -/

/-- Where the image of a bank lies (R343): `k` is the section, `j` the core's position in it, `g` the gang slot, `r` the ring. -/
def imageAt (base k j g r : Nat) : Nat := base + 4096 * ((4 * k + j) * 192 + g * 3 + (r - 1))

/-- The address of a gang's bank image for a ring (R343): in the monitor reserve at M, with k over all sections, else in its
partition's. A bank image is no location, and what it holds stays in the gang's record (log 11). -/
def State.bankImage (s : State) (c : Cohort) (g : Gang) (r : Ring) : Option Nat :=
  match r with
  | .U => none
  | .M => some (imageAt s.pkg.mrsv.toNat (c.core / 4) (c.core % 4) g.slot 3)
  | r =>
    match s.partition? c.part, s.secIndex c.part c.core with
    | some p, some k => some (imageAt p.reserve.toNat k (c.core % 4) g.slot r.num)
    | _, _ => none

/-! The save area -/

/-- Whose space a partition's save area and slice word lie in (R548, R562, R564): H's for a level-1 partition, its parent's
for a level-2 one. -/
def Partition.above (p : Partition) : Nat := if p.level = 2 then p.parent else 63

/-- A place in the save area of a cohort (R564): the space in which it lies, and its address there. -/
def State.saveAt (s : State) (c : Cohort) (off : Nat) : Option (Nat × Nat) :=
  match s.partition? c.part, c.saveIdx with
  | some p, some k => some (p.above, p.save.toNat + 0x600000 * k + off)
  | _, _ => none

/-- Bytes put into a save area by the tier engine under the partition's key, with a sideband and poison; nothing where it
does not translate. -/
def State.saveWrite (s : State) (c : Cohort) (off : Nat) (bs : List Byte) (side : Side) (bad : Bool) : State :=
  match s.saveAt c off with
  | none => s
  | some a => s.engPut a.1 c.part a.2 bs (some side) bad false

/-- Where a place of a save area stands for a read. -/
def State.saveFrom (s : State) (c : Cohort) (off : Nat) : Option Nat :=
  (s.saveAt c off).bind fun a => match s.engReach a.1 .load a.2 with | .ok b => some b | _ => none

/-- Whether a page of a cohort's save area is under a tier move, so that reading it back waits (R91). -/
def State.saveWaits (s : State) (c : Cohort) : Bool :=
  (List.range 96).any fun k => (s.saveAt c (65536 * k)).any fun a => s.engReach a.1 .load a.2 == .wait

/-- Bytes read back from a save area; values that the spec leaves open where it does not translate (log 33). -/
def State.saveRead (s : State) (c : Cohort) (off n : Nat) : List Byte × State :=
  match s.saveFrom c off with
  | none => s.takeBytes n
  | some a => s.engRead c.part a n

/-! Units -/

/-- Numbers of free units of a sub-core (R140). -/
def State.freeUnits (s : State) (core sub : Nat) : List Nat :=
  let used := (s.cohorts.filter fun c => c.core == core).flatMap fun c =>
    (c.gangs.filter fun g => g.sub == sub).flatMap fun g => g.pool
  let set_ := (s.claims.filter fun c => c.core == core && c.sub == sub).flatMap fun c => c.pool
  (List.range 256).filter fun u => !used.contains u && !set_.contains u

/-- The lower of two keys, compared place by place. -/
def keyLt : List Nat → List Nat → Bool
  | [], _ => false
  | _ :: _, [] => false
  | a :: t, b :: u => a < b || (a == b && keyLt t u)

/-- The halted cohort that gives its next unit on a sub-core (R565): of other partitions first, halted earliest, launched
earliest. -/
def State.victim (s : State) (part core sub : Nat) : Option (Cohort × Gang) :=
  let open_ := s.cohorts.filter fun c => c.givesWay && c.core == core && c.bound &&
    c.gangs.any fun g => g.sub == sub && g.pool != []
  let key := fun (c : Cohort) => [(c.part == part).toNat, c.haltNo, c.order]
  let best := open_.foldl (fun (b : Option Cohort) c =>
    match b with
    | none => some c
    | some d => if keyLt (key c) (key d) then some c else some d) none
  best.bind fun c => ((c.gangs.filter fun g => g.sub == sub && g.pool != []).getLast?).map fun g => (c, g)

/-- The bytes of a unit: four registers of 32 lanes, and their tags (R564). -/
def Gang.unitBytes (g : Gang) (w : Nat) : List Byte :=
  (List.range 4).flatMap fun r => (List.range 32).flatMap fun l => natLe 4 (Row.lane (vget g.v (4 * w + r) vregZero).row l).toNat
def Gang.unitTags (g : Gang) (w : Nat) : List Byte :=
  (List.range 4).flatMap fun r => natLe 4 (vget g.v (4 * w + r) vregZero).tag.toNat

/-- Places of a unit in the save area (R564). -/
def unitOff (sub u : Nat) : Nat := 512 * (256 * sub + u)
def tagOff (sub u : Nat) : Nat := 0x80000 + 16 * (256 * sub + u)

/-- The top unit of a gang's window written to the save area (R565). -/
def State.evictTop (s : State) (c : Cohort) (g : Gang) : State :=
  match g.pool.getLast? with
  | none => s
  | some u =>
    let w := g.pool.length - 1
    let s := (s.saveWrite c (unitOff g.sub u) (g.unitBytes w) Sides.untyped false).saveWrite c (tagOff g.sub u) (g.unitTags w) Sides.untyped false
    let s := s.modGang c.id g.idx fun g => { g with pool := g.pool.dropLast, out := u :: g.out }
    s.modPartition c.part fun p => { p with uevict := p.uevict + 1 }

/-- Units freed by eviction, one at a time (R565). -/
def State.evict (s : State) (part core sub : Nat) : (n : Nat) → State
  | 0 => s
  | n + 1 =>
    match s.victim part core sub with
    | none => s
    | some (c, g) => State.evict (s.evictTop c g) part core sub n

/-- `n` units for a partition's gang on a sub-core (R140, R565): the lowest free ones, after what eviction it takes; none where
there are not enough. -/
def State.takeUnits (s : State) (part core sub n : Nat) : Option (List Nat × State) :=
  let s := s.evict part core sub (n - (s.freeUnits core sub).length)
  let l := (s.freeUnits core sub).take n
  if l.length < n then none else some (l, s)

/-- The lowest unit that went to the save area read back into a unit of the pool (R566). -/
def State.fillOne (s : State) (co g unit : Nat) : State :=
  match s.cohort? co, s.gang? co g with
  | some c, some x =>
    match x.out with
    | [] => s
    | u :: rest =>
      let w := x.pool.length
      let r := s.saveRead c (unitOff x.sub u) 512
      let t := r.2.saveRead c (tagOff x.sub u) 16
      let reg := fun (r_ : Nat) => VReg.mk (rowOf fun l => wordAt r.1 (32 * r_ + l)) ((wordAt t.1 r_).setWidth 24)
      let s := t.2.modGang co g fun y => { y with
        pool := y.pool ++ [unit], out := rest
        v := vof 192 fun i => if 4 * w ≤ i && i < 4 * w + 4 then reg (i - 4 * w) else vget y.v i vregZero }
      s.modPartition c.part fun p => { p with ufill := p.ufill + 1 }
  | _, _ => s

def State.fillUnits (s : State) (co g : Nat) (us : List Nat) : State := us.foldl (fun t u => t.fillOne co g u) s

/-! Buffers -/

/-- The typed buffers of an allocation. -/
inductive Buf where
  | sp | wb | ab
  deriving DecidableEq, Repr

def Cohort.alloc (c : Cohort) : Buf → Alloc
  | .sp => c.sp | .wb => c.wb | .ab => c.ab
def Cohort.spilled (c : Cohort) : Buf → Bool
  | .sp => c.spilledSp | .wb => c.spilledWb | .ab => c.spilledAb
def Cohort.setSpilled (c : Cohort) (b : Buf) (x : Bool) : Cohort :=
  match b with
  | .sp => { c with spilledSp := x, spillsSp := c.spillsSp + x.toNat }
  | .wb => { c with spilledWb := x, spillsWb := c.spillsWb + x.toNat }
  | .ab => { c with spilledAb := x }

/-- Where a buffer's bytes stand, its size and alignment, and its place in the save area (R16, R471, R564). -/
def Buf.at_ (b : Buf) (core off : Nat) : SAddr :=
  match b with
  | .sp => spAt core off | .wb => wbAt core off | .ab => abAt core off
def Buf.size : Buf → Nat
  | .sp => spSize | .wb => wbSize | .ab => abSize
def Buf.align : Buf → Nat
  | .sp => 256 | _ => 4096
def Buf.saved : Buf → Nat
  | .sp => 0x200000 | .ab => 0x280000 | .wb => 0x380000

/-- Whether two ranges share a byte. -/
def Alloc.meets (a b : Alloc) : Bool := a.size != 0 && b.size != 0 && decide (a.base < b.base + b.size) && decide (b.base < a.base + a.size)

/-- The lowest aligned offset at which a range lies clear of some others (R471). -/
def lowestFit (size align limit : Nat) (held : List Alloc) : Option Nat :=
  let spots := 0 :: held.map fun a => (a.base + a.size + align - 1) / align * align
  let good := spots.filter fun o => decide (o + size ≤ limit) && held.all fun a => !(Alloc.meets ⟨o, size⟩ a)
  good.foldl (fun (b : Option Nat) o => match b with | none => some o | some x => some (min x o)) none

/-- A range for a buffer of a core (R471): clear of every allocation, else clear of those of cohorts that are not halted. -/
def State.findRange (s : State) (core : Nat) (b : Buf) (size : Nat) : Option Nat :=
  let cs := s.cohorts.filter fun c => c.core == core && c.bound && !c.spilled b
  match lowestFit size b.align b.size (cs.map fun c => c.alloc b) with
  | some o => some o
  | none => lowestFit size b.align b.size ((cs.filter fun c => !c.givesWay).map fun c => c.alloc b)

/-- A buffer allocation copied to the save area with its sidebands and poison (R564, R565). -/
def State.spillBuf (s : State) (co : Nat) (b : Buf) : State :=
  match s.cohort? co with
  | none => s
  | some c =>
    let a := c.alloc b
    if c.spilled b || a.size = 0 then s
    else
      let s := (List.range (a.size / 64)).foldl (fun (t : State) k =>
        let off := a.base + 64 * k
        let src := b.at_ c.core off
        let r := t.engRead 63 src 64
        r.2.saveWrite c (b.saved + off) r.1 (r.2.sideAt (src / 64)) (r.2.badOf (src / 64)).isSome) s
      s.modCohort co fun c => c.setSpilled b true

/-- A buffer allocation read back at the same offsets (R566). -/
def State.unspillBuf (s : State) (co : Nat) (b : Buf) : State :=
  match s.cohort? co with
  | none => s
  | some c =>
    let a := c.alloc b
    if !c.spilled b then s
    else
      let s := (List.range (a.size / 64)).foldl (fun (t : State) k =>
        let off := a.base + 64 * k
        let dst := b.at_ c.core off
        match t.saveFrom c (b.saved + off) with
        | none =>
          let r := t.takeBytes 64
          r.2.engWrite 63 dst r.1 (some Sides.untyped)
        | some d =>
          let r := t.engRead c.part d 64
          let w := r.2.engWrite 63 dst r.1 (some (r.2.sideAt (d / 64)))
          match r.2.badOf (d / 64) with | some l => w.setBad (dst / 64) l | none => w) s
      s.modCohort co fun c => c.setSpilled b false

/-- Halted allocations that a range overlaps spilled (R471, R565). -/
def State.makeRoom (s : State) (core : Nat) (b : Buf) (r : Alloc) : State :=
  (s.cohorts.filter fun c => c.core == core && c.bound && c.givesWay && !c.spilled b && r.meets (c.alloc b)).foldl
    (fun t c => t.spillBuf c.id b) s

/-! Halted cohorts -/

/-- The gang record of a gang in its cohort's save area, by the gang's slot (R564). -/
def recordOff (slot : Nat) : Nat := 0x100000 + 0x4000 * slot

/-- A halted cohort's control state passes to its gang records (R561, R564). DESIGN CHOICE: their format is internal, so that their
16 KiB get bytes that nothing determines, while the state itself stays where it is for the cohort's resumption (log 11). -/
def State.writeRecords (s : State) (co : Nat) : State :=
  match s.cohort? co with
  | none => s
  | some c =>
    if (s.saveAt c 0).isNone then s
    else c.gangs.foldl (fun (t : State) g =>
      let r := t.takeBytes 0x4000
      r.2.saveWrite c (recordOff g.slot) r.1 Sides.untyped false) s

/-- The gang records of a cohort read back (R564), which hold what was put there as long as software obeys R564 (log 11). -/
def State.readRecords (s : State) (c : Cohort) : State :=
  if (s.saveAt c 0).isNone then s
  else c.gangs.foldl (fun (t : State) g => (t.saveRead c (recordOff g.slot) 0x4000).2) s

/-- A cohort leaves its slot where it stands (R331, R561): its units and allocations stay. `idle` is the halt in place of a
sleeping cohort. -/
def State.haltInPlace (s : State) (co : Nat) (idle : Bool) : State :=
  match s.cohort? co with
  | none => s
  | some c =>
    let idx := (s.secIndex c.part c.core).map fun k => 4 * k + c.core % 4
    (({ s with nextId := s.nextId + 1 } : State).modCohort co fun c => { c with
      halted := true, idle := idle, ready := false, slot := none, haltNo := if c.halted then c.haltNo else s.nextId
      saveIdx := if c.halted then c.saveIdx else idx }).writeRecords co

/-- Free cohort slots of a core. -/
def State.freeSlot (s : State) (core : Nat) : Option Nat :=
  (List.range 16).find? fun k => !(s.cohorts.any fun c => c.core == core && c.bound && c.slot == some k)

/-- Gang slots of a sub-core that no gang with a cohort slot has (R343). -/
def State.freeGangSlots (s : State) (core sub : Nat) : List Nat :=
  let used := (s.cohorts.filter fun c => c.core == core && c.bound && c.slot.isSome).flatMap fun c =>
    (c.gangs.filter fun g => g.live != 0).map fun g => g.slot
  ((List.range 16).map fun k => 16 * sub + k).filter fun k => !used.contains k

/-- Gang slots for gangs in order, on the sub-cores of their indices; none where a sub-core has too few. -/
def State.gangSlots (s : State) (core n : Nat) : Option (List Nat) :=
  let l := (List.range n).filterMap fun g => (s.freeGangSlots core (g % 4))[g / 4]?
  if l.length = n then some l else none

/-- Units of a list of gangs refilled in order, evicting where it takes (R551, R566); none where a sub-core lacks room. -/
def State.refillGangs (co part core : Nat) : List Gang → State → Option State
  | [], s => some s
  | g :: t, s =>
    if s.unitsAvailable part core g.sub < g.out.length then none
    else
      match s.takeUnits part core g.sub g.out.length with
      | none => none
      | some (us, s) => State.refillGangs co part core t (s.fillUnits co g.idx us)

/-- A ready halted cohort resumes on a core (R331, R552, R564, R566): a slot, gang slots, room for its units, and its spilled
ranges free; what it has in its save area is at hand (R91), and its gang records are read. None where something is missing. It counts
as halted no more while its units are refilled, so that they make no room for one another. -/
def State.resumeOn (s : State) (co core : Nat) : Option State :=
  match s.cohort? co, s.freeSlot core with
  | some c, some k =>
    let others := s.cohorts.filter fun d => d.id != co && d.core == core && d.bound
    let clear := [Buf.sp, .wb, .ab].all fun b =>
      !c.spilled b || others.all fun d => d.spilled b || !((c.alloc b).meets (d.alloc b))
    match s.gangSlots core c.gangs.length with
    | none => none
    | some slots =>
      if !clear || s.saveWaits c then none
      else
        let s := (s.readRecords c).modCohort co fun c => { c with core := core, bound := true, halted := false }
        match State.refillGangs co c.part core c.gangs s with
        | none => none
        | some s =>
          let s := ((s.unspillBuf co .sp).unspillBuf co .wb).unspillBuf co .ab
          let ks := (s.stage.queues.filter fun q => q.pops.any fun w => w.cohort == co).map fun q => Instr.qpopWaitServe q.key
          some ((s.modCohort co fun c => { c with
            slot := some k, lastSlot := k, halted := false, idle := false, ready := false, saveIdx := none
            gangs := c.gangs.map fun (g : Gang) => { g with slot := slots.getD g.idx g.slot } }).due ks)
  | _, _ => none

end Sys2Proof.Machine
end

