-- ==== Sys2Proof/Machine/StageOps.lean ====
section
/-!
DEFINITION. The stage engine at work: pushes into queues, refills, dequeues, summaries, launch decisions and deliveries (R71 to
R74, R331, R462 to R475, R480, R482, R521 to R526, R603).
-/
namespace Sys2Proof.Machine

/-! Enqueueing -/

/-- The records that a mirror entry holds back are enqueued in sequence, whole batches as long as they fit, and acknowledged
(R524) through usable port number (mirror index) mod k (DEDUCED, log 46). -/
def State.drainHeld (i : Nat) : (fuel : Nat) → State → State
  | 0, s => s
  | n + 1, s =>
    match s.mirror? i with
    | none => s
    | some m =>
      let next := (m.expect + 1) % 2 ^ 32
      if m.complete.contains m.expect then
        State.drainHeld i n (s.modMirror i fun m => { m with expect := next, complete := m.complete.filter fun k => k != m.expect })
      else
        match m.held.find? fun h => h.seq == m.expect, s.queue? m.key with
        | some h, some q =>
          if h.deadline < s.fabricTime then
            State.drainHeld i n (s.modMirror i fun m => { m with
              expect := next, held := m.held.filter fun k => k.seq != h.seq, dropped := insertNat h.seq m.dropped })
          else if q.line ≠ [] ∨ !q.fits h.recs.length ∨ s.coachWaits m.key h.recs.length then s
          else
            let s := h.recs.foldl (fun (t : State) r => (t.enqueueAs m.key r.1 r.2).getD t) s
            let s := s.modMirror i fun m => { m with
              expect := next, rseq := h.seq, held := m.held.filter fun k => k.seq != h.seq, dropped := m.dropped.filter fun k => k != h.seq }
            let s := match s.pick m.peer m.idx with
              | some p => s.emit p (.batchAck m.pidx h.seq) m.peer (s.cidOf m.key.part)
              | none => s
            State.drainHeld i n s
        | _, _ => s

/-- What stands in line goes on (R462): the first in line, or batches that are held back. -/
def State.resumeLine (s : State) (k : QKey) : (fuel : Nat) → State
  | 0 => s
  | n + 1 =>
    match s.queue? k with
    | none => s
    | some q =>
      match q.line with
      | .push op :: _ => s.due [.queueEnqueue op]
      | .host bs :: rest =>
        if s.coachWaits k 1 then s
        else
          let s := s.modQueue k fun q => { q with line := rest }
          let s := match s.enqueue k bs with
            | some s => s
            | none => s.modQueue k fun q => { q with drop := q.drop + 1 }
          s.wakeHost.resumeLine k n
      | [] => (s.fabric.mirrors.filter fun m => m.key == k && m.held != []).foldl
          (fun t m => State.drainHeld m.idx (m.held.length + m.complete.length + 1) t) s

/-- ENQUEUE_ROOM_RESUME (R462). -/
def State.roomResume (s : State) (k : QKey) : State := s.resumeLine k (((s.queue? k).elim 0 (·.line.length)) + 1)

/-- The operation at the head of its queue's line has ended (R137, R462). -/
def State.pushEnds (s : State) (o : PushOp) : State :=
  let upd := fun (p : PushOp) => if p.id = o.id then { p with ended := true } else p
  let s := { s with stage := { s.stage with pushes := s.stage.pushes.map upd } }
  let s := s.modQueue o.cmd.key fun q => { q with line := q.line.tail }
  ((s.retirePush o.cohort o.gang).tryEndCohort o.cohort).due [.enqueueRoomResume o.cmd.key]

/-- QUEUE_ENQUEUE (R371, R462, R480): the operation at the head of its queue's line enqueues its next record, or waits there for
room; a poisoned record ends it, with the kill of its cohort. -/
def State.enqueueNext (s : State) (op : Nat) : State :=
  match s.stage.pushes.find? fun o => o.id == op with
  | none => s
  | some o =>
    if o.ended || ((s.queue? o.cmd.key).bind fun q => q.line.head?) != some (.push op) then s
    else
      let r := s.pushRecord o.cmd o.count
      match r.2.1 with
      | some a => let t := r.2.2.pushEnds o; { t with agenda := .uncorrectableError (.cohort o.cohort 4 a) :: t.agenda }
      | none =>
        match r.2.2.enqueue o.cmd.key r.1 with
        | none => r.2.2
        | some s =>
          let upd := fun (p : PushOp) => if p.id = op then { p with count := p.count + 1 } else p
          let s := { s with stage := { s.stage with pushes := s.stage.pushes.map upd } }
          if o.cmd.src.count ≤ o.count + 1 then s.pushEnds o else s.due [.queueEnqueue op]

/-- REFILL_START (R463). -/
def State.refillStart (s : State) (k : QKey) : State :=
  match s.queue? k with
  | none => s
  | some q =>
    if 32 ≤ q.free ∧ q.coach ≠ [] ∧ q.transit = 0 then
      (s.modQueue k fun q => { q with transit := min 32 q.coach.length }).due [.refillComplete k]
    else s

/-- REFILL_COMPLETE (R463). -/
def State.refillComplete (s : State) (k : QKey) : State :=
  (s.modQueue k fun q => { q with
    ring := q.ring ++ q.coach.take q.transit, coach := q.coach.drop q.transit, transit := 0 }).stirQueue k

/-! Dequeueing -/

/-- The records of a forwarding decision become the entry's next batch, which waits for its tokens (R523). -/
def State.makeBatch (s : State) (k : QKey) (port entry n : Nat) : State :=
  match s.queue? k, s.mirror? entry with
  | some q, some m =>
    let r := q.take n fun _ => .batch entry m.seq
    if r.1 = [] then s
    else
      let s := s.modQueue k fun _ => r.2
      let b : Batch := ⟨m.seq, r.1.map fun x => (x.bs, x.bad), port, s.fabricTime + 1000 * s.rto k.part, false⟩
      let s := s.modMirror entry fun m => { m with seq := (m.seq + 1) % 2 ^ 32, batches := m.batches ++ [b] }
      s.meter port k.part (r.1.length * ((q.desc.size + 63) / 64)) (.batch entry m.seq)
  | _, _ => s

/-- The oldest request of a launch or a port at the queue is served (R464, R473, R523). -/
def State.serveAsk (s : State) (k : QKey) : State :=
  match s.queue? k with
  | none => s
  | some q =>
    match q.asks with
    | [] => s
    | a :: rest =>
      let s := s.modQueue k fun q => { q with asks := rest }
      match a with
      | .batch port entry n => s.makeBatch k port entry n
      | .launch core n =>
        match s.stage.launches.find? fun l => l.core == core && l.key == k && l.recs.isNone with
        | none => s
        | some l =>
          let r := ({ q with asks := rest } : Queue).take n fun i => .gang l.cohort (i / 32)
          let s := s.modQueue k fun _ => r.2
          let set_ := fun (x : Launch) => if x.cohort = l.cohort then { x with recs := some r.1 } else x
          ({ s with stage := { s.stage with launches := s.stage.launches.map set_ } } : State).due [.launchDelivery core]

/-- The stage of a cohort (R459), and its queues. -/
def State.stageOf (s : State) (c : Cohort) : Option StageSet :=
  (s.graph? c.part c.gslot).bind fun g => assocGet g.stages c.stage
def State.inputOf (s : State) (c : Cohort) : Option QKey := (s.stageOf c).map fun t => ⟨c.part, c.gslot, t.desc.input⟩
def State.outputOf (s : State) (c : Cohort) (o : Nat) : Option QKey :=
  (s.stageOf c).bind fun t => (t.desc.outs[o]?).map fun i => ⟨c.part, c.gslot, i⟩

/-- SP place of a record slot of a gang (R72, R73). -/
def Cohort.slotAt (c : Cohort) (g i : Nat) : Nat := c.sp.base + 32 * c.recSize * g + i * c.recSize

/-- A record written into SP (R466); the granules that it lies in take its poison (log 73). -/
def State.putRecord (s : State) (a : SAddr) (r : Record) : State :=
  let s := s.engWrite 63 a r.bs (some Sides.untyped)
  if r.bad then (linesOf a r.bs.length).foldl (fun t l => t.setBad l (64 * l)) s else s

/-- Records written into a gang's slots (R466, R481). -/
def State.deliver (s : State) (c : Cohort) (g : Nat) (rs : List Record) : State :=
  rs.zipIdx.foldl (fun t p => t.putRecord (spAt c.core (c.slotAt g p.2)) p.1) s

/-- A QPOP takes up to n records for its gang (R481): how many it got. -/
def State.popRecords (s : State) (c : Cohort) (g n : Nat) : Nat × State :=
  match (s.inputOf c).bind s.queue? with
  | none => (0, s)
  | some q =>
    let r := q.take n fun _ => .gang c.id g
    (r.1.length, (s.modQueue q.key fun _ => r.2).deliver c g r.1)

/-- Whether a waiting QPOP's records can reach it: its part waits in it, its cohort's SP and its gang's units stand where
they belong, and the core serves it, which may have halted in place only (R28, R331). -/
def State.popHere (s : State) (w : PopWait) : Bool :=
  ((s.partNo? w.part).any fun x => x.2.wait == .qpop) && (s.cohort? w.cohort).any fun c =>
    (!c.halted || c.idle) && s.rules c.part (c.core / 4) && !c.spilledSp && (c.gang? w.gang).any fun g => g.out == []

/-- A waiting QPOP leaves the line of its queue. -/
def State.popLeaves (s : State) (k : QKey) (w : PopWait) : State := s.modQueue k fun q => { q with pops := q.pops.erase w }

/-- A waiting QPOP has been served records that it cannot take yet: they stay in flight, and it takes them later (R495, log 75). -/
def State.popServed (s : State) (k : QKey) (w : PopWait) (rs : List Record) : State :=
  s.modQueue k fun q => { q with pops := q.pops.map fun v => if v = w then { v with got := some rs } else v }

/-- A waiting QPOP completes with its records (R481, R482), or waits for an undo entry (R110); a cohort halted in place
becomes ready. -/
def State.popDone (s : State) (k : QKey) (w : PopWait) (r : PartRef) (rs : List Record) : State :=
  let s0 := { s.popLeaves k w with cur := some r }
  match s0.ctx? 0 with
  | none => s.popServed k w rs
  | some x =>
    let t := s0.deliver x.c r.gang rs
    let t := t.putView r ((t.fresh x).v.wrUniform w.pred w.d (BitVec.ofNat 32 rs.length))
    if t.overfull x then ((s.popServed k w rs).waits r .room).due [.continueWithoutLogging r]
    else
      let f : Form := ⟨w.pred, w.len, 0, [], [], .irrevocable, .none⟩
      ({ (State.finish s0 x f true x.v.part.runpos (.fall t true)) with cur := s.cur } : State).wakeCohort r.cohort

/-- The oldest waiting QPOP takes its records (R464, R482): it completes, or, where they cannot reach it yet, its cohort
becomes ready and it completes once that has resumed (log 75). -/
def State.servePop (s : State) (k : QKey) (q : Queue) (w : PopWait) : State :=
  match s.partNo? w.part with
  | none => s.popLeaves k w
  | some (r, _) =>
    let got := q.take w.n fun _ => .gang w.cohort w.gang
    let s := s.modQueue k fun _ => got.2
    let t := if s.popHere w then s.popDone k w r got.1 else (s.popServed k w got.1).wakeCohort w.cohort
    t.stirQueue k

/-- QPOP_WAIT_SERVE (R482): a QPOP whose records can reach it by now completes; else the oldest one that has none takes some. -/
def State.servePops (s : State) (k : QKey) : State :=
  match s.queue? k with
  | none => s
  | some q =>
    match q.pops.find? fun w => w.got.isSome && s.popHere w with
    | some w =>
      (match s.partNo? w.part with
      | none => s.popLeaves k w
      | some (r, _) => (s.popDone k w r (w.got.getD [])).stirQueue k)
    | none =>
      match q.pops.find? fun w => w.got.isNone with
      | none => s
      | some w => if q.ring = [] then s else s.servePop k q w

/-- QPOPs that arrived before a dequeue request and still wait have been served (R464). -/
def State.popsFirst (k : QKey) : (fuel : Nat) → State → State
  | 0, s => s
  | n + 1, s =>
    if (s.queue? k).any fun q => q.ring != [] && q.pops.any fun w => w.got.isNone then State.popsFirst k n (s.servePops k) else s

/-- QUEUE_DEQUEUE (R464, R473, R523): the oldest request of a launch or a port is served, behind the QPOPs that wait. -/
def State.dequeue (s : State) (k : QKey) : State :=
  (State.popsFirst k (((s.queue? k).elim 0 fun q => q.pops.length)) s).serveAsk k

/-! Summaries -/

/-- The consumer's stage of a queue (R460, R467). -/
def State.consumer (s : State) (k : QKey) : Option StageSet :=
  (s.graph? k.part k.slot).bind fun g => (g.stages.find? fun t => t.2.desc.input == k.idx).map (·.2)

/-- SUMMARY_PUBLISH (R467): one entry for each bound queue, to each core of its partition and each port. -/
def State.publish (s : State) : State :=
  s.due (s.stage.queues.flatMap fun q =>
    let len := satLen q.backlog
    let aged := match s.consumer q.key with | some t => q.aged s.cycle t.desc.timer | none => false
    let cores := (List.range 192).filter fun c => q.key.part == 63 ||
      ((s.partition? q.key.part).any fun p => p.secs.getLsbD (c / 4)) || (s.borrowed q.key.part).contains (c / 4)
    (cores.map fun c => Instr.summaryEntryArrive (.core c) q.key len aged) ++
      (List.range 16).map fun p => Instr.summaryEntryArrive (.port p) q.key len aged)

/-- SUMMARY_ENTRY_ARRIVE (R467, R472, R523): the last entry of a bound queue is kept, and what depends on it is decided again. -/
def State.summaryArrive (s : State) (dst : SumDst) (k : QKey) (len : Nat) (aged : Bool) : State :=
  let e : Summary := ⟨dst, k, len, aged⟩
  if (s.queue? k).isNone then s
  else
    let s := { s with stage := { s.stage with
      sums := e :: s.stage.sums.filter fun x => !(x.dst == dst && x.key == k) } }
    match dst with
    | .core c => s.due [.launchDecision c]
    | .port p => s.due [.portForwardDecision p]

/-- A summary as a core or port has it; a queue just bound reads 0 (R467). -/
def State.sum (s : State) (dst : SumDst) (k : QKey) : Nat × Bool :=
  ((s.stage.sums.find? fun x => x.dst == dst && x.key == k).map fun x => (x.len, x.aged)).getD (0, false)

/-! Launch decisions -/

/-- Whether a partition's launch gate is open (R455, R561); the boot context has no gate. -/
def State.gateOpen (s : State) (part : Nat) : Bool :=
  part = 63 || (s.partition? part).any fun p => p.active && !p.halting

/-- D of a stage as a core sees it (R469). -/
def State.differential (s : State) (core : Nat) (g : Graph) (d : StageDesc) : Int :=
  let len := fun i => (s.sum (.core core) ⟨g.part, g.slot, i⟩).1
  let out := ((d.outs.filter fun i => i != d.input).map len).foldl max 0
  d.weight * ((len d.input : Int) - out)

/-- The residency gate (R560). -/
def StageSet.resident? (t : StageSet) : Bool :=
  match t.listed with
  | none => true
  | some l => t.desc.gate = 0 || l.isEmpty || decide (t.desc.gate ≤ 100 * t.resident / l.length)

/-- Eligibility but for resources (R470). -/
def State.wants (s : State) (core : Nat) (g : Graph) (t : StageSet) : Bool :=
  let e := s.sum (.core core) ⟨g.part, g.slot, t.desc.input⟩
  g.bound && s.rules g.part (core / 4) && s.gateOpen g.part && !t.stopped &&
    (decide (t.desc.batch ≤ e.1) || (decide (1 ≤ e.1) && e.2)) && t.resident? && decide (0 < s.differential core g t.desc)

/-- Record size of a stage's input. -/
def Graph.recSize (g : Graph) (d : StageDesc) : Nat := ((assocGet g.queues d.input).map fun q => q.size).getD 16

/-- SP, WB and AB sizes of a stage's cohorts (R471). -/
def Graph.needs (g : Graph) (d : StageDesc) : Nat × Nat × Nat :=
  (32 * d.gangs * g.recSize d + 256 * d.shared, 4096 * d.wb, 4096 * d.ab)

/-- The resource check (R471): the cohort slot, gang slots, and places of the three ranges. -/
def State.resources (s : State) (core : Nat) (g : Graph) (d : StageDesc) : Option (Nat × List Nat × Nat × Nat × Nat) :=
  let n := g.needs d
  let units := [0, 1, 2, 3].all fun k =>
    let m := ((List.range d.gangs).filter fun i => i % 4 == k).length * d.units
    m == 0 || (decide (m ≤ s.unitsAvailable g.part core k) &&
      !(s.claims.any fun c => c.core == core && c.sub == k && !c.granted))
  if !units then none
  else
    match s.freeSlot core, s.gangSlots core d.gangs, s.findRange core .sp n.1, s.findRange core .wb n.2.1, s.findRange core .ab n.2.2 with
    | some k, some l, some a, some b, some c => some (k, l, a, b, c)
    | _, _, _, _, _ => none

/-- Better of R472, over D, W, slot and index. -/
def better (a b : Int × Nat × Nat × Nat) : Bool :=
  if a.1 ≠ b.1 then decide (b.1 < a.1)
  else if a.2.1 ≠ b.2.1 then decide (b.2.1 < a.2.1)
  else if a.2.2.1 ≠ b.2.2.1 then decide (a.2.2.1 < b.2.2.1)
  else decide (a.2.2.2 < b.2.2.2)

/-- Stages with their graphs, and the best of those that a test admits (R472). -/
def State.bestStage (s : State) (core : Nat) (ok : Graph → StageSet → Bool) : Option (Graph × Nat × StageSet) :=
  let all := s.stage.graphs.flatMap fun g => g.stages.map fun t => (g, t.1, t.2)
  let key := fun (x : Graph × Nat × StageSet) => (s.differential core x.1 x.2.2.desc, x.2.2.desc.weight, x.1.slot, x.2.1)
  (all.filter fun x => s.wants core x.1 x.2.2 && ok x.1 x.2.2).foldl
    (fun (b : Option (Graph × Nat × StageSet)) x =>
      match b with
      | none => some x
      | some y => if better (key x) (key y) then some x else some y) none

/-- Launch state of a gang before its records come (R73). -/
def gangAt (idx slot : Nat) (pool : List Nat) : Gang :=
  { idx := idx, sub := idx % 4, slot := slot, pool := pool, out := []
    v := vof 192 fun _ => vregZero
    bankS := ⟨vof 16 fun _ => vregZero, vof 64 fun _ => 0, vof 8 fun _ => frameZero⟩
    bankH := ⟨vof 16 fun _ => vregZero, vof 64 fun _ => 0, vof 8 fun _ => frameZero⟩
    bankM := ⟨vof 16 fun _ => vregZero, vof 64 fun _ => 0, vof 8 fun _ => frameZero⟩
    counters := ⟨0, 0, 0⟩, fto := false, psn := false, ftomask := 0, aenable := 0, fpmode := 0, rbcnt := 0, dragEntries := 0
    cmrg := 0, crep := 0, cjoin := 0, arm := .idle, latch := none, cmdbuf := [], live := 0xFF, parts := []
    parked := false, monStop := false }

/-- The gangs of a launch with the units they take (R140, R471). -/
def State.newGangs (part core units : Nat) (slots : List Nat) : (g n : Nat) → List Gang → State → List Gang × State
  | _, 0, acc, s => (acc, s)
  | g, n + 1, acc, s =>
    let used := acc.flatMap fun x => if x.sub = g % 4 then x.pool else []
    let need := units - ((s.freeUnits core (g % 4)).filter fun u => !used.contains u).length
    let s := s.evict part core (g % 4) need
    let us := ((s.freeUnits core (g % 4)).filter fun u => !used.contains u).take units
    State.newGangs part core units slots (g + 1) n (acc ++ [gangAt g (slots.getD g 0) us]) s

/-- Launch(s, c) (R473): everything is reserved, and the dequeue request goes out. -/
def State.launchStage (s : State) (core : Nat) (g : Graph) (idx : Nat) (d : StageDesc)
    (r : Nat × List Nat × Nat × Nat × Nat) : State :=
  let n := g.needs d
  let (slot, slots, sp, wb, ab) := r
  let s := ((s.makeRoom core .sp ⟨sp, n.1⟩).makeRoom core .wb ⟨wb, n.2.1⟩).makeRoom core .ab ⟨ab, n.2.2⟩
  let gs := State.newGangs g.part core d.units slots 0 d.gangs [] s
  let id := gs.2.nextId
  let key : QKey := ⟨g.part, g.slot, d.input⟩
  let c : Cohort :=
    { id := id, part := g.part, gslot := g.slot, stage := idx, core := core, slot := some slot
      sp := ⟨sp, n.1⟩, wb := ⟨wb, n.2.1⟩, ab := ⟨ab, n.2.2⟩, shared := sp + 32 * d.gangs * g.recSize d
      recSize := g.recSize d, barriers := List.replicate 16 barrierIdle, gangs := gs.1, halted := false, idle := false
      ready := false, spilledSp := false, spilledWb := false, spilledAb := false, haltNo := 0, bound := true, order := id
      progress := false, ended := false, dying := none, tainted := false, spillsSp := 0, spillsWb := 0, lastSlot := slot, saveIdx := none }
  let s := gs.2
  let s := { s with
    nextId := id + 1, cohorts := s.cohorts ++ [c]
    stage := { s.stage with launches := s.stage.launches ++ [(⟨core, id, key, none⟩ : Launch)] } }
  (s.modQueue key fun (q : Queue) => { q with asks := q.asks ++ [.launch core (32 * d.gangs)] }).due [.queueDequeue key]

/-- Whether a part waits in WAITC, or in a QPOP, for something that has not come yet (R326, R331, R482). -/
def State.waitsIn (s : State) (p : Part) : Bool :=
  match p.wait with
  | .waitc _ => s.waitcs.any fun w => w.part == p.id && w.lanes.any fun q => q.2 == .waiting
  | .qpop => s.stage.queues.any fun q => q.pops.any fun w => w.part == p.id && w.got.isNone
  | _ => false

/-- Whether a part waits at a barrier that has not released it (R138). -/
def Cohort.barHolds (c : Cohort) (p : Part) : Bool :=
  match p.wait with
  | .bar u _ (some g) => decide ((c.barriers.getD u barrierIdle).gen ≤ g)
  | .bar _ _ none => true
  | _ => false

/-- A cohort sleeps (R331, R482). -/
def State.sleeps (s : State) (c : Cohort) : Bool :=
  let ps := (c.gangs.filter fun g => g.live != 0).flatMap fun g => g.parts
  !c.halted && c.slot.isSome && ps.any s.waitsIn && ps.all fun p => s.waitsIn p || c.barHolds p

/-- A halted cohort put among others in the order in which they halted. -/
def insertHalted (c : Cohort) : List Cohort → List Cohort
  | [] => [c]
  | d :: l => if c.haltNo ≤ d.haltNo then c :: d :: l else d :: insertHalted c l

/-- Halted cohorts that are ready on a core which their partition may run on: bound to it, or to none (R28, R331, R552,
R566); the one halted first comes first. -/
def State.readyOn (s : State) (core : Nat) : List Cohort :=
  let rs := s.cohorts.filter fun c => c.halted && c.ready && s.gateOpen c.part && s.rules c.part (core / 4) && (!c.bound || c.core == core)
  rs.foldr insertHalted []

/-- The first of the ready cohorts that has all it needs resumes (R472, R566). -/
def State.resumeReady (s : State) (core : Nat) : Option State := (s.readyOn core).findSome? fun c => s.resumeOn c.id core

/-- A core decides again as soon as it may (R472, R473). -/
def State.decideAgain (s : State) (core : Nat) : State :=
  { s with stage := { s.stage with again := core :: s.stage.again.filter fun c => c != core } }

/-- The cycle from which on a core may make its next decision (R472). -/
def State.decideAt (s : State) (core : Nat) : Nat := (assocGet s.stage.decided core).getD 0

/-- A core makes a decision, and its next one 8 cycles later at the earliest (R472). -/
def State.decidesNow (s : State) (core : Nat) : State :=
  { s with stage := { s.stage with decided := assocSet s.stage.decided core (s.cycle + 8), again := s.stage.again.filter fun c => c != core } }

/-- Where no slot of a core is free and a launch is pending, a cohort that sleeps there is halted in place (R331). -/
def State.freeSleeper (s : State) (core : Nat) : State :=
  if (s.freeSlot core).isNone && (s.bestStage core fun _ _ => true).isSome then
    match s.cohorts.find? fun c => c.core == core && c.bound && s.sleeps c with
    | some c => s.haltInPlace c.id true
    | none => s
  else s

/-- LAUNCH_DECISION (R331, R472, R566, R589): at most one every 8 cycles; one that launches or resumes is followed by another. -/
def State.launchDecide (s : State) (core : Nat) : State :=
  let s := s.noteSec (core / 4)
  if s.cycle < s.decideAt core then s.decideAgain core
  else if ((s.freeSleeper core).freeSlot core).isNone then s.freeSleeper core
  else
    let s := (s.freeSleeper core).decidesNow core
    match s.resumeReady core with
    | some t => t.decideAgain core
    | none =>
      if s.readyOn core != [] then s
      else
        match s.bestStage core fun g t => (s.resources core g t.desc).isSome with
        | none => s
        | some (g, i, t) =>
          match s.resources core g t.desc with
          | some r => (s.launchStage core g i t.desc r).decideAgain core
          | none => s

/-- A gang as it starts with n records (R71, R73, R74). -/
def Gang.start (g : Gang) (c : Cohort) (pid n : Nat) (ring : Ring) (pc data : DWord) : Gang :=
  let s1 := c.slotAt g.idx 0
  let sval := fun (i : Nat) => match i with
    | 0 => BitVec.ofNat 32 n | 1 => BitVec.ofNat 32 s1 | 2 => BitVec.ofNat 32 c.recSize | 3 => BitVec.ofNat 32 c.stage
    | 4 => data.lo | 5 => data.hi | 6 => BitVec.ofNat 32 c.shared | _ => 0
  { g with
    v := vset g.v 0 ⟨rowOf fun l => BitVec.ofNat 32 (s1 + l * c.recSize), untypedTag⟩
    parts := [{ id := pid, quads := 0xFF, pc := pc, ring := ring, s := vof 32 sval, p := vof 8 fun _ => 0
                exec := BitVec.ofNat 32 (2 ^ n - 1), aflags := 0, x := vof 8 fun _ => rowZero, xw := vof 8 fun _ => 0
                runs := [], rbCount := 0, drag := false, dragCommits := 0, wait := .none, trap := none, pend := none, tlbis := []
                yielded := false, under := none, header := 0 }] }

/-- A cohort's buffers cleared, its records in its slots, its gangs started (R71 to R74, R466, R473). -/
def State.launched (s : State) (core : Nat) (c : Cohort) (rs : List Record) : State :=
  let s := ((s.clearRange (spAt core c.sp.base) c.sp.size).clearRange (wbAt core c.wb.base) c.wb.size).clearRange
    (abAt core c.ab.base) c.ab.size
  let part := fun (g : Nat) => (rs.drop (32 * g)).take 32
  let s := c.gangs.foldl (fun t g => t.deliver c g.idx (part g.idx)) s
  let code := ((s.stageOf c).map fun t => t.desc.code).getD 0
  let data := ((s.graph? c.part c.gslot).map fun g => g.data).getD 0
  let ring := if c.part = 63 then Ring.M else .U
  let id := s.nextId
  ({ s with nextId := id + c.gangs.length } : State).modCohort c.id fun c => { c with
    gangs := c.gangs.map fun g => g.start c (id + g.idx) (part g.idx).length ring (code + 8) data }

/-- LAUNCH_DELIVERY (R71 to R74, R466, R473): the reply's records reach the scratchpad and the gangs start; with none the launch
is cancelled, and the core decides again (R472). -/
def State.launchDeliver (s : State) (core : Nat) : State :=
  match s.stage.launches.find? fun l => l.core == core && l.recs.isSome with
  | none => s
  | some l =>
    let s := { s with stage := { s.stage with launches := s.stage.launches.filter fun x => x.cohort != l.cohort } }
    match l.recs.getD [], s.cohort? l.cohort with
    | _, none => s
    | [], some _ => ({ s with cohorts := s.cohorts.filter fun x => x.id != l.cohort } : State).decideAgain core
    | rs, some c =>
      let s := s.launched core c rs
      if s.gateOpen c.part then s else s.haltInPlace c.id false

end Sys2Proof.Machine
end

