-- ==== Sys2Proof/Machine/FabOps.lean ====
section
/-!
DEFINITION. The fabric engine at work: flits, keys, replay, ports and routes, peers' requests and answers, tokens, mirrored
queues (R94 to R99, R337, R499 to R526, R550, R558).
-/
namespace Sys2Proof.Machine

/-! Records and routes -/

/-- A record of kind 0x07 (R373, R499). -/
def State.linkRecord (s : State) (port event : Nat) : State :=
  s.report .H ⟨7, 63 * 128 + 127, 0, 2, port + 256 * event, 0xFFFFFFFF⟩

/-- Requests that wait for a route are handed to their ports (R506). -/
def State.wakeRoutes (s : State) : State :=
  let s := (s.reqs.filter fun (q : Request) =>
    q.id == q.group && q.sent && q.ans.isNone && q.peer.isSome && q.port.isNone).foldl State.sendRemote s
  s.fabric.mirrors.foldl (fun t m =>
    (m.batches.filter fun b => !b.settled && 16 ≤ b.port).foldl (fun t b =>
      match t.pick m.peer m.idx with
      | none => t
      | some p =>
        let seg := ((t.queue? m.key).elim 1 fun q => (q.desc.size + 63) / 64)
        let t := t.modMirror m.idx fun m => { m with batches := m.batches.map fun x => if x.seq = b.seq then { x with port := p } else x }
        t.meter p m.key.part (b.recs.length * seg) (.batch m.idx b.seq)) t) s

/-- A change that may change routes (R508): what waits for a route goes on. A package whose traffic a failed port moved to
relay counts as moved as long as its route is relay (log 77). -/
def State.reroute (s : State) (f : State → State) : State :=
  let t := f s
  ({ t with fabric := { t.fabric with moved := t.fabric.moved.filter fun k => t.mode k == 2 } } : State).wakeRoutes

/-- Changes of route written to the error queue (R499). -/
def State.routeRecords (s : State) (port event : Nat) (ks : List Nat) : State := ks.foldl (fun (t : State) _ => t.linkRecord port event) s

/-- A port enters FAILED (R499, R502, R508, R525): a record is written, and one for each route that so moves to relay; its keys
stay (DEDUCED, log 47), what the port carried is lost, and who has waited there still has demand until the next tick (R517); its
unanswered batches are sent again on the new route. -/
def State.failPort (s : State) (port : Nat) : State :=
  let s := s.linkRecord port 1
  let t := s.reroute fun s =>
    let s := s.modPort port fun p => { p with state := .failed, egress := [], held := [], again := none, replays := 0, gathered := [], waiting := [] }
    let lose := fun (m : Mirror) => { m with batches := m.batches.map fun b =>
      if b.port = port ∧ b.settled = false then { b with port := 16 } else b }
    { s with fabric := { s.fabric with mirrors := s.fabric.mirrors.map lose } }
  let ks := (List.range 16).filter fun k => s.mode k == 1 && t.mode k == 2
  ({ t with fabric := { t.fabric with moved := t.fabric.moved ++ ks } } : State).routeRecords port 3 ks

/-! Flits -/

/-- Bytes 0 to 15 of a flit (R500). -/
def flitClear (f : Flit) : List Byte :=
  natLe 4 f.lseq ++ natLe 4 f.lack ++ natLe 1 f.kind ++ natLe 1 (f.kslot.toNat + 2 * f.relayed.toNat + 4 * f.poison.toNat) ++
    natLe 2 f.cid.toNat ++ natLe 4 (f.src.val + 16 * f.dst.val + 256 * f.cls)

/-- Bytes 16 to 111 (R500). -/
def flitBody (f : Flit) : List Byte := padTo 16 f.header ++ padTo 64 f.data ++ natLe 2 f.side.toNat ++ padTo 14 f.pad

/-- The nonce (R503). -/
def nonceOf (port pkg idx lseq : Nat) : Nat := port * 2 ^ 68 + pkg * 2 ^ 64 + idx * 2 ^ 32 + lseq

/-- The sealed or opened fields of a flit (R503): both directions of the key stream are one. -/
def flitCrypt (f : Flit) (key : List Byte) (nonce : Nat) : Flit :=
  let b := (flitBody f).zipIdx.map fun p => p.1 ^^^ Config.gcmStream key nonce p.2
  { f with
    header := b.take 16, data := (b.drop 16).take 64, side := BitVec.ofNat 16 (leNat ((b.drop 80).take 2)), pad := b.drop 82 }

/-- The tag over a sealed flit (R503). -/
def flitTag (f : Flit) (key : List Byte) (nonce : Nat) : List Byte :=
  (List.range 16).map (Config.gcmTag key nonce (flitClear f) (flitBody f))

/-- A flit sealed with a key (R503). -/
def flitSeal (f : Flit) (key : List Byte) (nonce : Nat) : Flit :=
  let g := flitCrypt { f with tag := [] } key nonce
  { g with tag := flitTag g key nonce }

/-- Sequence numbers in order, modulo 2^32. -/
def seqBefore (a b : Nat) : Bool := decide ((b + 2 ^ 32 - a) % 2 ^ 32 < 2 ^ 31) && a != b

/-- New flits of classes 1 to 3 that a key may carry (R505). -/
def keyLimit : Nat := 2 ^ 32 - 2 ^ 20

/-- The flit that a port's egress sends next (R499, R501, R505): the highest class, in order of arrival. -/
def State.nextFlit (s : State) (p : Port) : Option Flit :=
  let may := fun (f : Flit) => f.cls == 0 || (s.usable p && decide (p.txCount < keyLimit))
  ([0, 1, 2, 3] : List Nat).findSome? fun c => p.egress.find? fun f => f.cls == c && may f

/-- An idle flit (R502). -/
def State.idleFlit (s : State) (p : Port) : Option Flit := (FMsg.idle.flits s.pkg.number p.peer (63 * 128 + 127)).head?

/-- A flit as it leaves a port (R500 to R503). -/
def State.outFlit (s : State) (p : Port) (f : Flit) (key : List Byte) (idx : Nat) : Flit :=
  let lack := match p.nextRx with | some n => (n + 2 ^ 32 - 1) % 2 ^ 32 | none => 2 ^ 32 - 1
  flitSeal ({ f with lseq := p.nextTx, lack := lack, kslot := p.txSlot } : Flit) key (nonceOf p.num s.pkg.number idx p.nextTx)

/-- FLIT_TRANSMIT (R501 to R505): a flit to be sent again, or the next new one, sealed and kept until it is acknowledged; an
idle one where none is ready; nothing without a key, or with the replay buffer full. The port fails once the oldest flit has
been sent again 16 times in a row. -/
def State.transmit (s : State) (port : Nat) : State :=
  match s.port? port with
  | none => s
  | some p =>
    if !p.live then s
    else
      match p.again with
      | some l =>
        (match p.held.dropWhile fun h => seqBefore h.flit.lseq l with
        | h :: later =>
          let m := h.flit.lseq
          let next := later.head?.map fun k => k.flit.lseq
          let stamp := fun (k : Sent) => if k.flit.lseq = m then { k with time := s.cycle } else k
          let n := if (p.held.head?.any fun k => k.flit.lseq == m) then p.replays + 1 else p.replays
          let s := s.modPort port fun p => { p with again := next, held := p.held.map stamp, replays := n }
          let s := { s with out := .flit port h.flit :: s.out }
          if 16 ≤ n then s.failPort port else if next.isSome then s.due [.flitTransmit port] else s
        | [] => s.modPort port fun p => { p with again := none })
      | none =>
        match p.txKey, (s.nextFlit p).orElse fun _ => s.idleFlit p with
        | some (key, idx), some f =>
          if 4096 ≤ p.held.length then s
          else
            let g := s.outFlit p f key idx
            let s := s.modPort port fun p => { p with
              egress := p.egress.erase f, held := p.held ++ [⟨g, s.cycle⟩], nextTx := (p.nextTx + 1) % 2 ^ 32, txCount := p.txCount + 1 }
            let s := { s with out := .flit port g :: s.out }
            if p.txCount + 1 = 2 ^ 31 then s.linkRecord port 2 else s
        | _, _ => s

/-- A replay from a flit on (R502). -/
def State.replay (s : State) (port l : Nat) : State :=
  if (s.port? port).any fun p => !p.held.isEmpty then (s.modPort port fun p => { p with again := some l }).due [.flitTransmit port] else s

/-- The other end has received everything up to an LSEQ that was sent to it (R502, log 97). -/
def Port.acked (p : Port) (l : Nat) : Port :=
  let sent := p.held.any fun h => h.flit.lseq == l
  let keep := p.held.filter fun h => !sent || seqBefore l h.flit.lseq
  { p with held := keep, replays := if keep.length < p.held.length then 0 else p.replays }

/-- What a flit is by its KIND, byte 8, and its header (R500); none of a KIND that is not defined. -/
def flitHead (f : Flit) : Option Head :=
  match f.kind with
  | 0 => some .idle
  | 1 => (Config.linkAsk f.header f.data).map .control
  | 2 => (Config.reqHead f.header).map .request
  | 3 => (Config.repHead f.header).map .reply
  | 4 => (Config.batchHead f.header).map .batch
  | _ => none

/-- The flits that data of a length take (R500). -/
def flitsFor (n : Nat) : Nat := max 1 ((n + 63) / 64)

/-- The flits of a message (R500, R511). -/
def Head.flits : Head → Nat
  | .request ⟨_, _, _, .store n, _⟩ => flitsFor n
  | .reply (.data _ n) => flitsFor n
  | .batch h => max 1 (h.count * flitsFor h.size)
  | _ => 1

/-- The first bytes of the data that flits bring, bytes 32 to 95 of each (R500). -/
def flitData (fs : List Flit) (n : Nat) : List Byte := (fs.flatMap fun f => padTo 64 f.data).take n

/-- Whether flits bring poisoned data (R514). -/
def flitBad (fs : List Flit) : Bool := fs.any fun f => f.poison

/-- What a request asks, with the data and the sideband of its flits (R295, R500, R514, R516). -/
def ReqAsk.kinds (fs : List Flit) : ReqAsk → PeerKind × List PeerKind
  | .load n => (.load n, [])
  | .store n => (.store (flitData fs n) (fs.head?.map (·.side)) (flitBad fs), [])
  | .rmw op w b more => (.atomic op w b, more.map fun x => .atomic x.1 w x.2)
  | .cas w cmp new more => (.cas w cmp new, more.map fun x => .cas w x.1 x.2)

/-- The message that some flits bring (R500, R511, R514, R524): KIND and header say what it is, the clear bytes of the first flit
which package and which partition sends it, the data fields with their sidebands what it brings. -/
def Head.msg (f : Flit) (fs : List Flit) : Head → FMsg
  | .idle => .idle
  | .control (.report e len room rseq) => .report e len room rseq
  | .control (.replay l) => .replay l
  | .request h =>
    let k := h.ask.kinds fs
    .request ⟨h.id, f.src, f.cid.toNat / 128, h.part, h.addr, k.1, k.2, h.deadline⟩
  | .reply (.data id n) => .reply id (if flitBad fs then .poison else .data (flitData fs n) (fs.map (·.side)))
  | .reply (.ack id) => .reply id .ack
  | .reply (.refused id) => .reply id .refused
  | .reply (.batchAck e q) => .batchAck e q
  | .reply (.batchRefusal e q) => .batchRefusal e q
  | .batch h =>
    let n := flitsFor h.size
    let part := fun (k : Nat) => (fs.drop (n * k)).take n
    .batch h.back h.entry h.seq ((List.range h.count).map fun k => (flitData (part k) h.size, flitBad (part k))) h.deadline

/-- What a message does when the last of its flits has arrived (R511, R514, R521, R524, R525). -/
def State.arriveMsg (s : State) (port : Nat) (src : Fin 16) : FMsg → State
  | .request q => s.due [.remoteRequestIngress q]
  | .reply id rep => s.due [.remoteReply id rep]
  | .batch back entry seq recs dl => s.due [.batchReceive src back entry seq recs dl]
  | .batchAck e q => s.due [.batchAck e q]
  | .batchRefusal e q => s.due [.batchRefusal e q]
  | .report e len room rseq => s.due [.lengthReportReceive e len room rseq]
  | .replay l => s.replay port l
  | .idle => s

/-- A flit for another package goes on towards it under this package's keys (R509), or is dropped where the route is not direct.
DESIGN CHOICE: of k direct ports it takes port number (source package) mod k (log 130). -/
def State.relayOn (s : State) (f : Flit) : State :=
  if !s.isDirect f.dst.val then s
  else
    match s.pick f.dst.val f.src.val with
    | some p => s.toEgress p [{ f with relayed := true, cls := 2, tag := [] }]
    | none => s

/-- What a port remembers of a flit that it accepts (R502, R504). -/
def Port.took (f : Flit) (p : Port) : Port :=
  let p := if p.rxNew = some f.kslot then (if f.kslot then { p with rx0 := none, rxNew := none } else { p with rx1 := none, rxNew := none }) else p
  { p.acked f.lack with nextRx := some ((f.lseq + 1) % 2 ^ 32) }

/-- A flit in order and its own after decryption, `g` (R500, R502, R509): remembered, then relayed, or gathered into its message.
DESIGN CHOICE: a flit of an undefined KIND, or whose header is none of its KIND, brings nothing (log 30). -/
def State.accept (s : State) (port : Nat) (p : Port) (f g : Flit) : State :=
  let s := s.modPort port (Port.took f)
  let mine := fun (h : Flit) => h.src == f.src && h.kind == f.kind
  if f.dst.val ≠ s.pkg.number then s.relayOn g
  else
    let fs := p.gathered.filter mine ++ [g]
    let first := fs.head?.getD g
    let rest := s.modPort port fun p => { p with gathered := p.gathered.filter fun h => !mine h }
    match flitHead first with
    | some h =>
      if fs.length < h.flits then s.modPort port fun p => { p with gathered := p.gathered ++ [g] }
      else rest.arriveMsg port f.src (h.msg first fs)
    | none => rest

/-- FLIT_RECEIVE (R502, R504, R509, R514): a flit that fails or is out of order is discarded, with a request for a replay;
the first flit that arrives says which LSEQ is expected, even where it fails (log 47). -/
def State.receive (s : State) (port : Nat) (f : Flit) : State :=
  match s.port? port with
  | none => s
  | some p =>
    if !p.live then s
    else
      let want := p.nextRx.getD f.lseq
      let ask := fun (s : State) =>
        (s.modPort port fun p => { p with nextRx := some want }).emit port (.replay want) p.peer (63 * 128 + 127)
      match if f.kslot then p.rx1 else p.rx0 with
      | none => ask s
      | some key =>
        let nonce := nonceOf (Config.farPort port) p.peer (Config.keyIndex port f.kslot { f with tag := [] }) f.lseq
        if f.tag ≠ flitTag f key nonce then ask s
        else
          let s := s.modPort port fun p => { p with lastValid := s.cycle }
          if f.lseq ≠ want then ask s else s.accept port p f (flitCrypt f key nonce)

/-- REPLAY_TIMEOUT (R502): the oldest unacknowledged flit has waited 2 µs. -/
def State.replayLate (s : State) (port : Nat) : State :=
  match (s.port? port).bind fun p => if p.live then p.held.head? else none with
  | some h => if h.time + 4800 ≤ s.cycle then s.replay port h.flit.lseq else s
  | none => s

/-- LINK_SILENCE_TIMEOUT (R502): no valid flit for 10 µs. -/
def State.silent (s : State) (port : Nat) : State :=
  match s.port? port with
  | some p => if p.live && decide (p.lastValid + 24000 ≤ s.cycle) then s.failPort port else s
  | none => s

/-- The first link that trains aligns the package's fabric time with the system's (R510, log 72). -/
def State.alignTime (s : State) : State :=
  if s.fabric.ports.any Port.live then s
  else { s with fabric := { s.fabric with offset := Config.timeOffset s.freeCtr }, freeCtr := s.freeCtr + 1 }

/-- LINK_TRAINING_SUCCESS (R499, R510): within 100 µs. DEDUCED: the replay buffer is empty then, LSEQ goes on and the keys stay
(log 47). -/
def State.trained (s : State) (port : Nat) (peer : Fin 16) : State :=
  match s.port? port with
  | some p =>
    if p.state = .training ∧ s.cycle < p.since + 240000 then
      let t := s.alignTime.reroute fun s => s.modPort port fun p => { p with
        state := if p.standby then .standby else .up, peer := peer.val, nextRx := none, held := [], again := none, replays := 0
        gathered := [], lastValid := s.cycle }
      t.routeRecords port 4 (s.fabric.moved.filter fun k => t.mode k == 1)
    else s
  | none => s

/-- LINK_TRAINING_TIMEOUT (R499). -/
def State.untrained (s : State) (port : Nat) : State :=
  match s.port? port with
  | some p => if p.state = .training ∧ p.since + 240000 ≤ s.cycle then s.failPort port else s
  | none => s

/-! Requests of peers -/

/-- The grant that a peer's request is performed under (R513): its whole range lies in it. DESIGN CHOICE: of several, the first
installed (log 136). -/
def State.grantFor (s : State) (q : PeerReq) (n : Nat) : Option Grant :=
  s.fabric.grants.find? fun g => g.pkg == q.pkg.val && g.part == q.part && decide (g.base ≤ q.addr / 64 * 64) && decide (q.addr + n ≤ g.base + g.size)

/-- Bytes that a request touches. -/
def kindWidth : PeerKind → Nat
  | .load n => n
  | .store bs _ _ => bs.length
  | .atomic _ w _ => if w then 8 else 4
  | .cas w _ _ => if w then 8 else 4

/-- An answer sent to a peer (R511). -/
def State.replyTo (s : State) (q : PeerReq) (rep : RemoteRep) (own : Nat) : State :=
  match s.pick q.pkg.val q.src with
  | some p => s.emit p (.reply q.id rep) q.pkg.val (s.cidOf own)
  | none => s

/-- A peer's request that stands first of its source part (R98, R99, R316, R511, R513, R558): a late one is discarded; one
outside every grant is refused, and what has passed that check once is not checked again (R533); where its page is being
moved it waits. -/
def State.serveIngress (s : State) (h : HeldReq) : State :=
  let q := h.q
  if q.deadline < s.fabricTime then s
  else
    match h.own.orElse fun _ => (s.grantFor q (kindWidth q.kind)).map fun g => g.own with
    | none => s.replyTo q .refused 63
    | some own =>
      match s.physStore q.addr with
      | some (a, false) =>
        if s.underMove a then { s with fabric := { s.fabric with ingress := s.fabric.ingress ++ [⟨q, some own⟩] } }
        else
          let s := (linesOf a (kindWidth q.kind)).foldl State.clearLine s
          let r := State.homeMore own a q.more (s.homeAccess none own a [] q.kind)
          r.1.replyTo q r.2 own
      | _ => s.replyTo q .refused 63

/-- A peer's request at its ingress (R94, R537): behind those of its source part that wait there. -/
def State.offerIngress (s : State) (h : HeldReq) : State :=
  if s.fabric.ingress.any fun r => r.q.pkg == h.q.pkg && r.q.part == h.q.part && r.q.src == h.q.src then
    { s with fabric := { s.fabric with ingress := s.fabric.ingress ++ [h] } }
  else s.serveIngress h

/-- REMOTE_REQUEST_INGRESS (R94, R511, R513, R537, R558). -/
def State.ingress (s : State) (q : PeerReq) : State := s.offerIngress ⟨q, none⟩

/-- Peer requests that waited for a page are made again, in their order (R94, R558). -/
def State.retryIngress (s : State) : State :=
  s.fabric.ingress.foldl State.offerIngress { s with fabric := { s.fabric with ingress := [] } }

/-! Answers -/

/-- A request has its answer (R278, R409): its part's access or its copy goes on. -/
def State.resumeReq (s : State) (q : Request) : State :=
  match q.copyOp with
  | some o => s.copyAnswered o
  | none =>
    match s.partNo? q.part with
    | some (r, _) =>
      (match q.kind with
      | .load _ => s.due [.loadReply r]
      | .store _ _ _ => s.due [.loadReply r]
      | _ => s.due [.atomicReply q.id])
    | none => s

/-- A token queue without a request that has ended. -/
def State.unmeter (s : State) (id : Nat) : State :=
  { s with fabric := { s.fabric with ports := s.fabric.ports.map fun (p : Port) =>
    { p with waiting := p.waiting.filter fun w => w.what != .req id } } }

/-- Requests that were made as one have their answers, each from what the one before it left (R316, log 96); a CAS that has held
sets DRT (R309). -/
def State.answerGroup (s : State) (q : Request) (rep : RemoteRep) : State :=
  let t := (answersOf (s.groupOf q) rep).foldl (fun t p => t.modReq p.1 fun q => { q with ans := some p.2 }) s
  t.dirtyHeld (t.groupOf q)

/-- The flags of a timeout (R97, R98). DEDUCED: an access that is one for the part is its lowest lane's, of which it sets the bit
(R288, R307; log 112). -/
def State.flagTimeout (s : State) (q : Request) : State :=
  s.modGang q.cohort q.gang fun g => { g with fto := true, ftomask := if q.copyOp.isNone then g.ftomask ||| lbit q.lane else g.ftomask }

/-- What a request that has timed out answers (R97, R307, R317). -/
def lateRep (k : PeerKind) : RemoteRep :=
  match k with
  | .store _ _ _ => .ack
  | k => .data (List.replicate (kindWidth k) 0xFF) []

/-- A request is given up (R97, R98, R307, R317, R337, R604): loads and atomics answer all ones, and the lanes of the same
word that made one request time out together. -/
def State.giveUp (s : State) (q : Request) : State :=
  let s := (s.groupOf q).foldl State.flagTimeout s
  ((s.modGroup q.group fun q => { q with ans := some (lateRep q.kind), tout := true }).unmeter q.id).resumeReq q

/-- REMOTE_REPLY (R94, R512, R513): an answer that comes after the timeout is discarded. -/
def State.remoteAnswer (s : State) (id : Nat) (rep : RemoteRep) : State :=
  match s.req? id with
  | some q =>
    if q.sent && q.ans.isNone && q.peer.isSome then
      if q.deadline + 200 < s.fabricTime then s.giveUp q else (s.answerGroup q rep).resumeReq q
    else s
  | none => s

/-- REMOTE_TIMEOUT (R512): 200 ns after the deadline. -/
def State.remoteLate (s : State) (id : Nat) : State :=
  match s.req? id with
  | some q =>
    if q.sent && q.ans.isNone && q.peer.isSome && decide (q.deadline + 200 < s.fabricTime) then s.giveUp q else s
  | none => s

/-- IO_COMPLETION (R604): one that comes after the timeout is discarded. -/
def State.ioAnswer (s : State) (id : Nat) (c : IoResult) : State :=
  match s.req? id with
  | some q =>
    if q.sent && q.ans.isNone && q.io then
      if q.deadline ≤ s.cycle then s.giveUp q else
      match c with
      | .data bs => (s.modReq id fun q => { q with ans := some (.data bs []) }).resumeReq q
      | .poison => (s.modReq id fun q => { q with ans := some .poison }).resumeReq q
      | .error => s.giveUp q
    else s
  | none => s

/-- IO_TIMEOUT (R604). -/
def State.ioLate (s : State) (id : Nat) : State :=
  match s.req? id with
  | some q => if q.sent && q.ans.isNone && q.io && decide (q.deadline ≤ s.cycle) then s.giveUp q else s
  | none => s

/-! Tokens -/

/-- The message of a place in a token queue; none when what waited has ended. -/
def State.metered (s : State) (w : TokenWait) : Option (FMsg × Nat) :=
  match w.what with
  | .req id => (s.req? id).bind fun q => q.peer.map fun k => (.request (s.toPeer q s.pkg.number), k)
  | .batch e n => (s.mirror? e).bind fun m => (m.batches.find? fun b => b.seq == n && !b.settled).map fun b =>
      (.batch m.idx m.pidx n b.recs b.deadline, m.peer)

/-- TOKEN_GRANT (R516, R523, R550): a partition's oldest waiting request at a port takes its tokens and enters the egress; after a
batch the port decides again. -/
def State.tokenGrant (s : State) (port part : Nat) : State :=
  match (s.port? port).bind fun p => p.waiting.find? fun w => w.part == part with
  | none => s
  | some w =>
    let leave := fun (s : State) => s.modPort port fun p => { p with waiting := p.waiting.erase w }
    match s.metered w with
    | none => (leave s).due [.tokenGrant port part]
    | some (m, dst) =>
      let bs := (s.payers part).map fun t => s.bucket port t
      if bs.all fun b => decide (min w.flits b.depth ≤ b.balance) then
        let s := bs.foldl (fun (t : State) b => t.setBucket { b with balance := b.balance - w.flits }) (leave s)
        let s := s.emit port m dst (s.cidOf part)
        s.due ([.tokenGrant port part] ++ match w.what with | .batch _ _ => [.portForwardDecision port] | .req _ => [])
      else s.modPort port fun p => { p with demand := insertNat part p.demand }

/-- Buckets of a port that exist: of every partition number (R515). -/
def State.tickPort (s : State) (port : Nat) : State :=
  match s.port? port with
  | none => s
  | some p =>
    let parts := List.range 48
    let r := parts.foldl (fun (acc : State × Nat) t =>
      let b := acc.1.bucket port t
      let n := b.balance + b.rate
      (if min b.depth n = b.balance then acc.1 else acc.1.setBucket { b with balance := min b.depth n }, acc.2 + (n - b.depth))) (s, 0)
    let wants := parts.filter fun t => p.demand.contains t || p.waiting.any fun w => w.part == t
    let v := (wants.map fun t => (r.1.bucket port t).weight).sum
    let s := wants.foldl (fun (u : State) t =>
      let b := u.bucket port t
      u.setBucket { b with balance := min b.depth (b.balance + r.2 * b.weight / v) }) r.1
    let s := s.modPort port fun p => { p with demand := (p.waiting.map fun w => w.part).dedup }
    s.due ((p.waiting.map fun w => w.part).dedup.map fun t => .tokenGrant port t)

/-- TOKEN_TICK (R517). -/
def State.tokenTick (s : State) : State := (List.range 16).foldl State.tickPort s

/-- A level-2 partition's balances never exceed its parent's depths (R550). -/
def State.childBuckets (s : State) (part : Nat) : State :=
  (List.range 16).foldl (fun (t : State) k => if t.bucket k part = t.ownBucket k part then t else t.setBucket (t.bucket k part)) s

/-! Mirrored queues -/

/-- An active entry (R520). -/
def State.mirrorOn (s : State) (m : Mirror) : Bool :=
  ((s.queue? m.key).any fun q => q.desc.mirror) && (s.mode m.peer == 1 || s.mode m.peer == 2)

/-- LENGTH_REPORT_SEND (R521). DEDUCED: through usable port number (mirror index) mod k (log 46). -/
def State.sendReport (s : State) (e : Nat) : State :=
  match s.mirror? e with
  | none => s
  | some m =>
    match s.mirrorOn m, s.queue? m.key, s.pick m.peer m.idx with
    | true, some q, some p => s.emit p (.report m.pidx (s.sum (.port p) m.key).1 q.room m.rseq) m.peer (s.cidOf m.key.part)
    | _, _, _ => s

/-- Whether a batch's records are not in a report yet (R522); batch 0 counts while it is unanswered and the report's RSEQ is
0, as it is before any batch is enqueued (log 35). -/
def Mirror.ahead (m : Mirror) (b : Batch) : Bool := seqBefore m.repSeq b.seq || (b.seq == 0 && m.repSeq == 0 && !b.settled)

/-- Records of batches that the last report does not count (R522). -/
def Mirror.flying (m : Mirror) : Nat := ((m.batches.filter m.ahead).map fun b => b.recs.length).sum

/-- LENGTH_REPORT_RECEIVE (R522, R523). -/
def State.takeReport (s : State) (e len room rseq : Nat) : State :=
  match s.mirror? e with
  | none => s
  | some m =>
    let s := s.modMirror e fun m =>
      let m := { m with repLen := len, repRoom := room, repSeq := rseq }
      { m with batches := m.batches.filter fun b => !b.settled || m.ahead b }
    s.due ((s.routePorts m.peer).map .portForwardDecision)

/-- An entry as a port sees it (R522): Δ and Room. -/
def State.margin (s : State) (port : Nat) (m : Mirror) : Int × Int :=
  (((s.sum (.port port) m.key).1 : Int) - (m.repLen + m.flying : Nat), (m.repRoom : Int) - m.flying)

/-- A candidate (R522). -/
def State.forwards (s : State) (port : Nat) (m : Mirror) : Bool :=
  let d := s.margin port m
  s.mirrorOn m && (s.routePorts m.peer).contains port && decide (0 < d.2) && decide (0 < d.1) &&
    decide ((256 * m.theta : Int) < m.w * d.1) && decide ((m.batches.filter fun b => !b.settled).length < 16)

/-- Whether a port's dequeue request is on its way (R523). -/
def State.asking (s : State) (port : Nat) : Bool :=
  s.stage.queues.any fun q => q.asks.any fun a => match a with | .batch p _ _ => p == port | .launch _ _ => false

/-- The mirror that a port forwards for next (R523). -/
def State.nextMirror (s : State) (port : Nat) : Option Mirror :=
  let key := fun (m : Mirror) => ((m.w : Int) * (s.margin port m).1, m.w, m.idx, 0)
  (s.fabric.mirrors.filter (s.forwards port)).foldl (fun (b : Option Mirror) m =>
    match b with
    | none => some m
    | some c => if better (key m) (key c) then some m else some c) none

/-- A port may decide (R523): 8 cycles have passed since its last decision, which has ended (log 44). -/
def State.mayDecide (s : State) (port : Nat) : Bool :=
  !s.asking port && (s.port? port).any fun p => decide (p.decideAt ≤ s.cycle)

/-- PORT_FORWARD_DECISION (R523): one decision of a port at a time, at most once every 8 cycles; one that comes too soon is
made then. -/
def State.forwardDecide (s : State) (port : Nat) : State :=
  let out := (s.fabric.mirrors.map fun m => (m.batches.filter fun b => !b.settled && b.port == port).length).sum
  if 64 ≤ out then s
  else if !s.mayDecide port then s.modPort port fun p => { p with decides := true }
  else
    let s := s.modPort port fun p => { p with decideAt := s.cycle + 8, decides := false }
    match s.nextMirror port with
    | none => s
    | some m =>
      let d := s.margin port m
      let k := min 32 (min (d.1 / 2) d.2).toNat
      (s.modQueue m.key fun (q : Queue) => { q with asks := q.asks ++ [.batch port m.idx k] }).due [.queueDequeue m.key]

/-- An answer about a batch sent to its source, under the identifier of the batch's partition, or, where no entry names one, of
the package (R371). DEDUCED: through usable port number (mirror index) mod k (log 46). -/
def State.batchAnswer (s : State) (src m : Nat) (f : FMsg) : State :=
  match s.pick src m with
  | some p => s.emit p f src (s.cidOf ((s.mirror? m).elim 63 fun e => e.key.part))
  | none => s

/-- A batch is discarded for its deadline: its sequence number counts as complete (R524). -/
def Mirror.discard (seq : Nat) (m : Mirror) : Mirror :=
  { m with complete := m.complete ++ [seq], held := m.held.filter fun h => h.seq != seq, dropped := insertNat seq m.dropped }

/-- BATCH_RECEIVE (R524, R525): a batch that was enqueued before is acknowledged again, though its queue is unbound by now, and
one that was discarded is not. DESIGN CHOICE: the number of a refused batch counts as neither enqueued nor discarded (log 137). -/
def State.batchIn (s : State) (src : Fin 16) (back e seq : Nat) (recs : List (List Byte × Bool)) (deadline : Nat) : State :=
  match s.mirror? e with
  | none => s.batchAnswer src.val e (.batchRefusal back seq)
  | some m =>
    if seqBefore seq m.expect && !m.dropped.contains seq then s.batchAnswer src.val e (.batchAck back seq)
    else if (s.queue? m.key).isNone then s.batchAnswer src.val e (.batchRefusal back seq)
    else if seqBefore seq m.expect then s
    else
      let late := decide (deadline < s.fabricTime)
      let s :=
        if m.complete.contains seq then s
        else if late then s.modMirror e (Mirror.discard seq)
        else if m.held.any fun h => h.seq == seq then s
        else s.modMirror e fun m => { m with held := m.held ++ [⟨seq, recs, deadline⟩] }
      State.drainHeld e (m.held.length + m.complete.length + 2) s

/-- BATCH_DEADLINE_DISCARD (R524). -/
def State.batchStale (s : State) (e seq : Nat) : State :=
  match (s.mirror? e).bind fun m => m.held.find? fun h => h.seq == seq with
  | some h =>
    if h.deadline < s.fabricTime then
      let s := s.modMirror e (Mirror.discard seq)
      State.drainHeld e (((s.mirror? e).elim 0 fun m => m.held.length + m.complete.length) + 1) s
    else s
  | none => s

/-- A batch of an entry that has not been settled. -/
def State.openBatch (s : State) (e seq : Nat) : Option Batch :=
  (s.mirror? e).bind fun m => m.batches.find? fun b => b.seq == seq && !b.settled

/-- A batch's place in its port's token queue given up. -/
def State.unmeterBatch (s : State) (e seq : Nat) : State :=
  { s with fabric := { s.fabric with ports := s.fabric.ports.map fun (p : Port) =>
    { p with waiting := p.waiting.filter fun w => w.what != .batch e seq } } }

/-- A batch settled (R522, R525): it stays only until a report covers it. -/
def Mirror.settle (seq : Nat) (m : Mirror) : Mirror :=
  let m := { m with batches := m.batches.map fun (x : Batch) => if x.seq = seq then { x with settled := true } else x }
  { m with batches := m.batches.filter fun x => !x.settled || m.ahead x }

/-- A batch that comes back (R525): its records stand in front of the queue again. -/
def State.batchBack (s : State) (e seq : Nat) : State :=
  match s.openBatch e seq with
  | none => s
  | some _ => ((s.unmeterBatch e seq).modMirror e (Mirror.settle seq)).requeueHeld fun h => h.who == .batch e seq

/-- BATCH_ACK (R512, R525, R530): one that comes after the timeout is discarded. -/
def State.batchAcked (s : State) (e seq : Nat) : State :=
  match s.openBatch e seq with
  | none => s
  | some b =>
    if b.deadline + 200 < s.fabricTime then s.batchBack e seq
    else
      let count := fun (m : Mirror) => { m with sentRecs := m.sentRecs + BitVec.ofNat 32 b.recs.length }
      ((s.unmeterBatch e seq).modMirror e fun m => (count m).settle seq).releaseHeld fun h => h.who == .batch e seq

/-- BATCH_TIMEOUT (R512, R525). -/
def State.batchLate (s : State) (e seq : Nat) : State :=
  match s.openBatch e seq with
  | some b => if b.deadline + 200 < s.fabricTime then s.batchBack e seq else s
  | none => s

/-! The FABRIC instructions -/

/-- The port word (R530). -/
def Port.word (p : Port) : Nat :=
  p.peer % 16 * 2 ^ 16 + p.txSlot.toNat * 2 ^ 12 + (p.rx0.isSome.toNat + 2 * p.rx1.isSome.toNat) * 2 ^ 10 + min 15 p.replays * 16 +
    p.state.code

/-- The route word (R506). -/
def State.routeWord (s : State) (k : Nat) : Nat :=
  let r := s.routeOf k
  r.fb.toNat * 128 + r.force.toNat * 64 + s.mode k * 16 + r.relay % 16

/-- FSTAT (R529, R530): selectors in order. -/
def fstatVal (s : State) (part sel i : Nat) : Nat :=
  match sel with
  | 0 => (s.port? i).elim 0 Port.word
  | 1 => if i < 16 then s.routeWord i else 0
  | 2 => match s.mirror? i with | some m => if m.key.part = part then m.sentRecs.toNat else 0 | none => 0
  | 3 => if i < 16 then (s.bucket i part).balance else 0
  | _ => s.rto part

def fstatSem (p : Pred) (sel : Nat) (d a : Opnd) : Sem := fun s x =>
  .fall (s.putView x.r (x.v.wrUniform p d (BitVec.ofNat 32 (fstatVal s x.c.part sel (x.v.uni a).toNat)))) false

/-- FCLR (R531). -/
def fclrSem (p : Pred) (psn : Bool) (d : Opnd) : Sem := fun s x =>
  if !x.v.acts p then .fall s true
  else
    let old := x.v.gang.ftomask
    let s := s.modGang x.r.cohort x.r.gang fun g => { g with ftomask := 0, fto := false, psn := g.psn && !psn }
    s.answer x p d old.toNat

/-- The old value of a field of FTOK (R532). -/
def State.tokField (s : State) (fld port part : Nat) : Nat :=
  let b := s.bucket port part
  match fld with
  | 0 => b.rate | 1 => b.depth | 2 => b.weight | 3 => b.balance | _ => s.rto part

/-- Whether FTOK admits a value (R515, R532). -/
def State.tokOk (s : State) (fld port part n : Nat) : Bool :=
  match fld with
  | 0 => decide (n ≤ 1562)
  | 1 => decide (1 ≤ n) && decide (n ≤ 65535)
  | 2 => decide (1 ≤ n) && decide (n ≤ 255)
  | 3 => decide (n ≤ (s.bucket port part).depth)
  | _ => decide (1 ≤ n) && decide (n ≤ 10000)

/-- A field of FTOK set (R532, R550). -/
def State.setTok (s : State) (fld port part n : Nat) : State :=
  let b := s.bucket port part
  let s := match fld with
    | 0 => s.setBucket { b with rate := n }
    | 1 => s.setBucket { b with depth := n, balance := min b.balance n }
    | 2 => s.setBucket { b with weight := n }
    | 3 => s.setBucket { b with balance := n }
    | _ => { s with fabric := { s.fabric with rtos := assocSet s.fabric.rtos part n } }
  let s := (s.parts.filter fun p => p.level == 2 && p.parent == part).foldl (fun t p => t.childBuckets p.num) s
  s.due [.tokenGrant port part]

/-- FTOK (R532). -/
def ftokSem (fld : Nat) (rd : Bool) (d a b c : Opnd) : Sem := fun s x =>
  let port := (x.v.uni a).toNat
  let part := (x.v.uni b).toNat
  let n := (x.v.uni c).toNat
  let p : Pred := ⟨0, false⟩
  if 15 < port || 47 < part || (!rd && !s.tokOk fld port part n) then s.answer x p d 0xFFFFFFFF
  else
    let old := s.tokField fld port part
    (if rd then s else s.setTok fld port part n).answer x p d old

/-- FLINK PORT (R499, R533). DESIGN CHOICE: mode 0 drops what the port carries, and its requests and batches time out (log 135);
DEDUCED: its keys stay (log 47). -/
def flinkPortSem (d b c : Opnd) : Sem := fun s x =>
  let port := (x.v.uni b).toNat
  let mode := (x.v.uni c).toNat
  let ans := fun (s : State) (n : Nat) => s.answer x ⟨0, false⟩ d n
  match s.port? port with
  | none => ans s 1
  | some p =>
    if 2 < mode then ans s 1
    else if p.state = .training then ans s 3
    else
      let go := fun (st : PortState) => ans (s.reroute fun s => s.modPort port fun p => { p with state := st }) 0
      match mode, p.state with
      | 0, .disabled => ans s 0
      | 0, _ => ans (s.reroute fun s => s.modPort port fun p => { p with
          state := .disabled, egress := [], held := [], again := none, replays := 0, gathered := [], waiting := [] }) 0
      | 1, .up => ans s 0
      | 1, .standby => go .up
      | 2, .standby => ans s 0
      | 2, .up => go .standby
      | _, _ => ans (s.modPort port fun p => { p with state := .training, standby := mode == 2, since := s.cycle }) 0

/-- FLINK ROUTE (R506, R533). -/
def flinkRouteSem (d b c : Opnd) : Sem := fun s x =>
  let k := (x.v.uni b).toNat
  let w := (x.v.uni c).toNat
  let ans := fun (s : State) (n : Nat) => s.answer x ⟨0, false⟩ d n
  if 15 < k || 255 < w || w / 16 % 4 != 0 then ans s 1
  else
    ans (s.reroute fun s => { s with fabric := { s.fabric with
      routes := assocSet s.fabric.routes k ⟨w / 128 == 1, w / 64 % 2 == 1, w % 16⟩ } }) 0

/-- A FLINK operation's 32-byte descriptor read at ring H's physical addresses (R533). -/
def flinkDesc (d a : Opnd) (k : State → Ctx → List Byte → Done) : Sem := fun s x =>
  let va := x.v.base a
  if va.toNat % 32 != 0 then s.answer x ⟨0, false⟩ d 1
  else directLoad x.v.part.ring false 2 va 32 (x.v.act ⟨0, false⟩) k s x

/-- A key that a port sends under from now on (R504). -/
def State.sealWith (s : State) (p : Port) (slot : Bool) (bs : List Byte) : State :=
  (s.modPort p.num fun p => { p with txKey := some (bs.take 16, leNat ((bs.drop 16).take 4)), txSlot := slot, txCount := 0 }).due
    (p.egress.map fun _ => .flitTransmit p.num)

/-- A key that a port receives under (R504): the first flit under it retires the other slot. -/
def State.openWith (s : State) (port : Nat) (slot : Bool) (bs : List Byte) : State :=
  s.modPort port fun p =>
    if slot then { p with rx1 := some (bs.take 16), rxNew := some true } else { p with rx0 := some (bs.take 16), rxNew := some false }

/-- FLINK KEY (R504, R533). -/
def flinkKeySem (d a b c : Opnd) : Sem := flinkDesc d a fun s x bs =>
  let port := (x.v.uni b).toNat
  let w := (x.v.uni c).toNat
  let slot := w / 2 % 2 == 1
  let ans := fun (s : State) (n : Nat) => s.answer x ⟨0, false⟩ d n
  match s.port? port with
  | none => ans s 1
  | some p =>
    if 3 < w || leNat (bs.drop 20) != 0 then ans s 1
    else if w % 2 = 0 then ans (s.sealWith p slot bs) 0
    else if (if slot then p.rx1 else p.rx0).isSome then ans s 3
    else ans (s.openWith port slot bs) 0

/-- The mirror that a descriptor asks for (R520, R533). -/
def mirrorOf (i : Nat) (bs : List Byte) : Mirror :=
  let f := fun (o n : Nat) => leNat ((bs.drop o).take n)
  { idx := i, key := ⟨f 0 1, f 1 1, f 2 2⟩, peer := f 4 1, pidx := f 6 2, w := f 8 2, theta := if f 10 2 = 0 then 32 else f 10 2
    sentRecs := 0, seq := 0, repLen := 0, repRoom := 0, repSeq := 0, batches := [], expect := 0, held := [], complete := [], dropped := [], rseq := 0 }

/-- Whether such a descriptor or index breaks a limit (R533). -/
def State.mirrorWrong (s : State) (i : Nat) (bs : List Byte) : Bool :=
  let f := fun (o n : Nat) => leNat ((bs.drop o).take n)
  255 < i || 47 < f 0 1 || 15 < f 1 1 || 1023 < f 2 2 || 15 < f 4 1 || f 4 1 == s.pkg.number || f 5 1 != 0 || 255 < f 6 2 || f 8 2 == 0
    || f 12 20 != 0

/-- Whether a mirror of its index, or of its queue and peer, is there (R533). -/
def State.mirrorTaken (s : State) (m : Mirror) : Bool :=
  (s.mirror? m.idx).isSome || s.fabric.mirrors.any fun n => n.key == m.key && n.peer == m.peer

/-- FLINK MIRROR (R520, R533). -/
def flinkMirrorSem (d a b : Opnd) : Sem := flinkDesc d a fun s x bs =>
  let m := mirrorOf (x.v.uni b).toNat bs
  let ans := fun (s : State) (n : Nat) => s.answer x ⟨0, false⟩ d n
  if s.mirrorWrong m.idx bs then ans s 1
  else if s.mirrorTaken m then ans s 2
  else ans { s with fabric := { s.fabric with mirrors := s.fabric.mirrors ++ [m] } } 0

/-- FLINK UNMIRROR (R533). -/
def flinkUnmirrorSem (d b : Opnd) : Sem := fun s x =>
  let i := (x.v.uni b).toNat
  let ans := fun (s : State) (n : Nat) => s.answer x ⟨0, false⟩ d n
  if 255 < i then ans s 1
  else
    match s.mirror? i with
    | none => ans s 3
    | some m =>
      if m.batches.any fun b => !b.settled then ans s 2
      else ans { s with fabric := { s.fabric with mirrors := s.fabric.mirrors.filter fun m => m.idx != i } } 0

/-- The grant that a descriptor asks for (R513, R533). -/
def grantOf (i : Nat) (bs : List Byte) : Grant :=
  let f := fun (o n : Nat) => leNat ((bs.drop o).take n)
  ⟨i, f 0 1, f 1 1, f 2 1, f 8 8, f 16 8⟩

/-- Whether such a descriptor or index breaks a limit (R533). -/
def grantWrong (i : Nat) (bs : List Byte) : Bool :=
  let f := fun (o n : Nat) => leNat ((bs.drop o).take n)
  63 < i || 15 < f 0 1 || 47 < f 1 1 || 47 < f 2 1 || f 3 5 != 0 || f 8 8 % 65536 != 0 || f 16 8 == 0 || f 16 8 % 65536 != 0
    || f 24 8 != 0

/-- FLINK GRANT (R513, R533). -/
def flinkGrantSem (d a b : Opnd) : Sem := flinkDesc d a fun s x bs =>
  let g := grantOf (x.v.uni b).toNat bs
  let ans := fun (s : State) (n : Nat) => s.answer x ⟨0, false⟩ d n
  if grantWrong g.idx bs then ans s 1
  else if s.fabric.grants.any fun h => h.idx == g.idx then ans s 2
  else ans { s with fabric := { s.fabric with grants := s.fabric.grants ++ [g] } } 0

/-- FLINK REVOKE (R533). -/
def flinkRevokeSem (d b : Opnd) : Sem := fun s x =>
  let i := (x.v.uni b).toNat
  let ans := fun (s : State) (n : Nat) => s.answer x ⟨0, false⟩ d n
  if 63 < i then ans s 1
  else if !(s.fabric.grants.any fun g => g.idx == i) then ans s 3
  else ans { s with fabric := { s.fabric with grants := s.fabric.grants.filter fun g => g.idx != i } } 0

/-- FLINK SETID (R497, R533). -/
def flinkSetidSem (d c : Opnd) : Sem := fun s x =>
  let n := (x.v.uni c).toNat
  let ans := fun (s : State) (n : Nat) => s.answer x ⟨0, false⟩ d n
  if 15 < n then ans s 1
  else if s.fabric.ports.any fun p => p.state != .disabled then ans s 3
  else ans { s with pkg := { s.pkg with number := n } } 0

end Sys2Proof.Machine
end

