-- ==== Sys2Proof/Machine/EvFab.lean ====
section
/-!
DEFINITION. The meanings of the steps of the fabric (chapter 14 of spec/).
-/
namespace Sys2Proof.Machine

/-- FLIT_RECEIVE (R502). -/
def execFlitReceive (port : Nat) (f : Flit) (s : State) : Out := event (fun s => s.receive port f) s

/-- FLIT_TRANSMIT (R501). -/
def execFlitTransmit (port : Nat) (s : State) : Out := event (fun s => s.transmit port) s

/-- REPLAY_TIMEOUT (R502). -/
def execReplayTimeout (port : Nat) (s : State) : Out := event (fun s => s.replayLate port) s

/-- LINK_SILENCE_TIMEOUT (R502). -/
def execLinkSilenceTimeout (port : Nat) (s : State) : Out := event (fun s => s.silent port) s

/-- LINK_TRAINING_SUCCESS (R499). -/
def execLinkTrainingSuccess (port : Nat) (peer : Fin 16) (s : State) : Out := event (fun s => s.trained port peer) s

/-- LINK_TRAINING_TIMEOUT (R499). -/
def execLinkTrainingTimeout (port : Nat) (s : State) : Out := event (fun s => s.untrained port) s

/-- TOKEN_GRANT (R516). -/
def execTokenGrant (port : Nat) (part : Nat) (s : State) : Out := event (fun s => s.tokenGrant port part) s

/-- TOKEN_TICK (R517). -/
def execTokenTick (s : State) : Out := event (fun s => s.tokenTick) s

/-- LENGTH_REPORT_SEND (R521). -/
def execLengthReportSend (entry : Nat) (s : State) : Out := event (fun s => s.sendReport entry) s

/-- LENGTH_REPORT_RECEIVE (R521). -/
def execLengthReportReceive (entry : Nat) (len : Nat) (room : Nat) (rseq : Nat) (s : State) : Out := event (fun s => s.takeReport entry len room rseq) s

/-- PORT_FORWARD_DECISION (R523). -/
def execPortForwardDecision (port : Nat) (s : State) : Out := event (fun s => s.forwardDecide port) s

/-- BATCH_RECEIVE (R524). -/
def execBatchReceive (src : Fin 16) (back : Nat) (entry : Nat) (seq : Nat) (recs : List (List Byte × Bool)) (deadline : Nat) (s : State) : Out := event (fun s => s.batchIn src back entry seq recs deadline) s

/-- BATCH_ACK (R525). -/
def execBatchAck (entry : Nat) (seq : Nat) (s : State) : Out := event (fun s => s.batchAcked entry seq) s

/-- BATCH_REFUSAL (R525). -/
def execBatchRefusal (entry : Nat) (seq : Nat) (s : State) : Out := event (fun s => s.batchBack entry seq) s

/-- BATCH_TIMEOUT (R525). -/
def execBatchTimeout (entry : Nat) (seq : Nat) (s : State) : Out := event (fun s => s.batchLate entry seq) s

/-- BATCH_DEADLINE_DISCARD (R524). -/
def execBatchDeadlineDiscard (entry : Nat) (seq : Nat) (s : State) : Out := event (fun s => s.batchStale entry seq) s

end Sys2Proof.Machine
end

