-- ==== Sys2Proof/Machine/QueueOps.lean ====
section
/-!
DEFINITION. What the QUEUE instructions do (R456 to R460, R475, R478 to R487, R495).
-/
namespace Sys2Proof.Machine

/-! Pushes -/

/-- Outputs of a cohort's stage (R476). -/
def State.outCount (s : State) (c : Cohort) : Nat := (s.stageOf c).elim 0 fun t => t.desc.outs.length

/-- Record size of a queue (R456). -/
def State.sizeOf (s : State) (k : QKey) : Nat :=
  (((s.graph? k.part k.slot).bind fun g => assocGet g.queues k.idx).map fun d => d.size).getD 16

/-- An offset as TADDR holds it. -/
def offAddr (o : Int) : DWord := if o < 0 then ((BitVec.ofInt 32 o).setWidth 64) else BitVec.ofInt 64 o

/-- Rows 3 and 4 of R479 on the offsets of some lanes: the fault, if there is one. -/
def pushFault (c : Cohort) (act : Word) (uni : Bool) (size : Nat) (offs : List (Nat × Int)) : Option (Nat × Word × DWord × Word × Bool) :=
  let bad := fun (code : Nat) (p : Int → Bool) =>
    faultOf uni act ((offs.filter fun o => p o.2).map fun o => ⟨o.1, code, false, offAddr o.2, 0, false⟩)
  match bad 11 fun o => o % 16 != 0 with
  | some f => some f
  | none => bad 12 fun o => decide (o < c.sp.base) || decide ((c.sp.base + c.sp.size : Nat) < o + size)

/-- The place of an SP offset. -/
def spPlace (c : Cohort) (o : Int) : SAddr := spAt c.core o.toNat

/-- QPUSH (R137, R478, R479). -/
def qpushSem (p : Pred) (o : Nat) (a : Opnd) : Sem := fun s x =>
  let act := x.v.act p
  if act = 0 then .fall s false
  else if 64 ≤ x.v.gang.counters.push then .stall s .counter
  else
    match s.outputOf x.c o with
    | none => .trap s 10 act (BitVec.ofNat 64 o) 0 false
    | some key =>
      let size := s.sizeOf key
      let offs := (laneList act).map fun l => (l, x.v.offset a l)
      match pushFault x.c act false size offs with
      | some (c, lanes, ad, i, z) => .trap s c lanes ad i z
      | none => .fall (s.bufferCmd x (.push ⟨key, size, .places (offs.map fun p => spPlace x.c p.2)⟩)) false

/-- QPUSHS (R137, R478, R479). -/
def qpushsSem (p : Pred) (o : Nat) (a b : Opnd) : Sem := fun s x =>
  let act := x.v.act p
  if !x.v.acts p then .fall s false
  else if 64 ≤ x.v.gang.counters.push then .stall s .counter
  else
    match s.outputOf x.c o with
    | none => .trap s 10 act (BitVec.ofNat 64 o) 0 false
    | some key =>
      let k := (x.v.uni b).toNat
      if 256 < k then .trap s 10 act (BitVec.ofNat 64 k) 0 false
      else
        let size := s.sizeOf key
        let offs := (List.range k).map fun (i : Nat) => (4 * lowQuad x.v.part.quads, x.v.offset a 0 + size * (i : Int))
        match pushFault x.c act true size offs with
        | some (c, lanes, ad, i, z) => .trap s c lanes ad i z
        | none => .fall (s.bufferCmd x (.push ⟨key, size, .places (offs.map fun p => spPlace x.c p.2)⟩)) false

/-- A command that passes to its engine as its instruction executes (R485). -/
def State.passNow (s : State) (x : Ctx) (key : QKey) (c : PushCmd) : State :=
  let k : Cmd := ⟨s.nextId, x.r.cohort, x.r.gang, x.v.part.id, .push { c with key := key }⟩
  let s := ({ s with nextId := s.nextId + 1 } : State).modGang x.r.cohort x.r.gang fun g =>
    { g with counters := { g.counters with push := g.counters.push + 1 } }
  s.passCmd k

/-- QSEED (R137, R485). -/
def qseedSem (p : Pred) (o : Nat) (d a b c : Opnd) (len : Nat) : Sem := fun s x =>
  let act := x.v.act p
  if !x.v.acts p then .fall s true
  else if 64 ≤ x.v.gang.counters.push then .stall s .counter
  else
    match s.outputOf x.c o with
    | none => .trap s 10 act (BitVec.ofNat 64 o) 0 false
    | some key =>
      directLoad x.v.part.ring true len (x.v.effAddr a 0) 4 act (fun s x bs =>
        let k := leNat bs
        if 2 ^ 20 < k then .trap s 10 act (BitVec.ofNat 64 k) 0 false
        else
          let size := s.sizeOf key
          let off : Int := (x.v.uni b).toNat
          match pushFault x.c act true size [(4 * lowQuad x.v.part.quads, off)] with
          | some (c, lanes, ad, i, z) => .trap s c lanes ad i z
          | none =>
            let s := s.passNow x key ⟨key, size, .seed (spPlace x.c off) k (x.v.uni c)⟩
            s.answer x p d k) s x

/-! QPOP, QDONE, QLEN -/

/-- Whether a part's QPOP waits at its home slice. -/
def State.popWaits (s : State) (pid : Nat) : Bool := s.stage.queues.any fun q => q.pops.any fun w => w.part == pid

/-- Whether requests that a queue can serve stand before a new one (R464). -/
def Queue.behind (q : Queue) : Bool := q.asks != [] || (q.ring != [] && q.pops.any fun w => w.got.isNone)

/-- QPOP (R464, R481, R482): it is served in order of arrival, so it waits while older requests are still to be served. -/
def qpopSem (p : Pred) (wait : Bool) (d a : Opnd) (len : Nat) : Sem := fun s x =>
  let act := x.v.act p
  if !x.v.acts p then .fall s true
  else if s.popWaits x.v.part.id then .stall (((s.inputOf x.c).map fun k => s.due [.qpopWaitServe k]).getD s) .qpop
  else
    let n := (x.v.uni a).toNat
    if n = 0 ∨ 32 < n then .trap s 10 act (BitVec.ofNat 64 n) 0 false
    else if ((s.inputOf x.c).bind s.queue?).any Queue.behind then
      .stall (((s.inputOf x.c).map fun k => s.due [.queueDequeue k, .qpopWaitServe k]).getD s) .counter
    else
      let s := s.releaseHeld fun h => h.who == .gang x.r.cohort x.r.gang
      let got := s.popRecords x.c x.r.gang n
      if wait && got.1 == 0 then
        match s.inputOf x.c with
        | some k =>
          let w : PopWait := ⟨x.r.cohort, x.r.gang, x.v.part.id, n, d, len, p, none⟩
          .stall (s.modQueue k fun (q : Queue) => { q with pops := q.pops ++ [w] }) .qpop
        | none => .stall s .qpop
      else got.2.answer x p d got.1

/-- QDONE (R483). -/
def qdoneSem (p : Pred) : Sem := fun s x =>
  .fall (if x.v.acts p then s.releaseHeld fun h => h.who == .gang x.r.cohort x.r.gang else s) true

/-- QLEN (R484): the core's summary of the stage's input (selector 8) or of an output. -/
def qlenVal (s : State) (c : Cohort) (sel : Nat) : Nat :=
  match if sel = 8 then s.inputOf c else s.outputOf c sel with
  | some k => (s.sum (.core c.core) k).1
  | none => 0

def qlenSem (p : Pred) (sel : Nat) (d : Opnd) : Sem := fun s x =>
  .fall (s.putView x.r (x.v.wrUniform p d (BitVec.ofNat 32 (qlenVal s x.c sel)))) false

/-! QCTL -/

/-- Little-endian fields of a descriptor. -/
def fieldAt (bs : List Byte) (off n : Nat) : Nat := leNat ((bs.drop off).take n)

/-- A queue descriptor (R456, R457): its settings when every field is within its limits. -/
def qdescOf (bs : List Byte) : Option QDesc :=
  let f := fieldAt bs
  let d : QDesc := ⟨f 0 1, f 1 1, f 2 1 % 2 == 1, f 2 1 / 2 % 2 == 1, f 4 2, f 8 4, f 16 8⟩
  if 4 ≤ d.lsize ∧ d.lsize ≤ 8 ∧ 6 ≤ d.lring ∧ d.lring ≤ 20 ∧ f 2 1 < 4 ∧ f 3 1 = 0 ∧ f 6 2 = 0 ∧ 1 ≤ d.ccap ∧ d.ccap ≤ 2 ^ 27 ∧
      f 12 4 = 0 ∧ d.cbase % 65536 = 0 ∧ f 24 8 = 0 ∧ d.cap * d.size ≤ 2 ^ 24 then some d else none

/-- A stage descriptor (R68, R459). -/
def sdescOf (bs : List Byte) : Option StageDesc :=
  let f := fieldAt bs
  let n := f 6 1
  let outs := (List.range 8).map fun i => f (8 + 2 * i) 2
  let d : StageDesc :=
    { input := f 4 2, outs := outs.take n, gangs := f 7 1, weight := f 0x18 2, batch := f 0x1A 2, timer := f 0x1C 4
      units := f 0x20 1, gate := f 0x21 1, shared := f 0x22 2, wb := f 0x24 2, ab := f 0x26 2, code := BitVec.ofNat 64 (f 0x28 8) }
  if d.input ≤ 1023 ∧ n ≤ 8 ∧ d.outs.all (fun o => decide (o ≤ 1023)) ∧ (outs.drop n).all (fun o => o == 0xFFFF) ∧ 1 ≤ d.gangs ∧
      d.gangs ≤ 16 ∧ d.weight ≠ 0 ∧ 1 ≤ d.batch ∧ d.batch ≤ 32 * d.gangs ∧ 1 ≤ d.units ∧ d.units ≤ 48 ∧ d.gate ≤ 100 ∧
      d.wb ≤ 512 ∧ d.ab ≤ 256 ∧ f 0x28 8 % 128 = 0 then some d else none

/-- Graph slots of a partition (R455, R603). -/
def slotOk (part k : Nat) : Bool := if part = 63 then k == 0 else decide (k ≤ 15)

/-- A graph slot's settings; an empty one where there are none. -/
def State.graphOr (s : State) (part slot : Nat) : Graph := (s.graph? part slot).getD ⟨part, slot, [], [], false, 0⟩

def State.setGraph (s : State) (g : Graph) : State :=
  { s with stage := { s.stage with
    graphs := s.stage.graphs.filter (fun h => !(h.part == g.part && h.slot == g.slot)) ++ [g] } }

/-- A HOME's physical core, when it lies in a section of the partition (R149, R456, R552). -/
def State.homeOf (s : State) (part home : Nat) : Option Nat :=
  if part = 63 then (if home < 192 then some home else none)
  else
    match s.coreReal part home, s.partition? part with
    | some c, some p => if p.secs.getLsbD (c / 4) then some c else none
    | _, _ => none

/-- What a QCTL does once its operands are at hand: nothing when it does not act. -/
def qctl (p : Pred) (f : Sem) : Sem := fun s x => if x.v.acts p then f s x else .fall s true

/-- QCTL SETQ (R456, R486). -/
def setqSem (p : Pred) (d a b c : Opnd) : Sem := qctl p fun s x =>
  let va := x.v.base a
  let i := (x.v.uni b).toNat
  let k := (x.v.uni c).toNat
  if 1023 < i || !slotOk x.c.part k || va.toNat % 32 != 0 then s.answer x p d 1
  else if (s.graphOr x.c.part k).bound then s.answer x p d 3
  else
    directLoad .S false 2 va 32 (x.v.act p) (fun s x bs =>
      match qdescOf bs with
      | none => s.answer x p d 1
      | some q =>
        if (s.homeOf x.c.part q.home).isNone then s.answer x p d 5
        else
          let g := s.graphOr x.c.part k
          (s.setGraph { g with queues := assocSet g.queues i q }).answer x p d 0) s x

/-- Whether a descriptor changes only what may change while its stage is bound (R475). -/
def StageDesc.tunes (q t : StageDesc) : Bool :=
  { q with weight := t.weight, batch := t.batch, timer := t.timer, gate := t.gate } == t

/-- QCTL SETS (R459, R475, R486). -/
def setsSem (p : Pred) (d a b c : Opnd) : Sem := qctl p fun s x =>
  let va := x.v.base a
  let i := (x.v.uni b).toNat
  let k := (x.v.uni c).toNat
  if 255 < i || !slotOk x.c.part k || va.toNat % 16 != 0 then s.answer x p d 1
  else
    directLoad .S false 2 va 48 (x.v.act p) (fun s x bs =>
      match sdescOf bs with
      | none => s.answer x p d 1
      | some q =>
        let g := s.graphOr x.c.part k
        match g.bound, assocGet g.stages i with
        | false, _ => (s.setGraph { g with stages := assocSet g.stages i ⟨q, false, none, 0⟩ }).answer x p d 0
        | true, none => s.answer x p d 4
        | true, some t =>
          if !q.tunes t.desc then s.answer x p d 3
          else (s.setGraph { g with stages := assocSet g.stages i { t with desc := q } }).answer x p d 0) s x

/-- Whether a graph's settings meet R460 but for homes and room. -/
def Graph.whole (g : Graph) : Bool :=
  let ins := g.stages.map fun t => t.2.desc.input
  (g.stages.all fun t => (t.2.desc.input :: t.2.desc.outs).all fun i => (assocGet g.queues i).isSome) && decide ins.Nodup &&
    g.queues.any fun q => q.2.entry

/-- Control entries and ring bytes in use at a home slice (R457). -/
def State.sliceUse (s : State) (core : Nat) : Nat × Nat :=
  let qs := s.stage.queues.filter fun q => q.home == core
  (qs.length, (qs.map fun q => q.desc.cap * q.desc.size).sum)

/-- A graph's queues made, empty, with no summary of theirs anywhere (R467, R486); `data` is where its data block stands. -/
def State.bindGraph (s : State) (g : Graph) (homes : List (Nat × QDesc × Nat)) (data : DWord) : State :=
  let s := s.setGraph { g with bound := true, data := data }
  { s with stage := { s.stage with
    sums := s.stage.sums.filter fun x => !(x.key.part == g.part && x.key.slot == g.slot)
    queues := s.stage.queues ++ homes.map fun h => Queue.fresh ⟨g.part, g.slot, h.1⟩ h.2.1 h.2.2 } }

/-- The queues with their homes; none where a home is outside the partition. -/
def State.homesOf (s : State) (part : Nat) : List (Nat × QDesc) → Option (List (Nat × QDesc × Nat))
  | [] => some []
  | q :: t =>
    match s.homeOf part q.2.home, s.homesOf part t with
    | some c, some l => some ((q.1, q.2, c) :: l)
    | _, _ => none

/-- Whether every home slice has the entries and ring storage that some queues need (R457). -/
def State.slicesFit (s : State) (homes : List (Nat × QDesc × Nat)) : Bool :=
  homes.all fun h =>
    let mine := homes.filter fun k => k.2.2 == h.2.2
    let u := s.sliceUse h.2.2
    decide (u.1 + mine.length ≤ 256) && decide (u.2 + (mine.map fun k => k.2.1.cap * k.2.1.size).sum ≤ 2 ^ 24)

/-- QCTL BIND (R460, R486). DESIGN CHOICE: a graph with a queue or stage not set, two consumers of one queue or no ENTRY gives status
1 (log 128). The spec does not say where the address of R73's data block comes from: a free value (log 34). -/
def bindSem (p : Pred) (d c : Opnd) : Sem := qctl p fun s x =>
  let k := (x.v.uni c).toNat
  if !slotOk x.c.part k then s.answer x p d 1
  else
    let g := s.graphOr x.c.part k
    if g.bound then s.answer x p d 3
    else if !g.whole then s.answer x p d 1
    else
      match s.homesOf x.c.part g.queues with
      | none => s.answer x p d 5
      | some hs =>
        if !s.slicesFit hs then s.answer x p d 2
        else
          let r := s.takeFree
          (r.2.bindGraph g hs (BitVec.ofNat 64 r.1)).answer x p d 0

/-- A graph's queues, records and summaries discarded, and its slot cleared (R486). -/
def State.dropGraph (s : State) (part slot : Nat) : State :=
  let mine := fun (k : QKey) => k.part == part && k.slot == slot
  ({ s with stage := { s.stage with
    graphs := s.stage.graphs.filter fun g => !(g.part == part && g.slot == slot)
    queues := s.stage.queues.filter fun q => !mine q.key
    sums := s.stage.sums.filter fun x => !mine x.key
    launches := s.stage.launches.filter fun l => !mine l.key } } : State).wakeHost

/-- Whether a graph is in use (R486): a resident or halted cohort of it, or a push to one of its queues. -/
def State.graphBusy (s : State) (part slot : Nat) : Bool :=
  (s.cohorts.any fun c => !c.ended && c.part == part && c.gslot == slot) ||
    s.stage.pushes.any fun o => o.cmd.key.part == part && o.cmd.key.slot == slot

/-- QCTL UNBIND (R486). -/
def unbindSem (p : Pred) (d c : Opnd) : Sem := qctl p fun s x =>
  let k := (x.v.uni c).toNat
  if !slotOk x.c.part k then s.answer x p d 1
  else if !(s.graphOr x.c.part k).bound then s.answer x p d 4
  else if s.graphBusy x.c.part k then s.answer x p d 3
  else (s.dropGraph x.c.part k).answer x p d 0

/-- The status block (R487). -/
def State.statBlock (s : State) (q : Queue) : List Byte :=
  let aged := match s.consumer q.key with | some t => q.aged s.cycle t.desc.timer | none => false
  natLe 8 q.backlog ++ natLe 8 q.coach.length ++ natLe 4 q.ring.length ++ natLe 4 q.flight.length ++ natLe 4 q.drop.toNat ++
    natLe 4 (aged.toNat + 2 * (decide (0 < q.transit)).toNat)

/-- QCTL STAT (R486, R487). DESIGN CHOICE: a queue that the slot's graph does not have gives status 4, a status block that is not
32-byte aligned status 1 (log 128). -/
def statSem (p : Pred) (d a b c : Opnd) : Sem := qctl p fun s x =>
  let va := x.v.base a
  let i := (x.v.uni b).toNat
  let k := (x.v.uni c).toNat
  if 1023 < i || !slotOk x.c.part k || va.toNat % 32 != 0 then s.answer x p d 1
  else
    match s.queue? ⟨x.c.part, k, i⟩ with
    | none => s.answer x p d 4
    | some q => directStore .S 2 va (s.statBlock q) (x.v.act p) (fun s x => s.answer x p d 0) s x

/-- QCTL STOP and START (R486). -/
def stopSem (stop : Bool) (p : Pred) (d b c : Opnd) : Sem := qctl p fun s x =>
  let i := (x.v.uni b).toNat
  let k := (x.v.uni c).toNat
  if 255 < i || !slotOk x.c.part k then s.answer x p d 1
  else
    let g := s.graphOr x.c.part k
    match g.bound, assocGet g.stages i with
    | true, some t => (s.setGraph { g with stages := assocSet g.stages i { t with stopped := stop } }).answer x p d 0
    | _, _ => s.answer x p d 4

/-- QCTL CLEAR (R486). -/
def clearSem (p : Pred) (d c : Opnd) : Sem := qctl p fun s x =>
  let k := (x.v.uni c).toNat
  if !slotOk x.c.part k then s.answer x p d 1
  else if (s.graphOr x.c.part k).bound then s.answer x p d 4
  else (s.dropGraph x.c.part k).answer x p d 0

end Sys2Proof.Machine
end

