-- ==== Sys2Proof/Machine/TierOps.lean ====
section
/-!
DEFINITION. The tier engine: leaves, frame pools, page moves, logs, declared pages and jobs (R91, R539 to R545, R553 to R560,
R572, R576 to R581).
-/
namespace Sys2Proof.Machine

/-! Addresses -/

/-- Whose translation a part's operand addresses take (R576). -/
def Ctx.whose (x : Ctx) : Whose := ⟨x.c.core, x.c.part, x.c.gslot, x.v.part.ring⟩

/-- What an address of a job comes to: storage, a page that is being moved, or nothing here. -/
inductive Reach where
  | at_ (a : Nat) | wait | fail
  deriving DecidableEq, Repr

/-- An address of a job translated as its issuer's loads are (R576): through a section on which its partition is active, or by the
tables alone (R15). -/
def State.reach (s : State) (w : Whose) (va : DWord) : Reach × State :=
  if !canonical va && (w.ring == .U || w.ring == .S) then (.fail, s)
  else
    let r := match s.jobCore w with
      | some core => s.translate core w.part w.gslot w.ring .load false va
      | none => s.translateAlone w.part w.gslot w.ring .load va
    match r.1 with
    | .wait => (.wait, r.2)
    | .fault _ => (.fail, r.2)
    | .ok x => if x.far then (.fail, r.2) else (.at_ x.addr, r.2)

/-! Leaves -/

/-- The final-stage leaf of an address in a graph slot's space, with the address that it translates: the address itself, or the
guest-physical one (R539 to R543); none where the walk fails. -/
def State.leafAddr (s : State) (p : Partition) (gslot va : Nat) : Option (Leaf × Nat) :=
  match (s.walk1 48 p .load (p.root gslot) va).1 with
  | .ok l =>
    if p.s2 = 0 then some (l, va)
    else if !pteBit l.e 56 || l.e / 2 ^ 58 != 0 || l.io then none
    else match (s.walk2 48 p .load (l.phys va)).1 with | .ok m => some (m, l.phys va) | _ => none
  | _ => none

/-- The leaf alone. -/
def State.leafAt (s : State) (p : Partition) (gslot va : Nat) : Option Leaf := (s.leafAddr p gslot va).map fun x => x.1

/-- The final-stage leaf that a log entry names (R554). -/
def State.leafOf (s : State) (p : Partition) (e : DWord) : Option Leaf :=
  let asid := e.toNat / 2 ^ 48
  let va := e.toNat / 128 % 2 ^ 41 * 65536
  if asid = 0xFFFF ∧ p.s2 ≠ 0 then
    match (s.walk2 48 p .load va).1 with | .ok m => some m | _ => none
  else ((List.range 16).find? fun g => p.asid g == asid).bind fun g => s.leafAt p g va

/-- Whether a leaf's page counts as resident in tier 0 (R545). -/
def State.resident0 (s : State) (l : Leaf) : Bool := !l.io && l.tier == 0 && pteBit l.e 56 && !s.moving l.addr

/-- Under whose key a partition's final-stage leaves stand (R546, log 66). -/
def State.leafOwn (s : State) (part : Nat) : Nat := tableOwn part ((s.partition? part).any fun p => p.s2 != 0)

/-- A leaf's word written by the tier engine. DEDUCED: as with the walker's setting of ACC and DRT (R275), the line keeps its
sideband, since what the engine does is no access (R81, R91; log 111). -/
def State.setLeaf (s : State) (part leaf e : Nat) : State :=
  match s.physStore leaf with
  | some (a, false) => s.engWrite (s.leafOwn part) a (natLe 8 e) none
  | _ => s

/-- The word of a leaf as it stands. -/
def State.leafWord (s : State) (part leaf : Nat) : Nat := s.entryAt (s.leafOwn part) leaf

/-- A page's TLB entries removed throughout its partition (R555, R557). -/
def State.dropPage (s : State) (part leaf : Nat) : State :=
  { s with tlb := s.tlb.filter fun e => !(e.part == part && (e.leaf == leaf || e.leaf2 == some leaf)) }

/-! Frame pools -/

/-- A frame pool (R556): where its descriptor lies in its partition's space, FREE, CAP, HEAD, TAIL. -/
structure FramePool where
  at_ : Nat
  free : Nat
  cap : Nat
  head : Nat
  tail : Nat
  deriving DecidableEq, Repr

/-- A partition's pool of a tier; where its descriptor does not translate there is none, and a page under a tier move makes
it wait (R91). -/
def State.framePool (s : State) (p : Partition) (up : Bool) : XRes FramePool × State :=
  let g := (if up then p.pool0 else p.pool1).toNat
  match s.engReach p.num .store g with
  | .fault f => (.fault f, s)
  | .wait => (.wait, s)
  | .ok a =>
    let r := s.engRead p.num a 24
    let f := fieldAt r.1
    (.ok ⟨g, f 0 8, f 8 4, f 16 4, f 20 4⟩, r.2)

/-- Frames that a pool lists. -/
def FramePool.count (q : FramePool) : Nat := (q.tail + 2 ^ 32 - q.head) % 2 ^ 32

/-- A four-byte write into a partition's space. -/
def State.poolPut (s : State) (p : Partition) (a n : Nat) : State := s.engPut p.num p.num a (natLe 4 n) (some Sides.untyped) false false

/-- A frame popped; none from an empty pool, nor where the list does not translate. -/
def State.popFrame (s : State) (p : Partition) (q : FramePool) : XRes (Option Nat) × State :=
  if q.count = 0 then (.ok none, s)
  else
    match s.engReach p.num .store (q.free + 4 * (q.head % q.cap)) with
    | .fault _ => (.ok none, s)
    | .wait => (.wait, s)
    | .ok a =>
      let r := s.engRead p.num a 4
      (.ok (some (leNat r.1)), r.2.poolPut p (q.at_ + 16) (q.head + 1))

/-- A frame pushed: the list first, TAIL in a later access; nothing where the list does not translate. -/
def State.pushFrame (s : State) (p : Partition) (q : FramePool) (frame : Nat) : State :=
  let a := q.free + 4 * (q.tail % q.cap)
  match s.engReach p.num .store a with
  | .fault _ => s
  | _ => (s.poolPut p a frame).poolPut p (q.at_ + 20) (q.tail + 1)

/-! Jobs -/

def State.modJob (s : State) (id : Nat) (f : Job → Job) : State :=
  { s with tier := { s.tier with jobs := s.tier.jobs.map fun j => if j.id = id then f j else j } }

/-- The oldest job of a partition (R559). -/
def State.headJob (s : State) (owner : Nat) : Option Job := s.tier.jobs.find? fun j => j.owner == owner

/-- A job is suspended while its partition is not active, but for the halts that it started (R572). -/
def State.suspended (s : State) (j : Job) : Bool :=
  (match j.kind with | .halt _ => false | _ => true) && (s.partition? j.owner).any fun p => !p.active || p.halting

/-- What a partition's oldest job does next is due. -/
def State.kick (s : State) (owner : Nat) : State :=
  match s.headJob owner with
  | none => s
  | some j =>
    if s.suspended j || j.moving then s
    else if j.finished then s.due [.tierJobComplete owner]
    else
      match j.kind with
      | .swap _ => s.due [.tierPageMove owner]
      | .close _ => s.due [.logClose owner]
      | .halt _ => s.due [.haltComplete j.target]
      | _ => s.due [.tierJobComplete owner]

/-- Some partitions' oldest jobs go on, those that come after the partition of the last move first (R559). -/
def State.kickAll (s : State) : State :=
  let l := (List.range 64).filter fun n => s.tier.jobs.any fun j => j.owner == n
  ((l.filter fun n => decide (s.tier.lastOwner < n)) ++ l.filter fun n => decide (n ≤ s.tier.lastOwner)).foldl State.kick s

/-- A completion or slice word (R562, R577). -/
def jobWord (stop : Bool) (result count : Nat) : Nat := 2 ^ 31 + stop.toNat * 2 ^ 30 + result * 2 ^ 27 + min count (2 ^ 27 - 1)

/-- A job's completion word written (R577); one that does not translate is dropped. None while its page is under a move (R558). -/
def State.writeWord (s : State) (j : Job) : Option State :=
  let stop := match j.kind with | .halt b => b && j.result != 5 | _ => false
  let r := s.reach j.whose j.word
  match r.1 with
  | .at_ a => some (r.2.engWrite (ownAt j.whose.ring j.whose.part) a (natLe 4 (jobWord stop j.result j.count)) (some Sides.untyped))
  | .fail => some r.2
  | .wait => none

/-- A job ends with a result. -/
def State.endJob (s : State) (j : Job) (result : Nat) : State :=
  (s.modJob j.id fun j => { j with finished := true, result := result }).due [.tierJobComplete j.owner]

/-- The pin count of a page (R579). -/
def State.pinned (s : State) (part leaf : Nat) : Nat := ((s.tier.pins.find? fun q => q.part == part && q.leaf == leaf).map (·.count)).getD 0

/-! Page moves -/

/-- Move(leaf, s, t) as far as it goes at once (R557): skipped, stopped on a full pool, waiting for a page of a pool (R91),
or begun. -/
inductive Begin where
  | skip | full | wait | begun (mv : Nat)
  deriving DecidableEq, Repr

def State.beginMove (s : State) (j : Job) (p : Partition) (up : Bool) (l : Leaf) : Begin × State :=
  if l.level ≠ 3 || l.io || l.tier != up.toNat || !pteBit l.e 56 || s.moving l.addr
      || (!up && s.pinned p.num l.addr != 0) then (.skip, s)
  else
    let a := s.framePool p (!up)
    let b := a.2.framePool p up
    match a.1, b.1 with
    | .wait, _ => (.wait, b.2)
    | _, .wait => (.wait, b.2)
    | .ok src, .ok dst =>
      if src.count = src.cap then (.full, b.2)
      else
        match b.2.popFrame p dst, b.2.physStore (pteAddr l.e) with
        | (.wait, s), _ => (.wait, s)
        | (.ok (some f), s), some (old, false) =>
          (match s.physStore (f * 65536) with
          | some (new, false) =>
            let m : Move := ⟨s.nextId, j.id, p.num, l.addr, up, old, new, pteAddr l.e / 65536, f, false⟩
            let s := { s with nextId := s.nextId + 1, tier := { s.tier with moves := s.tier.moves ++ [m], lastOwner := j.owner } }
            let s := s.setLeaf p.num l.addr (s.leafWord p.num l.addr / 2 ^ 57 * 2 ^ 57 + s.leafWord p.num l.addr % 2 ^ 56)
            let s := s.dropPage p.num l.addr
            (.begun m.id, s.retryMonitors fun k => decide (old ≤ 64 * k) && decide (64 * k < old + 65536))
          | _ => (.skip, s))
        | (_, s), _ => (.skip, s)
    | .fault _, _ => (.full, b.2)
    | _, .fault _ => (.skip, b.2)

/-- TIER_PAGE_MOVE (R557, R559, R578): a partition's job takes its next entry. -/
def State.pageMove (s : State) (owner : Nat) : State :=
  match s.headJob owner with
  | none => s
  | some j =>
    match j.kind with
    | .swap up =>
      if j.finished || j.moving || s.suspended j || decide (16 ≤ s.tier.moves.length) then s
      else if j.len ≤ j.pos then s.endJob j j.short.toNat
      else
        let r := s.reach j.whose (j.list + BitVec.ofNat 64 (8 * j.pos))
        match r.1 with
        | .wait => r.2
        | .fail => r.2.endJob j 3
        | .at_ a =>
          let b := r.2.engRead (ownAt j.whose.ring j.whose.part) a 8
          let e : DWord := BitVec.ofNat 64 (leNat b.1)
          let s := b.2.modJob j.id fun j => { j with pos := j.pos + 1 }
          let skip := fun (s : State) => (s.modJob j.id fun j => { j with short := true }).due [.tierPageMove owner]
          match s.partition? j.target with
          | none => skip s
          | some p =>
            match if e.toNat / 32 % 4 = 0 then s.leafOf p e else none with
            | none => skip s
            | some l =>
              match s.beginMove j p up l with
              | (.skip, s) => skip s
              | (.full, s) => s.endJob j 2
              | (.wait, s) => s.modJob j.id fun j => { j with pos := j.pos - 1 }
              | (.begun m, s) => (s.modJob j.id fun j => { j with moving := true }).due [.tierMoveComplete m]
    | _ => s

/-- Whether a copy still reads before it writes anything (R85): what it has read is read, and where it writes is translated
again after a move (R384). -/
def CopyOp.gathers (o : CopyOp) : Bool := o.whole && decide (o.pos < o.lastRead)

/-- Whether an access that used a page's old translation is still under way: a request, or a chunk that is to be written. -/
def State.pageBusy (s : State) (a : Nat) : Bool :=
  let inside := fun (b : Nat) => decide (a ≤ b) && decide (b < a + 65536)
  (s.reqs.any fun q => q.peer.isNone && !q.io && q.ans.isNone && inside q.addr) ||
    s.copy.ops.any fun o => !o.gathers && o.flights.any fun f => f.dstPeer.isNone && inside f.dst

/-- One line of a page copied (R557): values as the memory order has them, under the partition's key, with sideband and
poison. DEDUCED: the old frame's lines leave their home slices here, which forget the lanes' accesses to them (R117, log 83). -/
def State.moveLine (s : State) (m : Move) (k : Nat) : State :=
  let a := m.old + 64 * k
  let b := m.new + 64 * k
  let r := s.engRead m.part a 64
  let lose := (r.2.stores.filter fun e => !e.committed && e.line == a / 64).map fun e => e.part
  let s := lose.foldl (fun (t : State) pid => match t.partNo? pid with | some x => t.rollback x.1 false | none => t) r.2
  let bs := s.bytesAs m.part a 64
  let s := s.engWrite m.part b bs (some (s.sideAt (a / 64)))
  let s := if s.poison.contains (a / 64) then { s with poison := insertNat (b / 64) s.poison } else s
  let s := { s with lastLane := s.lastLane.filter fun x => x.1 != a / 64 }
  if s.hostHeld.contains (a / 64) then
    { s with hostHeld := s.hostHeld.filter (fun l => l != a / 64), out := .backInvalidate (a / 64) :: s.out }
  else s

/-- A page's lines copied, and its leaf made to name the new frame (R557). -/
def State.movePage (s : State) (m : Move) : State :=
  let s := (List.range 1024).foldl (fun t k => t.moveLine m k) s
  let e := s.leafWord m.part m.leaf
  let keep := e - e / 256 % 2 ^ 44 * 256 - e / 2 ^ 58 % 4 * 2 ^ 58 - e / 2 ^ 56 % 2 * 2 ^ 56
  s.setLeaf m.part m.leaf (keep + m.newFrame * 65536 + (!m.up).toNat * 2 ^ 58 + 2 ^ 56)

/-- Everything that waits for a page goes on (R91, R305, R384, R558); the host's requests, in their order, before any later
one (R76, R591). -/
def State.wakePage (s : State) : State :=
  let s := s.flushEng
  let cores := (s.copy.ops.map fun o => o.cmd.core).dedup
  let lines := s.stage.queues.filter fun q => q.line != [] || s.fabric.mirrors.any fun m => m.key == q.key && m.held != []
  (s.wakeHost.retryIngress).due (lines.map (fun q => .enqueueRoomResume q.key) ++ cores.map .copyChunkIssue)

/-- A move is over: its job has moved one more page; the move slot goes to the next partition in turn (R557, R559). -/
def State.jobMoved (s : State) (m : Move) : State :=
  (s.modJob m.job fun j => { j with moving := false, count := j.count + 1 }).kickAll

def State.moveEnds (s : State) (m : Move) : State :=
  { s with tier := { s.tier with moves := s.tier.moves.filter fun x => x.id != m.id } }

/-- The page stands in its new frame (R557): what copies that still read have translated of it is translated again (R384). -/
def State.moved (s : State) (m : Move) : State :=
  let go := fun (f : Flight) => if f.dstPeer.isNone && decide (m.old ≤ f.dst) && decide (f.dst < m.old + 65536) then
    { f with dst := m.new + (f.dst - m.old) } else f
  { s with
    tier := { s.tier with moves := s.tier.moves.map fun x => if x.id = m.id then { x with done := true } else x }
    copy := { s.copy with ops := s.copy.ops.map fun (o : CopyOp) => { o with flights := o.flights.map go } } }

/-- A frame goes back to its tier's pool (R553, R557); none while a page of the pool is under a tier move (R91). -/
def State.freeFrame (s : State) (p : Partition) (up : Bool) (frame : Nat) : Option State :=
  let q := s.framePool p up
  match q.1 with
  | .ok k => some (q.2.pushFrame p k frame)
  | .fault _ => some q.2
  | .wait => none

/-- The last of a move (R557): its old frame goes to its pool. -/
def State.pushOld (s : State) (m : Move) : State :=
  match s.partition? m.part with
  | none => (s.moveEnds m).jobMoved m
  | some p => (s.freeFrame p (!m.up) m.oldFrame).elim s fun t => (t.moveEnds m).jobMoved m

/-- TIER_MOVE_COMPLETE (R557). -/
def State.moveDone (s : State) (mv : Nat) : State :=
  match s.tier.moves.find? fun m => m.id == mv with
  | none => s
  | some m =>
    if m.done then s.pushOld m
    else if s.pageBusy m.old then s
    else
      match s.partition? m.part with
      | none => (s.moveEnds m).wakePage.jobMoved m
      | some _ => ((s.movePage m).moved m).wakePage.pushOld m

/-! Logs -/

/-- The accesses under way to the page of a leaf, by number (R370, R555): stores, requests and copies, here, at a peer or in
I/O space. -/
def State.pageWay (s : State) (l : Leaf) : List Nat :=
  let a := pteAddr l.e
  let inside := fun (b : Nat) => decide (a ≤ b) && decide (b < a + 2 ^ lvShift l.level)
  let peer := if !l.io && l.tier == 3 then some l.peer else none
  let near := peer.isNone && !l.io
  ((s.stores.filter fun e => near && inside (64 * e.line)).map fun e => e.id) ++
    ((s.reqs.filter fun q => q.peer == peer && q.io == l.io && q.ans.isNone && inside q.addr).map fun q => q.id) ++
    (s.copy.ops.filter fun o => o.flights.any fun f =>
      (!l.io && f.dstPeer == peer && inside f.dst) || near && f.reads.any fun r => r.line.any fun l => inside (64 * l)).map fun o => o.id

/-- A bit of the leaf that a log entry names cleared, and its page's translations removed (R555): the accesses that may have used them,
which the close waits for. -/
def State.closeEntry (s : State) (p : Partition) (dirty : Bool) (e : DWord) : List Nat × State :=
  match s.leafOf p e with
  | none => ([], s)
  | some l =>
    let way := s.pageWay l
    let bit := if dirty then 55 else 54
    let w := s.leafWord p.num l.addr
    (way, (if pteBit w bit then s.setLeaf p.num l.addr (w - 2 ^ bit) else s).dropPage p.num l.addr)

/-- A log switched to its other half (R555): base and entries of the half closed. -/
def State.switchLog (s : State) (p : Partition) (dirty : Bool) : Nat × Nat × State :=
  let g := if dirty then p.dl else p.ws
  let new := { g with n := 0, half := !g.half, ovf := false }
  (g.base.toNat + 8 * (g.cap.toNat * g.half.toNat), g.n,
    s.modPartition p.num fun p => if dirty then { p with dl := new } else { p with ws := new })

/-- One entry of a closed half read and handled, with the accesses to wait for; where its place does not translate it fails,
and a page under a tier move makes it wait (R91). -/
def State.closeAt (s : State) (part : Nat) (dirty : Bool) (a : Nat) : XRes (List Nat × State) :=
  match s.partition? part with
  | none => .fault ⟨10, false⟩
  | some p =>
    match s.engReach part .load a with
    | .fault f => .fault f
    | .wait => .wait
    | .ok b =>
      let r := s.engRead part b 8
      .ok (r.2.closeEntry p dirty (BitVec.ofNat 64 (leNat r.1)))

/-- Whether an access of some numbers is still under way. -/
def State.anyWay (s : State) (l : List Nat) : Bool :=
  l.any fun i => (s.stores.any fun e => e.id == i) || (s.reqs.any fun q => q.id == i && q.ans.isNone)
    || s.copy.ops.any fun o => o.id == i && !o.flights.isEmpty

/-- LOG_CLOSE (R555, R559, R581): the half is switched, then its entries follow one by one, each once the accesses that used the
translations of the one before have been performed. -/
def State.logStep (s : State) (owner : Nat) : State :=
  match s.headJob owner with
  | none => s
  | some j =>
    match j.kind with
    | .close dirty =>
      if j.finished || s.suspended j || s.anyWay j.hold then s
      else
        match s.partition? j.target with
        | none => s.endJob j 3
        | some p =>
          if !j.begun then
            let (base, n, s) := s.switchLog p dirty
            (s.modJob j.id fun j => { j with begun := true, list := BitVec.ofNat 64 base, len := n }).due [.logClose owner]
          else if j.len ≤ j.pos then s.endJob j 0
          else
            match s.closeAt j.target dirty (j.list.toNat + 8 * j.pos) with
            | .fault _ => s.endJob j 3
            | .wait => s
            | .ok (way, s) => (s.modJob j.id fun j => { j with pos := j.pos + 1, count := j.count + 1, hold := way }).due [.logClose owner]
    | _ => s

/-- A whole close at once (R571). -/
def State.closeAll (s : State) (part : Nat) : State :=
  match s.partition? part with
  | none => s
  | some p =>
    let (base, n, s) := s.switchLog p true
    (List.range n).foldl (fun t k => match t.closeAt part true (base + 8 * k) with | .ok r => r.2 | _ => t) s

/-- Whether a page of the half of the dirty log that a close would read is under a tier move, so that it would wait (R91). -/
def State.closeWaits (s : State) (part : Nat) : Bool :=
  match s.partition? part with
  | none => false
  | some p => (List.range p.dl.n).any fun k => s.engReach part .load (p.dl.base.toNat + 8 * (p.dl.cap.toNat * p.dl.half.toNat + k)) == .wait

/-! Declared pages -/

/-- The resident ones of some declared pages (R560). -/
def State.countPages (s : State) (p : Partition) (l : List DWord) : Nat :=
  (l.filter fun e => match s.leafOf p e with | some x => s.resident0 x | none => false).length

/-- Every stage of a partition counted again (R560). -/
def State.recount (s : State) (part : Nat) : State :=
  match s.partition? part with
  | none => s
  | some p =>
    let upd := fun (t : Nat × StageSet) =>
      (t.1, match t.2.listed with | some l => { t.2 with resident := s.countPages p l } | none => t.2)
    { s with stage := { s.stage with graphs := s.stage.graphs.map fun g =>
      if g.part = part then { g with stages := g.stages.map upd } else g } }

/-- A declared list read (R560): its entries; a page of it does not translate, or is under a move (R558). -/
inductive Listed where
  | read (l : List DWord) | fail | wait
  deriving DecidableEq, Repr

def State.readList (j : Job) : (fuel : Nat) → List DWord → State → Listed × State
  | 0, acc, s => (.read acc, s)
  | n + 1, acc, s =>
    let r := s.reach j.whose (j.list + BitVec.ofNat 64 (8 * (j.len - (n + 1))))
    match r.1 with
    | .at_ a =>
      let b := r.2.engRead (ownAt j.whose.ring j.whose.part) a 8
      State.readList j n (acc ++ [BitVec.ofNat 64 (leNat b.1)]) b.2
    | .fail => (.fail, r.2)
    | .wait => (.wait, r.2)

/-- A stage's declared pages set (R581). -/
def State.setListed (s : State) (j : Job) (l : Option (List DWord)) : State :=
  let n := match s.partition? j.target, l with | some p, some l => s.countPages p l | _, _ => 0
  s.modGraph j.target j.slot fun g => { g with
    stages := g.stages.map fun t => if t.1 = j.stage then (t.1, { t.2 with listed := l, resident := n }) else t }

/-- What a TWREC .declare or .undeclare does (R560, R581). -/
def State.declareStep (s : State) (j : Job) : State :=
  match j.kind with
  | .declare =>
    let r := State.readList j j.len [] s
    (match r.1 with
    | .fail => r.2.modJob j.id fun j => { j with finished := true, result := 3 }
    | .wait => r.2
    | .read l => (r.2.setListed j (some l)).modJob j.id fun j => { j with finished := true, count := j.len })
  | .undeclare => (s.setListed j none).modJob j.id fun j => { j with finished := true }
  | _ => s

/-- TIER_JOB_COMPLETE (R560, R577): the oldest job's last act. -/
def State.jobDone (s : State) (owner : Nat) : State :=
  match s.headJob owner with
  | none => s
  | some j0 =>
    if s.suspended j0 then s
    else
      let s := if j0.finished then s else s.declareStep j0
      match s.headJob owner with
      | none => s
      | some j =>
        if !j.finished then s
        else
          let s := match j.kind with | .swap _ => if j.count = 0 then s else s.recount j.target | _ => s
          match s.writeWord j with
          | none => s
          | some s => ({ s with tier := { s.tier with jobs := s.tier.jobs.filter fun x => x.id != j.id } } : State).kick owner

end Sys2Proof.Machine
end

