-- ==== Sys2Proof/Machine/Tenancy.lean ====
section
/-!
DEFINITION. Halting, resuming, resetting, creating and destroying partitions, lending sections, and the states of virtual
functions (R331, R547, R552, R561 to R563, R566 to R574, R582, R583, R585 to R588, R595, R596).
-/
namespace Sys2Proof.Machine

/-- The children of a partition (R547). -/
def State.childrenOf (s : State) (part : Nat) : List Nat :=
  (s.parts.filter fun p => p.level == 2 && p.parent == part).map fun p => p.num

/-- A partition with its children. -/
def State.family (s : State) (part : Nat) : List Nat := part :: s.childrenOf part

/-- Launch decisions due on every core. -/
def State.stirCores (s : State) : State := s.due ((List.range 192).map .launchDecision)

/-! Cohorts that halt -/

/-- A halted cohort holds no entry that could fire: its waits are cancelled, its arms go idle (R328, R330, R586). -/
def State.disarmAll (s : State) (co : Nat) : State :=
  (s.freeMonitors co).modCohort co fun d => { d with gangs := d.gangs.map fun (g : Gang) => { g with arm := .idle } }

/-- A halt reaches a cohort (R113, R328, R330, R561, R563): its parts stop, its waits are cancelled, its arms go idle. -/
def State.haltCohort (s : State) (co : Nat) : State :=
  match s.cohort? co with
  | none => s
  | some c =>
    let s := c.gangs.foldl (fun (t : State) g => t.stopGang co g.idx) s
    let s := s.disarmAll co
    let idx := (s.secIndex c.part c.core).map fun k => 4 * k + c.core % 4
    ({ s with nextId := s.nextId + 1 } : State).modCohort co fun d => { d with
      halted := true, idle := false, ready := false, haltNo := if d.halted then d.haltNo else s.nextId
      saveIdx := if d.halted then d.saveIdx else idx }

/-- Nothing of a halted cohort is under way any more (R561). -/
def State.settled (s : State) (c : Cohort) : Bool :=
  c.quiet && !c.inAccess && c.dying.isNone && !(s.stores.any fun e => e.cohort == c.id)

/-- A halted cohort that has settled passes its control state to its gang records and leaves its slots (R561); what its parts
have armed on the way to their run boundaries goes (R586). -/
def State.leaveSlot (s : State) (co : Nat) : State :=
  match s.cohort? co with
  | none => s
  | some c =>
    if !c.halted then s
    else
      let s := if c.slot.isSome then (c.gangs.foldl (fun (t : State) g => t.stopGang co g.idx) s).disarmAll co else s
      match s.cohort? co with
      | none => s
      | some c =>
        if c.slot.isSome && s.settled c then ((s.modCohort co fun c => { c with slot := none }).writeRecords co).due [.launchDecision c.core] else s

/-! Sections that change hands -/

/-- The cohorts of a partition on a section halt and are to be spilled whole (R552). -/
def State.clearSection (s : State) (part sec : Nat) : State :=
  let cs := s.cohorts.filter fun c => c.part == part && c.core / 4 == sec && c.bound && !c.ended
  let s := (cs.filter fun c => !c.halted || c.idle).foldl (fun (t : State) c => t.haltCohort c.id) s
  s.due (cs.map fun c => .borrowerSpill c.id)

/-- The sections of partitions change (R15, R28, R547, R552): what a partition has there on a section that it loses halts at its run
boundaries and is spilled whole, and the section's cores decide again (log 76). -/
def State.regroup (s : State) (f : State → State) : State :=
  let t := f s
  let lost := s.parts.flatMap fun p => ((List.range 48).filter fun k => s.has p.num k && !t.has p.num k).map fun k => (p.num, k)
  let s := lost.foldl (fun (u : State) x => u.clearSection x.1 x.2) s
  (f s.noteSecs).noteSecs.due ((lost.map fun x => x.2).dedup.flatMap fun k => (List.range 4).map fun j => .launchDecision (4 * k + j))

/-! A halt of a partition -/

/-- A halt begins (R561). -/
def State.startHalt (s : State) (part : Nat) (job : Option Nat) (slice : Bool) : State :=
  match s.partition? part with
  | none => s
  | some p =>
    let kids := if p.active then ((s.parts.filter fun q => q.level == 2 && q.parent == part && q.active && !q.halting).map fun q => q.num) else p.kids
    let shut := fun (q : Partition) =>
      if q.num = part then { q with halting := true, kids := kids }
      else if kids.contains q.num && p.active then { q with halting := true }
      else { q with kids := if p.active then q.kids else q.kids.erase part }
    let s := s.noteSecs
    let h : Halt := ⟨part, s.cycle, job, slice, s.nextId, false⟩
    let fam := s.family part
    let s := { s with parts := s.parts.map shut, tier := { s.tier with halts := s.tier.halts ++ [h] } }
    let cs := if p.active then s.cohorts.filter fun c => fam.contains c.part && !c.ended && (!c.halted || c.idle) else []
    (cs.foldl (fun (t : State) c => t.haltCohort c.id) s).due [.haltComplete part]

/-- A cohort that only stands at REGANG or BAR since its partition was resumed (R568). -/
def Cohort.stuck (c : Cohort) : Bool :=
  let ps := (c.gangs.filter fun g => g.live != 0).flatMap fun g => g.parts
  !c.progress && !ps.isEmpty && ps.all fun p => match p.wait with | .regang _ _ => true | .bar _ _ _ => true | _ => false

/-- A cohort is reaped (R568). -/
def State.reap (s : State) (c : Cohort) : State :=
  let s := s.report (.S c.part) ⟨0x0D, s.cidOf c.part, c.core, 0, 0, s.handleOf c.id 0⟩
  s.killCohort c.id false

/-- A slice word written (R562). -/
def State.sliceWord (s : State) (part result count : Nat) : State :=
  match s.partition? part with
  | none => s
  | some p =>
    if p.slw = 0 then s
    else s.engPut p.above p.above p.slw.toNat (natLe 4 (jobWord false result count)) (some Sides.untyped) false false

/-- A halt completes (R561, R562, R568, R571). -/
def State.finishHalt (s : State) (h : Halt) : State :=
  let fam := s.family h.part
  let stuck := s.cohorts.filter fun c => fam.contains c.part && decide (h.mark ≤ c.haltNo) && c.stuck
  let s := stuck.foldl State.reap s
  let n := (s.cohorts.filter fun c => fam.contains c.part && c.halted && decide (h.mark ≤ c.haltNo)).length
  let result := if h.killed then 4 else 0
  let done := fun (q : Partition) => { q with active := false, halting := false, halted := true }
  let upd := fun (q : Partition) =>
    if q.num = h.part then done q
    else if q.parent = h.part ∧ q.level = 2 ∧ (q.active || q.halting) = true then done q else q
  let s := { s with parts := s.parts.map upd, tier := { s.tier with halts := s.tier.halts.filter fun x => x.part != h.part } }
  let s := if h.slice then s.sliceWord h.part result n else s
  let s := match h.job.bind fun i => s.tier.jobs.find? fun j => j.id == i with
    | some j =>
      let s := match j.kind with | .halt true => s.closeAll h.part | _ => s
      (s.modJob j.id fun j => { j with count := n }).endJob j result
    | none => s
  ((s.tier.jobs.map fun j => j.owner).dedup.foldl State.kick s).stirCores

/-- Whether a halt closes the dirty log (R571). -/
def Halt.stops (h : Halt) (s : State) : Bool := (h.job.bind fun i => s.tier.jobs.find? fun j => j.id == i).any fun j => j.kind == .halt true

/-- Whether a partition or a child of it still has a cohort neither halted nor killed, a store or an operation outstanding (R567). -/
def State.outstanding (s : State) (part : Nat) : Bool :=
  let fam := s.family part
  (s.cohorts.any fun c => fam.contains c.part && !(c.halted && s.settled c)) || (s.stores.any fun e => fam.contains e.own) ||
    s.stage.pushes.any fun o => fam.contains o.cmd.key.part

/-- Whether a halt has nothing left to wait for (R561, R571). -/
def State.haltDone (s : State) (h : Halt) : Bool :=
  let fam := s.family h.part
  !(s.stage.launches.any fun l => s.cohorts.any fun c => c.id == l.cohort && fam.contains c.part) && !s.outstanding h.part &&
    (s.cohorts.all fun c => !fam.contains c.part || c.slot.isNone) && !(h.stops s && s.closeWaits h.part) &&
    !(s.tier.halts.any fun x => x.part != h.part && fam.contains x.part)

/-- The halt job on a partition that has come to its turn (R559). -/
def State.nextHalt (s : State) (part : Nat) : Option Job :=
  s.tier.jobs.find? fun (j : Job) => j.target == part && (match j.kind with | .halt _ => true | _ => false) && !j.begun && !j.finished
    && (s.headJob j.owner).any fun k => k.id == j.id

/-- HALT_COMPLETE (R561, R582): a halt job that has come to its turn begins; cohorts that have settled leave their slots; the halt
completes when all have. -/
def State.haltPoll (s : State) (part : Nat) : State :=
  let busy := (s.tier.halts.any fun h => h.part == part) || (s.partition? part).any fun p => p.halting
  let s := match s.nextHalt part with
    | some j =>
      if busy then s else (s.modJob j.id fun j => { j with begun := true }).startHalt part (some j.id) false
    | none => s
  match s.tier.halts.find? fun (h : Halt) => h.part == part with
  | none => s
  | some h =>
    let fam := s.family part
    let s := (s.cohorts.filter fun c => fam.contains c.part).foldl (fun (t : State) c => t.leaveSlot c.id) s
    if s.haltDone h then s.finishHalt h else s

/-- The slice that a partition has (R548, R550): a child's is never longer than its parent's. -/
def State.sliceOf (s : State) (p : Partition) : Nat :=
  match if p.level = 2 then s.partition? p.parent else none with
  | some q => if p.slice ≠ 0 ∧ q.slice ≠ 0 then min p.slice q.slice else p.slice
  | none => p.slice

/-- SLICE_EXPIRY (R561): slices are counted in microseconds from the moment at which the partition became active. -/
def State.sliceEnds (s : State) (part : Nat) : State :=
  match s.partition? part with
  | none => s
  | some p =>
    if p.active && !p.halting && p.slice != 0 && decide (p.began + 2400 * s.sliceOf p ≤ s.cycle) then s.startHalt part none true else s

/-- HALT_DEADLINE_KILL (R567): of the cohorts not yet halted, whose parts have not all come to their run boundaries; one that has
halted and waits for its operations and stores is left to the second deadline (R561, R587). -/
def State.haltKill (s : State) (part : Nat) : State :=
  match s.tier.halts.find? fun h => h.part == part, s.partition? part with
  | some h, some p =>
    if h.start + 2400 * p.deadline.toNat ≤ s.cycle then
      let fam := s.family part
      let late := s.cohorts.filter fun c => fam.contains c.part && !c.ended && c.dying.isNone && !(c.halted && !c.inAccess)
      let kill := fun (t : State) (c : Cohort) =>
        (t.report (.S part) ⟨0x0B, t.cidOf part, c.core, 0, 0, t.handleOf c.id 0⟩).killCohort c.id false
      let s := late.foldl kill s
      let mark := fun (x : Halt) => if x.part = part then { x with killed := x.killed || !late.isEmpty } else x
      ({ s with tier := { s.tier with halts := s.tier.halts.map mark } } : State).due [.haltComplete part]
    else s
  | _, _ => s

/-! Virtual functions -/

/-- A function's TDISP state (R595). -/
def State.tdi (s : State) (vf : Nat) : Tdi := (assocGet s.pkg.vfs vf).getD .unlocked

def State.setTdi (s : State) (vf : Nat) (x : Tdi) : State := { s with pkg := { s.pkg with vfs := assocSet s.pkg.vfs vf x } }

/-- The partition bound to a function (R549). -/
def State.boundTo (s : State) (vf : Nat) : Option Partition := if 95 < vf then none else s.parts.find? fun p => p.vf == vf

/-- Whether the items of R596 are frozen for a function. -/
def State.isFrozen (s : State) (vf : Nat) : Bool := match s.tdi vf with | .unlocked => false | _ => true

/-- A function moves to ERROR, which halts its partition (R596). -/
def State.tdiError (s : State) (vf : Nat) : State :=
  match s.tdi vf with
  | .locked | .run =>
    let s := s.setTdi vf .error
    (match s.boundTo vf with
    | some p => if p.active && !p.halting then s.startHalt p.num none false else s
    | none => s)
  | _ => s

/-! Reset -/

/-- A halt that a reset cuts short writes its word with RESULT 5 (R567, R588). -/
def State.cutHalt (s : State) (part : Nat) : State :=
  match s.tier.halts.find? fun h => h.part == part with
  | none => s
  | some h =>
    let s := { s with tier := { s.tier with halts := s.tier.halts.filter fun x => x.part != part } }
    let s := if h.slice then s.sliceWord part 5 0 else s
    match h.job.bind fun i => s.tier.jobs.find? fun j => j.id == i with
    | some j => s.endJob j 5
    | none => s

/-- A halt's job, whose completion word is due even where its partition is reset (R567, R588). -/
def Job.isHalt (j : Job) : Bool := match j.kind with | .halt _ => true | _ => false

/-- Whether a mirror entry is a partition's. -/
def State.mirrorIs (s : State) (part e : Nat) : Bool := (s.mirror? e).any fun m => m.key.part == part

/-- Whether a step is a packet of a partition on its way (R574): a summary of a queue of its, a request or an answer of its, what
arrives for a mirror entry of its, or a peer's request under a grant of its (log 78). -/
def State.isPacketOf (s : State) (part : Nat) : Instr → Bool
  | .summaryEntryArrive _ k _ _ => k.part == part
  | .lengthReportReceive e _ _ _ => s.mirrorIs part e
  | .batchReceive _ _ e _ _ _ => s.mirrorIs part e
  | .batchAck e _ => s.mirrorIs part e
  | .batchRefusal e _ => s.mirrorIs part e
  | .remoteRequestIngress q => (s.grantFor q (kindWidth q.kind)).any fun g => g.own == part
  | .homeSliceAtomic l => l.all fun i => (s.reqs.find? fun q => q.id == i).any fun q => q.own == part
  | .remoteReply i _ => (s.reqs.find? fun q => q.id == i).any fun q => q.own == part
  | _ => false

/-- What a reset does to one partition whose cohorts are gone (R113, R573, R574): its committed stores drain (log 53), its
requests, and its packets on their way, are dropped. -/
def State.resetOne (s : State) (part : Nat) : State :=
  let s := (s.stores.filter fun e => e.own == part && e.committed).foldl State.drainEntry s
  let s := (List.range 16).foldl (fun (t : State) k => t.dropGraph part k) s
  let wipe := fun (m : Mirror) => if m.key.part = part then { m with batches := [], held := [], complete := [], dropped := [] } else m
  let port := fun (p : Port) => { p with waiting := p.waiting.filter fun w => w.part != part }
  let done := fun (q : Partition) => if q.num = part then { q with active := false, halting := false, halted := true, kids := [], ends := none }
    else { q with kids := q.kids.erase part }
  { s with
    agenda := s.agenda.filter fun i => !s.isPacketOf part i
    reqs := s.reqs.filter fun (q : Request) => q.own != part
    stage := { s.stage with pushes := s.stage.pushes.filter fun o => o.cmd.key.part != part }
    stores := s.stores.filter fun (e : StoreEntry) => e.own != part
    tlb := s.tlb.filter fun (e : TlbEntry) => e.part != part
    walkCache := s.walkCache.filter fun (e : WalkEntry) => e.part != part
    walks := s.walks.filter fun (e : WalkReq) => e.part != part
    parts := s.parts.map done
    fabric := { s.fabric with mirrors := s.fabric.mirrors.map wipe, ports := s.fabric.ports.map port }
    tier := { s.tier with pins := s.tier.pins.filter fun q => q.part != part } }

/-- A partition that has been reset is discarded with its children (R546, R573): what is kept by its number goes with it. -/
def State.discard (s : State) (fam : List Nat) : State := s.regroup fun s =>
  { s with
    parts := s.parts.filter fun (p : Partition) => !fam.contains p.num
    lastLane := s.lastLane.filter fun x => !fam.contains x.2.1
    engWaits := s.engWaits.filter fun w => !fam.contains w.part
    fabric := { s.fabric with
      buckets := s.fabric.buckets.filter fun b => !fam.contains b.part
      rtos := s.fabric.rtos.filter fun r => !fam.contains r.1 }
    tier := { s.tier with
      lends := s.tier.lends.filter fun l => !fam.contains l.lender && !fam.contains l.borrower } }

/-- A reset that has begun goes on (R113, R567, R573): once no cohort of the partition and of its children is left, it takes
effect; what is to be destroyed goes when the completion words of its halts are written. -/
def State.settleReset (s : State) (part : Nat) : State :=
  match (s.partition? part).bind fun p => p.ends with
  | none => s
  | some destroy =>
    let fam := s.family part
    if s.cohorts.any fun c => fam.contains c.part then s
    else
      let words := destroy && s.tier.jobs.any fun j => fam.contains j.owner && j.finished && j.isHalt
      if words then fam.foldl State.kick s
      else
        let s := fam.foldl State.resetOne s
        (if destroy then s.discard fam else s).stirCores

/-- A partition's reset begins with its children's (R113, R573, R596): halts are cut short, tier jobs cancelled, and its
cohorts killed, each at a run boundary of its parts. -/
def State.endPart (s : State) (part : Nat) (destroy : Bool) : State :=
  let fam := s.family part
  let vfs := (fam.filterMap s.partition?).map fun p => p.vf
  let s := fam.foldl State.cutHalt s
  let s := { s with tier := { s.tier with jobs := s.tier.jobs.filter fun j => !fam.contains j.owner || j.finished && j.isHalt } }
  let mark := fun (p : Partition) => if fam.contains p.num then
    { p with active := false, halting := true, halted := false, ends := some (destroy || p.ends == some true) } else p
  let s := { s with parts := s.parts.map mark }
  let s := (s.cohorts.filter fun c => fam.contains c.part).foldl (fun (t : State) c => t.killCohort c.id true) s
  (vfs.foldl State.tdiError (s.settleReset part)).stirCores

/-- A partition is reset with its children (R573, R596). -/
def State.resetPart (s : State) (part : Nat) : State := s.endPart part false

/-- A partition is destroyed with its children (R546, R573). -/
def State.destroyPart (s : State) (part : Nat) : State := s.endPart part true

/-- Resets that waited go on. -/
def State.settleResets (s : State) : State := ((s.parts.filter fun p => p.ends.isSome).map fun p => p.num).foldl State.settleReset s

/-- HALT_DEADLINE_RESET (R567): where something is still outstanding. -/
def State.haltReset (s : State) (part : Nat) : State :=
  match s.tier.halts.find? fun h => h.part == part, s.partition? part with
  | some h, some p =>
    if h.start + 4800 * p.deadline.toNat ≤ s.cycle && s.outstanding part then
      let q : EQ := if p.level = 2 then .S p.parent else .H
      (s.report q ⟨0x0C, s.cidOf part, 0, 0, 0, 0xFFFFFFFF⟩).resetPart part
    else s
  | _, _ => s

/-! Creation -/

/-- A new partition (R547 to R549). -/
def newPartition (num level parent key : Nat) : Partition :=
  { num := num, level := level, parent := parent, vf := 127, asidsel := 0, asids := vof 16 fun _ => 0, roots := vof 16 fun _ => 0
    ws := logZero, dl := logZero, active := false, halting := false, halted := true, deadline := 100, slice := 0, pool0 := 0, pool1 := 0
    uevict := 0, ufill := 0, csel := 0, cctl := 0, lend := 0, secs := 0, pshare := 0, tshare := 0, unit := 0, save := 0, slw := 0
    s2 := 0, toff := 0, ctb := 0, regs := regsZero, cdbg := 0, reserve := 0, kids := [], began := 0, key := key, ends := none }

/-- The lowest free partition number (R547). -/
def State.freePartition (s : State) : Option Nat := (List.range 48).find? fun n => !(s.parts.any fun p => p.num == n)

/-- A partition made (R546, R547): its registers, token buckets and remote timeout hold their reset values (R515). -/
def State.addPartition (s : State) (num level parent : Nat) : State :=
  { s with
    nextId := s.nextId + 1, parts := s.parts ++ [newPartition num level parent s.nextId]
    fabric := { s.fabric with
      buckets := s.fabric.buckets.filter fun b => b.part != num, rtos := s.fabric.rtos.filter fun r => r.1 != num } }

/-- The status of CCTL or HPCTL (R548). -/
def State.setCctl (s : State) (part n : Nat) : State := s.modPartition part fun p => { p with cctl := n }
def State.setHpctl (s : State) (n : Nat) : State := { s with pkg := { s.pkg with hpctl := n } }

/-- CCTL_CREATE (R547): a level-2 partition cannot create. -/
def State.cctlCreate (s : State) (part : Nat) : State :=
  match s.partition? part with
  | none => s
  | some p =>
    if p.level = 2 then s
    else
      match s.freePartition with
      | none => s.setCctl part 2
      | some n => ((s.addPartition n 2 part).modPartition part fun p => { p with csel := n }).setCctl part 0

/-- CCTL_DESTROY and CCTL_RESET (R548, R573): the selected child. -/
def State.cctlOn (s : State) (part : Nat) (f : State → Nat → State) : State :=
  match s.partition? part with
  | none => s
  | some p =>
    if p.level = 2 then s
    else if (s.childrenOf part).contains p.csel then (f s p.csel).setCctl part 0
    else s.setCctl part 3

/-- HPCTL_CREATE (R547). -/
def State.hpctlCreate (s : State) : State :=
  match s.freePartition with
  | none => s.setHpctl 2
  | some n => let s := s.addPartition n 1 63; ({ s with pkg := { s.pkg with hrsvsel := n } } : State).setHpctl 0

/-- HPCTL_DESTROY and HPCTL_RESET (R549, R573): the level-1 partition that HRSVSEL selects. -/
def State.hpctlOn (s : State) (f : State → Nat → State) : State :=
  if (s.partition? s.pkg.hrsvsel).any fun p => p.level == 1 then (f s s.pkg.hrsvsel).setHpctl 0 else s.setHpctl 3

/-! Resuming -/

/-- Whether another partition or the boot context is active on a section of a partition (R583, R603). -/
def State.taken (s : State) (p : Partition) : Bool := (p.held ++ s.borrowed p.num).any fun k => s.usedBy p.num k

/-- A partition that becomes active does so on every section that is its to run on (R561). -/
def State.barKids (s : State) (part : Nat) : State :=
  ((List.range 48).filter fun k => s.rules part k).foldl (fun t k => t.barOn part k) s

/-- One partition becomes active (R560, R566, R568, R583, R589). -/
def State.activate (s : State) (part : Nat) : State :=
  let s := s.modPartition part fun p => { p with active := true, halted := false, halting := false, began := s.cycle, kids := [] }
  let wake := fun (c : Cohort) => if c.part = part then { c with ready := c.ready || c.halted, progress := false } else c
  let s := { s with cohorts := s.cohorts.map wake }
  (((s.barKids part).recount part).kick part).stirCores

/-- RESUMEC (R561, R583): the status and the state. -/
def State.resumePart (s : State) (part : Nat) : Nat × State :=
  match s.partition? part with
  | none => (3, s)
  | some p =>
    let orphan := p.level == 2 && !((s.partition? p.parent).any fun q => q.active && !q.halting)
    if orphan || !p.halted || (s.tier.halts.any fun h => h.part == part) then (3, s)
    else if s.taken p then (4, s)
    else
      let kid := fun (t : State) (k : Nat) =>
        match t.partition? k with
        | some q => if q.halted && !t.taken q then t.activate k else t
        | none => t
      (0, p.kids.foldl kid (s.activate part))

/-! Lending -/

/-- The status of LEND (R548). -/
def State.setLend (s : State) (part n : Nat) : State := s.modPartition part fun p => { p with lend := n }

/-- LEND_SECTION (R552). -/
def State.lendSection (s : State) (part sec borrower : Nat) : State :=
  match s.partition? part with
  | none => s
  | some p =>
    if 47 < sec then s.setLend part 1
    else if !p.secs.getLsbD sec || (s.parts.any fun q => q.level == 2 && q.parent == part && q.secs.getLsbD sec)
        || (s.tier.lends.any fun l => l.lender == part && l.sec == sec) || borrower == part || (s.partition? borrower).isNone then
      s.setLend part 3
    else
      let l : Lend := ⟨part, sec, borrower⟩
      (s.regroup fun s => { s with tier := { s.tier with lends := s.tier.lends ++ [l] } }).setLend part 0

/-- RECLAIM_SECTION (R552): the borrower's cohorts on the section halt at their run boundaries. -/
def State.reclaimSection (s : State) (part sec : Nat) : State :=
  match s.tier.lends.find? fun l => l.lender == part && l.sec == sec with
  | none => s.setLend part (if 47 < sec then 1 else 3)
  | some l => (s.regroup fun s => { s with tier := { s.tier with lends := s.tier.lends.erase l } }).setLend part 0

/-- A halted cohort that stands on a section which is no longer its partition's to launch on (R552, R564). -/
def State.misplaced (s : State) (c : Cohort) : Bool :=
  c.halted && c.bound && c.saveIdx.isSome && (s.partition? c.part).isSome && !s.has c.part (c.core / 4)

/-- A cohort spilled whole (R552, R564): every unit evicted, every buffer spilled; it is ready on any core of its partition. Units
set aside for a claim of its are free again: where it resumes, it claims again. -/
def State.spilledWhole (s : State) (c : Cohort) : State :=
  let count := (s.partition? c.part).elim 0 (·.uevict)
  let unit := fun (t : State) (g : Gang) => match t.cohort? c.id, t.gang? c.id g.idx with
    | some c, some x => t.evictTop c x | _, _ => t
  let s := c.gangs.foldl (fun (t : State) g => g.pool.foldl (fun u _ => unit u g) t) s
  let s := s.modPartition c.part fun p => { p with uevict := count }
  let s := ((s.spillBuf c.id .sp).spillBuf c.id .wb).spillBuf c.id .ab
  let s := { s with claims := s.claims.filter fun k => k.cohort != c.id }
  ((s.modCohort c.id fun c => { c with bound := false, ready := true }).due ([0, 1, 2, 3].map fun k => .claimGrant c.core k)).stirCores

/-- BORROWER_SPILL (R552, R564): once its operations have retired, a cohort that does not belong where it runs is spilled whole. -/
def State.spillWhole (s : State) (co : Nat) : State :=
  let s := s.leaveSlot co
  match s.cohort? co with
  | none => s
  | some c => if !s.misplaced c || !c.givesWay || !s.settled c then s else s.spilledWhole c

end Sys2Proof.Machine
end

