-- ==== Sys2Proof/Machine/HostOps.lean ====
section
/-!
DEFINITION. What the outside does to the package: host accesses, entry queues and sinks, TDISP, attestation, power, freeze, errors
(R90, R371, R373, R438, R591 to R601).
-/
namespace Sys2Proof.Machine

/-! Host accesses -/

/-- Whether a function's accesses are allowed (R595, R597). -/
def State.hostOk (s : State) (vf : Nat) : Bool :=
  s.boot == .running && decide (vf ≤ 95) && (s.tdi vf == .unlocked || s.tdi vf == .run)

/-- An answer to the host; none is poison. -/
def State.toHost (s : State) (vf addr : Nat) (bs : Option (List Byte)) : State := { s with out := .hostData vf addr bs :: s.out }

/-- Whether a host request waits behind an earlier one (R76, R591). -/
def State.hostHolds (s : State) : Bool := !s.hostWaits.isEmpty || s.recordWaits

/-- Bytes of a function's window (R591). DESIGN CHOICE: the largest that the spec allows (log 99). -/
def windowSize : Nat := 384 * 2 ^ 30

/-- Where a guest-physical address of a function's window lies (R591): in local HBM or far memory, with the stage-2 leaf;
nothing outside the window. -/
def State.hostReach (s : State) (p : Partition) (store : Bool) (a : Nat) : Reach × Option Leaf :=
  let here := fun (b : Nat) => match s.physStore b with
    | some (x, false) => if isHost x then Reach.fail else .at_ x
    | _ => .fail
  let k := if store then Kind.store else .load
  if windowSize ≤ a then (.fail, none)
  else if p.s2 = 0 then (if s.underMove a then .wait else here a, none)
  else
    match (s.walk2 48 p k a).1 with
    | .fault _ => (.fail, none)
    | .wait => (.wait, none)
    | .ok l =>
      match s.guestCheck k k l a with
      | .fault _ => (.fail, none)
      | .wait => (.wait, none)
      | .ok b => (here b, some l)

/-- The accessed and dirty bits that a host access sets (R274, R275, R553). -/
def State.hostMarks (s : State) (p : Partition) (store : Bool) (a : Nat) (l : Option Leaf) : State :=
  match l with
  | none => s
  | some l =>
    let log := some (logEntry 0xFFFF (a / 65536) (sizeOf3 l.level))
    let s := s.setPteBit p.num l.addr 54 false log
    if store then s.setPteBit p.num l.addr 55 true log else s

/-- Bytes of a host read, line by line; none where one of them fails or is poisoned. -/
def State.hostBytes (p : Partition) : List (Nat × List Byte) → State → Except Bool (List Byte) × State
  | [], s => (.ok [], s)
  | x :: t, s =>
    let r := s.hostReach p false x.1
    match r.1 with
    | .wait => (.error true, s)
    | .fail => (.error false, s)
    | .at_ a =>
      let b := (s.hostMarks p false x.1 r.2).engRead p.num a x.2.length
      let s := { b.2 with hostHeld := insertNat (a / 64) b.2.hostHeld }
      if s.poison.contains (a / 64) then (.error false, s)
      else
        let q := State.hostBytes p t s
        match q.1 with
        | .ok bs => (.ok (b.1 ++ bs), q.2)
        | .error e => (.error e, q.2)

/-- HOST_MEMORY_READ (R90, R372, R591). -/
def State.hostRead (s : State) (vf addr len : Nat) : State :=
  if !s.hostOk vf then s.toHost vf addr none
  else if s.hostHolds then { s with hostWaits := s.hostWaits ++ [.hostMemoryRead vf addr len] }
  else
    match s.boundTo vf with
    | none => s.toHost vf addr none
    | some p =>
      let r := State.hostBytes p (splitLines addr (List.replicate len 0)) s
      match r.1 with
      | .ok bs => r.2.toHost vf addr (some bs)
      | .error true => { s with hostWaits := s.hostWaits ++ [.hostMemoryRead vf addr len] }
      | .error false => r.2.toHost vf addr none

/-- HOST_MEMORY_WRITE (R76, R81, R90, R591): a piece that fails is dropped. -/
def State.hostWrite (s : State) (vf addr : Nat) (bs : List Byte) : State :=
  if !s.hostOk vf then s
  else
    match s.boundTo vf with
    | none => s
    | some p =>
      let ps := splitLines addr bs
      if s.hostHolds || ps.any fun x => (s.hostReach p true x.1).1 == .wait then
        { s with hostWaits := s.hostWaits ++ [.hostMemoryWrite vf addr bs] }
      else
        ps.foldl (fun (t : State) x =>
          let r := t.hostReach p true x.1
          match r.1 with
          | .at_ a => (t.hostMarks p true x.1 r.2).engWrite p.num a x.2 (some Sides.untyped)
          | _ => t) s

/-- HOST_INVALIDATE (R76, R90, R117): the host has written a line of its own memory, which so leaves its home slice. -/
def State.hostInvalidate (s : State) (line : Nat) (bs : List Byte) : State :=
  if s.hostHolds then { s with hostWaits := s.hostWaits ++ [.hostInvalidate line bs] }
  else if isHost (64 * line) then
    ({ s with lastLane := s.lastLane.filter fun x => x.1 != line } : State).engWrite 63 (64 * line) (bs.take 64) none
  else s

/-! Entry queues and sinks -/

/-- The queue of a byte of register window 2 (R592), and the byte's place in its aperture. -/
def State.aperture (s : State) (vf off : Nat) : Option QKey × Nat :=
  ((s.boundTo vf).map fun p => ⟨p.num, off / 512 / 1024, off / 512 % 1024⟩, off % 512)

/-- HOST_RECORD_WRITE (R462, R494, R593). -/
def State.hostRecord (s : State) (vf off : Nat) (bs : List Byte) : State :=
  if !s.hostOk vf then s
  else if s.hostHolds then { s with hostWaits := s.hostWaits ++ [.hostRecordWrite vf off bs] }
  else
    match s.aperture vf off with
    | (some k, o) =>
      (match s.queue? k with
      | none => s
      | some q =>
        let drop := s.modQueue k fun q => { q with drop := q.drop + 1 }
        if !q.desc.entry || 256 ≤ o then s
        else if o ≠ 0 ∨ bs.length ≠ q.desc.size then drop
        else if q.line ≠ [] || s.coachWaits k 1 then s.modQueue k fun q => { q with line := q.line ++ [.host bs] }
        else (s.enqueue k bs).getD drop)
    | _ => s

/-- The status word of a queue (R592); of one that software has set in a graph that is not bound, what its settings say. -/
def State.queueStatus (s : State) (k : QKey) : Nat :=
  match s.queue? k with
  | none =>
    match (s.graph? k.part k.slot).bind fun g => (assocGet g.queues k.idx).map fun d => (g, d) with
    | some (g, d) => d.entry.toNat * 2 ^ 33 + (g.stages.all fun t => t.2.desc.input != k.idx).toNat * 2 ^ 34
    | none => 0
  | some q => satLen q.backlog + 2 ^ 32 + q.desc.entry.toNat * 2 ^ 33 + (s.consumer k).isNone.toNat * 2 ^ 34

/-- Bytes of an aperture that are no record port (R592): the status word, zeros around it. -/
def statusBytes (w o n : Nat) : List Byte :=
  (List.range n).map fun i => if 256 ≤ o + i ∧ o + i < 264 then (natLe 8 w).getD (o + i - 256) 0 else 0

/-- HOST_SINK_READ (R592, R594): a read of register window 2; a poisoned record is poison for the host too (log 73). -/
def State.hostSink (s : State) (vf off len : Nat) : State :=
  if !s.hostOk vf then s.toHost vf off none
  else if s.hostHolds then { s with hostWaits := s.hostWaits ++ [.hostSinkRead vf off len] }
  else
    let ones := s.toHost vf off (some (List.replicate len 0xFF))
    match s.aperture vf off with
    | (none, o) => if o < 256 then ones else s.toHost vf off (some (statusBytes 0 o len))
    | (some k, o) =>
      if 256 ≤ o then s.toHost vf off (some (statusBytes (s.queueStatus k) o len))
      else
        match s.queue? k with
        | none => ones
        | some q =>
          match q.ring with
          | r :: rest =>
            if o ≠ 0 ∨ len ≠ q.desc.size ∨ (s.consumer k).isSome = true then ones
            else ((s.modQueue k fun q => { q with ring := rest }).stirQueue k).toHost vf off (if r.bad then none else some r.bs)
          | [] => ones

/-! TDISP -/

/-- LOCK_INTERFACE and START_INTERFACE (R595). -/
def State.tdiStep (s : State) (vf : Nat) (old new : Tdi) : State :=
  if vf ≤ 95 ∧ s.boot = .running ∧ s.tdi vf = old then s.setTdi vf new else s

/-- STOP_INTERFACE (R595, R596): the partition is reset. -/
def State.tdiStop (s : State) (vf : Nat) : State :=
  if 95 < vf ∨ s.boot ≠ .running then s
  else
    let s := s.setTdi vf .unlocked
    match s.boundTo vf with
    | some p => s.resetPart p.num
    | none => s

/-- The unread records of the M error queue (R373, R600). -/
def State.monitorRecords (s : State) : List Byte :=
  let r := s.pkg.setM
  (List.range (r.eqtail - r.eqhead).toNat).flatMap fun k =>
    match s.eqAddr .M (r.eqbase.toNat + 32 * ((r.eqhead.toNat + k) % r.eqcap.toNat)) with
    | .ok a => s.bytesAs 63 a 32
    | _ => []

/-- Flash access for firmware, the rollback counter, which only rises, and the reading of the M error queue (R597, R600).
DESIGN CHOICE: the table has no row of their own for them (log 100). -/
def State.management (s : State) (item : Nat) (val : Word) : State :=
  let flash := fun (f : Flash → Flash) => ({ s with pkg := { s.pkg with flash := f s.pkg.flash } } : State)
  let byte := val.setWidth 8
  match item with
  | 0 => flash fun _ => ⟨[], 0, [], []⟩
  | 1 => flash fun f => { f with image := f.image ++ [byte] }
  | 2 => flash fun f => { f with version := val.toNat }
  | 3 => flash fun f => { f with sig := f.sig ++ [byte] }
  | 4 => flash fun f => { f with pub := f.pub ++ [byte] }
  | 5 => { s with pkg := { s.pkg with rollback := max s.pkg.rollback val.toNat } }
  | 6 => { s with out := .management s.pkg.flash.firmware :: s.out }
  | 7 => { s with out := .management s.monitorRecords :: s.out }
  | _ => s

/-- CONFIG_WRITE (R596): of a function; a write that names none is the management port's (R600, log 100). -/
def State.configWrite (s : State) (vf item : Nat) (val : Word) : State :=
  if 95 < vf then s.management item val
  else if s.boot ≠ .running then s
  else if s.isFrozen vf then s.tdiError vf
  else { s with pkg := { s.pkg with cfg := (vf, item, val) :: s.pkg.cfg.filter fun c => !(c.1 == vf && c.2.1 == item) } }

/-! Attestation -/

/-- An SM3 digest (log 9). -/
def digest (bs : List Byte) : List Byte := (List.range 32).map (Config.sm3 bs)

/-- The frozen items of a function's partition (R596). -/
def State.frozenItems (s : State) (vf : Nat) : List Byte :=
  ((s.pkg.cfg.filter fun c => c.1 == vf).flatMap fun c => natLe 4 c.2.1 ++ natLe 4 c.2.2.toNat) ++
    match s.boundTo vf with
    | some p => natLe 8 p.secs.toNat ++ natLe 8 p.s2.toNat ++ natLe 4 p.vf ++ natLe 8 p.ctb.toNat ++ natLe 4 p.unit
    | none => []

/-- A queue's and a stage's settings as bytes. -/
def QDesc.bytes (d : QDesc) : List Byte :=
  natLe 1 d.lsize ++ natLe 1 d.lring ++ natLe 2 (d.entry.toNat + 2 * d.mirror.toNat) ++ natLe 4 d.home ++ natLe 8 d.ccap ++ natLe 8 d.cbase
def StageDesc.bytes (d : StageDesc) : List Byte :=
  natLe 4 d.input ++ natLe 1 d.outs.length ++ natLe 1 d.gangs ++ d.outs.flatMap (natLe 2) ++ natLe 2 d.weight ++ natLe 2 d.batch ++
    natLe 4 d.timer ++ natLe 1 d.units ++ natLe 1 d.gate ++ natLe 2 d.shared ++ natLe 2 d.wb ++ natLe 2 d.ab ++ natLe 8 d.code.toNat

/-- A code line of a graph as it stands in memory; nothing where it does not translate. -/
def State.codeLine (s : State) (p : Partition) (slot va : Nat) : List Byte :=
  match (s.leafAddr p slot va).bind fun x => s.physStore (x.1.phys x.2) with
  | some (a, false) => s.bytesAs p.num a 128
  | _ => []

/-- A graph's descriptors and code lines, whose number no descriptor gives (R598, log 36). -/
def State.graphBytes (s : State) (p : Partition) (g : Graph) : List Byte :=
  (g.queues.flatMap fun q => q.2.bytes) ++ g.stages.flatMap fun t => t.2.desc.bytes ++
    (List.range (Config.free (g.slot + 16 * t.1))).flatMap fun k => s.codeLine p g.slot (t.2.desc.code.toNat + 128 * k)

/-- A digest of each of a partition's bound graphs (R598). -/
def State.graphDigests (s : State) (p : Partition) : List Byte :=
  (s.stage.graphs.filter fun g => g.part == p.num && g.bound).flatMap fun g => digest (s.graphBytes p g)

/-- A TDISP state as a number. -/
def Tdi.code : Tdi → Nat
  | .unlocked => 0 | .locked => 1 | .run => 2 | .error => 3

/-- GET_MEASUREMENTS (R598): the report and its signature. -/
def State.measure (s : State) (vf : Nat) (nonce : List Byte) : State :=
  if 95 < vf ∨ s.boot ≠ .running then s
  else
    let graphs := match s.boundTo vf with | some p => s.graphDigests p | none => []
    let r := nonce.take 32 ++ digest s.pkg.verified.1 ++ natLe 4 s.pkg.verified.2 ++ natLe 4 s.pkg.rollback ++ natLe 2 vf ++
      natLe 1 (s.tdi vf).code ++ digest (s.frozenItems vf) ++ graphs
    { s with out := .report vf (r ++ (List.range 64).map (Config.sm2 (s.pkg.devKey.getD 0) r)) :: s.out }

/-! Power -/

/-- POWER_LIMIT_WRITE (R599). -/
def State.powerWrite (s : State) (watts : Nat) : State :=
  let ok := decide (600 ≤ watts) && decide (watts ≤ 2200)
  { s with pkg := { s.pkg with power := if ok then watts else s.pkg.power, powerOk := ok }, out := .powerStatus ok :: s.out }

/-- The sections on which a partition is active (R15, R547). -/
def State.activeSecs (s : State) (p : Partition) : List Nat := (List.range 48).filter fun k => s.onSec k == some p.num

/-- The power shares of a partition's active children together. -/
def State.kidShares (s : State) (part : Nat) : Nat :=
  ((s.parts.filter fun q => q.level == 2 && q.parent == part && q.active).map fun q => q.pshare).sum

/-- A partition's power share in 1/65,536 W (R549, R550, R599): what a level-1 partition gives to its active children is
theirs, and never more than it has. DESIGN CHOICE: children whose shares come to more than 256 share all of it in proportion
(log 95). -/
def State.powerShare (s : State) (p : Partition) : Nat :=
  let own := fun (q : Partition) => s.pkg.power * 65536 * q.pshare / 256
  let of_ := fun (q k : Partition) => own q * k.pshare / max 256 (s.kidShares q.num)
  if p.level = 2 then (s.partition? p.parent).elim 0 fun q => of_ q p
  else own p - ((s.parts.filter fun q => q.level == 2 && q.parent == p.num && q.active).map (of_ p)).sum

/-- Shares spread over sections: section and grant. -/
def State.powerBase (s : State) : List (Nat × Nat) :=
  s.parts.flatMap fun p =>
    let l := s.activeSecs p
    l.map fun k => (k, s.powerShare p / l.length)

/-- POWER_ARBITER_TICK (R599): what sections left unused goes to throttled ones in proportion to their shares. -/
def State.powerTick (s : State) : State :=
  let t := s.cycle / 2400
  let spare := (s.pkg.grants.map fun g => g.2 - Config.powerUsed g.1 t).sum
  let base := s.powerBase
  let hot := base.filter fun g => Config.throttled g.1 t
  let total := (hot.map fun g => g.2).sum
  let grant := fun (g : Nat × Nat) => if Config.throttled g.1 t ∧ total ≠ 0 then (g.1, g.2 + spare * g.2 / total) else g
  { s with pkg := { s.pkg with grants := base.map grant } }

/-! Freeze -/

/-- SCAN_READOUT (R601): every item as it stands, but for the keys, which no port ever reads and which never leave the package
(R504, R546, R598; log 102). -/
def State.scanOf (s : State) : Scan :=
  { agenda := s.agenda, turn := s.turn, owed := s.owed, boot := s.boot, owners := s.owners.map fun o => (o.1, 0, o.2.2), cycle := s.cycle
    mem := s.mem, sides := s.sides, poison := s.poison, stores := s.stores, cmds := s.cmds, monitors := s.monitors
    cohorts := s.cohorts, claims := s.claims, parts := s.parts.map fun p => { p with key := 0 }, pkg := s.pkg.noKeys, tlb := s.tlb, walkCache := s.walkCache, walks := s.walks
    bufPoison := s.bufPoison, hostHeld := s.hostHeld, waitcs := s.waitcs, lastLane := s.lastLane, hostWaits := s.hostWaits
    engWaits := s.engWaits, spoiled := s.spoiled, reqs := s.reqs, copy := s.copy, matrix := s.matrix, stage := s.stage
    fabric := { s.fabric with ports := s.fabric.ports.map Port.noKeys }, tier := s.tier }

/-! Errors -/

/-- The containment identifier of package-level traffic (R371). -/
def pkgCid : Nat := 63 * 128 + 127

/-- SOFT_ERROR_CORRECTED (R371): one record for every 256. DESIGN CHOICE: it names structure 0 and the package's containment
identifier (log 122). -/
def State.softError (s : State) (sec : Nat) : State :=
  let n := (assocGet s.pkg.softErr sec).getD 0 + 1
  let put := fun (s : State) (n : Nat) => ({ s with pkg := { s.pkg with softErr := assocSet s.pkg.softErr sec n } } : State)
  if n = 256 then (put s 0).report .H ⟨6, pkgCid, 4 * sec, 0, 0, 0xFFFFFFFF⟩ else put s n

/-- The function of a partition (R596). -/
def State.vfError (s : State) (part : Nat) : State :=
  match s.partition? part with
  | some p => s.tdiError p.vf
  | none => s

/-- The matrix operations of a cohort that have ended retire (R137). -/
def State.retireAll (s : State) (co : Nat) : State :=
  (s.cohort? co).elim s fun c => c.gangs.foldl (fun t g => t.retireMatrix co g.idx) s

/-- A cohort killed by an error in what it holds (R371, R438): its WB and AB are scrubbed when the kill takes effect; until
then what an operation that was cut short leaves outstanding holds nothing back. -/
def State.errorKill (s : State) (co structure_ addr : Nat) : State :=
  match s.cohort? co with
  | none => s
  | some c =>
    let s := s.report (.S c.part) ⟨4, s.cidOf c.part, c.core, structure_, addr, s.handleOf co 0⟩
    (((s.modCohort co fun c => { c with tainted := true }).killCohort co false).retireAll co).vfError c.part

/-- A request whose flit an error strikes (R371): the data that it stores or that has come for it is poisoned. -/
def Request.spoil (q : Request) : Request :=
  match q.ans, q.kind with
  | some (.data _ _), _ => { q with ans := some .poison }
  | none, .store bs x _ => { q with kind := .store bs x true }
  | _, _ => q

/-- An error strikes the payload of a flit of a request (R371, R514): an answer that is on its way comes with poisoned data;
one that has yet to be made here will. -/
def State.spoil (s : State) (id : Nat) : State :=
  let waits := fun (q : Request) => q.id == id && q.ans.isNone && q.peer.isNone && !q.io && (match q.kind with | .store _ _ _ => false | _ => true)
  { s with
    agenda := s.agenda.map fun e => match e with
      | .remoteReply i r => if i = id then .remoteReply i .poison else .remoteReply i r
      | e => e
    reqs := s.reqs.map fun q => if q.id = id then q.spoil else q
    spoiled := if s.reqs.any waits then assocSet s.spoiled id none else s.spoiled }

/-- UNCORRECTABLE_ERROR (R371, R372, R373, R438, R596): the record of a line names its home slice's core and whether the line
was struck in that slice or in HBM; that of a flit payload names the core that its data goes to, the link, and its line: at
once where it strikes a request, else when the next data of the part, entry or copy operation goes (log 79). -/
def State.uncorrectable (s : State) : ErrTarget → State
  | .line inSlice a cid =>
    let part := cid.toNat / 128
    let s := match s.physStore a with
      | some (b, _) => { s with poison := insertNat (b / 64) s.poison }
      | none => s
    (s.report (.S part) ⟨1, cid.toNat, s.homeSlice a, inSlice.toNat, a / 64 * 64, 0xFFFFFFFF⟩).vfError part
  | .payload req core cid =>
    let part := cid.toNat / 128
    match s.req? req with
    | some q => ((s.spoil req).report (.S part) ⟨1, cid.toNat, core, 2, q.addr / 64 * 64, 0xFFFFFFFF⟩).vfError part
    | none => ({ s with spoiled := assocSet s.spoiled req (some (core, cid)) } : State).vfError part
  | .cohort co k a => s.errorKill co k a
  | .array core =>
    match s.matrix.ops.find? fun o => o.cores.contains core && o.started && !o.ended with
    | none => s
    | some o =>
      let s := s.errorKill o.cohort 7 0
      match o.cmd.team with
      | some t => s.errorKill t 7 0
      | none => s

/-- The owner of a section (R15). DESIGN CHOICE: with none active and several level-1 partitions that hold it, the one
created first (log 84). -/
def State.ownerOf (s : State) (sec : Nat) : Option Nat :=
  match (s.onSec sec).filter (· != 63) with
  | some p => some p
  | none => (s.parts.find? fun p => p.level == 1 && p.secs.getLsbD sec).map (·.num)

/-- Steps that are packets on their way through routers (R371, log 78): summaries, requests and answers of peers, reports and
batches. -/
def isPacket : Instr → Bool
  | .summaryEntryArrive .. | .remoteRequestIngress _ | .remoteReply .. | .lengthReportReceive .. | .batchReceive .. | .batchAck ..
  | .batchRefusal .. => true
  | _ => false

/-- A packet on its way is dropped (R371). -/
def State.dropPacket (s : State) (packet : Nat) : State :=
  if (s.agenda[packet]?).any isPacket then { s with agenda := s.agenda.eraseIdx packet } else s

/-- CORRUPT_HEADER (R371): the packet is dropped; its section's owner is reset. DESIGN CHOICE: the record carries the
containment identifier of the partition that is reset, or else the package's (log 122). -/
def State.corrupt (s : State) (at_ : RouterHit) : State :=
  let core := at_.core
  let s := s.dropPacket at_.packet
  let own := if s.cohorts.any fun c => c.part == 63 && c.core / 4 == core / 4 then none else s.ownerOf (core / 4)
  let s := s.report .H ⟨5, match own with | some p => s.cidOf p | none => pkgCid, core, 8, 0, 0xFFFFFFFF⟩
  match own with
  | some p => s.resetPart p
  | none => s

end Sys2Proof.Machine
end

