-- ==== Sys2Proof/Machine/BootOps.lean ====
section
/-!
DEFINITION. Package reset and the boot ROM (R67 to R70, R546, R597, R602, R603).
-/
namespace Sys2Proof.Machine

/-- What package reset leaves (R546, R597, R598, R601): everything at its reset value but memory outside the package's buffers, the
flash, the rollback counter and the device key, which the first boot creates; every memory key is new. -/
def State.resetPackage (s : State) : State :=
  { State.reset with
    freeCtr := s.freeCtr, nextId := s.nextId + 2, out := s.out, boot := .recovery
    mem := s.mem.filter fun (c : Host.Cell) => decide (c.1 < spBase)
    sides := s.sides.filter fun (c : Nat × Side) => decide (64 * c.1 < spBase)
    poison := s.poison, owners := s.owners
    pkg := { pkgZero with key := s.nextId, flash := s.pkg.flash, rollback := s.pkg.rollback, devKey := some (s.pkg.devKey.getD (s.nextId + 1)) } }

/-- Where the boot ROM puts the code (R602). -/
def bootCode : Nat := 0x100000

/-- A Prisha image as its header gives it (R67). -/
structure Image where
  bs : List Byte
  codeOff : Nat
  lines : Nat
  stageOff : Nat
  stages : Nat
  queueOff : Nat
  queues : Nat
  dataOff : Nat
  const : Nat
  data : Nat
  sideOff : Nat
  deriving DecidableEq, Repr

/-- Bytes of the image up to the end of each of its parts (R67 to R70). -/
def Image.ends (m : Image) : List Nat :=
  [m.codeOff + 128 * m.lines, m.stageOff + 48 * m.stages, m.queueOff + 16 * m.queues, m.dataOff + m.const + m.data,
    m.sideOff + 2 * ((m.const + m.data) / 64)]

/-- An image, if it keeps the limits of its header and its parts lie within its size (R67). -/
def imageOf (bs : List Byte) : Option Image :=
  let f := fieldAt bs
  let bs := bs.take (f 8 4)
  let m : Image := ⟨bs, f 0x0C 4, f 0x10 4, f 0x14 4, f 0x18 2, f 0x1C 4, f 0x1A 2, f 0x20 4, f 0x24 4, f 0x28 4, f 0x2C 4⟩
  if f 0 4 = 0x48535250 ∧ f 4 2 = 0x0100 ∧ f 6 2 = 0 ∧ m.codeOff % 128 = 0 ∧ 1 ≤ m.lines ∧ m.stageOff % 16 = 0 ∧ 1 ≤ m.stages ∧
      m.stages ≤ 256 ∧ 1 ≤ m.queues ∧ m.queues ≤ 1024 ∧ m.queueOff % 16 = 0 ∧ m.dataOff % 64 = 0 ∧ m.const % 64 = 0 ∧ m.data % 64 = 0 ∧
      f 0x30 16 = 0 ∧ bs.length = f 8 4 ∧ m.ends.all (fun e => decide (e ≤ f 8 4))
  then some m else none

/-- A queue of an image (R69), whose reserved bytes and bits are 0; the boot context's queue i stands on core i mod 192 (R602). -/
def Image.queue (m : Image) (i cbase : Nat) : Option QDesc :=
  let f := fieldAt (m.bs.drop (m.queueOff + 16 * i))
  if 1 < f 2 1 ∨ f 3 1 ≠ 0 ∨ f 8 8 ≠ 0 then none
  else qdescOf (natLe 1 (f 0 1) ++ natLe 1 (f 1 1) ++ natLe 2 (f 2 1) ++ natLe 4 (i % 192) ++ natLe 8 (f 4 4) ++ natLe 8 cbase ++ natLe 8 0)

/-- A stage of an image (R68): its first line lies in the code, and its reserved bytes are 0. -/
def Image.stage (m : Image) (i : Nat) : Option StageDesc :=
  let bs := (m.bs.drop (m.stageOff + 48 * i)).take 48
  if m.lines ≤ fieldAt bs 0 4 ∨ fieldAt bs 0x28 8 ≠ 0 then none
  else (sdescOf bs).map fun d => { d with code := BitVec.ofNat 64 (bootCode + 128 * fieldAt bs 0 4) }

/-- An optional list, if every entry is there. -/
def allSome {α : Type} : List (Option α) → Option (List α)
  | [] => some []
  | none :: _ => none
  | some x :: t => (allSome t).map fun l => x :: l

/-- A place rounded up to 64 KiB. -/
def pageUp (a : Nat) : Nat := (a + 65535) / 65536 * 65536

/-- Where the data block stands (R602). -/
def Image.block (m : Image) : Nat := pageUp (bootCode + 128 * m.lines)

/-- Lines of the data block as stored in the image, with their addresses, and the padding between its parts, which reads 0 (R70). -/
def Image.dataLines (m : Image) : List (Nat × List Byte × Side) :=
  let n := m.const / 64
  ((List.range (n + m.data / 64)).map fun k =>
    (if k < n then m.block + 64 * k else m.block + pageUp m.const + 64 * (k - n),
      (m.bs.drop (m.dataOff + 64 * k)).take 64, BitVec.ofNat 16 (fieldAt m.bs (m.sideOff + 2 * k) 2))) ++
  (List.range ((pageUp m.const - m.const) / 64)).map fun k => (m.block + m.const + 64 * k, List.replicate 64 0, Sides.untyped)

/-- The image copied to local HBM (R602). -/
def State.loadImage (s : State) (m : Image) : State :=
  let s := s.homeWrites none 63 bootCode ((m.bs.drop m.codeOff).take (128 * m.lines)) (some Sides.untyped)
  m.dataLines.foldl (fun (t : State) l => t.homeWrites none 63 l.1 l.2.1 (some l.2.2)) s

/-- The image's graph with its settings (R602, R603); the spec does not say where the boot queues' coach houses lie (log 39). -/
def Image.graph (m : Image) (base : Nat) : Option Graph :=
  match allSome ((List.range m.queues).map fun i => m.queue i (65536 * (base + i))), allSome ((List.range m.stages).map m.stage) with
  | some qs, some ss =>
    some ⟨63, 0, qs.zipIdx.map fun q => (q.2, q.1), ss.zipIdx.map fun t => (t.2, (⟨t.1, false, none, 0⟩ : StageSet)), false, 0⟩
  | _, _ => none

/-- MRSV as the boot ROM sets it (R602). -/
def bootReserve : DWord := 0x05FF7000000

/-- The firmware starts, if its image's graph may be bound (R67, R460, R602): code, data, reserve, graph, and one record of
zeros in the lowest-numbered entry queue. -/
def State.startFirmware (s : State) (m : Image) : State :=
  let r := s.takeFree
  match m.graph r.1 with
  | none => s
  | some g =>
    let homes := g.queues.map fun q => (q.1, q.2, q.1 % 192)
    if !g.whole || !s.slicesFit homes then s
    else
    let s := r.2.loadImage m
    let s := { s with boot := .running, pkg := { s.pkg with mrsv := bootReserve } }
    let s := s.bindGraph g homes (BitVec.ofNat 64 m.block)
    match g.queues.find? fun q => q.2.entry with
    | none => s
    | some q => (s.enqueue ⟨63, 0, q.1⟩ (List.replicate q.2.size 0)).getD s

/-- Whether the firmware in flash is signed by the key whose hash is fused, and its version is not below the rollback counter
(R597). -/
def State.verifies (s : State) : Bool :=
  let f := s.pkg.flash
  digest f.pub == (List.range 32).map Config.fusedKey && Config.sm2Holds f.pub (digest f.firmware) f.sig && decide (s.pkg.rollback ≤ f.version)

/-- PACKAGE_RESET (R597, R601, R602): the boot ROM accepts the firmware, or the package stays in recovery. -/
def State.bootRom (s : State) : State :=
  let s := s.resetPackage
  if s.verifies then
    match imageOf s.pkg.flash.image with
    | some m => ({ s with pkg := { s.pkg with verified := (s.pkg.flash.firmware, s.pkg.flash.version) } } : State).startFirmware m
    | none => s
  else s

end Sys2Proof.Machine
end

