-- ==== Sys2Proof/Machine/EvHost.lean ====
section
/-!
DEFINITION. The meanings of errors, the host interface, attestation, reset, power and scan (chapters 10, 16 of spec/).
-/
namespace Sys2Proof.Machine

/-- SOFT_ERROR_CORRECTED (R371). -/
def execSoftErrorCorrected (sec : Nat) (s : State) : Out := event (fun s => s.softError sec) s

/-- UNCORRECTABLE_ERROR (R371). -/
def execUncorrectableError (w : ErrTarget) (s : State) : Out := event (fun s => s.uncorrectable w) s

/-- CORRUPT_HEADER (R371). -/
def execCorruptHeader (at_ : RouterHit) (s : State) : Out := event (fun s => s.corrupt at_) s

/-- HOST_MEMORY_READ (R591). -/
def execHostMemoryRead (vf : Nat) (addr : Nat) (len : Nat) (s : State) : Out := event (fun s => s.hostRead vf addr len) s

/-- HOST_MEMORY_WRITE (R591). -/
def execHostMemoryWrite (vf : Nat) (addr : Nat) (bs : List Byte) (s : State) : Out := event (fun s => s.hostWrite vf addr bs) s

/-- HOST_INVALIDATE (R90). -/
def execHostInvalidate (line : Nat) (bs : List Byte) (s : State) : Out := event (fun s => s.hostInvalidate line bs) s

/-- HOST_RECORD_WRITE (R593). -/
def execHostRecordWrite (vf : Nat) (off : Nat) (bs : List Byte) (s : State) : Out := event (fun s => s.hostRecord vf off bs) s

/-- HOST_SINK_READ (R594). -/
def execHostSinkRead (vf : Nat) (off : Nat) (len : Nat) (s : State) : Out := event (fun s => s.hostSink vf off len) s

/-- LOCK_INTERFACE (R596). -/
def execLockInterface (vf : Nat) (s : State) : Out := event (fun s => s.tdiStep vf .unlocked .locked) s

/-- START_INTERFACE (R595). -/
def execStartInterface (vf : Nat) (s : State) : Out := event (fun s => s.tdiStep vf .locked .run) s

/-- STOP_INTERFACE (R596). -/
def execStopInterface (vf : Nat) (s : State) : Out := event (fun s => s.tdiStop vf) s

/-- GET_MEASUREMENTS (R598). -/
def execGetMeasurements (vf : Nat) (nonce : List Byte) (s : State) : Out := event (fun s => s.measure vf nonce) s

/-- CONFIG_WRITE (R596). -/
def execConfigWrite (vf : Nat) (item : Nat) (val : Word) (s : State) : Out := event (fun s => s.configWrite vf item val) s

/-- PACKAGE_RESET (R597). -/
def execPackageReset (s : State) : Out := .next s.bootRom

/-- POWER_LIMIT_WRITE (R599). -/
def execPowerLimitWrite (watts : Nat) (s : State) : Out := event (fun s => s.powerWrite watts) s

/-- POWER_ARBITER_TICK (R599). -/
def execPowerArbiterTick (s : State) : Out := event (fun s => s.powerTick) s

/-- FREEZE (R601). -/
def execFreeze (s : State) : Out := event (fun s => { s with frozen := true }) s

/-- SCAN_READOUT (R601). -/
def execScanReadout (s : State) : Out := .next (if s.frozen then { s with out := .scan s.scanOf :: s.out } else s)

end Sys2Proof.Machine
end

