-- ==== Sys2Proof/Machine/SysRegs.lean ====
section
/-!
DEFINITION. The special registers (R23, R115, R116, R137, R159, R212, R344 to R352, R367, R406, R547 to R552, R596), and GKILL
(R360, R368).
-/
namespace Sys2Proof.Machine

/-! Words -/

def withLo (x : DWord) (w : Word) : DWord := x.hi ++ w
def withHi (x : DWord) (w : Word) : DWord := w ++ x.lo

/-- Bits of a field written, the others kept (R6, R367). -/
def keepBits (old w : Word) (mask : Nat) : Word := (old &&& ~~~(BitVec.ofNat 32 mask)) ||| (w &&& BitVec.ofNat 32 mask)

def nat32 (n : Nat) : Word := BitVec.ofNat 32 n

/-! Frames -/

/-- TDEPTH (R352): open frames of a quad at S, H and M. -/
def Gang.depth (g : Gang) (q : Nat) : Nat :=
  let open_ := fun (r : Ring) => (g.bank r).frames.toArray.toList.any fun f => f.isOpen && f.stat.getLsbD q
  let b := [open_ .S, open_ .H, open_ .M]
  (b.filter id).length + 4 * ((open_ .S).toNat + 2 * (open_ .H).toNat + 4 * (open_ .M).toNat)

/-- A frame register by its offset (R348). -/
def Frame.get (f : Frame) (o : Nat) : Word :=
  if o = 0x20 then f.cause
  else if o = 0x21 then f.info
  else if o = 0x22 then f.addr.lo
  else if o = 0x23 then f.addr.hi
  else if o = 0x24 then f.fpc.lo
  else if o = 0x25 then f.fpc.hi
  else if o = 0x26 then f.exec
  else if o = 0x27 then f.mask
  else if o = 0x28 then f.stat
  else if o = 0x29 then f.afl
  else if o ≤ 0x37 then vget f.preds (o - 0x30) 0
  else
    let q := (o - 0x40) / 2
    if f.stat.getLsbD q then (if o % 2 = 0 then (vget f.epc q 0).lo else (vget f.epc q 0).hi) else 0

/-- A frame register written (R348, R350, R351). -/
def Frame.set (f : Frame) (o : Nat) (w : Word) : Frame :=
  if o = 0x20 then { f with cause := keepBits f.cause w 0x3FFFFF }
  else if o = 0x21 then { f with info := w }
  else if o = 0x22 then { f with addr := withLo f.addr w }
  else if o = 0x23 then { f with addr := withHi f.addr w }
  else if o = 0x24 then { f with fpc := withLo f.fpc w }
  else if o = 0x25 then { f with fpc := withHi f.fpc w }
  else if o = 0x26 then { f with exec := w }
  else if o = 0x27 then { f with mask := w }
  else if o = 0x28 then { f with stat := keepBits f.stat w 0x1FF }
  else if o = 0x29 then { f with afl := keepBits f.afl w 0x7F }
  else if o = 0x2A then f
  else if o ≤ 0x37 then { f with preds := vset f.preds (o - 0x30) w }
  else
    let q := (o - 0x40) / 2
    if f.stat.getLsbD q then
      { f with epc := vset f.epc q (if o % 2 = 0 then withLo (vget f.epc q 0) w else withHi (vget f.epc q 0) w) }
    else f

/-! Configuration sets -/

/-- A configuration register by its offset (R348, R349). -/
def RegSet.get (r : RegSet) (o : Nat) : Word :=
  if o = 0 then r.tvec.lo
  else if o = 1 then r.tvec.hi
  else if o ≤ 0x0B then vget r.tscr (o - 8) 0
  else if o = 0x0C then r.eqbase.lo
  else if o = 0x0D then r.eqbase.hi
  else if o = 0x0E then r.eqcap
  else if o = 0x0F then r.eqhead
  else if o = 0x10 then r.eqtail
  else r.eqovf

/-- A configuration register written. DESIGN CHOICE: EQBASE and EQCAP keep whatever is written, aligned and a power of two or
not (R348, log 93). -/
def RegSet.set (r : RegSet) (o : Nat) (w : Word) : RegSet :=
  if o = 0 then { r with tvec := withLo r.tvec (keepBits r.tvec.lo w 0xFFFFFF81) }
  else if o = 1 then { r with tvec := withHi r.tvec w }
  else if o ≤ 0x0B then { r with tscr := vset r.tscr (o - 8) w }
  else if o = 0x0C then { r with eqbase := withLo r.eqbase w }
  else if o = 0x0D then { r with eqbase := withHi r.eqbase w }
  else if o = 0x0E then { r with eqcap := w }
  else if o = 0x0F then { r with eqhead := w }
  else if o = 0x10 then r
  else { r with eqovf := w }

/-! Partition registers -/

def TierLog.word (g : TierLog) : Word := nat32 (g.n % 2 ^ 25 + g.half.toNat * 2 ^ 31)

/-- The selected child (R548); none where CSEL names none. -/
def State.child (s : State) (p : Partition) : Option Partition :=
  if (s.childrenOf p.num).contains p.csel then s.partition? p.csel else none

/-- PSTAT (R548). -/
def State.pstat (s : State) (p : Partition) : Nat :=
  p.active.toNat + 2 * p.halting.toNat + 4 * p.halted.toNat + 8 * p.ws.ovf.toNat + 16 * p.dl.ovf.toNat +
    256 * (s.tier.jobs.filter fun j => j.owner == p.num).length

/-- A partition register that acts on the selected child (R548). -/
def Partition.childGet (c : Partition) (o : Nat) : Word :=
  if o = 0xA1 then nat32 (c.secs.toNat % 2 ^ 32)
  else if o = 0xA2 then nat32 (c.secs.toNat / 2 ^ 32)
  else if o = 0xA3 then nat32 (c.pshare + 256 * c.tshare)
  else if o = 0xA4 then nat32 c.slice
  else if o = 0xA5 then nat32 c.unit
  else if o = 0xA6 then c.save.lo
  else if o = 0xA7 then c.save.hi
  else if o = 0xA8 then c.slw.lo
  else c.slw.hi

/-- A partition or address-space register of ring S (R116, R548). -/
def State.partGet (s : State) (p : Partition) (o : Nat) : Word :=
  if o = 0x80 then nat32 (p.num + 256 * p.level + 65536 * p.parent)
  else if o = 0x81 then nat32 p.vf
  else if o = 0x82 then nat32 p.asidsel
  else if o = 0x83 then vget p.asids p.asidsel 0
  else if o = 0x84 then (vget p.roots p.asidsel 0).lo
  else if o = 0x85 then (vget p.roots p.asidsel 0).hi
  else if o = 0x88 then p.ws.base.lo
  else if o = 0x89 then p.ws.base.hi
  else if o = 0x8A then p.ws.cap
  else if o = 0x8B then p.ws.word
  else if o = 0x8C then p.dl.base.lo
  else if o = 0x8D then p.dl.base.hi
  else if o = 0x8E then p.dl.cap
  else if o = 0x8F then p.dl.word
  else if o = 0x90 then nat32 (s.pstat p)
  else if o = 0x91 then p.deadline
  else if o = 0x92 then nat32 p.slice
  else if o = 0x94 then p.pool0.lo
  else if o = 0x95 then p.pool0.hi
  else if o = 0x96 then p.pool1.lo
  else if o = 0x97 then p.pool1.hi
  else if o = 0x98 then p.uevict
  else if o = 0x99 then p.ufill
  else if o = 0x9A then nat32 (s.tier.pins.filter fun q => q.part == p.num).length
  else if o = 0xA0 then nat32 p.csel
  else if o = 0xAA then nat32 p.cctl
  else if o = 0xB0 then nat32 p.lend
  else if o = 0xC0 then p.cdbg
  else (s.child p).elim 0 fun c => c.childGet o

/-- Whether a section set may be a partition's (R547): at most four partitions hold a section; a child's sections are its
parent's. -/
def State.secsOk (s : State) (num : Nat) (within : Option (BitVec 48)) (x : BitVec 48) : Bool :=
  (match within with | some y => x &&& ~~~y == 0 | none => true) &&
    (List.range 48).all fun k => !x.getLsbD k || decide ((s.parts.filter fun q => q.num != num && q.secs.getLsbD k).length ≤ 3)

/-- Low and high words of a section set. -/
def secsLo (x : BitVec 48) (w : Word) : BitVec 48 := BitVec.ofNat 48 (x.toNat / 2 ^ 32 * 2 ^ 32 + w.toNat)
def secsHi (x : BitVec 48) (w : Word) : BitVec 48 := BitVec.ofNat 48 (w.toNat % 65536 * 2 ^ 32 + x.toNat % 2 ^ 32)

/-- The value of a child's register after a write; none outside its limits (R548, R550). -/
def State.childSet (s : State) (p c : Partition) (o : Nat) (w : Word) : Option Partition :=
  if o = 0xA1 ∨ o = 0xA2 then
    let x := if o = 0xA1 then secsLo c.secs w else secsHi c.secs w
    if s.secsOk c.num (some p.secs) x then some { c with secs := x } else none
  else if o = 0xA3 then some { c with pshare := w.toNat % 256, tshare := w.toNat / 256 % 256 }
  else if o = 0xA4 then (if p.slice ≠ 0 ∧ p.slice < w.toNat then none else some { c with slice := w.toNat })
  else if o = 0xA5 then (if s.unitShare p.num < w.toNat then none else some { c with unit := w.toNat })
  else if o = 0xA6 then (if w.toNat % 65536 ≠ 0 then none else some { c with save := withLo c.save w })
  else if o = 0xA7 then some { c with save := withHi c.save w }
  else if o = 0xA8 then (if w.toNat % 4 ≠ 0 then none else some { c with slw := withLo c.slw w })
  else some { c with slw := withHi c.slw w }

/-- The registers of a child that set what LOCK_INTERFACE freezes: its sections and its unit share (R596). -/
def frozenChild (o : Nat) : Bool := o == 0xA1 || o == 0xA2 || o == 0xA5

/-- A partition `p` is set anew; where its sections change, what it loses is cleared (R28, log 76). -/
def State.setPartition (s : State) (p p' : Partition) : State :=
  if p'.secs = p.secs then s.modPartition p.num fun _ => p'
  else s.regroup fun t => t.modPartition p.num fun q => { q with secs := p'.secs }

/-- A step that takes place before the next instruction. -/
def State.first (s : State) (i : Instr) : State := { s with agenda := i :: s.agenda }

/-- A partition or address-space register of ring S written (R116, R542, R547, R548, R552). DESIGN CHOICE: a command of CCTL is
the whole word written (log 131), and a base or a number that R548 does not admit is stored and used as written (log 93). -/
def State.partSet (s : State) (p : Partition) (o : Nat) (w : Word) : State :=
  let put := fun (f : Partition → Partition) => s.modPartition p.num f
  let ws := fun (f : TierLog → TierLog) => put fun p => { p with ws := f p.ws }
  let dl := fun (f : TierLog → TierLog) => put fun p => { p with dl := f p.dl }
  if o = 0x82 then put fun p => { p with asidsel := w.toNat % 16 }
  else if o = 0x83 then put fun p => { p with asids := vset p.asids p.asidsel (nat32 (w.toNat % 65536)) }
  else if o = 0x84 then put fun p => { p with roots := vset p.roots p.asidsel (withLo (vget p.roots p.asidsel 0) w) }
  else if o = 0x85 then put fun p => { p with roots := vset p.roots p.asidsel (withHi (vget p.roots p.asidsel 0) w) }
  else if o = 0x88 then ws fun g => { g with base := withLo g.base w }
  else if o = 0x89 then ws fun g => { g with base := withHi g.base w }
  else if o = 0x8A then ws fun g => { g with cap := w }
  else if o = 0x8C then dl fun g => { g with base := withLo g.base w }
  else if o = 0x8D then dl fun g => { g with base := withHi g.base w }
  else if o = 0x8E then dl fun g => { g with cap := w }
  else if o = 0x91 then put fun p => { p with deadline := w }
  else if o = 0x94 then put fun p => { p with pool0 := withLo p.pool0 w }
  else if o = 0x95 then put fun p => { p with pool0 := withHi p.pool0 w }
  else if o = 0x96 then put fun p => { p with pool1 := withLo p.pool1 w }
  else if o = 0x97 then put fun p => { p with pool1 := withHi p.pool1 w }
  else if o = 0x98 then put fun p => { p with uevict := w }
  else if o = 0x99 then put fun p => { p with ufill := w }
  else if o = 0xA0 then put fun p => { p with csel := w.toNat % 64 }
  else if o = 0xAA then
    if p.level = 2 then s
    else if w = 1 then s.first (.cctlCreate p.num)
    else if w = 2 then s.first (.cctlDestroy p.num)
    else if w = 3 then s.first (.cctlReset p.num)
    else s.setCctl p.num 1
  else if o = 0xB0 then
    if w.toNat / 65536 % 2 = 1 then s.first (.lendSection p.num (w.toNat % 64) (w.toNat / 256 % 64))
    else s.first (.reclaimSection p.num (w.toNat % 64))
  else if o = 0xC0 then put fun p => { p with cdbg := keepBits p.cdbg w 3 }
  else if 0xA1 ≤ o ∧ o ≤ 0xA9 then
    match s.child p with
    | none => s.setCctl p.num 3
    | some c =>
      if frozenChild o && s.isFrozen c.vf then s.tdiError c.vf
      else
        match s.childSet p c o w with
        | none => s.setCctl p.num 1
        | some c' => s.setPartition c c'
  else s

/-! H and M registers -/

/-- A partition register of ring H (R348, R549). -/
def Partition.hostGet (p : Partition) (o : Nat) : Word :=
  if o = 0xC1 then p.reserve.lo
  else if o = 0xC2 then p.reserve.hi
  else if o = 0xD0 then nat32 (p.secs.toNat % 2 ^ 32)
  else if o = 0xD1 then nat32 (p.secs.toNat / 2 ^ 32)
  else if o = 0xD2 then nat32 p.pshare
  else if o = 0xD3 then nat32 p.slice
  else if o = 0xD4 then nat32 p.unit
  else if o = 0xD5 then p.save.lo
  else if o = 0xD6 then p.save.hi
  else if o = 0xD7 then p.s2.lo
  else if o = 0xD8 then p.s2.hi
  else if o = 0xD9 then nat32 p.vf
  else if o = 0xDA then p.toff.lo
  else if o = 0xDB then p.toff.hi
  else if o = 0xDC then p.ctb.lo
  else if o = 0xDD then p.ctb.hi
  else if o = 0xDE then p.slw.lo
  else p.slw.hi

def State.hGet (s : State) (o : Nat) : Word :=
  if o = 0xC0 then nat32 s.pkg.hrsvsel
  else if o = 0xE0 then nat32 s.pkg.hpctl
  else (s.partition? s.pkg.hrsvsel).elim 0 fun p => p.hostGet o

/-- Registers that LOCK_INTERFACE freezes (R596). -/
def frozenReg (o : Nat) : Bool := o == 0xD0 || o == 0xD1 || o == 0xD4 || o == 0xD7 || o == 0xD8 || o == 0xD9 || o == 0xDC || o == 0xDD

/-- Whether a slice or a unit share exceeds that of the parent of a level-2 partition (R550). -/
def State.overSlice (s : State) (p : Partition) (n : Nat) : Bool :=
  p.level == 2 && (s.partition? p.parent).any fun q => q.slice != 0 && decide (q.slice < n)
def State.overUnit (s : State) (p : Partition) (n : Nat) : Bool := p.level == 2 && decide (s.unitShare p.parent < n)

/-- A partition register of ring H after a write; none outside its limits (R548 to R550). DESIGN CHOICE: a reserve base that is
not 4 KiB aligned counts as outside its limits (R348, log 55). -/
def State.hostSet (s : State) (p : Partition) (o : Nat) (w : Word) : Option Partition :=
  if o = 0xC1 then (if w.toNat % 4096 ≠ 0 then none else some { p with reserve := withLo p.reserve w })
  else if o = 0xC2 then some { p with reserve := withHi p.reserve w }
  else if o = 0xD0 ∨ o = 0xD1 then
    let x := if o = 0xD0 then secsLo p.secs w else secsHi p.secs w
    if s.secsOk p.num (if p.level = 2 then (s.partition? p.parent).map (·.secs) else none) x then some { p with secs := x } else none
  else if o = 0xD2 then some { p with pshare := w.toNat % 256 }
  else if o = 0xD3 then (if s.overSlice p w.toNat then none else some { p with slice := w.toNat })
  else if o = 0xD4 then (if 256 < w.toNat || s.overUnit p w.toNat then none else some { p with unit := w.toNat })
  else if o = 0xD5 then (if w.toNat % 65536 ≠ 0 then none else some { p with save := withLo p.save w })
  else if o = 0xD6 then some { p with save := withHi p.save w }
  else if o = 0xD7 then some { p with s2 := withLo p.s2 w }
  else if o = 0xD8 then some { p with s2 := withHi p.s2 w }
  else if o = 0xD9 then (if 95 < w.toNat % 128 ∧ w.toNat % 128 ≠ 127 then none else some { p with vf := w.toNat % 128 })
  else if o = 0xDA then some { p with toff := withLo p.toff w }
  else if o = 0xDB then some { p with toff := withHi p.toff w }
  else if o = 0xDC then some { p with ctb := withLo p.ctb w }
  else if o = 0xDD then some { p with ctb := withHi p.ctb w }
  else if o = 0xDE then (if w.toNat % 4 ≠ 0 then none else some { p with slw := withLo p.slw w })
  else some { p with slw := withHi p.slw w }

/-- A register of H that acts on the partition selected by HRSVSEL written (R348, R549). DESIGN CHOICE: a command of HPCTL is the
whole word written (log 131), and a value not admitted sets status 1 (log 55). -/
def State.hSet (s : State) (o : Nat) (w : Word) : State :=
  if o = 0xC0 then { s with pkg := { s.pkg with hrsvsel := w.toNat % 64 } }
  else if o = 0xE0 then
    if w = 1 then s.first .hpctlCreate
    else if w = 2 then s.first .hpctlDestroy
    else if w = 3 then s.first .hpctlReset
    else s.setHpctl 1
  else
    match s.partition? s.pkg.hrsvsel with
    | none => s.setHpctl 3
    | some p =>
      if frozenReg o && s.isFrozen p.vf then s.tdiError p.vf
      else
        match s.hostSet p o w with
        | none => s.setHpctl 1
        | some p' => s.setPartition p p'

/-- A register of ring M outside the set (R23, R348). -/
def Package.get (k : Package) (o : Nat) : Word :=
  let f := vget k.fm k.fmsel ⟨0, 0, 0, 0⟩
  if o = 0xC0 then k.mrsv.lo
  else if o = 0xC1 then k.mrsv.hi
  else if o = 0xD0 then nat32 k.fmsel
  else if o = 0xD1 then f.pa.lo
  else if o = 0xD2 then f.pa.hi
  else if o = 0xD3 then f.size.lo
  else if o = 0xD4 then f.size.hi
  else if o = 0xD5 then f.ca.lo
  else if o = 0xD6 then f.ca.hi
  else if o = 0xD7 then f.sb.lo
  else f.sb.hi

/-- Such a register written. DESIGN CHOICE: the monitor reserve's base keeps whatever is written, aligned or not, and so do a
window's start, size and sideband store, in range and a multiple of what R23 says or not (R23, R348, log 93). -/
def Package.set (k : Package) (o : Nat) (w : Word) : Package :=
  let f := vget k.fm k.fmsel ⟨0, 0, 0, 0⟩
  let put := fun (g : FmWindow) => { k with fm := vset k.fm k.fmsel g }
  if o = 0xC0 then { k with mrsv := withLo k.mrsv w }
  else if o = 0xC1 then { k with mrsv := withHi k.mrsv w }
  else if o = 0xD0 then { k with fmsel := w.toNat % 4 }
  else if o = 0xD1 then put { f with pa := withLo f.pa w }
  else if o = 0xD2 then put { f with pa := withHi f.pa w }
  else if o = 0xD3 then put { f with size := withLo f.size w }
  else if o = 0xD4 then put { f with size := withHi f.size w }
  else if o = 0xD5 then put { f with ca := withLo f.ca w }
  else if o = 0xD6 then put { f with ca := withHi f.ca w }
  else if o = 0xD7 then put { f with sb := withLo f.sb w }
  else put { f with sb := withHi f.sb w }

/-! MFSR and MTSR -/

/-- The user registers (R115, R137, R159, R212, R345 to R347, R406, R549). -/
def State.userGet (s : State) (x : Ctx) (n : Nat) : Word :=
  let g := x.v.gang
  let toff := (s.partition? x.c.part).elim 0 (·.toff)
  if n = 0 then nat32 (g.fto.toNat + 2 * g.psn.toNat)
  else if n = 1 then g.ftomask
  else if n = 2 then x.v.part.aflags.setWidth 32
  else if n = 3 then g.aenable.setWidth 32
  else if n = 4 then g.fpmode
  else if n = 5 then nat32 (g.counters.copy + 256 * g.counters.matrix + 65536 * g.counters.push)
  else if n = 6 then g.rbcnt
  else if n = 7 then nat32 (g.dragEntries % 2 ^ 31 + x.v.part.drag.toNat * 2 ^ 31)
  else if n = 8 then pinfoVal x.v
  else if n = 9 then toff.lo
  else if n = 10 then toff.hi
  else if n = 11 then g.cmrg
  else if n = 12 then g.crep
  else g.cjoin

def State.userSet (s : State) (x : Ctx) (n : Nat) (w : Word) : State :=
  let gang := fun (f : Gang → Gang) => s.modGang x.r.cohort x.r.gang f
  if n = 2 then s.modPart x.r fun p => { p with aflags := w.setWidth 7 }
  else if n = 3 then gang fun g => { g with aenable := w.setWidth 7 }
  else if n = 4 then gang fun g => { g with fpmode := keepBits g.fpmode w 15 }
  else if n = 6 then gang fun g => { g with rbcnt := w }
  else if n = 7 then gang fun g => { g with dragEntries := w.toNat % 2 ^ 31 }
  else if n = 11 then gang fun g => { g with cmrg := w }
  else if n = 12 then gang fun g => { g with crep := w }
  else if n = 13 then gang fun g => { g with cjoin := w }
  else s

/-- A ring's frame register of a part (R344, R348, R352). -/
def View.frameGet (v : View) (r : Ring) (o : Nat) : Word :=
  let q := lowQuad v.part.quads
  if o = 0x2A then nat32 (v.gang.depth q)
  else
    let b := v.gang.bank r
    (b.frame (b.slotOf q)).get o

def State.frameSet (s : State) (x : Ctx) (r : Ring) (o : Nat) (w : Word) : State :=
  s.modGang x.r.cohort x.r.gang fun g =>
    let b := g.bank r
    let i := b.slotOf (lowQuad x.v.part.quads)
    g.setBank r (b.setFrame i ((b.frame i).set o w))

/-- A special register as MFSR reads it (R344, R367); a boot cohort has no partition, and reads zero (log 38). -/
def State.srGet (s : State) (x : Ctx) (n : Nat) : Word :=
  let o := n % 256
  let r := Ring.ofNum (n / 256)
  if n < 256 then s.userGet x n
  else if 0x20 ≤ o ∧ o ≤ 0x4F then x.v.frameGet r o
  else if n < 0x200 then (s.partition? x.c.part).elim 0 fun p => if o < 0x20 then p.regs.get o else s.partGet p o
  else if n < 0x300 then (if o < 0x20 then s.pkg.setH.get o else s.hGet o)
  else if o < 0x20 then s.pkg.setM.get o
  else s.pkg.get o

/-- A special register as MTSR writes it (R344, R367). -/
def State.srSet (s : State) (x : Ctx) (n : Nat) (w : Word) : State :=
  let o := n % 256
  let r := Ring.ofNum (n / 256)
  if n < 256 then s.userSet x n w
  else if 0x20 ≤ o ∧ o ≤ 0x4F then s.frameSet x r o w
  else if n < 0x200 then
    (s.partition? x.c.part).elim s fun p =>
      if o < 0x20 then s.modPartition p.num fun p => { p with regs := p.regs.set o w } else s.partSet p o w
  else if n < 0x300 then
    (if o < 0x20 then { s with pkg := { s.pkg with setH := s.pkg.setH.set o w } } else s.hSet o w)
  else if o < 0x20 then { s with pkg := { s.pkg with setM := s.pkg.setM.set o w } }
  else { s with pkg := s.pkg.set o w }

/-- MFSR (R367). -/
def mfsrSem (p : Pred) (n : Nat) (d : Opnd) : Sem := fun s x =>
  .fall (s.putView x.r (x.v.wrUniform p d (s.srGet x n))) false

/-- MTSR (R367). -/
def mtsrSem (p : Pred) (n : Nat) (a : Opnd) : Sem := fun s x =>
  .fall (if x.v.acts p then s.srSet x n (x.v.rd32 a 0) else s) true

/-! GKILL -/

/-- The cohort that a handle names for a partition (R368): GANG is ignored. -/
def State.cohortOf (s : State) (part : Nat) (h : Word) : Option Cohort :=
  let n := h.toNat
  if n / 65536 != 0 then none
  else (s.coreReal part (n % 256)).bind fun core =>
    s.cohorts.find? fun c => c.core == core && c.slot == some (n / 256 % 16) && c.part == part

/-- GKILL (R360, R368, R379): one that ends its own cohort writes no status. -/
def gkillSem (drop : Bool) (d a : Opnd) : Sem := fun s x =>
  match s.cohortOf x.c.part (x.v.rd32 a 0) with
  | none => s.status x d 2
  | some c =>
    let t := s.killCohort c.id drop
    if c.id = x.c.id then .placed t else t.status x d 0

end Sys2Proof.Machine
end

