-- ==== Sys2Proof/Machine/TierSem.lean ====
section
/-!
DEFINITION. What the TIER instructions do (R575 to R583).
-/
namespace Sys2Proof.Machine

/-! Jobs -/

/-- The partition that a TIER instruction names (R576): its own, at S a child, at H any; none where it is not permitted. -/
def State.tierTarget (s : State) (x : Ctx) (b : Opnd) : Option Nat :=
  let n := (x.v.uni b).toNat
  if b = .zero then (s.partition? x.c.part).map fun p => p.num
  else if x.v.part.ring = .S then (if (s.childrenOf x.c.part).contains n then some n else none)
  else (s.partition? n).map fun p => p.num

/-- Whether a job's stage is there (R581). -/
def State.stageBound (s : State) (part slot stage : Nat) : Bool :=
  (s.graph? part slot).any fun g => g.bound && (assocGet g.stages stage).isSome

/-- Whether a job does not fit what it is to act on (R577): a stage that is not bound (DEDUCED, log 138), a partition that is
halting. -/
def State.jobWrong (s : State) (t : Nat) (j : Job) : Bool :=
  match j.kind with
  | .declare => !s.stageBound t j.slot j.stage
  | .undeclare => !s.stageBound t j.slot j.stage
  | .halt _ => (s.partition? t).any fun (q : Partition) => q.halting
  | _ => false

/-- A job stands behind its partition's others, and goes on at once if it is the first (R559). -/
def State.addJob (s : State) (x : Ctx) (j : Job) (t : Nat) : State :=
  let k := { j with id := s.nextId, target := t }
  let s := { s with nextId := s.nextId + 1, tier := { s.tier with jobs := s.tier.jobs ++ [k] } }
  if (s.headJob x.c.part).any fun (h : Job) => h.id == k.id then s.kick x.c.part else s

/-- A job starts, or D says why it does not (R577): statuses in ascending order. -/
def State.startJob (s : State) (x : Ctx) (p : Pred) (d b : Opnd) (bad : Bool) (j : Job) : Done :=
  if bad then s.answer x p d 1
  else if 8 ≤ (s.tier.jobs.filter fun k => k.owner == x.c.part).length then s.answer x p d 2
  else
    match s.tierTarget x b with
    | none => s.answer x p d 3
    | some t => if s.jobWrong t j then s.answer x p d 4 else (s.addJob x j t).answer x p d 0

/-- A job as an instruction makes it. -/
def Ctx.job (x : Ctx) (kind : JobKind) (list : DWord) (len slot stage : Nat) (word : DWord) : Job :=
  { id := 0, owner := x.c.part, target := 0, kind := kind, whose := x.whose, list := list, len := len, slot := slot, stage := stage
    word := word, pos := 0, count := 0, short := false, result := 0, begun := false, moving := false, finished := false, hold := [] }

/-- Whether a job's descriptor breaks a limit (R577, R578, R581). -/
def badDesc (kind : JobKind) (bs : List Byte) : Bool :=
  let f := fieldAt bs
  let lists := match kind with | .close _ => false | _ => true
  let slots := match kind with | .declare => true | .undeclare => true | _ => false
  f 0x0E 2 != 0 || f 0x18 40 != 0 || f 0x10 8 % 4 != 0 || (lists && (f 0 8 % 8 != 0 || decide (2 ^ 24 < f 8 4)))
    || (slots && decide (15 < f 0x0C 1))

/-- The job that a descriptor asks for. -/
def Ctx.jobOf (x : Ctx) (kind : JobKind) (bs : List Byte) : Job :=
  let f := fieldAt bs
  x.job kind (BitVec.ofNat 64 (f 0 8)) (f 8 4) (f 0x0C 1) (f 0x0D 1) (BitVec.ofNat 64 (f 0x10 8))

/-- TSWAP and TWREC (R577, R578, R581): the descriptor is read as the job starts. -/
def tierJobSem (kind : JobKind) (p : Pred) (d a b : Opnd) : Sem := qctl p fun s x =>
  let va := x.v.base a
  if va.toNat % 64 != 0 then s.answer x p d 1
  else
    directLoad x.v.part.ring false 2 va 64 (x.v.act p) (fun s x bs => s.startJob x p d b (badDesc kind bs) (x.jobOf kind bs)) s x

/-- HALTC (R571, R577, R582): its completion word is an operand address, translated here (R576). -/
def haltcSem (stop : Bool) (p : Pred) (d a b : Opnd) : Sem := qctl p fun s x =>
  let va := x.v.base a
  if va.toNat % 4 != 0 then s.answer x p d 1
  else
    let r := State.checkElems x .glob howLoad.own (directElems x va 4) s
    if s.lost r.2 x.r then .placed r.2
    else if r.1.wait then .stall r.2 .load
    else
      match faultOf true (x.v.act p) r.1.bad with
      | some (c, lanes, ad, i, z) => .trap r.2 c lanes ad i z
      | none => r.2.startJob (r.2.fresh x) p d b false (x.job (.halt stop) 0 0 0 0 va)

/-- RESUMEC (R583). -/
def resumecSem (p : Pred) (d b : Opnd) : Sem := qctl p fun s x =>
  match s.tierTarget x b with
  | none => s.answer x p d 3
  | some t => let r := s.resumePart t; r.2.answer x p d r.1

/-! Pages -/

/-- The 64 KiB pages that overlap a range (R579, R580). -/
def pagesOf (va : DWord) (len : Nat) : List DWord :=
  if len = 0 then []
  else
    let lo := va.toNat / 65536
    (List.range ((va.toNat + len - 1) / 65536 - lo + 1)).map fun k => BitVec.ofNat 64 (65536 * (lo + k))

/-- The final-stage leaf of an address of a part (R545); at H, and in the boot context, there is none. -/
def State.partLeaf (s : State) (x : Ctx) (va : DWord) : Option Leaf :=
  if !canonical va || 2 ≤ x.v.part.ring.num then none
  else (s.partition? x.c.part).bind fun p => s.leafAt p x.c.gslot (va.toNat % 2 ^ 57)

/-- Whether an address stands at its physical place (R341, R603). -/
def State.isPhysical (s : State) (x : Ctx) : Bool := decide (2 ≤ x.v.part.ring.num) || (s.partition? x.c.part).isNone

/-- TRES (R580): units of a range that are resident in tier 0; no access. -/
def State.countUnits (s : State) (x : Ctx) (va : DWord) (len : Nat) : Nat :=
  ((pagesOf va len).filter fun a =>
    if s.isPhysical x then decide (a.toNat < hbmEnd)
    else (s.partLeaf x a).any s.resident0).length

def tresSem (p : Pred) (d a b : Opnd) : Sem := fun s x =>
  if !x.v.acts p then .fall s true
  else s.answer x p d (s.countUnits x (x.v.base a) (x.v.uni b).toNat)

/-- TRES .stage (R560, R580). -/
def State.stageFigure (s : State) (part slot stage : Nat) : Nat :=
  match s.graph? part slot with
  | none => 0xFFFFFFFF
  | some g =>
    if !g.bound then 0xFFFFFFFF
    else
      match assocGet g.stages stage with
      | none => 0xFFFFFFFF
      | some t => match t.listed with
        | some (e :: l) => 100 * t.resident / (e :: l).length
        | _ => 100

def tresStageSem (p : Pred) (d b c : Opnd) : Sem := fun s x =>
  if !x.v.acts p then .fall s true
  else s.answer x p d (s.stageFigure x.c.part (x.v.uni c).toNat (x.v.uni b).toNat)

/-- A pin count changed (R579); false where it cannot be. -/
def State.pinPage (s : State) (part leaf : Nat) (up : Bool) : Bool × State :=
  let put := fun (s : State) (n : Nat) =>
    let rest := s.tier.pins.filter fun q => !(q.part == part && q.leaf == leaf)
    ({ s with tier := { s.tier with pins := if n = 0 then rest else ⟨part, leaf, n⟩ :: rest } } : State)
  let n := s.pinned part leaf
  if up then
    if 255 ≤ n ∨ (n = 0 ∧ 4096 ≤ (s.tier.pins.filter fun q => q.part == part).length) then (false, s) else (true, put s (n + 1))
  else if n = 0 then (false, s) else (true, put s (n - 1))

/-- One page of TPIN or TUNPIN (R579): translated as a load would, without faults. Larger pages need no entry. -/
def State.pinOne (x : Ctx) (up : Bool) (acc : Nat × State) (va : DWord) : Nat × State :=
  let (bad, s) := acc
  if !canonical va || s.isPhysical x then (bad + 1, s)
  else
    let r := s.translate x.c.core x.c.part x.c.gslot x.v.part.ring .load false va
    match r.1, r.2.partLeaf x va with
    | .ok _, some l =>
      if !r.2.resident0 l then (bad + 1, r.2)
      else if l.level ≠ 3 then (bad, r.2)
      else
        let k := r.2.pinPage x.c.part l.addr up
        (if k.1 then bad else bad + 1, k.2)
    | _, _ => (bad + 1, r.2)

/-- TPIN and TUNPIN (R579). -/
def pinSem (up : Bool) (p : Pred) (d a b : Opnd) : Sem := fun s x =>
  if !x.v.acts p then .fall s true
  else
    let r := (pagesOf (x.v.base a) (x.v.uni b).toNat).foldl (State.pinOne x up) (0, s)
    if s.lost r.2 x.r then .placed r.2 else r.2.answer x p d r.1

end Sys2Proof.Machine
end

