-- ==== Sys2Proof/Machine/SeqEvents.lean ====
section
/-!
DEFINITION. The steps of the sequencer, the store buffer and the atomic engine that no instruction makes (R101, R110, R126, R141, R142,
R155, R273, R278, R283, R308, R318, R322, R355, R357).
-/
namespace Sys2Proof.Machine

/-! Commit -/

/-- What follows the commit of a part's run: its next closed run, its trap, its split, its merge. -/
def State.afterCommit (s : State) (pid : Nat) : State :=
  match s.partNo? pid with
  | none => s
  | some (r, p) =>
    let s := if (p.runs.head?.any fun x => x.closed) then s.due [.runCommit r] else s
    let s := if p.trap.isSome then s.due [.trapEntry r] else s
    match p.wait with
    | .split _ _ _ => s.due [.partSplit r]
    | .regang _ _ => s.due [.regangMerge r.cohort r.gang]
    | _ => s

/-- RUN_COMMIT (R101, R102): the oldest run of a part commits once it may. -/
def State.tryCommit (s : State) (r : PartRef) : State :=
  match s.part? r with
  | none => s
  | some p =>
    match p.runs with
    | [] => s.afterCommit p.id
    | run :: _ => if s.canCommit p run then (s.commitRun r).afterCommit p.id else s

/-- A run goes on without logging (R110): what it has done is performed, its commands pass, and it logs nothing more. -/
def State.unlog (s : State) (r : PartRef) (p : Part) (run : Run) : State :=
  let s := ((s.made [run.id]).drainAll p.id).passCmds r.cohort r.gang run.cmds
  let free := fun (x : Run) => if x.id = run.id then { x with noLog := true, undo := [], reads := [], spill := [], cmds := [] } else x
  s.modPart r fun p => { p with wait := .none, runs := p.runs.map free }

/-- CONTINUE_WITHOUT_LOGGING (R110): once every access of the part's only run is performed. -/
def State.goUnlogged (s : State) (r : PartRef) : State :=
  match s.part? r with
  | none => s
  | some p =>
    match p.runs with
    | [run] =>
      if p.wait == .room && !run.noLog && s.stores.all fun e => e.run != run.id || e.owned then s.unlog r p run else s
    | _ => s

/-! Splits and merges -/

/-- The quads `v` of a part become a part of their own at `t` (R126): both have the s registers that the part had, above ring
U too (R342). -/
def State.splitPart (s : State) (r : PartRef) (p : Part) (v : QMask) (t h : DWord) : State :=
  let q := v &&& p.quads
  let new := { p with
    id := s.nextId, quads := q, pc := t, header := h, wait := .none, xw := vof 8 fun _ => 0, trap := none, pend := none }
  let old := { p with quads := p.quads &&& ~~~q, wait := .none, xw := vof 8 fun _ => 0 }
  let ps := if q = 0 then [old] else if old.quads = 0 then [{ new with id := p.id }] else [old, new]
  ({ s with nextId := s.nextId + 1 } : State).modGang r.cohort r.gang fun g =>
    { (if ps.length ≤ 1 then g.replace [p] ps else (g.replace [p] ps).spread p.ring p.quads) with latch := none }

/-- PART_SPLIT (R126): quads that have finished meanwhile take no part in it. -/
def State.split (s : State) (r : PartRef) : State :=
  match s.part? r with
  | none => s
  | some p =>
    match p.wait, p.runs with
    | .split v t h, [] => s.splitPart r p v t h
    | _, _ => s

/-- The group that a waiting part merges in (R155, R357): the fewest parts that hold every unfinished quad named; none while one
of them does not wait with it. Parts that hold no open frame, which only the boot context has above ring U, do not differ in frame
(DEDUCED, log 86). -/
def Gang.group (g : Gang) : (fuel : Nat) → List Part → Option (List Part)
  | 0, _ => none
  | n + 1, ps =>
    match ps with
    | [] => none
    | p :: _ =>
      let want := ps.foldl (fun m x => m ||| (match x.wait with | .regang k _ => k | _ => 0)) (0 : QMask) &&& g.live
      let have_ := quadsOf ps
      let missing := want &&& ~~~have_
      if missing = 0 then some ps
      else
        match g.partOf? (lowQuad missing) with
        | none => none
        | some x =>
          let slot := fun (y : Part) => (g.bank y.ring).openSlot (lowQuad y.quads)
          let with_ := (match x.wait with | .regang _ _ => true | _ => false) && x.runs.isEmpty && x.pc == p.pc && x.ring == p.ring &&
            (p.ring == .U || slot x == slot p)
          if with_ then Gang.group g n (ps ++ [x]) else none

/-- The group of one part of a gang merges, if it is complete (R155). -/
def Gang.mergeOne (g : Gang) (i : Nat) : Gang :=
  match g.partId? i with
  | none => g
  | some p =>
    match p.wait, p.runs with
    | .regang _ next, [] =>
      (match g.group 9 [p] with
      | none => g
      | some ps =>
        match mergeParts (sortParts ps) with
        | none => g
        | some m => g.mergeInto ps { m with pc := next })
    | _, _ => g

/-- REGANG_MERGE (R155, R357): every group that is complete merges and goes on. -/
def State.merge (s : State) (co gi : Nat) : State :=
  match s.gang? co gi with
  | none => s
  | some g0 => s.modGang co gi fun g => (g0.parts.map fun p => p.id).foldl Gang.mergeOne g

/-! Claims -/

/-- CLAIM_GRANT (R141, R551, R565): the claims of a sub-core are served in order of arrival. -/
def State.grantClaims (core sub : Nat) : List Claim → State → State
  | [], s => s
  | c :: t, s =>
    let part := (s.cohort? c.cohort).elim 0 (·.part)
    if s.unitsAvailable part core sub < c.n then s
    else
      match s.takeUnits part core sub c.n with
      | none => s
      | some (us, s) =>
        let set_ := fun (d : Claim) => if d.part = c.part then { d with granted := true, pool := us } else d
        State.grantClaims core sub t { s with claims := s.claims.map set_ }

def State.claimGrants (s : State) (core sub : Nat) : State :=
  State.grantClaims core sub (s.claims.filter fun c => c.core == core && c.sub == sub && !c.granted) s

/-- A gang that is blocked in a claim (R142): a part waits in RCLAIM for units, and each other part waits at RCLAIM, its own
claim granted or not, at REGANG or at BAR. -/
def State.blockedGang (s : State) (g : Gang) : Bool :=
  let claims := fun (p : Part) => s.claims.any fun c => c.part == p.id
  (g.parts.any fun p => s.claims.any fun c => c.part == p.id && !c.granted) && g.parts.all fun p =>
    claims p || (match p.wait with | .regang _ _ => true | .bar _ _ _ => true | _ => false)

/-- A claim that can never be granted traps (R142, R353). -/
def State.failClaim (t : State) (k : Claim) : State :=
  let t := { t with claims := t.claims.filter fun d => d.part != k.part }
  match t.partNo? k.part with
  | none => t
  | some (r, p) => t.raise r ⟨0x18, p.act ⟨0, false⟩, 0, BitVec.ofNat 32 k.n, false, p.pc, 0, p.pc, .here⟩

/-- CLAIM_DEADLOCK (R142, R353, R551): of its share, all that the cohort's own gangs do not hold and that is not set aside
for them is free or held by others. -/
def State.claimDead (s : State) (co : Nat) : State :=
  match s.cohort? co with
  | none => s
  | some c =>
    let mine := s.claims.filter fun k => k.cohort == co && !k.granted
    let held := fun (sub : Nat) => s.unitsTaken c.core sub fun d => d.id == co
    let short := mine.all fun k => decide (min 256 (s.unitShare c.part) - held k.sub < k.n)
    let live := c.gangs.filter fun g => g.live != 0
    if mine ≠ [] ∧ live.all s.blockedGang ∧ short ∧ c.halted = false then
      mine.foldl State.failClaim s
    else s

/-! The store buffer -/

/-- OWNERSHIP_REQUEST (R105, R283, R318): the request waits for committed entries; it takes the line from uncommitted ones. -/
def State.askOwner (s : State) (id : Nat) : State :=
  match s.stores.find? fun e => e.id == id with
  | none => s
  | some e =>
    if e.owned || s.blocked e.line e.asks (some e.part) then s
    else (s.strike e.line e.asks (some e.part)).due [.ownershipGrant id]

/-- OWNERSHIP_GRANT (R101, R283). -/
def State.grantOwner (s : State) (id : Nat) : State :=
  match s.stores.find? fun e => e.id == id with
  | none => s
  | some e =>
    if e.owned then s
    else if s.blocked e.line e.asks (some e.part) then s
    else
      let s := s.strike e.line e.asks (some e.part)
      let own := fun (x : StoreEntry) => if x.id = id then { x with owned := true } else x
      let s := { s with stores := s.stores.map own }
      match s.partNo? e.part with
      | some (r, _) => s.due [.runCommit r]
      | none => s

/-- STORE_BUFFER_DRAIN (R282, R283, R318, R355): a committed entry, after those that its part committed before it. -/
def State.drainNext (s : State) (id : Nat) : State :=
  match s.stores.find? fun e => e.id == id && e.committed with
  | none => s
  | some e =>
    let older := (s.entriesOf e.part).takeWhile fun x => x.id != id
    let s := ((older.filter fun x => x.committed) ++ [e]).foldl State.drainEntry s
    match s.partNo? e.part with
    | some (r, p) => if p.trap.isSome then s.due [.trapEntry r] else s
    | none => s

/-! Walks and replies -/

/-- PAGE_WALK (R273). -/
def State.walkOne (s : State) (sec : Nat) : State :=
  let s := s.walkNext sec
  if (s.nextWalk sec).isSome then s.due [.pageWalk sec] else s

/-- An atomic request executes at its home slice (R308, R309): it is the next of its part, and its line waits for nothing. A draining
reduction (R318). -/
def State.atomicOne (s : State) (id : Nat) : State :=
  match s.req? id with
  | none => s.drainNext id
  | some q =>
    let first := ((s.partReqs q.part).find? fun x => x.ans.isNone).any fun x => x.id == id
    if q.sent || !first || q.peer.isSome || q.io then s
    else
      let s := s.issueReq q
      if ((s.req? id).bind (·.ans)).isSome then s.due [.atomicReply id] else s

/-- Where a core's router stands (R13). -/
def corePlace (n : Nat) : Nat × Nat :=
  let d := n / 48
  let t := n / 4 % 12
  (8 * (d % 2) + 2 * (t % 4) + n % 2, 6 * (d / 2) + 2 * (t / 4) + n % 4 / 2)

/-- The input port of a slice's router at which a core's request arrives (R21, R321): it has gone along x first, then along y. -/
def inputPort (core slice : Nat) : Nat :=
  let a := corePlace core
  let b := corePlace slice
  if a.2 < b.2 then 3 else if b.2 < a.2 then 4 else if a.1 < b.1 then 1 else if b.1 < a.1 then 2 else 0

/-- The core that an atomic request or a draining reduction comes from, and its address. -/
def State.atomFrom (s : State) (id : Nat) : Nat × Nat :=
  match s.req? id with
  | some q => ((s.cohort? q.cohort).elim 0 (·.core), q.addr)
  | none => ((s.stores.find? fun e => e.id == id).map fun e => (e.core, 64 * e.line)).getD (0, 0)

/-- A combined request's constituents in their order (R321): by input port of the slice's router and, within one port, as
they arrived. -/
def State.combined (s : State) (qs : List Nat) : List Nat :=
  if s.mayCombine qs then
    (List.range 5).flatMap fun k => qs.filter fun id => let a := s.atomFrom id; inputPort a.1 (s.homeSlice a.2) == k
  else qs

/-- HOME_SLICE_ATOMIC (R308, R321, R322): single or combined requests in their order; requests that may not be combined are performed
one after another. -/
def State.homeAtomics (s : State) (qs : List Nat) : State := (s.combined qs).foldl State.atomicOne s

/-- ATOMIC_REPLY (R322). -/
def State.atomicBack (s : State) (id : Nat) : State :=
  match (s.req? id).bind fun q => s.partNo? q.part with
  | some (r, _) => s.answered r
  | none => s

end Sys2Proof.Machine
end

