-- ==== Sys2Proof/Machine/EvSeq.lean ====
section
/-!
DEFINITION. The meanings of the steps of the sequencer, the lane units and the home slices (chapters 03, 04, 08, 09, 10 of spec/).
-/
namespace Sys2Proof.Machine

/-- RUN_COMMIT (R101). -/
def execRunCommit (r : PartRef) (s : State) : Out := event (fun s => s.tryCommit r) s

/-- CONTINUE_WITHOUT_LOGGING (R110). -/
def execContinueWithoutLogging (r : PartRef) (s : State) : Out := event (fun s => s.goUnlogged r) s

/-- PART_SPLIT (R126). -/
def execPartSplit (r : PartRef) (s : State) : Out := event (fun s => s.split r) s

/-- REGANG_MERGE (R155). -/
def execRegangMerge (co : Nat) (g : Nat) (s : State) : Out := event (fun s => s.merge co g) s

/-- CLAIM_GRANT (R141). -/
def execClaimGrant (core : Nat) (sub : Nat) (s : State) : Out := event (fun s => s.claimGrants core sub) s

/-- CLAIM_DEADLOCK (R142). -/
def execClaimDeadlock (co : Nat) (s : State) : Out := event (fun s => s.claimDead co) s

/-- TRAP_ENTRY (R355). -/
def execTrapEntry (r : PartRef) (s : State) : Out := event (fun s => s.tryTrap r) s

/-- OWNERSHIP_REQUEST (R283). -/
def execOwnershipRequest (e : Nat) (s : State) : Out := event (fun s => s.askOwner e) s

/-- OWNERSHIP_GRANT (R283). -/
def execOwnershipGrant (e : Nat) (s : State) : Out := event (fun s => s.grantOwner e) s

/-- STORE_BUFFER_DRAIN (R283). -/
def execStoreBufferDrain (e : Nat) (s : State) : Out := event (fun s => s.drainNext e) s

/-- PAGE_WALK (R273). -/
def execPageWalk (sec : Nat) (s : State) : Out := event (fun s => s.walkOne sec) s

/-- LOAD_REPLY (R278). -/
def execLoadReply (r : PartRef) (s : State) : Out := event (fun s => s.answered r) s

/-- HOME_SLICE_ATOMIC (R308). -/
def execHomeSliceAtomic (qs : List Nat) (s : State) : Out := event (fun s => s.homeAtomics qs) s

/-- ATOMIC_REPLY (R322). -/
def execAtomicReply (q : Nat) (s : State) : Out := event (fun s => s.atomicBack q) s

/-- REMOTE_REQUEST_INGRESS (R511). -/
def execRemoteRequestIngress (q : PeerReq) (s : State) : Out := event (fun s => s.ingress q) s

/-- REMOTE_REPLY (R94). -/
def execRemoteReply (q : Nat) (rep : RemoteRep) (s : State) : Out := event (fun s => s.remoteAnswer q rep) s

/-- REMOTE_TIMEOUT (R512). -/
def execRemoteTimeout (q : Nat) (s : State) : Out := event (fun s => s.remoteLate q) s

/-- IO_COMPLETION (R604). -/
def execIoCompletion (q : Nat) (c : IoResult) (s : State) : Out := event (fun s => s.ioAnswer q c) s

/-- IO_TIMEOUT (R604). -/
def execIoTimeout (q : Nat) (s : State) : Out := event (fun s => s.ioLate q) s

end Sys2Proof.Machine
end

