-- ==== Sys2Proof/Machine/EvStage.lean ====
section
/-!
DEFINITION. The meanings of the steps of the stage engine (chapter 13 of spec/).
-/
namespace Sys2Proof.Machine

/-- QUEUE_ENQUEUE (R462). -/
def execQueueEnqueue (op : Nat) (s : State) : Out := event (fun s => s.enqueueNext op) s

/-- ENQUEUE_ROOM_RESUME (R462). -/
def execEnqueueRoomResume (q : QKey) (s : State) : Out := event (fun s => s.roomResume q) s

/-- REFILL_START (R463). -/
def execRefillStart (q : QKey) (s : State) : Out := event (fun s => s.refillStart q) s

/-- REFILL_COMPLETE (R463). -/
def execRefillComplete (q : QKey) (s : State) : Out := event (fun s => s.refillComplete q) s

/-- QUEUE_DEQUEUE (R464). -/
def execQueueDequeue (q : QKey) (s : State) : Out := event (fun s => s.dequeue q) s

/-- QPOP_WAIT_SERVE (R482). -/
def execQpopWaitServe (q : QKey) (s : State) : Out := event (fun s => s.servePops q) s

/-- SUMMARY_PUBLISH (R467). -/
def execSummaryPublish (s : State) : Out := event (fun s => s.publish) s

/-- SUMMARY_ENTRY_ARRIVE (R467). -/
def execSummaryEntryArrive (dst : SumDst) (q : QKey) (len : Nat) (aged : Bool) (s : State) : Out := event (fun s => s.summaryArrive dst q len aged) s

/-- LAUNCH_DECISION (R472). -/
def execLaunchDecision (core : Nat) (s : State) : Out := event (fun s => s.launchDecide core) s

/-- LAUNCH_DELIVERY (R473). -/
def execLaunchDelivery (core : Nat) (s : State) : Out := event (fun s => s.launchDeliver core) s

end Sys2Proof.Machine
end

