-- ==== Sys2Proof/Machine/EvTier.lean ====
section
/-!
DEFINITION. The meanings of the steps of the tier engine and of tenancy (chapter 15 of spec/).
-/
namespace Sys2Proof.Machine

/-- TIER_PAGE_MOVE (R557). -/
def execTierPageMove (part : Nat) (s : State) : Out := event (fun s => s.pageMove part) s

/-- TIER_MOVE_COMPLETE (R557). -/
def execTierMoveComplete (mv : Nat) (s : State) : Out := event (fun s => s.moveDone mv) s

/-- LOG_CLOSE (R555). -/
def execLogClose (part : Nat) (s : State) : Out := event (fun s => s.logStep part) s

/-- TIER_JOB_COMPLETE (R577). -/
def execTierJobComplete (part : Nat) (s : State) : Out := event (fun s => s.jobDone part) s

/-- SLICE_EXPIRY (R561). -/
def execSliceExpiry (part : Nat) (s : State) : Out := event (fun s => s.sliceEnds part) s

/-- HALT_COMPLETE (R561). -/
def execHaltComplete (part : Nat) (s : State) : Out := event (fun s => s.haltPoll part) s

/-- HALT_DEADLINE_KILL (R567). -/
def execHaltDeadlineKill (part : Nat) (s : State) : Out := event (fun s => s.haltKill part) s

/-- HALT_DEADLINE_RESET (R567). -/
def execHaltDeadlineReset (part : Nat) (s : State) : Out := event (fun s => s.haltReset part) s

/-- CCTL_CREATE (R547). -/
def execCctlCreate (part : Nat) (s : State) : Out := event (fun s => s.cctlCreate part) s

/-- CCTL_DESTROY (R573). -/
def execCctlDestroy (part : Nat) (s : State) : Out := event (fun s => s.cctlOn part State.destroyPart) s

/-- CCTL_RESET (R573). -/
def execCctlReset (part : Nat) (s : State) : Out := event (fun s => s.cctlOn part State.resetPart) s

/-- HPCTL_CREATE (R547). -/
def execHpctlCreate (s : State) : Out := event (fun s => s.hpctlCreate) s

/-- HPCTL_DESTROY (R573). -/
def execHpctlDestroy (s : State) : Out := event (fun s => s.hpctlOn State.destroyPart) s

/-- HPCTL_RESET (R573). -/
def execHpctlReset (s : State) : Out := event (fun s => s.hpctlOn State.resetPart) s

/-- LEND_SECTION (R552). -/
def execLendSection (part : Nat) (sec : Nat) (borrower : Nat) (s : State) : Out := event (fun s => s.lendSection part sec borrower) s

/-- RECLAIM_SECTION (R552). -/
def execReclaimSection (part : Nat) (sec : Nat) (s : State) : Out := event (fun s => s.reclaimSection part sec) s

/-- BORROWER_SPILL (R552). -/
def execBorrowerSpill (co : Nat) (s : State) : Out := event (fun s => s.spillWhole co) s

end Sys2Proof.Machine
end

