-- ==== Sys2Proof/Machine/Fabric.lean ====
section
/-!
DEFINITION. The FABRIC instructions (R527 to R533).
-/
namespace Sys2Proof.Machine

/-- FSTAT_PORT (R530). -/
def execFstatPort (p : Pred) (d a : Opnd) (s : State) : Out :=
  issue ⟨p, 2, 0, [(d, 1)], [], .plain, .none⟩ 0
    (fstatSem p 0 d a) s

/-- FSTAT_ROUTE (R530). -/
def execFstatRoute (p : Pred) (d a : Opnd) (s : State) : Out :=
  issue ⟨p, 2, 0, [(d, 1)], [], .plain, .none⟩ 0
    (fstatSem p 1 d a) s

/-- FSTAT_MIRROR (R530). -/
def execFstatMirror (p : Pred) (d a : Opnd) (s : State) : Out :=
  issue ⟨p, 2, 0, [(d, 1)], [], .plain, .none⟩ 0
    (fstatSem p 2 d a) s

/-- FSTAT_TOKENS (R530). -/
def execFstatTokens (p : Pred) (d a : Opnd) (s : State) : Out :=
  issue ⟨p, 2, 0, [(d, 1)], [], .plain, .none⟩ 0
    (fstatSem p 3 d a) s

/-- FSTAT_RTO (R530). -/
def execFstatRto (p : Pred) (d a : Opnd) (s : State) : Out :=
  issue ⟨p, 2, 0, [(d, 1)], [], .plain, .none⟩ 0
    (fstatSem p 4 d a) s

/-- FCLR (R531). -/
def execFclr (p : Pred) (psn : Bool) (d : Opnd) (s : State) : Out :=
  issue ⟨p, 2, 0, [(d, 1)], [], .irrevocable, .none⟩ 0
    (fclrSem p psn d) s

/-- FTOK (R532). -/
def execFtok (fld : Fin 5) (rd : Bool) (d a b c : Opnd) (s : State) : Out :=
  issue ⟨⟨0, false⟩, 2, 2, [(d, 1)], [], .irrevocable, .none⟩ 0
    (ftokSem fld.val rd d a b c) s

/-- FLINK_PORT (R533). -/
def execFlinkPort (d a b c : Opnd) (s : State) : Out :=
  issue ⟨⟨0, false⟩, 2, 2, [(d, 1)], [], .irrevocable, .none⟩ 0
    (flinkPortSem d b c) s

/-- FLINK_ROUTE (R533). -/
def execFlinkRoute (d a b c : Opnd) (s : State) : Out :=
  issue ⟨⟨0, false⟩, 2, 2, [(d, 1)], [], .irrevocable, .none⟩ 0
    (flinkRouteSem d b c) s

/-- FLINK_KEY (R504). -/
def execFlinkKey (d a b c : Opnd) (s : State) : Out :=
  issue ⟨⟨0, false⟩, 2, 2, [(d, 1)], [], .irrevocable, .none⟩ 0
    (flinkKeySem d a b c) s

/-- FLINK_MIRROR (R520). -/
def execFlinkMirror (d a b c : Opnd) (s : State) : Out :=
  issue ⟨⟨0, false⟩, 2, 2, [(d, 1)], [], .irrevocable, .none⟩ 0
    (flinkMirrorSem d a b) s

/-- FLINK_UNMIRROR (R533). -/
def execFlinkUnmirror (d a b c : Opnd) (s : State) : Out :=
  issue ⟨⟨0, false⟩, 2, 2, [(d, 1)], [], .irrevocable, .none⟩ 0
    (flinkUnmirrorSem d b) s

/-- FLINK_GRANT (R513). -/
def execFlinkGrant (d a b c : Opnd) (s : State) : Out :=
  issue ⟨⟨0, false⟩, 2, 2, [(d, 1)], [], .irrevocable, .none⟩ 0
    (flinkGrantSem d a b) s

/-- FLINK_REVOKE (R533). -/
def execFlinkRevoke (d a b c : Opnd) (s : State) : Out :=
  issue ⟨⟨0, false⟩, 2, 2, [(d, 1)], [], .irrevocable, .none⟩ 0
    (flinkRevokeSem d b) s

/-- FLINK_SETID (R533). -/
def execFlinkSetid (d a b c : Opnd) (s : State) : Out :=
  issue ⟨⟨0, false⟩, 2, 2, [(d, 1)], [], .irrevocable, .none⟩ 0
    (flinkSetidSem d c) s

end Sys2Proof.Machine
end

