-- ==== Sys2Proof/Machine/Farith.lean ====
section
/-!
DEFINITION. The FARITH instructions (R219 to R225).
-/
namespace Sys2Proof.Machine

/-- FADD_L (R219). -/
def execFaddL (p : Pred) (t : TypeCode) (rnd : Rnd) (d a b : Opnd) (s : State) : Out :=
  issue ⟨p, 2, 0, [(d, 1), (a, 1), (b, 1)], [(a, 1), (b, 1)], .plain, .none⟩ 0
    (onView (farith2 .add p rnd d a b)) s

/-- FADD_X (R219). -/
def execFaddX (p : Pred) (t : TypeCode) (rnd : Rnd) (d a b : Opnd) (imm : Word) (s : State) : Out :=
  issue ⟨p, 3, 0, [(d, 1), (a, 1), (b, 1)], [(a, 1), (b, 1)], .plain, .none⟩ imm
    (onView (farith2 .add p rnd d a b)) s

/-- FSUB_L (R219). -/
def execFsubL (p : Pred) (t : TypeCode) (rnd : Rnd) (d a b : Opnd) (s : State) : Out :=
  issue ⟨p, 2, 0, [(d, 1), (a, 1), (b, 1)], [(a, 1), (b, 1)], .plain, .none⟩ 0
    (onView (farith2 .sub p rnd d a b)) s

/-- FSUB_X (R219). -/
def execFsubX (p : Pred) (t : TypeCode) (rnd : Rnd) (d a b : Opnd) (imm : Word) (s : State) : Out :=
  issue ⟨p, 3, 0, [(d, 1), (a, 1), (b, 1)], [(a, 1), (b, 1)], .plain, .none⟩ imm
    (onView (farith2 .sub p rnd d a b)) s

/-- FMUL_L (R219). -/
def execFmulL (p : Pred) (t : TypeCode) (rnd : Rnd) (d a b : Opnd) (s : State) : Out :=
  issue ⟨p, 2, 0, [(d, 1), (a, 1), (b, 1)], [(a, 1), (b, 1)], .plain, .none⟩ 0
    (onView (farith2 .mul p rnd d a b)) s

/-- FMUL_X (R219). -/
def execFmulX (p : Pred) (t : TypeCode) (rnd : Rnd) (d a b : Opnd) (imm : Word) (s : State) : Out :=
  issue ⟨p, 3, 0, [(d, 1), (a, 1), (b, 1)], [(a, 1), (b, 1)], .plain, .none⟩ imm
    (onView (farith2 .mul p rnd d a b)) s

/-- FFMA_L (R219). -/
def execFfmaL (p : Pred) (t : TypeCode) (rnd : Rnd) (d a b c : Opnd) (s : State) : Out :=
  issue ⟨p, 2, 0, [(d, 1), (a, 1), (b, 1), (c, 1)], [(a, 1), (b, 1), (c, 1)], .plain, .none⟩ 0
    (onView (farith3 p rnd d a b c)) s

/-- FFMA_X (R219). -/
def execFfmaX (p : Pred) (t : TypeCode) (rnd : Rnd) (d a b c : Opnd) (imm : Word) (s : State) : Out :=
  issue ⟨p, 3, 0, [(d, 1), (a, 1), (b, 1), (c, 1)], [(a, 1), (b, 1), (c, 1)], .plain, .none⟩ imm
    (onView (farith3 p rnd d a b c)) s

/-- FMIN_L (R220). -/
def execFminL (p : Pred) (t : TypeCode) (d a b : Opnd) (s : State) : Out :=
  issue ⟨p, 2, 0, [(d, 1), (a, 1), (b, 1)], [(a, 1), (b, 1)], .plain, .none⟩ 0
    (onView (f2 p d a b fun m x y => fminmax false (ftzOf m) x y)) s

/-- FMIN_X (R220). -/
def execFminX (p : Pred) (t : TypeCode) (d a b : Opnd) (imm : Word) (s : State) : Out :=
  issue ⟨p, 3, 0, [(d, 1), (a, 1), (b, 1)], [(a, 1), (b, 1)], .plain, .none⟩ imm
    (onView (f2 p d a b fun m x y => fminmax false (ftzOf m) x y)) s

/-- FMAX_L (R220). -/
def execFmaxL (p : Pred) (t : TypeCode) (d a b : Opnd) (s : State) : Out :=
  issue ⟨p, 2, 0, [(d, 1), (a, 1), (b, 1)], [(a, 1), (b, 1)], .plain, .none⟩ 0
    (onView (f2 p d a b fun m x y => fminmax true (ftzOf m) x y)) s

/-- FMAX_X (R220). -/
def execFmaxX (p : Pred) (t : TypeCode) (d a b : Opnd) (imm : Word) (s : State) : Out :=
  issue ⟨p, 3, 0, [(d, 1), (a, 1), (b, 1)], [(a, 1), (b, 1)], .plain, .none⟩ imm
    (onView (f2 p d a b fun m x y => fminmax true (ftzOf m) x y)) s

/-- FABS_L (R221). -/
def execFabsL (p : Pred) (t : TypeCode) (d a : Opnd) (s : State) : Out :=
  issue ⟨p, 2, 0, [(d, 1), (a, 1)], [(a, 1)], .plain, .none⟩ 0
    (onView (w1 p d a fun x => x &&& 0x7FFFFFFF)) s

/-- FABS_X (R221). -/
def execFabsX (p : Pred) (t : TypeCode) (d a : Opnd) (imm : Word) (s : State) : Out :=
  issue ⟨p, 3, 0, [(d, 1), (a, 1)], [(a, 1)], .plain, .none⟩ imm
    (onView (w1 p d a fun x => x &&& 0x7FFFFFFF)) s

/-- FNEG_L (R221). -/
def execFnegL (p : Pred) (t : TypeCode) (d a : Opnd) (s : State) : Out :=
  issue ⟨p, 2, 0, [(d, 1), (a, 1)], [(a, 1)], .plain, .none⟩ 0
    (onView (w1 p d a fun x => x ^^^ 0x80000000)) s

/-- FNEG_X (R221). -/
def execFnegX (p : Pred) (t : TypeCode) (d a : Opnd) (imm : Word) (s : State) : Out :=
  issue ⟨p, 3, 0, [(d, 1), (a, 1)], [(a, 1)], .plain, .none⟩ imm
    (onView (w1 p d a fun x => x ^^^ 0x80000000)) s

/-- FCMP_L (R222). -/
def execFcmpL (p : Pred) (t : TypeCode) (cond : FCond) (comb : Comb) (d a b : Opnd) (s : State) : Out :=
  issue ⟨p, 2, 0, [(a, 1), (b, 1)], [(a, 1), (b, 1)], .plain, .none⟩ 0
    (onView (fcmpOp p cond comb d a b)) s

/-- FCMP_X (R222). -/
def execFcmpX (p : Pred) (t : TypeCode) (cond : FCond) (comb : Comb) (d a b : Opnd) (imm : Word) (s : State) : Out :=
  issue ⟨p, 3, 0, [(a, 1), (b, 1)], [(a, 1), (b, 1)], .plain, .none⟩ imm
    (onView (fcmpOp p cond comb d a b)) s

/-- FRND_L (R223). -/
def execFrndL (p : Pred) (t : TypeCode) (rnd : Rnd) (d a : Opnd) (s : State) : Out :=
  issue ⟨p, 2, 0, [(d, 1), (a, 1)], [(a, 1)], .plain, .none⟩ 0
    (onView (f1 p d a fun m x => frnd (modeOf m rnd) (ftzOf m) x)) s

/-- FRND_X (R223). -/
def execFrndX (p : Pred) (t : TypeCode) (rnd : Rnd) (d a : Opnd) (imm : Word) (s : State) : Out :=
  issue ⟨p, 3, 0, [(d, 1), (a, 1)], [(a, 1)], .plain, .none⟩ imm
    (onView (f1 p d a fun m x => frnd (modeOf m rnd) (ftzOf m) x)) s

/-- FCLASS_L (R224). -/
def execFclassL (p : Pred) (t : TypeCode) (d a : Opnd) (s : State) : Out :=
  issue ⟨p, 2, 0, [(d, 1), (a, 1)], [(a, 1)], .plain, .none⟩ 0
    (onView (w1 p d a fclass)) s

/-- FCLASS_X (R224). -/
def execFclassX (p : Pred) (t : TypeCode) (d a : Opnd) (imm : Word) (s : State) : Out :=
  issue ⟨p, 3, 0, [(d, 1), (a, 1)], [(a, 1)], .plain, .none⟩ imm
    (onView (w1 p d a fclass)) s

/-- FSCALE_L (R225). -/
def execFscaleL (p : Pred) (t : TypeCode) (rnd : Rnd) (d a b : Opnd) (s : State) : Out :=
  issue ⟨p, 2, 0, [(d, 1), (a, 1), (b, 1)], [(a, 1), (b, 1)], .plain, .none⟩ 0
    (onView (f2 p d a b fun m x y => fscale (modeOf m rnd) (ftzOf m) x y)) s

/-- FSCALE_X (R225). -/
def execFscaleX (p : Pred) (t : TypeCode) (rnd : Rnd) (d a b : Opnd) (imm : Word) (s : State) : Out :=
  issue ⟨p, 3, 0, [(d, 1), (a, 1), (b, 1)], [(a, 1), (b, 1)], .plain, .none⟩ imm
    (onView (f2 p d a b fun m x y => fscale (modeOf m rnd) (ftzOf m) x y)) s

end Sys2Proof.Machine
end

