-- ==== Sys2Proof/Machine/Fconv.lean ====
section
/-!
DEFINITION. The FCONV instructions (R229 to R234).
-/
namespace Sys2Proof.Machine

/-- CVT (R231). -/
def execCvt (p : Pred) (src : SrcCode) (t : TypeCode) (rnd : Rnd) (d a : Opnd) (s : State) : Out :=
  issue ⟨p, 2, 0, [(d, 1), (a, 1)], [(a, 1)], .plain, .none⟩ 0
    (onView (cvtOp p src t rnd d a)) s

/-- CVTP (R232). -/
def execCvtp (p : Pred) (src : SrcCode) (t : TypeCode) (rnd : Rnd) (d a b : Opnd) (slot : Fin 8) (s : State) : Out :=
  issue ⟨p, 2, 0, [(d, 1), (a, 1), (b, 1)], [(a, 1)] ++ (if (cvtpRow src.code t).any (·.2) then [(b, 1)] else []) ++ (if src == .f32 && !fmt16 t then [(d, 1)] else []), .plain, .none⟩ 0
    (onView (cvtpOp p src t rnd d a b slot.val)) s

/-- TAGGET (R233). -/
def execTagget (p : Pred) (d a : Opnd) (s : State) : Out :=
  issue ⟨p, 2, 0, [(d, 1), (a, 1)], [], .plain, .none⟩ 0
    (onView (taggetOp p d a)) s

/-- TAGSET (R234). -/
def execTagset (p : Pred) (d a : Opnd) (s : State) : Out :=
  issue ⟨p, 2, 0, [(d, 1)], [], .plain, .none⟩ 0
    (tagsetSem p d a) s

end Sys2Proof.Machine
end

