-- ==== Sys2Proof/Machine/Fpacked.lean ====
section
/-!
DEFINITION. The FPACKED instructions (R239, R240).
-/
namespace Sys2Proof.Machine

/-- HADD2_L (R239). -/
def execHadd2L (p : Pred) (t : TypeCode) (rnd : Rnd) (d a b : Opnd) (s : State) : Out :=
  issue ⟨p, 2, 0, [(d, 1), (a, 1), (b, 1)], [(a, 1), (b, 1)], .plain, .none⟩ 0
    (onView (packed2 .add p t rnd d a b .zero)) s

/-- HADD2_X (R239). -/
def execHadd2X (p : Pred) (t : TypeCode) (rnd : Rnd) (d a b : Opnd) (imm : Word) (s : State) : Out :=
  issue ⟨p, 3, 0, [(d, 1), (a, 1), (b, 1)], [(a, 1), (b, 1)], .plain, .none⟩ imm
    (onView (packed2 .add p t rnd d a b .zero)) s

/-- HMUL2_L (R239). -/
def execHmul2L (p : Pred) (t : TypeCode) (rnd : Rnd) (d a b : Opnd) (s : State) : Out :=
  issue ⟨p, 2, 0, [(d, 1), (a, 1), (b, 1)], [(a, 1), (b, 1)], .plain, .none⟩ 0
    (onView (packed2 .mul p t rnd d a b .zero)) s

/-- HMUL2_X (R239). -/
def execHmul2X (p : Pred) (t : TypeCode) (rnd : Rnd) (d a b : Opnd) (imm : Word) (s : State) : Out :=
  issue ⟨p, 3, 0, [(d, 1), (a, 1), (b, 1)], [(a, 1), (b, 1)], .plain, .none⟩ imm
    (onView (packed2 .mul p t rnd d a b .zero)) s

/-- HFMA2_L (R239). -/
def execHfma2L (p : Pred) (t : TypeCode) (rnd : Rnd) (d a b c : Opnd) (s : State) : Out :=
  issue ⟨p, 2, 0, [(d, 1), (a, 1), (b, 1), (c, 1)], [(a, 1), (b, 1), (c, 1)], .plain, .none⟩ 0
    (onView (packed2 .fma p t rnd d a b c)) s

/-- HFMA2_X (R239). -/
def execHfma2X (p : Pred) (t : TypeCode) (rnd : Rnd) (d a b c : Opnd) (imm : Word) (s : State) : Out :=
  issue ⟨p, 3, 0, [(d, 1), (a, 1), (b, 1), (c, 1)], [(a, 1), (b, 1), (c, 1)], .plain, .none⟩ imm
    (onView (packed2 .fma p t rnd d a b c)) s

/-- DOT4_L (R240). -/
def execDot4L (p : Pred) (t : TypeCode) (rnd : Rnd) (d a b c : Opnd) (s : State) : Out :=
  issue ⟨p, 2, 0, [(d, 1), (a, 1), (b, 1), (c, 1)], [(a, 1), (b, 1), (c, 1)], .plain, .none⟩ 0
    (onView (dotOp p 4 t rnd d a b c)) s

/-- DOT4_X (R240). -/
def execDot4X (p : Pred) (t : TypeCode) (rnd : Rnd) (d a b c : Opnd) (imm : Word) (s : State) : Out :=
  issue ⟨p, 3, 0, [(d, 1), (a, 1), (b, 1), (c, 1)], [(a, 1), (b, 1), (c, 1)], .plain, .none⟩ imm
    (onView (dotOp p 4 t rnd d a b c)) s

/-- DOT8_L (R240). -/
def execDot8L (p : Pred) (t : TypeCode) (rnd : Rnd) (d a b c : Opnd) (s : State) : Out :=
  issue ⟨p, 2, 0, [(d, 1), (a, 1), (b, 1), (c, 1)], [(a, 1), (b, 1), (c, 1)], .plain, .none⟩ 0
    (onView (dotOp p 8 t rnd d a b c)) s

/-- DOT8_X (R240). -/
def execDot8X (p : Pred) (t : TypeCode) (rnd : Rnd) (d a b c : Opnd) (imm : Word) (s : State) : Out :=
  issue ⟨p, 3, 0, [(d, 1), (a, 1), (b, 1), (c, 1)], [(a, 1), (b, 1), (c, 1)], .plain, .none⟩ imm
    (onView (dotOp p 8 t rnd d a b c)) s

end Sys2Proof.Machine
end

