-- ==== Sys2Proof/Machine/Fspec.lean ====
section
/-!
DEFINITION. The FSPEC instructions (R226 to R228).
-/
namespace Sys2Proof.Machine

/-- FRCP (R226). -/
def execFrcp (p : Pred) (t : TypeCode) (d a : Opnd) (s : State) : Out :=
  issue ⟨p, 2, 0, [(d, 1), (a, 1)], [(a, 1)], .plain, .none⟩ 0
    (onView (f1 p d a fun m x => Special.rcp.op (ftzOf m) x)) s

/-- FRSQ (R226). -/
def execFrsq (p : Pred) (t : TypeCode) (d a : Opnd) (s : State) : Out :=
  issue ⟨p, 2, 0, [(d, 1), (a, 1)], [(a, 1)], .plain, .none⟩ 0
    (onView (f1 p d a fun m x => Special.rsq.op (ftzOf m) x)) s

/-- FSQRT (R226). -/
def execFsqrt (p : Pred) (t : TypeCode) (rnd : Rnd) (d a : Opnd) (s : State) : Out :=
  issue ⟨p, 2, 0, [(d, 1), (a, 1)], [(a, 1)], .plain, .none⟩ 0
    (onView (f1 p d a fun m x => fsqrt (modeOf m rnd) (ftzOf m) x)) s

/-- FDIV (R226). -/
def execFdiv (p : Pred) (t : TypeCode) (rnd : Rnd) (d a b : Opnd) (s : State) : Out :=
  issue ⟨p, 2, 0, [(d, 1), (a, 1), (b, 1)], [(a, 1), (b, 1)], .plain, .none⟩ 0
    (onView (f2 p d a b fun m x y => fdiv (modeOf m rnd) (ftzOf m) x y)) s

/-- FEXP2 (R226). -/
def execFexp2 (p : Pred) (t : TypeCode) (d a : Opnd) (s : State) : Out :=
  issue ⟨p, 2, 0, [(d, 1), (a, 1)], [(a, 1)], .plain, .none⟩ 0
    (onView (f1 p d a fun m x => Special.exp2.op (ftzOf m) x)) s

/-- FLOG2 (R226). -/
def execFlog2 (p : Pred) (t : TypeCode) (d a : Opnd) (s : State) : Out :=
  issue ⟨p, 2, 0, [(d, 1), (a, 1)], [(a, 1)], .plain, .none⟩ 0
    (onView (f1 p d a fun m x => Special.log2.op (ftzOf m) x)) s

/-- FSIN (R226). -/
def execFsin (p : Pred) (t : TypeCode) (d a : Opnd) (s : State) : Out :=
  issue ⟨p, 2, 0, [(d, 1), (a, 1)], [(a, 1)], .plain, .none⟩ 0
    (onView (f1 p d a fun m x => Special.sin.op (ftzOf m) x)) s

/-- FCOS (R226). -/
def execFcos (p : Pred) (t : TypeCode) (d a : Opnd) (s : State) : Out :=
  issue ⟨p, 2, 0, [(d, 1), (a, 1)], [(a, 1)], .plain, .none⟩ 0
    (onView (f1 p d a fun m x => Special.cos.op (ftzOf m) x)) s

end Sys2Proof.Machine
end

