-- ==== Sys2Proof/Machine/XchgOps.lean ====
section
/-!
DEFINITION. What the exchange engine does (R247 to R249, R252 to R261).
-/
namespace Sys2Proof.Machine

/-- What lane `k` supplies to a quad exchange: its register as it stands, helper lanes included (R247, R253). -/
def View.supplies (v : View) (a : Opnd) (k : Nat) : Word :=
  match a with
  | .v n => Row.lane (v.vreg n.val).row k
  | _ => 0

/-- A quad exchange that writes, in each lane of ACT, what lane `src l` supplies (R252). -/
def quadMove (p : Pred) (d a : Opnd) (src : View → Nat → Nat) (v : View) : View :=
  let act := v.act p
  v.wr32 d (laneList act) act fun l => v.supplies a (src v l)

def qswapOp (p : Pred) (pat : Nat) (d a : Opnd) : View → View := quadMove p d a fun _ l => Nat.xor l pat
def qbcastOp (p : Pred) (j : Nat) (d a : Opnd) : View → View := quadMove p d a fun _ l => l / 4 * 4 + j
def qshufOp (p : Pred) (d a b : Opnd) : View → View := quadMove p d a fun v l => l / 4 * 4 + (v.rd32 b l).toNat % 4

/-- The combination c(a, b) of a type and operation (R255, R266). -/
def combine2 (t : TypeCode) (o : RedOp) (fpmode : Word) (a b : Word) : Word × Flags :=
  match o, t with
  | .add, .f32 => let r := farith .add .f32 (modeOf fpmode .dyn) (ftzOf fpmode) a.toNat b.toNat 0; (BitVec.ofNat 32 r.1, r.2)
  | .min, .f32 => let r := fminmax false (ftzOf fpmode) a b; (r.1.lo, r.2)
  | .max, .f32 => let r := fminmax true (ftzOf fpmode) a b; (r.1.lo, r.2)
  | .add, _ => (a + b, 0)
  | .min, .i32 => (if a.toInt ≤ b.toInt then a else b, 0)
  | .min, _ => (if a.toNat ≤ b.toNat then a else b, 0)
  | .max, .i32 => (if a.toInt ≥ b.toInt then a else b, 0)
  | .max, _ => (if a.toNat ≥ b.toNat then a else b, 0)
  | .and, _ => (a &&& b, 0)
  | .or, _ => (a ||| b, 0)
  | .xor, _ => (a ^^^ b, 0)

/-- The identity of an operation (R255). -/
def identityOf (t : TypeCode) (o : RedOp) : Word :=
  match o, t with
  | .add, .f32 => 0x80000000 | .min, .f32 => 0x7F800000 | .max, .f32 => 0xFF800000
  | .add, _ => 0
  | .min, .i32 => 0x7FFFFFFF | .min, _ => 0xFFFFFFFF
  | .max, .i32 => 0x80000000 | .max, _ => 0
  | .and, _ => 0xFFFFFFFF | .or, _ => 0 | .xor, _ => 0

/-- QRED of a quad: the fixed tree and its flags (R256). -/
def qredQuad (t : TypeCode) (o : RedOp) (m : Word) (x : Nat → Word) : Word × Flags :=
  let a := combine2 t o m (x 0) (x 1)
  let b := combine2 t o m (x 2) (x 3)
  let c := combine2 t o m a.1 b.1
  (c.1, a.2 ||| b.2 ||| c.2)

def qredOp (p : Pred) (t : TypeCode) (o : RedOp) (d a : Opnd) (v : View) : View :=
  let act := v.act p
  let r := fun l => qredQuad t o v.gang.fpmode fun k => v.supplies a (l / 4 * 4 + k)
  (v.wr32 d (laneList act) act fun l => (r l).1).raiseFlags (orFlags ((laneList act).map fun l => (r l).2))

/-- A scan over lanes in ascending order (R257): what each lane receives, the flags, and the last accumulator. -/
def scanGo (c : Word → Word → Word × Flags) (ex : Bool) (x : Nat → Word) :
    List Nat → (acc : Word) → (fl : Flags) → List (Nat × Word) × Flags × Word
  | [], acc, fl => ([], fl, acc)
  | l :: t, acc, fl =>
    let r := c acc (x l)
    let q := scanGo c ex x t r.1 (fl ||| r.2)
    ((l, if ex then acc else r.1) :: q.1, q.2.1, q.2.2)

def scanLanes (c : Word → Word → Word × Flags) (ex : Bool) (ident : Word) (x : Nat → Word) :
    List Nat → List (Nat × Word) × Flags × Word
  | [] => ([], 0, ident)
  | l :: t =>
    let q := scanGo c ex x t (x l) 0
    ((l, if ex then ident else x l) :: q.1, q.2.1, q.2.2)

def lookupLane (rs : List (Nat × Word)) (l : Nat) : Word := ((rs.find? fun r => r.1 == l).map (·.2)).getD 0

def scanOp (p : Pred) (t : TypeCode) (o : RedOp) (ex : Bool) (d a : Opnd) (v : View) : View :=
  let act := v.act p
  let r := scanLanes (combine2 t o v.gang.fpmode) ex (identityOf t o) (fun l => v.rd32 a l) (laneList act)
  (v.wr32 d (laneList act) act fun l => lookupLane r.1 l).raiseFlags r.2.1

def gredOp (p : Pred) (t : TypeCode) (o : RedOp) (d a : Opnd) (v : View) : View :=
  let r := scanLanes (combine2 t o v.gang.fpmode) false (identityOf t o) (fun l => v.rd32 a l) (laneList (v.act p))
  (v.wrUniform p d r.2.2).raiseFlags r.2.1

/-- The source lane of a SHFL (R259); none out of range. -/
def shflFrom (m : ShflMode) (l : Nat) (k : Word) : Option Nat :=
  match m with
  | .idx => some (k.toNat % 32)
  | .up => if k.toNat ≤ l then some (l - k.toNat) else none
  | .down => if l + k.toNat ≤ 31 then some (l + k.toNat) else none
  | .xor => some (Nat.xor l (k.toNat % 32))

def shflOp (p : Pred) (t : TypeCode) (m : ShflMode) (d a b : Opnd) (v : View) : View :=
  let act := v.act p
  let val := fun l => match shflFrom m l (v.rd32 b l) with
    | none => v.rdT t a l
    | some k => if act.getLsbD k then v.rdT t a k else 0
  if t.wide then v.wr64 d (laneList act) act val else v.wr32 d (laneList act) act fun l => (val l).lo

/-- The value of a VOTE (R260). -/
def voteVal (m : VoteMode) (a : Opnd) (act : Word) (v : View) : Word :=
  let c := fun l => match a with
    | .p n => (v.part.preg n.val).getLsbD l
    | _ => v.rd32 a l != 0
  let ones : Word := 0xFFFFFFFF
  match m with
  | .any => if (laneList act).any c then ones else 0
  | .all => if (laneList act).all c then ones else 0
  | .ballot => (laneList act).foldl (fun w l => if c l then w ||| lbit l else w) 0
  | .eq => if (laneList act).all fun l => v.rd32 a l == v.rd32 a (lowLane act) then ones else 0

def voteOp (p : Pred) (m : VoteMode) (d a : Opnd) (v : View) : View := v.wrUniform p d (voteVal m a (v.act p) v)

/-- The register with a number, as an operand. -/
def regNo (o : Opnd) : Nat := match o with | .v n => n.val | _ => 0

/-- The word that lane `l` of register D + j receives from XPOSE (R261). -/
def xposeWord (v : View) (act : Word) (t : TypeCode) (a j l : Nat) : Word :=
  let e := elemBits t
  let per := 32 / e
  BitVec.ofNat 32 ((List.range per).foldl (fun acc u =>
    let k := l * per + u
    let src := k / 8 * 8 + j
    let L := src / per
    let x := if act.getLsbD L then elemOf t (Row.lane (v.vreg (a + k % 8)).row L) (src % per) else 0
    acc + x * 2 ^ (e * u)) 0)

def xposeOp (p : Pred) (t : TypeCode) (d a : Opnd) (v : View) : View :=
  let act := v.act p
  if act = 0 then v
  else
    (List.range 8).foldl (fun (w : View) j =>
      w.setVreg (regNo d + j) ⟨Row.upd (v.vreg (regNo d + j)).row act fun l => xposeWord v act t (regNo a) j l, untypedTag⟩) v

end Sys2Proof.Machine
end

