-- ==== Sys2Proof/Machine/Gexch.lean ====
section
/-!
DEFINITION. The GEXCH instructions (R257 to R262).
-/
namespace Sys2Proof.Machine

/-- SHFL (R259). -/
def execShfl (p : Pred) (t : TypeCode) (mode : ShflMode) (d a b : Opnd) (s : State) : Out :=
  issue ⟨p, 2, 0, [(d, t.regs), (a, t.regs), (b, 1)], [(a, t.regs), (b, 1)], .plain, .none⟩ 0
    (onView (shflOp p t mode d a b)) s

/-- VOTE (R260). -/
def execVote (p : Pred) (mode : VoteMode) (d a : Opnd) (s : State) : Out :=
  issue ⟨p, 2, 0, [(d, 1), (a, 1)], [(a, 1)], .plain, .none⟩ 0
    (onView (voteOp p mode d a)) s

/-- PREFIX (R257). -/
def execScanPrefix (p : Pred) (t : TypeCode) (op : RedOp) (ex : Bool) (d a : Opnd) (s : State) : Out :=
  issue ⟨p, 2, 0, [(d, 1), (a, 1)], [(a, 1)], .plain, .none⟩ 0
    (onView (scanOp p t op ex d a)) s

/-- GRED (R258). -/
def execGred (p : Pred) (t : TypeCode) (op : RedOp) (d a : Opnd) (s : State) : Out :=
  issue ⟨p, 2, 0, [(d, 1), (a, 1)], [(a, 1)], .plain, .none⟩ 0
    (onView (gredOp p t op d a)) s

/-- XPOSE (R261). -/
def execXpose (p : Pred) (t : TypeCode) (d a : Opnd) (s : State) : Out :=
  issue ⟨p, 2, 0, [(d, 8), (a, 8)], [], .plain, .none⟩ 0
    (onView (xposeOp p t d a)) s

end Sys2Proof.Machine
end

