-- ==== Sys2Proof/Machine/Iarith.lean ====
section
/-!
DEFINITION. The IARITH instructions (R177 to R180).
-/
namespace Sys2Proof.Machine

/-- ADD_L (R177). -/
def execAddL (p : Pred) (t : TypeCode) (sat : Bool) (d a b : Opnd) (s : State) : Out :=
  issue ⟨p, 2, 0, [(d, 1), (a, 1), (b, 1)], [(a, 1), (b, 1)], .plain, .none⟩ 0
    (onView (bin p t d a b (addT t sat))) s

/-- ADD_X (R177). -/
def execAddX (p : Pred) (t : TypeCode) (sat : Bool) (d a b : Opnd) (imm : Word) (s : State) : Out :=
  issue ⟨p, 3, 0, [(d, 1), (a, 1), (b, 1)], [(a, 1), (b, 1)], .plain, .none⟩ imm
    (onView (bin p t d a b (addT t sat))) s

/-- SUB_L (R177). -/
def execSubL (p : Pred) (t : TypeCode) (sat : Bool) (d a b : Opnd) (s : State) : Out :=
  issue ⟨p, 2, 0, [(d, 1), (a, 1), (b, 1)], [(a, 1), (b, 1)], .plain, .none⟩ 0
    (onView (bin p t d a b (subT t sat))) s

/-- SUB_X (R177). -/
def execSubX (p : Pred) (t : TypeCode) (sat : Bool) (d a b : Opnd) (imm : Word) (s : State) : Out :=
  issue ⟨p, 3, 0, [(d, 1), (a, 1), (b, 1)], [(a, 1), (b, 1)], .plain, .none⟩ imm
    (onView (bin p t d a b (subT t sat))) s

/-- ADD64_L (R177). -/
def execAdd64L (p : Pred) (t : TypeCode) (sat : Bool) (d a b : Opnd) (s : State) : Out :=
  issue ⟨p, 2, 0, [(d, 2), (a, 2), (b, 2)], [(a, 2), (b, 2)], .plain, .none⟩ 0
    (onView (bin p t d a b (addT t sat))) s

/-- ADD64_X (R177). -/
def execAdd64X (p : Pred) (t : TypeCode) (sat : Bool) (d a b : Opnd) (imm : Word) (s : State) : Out :=
  issue ⟨p, 3, 0, [(d, 2), (a, 2), (b, 2)], [(a, 2), (b, 2)], .plain, .none⟩ imm
    (onView (bin p t d a b (addT t sat))) s

/-- SUB64_L (R177). -/
def execSub64L (p : Pred) (t : TypeCode) (sat : Bool) (d a b : Opnd) (s : State) : Out :=
  issue ⟨p, 2, 0, [(d, 2), (a, 2), (b, 2)], [(a, 2), (b, 2)], .plain, .none⟩ 0
    (onView (bin p t d a b (subT t sat))) s

/-- SUB64_X (R177). -/
def execSub64X (p : Pred) (t : TypeCode) (sat : Bool) (d a b : Opnd) (imm : Word) (s : State) : Out :=
  issue ⟨p, 3, 0, [(d, 2), (a, 2), (b, 2)], [(a, 2), (b, 2)], .plain, .none⟩ imm
    (onView (bin p t d a b (subT t sat))) s

/-- MUL_L (R178). -/
def execMulL (p : Pred) (t : TypeCode) (sat : Bool) (d a b : Opnd) (s : State) : Out :=
  issue ⟨p, 2, 0, [(d, 1), (a, 1), (b, 1)], [(a, 1), (b, 1)], .plain, .none⟩ 0
    (onView (bin p t d a b (mulT t sat))) s

/-- MUL_X (R178). -/
def execMulX (p : Pred) (t : TypeCode) (sat : Bool) (d a b : Opnd) (imm : Word) (s : State) : Out :=
  issue ⟨p, 3, 0, [(d, 1), (a, 1), (b, 1)], [(a, 1), (b, 1)], .plain, .none⟩ imm
    (onView (bin p t d a b (mulT t sat))) s

/-- MULHI_L (R178). -/
def execMulhiL (p : Pred) (t : TypeCode) (d a b : Opnd) (s : State) : Out :=
  issue ⟨p, 2, 0, [(d, 1), (a, 1), (b, 1)], [(a, 1), (b, 1)], .plain, .none⟩ 0
    (onView (bin p t d a b (mulhiT t))) s

/-- MULHI_X (R178). -/
def execMulhiX (p : Pred) (t : TypeCode) (d a b : Opnd) (imm : Word) (s : State) : Out :=
  issue ⟨p, 3, 0, [(d, 1), (a, 1), (b, 1)], [(a, 1), (b, 1)], .plain, .none⟩ imm
    (onView (bin p t d a b (mulhiT t))) s

/-- MAD_L (R178). -/
def execMadL (p : Pred) (t : TypeCode) (sat : Bool) (d a b c : Opnd) (s : State) : Out :=
  issue ⟨p, 2, 0, [(d, 1), (a, 1), (b, 1), (c, 1)], [(a, 1), (b, 1), (c, 1)], .plain, .none⟩ 0
    (onView (tern p t d a b c (madT t sat))) s

/-- MAD_X (R178). -/
def execMadX (p : Pred) (t : TypeCode) (sat : Bool) (d a b c : Opnd) (imm : Word) (s : State) : Out :=
  issue ⟨p, 3, 0, [(d, 1), (a, 1), (b, 1), (c, 1)], [(a, 1), (b, 1), (c, 1)], .plain, .none⟩ imm
    (onView (tern p t d a b c (madT t sat))) s

/-- MADW_L (R178). -/
def execMadwL (p : Pred) (t : TypeCode) (sat : Bool) (d a b c : Opnd) (s : State) : Out :=
  issue ⟨p, 2, 0, [(d, 2), (a, 1), (b, 1), (c, 2)], [(a, 1), (b, 1), (c, 2)], .plain, .none⟩ 0
    (onView (madw p t sat d a b c)) s

/-- MADW_X (R178). -/
def execMadwX (p : Pred) (t : TypeCode) (sat : Bool) (d a b c : Opnd) (imm : Word) (s : State) : Out :=
  issue ⟨p, 3, 0, [(d, 2), (a, 1), (b, 1), (c, 2)], [(a, 1), (b, 1), (c, 2)], .plain, .none⟩ imm
    (onView (madw p t sat d a b c)) s

/-- DIV_L (R179). -/
def execDivL (p : Pred) (t : TypeCode) (d a b : Opnd) (s : State) : Out :=
  issue ⟨p, 2, 0, [(d, t.regs), (a, t.regs), (b, t.regs)], [(a, t.regs), (b, t.regs)], .plain, .none⟩ 0
    (onView (bin p t d a b (divT t))) s

/-- DIV_X (R179). -/
def execDivX (p : Pred) (t : TypeCode) (d a b : Opnd) (imm : Word) (s : State) : Out :=
  issue ⟨p, 3, 0, [(d, t.regs), (a, t.regs), (b, t.regs)], [(a, t.regs), (b, t.regs)], .plain, .none⟩ imm
    (onView (bin p t d a b (divT t))) s

/-- REM_L (R179). -/
def execRemL (p : Pred) (t : TypeCode) (d a b : Opnd) (s : State) : Out :=
  issue ⟨p, 2, 0, [(d, t.regs), (a, t.regs), (b, t.regs)], [(a, t.regs), (b, t.regs)], .plain, .none⟩ 0
    (onView (bin p t d a b (remT t))) s

/-- REM_X (R179). -/
def execRemX (p : Pred) (t : TypeCode) (d a b : Opnd) (imm : Word) (s : State) : Out :=
  issue ⟨p, 3, 0, [(d, t.regs), (a, t.regs), (b, t.regs)], [(a, t.regs), (b, t.regs)], .plain, .none⟩ imm
    (onView (bin p t d a b (remT t))) s

/-- MIN_L (R180). -/
def execMinL (p : Pred) (t : TypeCode) (d a b : Opnd) (s : State) : Out :=
  issue ⟨p, 2, 0, [(d, t.regs), (a, t.regs), (b, t.regs)], [(a, t.regs), (b, t.regs)], .plain, .none⟩ 0
    (onView (bin p t d a b (minT t))) s

/-- MIN_X (R180). -/
def execMinX (p : Pred) (t : TypeCode) (d a b : Opnd) (imm : Word) (s : State) : Out :=
  issue ⟨p, 3, 0, [(d, t.regs), (a, t.regs), (b, t.regs)], [(a, t.regs), (b, t.regs)], .plain, .none⟩ imm
    (onView (bin p t d a b (minT t))) s

/-- MAX_L (R180). -/
def execMaxL (p : Pred) (t : TypeCode) (d a b : Opnd) (s : State) : Out :=
  issue ⟨p, 2, 0, [(d, t.regs), (a, t.regs), (b, t.regs)], [(a, t.regs), (b, t.regs)], .plain, .none⟩ 0
    (onView (bin p t d a b (maxT t))) s

/-- MAX_X (R180). -/
def execMaxX (p : Pred) (t : TypeCode) (d a b : Opnd) (imm : Word) (s : State) : Out :=
  issue ⟨p, 3, 0, [(d, t.regs), (a, t.regs), (b, t.regs)], [(a, t.regs), (b, t.regs)], .plain, .none⟩ imm
    (onView (bin p t d a b (maxT t))) s

/-- ABS_L (R180). -/
def execAbsL (p : Pred) (t : TypeCode) (sat : Bool) (d a : Opnd) (s : State) : Out :=
  issue ⟨p, 2, 0, [(d, t.regs), (a, t.regs)], [(a, t.regs)], .plain, .none⟩ 0
    (onView (un p t d a (absT t sat))) s

/-- ABS_X (R180). -/
def execAbsX (p : Pred) (t : TypeCode) (sat : Bool) (d a : Opnd) (imm : Word) (s : State) : Out :=
  issue ⟨p, 3, 0, [(d, t.regs), (a, t.regs)], [(a, t.regs)], .plain, .none⟩ imm
    (onView (un p t d a (absT t sat))) s

/-- NEG_L (R180). -/
def execNegL (p : Pred) (t : TypeCode) (sat : Bool) (d a : Opnd) (s : State) : Out :=
  issue ⟨p, 2, 0, [(d, t.regs), (a, t.regs)], [(a, t.regs)], .plain, .none⟩ 0
    (onView (un p t d a (negT t sat))) s

/-- NEG_X (R180). -/
def execNegX (p : Pred) (t : TypeCode) (sat : Bool) (d a : Opnd) (imm : Word) (s : State) : Out :=
  issue ⟨p, 3, 0, [(d, t.regs), (a, t.regs)], [(a, t.regs)], .plain, .none⟩ imm
    (onView (un p t d a (negT t sat))) s

end Sys2Proof.Machine
end

