-- ==== Sys2Proof/Machine/Ibit.lean ====
section
/-!
DEFINITION. The IBIT instructions (R181 to R186).
-/
namespace Sys2Proof.Machine

/-- AND_L (R181). -/
def execAndL (p : Pred) (t : TypeCode) (d a b : Opnd) (s : State) : Out :=
  issue ⟨p, 2, 0, [(d, t.regs), (a, t.regs), (b, t.regs)], [(a, t.regs), (b, t.regs)], .plain, .none⟩ 0
    (onView (bin p t d a b fun x y => (maskT t (x &&& y), 0))) s

/-- AND_X (R181). -/
def execAndX (p : Pred) (t : TypeCode) (d a b : Opnd) (imm : Word) (s : State) : Out :=
  issue ⟨p, 3, 0, [(d, t.regs), (a, t.regs), (b, t.regs)], [(a, t.regs), (b, t.regs)], .plain, .none⟩ imm
    (onView (bin p t d a b fun x y => (maskT t (x &&& y), 0))) s

/-- OR_L (R181). -/
def execOrL (p : Pred) (t : TypeCode) (d a b : Opnd) (s : State) : Out :=
  issue ⟨p, 2, 0, [(d, t.regs), (a, t.regs), (b, t.regs)], [(a, t.regs), (b, t.regs)], .plain, .none⟩ 0
    (onView (bin p t d a b fun x y => (maskT t (x ||| y), 0))) s

/-- OR_X (R181). -/
def execOrX (p : Pred) (t : TypeCode) (d a b : Opnd) (imm : Word) (s : State) : Out :=
  issue ⟨p, 3, 0, [(d, t.regs), (a, t.regs), (b, t.regs)], [(a, t.regs), (b, t.regs)], .plain, .none⟩ imm
    (onView (bin p t d a b fun x y => (maskT t (x ||| y), 0))) s

/-- XOR_L (R181). -/
def execXorL (p : Pred) (t : TypeCode) (d a b : Opnd) (s : State) : Out :=
  issue ⟨p, 2, 0, [(d, t.regs), (a, t.regs), (b, t.regs)], [(a, t.regs), (b, t.regs)], .plain, .none⟩ 0
    (onView (bin p t d a b fun x y => (maskT t (x ^^^ y), 0))) s

/-- XOR_X (R181). -/
def execXorX (p : Pred) (t : TypeCode) (d a b : Opnd) (imm : Word) (s : State) : Out :=
  issue ⟨p, 3, 0, [(d, t.regs), (a, t.regs), (b, t.regs)], [(a, t.regs), (b, t.regs)], .plain, .none⟩ imm
    (onView (bin p t d a b fun x y => (maskT t (x ^^^ y), 0))) s

/-- ANDN_L (R181). -/
def execAndnL (p : Pred) (t : TypeCode) (d a b : Opnd) (s : State) : Out :=
  issue ⟨p, 2, 0, [(d, t.regs), (a, t.regs), (b, t.regs)], [(a, t.regs), (b, t.regs)], .plain, .none⟩ 0
    (onView (bin p t d a b fun x y => (maskT t (x &&& ~~~y), 0))) s

/-- ANDN_X (R181). -/
def execAndnX (p : Pred) (t : TypeCode) (d a b : Opnd) (imm : Word) (s : State) : Out :=
  issue ⟨p, 3, 0, [(d, t.regs), (a, t.regs), (b, t.regs)], [(a, t.regs), (b, t.regs)], .plain, .none⟩ imm
    (onView (bin p t d a b fun x y => (maskT t (x &&& ~~~y), 0))) s

/-- NOT_L (R181). -/
def execNotL (p : Pred) (t : TypeCode) (d a : Opnd) (s : State) : Out :=
  issue ⟨p, 2, 0, [(d, t.regs), (a, t.regs)], [(a, t.regs)], .plain, .none⟩ 0
    (onView (un p t d a fun x => (maskT t (~~~x), 0))) s

/-- NOT_X (R181). -/
def execNotX (p : Pred) (t : TypeCode) (d a : Opnd) (imm : Word) (s : State) : Out :=
  issue ⟨p, 3, 0, [(d, t.regs), (a, t.regs)], [(a, t.regs)], .plain, .none⟩ imm
    (onView (un p t d a fun x => (maskT t (~~~x), 0))) s

/-- SHL_L (R182). -/
def execShlL (p : Pred) (t : TypeCode) (d a b : Opnd) (s : State) : Out :=
  issue ⟨p, 2, 0, [(d, t.regs), (a, t.regs), (b, 1)], [(a, t.regs), (b, 1)], .plain, .none⟩ 0
    (onView (shiftOp p t d a b (shlT t))) s

/-- SHL_X (R182). -/
def execShlX (p : Pred) (t : TypeCode) (d a b : Opnd) (imm : Word) (s : State) : Out :=
  issue ⟨p, 3, 0, [(d, t.regs), (a, t.regs), (b, 1)], [(a, t.regs), (b, 1)], .plain, .none⟩ imm
    (onView (shiftOp p t d a b (shlT t))) s

/-- SHR_L (R182). -/
def execShrL (p : Pred) (t : TypeCode) (d a b : Opnd) (s : State) : Out :=
  issue ⟨p, 2, 0, [(d, t.regs), (a, t.regs), (b, 1)], [(a, t.regs), (b, 1)], .plain, .none⟩ 0
    (onView (shiftOp p t d a b (shrT t))) s

/-- SHR_X (R182). -/
def execShrX (p : Pred) (t : TypeCode) (d a b : Opnd) (imm : Word) (s : State) : Out :=
  issue ⟨p, 3, 0, [(d, t.regs), (a, t.regs), (b, 1)], [(a, t.regs), (b, 1)], .plain, .none⟩ imm
    (onView (shiftOp p t d a b (shrT t))) s

/-- SAR_L (R182). -/
def execSarL (p : Pred) (t : TypeCode) (d a b : Opnd) (s : State) : Out :=
  issue ⟨p, 2, 0, [(d, t.regs), (a, t.regs), (b, 1)], [(a, t.regs), (b, 1)], .plain, .none⟩ 0
    (onView (shiftOp p t d a b (sarT t))) s

/-- SAR_X (R182). -/
def execSarX (p : Pred) (t : TypeCode) (d a b : Opnd) (imm : Word) (s : State) : Out :=
  issue ⟨p, 3, 0, [(d, t.regs), (a, t.regs), (b, 1)], [(a, t.regs), (b, 1)], .plain, .none⟩ imm
    (onView (shiftOp p t d a b (sarT t))) s

/-- ROTL_L (R182). -/
def execRotlL (p : Pred) (t : TypeCode) (d a b : Opnd) (s : State) : Out :=
  issue ⟨p, 2, 0, [(d, t.regs), (a, t.regs), (b, 1)], [(a, t.regs), (b, 1)], .plain, .none⟩ 0
    (onView (shiftOp p t d a b (rotlT t))) s

/-- ROTL_X (R182). -/
def execRotlX (p : Pred) (t : TypeCode) (d a b : Opnd) (imm : Word) (s : State) : Out :=
  issue ⟨p, 3, 0, [(d, t.regs), (a, t.regs), (b, 1)], [(a, t.regs), (b, 1)], .plain, .none⟩ imm
    (onView (shiftOp p t d a b (rotlT t))) s

/-- FUNNEL_L (R182). -/
def execFunnelL (p : Pred) (t : TypeCode) (d a b c : Opnd) (s : State) : Out :=
  issue ⟨p, 2, 0, [(d, 1), (a, 1), (b, 1), (c, 1)], [(a, 1), (b, 1), (c, 1)], .plain, .none⟩ 0
    (onView (w3 p d a b c funnel)) s

/-- FUNNEL_X (R182). -/
def execFunnelX (p : Pred) (t : TypeCode) (d a b c : Opnd) (imm : Word) (s : State) : Out :=
  issue ⟨p, 3, 0, [(d, 1), (a, 1), (b, 1), (c, 1)], [(a, 1), (b, 1), (c, 1)], .plain, .none⟩ imm
    (onView (w3 p d a b c funnel)) s

/-- POPC_L (R183). -/
def execPopcL (p : Pred) (t : TypeCode) (d a : Opnd) (s : State) : Out :=
  issue ⟨p, 2, 0, [(d, 1), (a, t.regs)], [(a, t.regs)], .plain, .none⟩ 0
    (onView (countOp p t d a fun w x => popCount x w)) s

/-- POPC_X (R183). -/
def execPopcX (p : Pred) (t : TypeCode) (d a : Opnd) (imm : Word) (s : State) : Out :=
  issue ⟨p, 3, 0, [(d, 1), (a, t.regs)], [(a, t.regs)], .plain, .none⟩ imm
    (onView (countOp p t d a fun w x => popCount x w)) s

/-- CLZ_L (R183). -/
def execClzL (p : Pred) (t : TypeCode) (d a : Opnd) (s : State) : Out :=
  issue ⟨p, 2, 0, [(d, 1), (a, t.regs)], [(a, t.regs)], .plain, .none⟩ 0
    (onView (countOp p t d a clz)) s

/-- CLZ_X (R183). -/
def execClzX (p : Pred) (t : TypeCode) (d a : Opnd) (imm : Word) (s : State) : Out :=
  issue ⟨p, 3, 0, [(d, 1), (a, t.regs)], [(a, t.regs)], .plain, .none⟩ imm
    (onView (countOp p t d a clz)) s

/-- CTZ_L (R183). -/
def execCtzL (p : Pred) (t : TypeCode) (d a : Opnd) (s : State) : Out :=
  issue ⟨p, 2, 0, [(d, 1), (a, t.regs)], [(a, t.regs)], .plain, .none⟩ 0
    (onView (countOp p t d a ctz)) s

/-- CTZ_X (R183). -/
def execCtzX (p : Pred) (t : TypeCode) (d a : Opnd) (imm : Word) (s : State) : Out :=
  issue ⟨p, 3, 0, [(d, 1), (a, t.regs)], [(a, t.regs)], .plain, .none⟩ imm
    (onView (countOp p t d a ctz)) s

/-- BREV_L (R183). -/
def execBrevL (p : Pred) (t : TypeCode) (d a : Opnd) (s : State) : Out :=
  issue ⟨p, 2, 0, [(d, t.regs), (a, t.regs)], [(a, t.regs)], .plain, .none⟩ 0
    (onView (un p t d a fun x => (BitVec.ofNat 64 (brev (maskT t x).toNat t.width), 0))) s

/-- BREV_X (R183). -/
def execBrevX (p : Pred) (t : TypeCode) (d a : Opnd) (imm : Word) (s : State) : Out :=
  issue ⟨p, 3, 0, [(d, t.regs), (a, t.regs)], [(a, t.regs)], .plain, .none⟩ imm
    (onView (un p t d a fun x => (BitVec.ofNat 64 (brev (maskT t x).toNat t.width), 0))) s

/-- BFE_L (R184). -/
def execBfeL (p : Pred) (t : TypeCode) (d a b : Opnd) (s : State) : Out :=
  issue ⟨p, 2, 0, [(d, 1), (a, 1), (b, 1)], [(a, 1), (b, 1)], .plain, .none⟩ 0
    (onView (w2 p d a b (bfe t.signed))) s

/-- BFE_X (R184). -/
def execBfeX (p : Pred) (t : TypeCode) (d a b : Opnd) (imm : Word) (s : State) : Out :=
  issue ⟨p, 3, 0, [(d, 1), (a, 1), (b, 1)], [(a, 1), (b, 1)], .plain, .none⟩ imm
    (onView (w2 p d a b (bfe t.signed))) s

/-- BFI_L (R185). -/
def execBfiL (p : Pred) (t : TypeCode) (d a b c : Opnd) (s : State) : Out :=
  issue ⟨p, 2, 0, [(d, 1), (a, 1), (b, 1), (c, 1)], [(a, 1), (b, 1), (c, 1)], .plain, .none⟩ 0
    (onView (w3 p d a b c bfi)) s

/-- BFI_X (R185). -/
def execBfiX (p : Pred) (t : TypeCode) (d a b c : Opnd) (imm : Word) (s : State) : Out :=
  issue ⟨p, 3, 0, [(d, 1), (a, 1), (b, 1), (c, 1)], [(a, 1), (b, 1), (c, 1)], .plain, .none⟩ imm
    (onView (w3 p d a b c bfi)) s

/-- PERMB_L (R186). -/
def execPermbL (p : Pred) (t : TypeCode) (d a b c : Opnd) (s : State) : Out :=
  issue ⟨p, 2, 0, [(d, 1), (a, 1), (b, 1), (c, 1)], [(a, 1), (b, 1), (c, 1)], .plain, .none⟩ 0
    (onView (w3 p d a b c permb)) s

/-- PERMB_X (R186). -/
def execPermbX (p : Pred) (t : TypeCode) (d a b c : Opnd) (imm : Word) (s : State) : Out :=
  issue ⟨p, 3, 0, [(d, 1), (a, 1), (b, 1), (c, 1)], [(a, 1), (b, 1), (c, 1)], .plain, .none⟩ imm
    (onView (w3 p d a b c permb)) s

end Sys2Proof.Machine
end

