-- ==== Sys2Proof/Machine/Imove.lean ====
section
/-!
DEFINITION. The IMOVE instructions (R189 to R193).
-/
namespace Sys2Proof.Machine

/-- MOV_L (R189). -/
def execMovL (p : Pred) (t : TypeCode) (d a : Opnd) (s : State) : Out :=
  issue ⟨p, 2, 0, [(d, t.regs), (a, t.regs)], [(a, t.regs)], .plain, .none⟩ 0
    (onView (un p t d a fun x => (x, 0))) s

/-- MOV_X (R189). -/
def execMovX (p : Pred) (t : TypeCode) (d a : Opnd) (imm : Word) (s : State) : Out :=
  issue ⟨p, 3, 0, [(d, t.regs), (a, t.regs)], [(a, t.regs)], .plain, .none⟩ imm
    (onView (un p t d a fun x => (x, 0))) s

/-- MOVI (R189). -/
def execMovi (p : Pred) (t : TypeCode) (h : Fin 4) (d a : Opnd) (imm : Word) (s : State) : Out :=
  issue ⟨p, 3, 0, [(d, t.regs)], [(d, t.regs)], .plain, .none⟩ imm
    (onView (moviOp p t h.val d)) s

/-- SEL_L (R190). -/
def execSelL (p : Pred) (t : TypeCode) (d a b c : Opnd) (s : State) : Out :=
  issue ⟨p, 2, 0, [(d, t.regs), (a, t.regs), (b, t.regs)], [(a, t.regs), (b, t.regs)], .plain, .none⟩ 0
    (onView (selOp p t d a b c)) s

/-- SEL_X (R190). -/
def execSelX (p : Pred) (t : TypeCode) (d a b c : Opnd) (imm : Word) (s : State) : Out :=
  issue ⟨p, 3, 0, [(d, t.regs), (a, t.regs), (b, t.regs)], [(a, t.regs), (b, t.regs)], .plain, .none⟩ imm
    (onView (selOp p t d a b c)) s

/-- EXT_L (R191). -/
def execExtL (p : Pred) (t : TypeCode) (w : ExtW) (d a : Opnd) (s : State) : Out :=
  issue ⟨p, 2, 0, [(d, t.regs), (a, 1)], [(a, 1)], .plain, .none⟩ 0
    (onView (fun v => v.compute p t.wide d [a] fun l => (extT t w (v.rd32 a l), 0))) s

/-- EXT_X (R191). -/
def execExtX (p : Pred) (t : TypeCode) (w : ExtW) (d a : Opnd) (imm : Word) (s : State) : Out :=
  issue ⟨p, 3, 0, [(d, t.regs), (a, 1)], [(a, 1)], .plain, .none⟩ imm
    (onView (fun v => v.compute p t.wide d [a] fun l => (extT t w (v.rd32 a l), 0))) s

/-- PACK_L (R192). -/
def execPackL (p : Pred) (t : TypeCode) (nar : Narrow) (d a b : Opnd) (s : State) : Out :=
  issue ⟨p, 2, 0, [(d, 1), (a, 1), (b, 1)], [(a, 1), (b, 1)], .plain, .none⟩ 0
    (onView (fun v => v.compute p false d [a, b] fun l => let x := packT t nar (v.rd32 a l) (v.rd32 b l); (x.1.setWidth 64, x.2))) s

/-- PACK_X (R192). -/
def execPackX (p : Pred) (t : TypeCode) (nar : Narrow) (d a b : Opnd) (imm : Word) (s : State) : Out :=
  issue ⟨p, 3, 0, [(d, 1), (a, 1), (b, 1)], [(a, 1), (b, 1)], .plain, .none⟩ imm
    (onView (fun v => v.compute p false d [a, b] fun l => let x := packT t nar (v.rd32 a l) (v.rd32 b l); (x.1.setWidth 64, x.2))) s

/-- UNPACK_L (R193). -/
def execUnpackL (p : Pred) (t : TypeCode) (idx : Fin 4) (sx : Bool) (d a : Opnd) (s : State) : Out :=
  issue ⟨p, 2, 0, [(d, 1), (a, 1)], [(a, 1)], .plain, .none⟩ 0
    (onView (w1 p d a (unpackT t idx.val sx))) s

/-- UNPACK_X (R193). -/
def execUnpackX (p : Pred) (t : TypeCode) (idx : Fin 4) (sx : Bool) (d a : Opnd) (imm : Word) (s : State) : Out :=
  issue ⟨p, 3, 0, [(d, 1), (a, 1)], [(a, 1)], .plain, .none⟩ imm
    (onView (w1 p d a (unpackT t idx.val sx))) s

end Sys2Proof.Machine
end

