-- ==== Sys2Proof/Machine/Ipred.lean ====
section
/-!
DEFINITION. The IPRED instructions (R187, R188).
-/
namespace Sys2Proof.Machine

/-- CMP_L (R187). -/
def execCmpL (p : Pred) (t : TypeCode) (cond : Cond) (comb : Comb) (d a b : Opnd) (s : State) : Out :=
  issue ⟨p, 2, 0, [(a, t.regs), (b, t.regs)], [(a, t.regs), (b, t.regs)], .plain, .none⟩ 0
    (onView (cmpOp p t cond comb d a b)) s

/-- CMP_X (R187). -/
def execCmpX (p : Pred) (t : TypeCode) (cond : Cond) (comb : Comb) (d a b : Opnd) (imm : Word) (s : State) : Out :=
  issue ⟨p, 3, 0, [(a, t.regs), (b, t.regs)], [(a, t.regs), (b, t.regs)], .plain, .none⟩ imm
    (onView (cmpOp p t cond comb d a b)) s

/-- PAND_L (R188). -/
def execPandL (p : Pred) (d a b : Opnd) (s : State) : Out :=
  issue ⟨p, 2, 0, [], [], .plain, .none⟩ 0
    (onView (w2 p d a b (· &&& ·))) s

/-- PAND_X (R188). -/
def execPandX (p : Pred) (d a b : Opnd) (imm : Word) (s : State) : Out :=
  issue ⟨p, 3, 0, [], [], .plain, .none⟩ imm
    (onView (w2 p d a b (· &&& ·))) s

/-- POR_L (R188). -/
def execPorL (p : Pred) (d a b : Opnd) (s : State) : Out :=
  issue ⟨p, 2, 0, [], [], .plain, .none⟩ 0
    (onView (w2 p d a b (· ||| ·))) s

/-- POR_X (R188). -/
def execPorX (p : Pred) (d a b : Opnd) (imm : Word) (s : State) : Out :=
  issue ⟨p, 3, 0, [], [], .plain, .none⟩ imm
    (onView (w2 p d a b (· ||| ·))) s

/-- PXOR_L (R188). -/
def execPxorL (p : Pred) (d a b : Opnd) (s : State) : Out :=
  issue ⟨p, 2, 0, [], [], .plain, .none⟩ 0
    (onView (w2 p d a b (· ^^^ ·))) s

/-- PXOR_X (R188). -/
def execPxorX (p : Pred) (d a b : Opnd) (imm : Word) (s : State) : Out :=
  issue ⟨p, 3, 0, [], [], .plain, .none⟩ imm
    (onView (w2 p d a b (· ^^^ ·))) s

/-- PNOT_L (R188). -/
def execPnotL (p : Pred) (d a : Opnd) (s : State) : Out :=
  issue ⟨p, 2, 0, [], [], .plain, .none⟩ 0
    (onView (w1 p d a (~~~ ·))) s

/-- PNOT_X (R188). -/
def execPnotX (p : Pred) (d a : Opnd) (imm : Word) (s : State) : Out :=
  issue ⟨p, 3, 0, [], [], .plain, .none⟩ imm
    (onView (w1 p d a (~~~ ·))) s

end Sys2Proof.Machine
end

