-- ==== Sys2Proof/Machine/Load.lean ====
section
/-!
DEFINITION. The LOAD instructions (R289, R291, R292, R294).
-/
namespace Sys2Proof.Machine

/-- LD_L (R289). -/
def execLdL (p : Pred) (t : TypeCode) (sx : Bool) (d a : Opnd) (s : State) : Out :=
  issue ⟨p, 2, 0, [(d, t.regs), (a, 2)], [(a, 2)], .plain, .none⟩ 0
    (loadSem .glob p t sx d a 2) s

/-- LD_X (R289). -/
def execLdX (p : Pred) (t : TypeCode) (sx : Bool) (d a : Opnd) (imm : Word) (s : State) : Out :=
  issue ⟨p, 3, 0, [(d, t.regs), (a, 2)], [(a, 2)], .plain, .none⟩ imm
    (loadSem .glob p t sx d a 3) s

/-- LDD_L (R292). -/
def execLddL (p : Pred) (rows : Fin 8) (d a : Opnd) (s : State) : Out :=
  issue ⟨p, 2, 0, [(d, rows.val + 1)], [], .plain, .none⟩ 0
    (rowLoadSem p a (rows.val + 1) (.ldd d (rows.val + 1)) 2) s

/-- LDD_X (R292). -/
def execLddX (p : Pred) (rows : Fin 8) (d a : Opnd) (imm : Word) (s : State) : Out :=
  issue ⟨p, 3, 0, [(d, rows.val + 1)], [], .plain, .none⟩ imm
    (rowLoadSem p a (rows.val + 1) (.ldd d (rows.val + 1)) 3) s

/-- LDW_L (R294). -/
def execLdwL (p : Pred) (t : TypeCode) (rows : Fin 4) (src : LdwSrc) (d a : Opnd) (s : State) : Out :=
  issue ⟨p, 2, 0, [(d, src.regs * (rows.val + 1))], [], .plain, .none⟩ 0
    (rowLoadSem p a (rows.val + 1) (.ldw d t (rows.val + 1) src) 2) s

/-- LDW_X (R294). -/
def execLdwX (p : Pred) (t : TypeCode) (rows : Fin 4) (src : LdwSrc) (d a : Opnd) (imm : Word) (s : State) : Out :=
  issue ⟨p, 3, 0, [(d, src.regs * (rows.val + 1))], [], .plain, .none⟩ imm
    (rowLoadSem p a (rows.val + 1) (.ldw d t (rows.val + 1) src) 3) s

/-- PREF_L (R291). -/
def execPrefL (p : Pred) (slice : Bool) (a : Opnd) (s : State) : Out :=
  issue ⟨p, 2, 0, [(a, 2)], [(a, 2)], .plain, .none⟩ 0
    (prefSem p a) s

/-- PREF_X (R291). -/
def execPrefX (p : Pred) (slice : Bool) (a : Opnd) (imm : Word) (s : State) : Out :=
  issue ⟨p, 3, 0, [(a, 2)], [(a, 2)], .plain, .none⟩ imm
    (prefSem p a) s

end Sys2Proof.Machine
end

