-- ==== Sys2Proof/Machine/Local.lean ====
section
/-!
DEFINITION. The LOCAL instructions (R296).
-/
namespace Sys2Proof.Machine

/-- LDS_L (R296). -/
def execLdsL (p : Pred) (t : TypeCode) (sx : Bool) (d a : Opnd) (s : State) : Out :=
  issue ⟨p, 2, 0, [(d, t.regs), (a, 1)], [(a, 1)], .plain, .none⟩ 0
    (loadSem .sp p t sx d a 2) s

/-- LDS_X (R296). -/
def execLdsX (p : Pred) (t : TypeCode) (sx : Bool) (d a : Opnd) (imm : Word) (s : State) : Out :=
  issue ⟨p, 3, 0, [(d, t.regs), (a, 1)], [(a, 1)], .plain, .none⟩ imm
    (loadSem .sp p t sx d a 3) s

/-- LDA_L (R296). -/
def execLdaL (p : Pred) (t : TypeCode) (sx : Bool) (d a : Opnd) (s : State) : Out :=
  issue ⟨p, 2, 0, [(d, t.regs), (a, 1)], [(a, 1)], .plain, .none⟩ 0
    (loadSem .ab p t sx d a 2) s

/-- LDA_X (R296). -/
def execLdaX (p : Pred) (t : TypeCode) (sx : Bool) (d a : Opnd) (imm : Word) (s : State) : Out :=
  issue ⟨p, 3, 0, [(d, t.regs), (a, 1)], [(a, 1)], .plain, .none⟩ imm
    (loadSem .ab p t sx d a 3) s

/-- LDWB_L (R296). -/
def execLdwbL (p : Pred) (t : TypeCode) (sx : Bool) (d a : Opnd) (s : State) : Out :=
  issue ⟨p, 2, 0, [(d, t.regs), (a, 1)], [(a, 1)], .plain, .none⟩ 0
    (loadSem .wb p t sx d a 2) s

/-- LDWB_X (R296). -/
def execLdwbX (p : Pred) (t : TypeCode) (sx : Bool) (d a : Opnd) (imm : Word) (s : State) : Out :=
  issue ⟨p, 3, 0, [(d, t.regs), (a, 1)], [(a, 1)], .plain, .none⟩ imm
    (loadSem .wb p t sx d a 3) s

/-- STS_L (R296). -/
def execStsL (p : Pred) (t : TypeCode) (a b : Opnd) (s : State) : Out :=
  issue ⟨p, 2, 0, [(a, 1), (b, t.regs)], [(a, 1), (b, t.regs)], .plain, .none⟩ 0
    (storeSem .sp p t a b 2) s

/-- STS_X (R296). -/
def execStsX (p : Pred) (t : TypeCode) (a b : Opnd) (imm : Word) (s : State) : Out :=
  issue ⟨p, 3, 0, [(a, 1), (b, t.regs)], [(a, 1), (b, t.regs)], .plain, .none⟩ imm
    (storeSem .sp p t a b 3) s

/-- STA_L (R296). -/
def execStaL (p : Pred) (t : TypeCode) (a b : Opnd) (s : State) : Out :=
  issue ⟨p, 2, 0, [(a, 1), (b, t.regs)], [(a, 1), (b, t.regs)], .plain, .none⟩ 0
    (storeSem .ab p t a b 2) s

/-- STA_X (R296). -/
def execStaX (p : Pred) (t : TypeCode) (a b : Opnd) (imm : Word) (s : State) : Out :=
  issue ⟨p, 3, 0, [(a, 1), (b, t.regs)], [(a, 1), (b, t.regs)], .plain, .none⟩ imm
    (storeSem .ab p t a b 3) s

end Sys2Proof.Machine
end

