-- ==== Sys2Proof/Machine/Matrix.lean ====
section
/-!
DEFINITION. The MATRIX instructions (R440 to R447).
-/
namespace Sys2Proof.Machine

/-- MMA (R441, R443). -/
def execMma (p : Pred) (m : Fin 32) (reuse : Bool) (z : Bool) (d a b : Opnd) (imm : Word) (s : State) : Out :=
  issue ⟨p, 3, 0, [(a, m.val + 1)], [], .plain, .rows (rowNumber a) (m.val + 1)⟩ imm
    (mmaSem p (m.val + 1) reuse z false d a b) s

/-- MMAP (R441, R443). -/
def execMmap (p : Pred) (m : Fin 32) (reuse : Bool) (z : Bool) (d a b : Opnd) (imm : Word) (s : State) : Out :=
  issue ⟨p, 3, 0, [(a, m.val + 1)], [], .plain, .rows (rowNumber a) (m.val + 1)⟩ imm
    (mmaSem p (m.val + 1) reuse z true d a b) s

/-- MCLR (R444). -/
def execMclr (p : Pred) (m : Fin 32) (d : Opnd) (imm : Word) (s : State) : Out :=
  issue ⟨p, 3, 0, [], [], .plain, .none⟩ imm
    (mclrSem p (m.val + 1) d) s

/-- MCVT (R445). -/
def execMcvt (p : Pred) (m : Fin 32) (fmt : TypeCode) (d a b : Opnd) (imm : Word) (s : State) : Out :=
  issue ⟨p, 3, 0, [], [], .plain, .none⟩ imm
    (mcvtSem p (m.val + 1) fmt d a b) s

/-- MACC (R446). -/
def execMacc (p : Pred) (m : Fin 32) (team : Bool) (d a : Opnd) (imm : Word) (s : State) : Out :=
  issue ⟨p, 3, 0, [], [], .plain, .none⟩ imm
    (maccSem p (m.val + 1) team d a) s

/-- MREL (R447). -/
def execMrel (p : Pred) (imm : Word) (s : State) : Out :=
  issue ⟨p, 3, 0, [], [], .plain, .none⟩ imm
    (mrelSem p) s

end Sys2Proof.Machine
end

