-- ==== Sys2Proof/Machine/Monitor.lean ====
section
/-!
DEFINITION. The MONITOR instructions (R324 to R330).
-/
namespace Sys2Proof.Machine

/-- WAITC_L (R326). -/
def execWaitcL (p : Pred) (cond : Cond) (t : TypeCode) (d a b c : Opnd) (s : State) : Out :=
  issue ⟨p, 2, 0, [(d, t.regs), (a, 2), (b, t.regs)], [(a, 2), (b, t.regs)], .irrevocable, .none⟩ 0
    (waitcSem p cond t d a b c) s

/-- WAITC_X (R326). -/
def execWaitcX (p : Pred) (cond : Cond) (t : TypeCode) (d a b c : Opnd) (imm : Word) (s : State) : Out :=
  issue ⟨p, 3, 0, [(d, t.regs), (a, 2), (b, t.regs)], [(a, 2), (b, t.regs)], .irrevocable, .none⟩ imm
    (waitcSem p cond t d a b c) s

/-- ARMC_L (R329). -/
def execArmcL (p : Pred) (cond : Cond) (t : TypeCode) (d a b : Opnd) (s : State) : Out :=
  issue ⟨p, 2, 0, [(d, t.regs)], [], .irrevocable, .none⟩ 0
    (armcSem p cond t d a b) s

/-- ARMC_X (R329). -/
def execArmcX (p : Pred) (cond : Cond) (t : TypeCode) (d a b : Opnd) (imm : Word) (s : State) : Out :=
  issue ⟨p, 3, 0, [(d, t.regs)], [], .irrevocable, .none⟩ imm
    (armcSem p cond t d a b) s

/-- CHECKC (R330). -/
def execCheckc (p : Pred) (d : Opnd) (s : State) : Out :=
  issue ⟨p, 2, 0, [(d, 1)], [], .plain, .none⟩ 0
    (onView (checkcOp p d)) s

end Sys2Proof.Machine
end

