-- ==== Sys2Proof/Machine/Qexch.lean ====
section
/-!
DEFINITION. The QEXCH instructions (R252, R256).
-/
namespace Sys2Proof.Machine

/-- QSWAP (R252). -/
def execQswap (p : Pred) (t : TypeCode) (pat : Fin 4) (d a : Opnd) (s : State) : Out :=
  issue ⟨p, 2, 0, [(d, 1), (a, 1)], [], .plain, .none⟩ 0
    (onView (qswapOp p pat.val d a)) s

/-- QBCAST (R252). -/
def execQbcast (p : Pred) (t : TypeCode) (j : Fin 4) (d a : Opnd) (s : State) : Out :=
  issue ⟨p, 2, 0, [(d, 1), (a, 1)], [], .plain, .none⟩ 0
    (onView (qbcastOp p j.val d a)) s

/-- QSHUF (R252). -/
def execQshuf (p : Pred) (t : TypeCode) (d a b : Opnd) (s : State) : Out :=
  issue ⟨p, 2, 0, [(d, 1), (a, 1), (b, 1)], [(b, 1)], .plain, .none⟩ 0
    (onView (qshufOp p d a b)) s

/-- QRED (R256). -/
def execQred (p : Pred) (t : TypeCode) (op : RedOp) (d a : Opnd) (s : State) : Out :=
  issue ⟨p, 2, 0, [(d, 1), (a, 1)], [], .plain, .none⟩ 0
    (onView (qredOp p t op d a)) s

end Sys2Proof.Machine
end

