-- ==== Sys2Proof/Machine/Queue.lean ====
section
/-!
DEFINITION. The QUEUE instructions (R476 to R487).
-/
namespace Sys2Proof.Machine

/-- QPOP_L (R481). -/
def execQpopL (p : Pred) (wait : Bool) (d a : Opnd) (s : State) : Out :=
  issue ⟨p, 2, 0, [(d, 1)], [], .irrevocable, .none⟩ 0
    (qpopSem p wait d a 2) s

/-- QPOP_X (R481). -/
def execQpopX (p : Pred) (wait : Bool) (d a : Opnd) (imm : Word) (s : State) : Out :=
  issue ⟨p, 3, 0, [(d, 1)], [], .irrevocable, .none⟩ imm
    (qpopSem p wait d a 3) s

/-- QPUSH_L (R479). -/
def execQpushL (p : Pred) (o : Fin 8) (a : Opnd) (s : State) : Out :=
  issue ⟨p, 2, 0, [(a, 1)], [(a, 1)], .plain, .none⟩ 0
    (qpushSem p o.val a) s

/-- QPUSH_X (R479). -/
def execQpushX (p : Pred) (o : Fin 8) (a : Opnd) (imm : Word) (s : State) : Out :=
  issue ⟨p, 3, 0, [(a, 1)], [(a, 1)], .plain, .none⟩ imm
    (qpushSem p o.val a) s

/-- QPUSHS_L (R479). -/
def execQpushsL (p : Pred) (o : Fin 8) (a b : Opnd) (s : State) : Out :=
  issue ⟨p, 2, 0, [], [], .plain, .none⟩ 0
    (qpushsSem p o.val a b) s

/-- QPUSHS_X (R479). -/
def execQpushsX (p : Pred) (o : Fin 8) (a b : Opnd) (imm : Word) (s : State) : Out :=
  issue ⟨p, 3, 0, [], [], .plain, .none⟩ imm
    (qpushsSem p o.val a b) s

/-- QDONE (R483). -/
def execQdone (p : Pred) (s : State) : Out :=
  issue ⟨p, 2, 0, [], [], .irrevocable, .none⟩ 0
    (qdoneSem p) s

/-- QLEN (R484). -/
def execQlen (p : Pred) (sel : Fin 9) (d : Opnd) (s : State) : Out :=
  issue ⟨p, 2, 0, [(d, 1)], [], .plain, .none⟩ 0
    (qlenSem p sel.val d) s

/-- QSEED_L (R485). -/
def execQseedL (p : Pred) (o : Fin 8) (d a b c : Opnd) (s : State) : Out :=
  issue ⟨p, 2, 0, [(d, 1)], [], .irrevocable, .none⟩ 0
    (qseedSem p o.val d a b c 2) s

/-- QSEED_X (R485). -/
def execQseedX (p : Pred) (o : Fin 8) (d a b c : Opnd) (imm : Word) (s : State) : Out :=
  issue ⟨p, 3, 0, [(d, 1)], [], .irrevocable, .none⟩ imm
    (qseedSem p o.val d a b c 3) s

/-- QCTL_SETQ (R486). -/
def execQctlSetq (p : Pred) (d a b c : Opnd) (s : State) : Out :=
  issue ⟨p, 2, 1, [(d, 1)], [], .alone, .none⟩ 0
    (setqSem p d a b c) s

/-- QCTL_SETS (R486). -/
def execQctlSets (p : Pred) (d a b c : Opnd) (s : State) : Out :=
  issue ⟨p, 2, 1, [(d, 1)], [], .alone, .none⟩ 0
    (setsSem p d a b c) s

/-- QCTL_BIND (R460). -/
def execQctlBind (p : Pred) (d a b c : Opnd) (s : State) : Out :=
  issue ⟨p, 2, 1, [(d, 1)], [], .alone, .none⟩ 0
    (bindSem p d c) s

/-- QCTL_UNBIND (R486). -/
def execQctlUnbind (p : Pred) (d a b c : Opnd) (s : State) : Out :=
  issue ⟨p, 2, 1, [(d, 1)], [], .alone, .none⟩ 0
    (unbindSem p d c) s

/-- QCTL_STAT (R487). -/
def execQctlStat (p : Pred) (d a b c : Opnd) (s : State) : Out :=
  issue ⟨p, 2, 1, [(d, 1)], [], .alone, .none⟩ 0
    (statSem p d a b c) s

/-- QCTL_STOP (R486). -/
def execQctlStop (p : Pred) (d a b c : Opnd) (s : State) : Out :=
  issue ⟨p, 2, 1, [(d, 1)], [], .alone, .none⟩ 0
    (stopSem true p d b c) s

/-- QCTL_START (R486). -/
def execQctlStart (p : Pred) (d a b c : Opnd) (s : State) : Out :=
  issue ⟨p, 2, 1, [(d, 1)], [], .alone, .none⟩ 0
    (stopSem false p d b c) s

/-- QCTL_CLEAR (R486). -/
def execQctlClear (p : Pred) (d a b c : Opnd) (s : State) : Out :=
  issue ⟨p, 2, 1, [(d, 1)], [], .alone, .none⟩ 0
    (clearSem p d c) s

end Sys2Proof.Machine
end

