-- ==== Sys2Proof/Machine/Store.lean ====
section
/-!
DEFINITION. The STORE instructions (R290, R295).
-/
namespace Sys2Proof.Machine

/-- ST_L (R290). -/
def execStL (p : Pred) (t : TypeCode) (a b : Opnd) (s : State) : Out :=
  issue ⟨p, 2, 0, [(a, 2), (b, t.regs)], [(a, 2), (b, t.regs)], .plain, .none⟩ 0
    (storeSem .glob p t a b 2) s

/-- ST_X (R290). -/
def execStX (p : Pred) (t : TypeCode) (a b : Opnd) (imm : Word) (s : State) : Out :=
  issue ⟨p, 3, 0, [(a, 2), (b, t.regs)], [(a, 2), (b, t.regs)], .plain, .none⟩ imm
    (storeSem .glob p t a b 3) s

/-- STD_L (R295). -/
def execStdL (p : Pred) (rows : Fin 8) (a b : Opnd) (s : State) : Out :=
  issue ⟨p, 2, 0, [(b, rows.val + 1)], [], .plain, .none⟩ 0
    (stdSem p a b (rows.val + 1) 2) s

/-- STD_X (R295). -/
def execStdX (p : Pred) (rows : Fin 8) (a b : Opnd) (imm : Word) (s : State) : Out :=
  issue ⟨p, 3, 0, [(b, rows.val + 1)], [], .plain, .none⟩ imm
    (stdSem p a b (rows.val + 1) 3) s

end Sys2Proof.Machine
end

