-- ==== Sys2Proof/Machine/Sync.lean ====
section
/-!
DEFINITION. The SYNC instructions (R154 to R159).
-/
namespace Sys2Proof.Machine

/-- ENDR (R154). -/
def execEndr (a b c : Opnd) (s : State) : Out :=
  issue ⟨⟨0, false⟩, 2, 0, [(a, 1), (b, 1), (c, 1)], [], .endr, .none⟩ 0
    (nopSem) s

/-- REGANG_L (R155). -/
def execRegangL (a : Opnd) (s : State) : Out :=
  issue ⟨⟨0, false⟩, 2, 0, [], [], .endr, .none⟩ 0
    (regangSem 2 a) s

/-- REGANG_X (R155). -/
def execRegangX (a : Opnd) (imm : Word) (s : State) : Out :=
  issue ⟨⟨0, false⟩, 3, 0, [], [], .endr, .none⟩ imm
    (regangSem 3 a) s

/-- BAR_L (R156). -/
def execBarL (a : Opnd) (s : State) : Out :=
  issue ⟨⟨0, false⟩, 2, 0, [], [], .irrevocable, .none⟩ 0
    (barSem a) s

/-- BAR_X (R156). -/
def execBarX (a : Opnd) (imm : Word) (s : State) : Out :=
  issue ⟨⟨0, false⟩, 3, 0, [], [], .irrevocable, .none⟩ imm
    (barSem a) s

/-- WAITE_L (R157). -/
def execWaiteL (a : Opnd) (cls : EngClass) (s : State) : Out :=
  issue ⟨⟨0, false⟩, 2, 0, [], [], .plain, .none⟩ 0
    (waiteSem a cls) s

/-- WAITE_X (R157). -/
def execWaiteX (a : Opnd) (cls : EngClass) (imm : Word) (s : State) : Out :=
  issue ⟨⟨0, false⟩, 3, 0, [], [], .plain, .none⟩ imm
    (waiteSem a cls) s

/-- RCLAIM (R158). -/
def execRclaim (a : Opnd) (imm : Word) (s : State) : Out :=
  issue ⟨⟨0, false⟩, 3, 0, [], [], .irrevocable, .claim imm.toNat⟩ imm
    (rclaimSem) s

/-- RRELEASE (R158). -/
def execRrelease (a : Opnd) (imm : Word) (s : State) : Out :=
  issue ⟨⟨0, false⟩, 3, 0, [], [], .irrevocable, .release imm.toNat⟩ imm
    (rreleaseSem) s

/-- PINFO (R159). -/
def execPinfo (p : Pred) (d : Opnd) (s : State) : Out :=
  issue ⟨p, 2, 0, [(d, 1)], [], .plain, .none⟩ 0
    (onView (pinfoOp p d)) s

end Sys2Proof.Machine
end

