-- ==== Sys2Proof/Machine/Sys.lean ====
section
/-!
DEFINITION. The SYS instructions (R361 to R370).
-/
namespace Sys2Proof.Machine

/-- SYSC_L (R364). -/
def execSyscL (a : Opnd) (s : State) : Out :=
  issue ⟨⟨0, false⟩, 2, 0, [], [], .irrevocable, .none⟩ 0
    (callTrapSem 0x14 a s) s

/-- SYSC_X (R364). -/
def execSyscX (a : Opnd) (imm : Word) (s : State) : Out :=
  issue ⟨⟨0, false⟩, 3, 0, [], [], .irrevocable, .none⟩ imm
    (callTrapSem 0x14 a s) s

/-- HCALL_L (R364). -/
def execHcallL (a : Opnd) (s : State) : Out :=
  issue ⟨⟨0, false⟩, 2, 1, [], [], .irrevocable, .none⟩ 0
    (callTrapSem 0x15 a s) s

/-- HCALL_X (R364). -/
def execHcallX (a : Opnd) (imm : Word) (s : State) : Out :=
  issue ⟨⟨0, false⟩, 3, 1, [], [], .irrevocable, .none⟩ imm
    (callTrapSem 0x15 a s) s

/-- MCALL_L (R364). -/
def execMcallL (a : Opnd) (s : State) : Out :=
  issue ⟨⟨0, false⟩, 2, 1, [], [], .irrevocable, .none⟩ 0
    (callTrapSem 0x16 a s) s

/-- MCALL_X (R364). -/
def execMcallX (a : Opnd) (imm : Word) (s : State) : Out :=
  issue ⟨⟨0, false⟩, 3, 1, [], [], .irrevocable, .none⟩ imm
    (callTrapSem 0x16 a s) s

/-- TRAP_L (R364). -/
def execTrapL (a : Opnd) (s : State) : Out :=
  issue ⟨⟨0, false⟩, 2, 0, [], [], .irrevocable, .none⟩ 0
    (callTrapSem 0x17 a s) s

/-- TRAP_X (R364). -/
def execTrapX (a : Opnd) (imm : Word) (s : State) : Out :=
  issue ⟨⟨0, false⟩, 3, 0, [], [], .irrevocable, .none⟩ imm
    (callTrapSem 0x17 a s) s

/-- TRET (R358). -/
def execTret (s : State) : Out :=
  issue ⟨⟨0, false⟩, 2, 1, [], [], .alone, .none⟩ 0
    (tretSem false) s

/-- TRET_PARK (R365). -/
def execTretPark (s : State) : Out :=
  issue ⟨⟨0, false⟩, 2, 1, [], [], .alone, .none⟩ 0
    (tretSem true) s

/-- TFENCE (R361). -/
def execTfence (s : State) : Out :=
  issue ⟨⟨0, false⟩, 2, 0, [], [], .alone, .none⟩ 0
    (tfenceSem) s

/-- MFSR (R367). -/
def execMfsr (p : Pred) (num : Fin 1024) (d : Opnd) (s : State) : Out :=
  issue ⟨p, 2, (num.val / 256), [(d, 1)], [], .plain, .none⟩ 0
    (mfsrSem p num.val d) s

/-- MTSR_L (R367). -/
def execMtsrL (p : Pred) (num : Fin 1024) (a : Opnd) (s : State) : Out :=
  issue ⟨p, 2, (num.val / 256), [], [], .irrevocable, .none⟩ 0
    (mtsrSem p num.val a) s

/-- MTSR_X (R367). -/
def execMtsrX (p : Pred) (num : Fin 1024) (a : Opnd) (imm : Word) (s : State) : Out :=
  issue ⟨p, 3, (num.val / 256), [], [], .irrevocable, .none⟩ imm
    (mtsrSem p num.val a) s

/-- GRESUME_L (R368). -/
def execGresumeL (d a : Opnd) (s : State) : Out :=
  issue ⟨⟨0, false⟩, 2, 1, [(d, 1)], [], .alone, .none⟩ 0
    (gresumeSem d a) s

/-- GRESUME_X (R368). -/
def execGresumeX (d a : Opnd) (imm : Word) (s : State) : Out :=
  issue ⟨⟨0, false⟩, 3, 1, [(d, 1)], [], .alone, .none⟩ imm
    (gresumeSem d a) s

/-- GKILL_L (R360). -/
def execGkillL (drop : Bool) (d a : Opnd) (s : State) : Out :=
  issue ⟨⟨0, false⟩, 2, 1, [(d, 1)], [], .alone, .none⟩ 0
    (gkillSem drop d a) s

/-- GKILL_X (R360). -/
def execGkillX (drop : Bool) (d a : Opnd) (imm : Word) (s : State) : Out :=
  issue ⟨⟨0, false⟩, 3, 1, [(d, 1)], [], .alone, .none⟩ imm
    (gkillSem drop d a) s

/-- TLBI (R369). -/
def execTlbi (scope : TlbiScope) (s2 : Bool) (a b : Opnd) (s : State) : Out :=
  issue ⟨⟨0, false⟩, 2, (if s2 then 2 else 1), [], [], .alone, .none⟩ 0
    (tlbiSem scope s2 a b) s

/-- TLBSYNC (R370). -/
def execTlbsync (s : State) : Out :=
  issue ⟨⟨0, false⟩, 2, 1, [], [], .alone, .none⟩ 0
    (tlbsyncSem) s

end Sys2Proof.Machine
end

