-- ==== Sys2Proof/Machine/Tier.lean ====
section
/-!
DEFINITION. The TIER instructions (R575 to R583).
-/
namespace Sys2Proof.Machine

/-- TSWAP (R578). -/
def execTswap (p : Pred) (up : Bool) (d a b : Opnd) (s : State) : Out :=
  issue ⟨p, 2, 1, [(d, 1)], [], .irrevocable, .none⟩ 0
    (tierJobSem (.swap up) p d a b) s

/-- TPIN_L (R579). -/
def execTpinL (p : Pred) (d a b : Opnd) (s : State) : Out :=
  issue ⟨p, 2, 0, [(d, 1)], [], .irrevocable, .none⟩ 0
    (pinSem true p d a b) s

/-- TPIN_X (R579). -/
def execTpinX (p : Pred) (d a b : Opnd) (imm : Word) (s : State) : Out :=
  issue ⟨p, 3, 0, [(d, 1)], [], .irrevocable, .none⟩ imm
    (pinSem true p d a b) s

/-- TUNPIN_L (R579). -/
def execTunpinL (p : Pred) (d a b : Opnd) (s : State) : Out :=
  issue ⟨p, 2, 0, [(d, 1)], [], .irrevocable, .none⟩ 0
    (pinSem false p d a b) s

/-- TUNPIN_X (R579). -/
def execTunpinX (p : Pred) (d a b : Opnd) (imm : Word) (s : State) : Out :=
  issue ⟨p, 3, 0, [(d, 1)], [], .irrevocable, .none⟩ imm
    (pinSem false p d a b) s

/-- TRES_L (R580). -/
def execTresL (p : Pred) (d a b : Opnd) (s : State) : Out :=
  issue ⟨p, 2, 0, [(d, 1)], [], .irrevocable, .none⟩ 0
    (tresSem p d a b) s

/-- TRES_X (R580). -/
def execTresX (p : Pred) (d a b : Opnd) (imm : Word) (s : State) : Out :=
  issue ⟨p, 3, 0, [(d, 1)], [], .irrevocable, .none⟩ imm
    (tresSem p d a b) s

/-- TRES_STAGE (R580). -/
def execTresStage (p : Pred) (d a b c : Opnd) (s : State) : Out :=
  issue ⟨p, 2, 0, [(d, 1)], [], .irrevocable, .none⟩ 0
    (tresStageSem p d b c) s

/-- TWREC_WS (R581). -/
def execTwrecWs (p : Pred) (d a b : Opnd) (s : State) : Out :=
  issue ⟨p, 2, 1, [(d, 1)], [], .irrevocable, .none⟩ 0
    (tierJobSem (.close false) p d a b) s

/-- TWREC_DECLARE (R581). -/
def execTwrecDeclare (p : Pred) (d a b : Opnd) (s : State) : Out :=
  issue ⟨p, 2, 1, [(d, 1)], [], .irrevocable, .none⟩ 0
    (tierJobSem .declare p d a b) s

/-- TWREC_UNDECLARE (R581). -/
def execTwrecUndeclare (p : Pred) (d a b : Opnd) (s : State) : Out :=
  issue ⟨p, 2, 1, [(d, 1)], [], .irrevocable, .none⟩ 0
    (tierJobSem .undeclare p d a b) s

/-- TWREC_DIRTY (R581). -/
def execTwrecDirty (p : Pred) (d a b : Opnd) (s : State) : Out :=
  issue ⟨p, 2, 1, [(d, 1)], [], .irrevocable, .none⟩ 0
    (tierJobSem (.close true) p d a b) s

/-- HALTC (R582). -/
def execHaltc (p : Pred) (d a b : Opnd) (s : State) : Out :=
  issue ⟨p, 2, 1, [(d, 1)], [], .irrevocable, .none⟩ 0
    (haltcSem false p d a b) s

/-- HALTC_STOP (R571). -/
def execHaltcStop (p : Pred) (d a b : Opnd) (s : State) : Out :=
  issue ⟨p, 2, 1, [(d, 1)], [], .irrevocable, .none⟩ 0
    (haltcSem true p d a b) s

/-- RESUMEC (R583). -/
def execResumec (p : Pred) (d b : Opnd) (s : State) : Out :=
  issue ⟨p, 2, 1, [(d, 1)], [], .irrevocable, .none⟩ 0
    (resumecSem p d b) s

end Sys2Proof.Machine
end

