-- ==== Sys2Proof/WellFormed.lean ====
section
/-!
DEFINITION. Well-formed instructions: those whose bits pass row 10 of R56 as far as it depends on the bits alone.
-/
namespace Sys2Proof

/-- An instruction whose operands, types and options its encoding table admits (R46 to R50, R198, R246, R250, R286,
R312, R392, R441, R477, R529, R576). -/
abbrev Instr.WellFormed (i : Instr) : Prop := Machine.admissible i = true

end Sys2Proof
end

