-- ==== Sys2Proof/Decode.lean ====
section
/-!
DEFINITION. Decoding and encoding (R32 to R50, R53, R56 rows 5 and 7 to 10). The fields of R44 are kept as numbers; the
decoder is total and refuses by name. A word that decodes may still be inadmissible under row 10: that is
Machine.admissible (WellFormed).
-/
namespace Sys2Proof

/-- Why a pattern is not an instruction (R56): length bits 0b00; MAJ not listed; a format its major or its entry does
not admit; FN not listed; PRED = 0b1000; a code of a field that is reserved; an unused field that is not zero. -/
inductive DecErr where
  | badLength | reservedMaj | formatNotAdmitted | reservedFn | reservedPred | reservedCode | unusedField
  deriving DecidableEq, Repr

/-- The fields of a pattern (R44), absent ones zero. -/
structure Raw where
  fmt : Fmt
  maj : Nat
  fn : Nat
  pred : Nat
  d : Nat
  a : Nat
  b : Nat
  c : Nat
  m : Nat
  imm : Word
  deriving DecidableEq, Repr

/-- The byte of a specifier (R49). -/
def Opnd.toByte : Opnd → Nat
  | .v n => n.val
  | .s n => 0xC0 + n.val
  | .x n => 0xE0 + n.val
  | .p n => 0xE8 + n.val
  | .zero => 0xF0 | .lane => 0xF1 | .quad => 0xF2 | .gang => 0xF3 | .exec => 0xF4 | .imm => 0xF5
  | .rsv n => 0xF6 + n.val

/-- The specifier of a byte (R49). -/
def Opnd.ofByte (n : Nat) : Opnd :=
  if h : n < 0xC0 then .v ⟨n, h⟩
  else if h : n - 0xC0 < 32 then .s ⟨n - 0xC0, h⟩
  else if h : n - 0xE0 < 8 then .x ⟨n - 0xE0, h⟩
  else if h : n - 0xE8 < 8 then .p ⟨n - 0xE8, h⟩
  else if n = 0xF0 then .zero
  else if n = 0xF1 then .lane
  else if n = 0xF2 then .quad
  else if n = 0xF3 then .gang
  else if n = 0xF4 then .exec
  else if n = 0xF5 then .imm
  else .rsv ⟨(n - 0xF6) % 10, Nat.mod_lt _ (by decide)⟩

/-- The four bits of a predicate (R45). -/
def Pred.toNat (p : Pred) : Nat := p.reg.val + 8 * p.neg.toNat
def Pred.ofNat (n : Nat) : Pred := ⟨⟨n % 8, Nat.mod_lt _ (by decide)⟩, n / 8 % 2 == 1⟩

/-- Codes: Type codes that are not reserved (R46). -/
def TypeCode.toCode : TypeCode → Nat
  | .f32 => 1
  | .f16 => 2
  | .bf16 => 3
  | .e4m3 => 4
  | .e5m2 => 5
  | .e2m1 => 6
  | .int8 => 7
  | .int4 => 8
  | .lg8 => 9
  | .lg4 => 10
  | .i32 => 16
  | .n32 => 17
  | .i64 => 18
  | .n64 => 19
  | .b8 => 20
  | .b16 => 21
  | .b32 => 22
  | .b64 => 23
  | .b128 => 24

def TypeCode.ofCode : Nat → Option TypeCode
  | 1 => some .f32
  | 2 => some .f16
  | 3 => some .bf16
  | 4 => some .e4m3
  | 5 => some .e5m2
  | 6 => some .e2m1
  | 7 => some .int8
  | 8 => some .int4
  | 9 => some .lg8
  | 10 => some .lg4
  | 16 => some .i32
  | 17 => some .n32
  | 18 => some .i64
  | 19 => some .n64
  | 20 => some .b8
  | 21 => some .b16
  | 22 => some .b32
  | 23 => some .b64
  | 24 => some .b128
  | _ => none

/-- Codes: Identifiers of GETID (R149). -/
def IdCode.toCode : IdCode → Nat
  | .core => 0
  | .subcore => 1
  | .sect => 2
  | .slot => 3
  | .gangs => 4
  | .package => 5
  | .ring => 6

def IdCode.ofCode : Nat → Option IdCode
  | 0 => some .core
  | 1 => some .subcore
  | 2 => some .sect
  | 3 => some .slot
  | 4 => some .gangs
  | 5 => some .package
  | 6 => some .ring
  | _ => none

/-- Codes: Engine classes of WAITE (R157). -/
def EngClass.toCode : EngClass → Nat
  | .copy => 0
  | .matrix => 1
  | .push => 2

def EngClass.ofCode : Nat → Option EngClass
  | 0 => some .copy
  | 1 => some .matrix
  | 2 => some .push
  | _ => none

/-- Codes: Integer conditions (R187, R324). -/
def Cond.toCode : Cond → Nat
  | .eq => 0
  | .ne => 1
  | .lt => 2
  | .le => 3
  | .gt => 4
  | .ge => 5

def Cond.ofCode : Nat → Option Cond
  | 0 => some .eq
  | 1 => some .ne
  | 2 => some .lt
  | 3 => some .le
  | 4 => some .gt
  | 5 => some .ge
  | _ => none

/-- Codes: Float conditions (R222). -/
def FCond.toCode : FCond → Nat
  | .eq => 0
  | .ne => 1
  | .lt => 2
  | .le => 3
  | .gt => 4
  | .ge => 5
  | .un => 6
  | .ord => 7

def FCond.ofCode : Nat → Option FCond
  | 0 => some .eq
  | 1 => some .ne
  | 2 => some .lt
  | 3 => some .le
  | 4 => some .gt
  | 5 => some .ge
  | 6 => some .un
  | 7 => some .ord
  | _ => none

/-- Codes: Source widths of EXT (R191). -/
def ExtW.toCode : ExtW → Nat
  | .w8 => 0
  | .w16 => 1
  | .w32 => 2

def ExtW.ofCode : Nat → Option ExtW
  | 0 => some .w8
  | 1 => some .w16
  | 2 => some .w32
  | _ => none

/-- Codes: Narrowings of PACK (R192). -/
def Narrow.toCode : Narrow → Nat
  | .keep => 0
  | .ssat => 1
  | .usat => 2

def Narrow.ofCode : Nat → Option Narrow
  | 0 => some .keep
  | 1 => some .ssat
  | 2 => some .usat
  | _ => none

/-- Codes: Rounding fields (R213). -/
def Rnd.toCode : Rnd → Nat
  | .dyn => 0
  | .rn => 1
  | .rz => 2
  | .rm => 3
  | .rp => 4

def Rnd.ofCode : Nat → Option Rnd
  | 0 => some .dyn
  | 1 => some .rn
  | 2 => some .rz
  | 3 => some .rm
  | 4 => some .rp
  | _ => none

/-- Codes: Source codes of CVT and CVTP (R229). -/
def SrcCode.toCode : SrcCode → Nat
  | .f32 => 1
  | .f16 => 2
  | .bf16 => 3
  | .e4m3 => 4
  | .e5m2 => 5
  | .e2m1 => 6
  | .int8 => 7
  | .int4 => 8
  | .lg8 => 9
  | .lg4 => 10
  | .i32 => 11
  | .n32 => 12

def SrcCode.ofCode : Nat → Option SrcCode
  | 1 => some .f32
  | 2 => some .f16
  | 3 => some .bf16
  | 4 => some .e4m3
  | 5 => some .e5m2
  | 6 => some .e2m1
  | 7 => some .int8
  | 8 => some .int4
  | 9 => some .lg8
  | 10 => some .lg4
  | 11 => some .i32
  | 12 => some .n32
  | _ => none

/-- Codes: Reduction operations (R254). -/
def RedOp.toCode : RedOp → Nat
  | .add => 0
  | .min => 1
  | .max => 2
  | .and => 3
  | .or => 4
  | .xor => 5

def RedOp.ofCode : Nat → Option RedOp
  | 0 => some .add
  | 1 => some .min
  | 2 => some .max
  | 3 => some .and
  | 4 => some .or
  | 5 => some .xor
  | _ => none

/-- Codes: Shuffle modes (R259). -/
def ShflMode.toCode : ShflMode → Nat
  | .idx => 0
  | .up => 1
  | .down => 2
  | .xor => 3

def ShflMode.ofCode : Nat → Option ShflMode
  | 0 => some .idx
  | 1 => some .up
  | 2 => some .down
  | 3 => some .xor
  | _ => none

/-- Codes: Vote modes (R260). -/
def VoteMode.toCode : VoteMode → Nat
  | .any => 0
  | .all => 1
  | .ballot => 2
  | .eq => 3

def VoteMode.ofCode : Nat → Option VoteMode
  | 0 => some .any
  | 1 => some .all
  | 2 => some .ballot
  | 3 => some .eq
  | _ => none

/-- Codes: Source formats of LDW (R294). -/
def LdwSrc.toCode : LdwSrc → Nat
  | .e4m3 => 0
  | .e5m2 => 1
  | .e2m1 => 2
  | .int8 => 3
  | .int4 => 4

def LdwSrc.ofCode : Nat → Option LdwSrc
  | 0 => some .e4m3
  | 1 => some .e5m2
  | 2 => some .e2m1
  | 3 => some .int8
  | 4 => some .int4
  | _ => none

/-- Codes: Atomic operations (R313). -/
def AtomOp.toCode : AtomOp → Nat
  | .add => 0
  | .minI => 1
  | .minN => 2
  | .maxI => 3
  | .maxN => 4
  | .and => 5
  | .or => 6
  | .xor => 7
  | .swap => 8
  | .inc => 9
  | .dec => 10
  | .fadd => 11

def AtomOp.ofCode : Nat → Option AtomOp
  | 0 => some .add
  | 1 => some .minI
  | 2 => some .minN
  | 3 => some .maxI
  | 4 => some .maxN
  | 5 => some .and
  | 6 => some .or
  | 7 => some .xor
  | 8 => some .swap
  | 9 => some .inc
  | 10 => some .dec
  | 11 => some .fadd
  | _ => none

/-- Codes: TLBI scopes (R369). -/
def TlbiScope.toCode : TlbiScope → Nat
  | .page => 0
  | .asid => 1
  | .all => 2

def TlbiScope.ofCode : Nat → Option TlbiScope
  | 0 => some .page
  | 1 => some .asid
  | 2 => some .all
  | _ => none

/-- Codes: Destination spaces of a copy (R391). -/
def DSp.toCode : DSp → Nat
  | .glob => 0
  | .sp => 1
  | .wb => 2

def DSp.ofCode : Nat → Option DSp
  | 0 => some .glob
  | 1 => some .sp
  | 2 => some .wb
  | _ => none

/-- Codes: Source spaces of a copy (R391). -/
def SSp.toCode : SSp → Nat
  | .glob => 0
  | .sp => 1
  | .ab => 2

def SSp.ofCode : Nat → Option SSp
  | 0 => some .glob
  | 1 => some .sp
  | 2 => some .ab
  | _ => none

/-- MOD[10:9] and C of a combining compare (R187). -/
def Comb.toCode : Comb → Nat
  | .none => 0 | .and _ => 1 | .or _ => 2 | .xor _ => 3
def Comb.toC : Comb → Nat
  | .none => 0 | .and c => c.toByte | .or c => c.toByte | .xor c => c.toByte
def Comb.ofCode (k c : Nat) : Comb :=
  match k with
  | 0 => .none | 1 => .and (.ofByte c) | 2 => .or (.ofByte c) | _ => .xor (.ofByte c)

/-- `n` bits of MOD from bit `lo`. -/
def Raw.bits (r : Raw) (lo n : Nat) : Nat := r.m / 2 ^ lo % 2 ^ n
def Raw.bit (r : Raw) (lo : Nat) : Bool := r.m / 2 ^ lo % 2 == 1
def Raw.p (r : Raw) : Pred := .ofNat r.pred

/-- A code that is not reserved. -/
def orCode {α : Type} (x : Option α) : Except DecErr α :=
  match x with | some a => .ok a | none => .error .reservedCode

/-- A number below a bound. -/
def finOr (k n : Nat) : Except DecErr (Fin k) := if h : n < k then .ok ⟨n, h⟩ else .error .reservedCode

/-- The fields of an instruction, from the encoding tables of the engine chapters; none for a step without an
encoding. -/
def encodeRaw (i : Instr) : Option Raw :=
  match i with
  | .nop p => some ⟨.S, 0, 0, p.toNat, 0, 0, 0, 0, 0, 0⟩
  | .exit p => some ⟨.S, 0, 1, p.toNat, 0, 0, 0, 0, 0, 0⟩
  | .yield p => some ⟨.S, 0, 2, p.toNat, 0, 0, 0, 0, 0, 0⟩
  | .elect p d => some ⟨.S, 0, 3, p.toNat, d.toByte, 0, 0, 0, 0, 0⟩
  | .getid p d id => some ⟨.S, 0, 4, p.toNat, d.toByte, id.toCode, 0, 0, 0, 0⟩
  | .time p d => some ⟨.S, 0, 5, p.toNat, d.toByte, 0, 0, 0, 0, 0⟩
  | .bra p imm => some ⟨.X, 1, 0, p.toNat, 0, 0, 0, 0, 0, imm⟩
  | .brc p a all neg imm => some ⟨.X, 1, 1, p.toNat, 0, a.toByte, 0, 0, all.toNat + neg.toNat * 2, imm⟩
  | .call p d imm => some ⟨.X, 1, 2, p.toNat, d.toByte, 0, 0, 0, 0, imm⟩
  | .loop d imm => some ⟨.X, 1, 3, 0, d.toByte, 0, 0, 0, 0, imm⟩
  | .brx p a => some ⟨.L, 2, 0, p.toNat, 0, a.toByte, 0, 0, 0, 0⟩
  | .callx p d a => some ⟨.L, 2, 1, p.toNat, d.toByte, a.toByte, 0, 0, 0, 0⟩
  | .ret p a => some ⟨.L, 2, 2, p.toNat, 0, a.toByte, 0, 0, 0, 0⟩
  | .endr a b c => some ⟨.L, 3, 0, 0, 0, a.toByte, b.toByte, c.toByte, 0, 0⟩
  | .regangL a => some ⟨.L, 3, 1, 0, 0, a.toByte, 0, 0, 0, 0⟩
  | .regangX a imm => some ⟨.X, 3, 1, 0, 0, a.toByte, 0, 0, 0, imm⟩
  | .barL a => some ⟨.L, 3, 2, 0, 0, a.toByte, 0, 0, 0, 0⟩
  | .barX a imm => some ⟨.X, 3, 2, 0, 0, a.toByte, 0, 0, 0, imm⟩
  | .waiteL a cls => some ⟨.L, 3, 3, 0, 0, a.toByte, 0, 0, cls.toCode, 0⟩
  | .waiteX a cls imm => some ⟨.X, 3, 3, 0, 0, a.toByte, 0, 0, cls.toCode, imm⟩
  | .rclaim a imm => some ⟨.X, 3, 4, 0, 0, a.toByte, 0, 0, 0, imm⟩
  | .rrelease a imm => some ⟨.X, 3, 5, 0, 0, a.toByte, 0, 0, 0, imm⟩
  | .pinfo p d => some ⟨.L, 3, 6, p.toNat, d.toByte, 0, 0, 0, 0, 0⟩
  | .addL p t sat d a b => some ⟨.L, 4, 0, p.toNat, d.toByte, a.toByte, b.toByte, 0, t.toCode * 16 + sat.toNat, 0⟩
  | .addX p t sat d a b imm => some ⟨.X, 4, 0, p.toNat, d.toByte, a.toByte, b.toByte, 0, t.toCode * 16 + sat.toNat, imm⟩
  | .subL p t sat d a b => some ⟨.L, 4, 1, p.toNat, d.toByte, a.toByte, b.toByte, 0, t.toCode * 16 + sat.toNat, 0⟩
  | .subX p t sat d a b imm => some ⟨.X, 4, 1, p.toNat, d.toByte, a.toByte, b.toByte, 0, t.toCode * 16 + sat.toNat, imm⟩
  | .add64L p t sat d a b => some ⟨.L, 4, 2, p.toNat, d.toByte, a.toByte, b.toByte, 0, t.toCode * 16 + sat.toNat, 0⟩
  | .add64X p t sat d a b imm => some ⟨.X, 4, 2, p.toNat, d.toByte, a.toByte, b.toByte, 0, t.toCode * 16 + sat.toNat, imm⟩
  | .sub64L p t sat d a b => some ⟨.L, 4, 3, p.toNat, d.toByte, a.toByte, b.toByte, 0, t.toCode * 16 + sat.toNat, 0⟩
  | .sub64X p t sat d a b imm => some ⟨.X, 4, 3, p.toNat, d.toByte, a.toByte, b.toByte, 0, t.toCode * 16 + sat.toNat, imm⟩
  | .mulL p t sat d a b => some ⟨.L, 4, 4, p.toNat, d.toByte, a.toByte, b.toByte, 0, t.toCode * 16 + sat.toNat, 0⟩
  | .mulX p t sat d a b imm => some ⟨.X, 4, 4, p.toNat, d.toByte, a.toByte, b.toByte, 0, t.toCode * 16 + sat.toNat, imm⟩
  | .mulhiL p t d a b => some ⟨.L, 4, 5, p.toNat, d.toByte, a.toByte, b.toByte, 0, t.toCode * 16, 0⟩
  | .mulhiX p t d a b imm => some ⟨.X, 4, 5, p.toNat, d.toByte, a.toByte, b.toByte, 0, t.toCode * 16, imm⟩
  | .madL p t sat d a b c => some ⟨.L, 4, 6, p.toNat, d.toByte, a.toByte, b.toByte, c.toByte, t.toCode * 16 + sat.toNat, 0⟩
  | .madX p t sat d a b c imm => some ⟨.X, 4, 6, p.toNat, d.toByte, a.toByte, b.toByte, c.toByte, t.toCode * 16 + sat.toNat, imm⟩
  | .madwL p t sat d a b c => some ⟨.L, 4, 7, p.toNat, d.toByte, a.toByte, b.toByte, c.toByte, t.toCode * 16 + sat.toNat, 0⟩
  | .madwX p t sat d a b c imm => some ⟨.X, 4, 7, p.toNat, d.toByte, a.toByte, b.toByte, c.toByte, t.toCode * 16 + sat.toNat, imm⟩
  | .divL p t d a b => some ⟨.L, 4, 8, p.toNat, d.toByte, a.toByte, b.toByte, 0, t.toCode * 16, 0⟩
  | .divX p t d a b imm => some ⟨.X, 4, 8, p.toNat, d.toByte, a.toByte, b.toByte, 0, t.toCode * 16, imm⟩
  | .remL p t d a b => some ⟨.L, 4, 9, p.toNat, d.toByte, a.toByte, b.toByte, 0, t.toCode * 16, 0⟩
  | .remX p t d a b imm => some ⟨.X, 4, 9, p.toNat, d.toByte, a.toByte, b.toByte, 0, t.toCode * 16, imm⟩
  | .minL p t d a b => some ⟨.L, 4, 10, p.toNat, d.toByte, a.toByte, b.toByte, 0, t.toCode * 16, 0⟩
  | .minX p t d a b imm => some ⟨.X, 4, 10, p.toNat, d.toByte, a.toByte, b.toByte, 0, t.toCode * 16, imm⟩
  | .maxL p t d a b => some ⟨.L, 4, 11, p.toNat, d.toByte, a.toByte, b.toByte, 0, t.toCode * 16, 0⟩
  | .maxX p t d a b imm => some ⟨.X, 4, 11, p.toNat, d.toByte, a.toByte, b.toByte, 0, t.toCode * 16, imm⟩
  | .absL p t sat d a => some ⟨.L, 4, 12, p.toNat, d.toByte, a.toByte, 0, 0, t.toCode * 16 + sat.toNat, 0⟩
  | .absX p t sat d a imm => some ⟨.X, 4, 12, p.toNat, d.toByte, a.toByte, 0, 0, t.toCode * 16 + sat.toNat, imm⟩
  | .negL p t sat d a => some ⟨.L, 4, 13, p.toNat, d.toByte, a.toByte, 0, 0, t.toCode * 16 + sat.toNat, 0⟩
  | .negX p t sat d a imm => some ⟨.X, 4, 13, p.toNat, d.toByte, a.toByte, 0, 0, t.toCode * 16 + sat.toNat, imm⟩
  | .andL p t d a b => some ⟨.L, 5, 0, p.toNat, d.toByte, a.toByte, b.toByte, 0, t.toCode * 16, 0⟩
  | .andX p t d a b imm => some ⟨.X, 5, 0, p.toNat, d.toByte, a.toByte, b.toByte, 0, t.toCode * 16, imm⟩
  | .orL p t d a b => some ⟨.L, 5, 1, p.toNat, d.toByte, a.toByte, b.toByte, 0, t.toCode * 16, 0⟩
  | .orX p t d a b imm => some ⟨.X, 5, 1, p.toNat, d.toByte, a.toByte, b.toByte, 0, t.toCode * 16, imm⟩
  | .xorL p t d a b => some ⟨.L, 5, 2, p.toNat, d.toByte, a.toByte, b.toByte, 0, t.toCode * 16, 0⟩
  | .xorX p t d a b imm => some ⟨.X, 5, 2, p.toNat, d.toByte, a.toByte, b.toByte, 0, t.toCode * 16, imm⟩
  | .andnL p t d a b => some ⟨.L, 5, 3, p.toNat, d.toByte, a.toByte, b.toByte, 0, t.toCode * 16, 0⟩
  | .andnX p t d a b imm => some ⟨.X, 5, 3, p.toNat, d.toByte, a.toByte, b.toByte, 0, t.toCode * 16, imm⟩
  | .notL p t d a => some ⟨.L, 5, 4, p.toNat, d.toByte, a.toByte, 0, 0, t.toCode * 16, 0⟩
  | .notX p t d a imm => some ⟨.X, 5, 4, p.toNat, d.toByte, a.toByte, 0, 0, t.toCode * 16, imm⟩
  | .shlL p t d a b => some ⟨.L, 5, 5, p.toNat, d.toByte, a.toByte, b.toByte, 0, t.toCode * 16, 0⟩
  | .shlX p t d a b imm => some ⟨.X, 5, 5, p.toNat, d.toByte, a.toByte, b.toByte, 0, t.toCode * 16, imm⟩
  | .shrL p t d a b => some ⟨.L, 5, 6, p.toNat, d.toByte, a.toByte, b.toByte, 0, t.toCode * 16, 0⟩
  | .shrX p t d a b imm => some ⟨.X, 5, 6, p.toNat, d.toByte, a.toByte, b.toByte, 0, t.toCode * 16, imm⟩
  | .sarL p t d a b => some ⟨.L, 5, 7, p.toNat, d.toByte, a.toByte, b.toByte, 0, t.toCode * 16, 0⟩
  | .sarX p t d a b imm => some ⟨.X, 5, 7, p.toNat, d.toByte, a.toByte, b.toByte, 0, t.toCode * 16, imm⟩
  | .rotlL p t d a b => some ⟨.L, 5, 8, p.toNat, d.toByte, a.toByte, b.toByte, 0, t.toCode * 16, 0⟩
  | .rotlX p t d a b imm => some ⟨.X, 5, 8, p.toNat, d.toByte, a.toByte, b.toByte, 0, t.toCode * 16, imm⟩
  | .funnelL p t d a b c => some ⟨.L, 5, 9, p.toNat, d.toByte, a.toByte, b.toByte, c.toByte, t.toCode * 16, 0⟩
  | .funnelX p t d a b c imm => some ⟨.X, 5, 9, p.toNat, d.toByte, a.toByte, b.toByte, c.toByte, t.toCode * 16, imm⟩
  | .popcL p t d a => some ⟨.L, 5, 10, p.toNat, d.toByte, a.toByte, 0, 0, t.toCode * 16, 0⟩
  | .popcX p t d a imm => some ⟨.X, 5, 10, p.toNat, d.toByte, a.toByte, 0, 0, t.toCode * 16, imm⟩
  | .clzL p t d a => some ⟨.L, 5, 11, p.toNat, d.toByte, a.toByte, 0, 0, t.toCode * 16, 0⟩
  | .clzX p t d a imm => some ⟨.X, 5, 11, p.toNat, d.toByte, a.toByte, 0, 0, t.toCode * 16, imm⟩
  | .ctzL p t d a => some ⟨.L, 5, 12, p.toNat, d.toByte, a.toByte, 0, 0, t.toCode * 16, 0⟩
  | .ctzX p t d a imm => some ⟨.X, 5, 12, p.toNat, d.toByte, a.toByte, 0, 0, t.toCode * 16, imm⟩
  | .brevL p t d a => some ⟨.L, 5, 13, p.toNat, d.toByte, a.toByte, 0, 0, t.toCode * 16, 0⟩
  | .brevX p t d a imm => some ⟨.X, 5, 13, p.toNat, d.toByte, a.toByte, 0, 0, t.toCode * 16, imm⟩
  | .bfeL p t d a b => some ⟨.L, 5, 14, p.toNat, d.toByte, a.toByte, b.toByte, 0, t.toCode * 16, 0⟩
  | .bfeX p t d a b imm => some ⟨.X, 5, 14, p.toNat, d.toByte, a.toByte, b.toByte, 0, t.toCode * 16, imm⟩
  | .bfiL p t d a b c => some ⟨.L, 5, 15, p.toNat, d.toByte, a.toByte, b.toByte, c.toByte, t.toCode * 16, 0⟩
  | .bfiX p t d a b c imm => some ⟨.X, 5, 15, p.toNat, d.toByte, a.toByte, b.toByte, c.toByte, t.toCode * 16, imm⟩
  | .permbL p t d a b c => some ⟨.L, 5, 16, p.toNat, d.toByte, a.toByte, b.toByte, c.toByte, t.toCode * 16, 0⟩
  | .permbX p t d a b c imm => some ⟨.X, 5, 16, p.toNat, d.toByte, a.toByte, b.toByte, c.toByte, t.toCode * 16, imm⟩
  | .cmpL p t cond comb d a b => some ⟨.L, 6, 0, p.toNat, d.toByte, a.toByte, b.toByte, comb.toC, t.toCode * 16 + cond.toCode + comb.toCode * 512, 0⟩
  | .cmpX p t cond comb d a b imm => some ⟨.X, 6, 0, p.toNat, d.toByte, a.toByte, b.toByte, comb.toC, t.toCode * 16 + cond.toCode + comb.toCode * 512, imm⟩
  | .pandL p d a b => some ⟨.L, 6, 1, p.toNat, d.toByte, a.toByte, b.toByte, 0, 0, 0⟩
  | .pandX p d a b imm => some ⟨.X, 6, 1, p.toNat, d.toByte, a.toByte, b.toByte, 0, 0, imm⟩
  | .porL p d a b => some ⟨.L, 6, 2, p.toNat, d.toByte, a.toByte, b.toByte, 0, 0, 0⟩
  | .porX p d a b imm => some ⟨.X, 6, 2, p.toNat, d.toByte, a.toByte, b.toByte, 0, 0, imm⟩
  | .pxorL p d a b => some ⟨.L, 6, 3, p.toNat, d.toByte, a.toByte, b.toByte, 0, 0, 0⟩
  | .pxorX p d a b imm => some ⟨.X, 6, 3, p.toNat, d.toByte, a.toByte, b.toByte, 0, 0, imm⟩
  | .pnotL p d a => some ⟨.L, 6, 4, p.toNat, d.toByte, a.toByte, 0, 0, 0, 0⟩
  | .pnotX p d a imm => some ⟨.X, 6, 4, p.toNat, d.toByte, a.toByte, 0, 0, 0, imm⟩
  | .movL p t d a => some ⟨.L, 7, 0, p.toNat, d.toByte, a.toByte, 0, 0, t.toCode * 16, 0⟩
  | .movX p t d a imm => some ⟨.X, 7, 0, p.toNat, d.toByte, a.toByte, 0, 0, t.toCode * 16, imm⟩
  | .movi p t h d a imm => some ⟨.X, 7, 1, p.toNat, d.toByte, a.toByte, 0, 0, t.toCode * 16 + h.val, imm⟩
  | .selL p t d a b c => some ⟨.L, 7, 2, p.toNat, d.toByte, a.toByte, b.toByte, c.toByte, t.toCode * 16, 0⟩
  | .selX p t d a b c imm => some ⟨.X, 7, 2, p.toNat, d.toByte, a.toByte, b.toByte, c.toByte, t.toCode * 16, imm⟩
  | .extL p t w d a => some ⟨.L, 7, 3, p.toNat, d.toByte, a.toByte, 0, 0, t.toCode * 16 + w.toCode, 0⟩
  | .extX p t w d a imm => some ⟨.X, 7, 3, p.toNat, d.toByte, a.toByte, 0, 0, t.toCode * 16 + w.toCode, imm⟩
  | .packL p t nar d a b => some ⟨.L, 7, 4, p.toNat, d.toByte, a.toByte, b.toByte, 0, t.toCode * 16 + nar.toCode, 0⟩
  | .packX p t nar d a b imm => some ⟨.X, 7, 4, p.toNat, d.toByte, a.toByte, b.toByte, 0, t.toCode * 16 + nar.toCode, imm⟩
  | .unpackL p t idx sx d a => some ⟨.L, 7, 5, p.toNat, d.toByte, a.toByte, 0, 0, t.toCode * 16 + idx.val + sx.toNat * 4, 0⟩
  | .unpackX p t idx sx d a imm => some ⟨.X, 7, 5, p.toNat, d.toByte, a.toByte, 0, 0, t.toCode * 16 + idx.val + sx.toNat * 4, imm⟩
  | .faddL p t rnd d a b => some ⟨.L, 8, 0, p.toNat, d.toByte, a.toByte, b.toByte, 0, t.toCode * 16 + rnd.toCode, 0⟩
  | .faddX p t rnd d a b imm => some ⟨.X, 8, 0, p.toNat, d.toByte, a.toByte, b.toByte, 0, t.toCode * 16 + rnd.toCode, imm⟩
  | .fsubL p t rnd d a b => some ⟨.L, 8, 1, p.toNat, d.toByte, a.toByte, b.toByte, 0, t.toCode * 16 + rnd.toCode, 0⟩
  | .fsubX p t rnd d a b imm => some ⟨.X, 8, 1, p.toNat, d.toByte, a.toByte, b.toByte, 0, t.toCode * 16 + rnd.toCode, imm⟩
  | .fmulL p t rnd d a b => some ⟨.L, 8, 2, p.toNat, d.toByte, a.toByte, b.toByte, 0, t.toCode * 16 + rnd.toCode, 0⟩
  | .fmulX p t rnd d a b imm => some ⟨.X, 8, 2, p.toNat, d.toByte, a.toByte, b.toByte, 0, t.toCode * 16 + rnd.toCode, imm⟩
  | .ffmaL p t rnd d a b c => some ⟨.L, 8, 3, p.toNat, d.toByte, a.toByte, b.toByte, c.toByte, t.toCode * 16 + rnd.toCode, 0⟩
  | .ffmaX p t rnd d a b c imm => some ⟨.X, 8, 3, p.toNat, d.toByte, a.toByte, b.toByte, c.toByte, t.toCode * 16 + rnd.toCode, imm⟩
  | .fminL p t d a b => some ⟨.L, 8, 4, p.toNat, d.toByte, a.toByte, b.toByte, 0, t.toCode * 16, 0⟩
  | .fminX p t d a b imm => some ⟨.X, 8, 4, p.toNat, d.toByte, a.toByte, b.toByte, 0, t.toCode * 16, imm⟩
  | .fmaxL p t d a b => some ⟨.L, 8, 5, p.toNat, d.toByte, a.toByte, b.toByte, 0, t.toCode * 16, 0⟩
  | .fmaxX p t d a b imm => some ⟨.X, 8, 5, p.toNat, d.toByte, a.toByte, b.toByte, 0, t.toCode * 16, imm⟩
  | .fabsL p t d a => some ⟨.L, 8, 6, p.toNat, d.toByte, a.toByte, 0, 0, t.toCode * 16, 0⟩
  | .fabsX p t d a imm => some ⟨.X, 8, 6, p.toNat, d.toByte, a.toByte, 0, 0, t.toCode * 16, imm⟩
  | .fnegL p t d a => some ⟨.L, 8, 7, p.toNat, d.toByte, a.toByte, 0, 0, t.toCode * 16, 0⟩
  | .fnegX p t d a imm => some ⟨.X, 8, 7, p.toNat, d.toByte, a.toByte, 0, 0, t.toCode * 16, imm⟩
  | .fcmpL p t cond comb d a b => some ⟨.L, 8, 8, p.toNat, d.toByte, a.toByte, b.toByte, comb.toC, t.toCode * 16 + cond.toCode + comb.toCode * 512, 0⟩
  | .fcmpX p t cond comb d a b imm => some ⟨.X, 8, 8, p.toNat, d.toByte, a.toByte, b.toByte, comb.toC, t.toCode * 16 + cond.toCode + comb.toCode * 512, imm⟩
  | .frndL p t rnd d a => some ⟨.L, 8, 9, p.toNat, d.toByte, a.toByte, 0, 0, t.toCode * 16 + rnd.toCode, 0⟩
  | .frndX p t rnd d a imm => some ⟨.X, 8, 9, p.toNat, d.toByte, a.toByte, 0, 0, t.toCode * 16 + rnd.toCode, imm⟩
  | .fclassL p t d a => some ⟨.L, 8, 10, p.toNat, d.toByte, a.toByte, 0, 0, t.toCode * 16, 0⟩
  | .fclassX p t d a imm => some ⟨.X, 8, 10, p.toNat, d.toByte, a.toByte, 0, 0, t.toCode * 16, imm⟩
  | .fscaleL p t rnd d a b => some ⟨.L, 8, 11, p.toNat, d.toByte, a.toByte, b.toByte, 0, t.toCode * 16 + rnd.toCode, 0⟩
  | .fscaleX p t rnd d a b imm => some ⟨.X, 8, 11, p.toNat, d.toByte, a.toByte, b.toByte, 0, t.toCode * 16 + rnd.toCode, imm⟩
  | .frcp p t d a => some ⟨.L, 9, 0, p.toNat, d.toByte, a.toByte, 0, 0, t.toCode * 16, 0⟩
  | .frsq p t d a => some ⟨.L, 9, 1, p.toNat, d.toByte, a.toByte, 0, 0, t.toCode * 16, 0⟩
  | .fsqrt p t rnd d a => some ⟨.L, 9, 2, p.toNat, d.toByte, a.toByte, 0, 0, t.toCode * 16 + rnd.toCode, 0⟩
  | .fdiv p t rnd d a b => some ⟨.L, 9, 3, p.toNat, d.toByte, a.toByte, b.toByte, 0, t.toCode * 16 + rnd.toCode, 0⟩
  | .fexp2 p t d a => some ⟨.L, 9, 4, p.toNat, d.toByte, a.toByte, 0, 0, t.toCode * 16, 0⟩
  | .flog2 p t d a => some ⟨.L, 9, 5, p.toNat, d.toByte, a.toByte, 0, 0, t.toCode * 16, 0⟩
  | .fsin p t d a => some ⟨.L, 9, 6, p.toNat, d.toByte, a.toByte, 0, 0, t.toCode * 16, 0⟩
  | .fcos p t d a => some ⟨.L, 9, 7, p.toNat, d.toByte, a.toByte, 0, 0, t.toCode * 16, 0⟩
  | .cvt p src t rnd d a => some ⟨.L, 10, 0, p.toNat, d.toByte, a.toByte, 0, 0, src.toCode + t.toCode * 16 + rnd.toCode * 512, 0⟩
  | .cvtp p src t rnd d a b slot => some ⟨.L, 10, 1, p.toNat, d.toByte, a.toByte, b.toByte, slot.val, src.toCode + t.toCode * 16 + rnd.toCode * 512, 0⟩
  | .tagget p d a => some ⟨.L, 10, 2, p.toNat, d.toByte, a.toByte, 0, 0, 0, 0⟩
  | .tagset p d a => some ⟨.L, 10, 3, p.toNat, d.toByte, a.toByte, 0, 0, 0, 0⟩
  | .hadd2L p t rnd d a b => some ⟨.L, 11, 0, p.toNat, d.toByte, a.toByte, b.toByte, 0, t.toCode * 16 + rnd.toCode, 0⟩
  | .hadd2X p t rnd d a b imm => some ⟨.X, 11, 0, p.toNat, d.toByte, a.toByte, b.toByte, 0, t.toCode * 16 + rnd.toCode, imm⟩
  | .hmul2L p t rnd d a b => some ⟨.L, 11, 1, p.toNat, d.toByte, a.toByte, b.toByte, 0, t.toCode * 16 + rnd.toCode, 0⟩
  | .hmul2X p t rnd d a b imm => some ⟨.X, 11, 1, p.toNat, d.toByte, a.toByte, b.toByte, 0, t.toCode * 16 + rnd.toCode, imm⟩
  | .hfma2L p t rnd d a b c => some ⟨.L, 11, 2, p.toNat, d.toByte, a.toByte, b.toByte, c.toByte, t.toCode * 16 + rnd.toCode, 0⟩
  | .hfma2X p t rnd d a b c imm => some ⟨.X, 11, 2, p.toNat, d.toByte, a.toByte, b.toByte, c.toByte, t.toCode * 16 + rnd.toCode, imm⟩
  | .dot4L p t rnd d a b c => some ⟨.L, 11, 3, p.toNat, d.toByte, a.toByte, b.toByte, c.toByte, t.toCode * 16 + rnd.toCode, 0⟩
  | .dot4X p t rnd d a b c imm => some ⟨.X, 11, 3, p.toNat, d.toByte, a.toByte, b.toByte, c.toByte, t.toCode * 16 + rnd.toCode, imm⟩
  | .dot8L p t rnd d a b c => some ⟨.L, 11, 4, p.toNat, d.toByte, a.toByte, b.toByte, c.toByte, t.toCode * 16 + rnd.toCode, 0⟩
  | .dot8X p t rnd d a b c imm => some ⟨.X, 11, 4, p.toNat, d.toByte, a.toByte, b.toByte, c.toByte, t.toCode * 16 + rnd.toCode, imm⟩
  | .qswap p t pat d a => some ⟨.L, 12, 0, p.toNat, d.toByte, a.toByte, 0, 0, t.toCode * 16 + pat.val, 0⟩
  | .qbcast p t j d a => some ⟨.L, 12, 1, p.toNat, d.toByte, a.toByte, 0, 0, t.toCode * 16 + j.val, 0⟩
  | .qshuf p t d a b => some ⟨.L, 12, 2, p.toNat, d.toByte, a.toByte, b.toByte, 0, t.toCode * 16, 0⟩
  | .qred p t op d a => some ⟨.L, 12, 3, p.toNat, d.toByte, a.toByte, 0, 0, t.toCode * 16 + op.toCode, 0⟩
  | .shfl p t mode d a b => some ⟨.L, 13, 0, p.toNat, d.toByte, a.toByte, b.toByte, 0, t.toCode * 16 + mode.toCode, 0⟩
  | .vote p mode d a => some ⟨.L, 13, 1, p.toNat, d.toByte, a.toByte, 0, 0, mode.toCode, 0⟩
  | .scanPrefix p t op ex d a => some ⟨.L, 13, 2, p.toNat, d.toByte, a.toByte, 0, 0, t.toCode * 16 + op.toCode + ex.toNat * 512, 0⟩
  | .gred p t op d a => some ⟨.L, 13, 3, p.toNat, d.toByte, a.toByte, 0, 0, t.toCode * 16 + op.toCode, 0⟩
  | .xpose p t d a => some ⟨.L, 13, 4, p.toNat, d.toByte, a.toByte, 0, 0, t.toCode * 16, 0⟩
  | .ldL p t sx d a => some ⟨.L, 16, 0, p.toNat, d.toByte, a.toByte, 0, 0, t.toCode * 16 + sx.toNat, 0⟩
  | .ldX p t sx d a imm => some ⟨.X, 16, 0, p.toNat, d.toByte, a.toByte, 0, 0, t.toCode * 16 + sx.toNat, imm⟩
  | .lddL p rows d a => some ⟨.L, 16, 1, p.toNat, d.toByte, a.toByte, 0, 0, rows.val, 0⟩
  | .lddX p rows d a imm => some ⟨.X, 16, 1, p.toNat, d.toByte, a.toByte, 0, 0, rows.val, imm⟩
  | .ldwL p t rows src d a => some ⟨.L, 16, 2, p.toNat, d.toByte, a.toByte, 0, 0, t.toCode * 16 + rows.val + src.toCode * 512, 0⟩
  | .ldwX p t rows src d a imm => some ⟨.X, 16, 2, p.toNat, d.toByte, a.toByte, 0, 0, t.toCode * 16 + rows.val + src.toCode * 512, imm⟩
  | .prefL p slice a => some ⟨.L, 16, 3, p.toNat, 0, a.toByte, 0, 0, slice.toNat, 0⟩
  | .prefX p slice a imm => some ⟨.X, 16, 3, p.toNat, 0, a.toByte, 0, 0, slice.toNat, imm⟩
  | .stL p t a b => some ⟨.L, 17, 0, p.toNat, 0, a.toByte, b.toByte, 0, t.toCode * 16, 0⟩
  | .stX p t a b imm => some ⟨.X, 17, 0, p.toNat, 0, a.toByte, b.toByte, 0, t.toCode * 16, imm⟩
  | .stdL p rows a b => some ⟨.L, 17, 1, p.toNat, 0, a.toByte, b.toByte, 0, rows.val, 0⟩
  | .stdX p rows a b imm => some ⟨.X, 17, 1, p.toNat, 0, a.toByte, b.toByte, 0, rows.val, imm⟩
  | .ldsL p t sx d a => some ⟨.L, 18, 0, p.toNat, d.toByte, a.toByte, 0, 0, t.toCode * 16 + sx.toNat, 0⟩
  | .ldsX p t sx d a imm => some ⟨.X, 18, 0, p.toNat, d.toByte, a.toByte, 0, 0, t.toCode * 16 + sx.toNat, imm⟩
  | .ldaL p t sx d a => some ⟨.L, 18, 2, p.toNat, d.toByte, a.toByte, 0, 0, t.toCode * 16 + sx.toNat, 0⟩
  | .ldaX p t sx d a imm => some ⟨.X, 18, 2, p.toNat, d.toByte, a.toByte, 0, 0, t.toCode * 16 + sx.toNat, imm⟩
  | .ldwbL p t sx d a => some ⟨.L, 18, 4, p.toNat, d.toByte, a.toByte, 0, 0, t.toCode * 16 + sx.toNat, 0⟩
  | .ldwbX p t sx d a imm => some ⟨.X, 18, 4, p.toNat, d.toByte, a.toByte, 0, 0, t.toCode * 16 + sx.toNat, imm⟩
  | .stsL p t a b => some ⟨.L, 18, 1, p.toNat, 0, a.toByte, b.toByte, 0, t.toCode * 16, 0⟩
  | .stsX p t a b imm => some ⟨.X, 18, 1, p.toNat, 0, a.toByte, b.toByte, 0, t.toCode * 16, imm⟩
  | .staL p t a b => some ⟨.L, 18, 3, p.toNat, 0, a.toByte, b.toByte, 0, t.toCode * 16, 0⟩
  | .staX p t a b imm => some ⟨.X, 18, 3, p.toNat, 0, a.toByte, b.toByte, 0, t.toCode * 16, imm⟩
  | .atomL p op nr w64 d a b => some ⟨.L, 20, 0, p.toNat, d.toByte, a.toByte, b.toByte, 0, op.toCode + nr.toNat * 16 + w64.toNat * 32, 0⟩
  | .atomX p op nr w64 d a b imm => some ⟨.X, 20, 0, p.toNat, d.toByte, a.toByte, b.toByte, 0, op.toCode + nr.toNat * 16 + w64.toNat * 32, imm⟩
  | .casL p w64 d a b c => some ⟨.L, 20, 1, p.toNat, d.toByte, a.toByte, b.toByte, c.toByte, w64.toNat * 32, 0⟩
  | .casX p w64 d a b c imm => some ⟨.X, 20, 1, p.toNat, d.toByte, a.toByte, b.toByte, c.toByte, w64.toNat * 32, imm⟩
  | .atomsL p op nr w64 d a b => some ⟨.L, 20, 2, p.toNat, d.toByte, a.toByte, b.toByte, 0, op.toCode + nr.toNat * 16 + w64.toNat * 32, 0⟩
  | .atomsX p op nr w64 d a b imm => some ⟨.X, 20, 2, p.toNat, d.toByte, a.toByte, b.toByte, 0, op.toCode + nr.toNat * 16 + w64.toNat * 32, imm⟩
  | .cassL p w64 d a b c => some ⟨.L, 20, 3, p.toNat, d.toByte, a.toByte, b.toByte, c.toByte, w64.toNat * 32, 0⟩
  | .cassX p w64 d a b c imm => some ⟨.X, 20, 3, p.toNat, d.toByte, a.toByte, b.toByte, c.toByte, w64.toNat * 32, imm⟩
  | .waitcL p cond t d a b c => some ⟨.L, 21, 0, p.toNat, d.toByte, a.toByte, b.toByte, c.toByte, cond.toCode + t.toCode * 16, 0⟩
  | .waitcX p cond t d a b c imm => some ⟨.X, 21, 0, p.toNat, d.toByte, a.toByte, b.toByte, c.toByte, cond.toCode + t.toCode * 16, imm⟩
  | .armcL p cond t d a b => some ⟨.L, 21, 1, p.toNat, d.toByte, a.toByte, b.toByte, 0, cond.toCode + t.toCode * 16, 0⟩
  | .armcX p cond t d a b imm => some ⟨.X, 21, 1, p.toNat, d.toByte, a.toByte, b.toByte, 0, cond.toCode + t.toCode * 16, imm⟩
  | .checkc p d => some ⟨.L, 21, 2, p.toNat, d.toByte, 0, 0, 0, 0, 0⟩
  | .syscL a => some ⟨.L, 24, 0, 0, 0, a.toByte, 0, 0, 0, 0⟩
  | .syscX a imm => some ⟨.X, 24, 0, 0, 0, a.toByte, 0, 0, 0, imm⟩
  | .hcallL a => some ⟨.L, 24, 1, 0, 0, a.toByte, 0, 0, 0, 0⟩
  | .hcallX a imm => some ⟨.X, 24, 1, 0, 0, a.toByte, 0, 0, 0, imm⟩
  | .mcallL a => some ⟨.L, 24, 2, 0, 0, a.toByte, 0, 0, 0, 0⟩
  | .mcallX a imm => some ⟨.X, 24, 2, 0, 0, a.toByte, 0, 0, 0, imm⟩
  | .trapL a => some ⟨.L, 24, 5, 0, 0, a.toByte, 0, 0, 0, 0⟩
  | .trapX a imm => some ⟨.X, 24, 5, 0, 0, a.toByte, 0, 0, 0, imm⟩
  | .tret => some ⟨.L, 24, 3, 0, 0, 0, 0, 0, 0, 0⟩
  | .tretPark => some ⟨.L, 24, 3, 0, 0, 0, 0, 0, 1, 0⟩
  | .tfence => some ⟨.L, 24, 4, 0, 0, 0, 0, 0, 0, 0⟩
  | .mfsr p num d => some ⟨.L, 24, 6, p.toNat, d.toByte, 0, 0, 0, num.val, 0⟩
  | .mtsrL p num a => some ⟨.L, 24, 7, p.toNat, 0, a.toByte, 0, 0, num.val, 0⟩
  | .mtsrX p num a imm => some ⟨.X, 24, 7, p.toNat, 0, a.toByte, 0, 0, num.val, imm⟩
  | .gresumeL d a => some ⟨.L, 24, 8, 0, d.toByte, a.toByte, 0, 0, 0, 0⟩
  | .gresumeX d a imm => some ⟨.X, 24, 8, 0, d.toByte, a.toByte, 0, 0, 0, imm⟩
  | .gkillL drop d a => some ⟨.L, 24, 9, 0, d.toByte, a.toByte, 0, 0, drop.toNat, 0⟩
  | .gkillX drop d a imm => some ⟨.X, 24, 9, 0, d.toByte, a.toByte, 0, 0, drop.toNat, imm⟩
  | .tlbi scope s2 a b => some ⟨.L, 24, 10, 0, 0, a.toByte, b.toByte, 0, scope.toCode + s2.toNat * 4, 0⟩
  | .tlbsync => some ⟨.L, 24, 11, 0, 0, 0, 0, 0, 0, 0⟩
  | .cpy p dsp ssp d a b c imm => some ⟨.X, 28, 0, p.toNat, d.toByte, a.toByte, b.toByte, c.toByte, dsp.toCode + ssp.toCode * 4, imm⟩
  | .cpys p dsp ssp d a b c imm => some ⟨.X, 28, 1, p.toNat, d.toByte, a.toByte, b.toByte, c.toByte, dsp.toCode + ssp.toCode * 4, imm⟩
  | .cpyg p dsp d a b c imm => some ⟨.X, 28, 2, p.toNat, d.toByte, a.toByte, b.toByte, c.toByte, dsp.toCode, imm⟩
  | .cpyt p ssp d a b c imm => some ⟨.X, 28, 3, p.toNat, d.toByte, a.toByte, b.toByte, c.toByte, ssp.toCode * 4, imm⟩
  | .cpym p dsp d a b imm => some ⟨.X, 28, 4, p.toNat, d.toByte, a.toByte, b.toByte, 0, dsp.toCode, imm⟩
  | .cpyf p dsp fc d a b c imm => some ⟨.X, 28, 5, p.toNat, d.toByte, a.toByte, b.toByte, c.toByte, dsp.toCode + fc.val * 16, imm⟩
  | .swinit p a b imm => some ⟨.X, 28, 6, p.toNat, 0, a.toByte, b.toByte, 0, 0, imm⟩
  | .swwait p d a b imm => some ⟨.X, 28, 7, p.toNat, d.toByte, a.toByte, b.toByte, 0, 0, imm⟩
  | .mma p m reuse z d a b imm => some ⟨.X, 32, 0, p.toNat, d.toByte, a.toByte, b.toByte, 0, m.val + reuse.toNat * 32 + z.toNat * 64, imm⟩
  | .mmap p m reuse z d a b imm => some ⟨.X, 32, 1, p.toNat, d.toByte, a.toByte, b.toByte, 0, m.val + reuse.toNat * 32 + z.toNat * 64, imm⟩
  | .mclr p m d imm => some ⟨.X, 32, 2, p.toNat, d.toByte, 0, 0, 0, m.val, imm⟩
  | .mcvt p m fmt d a b imm => some ⟨.X, 32, 3, p.toNat, d.toByte, a.toByte, b.toByte, 0, m.val + fmt.toCode * 32, imm⟩
  | .macc p m team d a imm => some ⟨.X, 32, 4, p.toNat, d.toByte, a.toByte, 0, 0, m.val + team.toNat * 32, imm⟩
  | .mrel p imm => some ⟨.X, 32, 5, p.toNat, 0, 0, 0, 0, 0, imm⟩
  | .qpopL p wait d a => some ⟨.L, 36, 0, p.toNat, d.toByte, a.toByte, 0, 0, wait.toNat, 0⟩
  | .qpopX p wait d a imm => some ⟨.X, 36, 0, p.toNat, d.toByte, a.toByte, 0, 0, wait.toNat, imm⟩
  | .qpushL p o a => some ⟨.L, 36, 1, p.toNat, 0, a.toByte, 0, 0, o.val, 0⟩
  | .qpushX p o a imm => some ⟨.X, 36, 1, p.toNat, 0, a.toByte, 0, 0, o.val, imm⟩
  | .qpushsL p o a b => some ⟨.L, 36, 2, p.toNat, 0, a.toByte, b.toByte, 0, o.val, 0⟩
  | .qpushsX p o a b imm => some ⟨.X, 36, 2, p.toNat, 0, a.toByte, b.toByte, 0, o.val, imm⟩
  | .qdone p => some ⟨.L, 36, 3, p.toNat, 0, 0, 0, 0, 0, 0⟩
  | .qlen p sel d => some ⟨.L, 36, 4, p.toNat, d.toByte, 0, 0, 0, sel.val, 0⟩
  | .qseedL p o d a b c => some ⟨.L, 36, 5, p.toNat, d.toByte, a.toByte, b.toByte, c.toByte, o.val, 0⟩
  | .qseedX p o d a b c imm => some ⟨.X, 36, 5, p.toNat, d.toByte, a.toByte, b.toByte, c.toByte, o.val, imm⟩
  | .qctlSetq p d a b c => some ⟨.L, 36, 6, p.toNat, d.toByte, a.toByte, b.toByte, c.toByte, 0, 0⟩
  | .qctlSets p d a b c => some ⟨.L, 36, 6, p.toNat, d.toByte, a.toByte, b.toByte, c.toByte, 1, 0⟩
  | .qctlBind p d a b c => some ⟨.L, 36, 6, p.toNat, d.toByte, a.toByte, b.toByte, c.toByte, 2, 0⟩
  | .qctlUnbind p d a b c => some ⟨.L, 36, 6, p.toNat, d.toByte, a.toByte, b.toByte, c.toByte, 3, 0⟩
  | .qctlStat p d a b c => some ⟨.L, 36, 6, p.toNat, d.toByte, a.toByte, b.toByte, c.toByte, 4, 0⟩
  | .qctlStop p d a b c => some ⟨.L, 36, 6, p.toNat, d.toByte, a.toByte, b.toByte, c.toByte, 5, 0⟩
  | .qctlStart p d a b c => some ⟨.L, 36, 6, p.toNat, d.toByte, a.toByte, b.toByte, c.toByte, 6, 0⟩
  | .qctlClear p d a b c => some ⟨.L, 36, 6, p.toNat, d.toByte, a.toByte, b.toByte, c.toByte, 7, 0⟩
  | .fstatPort p d a => some ⟨.L, 40, 0, p.toNat, d.toByte, a.toByte, 0, 0, 0, 0⟩
  | .fstatRoute p d a => some ⟨.L, 40, 0, p.toNat, d.toByte, a.toByte, 0, 0, 1, 0⟩
  | .fstatMirror p d a => some ⟨.L, 40, 0, p.toNat, d.toByte, a.toByte, 0, 0, 2, 0⟩
  | .fstatTokens p d a => some ⟨.L, 40, 0, p.toNat, d.toByte, a.toByte, 0, 0, 3, 0⟩
  | .fstatRto p d a => some ⟨.L, 40, 0, p.toNat, d.toByte, a.toByte, 0, 0, 4, 0⟩
  | .fclr p psn d => some ⟨.L, 40, 1, p.toNat, d.toByte, 0, 0, 0, psn.toNat, 0⟩
  | .ftok fld rd d a b c => some ⟨.L, 40, 2, 0, d.toByte, a.toByte, b.toByte, c.toByte, fld.val + rd.toNat * 8, 0⟩
  | .flinkPort d a b c => some ⟨.L, 40, 3, 0, d.toByte, a.toByte, b.toByte, c.toByte, 0, 0⟩
  | .flinkRoute d a b c => some ⟨.L, 40, 3, 0, d.toByte, a.toByte, b.toByte, c.toByte, 1, 0⟩
  | .flinkKey d a b c => some ⟨.L, 40, 3, 0, d.toByte, a.toByte, b.toByte, c.toByte, 2, 0⟩
  | .flinkMirror d a b c => some ⟨.L, 40, 3, 0, d.toByte, a.toByte, b.toByte, c.toByte, 3, 0⟩
  | .flinkUnmirror d a b c => some ⟨.L, 40, 3, 0, d.toByte, a.toByte, b.toByte, c.toByte, 4, 0⟩
  | .flinkGrant d a b c => some ⟨.L, 40, 3, 0, d.toByte, a.toByte, b.toByte, c.toByte, 5, 0⟩
  | .flinkRevoke d a b c => some ⟨.L, 40, 3, 0, d.toByte, a.toByte, b.toByte, c.toByte, 6, 0⟩
  | .flinkSetid d a b c => some ⟨.L, 40, 3, 0, d.toByte, a.toByte, b.toByte, c.toByte, 7, 0⟩
  | .tswap p up d a b => some ⟨.L, 44, 0, p.toNat, d.toByte, a.toByte, b.toByte, 0, up.toNat, 0⟩
  | .tpinL p d a b => some ⟨.L, 44, 1, p.toNat, d.toByte, a.toByte, b.toByte, 0, 0, 0⟩
  | .tpinX p d a b imm => some ⟨.X, 44, 1, p.toNat, d.toByte, a.toByte, b.toByte, 0, 0, imm⟩
  | .tunpinL p d a b => some ⟨.L, 44, 2, p.toNat, d.toByte, a.toByte, b.toByte, 0, 0, 0⟩
  | .tunpinX p d a b imm => some ⟨.X, 44, 2, p.toNat, d.toByte, a.toByte, b.toByte, 0, 0, imm⟩
  | .tresL p d a b => some ⟨.L, 44, 3, p.toNat, d.toByte, a.toByte, b.toByte, 0, 0, 0⟩
  | .tresX p d a b imm => some ⟨.X, 44, 3, p.toNat, d.toByte, a.toByte, b.toByte, 0, 0, imm⟩
  | .tresStage p d a b c => some ⟨.L, 44, 3, p.toNat, d.toByte, a.toByte, b.toByte, c.toByte, 1, 0⟩
  | .twrecWs p d a b => some ⟨.L, 44, 4, p.toNat, d.toByte, a.toByte, b.toByte, 0, 0, 0⟩
  | .twrecDeclare p d a b => some ⟨.L, 44, 4, p.toNat, d.toByte, a.toByte, b.toByte, 0, 1, 0⟩
  | .twrecUndeclare p d a b => some ⟨.L, 44, 4, p.toNat, d.toByte, a.toByte, b.toByte, 0, 2, 0⟩
  | .twrecDirty p d a b => some ⟨.L, 44, 4, p.toNat, d.toByte, a.toByte, b.toByte, 0, 3, 0⟩
  | .haltc p d a b => some ⟨.L, 44, 5, p.toNat, d.toByte, a.toByte, b.toByte, 0, 0, 0⟩
  | .haltcStop p d a b => some ⟨.L, 44, 5, p.toNat, d.toByte, a.toByte, b.toByte, 0, 1, 0⟩
  | .resumec p d b => some ⟨.L, 44, 6, p.toNat, d.toByte, 0, b.toByte, 0, 0, 0⟩
  | .runCommit _ => none
  | .continueWithoutLogging _ => none
  | .partSplit _ => none
  | .regangMerge _ _ => none
  | .claimGrant _ _ => none
  | .claimDeadlock _ => none
  | .trapEntry _ => none
  | .ownershipRequest _ => none
  | .ownershipGrant _ => none
  | .storeBufferDrain _ => none
  | .pageWalk _ => none
  | .loadReply _ => none
  | .homeSliceAtomic _ => none
  | .atomicReply _ => none
  | .remoteRequestIngress _ => none
  | .remoteReply _ _ => none
  | .remoteTimeout _ => none
  | .ioCompletion _ _ => none
  | .ioTimeout _ => none
  | .copyChunkIssue _ => none
  | .copyChunkData _ _ => none
  | .matrixOperationStart _ => none
  | .matrixRowEntry _ => none
  | .matrixRowWrite _ => none
  | .queueEnqueue _ => none
  | .enqueueRoomResume _ => none
  | .refillStart _ => none
  | .refillComplete _ => none
  | .queueDequeue _ => none
  | .qpopWaitServe _ => none
  | .summaryPublish => none
  | .summaryEntryArrive _ _ _ _ => none
  | .launchDecision _ => none
  | .launchDelivery _ => none
  | .flitReceive _ _ => none
  | .flitTransmit _ => none
  | .replayTimeout _ => none
  | .linkSilenceTimeout _ => none
  | .linkTrainingSuccess _ _ => none
  | .linkTrainingTimeout _ => none
  | .tokenGrant _ _ => none
  | .tokenTick => none
  | .lengthReportSend _ => none
  | .lengthReportReceive _ _ _ _ => none
  | .portForwardDecision _ => none
  | .batchReceive _ _ _ _ _ _ => none
  | .batchAck _ _ => none
  | .batchRefusal _ _ => none
  | .batchTimeout _ _ => none
  | .tierPageMove _ => none
  | .tierMoveComplete _ => none
  | .logClose _ => none
  | .tierJobComplete _ => none
  | .sliceExpiry _ => none
  | .haltComplete _ => none
  | .haltDeadlineKill _ => none
  | .haltDeadlineReset _ => none
  | .cctlCreate _ => none
  | .cctlDestroy _ => none
  | .cctlReset _ => none
  | .hpctlCreate => none
  | .hpctlDestroy => none
  | .hpctlReset => none
  | .lendSection _ _ _ => none
  | .reclaimSection _ _ => none
  | .borrowerSpill _ => none
  | .softErrorCorrected _ => none
  | .uncorrectableError _ => none
  | .corruptHeader _ => none
  | .hostMemoryRead _ _ _ => none
  | .hostMemoryWrite _ _ _ => none
  | .hostInvalidate _ _ => none
  | .hostRecordWrite _ _ _ => none
  | .hostSinkRead _ _ _ => none
  | .lockInterface _ => none
  | .startInterface _ => none
  | .stopInterface _ => none
  | .getMeasurements _ _ => none
  | .configWrite _ _ _ => none
  | .packageReset => none
  | .powerLimitWrite _ => none
  | .powerArbiterTick => none
  | .freeze => none
  | .scanReadout => none
  | .batchDeadlineDiscard _ _ => none

/-- Instructions of MAJ 0x0 by FN and format. -/
def pickCtl (r : Raw) : Except DecErr Instr :=
  match r.fn, r.fmt with
  | 0, .S => .ok (.nop r.p)
  | 1, .S => .ok (.exit r.p)
  | 2, .S => .ok (.yield r.p)
  | 3, .S => .ok (.elect r.p (.ofByte r.d))
  | 4, .S => do
      let id ← orCode (IdCode.ofCode r.a)
      .ok (.getid r.p (.ofByte r.d) id)
  | 5, .S => .ok (.time r.p (.ofByte r.d))
  | _, _ => .error .formatNotAdmitted

/-- Instructions of MAJ 0x1 by FN and format. -/
def pickBranch (r : Raw) : Except DecErr Instr :=
  match r.fn, r.fmt with
  | 0, .X => .ok (.bra r.p r.imm)
  | 1, .X => .ok (.brc r.p (.ofByte r.a) (r.bit 0) (r.bit 1) r.imm)
  | 2, .X => .ok (.call r.p (.ofByte r.d) r.imm)
  | 3, .X => .ok (.loop (.ofByte r.d) r.imm)
  | _, _ => .error .formatNotAdmitted

/-- Instructions of MAJ 0x2 by FN and format. -/
def pickBrind (r : Raw) : Except DecErr Instr :=
  match r.fn, r.fmt with
  | 0, .L => .ok (.brx r.p (.ofByte r.a))
  | 1, .L => .ok (.callx r.p (.ofByte r.d) (.ofByte r.a))
  | 2, .L => .ok (.ret r.p (.ofByte r.a))
  | _, _ => .error .formatNotAdmitted

/-- Instructions of MAJ 0x3 by FN and format. -/
def pickSync (r : Raw) : Except DecErr Instr :=
  match r.fn, r.fmt with
  | 0, .L => .ok (.endr (.ofByte r.a) (.ofByte r.b) (.ofByte r.c))
  | 1, .L => .ok (.regangL (.ofByte r.a))
  | 1, .X => .ok (.regangX (.ofByte r.a) r.imm)
  | 2, .L => .ok (.barL (.ofByte r.a))
  | 2, .X => .ok (.barX (.ofByte r.a) r.imm)
  | 3, .L => do
      let cls ← orCode (EngClass.ofCode (r.bits 0 2))
      .ok (.waiteL (.ofByte r.a) cls)
  | 3, .X => do
      let cls ← orCode (EngClass.ofCode (r.bits 0 2))
      .ok (.waiteX (.ofByte r.a) cls r.imm)
  | 4, .X => .ok (.rclaim (.ofByte r.a) r.imm)
  | 5, .X => .ok (.rrelease (.ofByte r.a) r.imm)
  | 6, .L => .ok (.pinfo r.p (.ofByte r.d))
  | _, _ => .error .formatNotAdmitted

/-- Instructions of MAJ 0x4 by FN and format. -/
def pickIarith (r : Raw) : Except DecErr Instr :=
  match r.fn, r.fmt with
  | 0, .L => do
      let t ← orCode (TypeCode.ofCode (r.bits 4 5))
      .ok (.addL r.p t (r.bit 0) (.ofByte r.d) (.ofByte r.a) (.ofByte r.b))
  | 0, .X => do
      let t ← orCode (TypeCode.ofCode (r.bits 4 5))
      .ok (.addX r.p t (r.bit 0) (.ofByte r.d) (.ofByte r.a) (.ofByte r.b) r.imm)
  | 1, .L => do
      let t ← orCode (TypeCode.ofCode (r.bits 4 5))
      .ok (.subL r.p t (r.bit 0) (.ofByte r.d) (.ofByte r.a) (.ofByte r.b))
  | 1, .X => do
      let t ← orCode (TypeCode.ofCode (r.bits 4 5))
      .ok (.subX r.p t (r.bit 0) (.ofByte r.d) (.ofByte r.a) (.ofByte r.b) r.imm)
  | 2, .L => do
      let t ← orCode (TypeCode.ofCode (r.bits 4 5))
      .ok (.add64L r.p t (r.bit 0) (.ofByte r.d) (.ofByte r.a) (.ofByte r.b))
  | 2, .X => do
      let t ← orCode (TypeCode.ofCode (r.bits 4 5))
      .ok (.add64X r.p t (r.bit 0) (.ofByte r.d) (.ofByte r.a) (.ofByte r.b) r.imm)
  | 3, .L => do
      let t ← orCode (TypeCode.ofCode (r.bits 4 5))
      .ok (.sub64L r.p t (r.bit 0) (.ofByte r.d) (.ofByte r.a) (.ofByte r.b))
  | 3, .X => do
      let t ← orCode (TypeCode.ofCode (r.bits 4 5))
      .ok (.sub64X r.p t (r.bit 0) (.ofByte r.d) (.ofByte r.a) (.ofByte r.b) r.imm)
  | 4, .L => do
      let t ← orCode (TypeCode.ofCode (r.bits 4 5))
      .ok (.mulL r.p t (r.bit 0) (.ofByte r.d) (.ofByte r.a) (.ofByte r.b))
  | 4, .X => do
      let t ← orCode (TypeCode.ofCode (r.bits 4 5))
      .ok (.mulX r.p t (r.bit 0) (.ofByte r.d) (.ofByte r.a) (.ofByte r.b) r.imm)
  | 5, .L => do
      let t ← orCode (TypeCode.ofCode (r.bits 4 5))
      .ok (.mulhiL r.p t (.ofByte r.d) (.ofByte r.a) (.ofByte r.b))
  | 5, .X => do
      let t ← orCode (TypeCode.ofCode (r.bits 4 5))
      .ok (.mulhiX r.p t (.ofByte r.d) (.ofByte r.a) (.ofByte r.b) r.imm)
  | 6, .L => do
      let t ← orCode (TypeCode.ofCode (r.bits 4 5))
      .ok (.madL r.p t (r.bit 0) (.ofByte r.d) (.ofByte r.a) (.ofByte r.b) (.ofByte r.c))
  | 6, .X => do
      let t ← orCode (TypeCode.ofCode (r.bits 4 5))
      .ok (.madX r.p t (r.bit 0) (.ofByte r.d) (.ofByte r.a) (.ofByte r.b) (.ofByte r.c) r.imm)
  | 7, .L => do
      let t ← orCode (TypeCode.ofCode (r.bits 4 5))
      .ok (.madwL r.p t (r.bit 0) (.ofByte r.d) (.ofByte r.a) (.ofByte r.b) (.ofByte r.c))
  | 7, .X => do
      let t ← orCode (TypeCode.ofCode (r.bits 4 5))
      .ok (.madwX r.p t (r.bit 0) (.ofByte r.d) (.ofByte r.a) (.ofByte r.b) (.ofByte r.c) r.imm)
  | 8, .L => do
      let t ← orCode (TypeCode.ofCode (r.bits 4 5))
      .ok (.divL r.p t (.ofByte r.d) (.ofByte r.a) (.ofByte r.b))
  | 8, .X => do
      let t ← orCode (TypeCode.ofCode (r.bits 4 5))
      .ok (.divX r.p t (.ofByte r.d) (.ofByte r.a) (.ofByte r.b) r.imm)
  | 9, .L => do
      let t ← orCode (TypeCode.ofCode (r.bits 4 5))
      .ok (.remL r.p t (.ofByte r.d) (.ofByte r.a) (.ofByte r.b))
  | 9, .X => do
      let t ← orCode (TypeCode.ofCode (r.bits 4 5))
      .ok (.remX r.p t (.ofByte r.d) (.ofByte r.a) (.ofByte r.b) r.imm)
  | 10, .L => do
      let t ← orCode (TypeCode.ofCode (r.bits 4 5))
      .ok (.minL r.p t (.ofByte r.d) (.ofByte r.a) (.ofByte r.b))
  | 10, .X => do
      let t ← orCode (TypeCode.ofCode (r.bits 4 5))
      .ok (.minX r.p t (.ofByte r.d) (.ofByte r.a) (.ofByte r.b) r.imm)
  | 11, .L => do
      let t ← orCode (TypeCode.ofCode (r.bits 4 5))
      .ok (.maxL r.p t (.ofByte r.d) (.ofByte r.a) (.ofByte r.b))
  | 11, .X => do
      let t ← orCode (TypeCode.ofCode (r.bits 4 5))
      .ok (.maxX r.p t (.ofByte r.d) (.ofByte r.a) (.ofByte r.b) r.imm)
  | 12, .L => do
      let t ← orCode (TypeCode.ofCode (r.bits 4 5))
      .ok (.absL r.p t (r.bit 0) (.ofByte r.d) (.ofByte r.a))
  | 12, .X => do
      let t ← orCode (TypeCode.ofCode (r.bits 4 5))
      .ok (.absX r.p t (r.bit 0) (.ofByte r.d) (.ofByte r.a) r.imm)
  | 13, .L => do
      let t ← orCode (TypeCode.ofCode (r.bits 4 5))
      .ok (.negL r.p t (r.bit 0) (.ofByte r.d) (.ofByte r.a))
  | 13, .X => do
      let t ← orCode (TypeCode.ofCode (r.bits 4 5))
      .ok (.negX r.p t (r.bit 0) (.ofByte r.d) (.ofByte r.a) r.imm)
  | _, _ => .error .formatNotAdmitted

/-- Instructions of MAJ 0x5 by FN and format. -/
def pickIbit (r : Raw) : Except DecErr Instr :=
  match r.fn, r.fmt with
  | 0, .L => do
      let t ← orCode (TypeCode.ofCode (r.bits 4 5))
      .ok (.andL r.p t (.ofByte r.d) (.ofByte r.a) (.ofByte r.b))
  | 0, .X => do
      let t ← orCode (TypeCode.ofCode (r.bits 4 5))
      .ok (.andX r.p t (.ofByte r.d) (.ofByte r.a) (.ofByte r.b) r.imm)
  | 1, .L => do
      let t ← orCode (TypeCode.ofCode (r.bits 4 5))
      .ok (.orL r.p t (.ofByte r.d) (.ofByte r.a) (.ofByte r.b))
  | 1, .X => do
      let t ← orCode (TypeCode.ofCode (r.bits 4 5))
      .ok (.orX r.p t (.ofByte r.d) (.ofByte r.a) (.ofByte r.b) r.imm)
  | 2, .L => do
      let t ← orCode (TypeCode.ofCode (r.bits 4 5))
      .ok (.xorL r.p t (.ofByte r.d) (.ofByte r.a) (.ofByte r.b))
  | 2, .X => do
      let t ← orCode (TypeCode.ofCode (r.bits 4 5))
      .ok (.xorX r.p t (.ofByte r.d) (.ofByte r.a) (.ofByte r.b) r.imm)
  | 3, .L => do
      let t ← orCode (TypeCode.ofCode (r.bits 4 5))
      .ok (.andnL r.p t (.ofByte r.d) (.ofByte r.a) (.ofByte r.b))
  | 3, .X => do
      let t ← orCode (TypeCode.ofCode (r.bits 4 5))
      .ok (.andnX r.p t (.ofByte r.d) (.ofByte r.a) (.ofByte r.b) r.imm)
  | 4, .L => do
      let t ← orCode (TypeCode.ofCode (r.bits 4 5))
      .ok (.notL r.p t (.ofByte r.d) (.ofByte r.a))
  | 4, .X => do
      let t ← orCode (TypeCode.ofCode (r.bits 4 5))
      .ok (.notX r.p t (.ofByte r.d) (.ofByte r.a) r.imm)
  | 5, .L => do
      let t ← orCode (TypeCode.ofCode (r.bits 4 5))
      .ok (.shlL r.p t (.ofByte r.d) (.ofByte r.a) (.ofByte r.b))
  | 5, .X => do
      let t ← orCode (TypeCode.ofCode (r.bits 4 5))
      .ok (.shlX r.p t (.ofByte r.d) (.ofByte r.a) (.ofByte r.b) r.imm)
  | 6, .L => do
      let t ← orCode (TypeCode.ofCode (r.bits 4 5))
      .ok (.shrL r.p t (.ofByte r.d) (.ofByte r.a) (.ofByte r.b))
  | 6, .X => do
      let t ← orCode (TypeCode.ofCode (r.bits 4 5))
      .ok (.shrX r.p t (.ofByte r.d) (.ofByte r.a) (.ofByte r.b) r.imm)
  | 7, .L => do
      let t ← orCode (TypeCode.ofCode (r.bits 4 5))
      .ok (.sarL r.p t (.ofByte r.d) (.ofByte r.a) (.ofByte r.b))
  | 7, .X => do
      let t ← orCode (TypeCode.ofCode (r.bits 4 5))
      .ok (.sarX r.p t (.ofByte r.d) (.ofByte r.a) (.ofByte r.b) r.imm)
  | 8, .L => do
      let t ← orCode (TypeCode.ofCode (r.bits 4 5))
      .ok (.rotlL r.p t (.ofByte r.d) (.ofByte r.a) (.ofByte r.b))
  | 8, .X => do
      let t ← orCode (TypeCode.ofCode (r.bits 4 5))
      .ok (.rotlX r.p t (.ofByte r.d) (.ofByte r.a) (.ofByte r.b) r.imm)
  | 9, .L => do
      let t ← orCode (TypeCode.ofCode (r.bits 4 5))
      .ok (.funnelL r.p t (.ofByte r.d) (.ofByte r.a) (.ofByte r.b) (.ofByte r.c))
  | 9, .X => do
      let t ← orCode (TypeCode.ofCode (r.bits 4 5))
      .ok (.funnelX r.p t (.ofByte r.d) (.ofByte r.a) (.ofByte r.b) (.ofByte r.c) r.imm)
  | 10, .L => do
      let t ← orCode (TypeCode.ofCode (r.bits 4 5))
      .ok (.popcL r.p t (.ofByte r.d) (.ofByte r.a))
  | 10, .X => do
      let t ← orCode (TypeCode.ofCode (r.bits 4 5))
      .ok (.popcX r.p t (.ofByte r.d) (.ofByte r.a) r.imm)
  | 11, .L => do
      let t ← orCode (TypeCode.ofCode (r.bits 4 5))
      .ok (.clzL r.p t (.ofByte r.d) (.ofByte r.a))
  | 11, .X => do
      let t ← orCode (TypeCode.ofCode (r.bits 4 5))
      .ok (.clzX r.p t (.ofByte r.d) (.ofByte r.a) r.imm)
  | 12, .L => do
      let t ← orCode (TypeCode.ofCode (r.bits 4 5))
      .ok (.ctzL r.p t (.ofByte r.d) (.ofByte r.a))
  | 12, .X => do
      let t ← orCode (TypeCode.ofCode (r.bits 4 5))
      .ok (.ctzX r.p t (.ofByte r.d) (.ofByte r.a) r.imm)
  | 13, .L => do
      let t ← orCode (TypeCode.ofCode (r.bits 4 5))
      .ok (.brevL r.p t (.ofByte r.d) (.ofByte r.a))
  | 13, .X => do
      let t ← orCode (TypeCode.ofCode (r.bits 4 5))
      .ok (.brevX r.p t (.ofByte r.d) (.ofByte r.a) r.imm)
  | 14, .L => do
      let t ← orCode (TypeCode.ofCode (r.bits 4 5))
      .ok (.bfeL r.p t (.ofByte r.d) (.ofByte r.a) (.ofByte r.b))
  | 14, .X => do
      let t ← orCode (TypeCode.ofCode (r.bits 4 5))
      .ok (.bfeX r.p t (.ofByte r.d) (.ofByte r.a) (.ofByte r.b) r.imm)
  | 15, .L => do
      let t ← orCode (TypeCode.ofCode (r.bits 4 5))
      .ok (.bfiL r.p t (.ofByte r.d) (.ofByte r.a) (.ofByte r.b) (.ofByte r.c))
  | 15, .X => do
      let t ← orCode (TypeCode.ofCode (r.bits 4 5))
      .ok (.bfiX r.p t (.ofByte r.d) (.ofByte r.a) (.ofByte r.b) (.ofByte r.c) r.imm)
  | 16, .L => do
      let t ← orCode (TypeCode.ofCode (r.bits 4 5))
      .ok (.permbL r.p t (.ofByte r.d) (.ofByte r.a) (.ofByte r.b) (.ofByte r.c))
  | 16, .X => do
      let t ← orCode (TypeCode.ofCode (r.bits 4 5))
      .ok (.permbX r.p t (.ofByte r.d) (.ofByte r.a) (.ofByte r.b) (.ofByte r.c) r.imm)
  | _, _ => .error .formatNotAdmitted

/-- Instructions of MAJ 0x6 by FN and format. -/
def pickIpred (r : Raw) : Except DecErr Instr :=
  match r.fn, r.fmt with
  | 0, .L => do
      let t ← orCode (TypeCode.ofCode (r.bits 4 5))
      let cond ← orCode (Cond.ofCode (r.bits 0 4))
      .ok (.cmpL r.p t cond (.ofCode (r.bits 9 2) r.c) (.ofByte r.d) (.ofByte r.a) (.ofByte r.b))
  | 0, .X => do
      let t ← orCode (TypeCode.ofCode (r.bits 4 5))
      let cond ← orCode (Cond.ofCode (r.bits 0 4))
      .ok (.cmpX r.p t cond (.ofCode (r.bits 9 2) r.c) (.ofByte r.d) (.ofByte r.a) (.ofByte r.b) r.imm)
  | 1, .L => .ok (.pandL r.p (.ofByte r.d) (.ofByte r.a) (.ofByte r.b))
  | 1, .X => .ok (.pandX r.p (.ofByte r.d) (.ofByte r.a) (.ofByte r.b) r.imm)
  | 2, .L => .ok (.porL r.p (.ofByte r.d) (.ofByte r.a) (.ofByte r.b))
  | 2, .X => .ok (.porX r.p (.ofByte r.d) (.ofByte r.a) (.ofByte r.b) r.imm)
  | 3, .L => .ok (.pxorL r.p (.ofByte r.d) (.ofByte r.a) (.ofByte r.b))
  | 3, .X => .ok (.pxorX r.p (.ofByte r.d) (.ofByte r.a) (.ofByte r.b) r.imm)
  | 4, .L => .ok (.pnotL r.p (.ofByte r.d) (.ofByte r.a))
  | 4, .X => .ok (.pnotX r.p (.ofByte r.d) (.ofByte r.a) r.imm)
  | _, _ => .error .formatNotAdmitted

/-- Instructions of MAJ 0x7 by FN and format. -/
def pickImove (r : Raw) : Except DecErr Instr :=
  match r.fn, r.fmt with
  | 0, .L => do
      let t ← orCode (TypeCode.ofCode (r.bits 4 5))
      .ok (.movL r.p t (.ofByte r.d) (.ofByte r.a))
  | 0, .X => do
      let t ← orCode (TypeCode.ofCode (r.bits 4 5))
      .ok (.movX r.p t (.ofByte r.d) (.ofByte r.a) r.imm)
  | 1, .X => do
      let t ← orCode (TypeCode.ofCode (r.bits 4 5))
      let h ← finOr 4 (r.bits 0 2)
      .ok (.movi r.p t h (.ofByte r.d) (.ofByte r.a) r.imm)
  | 2, .L => do
      let t ← orCode (TypeCode.ofCode (r.bits 4 5))
      .ok (.selL r.p t (.ofByte r.d) (.ofByte r.a) (.ofByte r.b) (.ofByte r.c))
  | 2, .X => do
      let t ← orCode (TypeCode.ofCode (r.bits 4 5))
      .ok (.selX r.p t (.ofByte r.d) (.ofByte r.a) (.ofByte r.b) (.ofByte r.c) r.imm)
  | 3, .L => do
      let t ← orCode (TypeCode.ofCode (r.bits 4 5))
      let w ← orCode (ExtW.ofCode (r.bits 0 2))
      .ok (.extL r.p t w (.ofByte r.d) (.ofByte r.a))
  | 3, .X => do
      let t ← orCode (TypeCode.ofCode (r.bits 4 5))
      let w ← orCode (ExtW.ofCode (r.bits 0 2))
      .ok (.extX r.p t w (.ofByte r.d) (.ofByte r.a) r.imm)
  | 4, .L => do
      let t ← orCode (TypeCode.ofCode (r.bits 4 5))
      let nar ← orCode (Narrow.ofCode (r.bits 0 2))
      .ok (.packL r.p t nar (.ofByte r.d) (.ofByte r.a) (.ofByte r.b))
  | 4, .X => do
      let t ← orCode (TypeCode.ofCode (r.bits 4 5))
      let nar ← orCode (Narrow.ofCode (r.bits 0 2))
      .ok (.packX r.p t nar (.ofByte r.d) (.ofByte r.a) (.ofByte r.b) r.imm)
  | 5, .L => do
      let t ← orCode (TypeCode.ofCode (r.bits 4 5))
      let idx ← finOr 4 (r.bits 0 2)
      .ok (.unpackL r.p t idx (r.bit 2) (.ofByte r.d) (.ofByte r.a))
  | 5, .X => do
      let t ← orCode (TypeCode.ofCode (r.bits 4 5))
      let idx ← finOr 4 (r.bits 0 2)
      .ok (.unpackX r.p t idx (r.bit 2) (.ofByte r.d) (.ofByte r.a) r.imm)
  | _, _ => .error .formatNotAdmitted

/-- Instructions of MAJ 0x8 by FN and format. -/
def pickFarith (r : Raw) : Except DecErr Instr :=
  match r.fn, r.fmt with
  | 0, .L => do
      let t ← orCode (TypeCode.ofCode (r.bits 4 5))
      let rnd ← orCode (Rnd.ofCode (r.bits 0 3))
      .ok (.faddL r.p t rnd (.ofByte r.d) (.ofByte r.a) (.ofByte r.b))
  | 0, .X => do
      let t ← orCode (TypeCode.ofCode (r.bits 4 5))
      let rnd ← orCode (Rnd.ofCode (r.bits 0 3))
      .ok (.faddX r.p t rnd (.ofByte r.d) (.ofByte r.a) (.ofByte r.b) r.imm)
  | 1, .L => do
      let t ← orCode (TypeCode.ofCode (r.bits 4 5))
      let rnd ← orCode (Rnd.ofCode (r.bits 0 3))
      .ok (.fsubL r.p t rnd (.ofByte r.d) (.ofByte r.a) (.ofByte r.b))
  | 1, .X => do
      let t ← orCode (TypeCode.ofCode (r.bits 4 5))
      let rnd ← orCode (Rnd.ofCode (r.bits 0 3))
      .ok (.fsubX r.p t rnd (.ofByte r.d) (.ofByte r.a) (.ofByte r.b) r.imm)
  | 2, .L => do
      let t ← orCode (TypeCode.ofCode (r.bits 4 5))
      let rnd ← orCode (Rnd.ofCode (r.bits 0 3))
      .ok (.fmulL r.p t rnd (.ofByte r.d) (.ofByte r.a) (.ofByte r.b))
  | 2, .X => do
      let t ← orCode (TypeCode.ofCode (r.bits 4 5))
      let rnd ← orCode (Rnd.ofCode (r.bits 0 3))
      .ok (.fmulX r.p t rnd (.ofByte r.d) (.ofByte r.a) (.ofByte r.b) r.imm)
  | 3, .L => do
      let t ← orCode (TypeCode.ofCode (r.bits 4 5))
      let rnd ← orCode (Rnd.ofCode (r.bits 0 3))
      .ok (.ffmaL r.p t rnd (.ofByte r.d) (.ofByte r.a) (.ofByte r.b) (.ofByte r.c))
  | 3, .X => do
      let t ← orCode (TypeCode.ofCode (r.bits 4 5))
      let rnd ← orCode (Rnd.ofCode (r.bits 0 3))
      .ok (.ffmaX r.p t rnd (.ofByte r.d) (.ofByte r.a) (.ofByte r.b) (.ofByte r.c) r.imm)
  | 4, .L => do
      let t ← orCode (TypeCode.ofCode (r.bits 4 5))
      .ok (.fminL r.p t (.ofByte r.d) (.ofByte r.a) (.ofByte r.b))
  | 4, .X => do
      let t ← orCode (TypeCode.ofCode (r.bits 4 5))
      .ok (.fminX r.p t (.ofByte r.d) (.ofByte r.a) (.ofByte r.b) r.imm)
  | 5, .L => do
      let t ← orCode (TypeCode.ofCode (r.bits 4 5))
      .ok (.fmaxL r.p t (.ofByte r.d) (.ofByte r.a) (.ofByte r.b))
  | 5, .X => do
      let t ← orCode (TypeCode.ofCode (r.bits 4 5))
      .ok (.fmaxX r.p t (.ofByte r.d) (.ofByte r.a) (.ofByte r.b) r.imm)
  | 6, .L => do
      let t ← orCode (TypeCode.ofCode (r.bits 4 5))
      .ok (.fabsL r.p t (.ofByte r.d) (.ofByte r.a))
  | 6, .X => do
      let t ← orCode (TypeCode.ofCode (r.bits 4 5))
      .ok (.fabsX r.p t (.ofByte r.d) (.ofByte r.a) r.imm)
  | 7, .L => do
      let t ← orCode (TypeCode.ofCode (r.bits 4 5))
      .ok (.fnegL r.p t (.ofByte r.d) (.ofByte r.a))
  | 7, .X => do
      let t ← orCode (TypeCode.ofCode (r.bits 4 5))
      .ok (.fnegX r.p t (.ofByte r.d) (.ofByte r.a) r.imm)
  | 8, .L => do
      let t ← orCode (TypeCode.ofCode (r.bits 4 5))
      let cond ← orCode (FCond.ofCode (r.bits 0 4))
      .ok (.fcmpL r.p t cond (.ofCode (r.bits 9 2) r.c) (.ofByte r.d) (.ofByte r.a) (.ofByte r.b))
  | 8, .X => do
      let t ← orCode (TypeCode.ofCode (r.bits 4 5))
      let cond ← orCode (FCond.ofCode (r.bits 0 4))
      .ok (.fcmpX r.p t cond (.ofCode (r.bits 9 2) r.c) (.ofByte r.d) (.ofByte r.a) (.ofByte r.b) r.imm)
  | 9, .L => do
      let t ← orCode (TypeCode.ofCode (r.bits 4 5))
      let rnd ← orCode (Rnd.ofCode (r.bits 0 3))
      .ok (.frndL r.p t rnd (.ofByte r.d) (.ofByte r.a))
  | 9, .X => do
      let t ← orCode (TypeCode.ofCode (r.bits 4 5))
      let rnd ← orCode (Rnd.ofCode (r.bits 0 3))
      .ok (.frndX r.p t rnd (.ofByte r.d) (.ofByte r.a) r.imm)
  | 10, .L => do
      let t ← orCode (TypeCode.ofCode (r.bits 4 5))
      .ok (.fclassL r.p t (.ofByte r.d) (.ofByte r.a))
  | 10, .X => do
      let t ← orCode (TypeCode.ofCode (r.bits 4 5))
      .ok (.fclassX r.p t (.ofByte r.d) (.ofByte r.a) r.imm)
  | 11, .L => do
      let t ← orCode (TypeCode.ofCode (r.bits 4 5))
      let rnd ← orCode (Rnd.ofCode (r.bits 0 3))
      .ok (.fscaleL r.p t rnd (.ofByte r.d) (.ofByte r.a) (.ofByte r.b))
  | 11, .X => do
      let t ← orCode (TypeCode.ofCode (r.bits 4 5))
      let rnd ← orCode (Rnd.ofCode (r.bits 0 3))
      .ok (.fscaleX r.p t rnd (.ofByte r.d) (.ofByte r.a) (.ofByte r.b) r.imm)
  | _, _ => .error .formatNotAdmitted

/-- Instructions of MAJ 0x9 by FN and format. -/
def pickFspec (r : Raw) : Except DecErr Instr :=
  match r.fn, r.fmt with
  | 0, .L => do
      let t ← orCode (TypeCode.ofCode (r.bits 4 5))
      .ok (.frcp r.p t (.ofByte r.d) (.ofByte r.a))
  | 1, .L => do
      let t ← orCode (TypeCode.ofCode (r.bits 4 5))
      .ok (.frsq r.p t (.ofByte r.d) (.ofByte r.a))
  | 2, .L => do
      let t ← orCode (TypeCode.ofCode (r.bits 4 5))
      let rnd ← orCode (Rnd.ofCode (r.bits 0 3))
      .ok (.fsqrt r.p t rnd (.ofByte r.d) (.ofByte r.a))
  | 3, .L => do
      let t ← orCode (TypeCode.ofCode (r.bits 4 5))
      let rnd ← orCode (Rnd.ofCode (r.bits 0 3))
      .ok (.fdiv r.p t rnd (.ofByte r.d) (.ofByte r.a) (.ofByte r.b))
  | 4, .L => do
      let t ← orCode (TypeCode.ofCode (r.bits 4 5))
      .ok (.fexp2 r.p t (.ofByte r.d) (.ofByte r.a))
  | 5, .L => do
      let t ← orCode (TypeCode.ofCode (r.bits 4 5))
      .ok (.flog2 r.p t (.ofByte r.d) (.ofByte r.a))
  | 6, .L => do
      let t ← orCode (TypeCode.ofCode (r.bits 4 5))
      .ok (.fsin r.p t (.ofByte r.d) (.ofByte r.a))
  | 7, .L => do
      let t ← orCode (TypeCode.ofCode (r.bits 4 5))
      .ok (.fcos r.p t (.ofByte r.d) (.ofByte r.a))
  | _, _ => .error .formatNotAdmitted

/-- Instructions of MAJ 0xa by FN and format. -/
def pickFconv (r : Raw) : Except DecErr Instr :=
  match r.fn, r.fmt with
  | 0, .L => do
      let src ← orCode (SrcCode.ofCode (r.bits 0 4))
      let t ← orCode (TypeCode.ofCode (r.bits 4 5))
      let rnd ← orCode (Rnd.ofCode (r.bits 9 3))
      .ok (.cvt r.p src t rnd (.ofByte r.d) (.ofByte r.a))
  | 1, .L => do
      let src ← orCode (SrcCode.ofCode (r.bits 0 4))
      let t ← orCode (TypeCode.ofCode (r.bits 4 5))
      let rnd ← orCode (Rnd.ofCode (r.bits 9 3))
      let slot ← finOr 8 r.c
      .ok (.cvtp r.p src t rnd (.ofByte r.d) (.ofByte r.a) (.ofByte r.b) slot)
  | 2, .L => .ok (.tagget r.p (.ofByte r.d) (.ofByte r.a))
  | 3, .L => .ok (.tagset r.p (.ofByte r.d) (.ofByte r.a))
  | _, _ => .error .formatNotAdmitted

/-- Instructions of MAJ 0xb by FN and format. -/
def pickFpacked (r : Raw) : Except DecErr Instr :=
  match r.fn, r.fmt with
  | 0, .L => do
      let t ← orCode (TypeCode.ofCode (r.bits 4 5))
      let rnd ← orCode (Rnd.ofCode (r.bits 0 3))
      .ok (.hadd2L r.p t rnd (.ofByte r.d) (.ofByte r.a) (.ofByte r.b))
  | 0, .X => do
      let t ← orCode (TypeCode.ofCode (r.bits 4 5))
      let rnd ← orCode (Rnd.ofCode (r.bits 0 3))
      .ok (.hadd2X r.p t rnd (.ofByte r.d) (.ofByte r.a) (.ofByte r.b) r.imm)
  | 1, .L => do
      let t ← orCode (TypeCode.ofCode (r.bits 4 5))
      let rnd ← orCode (Rnd.ofCode (r.bits 0 3))
      .ok (.hmul2L r.p t rnd (.ofByte r.d) (.ofByte r.a) (.ofByte r.b))
  | 1, .X => do
      let t ← orCode (TypeCode.ofCode (r.bits 4 5))
      let rnd ← orCode (Rnd.ofCode (r.bits 0 3))
      .ok (.hmul2X r.p t rnd (.ofByte r.d) (.ofByte r.a) (.ofByte r.b) r.imm)
  | 2, .L => do
      let t ← orCode (TypeCode.ofCode (r.bits 4 5))
      let rnd ← orCode (Rnd.ofCode (r.bits 0 3))
      .ok (.hfma2L r.p t rnd (.ofByte r.d) (.ofByte r.a) (.ofByte r.b) (.ofByte r.c))
  | 2, .X => do
      let t ← orCode (TypeCode.ofCode (r.bits 4 5))
      let rnd ← orCode (Rnd.ofCode (r.bits 0 3))
      .ok (.hfma2X r.p t rnd (.ofByte r.d) (.ofByte r.a) (.ofByte r.b) (.ofByte r.c) r.imm)
  | 3, .L => do
      let t ← orCode (TypeCode.ofCode (r.bits 4 5))
      let rnd ← orCode (Rnd.ofCode (r.bits 0 3))
      .ok (.dot4L r.p t rnd (.ofByte r.d) (.ofByte r.a) (.ofByte r.b) (.ofByte r.c))
  | 3, .X => do
      let t ← orCode (TypeCode.ofCode (r.bits 4 5))
      let rnd ← orCode (Rnd.ofCode (r.bits 0 3))
      .ok (.dot4X r.p t rnd (.ofByte r.d) (.ofByte r.a) (.ofByte r.b) (.ofByte r.c) r.imm)
  | 4, .L => do
      let t ← orCode (TypeCode.ofCode (r.bits 4 5))
      let rnd ← orCode (Rnd.ofCode (r.bits 0 3))
      .ok (.dot8L r.p t rnd (.ofByte r.d) (.ofByte r.a) (.ofByte r.b) (.ofByte r.c))
  | 4, .X => do
      let t ← orCode (TypeCode.ofCode (r.bits 4 5))
      let rnd ← orCode (Rnd.ofCode (r.bits 0 3))
      .ok (.dot8X r.p t rnd (.ofByte r.d) (.ofByte r.a) (.ofByte r.b) (.ofByte r.c) r.imm)
  | _, _ => .error .formatNotAdmitted

/-- Instructions of MAJ 0xc by FN and format. -/
noncomputable def pickQexch (r : Raw) : Except DecErr Instr :=
  match r.fn, r.fmt with
  | 0, .L => do
      let t ← orCode (TypeCode.ofCode (r.bits 4 5))
      let pat ← finOr 4 (r.bits 0 2)
      .ok (.qswap r.p t pat (.ofByte r.d) (.ofByte r.a))
  | 1, .L => do
      let t ← orCode (TypeCode.ofCode (r.bits 4 5))
      let j ← finOr 4 (r.bits 0 2)
      .ok (.qbcast r.p t j (.ofByte r.d) (.ofByte r.a))
  | 2, .L => do
      let t ← orCode (TypeCode.ofCode (r.bits 4 5))
      .ok (.qshuf r.p t (.ofByte r.d) (.ofByte r.a) (.ofByte r.b))
  | 3, .L => do
      let t ← orCode (TypeCode.ofCode (r.bits 4 5))
      let op ← orCode (RedOp.ofCode (r.bits 0 4))
      .ok (.qred r.p t op (.ofByte r.d) (.ofByte r.a))
  | _, _ => .error .formatNotAdmitted

/-- Instructions of MAJ 0xd by FN and format. -/
noncomputable def pickGexch (r : Raw) : Except DecErr Instr :=
  match r.fn, r.fmt with
  | 0, .L => do
      let t ← orCode (TypeCode.ofCode (r.bits 4 5))
      let mode ← orCode (ShflMode.ofCode (r.bits 0 2))
      .ok (.shfl r.p t mode (.ofByte r.d) (.ofByte r.a) (.ofByte r.b))
  | 1, .L => do
      let mode ← orCode (VoteMode.ofCode (r.bits 0 2))
      .ok (.vote r.p mode (.ofByte r.d) (.ofByte r.a))
  | 2, .L => do
      let t ← orCode (TypeCode.ofCode (r.bits 4 5))
      let op ← orCode (RedOp.ofCode (r.bits 0 4))
      .ok (.scanPrefix r.p t op (r.bit 9) (.ofByte r.d) (.ofByte r.a))
  | 3, .L => do
      let t ← orCode (TypeCode.ofCode (r.bits 4 5))
      let op ← orCode (RedOp.ofCode (r.bits 0 4))
      .ok (.gred r.p t op (.ofByte r.d) (.ofByte r.a))
  | 4, .L => do
      let t ← orCode (TypeCode.ofCode (r.bits 4 5))
      .ok (.xpose r.p t (.ofByte r.d) (.ofByte r.a))
  | _, _ => .error .formatNotAdmitted

/-- Instructions of MAJ 0x10 by FN and format. -/
noncomputable def pickLoad (r : Raw) : Except DecErr Instr :=
  match r.fn, r.fmt with
  | 0, .L => do
      let t ← orCode (TypeCode.ofCode (r.bits 4 5))
      .ok (.ldL r.p t (r.bit 0) (.ofByte r.d) (.ofByte r.a))
  | 0, .X => do
      let t ← orCode (TypeCode.ofCode (r.bits 4 5))
      .ok (.ldX r.p t (r.bit 0) (.ofByte r.d) (.ofByte r.a) r.imm)
  | 1, .L => do
      let rows ← finOr 8 (r.bits 0 3)
      .ok (.lddL r.p rows (.ofByte r.d) (.ofByte r.a))
  | 1, .X => do
      let rows ← finOr 8 (r.bits 0 3)
      .ok (.lddX r.p rows (.ofByte r.d) (.ofByte r.a) r.imm)
  | 2, .L => do
      let t ← orCode (TypeCode.ofCode (r.bits 4 5))
      let rows ← finOr 4 (r.bits 0 2)
      let src ← orCode (LdwSrc.ofCode (r.bits 9 3))
      .ok (.ldwL r.p t rows src (.ofByte r.d) (.ofByte r.a))
  | 2, .X => do
      let t ← orCode (TypeCode.ofCode (r.bits 4 5))
      let rows ← finOr 4 (r.bits 0 2)
      let src ← orCode (LdwSrc.ofCode (r.bits 9 3))
      .ok (.ldwX r.p t rows src (.ofByte r.d) (.ofByte r.a) r.imm)
  | 3, .L => .ok (.prefL r.p (r.bit 0) (.ofByte r.a))
  | 3, .X => .ok (.prefX r.p (r.bit 0) (.ofByte r.a) r.imm)
  | _, _ => .error .formatNotAdmitted

/-- Instructions of MAJ 0x11 by FN and format. -/
noncomputable def pickStore (r : Raw) : Except DecErr Instr :=
  match r.fn, r.fmt with
  | 0, .L => do
      let t ← orCode (TypeCode.ofCode (r.bits 4 5))
      .ok (.stL r.p t (.ofByte r.a) (.ofByte r.b))
  | 0, .X => do
      let t ← orCode (TypeCode.ofCode (r.bits 4 5))
      .ok (.stX r.p t (.ofByte r.a) (.ofByte r.b) r.imm)
  | 1, .L => do
      let rows ← finOr 8 (r.bits 0 3)
      .ok (.stdL r.p rows (.ofByte r.a) (.ofByte r.b))
  | 1, .X => do
      let rows ← finOr 8 (r.bits 0 3)
      .ok (.stdX r.p rows (.ofByte r.a) (.ofByte r.b) r.imm)
  | _, _ => .error .formatNotAdmitted

/-- Instructions of MAJ 0x12 by FN and format. -/
noncomputable def pickLoc (r : Raw) : Except DecErr Instr :=
  match r.fn, r.fmt with
  | 0, .L => do
      let t ← orCode (TypeCode.ofCode (r.bits 4 5))
      .ok (.ldsL r.p t (r.bit 0) (.ofByte r.d) (.ofByte r.a))
  | 0, .X => do
      let t ← orCode (TypeCode.ofCode (r.bits 4 5))
      .ok (.ldsX r.p t (r.bit 0) (.ofByte r.d) (.ofByte r.a) r.imm)
  | 2, .L => do
      let t ← orCode (TypeCode.ofCode (r.bits 4 5))
      .ok (.ldaL r.p t (r.bit 0) (.ofByte r.d) (.ofByte r.a))
  | 2, .X => do
      let t ← orCode (TypeCode.ofCode (r.bits 4 5))
      .ok (.ldaX r.p t (r.bit 0) (.ofByte r.d) (.ofByte r.a) r.imm)
  | 4, .L => do
      let t ← orCode (TypeCode.ofCode (r.bits 4 5))
      .ok (.ldwbL r.p t (r.bit 0) (.ofByte r.d) (.ofByte r.a))
  | 4, .X => do
      let t ← orCode (TypeCode.ofCode (r.bits 4 5))
      .ok (.ldwbX r.p t (r.bit 0) (.ofByte r.d) (.ofByte r.a) r.imm)
  | 1, .L => do
      let t ← orCode (TypeCode.ofCode (r.bits 4 5))
      .ok (.stsL r.p t (.ofByte r.a) (.ofByte r.b))
  | 1, .X => do
      let t ← orCode (TypeCode.ofCode (r.bits 4 5))
      .ok (.stsX r.p t (.ofByte r.a) (.ofByte r.b) r.imm)
  | 3, .L => do
      let t ← orCode (TypeCode.ofCode (r.bits 4 5))
      .ok (.staL r.p t (.ofByte r.a) (.ofByte r.b))
  | 3, .X => do
      let t ← orCode (TypeCode.ofCode (r.bits 4 5))
      .ok (.staX r.p t (.ofByte r.a) (.ofByte r.b) r.imm)
  | _, _ => .error .formatNotAdmitted

/-- Instructions of MAJ 0x14 by FN and format. -/
noncomputable def pickAtom (r : Raw) : Except DecErr Instr :=
  match r.fn, r.fmt with
  | 0, .L => do
      let op ← orCode (AtomOp.ofCode (r.bits 0 4))
      .ok (.atomL r.p op (r.bit 4) (r.bit 5) (.ofByte r.d) (.ofByte r.a) (.ofByte r.b))
  | 0, .X => do
      let op ← orCode (AtomOp.ofCode (r.bits 0 4))
      .ok (.atomX r.p op (r.bit 4) (r.bit 5) (.ofByte r.d) (.ofByte r.a) (.ofByte r.b) r.imm)
  | 1, .L => .ok (.casL r.p (r.bit 5) (.ofByte r.d) (.ofByte r.a) (.ofByte r.b) (.ofByte r.c))
  | 1, .X => .ok (.casX r.p (r.bit 5) (.ofByte r.d) (.ofByte r.a) (.ofByte r.b) (.ofByte r.c) r.imm)
  | 2, .L => do
      let op ← orCode (AtomOp.ofCode (r.bits 0 4))
      .ok (.atomsL r.p op (r.bit 4) (r.bit 5) (.ofByte r.d) (.ofByte r.a) (.ofByte r.b))
  | 2, .X => do
      let op ← orCode (AtomOp.ofCode (r.bits 0 4))
      .ok (.atomsX r.p op (r.bit 4) (r.bit 5) (.ofByte r.d) (.ofByte r.a) (.ofByte r.b) r.imm)
  | 3, .L => .ok (.cassL r.p (r.bit 5) (.ofByte r.d) (.ofByte r.a) (.ofByte r.b) (.ofByte r.c))
  | 3, .X => .ok (.cassX r.p (r.bit 5) (.ofByte r.d) (.ofByte r.a) (.ofByte r.b) (.ofByte r.c) r.imm)
  | _, _ => .error .formatNotAdmitted

/-- Instructions of MAJ 0x15 by FN and format. -/
noncomputable def pickMonitor (r : Raw) : Except DecErr Instr :=
  match r.fn, r.fmt with
  | 0, .L => do
      let cond ← orCode (Cond.ofCode (r.bits 0 4))
      let t ← orCode (TypeCode.ofCode (r.bits 4 5))
      .ok (.waitcL r.p cond t (.ofByte r.d) (.ofByte r.a) (.ofByte r.b) (.ofByte r.c))
  | 0, .X => do
      let cond ← orCode (Cond.ofCode (r.bits 0 4))
      let t ← orCode (TypeCode.ofCode (r.bits 4 5))
      .ok (.waitcX r.p cond t (.ofByte r.d) (.ofByte r.a) (.ofByte r.b) (.ofByte r.c) r.imm)
  | 1, .L => do
      let cond ← orCode (Cond.ofCode (r.bits 0 4))
      let t ← orCode (TypeCode.ofCode (r.bits 4 5))
      .ok (.armcL r.p cond t (.ofByte r.d) (.ofByte r.a) (.ofByte r.b))
  | 1, .X => do
      let cond ← orCode (Cond.ofCode (r.bits 0 4))
      let t ← orCode (TypeCode.ofCode (r.bits 4 5))
      .ok (.armcX r.p cond t (.ofByte r.d) (.ofByte r.a) (.ofByte r.b) r.imm)
  | 2, .L => .ok (.checkc r.p (.ofByte r.d))
  | _, _ => .error .formatNotAdmitted

/-- Instructions of MAJ 0x18 by FN and format. -/
noncomputable def pickSys (r : Raw) : Except DecErr Instr :=
  match r.fn, r.fmt with
  | 0, .L => .ok (.syscL (.ofByte r.a))
  | 0, .X => .ok (.syscX (.ofByte r.a) r.imm)
  | 1, .L => .ok (.hcallL (.ofByte r.a))
  | 1, .X => .ok (.hcallX (.ofByte r.a) r.imm)
  | 2, .L => .ok (.mcallL (.ofByte r.a))
  | 2, .X => .ok (.mcallX (.ofByte r.a) r.imm)
  | 5, .L => .ok (.trapL (.ofByte r.a))
  | 5, .X => .ok (.trapX (.ofByte r.a) r.imm)
  | 3, .L =>
    match r.m % 2 with
    | 0 => .ok (.tret)
    | 1 => .ok (.tretPark)
    | _ => .error .reservedCode
  | 4, .L => .ok (.tfence)
  | 6, .L => do
      let num ← finOr 1024 (r.bits 0 10)
      .ok (.mfsr r.p num (.ofByte r.d))
  | 7, .L => do
      let num ← finOr 1024 (r.bits 0 10)
      .ok (.mtsrL r.p num (.ofByte r.a))
  | 7, .X => do
      let num ← finOr 1024 (r.bits 0 10)
      .ok (.mtsrX r.p num (.ofByte r.a) r.imm)
  | 8, .L => .ok (.gresumeL (.ofByte r.d) (.ofByte r.a))
  | 8, .X => .ok (.gresumeX (.ofByte r.d) (.ofByte r.a) r.imm)
  | 9, .L => .ok (.gkillL (r.bit 0) (.ofByte r.d) (.ofByte r.a))
  | 9, .X => .ok (.gkillX (r.bit 0) (.ofByte r.d) (.ofByte r.a) r.imm)
  | 10, .L => do
      let scope ← orCode (TlbiScope.ofCode (r.bits 0 2))
      .ok (.tlbi scope (r.bit 2) (.ofByte r.a) (.ofByte r.b))
  | 11, .L => .ok (.tlbsync)
  | _, _ => .error .formatNotAdmitted

/-- Instructions of MAJ 0x1c by FN and format. -/
noncomputable def pickCopy (r : Raw) : Except DecErr Instr :=
  match r.fn, r.fmt with
  | 0, .X => do
      let dsp ← orCode (DSp.ofCode (r.bits 0 2))
      let ssp ← orCode (SSp.ofCode (r.bits 2 2))
      .ok (.cpy r.p dsp ssp (.ofByte r.d) (.ofByte r.a) (.ofByte r.b) (.ofByte r.c) r.imm)
  | 1, .X => do
      let dsp ← orCode (DSp.ofCode (r.bits 0 2))
      let ssp ← orCode (SSp.ofCode (r.bits 2 2))
      .ok (.cpys r.p dsp ssp (.ofByte r.d) (.ofByte r.a) (.ofByte r.b) (.ofByte r.c) r.imm)
  | 2, .X => do
      let dsp ← orCode (DSp.ofCode (r.bits 0 2))
      .ok (.cpyg r.p dsp (.ofByte r.d) (.ofByte r.a) (.ofByte r.b) (.ofByte r.c) r.imm)
  | 3, .X => do
      let ssp ← orCode (SSp.ofCode (r.bits 2 2))
      .ok (.cpyt r.p ssp (.ofByte r.d) (.ofByte r.a) (.ofByte r.b) (.ofByte r.c) r.imm)
  | 4, .X => do
      let dsp ← orCode (DSp.ofCode (r.bits 0 2))
      .ok (.cpym r.p dsp (.ofByte r.d) (.ofByte r.a) (.ofByte r.b) r.imm)
  | 5, .X => do
      let dsp ← orCode (DSp.ofCode (r.bits 0 2))
      let fc ← finOr 11 (r.bits 4 5)
      .ok (.cpyf r.p dsp fc (.ofByte r.d) (.ofByte r.a) (.ofByte r.b) (.ofByte r.c) r.imm)
  | 6, .X => .ok (.swinit r.p (.ofByte r.a) (.ofByte r.b) r.imm)
  | 7, .X => .ok (.swwait r.p (.ofByte r.d) (.ofByte r.a) (.ofByte r.b) r.imm)
  | _, _ => .error .formatNotAdmitted

/-- Instructions of MAJ 0x20 by FN and format. -/
noncomputable def pickMatrix (r : Raw) : Except DecErr Instr :=
  match r.fn, r.fmt with
  | 0, .X => do
      let m ← finOr 32 (r.bits 0 5)
      .ok (.mma r.p m (r.bit 5) (r.bit 6) (.ofByte r.d) (.ofByte r.a) (.ofByte r.b) r.imm)
  | 1, .X => do
      let m ← finOr 32 (r.bits 0 5)
      .ok (.mmap r.p m (r.bit 5) (r.bit 6) (.ofByte r.d) (.ofByte r.a) (.ofByte r.b) r.imm)
  | 2, .X => do
      let m ← finOr 32 (r.bits 0 5)
      .ok (.mclr r.p m (.ofByte r.d) r.imm)
  | 3, .X => do
      let m ← finOr 32 (r.bits 0 5)
      let fmt ← orCode (TypeCode.ofCode (r.bits 5 5))
      .ok (.mcvt r.p m fmt (.ofByte r.d) (.ofByte r.a) (.ofByte r.b) r.imm)
  | 4, .X => do
      let m ← finOr 32 (r.bits 0 5)
      .ok (.macc r.p m (r.bit 5) (.ofByte r.d) (.ofByte r.a) r.imm)
  | 5, .X => .ok (.mrel r.p r.imm)
  | _, _ => .error .formatNotAdmitted

/-- Instructions of MAJ 0x24 by FN and format. -/
noncomputable def pickQueue (r : Raw) : Except DecErr Instr :=
  match r.fn, r.fmt with
  | 0, .L => .ok (.qpopL r.p (r.bit 0) (.ofByte r.d) (.ofByte r.a))
  | 0, .X => .ok (.qpopX r.p (r.bit 0) (.ofByte r.d) (.ofByte r.a) r.imm)
  | 1, .L => do
      let o ← finOr 8 (r.bits 0 3)
      .ok (.qpushL r.p o (.ofByte r.a))
  | 1, .X => do
      let o ← finOr 8 (r.bits 0 3)
      .ok (.qpushX r.p o (.ofByte r.a) r.imm)
  | 2, .L => do
      let o ← finOr 8 (r.bits 0 3)
      .ok (.qpushsL r.p o (.ofByte r.a) (.ofByte r.b))
  | 2, .X => do
      let o ← finOr 8 (r.bits 0 3)
      .ok (.qpushsX r.p o (.ofByte r.a) (.ofByte r.b) r.imm)
  | 3, .L => .ok (.qdone r.p)
  | 4, .L => do
      let sel ← finOr 9 (r.bits 0 4)
      .ok (.qlen r.p sel (.ofByte r.d))
  | 5, .L => do
      let o ← finOr 8 (r.bits 0 3)
      .ok (.qseedL r.p o (.ofByte r.d) (.ofByte r.a) (.ofByte r.b) (.ofByte r.c))
  | 5, .X => do
      let o ← finOr 8 (r.bits 0 3)
      .ok (.qseedX r.p o (.ofByte r.d) (.ofByte r.a) (.ofByte r.b) (.ofByte r.c) r.imm)
  | 6, .L =>
    match r.m % 16 with
    | 0 => .ok (.qctlSetq r.p (.ofByte r.d) (.ofByte r.a) (.ofByte r.b) (.ofByte r.c))
    | 1 => .ok (.qctlSets r.p (.ofByte r.d) (.ofByte r.a) (.ofByte r.b) (.ofByte r.c))
    | 2 => .ok (.qctlBind r.p (.ofByte r.d) (.ofByte r.a) (.ofByte r.b) (.ofByte r.c))
    | 3 => .ok (.qctlUnbind r.p (.ofByte r.d) (.ofByte r.a) (.ofByte r.b) (.ofByte r.c))
    | 4 => .ok (.qctlStat r.p (.ofByte r.d) (.ofByte r.a) (.ofByte r.b) (.ofByte r.c))
    | 5 => .ok (.qctlStop r.p (.ofByte r.d) (.ofByte r.a) (.ofByte r.b) (.ofByte r.c))
    | 6 => .ok (.qctlStart r.p (.ofByte r.d) (.ofByte r.a) (.ofByte r.b) (.ofByte r.c))
    | 7 => .ok (.qctlClear r.p (.ofByte r.d) (.ofByte r.a) (.ofByte r.b) (.ofByte r.c))
    | _ => .error .reservedCode
  | _, _ => .error .formatNotAdmitted

/-- Instructions of MAJ 0x28 by FN and format. -/
noncomputable def pickFabric (r : Raw) : Except DecErr Instr :=
  match r.fn, r.fmt with
  | 0, .L =>
    match r.m % 16 with
    | 0 => .ok (.fstatPort r.p (.ofByte r.d) (.ofByte r.a))
    | 1 => .ok (.fstatRoute r.p (.ofByte r.d) (.ofByte r.a))
    | 2 => .ok (.fstatMirror r.p (.ofByte r.d) (.ofByte r.a))
    | 3 => .ok (.fstatTokens r.p (.ofByte r.d) (.ofByte r.a))
    | 4 => .ok (.fstatRto r.p (.ofByte r.d) (.ofByte r.a))
    | _ => .error .reservedCode
  | 1, .L => .ok (.fclr r.p (r.bit 0) (.ofByte r.d))
  | 2, .L => do
      let fld ← finOr 5 (r.bits 0 3)
      .ok (.ftok fld (r.bit 3) (.ofByte r.d) (.ofByte r.a) (.ofByte r.b) (.ofByte r.c))
  | 3, .L =>
    match r.m % 16 with
    | 0 => .ok (.flinkPort (.ofByte r.d) (.ofByte r.a) (.ofByte r.b) (.ofByte r.c))
    | 1 => .ok (.flinkRoute (.ofByte r.d) (.ofByte r.a) (.ofByte r.b) (.ofByte r.c))
    | 2 => .ok (.flinkKey (.ofByte r.d) (.ofByte r.a) (.ofByte r.b) (.ofByte r.c))
    | 3 => .ok (.flinkMirror (.ofByte r.d) (.ofByte r.a) (.ofByte r.b) (.ofByte r.c))
    | 4 => .ok (.flinkUnmirror (.ofByte r.d) (.ofByte r.a) (.ofByte r.b) (.ofByte r.c))
    | 5 => .ok (.flinkGrant (.ofByte r.d) (.ofByte r.a) (.ofByte r.b) (.ofByte r.c))
    | 6 => .ok (.flinkRevoke (.ofByte r.d) (.ofByte r.a) (.ofByte r.b) (.ofByte r.c))
    | 7 => .ok (.flinkSetid (.ofByte r.d) (.ofByte r.a) (.ofByte r.b) (.ofByte r.c))
    | _ => .error .reservedCode
  | _, _ => .error .formatNotAdmitted

/-- Instructions of MAJ 0x2c by FN and format. -/
noncomputable def pickTier (r : Raw) : Except DecErr Instr :=
  match r.fn, r.fmt with
  | 0, .L => .ok (.tswap r.p (r.bit 0) (.ofByte r.d) (.ofByte r.a) (.ofByte r.b))
  | 1, .L => .ok (.tpinL r.p (.ofByte r.d) (.ofByte r.a) (.ofByte r.b))
  | 1, .X => .ok (.tpinX r.p (.ofByte r.d) (.ofByte r.a) (.ofByte r.b) r.imm)
  | 2, .L => .ok (.tunpinL r.p (.ofByte r.d) (.ofByte r.a) (.ofByte r.b))
  | 2, .X => .ok (.tunpinX r.p (.ofByte r.d) (.ofByte r.a) (.ofByte r.b) r.imm)
  | 3, .L =>
    match r.m % 2 with
    | 0 => .ok (.tresL r.p (.ofByte r.d) (.ofByte r.a) (.ofByte r.b))
    | 1 => .ok (.tresStage r.p (.ofByte r.d) (.ofByte r.a) (.ofByte r.b) (.ofByte r.c))
    | _ => .error .reservedCode
  | 3, .X =>
    match r.m % 2 with
    | 0 => .ok (.tresX r.p (.ofByte r.d) (.ofByte r.a) (.ofByte r.b) r.imm)
    | _ => .error .reservedCode
  | 4, .L =>
    match r.m % 4 with
    | 0 => .ok (.twrecWs r.p (.ofByte r.d) (.ofByte r.a) (.ofByte r.b))
    | 1 => .ok (.twrecDeclare r.p (.ofByte r.d) (.ofByte r.a) (.ofByte r.b))
    | 2 => .ok (.twrecUndeclare r.p (.ofByte r.d) (.ofByte r.a) (.ofByte r.b))
    | 3 => .ok (.twrecDirty r.p (.ofByte r.d) (.ofByte r.a) (.ofByte r.b))
    | _ => .error .reservedCode
  | 5, .L =>
    match r.m % 2 with
    | 0 => .ok (.haltc r.p (.ofByte r.d) (.ofByte r.a) (.ofByte r.b))
    | 1 => .ok (.haltcStop r.p (.ofByte r.d) (.ofByte r.a) (.ofByte r.b))
    | _ => .error .reservedCode
  | 6, .L => .ok (.resumec r.p (.ofByte r.d) (.ofByte r.b))
  | _, _ => .error .formatNotAdmitted

/-- Formats and number of FN values of a major opcode (R53); none if it is reserved. -/
def majInfo : Nat → Option (List Fmt × Nat)
  | 0 => some ([.S], 6)
  | 1 => some ([.X], 4)
  | 2 => some ([.L], 3)
  | 3 => some ([.L, .X], 7)
  | 4 => some ([.L, .X], 14)
  | 5 => some ([.L, .X], 17)
  | 6 => some ([.L, .X], 5)
  | 7 => some ([.L, .X], 6)
  | 8 => some ([.L, .X], 12)
  | 9 => some ([.L], 8)
  | 10 => some ([.L], 4)
  | 11 => some ([.L, .X], 5)
  | 12 => some ([.L], 4)
  | 13 => some ([.L], 5)
  | 16 => some ([.L, .X], 4)
  | 17 => some ([.L, .X], 2)
  | 18 => some ([.L, .X], 5)
  | 20 => some ([.L, .X], 4)
  | 21 => some ([.L, .X], 3)
  | 24 => some ([.L, .X], 12)
  | 28 => some ([.X], 8)
  | 32 => some ([.X], 6)
  | 36 => some ([.L, .X], 7)
  | 40 => some ([.L], 4)
  | 44 => some ([.L, .X], 7)
  | _ => none

/-- The instruction that the fields name, unused fields not yet checked. -/
noncomputable def pick (r : Raw) : Except DecErr Instr :=
  match r.maj with
  | 0 => pickCtl r
  | 1 => pickBranch r
  | 2 => pickBrind r
  | 3 => pickSync r
  | 4 => pickIarith r
  | 5 => pickIbit r
  | 6 => pickIpred r
  | 7 => pickImove r
  | 8 => pickFarith r
  | 9 => pickFspec r
  | 10 => pickFconv r
  | 11 => pickFpacked r
  | 12 => pickQexch r
  | 13 => pickGexch r
  | 16 => pickLoad r
  | 17 => pickStore r
  | 18 => pickLoc r
  | 20 => pickAtom r
  | 21 => pickMonitor r
  | 24 => pickSys r
  | 28 => pickCopy r
  | 32 => pickMatrix r
  | 36 => pickQueue r
  | 40 => pickFabric r
  | 44 => pickTier r
  | _ => .error .reservedMaj

/-- Decoding of the fields in the order of R56 rows 7 to 10: MAJ and format, FN, PRED, codes, and every bit that the
instruction does not use zero (R47), which is to say that its own fields are exactly these. -/
noncomputable def decodeRaw (r : Raw) : Except DecErr Instr :=
  match majInfo r.maj with
  | none => .error .reservedMaj
  | some (fs, n) =>
    if !fs.contains r.fmt then .error .formatNotAdmitted
    else if n ≤ r.fn then .error .reservedFn
    else if r.pred = 8 then .error .reservedPred
    else match pick r with
      | .error e => .error e
      | .ok i => if encodeRaw i = some r then .ok i else .error .unusedField

/-- Parcels of a format (R35). -/
def Fmt.parcels : Fmt → Nat
  | .S => 1 | .L => 2 | .X => 3

/-- The format that bits [1:0] of the first parcel give (R35). -/
def fmtOf (p0 : Nat) : Option Fmt :=
  match p0 % 4 with
  | 1 => some .S | 2 => some .L | 3 => some .X | _ => none

/-- The fields of parcels (R44). -/
def Raw.ofParcels (f : Fmt) (p0 p1 p2 : Nat) : Raw :=
  match f with
  | .S => ⟨.S, p0 / 4 % 64, p0 / 4096 % 16, p0 / 256 % 16, p0 / 65536 % 256, p0 / 16777216 % 256, 0, 0, 0, 0⟩
  | .L => ⟨.L, p0 / 4 % 64, p0 / 4096 % 256, p0 / 256 % 16, p0 / 1048576 % 256, p1 % 256, p1 / 256 % 256,
      p1 / 65536 % 256, p0 / 268435456 % 16 + 16 * (p1 / 16777216 % 256), 0⟩
  | .X => ⟨.X, p0 / 4 % 64, p0 / 4096 % 256, p0 / 256 % 16, p0 / 1048576 % 256, p1 % 256, p1 / 256 % 256,
      p1 / 65536 % 256, p0 / 268435456 % 16 + 16 * (p1 / 16777216 % 256), BitVec.ofNat 32 p2⟩

/-- The parcels of fields (R44), as numbers. -/
def Raw.toParcels (r : Raw) : List Nat :=
  match r.fmt with
  | .S => [1 + 4 * r.maj + 256 * r.pred + 4096 * r.fn + 65536 * r.d + 16777216 * r.a]
  | .L => [2 + 4 * r.maj + 256 * r.pred + 4096 * r.fn + 1048576 * r.d + 268435456 * (r.m % 16),
      r.a + 256 * r.b + 65536 * r.c + 16777216 * (r.m / 16)]
  | .X => [3 + 4 * r.maj + 256 * r.pred + 4096 * r.fn + 1048576 * r.d + 268435456 * (r.m % 16),
      r.a + 256 * r.b + 65536 * r.c + 16777216 * (r.m / 16), r.imm.toNat]

/-- Decoding of an instruction whose first parcel is `p0`; `p1` and `p2` are the parcels behind it. -/
noncomputable def decodeParcels (p0 p1 p2 : Nat) : Except DecErr Instr :=
  match fmtOf p0 with
  | none => .error .badLength
  | some f => decodeRaw (.ofParcels f p0 p1 p2)

/-- Decoding of the bytes from an instruction's first parcel on, parcels little-endian (R32); bytes that are not there
read zero. -/
noncomputable def decodeBytes (bs : List Byte) : Except DecErr Instr :=
  decodeParcels (leNat (bs.take 4)) (leNat ((bs.drop 4).take 4)) (leNat ((bs.drop 8).take 4))

/-- The parcels of an instruction; none for a step without an encoding. -/
def encode (i : Instr) : List Word :=
  match encodeRaw i with
  | none => []
  | some r => r.toParcels.map (BitVec.ofNat 32)

/-- The bytes of parcels as code memory holds them (R32). -/
def parcelBytes (ws : List Word) : List Byte := ws.flatMap fun w => natLe 4 w.toNat

/-- Decoding of a row of the opcode table given as one number, bit 0 the least significant bit of the first parcel;
the bits above the number are zero. -/
noncomputable def decodeTableWord (_nbits w : Nat) : Option Instr :=
  match decodeBytes (natLe 12 w) with
  | .ok i => some i
  | .error _ => none

end Sys2Proof
end

