-- ==== Sys2Proof/Machine/Turn.lean ====
section
/-!
DEFINITION. Whose turn it is (R134, R135, R146), fetching and decoding its instruction (R32 to R37, R42, R56), and which steps of the
engines time brings about (log 1).
-/
namespace Sys2Proof.Machine

/-! The choice of a part -/

/-- A part that may issue: where it stands, its name, its number, and whether it gives way. -/
structure Seat where
  at_ : SeatAt
  r : PartRef
  id : Nat
  yielded : Bool
  deriving DecidableEq, Repr

/-- The order of sub-cores, gang slots and lowest quads (R135). -/
def SeatAt.before (a b : SeatAt) : Bool :=
  a.core < b.core || a.core == b.core && (a.sub < b.sub || a.sub == b.sub && (a.slot < b.slot || a.slot == b.slot && a.quad < b.quad))

/-- Whether a part may issue: it does not stand still, its gang is not parked, and its cohort is neither halted nor to be killed, but
what no stop may cut short goes on (R113, R359, R561). -/
def mayIssue (c : Cohort) (g : Gang) (p : Part) : Bool :=
  !p.still && p.quads != 0 && !c.ended && (p.bound || !(c.halted || c.dying.isSome || g.parked))

/-- Where a part of a gang stands. -/
def seatOf (c : Cohort) (g : Gang) (quad : Nat) : SeatAt := ⟨c.core, g.sub, g.slot, quad⟩

/-- The parts that may issue: a core runs only cohorts of a partition that may use its section (R15, R28), and, again, what
no stop may cut short. -/
def State.seats (s : State) : List Seat :=
  s.cohorts.flatMap fun c => c.gangs.flatMap fun g =>
    (g.parts.filter fun p => mayIssue c g p && (p.bound || s.rules c.part (c.core / 4))).map fun p =>
      ⟨seatOf c g (lowQuad p.quads), refOf c.id g.idx p, p.id, p.yielded⟩

/-- The first of some seats in the order. -/
def firstSeat : List Seat → Option Seat
  | [] => none
  | a :: l => match firstSeat l with | some b => if b.at_.before a.at_ then some b else some a | none => some a

/-- The next seat after a place, round robin (R135). -/
def nextSeat (l : List Seat) (turn : Option SeatAt) : Option Seat :=
  match turn with
  | none => firstSeat l
  | some c => match firstSeat (l.filter fun a => c.before a.at_) with | some a => some a | none => firstSeat l

/-- Whether the part that has the turn keeps it: its run is open and it does not wait (R134). -/
def State.keeps (s : State) (r : PartRef) : Bool :=
  match s.part? r with
  | some p => p.wait == .none && p.runs.getLast?.any fun x => !x.closed && decide (0 < x.count)
  | none => false

/-- Whether a part gives way: another part of its sub-core is ready that does not (R146). -/
def Seat.givesWay (a : Seat) (l : List Seat) : Bool :=
  a.yielded && l.any fun b => b.at_.core == a.at_.core && b.at_.sub == a.at_.sub && !b.yielded

/-- Whether a part has been chosen since another part of its sub-core became ready that has not been chosen yet: it is not chosen again
before that one, wherever splits and exits have put it in the order (R135). -/
def State.owes (s : State) (l : List Seat) (a : Seat) : Bool := s.owed.any fun o => o.1 == a.id && l.any fun b => b.id == o.2

/-- The part that issues next (R134, R135, R146). -/
def State.choose (s : State) : Option PartRef :=
  let l := s.seats
  let keep := match s.cur with | some r => s.keeps r && l.any (fun a => a.r == r) | none => false
  let l' := l.filter fun a => !a.givesWay l
  if keep then s.cur else (nextSeat (l'.filter fun a => !s.owes l' a) s.turn).map fun a => a.r

/-- What is owed once a part has been chosen: it, a turn to every other ready part of its sub-core (R135). -/
def State.owedAfter (s : State) (r : PartRef) : List (Nat × Nat) :=
  let l := s.seats
  match l.find? fun a => a.r == r with
  | none => s.owed
  | some a =>
    let beside := l.filter fun b => b.id != a.id && b.at_.core == a.at_.core && b.at_.sub == a.at_.sub
    (s.owed.filter fun o => o.1 != a.id && o.2 != a.id && l.any fun b => b.id == o.2) ++ beside.map fun b => (a.id, b.id)

/-- A part is chosen: it has given way once, and so has every part beside it on its sub-core (R146). -/
def State.chosen (s : State) (r : PartRef) : State :=
  match s.cohort? r.cohort, s.gang? r.cohort r.gang with
  | some c, some g =>
    let stay := fun (p : Part) => { p with yielded := false }
    let calm := fun (x : Gang) => if x.sub = g.sub then { x with parts := x.parts.map stay } else x
    let calmAll := fun (d : Cohort) => if d.core = c.core then { d with gangs := d.gangs.map calm } else d
    { s with
      cur := some r, turn := some (seatOf c g r.quad), cohorts := s.cohorts.map calmAll
      owed := if s.cur = some r && s.keeps r then s.owed else s.owedAfter r }
  | _, _ => { s with cur := some r }

/-! Fetching and decoding -/

/-- Whether an instruction begins a run of its own, so that it is not one more instruction of the run before it (R108, R131). -/
def State.newRun (s : State) (x : Ctx) : Instr → Bool
  | .tret | .tretPark | .tfence | .gresumeL .. | .gresumeX .. | .gkillL .. | .gkillX .. | .tlbi .. | .tlbsync => true
  | .qctlSetq .. | .qctlSets .. | .qctlBind .. | .qctlUnbind .. | .qctlStat .. | .qctlStop .. | .qctlStart .. | .qctlClear .. => true
  | .waiteL a cls => s.waiteCloses x a cls
  | .waiteX a cls imm => s.waiteCloses { x with v := { x.v with imm := imm } } a cls
  | _ => false

/-- The pattern at parcel `k` of a line with header `h`, its bytes from there on (R36, R56 rows 3 and 5 to 10): an instruction, or the
cause of its fault. `full` says that its run has 24 instructions, and `fresh` which instructions begin a run of their own. -/
noncomputable def readPattern (h : DWord) (k : Nat) (full : Bool) (fresh : Instr → Bool) (bs : List Byte) : Except Nat Instr :=
  if hdrKind h ≠ 0 then .error 1
  else
    match fmtOf (leNat (bs.take 4)) with
    | none => .error 1
    | some f =>
      if !hdrStart h k || 30 < k + f.parcels || (List.range (f.parcels - 1)).any fun j => hdrStart h (k + 1 + j) then .error 1
      else
        match decodeBytes (bs.take (4 * f.parcels)) with
        | .error _ => .error (if full then 4 else 1)
        | .ok i => if full && !(fresh i && admissible i) then .error 4 else if admissible i then .ok i else .error 1

/-- What comes of a fetch: an instruction to execute and the state with its line's header, or the state after a fault or a wait. -/
inductive Fetched where
  | instr (i : Instr) (s : State)
  | failed (s : State)
  deriving DecidableEq, Repr

/-- A fetch fails in some lanes, decided before any effect: what the part fetched last is under way no longer. -/
def State.fetchFailsIn (s : State) (x : Ctx) (lanes : Word) (code : Nat) (addr : DWord) (s2 : Bool) : State :=
  (s.failAt x lanes code addr s2).modPart x.r fun p => { p with under := none }

/-- A fetch fails; the trapping lanes are EXEC. -/
def State.fetchFails (s : State) (x : Ctx) (code : Nat) (addr : DWord) (s2 : Bool) : State := s.fetchFailsIn x x.v.part.exec code addr s2

/-- A fetch waits for a page. -/
def State.fetchWaits (s : State) (x : Ctx) : State := (s.waits x.r .load).modPart x.r fun p => { p with under := none }

/-- The 25th instruction of a run, if it is one (R56 rows 4 and 6): a taken branch of which the target's check fails raises that
check's fault, and everything else the fault of the run. -/
def State.overrun (s : State) (x : Ctx) (i : Option Instr) : State :=
  match (i.bind x.v.jump?).filter fun j => j.quads != 0 with
  | none => s.fetchFails x 4 0 false
  | some j =>
    if j.entry && j.target.toNat % 128 != 8 then s.fetchFailsIn x j.lanes 3 j.target false
    else
      let k := s.checkTarget x.c.core x.c.part x.c.gslot x.v.part.ring j.target true j.indirect
      if s.lost k.2 x.r then k.2
      else
        match k.1 with
        | .fault e => k.2.fetchFailsIn x j.lanes e.code j.target e.s2
        | .wait => k.2.fetchWaits x
        | .ok _ => k.2.fetchFails x 4 0 false

/-- The instruction in which a part waits: fetched when it was about to execute, and not again (R42). -/
def Part.waitsIn (p : Part) : Option Instr :=
  if p.wait = .none && p.pend.isNone then none
  else match p.under with
    | some (pc, i) => if pc = p.pc then some i else none
    | none => none

/-- How many parcels a pattern takes, by its first one (R36). -/
def patternLength (bs : List Byte) : Nat := (fmtOf (leNat bs)).elim 1 (·.parcels)

/-- The storage lines that a fetch in the code line at `a` reads: those of the header and of the pattern's parcels, within the code
line (R33, R36, R371). -/
def State.codeLines (s : State) (own a : Nat) (pc : DWord) : List Nat :=
  let at_ := a + pc.toNat % 128
  [a / 64, at_ / 64, min ((at_ + 4 * patternLength (s.bytesAs own at_ 4) - 1) / 64) (a / 64 + 1)]

/-- The instruction at a part's counter is fetched and decoded (R33 to R37, R42, R56, R371). DESIGN CHOICE: of a line that is
poisoned the trapping lanes are EXEC and TADDR is the counter (R353, log 101). -/
noncomputable def State.fetch (s : State) (x : Ctx) : Fetched :=
  let pc := x.v.part.pc
  let f := s.fetchLine x.c.core x.c.part x.c.gslot x.v.part.ring pc
  if s.lost f.2 x.r then .failed f.2
  else
    let s := f.2
    match f.1 with
    | .fault e => .failed (s.fetchFails x e.code pc e.s2)
    | .wait => .failed (s.fetchWaits x)
    | .ok a =>
      let at_ := a + (pc.toNat % 128)
      let own := x.own
      match (s.codeLines own a pc).find? s.poisoned with
      | some l => .failed ((s.poisonRead own x.c.core x.r.cohort x.r.gang l).fetchFails x 0x20 pc false)
      | none =>
        let h : DWord := BitVec.ofNat 64 (leNat (s.bytesAs own a 8))
        if !pcOk pc then .failed (s.fetchFails x 1 pc false)
        else
          let read := fun (full : Bool) => readPattern h (parcelOf pc) full (s.newRun x) (s.bytesAs own at_ 12)
          match read (decide (24 ≤ x.v.part.runpos)) with
          | .error 4 => .failed (s.overrun x (read false).toOption)
          | .error c => .failed (s.fetchFails x c pc false)
          | .ok i => .instr i (s.modPart x.r fun p => { p with header := h, under := some (pc, i) })

/-! What time brings about -/

/-- Work that waits for something that no other step announces: it is looked at again. -/
def State.pendingWork (s : State) : List Instr :=
  ((s.allParts.filter fun x => x.2.runs.head?.any fun r => r.closed).map fun x => Instr.runCommit x.1) ++
  ((s.allParts.filter fun x => x.2.trap.isSome).map fun x => Instr.trapEntry x.1) ++
  ((s.stores.filter fun e => e.committed).map fun e => Instr.storeBufferDrain e.id) ++
  ((s.stores.filter fun e => !e.owned).map fun e => Instr.ownershipRequest e.id) ++
  ((s.walks.map fun w => w.sec).dedup.map Instr.pageWalk) ++
  ((s.copy.ops.map fun o => o.cmd.core).dedup.map Instr.copyChunkIssue) ++
  ((s.matrix.ops.map fun o => o.cmd.core).dedup.map Instr.matrixOperationStart) ++
  ((s.stage.queues.filter fun q => q.line ≠ []).map fun q => Instr.enqueueRoomResume q.key) ++
  ((s.stage.queues.filter fun q => q.asks ≠ []).map fun q => Instr.queueDequeue q.key) ++
  ((s.stage.queues.filter fun q => q.pops ≠ []).map fun q => Instr.qpopWaitServe q.key) ++
  ((s.fabric.ports.filter fun p => p.live && (p.egress ≠ [] || p.again.isSome)).map fun p => Instr.flitTransmit p.num)

/-- The claims that may be granted and the cohorts that may be deadlocked (R141, R142). -/
def State.claimWork (s : State) : List Instr :=
  let cs := s.claims.filter fun c => !c.granted
  ((cs.map fun c => (c.core, c.sub)).dedup.map fun k => Instr.claimGrant k.1 k.2) ++ ((cs.map fun c => c.cohort).dedup.map Instr.claimDeadlock)

/-- What the tier engine looks at again (R552, R557, R561, R576). -/
def State.tierWork (s : State) : List Instr :=
  (((s.tier.halts.map fun h => h.part) ++ ((s.tier.jobs.filter fun j =>
    match j.kind with | .halt _ => true | _ => false).map fun j => j.target)).dedup.map Instr.haltComplete) ++
  ((s.cohorts.filter s.misplaced).map fun c => Instr.borrowerSpill c.id) ++
  (s.tier.moves.map fun m => Instr.tierMoveComplete m.id)

/-- Every 128 cycles: the summaries (R467), and what waits. -/
def State.tick128 (s : State) : State :=
  (s.due ([.summaryPublish] ++ s.claimWork ++ s.pendingWork ++ s.tierWork)).kickAll

/-- Timers of requests and of ports, and the idle flits that keep a quiet link alive (R97, R499, R502, R511, R517, R599, R604). -/
def State.linkTimers (s : State) : List Instr :=
  let out := s.reqs.filter fun q => q.sent && q.ans.isNone
  ((out.filter fun q => q.peer.isSome && decide (q.deadline + 200 < s.fabricTime)).map fun q => Instr.remoteTimeout q.id) ++
  ((out.filter fun q => q.io && decide (q.deadline ≤ s.cycle)).map fun q => Instr.ioTimeout q.id) ++
  ((s.fabric.ports.filter fun p => p.state == .training).map fun p => Instr.linkTrainingTimeout p.num) ++
  ((s.fabric.ports.filter fun p => p.live).flatMap fun p => [Instr.replayTimeout p.num, Instr.linkSilenceTimeout p.num]) ++
  ((s.fabric.ports.filter fun p => p.live && p.txKey.isSome).map fun p => Instr.flitTransmit p.num)

/-- Timers of mirrored queues and of partitions (R521, R523, R525, R561, R567, R571). -/
def State.slowTimers (s : State) : List Instr :=
  (s.fabric.mirrors.flatMap fun m => [Instr.lengthReportSend m.idx] ++
    ((m.batches.filter fun b => !b.settled).map fun b => Instr.batchTimeout m.idx b.seq) ++
    (m.held.map fun h => Instr.batchDeadlineDiscard m.idx h.seq)) ++
  ((s.parts.filter fun p => p.active && p.slice != 0).map fun p => Instr.sliceExpiry p.num) ++
  (s.tier.halts.flatMap fun h => [Instr.haltDeadlineKill h.part, Instr.haltDeadlineReset h.part])

/-- Every microsecond, which is 2,400 cycles (R150, R517, R599). -/
def State.tickMicro (s : State) : State := s.due ([.tokenTick, .powerArbiterTick] ++ s.linkTimers ++ s.slowTimers)

/-- The kills that waited for a run boundary and need to wait no longer, and the resets that waited for them (R113). -/
def State.settleKills (s : State) : State := ((s.cohorts.filter fun c => c.dying.isSome).foldl (fun t c => t.settleDying c.id) s).settleResets

/-- Decisions that had to wait for their cycle are due: of cores (R472, R473) and of ports (R523). -/
def State.decideLate (s : State) : State :=
  let cores := s.stage.again.filter fun c => decide (s.decideAt c ≤ s.cycle)
  let late := fun (p : Port) => p.decides && decide (p.decideAt ≤ s.cycle)
  let ports := (s.fabric.ports.filter late).map fun p => p.num
  ({ s with
    stage := { s.stage with again := s.stage.again.filter fun c => decide (s.cycle < s.decideAt c) }
    fabric := { s.fabric with ports := s.fabric.ports.map fun p => if late p then { p with decides := false } else p } } : State).due
    (cores.map .launchDecision ++ ports.map .portForwardDecision)

/-- A cycle passes (log 5). -/
def State.passCycle (s : State) : State :=
  let s := ({ s.settleKills with cycle := s.cycle + 1 } : State).decideLate
  let s := if s.cycle % 128 = 0 then s.tick128 else s
  if s.cycle % 2400 = 0 then s.tickMicro else s

/-! Inputs while the clocks stand, and a program's first instruction -/

/-- What acts on a package whose clocks have stopped (R601). -/
def actsFrozen : Instr → Bool
  | .packageReset => true
  | .scanReadout => true
  | _ => false

/-- Where the boot ROM puts the first code line (R602). -/
def firstLine : Nat := 0x100000

/-- The part with which a program begins: all quads at ring M (R73, R338, R602). -/
def firstPart (id : Nat) : Part :=
  { id := id, quads := 0xFF, pc := BitVec.ofNat 64 (firstLine + 8), ring := .M, s := vof 32 fun _ => 0
    p := vof 8 fun i => if i = 0 then 0xFFFFFFFF else 0, exec := 0xFFFFFFFF, aflags := 0, x := vof 8 fun _ => rowOf fun _ => 0, xw := vof 8 fun _ => 0
    runs := [], rbCount := 0, drag := false, dragCommits := 0, wait := .none, trap := none, pend := none, tlbis := [], yielded := false
    under := none, header := 0 }

/-- A cohort of the boot context on core 0 with one gang and a window of 176 registers (R51, R602, R603). -/
def firstCohort (id : Nat) : Cohort :=
  { id := id, part := 63, gslot := 0, stage := 0, core := 0, slot := some 0, sp := ⟨0, 0x8000⟩, wb := ⟨0, 0x10000⟩, ab := ⟨0, 0x10000⟩
    shared := 0x4000, recSize := 16, barriers := List.replicate 16 barrierIdle
    gangs := [{ gangAt 0 0 (List.range 44) with parts := [firstPart (id + 1)] }], halted := false, idle := false
    ready := false, spilledSp := false, spilledWb := false, spilledAb := false, haltNo := 0, bound := true, order := id
    progress := false, ended := false, dying := none, tainted := false, spillsSp := 0, spillsWb := 0, lastSlot := 0, saveIdx := none }

/-- A program loaded from outside, whose first line begins with some bytes and a header that marks parcel 0 (log 2). -/
def State.load (s : State) (bs : List Byte) : State :=
  let line := firstLine / 64
  let mine := fun (k : Nat) => k == line || k == line + 1
  { s with
    boot := .running, frozen := false, agenda := [], cur := none, owed := [], nextId := s.nextId + 2, cohorts := [firstCohort s.nextId]
    mem := s.mem.writeBytes firstLine (natLe 8 1 ++ bs)
    poison := s.poison.filter fun l => !mine l, owners := s.owners.filter fun (o : Nat × Nat × Nat) => !mine (o.1 / 64) }

end Sys2Proof.Machine
end

