-- ==== Sys2Proof/Machine/Dispatch.lean ====
section
/-!
DEFINITION. The dispatch: one arm per constructor of Instr, each one call of that instruction's own meaning.
-/
namespace Sys2Proof.Machine

def exec (i : Instr) (s : State) : Host.Outcome State Fault Refusal :=
  match i with
  | .runCommit r => Sys2Proof.Machine.execRunCommit r s
  | .continueWithoutLogging r => Sys2Proof.Machine.execContinueWithoutLogging r s
  | .partSplit r => Sys2Proof.Machine.execPartSplit r s
  | .regangMerge co g => Sys2Proof.Machine.execRegangMerge co g s
  | .claimGrant core sub => Sys2Proof.Machine.execClaimGrant core sub s
  | .claimDeadlock co => Sys2Proof.Machine.execClaimDeadlock co s
  | .trapEntry r => Sys2Proof.Machine.execTrapEntry r s
  | .ownershipRequest e => Sys2Proof.Machine.execOwnershipRequest e s
  | .ownershipGrant e => Sys2Proof.Machine.execOwnershipGrant e s
  | .storeBufferDrain e => Sys2Proof.Machine.execStoreBufferDrain e s
  | .pageWalk sec => Sys2Proof.Machine.execPageWalk sec s
  | .loadReply r => Sys2Proof.Machine.execLoadReply r s
  | .homeSliceAtomic qs => Sys2Proof.Machine.execHomeSliceAtomic qs s
  | .atomicReply q => Sys2Proof.Machine.execAtomicReply q s
  | .remoteRequestIngress q => Sys2Proof.Machine.execRemoteRequestIngress q s
  | .remoteReply q rep => Sys2Proof.Machine.execRemoteReply q rep s
  | .remoteTimeout q => Sys2Proof.Machine.execRemoteTimeout q s
  | .ioCompletion q c => Sys2Proof.Machine.execIoCompletion q c s
  | .ioTimeout q => Sys2Proof.Machine.execIoTimeout q s
  | .copyChunkIssue core => Sys2Proof.Machine.execCopyChunkIssue core s
  | .copyChunkData core op => Sys2Proof.Machine.execCopyChunkData core op s
  | .matrixOperationStart core => Sys2Proof.Machine.execMatrixOperationStart core s
  | .matrixRowEntry core => Sys2Proof.Machine.execMatrixRowEntry core s
  | .matrixRowWrite core => Sys2Proof.Machine.execMatrixRowWrite core s
  | .queueEnqueue op => Sys2Proof.Machine.execQueueEnqueue op s
  | .enqueueRoomResume q => Sys2Proof.Machine.execEnqueueRoomResume q s
  | .refillStart q => Sys2Proof.Machine.execRefillStart q s
  | .refillComplete q => Sys2Proof.Machine.execRefillComplete q s
  | .queueDequeue q => Sys2Proof.Machine.execQueueDequeue q s
  | .qpopWaitServe q => Sys2Proof.Machine.execQpopWaitServe q s
  | .summaryPublish => Sys2Proof.Machine.execSummaryPublish s
  | .summaryEntryArrive dst q len aged => Sys2Proof.Machine.execSummaryEntryArrive dst q len aged s
  | .launchDecision core => Sys2Proof.Machine.execLaunchDecision core s
  | .launchDelivery core => Sys2Proof.Machine.execLaunchDelivery core s
  | .flitReceive port f => Sys2Proof.Machine.execFlitReceive port f s
  | .flitTransmit port => Sys2Proof.Machine.execFlitTransmit port s
  | .replayTimeout port => Sys2Proof.Machine.execReplayTimeout port s
  | .linkSilenceTimeout port => Sys2Proof.Machine.execLinkSilenceTimeout port s
  | .linkTrainingSuccess port peer => Sys2Proof.Machine.execLinkTrainingSuccess port peer s
  | .linkTrainingTimeout port => Sys2Proof.Machine.execLinkTrainingTimeout port s
  | .tokenGrant port part => Sys2Proof.Machine.execTokenGrant port part s
  | .tokenTick => Sys2Proof.Machine.execTokenTick s
  | .lengthReportSend entry => Sys2Proof.Machine.execLengthReportSend entry s
  | .lengthReportReceive entry len room rseq => Sys2Proof.Machine.execLengthReportReceive entry len room rseq s
  | .portForwardDecision port => Sys2Proof.Machine.execPortForwardDecision port s
  | .batchReceive src back entry seq recs deadline => Sys2Proof.Machine.execBatchReceive src back entry seq recs deadline s
  | .batchAck entry seq => Sys2Proof.Machine.execBatchAck entry seq s
  | .batchRefusal entry seq => Sys2Proof.Machine.execBatchRefusal entry seq s
  | .batchTimeout entry seq => Sys2Proof.Machine.execBatchTimeout entry seq s
  | .tierPageMove part => Sys2Proof.Machine.execTierPageMove part s
  | .tierMoveComplete mv => Sys2Proof.Machine.execTierMoveComplete mv s
  | .logClose part => Sys2Proof.Machine.execLogClose part s
  | .tierJobComplete part => Sys2Proof.Machine.execTierJobComplete part s
  | .sliceExpiry part => Sys2Proof.Machine.execSliceExpiry part s
  | .haltComplete part => Sys2Proof.Machine.execHaltComplete part s
  | .haltDeadlineKill part => Sys2Proof.Machine.execHaltDeadlineKill part s
  | .haltDeadlineReset part => Sys2Proof.Machine.execHaltDeadlineReset part s
  | .cctlCreate part => Sys2Proof.Machine.execCctlCreate part s
  | .cctlDestroy part => Sys2Proof.Machine.execCctlDestroy part s
  | .cctlReset part => Sys2Proof.Machine.execCctlReset part s
  | .hpctlCreate => Sys2Proof.Machine.execHpctlCreate s
  | .hpctlDestroy => Sys2Proof.Machine.execHpctlDestroy s
  | .hpctlReset => Sys2Proof.Machine.execHpctlReset s
  | .lendSection part sec borrower => Sys2Proof.Machine.execLendSection part sec borrower s
  | .reclaimSection part sec => Sys2Proof.Machine.execReclaimSection part sec s
  | .borrowerSpill co => Sys2Proof.Machine.execBorrowerSpill co s
  | .softErrorCorrected sec => Sys2Proof.Machine.execSoftErrorCorrected sec s
  | .uncorrectableError w => Sys2Proof.Machine.execUncorrectableError w s
  | .corruptHeader at_ => Sys2Proof.Machine.execCorruptHeader at_ s
  | .hostMemoryRead vf addr len => Sys2Proof.Machine.execHostMemoryRead vf addr len s
  | .hostMemoryWrite vf addr bs => Sys2Proof.Machine.execHostMemoryWrite vf addr bs s
  | .hostInvalidate line bs => Sys2Proof.Machine.execHostInvalidate line bs s
  | .hostRecordWrite vf off bs => Sys2Proof.Machine.execHostRecordWrite vf off bs s
  | .hostSinkRead vf off len => Sys2Proof.Machine.execHostSinkRead vf off len s
  | .lockInterface vf => Sys2Proof.Machine.execLockInterface vf s
  | .startInterface vf => Sys2Proof.Machine.execStartInterface vf s
  | .stopInterface vf => Sys2Proof.Machine.execStopInterface vf s
  | .getMeasurements vf nonce => Sys2Proof.Machine.execGetMeasurements vf nonce s
  | .configWrite vf item val => Sys2Proof.Machine.execConfigWrite vf item val s
  | .packageReset => Sys2Proof.Machine.execPackageReset s
  | .powerLimitWrite watts => Sys2Proof.Machine.execPowerLimitWrite watts s
  | .powerArbiterTick => Sys2Proof.Machine.execPowerArbiterTick s
  | .freeze => Sys2Proof.Machine.execFreeze s
  | .scanReadout => Sys2Proof.Machine.execScanReadout s
  | .batchDeadlineDiscard entry seq => Sys2Proof.Machine.execBatchDeadlineDiscard entry seq s
  | .nop p => Sys2Proof.Machine.execNop p s
  | .exit p => Sys2Proof.Machine.execExit p s
  | .yield p => Sys2Proof.Machine.execYield p s
  | .elect p d => Sys2Proof.Machine.execElect p d s
  | .getid p d id => Sys2Proof.Machine.execGetid p d id s
  | .time p d => Sys2Proof.Machine.execTime p d s
  | .bra p imm => Sys2Proof.Machine.execBra p imm s
  | .brc p a all neg imm => Sys2Proof.Machine.execBrc p a all neg imm s
  | .call p d imm => Sys2Proof.Machine.execCall p d imm s
  | .loop d imm => Sys2Proof.Machine.execLoop d imm s
  | .brx p a => Sys2Proof.Machine.execBrx p a s
  | .callx p d a => Sys2Proof.Machine.execCallx p d a s
  | .ret p a => Sys2Proof.Machine.execRet p a s
  | .endr a b c => Sys2Proof.Machine.execEndr a b c s
  | .regangL a => Sys2Proof.Machine.execRegangL a s
  | .regangX a imm => Sys2Proof.Machine.execRegangX a imm s
  | .barL a => Sys2Proof.Machine.execBarL a s
  | .barX a imm => Sys2Proof.Machine.execBarX a imm s
  | .waiteL a cls => Sys2Proof.Machine.execWaiteL a cls s
  | .waiteX a cls imm => Sys2Proof.Machine.execWaiteX a cls imm s
  | .rclaim a imm => Sys2Proof.Machine.execRclaim a imm s
  | .rrelease a imm => Sys2Proof.Machine.execRrelease a imm s
  | .pinfo p d => Sys2Proof.Machine.execPinfo p d s
  | .addL p t sat d a b => Sys2Proof.Machine.execAddL p t sat d a b s
  | .addX p t sat d a b imm => Sys2Proof.Machine.execAddX p t sat d a b imm s
  | .subL p t sat d a b => Sys2Proof.Machine.execSubL p t sat d a b s
  | .subX p t sat d a b imm => Sys2Proof.Machine.execSubX p t sat d a b imm s
  | .add64L p t sat d a b => Sys2Proof.Machine.execAdd64L p t sat d a b s
  | .add64X p t sat d a b imm => Sys2Proof.Machine.execAdd64X p t sat d a b imm s
  | .sub64L p t sat d a b => Sys2Proof.Machine.execSub64L p t sat d a b s
  | .sub64X p t sat d a b imm => Sys2Proof.Machine.execSub64X p t sat d a b imm s
  | .mulL p t sat d a b => Sys2Proof.Machine.execMulL p t sat d a b s
  | .mulX p t sat d a b imm => Sys2Proof.Machine.execMulX p t sat d a b imm s
  | .mulhiL p t d a b => Sys2Proof.Machine.execMulhiL p t d a b s
  | .mulhiX p t d a b imm => Sys2Proof.Machine.execMulhiX p t d a b imm s
  | .madL p t sat d a b c => Sys2Proof.Machine.execMadL p t sat d a b c s
  | .madX p t sat d a b c imm => Sys2Proof.Machine.execMadX p t sat d a b c imm s
  | .madwL p t sat d a b c => Sys2Proof.Machine.execMadwL p t sat d a b c s
  | .madwX p t sat d a b c imm => Sys2Proof.Machine.execMadwX p t sat d a b c imm s
  | .divL p t d a b => Sys2Proof.Machine.execDivL p t d a b s
  | .divX p t d a b imm => Sys2Proof.Machine.execDivX p t d a b imm s
  | .remL p t d a b => Sys2Proof.Machine.execRemL p t d a b s
  | .remX p t d a b imm => Sys2Proof.Machine.execRemX p t d a b imm s
  | .minL p t d a b => Sys2Proof.Machine.execMinL p t d a b s
  | .minX p t d a b imm => Sys2Proof.Machine.execMinX p t d a b imm s
  | .maxL p t d a b => Sys2Proof.Machine.execMaxL p t d a b s
  | .maxX p t d a b imm => Sys2Proof.Machine.execMaxX p t d a b imm s
  | .absL p t sat d a => Sys2Proof.Machine.execAbsL p t sat d a s
  | .absX p t sat d a imm => Sys2Proof.Machine.execAbsX p t sat d a imm s
  | .negL p t sat d a => Sys2Proof.Machine.execNegL p t sat d a s
  | .negX p t sat d a imm => Sys2Proof.Machine.execNegX p t sat d a imm s
  | .andL p t d a b => Sys2Proof.Machine.execAndL p t d a b s
  | .andX p t d a b imm => Sys2Proof.Machine.execAndX p t d a b imm s
  | .orL p t d a b => Sys2Proof.Machine.execOrL p t d a b s
  | .orX p t d a b imm => Sys2Proof.Machine.execOrX p t d a b imm s
  | .xorL p t d a b => Sys2Proof.Machine.execXorL p t d a b s
  | .xorX p t d a b imm => Sys2Proof.Machine.execXorX p t d a b imm s
  | .andnL p t d a b => Sys2Proof.Machine.execAndnL p t d a b s
  | .andnX p t d a b imm => Sys2Proof.Machine.execAndnX p t d a b imm s
  | .notL p t d a => Sys2Proof.Machine.execNotL p t d a s
  | .notX p t d a imm => Sys2Proof.Machine.execNotX p t d a imm s
  | .shlL p t d a b => Sys2Proof.Machine.execShlL p t d a b s
  | .shlX p t d a b imm => Sys2Proof.Machine.execShlX p t d a b imm s
  | .shrL p t d a b => Sys2Proof.Machine.execShrL p t d a b s
  | .shrX p t d a b imm => Sys2Proof.Machine.execShrX p t d a b imm s
  | .sarL p t d a b => Sys2Proof.Machine.execSarL p t d a b s
  | .sarX p t d a b imm => Sys2Proof.Machine.execSarX p t d a b imm s
  | .rotlL p t d a b => Sys2Proof.Machine.execRotlL p t d a b s
  | .rotlX p t d a b imm => Sys2Proof.Machine.execRotlX p t d a b imm s
  | .funnelL p t d a b c => Sys2Proof.Machine.execFunnelL p t d a b c s
  | .funnelX p t d a b c imm => Sys2Proof.Machine.execFunnelX p t d a b c imm s
  | .popcL p t d a => Sys2Proof.Machine.execPopcL p t d a s
  | .popcX p t d a imm => Sys2Proof.Machine.execPopcX p t d a imm s
  | .clzL p t d a => Sys2Proof.Machine.execClzL p t d a s
  | .clzX p t d a imm => Sys2Proof.Machine.execClzX p t d a imm s
  | .ctzL p t d a => Sys2Proof.Machine.execCtzL p t d a s
  | .ctzX p t d a imm => Sys2Proof.Machine.execCtzX p t d a imm s
  | .brevL p t d a => Sys2Proof.Machine.execBrevL p t d a s
  | .brevX p t d a imm => Sys2Proof.Machine.execBrevX p t d a imm s
  | .bfeL p t d a b => Sys2Proof.Machine.execBfeL p t d a b s
  | .bfeX p t d a b imm => Sys2Proof.Machine.execBfeX p t d a b imm s
  | .bfiL p t d a b c => Sys2Proof.Machine.execBfiL p t d a b c s
  | .bfiX p t d a b c imm => Sys2Proof.Machine.execBfiX p t d a b c imm s
  | .permbL p t d a b c => Sys2Proof.Machine.execPermbL p t d a b c s
  | .permbX p t d a b c imm => Sys2Proof.Machine.execPermbX p t d a b c imm s
  | .cmpL p t cond comb d a b => Sys2Proof.Machine.execCmpL p t cond comb d a b s
  | .cmpX p t cond comb d a b imm => Sys2Proof.Machine.execCmpX p t cond comb d a b imm s
  | .pandL p d a b => Sys2Proof.Machine.execPandL p d a b s
  | .pandX p d a b imm => Sys2Proof.Machine.execPandX p d a b imm s
  | .porL p d a b => Sys2Proof.Machine.execPorL p d a b s
  | .porX p d a b imm => Sys2Proof.Machine.execPorX p d a b imm s
  | .pxorL p d a b => Sys2Proof.Machine.execPxorL p d a b s
  | .pxorX p d a b imm => Sys2Proof.Machine.execPxorX p d a b imm s
  | .pnotL p d a => Sys2Proof.Machine.execPnotL p d a s
  | .pnotX p d a imm => Sys2Proof.Machine.execPnotX p d a imm s
  | .movL p t d a => Sys2Proof.Machine.execMovL p t d a s
  | .movX p t d a imm => Sys2Proof.Machine.execMovX p t d a imm s
  | .movi p t h d a imm => Sys2Proof.Machine.execMovi p t h d a imm s
  | .selL p t d a b c => Sys2Proof.Machine.execSelL p t d a b c s
  | .selX p t d a b c imm => Sys2Proof.Machine.execSelX p t d a b c imm s
  | .extL p t w d a => Sys2Proof.Machine.execExtL p t w d a s
  | .extX p t w d a imm => Sys2Proof.Machine.execExtX p t w d a imm s
  | .packL p t nar d a b => Sys2Proof.Machine.execPackL p t nar d a b s
  | .packX p t nar d a b imm => Sys2Proof.Machine.execPackX p t nar d a b imm s
  | .unpackL p t idx sx d a => Sys2Proof.Machine.execUnpackL p t idx sx d a s
  | .unpackX p t idx sx d a imm => Sys2Proof.Machine.execUnpackX p t idx sx d a imm s
  | .faddL p t rnd d a b => Sys2Proof.Machine.execFaddL p t rnd d a b s
  | .faddX p t rnd d a b imm => Sys2Proof.Machine.execFaddX p t rnd d a b imm s
  | .fsubL p t rnd d a b => Sys2Proof.Machine.execFsubL p t rnd d a b s
  | .fsubX p t rnd d a b imm => Sys2Proof.Machine.execFsubX p t rnd d a b imm s
  | .fmulL p t rnd d a b => Sys2Proof.Machine.execFmulL p t rnd d a b s
  | .fmulX p t rnd d a b imm => Sys2Proof.Machine.execFmulX p t rnd d a b imm s
  | .ffmaL p t rnd d a b c => Sys2Proof.Machine.execFfmaL p t rnd d a b c s
  | .ffmaX p t rnd d a b c imm => Sys2Proof.Machine.execFfmaX p t rnd d a b c imm s
  | .fminL p t d a b => Sys2Proof.Machine.execFminL p t d a b s
  | .fminX p t d a b imm => Sys2Proof.Machine.execFminX p t d a b imm s
  | .fmaxL p t d a b => Sys2Proof.Machine.execFmaxL p t d a b s
  | .fmaxX p t d a b imm => Sys2Proof.Machine.execFmaxX p t d a b imm s
  | .fabsL p t d a => Sys2Proof.Machine.execFabsL p t d a s
  | .fabsX p t d a imm => Sys2Proof.Machine.execFabsX p t d a imm s
  | .fnegL p t d a => Sys2Proof.Machine.execFnegL p t d a s
  | .fnegX p t d a imm => Sys2Proof.Machine.execFnegX p t d a imm s
  | .fcmpL p t cond comb d a b => Sys2Proof.Machine.execFcmpL p t cond comb d a b s
  | .fcmpX p t cond comb d a b imm => Sys2Proof.Machine.execFcmpX p t cond comb d a b imm s
  | .frndL p t rnd d a => Sys2Proof.Machine.execFrndL p t rnd d a s
  | .frndX p t rnd d a imm => Sys2Proof.Machine.execFrndX p t rnd d a imm s
  | .fclassL p t d a => Sys2Proof.Machine.execFclassL p t d a s
  | .fclassX p t d a imm => Sys2Proof.Machine.execFclassX p t d a imm s
  | .fscaleL p t rnd d a b => Sys2Proof.Machine.execFscaleL p t rnd d a b s
  | .fscaleX p t rnd d a b imm => Sys2Proof.Machine.execFscaleX p t rnd d a b imm s
  | .frcp p t d a => Sys2Proof.Machine.execFrcp p t d a s
  | .frsq p t d a => Sys2Proof.Machine.execFrsq p t d a s
  | .fsqrt p t rnd d a => Sys2Proof.Machine.execFsqrt p t rnd d a s
  | .fdiv p t rnd d a b => Sys2Proof.Machine.execFdiv p t rnd d a b s
  | .fexp2 p t d a => Sys2Proof.Machine.execFexp2 p t d a s
  | .flog2 p t d a => Sys2Proof.Machine.execFlog2 p t d a s
  | .fsin p t d a => Sys2Proof.Machine.execFsin p t d a s
  | .fcos p t d a => Sys2Proof.Machine.execFcos p t d a s
  | .cvt p src t rnd d a => Sys2Proof.Machine.execCvt p src t rnd d a s
  | .cvtp p src t rnd d a b slot => Sys2Proof.Machine.execCvtp p src t rnd d a b slot s
  | .tagget p d a => Sys2Proof.Machine.execTagget p d a s
  | .tagset p d a => Sys2Proof.Machine.execTagset p d a s
  | .hadd2L p t rnd d a b => Sys2Proof.Machine.execHadd2L p t rnd d a b s
  | .hadd2X p t rnd d a b imm => Sys2Proof.Machine.execHadd2X p t rnd d a b imm s
  | .hmul2L p t rnd d a b => Sys2Proof.Machine.execHmul2L p t rnd d a b s
  | .hmul2X p t rnd d a b imm => Sys2Proof.Machine.execHmul2X p t rnd d a b imm s
  | .hfma2L p t rnd d a b c => Sys2Proof.Machine.execHfma2L p t rnd d a b c s
  | .hfma2X p t rnd d a b c imm => Sys2Proof.Machine.execHfma2X p t rnd d a b c imm s
  | .dot4L p t rnd d a b c => Sys2Proof.Machine.execDot4L p t rnd d a b c s
  | .dot4X p t rnd d a b c imm => Sys2Proof.Machine.execDot4X p t rnd d a b c imm s
  | .dot8L p t rnd d a b c => Sys2Proof.Machine.execDot8L p t rnd d a b c s
  | .dot8X p t rnd d a b c imm => Sys2Proof.Machine.execDot8X p t rnd d a b c imm s
  | .qswap p t pat d a => Sys2Proof.Machine.execQswap p t pat d a s
  | .qbcast p t j d a => Sys2Proof.Machine.execQbcast p t j d a s
  | .qshuf p t d a b => Sys2Proof.Machine.execQshuf p t d a b s
  | .qred p t op d a => Sys2Proof.Machine.execQred p t op d a s
  | .shfl p t mode d a b => Sys2Proof.Machine.execShfl p t mode d a b s
  | .vote p mode d a => Sys2Proof.Machine.execVote p mode d a s
  | .scanPrefix p t op ex d a => Sys2Proof.Machine.execScanPrefix p t op ex d a s
  | .gred p t op d a => Sys2Proof.Machine.execGred p t op d a s
  | .xpose p t d a => Sys2Proof.Machine.execXpose p t d a s
  | .ldL p t sx d a => Sys2Proof.Machine.execLdL p t sx d a s
  | .ldX p t sx d a imm => Sys2Proof.Machine.execLdX p t sx d a imm s
  | .lddL p rows d a => Sys2Proof.Machine.execLddL p rows d a s
  | .lddX p rows d a imm => Sys2Proof.Machine.execLddX p rows d a imm s
  | .ldwL p t rows src d a => Sys2Proof.Machine.execLdwL p t rows src d a s
  | .ldwX p t rows src d a imm => Sys2Proof.Machine.execLdwX p t rows src d a imm s
  | .prefL p slice a => Sys2Proof.Machine.execPrefL p slice a s
  | .prefX p slice a imm => Sys2Proof.Machine.execPrefX p slice a imm s
  | .stL p t a b => Sys2Proof.Machine.execStL p t a b s
  | .stX p t a b imm => Sys2Proof.Machine.execStX p t a b imm s
  | .stdL p rows a b => Sys2Proof.Machine.execStdL p rows a b s
  | .stdX p rows a b imm => Sys2Proof.Machine.execStdX p rows a b imm s
  | .ldsL p t sx d a => Sys2Proof.Machine.execLdsL p t sx d a s
  | .ldsX p t sx d a imm => Sys2Proof.Machine.execLdsX p t sx d a imm s
  | .ldaL p t sx d a => Sys2Proof.Machine.execLdaL p t sx d a s
  | .ldaX p t sx d a imm => Sys2Proof.Machine.execLdaX p t sx d a imm s
  | .ldwbL p t sx d a => Sys2Proof.Machine.execLdwbL p t sx d a s
  | .ldwbX p t sx d a imm => Sys2Proof.Machine.execLdwbX p t sx d a imm s
  | .stsL p t a b => Sys2Proof.Machine.execStsL p t a b s
  | .stsX p t a b imm => Sys2Proof.Machine.execStsX p t a b imm s
  | .staL p t a b => Sys2Proof.Machine.execStaL p t a b s
  | .staX p t a b imm => Sys2Proof.Machine.execStaX p t a b imm s
  | .atomL p op nr w64 d a b => Sys2Proof.Machine.execAtomL p op nr w64 d a b s
  | .atomX p op nr w64 d a b imm => Sys2Proof.Machine.execAtomX p op nr w64 d a b imm s
  | .casL p w64 d a b c => Sys2Proof.Machine.execCasL p w64 d a b c s
  | .casX p w64 d a b c imm => Sys2Proof.Machine.execCasX p w64 d a b c imm s
  | .atomsL p op nr w64 d a b => Sys2Proof.Machine.execAtomsL p op nr w64 d a b s
  | .atomsX p op nr w64 d a b imm => Sys2Proof.Machine.execAtomsX p op nr w64 d a b imm s
  | .cassL p w64 d a b c => Sys2Proof.Machine.execCassL p w64 d a b c s
  | .cassX p w64 d a b c imm => Sys2Proof.Machine.execCassX p w64 d a b c imm s
  | .waitcL p cond t d a b c => Sys2Proof.Machine.execWaitcL p cond t d a b c s
  | .waitcX p cond t d a b c imm => Sys2Proof.Machine.execWaitcX p cond t d a b c imm s
  | .armcL p cond t d a b => Sys2Proof.Machine.execArmcL p cond t d a b s
  | .armcX p cond t d a b imm => Sys2Proof.Machine.execArmcX p cond t d a b imm s
  | .checkc p d => Sys2Proof.Machine.execCheckc p d s
  | .syscL a => Sys2Proof.Machine.execSyscL a s
  | .syscX a imm => Sys2Proof.Machine.execSyscX a imm s
  | .hcallL a => Sys2Proof.Machine.execHcallL a s
  | .hcallX a imm => Sys2Proof.Machine.execHcallX a imm s
  | .mcallL a => Sys2Proof.Machine.execMcallL a s
  | .mcallX a imm => Sys2Proof.Machine.execMcallX a imm s
  | .trapL a => Sys2Proof.Machine.execTrapL a s
  | .trapX a imm => Sys2Proof.Machine.execTrapX a imm s
  | .tret => Sys2Proof.Machine.execTret s
  | .tretPark => Sys2Proof.Machine.execTretPark s
  | .tfence => Sys2Proof.Machine.execTfence s
  | .mfsr p num d => Sys2Proof.Machine.execMfsr p num d s
  | .mtsrL p num a => Sys2Proof.Machine.execMtsrL p num a s
  | .mtsrX p num a imm => Sys2Proof.Machine.execMtsrX p num a imm s
  | .gresumeL d a => Sys2Proof.Machine.execGresumeL d a s
  | .gresumeX d a imm => Sys2Proof.Machine.execGresumeX d a imm s
  | .gkillL drop d a => Sys2Proof.Machine.execGkillL drop d a s
  | .gkillX drop d a imm => Sys2Proof.Machine.execGkillX drop d a imm s
  | .tlbi scope s2 a b => Sys2Proof.Machine.execTlbi scope s2 a b s
  | .tlbsync => Sys2Proof.Machine.execTlbsync s
  | .cpy p dsp ssp d a b c imm => Sys2Proof.Machine.execCpy p dsp ssp d a b c imm s
  | .cpys p dsp ssp d a b c imm => Sys2Proof.Machine.execCpys p dsp ssp d a b c imm s
  | .cpyg p dsp d a b c imm => Sys2Proof.Machine.execCpyg p dsp d a b c imm s
  | .cpyt p ssp d a b c imm => Sys2Proof.Machine.execCpyt p ssp d a b c imm s
  | .cpym p dsp d a b imm => Sys2Proof.Machine.execCpym p dsp d a b imm s
  | .cpyf p dsp fc d a b c imm => Sys2Proof.Machine.execCpyf p dsp fc d a b c imm s
  | .swinit p a b imm => Sys2Proof.Machine.execSwinit p a b imm s
  | .swwait p d a b imm => Sys2Proof.Machine.execSwwait p d a b imm s
  | .mma p m reuse z d a b imm => Sys2Proof.Machine.execMma p m reuse z d a b imm s
  | .mmap p m reuse z d a b imm => Sys2Proof.Machine.execMmap p m reuse z d a b imm s
  | .mclr p m d imm => Sys2Proof.Machine.execMclr p m d imm s
  | .mcvt p m fmt d a b imm => Sys2Proof.Machine.execMcvt p m fmt d a b imm s
  | .macc p m team d a imm => Sys2Proof.Machine.execMacc p m team d a imm s
  | .mrel p imm => Sys2Proof.Machine.execMrel p imm s
  | .qpopL p wait d a => Sys2Proof.Machine.execQpopL p wait d a s
  | .qpopX p wait d a imm => Sys2Proof.Machine.execQpopX p wait d a imm s
  | .qpushL p o a => Sys2Proof.Machine.execQpushL p o a s
  | .qpushX p o a imm => Sys2Proof.Machine.execQpushX p o a imm s
  | .qpushsL p o a b => Sys2Proof.Machine.execQpushsL p o a b s
  | .qpushsX p o a b imm => Sys2Proof.Machine.execQpushsX p o a b imm s
  | .qdone p => Sys2Proof.Machine.execQdone p s
  | .qlen p sel d => Sys2Proof.Machine.execQlen p sel d s
  | .qseedL p o d a b c => Sys2Proof.Machine.execQseedL p o d a b c s
  | .qseedX p o d a b c imm => Sys2Proof.Machine.execQseedX p o d a b c imm s
  | .qctlSetq p d a b c => Sys2Proof.Machine.execQctlSetq p d a b c s
  | .qctlSets p d a b c => Sys2Proof.Machine.execQctlSets p d a b c s
  | .qctlBind p d a b c => Sys2Proof.Machine.execQctlBind p d a b c s
  | .qctlUnbind p d a b c => Sys2Proof.Machine.execQctlUnbind p d a b c s
  | .qctlStat p d a b c => Sys2Proof.Machine.execQctlStat p d a b c s
  | .qctlStop p d a b c => Sys2Proof.Machine.execQctlStop p d a b c s
  | .qctlStart p d a b c => Sys2Proof.Machine.execQctlStart p d a b c s
  | .qctlClear p d a b c => Sys2Proof.Machine.execQctlClear p d a b c s
  | .fstatPort p d a => Sys2Proof.Machine.execFstatPort p d a s
  | .fstatRoute p d a => Sys2Proof.Machine.execFstatRoute p d a s
  | .fstatMirror p d a => Sys2Proof.Machine.execFstatMirror p d a s
  | .fstatTokens p d a => Sys2Proof.Machine.execFstatTokens p d a s
  | .fstatRto p d a => Sys2Proof.Machine.execFstatRto p d a s
  | .fclr p psn d => Sys2Proof.Machine.execFclr p psn d s
  | .ftok fld rd d a b c => Sys2Proof.Machine.execFtok fld rd d a b c s
  | .flinkPort d a b c => Sys2Proof.Machine.execFlinkPort d a b c s
  | .flinkRoute d a b c => Sys2Proof.Machine.execFlinkRoute d a b c s
  | .flinkKey d a b c => Sys2Proof.Machine.execFlinkKey d a b c s
  | .flinkMirror d a b c => Sys2Proof.Machine.execFlinkMirror d a b c s
  | .flinkUnmirror d a b c => Sys2Proof.Machine.execFlinkUnmirror d a b c s
  | .flinkGrant d a b c => Sys2Proof.Machine.execFlinkGrant d a b c s
  | .flinkRevoke d a b c => Sys2Proof.Machine.execFlinkRevoke d a b c s
  | .flinkSetid d a b c => Sys2Proof.Machine.execFlinkSetid d a b c s
  | .tswap p up d a b => Sys2Proof.Machine.execTswap p up d a b s
  | .tpinL p d a b => Sys2Proof.Machine.execTpinL p d a b s
  | .tpinX p d a b imm => Sys2Proof.Machine.execTpinX p d a b imm s
  | .tunpinL p d a b => Sys2Proof.Machine.execTunpinL p d a b s
  | .tunpinX p d a b imm => Sys2Proof.Machine.execTunpinX p d a b imm s
  | .tresL p d a b => Sys2Proof.Machine.execTresL p d a b s
  | .tresX p d a b imm => Sys2Proof.Machine.execTresX p d a b imm s
  | .tresStage p d a b c => Sys2Proof.Machine.execTresStage p d a b c s
  | .twrecWs p d a b => Sys2Proof.Machine.execTwrecWs p d a b s
  | .twrecDeclare p d a b => Sys2Proof.Machine.execTwrecDeclare p d a b s
  | .twrecUndeclare p d a b => Sys2Proof.Machine.execTwrecUndeclare p d a b s
  | .twrecDirty p d a b => Sys2Proof.Machine.execTwrecDirty p d a b s
  | .haltc p d a b => Sys2Proof.Machine.execHaltc p d a b s
  | .haltcStop p d a b => Sys2Proof.Machine.execHaltcStop p d a b s
  | .resumec p d b => Sys2Proof.Machine.execResumec p d b s

end Sys2Proof.Machine
end

