-- ==== Sys2Proof/Machine/Step.lean ====
section
/-!
DEFINITION. One step of the package (log 1): the boot ROM after reset; what is due; else one instruction of the part whose turn it is,
and one cycle.
-/
namespace Sys2Proof.Machine

/-- A cycle in which no instruction completes or the state after one has. -/
def afterCycle : Out → Out
  | .next s => .next s.passCycle
  | .fault e => .fault e
  | .refused e => .refused e

/-- The instruction of a part executed: the one in which it waits, or the one that it fetches (R36, R42, R134). -/
noncomputable def stepPart (s : State) (x : Ctx) : Out :=
  match x.v.part.waitsIn with
  | some i => afterCycle (exec i s)
  | none =>
    match s.fetch x with
    | .failed s => .next s.passCycle
    | .instr i s => afterCycle (exec i s)

/-- The turn of the part that is chosen; a cycle passes if none may issue (R134, R135). -/
noncomputable def stepTurn (s : State) : Out :=
  match s.choose with
  | none => .next s.passCycle
  | some r =>
    match (s.chosen r).ctx? 0 with
    | none => .next s.passCycle
    | some x => stepPart (s.chosen r) x

/-- One step. -/
noncomputable def step (s : State) : Host.Outcome State Fault Refusal :=
  if s.boot = .notBooted then exec .packageReset s
  else if s.frozen then
    match s.agenda.find? actsFrozen with
    | some i => exec i { s with agenda := s.agenda.erase i }
    | none => .next s
  else
    match s.agenda with
    | i :: t => exec i { s with agenda := t }
    | [] => stepTurn s

/-- The machine with an instruction as the first of its program, ready to be fetched (R602; log 2). -/
def State.withFetchWord (s : State) (_nbits w : Nat) : State := s.load (natLe 12 w)

end Sys2Proof.Machine
end

