-- ==== Sys2Proof/Safety.lean ====
section
/-!
DEFINITION. What counts as a well-kept state, and the terms in which the statements speak of an instruction: when it executes, how it
ends, which accesses reach storage, and what a register instruction leaves alone.
-/
namespace Sys2Proof.Machine

/-- Memory and sidebands are in their canonical forms, so that equal storages are equal data. -/
def State.canonical (s : State) : Prop := s.mem.wf = true ∧ s.sides.wf = true

/-! When an instruction executes -/

/-- A form may execute (R37, R51, R52, R54, R56, R101, R109, R131): the clocks run; the part `x` has the turn, does not stand still
and has a run or room for one; no check at issue fails; its older work is done where its kind asks for that. `t` is the state in
which it executes, and `y` its part there. -/
structure Ready (f : Form) (imm : Word) (s : State) (x : Ctx) (t : State) (y : Ctx) : Prop where
  running : s.frozen = false
  turn : s.ctx? imm = some x
  awake : x.v.part.still = false
  room : x.noRun = false
  legal : (s.openRun x).2.check f = none
  prepared : (s.openRun x).1.prepare (s.openRun x).2 f.kind = some t
  now : t.ctx? imm = some y

/-- The position of the instruction in its run (R350). -/
def runposOf (s : State) (x : Ctx) : Nat := (s.openRun x).2.v.part.runpos

/-- Whether the form closes its run (R131). -/
def Form.closes (f : Form) : Bool := f.kind != .plain

/-! How it ends -/

/-- Its part counts one more instruction, flow goes on sequentially (R37), and the run closes if asked (R131). -/
def State.flows (u : State) (y : Ctx) (f : Form) (close : Bool) : State :=
  (u.modPart y.r fun q => { q.counted close with pc := nextPc y.v.part.header y.v.part.pc f.len }).afterClose y.r close

/-- Its part counts one more instruction and goes on at a target with the target's line header (R40). -/
def State.jumps (u : State) (y : Ctx) (close : Bool) (pc header : DWord) : State :=
  (u.modPart y.r fun q => { q.counted close with pc := pc, header := header }).afterClose y.r close

/-- Whenever the form is ready and `P` holds, the instruction executes with the effect `g`, provided that its entries fit (R107,
R110, R114), and flow goes on sequentially. -/
def Falls (i : Instr) (f : Form) (imm : Word) (P : State → Ctx → Prop) (g : State → Ctx → State) (close : Bool) : Prop :=
  ∀ s x t y, Ready f imm s x t y → P t y → (g t y).overfull y = false →
    exec i s = .next ((g t y).flows y f close)

/-- Whenever the form is ready and `P` holds, the instruction executes with the effect `g`, and its part goes on elsewhere. -/
def Goes (i : Instr) (f : Form) (imm : Word) (P : State → Ctx → Prop) (g : State → Ctx → State) (pc header : State → Ctx → DWord) : Prop :=
  ∀ s x t y, Ready f imm s x t y → P t y → exec i s = .next ((g t y).jumps y f.closes (pc t y) (header t y))

/-- Whenever the form is ready and `P` holds, the next state is `g`. -/
def Places (i : Instr) (f : Form) (imm : Word) (P : State → Ctx → Prop) (g : State → Ctx → State) : Prop :=
  ∀ s x t y, Ready f imm s x t y → P t y → exec i s = .next (g t y)

/-- Whenever the form is ready and `P` holds, the instruction takes a trap that resumes behind it (R112, R354, R364). -/
def Traps (i : Instr) (f : Form) (imm : Word) (P : State → Ctx → Prop) (code : Nat) (info : Ctx → Word) : Prop :=
  ∀ s x t y, Ready f imm s x t y → P t y →
    exec i s = .next (t.trapFrom y f .next (runposOf s x) code (y.v.act ⟨0, false⟩) 0 (info y) false)

/-- Whenever the form is ready and `P` holds, and the part's acting lanes are not none, the call's trap is taken and resumes behind
it (R112, R364); or no ring takes it, and the part's gang stops at the start of its run (R340, R379). -/
def Calls (i : Instr) (f : Form) (imm : Word) (code : Nat) (info : Ctx → Word) : Prop :=
  Traps i f imm (fun t y => y.v.act ⟨0, false⟩ ≠ 0 ∧ t.callFate y code (info y) = .taken) code info ∧
  ∀ s x t y, Ready f imm s x t y → y.v.act ⟨0, false⟩ ≠ 0 → t.callFate y code (info y) = .stops →
    exec i s = .next ((s.rollback y.r false).monitorStop y.r y.c.part y.c.core)

/-- An instruction that only changes what its part and gang hold. -/
def Views (i : Instr) (f : Form) (imm : Word) (g : View → View) : Prop :=
  Falls i f imm (fun _ _ => True) (fun t y => t.putView y.r (g y.v)) f.closes

/-- D takes an answer (R171, R486, R529, R576) of the part that has the turn. -/
def State.replied (u : State) (imm : Word) (p : Pred) (d : Opnd) (n : Nat) : State :=
  match u.ctx? imm with
  | some z => u.putView z.r (z.v.wrUniform p d (BitVec.ofNat 32 n))
  | none => u

/-- An instruction that answers in D: where `P` holds, and its part is still there, it has the effect `g` and the answer `n`. -/
def Answers (i : Instr) (f : Form) (imm : Word) (p : Pred) (d : Opnd) (P : State → Ctx → Prop) (g : State → Ctx → State)
    (n : State → Ctx → Nat) : Prop :=
  Falls i f imm (fun t y => P t y ∧ ((g t y).ctx? imm).isSome) (fun t y => (g t y).replied imm p d (n t y)) true

/-- A step of an engine or of the outside: on a package whose clocks run (R601), the next state is `t`. -/
def Acts (i : Instr) (s t : State) : Prop := s.frozen = false → exec i s = .next t

/-! Checks at issue -/

/-- An instruction form below its lowest ring, whose registers lie in the window (R54, R56 row 11), faults with cause 0x02: its
trapping lanes are EXEC. -/
def Denied (i : Instr) (f : Form) (imm : Word) : Prop :=
  ∀ s x, s.frozen = false → s.ctx? imm = some x → x.v.part.still = false → x.noRun = false →
    f.uses.all (windowOk x.v.gang.units x.v.part.ring) = true → x.v.part.ring.num < f.ring →
    exec i s = .next ((s.openRun x).1.faultPlain (s.openRun x).2 f (runposOf s x) 2 x.v.part.exec 0 0 false)

/-! Branches -/

/-- A branch (R40, R126, R151, R152): `vs` are the quads that take it, `tgt` its target, which is direct or indirect, `w`
what it writes itself; `entry` asks for parcel 0. Nobody takes it; all do; some do, and the part is to be split. -/
def Transfers (i : Instr) (f : Form) (imm : Word) (vs : Ctx → QMask) (tgt : Ctx → DWord) (entry indirect : Bool) (w : View → View) : Prop :=
  let target := fun (t : State) (y : Ctx) => t.checkTarget y.c.core y.c.part y.c.gslot y.v.part.ring (tgt y) true indirect
  let good := fun (t : State) (y : Ctx) => vs y ≠ 0 ∧ (entry = true → (tgt y).toNat % 128 = 8) ∧ (∃ h, (target t y).1 = .ok h) ∧
    t.lost (target t y).2 y.r = false
  let header := fun (t : State) (y : Ctx) => match (target t y).1 with | .ok h => h | _ => 0
  let wrote := fun (t : State) (y : Ctx) => (target t y).2.putView y.r (w ((target t y).2.fresh y).v)
  Falls i f imm (fun _ y => vs y = 0) (fun t _ => t) f.closes ∧
  Goes i f imm (fun t y => good t y ∧ vs y = y.v.part.quads) wrote (fun _ y => tgt y) header ∧
  Places i f imm (fun t y => good t y ∧ vs y ≠ y.v.part.quads) fun t y =>
    ((wrote t y).modPart y.r fun q =>
      { q.counted true with wait := .split (vs y) (tgt y) (header t y), pc := nextPc q.header q.pc f.len }).due [.runCommit y.r, .partSplit y.r]

/-- The checks of a target for a part (R40), and the header that they bring. -/
def targetOf (indirect : Bool) (tgt : DWord) (t : State) (y : Ctx) : XRes DWord × State :=
  t.checkTarget y.c.core y.c.part y.c.gslot y.v.part.ring tgt true indirect
def headerOf : XRes DWord → DWord
  | .ok h => h
  | _ => 0

/-! Barriers and claims -/

/-- The unit that a BAR names, and its gang's arrival there (R138, R156). -/
def barUnit (a : Opnd) (imm : Word) : Nat := (if a == .imm then imm.toNat else 0) % 16
def arrived (a : Opnd) (imm : Word) (t : State) (y : Ctx) : State :=
  (t.waits y.r (.bar (barUnit a imm) ((if a == .imm then imm.toNat else 0) / 16 % 32) none)).arrive y.r.cohort y.r.gang (barUnit a imm)

/-- The generation in which a part's gang arrived has completed (R138). -/
def Passed (u : Nat) (s : State) (r : PartRef) : Prop :=
  ∃ p v k g, s.part? r = some p ∧ p.wait = .bar v k (some g) ∧
    g < (((s.cohort? r.cohort).map fun c => c.barriers.getD u barrierIdle).getD barrierIdle).gen

/-- The claim of a part (R141). -/
def State.claimBy (t : State) (y : Ctx) : Option Claim := t.claims.find? fun c => c.part == y.v.part.id

/-! Accesses of lanes -/

/-- What the checks of some accesses find, and the state after them. -/
def found (z : Space) (h : How) (es : Ctx → List Elem) (t : State) (y : Ctx) : Found × State := State.checkElems y z h (es y) t

/-- Accesses pass every check, and all of them stay in this package's memory (R269, R270, R276). -/
structure Clear (z : Space) (h : How) (es : Ctx → List Elem) (t : State) (y : Ctx) : Prop where
  begins : y.v.part.pend = none
  some : es y ≠ []
  good : (found z h es t y).1.bad = []
  moves : (found z h es t y).1.wait = false
  kept : t.lost (found z h es t y).2 y.r = false
  here : ∀ p ∈ (found z h es t y).1.ok, p.x.io = false ∧ p.x.peer = none

/-- No lane accesses anything. -/
def Silent (es : Ctx → List Elem) (y : Ctx) : Prop := y.v.part.pend = none ∧ es y = []

/-- Pieces that can be read now (R283, R319, R371, R372). -/
def Readable (u : State) (w : Ctx) (ps : List Piece) : Prop :=
  ∀ p ∈ ps, u.ownRed w.v.part.id (p.x.addr / 64) = false ∧ u.blocked (p.x.addr / 64) .read (some w.v.part.id) = false ∧
    (u.reaches w.v.part.id p.x.addr p.len = true → (∀ b ∈ u.bufPoison, p.x.addr / 64 ≠ b.1) ∧ u.poisoned (p.x.addr / 64) = false ∧
      assocGet u.spoiled w.v.part.id = none)

/-- Pieces that can be written now: nothing is in the way of a part that performs its accesses one by one (R110, R114). -/
def Writable (u : State) (w : Ctx) (ps : List Piece) : Prop :=
  w.v.part.direct = true → u.entriesOf w.v.part.id = [] ∧ ∀ p ∈ ps, u.blocked (p.x.addr / 64) .write (some w.v.part.id) = false

/-- The state after pieces have been read. -/
def State.readAll (u : State) (w : Ctx) (ps : List Piece) : State := ps.foldl (fun t p => t.readLine w p.x.addr p.len) u

/-- The bytes of a piece as its part reads them (R284). -/
def State.pieceBytes (u : State) (w : Ctx) (p : Piece) : List Byte := u.readOwn w.own w.v.part.id p.x.addr p.len

/-- An instruction that reads here: nothing to access, or it reads its pieces and ends with `g`, which gets the state before
the reads, the one after them, its part in each, and the pieces. -/
def Reads (i : Instr) (f : Form) (imm : Word) (z : Space) (h : How) (es : Ctx → List Elem) (P : State → Ctx → List Piece → Prop)
    (g : Ctx → State → State → Ctx → List Piece → State) : Prop :=
  let u := fun t y => (found z h es t y).2
  let ps := fun t y => (found z h es t y).1.ok
  let w := fun t y => (u t y).fresh y
  let u' := fun t y => (u t y).readAll (w t y) (ps t y)
  Falls i f imm (fun _ y => Silent es y) (fun t _ => t) f.closes ∧
  Falls i f imm (fun t y => Clear z h es t y ∧ Readable (u t y) (w t y) (ps t y) ∧ P (u t y) (w t y) (ps t y))
    (fun t y => g y (u t y) (u' t y) ((u' t y).fresh (w t y)) (ps t y)) f.closes

/-- LD, LDS, LDA and LDWB (R288, R289, R296). -/
def Loads (i : Instr) (f : Form) (imm : Word) (z : Space) (p : Pred) (t : TypeCode) (sx : Bool) (d a : Opnd) : Prop :=
  let uni := oneAccess [a, d]
  Reads i f imm z howLoad (fun y => (y.v.accLanes p [a, d]).map fun l => ⟨l, y.v.addrIn z a l, memBytes t⟩) (fun _ _ _ => True)
    fun y u u' w ps => u'.putView w.r (w.v.putLoad uni (y.v.act p) d t sx (elemBytes ps (u.pieceBytes (u.fresh y)) uni))

/-- The lines that some pieces of rows bring, with their sidebands (R292). -/
def rowLines (u : State) (w : Ctx) (ps : List Piece) : List RowLine :=
  ps.map fun q => ⟨q.va, u.pieceBytes w q, u.sideOwn w.v.part.id (q.x.addr / 64)⟩

/-- How described rows are checked (R292, R295). -/
def howRows (k : Kind) : How := ⟨k, false, false, 64, 10, true⟩

/-- LDD and LDW (R292, R294): the lines' formats are as the instruction asks. -/
def LoadsRows (i : Instr) (f : Form) (imm : Word) (p : Pred) (a : Opnd) (rows : Nat) (want : Option Nat)
    (put : View → List RowLine → View) : Prop :=
  Reads i f imm .glob (howRows .load) (fun y => y.v.rowsAt p a rows) (fun u w ps => rowsFault want (rowLines u w ps) = none)
    fun y u u' w ps => u'.putView w.r (put w.v (rowLines u (u.fresh y) ps))

/-- An instruction that writes here: nothing to access, or its pieces are written in order by `put`. -/
def Writes (i : Instr) (f : Form) (imm : Word) (z : Space) (h : How) (es : Ctx → List Elem)
    (put : Ctx → State → Ctx → Piece → State) : Prop :=
  let u := fun t y => (found z h es t y).2
  let ps := fun t y => (found z h es t y).1.ok
  let w := fun t y => (u t y).fresh y
  Falls i f imm (fun _ y => Silent es y) (fun t _ => t) f.closes ∧
  Falls i f imm (fun t y => Clear z h es t y ∧ Writable (u t y) (w t y) (ps t y))
    (fun t y => (ps t y).foldl (fun s p => put y s (w t y) p) (u t y)) f.closes

/-- ST, STS and STA (R288, R290, R296). -/
def Stores (i : Instr) (f : Form) (imm : Word) (z : Space) (p : Pred) (t : TypeCode) (a b : Opnd) : Prop :=
  Writes i f imm z howStore (fun y => (y.v.accLanes p [a, b]).map fun l => ⟨l, y.v.addrIn z a l, memBytes t⟩)
    fun y s w q => s.storePiece w q (((y.v.storeBytes t b q.lane).drop q.off).take q.len) Sides.untyped

/-- STD (R295): `n` is the first register. -/
def StoresRows (i : Instr) (f : Form) (imm : Word) (p : Pred) (a : Opnd) (n rows : Nat) : Prop :=
  Writes i f imm .glob (howRows .store) (fun y => y.v.rowsAt p a rows) fun y s w q =>
    let k := (q.va - y.v.effAddr a 0).toNat / 64
    s.storePiece w q (y.v.rowBytes n k) (y.v.rowSide n k)

/-- What an atomic accesses (R288, R310, R315, R332): D counts where it is written. -/
def atomElems (z : Space) (p : Pred) (w64 : Bool) (d a : Opnd) (os : List Opnd) (y : Ctx) : List Elem :=
  let ds := if d == .zero then os else os ++ [d]
  (match z with | .glob => y.v.atomLanes p ds | _ => y.v.accLanes p ds).map fun l => ⟨l, y.v.addrIn z a l, widthOf w64⟩

/-- An access begun that is performed request by request (R109, R279). -/
def State.begun (u : State) (w : Ctx) (pd : Pend) (ks : List (Piece × PeerKind)) : State :=
  ({ u with reqs := u.reqs ++ requestsOf w u.nextId ks, nextId := u.nextId + ks.length } : State).modPart w.r fun p => { p with pend := some pd }

/-- Its part as it is once the access has ended. -/
def Ctx.donePend (x : Ctx) : Ctx := { x with v := { x.v with part := { x.v.part with pend := none } } }

/-- The data that a request brought. -/
def Request.bytes (q : Request) : List Byte := match q.ans with | some (.data bs _) => bs | _ => []

/-- ATOM without .nr, and CAS (R315 to R317): nothing to access; or every request has been performed at its home slice, and D takes the
old values. -/
def Atomics (i : Instr) (f : Form) (imm : Word) (p : Pred) (w64 : Bool) (d a : Opnd) (os : List Opnd) (kind : Ctx → Piece → PeerKind) : Prop :=
  let es := atomElems .glob p w64 d a os
  let uni := oneAccess (if d == .zero then os else os ++ [d])
  let u := fun t y => (found .glob (howAtom w64) es t y).2
  let ps := fun t y => (found .glob (howAtom w64) es t y).1.ok
  let b := fun t y => (u t y).begun ((u t y).fresh y) ⟨.atom d w64, f.len, uni, y.v.act p⟩
    ((groupAll (ps t y).length (ps t y)).map fun q => (q, kind y q))
  let z := fun t y => (b t y).fresh ((u t y).fresh y)
  let v := fun t y => (b t y).advance (z t y).v.part.id (((b t y).partReqs (z t y).v.part.id).length + 1)
  let x := fun t y => ((v t y).fresh (z t y)).donePend
  let qs := fun t y => (v t y).partReqs (x t y).v.part.id
  let r := fun t y => ((v t y).dropReqs (x t y).v.part.id).modPart (x t y).r fun q => { q with pend := none }
  Falls i f imm (fun _ y => Silent es y) (fun t _ => t) f.closes ∧
  Falls i f imm (fun t y => Clear .glob (howAtom w64) es t y ∧ ((b t y).ctx? imm).isSome = true ∧ ((v t y).ctx? imm).isSome = true ∧
      ∀ q ∈ qs t y, q.tout = false ∧ ∃ bs l, q.ans = some (.data bs l))
    (fun t y => if d = .zero then r t y else (r t y).putView (x t y).r
      ((x t y).v.putLoad uni (y.v.act p) d (if w64 then .b64 else .b32) false fun l =>
        (if uni then qs t y else laneReqs (qs t y) l).flatMap Request.bytes)) true

/-- ATOM with .nr (R315, R318, R319). -/
def Reduces (i : Instr) (f : Form) (imm : Word) (p : Pred) (op : AtomOp) (w64 : Bool) (d a b : Opnd) : Prop :=
  Writes i f imm .glob (howAtom w64) (atomElems .glob p w64 d a [a, b]) fun y s w q => s.reducePiece w op w64 q (y.v.rdW w64 b q.lane)

/-- ATOMS and CASS (R309, R315, R320): no entry of another part is to drain in its granules, no poison has reached them, and the part
obtains those that it writes; its lanes act one after another. -/
def SpAtomics (i : Instr) (f : Form) (imm : Word) (p : Pred) (w64 : Bool) (d a : Opnd) (os : List Opnd) (new : Ctx → Nat → DWord → Option DWord) : Prop :=
  let es := atomElems .sp p w64 d a os
  let uni := oneAccess (if d == .zero then os else os ++ [d])
  let u := fun t y => (found .sp (howAtom w64) es t y).2
  let ps := fun t y => (found .sp (howAtom w64) es t y).1.ok
  let lines := fun t y => (ps t y).map fun q => q.x.addr / 64
  let w := fun t y => (u t y).fresh y
  let need := fun t y => State.spWrites (w t y) w64 (new y) (ps t y) (u t y)
  let held := fun t y => if (w t y).v.part.direct then u t y else (need t y).foldl (fun s l => s.ownGranule (w t y) l) (u t y)
  let r := fun t y => State.spAtoms ((held t y).fresh (w t y)) w64 (new y) (ps t y) (held t y)
  let z := fun t y => (r t y).2.fresh ((held t y).fresh (w t y))
  let old := fun t y l => (((r t y).1.find? fun q => uni || q.1 == l).map (·.2)).getD 0
  Falls i f imm (fun _ y => Silent es y) (fun t _ => t) f.closes ∧
  Falls i f imm (fun t y => Clear .sp (howAtom w64) es t y ∧ Writable (u t y) (w t y) (ps t y) ∧
      (∀ l ∈ lines t y, (u t y).blocked l .write (some (w t y).v.part.id) = false) ∧
      (held t y).overfull ((held t y).fresh (w t y)) = false ∧
      (((held t y).fresh (w t y)).v.part.direct = false → ∀ l ∈ need t y, (held t y).ownsGranule ((held t y).fresh (w t y)) l = true) ∧
      ∀ b ∈ (held t y).bufPoison, b.1 ∉ lines t y)
    (fun t y => if d == .zero then (r t y).2 else (r t y).2.putView (z t y).r
      ((z t y).v.putLoad uni (y.v.act p) d (if w64 then .b64 else .b32) false fun l => natLe 8 (old t y l).toNat)) f.closes

/-! Condition monitors -/

/-- What WAITC and ARMC access (R326, R327). -/
def watchElems (p : Pred) (t : TypeCode) (os : List Opnd) (a : Opnd) (y : Ctx) : List Elem :=
  (y.v.accLanes p os).map fun l => ⟨l, y.v.addrIn .glob a l, if t.wide then 8 else 4⟩

/-- Words that can be read at their home slices now (R283, R372). -/
def Watchable (u : State) (w : Ctx) (ps : List Piece) : Prop :=
  ∀ p ∈ ps, u.blocked (p.x.addr / 64) .read (some w.v.part.id) = false ∧ u.poisoned (p.x.addr / 64) = false

/-- The state after the words have been read there. -/
def State.watchAll (u : State) (w : Ctx) (ps : List Piece) : State :=
  ps.foldl (fun t p => t.homeRead (some w.v.part.id) (p.x.addr / 64)) u

/-- WAITC (R326, R327): its lanes have their outcomes, at once or since they waited. -/
def WaitsFor (i : Instr) (f : Form) (imm : Word) (p : Pred) (cond : Cond) (t : TypeCode) (d a b c : Opnd) : Prop :=
  let os := if d == .zero then [a, b] else [a, b, d]
  let uni := oneAccess os
  let es := watchElems p t os a
  let h := howMon (if t.wide then 8 else 4)
  let mine := fun (s : State) (y : Ctx) => s.waitcs.find? fun (w : WaitcRec) => w.part == y.v.part.id
  let u := fun s y => (found .glob h es s y).2
  let ps := fun s y => (found .glob h es s y).1.ok
  let v := fun s y => (u s y).watchAll ((u s y).fresh y) (ps s y)
  let w := fun s y => (v s y).fresh ((u s y).fresh y)
  let r := fun s y => State.waitLanes (w s y) cond t (fun l => (w s y).v.rdT t b l) (ps s y) (v s y)
  Falls i f imm (fun s y => ∃ q, mine s y = some q ∧ ∀ l ∈ q.lanes, l.2 ≠ .waiting) (fun s y =>
    ({ s with waitcs := s.waitcs.filter fun (w : WaitcRec) => w.part != y.v.part.id } : State).putView y.r
      (y.v.waitc (y.v.act p) uni t d c ((mine s y).elim [] (·.lanes)))) true ∧
  Falls i f imm (fun s y => mine s y = none ∧ Silent es y) (fun s _ => s) f.closes ∧
  Falls i f imm (fun s y => mine s y = none ∧ Clear .glob h es s y ∧ Watchable (u s y) ((u s y).fresh y) (ps s y) ∧
      ∀ l ∈ (r s y).1, l.2 ≠ .waiting)
    (fun s y => (r s y).2.putView (w s y).r ((w s y).v.waitc (y.v.act p) uni t d c (r s y).1)) true

/-- ARMC (R327, R329): its gang's arm is set, and D takes the word. -/
def Arms (i : Instr) (f : Form) (imm : Word) (p : Pred) (cond : Cond) (t : TypeCode) (d a b : Opnd) : Prop :=
  let es := watchElems p t [a, b] a
  let h := howMon (if t.wide then 8 else 4)
  let u := fun s y => (found .glob h es s y).2
  let ps := fun s y => (found .glob h es s y).1.ok
  let w := fun s y => (u s y).fresh y
  let addr := fun s y => ((ps s y).head?.elim 0 fun q => q.x.addr)
  let v := fun s y => ((u s y).watchAll (w s y) (ps s y)).arm (w s y) cond t ((w s y).v.rdT t b 0) (addr s y)
  let x := fun s y => (v s y).word (w s y).own (addr s y) t.wide
  let z := fun s y => (v s y).fresh (w s y)
  Falls i f imm (fun _ y => Silent es y) (fun s _ => s) f.closes ∧
  Falls i f imm (fun s y => Clear .glob h es s y ∧ Watchable (u s y) (w s y) (ps s y) ∧ ps s y ≠ [])
    (fun s y => (v s y).putView (z s y).r (if t.wide then (z s y).v.wrUniform64 p d (x s y) else (z s y).v.wrUniform p d (x s y).lo)) true

/-! Loads and stores that an instruction makes for itself -/

/-- A load of `n` bytes at an address, as if at a ring, passes its checks, which CDBG does not add to, stays in this
package's memory and can be made now (R109, R116, R486, R533, R576). -/
structure Fetches (ring : Ring) (va : DWord) (n : Nat) (t : State) (y : Ctx) : Prop where
  clear : Clear .glob howLoad.own (fun z => directElems z va n) t (y.atRing ring)
  ready : Readable (found .glob howLoad.own (fun z => directElems z va n) t (y.atRing ring)).2
    (((found .glob howLoad.own (fun z => directElems z va n) t (y.atRing ring)).2.fresh y).atRing ring)
    (found .glob howLoad.own (fun z => directElems z va n) t (y.atRing ring)).1.ok

/-- What such a load brings: its bytes, the state after it, and its part there. -/
def fetched (ring : Ring) (va : DWord) (n : Nat) (t : State) (y : Ctx) : List Byte × State × Ctx :=
  let r := found .glob howLoad.own (fun z => directElems z va n) t (y.atRing ring)
  let w := (r.2.fresh y).atRing ring
  let v := (r.2.readAll w r.1.ok).fresh w
  let u := (r.2.readAll w r.1.ok).unread v.r
  (r.1.ok.flatMap (r.2.pieceBytes w), u, u.fresh v)

/-- A store of `n` bytes at an address, as if at a ring, passes its checks, stays here and can be made now. -/
structure Puts (ring : Ring) (va : DWord) (n : Nat) (t : State) (y : Ctx) : Prop where
  clear : Clear .glob howStore.own (fun z => directElems z va n) t (y.atRing ring)
  free : ∀ p ∈ (found .glob howStore.own (fun z => directElems z va n) t (y.atRing ring)).1.ok,
    (found .glob howStore.own (fun z => directElems z va n) t (y.atRing ring)).2.blocked (p.x.addr / 64) .write
      (some ((found .glob howStore.own (fun z => directElems z va n) t (y.atRing ring)).2.fresh y).v.part.id) = false

/-- The state after such a store. -/
def stored (ring : Ring) (va : DWord) (bs : List Byte) (t : State) (y : Ctx) : State :=
  let r := found .glob howStore.own (fun z => directElems z va bs.length) t (y.atRing ring)
  let w := r.2.fresh y
  r.1.ok.foldl (fun (s : State) (p : Piece) => (s.setDirty w.c.part p.x.leaves).homeWrite (some w.v.part.id) (ownAt ring w.c.part)
    p.x.addr ((bs.drop (p.va - va).toNat).take p.len) (some Sides.untyped)) r.2

/-- A word that a job will write reaches storage (R576), with the state after its translation and the part there. -/
structure WordReaches (va : DWord) (t : State) (y : Ctx) : Prop where
  aligned : va.toNat % 4 = 0
  good : (found .glob howLoad.own (fun z => directElems z va 4) t y).1.bad = []
  moves : (found .glob howLoad.own (fun z => directElems z va 4) t y).1.wait = false
  kept : t.lost (found .glob howLoad.own (fun z => directElems z va 4) t y).2 y.r = false
def wordReached (va : DWord) (t : State) (y : Ctx) : State × Ctx :=
  let u := (found .glob howLoad.own (fun z => directElems z va 4) t y).2
  (u, u.fresh y)

/-! Commands of engines -/

/-- A copy command passes every check of R382 and no end of it lies at a peer (R381 to R383); its gang has room for it (R137). -/
structure CopyReady (p : Pred) (ask : Ctx → CopyAsk) (t : State) (y : Ctx) : Prop where
  acts : y.v.acts p = true
  room : y.v.gang.counters.copy < 64
  aligned : ∀ q ∈ (ask y).aligned, q.1.toNat % q.2 = 0
  limits : (ask y).limits = true
  bufs : (ask y).total ≠ 0 → ∀ b ∈ (ask y).bufs, bufFault y.c b.1 b.2.1 b.2.2.1 b.2.2.2.1 b.2.2.2.2 = none
  sync : (ask y).sync.bind (syncFault y.c) = none
  ranges : (ask y).total ≠ 0 → ∀ r ∈ (ask y).ranges, r.ok = true
  own : ∃ l, (State.checkRanges y (if (ask y).total = 0 then [] else (ask y).ranges) t).1 = some (.ok l) ∧ ∀ q ∈ l, q = none
  kept : t.lost (State.checkRanges y (if (ask y).total = 0 then [] else (ask y).ranges) t).2 y.r = false

/-- The copy instructions (R381, R382): without an active lane nothing happens; else the captured command is buffered. -/
def Copies (i : Instr) (f : Form) (imm : Word) (p : Pred) (ask : Ctx → CopyAsk) : Prop :=
  Falls i f imm (fun _ y => y.v.acts p = false) (fun t _ => t) f.closes ∧
  Falls i f imm (CopyReady p ask) (fun t y =>
    let r := State.checkRanges y (if (ask y).total = 0 then [] else (ask y).ranges) t
    let ps := match r.1 with | some (.ok l) => l | _ => []
    r.2.bufferCmd (r.2.fresh y) (.copy ((ask y).cmd (ps.map Option.isSome)))) f.closes

/-- Matrix ranges are aligned and lie in their buffers (R435). -/
def MatFits (rs : List MatRange) : Prop := ∀ r ∈ rs, r.off % 64 = 0 ∧ r.fits = true

/-- A MATRIX instruction may issue (R137, R434). -/
def MatReady (p : Pred) (y : Ctx) : Prop := y.v.acts p = true ∧ y.v.gang.counters.matrix < 64

/-- A range of AB in a cohort's allocation (R421). -/
def abRange (y : Ctx) (c : Cohort) (o : Opnd) (field len : Nat) : MatRange := ⟨false, c, y.v.matOff o field, len⟩

/-- A team operation's partner is there (R427, R435). -/
def TeamReady (team : Bool) (t : State) (y : Ctx) : Prop := team = true → y.c.core % 2 = 0 ∧ (t.partnerOf y.c).isSome = true
def mate (team : Bool) (t : State) (y : Ctx) : Option Cohort := if team then t.partnerOf y.c else none

/-- An MMA passes every check of R435. -/
structure MmaReady (p : Pred) (m : Nat) (reuse pair : Bool) (d a b : Opnd) (t : State) (y : Ctx) : Prop where
  ready : MatReady p y
  free : t.ledHere y.c.core = false
  team : TeamReady pair t y
  whole : reuse = true → y.v.gang.parts.length ≤ 1
  latch : y.mmaLatchBad reuse a m = false
  fits : MatFits (y.mmaRanges d b m (mate pair t y))
  rows : firstBad ((y.mmaRows reuse a m).map fun (v : VReg) => v.tag.toNat % 256) = none
  tile : firstBad (t.mmaCodes y b (mate pair t y)) = none
  formats : (mmaFmts (y.mmaRows reuse a m) (t.mmaCodes y b (mate pair t y))).isSome = true

/-- An MMA issued (R422, R423): the latch, and the command. -/
def mmaIssued (m : Nat) (reuse z pair : Bool) (d a b : Opnd) (t : State) (y : Ctx) : State :=
  let rows := y.mmaRows reuse a m
  match mmaFmts rows (t.mmaCodes y b (mate pair t y)) with
  | some (fa, fb) =>
    let u := t.latched y reuse a rows
    u.bufferCmd (u.fresh y) (.matrix (y.mmaCmd fa fb z m rows d b (mate pair t y)))
  | none => t

/-! Queues -/

/-- The offsets of the records that QPUSHS pushes (R478). -/
def rowOffs (y : Ctx) (a : Opnd) (size k : Nat) : List (Nat × Int) :=
  (List.range k).map fun (i : Nat) => (4 * lowQuad y.v.part.quads, y.v.offset a 0 + size * (i : Int))

/-- What QPOP takes after its gang's earlier records are released (R481). -/
def popped (a : Opnd) (t : State) (y : Ctx) : Nat × State :=
  (t.releaseHeld fun h => h.who == .gang y.r.cohort y.r.gang).popRecords y.c y.r.gang (y.v.uni a).toNat

/-- QSEED's gang has room for one more push (R137), its count has been read, and its template fits (R479, R485). -/
def SeedReady (p : Pred) (o : Nat) (a b : Opnd) (t : State) (y : Ctx) : Prop :=
  let r := fetched y.v.part.ring (y.v.effAddr a 0) 4 t y
  y.v.gang.counters.push < 64 ∧ leNat r.1 ≤ 2 ^ 20 ∧ ∃ key, t.outputOf y.c o = some key ∧
    pushFault r.2.2.c (y.v.act p) true (r.2.1.sizeOf key) [(4 * lowQuad r.2.2.v.part.quads, ((r.2.2.v.uni b).toNat : Int))] = none

/-- The push of a seed passed to its engine (R485). -/
def seeded (o : Nat) (a b c : Opnd) (t : State) (y : Ctx) : State :=
  let r := fetched y.v.part.ring (y.v.effAddr a 0) 4 t y
  match t.outputOf y.c o with
  | some key => r.2.1.passNow r.2.2 key
      ⟨key, r.2.1.sizeOf key, .seed (spPlace r.2.2.c (r.2.2.v.uni b).toNat) (leNat r.1) (r.2.2.v.uni c)⟩
  | none => r.2.1

/-- A stage's descriptor can be taken: its graph is not bound, or it only tunes its stage (R475, R486). -/
def StageFits (r : List Byte × State × Ctx) (b c : Opnd) (y : Ctx) : Prop :=
  let g := r.2.1.graphOr r.2.2.c.part (y.v.uni c).toNat
  ∃ q, sdescOf r.1 = some q ∧ (g.bound = false ∨ ∃ k, assocGet g.stages (y.v.uni b).toNat = some k ∧ q.tunes k.desc = true)

/-- It is taken. -/
def stageSet (r : List Byte × State × Ctx) (b c : Opnd) (y : Ctx) : State :=
  let g := r.2.1.graphOr r.2.2.c.part (y.v.uni c).toNat
  let i := (y.v.uni b).toNat
  match sdescOf r.1, g.bound, assocGet g.stages i with
  | some q, true, some k => r.2.1.setGraph { g with stages := assocSet g.stages i { k with desc := q } }
  | some q, false, _ => r.2.1.setGraph { g with stages := assocSet g.stages i ⟨q, false, none, 0⟩ }
  | _, _, _ => r.2.1

/-! Tier jobs and returns -/

/-- A job can start (R576, R577). -/
def JobStarts (r : State × Ctx) (b : Opnd) (j : Job) : Prop :=
  (r.1.tier.jobs.filter fun k => k.owner == r.2.c.part).length < 8 ∧
    ∃ k, r.1.tierTarget r.2 b = some k ∧ r.1.jobWrong k j = false

/-- It has started. -/
def jobStarted (r : State × Ctx) (b : Opnd) (j : Job) : State := (r.1.tierTarget r.2 b).elim r.1 fun k => r.1.addJob r.2 j k

/-- The pages of a range pinned or unpinned (R579): how many could not be, and the state. -/
def pinsDone (up : Bool) (a b : Opnd) (t : State) (y : Ctx) : Nat × State :=
  (pagesOf (y.v.base a) (y.v.uni b).toNat).foldl (State.pinOne y up) (0, t)

/-- The checks of the counters that TRET's frame holds (R358). -/
def epcsOf (t : State) (y : Ctx) : Epcs × State :=
  State.checkEpcs y y.v.tretFrame.2 (Ring.ofNum (y.v.tretFrame.2.cause.toNat / 256 % 4)) (quadList (y.v.tretFrame.2.stat.setWidth 8)) t

/-- TRET may return (R358): its part holds the frame's quads, and their counters pass their checks. -/
def Returns (t : State) (y : Ctx) : Prop :=
  y.v.part.quads = y.v.tretFrame.2.stat.setWidth 8 ∧ (∃ hs, (epcsOf t y).1 = .ok hs) ∧ t.lost (epcsOf t y).2 y.r = false

/-- It has returned. -/
def tretDone (park : Bool) (t : State) (y : Ctx) : State :=
  match (epcsOf t y).1 with
  | .ok hs => (epcsOf t y).2.returned y park y.v.tretFrame.1 y.v.tretFrame.2 hs
  | _ => t

/-- An access under way has been answered, and its instruction ends (R278, R322). -/
def State.accessEnds (s : State) (r : PartRef) (x : Ctx) (pd : Pend) (u : State) : State :=
  ({ u.flows x ⟨⟨0, false⟩, pd.len, 0, [], [], .irrevocable, .none⟩ true with cur := s.cur } : State).settleDying r.cohort

/-! What a register instruction leaves alone -/

/-- The specifier bytes of `n` registers from an operand on (R49, R50, R286). -/
def regBytes (d : Opnd) (n : Nat) : List Nat := (List.range n).map fun j => (d.plus j).toByte

/-- A part and its gang with their logs left out: what they hold beside their runs, and where the part stands. -/
def Part.logless (p : Part) : Part := { p with runs := [] }

/-- The part and gang `w` differ from `v` in no register but those whose specifier bytes are in `b`, and in no AFLAGS flag outside `m`,
where flags are only raised (R171, R173); no bank of another ring, no frame, no copy of another part's quads, no other part and no
other register of the gang changes. Runs, written marks of temporaries, counter and wait are left out. -/
structure View.Same (b : List Nat) (m : Flags) (v w : View) : Prop where
  vregs : ∀ k < 192, k ∉ b → w.vreg k = v.vreg k
  sregs : ∀ k < 32, 0xC0 + k ∉ b → w.sreg k = v.sreg k
  xregs : ∀ k < 8, 0xE0 + k ∉ b → w.part.xreg k = v.part.xreg k
  pregs : ∀ k < 8, 0xE8 + k ∉ b → w.part.preg k = v.part.preg k
  exec : 0xF4 ∉ b → w.part.exec = v.part.exec
  kept : w.part.aflags &&& ~~~m = v.part.aflags &&& ~~~m
  raised : v.part.aflags ||| w.part.aflags = w.part.aflags
  vbelow : v.part.ring ≠ .U → ∀ k, 176 ≤ k → vget w.gang.v k vregZero = vget v.gang.v k vregZero
  sbelow : v.part.ring ≠ .U → ∀ k, 24 ≤ k → vget w.part.s k 0 = vget v.part.s k 0
  banks : ∀ r, r ≠ .U → r ≠ v.part.ring → w.gang.bank r = v.gang.bank r
  frames : ∀ r, (w.gang.bank r).frames = (v.gang.bank r).frames
  copies : ∀ r q k, q < 8 → k < 8 → v.part.quads.getLsbD q = false →
    vget (w.gang.bank r).s (8 * q + k) 0 = vget (v.gang.bank r).s (8 * q + k) 0
  others : (w.gang.parts.filter fun p => p.id != v.part.id && p.quads &&& v.part.quads == 0).map Part.logless =
    (v.gang.parts.filter fun p => p.id != v.part.id && p.quads &&& v.part.quads == 0).map Part.logless
  part : { w.part with s := v.part.s, p := v.part.p, exec := v.part.exec, aflags := v.part.aflags, x := v.part.x, xw := v.part.xw, runs := v.part.runs, pc := v.part.pc, wait := v.part.wait } = v.part
  gang : { w.gang with v := v.gang.v, bankS := v.gang.bankS, bankH := v.gang.bankH, bankM := v.gang.bankM, parts := v.gang.parts } = v.gang
  place : w.core = v.core ∧ w.imm = v.imm

/-- From `s` to `t`, nothing changes but the agenda, the numbers given out and the gang of the part `x`, and in that gang only what
`View.Same` lets change; every byte of memory reads as before. -/
structure SameBut (b : List Nat) (m : Flags) (imm : Word) (s : State) (x : Ctx) (t : State) : Prop where
  rest : { t with cohorts := s.cohorts, agenda := s.agenda, nextId := s.nextId } = s
  memory : ∀ a, t.mem.read a = s.mem.read a
  cohorts : (t.cohorts.map fun c => { c with gangs := [] }) = s.cohorts.map fun c => { c with gangs := [] }
  gangs : ∀ co g, ¬(co = x.r.cohort ∧ g = x.r.gang) → t.gang? co g = s.gang? co g
  part : ∃ z, t.ctx? imm = some z ∧ x.v.Same b m z.v

/-- An instruction that is ready changes nothing but `n` registers from its destination on and the flags of `m`, whether it completes
or finds no room for its entries (R110). -/
def Frames (i : Instr) (f : Form) (imm : Word) (d : Opnd) (n : Nat) (m : Flags) : Prop :=
  ∀ s x t y s', Ready f imm s x t y → exec i s = .next s' → SameBut (regBytes d n) m imm s x s'

/-! What an access leaves alone -/

/-- The accesses of a load of lanes (R287 to R289). -/
def loadElems (z : Space) (p : Pred) (t : TypeCode) (d a : Opnd) (y : Ctx) : List Elem :=
  (y.v.accLanes p [a, d]).map fun l => ⟨l, y.v.addrIn z a l, memBytes t⟩

/-- The accesses of a store of lanes (R287, R288, R290). -/
def storeElems (z : Space) (p : Pred) (t : TypeCode) (a b : Opnd) (y : Ctx) : List Elem :=
  (y.v.accLanes p [a, b]).map fun l => ⟨l, y.v.addrIn z a l, memBytes t⟩

/-- The state after a load's checks and reads, which still has to write its destination. -/
def hasRead (z : Space) (h : How) (es : Ctx → List Elem) (t : State) (y : Ctx) : State :=
  (found z h es t y).2.readAll ((found z h es t y).2.fresh y) (found z h es t y).1.ok

/-- A load that passes its checks and reads here, and whose part still has the turn, changes, from the state after its reads
to the next state, nothing but `n` registers from its destination on; the reads change no byte of memory, and those of a
buffer find it as the step began. Where its part finds no room for its entries (R110), nothing but its wait and its run has
changed. -/
def LoadFrames (i : Instr) (f : Form) (imm : Word) (z : Space) (h : How) (es : Ctx → List Elem) (P : State → Ctx → List Piece → Prop)
    (b : List Nat) : Prop :=
  ∀ s x t y w s', Ready f imm s x t y → Clear z h es t y →
    Readable (found z h es t y).2 ((found z h es t y).2.fresh y) (found z h es t y).1.ok →
    P (found z h es t y).2 ((found z h es t y).2.fresh y) (found z h es t y).1.ok →
    (hasRead z h es t y).ctx? imm = some w → w.r = y.r → exec i s = .next s' →
    (SameBut b 0 imm (hasRead z h es t y) w s' ∨ SameBut [] 0 imm t y s') ∧
    (∀ a, (hasRead z h es t y).mem.read a = (found z h es t y).2.mem.read a) ∧
    (z ≠ .glob → ∀ a, s'.mem.read a = s.mem.read a)

/-- Whether a byte's address lies in a piece, and in its line. -/
def covers (q : Piece) (n a : Nat) : Bool := decide (q.x.addr ≤ a) && decide (a < q.x.addr + n) && a / 64 == q.x.addr / 64

/-- The byte that some pieces put at an address: the last of them that covers it gives it. -/
def lastByte (ps : List Piece) (data : Piece → List Byte) (a : Nat) : Option Byte :=
  (ps.reverse.find? fun q => covers q (data q).length a).map fun q => (data q).getD (a - q.x.addr) 0

/-- A store that passes its checks, stays here and is buffered (R114, R282, R284), and whose part still has the turn: to its part, a
byte in its pieces reads as stored and every other byte as before, to every other part every byte reads as before; beside the store
buffer nothing changes, and memory itself does not (R283). Where its part finds no room (R110), it only waits. -/
def BufferedStore (i : Instr) (f : Form) (imm : Word) (z : Space) (h : How) (es : Ctx → List Elem) (data : Ctx → Piece → List Byte) : Prop :=
  ∀ s x t y w s', Ready f imm s x t y → Clear z h es t y → (found z h es t y).2.ctx? imm = some w → w.r = y.r →
    w.v.part.direct = false → exec i s = .next s' →
    (SameBut [] 0 imm (found z h es t y).2 w { s' with stores := (found z h es t y).2.stores } ∧
        ∀ pid a, s'.readOwn w.own pid a 1 =
          if pid = w.v.part.id then (match lastByte (found z h es t y).1.ok (data y) a with
            | some b => [b] | none => (found z h es t y).2.readOwn w.own pid a 1)
          else (found z h es t y).2.readOwn w.own pid a 1) ∨
      SameBut [] 0 imm t y s'

/-- A byte of storage that lies neither in a line nor in its far sideband (R23). -/
def State.clearOf (s : State) (b line : Nat) : Prop :=
  ¬ (s.cell line ≤ b ∧ b < s.cell line + 64) ∧ ∀ c, isFar (64 * line) = true → s.sideCell line = some c → ¬ (c ≤ b ∧ b < c + 2)

/-- No byte of line `k` lies in storage where those of `line` or of its far sideband lie (R23: windows of far memory may overlap). -/
def State.apart (s : State) (k line : Nat) : Prop := ∀ i < 64, s.clearOf (s.cell k + i) line

/-- Line `k` is `line`, whose far sideband does not lie in it, or stands apart from it. -/
def State.sound (s : State) (k line : Nat) : Prop :=
  (k = line ∧ ∀ i < 64, ∀ c, isFar (64 * line) = true → s.sideCell line = some c → ¬ (c ≤ s.cell k + i ∧ s.cell k + i < c + 2)) ∨ s.apart k line

/-- From `v` to `t`, storage changes in some lines only: every byte apart from them and from their far sidebands is as before, and
so are the other lines' sidebands and what any partition reads apart from those lines. -/
structure StoredIn (ls : List Nat) (v t : State) : Prop where
  canonical : t.canonical
  bytes : ∀ b, (∀ l ∈ ls, v.clearOf b l) → t.mem.read b = v.mem.read b
  sides : ∀ l, l ∉ ls → t.sides.read l = v.sides.read l
  reads : ∀ own a, (∀ l ∈ ls, v.apart (a / 64) l) → t.byteAs own a = v.byteAs own a

/-- A cohort with its readiness (R331) and its gangs' armed conditions (R329) left out: what a monitor entry that fires changes. -/
def Cohort.unarmed (c : Cohort) : Cohort := { c with ready := false, gangs := c.gangs.map fun g => { g with arm := .idle } }

/-- From `e` to `t` only storage changes, and what goes with a write to it: poison (R372), the keys of lines (R546), the host's copies
(R90), kept tiles (R432) and monitors with their waits (R325, R326). No register does. -/
structure StoredOnly (e t : State) : Prop where
  rest : { t with
    mem := e.mem, sides := e.sides, poison := e.poison, bufPoison := e.bufPoison, owners := e.owners, hostHeld := e.hostHeld
    out := e.out, matrix := { t.matrix with kept := e.matrix.kept }, monitors := e.monitors, waitcs := e.waitcs, cohorts := e.cohorts } = e
  cohorts : t.cohorts.map Cohort.unarmed = e.cohorts.map Cohort.unarmed

/-- A store that passes its checks and stays here, of a part that performs its accesses one by one (R110, R114), to pages that are
dirty already: storage changes in the lines of its pieces only; its part's partition reads there each byte that a piece covers as
stored and every other as before. Where it strikes no run of another part (R105), nothing but storage, its run and its counter
changes. Where its part finds no room (R110), it only waits. -/
def DirectStore (i : Instr) (f : Form) (imm : Word) (z : Space) (h : How) (es : Ctx → List Elem) (data : Ctx → Piece → List Byte) : Prop :=
  ∀ s x t y w s', Ready f imm s x t y → Clear z h es t y → (found z h es t y).2.ctx? imm = some w → w.r = y.r → w.v.part.direct = true →
    Writable (found z h es t y).2 w (found z h es t y).1.ok → (∀ q ∈ (found z h es t y).1.ok, q.x.leaves = []) →
    (∀ q ∈ (found z h es t y).1.ok, q.x.addr % 64 + (data y q).length ≤ 64) → (found z h es t y).2.canonical → exec i s = .next s' →
    let u := (found z h es t y).2
    let ps := (found z h es t y).1.ok
    (StoredIn (ps.map fun q => q.x.addr / 64) u s' ∧
      (∀ a, (∀ q ∈ ps, u.sound (a / 64) (q.x.addr / 64)) → s'.byteAs w.own a = (lastByte ps (data y) a).getD (u.byteAs w.own a)) ∧
      ((∀ o ∈ u.allParts, o.2.id ≠ w.v.part.id → ∀ q ∈ ps, u.strikes (q.x.addr / 64) .write o.2 = false) →
        SameBut [] 0 imm u w (u.flows y f f.closes) ∧ StoredOnly (u.flows y f f.closes) s')) ∨
      SameBut [] 0 imm t y s'

/-- A piece that leaves the package's memory, to a peer or to I/O space (R93). -/
def Piece.leaves (q : Piece) : Bool := q.x.far

/-- A store that passes its checks and some of whose pieces leave the package's memory (R93, R109, R279), to pages that are dirty
already: from the state `v` in which its part has settled, storage changes in the lines of the pieces that stay, and nowhere when all
leave; beside it only requests, the links, what has left the package, and the run, counter, wait and access under way of its
part change. Stated for an access whose requests' numbers are new, that no error in a payload has struck, and that strikes no
run of another part (R105). Where its part finds no room (R110), it only waits. -/
def LeavingStore (i : Instr) (f : Form) (imm : Word) (z : Space) (h : How) (es : Ctx → List Elem) (data : Ctx → Piece → List Byte) : Prop :=
  ∀ s x t y v w s', Ready f imm s x t y → y.v.part.pend = none → es y ≠ [] → (found z h es t y).1.bad = [] → (found z h es t y).1.wait = false →
    t.lost (found z h es t y).2 y.r = false → (∃ q ∈ (found z h es t y).1.ok, q.leaves = true) →
    (∀ q ∈ (found z h es t y).1.ok, q.x.leaves = [] ∧ (q.leaves = true ∨ q.x.addr % 64 + (data y q).length ≤ 64)) →
    (found z h es t y).2.settle y.r = some v → v.ctx? imm = some w → w.r = y.r → v.canonical →
    (∀ q ∈ v.reqs, q.group < v.nextId ∧ (q.copyOp = none → q.part ≠ w.v.part.id)) → (∀ e ∈ v.spoiled, e.1 ≠ w.v.part.id ∧ e.1 < v.nextId) →
    let ls := ((found z h es t y).1.ok.filter fun q => !q.leaves).map fun q => q.x.addr / 64
    (∀ o ∈ v.allParts, o.2.id ≠ w.v.part.id → ∀ l ∈ ls, v.strikes l .write o.2 = false) → exec i s = .next s' →
    (StoredIn ls v s' ∧ ∃ g : Part → Part, (∀ p, g p = { p with runs := (g p).runs, pc := (g p).pc, wait := (g p).wait, pend := (g p).pend }) ∧
        StoredOnly (v.modPart y.r g) { s' with reqs := v.reqs, fabric := v.fabric, agenda := v.agenda, nextId := v.nextId }) ∨
    SameBut [] 0 imm t y s'

/-- What a store changes and what it leaves alone: one that is buffered, one that is performed directly, and one that leaves
the package. -/
def StoreFrames (i : Instr) (f : Form) (imm : Word) (z : Space) (h : How) (es : Ctx → List Elem) (data : Ctx → Piece → List Byte) : Prop :=
  BufferedStore i f imm z h es data ∧ DirectStore i f imm z h es data ∧ LeavingStore i f imm z h es data

/-! What a register instruction writes -/

/-- The value that a uniform destination receives and when (R171): once from uniform sources, with PRED 0b0000 or a lane in
ACT; else from the lowest lane of ACT, if there is one. -/
def uniformLane (v : View) (q : Pred) (srcs : List Opnd) : Option Nat :=
  if v.act q ≠ 0 then some (lowLane (v.act q)) else if q.always && allUniform srcs then some (4 * lowQuad v.part.quads) else none

/-- The lanes whose computation raises flags (R171 to R173). -/
def flagLanes (v : View) (q : Pred) (d : Opnd) (srcs : List Opnd) : List Nat :=
  if d.uniDst = true ∨ d = .zero ∧ allUniform srcs = true then (uniformLane v q srcs).toList else laneList (v.act q)

/-- What an instruction that computes `f` in each lane leaves in its destination (R170, R171) and in AFLAGS (R172, R173). -/
structure LaneResult (q : Pred) (wide : Bool) (d : Opnd) (srcs : List Opnd) (f : Nat → DWord × Flags) (v w : View) : Prop where
  vector : ∀ n, d = .v n → (wide = true → n.val + 1 < 192) → v.act q ≠ 0 → ∀ l < 32,
    (w.vreg n.val).tag = untypedTag ∧
    Row.lane (w.vreg n.val).row l = (if (v.act q).getLsbD l then (f l).1.lo else Row.lane (v.vreg n.val).row l) ∧
    (wide = true → (w.vreg (n.val + 1)).tag = untypedTag ∧
      Row.lane (w.vreg (n.val + 1)).row l = if (v.act q).getLsbD l then (f l).1.hi else Row.lane (v.vreg (n.val + 1)).row l)
  empty : ∀ n, d = .v n → v.act q = 0 → ∀ k < 192, w.vreg k = v.vreg k
  temporary : ∀ n, d = .x n → (wide = true → n.val + 1 < 8) → ∀ l < 32,
    Row.lane (w.part.xreg n.val) l = (if (v.act q).getLsbD l then (f l).1.lo else Row.lane (v.part.xreg n.val) l) ∧
    vget w.part.xw n.val 0 = vget v.part.xw n.val 0 ||| v.act q ∧
    (wide = true → Row.lane (w.part.xreg (n.val + 1)) l = (if (v.act q).getLsbD l then (f l).1.hi else Row.lane (v.part.xreg (n.val + 1)) l) ∧
      vget w.part.xw (n.val + 1) 0 = vget v.part.xw (n.val + 1) 0 ||| v.act q)
  scalar : ∀ n, d = .s n → (wide = true → n.val + 1 < 32) → v.part.quads ≠ 0 →
    match uniformLane v q srcs with
    | some l => w.sreg n.val = (f l).1.lo ∧ (wide = true → w.sreg (n.val + 1) = (f l).1.hi)
    | none => w = v.raiseFlags 0
  mask : d = .exec → wide = false → w.part.exec = match uniformLane v q srcs with | some l => (f l).1.lo | none => v.part.exec
  predicate : ∀ n, d = .p n → n.val ≠ 0 → wide = false →
    w.part.preg n.val = match uniformLane v q srcs with | some l => (f l).1.lo | none => v.part.preg n.val
  discarded : d = .zero → w = v.raiseFlags (orFlags ((flagLanes v q d srcs).map fun l => (f l).2))
  flags : w.part.aflags = v.part.aflags ||| orFlags ((flagLanes v q d srcs).map fun l => (f l).2)

/-- The same as a relation of views, with what each lane computes from the view before. -/
def LaneGives (q : Pred) (wide : Bool) (d : Opnd) (srcs : List Opnd) (f : View → Nat → DWord × Flags) (v w : View) : Prop :=
  LaneResult q wide d srcs (f v) v w

/-- What a register instruction writes: whenever it is ready and its entries fit, the next state is `Falls`' with a part and gang that
`R` relates to those before it. -/
def Gives (i : Instr) (f : Form) (imm : Word) (R : View → View → Prop) : Prop := ∃ g, Views i f imm g ∧ ∀ v, R v (g v)

/-- The flags of rounding: NV, OF, UF and NX. -/
def roundFlags : Flags := flagNV ||| flagOF ||| flagUF ||| flagNX

/-! Special registers -/

/-- The offsets of the configuration registers of a set (R348). -/
def setReg (o : Nat) : Prop := o ≤ 1 ∨ 8 ≤ o ∧ o ≤ 0x11

/-- The offsets of the frame registers that MTSR writes (R348). -/
def frameReg (o : Nat) : Prop := 0x20 ≤ o ∧ o ≤ 0x29 ∨ 0x31 ≤ o ∧ o ≤ 0x37 ∨ 0x40 ≤ o ∧ o ≤ 0x4F

/-- The user registers that MTSR writes (R345, R406). -/
def userRegs : List Nat := [2, 3, 4, 6, 7, 11, 12, 13]

/-- The partition and address-space registers of ring S that hold all of what is written: roots, log bases and capacities,
DEADLINE, frame pools, UEVICT and UFILL (R116, R542, R548). -/
def plainRegs : List Nat := [0x84, 0x85, 0x88, 0x89, 0x8A, 0x8C, 0x8D, 0x8E, 0x91, 0x94, 0x95, 0x96, 0x97, 0x98, 0x99]

/-- A word of which only some bits can be written (R6). -/
def masked (old w mask : Word) : Word := (old &&& ~~~mask) ||| (w &&& mask)

/-- A configuration register has been written: TVECL keeps its reserved bits, EQTAIL is read only, no other register of the
set changes (R348, R349). -/
structure SetWritten (was now : RegSet) (o : Nat) (w : Word) : Prop where
  written : now.get o = if o = 0 then masked (was.get 0) w 0xFFFFFF81 else if o = 0x10 then was.get 0x10 else w
  others : ∀ k, setReg k → k ≠ o → now.get k = was.get k

/-- What a frame register reads after it has been written (R348, R350, R351): TEPC of a quad outside the frame's QMASK reads zero. -/
def frameAfter (f : Frame) (o : Nat) (w : Word) : Word :=
  if o = 0x20 then masked f.cause w 0x3FFFFF
  else if o = 0x28 then masked f.stat w 0x1FF
  else if o = 0x29 then masked f.afl w 0x7F
  else if 0x40 ≤ o ∧ f.stat.getLsbD ((o - 0x40) / 2) = false then 0
  else w

/-- What a user register reads after it has been written (R212, R345, R347): reserved bits and bit 31 of DRAGCNT stay. -/
def userAfter (old : Word) (n : Nat) (w : Word) : Word :=
  if n = 2 ∨ n = 3 then w &&& 0x7F else if n = 4 then masked old w 0xF else if n = 7 then masked old w 0x7FFFFFFF else w

/-- Whatever a write of a special register changes, storage, the store buffer and the sets of rings H and M stay. -/
structure StorageKept (t u : State) : Prop where
  mem : u.mem = t.mem
  sides : u.sides = t.sides
  stores : u.stores = t.stores
  setH : u.pkg.setH = t.pkg.setH
  setM : u.pkg.setM = t.pkg.setM

/-- An MTSR to a configuration register of ring H or M (R348). -/
def WritesSet (i : Instr) (f : Form) (imm : Word) (p : Pred) (n : Nat) (a : Opnd) : Prop :=
  ∀ s x t y, 0x200 ≤ n → setReg (n % 256) → Ready f imm s x t y → y.v.acts p = true → t.overfull y = false → ∃ u,
    exec i s = .next u ∧ u.mem = t.mem ∧ u.sides = t.sides ∧ u.stores = t.stores ∧ u.parts = t.parts ∧
    (n < 0x300 → SetWritten t.pkg.setH u.pkg.setH (n % 256) (y.v.rd32 a 0) ∧ u.pkg.setM = t.pkg.setM) ∧
    (0x300 ≤ n → SetWritten t.pkg.setM u.pkg.setM (n % 256) (y.v.rd32 a 0) ∧ u.pkg.setH = t.pkg.setH)

/-- An MTSR to a configuration register of ring S: of the part's partition (R344, R348). -/
def WritesPartSet (i : Instr) (f : Form) (imm : Word) (p : Pred) (n : Nat) (a : Opnd) : Prop :=
  ∀ s x t y d, 0x100 ≤ n → n < 0x200 → setReg (n % 256) → Ready f imm s x t y → y.v.acts p = true → t.overfull y = false →
    t.partition? y.c.part = some d → ∃ u e,
    exec i s = .next u ∧ StorageKept t u ∧ u.partition? y.c.part = some e ∧ SetWritten d.regs e.regs (n % 256) (y.v.rd32 a 0) ∧
    ∀ k, k ≠ y.c.part → u.partition? k = t.partition? k

end Sys2Proof.Machine
end

