-- ==== Sys2Proof/Formulas.lean ====
section
/-!
DEFINITION. The results that the spec's rules give for integer instructions (R177 to R186), written in terms of bit vectors, beside the
exact-integer definitions that the meanings use. The statements compare the two.
-/
namespace Sys2Proof.Machine

/-- A two-operand operation at the width of a type: 32-bit types use and make the low words (R176). -/
def atType (t : TypeCode) (f : ∀ w, BitVec w → BitVec w → BitVec w × Flags) (a b : DWord) : DWord × Flags :=
  if t.wide then f 64 a b else ((f 32 a.lo b.lo).1.setWidth 64, (f 32 a.lo b.lo).2)

/-- A one-operand operation at the width of a type. -/
def atType1 (t : TypeCode) (f : ∀ w, BitVec w → BitVec w × Flags) (a : DWord) : DWord × Flags :=
  if t.wide then f 64 a else ((f 32 a.lo).1.setWidth 64, (f 32 a.lo).2)

/-- A three-operand operation at the width of a type. -/
def atType3 (t : TypeCode) (f : ∀ w, BitVec w → BitVec w → BitVec w → BitVec w × Flags) (a b c : DWord) : DWord × Flags :=
  if t.wide then f 64 a b c else ((f 32 a.lo b.lo c.lo).1.setWidth 64, (f 32 a.lo b.lo c.lo).2)

/-- An operation on patterns at the width of a type (R181, R182). -/
def patType (t : TypeCode) (f : ∀ w, BitVec w → BitVec w) (a : DWord) : DWord := if t.wide then f 64 a else (f 32 a.lo).setWidth 64

/-- The integer value at a width. -/
def valAt (sg : Bool) {w : Nat} (a : BitVec w) : Int := if sg then a.toInt else a.toNat

/-- A + B at a width: wrapped, or clamped with OF (R176, R177). -/
def sumAt (signed sat : Bool) (w : Nat) (a b : BitVec w) : BitVec w × Flags :=
  if sat = false then (a + b, 0)
  else if signed then if a.saddOverflow b then (if a.msb then BitVec.intMin w else BitVec.intMax w, flagOF) else (a + b, 0)
  else if a.uaddOverflow b then (BitVec.allOnes w, flagOF) else (a + b, 0)

/-- A − B at a width (R177). -/
def diffAt (signed sat : Bool) (w : Nat) (a b : BitVec w) : BitVec w × Flags :=
  if sat = false then (a - b, 0)
  else if signed then if a.ssubOverflow b then (if a.msb then BitVec.intMin w else BitVec.intMax w, flagOF) else (a - b, 0)
  else if a.usubOverflow b then (0, flagOF) else (a - b, 0)

/-- A × B + C at a width, from the exact sum (R178). -/
def prodAt (signed sat : Bool) (w : Nat) (a b c : BitVec w) : BitVec w × Flags :=
  let r := valAt signed a * valAt signed b + valAt signed c
  if sat = true ∧ r < (if signed then -(2 ^ (w - 1) : Int) else 0) then (if signed then BitVec.intMin w else 0, flagOF)
  else if sat = true ∧ (if signed then 2 ^ (w - 1) - 1 else 2 ^ w - 1 : Int) < r then (if signed then BitVec.intMax w else BitVec.allOnes w, flagOF)
  else (a * b + c, 0)

/-- The high word of the exact product (R178). -/
def highAt (signed : Bool) (a b : Word) : Word :=
  ((if signed then a.signExtend 64 * b.signExtend 64 else a.setWidth 64 * b.setWidth 64 : DWord) >>> 32).setWidth 32

/-- A word extended by a signedness (R178). -/
def extendAt (sg : Bool) (a : Word) : DWord := if sg then a.signExtend 64 else a.setWidth 64

/-- DIV at a width (R179). -/
def quotAt (signed : Bool) (w : Nat) (a b : BitVec w) : BitVec w × Flags :=
  if b = 0 then (BitVec.allOnes w, flagDZ)
  else if signed = true ∧ a = BitVec.intMin w ∧ b = BitVec.allOnes w then (BitVec.intMin w, flagOF)
  else (if signed then a.sdiv b else a / b, 0)

/-- REM at a width (R179). -/
def remAt (signed : Bool) (w : Nat) (a b : BitVec w) : BitVec w × Flags :=
  if b = 0 then (a, flagDZ) else (if signed then a.srem b else a % b, 0)

/-- MIN at a width (R180). -/
def minAt (signed : Bool) (w : Nat) (a b : BitVec w) : BitVec w × Flags := (if (if signed then a.sle b else a.ule b) then a else b, 0)

/-- MAX at a width (R180). -/
def maxAt (signed : Bool) (w : Nat) (a b : BitVec w) : BitVec w × Flags := (if (if signed then a.sle b else a.ule b) then b else a, 0)

/-- ABS at a width (R180). -/
def absAt (sat : Bool) (w : Nat) (a : BitVec w) : BitVec w × Flags :=
  if a = BitVec.intMin w then (if sat then (BitVec.intMax w, flagOF) else (BitVec.intMin w, 0)) else (if a.msb then -a else a, 0)

/-- NEG at a width (R180). -/
def negAt (sat : Bool) (w : Nat) (a : BitVec w) : BitVec w × Flags :=
  if a = BitVec.intMin w then (if sat then (BitVec.intMax w, flagOF) else (BitVec.intMin w, 0)) else (-a, 0)

/-- The length in a control word; above 32 it acts as 32 (R184). -/
def ctlLen (c : Word) : Nat := min (c.toNat / 256 % 256) 32

/-- The position in a control word (R184). -/
def ctlPos (c : Word) : Nat := c.toNat % 256

/-- The bits that BFE leaves (R184). -/
def bfeBit (signed : Bool) (a c : Word) (i : Nat) : Bool :=
  if i < ctlLen c then a.getLsbD (ctlPos c + i) else signed && 0 < ctlLen c && a.getLsbD (ctlPos c + (ctlLen c - 1))

/-- The bits that BFI leaves (R185). -/
def bfiBit (a b c : Word) (i : Nat) : Bool :=
  if ctlPos c ≤ i ∧ i < ctlPos c + ctlLen c then b.getLsbD (i - ctlPos c) else a.getLsbD i

/-- The byte that PERMB selects by a nibble (R186). -/
def permByte (a b : Word) (s : Nat) : BitVec 8 :=
  let x : BitVec 8 := (b ++ a : DWord).extractLsb' (8 * (s % 8)) 8
  if s < 8 then x else if x.msb then 0xFF else 0

/-- The new value of an atomic operation at a width, but for the FP32 sum (R313). -/
def atomAt (op : AtomOp) (w : Nat) (old b : BitVec w) : BitVec w :=
  match op with
  | .add => old + b
  | .minI => if old.sle b then old else b
  | .minN => if old.ule b then old else b
  | .maxI => if b.sle old then old else b
  | .maxN => if b.ule old then old else b
  | .and => old &&& b
  | .or => old ||| b
  | .xor => old ^^^ b
  | .swap => b
  | .inc => if b.ule old then 0 else old + 1
  | .dec => if old = 0 ∨ b.ult old then b else old - 1
  | .fadd => old

end Sys2Proof.Machine
end

