-- ==== Sys2Proof/Certificates/Slice0/Obligations.lean ====
section
/-!
DEFINITION. The statements for the provers: what step and decode do, what instructions write, what they leave alone, and where
each of them completes.
-/

open Sys2Proof Sys2Proof.Machine

/-- A step executes the instruction that the bytes at the program counter decode to. When the boot ROM has run, the clocks run,
nothing is due and a part x is chosen that waits in no instruction, its line is fetched at address a without a fault, its program
counter is valid, no poison lies on the header or the pattern's parcels, the line has KIND 0 and the START bits of one instruction of
n parcels there, and the 4n bytes decode to a well-formed i that is not a 25th instruction of its run: then step is exec of i in
the fetched state with the line header noted and i under way, and one cycle passes. A part that waits in an instruction executes
it again, and fetches nothing. The model's own choices in it: which part is chosen among those that may issue and that engine steps come
first (log 1), that one cycle passes per instruction (log 5), that the fetch reads its line as memory holds it then (log 14), and, of
poison in the pattern, what log 101 says. (R33, R34, R36, R37, R42, R56) -/
def Obligations.StepRunsDecoded : Prop :=
  (∀ (s : State) (r : PartRef) (x : Ctx) (i : Instr),
    s.boot ≠ .notBooted → s.frozen = false → s.agenda = [] → s.choose = some r → (s.chosen r).ctx? 0 = some x →
    x.v.part.waitsIn = some i → step s = afterCycle (exec i (s.chosen r))) ∧
  ∀ (s u : State) (r : PartRef) (x : Ctx) (a : Nat) (f : Fmt) (i : Instr),
    s.boot ≠ .notBooted → s.frozen = false → s.agenda = [] → s.choose = some r → (s.chosen r).ctx? 0 = some x → x.v.part.waitsIn = none →
    (s.chosen r).fetchLine x.c.core x.c.part x.c.gslot x.v.part.ring x.v.part.pc = (.ok a, u) → (s.chosen r).lost u x.r = false →
    (∀ l ∈ u.codeLines x.own a x.v.part.pc, u.poisoned l = false) → pcOk x.v.part.pc = true →
    let h : DWord := BitVec.ofNat 64 (leNat (u.bytesAs x.own a 8))
    let k := parcelOf x.v.part.pc
    let bs := u.bytesAs x.own (a + x.v.part.pc.toNat % 128) 12
    hdrKind h = 0 → fmtOf (leNat (bs.take 4)) = some f → k + f.parcels ≤ 30 → hdrStart h k = true →
    (∀ j, 0 < j → j < f.parcels → hdrStart h (k + j) = false) →
    decodeBytes (bs.take (4 * f.parcels)) = .ok i → i.WellFormed → (x.v.part.runpos < 24 ∨ u.newRun x i = true) →
    step s = afterCycle (exec i (u.modPart x.r fun p => { p with header := h, under := some (x.v.part.pc, i) }))

/-- Before an instruction of a part, the boot ROM runs and what is due takes place. Where the boot ROM has not run, a step is the
package reset. Else, where the clocks stand, a step is the first agenda entry that acts on a package whose clocks stand, and
nothing where there is none. Else a step is exec of the first entry of the agenda, which the entry leaves; with an empty agenda
and no part that may issue, a cycle passes. The agenda is the model's own order of the engines (log 1). (R597, R601, R134) -/
def Obligations.StepOrder : Prop :=
  ∀ (s : State),
    (s.boot = .notBooted → step s = exec .packageReset s) ∧
    (s.boot ≠ .notBooted → s.frozen = true →
      (∀ i, s.agenda.find? actsFrozen = some i → step s = exec i { s with agenda := s.agenda.erase i }) ∧
      ((∀ i ∈ s.agenda, actsFrozen i = false) → step s = .next s)) ∧
    (s.boot ≠ .notBooted → s.frozen = false →
      (∀ i t, s.agenda = i :: t → step s = exec i { s with agenda := t }) ∧
      (s.agenda = [] → s.choose = none → step s = .next s.passCycle))

/-- A pattern that fails a check of rows 3 and 5 to 10 of R56 faults before any effect. For a part that waits in no instruction,
whose line has been fetched without poison and whose counter is valid: if KIND is not 0, the length bits are 0b00, START is clear at
the parcel or set inside the instruction, the instruction overruns the line, or its bits do not decode or are not admissible at one
of the first 24 places of a run, the step raises cause 0x01 at the program counter. Where those on the line's header hold and the
instruction would be the 25th of its run: a taken branch to a target that is not valid, or whose line does not translate, raises
that check's cause at the target, in the lanes of ACT (row 4 comes before row 6); a branch that is not taken, one to a valid target,
any other instruction that does not begin a run of its own, and what does not decode or is not admissible, raises cause 0x04. Then
only a cycle passes. The model's own choices in it: that the counter is in TADDR is its reading of R353; that an instruction which
begins a run of its own is no 25th one, and that a reserved pattern at the 25th place raises 0x04 (log 41); that a taken CALL or
CALLX at that place whose target is not parcel 0 raises cause 0x03 whatever R40's checks of the target answer, since the spec does
not order the two (log 69); which part is chosen among those that may issue and that engine steps come first (log 1), that one cycle
passes (log 5), that the fetch reads its line as memory holds it then (log 14), and which lines of a fetch poison counts on (log
101). (R36, R40, R41, R56, R57, R353) -/
def Obligations.FetchRefuses : Prop :=
  ∀ (s u : State) (r : PartRef) (x : Ctx) (a : Nat),
    s.boot ≠ .notBooted → s.frozen = false → s.agenda = [] → s.choose = some r → (s.chosen r).ctx? 0 = some x → x.v.part.waitsIn = none →
    (s.chosen r).fetchLine x.c.core x.c.part x.c.gslot x.v.part.ring x.v.part.pc = (.ok a, u) → (s.chosen r).lost u x.r = false →
    (∀ l ∈ u.codeLines x.own a x.v.part.pc, u.poisoned l = false) → pcOk x.v.part.pc = true →
    let h : DWord := BitVec.ofNat 64 (leNat (u.bytesAs x.own a 8))
    let k := parcelOf x.v.part.pc
    let bs := u.bytesAs x.own (a + x.v.part.pc.toNat % 128) 12
    let spans := fun (f : Fmt) => k + f.parcels ≤ 30 ∧ hdrStart h k = true ∧ ∀ j, 0 < j → j < f.parcels → hdrStart h (k + j) = false
    (hdrKind h ≠ 0 ∨ fmtOf (leNat (bs.take 4)) = none ∨ (∃ f, fmtOf (leNat (bs.take 4)) = some f ∧ ¬ spans f) ∨
        (∃ f, fmtOf (leNat (bs.take 4)) = some f ∧ spans f ∧ x.v.part.runpos < 24 ∧
          ∀ i, decodeBytes (bs.take (4 * f.parcels)) = .ok i → ¬ i.WellFormed) →
      step s = .next (u.fetchFails x 1 x.v.part.pc false).passCycle) ∧
    (hdrKind h = 0 → 24 ≤ x.v.part.runpos → ∀ f, fmtOf (leNat (bs.take 4)) = some f → spans f →
      ((∀ i, decodeBytes (bs.take (4 * f.parcels)) = .ok i → i.WellFormed →
          u.newRun x i = false ∧ ∀ j, x.v.jump? i = some j → j.quads = 0) →
        step s = .next (u.fetchFails x 4 0 false).passCycle) ∧
      ∀ i j, decodeBytes (bs.take (4 * f.parcels)) = .ok i → i.WellFormed → u.newRun x i = false → x.v.jump? i = some j → j.quads ≠ 0 →
        (j.entry = true → j.target.toNat % 128 ≠ 8 → step s = .next (u.fetchFailsIn x j.lanes 3 j.target false).passCycle) ∧
        ((j.entry = true → j.target.toNat % 128 = 8) → ∀ w, u.lost w x.r = false →
          let check := u.checkTarget x.c.core x.c.part x.c.gslot x.v.part.ring j.target true j.indirect
          (∀ e, check = (.fault e, w) → step s = .next (w.fetchFailsIn x j.lanes e.code j.target e.s2).passCycle) ∧
          (∀ t, check = (.ok t, w) → step s = .next (w.fetchFails x 4 0 false).passCycle)))

/-- The words of the worked encodings decode to the instructions they stand for. 0x0080_0312, 0x1000_0A09 is (p3) add.i32 v8, v9,
v10; 0x0080_0013, 0x1000_F509, 0x0000_0064 is add.i32 v8, v9, 100; 0x2EA0_001A, 0x1300_0C0A is cmp.n64.lt p2, v10, v12;
0x1C90_0013, 0x1100_F508, 0xFFFF_FFF0 is add.n32.sat s9, v8, 0xFFFF_FFF0. A word with length bits 0b00 decodes to nothing, and
neither does the first word with PRED 0b1000. (02_encoding.md A worked encoding, 05_integer.md A worked fragment, R56) -/
def Obligations.WorkedEncodings : Prop :=
  let p := fun (n : Fin 8) => (⟨n, false⟩ : Pred)
  decodeBytes (parcelBytes [0x00800312, 0x10000A09]) = .ok (.addL (p 3) .i32 false (.v 8) (.v 9) (.v 10)) ∧
  decodeBytes (parcelBytes [0x00800013, 0x1000F509, 0x00000064]) = .ok (.addX (p 0) .i32 false (.v 8) (.v 9) .imm 100) ∧
  decodeBytes (parcelBytes [0x2EA0001A, 0x13000C0A]) = .ok (.cmpL (p 0) .n64 .lt .none (.p 2) (.v 10) (.v 12)) ∧
  decodeBytes (parcelBytes [0x1C900013, 0x1100F508, 0xFFFFFFF0]) = .ok (.addX (p 0) .n32 true (.s 9) (.v 8) .imm 0xFFFFFFF0) ∧
  decodeBytes (parcelBytes [0x00800310, 0x10000A09]) = .error .badLength ∧
  decodeBytes (parcelBytes [0x00800812, 0x10000A09]) = .error .reservedPred

/-- Decoding the encoding of a well-formed instruction gives it back, and what decodes is an encoding. For every well-formed
instruction that has an encoding, decoding the bytes of its parcels gives that instruction, with every operand, type, option and
immediate. Conversely, whatever 12 bytes decode to an instruction, its parcels are the first of them, bit by bit: no two
patterns decode to one instruction, and no unused field is anything but zero. (R32, R35, R44, R47, R49, R53) -/
def Obligations.DecodeOfEncode : Prop :=
  (∀ i : Instr, i.WellFormed → encode i ≠ [] → decodeBytes (parcelBytes (encode i)) = .ok i) ∧
  (∀ (bs : List Byte) (i : Instr), bs.length = 12 → decodeBytes bs = .ok i → encode i ≠ [] ∧ bs.take (4 * (encode i).length) = parcelBytes (encode i))

/-- After reset the traps have no entry, every port is disabled, nothing runs, and storage is canonical. State.reset has its memory
and sidebands in canonical form with nothing listed, which the model's choice of what an unlisted byte or line reads as makes reset
contents (log 3); no cohort, partition or claim; no step due, no store, command, monitor, walk or request; no operation of the copy and
matrix engines; no graph, queue, push, summary, launch or decision; no job, move, halt, loan or pin; all sixteen ports disabled (STATE
resets to 0, R530), with nothing in them, and no mirror, grant or request held for them; both package-level TVEC registers 0, so that
rings H and M accept no trap (R349); the boot ROM has not run (R597), so that the next step is the package reset. Registers without a
stated reset value are the model's choice (log 4), and nothing here rests on them. (R349, R530, R597) -/
def Obligations.ResetState : Prop :=
  State.reset.canonical ∧ State.reset.mem = [] ∧ State.reset.sides = [] ∧ State.reset.cohorts = [] ∧ State.reset.parts = [] ∧ State.reset.claims = [] ∧
  State.reset.agenda = [] ∧ State.reset.stores = [] ∧ State.reset.cmds = [] ∧ State.reset.monitors = [] ∧ State.reset.walks = [] ∧ State.reset.reqs = [] ∧
  State.reset.copy.ops = [] ∧ State.reset.matrix.ops = [] ∧ State.reset.matrix.kept = [] ∧
  (let g := State.reset.stage
   g.graphs = [] ∧ g.queues = [] ∧ g.pushes = [] ∧ g.sums = [] ∧ g.launches = [] ∧ g.again = []) ∧
  (let t := State.reset.tier
   t.jobs = [] ∧ t.moves = [] ∧ t.halts = [] ∧ t.lends = [] ∧ t.pins = []) ∧
  (let f := State.reset.fabric
   f.mirrors = [] ∧ f.grants = [] ∧ f.ingress = []) ∧
  (∀ p ∈ State.reset.fabric.ports, p.egress = [] ∧ p.held = [] ∧ p.gathered = [] ∧ p.waiting = []) ∧
  State.reset.pkg.setH.tvec = 0 ∧ State.reset.pkg.setM.tvec = 0 ∧ State.reset.fabric.ports.length = 16 ∧
  (∀ p ∈ State.reset.fabric.ports, p.state = .disabled) ∧ State.reset.frozen = false ∧ State.reset.boot = .notBooted ∧
  step State.reset = exec .packageReset State.reset

/-- Bytes written are read back in order, no other byte changes, and memories that read alike are equal. For a memory in canonical
form: reading the n bytes that were just written gives them, every address outside them reads as before, and the result is
canonical; two canonical memories that read alike at every address are equal data, and so are two canonical lists of sidebands.
A number spelled in n little-endian bytes (R5) is read back modulo 256^n. What an unlisted byte reads as is the model's choice
(log 3), on which nothing here rests. (R5, R75, R206) -/
def Obligations.MemoryLaws : Prop :=
  (∀ (m : Memory) (a : Nat) (bs : List Byte), m.wf = true →
      (m.writeBytes a bs).wf = true ∧ (m.writeBytes a bs).readBytes a bs.length = bs ∧
      ∀ b, (b < a ∨ a + bs.length ≤ b) → (m.writeBytes a bs).read b = m.read b) ∧
  (∀ m n : Memory, m.wf = true → n.wf = true → (∀ a, m.read a = n.read a) → m = n) ∧
  (∀ m n : Sides, m.wf = true → n.wf = true → (∀ l, m.read l = n.read l) → m = n) ∧
  (∀ (m : Sides) (l k : Nat) (x : Side), m.wf = true → (m.write l x).wf = true ∧ (m.write l x).read k = if k = l then x else m.read k) ∧
  (∀ n x : Nat, leNat (natLe n x) = x % 256 ^ n)

/-- Every step keeps memory and sidebands in their canonical forms. For every state whose memory and sidebands are in canonical form
(addresses strictly rising, no entry equal to what an unlisted address reads as), if step answers a next state, that state's are
too, whatever instruction of a part or step of an engine it was. (R75, R206) -/
def Obligations.CanonicalKept : Prop :=
  ∀ s s' : State, s.canonical → step s = .next s' → s'.canonical

/-- A register outside the window, too low a ring or an unwritten temporary faults, in that order. Whenever an instruction form
issues for a part that does not stand still and has a run: a v register it names that is outside the window and not banked raises
cause 0x01 with TADDR its counter; else a ring below its lowest raises 0x02; else a temporary that is read unwritten in a lane of
ACT raises 0x05 with the lanes and the register number in TINFO; in a run that logs, the fault is raised with the start of the run
to resume at. That of several unwritten temporaries the first in source order is reported, with its own lanes, is the model's choice
(log 103). The ring check is stated of every form that R54 lists with a lowest ring above U. (R51, R52, R54, R56, R57) -/
def Obligations.IssueChecks : Prop :=
  (∀ f imm sem s x, s.frozen = false → s.ctx? imm = some x → x.v.part.still = false → x.noRun = false →
    let y := (s.openRun x).2
    let no := fun code lanes addr info => issue f imm sem s = .next ((s.openRun x).1.faultPlain y f (runposOf s x) code lanes addr info false)
    (∀ n k j, (Opnd.v n, k) ∈ f.uses → j < k → bankedV x.v.part.ring (n.val + j) = false →
      (if x.v.part.ring = .U then 4 * x.v.gang.units else min (4 * x.v.gang.units) 176) ≤ n.val + j → no 1 x.v.part.exec x.v.part.pc 0) ∧
    (f.uses.all (windowOk x.v.gang.units x.v.part.ring) = true → f.dyn.ok x.v.part.ring x.v.gang.units = true →
      (x.v.part.ring.num < f.ring → no 2 x.v.part.exec 0 0) ∧
      (f.ring ≤ x.v.part.ring.num → ∀ n m, y.v.part.tempFault (y.v.part.act f.pred) f.temps = some (n, m) → no 5 m 0 (BitVec.ofNat 32 n)))) ∧
  (∀ (p : Part) act (n : Fin 8) l, p.tempFault act [] = none ∧
    p.tempFault act ((Opnd.x n, 1) :: l) = (if act &&& ~~~(vget p.xw n.val 0) = 0 then p.tempFault act l else some (n.val, act &&& ~~~(vget p.xw n.val 0))) ∧
    (∀ o k, (∀ m, o ≠ Opnd.x m) → p.tempFault act ((o, k) :: l) = p.tempFault act l)) ∧
  (∀ (s : State) x f pos code lanes addr info s2, (x.v.part.curRun?.map (·.noLog)).getD false = false →
    s.faultPlain x f pos code lanes addr info s2 =
      s.raise x.r ⟨code, lanes, addr, info, s2, x.v.part.pc, pos, nextPc x.v.part.header x.v.part.pc f.len, .runStart⟩) ∧
  (∀ (a : Opnd), Denied (.hcallL a) ⟨⟨0, false⟩, 2, 1, [], [], .irrevocable, .none⟩ 0) ∧
  (∀ (a : Opnd) (imm : Word), Denied (.hcallX a imm) ⟨⟨0, false⟩, 3, 1, [], [], .irrevocable, .none⟩ imm) ∧
  (∀ (a : Opnd), Denied (.mcallL a) ⟨⟨0, false⟩, 2, 1, [], [], .irrevocable, .none⟩ 0) ∧
  (∀ (a : Opnd) (imm : Word), Denied (.mcallX a imm) ⟨⟨0, false⟩, 3, 1, [], [], .irrevocable, .none⟩ imm) ∧
  (Denied .tret ⟨⟨0, false⟩, 2, 1, [], [], .alone, .none⟩ 0) ∧
  (Denied .tretPark ⟨⟨0, false⟩, 2, 1, [], [], .alone, .none⟩ 0) ∧
  (∀ (d a : Opnd), Denied (.gresumeL d a) ⟨⟨0, false⟩, 2, 1, [(d, 1)], [], .alone, .none⟩ 0) ∧
  (∀ (d a : Opnd) (imm : Word), Denied (.gresumeX d a imm) ⟨⟨0, false⟩, 3, 1, [(d, 1)], [], .alone, .none⟩ imm) ∧
  (∀ (drop : Bool) (d a : Opnd), Denied (.gkillL drop d a) ⟨⟨0, false⟩, 2, 1, [(d, 1)], [], .alone, .none⟩ 0) ∧
  (∀ (drop : Bool) (d a : Opnd) (imm : Word), Denied (.gkillX drop d a imm) ⟨⟨0, false⟩, 3, 1, [(d, 1)], [], .alone, .none⟩ imm) ∧
  (∀ (scope : TlbiScope) (s2 : Bool) (a b : Opnd), Denied (.tlbi scope s2 a b) ⟨⟨0, false⟩, 2, (if s2 then 2 else 1), [], [], .alone, .none⟩ 0) ∧
  (Denied .tlbsync ⟨⟨0, false⟩, 2, 1, [], [], .alone, .none⟩ 0) ∧
  (∀ (p : Pred) (d a b c : Opnd), Denied (.qctlSetq p d a b c) ⟨p, 2, 1, [(d, 1)], [], .alone, .none⟩ 0) ∧
  (∀ (p : Pred) (d a b c : Opnd), Denied (.qctlSets p d a b c) ⟨p, 2, 1, [(d, 1)], [], .alone, .none⟩ 0) ∧
  (∀ (p : Pred) (d a b c : Opnd), Denied (.qctlBind p d a b c) ⟨p, 2, 1, [(d, 1)], [], .alone, .none⟩ 0) ∧
  (∀ (p : Pred) (d a b c : Opnd), Denied (.qctlUnbind p d a b c) ⟨p, 2, 1, [(d, 1)], [], .alone, .none⟩ 0) ∧
  (∀ (p : Pred) (d a b c : Opnd), Denied (.qctlStat p d a b c) ⟨p, 2, 1, [(d, 1)], [], .alone, .none⟩ 0) ∧
  (∀ (p : Pred) (d a b c : Opnd), Denied (.qctlStop p d a b c) ⟨p, 2, 1, [(d, 1)], [], .alone, .none⟩ 0) ∧
  (∀ (p : Pred) (d a b c : Opnd), Denied (.qctlStart p d a b c) ⟨p, 2, 1, [(d, 1)], [], .alone, .none⟩ 0) ∧
  (∀ (p : Pred) (d a b c : Opnd), Denied (.qctlClear p d a b c) ⟨p, 2, 1, [(d, 1)], [], .alone, .none⟩ 0) ∧
  (∀ (p : Pred) (up : Bool) (d a b : Opnd), Denied (.tswap p up d a b) ⟨p, 2, 1, [(d, 1)], [], .irrevocable, .none⟩ 0) ∧
  (∀ (p : Pred) (d a b : Opnd), Denied (.twrecWs p d a b) ⟨p, 2, 1, [(d, 1)], [], .irrevocable, .none⟩ 0) ∧
  (∀ (p : Pred) (d a b : Opnd), Denied (.twrecDeclare p d a b) ⟨p, 2, 1, [(d, 1)], [], .irrevocable, .none⟩ 0) ∧
  (∀ (p : Pred) (d a b : Opnd), Denied (.twrecUndeclare p d a b) ⟨p, 2, 1, [(d, 1)], [], .irrevocable, .none⟩ 0) ∧
  (∀ (p : Pred) (d a b : Opnd), Denied (.twrecDirty p d a b) ⟨p, 2, 1, [(d, 1)], [], .irrevocable, .none⟩ 0) ∧
  (∀ (p : Pred) (d a b : Opnd), Denied (.haltc p d a b) ⟨p, 2, 1, [(d, 1)], [], .irrevocable, .none⟩ 0) ∧
  (∀ (p : Pred) (d a b : Opnd), Denied (.haltcStop p d a b) ⟨p, 2, 1, [(d, 1)], [], .irrevocable, .none⟩ 0) ∧
  (∀ (p : Pred) (d b : Opnd), Denied (.resumec p d b) ⟨p, 2, 1, [(d, 1)], [], .irrevocable, .none⟩ 0) ∧
  (∀ (fld : Fin 5) (rd : Bool) (d a b c : Opnd), Denied (.ftok fld rd d a b c) ⟨⟨0, false⟩, 2, 2, [(d, 1)], [], .irrevocable, .none⟩ 0) ∧
  (∀ (d a b c : Opnd), Denied (.flinkPort d a b c) ⟨⟨0, false⟩, 2, 2, [(d, 1)], [], .irrevocable, .none⟩ 0) ∧
  (∀ (d a b c : Opnd), Denied (.flinkRoute d a b c) ⟨⟨0, false⟩, 2, 2, [(d, 1)], [], .irrevocable, .none⟩ 0) ∧
  (∀ (d a b c : Opnd), Denied (.flinkKey d a b c) ⟨⟨0, false⟩, 2, 2, [(d, 1)], [], .irrevocable, .none⟩ 0) ∧
  (∀ (d a b c : Opnd), Denied (.flinkMirror d a b c) ⟨⟨0, false⟩, 2, 2, [(d, 1)], [], .irrevocable, .none⟩ 0) ∧
  (∀ (d a b c : Opnd), Denied (.flinkUnmirror d a b c) ⟨⟨0, false⟩, 2, 2, [(d, 1)], [], .irrevocable, .none⟩ 0) ∧
  (∀ (d a b c : Opnd), Denied (.flinkGrant d a b c) ⟨⟨0, false⟩, 2, 2, [(d, 1)], [], .irrevocable, .none⟩ 0) ∧
  (∀ (d a b c : Opnd), Denied (.flinkRevoke d a b c) ⟨⟨0, false⟩, 2, 2, [(d, 1)], [], .irrevocable, .none⟩ 0) ∧
  (∀ (d a b c : Opnd), Denied (.flinkSetid d a b c) ⟨⟨0, false⟩, 2, 2, [(d, 1)], [], .irrevocable, .none⟩ 0) ∧
  (∀ (p : Pred) (num : Fin 1024) (d : Opnd), Denied (.mfsr p num d) ⟨p, 2, (num.val / 256), [(d, 1)], [], .plain, .none⟩ 0) ∧
  (∀ (p : Pred) (num : Fin 1024) (a : Opnd), Denied (.mtsrL p num a) ⟨p, 2, (num.val / 256), [], [], .irrevocable, .none⟩ 0) ∧
  (∀ (p : Pred) (num : Fin 1024) (a : Opnd) (imm : Word), Denied (.mtsrX p num a imm) ⟨p, 3, (num.val / 256), [], [], .irrevocable, .none⟩ imm)

/-- Sequential flow and direct branch targets are computed as the encoding rules say. After an instruction of n parcels at a valid
counter in parcel k, flow goes to parcel k + n of the same line when k + n is at most 29 and its START bit is set, otherwise to
parcel 0 of the next line. A direct target is the branch line plus 128 times the signed 27-bit line delta plus 8 plus 4 times
the parcel index, computed modulo 2^64. BRA, BRC and LOOP with parcel index 30 or 31, and CALL with any parcel but 0, are not
well-formed. (R34, R37, R39, R41) -/
def Obligations.BranchTargets : Prop :=
  (∀ (hd pc : DWord) n, pcOk pc = true →
    pc.toNat = (pc &&& ~~~127#64).toNat + 8 + 4 * parcelOf pc ∧ parcelOf pc ≤ 29 ∧
    (parcelOf pc + n ≤ 29 → hd.getLsbD (parcelOf pc + n) = true → nextPc hd pc n = (pc &&& ~~~127#64) + 8 + 4 * BitVec.ofNat 64 (parcelOf pc + n)) ∧
    (¬ (parcelOf pc + n ≤ 29 ∧ hd.getLsbD (parcelOf pc + n) = true) → nextPc hd pc n = (pc &&& ~~~127#64) + 128 + 8)) ∧
  (∀ (pc : DWord) (imm : Word), directTarget pc imm =
    (pc &&& ~~~127#64) + 128 * (imm.extractLsb' 5 27).signExtend 64 + 8 + 4 * (imm.extractLsb' 0 5).setWidth 64) ∧
  (∀ p (imm : Word), 30 ≤ imm.toNat % 32 → ¬ (Instr.bra p imm).WellFormed) ∧
  (∀ p a x y (imm : Word), 30 ≤ imm.toNat % 32 → ¬ (Instr.brc p a x y imm).WellFormed) ∧
  (∀ p d (imm : Word), imm.toNat % 32 ≠ 0 → ¬ (Instr.call p d imm).WellFormed) ∧
  (∀ d (imm : Word), 30 ≤ imm.toNat % 32 → ¬ (Instr.loop d imm).WellFormed)

/-- Where a trap is taken: its natural ring, or by escalation the lowest enabled ring above. For a part at ring cur and a trap with
natural ring nat: when nat is above cur and its vector is enabled, the target is nat, not by escalation. Otherwise the target is
r exactly when r is above both, its vector is enabled and no lower ring above both has its vector enabled, always by escalation;
there is none exactly when no ring above both is enabled. Whatever the target, it is above the current ring. By escalation the
entry is parcel 0 of the line behind the vector line, otherwise parcel 0 of the vector line. (R339, R349) -/
def Obligations.TrapTarget : Prop :=
  ∀ (s : State) (part : Nat) (cur nat : Ring),
    (cur.num < nat.num ∧ s.accepts part nat = true → s.trapTarget part cur nat = some (nat, false)) ∧
    (¬ (cur.num < nat.num ∧ s.accepts part nat = true) →
      (∀ r d, s.trapTarget part cur nat = some (r, d) ↔ d = true ∧ cur.num < r.num ∧ nat.num < r.num ∧ s.accepts part r = true ∧
        ∀ q, cur.num < q.num → nat.num < q.num → s.accepts part q = true → r.num ≤ q.num) ∧
      (s.trapTarget part cur nat = none ↔ ∀ q, cur.num < q.num → nat.num < q.num → s.accepts part q = false)) ∧
    (∀ r d, s.trapTarget part cur nat = some (r, d) → cur.num < r.num) ∧
    (∀ r, (s.entryPc part r false).toNat = (s.tvec part r).toNat / 128 * 128 + 8 ∧
      s.entryPc part r true = s.entryPc part r false + 128)

/-- What taking a trap saves, where it goes and what it leaves alone. For a part of a gang whose trap has a target ring, whose entry
line passes the checks of a target without changing its gang: after taking the trap, the frame of its lowest quad in the bank of
the target ring is open and holds cause, information, address, fault counter, EXEC, trapping lanes, status, AFLAGS, predicates
and the resume counter of each of its quads (0 for the others); the part is at the target ring with EXEC the trapping lanes,
AFLAGS 0, no drag mode, no rollback count, no run and no written temporary, at the entry, and it keeps its quads, s registers
and predicates; the gang keeps its v registers, counters, FPMODE, AENABLE and window. (R339, R349, R350, R351, R355) -/
def Obligations.TrapEntry : Prop :=
  ∀ (s0 s : State) (r : PartRef) (t : Trap) (resume : DWord) (n : Nat) c g p ring dbl h k,
    s.cohort? r.cohort = some c → c.gang? r.gang = some g → g.partOf? r.quad = some p →
    s.trapTarget c.part p.ring (naturalRing t.code t.s2) = some (ring, dbl) →
    (s.entered r p t ring dbl resume (s.entryPc c.part ring dbl)).checkTarget c.core c.part c.gslot ring (s.entryPc c.part ring dbl) true true = (.ok h, k) →
    k.gang? r.cohort r.gang = (s.entered r p t ring dbl resume (s.entryPc c.part ring dbl)).gang? r.cohort r.gang →
    ∃ u g' p', s0.enterTrap s r t resume (n + 1) = some u ∧ u.gang? r.cohort r.gang = some g' ∧ g'.partOf? r.quad = some p' ∧
      p'.ring = ring ∧ p'.exec = t.lanes ∧ p'.aflags = 0 ∧ p'.drag = false ∧ p'.rbCount = 0 ∧ p'.runs = [] ∧ (∀ i, vget p'.xw i 0 = 0) ∧
      p'.pc = s.entryPc c.part ring dbl ∧ p'.header = h ∧ p'.quads = p.quads ∧ p'.s = p.s ∧ p'.p = p.p ∧ p'.id = p.id ∧
      g'.v = g.v ∧ g'.counters = g.counters ∧ g'.fpmode = g.fpmode ∧ g'.aenable = g.aenable ∧ g'.units = g.units ∧
      (∀ q, q ≠ ring → q ≠ .U → g'.bank q = g.bank q) ∧ (g'.bank ring).v = (g.bank ring).v ∧ (g'.bank ring).s = (g.bank ring).s ∧
      (∀ i, i ≠ lowQuad p.quads → (g'.bank ring).frame i = (g.bank ring).frame i) ∧
      let f := (g'.bank ring).frame (lowQuad p.quads)
      f.isOpen = true ∧
      (t.code < 256 → t.runpos < 32 → f.cause = 0#10 ++ BitVec.ofNat 5 t.runpos ++ BitVec.ofNat 5 (if pcOk t.fpc then parcelOf t.fpc else 0) ++
        BitVec.ofBool t.s2 ++ BitVec.ofBool dbl ++ BitVec.ofNat 2 p.ring.num ++ BitVec.ofNat 8 t.code) ∧
      f.info = t.info ∧ f.addr = t.addr ∧ f.fpc = t.fpc ∧ f.exec = p.exec ∧ f.mask = t.lanes ∧ f.afl = p.aflags.setWidth 32 ∧
      f.stat = 0#23 ++ BitVec.ofBool p.drag ++ p.quads ∧ (∀ i, 1 ≤ i → i < 8 → vget f.preds i 0 = vget p.p i 0) ∧
      (∀ q, q < 8 → vget f.epc q 0 = if p.quads.getLsbD q then resume else 0)

/-- MTSR writes the register that it names and no other. Whenever an MTSR (L or X form) to a configuration register of ring H or M,
or of ring S for a cohort that has a partition, is ready, acts and fits: exec answers a next state in which it has been written
(SetWritten: TVECL keeps its reserved bits, EQTAIL its value), every other register of the set reads as before, and the other sets,
memory and the store buffer are unchanged. And the effect that MTSR completes with (State.srSet, CompletesSys): a writable user
register reads what was written but for its reserved bits, the other user registers as before; a frame register is written in the
frame that R344 names and in no other, and reads what was written but for reserved bits and TEPC words outside the frame's QMASK; a
register of plainRegs of the part's partition, or ASID, reads what was written, and every other one of 0x180 to 0x1C0 as before.
That EQBASE, EQCAP and any other register with an alignment or a range also read what was written where a value breaks it is the
model's choice (log 93). (R344, R345, R347, R348, R349, R350, R351, R367, R212, R548) -/
def Obligations.SpecialRegisters : Prop :=
  (∀ (p : Pred) (num : Fin 1024) (a : Opnd), WritesSet (.mtsrL p num a) ⟨p, 2, num.val / 256, [], [], .irrevocable, .none⟩ 0 p num.val a ∧
    WritesPartSet (.mtsrL p num a) ⟨p, 2, num.val / 256, [], [], .irrevocable, .none⟩ 0 p num.val a) ∧
  (∀ (p : Pred) (num : Fin 1024) (a : Opnd) (imm : Word),
    WritesSet (.mtsrX p num a imm) ⟨p, 3, num.val / 256, [], [], .irrevocable, .none⟩ imm p num.val a ∧
    WritesPartSet (.mtsrX p num a imm) ⟨p, 3, num.val / 256, [], [], .irrevocable, .none⟩ imm p num.val a) ∧
  (∀ (t : State) y imm n w, t.ctx? imm = some y → n ∈ userRegs →
    let u := t.srSet y n w
    StorageKept t u ∧ u.parts = t.parts ∧ u.srGet (u.fresh y) n = userAfter (t.srGet y n) n w ∧
    ∀ k, k < 14 → k ≠ n → u.srGet (u.fresh y) k = t.srGet y k) ∧
  (∀ (t : State) y imm r o w, t.ctx? imm = some y → r ≠ .U → frameReg o →
    let u := t.srSet y (256 * r.num + o) w
    let g := (u.fresh y).v.gang
    let b := y.v.gang.bank r
    let i := b.slotOf (lowQuad y.v.part.quads)
    StorageKept t u ∧ u.parts = t.parts ∧ (g.bank r).frame i = (b.frame i).set o w ∧ (∀ j, j ≠ i → (g.bank r).frame j = b.frame j) ∧
    ∀ q, q ≠ r → q ≠ .U → g.bank q = y.v.gang.bank q) ∧
  (∀ (f : Frame) o w, frameReg o → (f.set o w).get o = frameAfter f o w ∧
    ∀ k, frameReg k → k ≠ o → (o = 0x28 → k < 0x40) → (f.set o w).get k = f.get k) ∧
  (∀ (t : State) (y : Ctx) o w d, t.partition? y.c.part = some d → d.asidsel < 16 → o = 0x83 ∨ o ∈ plainRegs →
    let u := t.srSet y (0x100 + o) w
    StorageKept t u ∧ (∀ k, k ≠ y.c.part → u.partition? k = t.partition? k) ∧
    u.srGet y (0x100 + o) = (if o = 0x83 then w &&& 0xFFFF else w) ∧
    ∀ k, 0x80 ≤ k → k ≤ 0xC0 → k ≠ o → u.srGet y (0x100 + k) = t.srGet y (0x100 + k))

/-- ADD, SUB, ADD64 and SUB64 write Fit(A + B) and Fit(A − B). Whenever an ADD, SUB, ADD64 or SUB64 (L or X form) is ready and its
entries fit, exec answers the next state in which each lane that computes has A + B or A − B as bit vectors of the type width:
wrapped and without a flag when .sat is not given; with .sat clamped to the range of the type, with OF, exactly where the sum or
difference overflows. The destination and AFLAGS change as R169 to R173 say (LaneResult). (R177) -/
def Obligations.SumsAndDifferences : Prop :=
  (∀ (p : Pred) (t : TypeCode) (sat : Bool) (d a b : Opnd), Gives (.addL p t sat d a b) ⟨p, 2, 0, [(d, 1), (a, 1), (b, 1)], [(a, 1), (b, 1)], .plain, .none⟩ 0
      (LaneGives p t.wide d [a, b] fun v l => atType t (sumAt t.signed sat) (v.rdT t a l) (v.rdT t b l))) ∧
  (∀ (p : Pred) (t : TypeCode) (sat : Bool) (d a b : Opnd) (imm : Word), Gives (.addX p t sat d a b imm) ⟨p, 3, 0, [(d, 1), (a, 1), (b, 1)], [(a, 1), (b, 1)], .plain, .none⟩ imm
      (LaneGives p t.wide d [a, b] fun v l => atType t (sumAt t.signed sat) (v.rdT t a l) (v.rdT t b l))) ∧
  (∀ (p : Pred) (t : TypeCode) (sat : Bool) (d a b : Opnd), Gives (.subL p t sat d a b) ⟨p, 2, 0, [(d, 1), (a, 1), (b, 1)], [(a, 1), (b, 1)], .plain, .none⟩ 0
      (LaneGives p t.wide d [a, b] fun v l => atType t (diffAt t.signed sat) (v.rdT t a l) (v.rdT t b l))) ∧
  (∀ (p : Pred) (t : TypeCode) (sat : Bool) (d a b : Opnd) (imm : Word), Gives (.subX p t sat d a b imm) ⟨p, 3, 0, [(d, 1), (a, 1), (b, 1)], [(a, 1), (b, 1)], .plain, .none⟩ imm
      (LaneGives p t.wide d [a, b] fun v l => atType t (diffAt t.signed sat) (v.rdT t a l) (v.rdT t b l))) ∧
  (∀ (p : Pred) (t : TypeCode) (sat : Bool) (d a b : Opnd), Gives (.add64L p t sat d a b) ⟨p, 2, 0, [(d, 2), (a, 2), (b, 2)], [(a, 2), (b, 2)], .plain, .none⟩ 0
      (LaneGives p t.wide d [a, b] fun v l => atType t (sumAt t.signed sat) (v.rdT t a l) (v.rdT t b l))) ∧
  (∀ (p : Pred) (t : TypeCode) (sat : Bool) (d a b : Opnd) (imm : Word), Gives (.add64X p t sat d a b imm) ⟨p, 3, 0, [(d, 2), (a, 2), (b, 2)], [(a, 2), (b, 2)], .plain, .none⟩ imm
      (LaneGives p t.wide d [a, b] fun v l => atType t (sumAt t.signed sat) (v.rdT t a l) (v.rdT t b l))) ∧
  (∀ (p : Pred) (t : TypeCode) (sat : Bool) (d a b : Opnd), Gives (.sub64L p t sat d a b) ⟨p, 2, 0, [(d, 2), (a, 2), (b, 2)], [(a, 2), (b, 2)], .plain, .none⟩ 0
      (LaneGives p t.wide d [a, b] fun v l => atType t (diffAt t.signed sat) (v.rdT t a l) (v.rdT t b l))) ∧
  (∀ (p : Pred) (t : TypeCode) (sat : Bool) (d a b : Opnd) (imm : Word), Gives (.sub64X p t sat d a b imm) ⟨p, 3, 0, [(d, 2), (a, 2), (b, 2)], [(a, 2), (b, 2)], .plain, .none⟩ imm
      (LaneGives p t.wide d [a, b] fun v l => atType t (diffAt t.signed sat) (v.rdT t a l) (v.rdT t b l)))

/-- MUL, MULHI, MAD and MADW write Fit of the exact product and sum. Whenever a MUL, MULHI, MAD or MADW (L or X form) is ready and
its entries fit, exec answers the next state in which each lane that computes has the result R178 gives: A × B or A × B + C as
bit vectors without .sat; with .sat the exact value clamped to the range of the type, with OF where it lies outside; for MULHI
the high word of the 64-bit product of the extended operands; for MADW the same at 64 bits. (R178) -/
def Obligations.Products : Prop :=
  (∀ (p : Pred) (t : TypeCode) (sat : Bool) (d a b : Opnd), Gives (.mulL p t sat d a b) ⟨p, 2, 0, [(d, 1), (a, 1), (b, 1)], [(a, 1), (b, 1)], .plain, .none⟩ 0
      (LaneGives p t.wide d [a, b] fun v l => atType t (fun w x y => prodAt t.signed sat w x y 0) (v.rdT t a l) (v.rdT t b l))) ∧
  (∀ (p : Pred) (t : TypeCode) (sat : Bool) (d a b : Opnd) (imm : Word), Gives (.mulX p t sat d a b imm) ⟨p, 3, 0, [(d, 1), (a, 1), (b, 1)], [(a, 1), (b, 1)], .plain, .none⟩ imm
      (LaneGives p t.wide d [a, b] fun v l => atType t (fun w x y => prodAt t.signed sat w x y 0) (v.rdT t a l) (v.rdT t b l))) ∧
  (∀ (p : Pred) (t : TypeCode) (sat : Bool) (d a b c : Opnd), Gives (.madL p t sat d a b c) ⟨p, 2, 0, [(d, 1), (a, 1), (b, 1), (c, 1)], [(a, 1), (b, 1), (c, 1)], .plain, .none⟩ 0
      (LaneGives p t.wide d [a, b, c] fun v l => atType3 t (prodAt t.signed sat) (v.rdT t a l) (v.rdT t b l) (v.rdT t c l))) ∧
  (∀ (p : Pred) (t : TypeCode) (sat : Bool) (d a b c : Opnd) (imm : Word), Gives (.madX p t sat d a b c imm) ⟨p, 3, 0, [(d, 1), (a, 1), (b, 1), (c, 1)], [(a, 1), (b, 1), (c, 1)], .plain, .none⟩ imm
      (LaneGives p t.wide d [a, b, c] fun v l => atType3 t (prodAt t.signed sat) (v.rdT t a l) (v.rdT t b l) (v.rdT t c l))) ∧
  (∀ (p : Pred) (t : TypeCode) (d a b : Opnd), (t = .i32 ∨ t = .n32) → Gives (.mulhiL p t d a b) ⟨p, 2, 0, [(d, 1), (a, 1), (b, 1)], [(a, 1), (b, 1)], .plain, .none⟩ 0
      (LaneGives p false d [a, b] fun v l => ((highAt t.signed (v.rdT t a l).lo (v.rdT t b l).lo).setWidth 64, 0))) ∧
  (∀ (p : Pred) (t : TypeCode) (d a b : Opnd) (imm : Word), (t = .i32 ∨ t = .n32) → Gives (.mulhiX p t d a b imm) ⟨p, 3, 0, [(d, 1), (a, 1), (b, 1)], [(a, 1), (b, 1)], .plain, .none⟩ imm
      (LaneGives p false d [a, b] fun v l => ((highAt t.signed (v.rdT t a l).lo (v.rdT t b l).lo).setWidth 64, 0))) ∧
  (∀ (p : Pred) (t : TypeCode) (sat : Bool) (d a b c : Opnd), (t = .i32 ∨ t = .n32) → Gives (.madwL p t sat d a b c) ⟨p, 2, 0, [(d, 2), (a, 1), (b, 1), (c, 2)], [(a, 1), (b, 1), (c, 2)], .plain, .none⟩ 0
      (LaneGives p true d [a, b, c] fun v l => prodAt t.signed sat 64 (extendAt t.signed (v.rdT t a l).lo) (extendAt t.signed (v.rdT t b l).lo) (v.rdT t.widen c l))) ∧
  (∀ (p : Pred) (t : TypeCode) (sat : Bool) (d a b c : Opnd) (imm : Word), (t = .i32 ∨ t = .n32) → Gives (.madwX p t sat d a b c imm) ⟨p, 3, 0, [(d, 2), (a, 1), (b, 1), (c, 2)], [(a, 1), (b, 1), (c, 2)], .plain, .none⟩ imm
      (LaneGives p true d [a, b, c] fun v l => prodAt t.signed sat 64 (extendAt t.signed (v.rdT t a l).lo) (extendAt t.signed (v.rdT t b l).lo) (v.rdT t.widen c l)))

/-- DIV rounds toward zero, REM takes the sign of the dividend, and both corners are as R179 gives them. Whenever a DIV or REM (L or
X form) is ready and its entries fit, exec answers the next state in which each lane that computes has: for a divisor of zero
all ones or A, with DZ; for Lo(T) by −1 of a signed type Lo(T) with OF on DIV and 0 on REM; otherwise the quotient toward zero
or the remainder with the sign of the dividend, and no flag. Lanes outside ACT compute nothing. (R179) -/
def Obligations.Divisions : Prop :=
  (∀ (p : Pred) (t : TypeCode) (d a b : Opnd), Gives (.divL p t d a b) ⟨p, 2, 0, [(d, t.regs), (a, t.regs), (b, t.regs)], [(a, t.regs), (b, t.regs)], .plain, .none⟩ 0
      (LaneGives p t.wide d [a, b] fun v l => atType t (quotAt t.signed) (v.rdT t a l) (v.rdT t b l))) ∧
  (∀ (p : Pred) (t : TypeCode) (d a b : Opnd) (imm : Word), Gives (.divX p t d a b imm) ⟨p, 3, 0, [(d, t.regs), (a, t.regs), (b, t.regs)], [(a, t.regs), (b, t.regs)], .plain, .none⟩ imm
      (LaneGives p t.wide d [a, b] fun v l => atType t (quotAt t.signed) (v.rdT t a l) (v.rdT t b l))) ∧
  (∀ (p : Pred) (t : TypeCode) (d a b : Opnd), Gives (.remL p t d a b) ⟨p, 2, 0, [(d, t.regs), (a, t.regs), (b, t.regs)], [(a, t.regs), (b, t.regs)], .plain, .none⟩ 0
      (LaneGives p t.wide d [a, b] fun v l => atType t (remAt t.signed) (v.rdT t a l) (v.rdT t b l))) ∧
  (∀ (p : Pred) (t : TypeCode) (d a b : Opnd) (imm : Word), Gives (.remX p t d a b imm) ⟨p, 3, 0, [(d, t.regs), (a, t.regs), (b, t.regs)], [(a, t.regs), (b, t.regs)], .plain, .none⟩ imm
      (LaneGives p t.wide d [a, b] fun v l => atType t (remAt t.signed) (v.rdT t a l) (v.rdT t b l))) ∧
  (∀ w (a b : BitVec w), 0 < w → b ≠ 0 → a = b * (quotAt false w a b).1 + (remAt false w a b).1 ∧ a = b * (quotAt true w a b).1 + (remAt true w a b).1)

/-- MIN, MAX, ABS and NEG write what R180 gives. Whenever a MIN, MAX, ABS or NEG (L or X form; ABS and NEG of their signed types) is
ready and its entries fit, exec answers the next state in which each lane that computes has the lesser or greater of A and B by
the signedness of T, the absolute value or the negation of A; for A = Lo(T), ABS and NEG give Lo(T) without .sat and Hi(T) with
OF with .sat. (R180) -/
def Obligations.ExtremaAndSigns : Prop :=
  (∀ (p : Pred) (t : TypeCode) (d a b : Opnd), Gives (.minL p t d a b) ⟨p, 2, 0, [(d, t.regs), (a, t.regs), (b, t.regs)], [(a, t.regs), (b, t.regs)], .plain, .none⟩ 0
      (LaneGives p t.wide d [a, b] fun v l => atType t (minAt t.signed) (v.rdT t a l) (v.rdT t b l))) ∧
  (∀ (p : Pred) (t : TypeCode) (d a b : Opnd) (imm : Word), Gives (.minX p t d a b imm) ⟨p, 3, 0, [(d, t.regs), (a, t.regs), (b, t.regs)], [(a, t.regs), (b, t.regs)], .plain, .none⟩ imm
      (LaneGives p t.wide d [a, b] fun v l => atType t (minAt t.signed) (v.rdT t a l) (v.rdT t b l))) ∧
  (∀ (p : Pred) (t : TypeCode) (d a b : Opnd), Gives (.maxL p t d a b) ⟨p, 2, 0, [(d, t.regs), (a, t.regs), (b, t.regs)], [(a, t.regs), (b, t.regs)], .plain, .none⟩ 0
      (LaneGives p t.wide d [a, b] fun v l => atType t (maxAt t.signed) (v.rdT t a l) (v.rdT t b l))) ∧
  (∀ (p : Pred) (t : TypeCode) (d a b : Opnd) (imm : Word), Gives (.maxX p t d a b imm) ⟨p, 3, 0, [(d, t.regs), (a, t.regs), (b, t.regs)], [(a, t.regs), (b, t.regs)], .plain, .none⟩ imm
      (LaneGives p t.wide d [a, b] fun v l => atType t (maxAt t.signed) (v.rdT t a l) (v.rdT t b l))) ∧
  (∀ (p : Pred) (t : TypeCode) (sat : Bool) (d a : Opnd), t.signed = true → Gives (.absL p t sat d a) ⟨p, 2, 0, [(d, t.regs), (a, t.regs)], [(a, t.regs)], .plain, .none⟩ 0
      (LaneGives p t.wide d [a] fun v l => atType1 t (absAt sat) (v.rdT t a l))) ∧
  (∀ (p : Pred) (t : TypeCode) (sat : Bool) (d a : Opnd) (imm : Word), t.signed = true → Gives (.absX p t sat d a imm) ⟨p, 3, 0, [(d, t.regs), (a, t.regs)], [(a, t.regs)], .plain, .none⟩ imm
      (LaneGives p t.wide d [a] fun v l => atType1 t (absAt sat) (v.rdT t a l))) ∧
  (∀ (p : Pred) (t : TypeCode) (sat : Bool) (d a : Opnd), t.signed = true → Gives (.negL p t sat d a) ⟨p, 2, 0, [(d, t.regs), (a, t.regs)], [(a, t.regs)], .plain, .none⟩ 0
      (LaneGives p t.wide d [a] fun v l => atType1 t (negAt sat) (v.rdT t a l))) ∧
  (∀ (p : Pred) (t : TypeCode) (sat : Bool) (d a : Opnd) (imm : Word), t.signed = true → Gives (.negX p t sat d a imm) ⟨p, 3, 0, [(d, t.regs), (a, t.regs)], [(a, t.regs)], .plain, .none⟩ imm
      (LaneGives p t.wide d [a] fun v l => atType1 t (negAt sat) (v.rdT t a l)))

/-- AND, OR, XOR, ANDN and NOT work bit by bit over the type width. Whenever an AND, OR, XOR, ANDN or NOT (L or X form) is ready and
its entries fit, exec answers the next state in which each lane that computes has the bitwise result over the type width, and no
flag is raised. (R181) -/
def Obligations.BitwiseOperations : Prop :=
  (∀ (p : Pred) (t : TypeCode) (d a b : Opnd), Gives (.andL p t d a b) ⟨p, 2, 0, [(d, t.regs), (a, t.regs), (b, t.regs)], [(a, t.regs), (b, t.regs)], .plain, .none⟩ 0
      (LaneGives p t.wide d [a, b] fun v l => atType t (fun _ x y => (x &&& y, 0)) (v.rdT t a l) (v.rdT t b l))) ∧
  (∀ (p : Pred) (t : TypeCode) (d a b : Opnd) (imm : Word), Gives (.andX p t d a b imm) ⟨p, 3, 0, [(d, t.regs), (a, t.regs), (b, t.regs)], [(a, t.regs), (b, t.regs)], .plain, .none⟩ imm
      (LaneGives p t.wide d [a, b] fun v l => atType t (fun _ x y => (x &&& y, 0)) (v.rdT t a l) (v.rdT t b l))) ∧
  (∀ (p : Pred) (t : TypeCode) (d a b : Opnd), Gives (.orL p t d a b) ⟨p, 2, 0, [(d, t.regs), (a, t.regs), (b, t.regs)], [(a, t.regs), (b, t.regs)], .plain, .none⟩ 0
      (LaneGives p t.wide d [a, b] fun v l => atType t (fun _ x y => (x ||| y, 0)) (v.rdT t a l) (v.rdT t b l))) ∧
  (∀ (p : Pred) (t : TypeCode) (d a b : Opnd) (imm : Word), Gives (.orX p t d a b imm) ⟨p, 3, 0, [(d, t.regs), (a, t.regs), (b, t.regs)], [(a, t.regs), (b, t.regs)], .plain, .none⟩ imm
      (LaneGives p t.wide d [a, b] fun v l => atType t (fun _ x y => (x ||| y, 0)) (v.rdT t a l) (v.rdT t b l))) ∧
  (∀ (p : Pred) (t : TypeCode) (d a b : Opnd), Gives (.xorL p t d a b) ⟨p, 2, 0, [(d, t.regs), (a, t.regs), (b, t.regs)], [(a, t.regs), (b, t.regs)], .plain, .none⟩ 0
      (LaneGives p t.wide d [a, b] fun v l => atType t (fun _ x y => (x ^^^ y, 0)) (v.rdT t a l) (v.rdT t b l))) ∧
  (∀ (p : Pred) (t : TypeCode) (d a b : Opnd) (imm : Word), Gives (.xorX p t d a b imm) ⟨p, 3, 0, [(d, t.regs), (a, t.regs), (b, t.regs)], [(a, t.regs), (b, t.regs)], .plain, .none⟩ imm
      (LaneGives p t.wide d [a, b] fun v l => atType t (fun _ x y => (x ^^^ y, 0)) (v.rdT t a l) (v.rdT t b l))) ∧
  (∀ (p : Pred) (t : TypeCode) (d a b : Opnd), Gives (.andnL p t d a b) ⟨p, 2, 0, [(d, t.regs), (a, t.regs), (b, t.regs)], [(a, t.regs), (b, t.regs)], .plain, .none⟩ 0
      (LaneGives p t.wide d [a, b] fun v l => atType t (fun _ x y => (x &&& ~~~y, 0)) (v.rdT t a l) (v.rdT t b l))) ∧
  (∀ (p : Pred) (t : TypeCode) (d a b : Opnd) (imm : Word), Gives (.andnX p t d a b imm) ⟨p, 3, 0, [(d, t.regs), (a, t.regs), (b, t.regs)], [(a, t.regs), (b, t.regs)], .plain, .none⟩ imm
      (LaneGives p t.wide d [a, b] fun v l => atType t (fun _ x y => (x &&& ~~~y, 0)) (v.rdT t a l) (v.rdT t b l))) ∧
  (∀ (p : Pred) (t : TypeCode) (d a : Opnd), Gives (.notL p t d a) ⟨p, 2, 0, [(d, t.regs), (a, t.regs)], [(a, t.regs)], .plain, .none⟩ 0
      (LaneGives p t.wide d [a] fun v l => atType1 t (fun _ x => (~~~x, 0)) (v.rdT t a l))) ∧
  (∀ (p : Pred) (t : TypeCode) (d a : Opnd) (imm : Word), Gives (.notX p t d a imm) ⟨p, 3, 0, [(d, t.regs), (a, t.regs)], [(a, t.regs)], .plain, .none⟩ imm
      (LaneGives p t.wide d [a] fun v l => atType1 t (fun _ x => (~~~x, 0)) (v.rdT t a l)))

/-- SHL, SHR, SAR, ROTL and FUNNEL shift by the whole unsigned amount. Whenever a SHL, SHR, SAR, ROTL or FUNNEL (L or X form) is
ready and its entries fit, exec answers the next state in which each lane that computes has A shifted or rotated by the unsigned
32-bit amount as a bit vector of the type width: zeros, copies of the sign bit or the rotated bits enter, an amount of the width
or more gives 0 or the sign, ROTL and FUNNEL reduce the amount. No flag is raised. (R182) -/
def Obligations.Shifts : Prop :=
  (∀ (p : Pred) (t : TypeCode) (d a b : Opnd), Gives (.shlL p t d a b) ⟨p, 2, 0, [(d, t.regs), (a, t.regs), (b, 1)], [(a, t.regs), (b, 1)], .plain, .none⟩ 0
      (LaneGives p t.wide d [a, b] fun v l => (patType t (fun _ x => x <<< (v.rd32 b l).toNat) (v.rdT t a l), 0))) ∧
  (∀ (p : Pred) (t : TypeCode) (d a b : Opnd) (imm : Word), Gives (.shlX p t d a b imm) ⟨p, 3, 0, [(d, t.regs), (a, t.regs), (b, 1)], [(a, t.regs), (b, 1)], .plain, .none⟩ imm
      (LaneGives p t.wide d [a, b] fun v l => (patType t (fun _ x => x <<< (v.rd32 b l).toNat) (v.rdT t a l), 0))) ∧
  (∀ (p : Pred) (t : TypeCode) (d a b : Opnd), Gives (.shrL p t d a b) ⟨p, 2, 0, [(d, t.regs), (a, t.regs), (b, 1)], [(a, t.regs), (b, 1)], .plain, .none⟩ 0
      (LaneGives p t.wide d [a, b] fun v l => (patType t (fun _ x => x >>> (v.rd32 b l).toNat) (v.rdT t a l), 0))) ∧
  (∀ (p : Pred) (t : TypeCode) (d a b : Opnd) (imm : Word), Gives (.shrX p t d a b imm) ⟨p, 3, 0, [(d, t.regs), (a, t.regs), (b, 1)], [(a, t.regs), (b, 1)], .plain, .none⟩ imm
      (LaneGives p t.wide d [a, b] fun v l => (patType t (fun _ x => x >>> (v.rd32 b l).toNat) (v.rdT t a l), 0))) ∧
  (∀ (p : Pred) (t : TypeCode) (d a b : Opnd), Gives (.sarL p t d a b) ⟨p, 2, 0, [(d, t.regs), (a, t.regs), (b, 1)], [(a, t.regs), (b, 1)], .plain, .none⟩ 0
      (LaneGives p t.wide d [a, b] fun v l => (patType t (fun _ x => x.sshiftRight (v.rd32 b l).toNat) (v.rdT t a l), 0))) ∧
  (∀ (p : Pred) (t : TypeCode) (d a b : Opnd) (imm : Word), Gives (.sarX p t d a b imm) ⟨p, 3, 0, [(d, t.regs), (a, t.regs), (b, 1)], [(a, t.regs), (b, 1)], .plain, .none⟩ imm
      (LaneGives p t.wide d [a, b] fun v l => (patType t (fun _ x => x.sshiftRight (v.rd32 b l).toNat) (v.rdT t a l), 0))) ∧
  (∀ (p : Pred) (t : TypeCode) (d a b : Opnd), Gives (.rotlL p t d a b) ⟨p, 2, 0, [(d, t.regs), (a, t.regs), (b, 1)], [(a, t.regs), (b, 1)], .plain, .none⟩ 0
      (LaneGives p t.wide d [a, b] fun v l => (patType t (fun _ x => x.rotateLeft (v.rd32 b l).toNat) (v.rdT t a l), 0))) ∧
  (∀ (p : Pred) (t : TypeCode) (d a b : Opnd) (imm : Word), Gives (.rotlX p t d a b imm) ⟨p, 3, 0, [(d, t.regs), (a, t.regs), (b, 1)], [(a, t.regs), (b, 1)], .plain, .none⟩ imm
      (LaneGives p t.wide d [a, b] fun v l => (patType t (fun _ x => x.rotateLeft (v.rd32 b l).toNat) (v.rdT t a l), 0))) ∧
  (∀ (p : Pred) (t : TypeCode) (d a b c : Opnd), Gives (.funnelL p t d a b c) ⟨p, 2, 0, [(d, 1), (a, 1), (b, 1), (c, 1)], [(a, 1), (b, 1), (c, 1)], .plain, .none⟩ 0
      (LaneGives p false d [a, b, c] fun v l => ((((v.rd32 b l ++ v.rd32 a l : DWord) >>> ((v.rd32 c l).toNat % 32)).setWidth 32).setWidth 64, 0))) ∧
  (∀ (p : Pred) (t : TypeCode) (d a b c : Opnd) (imm : Word), Gives (.funnelX p t d a b c imm) ⟨p, 3, 0, [(d, 1), (a, 1), (b, 1), (c, 1)], [(a, 1), (b, 1), (c, 1)], .plain, .none⟩ imm
      (LaneGives p false d [a, b, c] fun v l => ((((v.rd32 b l ++ v.rd32 a l : DWord) >>> ((v.rd32 c l).toNat % 32)).setWidth 32).setWidth 64, 0)))

/-- POPC, CLZ and CTZ count, BREV reverses. Whenever a POPC, CLZ, CTZ or BREV (L or X form) is ready and its entries fit, exec
answers the next state in which each lane that computes has the number of set bits, of zero bits above the highest set bit or
below the lowest, each from 0 to the width w and w for an operand of 0; or the operand with the order of its w bits reversed. No
flag is raised. (R183) -/
def Obligations.BitCounts : Prop :=
  (∀ (p : Pred) (t : TypeCode) (d a : Opnd), Gives (.popcL p t d a) ⟨p, 2, 0, [(d, 1), (a, t.regs)], [(a, t.regs)], .plain, .none⟩ 0
      (fun v w => ∃ f : Nat → DWord × Flags, (∀ l, (f l).2 = 0 ∧ (f l).1.lo.toNat = ((List.range t.width).filter fun i => (maskT t (v.rdT t a l)).getLsbD i).length) ∧ LaneResult p false d [a] f v w)) ∧
  (∀ (p : Pred) (t : TypeCode) (d a : Opnd) (imm : Word), Gives (.popcX p t d a imm) ⟨p, 3, 0, [(d, 1), (a, t.regs)], [(a, t.regs)], .plain, .none⟩ imm
      (fun v w => ∃ f : Nat → DWord × Flags, (∀ l, (f l).2 = 0 ∧ (f l).1.lo.toNat = ((List.range t.width).filter fun i => (maskT t (v.rdT t a l)).getLsbD i).length) ∧ LaneResult p false d [a] f v w)) ∧
  (∀ (p : Pred) (t : TypeCode) (d a : Opnd), Gives (.clzL p t d a) ⟨p, 2, 0, [(d, 1), (a, t.regs)], [(a, t.regs)], .plain, .none⟩ 0
      (fun v w => ∃ f : Nat → DWord × Flags, (∀ l, (f l).2 = 0 ∧ (f l).1.lo.toNat ≤ t.width ∧ (∀ i, t.width - (f l).1.lo.toNat ≤ i → (maskT t (v.rdT t a l)).getLsbD i = false) ∧
        ((f l).1.lo.toNat < t.width → (maskT t (v.rdT t a l)).getLsbD (t.width - 1 - (f l).1.lo.toNat) = true)) ∧ LaneResult p false d [a] f v w)) ∧
  (∀ (p : Pred) (t : TypeCode) (d a : Opnd) (imm : Word), Gives (.clzX p t d a imm) ⟨p, 3, 0, [(d, 1), (a, t.regs)], [(a, t.regs)], .plain, .none⟩ imm
      (fun v w => ∃ f : Nat → DWord × Flags, (∀ l, (f l).2 = 0 ∧ (f l).1.lo.toNat ≤ t.width ∧ (∀ i, t.width - (f l).1.lo.toNat ≤ i → (maskT t (v.rdT t a l)).getLsbD i = false) ∧
        ((f l).1.lo.toNat < t.width → (maskT t (v.rdT t a l)).getLsbD (t.width - 1 - (f l).1.lo.toNat) = true)) ∧ LaneResult p false d [a] f v w)) ∧
  (∀ (p : Pred) (t : TypeCode) (d a : Opnd), Gives (.ctzL p t d a) ⟨p, 2, 0, [(d, 1), (a, t.regs)], [(a, t.regs)], .plain, .none⟩ 0
      (fun v w => ∃ f : Nat → DWord × Flags, (∀ l, (f l).2 = 0 ∧ (f l).1.lo.toNat ≤ t.width ∧ (∀ i < (f l).1.lo.toNat, (maskT t (v.rdT t a l)).getLsbD i = false) ∧
        ((f l).1.lo.toNat < t.width → (maskT t (v.rdT t a l)).getLsbD (f l).1.lo.toNat = true)) ∧ LaneResult p false d [a] f v w)) ∧
  (∀ (p : Pred) (t : TypeCode) (d a : Opnd) (imm : Word), Gives (.ctzX p t d a imm) ⟨p, 3, 0, [(d, 1), (a, t.regs)], [(a, t.regs)], .plain, .none⟩ imm
      (fun v w => ∃ f : Nat → DWord × Flags, (∀ l, (f l).2 = 0 ∧ (f l).1.lo.toNat ≤ t.width ∧ (∀ i < (f l).1.lo.toNat, (maskT t (v.rdT t a l)).getLsbD i = false) ∧
        ((f l).1.lo.toNat < t.width → (maskT t (v.rdT t a l)).getLsbD (f l).1.lo.toNat = true)) ∧ LaneResult p false d [a] f v w)) ∧
  (∀ (p : Pred) (t : TypeCode) (d a : Opnd), Gives (.brevL p t d a) ⟨p, 2, 0, [(d, t.regs), (a, t.regs)], [(a, t.regs)], .plain, .none⟩ 0
      (fun v w => ∃ f : Nat → DWord × Flags, (∀ l, (f l).2 = 0 ∧ ∀ i < t.width, (f l).1.getLsbD i = (maskT t (v.rdT t a l)).getLsbD (t.width - 1 - i)) ∧ LaneResult p t.wide d [a] f v w)) ∧
  (∀ (p : Pred) (t : TypeCode) (d a : Opnd) (imm : Word), Gives (.brevX p t d a imm) ⟨p, 3, 0, [(d, t.regs), (a, t.regs)], [(a, t.regs)], .plain, .none⟩ imm
      (fun v w => ∃ f : Nat → DWord × Flags, (∀ l, (f l).2 = 0 ∧ ∀ i < t.width, (f l).1.getLsbD i = (maskT t (v.rdT t a l)).getLsbD (t.width - 1 - i)) ∧ LaneResult p t.wide d [a] f v w))

/-- BFE, BFI and PERMB move the bits and bytes that their control words name. Whenever a BFE, BFI or PERMB (L or X form) is ready
and its entries fit, exec answers the next state in which each lane that computes has, bit by bit, the field of A at POS of
length min(LEN, 32), extended from bit LEN − 1 for .i32; A with the bits at POS to POS + LEN − 1 replaced by the low bits of B;
or the four bytes that the nibbles of C select from B:A, with sign fill for selectors of 8 and above. No flag is raised. (R184,
R185, R186) -/
def Obligations.BitFields : Prop :=
  (∀ (p : Pred) (t : TypeCode) (d a b : Opnd), Gives (.bfeL p t d a b) ⟨p, 2, 0, [(d, 1), (a, 1), (b, 1)], [(a, 1), (b, 1)], .plain, .none⟩ 0
      (fun v w => ∃ f : Nat → DWord × Flags, (∀ l, (f l).2 = 0 ∧ ∀ i < 32, (f l).1.lo.getLsbD i = bfeBit t.signed (v.rd32 a l) (v.rd32 b l) i) ∧ LaneResult p false d [a, b] f v w)) ∧
  (∀ (p : Pred) (t : TypeCode) (d a b : Opnd) (imm : Word), Gives (.bfeX p t d a b imm) ⟨p, 3, 0, [(d, 1), (a, 1), (b, 1)], [(a, 1), (b, 1)], .plain, .none⟩ imm
      (fun v w => ∃ f : Nat → DWord × Flags, (∀ l, (f l).2 = 0 ∧ ∀ i < 32, (f l).1.lo.getLsbD i = bfeBit t.signed (v.rd32 a l) (v.rd32 b l) i) ∧ LaneResult p false d [a, b] f v w)) ∧
  (∀ (p : Pred) (t : TypeCode) (d a b c : Opnd), Gives (.bfiL p t d a b c) ⟨p, 2, 0, [(d, 1), (a, 1), (b, 1), (c, 1)], [(a, 1), (b, 1), (c, 1)], .plain, .none⟩ 0
      (fun v w => ∃ f : Nat → DWord × Flags, (∀ l, (f l).2 = 0 ∧ ∀ i < 32, (f l).1.lo.getLsbD i = bfiBit (v.rd32 a l) (v.rd32 b l) (v.rd32 c l) i) ∧ LaneResult p false d [a, b, c] f v w)) ∧
  (∀ (p : Pred) (t : TypeCode) (d a b c : Opnd) (imm : Word), Gives (.bfiX p t d a b c imm) ⟨p, 3, 0, [(d, 1), (a, 1), (b, 1), (c, 1)], [(a, 1), (b, 1), (c, 1)], .plain, .none⟩ imm
      (fun v w => ∃ f : Nat → DWord × Flags, (∀ l, (f l).2 = 0 ∧ ∀ i < 32, (f l).1.lo.getLsbD i = bfiBit (v.rd32 a l) (v.rd32 b l) (v.rd32 c l) i) ∧ LaneResult p false d [a, b, c] f v w)) ∧
  (∀ (p : Pred) (t : TypeCode) (d a b c : Opnd), Gives (.permbL p t d a b c) ⟨p, 2, 0, [(d, 1), (a, 1), (b, 1), (c, 1)], [(a, 1), (b, 1), (c, 1)], .plain, .none⟩ 0
      (fun v w => ∃ f : Nat → DWord × Flags, (∀ l, (f l).2 = 0 ∧ (f l).1.lo = permByte (v.rd32 a l) (v.rd32 b l) ((v.rd32 c l).extractLsb' 12 4).toNat ++ permByte (v.rd32 a l) (v.rd32 b l) ((v.rd32 c l).extractLsb' 8 4).toNat ++ permByte (v.rd32 a l) (v.rd32 b l) ((v.rd32 c l).extractLsb' 4 4).toNat ++ permByte (v.rd32 a l) (v.rd32 b l) ((v.rd32 c l).extractLsb' 0 4).toNat) ∧ LaneResult p false d [a, b, c] f v w)) ∧
  (∀ (p : Pred) (t : TypeCode) (d a b c : Opnd) (imm : Word), Gives (.permbX p t d a b c imm) ⟨p, 3, 0, [(d, 1), (a, 1), (b, 1), (c, 1)], [(a, 1), (b, 1), (c, 1)], .plain, .none⟩ imm
      (fun v w => ∃ f : Nat → DWord × Flags, (∀ l, (f l).2 = 0 ∧ (f l).1.lo = permByte (v.rd32 a l) (v.rd32 b l) ((v.rd32 c l).extractLsb' 12 4).toNat ++ permByte (v.rd32 a l) (v.rd32 b l) ((v.rd32 c l).extractLsb' 8 4).toNat ++ permByte (v.rd32 a l) (v.rd32 b l) ((v.rd32 c l).extractLsb' 4 4).toNat ++ permByte (v.rd32 a l) (v.rd32 b l) ((v.rd32 c l).extractLsb' 0 4).toNat) ∧ LaneResult p false d [a, b, c] f v w))

/-- CMP writes the bits of ACT, and PAND, POR, PXOR and PNOT a whole uniform value. Whenever a CMP (L or X form) is ready and its
entries fit, exec answers the next state in which, for D = p1 to p7, bit l of D is the condition on A and B in lane l, combined
with bit l of C where asked, for each lane in ACT, every other bit is unchanged and no flag changes; PAND, POR, PXOR and PNOT
write the bitwise result of whole words as R171 says. (R171, R187, R188) -/
def Obligations.PredicateResults : Prop :=
  (∀ (p : Pred) (t : TypeCode) (cond : Cond) (comb : Comb) (d a b : Opnd), Gives (.cmpL p t cond comb d a b) ⟨p, 2, 0, [(a, t.regs), (b, t.regs)], [(a, t.regs), (b, t.regs)], .plain, .none⟩ 0
      (fun v w => w.part.aflags = v.part.aflags ∧
      ∀ n : Fin 8, d = .p n → n.val ≠ 0 → ∀ l < 32, (w.part.preg n.val).getLsbD l = if (v.act p).getLsbD l then combine comb v l (condHolds cond (valT t (v.rdT t a l)) (valT t (v.rdT t b l))) else (v.part.preg n.val).getLsbD l)) ∧
  (∀ (p : Pred) (t : TypeCode) (cond : Cond) (comb : Comb) (d a b : Opnd) (imm : Word), Gives (.cmpX p t cond comb d a b imm) ⟨p, 3, 0, [(a, t.regs), (b, t.regs)], [(a, t.regs), (b, t.regs)], .plain, .none⟩ imm
      (fun v w => w.part.aflags = v.part.aflags ∧
      ∀ n : Fin 8, d = .p n → n.val ≠ 0 → ∀ l < 32, (w.part.preg n.val).getLsbD l = if (v.act p).getLsbD l then combine comb v l (condHolds cond (valT t (v.rdT t a l)) (valT t (v.rdT t b l))) else (v.part.preg n.val).getLsbD l)) ∧
  (∀ (p : Pred) (d a b : Opnd), Gives (.pandL p d a b) ⟨p, 2, 0, [], [], .plain, .none⟩ 0
      (LaneGives p false d [a, b] fun v l => ((v.rd32 a l &&& v.rd32 b l).setWidth 64, 0))) ∧
  (∀ (p : Pred) (d a b : Opnd) (imm : Word), Gives (.pandX p d a b imm) ⟨p, 3, 0, [], [], .plain, .none⟩ imm
      (LaneGives p false d [a, b] fun v l => ((v.rd32 a l &&& v.rd32 b l).setWidth 64, 0))) ∧
  (∀ (p : Pred) (d a b : Opnd), Gives (.porL p d a b) ⟨p, 2, 0, [], [], .plain, .none⟩ 0
      (LaneGives p false d [a, b] fun v l => ((v.rd32 a l ||| v.rd32 b l).setWidth 64, 0))) ∧
  (∀ (p : Pred) (d a b : Opnd) (imm : Word), Gives (.porX p d a b imm) ⟨p, 3, 0, [], [], .plain, .none⟩ imm
      (LaneGives p false d [a, b] fun v l => ((v.rd32 a l ||| v.rd32 b l).setWidth 64, 0))) ∧
  (∀ (p : Pred) (d a b : Opnd), Gives (.pxorL p d a b) ⟨p, 2, 0, [], [], .plain, .none⟩ 0
      (LaneGives p false d [a, b] fun v l => ((v.rd32 a l ^^^ v.rd32 b l).setWidth 64, 0))) ∧
  (∀ (p : Pred) (d a b : Opnd) (imm : Word), Gives (.pxorX p d a b imm) ⟨p, 3, 0, [], [], .plain, .none⟩ imm
      (LaneGives p false d [a, b] fun v l => ((v.rd32 a l ^^^ v.rd32 b l).setWidth 64, 0))) ∧
  (∀ (p : Pred) (d a : Opnd), Gives (.pnotL p d a) ⟨p, 2, 0, [], [], .plain, .none⟩ 0
      (LaneGives p false d [a] fun v l => ((~~~(v.rd32 a l)).setWidth 64, 0))) ∧
  (∀ (p : Pred) (d a : Opnd) (imm : Word), Gives (.pnotX p d a imm) ⟨p, 3, 0, [], [], .plain, .none⟩ imm
      (LaneGives p false d [a] fun v l => ((~~~(v.rd32 a l)).setWidth 64, 0)))

/-- FABS clears and FNEG inverts bit 31 and nothing else. Whenever an FABS or FNEG (L or X form) is ready and its entries fit, exec
answers the next state in which each lane that computes has A with bit 31 cleared or inverted and every other bit as it was,
whatever A is (NaN payloads included) and whatever FPMODE holds, and no flag is raised. (R221) -/
def Obligations.FloatSigns : Prop :=
  (∀ (p : Pred) (t : TypeCode) (d a : Opnd), Gives (.fabsL p t d a) ⟨p, 2, 0, [(d, 1), (a, 1)], [(a, 1)], .plain, .none⟩ 0
      (fun v w => ∃ f : Nat → DWord × Flags, (∀ l, (f l).2 = 0 ∧ ∀ i < 32, (f l).1.lo.getLsbD i = (decide (i ≠ 31) && (v.rd32 a l).getLsbD i)) ∧ LaneResult p false d [a] f v w)) ∧
  (∀ (p : Pred) (t : TypeCode) (d a : Opnd) (imm : Word), Gives (.fabsX p t d a imm) ⟨p, 3, 0, [(d, 1), (a, 1)], [(a, 1)], .plain, .none⟩ imm
      (fun v w => ∃ f : Nat → DWord × Flags, (∀ l, (f l).2 = 0 ∧ ∀ i < 32, (f l).1.lo.getLsbD i = (decide (i ≠ 31) && (v.rd32 a l).getLsbD i)) ∧ LaneResult p false d [a] f v w)) ∧
  (∀ (p : Pred) (t : TypeCode) (d a : Opnd), Gives (.fnegL p t d a) ⟨p, 2, 0, [(d, 1), (a, 1)], [(a, 1)], .plain, .none⟩ 0
      (fun v w => ∃ f : Nat → DWord × Flags, (∀ l, (f l).2 = 0 ∧ ∀ i < 32, (f l).1.lo.getLsbD i = ((v.rd32 a l).getLsbD i != decide (i = 31))) ∧ LaneResult p false d [a] f v w)) ∧
  (∀ (p : Pred) (t : TypeCode) (d a : Opnd) (imm : Word), Gives (.fnegX p t d a imm) ⟨p, 3, 0, [(d, 1), (a, 1)], [(a, 1)], .plain, .none⟩ imm
      (fun v w => ∃ f : Nat → DWord × Flags, (∀ l, (f l).2 = 0 ∧ ∀ i < 32, (f l).1.lo.getLsbD i = ((v.rd32 a l).getLsbD i != decide (i = 31))) ∧ LaneResult p false d [a] f v w))

/-- The new value of every atomic operation at 32 and 64 bits. The new value that ATOM, ATOMS and the remote atomics compute from
the old word and b is, at 64 bits and (on the low words) at 32 bits, the sum modulo 2^w, the signed or unsigned lesser or
greater, AND, OR, XOR, b, 0 or old + 1 (inc), b or old − 1 (dec), as bit vectors of that width; fadd is the FP32 sum of the low
words rounded to nearest even. (R313, R314) -/
def Obligations.AtomicResults : Prop :=
  (∀ op (old b : DWord), op ≠ .fadd → atomNew op true old b = atomAt op 64 old b) ∧
  (∀ op (old b : DWord), op ≠ .fadd → atomNew op false old b = (atomAt op 32 old.lo b.lo).setWidth 64) ∧
  (∀ old b : DWord, atomNew .fadd false old b = (round32 .ne ((unpack32 old.lo).add .ne (unpack32 b.lo))).bits.setWidth 64)

/-- Integer instructions change their destination and the named flags only. For ADD_L, ADD_X, SUB_L, SUB_X, ADD64_L, ADD64_X,
SUB64_L, SUB64_X, MUL_L, MUL_X, MULHI_L, MULHI_X, MAD_L, MAD_X, MADW_L, MADW_X, DIV_L, DIV_X, REM_L, REM_X, MIN_L, MIN_X, MAX_L,
MAX_X, ABS_L, ABS_X, NEG_L, NEG_X, AND_L, AND_X, OR_L, OR_X, XOR_L, XOR_X, ANDN_L, ANDN_X, NOT_L, NOT_X, SHL_L, SHL_X, SHR_L,
SHR_X, SAR_L, SAR_X, ROTL_L, ROTL_X, FUNNEL_L, FUNNEL_X, POPC_L, POPC_X, CLZ_L, CLZ_X, CTZ_L, CTZ_X, BREV_L, BREV_X, BFE_L,
BFE_X, BFI_L, BFI_X, PERMB_L, PERMB_X, CMP_L, CMP_X, PAND_L, PAND_X, POR_L, POR_X, PXOR_L, PXOR_X, PNOT_L, PNOT_X, MOV_L, MOV_X,
MOVI, SEL_L, SEL_X, EXT_L, EXT_X, PACK_L, PACK_X, UNPACK_L, UNPACK_X: whenever the form is ready and its entries fit, the next
state differs from the state before in nothing but the destination registers (D and the registers its width spans), the AFLAGS
bits named for the form, and the counter, run and agenda of its part: every other register, predicate, temporary, special and
exception register, every other part, all memory, sidebands and store entries are unchanged. (R169, R171, R172, R173, R177,
R179, R180, R181, R182, R187, R189, R192) -/
def Obligations.FrameIntegers : Prop :=
  (∀ (p : Pred) (t : TypeCode) (sat : Bool) (d a b : Opnd), Frames (.addL p t sat d a b) ⟨p, 2, 0, [(d, 1), (a, 1), (b, 1)], [(a, 1), (b, 1)], .plain, .none⟩ 0 d (if t.wide then 2 else 1) flagOF) ∧
  (∀ (p : Pred) (t : TypeCode) (sat : Bool) (d a b : Opnd) (imm : Word), Frames (.addX p t sat d a b imm) ⟨p, 3, 0, [(d, 1), (a, 1), (b, 1)], [(a, 1), (b, 1)], .plain, .none⟩ imm d (if t.wide then 2 else 1) flagOF) ∧
  (∀ (p : Pred) (t : TypeCode) (sat : Bool) (d a b : Opnd), Frames (.subL p t sat d a b) ⟨p, 2, 0, [(d, 1), (a, 1), (b, 1)], [(a, 1), (b, 1)], .plain, .none⟩ 0 d (if t.wide then 2 else 1) flagOF) ∧
  (∀ (p : Pred) (t : TypeCode) (sat : Bool) (d a b : Opnd) (imm : Word), Frames (.subX p t sat d a b imm) ⟨p, 3, 0, [(d, 1), (a, 1), (b, 1)], [(a, 1), (b, 1)], .plain, .none⟩ imm d (if t.wide then 2 else 1) flagOF) ∧
  (∀ (p : Pred) (t : TypeCode) (sat : Bool) (d a b : Opnd), Frames (.add64L p t sat d a b) ⟨p, 2, 0, [(d, 2), (a, 2), (b, 2)], [(a, 2), (b, 2)], .plain, .none⟩ 0 d (if t.wide then 2 else 1) flagOF) ∧
  (∀ (p : Pred) (t : TypeCode) (sat : Bool) (d a b : Opnd) (imm : Word), Frames (.add64X p t sat d a b imm) ⟨p, 3, 0, [(d, 2), (a, 2), (b, 2)], [(a, 2), (b, 2)], .plain, .none⟩ imm d (if t.wide then 2 else 1) flagOF) ∧
  (∀ (p : Pred) (t : TypeCode) (sat : Bool) (d a b : Opnd), Frames (.sub64L p t sat d a b) ⟨p, 2, 0, [(d, 2), (a, 2), (b, 2)], [(a, 2), (b, 2)], .plain, .none⟩ 0 d (if t.wide then 2 else 1) flagOF) ∧
  (∀ (p : Pred) (t : TypeCode) (sat : Bool) (d a b : Opnd) (imm : Word), Frames (.sub64X p t sat d a b imm) ⟨p, 3, 0, [(d, 2), (a, 2), (b, 2)], [(a, 2), (b, 2)], .plain, .none⟩ imm d (if t.wide then 2 else 1) flagOF) ∧
  (∀ (p : Pred) (t : TypeCode) (sat : Bool) (d a b : Opnd), Frames (.mulL p t sat d a b) ⟨p, 2, 0, [(d, 1), (a, 1), (b, 1)], [(a, 1), (b, 1)], .plain, .none⟩ 0 d (if t.wide then 2 else 1) flagOF) ∧
  (∀ (p : Pred) (t : TypeCode) (sat : Bool) (d a b : Opnd) (imm : Word), Frames (.mulX p t sat d a b imm) ⟨p, 3, 0, [(d, 1), (a, 1), (b, 1)], [(a, 1), (b, 1)], .plain, .none⟩ imm d (if t.wide then 2 else 1) flagOF) ∧
  (∀ (p : Pred) (t : TypeCode) (d a b : Opnd), Frames (.mulhiL p t d a b) ⟨p, 2, 0, [(d, 1), (a, 1), (b, 1)], [(a, 1), (b, 1)], .plain, .none⟩ 0 d (if t.wide then 2 else 1) 0) ∧
  (∀ (p : Pred) (t : TypeCode) (d a b : Opnd) (imm : Word), Frames (.mulhiX p t d a b imm) ⟨p, 3, 0, [(d, 1), (a, 1), (b, 1)], [(a, 1), (b, 1)], .plain, .none⟩ imm d (if t.wide then 2 else 1) 0) ∧
  (∀ (p : Pred) (t : TypeCode) (sat : Bool) (d a b c : Opnd), Frames (.madL p t sat d a b c) ⟨p, 2, 0, [(d, 1), (a, 1), (b, 1), (c, 1)], [(a, 1), (b, 1), (c, 1)], .plain, .none⟩ 0 d (if t.wide then 2 else 1) flagOF) ∧
  (∀ (p : Pred) (t : TypeCode) (sat : Bool) (d a b c : Opnd) (imm : Word), Frames (.madX p t sat d a b c imm) ⟨p, 3, 0, [(d, 1), (a, 1), (b, 1), (c, 1)], [(a, 1), (b, 1), (c, 1)], .plain, .none⟩ imm d (if t.wide then 2 else 1) flagOF) ∧
  (∀ (p : Pred) (t : TypeCode) (sat : Bool) (d a b c : Opnd), Frames (.madwL p t sat d a b c) ⟨p, 2, 0, [(d, 2), (a, 1), (b, 1), (c, 2)], [(a, 1), (b, 1), (c, 2)], .plain, .none⟩ 0 d 2 flagOF) ∧
  (∀ (p : Pred) (t : TypeCode) (sat : Bool) (d a b c : Opnd) (imm : Word), Frames (.madwX p t sat d a b c imm) ⟨p, 3, 0, [(d, 2), (a, 1), (b, 1), (c, 2)], [(a, 1), (b, 1), (c, 2)], .plain, .none⟩ imm d 2 flagOF) ∧
  (∀ (p : Pred) (t : TypeCode) (d a b : Opnd), Frames (.divL p t d a b) ⟨p, 2, 0, [(d, t.regs), (a, t.regs), (b, t.regs)], [(a, t.regs), (b, t.regs)], .plain, .none⟩ 0 d (if t.wide then 2 else 1) (flagDZ ||| flagOF)) ∧
  (∀ (p : Pred) (t : TypeCode) (d a b : Opnd) (imm : Word), Frames (.divX p t d a b imm) ⟨p, 3, 0, [(d, t.regs), (a, t.regs), (b, t.regs)], [(a, t.regs), (b, t.regs)], .plain, .none⟩ imm d (if t.wide then 2 else 1) (flagDZ ||| flagOF)) ∧
  (∀ (p : Pred) (t : TypeCode) (d a b : Opnd), Frames (.remL p t d a b) ⟨p, 2, 0, [(d, t.regs), (a, t.regs), (b, t.regs)], [(a, t.regs), (b, t.regs)], .plain, .none⟩ 0 d (if t.wide then 2 else 1) flagDZ) ∧
  (∀ (p : Pred) (t : TypeCode) (d a b : Opnd) (imm : Word), Frames (.remX p t d a b imm) ⟨p, 3, 0, [(d, t.regs), (a, t.regs), (b, t.regs)], [(a, t.regs), (b, t.regs)], .plain, .none⟩ imm d (if t.wide then 2 else 1) flagDZ) ∧
  (∀ (p : Pred) (t : TypeCode) (d a b : Opnd), Frames (.minL p t d a b) ⟨p, 2, 0, [(d, t.regs), (a, t.regs), (b, t.regs)], [(a, t.regs), (b, t.regs)], .plain, .none⟩ 0 d (if t.wide then 2 else 1) 0) ∧
  (∀ (p : Pred) (t : TypeCode) (d a b : Opnd) (imm : Word), Frames (.minX p t d a b imm) ⟨p, 3, 0, [(d, t.regs), (a, t.regs), (b, t.regs)], [(a, t.regs), (b, t.regs)], .plain, .none⟩ imm d (if t.wide then 2 else 1) 0) ∧
  (∀ (p : Pred) (t : TypeCode) (d a b : Opnd), Frames (.maxL p t d a b) ⟨p, 2, 0, [(d, t.regs), (a, t.regs), (b, t.regs)], [(a, t.regs), (b, t.regs)], .plain, .none⟩ 0 d (if t.wide then 2 else 1) 0) ∧
  (∀ (p : Pred) (t : TypeCode) (d a b : Opnd) (imm : Word), Frames (.maxX p t d a b imm) ⟨p, 3, 0, [(d, t.regs), (a, t.regs), (b, t.regs)], [(a, t.regs), (b, t.regs)], .plain, .none⟩ imm d (if t.wide then 2 else 1) 0) ∧
  (∀ (p : Pred) (t : TypeCode) (sat : Bool) (d a : Opnd), Frames (.absL p t sat d a) ⟨p, 2, 0, [(d, t.regs), (a, t.regs)], [(a, t.regs)], .plain, .none⟩ 0 d (if t.wide then 2 else 1) flagOF) ∧
  (∀ (p : Pred) (t : TypeCode) (sat : Bool) (d a : Opnd) (imm : Word), Frames (.absX p t sat d a imm) ⟨p, 3, 0, [(d, t.regs), (a, t.regs)], [(a, t.regs)], .plain, .none⟩ imm d (if t.wide then 2 else 1) flagOF) ∧
  (∀ (p : Pred) (t : TypeCode) (sat : Bool) (d a : Opnd), Frames (.negL p t sat d a) ⟨p, 2, 0, [(d, t.regs), (a, t.regs)], [(a, t.regs)], .plain, .none⟩ 0 d (if t.wide then 2 else 1) flagOF) ∧
  (∀ (p : Pred) (t : TypeCode) (sat : Bool) (d a : Opnd) (imm : Word), Frames (.negX p t sat d a imm) ⟨p, 3, 0, [(d, t.regs), (a, t.regs)], [(a, t.regs)], .plain, .none⟩ imm d (if t.wide then 2 else 1) flagOF) ∧
  (∀ (p : Pred) (t : TypeCode) (d a b : Opnd), Frames (.andL p t d a b) ⟨p, 2, 0, [(d, t.regs), (a, t.regs), (b, t.regs)], [(a, t.regs), (b, t.regs)], .plain, .none⟩ 0 d (if t.wide then 2 else 1) 0) ∧
  (∀ (p : Pred) (t : TypeCode) (d a b : Opnd) (imm : Word), Frames (.andX p t d a b imm) ⟨p, 3, 0, [(d, t.regs), (a, t.regs), (b, t.regs)], [(a, t.regs), (b, t.regs)], .plain, .none⟩ imm d (if t.wide then 2 else 1) 0) ∧
  (∀ (p : Pred) (t : TypeCode) (d a b : Opnd), Frames (.orL p t d a b) ⟨p, 2, 0, [(d, t.regs), (a, t.regs), (b, t.regs)], [(a, t.regs), (b, t.regs)], .plain, .none⟩ 0 d (if t.wide then 2 else 1) 0) ∧
  (∀ (p : Pred) (t : TypeCode) (d a b : Opnd) (imm : Word), Frames (.orX p t d a b imm) ⟨p, 3, 0, [(d, t.regs), (a, t.regs), (b, t.regs)], [(a, t.regs), (b, t.regs)], .plain, .none⟩ imm d (if t.wide then 2 else 1) 0) ∧
  (∀ (p : Pred) (t : TypeCode) (d a b : Opnd), Frames (.xorL p t d a b) ⟨p, 2, 0, [(d, t.regs), (a, t.regs), (b, t.regs)], [(a, t.regs), (b, t.regs)], .plain, .none⟩ 0 d (if t.wide then 2 else 1) 0) ∧
  (∀ (p : Pred) (t : TypeCode) (d a b : Opnd) (imm : Word), Frames (.xorX p t d a b imm) ⟨p, 3, 0, [(d, t.regs), (a, t.regs), (b, t.regs)], [(a, t.regs), (b, t.regs)], .plain, .none⟩ imm d (if t.wide then 2 else 1) 0) ∧
  (∀ (p : Pred) (t : TypeCode) (d a b : Opnd), Frames (.andnL p t d a b) ⟨p, 2, 0, [(d, t.regs), (a, t.regs), (b, t.regs)], [(a, t.regs), (b, t.regs)], .plain, .none⟩ 0 d (if t.wide then 2 else 1) 0) ∧
  (∀ (p : Pred) (t : TypeCode) (d a b : Opnd) (imm : Word), Frames (.andnX p t d a b imm) ⟨p, 3, 0, [(d, t.regs), (a, t.regs), (b, t.regs)], [(a, t.regs), (b, t.regs)], .plain, .none⟩ imm d (if t.wide then 2 else 1) 0) ∧
  (∀ (p : Pred) (t : TypeCode) (d a : Opnd), Frames (.notL p t d a) ⟨p, 2, 0, [(d, t.regs), (a, t.regs)], [(a, t.regs)], .plain, .none⟩ 0 d (if t.wide then 2 else 1) 0) ∧
  (∀ (p : Pred) (t : TypeCode) (d a : Opnd) (imm : Word), Frames (.notX p t d a imm) ⟨p, 3, 0, [(d, t.regs), (a, t.regs)], [(a, t.regs)], .plain, .none⟩ imm d (if t.wide then 2 else 1) 0) ∧
  (∀ (p : Pred) (t : TypeCode) (d a b : Opnd), Frames (.shlL p t d a b) ⟨p, 2, 0, [(d, t.regs), (a, t.regs), (b, 1)], [(a, t.regs), (b, 1)], .plain, .none⟩ 0 d (if t.wide then 2 else 1) 0) ∧
  (∀ (p : Pred) (t : TypeCode) (d a b : Opnd) (imm : Word), Frames (.shlX p t d a b imm) ⟨p, 3, 0, [(d, t.regs), (a, t.regs), (b, 1)], [(a, t.regs), (b, 1)], .plain, .none⟩ imm d (if t.wide then 2 else 1) 0) ∧
  (∀ (p : Pred) (t : TypeCode) (d a b : Opnd), Frames (.shrL p t d a b) ⟨p, 2, 0, [(d, t.regs), (a, t.regs), (b, 1)], [(a, t.regs), (b, 1)], .plain, .none⟩ 0 d (if t.wide then 2 else 1) 0) ∧
  (∀ (p : Pred) (t : TypeCode) (d a b : Opnd) (imm : Word), Frames (.shrX p t d a b imm) ⟨p, 3, 0, [(d, t.regs), (a, t.regs), (b, 1)], [(a, t.regs), (b, 1)], .plain, .none⟩ imm d (if t.wide then 2 else 1) 0) ∧
  (∀ (p : Pred) (t : TypeCode) (d a b : Opnd), Frames (.sarL p t d a b) ⟨p, 2, 0, [(d, t.regs), (a, t.regs), (b, 1)], [(a, t.regs), (b, 1)], .plain, .none⟩ 0 d (if t.wide then 2 else 1) 0) ∧
  (∀ (p : Pred) (t : TypeCode) (d a b : Opnd) (imm : Word), Frames (.sarX p t d a b imm) ⟨p, 3, 0, [(d, t.regs), (a, t.regs), (b, 1)], [(a, t.regs), (b, 1)], .plain, .none⟩ imm d (if t.wide then 2 else 1) 0) ∧
  (∀ (p : Pred) (t : TypeCode) (d a b : Opnd), Frames (.rotlL p t d a b) ⟨p, 2, 0, [(d, t.regs), (a, t.regs), (b, 1)], [(a, t.regs), (b, 1)], .plain, .none⟩ 0 d (if t.wide then 2 else 1) 0) ∧
  (∀ (p : Pred) (t : TypeCode) (d a b : Opnd) (imm : Word), Frames (.rotlX p t d a b imm) ⟨p, 3, 0, [(d, t.regs), (a, t.regs), (b, 1)], [(a, t.regs), (b, 1)], .plain, .none⟩ imm d (if t.wide then 2 else 1) 0) ∧
  (∀ (p : Pred) (t : TypeCode) (d a b c : Opnd), Frames (.funnelL p t d a b c) ⟨p, 2, 0, [(d, 1), (a, 1), (b, 1), (c, 1)], [(a, 1), (b, 1), (c, 1)], .plain, .none⟩ 0 d 1 0) ∧
  (∀ (p : Pred) (t : TypeCode) (d a b c : Opnd) (imm : Word), Frames (.funnelX p t d a b c imm) ⟨p, 3, 0, [(d, 1), (a, 1), (b, 1), (c, 1)], [(a, 1), (b, 1), (c, 1)], .plain, .none⟩ imm d 1 0) ∧
  (∀ (p : Pred) (t : TypeCode) (d a : Opnd), Frames (.popcL p t d a) ⟨p, 2, 0, [(d, 1), (a, t.regs)], [(a, t.regs)], .plain, .none⟩ 0 d 1 0) ∧
  (∀ (p : Pred) (t : TypeCode) (d a : Opnd) (imm : Word), Frames (.popcX p t d a imm) ⟨p, 3, 0, [(d, 1), (a, t.regs)], [(a, t.regs)], .plain, .none⟩ imm d 1 0) ∧
  (∀ (p : Pred) (t : TypeCode) (d a : Opnd), Frames (.clzL p t d a) ⟨p, 2, 0, [(d, 1), (a, t.regs)], [(a, t.regs)], .plain, .none⟩ 0 d 1 0) ∧
  (∀ (p : Pred) (t : TypeCode) (d a : Opnd) (imm : Word), Frames (.clzX p t d a imm) ⟨p, 3, 0, [(d, 1), (a, t.regs)], [(a, t.regs)], .plain, .none⟩ imm d 1 0) ∧
  (∀ (p : Pred) (t : TypeCode) (d a : Opnd), Frames (.ctzL p t d a) ⟨p, 2, 0, [(d, 1), (a, t.regs)], [(a, t.regs)], .plain, .none⟩ 0 d 1 0) ∧
  (∀ (p : Pred) (t : TypeCode) (d a : Opnd) (imm : Word), Frames (.ctzX p t d a imm) ⟨p, 3, 0, [(d, 1), (a, t.regs)], [(a, t.regs)], .plain, .none⟩ imm d 1 0) ∧
  (∀ (p : Pred) (t : TypeCode) (d a : Opnd), Frames (.brevL p t d a) ⟨p, 2, 0, [(d, t.regs), (a, t.regs)], [(a, t.regs)], .plain, .none⟩ 0 d (if t.wide then 2 else 1) 0) ∧
  (∀ (p : Pred) (t : TypeCode) (d a : Opnd) (imm : Word), Frames (.brevX p t d a imm) ⟨p, 3, 0, [(d, t.regs), (a, t.regs)], [(a, t.regs)], .plain, .none⟩ imm d (if t.wide then 2 else 1) 0) ∧
  (∀ (p : Pred) (t : TypeCode) (d a b : Opnd), Frames (.bfeL p t d a b) ⟨p, 2, 0, [(d, 1), (a, 1), (b, 1)], [(a, 1), (b, 1)], .plain, .none⟩ 0 d 1 0) ∧
  (∀ (p : Pred) (t : TypeCode) (d a b : Opnd) (imm : Word), Frames (.bfeX p t d a b imm) ⟨p, 3, 0, [(d, 1), (a, 1), (b, 1)], [(a, 1), (b, 1)], .plain, .none⟩ imm d 1 0) ∧
  (∀ (p : Pred) (t : TypeCode) (d a b c : Opnd), Frames (.bfiL p t d a b c) ⟨p, 2, 0, [(d, 1), (a, 1), (b, 1), (c, 1)], [(a, 1), (b, 1), (c, 1)], .plain, .none⟩ 0 d 1 0) ∧
  (∀ (p : Pred) (t : TypeCode) (d a b c : Opnd) (imm : Word), Frames (.bfiX p t d a b c imm) ⟨p, 3, 0, [(d, 1), (a, 1), (b, 1), (c, 1)], [(a, 1), (b, 1), (c, 1)], .plain, .none⟩ imm d 1 0) ∧
  (∀ (p : Pred) (t : TypeCode) (d a b c : Opnd), Frames (.permbL p t d a b c) ⟨p, 2, 0, [(d, 1), (a, 1), (b, 1), (c, 1)], [(a, 1), (b, 1), (c, 1)], .plain, .none⟩ 0 d 1 0) ∧
  (∀ (p : Pred) (t : TypeCode) (d a b c : Opnd) (imm : Word), Frames (.permbX p t d a b c imm) ⟨p, 3, 0, [(d, 1), (a, 1), (b, 1), (c, 1)], [(a, 1), (b, 1), (c, 1)], .plain, .none⟩ imm d 1 0) ∧
  (∀ (p : Pred) (t : TypeCode) (cond : Cond) (comb : Comb) (d a b : Opnd), Frames (.cmpL p t cond comb d a b) ⟨p, 2, 0, [(a, t.regs), (b, t.regs)], [(a, t.regs), (b, t.regs)], .plain, .none⟩ 0 d 1 0) ∧
  (∀ (p : Pred) (t : TypeCode) (cond : Cond) (comb : Comb) (d a b : Opnd) (imm : Word), Frames (.cmpX p t cond comb d a b imm) ⟨p, 3, 0, [(a, t.regs), (b, t.regs)], [(a, t.regs), (b, t.regs)], .plain, .none⟩ imm d 1 0) ∧
  (∀ (p : Pred) (d a b : Opnd), Frames (.pandL p d a b) ⟨p, 2, 0, [], [], .plain, .none⟩ 0 d 1 0) ∧
  (∀ (p : Pred) (d a b : Opnd) (imm : Word), Frames (.pandX p d a b imm) ⟨p, 3, 0, [], [], .plain, .none⟩ imm d 1 0) ∧
  (∀ (p : Pred) (d a b : Opnd), Frames (.porL p d a b) ⟨p, 2, 0, [], [], .plain, .none⟩ 0 d 1 0) ∧
  (∀ (p : Pred) (d a b : Opnd) (imm : Word), Frames (.porX p d a b imm) ⟨p, 3, 0, [], [], .plain, .none⟩ imm d 1 0) ∧
  (∀ (p : Pred) (d a b : Opnd), Frames (.pxorL p d a b) ⟨p, 2, 0, [], [], .plain, .none⟩ 0 d 1 0) ∧
  (∀ (p : Pred) (d a b : Opnd) (imm : Word), Frames (.pxorX p d a b imm) ⟨p, 3, 0, [], [], .plain, .none⟩ imm d 1 0) ∧
  (∀ (p : Pred) (d a : Opnd), Frames (.pnotL p d a) ⟨p, 2, 0, [], [], .plain, .none⟩ 0 d 1 0) ∧
  (∀ (p : Pred) (d a : Opnd) (imm : Word), Frames (.pnotX p d a imm) ⟨p, 3, 0, [], [], .plain, .none⟩ imm d 1 0) ∧
  (∀ (p : Pred) (t : TypeCode) (d a : Opnd), Frames (.movL p t d a) ⟨p, 2, 0, [(d, t.regs), (a, t.regs)], [(a, t.regs)], .plain, .none⟩ 0 d (if t.wide then 2 else 1) 0) ∧
  (∀ (p : Pred) (t : TypeCode) (d a : Opnd) (imm : Word), Frames (.movX p t d a imm) ⟨p, 3, 0, [(d, t.regs), (a, t.regs)], [(a, t.regs)], .plain, .none⟩ imm d (if t.wide then 2 else 1) 0) ∧
  (∀ (p : Pred) (t : TypeCode) (h : Fin 4) (d a : Opnd) (imm : Word), Frames (.movi p t h d a imm) ⟨p, 3, 0, [(d, t.regs)], [(d, t.regs)], .plain, .none⟩ imm d (if t.wide then 2 else 1) 0) ∧
  (∀ (p : Pred) (t : TypeCode) (d a b c : Opnd), Frames (.selL p t d a b c) ⟨p, 2, 0, [(d, t.regs), (a, t.regs), (b, t.regs)], [(a, t.regs), (b, t.regs)], .plain, .none⟩ 0 d (if t.wide then 2 else 1) 0) ∧
  (∀ (p : Pred) (t : TypeCode) (d a b c : Opnd) (imm : Word), Frames (.selX p t d a b c imm) ⟨p, 3, 0, [(d, t.regs), (a, t.regs), (b, t.regs)], [(a, t.regs), (b, t.regs)], .plain, .none⟩ imm d (if t.wide then 2 else 1) 0) ∧
  (∀ (p : Pred) (t : TypeCode) (w : ExtW) (d a : Opnd), Frames (.extL p t w d a) ⟨p, 2, 0, [(d, t.regs), (a, 1)], [(a, 1)], .plain, .none⟩ 0 d (if t.wide then 2 else 1) 0) ∧
  (∀ (p : Pred) (t : TypeCode) (w : ExtW) (d a : Opnd) (imm : Word), Frames (.extX p t w d a imm) ⟨p, 3, 0, [(d, t.regs), (a, 1)], [(a, 1)], .plain, .none⟩ imm d (if t.wide then 2 else 1) 0) ∧
  (∀ (p : Pred) (t : TypeCode) (nar : Narrow) (d a b : Opnd), Frames (.packL p t nar d a b) ⟨p, 2, 0, [(d, 1), (a, 1), (b, 1)], [(a, 1), (b, 1)], .plain, .none⟩ 0 d 1 flagOF) ∧
  (∀ (p : Pred) (t : TypeCode) (nar : Narrow) (d a b : Opnd) (imm : Word), Frames (.packX p t nar d a b imm) ⟨p, 3, 0, [(d, 1), (a, 1), (b, 1)], [(a, 1), (b, 1)], .plain, .none⟩ imm d 1 flagOF) ∧
  (∀ (p : Pred) (t : TypeCode) (idx : Fin 4) (sx : Bool) (d a : Opnd), Frames (.unpackL p t idx sx d a) ⟨p, 2, 0, [(d, 1), (a, 1)], [(a, 1)], .plain, .none⟩ 0 d 1 0) ∧
  (∀ (p : Pred) (t : TypeCode) (idx : Fin 4) (sx : Bool) (d a : Opnd) (imm : Word), Frames (.unpackX p t idx sx d a imm) ⟨p, 3, 0, [(d, 1), (a, 1)], [(a, 1)], .plain, .none⟩ imm d 1 0)

/-- Floating-point and packed instructions change their destination and the named flags only. For FADD_L, FADD_X, FSUB_L, FSUB_X,
FMUL_L, FMUL_X, FFMA_L, FFMA_X, FMIN_L, FMIN_X, FMAX_L, FMAX_X, FABS_L, FABS_X, FNEG_L, FNEG_X, FCMP_L, FCMP_X, FRND_L, FRND_X,
FCLASS_L, FCLASS_X, FSCALE_L, FSCALE_X, FRCP, FRSQ, FSQRT, FDIV, FEXP2, FLOG2, FSIN, FCOS, CVT, CVTP, TAGGET, HADD2_L, HADD2_X,
HMUL2_L, HMUL2_X, HFMA2_L, HFMA2_X, DOT4_L, DOT4_X, DOT8_L, DOT8_X: whenever the form is ready and its entries fit, the next
state differs from the state before in nothing but the destination registers (D and the registers its width spans), the AFLAGS
bits named for the form, and the counter, run and agenda of its part: every other register, predicate, temporary, special and
exception register, every other part, all memory, sidebands and store entries are unchanged. (R171, R215, R219, R220, R222,
R225, R226, R231, R232, R239, R240) -/
def Obligations.FrameFloats : Prop :=
  (∀ (p : Pred) (t : TypeCode) (rnd : Rnd) (d a b : Opnd), Frames (.faddL p t rnd d a b) ⟨p, 2, 0, [(d, 1), (a, 1), (b, 1)], [(a, 1), (b, 1)], .plain, .none⟩ 0 d 1 roundFlags) ∧
  (∀ (p : Pred) (t : TypeCode) (rnd : Rnd) (d a b : Opnd) (imm : Word), Frames (.faddX p t rnd d a b imm) ⟨p, 3, 0, [(d, 1), (a, 1), (b, 1)], [(a, 1), (b, 1)], .plain, .none⟩ imm d 1 roundFlags) ∧
  (∀ (p : Pred) (t : TypeCode) (rnd : Rnd) (d a b : Opnd), Frames (.fsubL p t rnd d a b) ⟨p, 2, 0, [(d, 1), (a, 1), (b, 1)], [(a, 1), (b, 1)], .plain, .none⟩ 0 d 1 roundFlags) ∧
  (∀ (p : Pred) (t : TypeCode) (rnd : Rnd) (d a b : Opnd) (imm : Word), Frames (.fsubX p t rnd d a b imm) ⟨p, 3, 0, [(d, 1), (a, 1), (b, 1)], [(a, 1), (b, 1)], .plain, .none⟩ imm d 1 roundFlags) ∧
  (∀ (p : Pred) (t : TypeCode) (rnd : Rnd) (d a b : Opnd), Frames (.fmulL p t rnd d a b) ⟨p, 2, 0, [(d, 1), (a, 1), (b, 1)], [(a, 1), (b, 1)], .plain, .none⟩ 0 d 1 roundFlags) ∧
  (∀ (p : Pred) (t : TypeCode) (rnd : Rnd) (d a b : Opnd) (imm : Word), Frames (.fmulX p t rnd d a b imm) ⟨p, 3, 0, [(d, 1), (a, 1), (b, 1)], [(a, 1), (b, 1)], .plain, .none⟩ imm d 1 roundFlags) ∧
  (∀ (p : Pred) (t : TypeCode) (rnd : Rnd) (d a b c : Opnd), Frames (.ffmaL p t rnd d a b c) ⟨p, 2, 0, [(d, 1), (a, 1), (b, 1), (c, 1)], [(a, 1), (b, 1), (c, 1)], .plain, .none⟩ 0 d 1 roundFlags) ∧
  (∀ (p : Pred) (t : TypeCode) (rnd : Rnd) (d a b c : Opnd) (imm : Word), Frames (.ffmaX p t rnd d a b c imm) ⟨p, 3, 0, [(d, 1), (a, 1), (b, 1), (c, 1)], [(a, 1), (b, 1), (c, 1)], .plain, .none⟩ imm d 1 roundFlags) ∧
  (∀ (p : Pred) (t : TypeCode) (d a b : Opnd), Frames (.fminL p t d a b) ⟨p, 2, 0, [(d, 1), (a, 1), (b, 1)], [(a, 1), (b, 1)], .plain, .none⟩ 0 d 1 flagNV) ∧
  (∀ (p : Pred) (t : TypeCode) (d a b : Opnd) (imm : Word), Frames (.fminX p t d a b imm) ⟨p, 3, 0, [(d, 1), (a, 1), (b, 1)], [(a, 1), (b, 1)], .plain, .none⟩ imm d 1 flagNV) ∧
  (∀ (p : Pred) (t : TypeCode) (d a b : Opnd), Frames (.fmaxL p t d a b) ⟨p, 2, 0, [(d, 1), (a, 1), (b, 1)], [(a, 1), (b, 1)], .plain, .none⟩ 0 d 1 flagNV) ∧
  (∀ (p : Pred) (t : TypeCode) (d a b : Opnd) (imm : Word), Frames (.fmaxX p t d a b imm) ⟨p, 3, 0, [(d, 1), (a, 1), (b, 1)], [(a, 1), (b, 1)], .plain, .none⟩ imm d 1 flagNV) ∧
  (∀ (p : Pred) (t : TypeCode) (d a : Opnd), Frames (.fabsL p t d a) ⟨p, 2, 0, [(d, 1), (a, 1)], [(a, 1)], .plain, .none⟩ 0 d 1 0) ∧
  (∀ (p : Pred) (t : TypeCode) (d a : Opnd) (imm : Word), Frames (.fabsX p t d a imm) ⟨p, 3, 0, [(d, 1), (a, 1)], [(a, 1)], .plain, .none⟩ imm d 1 0) ∧
  (∀ (p : Pred) (t : TypeCode) (d a : Opnd), Frames (.fnegL p t d a) ⟨p, 2, 0, [(d, 1), (a, 1)], [(a, 1)], .plain, .none⟩ 0 d 1 0) ∧
  (∀ (p : Pred) (t : TypeCode) (d a : Opnd) (imm : Word), Frames (.fnegX p t d a imm) ⟨p, 3, 0, [(d, 1), (a, 1)], [(a, 1)], .plain, .none⟩ imm d 1 0) ∧
  (∀ (p : Pred) (t : TypeCode) (cond : FCond) (comb : Comb) (d a b : Opnd), Frames (.fcmpL p t cond comb d a b) ⟨p, 2, 0, [(a, 1), (b, 1)], [(a, 1), (b, 1)], .plain, .none⟩ 0 d 1 flagNV) ∧
  (∀ (p : Pred) (t : TypeCode) (cond : FCond) (comb : Comb) (d a b : Opnd) (imm : Word), Frames (.fcmpX p t cond comb d a b imm) ⟨p, 3, 0, [(a, 1), (b, 1)], [(a, 1), (b, 1)], .plain, .none⟩ imm d 1 flagNV) ∧
  (∀ (p : Pred) (t : TypeCode) (rnd : Rnd) (d a : Opnd), Frames (.frndL p t rnd d a) ⟨p, 2, 0, [(d, 1), (a, 1)], [(a, 1)], .plain, .none⟩ 0 d 1 flagNV) ∧
  (∀ (p : Pred) (t : TypeCode) (rnd : Rnd) (d a : Opnd) (imm : Word), Frames (.frndX p t rnd d a imm) ⟨p, 3, 0, [(d, 1), (a, 1)], [(a, 1)], .plain, .none⟩ imm d 1 flagNV) ∧
  (∀ (p : Pred) (t : TypeCode) (d a : Opnd), Frames (.fclassL p t d a) ⟨p, 2, 0, [(d, 1), (a, 1)], [(a, 1)], .plain, .none⟩ 0 d 1 0) ∧
  (∀ (p : Pred) (t : TypeCode) (d a : Opnd) (imm : Word), Frames (.fclassX p t d a imm) ⟨p, 3, 0, [(d, 1), (a, 1)], [(a, 1)], .plain, .none⟩ imm d 1 0) ∧
  (∀ (p : Pred) (t : TypeCode) (rnd : Rnd) (d a b : Opnd), Frames (.fscaleL p t rnd d a b) ⟨p, 2, 0, [(d, 1), (a, 1), (b, 1)], [(a, 1), (b, 1)], .plain, .none⟩ 0 d 1 roundFlags) ∧
  (∀ (p : Pred) (t : TypeCode) (rnd : Rnd) (d a b : Opnd) (imm : Word), Frames (.fscaleX p t rnd d a b imm) ⟨p, 3, 0, [(d, 1), (a, 1), (b, 1)], [(a, 1), (b, 1)], .plain, .none⟩ imm d 1 roundFlags) ∧
  (∀ (p : Pred) (t : TypeCode) (d a : Opnd), Frames (.frcp p t d a) ⟨p, 2, 0, [(d, 1), (a, 1)], [(a, 1)], .plain, .none⟩ 0 d 1 (flagNV ||| flagDZ ||| flagOF ||| flagUF)) ∧
  (∀ (p : Pred) (t : TypeCode) (d a : Opnd), Frames (.frsq p t d a) ⟨p, 2, 0, [(d, 1), (a, 1)], [(a, 1)], .plain, .none⟩ 0 d 1 (flagNV ||| flagDZ ||| flagOF ||| flagUF)) ∧
  (∀ (p : Pred) (t : TypeCode) (rnd : Rnd) (d a : Opnd), Frames (.fsqrt p t rnd d a) ⟨p, 2, 0, [(d, 1), (a, 1)], [(a, 1)], .plain, .none⟩ 0 d 1 roundFlags) ∧
  (∀ (p : Pred) (t : TypeCode) (rnd : Rnd) (d a b : Opnd), Frames (.fdiv p t rnd d a b) ⟨p, 2, 0, [(d, 1), (a, 1), (b, 1)], [(a, 1), (b, 1)], .plain, .none⟩ 0 d 1 (roundFlags ||| flagDZ)) ∧
  (∀ (p : Pred) (t : TypeCode) (d a : Opnd), Frames (.fexp2 p t d a) ⟨p, 2, 0, [(d, 1), (a, 1)], [(a, 1)], .plain, .none⟩ 0 d 1 (flagNV ||| flagDZ ||| flagOF ||| flagUF)) ∧
  (∀ (p : Pred) (t : TypeCode) (d a : Opnd), Frames (.flog2 p t d a) ⟨p, 2, 0, [(d, 1), (a, 1)], [(a, 1)], .plain, .none⟩ 0 d 1 (flagNV ||| flagDZ ||| flagOF ||| flagUF)) ∧
  (∀ (p : Pred) (t : TypeCode) (d a : Opnd), Frames (.fsin p t d a) ⟨p, 2, 0, [(d, 1), (a, 1)], [(a, 1)], .plain, .none⟩ 0 d 1 (flagNV ||| flagDZ ||| flagOF ||| flagUF)) ∧
  (∀ (p : Pred) (t : TypeCode) (d a : Opnd), Frames (.fcos p t d a) ⟨p, 2, 0, [(d, 1), (a, 1)], [(a, 1)], .plain, .none⟩ 0 d 1 (flagNV ||| flagDZ ||| flagOF ||| flagUF)) ∧
  (∀ (p : Pred) (src : SrcCode) (t : TypeCode) (rnd : Rnd) (d a : Opnd), Frames (.cvt p src t rnd d a) ⟨p, 2, 0, [(d, 1), (a, 1)], [(a, 1)], .plain, .none⟩ 0 d 1 (roundFlags ||| flagCV ||| flagIV)) ∧
  (∀ (p : Pred) (src : SrcCode) (t : TypeCode) (rnd : Rnd) (d a b : Opnd) (slot : Fin 8), Frames (.cvtp p src t rnd d a b slot) ⟨p, 2, 0, [(d, 1), (a, 1), (b, 1)], [(a, 1)] ++ (if (cvtpRow src.code t).any (·.2) then [(b, 1)] else []) ++ (if src == .f32 && !fmt16 t then [(d, 1)] else []), .plain, .none⟩ 0 d 1 (roundFlags ||| flagCV ||| flagIV)) ∧
  (∀ (p : Pred) (d a : Opnd), Frames (.tagget p d a) ⟨p, 2, 0, [(d, 1), (a, 1)], [], .plain, .none⟩ 0 d 1 0) ∧
  (∀ (p : Pred) (t : TypeCode) (rnd : Rnd) (d a b : Opnd), (t = .f16 ∨ t = .bf16) → Frames (.hadd2L p t rnd d a b) ⟨p, 2, 0, [(d, 1), (a, 1), (b, 1)], [(a, 1), (b, 1)], .plain, .none⟩ 0 d 1 roundFlags) ∧
  (∀ (p : Pred) (t : TypeCode) (rnd : Rnd) (d a b : Opnd) (imm : Word), (t = .f16 ∨ t = .bf16) → Frames (.hadd2X p t rnd d a b imm) ⟨p, 3, 0, [(d, 1), (a, 1), (b, 1)], [(a, 1), (b, 1)], .plain, .none⟩ imm d 1 roundFlags) ∧
  (∀ (p : Pred) (t : TypeCode) (rnd : Rnd) (d a b : Opnd), (t = .f16 ∨ t = .bf16) → Frames (.hmul2L p t rnd d a b) ⟨p, 2, 0, [(d, 1), (a, 1), (b, 1)], [(a, 1), (b, 1)], .plain, .none⟩ 0 d 1 roundFlags) ∧
  (∀ (p : Pred) (t : TypeCode) (rnd : Rnd) (d a b : Opnd) (imm : Word), (t = .f16 ∨ t = .bf16) → Frames (.hmul2X p t rnd d a b imm) ⟨p, 3, 0, [(d, 1), (a, 1), (b, 1)], [(a, 1), (b, 1)], .plain, .none⟩ imm d 1 roundFlags) ∧
  (∀ (p : Pred) (t : TypeCode) (rnd : Rnd) (d a b c : Opnd), (t = .f16 ∨ t = .bf16) → Frames (.hfma2L p t rnd d a b c) ⟨p, 2, 0, [(d, 1), (a, 1), (b, 1), (c, 1)], [(a, 1), (b, 1), (c, 1)], .plain, .none⟩ 0 d 1 roundFlags) ∧
  (∀ (p : Pred) (t : TypeCode) (rnd : Rnd) (d a b c : Opnd) (imm : Word), (t = .f16 ∨ t = .bf16) → Frames (.hfma2X p t rnd d a b c imm) ⟨p, 3, 0, [(d, 1), (a, 1), (b, 1), (c, 1)], [(a, 1), (b, 1), (c, 1)], .plain, .none⟩ imm d 1 roundFlags) ∧
  (∀ (p : Pred) (t : TypeCode) (rnd : Rnd) (d a b c : Opnd), Frames (.dot4L p t rnd d a b c) ⟨p, 2, 0, [(d, 1), (a, 1), (b, 1), (c, 1)], [(a, 1), (b, 1), (c, 1)], .plain, .none⟩ 0 d 1 (roundFlags ||| flagIV)) ∧
  (∀ (p : Pred) (t : TypeCode) (rnd : Rnd) (d a b c : Opnd) (imm : Word), Frames (.dot4X p t rnd d a b c imm) ⟨p, 3, 0, [(d, 1), (a, 1), (b, 1), (c, 1)], [(a, 1), (b, 1), (c, 1)], .plain, .none⟩ imm d 1 (roundFlags ||| flagIV)) ∧
  (∀ (p : Pred) (t : TypeCode) (rnd : Rnd) (d a b c : Opnd), Frames (.dot8L p t rnd d a b c) ⟨p, 2, 0, [(d, 1), (a, 1), (b, 1), (c, 1)], [(a, 1), (b, 1), (c, 1)], .plain, .none⟩ 0 d 1 (roundFlags ||| flagIV)) ∧
  (∀ (p : Pred) (t : TypeCode) (rnd : Rnd) (d a b c : Opnd) (imm : Word), Frames (.dot8X p t rnd d a b c imm) ⟨p, 3, 0, [(d, 1), (a, 1), (b, 1), (c, 1)], [(a, 1), (b, 1), (c, 1)], .plain, .none⟩ imm d 1 (roundFlags ||| flagIV))

/-- Exchanges, votes, scans, ELECT, PINFO and CHECKC change their destination and the named flags only. For ELECT, PINFO, QSWAP,
QBCAST, QSHUF, QRED, SHFL, VOTE, PREFIX, GRED, XPOSE, CHECKC: whenever the form is ready and its entries fit, the next state
differs from the state before in nothing but the destination registers (D and the registers its width spans), the AFLAGS bits
named for the form, and the counter, run and agenda of its part: every other register, predicate, temporary, special and
exception register, every other part, all memory, sidebands and store entries are unchanged. (R148, R159, R252, R256, R257,
R258, R259, R260, R261, R330) -/
def Obligations.FrameOthers : Prop :=
  (∀ (p : Pred) (d : Opnd), Frames (.elect p d) ⟨p, 1, 0, [], [], .plain, .none⟩ 0 d 1 0) ∧
  (∀ (p : Pred) (d : Opnd), Frames (.pinfo p d) ⟨p, 2, 0, [(d, 1)], [], .plain, .none⟩ 0 d 1 0) ∧
  (∀ (p : Pred) (t : TypeCode) (pat : Fin 4) (d a : Opnd), Frames (.qswap p t pat d a) ⟨p, 2, 0, [(d, 1), (a, 1)], [], .plain, .none⟩ 0 d 1 0) ∧
  (∀ (p : Pred) (t : TypeCode) (j : Fin 4) (d a : Opnd), Frames (.qbcast p t j d a) ⟨p, 2, 0, [(d, 1), (a, 1)], [], .plain, .none⟩ 0 d 1 0) ∧
  (∀ (p : Pred) (t : TypeCode) (d a b : Opnd), Frames (.qshuf p t d a b) ⟨p, 2, 0, [(d, 1), (a, 1), (b, 1)], [(b, 1)], .plain, .none⟩ 0 d 1 0) ∧
  (∀ (p : Pred) (t : TypeCode) (op : RedOp) (d a : Opnd), Frames (.qred p t op d a) ⟨p, 2, 0, [(d, 1), (a, 1)], [], .plain, .none⟩ 0 d 1 roundFlags) ∧
  (∀ (p : Pred) (t : TypeCode) (mode : ShflMode) (d a b : Opnd), Frames (.shfl p t mode d a b) ⟨p, 2, 0, [(d, t.regs), (a, t.regs), (b, 1)], [(a, t.regs), (b, 1)], .plain, .none⟩ 0 d (if t.wide then 2 else 1) 0) ∧
  (∀ (p : Pred) (mode : VoteMode) (d a : Opnd), Frames (.vote p mode d a) ⟨p, 2, 0, [(d, 1), (a, 1)], [(a, 1)], .plain, .none⟩ 0 d 1 0) ∧
  (∀ (p : Pred) (t : TypeCode) (op : RedOp) (ex : Bool) (d a : Opnd), Frames (.scanPrefix p t op ex d a) ⟨p, 2, 0, [(d, 1), (a, 1)], [(a, 1)], .plain, .none⟩ 0 d 1 roundFlags) ∧
  (∀ (p : Pred) (t : TypeCode) (op : RedOp) (d a : Opnd), Frames (.gred p t op d a) ⟨p, 2, 0, [(d, 1), (a, 1)], [(a, 1)], .plain, .none⟩ 0 d 1 roundFlags) ∧
  (∀ (p : Pred) (t : TypeCode) (n : Fin 192) (a : Opnd), n.val + 8 ≤ 192 → Frames (.xpose p t (.v n) a) ⟨p, 2, 0, [(.v n, 8), (a, 8)], [], .plain, .none⟩ 0 (.v n) 8 0) ∧
  (∀ (p : Pred) (d : Opnd), Frames (.checkc p d) ⟨p, 2, 0, [(d, 1)], [], .plain, .none⟩ 0 d 1 0)

/-- From the state after its checks on, a load changes nothing but its destination registers, and no byte of memory. LD, LDS, LDA,
LDWB, LDD and LDW (L and X forms): whenever one is ready, its accesses pass their checks and stay in this package, its lines can
be read and (LDD, LDW) carry the format asked for, and its part still has the turn, then from the state after its reads to the
next one nothing changes but its destination registers (R+ the registers of its type or rows), its run and its counter; the reads
change no byte of memory, and with a buffer every byte is as the step found it. What the checks themselves leave (found: a walk
fills the TLB and may set accessed bits of page tables, R273 to R275) is no part of this statement. If its part finds no room for
entries (R110) only its wait and run change. (R276, R289, R292, R293, R294, R296, R110) -/
def Obligations.FrameLoads : Prop :=
  (∀ (p : Pred) (t : TypeCode) (sx : Bool) (d a : Opnd), LoadFrames (.ldL p t sx d a) ⟨p, 2, 0, [(d, t.regs), (a, 2)], [(a, 2)], .plain, .none⟩ 0 .glob howLoad (loadElems .glob p t d a) (fun _ _ _ => True) (regBytes d t.regs)) ∧
  (∀ (p : Pred) (t : TypeCode) (sx : Bool) (d a : Opnd) (imm : Word), LoadFrames (.ldX p t sx d a imm) ⟨p, 3, 0, [(d, t.regs), (a, 2)], [(a, 2)], .plain, .none⟩ imm .glob howLoad (loadElems .glob p t d a) (fun _ _ _ => True) (regBytes d t.regs)) ∧
  (∀ (p : Pred) (t : TypeCode) (sx : Bool) (d a : Opnd), LoadFrames (.ldsL p t sx d a) ⟨p, 2, 0, [(d, t.regs), (a, 1)], [(a, 1)], .plain, .none⟩ 0 .sp howLoad (loadElems .sp p t d a) (fun _ _ _ => True) (regBytes d t.regs)) ∧
  (∀ (p : Pred) (t : TypeCode) (sx : Bool) (d a : Opnd) (imm : Word), LoadFrames (.ldsX p t sx d a imm) ⟨p, 3, 0, [(d, t.regs), (a, 1)], [(a, 1)], .plain, .none⟩ imm .sp howLoad (loadElems .sp p t d a) (fun _ _ _ => True) (regBytes d t.regs)) ∧
  (∀ (p : Pred) (t : TypeCode) (sx : Bool) (d a : Opnd), LoadFrames (.ldaL p t sx d a) ⟨p, 2, 0, [(d, t.regs), (a, 1)], [(a, 1)], .plain, .none⟩ 0 .ab howLoad (loadElems .ab p t d a) (fun _ _ _ => True) (regBytes d t.regs)) ∧
  (∀ (p : Pred) (t : TypeCode) (sx : Bool) (d a : Opnd) (imm : Word), LoadFrames (.ldaX p t sx d a imm) ⟨p, 3, 0, [(d, t.regs), (a, 1)], [(a, 1)], .plain, .none⟩ imm .ab howLoad (loadElems .ab p t d a) (fun _ _ _ => True) (regBytes d t.regs)) ∧
  (∀ (p : Pred) (t : TypeCode) (sx : Bool) (d a : Opnd), LoadFrames (.ldwbL p t sx d a) ⟨p, 2, 0, [(d, t.regs), (a, 1)], [(a, 1)], .plain, .none⟩ 0 .wb howLoad (loadElems .wb p t d a) (fun _ _ _ => True) (regBytes d t.regs)) ∧
  (∀ (p : Pred) (t : TypeCode) (sx : Bool) (d a : Opnd) (imm : Word), LoadFrames (.ldwbX p t sx d a imm) ⟨p, 3, 0, [(d, t.regs), (a, 1)], [(a, 1)], .plain, .none⟩ imm .wb howLoad (loadElems .wb p t d a) (fun _ _ _ => True) (regBytes d t.regs)) ∧
  (∀ (p : Pred) (rows : Fin 8) (d a : Opnd), ∀ n, d = .v n → LoadFrames (.lddL p rows d a) ⟨p, 2, 0, [(d, rows.val + 1)], [], .plain, .none⟩ 0 .glob (howRows .load) (fun y => y.v.rowsAt p a (rows.val + 1))
      (fun u w ps => rowsFault none (rowLines u w ps) = none) ((List.range (rows.val + 1)).map (n.val + ·))) ∧
  (∀ (p : Pred) (rows : Fin 8) (d a : Opnd) (imm : Word), ∀ n, d = .v n → LoadFrames (.lddX p rows d a imm) ⟨p, 3, 0, [(d, rows.val + 1)], [], .plain, .none⟩ imm .glob (howRows .load) (fun y => y.v.rowsAt p a (rows.val + 1))
      (fun u w ps => rowsFault none (rowLines u w ps) = none) ((List.range (rows.val + 1)).map (n.val + ·))) ∧
  (∀ (p : Pred) (t : TypeCode) (rows : Fin 4) (src : LdwSrc) (d a : Opnd), ∀ n, d = .v n → LoadFrames (.ldwL p t rows src d a) ⟨p, 2, 0, [(d, src.regs * (rows.val + 1))], [], .plain, .none⟩ 0 .glob (howRows .load) (fun y => y.v.rowsAt p a (rows.val + 1))
      (fun u w ps => rowsFault (some (fmtCode (ldwType src))) (rowLines u w ps) = none) ((List.range ((rows.val + 1) * (16 / elemBits (ldwType src)))).map (n.val + ·))) ∧
  (∀ (p : Pred) (t : TypeCode) (rows : Fin 4) (src : LdwSrc) (d a : Opnd) (imm : Word), ∀ n, d = .v n → LoadFrames (.ldwX p t rows src d a imm) ⟨p, 3, 0, [(d, src.regs * (rows.val + 1))], [], .plain, .none⟩ imm .glob (howRows .load) (fun y => y.v.rowsAt p a (rows.val + 1))
      (fun u w ps => rowsFault (some (fmtCode (ldwType src))) (rowLines u w ps) = none) ((List.range ((rows.val + 1) * (16 / elemBits (ldwType src)))).map (n.val + ·)))

/-- From the state after its checks on, a store writes the bytes of its pieces and nothing else, buffered, direct or leaving the
package. ST, STS, STA and STD (L and X forms). First: whenever one is ready, its accesses pass their checks and stay in this
package, its part is buffered and still has the turn, then in the next state, compared with the state after the checks (found,
which may have filled the TLB and set accessed bits of page tables, R273 to R275), its part reads each byte of its pieces as
stored (the last piece that covers a byte decides) and every other byte as it was, every other part reads every byte as it was,
memory itself and every register keep their values, and nothing but the store buffer, the run and the counter changes. Second, of
a part that performs its accesses one by one (drag mode, or a run that goes on without logging): no byte of storage changes
outside the lines of its pieces and their far sidebands, nor a sideband of another line, its partition reads there each byte that
a piece covers as stored and every other as before, and where it strikes no run of another part no register changes, nor anything
else but what goes with a write to storage. Third, where some pieces leave the package, to a peer or to I/O space: from the state
in which its part has settled, storage changes in the lines of the pieces that stay only (nowhere when all leave), and beside it
only requests, links, what has left the package, and its part's run, counter, wait and access under way. The second and third
speak of pages that are dirty already (DRT bits that a store sets are R274's), and the third of requests whose numbers are new and
which no payload error has struck. If its part finds no room (R110) only its wait changes. The pieces are those that the checks of
its addresses give. (R282, R283, R284, R290, R295, R296, R93, R114) -/
def Obligations.FrameStores : Prop :=
  (∀ (p : Pred) (t : TypeCode) (a b : Opnd), StoreFrames (.stL p t a b) ⟨p, 2, 0, [(a, 2), (b, t.regs)], [(a, 2), (b, t.regs)], .plain, .none⟩ 0 .glob howStore (storeElems .glob p t a b)
      (fun y q => ((y.v.storeBytes t b q.lane).drop q.off).take q.len)) ∧
  (∀ (p : Pred) (t : TypeCode) (a b : Opnd) (imm : Word), StoreFrames (.stX p t a b imm) ⟨p, 3, 0, [(a, 2), (b, t.regs)], [(a, 2), (b, t.regs)], .plain, .none⟩ imm .glob howStore (storeElems .glob p t a b)
      (fun y q => ((y.v.storeBytes t b q.lane).drop q.off).take q.len)) ∧
  (∀ (p : Pred) (t : TypeCode) (a b : Opnd), StoreFrames (.stsL p t a b) ⟨p, 2, 0, [(a, 1), (b, t.regs)], [(a, 1), (b, t.regs)], .plain, .none⟩ 0 .sp howStore (storeElems .sp p t a b)
      (fun y q => ((y.v.storeBytes t b q.lane).drop q.off).take q.len)) ∧
  (∀ (p : Pred) (t : TypeCode) (a b : Opnd) (imm : Word), StoreFrames (.stsX p t a b imm) ⟨p, 3, 0, [(a, 1), (b, t.regs)], [(a, 1), (b, t.regs)], .plain, .none⟩ imm .sp howStore (storeElems .sp p t a b)
      (fun y q => ((y.v.storeBytes t b q.lane).drop q.off).take q.len)) ∧
  (∀ (p : Pred) (t : TypeCode) (a b : Opnd), StoreFrames (.staL p t a b) ⟨p, 2, 0, [(a, 1), (b, t.regs)], [(a, 1), (b, t.regs)], .plain, .none⟩ 0 .ab howStore (storeElems .ab p t a b)
      (fun y q => ((y.v.storeBytes t b q.lane).drop q.off).take q.len)) ∧
  (∀ (p : Pred) (t : TypeCode) (a b : Opnd) (imm : Word), StoreFrames (.staX p t a b imm) ⟨p, 3, 0, [(a, 1), (b, t.regs)], [(a, 1), (b, t.regs)], .plain, .none⟩ imm .ab howStore (storeElems .ab p t a b)
      (fun y q => ((y.v.storeBytes t b q.lane).drop q.off).take q.len)) ∧
  (∀ (p : Pred) (rows : Fin 8) (a b : Opnd), ∀ n, b = .v n → StoreFrames (.stdL p rows a b) ⟨p, 2, 0, [(b, rows.val + 1)], [], .plain, .none⟩ 0 .glob (howRows .store) (fun y => y.v.rowsAt p a (rows.val + 1))
      (fun y q => y.v.rowBytes n.val ((q.va - y.v.effAddr a 0).toNat / 64))) ∧
  (∀ (p : Pred) (rows : Fin 8) (a b : Opnd) (imm : Word), ∀ n, b = .v n → StoreFrames (.stdX p rows a b imm) ⟨p, 3, 0, [(b, rows.val + 1)], [], .plain, .none⟩ imm .glob (howRows .store) (fun y => y.v.rowsAt p a (rows.val + 1))
      (fun y q => y.v.rowBytes n.val ((q.va - y.v.effAddr a 0).toNat / 64)))

/-- A committed entry that drains writes its masked bytes and its sideband, and no other byte. In a canonical state whose clocks
run: STORE_BUFFER_DRAIN of a committed entry of bytes, which names no sideband if its line is far memory, with nothing that its
part committed before it and no dirty bits to set, answers a next state that is canonical, in which, as the entry's partition
reads, each byte that the mask names is the entry's data, the line's other bytes are as before, and so is every byte of each line
that no window of far memory lays over the entry's in storage; the line's sideband is the entry's if it has one and its line
holds one, every other line's is as before, and the entry is gone. (R23, R75, R282, R283, R206) -/
def Obligations.DrainWrites : Prop :=
  ∀ (s : State) (id : Nat) (e : StoreEntry), s.frozen = false → s.canonical → s.stores.find? (fun x => x.id == id && x.committed) = some e →
    (((s.entriesOf e.part).takeWhile fun x => x.id != id).filter fun x => x.committed) = [] → e.red = none → e.leaves = [] → e.mask ≠ 0 →
    (isFar (64 * e.line) = true → e.side = none) →
    ∃ t, exec (.storeBufferDrain id) s = .next t ∧ t.canonical ∧ (∀ x ∈ t.stores, x.id ≠ id) ∧
      (∀ a, a / 64 = e.line ∨ s.cell (a / 64) + 64 ≤ s.cell e.line ∨ s.cell e.line + 64 ≤ s.cell (a / 64) →
        t.byteAs e.own a = if a / 64 = e.line ∧ e.mask.getLsbD (a % 64) = true then e.data.getD (a % 64) 0 else s.byteAs e.own a) ∧
      (∀ x, e.side = some x → (isHbm (64 * e.line) || (isBuf (64 * e.line) && !isAb (64 * e.line))) = true → t.sides.read e.line = x) ∧
      (∀ l, l ≠ e.line → t.sides.read l = s.sides.read l)

/-- NOP, EXIT, YIELD, ELECT, GETID and TIME complete. For NOP, EXIT, YIELD, ELECT, GETID, TIME: whenever the form is ready (its part
has the turn, a run and no failing check, and older work is done where the kind asks for it), and the conditions named on the
state and operands hold, exec answers the next state that is named: the effect of the form itself, one more instruction counted,
and where flow goes on. EXIT of every quad or of some, YIELD and ELECT have the effect their rules give; NOP and TIME need no
more. (R146, R147, R148, R149, R150) -/
def Obligations.CompletesCtl : Prop :=
  (∀ (p : Pred), Falls (.nop p) ⟨p, 1, 0, [], [], .plain, .none⟩ 0 (fun _ _ => True) (fun t _ => t) false) ∧
  (∀ (p : Pred), Falls (.exit p) ⟨p, 1, 0, [], [], .endr, .exit⟩ 0 (fun _ _ => True) (fun t y => t.modPart y.r fun q =>
      { q with runs := modLast (fun r => { r with finishing := y.v.votes p }) q.runs }) true) ∧
  (∀ (p : Pred), Falls (.yield p) ⟨p, 1, 0, [], [], .endr, .none⟩ 0 (fun _ _ => True) (fun t y => t.modPart y.r fun q => { q with yielded := true }) true) ∧
  (∀ (p : Pred) (d : Opnd), Views (.elect p d) ⟨p, 1, 0, [], [], .plain, .none⟩ 0 (electOp p d)) ∧
  (∀ (p : Pred) (d : Opnd) (id : IdCode), Falls (.getid p d id) ⟨p, 1, 0, [(d, 1)], [], .plain, .none⟩ 0 (fun _ _ => True) (fun t y => t.putView y.r (y.v.wrUniform p d (BitVec.ofNat 32 (getidVal t y id)))) false) ∧
  (∀ (p : Pred) (d : Opnd), Falls (.time p d) ⟨p, 1, 0, [(d, 2)], [], .plain, .none⟩ 0 (fun _ _ => True) (fun t y => t.putView y.r (y.v.wrUniform64 p d (timeVal t y.c.part))) false)

/-- BRA, BRC, CALL, LOOP, BRX, CALLX and RET complete: not taken, taken, or taken in part. For BRA, BRC, CALL, LOOP, BRX, CALLX,
RET: whenever the form is ready (its part has the turn, a run and no failing check, and older work is done where the kind asks
for it), and the conditions named on the state and operands hold, exec answers the next state that is named: the effect of the
form itself, one more instruction counted, and where flow goes on. Nobody takes the branch: flow goes on sequentially. All quads
take it: the part goes on at the target with its header. Some take it: the run closes and the part waits to be split, the taking
quads with the target. (R151, R152, R153) -/
def Obligations.CompletesBranch : Prop :=
  (∀ (p : Pred) (imm : Word), Transfers (.bra p imm) ⟨p, 3, 0, [], [], .plain, .none⟩ imm (fun y => y.v.votes p) (fun y => directTarget y.v.part.pc imm) false false id) ∧
  (∀ (p : Pred) (a : Opnd) (all : Bool) (neg : Bool) (imm : Word), Transfers (.brc p a all neg imm) ⟨p, 3, 0, [], [], .plain, .none⟩ imm (fun y => brcVotes y.v p a all neg) (fun y => directTarget y.v.part.pc imm) false false id) ∧
  (∀ (p : Pred) (d : Opnd) (imm : Word), Transfers (.call p d imm) ⟨p, 3, 0, [], [], .plain, .none⟩ imm (fun y => y.v.votes p) (fun y => directTarget y.v.part.pc imm) true false
      (fun v => v.setSpair d (nextPc v.part.header v.part.pc 3))) ∧
  (∀ (d : Opnd) (imm : Word), Falls (.loop d imm) ⟨⟨0, false⟩, 3, 0, [], [], .plain, .none⟩ imm (fun _ y => y.v.rd32 d 0 = 1) (fun t y => t.putView y.r (loopView d y.v)) false ∧
      Goes (.loop d imm) ⟨⟨0, false⟩, 3, 0, [], [], .plain, .none⟩ imm (fun t y => y.v.rd32 d 0 ≠ 1 ∧ y.v.part.quads ≠ 0 ∧
      (∃ h, (targetOf false (directTarget y.v.part.pc imm) t y).1 = .ok h) ∧ t.lost (targetOf false (directTarget y.v.part.pc imm) t y).2 y.r = false)
      (fun t y =>
        let u := (targetOf false (directTarget y.v.part.pc imm) t y).2
        u.putView y.r (loopView d (u.fresh y).v)) (fun _ y => directTarget y.v.part.pc imm)
      (fun t y => headerOf (targetOf false (directTarget y.v.part.pc imm) t y).1)) ∧
  (∀ (p : Pred) (a : Opnd), Transfers (.brx p a) ⟨p, 2, 0, [], [], .plain, .none⟩ 0 (fun y => y.v.votes p) (fun y => y.v.spair a) false true id) ∧
  (∀ (p : Pred) (d a : Opnd), Transfers (.callx p d a) ⟨p, 2, 0, [], [], .plain, .none⟩ 0 (fun y => y.v.votes p) (fun y => y.v.spair a) true true
      (fun v => v.setSpair d (nextPc v.part.header v.part.pc 2))) ∧
  (∀ (p : Pred) (a : Opnd), Transfers (.ret p a) ⟨p, 2, 0, [], [], .plain, .none⟩ 0 (fun y => y.v.votes p) (fun y => y.v.spair a) false true id)

/-- ENDR, REGANG, BAR, WAITE, RCLAIM, RRELEASE and PINFO complete. For ENDR, REGANG_L, REGANG_X, BAR_L, BAR_X, WAITE_L, WAITE_X,
RCLAIM, RRELEASE, PINFO: whenever the form is ready (its part has the turn, a run and no failing check, and older work is done
where the kind asks for it), and the conditions named on the state and operands hold, exec answers the next state that is named:
the effect of the form itself, one more instruction counted, and where flow goes on. REGANG and BAR complete once the condition
they wait for holds; WAITE once the counter it names is low enough; RCLAIM once its claim is granted. (R154, R155, R156, R157,
R158, R159) -/
def Obligations.CompletesSync : Prop :=
  (∀ (a b c : Opnd), Falls (.endr a b c) ⟨⟨0, false⟩, 2, 0, [(a, 1), (b, 1), (c, 1)], [], .endr, .none⟩ 0 (fun _ _ => True) (fun t _ => t) true) ∧
  (∀ (a : Opnd), Places (.regangL a) ⟨⟨0, false⟩, 2, 0, [], [], .endr, .none⟩ 0 (fun _ _ => True) (fun t y => (t.modPart y.r fun q =>
      { q.counted true with wait := .regang ((match a with | .zero => 0xFF | _ => (y.v.rd32 a 0).setWidth 8) ||| q.quads) (nextPc q.header q.pc 2) }).due
        [.runCommit y.r, .regangMerge y.r.cohort y.r.gang, .claimDeadlock y.r.cohort])) ∧
  (∀ (a : Opnd) (imm : Word), Places (.regangX a imm) ⟨⟨0, false⟩, 3, 0, [], [], .endr, .none⟩ imm (fun _ _ => True) (fun t y => (t.modPart y.r fun q =>
      { q.counted true with wait := .regang ((match a with | .zero => 0xFF | _ => (y.v.rd32 a 0).setWidth 8) ||| q.quads) (nextPc q.header q.pc 3) }).due
        [.runCommit y.r, .regangMerge y.r.cohort y.r.gang, .claimDeadlock y.r.cohort])) ∧
  (∀ (a : Opnd), Falls (.barL a) ⟨⟨0, false⟩, 2, 0, [], [], .irrevocable, .none⟩ 0 (fun t y => (∃ v k g, y.v.part.wait = .bar v k (some g)) ∧ Passed (barUnit a 0) t y.r) (fun t _ => t) true ∧
      Falls (.barL a) ⟨⟨0, false⟩, 2, 0, [], [], .irrevocable, .none⟩ 0 (fun t y => (∀ v k g, y.v.part.wait ≠ .bar v k (some g)) ∧ Passed (barUnit a 0) (arrived a 0 t y) y.r) (arrived a 0) true) ∧
  (∀ (a : Opnd) (imm : Word), Falls (.barX a imm) ⟨⟨0, false⟩, 3, 0, [], [], .irrevocable, .none⟩ imm (fun t y => (∃ v k g, y.v.part.wait = .bar v k (some g)) ∧ Passed (barUnit a imm) t y.r) (fun t _ => t) true ∧
      Falls (.barX a imm) ⟨⟨0, false⟩, 3, 0, [], [], .irrevocable, .none⟩ imm (fun t y => (∀ v k g, y.v.part.wait ≠ .bar v k (some g)) ∧ Passed (barUnit a imm) (arrived a imm t y) y.r) (arrived a imm) true) ∧
  (∀ (a : Opnd) (cls : EngClass), Falls (.waiteL a cls) ⟨⟨0, false⟩, 2, 0, [], [], .plain, .none⟩ 0 (fun _ y => y.v.gang.counters.get cls ≤ (y.v.rd32 a 0).toNat) (fun t _ => t) false) ∧
  (∀ (a : Opnd) (cls : EngClass) (imm : Word), Falls (.waiteX a cls imm) ⟨⟨0, false⟩, 3, 0, [], [], .plain, .none⟩ imm (fun _ y => y.v.gang.counters.get cls ≤ (y.v.rd32 a 0).toNat) (fun t _ => t) false) ∧
  (∀ (a : Opnd) (imm : Word), Falls (.rclaim a imm) ⟨⟨0, false⟩, 3, 0, [], [], .irrevocable, .claim imm.toNat⟩ imm (fun t y => y.v.othersRun = false ∧ ∃ c, t.claimBy y = some c ∧ c.granted = true) (fun t y =>
      ({ t with claims := t.claims.filter fun c => c.part != y.v.part.id } : State).modGang y.r.cohort y.r.gang fun g =>
        { g.clearFrom (4 * g.units) (4 * imm.toNat) with pool := g.pool ++ (t.claimBy y).elim [] (·.pool) }) true) ∧
  (∀ (a : Opnd) (imm : Word), Falls (.rrelease a imm) ⟨⟨0, false⟩, 3, 0, [], [], .irrevocable, .release imm.toNat⟩ imm (fun _ y => y.v.othersRun = false) (fun t y =>
      (t.modGang y.r.cohort y.r.gang fun g => { g with pool := g.pool.take (g.pool.length - imm.toNat) }).due
        [.claimGrant y.c.core y.v.gang.sub, .launchDecision y.c.core]) true) ∧
  (∀ (p : Pred) (d : Opnd), Views (.pinfo p d) ⟨p, 2, 0, [(d, 1)], [], .plain, .none⟩ 0 (pinfoOp p d))

/-- The integer arithmetic instructions complete. For ADD_L, ADD_X, SUB_L, SUB_X, ADD64_L, ADD64_X, SUB64_L, SUB64_X, MUL_L, MUL_X,
MULHI_L, MULHI_X, MAD_L, MAD_X, MADW_L, MADW_X, DIV_L, DIV_X, REM_L, REM_X, MIN_L, MIN_X, MAX_L, MAX_X, ABS_L, ABS_X, NEG_L,
NEG_X: whenever the form is ready (its part has the turn, a run and no failing check, and older work is done where the kind asks
for it), and its entries fit, exec answers the next state: the effect of the meaning named, on what the part and its gang hold,
one more instruction counted, and flow goes on sequentially. (R177, R178, R179, R180) -/
def Obligations.CompletesIarith : Prop :=
  (∀ (p : Pred) (t : TypeCode) (sat : Bool) (d a b : Opnd), Views (.addL p t sat d a b) ⟨p, 2, 0, [(d, 1), (a, 1), (b, 1)], [(a, 1), (b, 1)], .plain, .none⟩ 0 (bin p t d a b (addT t sat))) ∧
  (∀ (p : Pred) (t : TypeCode) (sat : Bool) (d a b : Opnd) (imm : Word), Views (.addX p t sat d a b imm) ⟨p, 3, 0, [(d, 1), (a, 1), (b, 1)], [(a, 1), (b, 1)], .plain, .none⟩ imm (bin p t d a b (addT t sat))) ∧
  (∀ (p : Pred) (t : TypeCode) (sat : Bool) (d a b : Opnd), Views (.subL p t sat d a b) ⟨p, 2, 0, [(d, 1), (a, 1), (b, 1)], [(a, 1), (b, 1)], .plain, .none⟩ 0 (bin p t d a b (subT t sat))) ∧
  (∀ (p : Pred) (t : TypeCode) (sat : Bool) (d a b : Opnd) (imm : Word), Views (.subX p t sat d a b imm) ⟨p, 3, 0, [(d, 1), (a, 1), (b, 1)], [(a, 1), (b, 1)], .plain, .none⟩ imm (bin p t d a b (subT t sat))) ∧
  (∀ (p : Pred) (t : TypeCode) (sat : Bool) (d a b : Opnd), Views (.add64L p t sat d a b) ⟨p, 2, 0, [(d, 2), (a, 2), (b, 2)], [(a, 2), (b, 2)], .plain, .none⟩ 0 (bin p t d a b (addT t sat))) ∧
  (∀ (p : Pred) (t : TypeCode) (sat : Bool) (d a b : Opnd) (imm : Word), Views (.add64X p t sat d a b imm) ⟨p, 3, 0, [(d, 2), (a, 2), (b, 2)], [(a, 2), (b, 2)], .plain, .none⟩ imm (bin p t d a b (addT t sat))) ∧
  (∀ (p : Pred) (t : TypeCode) (sat : Bool) (d a b : Opnd), Views (.sub64L p t sat d a b) ⟨p, 2, 0, [(d, 2), (a, 2), (b, 2)], [(a, 2), (b, 2)], .plain, .none⟩ 0 (bin p t d a b (subT t sat))) ∧
  (∀ (p : Pred) (t : TypeCode) (sat : Bool) (d a b : Opnd) (imm : Word), Views (.sub64X p t sat d a b imm) ⟨p, 3, 0, [(d, 2), (a, 2), (b, 2)], [(a, 2), (b, 2)], .plain, .none⟩ imm (bin p t d a b (subT t sat))) ∧
  (∀ (p : Pred) (t : TypeCode) (sat : Bool) (d a b : Opnd), Views (.mulL p t sat d a b) ⟨p, 2, 0, [(d, 1), (a, 1), (b, 1)], [(a, 1), (b, 1)], .plain, .none⟩ 0 (bin p t d a b (mulT t sat))) ∧
  (∀ (p : Pred) (t : TypeCode) (sat : Bool) (d a b : Opnd) (imm : Word), Views (.mulX p t sat d a b imm) ⟨p, 3, 0, [(d, 1), (a, 1), (b, 1)], [(a, 1), (b, 1)], .plain, .none⟩ imm (bin p t d a b (mulT t sat))) ∧
  (∀ (p : Pred) (t : TypeCode) (d a b : Opnd), Views (.mulhiL p t d a b) ⟨p, 2, 0, [(d, 1), (a, 1), (b, 1)], [(a, 1), (b, 1)], .plain, .none⟩ 0 (bin p t d a b (mulhiT t))) ∧
  (∀ (p : Pred) (t : TypeCode) (d a b : Opnd) (imm : Word), Views (.mulhiX p t d a b imm) ⟨p, 3, 0, [(d, 1), (a, 1), (b, 1)], [(a, 1), (b, 1)], .plain, .none⟩ imm (bin p t d a b (mulhiT t))) ∧
  (∀ (p : Pred) (t : TypeCode) (sat : Bool) (d a b c : Opnd), Views (.madL p t sat d a b c) ⟨p, 2, 0, [(d, 1), (a, 1), (b, 1), (c, 1)], [(a, 1), (b, 1), (c, 1)], .plain, .none⟩ 0 (tern p t d a b c (madT t sat))) ∧
  (∀ (p : Pred) (t : TypeCode) (sat : Bool) (d a b c : Opnd) (imm : Word), Views (.madX p t sat d a b c imm) ⟨p, 3, 0, [(d, 1), (a, 1), (b, 1), (c, 1)], [(a, 1), (b, 1), (c, 1)], .plain, .none⟩ imm (tern p t d a b c (madT t sat))) ∧
  (∀ (p : Pred) (t : TypeCode) (sat : Bool) (d a b c : Opnd), Views (.madwL p t sat d a b c) ⟨p, 2, 0, [(d, 2), (a, 1), (b, 1), (c, 2)], [(a, 1), (b, 1), (c, 2)], .plain, .none⟩ 0 (madw p t sat d a b c)) ∧
  (∀ (p : Pred) (t : TypeCode) (sat : Bool) (d a b c : Opnd) (imm : Word), Views (.madwX p t sat d a b c imm) ⟨p, 3, 0, [(d, 2), (a, 1), (b, 1), (c, 2)], [(a, 1), (b, 1), (c, 2)], .plain, .none⟩ imm (madw p t sat d a b c)) ∧
  (∀ (p : Pred) (t : TypeCode) (d a b : Opnd), Views (.divL p t d a b) ⟨p, 2, 0, [(d, t.regs), (a, t.regs), (b, t.regs)], [(a, t.regs), (b, t.regs)], .plain, .none⟩ 0 (bin p t d a b (divT t))) ∧
  (∀ (p : Pred) (t : TypeCode) (d a b : Opnd) (imm : Word), Views (.divX p t d a b imm) ⟨p, 3, 0, [(d, t.regs), (a, t.regs), (b, t.regs)], [(a, t.regs), (b, t.regs)], .plain, .none⟩ imm (bin p t d a b (divT t))) ∧
  (∀ (p : Pred) (t : TypeCode) (d a b : Opnd), Views (.remL p t d a b) ⟨p, 2, 0, [(d, t.regs), (a, t.regs), (b, t.regs)], [(a, t.regs), (b, t.regs)], .plain, .none⟩ 0 (bin p t d a b (remT t))) ∧
  (∀ (p : Pred) (t : TypeCode) (d a b : Opnd) (imm : Word), Views (.remX p t d a b imm) ⟨p, 3, 0, [(d, t.regs), (a, t.regs), (b, t.regs)], [(a, t.regs), (b, t.regs)], .plain, .none⟩ imm (bin p t d a b (remT t))) ∧
  (∀ (p : Pred) (t : TypeCode) (d a b : Opnd), Views (.minL p t d a b) ⟨p, 2, 0, [(d, t.regs), (a, t.regs), (b, t.regs)], [(a, t.regs), (b, t.regs)], .plain, .none⟩ 0 (bin p t d a b (minT t))) ∧
  (∀ (p : Pred) (t : TypeCode) (d a b : Opnd) (imm : Word), Views (.minX p t d a b imm) ⟨p, 3, 0, [(d, t.regs), (a, t.regs), (b, t.regs)], [(a, t.regs), (b, t.regs)], .plain, .none⟩ imm (bin p t d a b (minT t))) ∧
  (∀ (p : Pred) (t : TypeCode) (d a b : Opnd), Views (.maxL p t d a b) ⟨p, 2, 0, [(d, t.regs), (a, t.regs), (b, t.regs)], [(a, t.regs), (b, t.regs)], .plain, .none⟩ 0 (bin p t d a b (maxT t))) ∧
  (∀ (p : Pred) (t : TypeCode) (d a b : Opnd) (imm : Word), Views (.maxX p t d a b imm) ⟨p, 3, 0, [(d, t.regs), (a, t.regs), (b, t.regs)], [(a, t.regs), (b, t.regs)], .plain, .none⟩ imm (bin p t d a b (maxT t))) ∧
  (∀ (p : Pred) (t : TypeCode) (sat : Bool) (d a : Opnd), Views (.absL p t sat d a) ⟨p, 2, 0, [(d, t.regs), (a, t.regs)], [(a, t.regs)], .plain, .none⟩ 0 (un p t d a (absT t sat))) ∧
  (∀ (p : Pred) (t : TypeCode) (sat : Bool) (d a : Opnd) (imm : Word), Views (.absX p t sat d a imm) ⟨p, 3, 0, [(d, t.regs), (a, t.regs)], [(a, t.regs)], .plain, .none⟩ imm (un p t d a (absT t sat))) ∧
  (∀ (p : Pred) (t : TypeCode) (sat : Bool) (d a : Opnd), Views (.negL p t sat d a) ⟨p, 2, 0, [(d, t.regs), (a, t.regs)], [(a, t.regs)], .plain, .none⟩ 0 (un p t d a (negT t sat))) ∧
  (∀ (p : Pred) (t : TypeCode) (sat : Bool) (d a : Opnd) (imm : Word), Views (.negX p t sat d a imm) ⟨p, 3, 0, [(d, t.regs), (a, t.regs)], [(a, t.regs)], .plain, .none⟩ imm (un p t d a (negT t sat)))

/-- The bitwise, shift and bit-field instructions complete. For AND_L, AND_X, OR_L, OR_X, XOR_L, XOR_X, ANDN_L, ANDN_X, NOT_L,
NOT_X, SHL_L, SHL_X, SHR_L, SHR_X, SAR_L, SAR_X, ROTL_L, ROTL_X, FUNNEL_L, FUNNEL_X, POPC_L, POPC_X, CLZ_L, CLZ_X, CTZ_L, CTZ_X,
BREV_L, BREV_X, BFE_L, BFE_X, BFI_L, BFI_X, PERMB_L, PERMB_X: whenever the form is ready (its part has the turn, a run and no
failing check, and older work is done where the kind asks for it), and its entries fit, exec answers the next state: the effect
of the meaning named, on what the part and its gang hold, one more instruction counted, and flow goes on sequentially. (R181,
R182, R183, R184, R185, R186) -/
def Obligations.CompletesIbit : Prop :=
  (∀ (p : Pred) (t : TypeCode) (d a b : Opnd), Views (.andL p t d a b) ⟨p, 2, 0, [(d, t.regs), (a, t.regs), (b, t.regs)], [(a, t.regs), (b, t.regs)], .plain, .none⟩ 0 (bin p t d a b fun x y => (maskT t (x &&& y), 0))) ∧
  (∀ (p : Pred) (t : TypeCode) (d a b : Opnd) (imm : Word), Views (.andX p t d a b imm) ⟨p, 3, 0, [(d, t.regs), (a, t.regs), (b, t.regs)], [(a, t.regs), (b, t.regs)], .plain, .none⟩ imm (bin p t d a b fun x y => (maskT t (x &&& y), 0))) ∧
  (∀ (p : Pred) (t : TypeCode) (d a b : Opnd), Views (.orL p t d a b) ⟨p, 2, 0, [(d, t.regs), (a, t.regs), (b, t.regs)], [(a, t.regs), (b, t.regs)], .plain, .none⟩ 0 (bin p t d a b fun x y => (maskT t (x ||| y), 0))) ∧
  (∀ (p : Pred) (t : TypeCode) (d a b : Opnd) (imm : Word), Views (.orX p t d a b imm) ⟨p, 3, 0, [(d, t.regs), (a, t.regs), (b, t.regs)], [(a, t.regs), (b, t.regs)], .plain, .none⟩ imm (bin p t d a b fun x y => (maskT t (x ||| y), 0))) ∧
  (∀ (p : Pred) (t : TypeCode) (d a b : Opnd), Views (.xorL p t d a b) ⟨p, 2, 0, [(d, t.regs), (a, t.regs), (b, t.regs)], [(a, t.regs), (b, t.regs)], .plain, .none⟩ 0 (bin p t d a b fun x y => (maskT t (x ^^^ y), 0))) ∧
  (∀ (p : Pred) (t : TypeCode) (d a b : Opnd) (imm : Word), Views (.xorX p t d a b imm) ⟨p, 3, 0, [(d, t.regs), (a, t.regs), (b, t.regs)], [(a, t.regs), (b, t.regs)], .plain, .none⟩ imm (bin p t d a b fun x y => (maskT t (x ^^^ y), 0))) ∧
  (∀ (p : Pred) (t : TypeCode) (d a b : Opnd), Views (.andnL p t d a b) ⟨p, 2, 0, [(d, t.regs), (a, t.regs), (b, t.regs)], [(a, t.regs), (b, t.regs)], .plain, .none⟩ 0 (bin p t d a b fun x y => (maskT t (x &&& ~~~y), 0))) ∧
  (∀ (p : Pred) (t : TypeCode) (d a b : Opnd) (imm : Word), Views (.andnX p t d a b imm) ⟨p, 3, 0, [(d, t.regs), (a, t.regs), (b, t.regs)], [(a, t.regs), (b, t.regs)], .plain, .none⟩ imm (bin p t d a b fun x y => (maskT t (x &&& ~~~y), 0))) ∧
  (∀ (p : Pred) (t : TypeCode) (d a : Opnd), Views (.notL p t d a) ⟨p, 2, 0, [(d, t.regs), (a, t.regs)], [(a, t.regs)], .plain, .none⟩ 0 (un p t d a fun x => (maskT t (~~~x), 0))) ∧
  (∀ (p : Pred) (t : TypeCode) (d a : Opnd) (imm : Word), Views (.notX p t d a imm) ⟨p, 3, 0, [(d, t.regs), (a, t.regs)], [(a, t.regs)], .plain, .none⟩ imm (un p t d a fun x => (maskT t (~~~x), 0))) ∧
  (∀ (p : Pred) (t : TypeCode) (d a b : Opnd), Views (.shlL p t d a b) ⟨p, 2, 0, [(d, t.regs), (a, t.regs), (b, 1)], [(a, t.regs), (b, 1)], .plain, .none⟩ 0 (shiftOp p t d a b (shlT t))) ∧
  (∀ (p : Pred) (t : TypeCode) (d a b : Opnd) (imm : Word), Views (.shlX p t d a b imm) ⟨p, 3, 0, [(d, t.regs), (a, t.regs), (b, 1)], [(a, t.regs), (b, 1)], .plain, .none⟩ imm (shiftOp p t d a b (shlT t))) ∧
  (∀ (p : Pred) (t : TypeCode) (d a b : Opnd), Views (.shrL p t d a b) ⟨p, 2, 0, [(d, t.regs), (a, t.regs), (b, 1)], [(a, t.regs), (b, 1)], .plain, .none⟩ 0 (shiftOp p t d a b (shrT t))) ∧
  (∀ (p : Pred) (t : TypeCode) (d a b : Opnd) (imm : Word), Views (.shrX p t d a b imm) ⟨p, 3, 0, [(d, t.regs), (a, t.regs), (b, 1)], [(a, t.regs), (b, 1)], .plain, .none⟩ imm (shiftOp p t d a b (shrT t))) ∧
  (∀ (p : Pred) (t : TypeCode) (d a b : Opnd), Views (.sarL p t d a b) ⟨p, 2, 0, [(d, t.regs), (a, t.regs), (b, 1)], [(a, t.regs), (b, 1)], .plain, .none⟩ 0 (shiftOp p t d a b (sarT t))) ∧
  (∀ (p : Pred) (t : TypeCode) (d a b : Opnd) (imm : Word), Views (.sarX p t d a b imm) ⟨p, 3, 0, [(d, t.regs), (a, t.regs), (b, 1)], [(a, t.regs), (b, 1)], .plain, .none⟩ imm (shiftOp p t d a b (sarT t))) ∧
  (∀ (p : Pred) (t : TypeCode) (d a b : Opnd), Views (.rotlL p t d a b) ⟨p, 2, 0, [(d, t.regs), (a, t.regs), (b, 1)], [(a, t.regs), (b, 1)], .plain, .none⟩ 0 (shiftOp p t d a b (rotlT t))) ∧
  (∀ (p : Pred) (t : TypeCode) (d a b : Opnd) (imm : Word), Views (.rotlX p t d a b imm) ⟨p, 3, 0, [(d, t.regs), (a, t.regs), (b, 1)], [(a, t.regs), (b, 1)], .plain, .none⟩ imm (shiftOp p t d a b (rotlT t))) ∧
  (∀ (p : Pred) (t : TypeCode) (d a b c : Opnd), Views (.funnelL p t d a b c) ⟨p, 2, 0, [(d, 1), (a, 1), (b, 1), (c, 1)], [(a, 1), (b, 1), (c, 1)], .plain, .none⟩ 0 (w3 p d a b c funnel)) ∧
  (∀ (p : Pred) (t : TypeCode) (d a b c : Opnd) (imm : Word), Views (.funnelX p t d a b c imm) ⟨p, 3, 0, [(d, 1), (a, 1), (b, 1), (c, 1)], [(a, 1), (b, 1), (c, 1)], .plain, .none⟩ imm (w3 p d a b c funnel)) ∧
  (∀ (p : Pred) (t : TypeCode) (d a : Opnd), Views (.popcL p t d a) ⟨p, 2, 0, [(d, 1), (a, t.regs)], [(a, t.regs)], .plain, .none⟩ 0 (countOp p t d a fun w x => popCount x w)) ∧
  (∀ (p : Pred) (t : TypeCode) (d a : Opnd) (imm : Word), Views (.popcX p t d a imm) ⟨p, 3, 0, [(d, 1), (a, t.regs)], [(a, t.regs)], .plain, .none⟩ imm (countOp p t d a fun w x => popCount x w)) ∧
  (∀ (p : Pred) (t : TypeCode) (d a : Opnd), Views (.clzL p t d a) ⟨p, 2, 0, [(d, 1), (a, t.regs)], [(a, t.regs)], .plain, .none⟩ 0 (countOp p t d a clz)) ∧
  (∀ (p : Pred) (t : TypeCode) (d a : Opnd) (imm : Word), Views (.clzX p t d a imm) ⟨p, 3, 0, [(d, 1), (a, t.regs)], [(a, t.regs)], .plain, .none⟩ imm (countOp p t d a clz)) ∧
  (∀ (p : Pred) (t : TypeCode) (d a : Opnd), Views (.ctzL p t d a) ⟨p, 2, 0, [(d, 1), (a, t.regs)], [(a, t.regs)], .plain, .none⟩ 0 (countOp p t d a ctz)) ∧
  (∀ (p : Pred) (t : TypeCode) (d a : Opnd) (imm : Word), Views (.ctzX p t d a imm) ⟨p, 3, 0, [(d, 1), (a, t.regs)], [(a, t.regs)], .plain, .none⟩ imm (countOp p t d a ctz)) ∧
  (∀ (p : Pred) (t : TypeCode) (d a : Opnd), Views (.brevL p t d a) ⟨p, 2, 0, [(d, t.regs), (a, t.regs)], [(a, t.regs)], .plain, .none⟩ 0 (un p t d a fun x => (BitVec.ofNat 64 (brev (maskT t x).toNat t.width), 0))) ∧
  (∀ (p : Pred) (t : TypeCode) (d a : Opnd) (imm : Word), Views (.brevX p t d a imm) ⟨p, 3, 0, [(d, t.regs), (a, t.regs)], [(a, t.regs)], .plain, .none⟩ imm (un p t d a fun x => (BitVec.ofNat 64 (brev (maskT t x).toNat t.width), 0))) ∧
  (∀ (p : Pred) (t : TypeCode) (d a b : Opnd), Views (.bfeL p t d a b) ⟨p, 2, 0, [(d, 1), (a, 1), (b, 1)], [(a, 1), (b, 1)], .plain, .none⟩ 0 (w2 p d a b (bfe t.signed))) ∧
  (∀ (p : Pred) (t : TypeCode) (d a b : Opnd) (imm : Word), Views (.bfeX p t d a b imm) ⟨p, 3, 0, [(d, 1), (a, 1), (b, 1)], [(a, 1), (b, 1)], .plain, .none⟩ imm (w2 p d a b (bfe t.signed))) ∧
  (∀ (p : Pred) (t : TypeCode) (d a b c : Opnd), Views (.bfiL p t d a b c) ⟨p, 2, 0, [(d, 1), (a, 1), (b, 1), (c, 1)], [(a, 1), (b, 1), (c, 1)], .plain, .none⟩ 0 (w3 p d a b c bfi)) ∧
  (∀ (p : Pred) (t : TypeCode) (d a b c : Opnd) (imm : Word), Views (.bfiX p t d a b c imm) ⟨p, 3, 0, [(d, 1), (a, 1), (b, 1), (c, 1)], [(a, 1), (b, 1), (c, 1)], .plain, .none⟩ imm (w3 p d a b c bfi)) ∧
  (∀ (p : Pred) (t : TypeCode) (d a b c : Opnd), Views (.permbL p t d a b c) ⟨p, 2, 0, [(d, 1), (a, 1), (b, 1), (c, 1)], [(a, 1), (b, 1), (c, 1)], .plain, .none⟩ 0 (w3 p d a b c permb)) ∧
  (∀ (p : Pred) (t : TypeCode) (d a b c : Opnd) (imm : Word), Views (.permbX p t d a b c imm) ⟨p, 3, 0, [(d, 1), (a, 1), (b, 1), (c, 1)], [(a, 1), (b, 1), (c, 1)], .plain, .none⟩ imm (w3 p d a b c permb))

/-- CMP and the predicate instructions complete. For CMP_L, CMP_X, PAND_L, PAND_X, POR_L, POR_X, PXOR_L, PXOR_X, PNOT_L, PNOT_X:
whenever the form is ready (its part has the turn, a run and no failing check, and older work is done where the kind asks for
it), and its entries fit, exec answers the next state: the effect of the meaning named, on what the part and its gang hold, one
more instruction counted, and flow goes on sequentially. (R187, R188) -/
def Obligations.CompletesIpred : Prop :=
  (∀ (p : Pred) (t : TypeCode) (cond : Cond) (comb : Comb) (d a b : Opnd), Views (.cmpL p t cond comb d a b) ⟨p, 2, 0, [(a, t.regs), (b, t.regs)], [(a, t.regs), (b, t.regs)], .plain, .none⟩ 0 (cmpOp p t cond comb d a b)) ∧
  (∀ (p : Pred) (t : TypeCode) (cond : Cond) (comb : Comb) (d a b : Opnd) (imm : Word), Views (.cmpX p t cond comb d a b imm) ⟨p, 3, 0, [(a, t.regs), (b, t.regs)], [(a, t.regs), (b, t.regs)], .plain, .none⟩ imm (cmpOp p t cond comb d a b)) ∧
  (∀ (p : Pred) (d a b : Opnd), Views (.pandL p d a b) ⟨p, 2, 0, [], [], .plain, .none⟩ 0 (w2 p d a b (· &&& ·))) ∧
  (∀ (p : Pred) (d a b : Opnd) (imm : Word), Views (.pandX p d a b imm) ⟨p, 3, 0, [], [], .plain, .none⟩ imm (w2 p d a b (· &&& ·))) ∧
  (∀ (p : Pred) (d a b : Opnd), Views (.porL p d a b) ⟨p, 2, 0, [], [], .plain, .none⟩ 0 (w2 p d a b (· ||| ·))) ∧
  (∀ (p : Pred) (d a b : Opnd) (imm : Word), Views (.porX p d a b imm) ⟨p, 3, 0, [], [], .plain, .none⟩ imm (w2 p d a b (· ||| ·))) ∧
  (∀ (p : Pred) (d a b : Opnd), Views (.pxorL p d a b) ⟨p, 2, 0, [], [], .plain, .none⟩ 0 (w2 p d a b (· ^^^ ·))) ∧
  (∀ (p : Pred) (d a b : Opnd) (imm : Word), Views (.pxorX p d a b imm) ⟨p, 3, 0, [], [], .plain, .none⟩ imm (w2 p d a b (· ^^^ ·))) ∧
  (∀ (p : Pred) (d a : Opnd), Views (.pnotL p d a) ⟨p, 2, 0, [], [], .plain, .none⟩ 0 (w1 p d a (~~~ ·))) ∧
  (∀ (p : Pred) (d a : Opnd) (imm : Word), Views (.pnotX p d a imm) ⟨p, 3, 0, [], [], .plain, .none⟩ imm (w1 p d a (~~~ ·)))

/-- The move, select, extend, pack and unpack instructions complete. For MOV_L, MOV_X, MOVI, SEL_L, SEL_X, EXT_L, EXT_X, PACK_L,
PACK_X, UNPACK_L, UNPACK_X: whenever the form is ready (its part has the turn, a run and no failing check, and older work is
done where the kind asks for it), and its entries fit, exec answers the next state: the effect of the meaning named, on what the
part and its gang hold, one more instruction counted, and flow goes on sequentially. (R189, R190, R191, R192, R193) -/
def Obligations.CompletesImove : Prop :=
  (∀ (p : Pred) (t : TypeCode) (d a : Opnd), Views (.movL p t d a) ⟨p, 2, 0, [(d, t.regs), (a, t.regs)], [(a, t.regs)], .plain, .none⟩ 0 (un p t d a fun x => (x, 0))) ∧
  (∀ (p : Pred) (t : TypeCode) (d a : Opnd) (imm : Word), Views (.movX p t d a imm) ⟨p, 3, 0, [(d, t.regs), (a, t.regs)], [(a, t.regs)], .plain, .none⟩ imm (un p t d a fun x => (x, 0))) ∧
  (∀ (p : Pred) (t : TypeCode) (h : Fin 4) (d a : Opnd) (imm : Word), Views (.movi p t h d a imm) ⟨p, 3, 0, [(d, t.regs)], [(d, t.regs)], .plain, .none⟩ imm (moviOp p t h.val d)) ∧
  (∀ (p : Pred) (t : TypeCode) (d a b c : Opnd), Views (.selL p t d a b c) ⟨p, 2, 0, [(d, t.regs), (a, t.regs), (b, t.regs)], [(a, t.regs), (b, t.regs)], .plain, .none⟩ 0 (selOp p t d a b c)) ∧
  (∀ (p : Pred) (t : TypeCode) (d a b c : Opnd) (imm : Word), Views (.selX p t d a b c imm) ⟨p, 3, 0, [(d, t.regs), (a, t.regs), (b, t.regs)], [(a, t.regs), (b, t.regs)], .plain, .none⟩ imm (selOp p t d a b c)) ∧
  (∀ (p : Pred) (t : TypeCode) (w : ExtW) (d a : Opnd), Views (.extL p t w d a) ⟨p, 2, 0, [(d, t.regs), (a, 1)], [(a, 1)], .plain, .none⟩ 0 (fun v => v.compute p t.wide d [a] fun l => (extT t w (v.rd32 a l), 0))) ∧
  (∀ (p : Pred) (t : TypeCode) (w : ExtW) (d a : Opnd) (imm : Word), Views (.extX p t w d a imm) ⟨p, 3, 0, [(d, t.regs), (a, 1)], [(a, 1)], .plain, .none⟩ imm (fun v => v.compute p t.wide d [a] fun l => (extT t w (v.rd32 a l), 0))) ∧
  (∀ (p : Pred) (t : TypeCode) (nar : Narrow) (d a b : Opnd), Views (.packL p t nar d a b) ⟨p, 2, 0, [(d, 1), (a, 1), (b, 1)], [(a, 1), (b, 1)], .plain, .none⟩ 0 (fun v => v.compute p false d [a, b] fun l => let x := packT t nar (v.rd32 a l) (v.rd32 b l); (x.1.setWidth 64, x.2))) ∧
  (∀ (p : Pred) (t : TypeCode) (nar : Narrow) (d a b : Opnd) (imm : Word), Views (.packX p t nar d a b imm) ⟨p, 3, 0, [(d, 1), (a, 1), (b, 1)], [(a, 1), (b, 1)], .plain, .none⟩ imm (fun v => v.compute p false d [a, b] fun l => let x := packT t nar (v.rd32 a l) (v.rd32 b l); (x.1.setWidth 64, x.2))) ∧
  (∀ (p : Pred) (t : TypeCode) (idx : Fin 4) (sx : Bool) (d a : Opnd), Views (.unpackL p t idx sx d a) ⟨p, 2, 0, [(d, 1), (a, 1)], [(a, 1)], .plain, .none⟩ 0 (w1 p d a (unpackT t idx.val sx))) ∧
  (∀ (p : Pred) (t : TypeCode) (idx : Fin 4) (sx : Bool) (d a : Opnd) (imm : Word), Views (.unpackX p t idx sx d a imm) ⟨p, 3, 0, [(d, 1), (a, 1)], [(a, 1)], .plain, .none⟩ imm (w1 p d a (unpackT t idx.val sx)))

/-- The floating-point arithmetic instructions complete. For FADD_L, FADD_X, FSUB_L, FSUB_X, FMUL_L, FMUL_X, FFMA_L, FFMA_X, FMIN_L,
FMIN_X, FMAX_L, FMAX_X, FABS_L, FABS_X, FNEG_L, FNEG_X, FCMP_L, FCMP_X, FRND_L, FRND_X, FCLASS_L, FCLASS_X, FSCALE_L, FSCALE_X:
whenever the form is ready (its part has the turn, a run and no failing check, and older work is done where the kind asks for
it), and its entries fit, exec answers the next state: the effect of the meaning named, on what the part and its gang hold, one
more instruction counted, and flow goes on sequentially. (R219, R220, R221, R222, R223, R224, R225) -/
def Obligations.CompletesFarith : Prop :=
  (∀ (p : Pred) (t : TypeCode) (rnd : Rnd) (d a b : Opnd), Views (.faddL p t rnd d a b) ⟨p, 2, 0, [(d, 1), (a, 1), (b, 1)], [(a, 1), (b, 1)], .plain, .none⟩ 0 (farith2 .add p rnd d a b)) ∧
  (∀ (p : Pred) (t : TypeCode) (rnd : Rnd) (d a b : Opnd) (imm : Word), Views (.faddX p t rnd d a b imm) ⟨p, 3, 0, [(d, 1), (a, 1), (b, 1)], [(a, 1), (b, 1)], .plain, .none⟩ imm (farith2 .add p rnd d a b)) ∧
  (∀ (p : Pred) (t : TypeCode) (rnd : Rnd) (d a b : Opnd), Views (.fsubL p t rnd d a b) ⟨p, 2, 0, [(d, 1), (a, 1), (b, 1)], [(a, 1), (b, 1)], .plain, .none⟩ 0 (farith2 .sub p rnd d a b)) ∧
  (∀ (p : Pred) (t : TypeCode) (rnd : Rnd) (d a b : Opnd) (imm : Word), Views (.fsubX p t rnd d a b imm) ⟨p, 3, 0, [(d, 1), (a, 1), (b, 1)], [(a, 1), (b, 1)], .plain, .none⟩ imm (farith2 .sub p rnd d a b)) ∧
  (∀ (p : Pred) (t : TypeCode) (rnd : Rnd) (d a b : Opnd), Views (.fmulL p t rnd d a b) ⟨p, 2, 0, [(d, 1), (a, 1), (b, 1)], [(a, 1), (b, 1)], .plain, .none⟩ 0 (farith2 .mul p rnd d a b)) ∧
  (∀ (p : Pred) (t : TypeCode) (rnd : Rnd) (d a b : Opnd) (imm : Word), Views (.fmulX p t rnd d a b imm) ⟨p, 3, 0, [(d, 1), (a, 1), (b, 1)], [(a, 1), (b, 1)], .plain, .none⟩ imm (farith2 .mul p rnd d a b)) ∧
  (∀ (p : Pred) (t : TypeCode) (rnd : Rnd) (d a b c : Opnd), Views (.ffmaL p t rnd d a b c) ⟨p, 2, 0, [(d, 1), (a, 1), (b, 1), (c, 1)], [(a, 1), (b, 1), (c, 1)], .plain, .none⟩ 0 (farith3 p rnd d a b c)) ∧
  (∀ (p : Pred) (t : TypeCode) (rnd : Rnd) (d a b c : Opnd) (imm : Word), Views (.ffmaX p t rnd d a b c imm) ⟨p, 3, 0, [(d, 1), (a, 1), (b, 1), (c, 1)], [(a, 1), (b, 1), (c, 1)], .plain, .none⟩ imm (farith3 p rnd d a b c)) ∧
  (∀ (p : Pred) (t : TypeCode) (d a b : Opnd), Views (.fminL p t d a b) ⟨p, 2, 0, [(d, 1), (a, 1), (b, 1)], [(a, 1), (b, 1)], .plain, .none⟩ 0 (f2 p d a b fun m x y => fminmax false (ftzOf m) x y)) ∧
  (∀ (p : Pred) (t : TypeCode) (d a b : Opnd) (imm : Word), Views (.fminX p t d a b imm) ⟨p, 3, 0, [(d, 1), (a, 1), (b, 1)], [(a, 1), (b, 1)], .plain, .none⟩ imm (f2 p d a b fun m x y => fminmax false (ftzOf m) x y)) ∧
  (∀ (p : Pred) (t : TypeCode) (d a b : Opnd), Views (.fmaxL p t d a b) ⟨p, 2, 0, [(d, 1), (a, 1), (b, 1)], [(a, 1), (b, 1)], .plain, .none⟩ 0 (f2 p d a b fun m x y => fminmax true (ftzOf m) x y)) ∧
  (∀ (p : Pred) (t : TypeCode) (d a b : Opnd) (imm : Word), Views (.fmaxX p t d a b imm) ⟨p, 3, 0, [(d, 1), (a, 1), (b, 1)], [(a, 1), (b, 1)], .plain, .none⟩ imm (f2 p d a b fun m x y => fminmax true (ftzOf m) x y)) ∧
  (∀ (p : Pred) (t : TypeCode) (d a : Opnd), Views (.fabsL p t d a) ⟨p, 2, 0, [(d, 1), (a, 1)], [(a, 1)], .plain, .none⟩ 0 (w1 p d a fun x => x &&& 0x7FFFFFFF)) ∧
  (∀ (p : Pred) (t : TypeCode) (d a : Opnd) (imm : Word), Views (.fabsX p t d a imm) ⟨p, 3, 0, [(d, 1), (a, 1)], [(a, 1)], .plain, .none⟩ imm (w1 p d a fun x => x &&& 0x7FFFFFFF)) ∧
  (∀ (p : Pred) (t : TypeCode) (d a : Opnd), Views (.fnegL p t d a) ⟨p, 2, 0, [(d, 1), (a, 1)], [(a, 1)], .plain, .none⟩ 0 (w1 p d a fun x => x ^^^ 0x80000000)) ∧
  (∀ (p : Pred) (t : TypeCode) (d a : Opnd) (imm : Word), Views (.fnegX p t d a imm) ⟨p, 3, 0, [(d, 1), (a, 1)], [(a, 1)], .plain, .none⟩ imm (w1 p d a fun x => x ^^^ 0x80000000)) ∧
  (∀ (p : Pred) (t : TypeCode) (cond : FCond) (comb : Comb) (d a b : Opnd), Views (.fcmpL p t cond comb d a b) ⟨p, 2, 0, [(a, 1), (b, 1)], [(a, 1), (b, 1)], .plain, .none⟩ 0 (fcmpOp p cond comb d a b)) ∧
  (∀ (p : Pred) (t : TypeCode) (cond : FCond) (comb : Comb) (d a b : Opnd) (imm : Word), Views (.fcmpX p t cond comb d a b imm) ⟨p, 3, 0, [(a, 1), (b, 1)], [(a, 1), (b, 1)], .plain, .none⟩ imm (fcmpOp p cond comb d a b)) ∧
  (∀ (p : Pred) (t : TypeCode) (rnd : Rnd) (d a : Opnd), Views (.frndL p t rnd d a) ⟨p, 2, 0, [(d, 1), (a, 1)], [(a, 1)], .plain, .none⟩ 0 (f1 p d a fun m x => frnd (modeOf m rnd) (ftzOf m) x)) ∧
  (∀ (p : Pred) (t : TypeCode) (rnd : Rnd) (d a : Opnd) (imm : Word), Views (.frndX p t rnd d a imm) ⟨p, 3, 0, [(d, 1), (a, 1)], [(a, 1)], .plain, .none⟩ imm (f1 p d a fun m x => frnd (modeOf m rnd) (ftzOf m) x)) ∧
  (∀ (p : Pred) (t : TypeCode) (d a : Opnd), Views (.fclassL p t d a) ⟨p, 2, 0, [(d, 1), (a, 1)], [(a, 1)], .plain, .none⟩ 0 (w1 p d a fclass)) ∧
  (∀ (p : Pred) (t : TypeCode) (d a : Opnd) (imm : Word), Views (.fclassX p t d a imm) ⟨p, 3, 0, [(d, 1), (a, 1)], [(a, 1)], .plain, .none⟩ imm (w1 p d a fclass)) ∧
  (∀ (p : Pred) (t : TypeCode) (rnd : Rnd) (d a b : Opnd), Views (.fscaleL p t rnd d a b) ⟨p, 2, 0, [(d, 1), (a, 1), (b, 1)], [(a, 1), (b, 1)], .plain, .none⟩ 0 (f2 p d a b fun m x y => fscale (modeOf m rnd) (ftzOf m) x y)) ∧
  (∀ (p : Pred) (t : TypeCode) (rnd : Rnd) (d a b : Opnd) (imm : Word), Views (.fscaleX p t rnd d a b imm) ⟨p, 3, 0, [(d, 1), (a, 1), (b, 1)], [(a, 1), (b, 1)], .plain, .none⟩ imm (f2 p d a b fun m x y => fscale (modeOf m rnd) (ftzOf m) x y))

/-- The special functions, FDIV and FSQRT complete. For FRCP, FRSQ, FSQRT, FDIV, FEXP2, FLOG2, FSIN, FCOS: whenever the form is
ready (its part has the turn, a run and no failing check, and older work is done where the kind asks for it), and its entries
fit, exec answers the next state: the effect of the meaning named, on what the part and its gang hold, one more instruction
counted, and flow goes on sequentially. (R226) -/
def Obligations.CompletesFspec : Prop :=
  (∀ (p : Pred) (t : TypeCode) (d a : Opnd), Views (.frcp p t d a) ⟨p, 2, 0, [(d, 1), (a, 1)], [(a, 1)], .plain, .none⟩ 0 (f1 p d a fun m x => Special.rcp.op (ftzOf m) x)) ∧
  (∀ (p : Pred) (t : TypeCode) (d a : Opnd), Views (.frsq p t d a) ⟨p, 2, 0, [(d, 1), (a, 1)], [(a, 1)], .plain, .none⟩ 0 (f1 p d a fun m x => Special.rsq.op (ftzOf m) x)) ∧
  (∀ (p : Pred) (t : TypeCode) (rnd : Rnd) (d a : Opnd), Views (.fsqrt p t rnd d a) ⟨p, 2, 0, [(d, 1), (a, 1)], [(a, 1)], .plain, .none⟩ 0 (f1 p d a fun m x => fsqrt (modeOf m rnd) (ftzOf m) x)) ∧
  (∀ (p : Pred) (t : TypeCode) (rnd : Rnd) (d a b : Opnd), Views (.fdiv p t rnd d a b) ⟨p, 2, 0, [(d, 1), (a, 1), (b, 1)], [(a, 1), (b, 1)], .plain, .none⟩ 0 (f2 p d a b fun m x y => fdiv (modeOf m rnd) (ftzOf m) x y)) ∧
  (∀ (p : Pred) (t : TypeCode) (d a : Opnd), Views (.fexp2 p t d a) ⟨p, 2, 0, [(d, 1), (a, 1)], [(a, 1)], .plain, .none⟩ 0 (f1 p d a fun m x => Special.exp2.op (ftzOf m) x)) ∧
  (∀ (p : Pred) (t : TypeCode) (d a : Opnd), Views (.flog2 p t d a) ⟨p, 2, 0, [(d, 1), (a, 1)], [(a, 1)], .plain, .none⟩ 0 (f1 p d a fun m x => Special.log2.op (ftzOf m) x)) ∧
  (∀ (p : Pred) (t : TypeCode) (d a : Opnd), Views (.fsin p t d a) ⟨p, 2, 0, [(d, 1), (a, 1)], [(a, 1)], .plain, .none⟩ 0 (f1 p d a fun m x => Special.sin.op (ftzOf m) x)) ∧
  (∀ (p : Pred) (t : TypeCode) (d a : Opnd), Views (.fcos p t d a) ⟨p, 2, 0, [(d, 1), (a, 1)], [(a, 1)], .plain, .none⟩ 0 (f1 p d a fun m x => Special.cos.op (ftzOf m) x))

/-- CVT, CVTP, TAGGET and TAGSET complete. For CVT, CVTP, TAGGET, TAGSET: whenever the form is ready (its part has the turn, a run
and no failing check, and older work is done where the kind asks for it), and the conditions named on the state and operands
hold, exec answers the next state that is named: the effect of the form itself, one more instruction counted, and where flow
goes on. (R231, R232, R233, R234) -/
def Obligations.CompletesFconv : Prop :=
  (∀ (p : Pred) (src : SrcCode) (t : TypeCode) (rnd : Rnd) (d a : Opnd), Views (.cvt p src t rnd d a) ⟨p, 2, 0, [(d, 1), (a, 1)], [(a, 1)], .plain, .none⟩ 0 (cvtOp p src t rnd d a)) ∧
  (∀ (p : Pred) (src : SrcCode) (t : TypeCode) (rnd : Rnd) (d a b : Opnd) (slot : Fin 8), Views (.cvtp p src t rnd d a b slot) ⟨p, 2, 0, [(d, 1), (a, 1), (b, 1)], [(a, 1)] ++ (if (cvtpRow src.code t).any (·.2) then [(b, 1)] else []) ++ (if src == .f32 && !fmt16 t then [(d, 1)] else []), .plain, .none⟩ 0 (cvtpOp p src t rnd d a b slot.val)) ∧
  (∀ (p : Pred) (d a : Opnd), Views (.tagget p d a) ⟨p, 2, 0, [(d, 1), (a, 1)], [], .plain, .none⟩ 0 (taggetOp p d a)) ∧
  (∀ (p : Pred) (d a : Opnd), Falls (.tagset p d a) ⟨p, 2, 0, [(d, 1)], [], .plain, .none⟩ 0 (fun _ y => y.v.acts p = false) (fun t _ => t) false ∧
      (∀ n, d = .v n → Falls (.tagset p d a) ⟨p, 2, 0, [(d, 1)], [], .plain, .none⟩ 0 (fun _ y => y.v.acts p = true ∧ (y.v.rd32 a 0).toNat < 2 ^ 24 ∧ sideCodeOk ((y.v.rd32 a 0).toNat % 256) = true)
      (fun t y => t.putView y.r (y.v.setVreg n.val ⟨(y.v.vreg n.val).row, (y.v.rd32 a 0).setWidth 24⟩)) false))

/-- The packed half and dot-product instructions complete. For HADD2_L, HADD2_X, HMUL2_L, HMUL2_X, HFMA2_L, HFMA2_X, DOT4_L, DOT4_X,
DOT8_L, DOT8_X: whenever the form is ready (its part has the turn, a run and no failing check, and older work is done where the
kind asks for it), and its entries fit, exec answers the next state: the effect of the meaning named, on what the part and its
gang hold, one more instruction counted, and flow goes on sequentially. (R239, R240) -/
def Obligations.CompletesFpacked : Prop :=
  (∀ (p : Pred) (t : TypeCode) (rnd : Rnd) (d a b : Opnd), Views (.hadd2L p t rnd d a b) ⟨p, 2, 0, [(d, 1), (a, 1), (b, 1)], [(a, 1), (b, 1)], .plain, .none⟩ 0 (packed2 .add p t rnd d a b .zero)) ∧
  (∀ (p : Pred) (t : TypeCode) (rnd : Rnd) (d a b : Opnd) (imm : Word), Views (.hadd2X p t rnd d a b imm) ⟨p, 3, 0, [(d, 1), (a, 1), (b, 1)], [(a, 1), (b, 1)], .plain, .none⟩ imm (packed2 .add p t rnd d a b .zero)) ∧
  (∀ (p : Pred) (t : TypeCode) (rnd : Rnd) (d a b : Opnd), Views (.hmul2L p t rnd d a b) ⟨p, 2, 0, [(d, 1), (a, 1), (b, 1)], [(a, 1), (b, 1)], .plain, .none⟩ 0 (packed2 .mul p t rnd d a b .zero)) ∧
  (∀ (p : Pred) (t : TypeCode) (rnd : Rnd) (d a b : Opnd) (imm : Word), Views (.hmul2X p t rnd d a b imm) ⟨p, 3, 0, [(d, 1), (a, 1), (b, 1)], [(a, 1), (b, 1)], .plain, .none⟩ imm (packed2 .mul p t rnd d a b .zero)) ∧
  (∀ (p : Pred) (t : TypeCode) (rnd : Rnd) (d a b c : Opnd), Views (.hfma2L p t rnd d a b c) ⟨p, 2, 0, [(d, 1), (a, 1), (b, 1), (c, 1)], [(a, 1), (b, 1), (c, 1)], .plain, .none⟩ 0 (packed2 .fma p t rnd d a b c)) ∧
  (∀ (p : Pred) (t : TypeCode) (rnd : Rnd) (d a b c : Opnd) (imm : Word), Views (.hfma2X p t rnd d a b c imm) ⟨p, 3, 0, [(d, 1), (a, 1), (b, 1), (c, 1)], [(a, 1), (b, 1), (c, 1)], .plain, .none⟩ imm (packed2 .fma p t rnd d a b c)) ∧
  (∀ (p : Pred) (t : TypeCode) (rnd : Rnd) (d a b c : Opnd), Views (.dot4L p t rnd d a b c) ⟨p, 2, 0, [(d, 1), (a, 1), (b, 1), (c, 1)], [(a, 1), (b, 1), (c, 1)], .plain, .none⟩ 0 (dotOp p 4 t rnd d a b c)) ∧
  (∀ (p : Pred) (t : TypeCode) (rnd : Rnd) (d a b c : Opnd) (imm : Word), Views (.dot4X p t rnd d a b c imm) ⟨p, 3, 0, [(d, 1), (a, 1), (b, 1), (c, 1)], [(a, 1), (b, 1), (c, 1)], .plain, .none⟩ imm (dotOp p 4 t rnd d a b c)) ∧
  (∀ (p : Pred) (t : TypeCode) (rnd : Rnd) (d a b c : Opnd), Views (.dot8L p t rnd d a b c) ⟨p, 2, 0, [(d, 1), (a, 1), (b, 1), (c, 1)], [(a, 1), (b, 1), (c, 1)], .plain, .none⟩ 0 (dotOp p 8 t rnd d a b c)) ∧
  (∀ (p : Pred) (t : TypeCode) (rnd : Rnd) (d a b c : Opnd) (imm : Word), Views (.dot8X p t rnd d a b c imm) ⟨p, 3, 0, [(d, 1), (a, 1), (b, 1), (c, 1)], [(a, 1), (b, 1), (c, 1)], .plain, .none⟩ imm (dotOp p 8 t rnd d a b c))

/-- QSWAP, QBCAST, QSHUF and QRED complete. For QSWAP, QBCAST, QSHUF, QRED: whenever the form is ready (its part has the turn, a run
and no failing check, and older work is done where the kind asks for it), and its entries fit, exec answers the next state: the
effect of the meaning named, on what the part and its gang hold, one more instruction counted, and flow goes on sequentially.
(R252, R256) -/
def Obligations.CompletesQexch : Prop :=
  (∀ (p : Pred) (t : TypeCode) (pat : Fin 4) (d a : Opnd), Views (.qswap p t pat d a) ⟨p, 2, 0, [(d, 1), (a, 1)], [], .plain, .none⟩ 0 (qswapOp p pat.val d a)) ∧
  (∀ (p : Pred) (t : TypeCode) (j : Fin 4) (d a : Opnd), Views (.qbcast p t j d a) ⟨p, 2, 0, [(d, 1), (a, 1)], [], .plain, .none⟩ 0 (qbcastOp p j.val d a)) ∧
  (∀ (p : Pred) (t : TypeCode) (d a b : Opnd), Views (.qshuf p t d a b) ⟨p, 2, 0, [(d, 1), (a, 1), (b, 1)], [(b, 1)], .plain, .none⟩ 0 (qshufOp p d a b)) ∧
  (∀ (p : Pred) (t : TypeCode) (op : RedOp) (d a : Opnd), Views (.qred p t op d a) ⟨p, 2, 0, [(d, 1), (a, 1)], [], .plain, .none⟩ 0 (qredOp p t op d a))

/-- SHFL, VOTE, SCAN, GRED and XPOSE complete. For SHFL, VOTE, PREFIX, GRED, XPOSE: whenever the form is ready (its part has the
turn, a run and no failing check, and older work is done where the kind asks for it), and its entries fit, exec answers the next
state: the effect of the meaning named, on what the part and its gang hold, one more instruction counted, and flow goes on
sequentially. (R257, R258, R259, R260, R261) -/
def Obligations.CompletesGexch : Prop :=
  (∀ (p : Pred) (t : TypeCode) (mode : ShflMode) (d a b : Opnd), Views (.shfl p t mode d a b) ⟨p, 2, 0, [(d, t.regs), (a, t.regs), (b, 1)], [(a, t.regs), (b, 1)], .plain, .none⟩ 0 (shflOp p t mode d a b)) ∧
  (∀ (p : Pred) (mode : VoteMode) (d a : Opnd), Views (.vote p mode d a) ⟨p, 2, 0, [(d, 1), (a, 1)], [(a, 1)], .plain, .none⟩ 0 (voteOp p mode d a)) ∧
  (∀ (p : Pred) (t : TypeCode) (op : RedOp) (ex : Bool) (d a : Opnd), Views (.scanPrefix p t op ex d a) ⟨p, 2, 0, [(d, 1), (a, 1)], [(a, 1)], .plain, .none⟩ 0 (scanOp p t op ex d a)) ∧
  (∀ (p : Pred) (t : TypeCode) (op : RedOp) (d a : Opnd), Views (.gred p t op d a) ⟨p, 2, 0, [(d, 1), (a, 1)], [(a, 1)], .plain, .none⟩ 0 (gredOp p t op d a)) ∧
  (∀ (p : Pred) (t : TypeCode) (d a : Opnd), Views (.xpose p t d a) ⟨p, 2, 0, [(d, 8), (a, 8)], [], .plain, .none⟩ 0 (xposeOp p t d a))

/-- LD, LDD, LDW and PREF complete in the memory of this package. For LD_L, LD_X, LDD_L, LDD_X, LDW_L, LDW_X, PREF_L, PREF_X:
whenever the form is ready (its part has the turn, a run and no failing check, and older work is done where the kind asks for
it), and the conditions named on the state and operands hold, exec answers the next state that is named: the effect of the form
itself, one more instruction counted, and where flow goes on. Its accesses pass their checks, stay in this package and can be
read now. (R289, R291, R292, R294) -/
def Obligations.CompletesLoad : Prop :=
  (∀ (p : Pred) (t : TypeCode) (sx : Bool) (d a : Opnd), Loads (.ldL p t sx d a) ⟨p, 2, 0, [(d, t.regs), (a, 2)], [(a, 2)], .plain, .none⟩ 0 .glob p t sx d a) ∧
  (∀ (p : Pred) (t : TypeCode) (sx : Bool) (d a : Opnd) (imm : Word), Loads (.ldX p t sx d a imm) ⟨p, 3, 0, [(d, t.regs), (a, 2)], [(a, 2)], .plain, .none⟩ imm .glob p t sx d a) ∧
  (∀ (p : Pred) (rows : Fin 8) (d a : Opnd), (∀ n, d = .v n → LoadsRows (.lddL p rows d a) ⟨p, 2, 0, [(d, rows.val + 1)], [], .plain, .none⟩ 0 p a (rows.val + 1) none (fun v l => v.putRows n.val l))) ∧
  (∀ (p : Pred) (rows : Fin 8) (d a : Opnd) (imm : Word), (∀ n, d = .v n → LoadsRows (.lddX p rows d a imm) ⟨p, 3, 0, [(d, rows.val + 1)], [], .plain, .none⟩ imm p a (rows.val + 1) none (fun v l => v.putRows n.val l))) ∧
  (∀ (p : Pred) (t : TypeCode) (rows : Fin 4) (src : LdwSrc) (d a : Opnd), (∀ n, d = .v n → LoadsRows (.ldwL p t rows src d a) ⟨p, 2, 0, [(d, src.regs * (rows.val + 1))], [], .plain, .none⟩ 0 p a (rows.val + 1) (some (fmtCode (ldwType src))) (fun v l => v.putWides n.val t (ldwType src) l))) ∧
  (∀ (p : Pred) (t : TypeCode) (rows : Fin 4) (src : LdwSrc) (d a : Opnd) (imm : Word), (∀ n, d = .v n → LoadsRows (.ldwX p t rows src d a imm) ⟨p, 3, 0, [(d, src.regs * (rows.val + 1))], [], .plain, .none⟩ imm p a (rows.val + 1) (some (fmtCode (ldwType src))) (fun v l => v.putWides n.val t (ldwType src) l))) ∧
  (∀ (p : Pred) (slice : Bool) (a : Opnd), Falls (.prefL p slice a) ⟨p, 2, 0, [(a, 2)], [(a, 2)], .plain, .none⟩ 0 (fun _ _ => True) (fun t y => (y.v.accLanes p [a]).foldl (fun s l => s.queueWalk y (y.v.effAddr a l)) t) false) ∧
  (∀ (p : Pred) (slice : Bool) (a : Opnd) (imm : Word), Falls (.prefX p slice a imm) ⟨p, 3, 0, [(a, 2)], [(a, 2)], .plain, .none⟩ imm (fun _ _ => True) (fun t y => (y.v.accLanes p [a]).foldl (fun s l => s.queueWalk y (y.v.effAddr a l)) t) false)

/-- ST and STD complete, buffered or directly. For ST_L, ST_X, STD_L, STD_X: whenever the form is ready (its part has the turn, a
run and no failing check, and older work is done where the kind asks for it), and the conditions named on the state and operands
hold, exec answers the next state that is named: the effect of the form itself, one more instruction counted, and where flow
goes on. Its accesses pass their checks and stay in this package; it writes the store buffer, or, in a run that goes on without
logging, memory. (R290, R295) -/
def Obligations.CompletesStore : Prop :=
  (∀ (p : Pred) (t : TypeCode) (a b : Opnd), Stores (.stL p t a b) ⟨p, 2, 0, [(a, 2), (b, t.regs)], [(a, 2), (b, t.regs)], .plain, .none⟩ 0 .glob p t a b) ∧
  (∀ (p : Pred) (t : TypeCode) (a b : Opnd) (imm : Word), Stores (.stX p t a b imm) ⟨p, 3, 0, [(a, 2), (b, t.regs)], [(a, 2), (b, t.regs)], .plain, .none⟩ imm .glob p t a b) ∧
  (∀ (p : Pred) (rows : Fin 8) (a b : Opnd), (∀ n, b = .v n → StoresRows (.stdL p rows a b) ⟨p, 2, 0, [(b, rows.val + 1)], [], .plain, .none⟩ 0 p a n.val (rows.val + 1))) ∧
  (∀ (p : Pred) (rows : Fin 8) (a b : Opnd) (imm : Word), (∀ n, b = .v n → StoresRows (.stdX p rows a b imm) ⟨p, 3, 0, [(b, rows.val + 1)], [], .plain, .none⟩ imm p a n.val (rows.val + 1)))

/-- Loads and stores of scratchpad, working buffer and accumulation buffer complete. For LDS_L, LDS_X, LDA_L, LDA_X, LDWB_L, LDWB_X,
STS_L, STS_X, STA_L, STA_X: whenever the form is ready (its part has the turn, a run and no failing check, and older work is
done where the kind asks for it), and the conditions named on the state and operands hold, exec answers the next state that is
named: the effect of the form itself, one more instruction counted, and where flow goes on. Its accesses pass their checks and
can be made now. (R296) -/
def Obligations.CompletesLocal : Prop :=
  (∀ (p : Pred) (t : TypeCode) (sx : Bool) (d a : Opnd), Loads (.ldsL p t sx d a) ⟨p, 2, 0, [(d, t.regs), (a, 1)], [(a, 1)], .plain, .none⟩ 0 .sp p t sx d a) ∧
  (∀ (p : Pred) (t : TypeCode) (sx : Bool) (d a : Opnd) (imm : Word), Loads (.ldsX p t sx d a imm) ⟨p, 3, 0, [(d, t.regs), (a, 1)], [(a, 1)], .plain, .none⟩ imm .sp p t sx d a) ∧
  (∀ (p : Pred) (t : TypeCode) (sx : Bool) (d a : Opnd), Loads (.ldaL p t sx d a) ⟨p, 2, 0, [(d, t.regs), (a, 1)], [(a, 1)], .plain, .none⟩ 0 .ab p t sx d a) ∧
  (∀ (p : Pred) (t : TypeCode) (sx : Bool) (d a : Opnd) (imm : Word), Loads (.ldaX p t sx d a imm) ⟨p, 3, 0, [(d, t.regs), (a, 1)], [(a, 1)], .plain, .none⟩ imm .ab p t sx d a) ∧
  (∀ (p : Pred) (t : TypeCode) (sx : Bool) (d a : Opnd), Loads (.ldwbL p t sx d a) ⟨p, 2, 0, [(d, t.regs), (a, 1)], [(a, 1)], .plain, .none⟩ 0 .wb p t sx d a) ∧
  (∀ (p : Pred) (t : TypeCode) (sx : Bool) (d a : Opnd) (imm : Word), Loads (.ldwbX p t sx d a imm) ⟨p, 3, 0, [(d, t.regs), (a, 1)], [(a, 1)], .plain, .none⟩ imm .wb p t sx d a) ∧
  (∀ (p : Pred) (t : TypeCode) (a b : Opnd), Stores (.stsL p t a b) ⟨p, 2, 0, [(a, 1), (b, t.regs)], [(a, 1), (b, t.regs)], .plain, .none⟩ 0 .sp p t a b) ∧
  (∀ (p : Pred) (t : TypeCode) (a b : Opnd) (imm : Word), Stores (.stsX p t a b imm) ⟨p, 3, 0, [(a, 1), (b, t.regs)], [(a, 1), (b, t.regs)], .plain, .none⟩ imm .sp p t a b) ∧
  (∀ (p : Pred) (t : TypeCode) (a b : Opnd), Stores (.staL p t a b) ⟨p, 2, 0, [(a, 1), (b, t.regs)], [(a, 1), (b, t.regs)], .plain, .none⟩ 0 .ab p t a b) ∧
  (∀ (p : Pred) (t : TypeCode) (a b : Opnd) (imm : Word), Stores (.staX p t a b imm) ⟨p, 3, 0, [(a, 1), (b, t.regs)], [(a, 1), (b, t.regs)], .plain, .none⟩ imm .ab p t a b)

/-- ATOM, CAS, ATOMS and CASS complete. For ATOM_L, ATOM_X, CAS_L, CAS_X, ATOMS_L, ATOMS_X, CASS_L, CASS_X: whenever the form is
ready (its part has the turn, a run and no failing check, and older work is done where the kind asks for it), and the conditions
named on the state and operands hold, exec answers the next state that is named: the effect of the form itself, one more instruction
counted, and where flow goes on. Its accesses pass their checks and stay in this package; the old word goes to the destination and
the new one to memory. The model's own choices in it: that a uniform ATOM or CAS with PRED 0b0000 and an empty ACT accesses nothing
(log 110), that the compares on SP, WB or AB come before ownership and a granule which no lane writes, as where a CASS fails, is not
obtained, although R320 obtains it first (log 91), and that each lane of a non-returning ATOM has a store buffer entry of its own
(log 90). (R315, R320) -/
def Obligations.CompletesAtom : Prop :=
  (∀ (p : Pred) (op : AtomOp) (nr : Bool) (w64 : Bool) (d a b : Opnd), (nr = false → Atomics (.atomL p op nr w64 d a b) ⟨p, 2, 0, [(d, (if w64 then 2 else 1)), (a, 2), (b, (if w64 then 2 else 1))], [(a, 2), (b, (if w64 then 2 else 1))], (if nr then .plain else .irrevocable), .none⟩ 0 p w64 d a [a, b] fun y q => .atomic op w64 (y.v.rdW w64 b q.lane)) ∧
      (nr = true → Reduces (.atomL p op nr w64 d a b) ⟨p, 2, 0, [(d, (if w64 then 2 else 1)), (a, 2), (b, (if w64 then 2 else 1))], [(a, 2), (b, (if w64 then 2 else 1))], (if nr then .plain else .irrevocable), .none⟩ 0 p op w64 d a b)) ∧
  (∀ (p : Pred) (op : AtomOp) (nr : Bool) (w64 : Bool) (d a b : Opnd) (imm : Word), (nr = false → Atomics (.atomX p op nr w64 d a b imm) ⟨p, 3, 0, [(d, (if w64 then 2 else 1)), (a, 2), (b, (if w64 then 2 else 1))], [(a, 2), (b, (if w64 then 2 else 1))], (if nr then .plain else .irrevocable), .none⟩ imm p w64 d a [a, b] fun y q => .atomic op w64 (y.v.rdW w64 b q.lane)) ∧
      (nr = true → Reduces (.atomX p op nr w64 d a b imm) ⟨p, 3, 0, [(d, (if w64 then 2 else 1)), (a, 2), (b, (if w64 then 2 else 1))], [(a, 2), (b, (if w64 then 2 else 1))], (if nr then .plain else .irrevocable), .none⟩ imm p op w64 d a b)) ∧
  (∀ (p : Pred) (w64 : Bool) (d a b c : Opnd), Atomics (.casL p w64 d a b c) ⟨p, 2, 0, [(d, (if w64 then 2 else 1)), (a, 2), (b, (if w64 then 2 else 1)), (c, (if w64 then 2 else 1))], [(a, 2), (b, (if w64 then 2 else 1)), (c, (if w64 then 2 else 1))], .irrevocable, .none⟩ 0 p w64 d a [a, b, c] fun y q => .cas w64 (y.v.rdW w64 b q.lane) (y.v.rdW w64 c q.lane)) ∧
  (∀ (p : Pred) (w64 : Bool) (d a b c : Opnd) (imm : Word), Atomics (.casX p w64 d a b c imm) ⟨p, 3, 0, [(d, (if w64 then 2 else 1)), (a, 2), (b, (if w64 then 2 else 1)), (c, (if w64 then 2 else 1))], [(a, 2), (b, (if w64 then 2 else 1)), (c, (if w64 then 2 else 1))], .irrevocable, .none⟩ imm p w64 d a [a, b, c] fun y q => .cas w64 (y.v.rdW w64 b q.lane) (y.v.rdW w64 c q.lane)) ∧
  (∀ (p : Pred) (op : AtomOp) (nr : Bool) (w64 : Bool) (d a b : Opnd), SpAtomics (.atomsL p op nr w64 d a b) ⟨p, 2, 0, [(d, (if w64 then 2 else 1)), (a, 1), (b, (if w64 then 2 else 1))], [(a, 1), (b, (if w64 then 2 else 1))], .plain, .none⟩ 0 p w64 d a [a, b] fun y l old => some (atomNew op w64 old (y.v.rdW w64 b l))) ∧
  (∀ (p : Pred) (op : AtomOp) (nr : Bool) (w64 : Bool) (d a b : Opnd) (imm : Word), SpAtomics (.atomsX p op nr w64 d a b imm) ⟨p, 3, 0, [(d, (if w64 then 2 else 1)), (a, 1), (b, (if w64 then 2 else 1))], [(a, 1), (b, (if w64 then 2 else 1))], .plain, .none⟩ imm p w64 d a [a, b] fun y l old => some (atomNew op w64 old (y.v.rdW w64 b l))) ∧
  (∀ (p : Pred) (w64 : Bool) (d a b c : Opnd), SpAtomics (.cassL p w64 d a b c) ⟨p, 2, 0, [(d, (if w64 then 2 else 1)), (a, 1), (b, (if w64 then 2 else 1)), (c, (if w64 then 2 else 1))], [(a, 1), (b, (if w64 then 2 else 1)), (c, (if w64 then 2 else 1))], .plain, .none⟩ 0 p w64 d a [a, b, c] fun y l old => if old = y.v.rdW w64 b l then some (y.v.rdW w64 c l) else none) ∧
  (∀ (p : Pred) (w64 : Bool) (d a b c : Opnd) (imm : Word), SpAtomics (.cassX p w64 d a b c imm) ⟨p, 3, 0, [(d, (if w64 then 2 else 1)), (a, 1), (b, (if w64 then 2 else 1)), (c, (if w64 then 2 else 1))], [(a, 1), (b, (if w64 then 2 else 1)), (c, (if w64 then 2 else 1))], .plain, .none⟩ imm p w64 d a [a, b, c] fun y l old => if old = y.v.rdW w64 b l then some (y.v.rdW w64 c l) else none)

/-- WAITC, ARMC and CHECKC complete. For WAITC_L, WAITC_X, ARMC_L, ARMC_X, CHECKC: whenever the form is ready (its part has the
turn, a run and no failing check, and older work is done where the kind asks for it), and the conditions named on the state and
operands hold, exec answers the next state that is named: the effect of the form itself, one more instruction counted, and where
flow goes on. The word reaches a home slice; WAITC completes when its condition holds or its monitor has fired. (R326, R329,
R330) -/
def Obligations.CompletesMonitor : Prop :=
  (∀ (p : Pred) (cond : Cond) (t : TypeCode) (d a b c : Opnd), WaitsFor (.waitcL p cond t d a b c) ⟨p, 2, 0, [(d, t.regs), (a, 2), (b, t.regs)], [(a, 2), (b, t.regs)], .irrevocable, .none⟩ 0 p cond t d a b c) ∧
  (∀ (p : Pred) (cond : Cond) (t : TypeCode) (d a b c : Opnd) (imm : Word), WaitsFor (.waitcX p cond t d a b c imm) ⟨p, 3, 0, [(d, t.regs), (a, 2), (b, t.regs)], [(a, 2), (b, t.regs)], .irrevocable, .none⟩ imm p cond t d a b c) ∧
  (∀ (p : Pred) (cond : Cond) (t : TypeCode) (d a b : Opnd), Arms (.armcL p cond t d a b) ⟨p, 2, 0, [(d, t.regs)], [], .irrevocable, .none⟩ 0 p cond t d a b) ∧
  (∀ (p : Pred) (cond : Cond) (t : TypeCode) (d a b : Opnd) (imm : Word), Arms (.armcX p cond t d a b imm) ⟨p, 3, 0, [(d, t.regs)], [], .irrevocable, .none⟩ imm p cond t d a b) ∧
  (∀ (p : Pred) (d : Opnd), Views (.checkc p d) ⟨p, 2, 0, [(d, 1)], [], .plain, .none⟩ 0 (checkcOp p d))

/-- The copy instructions, SWINIT and SWWAIT complete. For CPY, CPYS, CPYG, CPYT, CPYM, CPYF, SWINIT, SWWAIT: whenever the form is
ready (its part has the turn, a run and no failing check, and older work is done where the kind asks for it), and the conditions
named on the state and operands hold, exec answers the next state that is named: the effect of the form itself, one more
instruction counted, and where flow goes on. The command is accepted by its engine; SWWAIT completes when the word holds the
value. (R393, R394, R395, R399, R400, R401, R407, R408) -/
def Obligations.CompletesCopy : Prop :=
  (∀ (p : Pred) (dsp : DSp) (ssp : SSp) (d a b c : Opnd) (imm : Word), Copies (.cpy p dsp ssp d a b c imm) ⟨p, 3, 0, [], [], .plain, .none⟩ imm p (cpyAsk dsp ssp d a b c)) ∧
  (∀ (p : Pred) (dsp : DSp) (ssp : SSp) (d a b c : Opnd) (imm : Word), Copies (.cpys p dsp ssp d a b c imm) ⟨p, 3, 0, [], [], .plain, .none⟩ imm p (cpysAsk dsp ssp d a b c)) ∧
  (∀ (p : Pred) (dsp : DSp) (d a b c : Opnd) (imm : Word), Copies (.cpyg p dsp d a b c imm) ⟨p, 3, 0, [], [], .plain, .none⟩ imm p (cpygAsk dsp d a b c)) ∧
  (∀ (p : Pred) (ssp : SSp) (d a b c : Opnd) (imm : Word), Copies (.cpyt p ssp d a b c imm) ⟨p, 3, 0, [], [], .plain, .none⟩ imm p (cpytAsk ssp d a b c)) ∧
  (∀ (p : Pred) (dsp : DSp) (d a b : Opnd) (imm : Word), Copies (.cpym p dsp d a b imm) ⟨p, 3, 0, [], [], .plain, .none⟩ imm p (cpymAsk dsp d a b)) ∧
  (∀ (p : Pred) (dsp : DSp) (fc : Fin 11) (d a b c : Opnd) (imm : Word), Copies (.cpyf p dsp fc d a b c imm) ⟨p, 3, 0, [], [], .plain, .none⟩ imm p (cpyfAsk dsp fc.val d a b c)) ∧
  (∀ (p : Pred) (a b : Opnd) (imm : Word), Falls (.swinit p a b imm) ⟨p, 3, 0, [], [], .plain, .none⟩ imm (fun _ y => y.v.acts p = false) (fun t _ => t) false ∧
      Falls (.swinit p a b imm) ⟨p, 3, 0, [], [], .plain, .none⟩ imm (fun t y => y.v.acts p = true ∧ syncFault y.c (y.v.uni a).toNat = none ∧ Writable t y [swPiece y (y.v.uni a).toNat])
      (fun t y => t.storePiece y (swPiece y (y.v.uni a).toNat) (natLe 16 (y.v.uni b).toNat) Sides.untyped) false) ∧
  (∀ (p : Pred) (d a b : Opnd) (imm : Word), Falls (.swwait p d a b imm) ⟨p, 3, 0, [(d, 1)], [], .plain, .none⟩ imm (fun _ y => y.v.acts p = false) (fun t _ => t) false ∧
      Falls (.swwait p d a b imm) ⟨p, 3, 0, [(d, 1)], [], .plain, .none⟩ imm (fun t y => y.v.acts p = true ∧ syncFault y.c (y.v.uni a).toNat = none ∧ Readable t y [swPiece y (y.v.uni a).toNat] ∧
      (BitVec.ofNat 32 (SyncWord.of (t.pieceBytes y (swPiece y (y.v.uni a).toNat))).gen - y.v.uni b).toNat < 2 ^ 31)
      (fun t y =>
        let u := t.readAll y [swPiece y (y.v.uni a).toNat]
        let z := u.fresh y
        u.putView z.r (z.v.wrUniform p d (wordAt (t.pieceBytes y (swPiece y (y.v.uni a).toNat)) 3))) false)

/-- MMA, MMAP, MCLR, MCVT, MACC and MREL complete. For MMA, MMAP, MCLR, MCVT, MACC, MREL: whenever the form is ready (its part has
the turn, a run and no failing check, and older work is done where the kind asks for it), and the conditions named on the state and
operands hold, exec answers the next state that is named: the effect of the form itself, one more instruction counted, and where
flow goes on. The accumulator ranges fit, the reservations hold; each starts the operation or job that its rule gives. That a cohort
which waits for its launch records may be the partner is the model's choice (log 126). (R443, R444, R445, R446, R447) -/
def Obligations.CompletesMatrix : Prop :=
  (∀ (p : Pred) (m : Fin 32) (reuse : Bool) (z : Bool) (d a b : Opnd) (imm : Word), Falls (.mma p m reuse z d a b imm) ⟨p, 3, 0, [(a, m.val + 1)], [], .plain, .rows (rowNumber a) (m.val + 1)⟩ imm (fun _ y => y.v.acts p = false) (fun t _ => t) false ∧
      Falls (.mma p m reuse z d a b imm) ⟨p, 3, 0, [(a, m.val + 1)], [], .plain, .rows (rowNumber a) (m.val + 1)⟩ imm (MmaReady p (m.val + 1) reuse false d a b) (mmaIssued (m.val + 1) reuse z false d a b) false) ∧
  (∀ (p : Pred) (m : Fin 32) (reuse : Bool) (z : Bool) (d a b : Opnd) (imm : Word), Falls (.mmap p m reuse z d a b imm) ⟨p, 3, 0, [(a, m.val + 1)], [], .plain, .rows (rowNumber a) (m.val + 1)⟩ imm (fun _ y => y.v.acts p = false) (fun t _ => t) false ∧
      Falls (.mmap p m reuse z d a b imm) ⟨p, 3, 0, [(a, m.val + 1)], [], .plain, .rows (rowNumber a) (m.val + 1)⟩ imm (MmaReady p (m.val + 1) reuse true d a b) (mmaIssued (m.val + 1) reuse z true d a b) false) ∧
  (∀ (p : Pred) (m : Fin 32) (d : Opnd) (imm : Word), Falls (.mclr p m d imm) ⟨p, 3, 0, [], [], .plain, .none⟩ imm (fun _ y => y.v.acts p = false) (fun t _ => t) false ∧
      Falls (.mclr p m d imm) ⟨p, 3, 0, [], [], .plain, .none⟩ imm (fun _ y => MatReady p y ∧ MatFits [abRange y y.c d (imm.toNat % 65536) (512 * (m.val + 1))])
      (fun t y => t.bufferCmd y (.matrix (plainMat y .clr (m.val + 1) (abRange y y.c d (imm.toNat % 65536) (512 * (m.val + 1))).at_ 0 none))) false) ∧
  (∀ (p : Pred) (m : Fin 32) (fmt : TypeCode) (d a b : Opnd) (imm : Word), Falls (.mcvt p m fmt d a b imm) ⟨p, 3, 0, [], [], .plain, .none⟩ imm (fun _ y => y.v.acts p = false) (fun t _ => t) false ∧
      Falls (.mcvt p m fmt d a b imm) ⟨p, 3, 0, [], [], .plain, .none⟩ imm (fun _ y => MatReady p y ∧ MatFits [abRange y y.c a (imm.toNat / 65536) (512 * (m.val + 1)),
      abRange y y.c d (imm.toNat % 65536) (16 * elemBits fmt * (m.val + 1))])
      (fun t y => t.bufferCmd y (.matrix (plainMat y (.cvt fmt ((y.v.uni b).toNat % 256)) (m.val + 1)
        (abRange y y.c d (imm.toNat % 65536) (16 * elemBits fmt * (m.val + 1))).at_
        (abRange y y.c a (imm.toNat / 65536) (512 * (m.val + 1))).at_ none))) false) ∧
  (∀ (p : Pred) (m : Fin 32) (team : Bool) (d a : Opnd) (imm : Word), Falls (.macc p m team d a imm) ⟨p, 3, 0, [], [], .plain, .none⟩ imm (fun _ y => y.v.acts p = false) (fun t _ => t) false ∧
      Falls (.macc p m team d a imm) ⟨p, 3, 0, [], [], .plain, .none⟩ imm (fun t y => MatReady p y ∧ TeamReady team t y ∧
      MatFits [abRange y ((mate team t y).getD y.c) a (imm.toNat / 65536) (512 * (m.val + 1)), abRange y y.c d (imm.toNat % 65536) (512 * (m.val + 1))])
      (fun t y => t.bufferCmd y (.matrix (plainMat y .acc (m.val + 1) (abRange y y.c d (imm.toNat % 65536) (512 * (m.val + 1))).at_
        (abRange y ((mate team t y).getD y.c) a (imm.toNat / 65536) (512 * (m.val + 1))).at_ ((mate team t y).map fun q => q.id)))) false) ∧
  (∀ (p : Pred) (imm : Word), Falls (.mrel p imm) ⟨p, 3, 0, [], [], .plain, .none⟩ imm (fun _ y => y.v.acts p = false) (fun t _ => t) false ∧
      Falls (.mrel p imm) ⟨p, 3, 0, [], [], .plain, .none⟩ imm (fun _ y => y.v.acts p = true) (fun t y => t.modGang y.r.cohort y.r.gang fun g => { g with latch := none }) false)

/-- The queue instructions and every QCTL operation complete. For QPOP_L, QPOP_X, QPUSH_L, QPUSH_X, QPUSHS_L, QPUSHS_X, QDONE,
QLEN, QSEED_L, QSEED_X, QCTL_SETQ, QCTL_SETS, QCTL_BIND, QCTL_UNBIND, QCTL_STAT, QCTL_STOP, QCTL_START, QCTL_CLEAR: whenever the
form is ready (its part has the turn, a run and no failing check, and older work is done where the kind asks for it), and the
conditions named on the state and operands hold, exec answers the next state that is named: the effect of the form itself, one
more instruction counted, and where flow goes on. Each answers in D and changes the queue, schedule or binding as its rule gives.
The address of the data block of a graph that BIND binds is the model's free value (takeFree, log 34), of which no rule speaks.
(R460, R479, R481, R483, R484, R485, R486, R487) -/
def Obligations.CompletesQueue : Prop :=
  (∀ (p : Pred) (wait : Bool) (d a : Opnd), Falls (.qpopL p wait d a) ⟨p, 2, 0, [(d, 1)], [], .irrevocable, .none⟩ 0 (fun _ y => y.v.acts p = false) (fun t _ => t) true ∧
      Answers (.qpopL p wait d a) ⟨p, 2, 0, [(d, 1)], [], .irrevocable, .none⟩ 0 p d (fun t y => y.v.acts p = true ∧ t.popWaits y.v.part.id = false ∧
        ((t.inputOf y.c).bind t.queue?).any Queue.behind = false ∧ 1 ≤ (y.v.uni a).toNat ∧ (y.v.uni a).toNat ≤ 32 ∧
        (wait = true → (popped a t y).1 ≠ 0)) (fun t y => (popped a t y).2) (fun t y => (popped a t y).1)) ∧
  (∀ (p : Pred) (wait : Bool) (d a : Opnd) (imm : Word), Falls (.qpopX p wait d a imm) ⟨p, 3, 0, [(d, 1)], [], .irrevocable, .none⟩ imm (fun _ y => y.v.acts p = false) (fun t _ => t) true ∧
      Answers (.qpopX p wait d a imm) ⟨p, 3, 0, [(d, 1)], [], .irrevocable, .none⟩ imm p d (fun t y => y.v.acts p = true ∧ t.popWaits y.v.part.id = false ∧
        ((t.inputOf y.c).bind t.queue?).any Queue.behind = false ∧ 1 ≤ (y.v.uni a).toNat ∧ (y.v.uni a).toNat ≤ 32 ∧
        (wait = true → (popped a t y).1 ≠ 0)) (fun t y => (popped a t y).2) (fun t y => (popped a t y).1)) ∧
  (∀ (p : Pred) (o : Fin 8) (a : Opnd), Falls (.qpushL p o a) ⟨p, 2, 0, [(a, 1)], [(a, 1)], .plain, .none⟩ 0 (fun _ y => y.v.act p = 0) (fun t _ => t) false ∧
      Falls (.qpushL p o a) ⟨p, 2, 0, [(a, 1)], [(a, 1)], .plain, .none⟩ 0 (fun t y => y.v.act p ≠ 0 ∧ y.v.gang.counters.push < 64 ∧ ∃ key, t.outputOf y.c o.val = some key ∧
        pushFault y.c (y.v.act p) false (t.sizeOf key) ((laneList (y.v.act p)).map fun l => (l, y.v.offset a l)) = none)
      (fun t y => let key := (t.outputOf y.c o.val).getD ⟨0, 0, 0⟩
        t.bufferCmd y (.push ⟨key, t.sizeOf key, .places ((laneList (y.v.act p)).map fun l => spPlace y.c (y.v.offset a l))⟩)) false) ∧
  (∀ (p : Pred) (o : Fin 8) (a : Opnd) (imm : Word), Falls (.qpushX p o a imm) ⟨p, 3, 0, [(a, 1)], [(a, 1)], .plain, .none⟩ imm (fun _ y => y.v.act p = 0) (fun t _ => t) false ∧
      Falls (.qpushX p o a imm) ⟨p, 3, 0, [(a, 1)], [(a, 1)], .plain, .none⟩ imm (fun t y => y.v.act p ≠ 0 ∧ y.v.gang.counters.push < 64 ∧ ∃ key, t.outputOf y.c o.val = some key ∧
        pushFault y.c (y.v.act p) false (t.sizeOf key) ((laneList (y.v.act p)).map fun l => (l, y.v.offset a l)) = none)
      (fun t y => let key := (t.outputOf y.c o.val).getD ⟨0, 0, 0⟩
        t.bufferCmd y (.push ⟨key, t.sizeOf key, .places ((laneList (y.v.act p)).map fun l => spPlace y.c (y.v.offset a l))⟩)) false) ∧
  (∀ (p : Pred) (o : Fin 8) (a b : Opnd), Falls (.qpushsL p o a b) ⟨p, 2, 0, [], [], .plain, .none⟩ 0 (fun _ y => y.v.acts p = false) (fun t _ => t) false ∧
      Falls (.qpushsL p o a b) ⟨p, 2, 0, [], [], .plain, .none⟩ 0 (fun t y => y.v.acts p = true ∧ y.v.gang.counters.push < 64 ∧ (y.v.uni b).toNat ≤ 256 ∧ ∃ key, t.outputOf y.c o.val = some key ∧
        pushFault y.c (y.v.act p) true (t.sizeOf key) (rowOffs y a (t.sizeOf key) (y.v.uni b).toNat) = none)
      (fun t y => let key := (t.outputOf y.c o.val).getD ⟨0, 0, 0⟩
        t.bufferCmd y (.push ⟨key, t.sizeOf key, .places ((rowOffs y a (t.sizeOf key) (y.v.uni b).toNat).map fun q => spPlace y.c q.2)⟩)) false) ∧
  (∀ (p : Pred) (o : Fin 8) (a b : Opnd) (imm : Word), Falls (.qpushsX p o a b imm) ⟨p, 3, 0, [], [], .plain, .none⟩ imm (fun _ y => y.v.acts p = false) (fun t _ => t) false ∧
      Falls (.qpushsX p o a b imm) ⟨p, 3, 0, [], [], .plain, .none⟩ imm (fun t y => y.v.acts p = true ∧ y.v.gang.counters.push < 64 ∧ (y.v.uni b).toNat ≤ 256 ∧ ∃ key, t.outputOf y.c o.val = some key ∧
        pushFault y.c (y.v.act p) true (t.sizeOf key) (rowOffs y a (t.sizeOf key) (y.v.uni b).toNat) = none)
      (fun t y => let key := (t.outputOf y.c o.val).getD ⟨0, 0, 0⟩
        t.bufferCmd y (.push ⟨key, t.sizeOf key, .places ((rowOffs y a (t.sizeOf key) (y.v.uni b).toNat).map fun q => spPlace y.c q.2)⟩)) false) ∧
  (∀ (p : Pred), Falls (.qdone p) ⟨p, 2, 0, [], [], .irrevocable, .none⟩ 0 (fun _ y => y.v.acts p = false) (fun t _ => t) true ∧
      Falls (.qdone p) ⟨p, 2, 0, [], [], .irrevocable, .none⟩ 0 (fun _ y => y.v.acts p = true) (fun t y => t.releaseHeld fun h => h.who == .gang y.r.cohort y.r.gang) true) ∧
  (∀ (p : Pred) (sel : Fin 9) (d : Opnd), Falls (.qlen p sel d) ⟨p, 2, 0, [(d, 1)], [], .plain, .none⟩ 0 (fun _ _ => True) (fun t y => t.putView y.r (y.v.wrUniform p d (BitVec.ofNat 32 (qlenVal t y.c sel.val)))) false) ∧
  (∀ (p : Pred) (o : Fin 8) (d a b c : Opnd), Falls (.qseedL p o d a b c) ⟨p, 2, 0, [(d, 1)], [], .irrevocable, .none⟩ 0 (fun _ y => y.v.acts p = false) (fun t _ => t) true ∧
      Answers (.qseedL p o d a b c) ⟨p, 2, 0, [(d, 1)], [], .irrevocable, .none⟩ 0 p d (fun t y => y.v.acts p = true ∧ Fetches y.v.part.ring (y.v.effAddr a 0) 4 t y ∧ SeedReady p o.val a b t y)
      (fun t y => (seeded o.val a b c t y)) (fun t y => leNat (fetched y.v.part.ring (y.v.effAddr a 0) 4 t y).1)) ∧
  (∀ (p : Pred) (o : Fin 8) (d a b c : Opnd) (imm : Word), Falls (.qseedX p o d a b c imm) ⟨p, 3, 0, [(d, 1)], [], .irrevocable, .none⟩ imm (fun _ y => y.v.acts p = false) (fun t _ => t) true ∧
      Answers (.qseedX p o d a b c imm) ⟨p, 3, 0, [(d, 1)], [], .irrevocable, .none⟩ imm p d (fun t y => y.v.acts p = true ∧ Fetches y.v.part.ring (y.v.effAddr a 0) 4 t y ∧ SeedReady p o.val a b t y)
      (fun t y => (seeded o.val a b c t y)) (fun t y => leNat (fetched y.v.part.ring (y.v.effAddr a 0) 4 t y).1)) ∧
  (∀ (p : Pred) (d a b c : Opnd), Falls (.qctlSetq p d a b c) ⟨p, 2, 1, [(d, 1)], [], .alone, .none⟩ 0 (fun _ y => y.v.acts p = false) (fun t _ => t) true ∧
      Answers (.qctlSetq p d a b c) ⟨p, 2, 1, [(d, 1)], [], .alone, .none⟩ 0 p d (fun t y => y.v.acts p = true ∧ (y.v.uni b).toNat ≤ 1023 ∧ slotOk y.c.part (y.v.uni c).toNat = true ∧
        (y.v.base a).toNat % 32 = 0 ∧ (t.graphOr y.c.part (y.v.uni c).toNat).bound = false ∧ Fetches .S (y.v.base a) 32 t y ∧
        ∃ q, qdescOf (fetched .S (y.v.base a) 32 t y).1 = some q ∧
          ((fetched .S (y.v.base a) 32 t y).2.1.homeOf (fetched .S (y.v.base a) 32 t y).2.2.c.part q.home).isSome)
      (fun t y => let r := fetched .S (y.v.base a) 32 t y
        let g := r.2.1.graphOr r.2.2.c.part (y.v.uni c).toNat
        match qdescOf r.1 with
        | some q => r.2.1.setGraph { g with queues := assocSet g.queues (y.v.uni b).toNat q }
        | none => r.2.1) (fun _ _ => 0)) ∧
  (∀ (p : Pred) (d a b c : Opnd), Falls (.qctlSets p d a b c) ⟨p, 2, 1, [(d, 1)], [], .alone, .none⟩ 0 (fun _ y => y.v.acts p = false) (fun t _ => t) true ∧
      Answers (.qctlSets p d a b c) ⟨p, 2, 1, [(d, 1)], [], .alone, .none⟩ 0 p d (fun t y => y.v.acts p = true ∧ (y.v.uni b).toNat ≤ 255 ∧ slotOk y.c.part (y.v.uni c).toNat = true ∧
        (y.v.base a).toNat % 16 = 0 ∧ Fetches .S (y.v.base a) 48 t y ∧ StageFits (fetched .S (y.v.base a) 48 t y) b c y)
      (fun t y => stageSet (fetched .S (y.v.base a) 48 t y) b c y) (fun _ _ => 0)) ∧
  (∀ (p : Pred) (d a b c : Opnd), Falls (.qctlBind p d a b c) ⟨p, 2, 1, [(d, 1)], [], .alone, .none⟩ 0 (fun _ y => y.v.acts p = false) (fun t _ => t) true ∧
      Answers (.qctlBind p d a b c) ⟨p, 2, 1, [(d, 1)], [], .alone, .none⟩ 0 p d (fun t y => y.v.acts p = true ∧ slotOk y.c.part (y.v.uni c).toNat = true ∧
        (t.graphOr y.c.part (y.v.uni c).toNat).bound = false ∧ (t.graphOr y.c.part (y.v.uni c).toNat).whole = true ∧
        ∃ hs, t.homesOf y.c.part (t.graphOr y.c.part (y.v.uni c).toNat).queues = some hs ∧ t.slicesFit hs = true)
      (fun t y => t.takeFree.2.bindGraph (t.graphOr y.c.part (y.v.uni c).toNat)
        ((t.homesOf y.c.part (t.graphOr y.c.part (y.v.uni c).toNat).queues).getD []) (BitVec.ofNat 64 t.takeFree.1)) (fun _ _ => 0)) ∧
  (∀ (p : Pred) (d a b c : Opnd), Falls (.qctlUnbind p d a b c) ⟨p, 2, 1, [(d, 1)], [], .alone, .none⟩ 0 (fun _ y => y.v.acts p = false) (fun t _ => t) true ∧
      Answers (.qctlUnbind p d a b c) ⟨p, 2, 1, [(d, 1)], [], .alone, .none⟩ 0 p d (fun t y => y.v.acts p = true ∧ slotOk y.c.part (y.v.uni c).toNat = true ∧
        (t.graphOr y.c.part (y.v.uni c).toNat).bound = true ∧ t.graphBusy y.c.part (y.v.uni c).toNat = false)
      (fun t y => t.dropGraph y.c.part (y.v.uni c).toNat) (fun _ _ => 0)) ∧
  (∀ (p : Pred) (d a b c : Opnd), Falls (.qctlStat p d a b c) ⟨p, 2, 1, [(d, 1)], [], .alone, .none⟩ 0 (fun _ y => y.v.acts p = false) (fun t _ => t) true ∧
      Answers (.qctlStat p d a b c) ⟨p, 2, 1, [(d, 1)], [], .alone, .none⟩ 0 p d (fun t y => y.v.acts p = true ∧ (y.v.uni b).toNat ≤ 1023 ∧ slotOk y.c.part (y.v.uni c).toNat = true ∧
        (y.v.base a).toNat % 32 = 0 ∧ ∃ q, t.queue? ⟨y.c.part, (y.v.uni c).toNat, (y.v.uni b).toNat⟩ = some q ∧
          Puts .S (y.v.base a) (t.statBlock q).length t y)
      (fun t y => match t.queue? ⟨y.c.part, (y.v.uni c).toNat, (y.v.uni b).toNat⟩ with
        | some q => stored .S (y.v.base a) (t.statBlock q) t y
        | none => t) (fun _ _ => 0)) ∧
  (∀ (p : Pred) (d a b c : Opnd), Falls (.qctlStop p d a b c) ⟨p, 2, 1, [(d, 1)], [], .alone, .none⟩ 0 (fun _ y => y.v.acts p = false) (fun t _ => t) true ∧
      Answers (.qctlStop p d a b c) ⟨p, 2, 1, [(d, 1)], [], .alone, .none⟩ 0 p d (fun t y => y.v.acts p = true ∧ (y.v.uni b).toNat ≤ 255 ∧ slotOk y.c.part (y.v.uni c).toNat = true ∧
        (t.graphOr y.c.part (y.v.uni c).toNat).bound = true ∧
        (assocGet (t.graphOr y.c.part (y.v.uni c).toNat).stages (y.v.uni b).toNat).isSome)
      (fun t y => let g := t.graphOr y.c.part (y.v.uni c).toNat
        match assocGet g.stages (y.v.uni b).toNat with
        | some k => t.setGraph { g with stages := assocSet g.stages (y.v.uni b).toNat { k with stopped := true } }
        | none => t) (fun _ _ => 0)) ∧
  (∀ (p : Pred) (d a b c : Opnd), Falls (.qctlStart p d a b c) ⟨p, 2, 1, [(d, 1)], [], .alone, .none⟩ 0 (fun _ y => y.v.acts p = false) (fun t _ => t) true ∧
      Answers (.qctlStart p d a b c) ⟨p, 2, 1, [(d, 1)], [], .alone, .none⟩ 0 p d (fun t y => y.v.acts p = true ∧ (y.v.uni b).toNat ≤ 255 ∧ slotOk y.c.part (y.v.uni c).toNat = true ∧
        (t.graphOr y.c.part (y.v.uni c).toNat).bound = true ∧
        (assocGet (t.graphOr y.c.part (y.v.uni c).toNat).stages (y.v.uni b).toNat).isSome)
      (fun t y => let g := t.graphOr y.c.part (y.v.uni c).toNat
        match assocGet g.stages (y.v.uni b).toNat with
        | some k => t.setGraph { g with stages := assocSet g.stages (y.v.uni b).toNat { k with stopped := false } }
        | none => t) (fun _ _ => 0)) ∧
  (∀ (p : Pred) (d a b c : Opnd), Falls (.qctlClear p d a b c) ⟨p, 2, 1, [(d, 1)], [], .alone, .none⟩ 0 (fun _ y => y.v.acts p = false) (fun t _ => t) true ∧
      Answers (.qctlClear p d a b c) ⟨p, 2, 1, [(d, 1)], [], .alone, .none⟩ 0 p d (fun t y => y.v.acts p = true ∧ slotOk y.c.part (y.v.uni c).toNat = true ∧
        (t.graphOr y.c.part (y.v.uni c).toNat).bound = false) (fun t y => t.dropGraph y.c.part (y.v.uni c).toNat) (fun _ _ => 0))

/-- FSTAT, FCLR, FTOK and every FLINK operation complete. For FSTAT_PORT, FSTAT_ROUTE, FSTAT_MIRROR, FSTAT_TOKENS, FSTAT_RTO, FCLR,
FTOK, FLINK_PORT, FLINK_ROUTE, FLINK_KEY, FLINK_MIRROR, FLINK_UNMIRROR, FLINK_GRANT, FLINK_REVOKE, FLINK_SETID: whenever the form is
ready (its part has the turn, a run and no failing check, and older work is done where the kind asks for it), and the conditions
named on the state and operands hold, exec answers the next state that is named: the effect of the form itself, one more instruction
counted, and where flow goes on. Each answers in D and reads or changes the port, route, mirror, tokens or region as its rule gives.
The model's own choices in it: what FLINK_PORT mode 0 leaves of a port's traffic (log 135), and that its keys stay (log 47). (R504,
R513, R520, R530, R531, R532, R533) -/
def Obligations.CompletesFabric : Prop :=
  (∀ (p : Pred) (d a : Opnd), Falls (.fstatPort p d a) ⟨p, 2, 0, [(d, 1)], [], .plain, .none⟩ 0 (fun _ _ => True) (fun t y => t.putView y.r
      (y.v.wrUniform p d (BitVec.ofNat 32 (fstatVal t y.c.part 0 (y.v.uni a).toNat)))) false) ∧
  (∀ (p : Pred) (d a : Opnd), Falls (.fstatRoute p d a) ⟨p, 2, 0, [(d, 1)], [], .plain, .none⟩ 0 (fun _ _ => True) (fun t y => t.putView y.r
      (y.v.wrUniform p d (BitVec.ofNat 32 (fstatVal t y.c.part 1 (y.v.uni a).toNat)))) false) ∧
  (∀ (p : Pred) (d a : Opnd), Falls (.fstatMirror p d a) ⟨p, 2, 0, [(d, 1)], [], .plain, .none⟩ 0 (fun _ _ => True) (fun t y => t.putView y.r
      (y.v.wrUniform p d (BitVec.ofNat 32 (fstatVal t y.c.part 2 (y.v.uni a).toNat)))) false) ∧
  (∀ (p : Pred) (d a : Opnd), Falls (.fstatTokens p d a) ⟨p, 2, 0, [(d, 1)], [], .plain, .none⟩ 0 (fun _ _ => True) (fun t y => t.putView y.r
      (y.v.wrUniform p d (BitVec.ofNat 32 (fstatVal t y.c.part 3 (y.v.uni a).toNat)))) false) ∧
  (∀ (p : Pred) (d a : Opnd), Falls (.fstatRto p d a) ⟨p, 2, 0, [(d, 1)], [], .plain, .none⟩ 0 (fun _ _ => True) (fun t y => t.putView y.r
      (y.v.wrUniform p d (BitVec.ofNat 32 (fstatVal t y.c.part 4 (y.v.uni a).toNat)))) false) ∧
  (∀ (p : Pred) (psn : Bool) (d : Opnd), Falls (.fclr p psn d) ⟨p, 2, 0, [(d, 1)], [], .irrevocable, .none⟩ 0 (fun _ y => y.v.acts p = false) (fun t _ => t) true ∧
      Answers (.fclr p psn d) ⟨p, 2, 0, [(d, 1)], [], .irrevocable, .none⟩ 0 p d (fun _ y => y.v.acts p = true)
      (fun t y => t.modGang y.r.cohort y.r.gang fun g => { g with ftomask := 0, fto := false, psn := g.psn && !psn })
      (fun _ y => y.v.gang.ftomask.toNat)) ∧
  (∀ (fld : Fin 5) (rd : Bool) (d a b c : Opnd), Answers (.ftok fld rd d a b c) ⟨⟨0, false⟩, 2, 2, [(d, 1)], [], .irrevocable, .none⟩ 0 ⟨0, false⟩ d (fun t y => (y.v.uni a).toNat ≤ 15 ∧ (y.v.uni b).toNat ≤ 47 ∧
        (rd = false → t.tokOk fld.val (y.v.uni a).toNat (y.v.uni b).toNat (y.v.uni c).toNat = true))
      (fun t y => if rd then t else t.setTok fld.val (y.v.uni a).toNat (y.v.uni b).toNat (y.v.uni c).toNat)
      (fun t y => t.tokField fld.val (y.v.uni a).toNat (y.v.uni b).toNat)) ∧
  (∀ (d a b c : Opnd), Answers (.flinkPort d a b c) ⟨⟨0, false⟩, 2, 2, [(d, 1)], [], .irrevocable, .none⟩ 0 ⟨0, false⟩ d (fun t y => (y.v.uni c).toNat = 0 ∧ ∃ q, t.port? (y.v.uni b).toNat = some q ∧ q.state ≠ .training ∧ q.state ≠ .disabled)
      (fun t y => t.reroute fun s => s.modPort (y.v.uni b).toNat fun q => { q with
        state := .disabled, egress := [], held := [], again := none, replays := 0, gathered := [], waiting := [] }) (fun _ _ => 0) ∧
      Answers (.flinkPort d a b c) ⟨⟨0, false⟩, 2, 2, [(d, 1)], [], .irrevocable, .none⟩ 0 ⟨0, false⟩ d (fun t y => ∃ q, t.port? (y.v.uni b).toNat = some q ∧ ((y.v.uni c).toNat = 0 ∧ q.state = .disabled ∨ (y.v.uni c).toNat = 1 ∧ q.state = .up ∨
        (y.v.uni c).toNat = 2 ∧ q.state = .standby)) (fun t _ => t) (fun _ _ => 0) ∧
      Answers (.flinkPort d a b c) ⟨⟨0, false⟩, 2, 2, [(d, 1)], [], .irrevocable, .none⟩ 0 ⟨0, false⟩ d (fun t y => ∃ q, t.port? (y.v.uni b).toNat = some q ∧ ((y.v.uni c).toNat = 1 ∧ q.state = .standby ∨ (y.v.uni c).toNat = 2 ∧ q.state = .up))
      (fun t y => t.reroute fun s => s.modPort (y.v.uni b).toNat fun q =>
        { q with state := if (y.v.uni c).toNat = 1 then .up else .standby }) (fun _ _ => 0) ∧
      Answers (.flinkPort d a b c) ⟨⟨0, false⟩, 2, 2, [(d, 1)], [], .irrevocable, .none⟩ 0 ⟨0, false⟩ d (fun t y => ∃ q, t.port? (y.v.uni b).toNat = some q ∧ ((y.v.uni c).toNat = 1 ∨ (y.v.uni c).toNat = 2) ∧ (q.state = .disabled ∨ q.state = .failed))
      (fun t y => t.modPort (y.v.uni b).toNat fun q =>
        { q with state := .training, standby := (y.v.uni c).toNat == 2, since := t.cycle }) (fun _ _ => 0)) ∧
  (∀ (d a b c : Opnd), Answers (.flinkRoute d a b c) ⟨⟨0, false⟩, 2, 2, [(d, 1)], [], .irrevocable, .none⟩ 0 ⟨0, false⟩ d (fun _ y => (y.v.uni b).toNat ≤ 15 ∧ (y.v.uni c).toNat ≤ 255 ∧ (y.v.uni c).toNat / 16 % 4 = 0)
      (fun t y => t.reroute fun s => { s with fabric := { s.fabric with routes := assocSet s.fabric.routes (y.v.uni b).toNat ⟨(y.v.uni c).toNat / 128 == 1, (y.v.uni c).toNat / 64 % 2 == 1, (y.v.uni c).toNat % 16⟩ } }) (fun _ _ => 0)) ∧
  (∀ (d a b c : Opnd), Answers (.flinkKey d a b c) ⟨⟨0, false⟩, 2, 2, [(d, 1)], [], .irrevocable, .none⟩ 0 ⟨0, false⟩ d (fun t y => (y.v.base a).toNat % 32 = 0 ∧ Fetches y.v.part.ring (y.v.base a) 32 t y ∧ ((fetched y.v.part.ring (y.v.base a) 32 t y).2.2.v.uni c).toNat ≤ 3 ∧ ((fetched y.v.part.ring (y.v.base a) 32 t y).2.2.v.uni c).toNat % 2 = 0 ∧
        leNat ((fetched y.v.part.ring (y.v.base a) 32 t y).1.drop 20) = 0 ∧ ((fetched y.v.part.ring (y.v.base a) 32 t y).2.1.port? (((fetched y.v.part.ring (y.v.base a) 32 t y).2.2.v.uni b).toNat)).isSome = true)
      (fun t y => let r := (fetched y.v.part.ring (y.v.base a) 32 t y)
        (r.2.1.port? (r.2.2.v.uni b).toNat).elim r.2.1 fun q => r.2.1.sealWith q ((r.2.2.v.uni c).toNat / 2 % 2 == 1) r.1) (fun _ _ => 0) ∧
      Answers (.flinkKey d a b c) ⟨⟨0, false⟩, 2, 2, [(d, 1)], [], .irrevocable, .none⟩ 0 ⟨0, false⟩ d (fun t y => (y.v.base a).toNat % 32 = 0 ∧ Fetches y.v.part.ring (y.v.base a) 32 t y ∧ ((fetched y.v.part.ring (y.v.base a) 32 t y).2.2.v.uni c).toNat ≤ 3 ∧ ((fetched y.v.part.ring (y.v.base a) 32 t y).2.2.v.uni c).toNat % 2 = 1 ∧
        leNat ((fetched y.v.part.ring (y.v.base a) 32 t y).1.drop 20) = 0 ∧ ∃ q, (fetched y.v.part.ring (y.v.base a) 32 t y).2.1.port? (((fetched y.v.part.ring (y.v.base a) 32 t y).2.2.v.uni b).toNat) = some q ∧
          (if ((fetched y.v.part.ring (y.v.base a) 32 t y).2.2.v.uni c).toNat / 2 % 2 == 1 then q.rx1 else q.rx0) = none)
      (fun t y => let r := (fetched y.v.part.ring (y.v.base a) 32 t y)
        r.2.1.openWith (r.2.2.v.uni b).toNat ((r.2.2.v.uni c).toNat / 2 % 2 == 1) r.1) (fun _ _ => 0)) ∧
  (∀ (d a b c : Opnd), Answers (.flinkMirror d a b c) ⟨⟨0, false⟩, 2, 2, [(d, 1)], [], .irrevocable, .none⟩ 0 ⟨0, false⟩ d (fun t y => (y.v.base a).toNat % 32 = 0 ∧ Fetches y.v.part.ring (y.v.base a) 32 t y ∧ (fetched y.v.part.ring (y.v.base a) 32 t y).2.1.mirrorWrong (((fetched y.v.part.ring (y.v.base a) 32 t y).2.2.v.uni b).toNat) (fetched y.v.part.ring (y.v.base a) 32 t y).1 = false ∧
        (fetched y.v.part.ring (y.v.base a) 32 t y).2.1.mirrorTaken (mirrorOf (((fetched y.v.part.ring (y.v.base a) 32 t y).2.2.v.uni b).toNat) (fetched y.v.part.ring (y.v.base a) 32 t y).1) = false)
      (fun t y => let r := (fetched y.v.part.ring (y.v.base a) 32 t y)
        { r.2.1 with fabric := { r.2.1.fabric with mirrors := r.2.1.fabric.mirrors ++ [mirrorOf (r.2.2.v.uni b).toNat r.1] } }) (fun _ _ => 0)) ∧
  (∀ (d a b c : Opnd), Answers (.flinkUnmirror d a b c) ⟨⟨0, false⟩, 2, 2, [(d, 1)], [], .irrevocable, .none⟩ 0 ⟨0, false⟩ d (fun t y => (y.v.uni b).toNat ≤ 255 ∧ ∃ m, t.mirror? (y.v.uni b).toNat = some m ∧
        ∀ k ∈ m.batches, k.settled = true)
      (fun t y => { t with fabric := { t.fabric with mirrors := t.fabric.mirrors.filter fun m => m.idx != (y.v.uni b).toNat } }) (fun _ _ => 0)) ∧
  (∀ (d a b c : Opnd), Answers (.flinkGrant d a b c) ⟨⟨0, false⟩, 2, 2, [(d, 1)], [], .irrevocable, .none⟩ 0 ⟨0, false⟩ d (fun t y => (y.v.base a).toNat % 32 = 0 ∧ Fetches y.v.part.ring (y.v.base a) 32 t y ∧ grantWrong (((fetched y.v.part.ring (y.v.base a) 32 t y).2.2.v.uni b).toNat) (fetched y.v.part.ring (y.v.base a) 32 t y).1 = false ∧
        ∀ g ∈ (fetched y.v.part.ring (y.v.base a) 32 t y).2.1.fabric.grants, g.idx ≠ ((fetched y.v.part.ring (y.v.base a) 32 t y).2.2.v.uni b).toNat)
      (fun t y => let r := (fetched y.v.part.ring (y.v.base a) 32 t y)
        { r.2.1 with fabric := { r.2.1.fabric with grants := r.2.1.fabric.grants ++ [grantOf (r.2.2.v.uni b).toNat r.1] } }) (fun _ _ => 0)) ∧
  (∀ (d a b c : Opnd), Answers (.flinkRevoke d a b c) ⟨⟨0, false⟩, 2, 2, [(d, 1)], [], .irrevocable, .none⟩ 0 ⟨0, false⟩ d (fun t y => (y.v.uni b).toNat ≤ 63 ∧ ∃ g ∈ t.fabric.grants, g.idx = (y.v.uni b).toNat)
      (fun t y => { t with fabric := { t.fabric with grants := t.fabric.grants.filter fun g => g.idx != (y.v.uni b).toNat } }) (fun _ _ => 0)) ∧
  (∀ (d a b c : Opnd), Answers (.flinkSetid d a b c) ⟨⟨0, false⟩, 2, 2, [(d, 1)], [], .irrevocable, .none⟩ 0 ⟨0, false⟩ d (fun t y => (y.v.uni c).toNat ≤ 15 ∧ ∀ q ∈ t.fabric.ports, q.state = .disabled)
      (fun t y => { t with pkg := { t.pkg with number := (y.v.uni c).toNat } }) (fun _ _ => 0))

/-- TSWAP, TPIN, TUNPIN, TRES, TWREC, HALTC and RESUMEC complete. For TSWAP, TPIN_L, TPIN_X, TUNPIN_L, TUNPIN_X, TRES_L, TRES_X,
TRES_STAGE, TWREC_WS, TWREC_DECLARE, TWREC_UNDECLARE, TWREC_DIRTY, HALTC, HALTC_STOP, RESUMEC: whenever the form is ready (its part
has the turn, a run and no failing check, and older work is done where the kind asks for it), and the conditions named on the state
and operands hold, exec answers the next state that is named: the effect of the form itself, one more instruction counted, and where
flow goes on. Each answers in D and makes the job, pin, log or halt that its rule gives. The model's own choice in it: that a
TWREC_DECLARE or TWREC_UNDECLARE of a stage that is not bound answers 4 (log 138). (R571, R578, R579, R580, R581, R582, R583) -/
def Obligations.CompletesTier : Prop :=
  (∀ (p : Pred) (up : Bool) (d a b : Opnd), Falls (.tswap p up d a b) ⟨p, 2, 1, [(d, 1)], [], .irrevocable, .none⟩ 0 (fun _ y => y.v.acts p = false) (fun t _ => t) true ∧
      Answers (.tswap p up d a b) ⟨p, 2, 1, [(d, 1)], [], .irrevocable, .none⟩ 0 p d (fun t y => y.v.acts p = true ∧ (y.v.base a).toNat % 64 = 0 ∧ Fetches y.v.part.ring (y.v.base a) 64 t y ∧
        badDesc (.swap up) (fetched y.v.part.ring (y.v.base a) 64 t y).1 = false ∧
        JobStarts (fetched y.v.part.ring (y.v.base a) 64 t y).2 b
          ((fetched y.v.part.ring (y.v.base a) 64 t y).2.2.jobOf (.swap up) (fetched y.v.part.ring (y.v.base a) 64 t y).1))
      (fun t y => jobStarted (fetched y.v.part.ring (y.v.base a) 64 t y).2 b
        ((fetched y.v.part.ring (y.v.base a) 64 t y).2.2.jobOf (.swap up) (fetched y.v.part.ring (y.v.base a) 64 t y).1)) (fun _ _ => 0)) ∧
  (∀ (p : Pred) (d a b : Opnd), Falls (.tpinL p d a b) ⟨p, 2, 0, [(d, 1)], [], .irrevocable, .none⟩ 0 (fun _ y => y.v.acts p = false) (fun t _ => t) true ∧
      Answers (.tpinL p d a b) ⟨p, 2, 0, [(d, 1)], [], .irrevocable, .none⟩ 0 p d (fun t y => y.v.acts p = true ∧ t.lost (pinsDone true a b t y).2 y.r = false)
      (fun t y => (pinsDone true a b t y).2) (fun t y => (pinsDone true a b t y).1)) ∧
  (∀ (p : Pred) (d a b : Opnd) (imm : Word), Falls (.tpinX p d a b imm) ⟨p, 3, 0, [(d, 1)], [], .irrevocable, .none⟩ imm (fun _ y => y.v.acts p = false) (fun t _ => t) true ∧
      Answers (.tpinX p d a b imm) ⟨p, 3, 0, [(d, 1)], [], .irrevocable, .none⟩ imm p d (fun t y => y.v.acts p = true ∧ t.lost (pinsDone true a b t y).2 y.r = false)
      (fun t y => (pinsDone true a b t y).2) (fun t y => (pinsDone true a b t y).1)) ∧
  (∀ (p : Pred) (d a b : Opnd), Falls (.tunpinL p d a b) ⟨p, 2, 0, [(d, 1)], [], .irrevocable, .none⟩ 0 (fun _ y => y.v.acts p = false) (fun t _ => t) true ∧
      Answers (.tunpinL p d a b) ⟨p, 2, 0, [(d, 1)], [], .irrevocable, .none⟩ 0 p d (fun t y => y.v.acts p = true ∧ t.lost (pinsDone false a b t y).2 y.r = false)
      (fun t y => (pinsDone false a b t y).2) (fun t y => (pinsDone false a b t y).1)) ∧
  (∀ (p : Pred) (d a b : Opnd) (imm : Word), Falls (.tunpinX p d a b imm) ⟨p, 3, 0, [(d, 1)], [], .irrevocable, .none⟩ imm (fun _ y => y.v.acts p = false) (fun t _ => t) true ∧
      Answers (.tunpinX p d a b imm) ⟨p, 3, 0, [(d, 1)], [], .irrevocable, .none⟩ imm p d (fun t y => y.v.acts p = true ∧ t.lost (pinsDone false a b t y).2 y.r = false)
      (fun t y => (pinsDone false a b t y).2) (fun t y => (pinsDone false a b t y).1)) ∧
  (∀ (p : Pred) (d a b : Opnd), Falls (.tresL p d a b) ⟨p, 2, 0, [(d, 1)], [], .irrevocable, .none⟩ 0 (fun _ y => y.v.acts p = false) (fun t _ => t) true ∧
      Answers (.tresL p d a b) ⟨p, 2, 0, [(d, 1)], [], .irrevocable, .none⟩ 0 p d (fun _ y => y.v.acts p = true) (fun t _ => t)
      (fun t y => t.countUnits y (y.v.base a) (y.v.uni b).toNat)) ∧
  (∀ (p : Pred) (d a b : Opnd) (imm : Word), Falls (.tresX p d a b imm) ⟨p, 3, 0, [(d, 1)], [], .irrevocable, .none⟩ imm (fun _ y => y.v.acts p = false) (fun t _ => t) true ∧
      Answers (.tresX p d a b imm) ⟨p, 3, 0, [(d, 1)], [], .irrevocable, .none⟩ imm p d (fun _ y => y.v.acts p = true) (fun t _ => t)
      (fun t y => t.countUnits y (y.v.base a) (y.v.uni b).toNat)) ∧
  (∀ (p : Pred) (d a b c : Opnd), Falls (.tresStage p d a b c) ⟨p, 2, 0, [(d, 1)], [], .irrevocable, .none⟩ 0 (fun _ y => y.v.acts p = false) (fun t _ => t) true ∧
      Answers (.tresStage p d a b c) ⟨p, 2, 0, [(d, 1)], [], .irrevocable, .none⟩ 0 p d (fun _ y => y.v.acts p = true) (fun t _ => t)
      (fun t y => t.stageFigure y.c.part (y.v.uni c).toNat (y.v.uni b).toNat)) ∧
  (∀ (p : Pred) (d a b : Opnd), Falls (.twrecWs p d a b) ⟨p, 2, 1, [(d, 1)], [], .irrevocable, .none⟩ 0 (fun _ y => y.v.acts p = false) (fun t _ => t) true ∧
      Answers (.twrecWs p d a b) ⟨p, 2, 1, [(d, 1)], [], .irrevocable, .none⟩ 0 p d (fun t y => y.v.acts p = true ∧ (y.v.base a).toNat % 64 = 0 ∧ Fetches y.v.part.ring (y.v.base a) 64 t y ∧
        badDesc (.close false) (fetched y.v.part.ring (y.v.base a) 64 t y).1 = false ∧
        JobStarts (fetched y.v.part.ring (y.v.base a) 64 t y).2 b
          ((fetched y.v.part.ring (y.v.base a) 64 t y).2.2.jobOf (.close false) (fetched y.v.part.ring (y.v.base a) 64 t y).1))
      (fun t y => jobStarted (fetched y.v.part.ring (y.v.base a) 64 t y).2 b
        ((fetched y.v.part.ring (y.v.base a) 64 t y).2.2.jobOf (.close false) (fetched y.v.part.ring (y.v.base a) 64 t y).1)) (fun _ _ => 0)) ∧
  (∀ (p : Pred) (d a b : Opnd), Falls (.twrecDeclare p d a b) ⟨p, 2, 1, [(d, 1)], [], .irrevocable, .none⟩ 0 (fun _ y => y.v.acts p = false) (fun t _ => t) true ∧
      Answers (.twrecDeclare p d a b) ⟨p, 2, 1, [(d, 1)], [], .irrevocable, .none⟩ 0 p d (fun t y => y.v.acts p = true ∧ (y.v.base a).toNat % 64 = 0 ∧ Fetches y.v.part.ring (y.v.base a) 64 t y ∧
        badDesc .declare (fetched y.v.part.ring (y.v.base a) 64 t y).1 = false ∧
        JobStarts (fetched y.v.part.ring (y.v.base a) 64 t y).2 b
          ((fetched y.v.part.ring (y.v.base a) 64 t y).2.2.jobOf .declare (fetched y.v.part.ring (y.v.base a) 64 t y).1))
      (fun t y => jobStarted (fetched y.v.part.ring (y.v.base a) 64 t y).2 b
        ((fetched y.v.part.ring (y.v.base a) 64 t y).2.2.jobOf .declare (fetched y.v.part.ring (y.v.base a) 64 t y).1)) (fun _ _ => 0)) ∧
  (∀ (p : Pred) (d a b : Opnd), Falls (.twrecUndeclare p d a b) ⟨p, 2, 1, [(d, 1)], [], .irrevocable, .none⟩ 0 (fun _ y => y.v.acts p = false) (fun t _ => t) true ∧
      Answers (.twrecUndeclare p d a b) ⟨p, 2, 1, [(d, 1)], [], .irrevocable, .none⟩ 0 p d (fun t y => y.v.acts p = true ∧ (y.v.base a).toNat % 64 = 0 ∧ Fetches y.v.part.ring (y.v.base a) 64 t y ∧
        badDesc .undeclare (fetched y.v.part.ring (y.v.base a) 64 t y).1 = false ∧
        JobStarts (fetched y.v.part.ring (y.v.base a) 64 t y).2 b
          ((fetched y.v.part.ring (y.v.base a) 64 t y).2.2.jobOf .undeclare (fetched y.v.part.ring (y.v.base a) 64 t y).1))
      (fun t y => jobStarted (fetched y.v.part.ring (y.v.base a) 64 t y).2 b
        ((fetched y.v.part.ring (y.v.base a) 64 t y).2.2.jobOf .undeclare (fetched y.v.part.ring (y.v.base a) 64 t y).1)) (fun _ _ => 0)) ∧
  (∀ (p : Pred) (d a b : Opnd), Falls (.twrecDirty p d a b) ⟨p, 2, 1, [(d, 1)], [], .irrevocable, .none⟩ 0 (fun _ y => y.v.acts p = false) (fun t _ => t) true ∧
      Answers (.twrecDirty p d a b) ⟨p, 2, 1, [(d, 1)], [], .irrevocable, .none⟩ 0 p d (fun t y => y.v.acts p = true ∧ (y.v.base a).toNat % 64 = 0 ∧ Fetches y.v.part.ring (y.v.base a) 64 t y ∧
        badDesc (.close true) (fetched y.v.part.ring (y.v.base a) 64 t y).1 = false ∧
        JobStarts (fetched y.v.part.ring (y.v.base a) 64 t y).2 b
          ((fetched y.v.part.ring (y.v.base a) 64 t y).2.2.jobOf (.close true) (fetched y.v.part.ring (y.v.base a) 64 t y).1))
      (fun t y => jobStarted (fetched y.v.part.ring (y.v.base a) 64 t y).2 b
        ((fetched y.v.part.ring (y.v.base a) 64 t y).2.2.jobOf (.close true) (fetched y.v.part.ring (y.v.base a) 64 t y).1)) (fun _ _ => 0)) ∧
  (∀ (p : Pred) (d a b : Opnd), Falls (.haltc p d a b) ⟨p, 2, 1, [(d, 1)], [], .irrevocable, .none⟩ 0 (fun _ y => y.v.acts p = false) (fun t _ => t) true ∧
      Answers (.haltc p d a b) ⟨p, 2, 1, [(d, 1)], [], .irrevocable, .none⟩ 0 p d (fun t y => y.v.acts p = true ∧ WordReaches (y.v.base a) t y ∧
        JobStarts (wordReached (y.v.base a) t y) b (y.job (.halt false) 0 0 0 0 (y.v.base a)))
      (fun t y => jobStarted (wordReached (y.v.base a) t y) b (y.job (.halt false) 0 0 0 0 (y.v.base a))) (fun _ _ => 0)) ∧
  (∀ (p : Pred) (d a b : Opnd), Falls (.haltcStop p d a b) ⟨p, 2, 1, [(d, 1)], [], .irrevocable, .none⟩ 0 (fun _ y => y.v.acts p = false) (fun t _ => t) true ∧
      Answers (.haltcStop p d a b) ⟨p, 2, 1, [(d, 1)], [], .irrevocable, .none⟩ 0 p d (fun t y => y.v.acts p = true ∧ WordReaches (y.v.base a) t y ∧
        JobStarts (wordReached (y.v.base a) t y) b (y.job (.halt true) 0 0 0 0 (y.v.base a)))
      (fun t y => jobStarted (wordReached (y.v.base a) t y) b (y.job (.halt true) 0 0 0 0 (y.v.base a))) (fun _ _ => 0)) ∧
  (∀ (p : Pred) (d b : Opnd), Falls (.resumec p d b) ⟨p, 2, 1, [(d, 1)], [], .irrevocable, .none⟩ 0 (fun _ y => y.v.acts p = false) (fun t _ => t) true ∧
      Answers (.resumec p d b) ⟨p, 2, 1, [(d, 1)], [], .irrevocable, .none⟩ 0 p d (fun t y => y.v.acts p = true ∧ ∃ k, t.tierTarget y b = some k ∧ (t.resumePart k).1 = 0)
      (fun t y => (t.tierTarget y b).elim t fun k => (t.resumePart k).2) (fun _ _ => 0))

/-- Calls, traps, returns, special registers, GRESUME, GKILL and TLB instructions complete. For SYSC_L, SYSC_X, HCALL_L, HCALL_X,
MCALL_L, MCALL_X, TRAP_L, TRAP_X, TRET, TRET_PARK, TFENCE, MFSR, MTSR_L, MTSR_X, GRESUME_L, GRESUME_X, GKILL_L, GKILL_X, TLBI,
TLBSYNC: whenever the form is ready (its part has the turn, a run and no failing check, and older work is done where the kind asks
for it), and the conditions named on the state and operands hold, exec answers the next state that is named: the effect of the form
itself, one more instruction counted, and where flow goes on. SYSC, HCALL, MCALL and TRAP take their trap, which resumes behind
them; where no ring takes it, their gang stops at the start of the run; with no acting lane they do nothing. TRET restores its
frame. That a call's fate is found before its run is performed is the model's reading (log 13), and that a command of CCTL or HPCTL
is the whole word written is its choice (log 131). (R340, R358, R360, R361, R364, R365, R367, R368, R369, R370) -/
def Obligations.CompletesSys : Prop :=
  (∀ (a : Opnd), Falls (.syscL a) ⟨⟨0, false⟩, 2, 0, [], [], .irrevocable, .none⟩ 0 (fun _ y => y.v.act ⟨0, false⟩ = 0) (fun t _ => t) true ∧
      Calls (.syscL a) ⟨⟨0, false⟩, 2, 0, [], [], .irrevocable, .none⟩ 0 0x14 (fun y => y.v.rd32 a 0)) ∧
  (∀ (a : Opnd) (imm : Word), Falls (.syscX a imm) ⟨⟨0, false⟩, 3, 0, [], [], .irrevocable, .none⟩ imm (fun _ y => y.v.act ⟨0, false⟩ = 0) (fun t _ => t) true ∧
      Calls (.syscX a imm) ⟨⟨0, false⟩, 3, 0, [], [], .irrevocable, .none⟩ imm 0x14 (fun y => y.v.rd32 a 0)) ∧
  (∀ (a : Opnd), Falls (.hcallL a) ⟨⟨0, false⟩, 2, 1, [], [], .irrevocable, .none⟩ 0 (fun _ y => y.v.act ⟨0, false⟩ = 0) (fun t _ => t) true ∧
      Calls (.hcallL a) ⟨⟨0, false⟩, 2, 1, [], [], .irrevocable, .none⟩ 0 0x15 (fun y => y.v.rd32 a 0)) ∧
  (∀ (a : Opnd) (imm : Word), Falls (.hcallX a imm) ⟨⟨0, false⟩, 3, 1, [], [], .irrevocable, .none⟩ imm (fun _ y => y.v.act ⟨0, false⟩ = 0) (fun t _ => t) true ∧
      Calls (.hcallX a imm) ⟨⟨0, false⟩, 3, 1, [], [], .irrevocable, .none⟩ imm 0x15 (fun y => y.v.rd32 a 0)) ∧
  (∀ (a : Opnd), Falls (.mcallL a) ⟨⟨0, false⟩, 2, 1, [], [], .irrevocable, .none⟩ 0 (fun _ y => y.v.act ⟨0, false⟩ = 0) (fun t _ => t) true ∧
      Calls (.mcallL a) ⟨⟨0, false⟩, 2, 1, [], [], .irrevocable, .none⟩ 0 0x16 (fun y => y.v.rd32 a 0)) ∧
  (∀ (a : Opnd) (imm : Word), Falls (.mcallX a imm) ⟨⟨0, false⟩, 3, 1, [], [], .irrevocable, .none⟩ imm (fun _ y => y.v.act ⟨0, false⟩ = 0) (fun t _ => t) true ∧
      Calls (.mcallX a imm) ⟨⟨0, false⟩, 3, 1, [], [], .irrevocable, .none⟩ imm 0x16 (fun y => y.v.rd32 a 0)) ∧
  (∀ (a : Opnd), Falls (.trapL a) ⟨⟨0, false⟩, 2, 0, [], [], .irrevocable, .none⟩ 0 (fun _ y => y.v.act ⟨0, false⟩ = 0) (fun t _ => t) true ∧
      Calls (.trapL a) ⟨⟨0, false⟩, 2, 0, [], [], .irrevocable, .none⟩ 0 0x17 (fun y => y.v.rd32 a 0)) ∧
  (∀ (a : Opnd) (imm : Word), Falls (.trapX a imm) ⟨⟨0, false⟩, 3, 0, [], [], .irrevocable, .none⟩ imm (fun _ y => y.v.act ⟨0, false⟩ = 0) (fun t _ => t) true ∧
      Calls (.trapX a imm) ⟨⟨0, false⟩, 3, 0, [], [], .irrevocable, .none⟩ imm 0x17 (fun y => y.v.rd32 a 0)) ∧
  (Places .tret ⟨⟨0, false⟩, 2, 1, [], [], .alone, .none⟩ 0 Returns (tretDone false)) ∧
  (Places .tretPark ⟨⟨0, false⟩, 2, 1, [], [], .alone, .none⟩ 0 Returns (tretDone true)) ∧
  (Falls .tfence ⟨⟨0, false⟩, 2, 0, [], [], .alone, .none⟩ 0 (fun _ y => y.v.part.aflags &&& y.v.gang.aenable = 0) (fun t _ => t) true ∧
      Traps .tfence ⟨⟨0, false⟩, 2, 0, [], [], .alone, .none⟩ 0 (fun _ y => y.v.part.aflags &&& y.v.gang.aenable ≠ 0) 0x10 (fun y => (y.v.part.aflags &&& y.v.gang.aenable).setWidth 32)) ∧
  (∀ (p : Pred) (num : Fin 1024) (d : Opnd), Falls (.mfsr p num d) ⟨p, 2, (num.val / 256), [(d, 1)], [], .plain, .none⟩ 0 (fun _ _ => True) (fun t y => t.putView y.r (y.v.wrUniform p d (t.srGet y num.val))) false) ∧
  (∀ (p : Pred) (num : Fin 1024) (a : Opnd), Falls (.mtsrL p num a) ⟨p, 2, (num.val / 256), [], [], .irrevocable, .none⟩ 0 (fun _ y => y.v.acts p = false) (fun t _ => t) true ∧
      Falls (.mtsrL p num a) ⟨p, 2, (num.val / 256), [], [], .irrevocable, .none⟩ 0 (fun _ y => y.v.acts p = true) (fun t y => t.srSet y num.val (y.v.rd32 a 0)) true) ∧
  (∀ (p : Pred) (num : Fin 1024) (a : Opnd) (imm : Word), Falls (.mtsrX p num a imm) ⟨p, 3, (num.val / 256), [], [], .irrevocable, .none⟩ imm (fun _ y => y.v.acts p = false) (fun t _ => t) true ∧
      Falls (.mtsrX p num a imm) ⟨p, 3, (num.val / 256), [], [], .irrevocable, .none⟩ imm (fun _ y => y.v.acts p = true) (fun t y => t.srSet y num.val (y.v.rd32 a 0)) true) ∧
  (∀ (d a : Opnd), Answers (.gresumeL d a) ⟨⟨0, false⟩, 2, 1, [(d, 1)], [], .alone, .none⟩ 0 ⟨0, false⟩ d (fun t y => ∃ c g, t.ofHandle y.c.part (y.v.rd32 a 0) = some (c, g) ∧ g.parked = true)
      (fun t y => (t.ofHandle y.c.part (y.v.rd32 a 0)).elim t fun k =>
        t.modGang k.1.id k.2.idx fun g => { g with parked := false, monStop := false }) (fun _ _ => 0)) ∧
  (∀ (d a : Opnd) (imm : Word), Answers (.gresumeX d a imm) ⟨⟨0, false⟩, 3, 1, [(d, 1)], [], .alone, .none⟩ imm ⟨0, false⟩ d (fun t y => ∃ c g, t.ofHandle y.c.part (y.v.rd32 a 0) = some (c, g) ∧ g.parked = true)
      (fun t y => (t.ofHandle y.c.part (y.v.rd32 a 0)).elim t fun k =>
        t.modGang k.1.id k.2.idx fun g => { g with parked := false, monStop := false }) (fun _ _ => 0)) ∧
  (∀ (drop : Bool) (d a : Opnd), Answers (.gkillL drop d a) ⟨⟨0, false⟩, 2, 1, [(d, 1)], [], .alone, .none⟩ 0 ⟨0, false⟩ d (fun t y => ∃ c, t.cohortOf y.c.part (y.v.rd32 a 0) = some c ∧ c.id ≠ y.c.id)
      (fun t y => (t.cohortOf y.c.part (y.v.rd32 a 0)).elim t fun c => t.killCohort c.id drop) (fun _ _ => 0) ∧
      Places (.gkillL drop d a) ⟨⟨0, false⟩, 2, 1, [(d, 1)], [], .alone, .none⟩ 0 (fun t y => ∃ c, t.cohortOf y.c.part (y.v.rd32 a 0) = some c ∧ c.id = y.c.id) (fun t y => t.killCohort y.c.id drop)) ∧
  (∀ (drop : Bool) (d a : Opnd) (imm : Word), Answers (.gkillX drop d a imm) ⟨⟨0, false⟩, 3, 1, [(d, 1)], [], .alone, .none⟩ imm ⟨0, false⟩ d (fun t y => ∃ c, t.cohortOf y.c.part (y.v.rd32 a 0) = some c ∧ c.id ≠ y.c.id)
      (fun t y => (t.cohortOf y.c.part (y.v.rd32 a 0)).elim t fun c => t.killCohort c.id drop) (fun _ _ => 0) ∧
      Places (.gkillX drop d a imm) ⟨⟨0, false⟩, 3, 1, [(d, 1)], [], .alone, .none⟩ imm (fun t y => ∃ c, t.cohortOf y.c.part (y.v.rd32 a 0) = some c ∧ c.id = y.c.id) (fun t y => t.killCohort y.c.id drop)) ∧
  (∀ (scope : TlbiScope) (s2 : Bool) (a b : Opnd), Falls (.tlbi scope s2 a b) ⟨⟨0, false⟩, 2, (if s2 then 2 else 1), [], [], .alone, .none⟩ 0 (fun _ _ => True) (fun t y =>
      let u := t.tlbi y.c.part scope s2 (y.v.rd64 false a 0) ((y.v.rd32 b 0).toNat % 65536)
      u.modPart y.r fun q => { q with tlbis := q.tlbis ++ u.underWay y.c.part }) true) ∧
  (Falls .tlbsync ⟨⟨0, false⟩, 2, 1, [], [], .alone, .none⟩ 0 (fun t y => ∀ k ∈ y.v.part.tlbis, k ∉ t.underWay y.c.part) (fun t y => t.modPart y.r fun q => { q with tlbis := [] }) true)

/-- Commit, split, merge, claim, trap, drain, walk, reply and time-out steps complete. For RUN_COMMIT, CONTINUE_WITHOUT_LOGGING,
PART_SPLIT, REGANG_MERGE, CLAIM_GRANT, CLAIM_DEADLOCK, TRAP_ENTRY, OWNERSHIP_REQUEST, OWNERSHIP_GRANT, STORE_BUFFER_DRAIN,
PAGE_WALK, LOAD_REPLY, HOME_SLICE_ATOMIC, ATOMIC_REPLY, REMOTE_REQUEST_INGRESS, REMOTE_REPLY, REMOTE_TIMEOUT, IO_COMPLETION,
IO_TIMEOUT: on a package whose clocks run, in every state that meets the named conditions, exec answers the next state that is
named, which is the effect of that step. The model's own readings in it: a drain takes the older committed entries of its part with
it (log 61), local atomics that wait for a line are combined as log 74 says, log 6 says which accesses are requests, a REGANG merges
the least group (log 16), a reply leaves by the port that log 46 names, one answer serves the lanes of an atomic on one word (log
96), a peer's request is under the first installed of its grants (log 136), R543's fault comes before stage 2 (log 132), and a gang
arm's entry makes no halted cohort ready (log 133). (R97, R101, R110, R126, R141, R142, R155, R273, R278, R283, R308, R322, R355,
R511, R512, R513, R604) -/
def Obligations.CompletesSeqSteps : Prop :=
  (∀ (s : State) r p x l, s.part? r = some p → p.runs = x :: l → s.canCommit p x = true → Acts (.runCommit r) s ((s.commitRun r).afterCommit p.id)) ∧
  (∀ (s : State) r p x, s.part? r = some p → p.runs = [x] → p.wait = .room → x.noLog = false → (∀ e ∈ s.stores, e.run = x.id → e.owned = true) →
      Acts (.continueWithoutLogging r) s (s.unlog r p x)) ∧
  (∀ (s : State) r p v t h, s.part? r = some p → p.wait = .split v t h → p.runs = [] → Acts (.partSplit r) s (s.splitPart r p v t h)) ∧
  (∀ (s : State) co i g, s.gang? co i = some g →
      Acts (.regangMerge co i) s (s.modGang co i fun k => (g.parts.map fun p => p.id).foldl Gang.mergeOne k)) ∧
  (∀ (s : State) core sub (c : Claim) l us (u : State), (s.claims.filter fun k => k.core == core && k.sub == sub && !k.granted) = c :: l →
      c.n ≤ s.unitsAvailable ((s.cohort? c.cohort).elim 0 (·.part)) core sub → s.takeUnits ((s.cohort? c.cohort).elim 0 (·.part)) core sub c.n = some (us, u) →
      Acts (.claimGrant core sub) s (State.grantClaims core sub l
        { u with claims := u.claims.map fun (d : Claim) => if d.part = c.part then { d with granted := true, pool := us } else d })) ∧
  (∀ (s : State) (c : Cohort) (k : Claim) l, s.cohort? c.id = some c → (s.claims.filter fun d => d.cohort == c.id && !d.granted) = k :: l →
      (∀ g ∈ c.gangs, g.live ≠ 0 → s.blockedGang g = true) → c.halted = false →
      (∀ d ∈ k :: l, min 256 (s.unitShare c.part) - s.unitsTaken c.core d.sub (fun x => x.id == c.id) < d.n) →
      Acts (.claimDeadlock c.id) s ((k :: l).foldl State.failClaim s)) ∧
  (∀ (s : State) r p (t : Trap), s.part? r = some p → p.trap = some t → p.runs.length ≤ 1 → (∀ e ∈ s.entriesOf p.id, e.committed = false) →
      let u := (s.rollback r false).modPart r fun q => { q with trap := none }
      ∀ v, (match t.resume with
        | .runStart => u.takeTrap r t ((u.part? r).elim 0 (·.pc))
        | .here => s.takeTrap r t t.fpc
        | .next => s.takeTrap r t t.after) = some v → Acts (.trapEntry r) s v) ∧
  (∀ (s : State) id e, s.stores.find? (fun x => x.id == id) = some e → e.owned = false → s.blocked e.line e.asks (some e.part) = false →
      Acts (.ownershipRequest id) s ((s.strike e.line e.asks (some e.part)).due [.ownershipGrant id])) ∧
  (∀ (s : State) id e, s.stores.find? (fun x => x.id == id) = some e → e.owned = false → s.blocked e.line e.asks (some e.part) = false →
      Acts (.ownershipGrant id) s (
        let u := s.strike e.line e.asks (some e.part)
        let v := { u with stores := u.stores.map fun (x : StoreEntry) => if x.id = id then { x with owned := true } else x }
        match v.partNo? e.part with
        | some (r, _) => v.due [.runCommit r]
        | none => v)) ∧
  (∀ (s : State) id e, s.stores.find? (fun x => x.id == id && x.committed) = some e →
      Acts (.storeBufferDrain id) s (
        let u := ((((s.entriesOf e.part).takeWhile fun x => x.id != id).filter fun x => x.committed) ++ [e]).foldl State.drainEntry s
        match u.partNo? e.part with
        | some (r, p) => if p.trap.isSome then u.due [.trapEntry r] else u
        | none => u)) ∧
  (∀ (s : State) sec w, s.walks.find? (fun x => x.sec == sec && s.onSec sec == some x.part) = some w →
      Acts (.pageWalk sec) s (
        let u := (({ s with walks := s.walks.erase w } : State).translate w.core w.part w.gslot w.ring (if w.store then .store else .load) false w.va).2
        if u.walks.any fun x => x.sec == sec && u.onSec sec == some x.part then u.due [.pageWalk sec] else u)) ∧
  (∀ (s : State) r x pd (u : State) c, ({ s with cur := some r } : State).ctx? 0 = some x → x.v.part.pend = some pd → ({ s with cur := some r } : State).goOn x pd = .fall u c →
      u.overfull x = false → Acts (.loadReply r) s (s.accessEnds r x pd u)) ∧
  (∀ (s : State) id q, s.req? id = some q → q.sent = false → q.peer = none → q.io = false →
      (∃ k, (s.partReqs q.part).find? (fun x => x.ans.isNone) = some k ∧ k.id = id) → (((s.issueReq q).req? id).bind (·.ans)).isSome = true →
      Acts (.homeSliceAtomic [id]) s ((s.issueReq q).due [.atomicReply id])) ∧
  (∀ (s : State) qs, Acts (.homeSliceAtomic qs) s ((s.combined qs).foldl State.atomicOne s)) ∧
  (∀ (s : State) id q r p x pd (u : State) c, s.req? id = some q → s.partNo? q.part = some (r, p) → ({ s with cur := some r } : State).ctx? 0 = some x → x.v.part.pend = some pd → ({ s with cur := some r } : State).goOn x pd = .fall u c →
      u.overfull x = false → Acts (.atomicReply id) s (s.accessEnds r x pd u)) ∧
  (∀ (s : State) (q : PeerReq) g a, (∀ r ∈ s.fabric.ingress, ¬ (r.q.pkg = q.pkg ∧ r.q.part = q.part ∧ r.q.src = q.src)) → s.fabricTime ≤ q.deadline →
      s.grantFor q (kindWidth q.kind) = some g → s.physStore q.addr = some (a, false) → s.underMove a = false →
      Acts (.remoteRequestIngress q) s (
        let r := State.homeMore g.own a q.more (((linesOf a (kindWidth q.kind)).foldl State.clearLine s).homeAccess none g.own a [] q.kind)
        r.1.replyTo q r.2 g.own)) ∧
  (∀ (s : State) id q rep, s.req? id = some q → q.sent = true → q.ans = none → q.peer.isSome = true → s.fabricTime ≤ q.deadline + 200 →
      Acts (.remoteReply id rep) s ((s.answerGroup q rep).resumeReq q)) ∧
  (∀ (s : State) id q, s.req? id = some q → q.sent = true → q.ans = none → q.peer.isSome = true → q.deadline + 200 < s.fabricTime →
      Acts (.remoteTimeout id) s (s.giveUp q)) ∧
  (∀ (s : State) id q r, s.req? id = some q → q.sent = true → q.ans = none → q.io = true →
      (s.cycle < q.deadline → Acts (.ioCompletion id r) s (match r with
        | .data bs => (s.modReq id fun x => { x with ans := some (.data bs []) }).resumeReq q
        | .poison => (s.modReq id fun x => { x with ans := some .poison }).resumeReq q
        | .error => s.giveUp q)) ∧
      (q.deadline ≤ s.cycle → Acts (.ioCompletion id r) s (s.giveUp q))) ∧
  (∀ (s : State) id q, s.req? id = some q → q.sent = true → q.ans = none → q.io = true → q.deadline ≤ s.cycle →
      Acts (.ioTimeout id) s (s.giveUp q))

/-- The steps of the copy and matrix engines complete. For COPY_CHUNK_ISSUE, COPY_CHUNK_DATA, MATRIX_OPERATION_START,
MATRIX_ROW_ENTRY, MATRIX_ROW_WRITE: on a package whose clocks run, in every state that meets the named conditions, exec answers the
next state that is named, which is the effect of that step. That an operation which has ended, though it cannot retire yet, holds no
engine is the model's choice (log 134). (R386, R85, R430, R433, R424) -/
def Obligations.CompletesEngSteps : Prop :=
  (∀ (s : State) core o l (u : State), s.activeCopies core = o :: l → s.issueOp o = .did u → Acts (.copyChunkIssue core) s ((u.servedCopy core o.place).tryEndCopy o.id)) ∧
  (∀ (s : State) core id o f l, s.copyOp? id = some o → o.flights = f :: l → f.ready = true → f.sent = false → o.ended = false → 
      let u := (s.copyPoison o f.bad).countReplies o f
      (∀ m n wb off, o.cmd.kind = .cast m n wb off → Acts (.copyChunkData core id) s ((((State.castLine o f o.targets u).handJoiners o f).popFlight id).tryEndCopy id)) ∧
      ((∀ m n wb off, o.cmd.kind ≠ .cast m n wb off) → f.dstPeer = none →
        Acts (.copyChunkData core id) s (if l.isEmpty then (u.chunkHere o f).tryEndCopy id else (u.chunkHere o f).due [.copyChunkData o.cmd.core id])) ∧
      (∀ k, (∀ m n wb off, o.cmd.kind ≠ .cast m n wb off) → f.dstPeer = some k →
        Acts (.copyChunkData core id) s (
          let q := u.chunkRequest o f k
          let v := (u.setDirty o.cmd.own f.leaves).modCopy id fun x => { x with flights := { f with sent := true } :: l }
          ({ v with reqs := v.reqs ++ [q], nextId := v.nextId + 1 } : State).issueReq q))) ∧
  (∀ (s : State) core o, s.matrixNow core = some o → o.started = false →
      ((∀ fa fb z, o.cmd.kind ≠ .mma fa fb z) → Acts (.matrixOperationStart core) s ((s.modMat o.id fun p => { p with started := true }).due [.matrixRowEntry core])) ∧
      (∀ fa fb z, o.cmd.kind = .mma fa fb z → s.tileKept core o.cmd.tile = true → (o.cmd.pair = true → s.tileKept (core + 1) o.cmd.tile2 = true) →
        Acts (.matrixOperationStart core) s ((s.modMat o.id fun p => { p with started := true }).due [.matrixRowEntry core])) ∧
      (∀ fa fb z, o.cmd.kind = .mma fa fb z → s.tileKept core o.cmd.tile = false → o.cmd.pair = false → (s.loadTile core o.cmd.tile).1 = none → Acts (.matrixOperationStart core) s
        (((s.loadTile core o.cmd.tile).2.modMat o.id fun p => { p with started := true }).due [.matrixRowEntry core])) ∧
      (∀ fa fb z, o.cmd.kind = .mma fa fb z → ¬ (s.tileKept core o.cmd.tile = true ∧ s.tileKept (core + 1) o.cmd.tile2 = true) → o.cmd.pair = true →
        (s.loadTile core o.cmd.tile).1 = none →
        ((s.loadTile core o.cmd.tile).2.loadTile (core + 1) o.cmd.tile2).1 = none → Acts (.matrixOperationStart core) s
        ((((s.loadTile core o.cmd.tile).2.loadTile (core + 1) o.cmd.tile2).2.modMat o.id fun p => { p with started := true }).due [.matrixRowEntry core]))) ∧
  (∀ (s : State) core o, s.matrixNow core = some o → o.started = true → o.entered = none →
      let r := s.matrixRow o core o.rowAt
      r.2.1 = none → Acts (.matrixRowEntry core) s ((r.2.2.modMat o.id fun p => { p with entered := some r.1 }).due [.matrixRowWrite core])) ∧
  (∀ (s : State) core o x, s.matrixNow core = some o → o.entered = some x →
      let u := s.engWrite o.cmd.own o.rowAt x none
      (o.cmd.pair = false → Acts (.matrixRowWrite core) s (u.matrixNext o)) ∧
      (let r := u.matrixRow o (core + 1) o.rowAt2
       o.cmd.pair = true → r.2.1 = none → Acts (.matrixRowWrite core) s ((r.2.2.engWrite o.cmd.own o.rowAt2 r.1 none).matrixNext o)))

/-- The steps of the stage engine complete. For QUEUE_ENQUEUE, ENQUEUE_ROOM_RESUME, REFILL_START, REFILL_COMPLETE, QUEUE_DEQUEUE,
QPOP_WAIT_SERVE, SUMMARY_PUBLISH, SUMMARY_ENTRY_ARRIVE, LAUNCH_DECISION, LAUNCH_DELIVERY: on a package whose clocks run, in every
state that meets the named conditions, exec answers the next state that is named, which is the effect of that step. The model's own
readings in it: a served QPOP whose records cannot reach it yet keeps them until its cohort has resumed (log 75), a launch that gets
no record is cancelled, its core deciding again 8 cycles later (log 40), a launched cohort takes the lowest free slots (log 24), a
record whose coach-house slot lies on a page under a tier move waits in line (log 67), a decision notes who is active on its section
(log 76), and AGED goes by the record at the front of its queue (log 129). (R462, R463, R464, R482, R467, R472, R473) -/
def Obligations.CompletesStageSteps : Prop :=
  (∀ (s : State) op o q (u : State), s.stage.pushes.find? (fun x => x.id == op) = some o → o.ended = false →
      s.queue? o.cmd.key = some q → q.line.head? = some (.push op) → (s.pushRecord o.cmd o.count).2.1 = none →
      (s.pushRecord o.cmd o.count).2.2.enqueue o.cmd.key (s.pushRecord o.cmd o.count).1 = some u →
      Acts (.queueEnqueue op) s (
        let v := { u with stage := { u.stage with pushes := u.stage.pushes.map fun (p : PushOp) => if p.id = op then { p with count := p.count + 1 } else p } }
        if o.cmd.src.count ≤ o.count + 1 then v.pushEnds o else v.due [.queueEnqueue op])) ∧
  (∀ (s : State) k, Acts (.enqueueRoomResume k) s (s.resumeLine k (((s.queue? k).elim 0 (·.line.length)) + 1))) ∧
  (∀ (s : State) k q, s.queue? k = some q → 32 ≤ q.free → q.coach ≠ [] → q.transit = 0 →
      Acts (.refillStart k) s ((s.modQueue k fun x => { x with transit := min 32 x.coach.length }).due [.refillComplete k])) ∧
  (∀ (s : State) k, Acts (.refillComplete k) s ((s.modQueue k fun q => { q with
      ring := q.ring ++ q.coach.take q.transit, coach := q.coach.drop q.transit, transit := 0 }).stirQueue k)) ∧
  (∀ (s : State) k q l, s.queue? k = some q → (q.ring = [] ∨ ∀ w ∈ q.pops, w.got.isSome) →
      (∀ port entry n, q.asks = .batch port entry n :: l → Acts (.queueDequeue k) s ((s.modQueue k fun x => { x with asks := l }).makeBatch k port entry n)) ∧
      (∀ core n h, q.asks = .launch core n :: l → s.stage.launches.find? (fun x => x.core == core && x.key == k && x.recs.isNone) = some h →
        Acts (.queueDequeue k) s (
          let r := ({ q with asks := l } : Queue).take n fun i => .gang h.cohort (i / 32)
          let u := (s.modQueue k fun x => { x with asks := l }).modQueue k fun _ => r.2
          ({ u with stage := { u.stage with launches := u.stage.launches.map fun (x : Launch) => if x.cohort = h.cohort then { x with recs := some r.1 } else x } } : State).due
            [.launchDelivery core]))) ∧
  (∀ (s : State) k q w r p, s.queue? k = some q → (∀ v ∈ q.pops, v.got.isSome → s.popHere v = false) → q.pops.find? (fun v => v.got.isNone) = some w →
      q.ring ≠ [] → s.partNo? w.part = some (r, p) →
      let got := q.take w.n fun _ => .gang w.cohort w.gang
      let u := s.modQueue k fun _ => got.2
      (∀ x, u.popHere w = true →
        let a : State := { u.popLeaves k w with cur := some r }
        a.ctx? 0 = some x →
        let t := a.deliver x.c r.gang got.1
        let z := t.putView r ((t.fresh x).v.wrUniform w.pred w.d (BitVec.ofNat 32 got.1.length))
        z.overfull x = false → Acts (.qpopWaitServe k) s ((({ (z.flows x ⟨w.pred, w.len, 0, [], [], .irrevocable, .none⟩ true) with cur := s.cur } : State).wakeCohort
          r.cohort).stirQueue k)) ∧
      (u.popHere w = false → Acts (.qpopWaitServe k) s (((u.popServed k w got.1).wakeCohort w.cohort).stirQueue k))) ∧
  (∀ (s : State), Acts .summaryPublish s (s.due (s.stage.queues.flatMap fun q =>
      let len := satLen q.backlog
      let aged := match s.consumer q.key with | some t => q.aged s.cycle t.desc.timer | none => false
      (((List.range 192).filter fun c => q.key.part == 63 ||
        ((s.partition? q.key.part).any fun p => p.secs.getLsbD (c / 4)) || (s.borrowed q.key.part).contains (c / 4)).map fun c =>
          Instr.summaryEntryArrive (.core c) q.key len aged) ++
        (List.range 16).map fun p => Instr.summaryEntryArrive (.port p) q.key len aged))) ∧
  (∀ (s : State) dst k len aged,
      let u : State := { s with stage := { s.stage with sums := ⟨dst, k, len, aged⟩ :: s.stage.sums.filter fun x => !(x.dst == dst && x.key == k) } }
      ((s.queue? k).isSome = true → Acts (.summaryEntryArrive dst k len aged) s (match dst with
        | .core c => u.due [.launchDecision c]
        | .port p => u.due [.portForwardDecision p])) ∧
      (s.queue? k = none → Acts (.summaryEntryArrive dst k len aged) s s)) ∧
  (∀ (s : State) core, s.cycle < s.decideAt core → Acts (.launchDecision core) s ((s.noteSec (core / 4)).decideAgain core)) ∧
  (∀ (s : State) core n, s.decideAt core ≤ s.cycle → s.freeSlot core = some n →
      let v := (s.noteSec (core / 4)).decidesNow core
      (∀ (u : State), (v.readyOn core).findSome? (fun c => v.resumeOn c.id core) = some u → Acts (.launchDecision core) s (u.decideAgain core)) ∧
      (∀ g i t r, v.readyOn core = [] → v.bestStage core (fun g t => (v.resources core g t.desc).isSome) = some (g, i, t) →
        v.resources core g t.desc = some r → Acts (.launchDecision core) s ((v.launchStage core g i t.desc r).decideAgain core))) ∧
  (∀ (s : State) core n h c, s.stage.launches.find? (fun l => l.core == core && l.recs.isSome) = some h →
      let u : State := { s with stage := { s.stage with launches := s.stage.launches.filter fun x => x.cohort != h.cohort } }
      u.cohort? h.cohort = some c →
      (h.recs.getD [] = [] → Acts (.launchDelivery core) s (({ u with cohorts := u.cohorts.filter fun x => x.id != h.cohort } : State).decideAgain core)) ∧
      (∀ l, h.recs.getD [] = n :: l → Acts (.launchDelivery core) s
        (if (u.launched core c (n :: l)).gateOpen c.part then u.launched core c (n :: l) else (u.launched core c (n :: l)).haltInPlace c.id false)))

/-- The steps of the fabric engine and its links complete. For FLIT_RECEIVE, FLIT_TRANSMIT, REPLAY_TIMEOUT, LINK_SILENCE_TIMEOUT,
LINK_TRAINING_SUCCESS, LINK_TRAINING_TIMEOUT, TOKEN_GRANT, TOKEN_TICK, LENGTH_REPORT_SEND, LENGTH_REPORT_RECEIVE,
PORT_FORWARD_DECISION, BATCH_RECEIVE, BATCH_ACK, BATCH_REFUSAL, BATCH_TIMEOUT, BATCH_DEADLINE_DISCARD: on a package whose clocks
run, in every state that meets the named conditions, exec answers the next state that is named, which is the effect of that step:
what the flit, link state, tokens, report, decision or batch of its rule does to the ports, queues and entries. The model's own
choices in it: what training leaves in a port (log 47), the offset that the first training gives to fabric time (log 72), which
routes its records name (log 77), that the records-forwarded count rises at the acknowledgement (log 49), the key index, the far
port and what the headers of received flits say, which are opaque (log 30), the port that a relay takes (log 130), the LACK of a
port that has received nothing (log 97), how an unanswered batch counts while no batch has been enqueued (log 35), when a port
decides anew (log 44), the port that answers of batches and reports take (log 46), that a port's keys outlast training and failure
(log 47), and that a refused batch's number counts as neither enqueued nor discarded (log 137). (R502, R501, R499, R516, R517, R521,
R523, R524, R525) -/
def Obligations.CompletesFabSteps : Prop :=
  (∀ (s : State) port f p key, s.port? port = some p → p.live = true → (if f.kslot then p.rx1 else p.rx0) = some key →
      let nonce := nonceOf (Config.farPort port) p.peer (Config.keyIndex port f.kslot { f with tag := [] }) f.lseq
      let u := s.modPort port fun q => { q with lastValid := s.cycle }
      f.tag = flitTag f key nonce →
      (p.nextRx.getD f.lseq = f.lseq → Acts (.flitReceive port f) s (u.accept port p f (flitCrypt f key nonce))) ∧
      (∀ n, p.nextRx = some n → f.lseq ≠ n → Acts (.flitReceive port f) s
        ((u.modPort port fun q => { q with nextRx := some n }).emit port (.replay n) p.peer (63 * 128 + 127)))) ∧
  (∀ (s : State) port p f key idx, s.port? port = some p → p.live = true → p.again = none → p.txKey = some (key, idx) → p.held.length < 4096 →
      ((s.nextFlit p).orElse fun _ => s.idleFlit p) = some f →
      Acts (.flitTransmit port) s (
        let g := s.outFlit p f key idx
        let v := s.modPort port fun q => { q with
          egress := q.egress.erase f, held := q.held ++ [⟨g, s.cycle⟩], nextTx := (q.nextTx + 1) % 2 ^ 32, txCount := q.txCount + 1 }
        if p.txCount + 1 = 2 ^ 31 then ({ v with out := .flit port g :: v.out } : State).linkRecord port 2 else { v with out := .flit port g :: v.out })) ∧
  (∀ (s : State) port p l h later, s.port? port = some p → p.live = true → p.again = some l →
      p.held.dropWhile (fun k => seqBefore k.flit.lseq l) = h :: later →
      let m := h.flit.lseq
      let n := if p.held.head?.any fun k => k.flit.lseq == m then p.replays + 1 else p.replays
      let v := s.modPort port fun q => { q with
        again := later.head?.map fun (k : Sent) => k.flit.lseq
        held := q.held.map fun (k : Sent) => if k.flit.lseq = m then { k with time := s.cycle } else k
        replays := n }
      let w : State := { v with out := .flit port h.flit :: v.out }
      (n < 16 → later ≠ [] → Acts (.flitTransmit port) s (w.due [.flitTransmit port])) ∧
      (n < 16 → later = [] → Acts (.flitTransmit port) s w) ∧
      (16 ≤ n → Acts (.flitTransmit port) s (w.failPort port))) ∧
  (∀ (s : State) port p h l, s.port? port = some p → p.live = true → p.held = h :: l → h.time + 4800 ≤ s.cycle →
      Acts (.replayTimeout port) s ((s.modPort port fun q => { q with again := some h.flit.lseq }).due [.flitTransmit port])) ∧
  (∀ (s : State) port p, s.port? port = some p → p.live = true → p.lastValid + 24000 ≤ s.cycle → Acts (.linkSilenceTimeout port) s (s.failPort port)) ∧
  (∀ (s : State) port peer p, s.port? port = some p → p.state = .training → s.cycle < p.since + 240000 →
      let t := s.alignTime.reroute fun u => u.modPort port fun q => { q with
        state := if q.standby then .standby else .up, peer := peer.val, nextRx := none, held := [], again := none, replays := 0
        gathered := [], lastValid := u.cycle }
      Acts (.linkTrainingSuccess port peer) s (t.routeRecords port 4 (s.fabric.moved.filter fun k => t.mode k == 1))) ∧
  (∀ (s : State) port p, s.port? port = some p → p.state = .training → p.since + 240000 ≤ s.cycle → Acts (.linkTrainingTimeout port) s (s.failPort port)) ∧
  (∀ (s : State) port part p w m dst, s.port? port = some p → p.waiting.find? (fun x => x.part == part) = some w → s.metered w = some (m, dst) →
      let bs := (s.payers part).map fun t => s.bucket port t
      (∀ b ∈ bs, min w.flits b.depth ≤ b.balance) →
      Acts (.tokenGrant port part) s (
        let u := s.modPort port fun q => { q with waiting := q.waiting.erase w }
        let v := (bs.foldl (fun (t : State) b => t.setBucket { b with balance := b.balance - w.flits }) u).emit port m dst
          ((bs.foldl (fun (t : State) b => t.setBucket { b with balance := b.balance - w.flits }) u).cidOf part)
        v.due ([.tokenGrant port part] ++ match w.what with | .batch _ _ => [.portForwardDecision port] | .req _ => []))) ∧
  (∀ (s : State) port part p w m dst, s.port? port = some p → p.waiting.find? (fun x => x.part == part) = some w → s.metered w = some (m, dst) →
      (∃ b ∈ (s.payers part).map fun t => s.bucket port t, b.balance < min w.flits b.depth) →
      Acts (.tokenGrant port part) s (s.modPort port fun q => { q with demand := insertNat part q.demand })) ∧
  (∀ (s : State), Acts .tokenTick s ((List.range 16).foldl State.tickPort s)) ∧
  (∀ (s : State) i m q p, s.mirror? i = some m → s.mirrorOn m = true → s.queue? m.key = some q → s.pick m.peer m.idx = some p →
      Acts (.lengthReportSend i) s (s.emit p (.report m.pidx (s.sum (.port p) m.key).1 q.room m.rseq) m.peer (s.cidOf m.key.part))) ∧
  (∀ (s : State) i len room rseq m, s.mirror? i = some m →
      Acts (.lengthReportReceive i len room rseq) s (
        let u := s.modMirror i fun k =>
          let n := { k with repLen := len, repRoom := room, repSeq := rseq }
          { n with batches := n.batches.filter fun b => !b.settled || n.ahead b }
        u.due ((u.routePorts m.peer).map .portForwardDecision))) ∧
  (∀ (s : State) port p m, (s.fabric.mirrors.map fun k => (k.batches.filter fun b => !b.settled && b.port == port).length).sum < 64 → s.asking port = false →
      s.port? port = some p → p.decideAt ≤ s.cycle →
      let u := s.modPort port fun q => { q with decideAt := s.cycle + 8, decides := false }
      u.nextMirror port = some m →
      Acts (.portForwardDecision port) s (
        let d := u.margin port m
        (u.modQueue m.key fun (q : Queue) => { q with asks := q.asks ++ [.batch port m.idx (min 32 (min (d.1 / 2) d.2).toNat)] }).due [.queueDequeue m.key])) ∧
  (∀ (s : State) src back i seq recs deadline m q, s.mirror? i = some m → s.queue? m.key = some q → seqBefore seq m.expect = false →
      seq ∉ m.complete → s.fabricTime ≤ deadline → (∀ h ∈ m.held, h.seq ≠ seq) →
      Acts (.batchReceive src back i seq recs deadline) s
        (State.drainHeld i (m.held.length + m.complete.length + 2) (s.modMirror i fun k => { k with held := k.held ++ [⟨seq, recs, deadline⟩] }))) ∧
  (∀ (s : State) src back i seq recs deadline m q, s.mirror? i = some m → s.queue? m.key = some q → seqBefore seq m.expect = false →
      seq ∉ m.complete → deadline < s.fabricTime →
      Acts (.batchReceive src back i seq recs deadline) s
        (State.drainHeld i (m.held.length + m.complete.length + 2) (s.modMirror i (Mirror.discard seq)))) ∧
  (∀ (s : State) src back i seq recs deadline m, s.mirror? i = some m →
      (seqBefore seq m.expect = true → seq ∉ m.dropped →
        Acts (.batchReceive src back i seq recs deadline) s (s.batchAnswer src.val i (.batchAck back seq))) ∧
      (seqBefore seq m.expect = false ∨ seq ∈ m.dropped → s.queue? m.key = none →
        Acts (.batchReceive src back i seq recs deadline) s (s.batchAnswer src.val i (.batchRefusal back seq))) ∧
      (∀ q, s.queue? m.key = some q → seqBefore seq m.expect = true → seq ∈ m.dropped →
        Acts (.batchReceive src back i seq recs deadline) s s)) ∧
  (∀ (s : State) i seq b, s.openBatch i seq = some b → s.fabricTime ≤ b.deadline + 200 →
      Acts (.batchAck i seq) s (((s.unmeterBatch i seq).modMirror i fun m =>
        ({ m with sentRecs := m.sentRecs + BitVec.ofNat 32 b.recs.length } : Mirror).settle seq).releaseHeld fun h => h.who == .batch i seq)) ∧
  (∀ (s : State) i seq b, s.openBatch i seq = some b →
      Acts (.batchRefusal i seq) s (((s.unmeterBatch i seq).modMirror i (Mirror.settle seq)).requeueHeld fun h => h.who == .batch i seq)) ∧
  (∀ (s : State) i seq b, s.openBatch i seq = some b → b.deadline + 200 < s.fabricTime →
      Acts (.batchTimeout i seq) s (((s.unmeterBatch i seq).modMirror i (Mirror.settle seq)).requeueHeld fun h => h.who == .batch i seq)) ∧
  (∀ (s : State) i seq m h, s.mirror? i = some m → m.held.find? (fun x => x.seq == seq) = some h → h.deadline < s.fabricTime →
      Acts (.batchDeadlineDiscard i seq) s (
        let u := s.modMirror i (Mirror.discard seq)
        State.drainHeld i (((u.mirror? i).elim 0 fun k => k.held.length + k.complete.length) + 1) u))

/-- The steps of the tier engine and of tenancy complete. For TIER_PAGE_MOVE, TIER_MOVE_COMPLETE, LOG_CLOSE, TIER_JOB_COMPLETE,
SLICE_EXPIRY, HALT_COMPLETE, HALT_DEADLINE_KILL, HALT_DEADLINE_RESET, CCTL_CREATE, CCTL_DESTROY, CCTL_RESET, HPCTL_CREATE,
HPCTL_DESTROY, HPCTL_RESET, LEND_SECTION, RECLAIM_SECTION, BORROWER_SPILL: on a package whose clocks run, in every state that meets
the named conditions, exec answers the next state that is named, which is the effect of that step. The statuses of CCTL and HPCTL
are R548's and R549's. The model's own readings in it: the record of a killed cohort names its gang 0 (log 60), a destroy takes a
partition's children with it (log 54), and a move's page, once it stands in its new frame, gives the old one back when the pool's
pages can be reached (log 67). And: who is active on a section that is lent or reclaimed (log 76), which cohorts a halt's COUNT
leaves out (log 57), and what a reset lets drain and what it drops (logs 53 and 78). (R557, R555, R577, R561, R567, R547, R548,
R549, R573, R552) -/
def Obligations.CompletesTierSteps : Prop :=
  (∀ (s : State) owner j up, s.headJob owner = some j → j.kind = .swap up → j.finished = false → j.moving = false → s.suspended j = false →
      s.tier.moves.length < 16 →
      (j.len ≤ j.pos → Acts (.tierPageMove owner) s (s.endJob j j.short.toNat)) ∧
      (∀ a p l m (w : State), j.pos < j.len → (s.reach j.whose (j.list + BitVec.ofNat 64 (8 * j.pos))).1 = .at_ a →
        let b := (s.reach j.whose (j.list + BitVec.ofNat 64 (8 * j.pos))).2.engRead (ownAt j.whose.ring j.whose.part) a 8
        let e : DWord := BitVec.ofNat 64 (leNat b.1)
        let v := b.2.modJob j.id fun k => { k with pos := k.pos + 1 }
        v.partition? j.target = some p → e.toNat / 32 % 4 = 0 → v.leafOf p e = some l → v.beginMove j p up l = (.begun m, w) →
        Acts (.tierPageMove owner) s ((w.modJob j.id fun k => { k with moving := true }).due [.tierMoveComplete m]))) ∧
  (∀ (s : State) mv m p, s.tier.moves.find? (fun x => x.id == mv) = some m → m.done = false → s.pageBusy m.old = false →
      s.partition? m.part = some p → Acts (.tierMoveComplete mv) s (((s.movePage m).moved m).wakePage.pushOld m)) ∧
  (∀ (s : State) mv m p (u : State), s.tier.moves.find? (fun x => x.id == mv) = some m → m.done = true → s.partition? m.part = some p →
      s.freeFrame p (!m.up) m.oldFrame = some u → Acts (.tierMoveComplete mv) s ((u.moveEnds m).jobMoved m)) ∧
  (∀ (s : State) owner j d p, s.headJob owner = some j → j.kind = .close d → j.finished = false → s.suspended j = false → s.partition? j.target = some p →
      s.anyWay j.hold = false →
      (j.begun = false → Acts (.logClose owner) s (((s.switchLog p d).2.2.modJob j.id fun k => { k with
        begun := true, list := BitVec.ofNat 64 (s.switchLog p d).1, len := (s.switchLog p d).2.1 }).due [.logClose owner])) ∧
      (j.begun = true → j.len ≤ j.pos → Acts (.logClose owner) s (s.endJob j 0)) ∧
      (∀ way (u : State), j.begun = true → j.pos < j.len → s.closeAt j.target d (j.list.toNat + 8 * j.pos) = .ok (way, u) →
        Acts (.logClose owner) s ((u.modJob j.id fun k => { k with pos := k.pos + 1, count := k.count + 1, hold := way }).due [.logClose owner]))) ∧
  (∀ (s : State) owner j0 j, s.headJob owner = some j0 → s.suspended j0 = false →
      let u := if j0.finished then s else s.declareStep j0
      u.headJob owner = some j → j.finished = true →
      ∀ v, (match j.kind with | .swap _ => if j.count = 0 then u else u.recount j.target | _ => u).writeWord j = some v →
      Acts (.tierJobComplete owner) s (({ v with tier := { v.tier with jobs := v.tier.jobs.filter fun x => x.id != j.id } } : State).kick owner)) ∧
  (∀ (s : State) part p, s.partition? part = some p → p.active = true → p.halting = false → p.slice ≠ 0 → p.began + 2400 * s.sliceOf p ≤ s.cycle →
      Acts (.sliceExpiry part) s (s.startHalt part none true)) ∧
  (∀ (s : State) part h, s.nextHalt part = none → s.tier.halts.find? (fun (x : Halt) => x.part == part) = some h →
      let u := (s.cohorts.filter fun c => (s.family part).contains c.part).foldl (fun (t : State) c => t.leaveSlot c.id) s
      Acts (.haltComplete part) s (if u.haltDone h then u.finishHalt h else u)) ∧
  (∀ (s : State) part j h, s.nextHalt part = some j → (∀ x ∈ s.tier.halts, x.part ≠ part) → (∀ p, s.partition? part = some p → p.halting = false) →
      let b := (s.modJob j.id fun k => { k with begun := true }).startHalt part (some j.id) false
      b.tier.halts.find? (fun (x : Halt) => x.part == part) = some h →
      let u := (b.cohorts.filter fun c => (b.family part).contains c.part).foldl (fun (t : State) c => t.leaveSlot c.id) b
      Acts (.haltComplete part) s (if u.haltDone h then u.finishHalt h else u)) ∧
  (∀ (s : State) part h p, s.tier.halts.find? (fun (x : Halt) => x.part == part) = some h → s.partition? part = some p →
      h.start + 2400 * p.deadline.toNat ≤ s.cycle →
      let late := s.cohorts.filter fun c => (s.family part).contains c.part && !c.ended && c.dying.isNone && !(c.halted && !c.inAccess)
      let u := late.foldl (fun (t : State) (c : Cohort) =>
        (t.report (.S part) ⟨0x0B, t.cidOf part, c.core, 0, 0, t.handleOf c.id 0⟩).killCohort c.id false) s
      Acts (.haltDeadlineKill part) s (({ u with tier := { u.tier with
        halts := u.tier.halts.map fun (x : Halt) => if x.part = part then { x with killed := x.killed || !late.isEmpty } else x } } : State).due [.haltComplete part])) ∧
  (∀ (s : State) part h p, s.tier.halts.find? (fun (x : Halt) => x.part == part) = some h → s.partition? part = some p →
      h.start + 4800 * p.deadline.toNat ≤ s.cycle → s.outstanding part = true →
      Acts (.haltDeadlineReset part) s ((s.report (if p.level = 2 then .S p.parent else .H) ⟨0x0C, s.cidOf part, 0, 0, 0, 0xFFFFFFFF⟩).resetPart part)) ∧
  (∀ (s : State) part p, s.partition? part = some p → p.level ≠ 2 →
      (∀ n, s.freePartition = some n → Acts (.cctlCreate part) s (((s.addPartition n 2 part).modPartition part fun q => { q with csel := n }).setCctl part 0)) ∧
      (s.freePartition = none → Acts (.cctlCreate part) s (s.setCctl part 2))) ∧
  (∀ (s : State) part p, s.partition? part = some p → p.level ≠ 2 →
      (p.csel ∈ s.childrenOf part → Acts (.cctlDestroy part) s ((s.destroyPart p.csel).setCctl part 0)) ∧
      (p.csel ∉ s.childrenOf part → Acts (.cctlDestroy part) s (s.setCctl part 3))) ∧
  (∀ (s : State) part p, s.partition? part = some p → p.level ≠ 2 →
      (p.csel ∈ s.childrenOf part → Acts (.cctlReset part) s ((s.resetPart p.csel).setCctl part 0)) ∧
      (p.csel ∉ s.childrenOf part → Acts (.cctlReset part) s (s.setCctl part 3))) ∧
  (∀ (s : State),
      (∀ n, s.freePartition = some n → Acts .hpctlCreate s (({ s.addPartition n 1 63 with pkg := { (s.addPartition n 1 63).pkg with hrsvsel := n } } : State).setHpctl 0)) ∧
      (s.freePartition = none → Acts .hpctlCreate s (s.setHpctl 2))) ∧
  (∀ (s : State),
      (∀ p, s.partition? s.pkg.hrsvsel = some p → p.level = 1 → Acts .hpctlDestroy s ((s.destroyPart s.pkg.hrsvsel).setHpctl 0)) ∧
      ((∀ p, s.partition? s.pkg.hrsvsel = some p → p.level ≠ 1) → Acts .hpctlDestroy s (s.setHpctl 3))) ∧
  (∀ (s : State),
      (∀ p, s.partition? s.pkg.hrsvsel = some p → p.level = 1 → Acts .hpctlReset s ((s.resetPart s.pkg.hrsvsel).setHpctl 0)) ∧
      ((∀ p, s.partition? s.pkg.hrsvsel = some p → p.level ≠ 1) → Acts .hpctlReset s (s.setHpctl 3))) ∧
  (∀ (s : State) part sec bor p, s.partition? part = some p →
      (47 < sec → Acts (.lendSection part sec bor) s (s.setLend part 1)) ∧
      (sec ≤ 47 → p.secs.getLsbD sec = true → (∀ q ∈ s.parts, q.level = 2 → q.parent = part → q.secs.getLsbD sec = false) →
        (∀ l ∈ s.tier.lends, l.lender = part → l.sec ≠ sec) → bor ≠ part → (s.partition? bor).isSome = true →
        Acts (.lendSection part sec bor) s
          ((s.regroup fun u => { u with tier := { u.tier with lends := u.tier.lends ++ [⟨part, sec, bor⟩] } }).setLend part 0))) ∧
  (∀ (s : State) part sec,
      (∀ l, s.tier.lends.find? (fun l => l.lender == part && l.sec == sec) = some l → Acts (.reclaimSection part sec) s
        ((s.regroup fun u => { u with tier := { u.tier with lends := u.tier.lends.erase l } }).setLend part 0)) ∧
      (s.tier.lends.find? (fun l => l.lender == part && l.sec == sec) = none → Acts (.reclaimSection part sec) s (s.setLend part (if 47 < sec then 1 else 3)))) ∧
  (∀ (s : State) co c, (s.leaveSlot co).cohort? co = some c → (s.leaveSlot co).misplaced c = true → c.givesWay = true → (s.leaveSlot co).settled c = true →
      Acts (.borrowerSpill co) s ((s.leaveSlot co).spilledWhole c))

/-- The steps of error handling, the host interfaces and the package complete. For SOFT_ERROR_CORRECTED, UNCORRECTABLE_ERROR,
CORRUPT_HEADER, HOST_MEMORY_READ, HOST_MEMORY_WRITE, HOST_INVALIDATE, HOST_RECORD_WRITE, HOST_SINK_READ, LOCK_INTERFACE,
START_INTERFACE, STOP_INTERFACE, GET_MEASUREMENTS, CONFIG_WRITE, PACKAGE_RESET, POWER_LIMIT_WRITE, POWER_ARBITER_TICK, FREEZE,
SCAN_READOUT: on a package whose clocks run (whatever they do, for SCAN_READOUT and PACKAGE_RESET), in every state that meets the
named conditions, exec answers the next state that is named, which is the effect of that step. The model's own choices in it: the
byte layout of the report (log 36) and its digests and signature, which are opaque (log 9), the fields of error records and when a
struck payload that belongs to no request is met (log 79), which packet a corrupt header drops (log 78) and the owner of a section
that nobody is active on (log 84), the grants of the arbiter (logs 31 and 95), the size of a function's window (log 99), that a
CONFIG_WRITE which names no function is the management port's (log 100), what a host write marks in page tables (log 59), what
HOST_INVALIDATE makes a slice forget (log 83), how a bad record reaches the host (log 73), the queue of records that no partition
has (log 37), what the boot ROM chooses (log 39), that a record whose coach-house slot lies on a page under a tier move waits in
line (log 67), the structure and the identifier of records of soft errors and corrupt headers (log 122), and that a readout has no
keys (log 102). (R371, R591, R90, R593, R594, R596, R595, R598, R597, R599, R601) -/
def Obligations.CompletesHostSteps : Prop :=
  (∀ (s : State) sec,
      let n := (assocGet s.pkg.softErr sec).getD 0 + 1
      (n ≠ 256 → Acts (.softErrorCorrected sec) s { s with pkg := { s.pkg with softErr := assocSet s.pkg.softErr sec n } }) ∧
      (n = 256 → Acts (.softErrorCorrected sec) s
        (({ s with pkg := { s.pkg with softErr := assocSet s.pkg.softErr sec 0 } } : State).report .H ⟨6, pkgCid, 4 * sec, 0, 0, 0xFFFFFFFF⟩))) ∧
  (∀ (s : State),
      (∀ inSlice a b cid h, s.physStore a = some (b, h) → Acts (.uncorrectableError (.line inSlice a cid)) s
        ((({ s with poison := insertNat (b / 64) s.poison } : State).report (.S (cid.toNat / 128))
          ⟨1, cid.toNat, s.homeSlice a, inSlice.toNat, a / 64 * 64, 0xFFFFFFFF⟩).vfError (cid.toNat / 128))) ∧
      (∀ req core cid q, s.req? req = some q → Acts (.uncorrectableError (.payload req core cid)) s
        (((s.spoil req).report (.S (cid.toNat / 128)) ⟨1, cid.toNat, core, 2, q.addr / 64 * 64, 0xFFFFFFFF⟩).vfError (cid.toNat / 128))) ∧
      (∀ co k a, Acts (.uncorrectableError (.cohort co k a)) s (s.errorKill co k a)) ∧
      (∀ req core cid, s.req? req = none → Acts (.uncorrectableError (.payload req core cid)) s
        (({ s with spoiled := assocSet s.spoiled req (some (core, cid)) } : State).vfError (cid.toNat / 128))) ∧
      (∀ core o, s.matrix.ops.find? (fun o => o.cores.contains core && o.started && !o.ended) = some o → Acts (.uncorrectableError (.array core)) s
        (match o.cmd.team with | some t => (s.errorKill o.cohort 7 0).errorKill t 7 0 | none => s.errorKill o.cohort 7 0))) ∧
  (∀ (s : State) (at_ : RouterHit),
      let u := s.dropPacket at_.packet
      let own := if u.cohorts.any fun c => c.part == 63 && c.core / 4 == at_.core / 4 then none else u.ownerOf (at_.core / 4)
      (∀ p, own = some p → Acts (.corruptHeader at_) s ((u.report .H ⟨5, u.cidOf p, at_.core, 8, 0, 0xFFFFFFFF⟩).resetPart p)) ∧
      (own = none → Acts (.corruptHeader at_) s (u.report .H ⟨5, pkgCid, at_.core, 8, 0, 0xFFFFFFFF⟩))) ∧
  (∀ (s : State) vf addr len p bs (u : State), s.hostOk vf = true → s.hostHolds = false → s.boundTo vf = some p →
      State.hostBytes p (splitLines addr (List.replicate len 0)) s = (.ok bs, u) → Acts (.hostMemoryRead vf addr len) s (u.toHost vf addr (some bs))) ∧
  (∀ (s : State) vf addr len, s.hostOk vf = false → Acts (.hostMemoryRead vf addr len) s (s.toHost vf addr none)) ∧
  (∀ (s : State) vf addr bs p, s.hostOk vf = true → s.boundTo vf = some p → s.hostHolds = false →
      (∀ x ∈ splitLines addr bs, (s.hostReach p true x.1).1 ≠ .wait) →
      Acts (.hostMemoryWrite vf addr bs) s ((splitLines addr bs).foldl (fun (t : State) x =>
        match (t.hostReach p true x.1).1 with
        | .at_ a => (t.hostMarks p true x.1 (t.hostReach p true x.1).2).engWrite p.num a x.2 (some Sides.untyped)
        | _ => t) s)) ∧
  (∀ (s : State) line bs, s.hostHolds = false → isHost (64 * line) = true → Acts (.hostInvalidate line bs) s
      (({ s with lastLane := s.lastLane.filter fun x => x.1 != line } : State).engWrite 63 (64 * line) (bs.take 64) none)) ∧
  (∀ (s : State) vf off bs k q, s.hostOk vf = true → s.hostHolds = false → s.aperture vf off = (some k, 0) → s.queue? k = some q → q.desc.entry = true →
      bs.length = q.desc.size →
      (∀ (u : State), q.line = [] → s.enqueue k bs = some u → Acts (.hostRecordWrite vf off bs) s u) ∧
      (q.line = [] → s.coachWaits k 1 = false → s.enqueue k bs = none →
        Acts (.hostRecordWrite vf off bs) s (s.modQueue k fun z => { z with drop := z.drop + 1 })) ∧
      (q.line ≠ [] ∨ s.coachWaits k 1 = true → Acts (.hostRecordWrite vf off bs) s (s.modQueue k fun z => { z with line := z.line ++ [.host bs] }))) ∧
  (∀ (s : State) vf off len k q r l, s.hostOk vf = true → s.hostHolds = false → s.aperture vf off = (some k, 0) → s.queue? k = some q → q.ring = r :: l →
      len = q.desc.size → s.consumer k = none →
      Acts (.hostSinkRead vf off len) s (((s.modQueue k fun z => { z with ring := l }).stirQueue k).toHost vf off (if r.bad then none else some r.bs))) ∧
  (∀ (s : State) vf off len k o, s.hostOk vf = true → s.hostHolds = false → s.aperture vf off = (some k, o) → 256 ≤ o →
      Acts (.hostSinkRead vf off len) s (s.toHost vf off (some (statusBytes (s.queueStatus k) o len)))) ∧
  (∀ (s : State) vf, vf ≤ 95 → s.boot = .running → s.tdi vf = .unlocked → Acts (.lockInterface vf) s (s.setTdi vf .locked)) ∧
  (∀ (s : State) vf, vf ≤ 95 → s.boot = .running → s.tdi vf = .locked → Acts (.startInterface vf) s (s.setTdi vf .run)) ∧
  (∀ (s : State) vf, vf ≤ 95 → s.boot = .running →
      (∀ p, s.boundTo vf = some p → Acts (.stopInterface vf) s ((s.setTdi vf .unlocked).resetPart p.num)) ∧
      (s.boundTo vf = none → Acts (.stopInterface vf) s (s.setTdi vf .unlocked))) ∧
  (∀ (s : State) vf nonce, vf ≤ 95 → s.boot = .running →
      Acts (.getMeasurements vf nonce) s (
        let graphs := match s.boundTo vf with | some p => s.graphDigests p | none => []
        let r := nonce.take 32 ++ digest s.pkg.verified.1 ++ natLe 4 s.pkg.verified.2 ++ natLe 4 s.pkg.rollback ++ natLe 2 vf ++
          natLe 1 (s.tdi vf).code ++ digest (s.frozenItems vf) ++ graphs
        { s with out := .report vf (r ++ (List.range 64).map (Config.sm2 (s.pkg.devKey.getD 0) r)) :: s.out })) ∧
  (∀ (s : State) vf item val, vf ≤ 95 → s.boot = .running →
      (s.isFrozen vf = true → Acts (.configWrite vf item val) s (s.tdiError vf)) ∧
      (s.isFrozen vf = false → Acts (.configWrite vf item val) s
        { s with pkg := { s.pkg with cfg := (vf, item, val) :: s.pkg.cfg.filter fun c => !(c.1 == vf && c.2.1 == item) } })) ∧
  (∀ (s : State) vf item val, 95 < vf → Acts (.configWrite vf item val) s (s.management item val)) ∧
  (∀ (s : State), exec .packageReset s = .next s.bootRom) ∧
  (∀ (s : State) w, Acts (.powerLimitWrite w) s (if 600 ≤ w ∧ w ≤ 2200
      then { s with pkg := { s.pkg with power := w, powerOk := true }, out := .powerStatus true :: s.out }
      else { s with pkg := { s.pkg with powerOk := false }, out := .powerStatus false :: s.out })) ∧
  (∀ (s : State), Acts .powerArbiterTick s (
      let t := s.cycle / 2400
      let spare := (s.pkg.grants.map fun g => g.2 - Config.powerUsed g.1 t).sum
      let total := ((s.powerBase.filter fun g => Config.throttled g.1 t).map fun g => g.2).sum
      { s with pkg := { s.pkg with grants := s.powerBase.map fun (g : Nat × Nat) =>
        (if Config.throttled g.1 t = true ∧ total ≠ 0 then (g.1, g.2 + spare * g.2 / total) else g) } })) ∧
  (∀ (s : State), Acts .freeze s { s with frozen := true }) ∧
  (∀ (s : State), s.frozen = true → exec .scanReadout s = .next { s with out := .scan s.scanOf :: s.out })
end

