-- ==== Sys2Proof/Laws/Issue.lean ====
section
/-!
SUPPORT. What issuing a ready form comes to, once for every instruction.
-/
namespace Sys2Proof.Machine

theorem ctx?_imm {s : State} {imm : Word} {x : Ctx} (h : s.ctx? imm = some x) : x.v.imm = imm := by
  unfold State.ctx? at h
  repeat' split at h
  all_goals first | cases h; done | (injection h with h; rw [← h])

theorem openRun_imm (s : State) (x : Ctx) : (s.openRun x).2.v.imm = x.v.imm := by
  unfold State.openRun
  split <;> rfl

/-- A ready form executes in the state and for the part that `Ready` names, and then finishes. -/
theorem issue_ready {f : Form} {imm : Word} {s t : State} {x y : Ctx} (h : Ready f imm s x t y) (sem : Sem) :
    issue f imm sem s = .next (State.finish t y f f.closes (runposOf s x) (sem t y)) := by
  have hi : (s.openRun x).2.v.imm = imm := by rw [openRun_imm, ctx?_imm h.turn]
  simp only [issue, h.running, h.turn, issueAt, h.awake, h.room, h.legal, h.prepared, hi, h.now, runposOf, Form.closes]
  rfl

theorem finish_fall {s0 t : State} {x : Ctx} {f : Form} {close c : Bool} {pos : Nat} (h : t.overfull x = false) :
    State.finish s0 x f close pos (.fall t c) = t.flows x f (close || c) := by
  simp only [State.finish, h, State.flows]
  rfl

/-- An instruction that falls through: what its meaning computes where `P` holds. -/
theorem falls_of {i : Instr} {f : Form} {imm : Word} {P : State → Ctx → Prop} {g : State → Ctx → State} {close : Bool} (sem : Sem) {c : Bool}
    (hi : ∀ s, exec i s = issue f imm sem s) (hs : ∀ t y, y.v.imm = imm → P t y → sem t y = .fall (g t y) c) (hc : (f.closes || c) = close) :
    Falls i f imm P g close := by
  intro s x t y h hp ho
  rw [hi, issue_ready h, hs t y (ctx?_imm h.now) hp, finish_fall ho, hc]

theorem goes_of {i : Instr} {f : Form} {imm : Word} {P : State → Ctx → Prop} {g : State → Ctx → State} {pc hd : State → Ctx → DWord}
    (sem : Sem) (hi : ∀ s, exec i s = issue f imm sem s) (hs : ∀ t y, y.v.imm = imm → P t y → sem t y = .goto (g t y) (pc t y) (hd t y)) :
    Goes i f imm P g pc hd := by
  intro s x t y h hp
  rw [hi, issue_ready h, hs t y (ctx?_imm h.now) hp]
  rfl

theorem places_of {i : Instr} {f : Form} {imm : Word} {P : State → Ctx → Prop} {g : State → Ctx → State} (sem : Sem)
    (hi : ∀ s, exec i s = issue f imm sem s) (hs : ∀ t y, y.v.imm = imm → P t y → sem t y = .placed (g t y)) : Places i f imm P g := by
  intro s x t y h hp
  rw [hi, issue_ready h, hs t y (ctx?_imm h.now) hp]
  rfl

theorem traps_of {i : Instr} {f : Form} {imm : Word} {P : State → Ctx → Prop} {code : Nat} {info : Ctx → Word} (sem : Sem)
    (hi : ∀ s, exec i s = issue f imm sem s)
    (hs : ∀ t y, y.v.imm = imm → P t y → sem t y = .raise t .next code (y.v.act ⟨0, false⟩) 0 (info y) false) : Traps i f imm P code info := by
  intro s x t y h hp
  rw [hi, issue_ready h, hs t y (ctx?_imm h.now) hp]
  rfl

/-- A call whose trap is taken, or whose gang stops. -/
theorem calls_of {i : Instr} {f : Form} {imm : Word} (code : Nat) (a : Opnd) (hi : ∀ s, exec i s = issue f imm (callTrapSem code a s) s) :
    Calls i f imm code (fun y => y.v.rd32 a 0) := by
  refine ⟨fun s x t y h hp => ?_, fun s x t y h hp hf => ?_⟩
  · rw [hi, issue_ready h, callTrapSem, if_neg hp.1, hp.2]; rfl
  · rw [hi, issue_ready h, callTrapSem, if_neg hp, hf]; rfl

theorem views_of {i : Instr} {f : Form} {imm : Word} {g : View → View} (hi : ∀ s, exec i s = issue f imm (onView g) s) : Views i f imm g :=
  falls_of (onView g) hi (fun _ _ _ _ => rfl) (by simp)

/-- A step of an engine: what it does. -/
theorem acts_of {i : Instr} {s t : State} {h : State → State} (hi : ∀ s, exec i s = event h s) (hs : h s = t) : Acts i s t := by
  intro hf
  simp [hi, event, hf, hs]


/-- A branch: nobody takes it, all do, some do. -/
theorem transfers_of {i : Instr} {f : Form} {imm : Word} {vs : Ctx → QMask} {tgt : Ctx → DWord} {entry indirect : Bool} {w : View → View} (sem : Sem) (p : Pred)
    (hi : ∀ s, exec i s = issue f imm sem s)
    (hs : ∀ t y, y.v.imm = imm → sem t y = transfer p f.len (vs y) (tgt y) entry indirect w t y) : Transfers i f imm vs tgt entry indirect w := by
  have he : ∀ y : Ctx, (entry = true → (tgt y).toNat % 128 = 8) → (entry && (tgt y).toNat % 128 != 8) = false := by
    intro y h
    cases entry <;> simp_all
  refine ⟨falls_of sem hi (fun t y h hp => ?_) (Bool.or_false _), goes_of sem hi (fun t y h hp => ?_), places_of sem hi (fun t y h hp => ?_)⟩
  · rw [hs t y h]
    simp [transfer, hp]
  · obtain ⟨⟨h0, h1, ⟨hd, h2⟩, h3⟩, h4⟩ := hp
    dsimp only at h2 h3
    rw [hs t y h]
    simp only [transfer, he y h1, h2, h3, if_neg h0, if_pos h4]
    simp
  · obtain ⟨⟨h0, h1, ⟨hd, h2⟩, h3⟩, h4⟩ := hp
    dsimp only at h2 h3
    rw [hs t y h]
    simp only [transfer, he y h1, h2, h3, if_neg h0, if_neg h4]
    simp

end Sys2Proof.Machine
end

