-- ==== Sys2Proof/Laws/Access.lean ====
section
/-!
SUPPORT. What accesses, monitors, copies and an instruction's own loads come to once their checks have passed.
-/
namespace Sys2Proof.Machine


theorem access_silent {s : State} {x : Ctx} {es : Ctx → List Elem} (hc : Silent es x) (act : Word) (z : Space) (h : How) (uni : Bool) (op : PendOp)
    (len : Nat) (kind : Piece → PeerKind) (here : State → Ctx → List Piece → Done) :
    s.access x act z h uni op len (es x) kind here = .fall s false := by
  simp [State.access, hc.1, hc.2]

/-- An access of which every piece passes and stays here executes as an ordinary one (R93). -/
theorem remote_of_local {f : Found} (hb : f.bad = []) (h : ∀ p ∈ f.ok, p.x.io = false ∧ p.x.peer = none) : f.remote = false := by
  simp only [Found.remote, hb, List.any_nil, Bool.or_false, List.any_eq_false]
  intro p hp
  simp [Xlat.far, h p hp]

/-- One of which some piece leaves executes as irrevocable. -/
theorem remote_of_far {f : Found} (h : ∃ p ∈ f.ok, p.x.far = true) : f.remote = true := by
  simp only [Found.remote, List.any_eq_true.mpr h, Bool.true_or]

/-- Accesses that pass every check and stay here are performed here. -/
theorem access_clear {s : State} {x : Ctx} {z : Space} {h : How} {es : Ctx → List Elem} (hc : Clear z h es s x) (act : Word) (uni : Bool) (op : PendOp)
    (len : Nat) (kind : Piece → PeerKind) (here : State → Ctx → List Piece → Done) :
    s.access x act z h uni op len (es x) kind here = (here (found z h es s x).2 ((found z h es s x).2.fresh x) (found z h es s x).1.ok).forget s := by
  obtain ⟨h1, h2, h3, h4, h5, h6⟩ := hc
  have hr : (found z h es s x).1.remote = false := remote_of_local h3 h6
  simp only [found] at *
  simp [State.access, h1, h2, h3, h4, h5, hr, faultOf]

theorem readHere_ready {u : State} {w : Ctx} {ps : List Piece} (h : Readable u w ps) (z : Space) (uni : Bool) (act : Word)
    (fin : State → Ctx → (Piece → List Byte) → Done) :
    readHere z uni act fin u w ps = fin (u.readAll w ps) ((u.readAll w ps).fresh w) (u.pieceBytes w) := by
  have h1 : (ps.any fun p => u.ownRed w.v.part.id (p.x.addr / 64)) = false := by
    simp only [List.any_eq_false]; intro p hp; simp [(h p hp).1]
  have h2 : (ps.any fun p => u.blocked (p.x.addr / 64) .read (some w.v.part.id)) = false := by
    simp only [List.any_eq_false]; intro p hp; simp [(h p hp).2.1]
  have h3 : (u.bufPoison.find? fun b => (ps.filter fun p => u.reaches w.v.part.id p.x.addr p.len).any fun p => p.x.addr / 64 == b.1) = none := by
    rw [List.find?_eq_none]
    intro b hb hc
    simp only [List.any_eq_true, List.mem_filter, beq_iff_eq] at hc
    obtain ⟨p, ⟨hp, hr⟩, he⟩ := hc
    exact ((h p hp).2.2 hr).1 b hb he
  have h4 : u.flitHit w z ((ps.filter fun p => u.reaches w.v.part.id p.x.addr p.len).map fun p => p.x.addr / 64) = (none, u) := by
    cases hl : ps.filter fun p => u.reaches w.v.part.id p.x.addr p.len with
    | nil => cases z <;> rfl
    | cons q t =>
      have hq := List.mem_filter.mp (hl ▸ List.mem_cons_self : q ∈ ps.filter fun p => u.reaches w.v.part.id p.x.addr p.len)
      have := ((h q hq.1).2.2 hq.2).2.2
      cases z <;> simp [State.flitHit, State.struck, State.struckWith, this]
  have h5 : ((ps.filter fun p => u.reaches w.v.part.id p.x.addr p.len).filter fun p =>
      ((none : Option Nat) == some (p.x.addr / 64) || u.poisoned (p.x.addr / 64))) = [] := by
    rw [List.filter_eq_nil_iff]
    intro p hp
    simp only [List.mem_filter] at hp
    simp [((h p hp.1).2.2 hp.2).2.1]
  unfold readHere
  simp only [h1, h2, h3, h4, h5]
  rfl

theorem storeHere_ready {u : State} {w : Ctx} {ps : List Piece} (h : Writable u w ps) (bytes : Piece → List Byte) (side : Piece → Side) :
    storeHere bytes side u w ps = .fall (ps.foldl (fun t p => t.storePiece w p (bytes p) (side p)) u) false := by
  have h1 : (w.v.part.direct && (!(u.entriesOf w.v.part.id).isEmpty ||
      ps.any fun p => u.blocked (p.x.addr / 64) .write (some w.v.part.id))) = false := by
    cases hd : w.v.part.direct
    · rfl
    · obtain ⟨a, b⟩ := h hd
      simp only [a, Bool.true_and, List.isEmpty_nil, Bool.not_true, Bool.false_or, List.any_eq_false]
      intro p hp; simp [b p hp]
  unfold storeHere
  rw [h1]
  rfl

theorem reduceHere_ready {u : State} {w : Ctx} {ps : List Piece} (h : Writable u w ps) (op : AtomOp) (w64 : Bool) (b : Nat → DWord) :
    reduceHere op w64 b u w ps = .fall (ps.foldl (fun t p => t.reducePiece w op w64 p (b p.lane)) u) false := by
  have h1 : (w.v.part.direct && (!(u.entriesOf w.v.part.id).isEmpty ||
      ps.any fun p => u.blocked (p.x.addr / 64) .write (some w.v.part.id))) = false := by
    cases hd : w.v.part.direct
    · rfl
    · obtain ⟨a, b⟩ := h hd
      simp only [a, Bool.true_and, List.isEmpty_nil, Bool.not_true, Bool.false_or, List.any_eq_false]
      intro p hp; simp [b p hp]
  unfold reduceHere
  rw [h1]
  rfl

theorem reads_of {i : Instr} {f : Form} {imm : Word} {z : Space} {h : How} {es : Ctx → List Elem} {P : State → Ctx → List Piece → Prop}
    {g : Ctx → State → State → Ctx → List Piece → State} (sem : Sem) (uni : Bool) (act : Ctx → Word) (op : PendOp) (len : Nat) (kind : Ctx → Piece → PeerKind)
    (fin : Ctx → State → Ctx → List Piece → State → Ctx → (Piece → List Byte) → Done)
    (hi : ∀ s, exec i s = issue f imm sem s)
    (hs : ∀ t y, y.v.imm = imm → sem t y = t.access y (act y) z h uni op len (es y) (kind y) fun s x ps => readHere z uni (act y) (fin y s x ps) s x ps)
    (hf : ∀ y u ps u' w', P u (u.fresh y) ps → fin y u (u.fresh y) ps u' w' (u.pieceBytes (u.fresh y)) = .fall (g y u u' w' ps) false) :
    Reads i f imm z h es P g := by
  refine ⟨falls_of sem hi (fun t y hm hp => ?_) (Bool.or_false _), falls_of sem hi (fun t y hm hp => ?_) (Bool.or_false _)⟩
  · rw [hs t y hm, access_silent hp]
  · obtain ⟨hc, hr, hP⟩ := hp
    rw [hs t y hm, access_clear hc, readHere_ready hr, hf _ _ _ _ _ hP]
    rfl

theorem writes_of {i : Instr} {f : Form} {imm : Word} {z : Space} {h : How} {es : Ctx → List Elem} {put : Ctx → State → Ctx → Piece → State}
    (sem : Sem) (uni : Bool) (act : Ctx → Word) (op : PendOp) (len : Nat) (kind : Ctx → Piece → PeerKind)
    (here : Ctx → State → Ctx → List Piece → Done)
    (hi : ∀ s, exec i s = issue f imm sem s)
    (hs : ∀ t y, y.v.imm = imm → sem t y = t.access y (act y) z h uni op len (es y) (kind y) (here y))
    (hf : ∀ y u w ps, Writable u w ps → here y u w ps = .fall (ps.foldl (fun s p => put y s w p) u) false) :
    Writes i f imm z h es put := by
  refine ⟨falls_of sem hi (fun t y hm hp => ?_) (Bool.or_false _), falls_of sem hi (fun t y hm hp => ?_) (Bool.or_false _)⟩
  · rw [hs t y hm, access_silent hp]
  · obtain ⟨hc, hr⟩ := hp
    rw [hs t y hm, access_clear hc, hf _ _ _ _ hr]
    rfl

theorem loads_of {i : Instr} {f : Form} {imm : Word} {z : Space} {p : Pred} {t : TypeCode} {sx : Bool} {d a : Opnd} {len : Nat}
    (hi : ∀ s, exec i s = issue f imm (loadSem z p t sx d a len) s) : Loads i f imm z p t sx d a := by
  unfold Loads
  refine reads_of (loadSem z p t sx d a len) (oneAccess [a, d]) (fun y => y.v.act p) (.ld d t sx) len (fun _ q => .load q.len)
    (fun y _ _ ps s x rd => .fall (s.putView x.r (x.v.putLoad (oneAccess [a, d]) (y.v.act p) d t sx (elemBytes ps rd (oneAccess [a, d])))) false)
    hi (fun _ _ _ => rfl) (fun _ _ _ _ _ _ => rfl)

theorem loadsRows_of {i : Instr} {f : Form} {imm : Word} {p : Pred} {a : Opnd} {rows : Nat} {op : PendOp} {len : Nat} {want : Option Nat}
    {put : View → List RowLine → View}
    (hi : ∀ s, exec i s = issue f imm (rowLoadSem p a rows op len) s)
    (hop : ∀ s x act ls, rowsFault want ls = none → rowsDone s x op act ls = .fall (s.putView x.r (put x.v ls)) false) :
    LoadsRows i f imm p a rows want put := by
  unfold LoadsRows
  exact reads_of (rowLoadSem p a rows op len) true (fun y => y.v.act p) op len (fun _ q => .load q.len)
    (fun y u w ps s x rd => rowsDone s x op (y.v.act p) (ps.map fun q => ⟨q.va, rd q, u.sideOwn w.v.part.id (q.x.addr / 64)⟩))
    hi (fun t y _ => rfl) (fun _ _ _ _ _ h => hop _ _ _ _ h)

theorem stores_of {i : Instr} {f : Form} {imm : Word} {z : Space} {p : Pred} {t : TypeCode} {a b : Opnd} {len : Nat}
    (hi : ∀ s, exec i s = issue f imm (storeSem z p t a b len) s) : Stores i f imm z p t a b :=
  writes_of _ (oneAccess [a, b]) (fun y => y.v.act p) .store len
    (fun y q => .store (((y.v.storeBytes t b q.lane).drop q.off).take q.len) (some Sides.untyped) false)
    (fun y => storeHere (fun q => ((y.v.storeBytes t b q.lane).drop q.off).take q.len) fun _ => Sides.untyped)
    hi (fun _ _ _ => rfl) (fun _ _ _ _ h => storeHere_ready h _ _)

theorem storesRows_of {i : Instr} {f : Form} {imm : Word} {p : Pred} {a b : Opnd} {n : Fin 192} {rows len : Nat}
    (hb : b = .v n) (hi : ∀ s, exec i s = issue f imm (stdSem p a b rows len) s) : StoresRows i f imm p a n.val rows := by
  subst hb
  exact writes_of _ true (fun y => y.v.act p) .store len
    (fun y q => .store (y.v.rowBytes n.val ((q.va - y.v.effAddr a 0).toNat / 64)) (some (y.v.rowSide n.val ((q.va - y.v.effAddr a 0).toNat / 64))) false)
    (fun y => storeHere (fun q => y.v.rowBytes n.val ((q.va - y.v.effAddr a 0).toNat / 64)) fun q => y.v.rowSide n.val ((q.va - y.v.effAddr a 0).toNat / 64))
    hi (fun _ _ _ => rfl) (fun _ _ _ _ h => storeHere_ready h _ _)

theorem reduces_of {i : Instr} {f : Form} {imm : Word} {p : Pred} {op : AtomOp} {w64 : Bool} {d a b : Opnd} {len : Nat}
    (hi : ∀ s, exec i s = issue f imm (atomSem p op true w64 d a b len) s) : Reduces i f imm p op w64 d a b :=
  writes_of _ (oneAccess (if d == .zero then [a, b] else [a, b, d])) (fun y => y.v.act p) .red len
    (fun y q => .atomic op w64 (y.v.rdW w64 b q.lane))
    (fun y => reduceHere op w64 fun l => y.v.rdW w64 b l)
    hi (fun t y _ => by cases h : (d == .zero) <;> simp [atomSem, atomElems, h]) (fun _ _ _ _ h => reduceHere_ready h _ _ _)

theorem spAtomHere_done {t : State} {x : Ctx} {ps : List Piece} {act : Word} {uni : Bool} {d : Opnd} {w64 : Bool} {new : Nat → DWord → Option DWord}
    (hw : Writable t x ps) (hf : ∀ l ∈ ps.map fun q => q.x.addr / 64, t.blocked l .write (some x.v.part.id) = false)
    (h : State) (hh : h = if x.v.part.direct then t else (State.spWrites x w64 new ps t).foldl (fun s l => s.ownGranule x l) t)
    (ho : h.overfull (h.fresh x) = false)
    (hg : (h.fresh x).v.part.direct = false → ∀ l ∈ State.spWrites x w64 new ps t, h.ownsGranule (h.fresh x) l = true)
    (hb : ∀ b ∈ h.bufPoison, b.1 ∉ ps.map fun q => q.x.addr / 64) :
    spAtomHere act uni d w64 new t x ps = .fall (
      let r := State.spAtoms (h.fresh x) w64 new ps h
      let z := r.2.fresh (h.fresh x)
      if d == .zero then r.2 else r.2.putView z.r
      (z.v.putLoad uni act d (if w64 then .b64 else .b32) false fun l =>
        natLe 8 (((r.1.find? fun (q : Nat × DWord) => uni || q.1 == l).map fun (q : Nat × DWord) => q.2).getD 0).toNat)) false := by
  have h1 : (x.v.part.direct && !(t.entriesOf x.v.part.id).isEmpty ||
      (ps.map fun q => q.x.addr / 64).any fun l => t.blocked l .write (some x.v.part.id)) = false := by
    rw [Bool.or_eq_false_iff]
    refine ⟨?_, List.any_eq_false.mpr fun l hl => by simp [hf l hl]⟩
    cases hd : x.v.part.direct
    · rfl
    · simp [(hw hd).1]
  have h2 : (!(h.fresh x).v.part.direct && (State.spWrites x w64 new ps t).any fun l => !h.ownsGranule (h.fresh x) l) = false := by
    cases hd : (h.fresh x).v.part.direct
    · simp only [Bool.not_false, Bool.true_and, List.any_eq_false]
      intro l hl; simp [hg hd l hl]
    · rfl
  have h3 : (h.bufPoison.find? fun b => (ps.map fun q => q.x.addr / 64).contains b.1) = none := by
    rw [List.find?_eq_none]
    intro b hm; simpa using hb b hm
  unfold spAtomHere
  dsimp only
  rw [h1]
  simp only [Bool.false_eq_true, if_false]
  rw [← hh]
  rw [ho, h2, h3]
  cases hz : (d == .zero) <;> simp

theorem spAtomics_of {i : Instr} {f : Form} {imm : Word} {p : Pred} {w64 : Bool} {d a : Opnd} {os : List Opnd} {new : Ctx → Nat → DWord → Option DWord}
    (sem : Sem) (len : Nat) (hi : ∀ s, exec i s = issue f imm sem s)
    (hs : ∀ t y, sem t y = t.access y (y.v.act p) .sp (howAtom w64) (oneAccess (if d == .zero then os else os ++ [d])) .store len (atomElems .sp p w64 d a os y)
      (fun _ => .load 0) (spAtomHere (y.v.act p) (oneAccess (if d == .zero then os else os ++ [d])) d w64 (new y))) :
    SpAtomics i f imm p w64 d a os new := by
  refine ⟨falls_of sem hi (fun t y hm hp => ?_) (Bool.or_false _), falls_of sem hi (fun t y hm hp => ?_) (Bool.or_false _)⟩
  · rw [hs, access_silent hp]
  · obtain ⟨hc, hw, hf, ho, hg, hb⟩ := hp
    rw [hs, access_clear hc, spAtomHere_done hw hf _ rfl ho hg hb]
    rfl

theorem monReady_watch {u : State} {w : Ctx} {ps : List Piece} (h : Watchable u w ps) (act : Word) (uni : Bool) :
    u.monReady w act uni ps = .ok (u.watchAll w ps) := by
  have h1 : (ps.any fun p => u.blocked (p.x.addr / 64) .read (some w.v.part.id)) = false := by
    simp only [List.any_eq_false]; intro p hp; simp [(h p hp).1]
  have h2 : (ps.filter fun p => u.poisoned (p.x.addr / 64)) = [] := by
    rw [List.filter_eq_nil_iff]; intro p hp; simp [(h p hp).2]
  unfold State.monReady
  rw [h1, h2]
  rfl

theorem waitsFor_of {i : Instr} {f : Form} {imm : Word} {p : Pred} {cond : Cond} {t : TypeCode} {d a b c : Opnd}
    (hi : ∀ s, exec i s = issue f imm (waitcSem p cond t d a b c) s) (hk : f.closes = true) : WaitsFor i f imm p cond t d a b c := by
  refine ⟨falls_of (c := true) _ hi (fun s y hm hp => ?_) (by simp [hk]), falls_of (c := false) _ hi (fun s y hm hp => ?_) (by simp), falls_of (c := true) _ hi (fun s y hm hp => ?_) (by simp [hk])⟩
  · obtain ⟨q, h1, h2⟩ := hp
    have h3 : (q.lanes.any fun l => l.2 == .waiting) = false := by
      simp only [List.any_eq_false]; intro l hl; simpa using h2 l hl
    unfold waitcSem
    simp only [h1, h3, waitcDone, Option.elim]
    simp
  · obtain ⟨h1, h2⟩ := hp
    unfold waitcSem
    simp only [h1]
    exact access_silent h2 _ _ _ _ _ _ _ _
  · obtain ⟨h1, h2, h3, h4⟩ := hp
    unfold waitcSem
    simp only [h1]
    rw [show (List.map (fun l => (⟨l, y.v.addrIn .glob a l, if t.wide then 8 else 4⟩ : Elem)) (y.v.accLanes p (if d == .zero then [a, b] else [a, b, d])))
        = watchElems p t (if d == .zero then [a, b] else [a, b, d]) a y from rfl]
    rw [access_clear h2, monReady_watch h3]
    dsimp only
    have h5 : ((State.waitLanes ((State.watchAll (found .glob (howMon (if t.wide then 8 else 4)) (watchElems p t (if d == .zero then [a, b] else [a, b, d]) a) s y).2 ((found .glob (howMon (if t.wide then 8 else 4)) (watchElems p t (if d == .zero then [a, b] else [a, b, d]) a) s y).2.fresh y) (found .glob (howMon (if t.wide then 8 else 4)) (watchElems p t (if d == .zero then [a, b] else [a, b, d]) a) s y).1.ok).fresh ((found .glob (howMon (if t.wide then 8 else 4)) (watchElems p t (if d == .zero then [a, b] else [a, b, d]) a) s y).2.fresh y)) cond t (fun l => ((State.watchAll (found .glob (howMon (if t.wide then 8 else 4)) (watchElems p t (if d == .zero then [a, b] else [a, b, d]) a) s y).2 ((found .glob (howMon (if t.wide then 8 else 4)) (watchElems p t (if d == .zero then [a, b] else [a, b, d]) a) s y).2.fresh y) (found .glob (howMon (if t.wide then 8 else 4)) (watchElems p t (if d == .zero then [a, b] else [a, b, d]) a) s y).1.ok).fresh ((found .glob (howMon (if t.wide then 8 else 4)) (watchElems p t (if d == .zero then [a, b] else [a, b, d]) a) s y).2.fresh y)).v.rdT t b l) (found .glob (howMon (if t.wide then 8 else 4)) (watchElems p t (if d == .zero then [a, b] else [a, b, d]) a) s y).1.ok (State.watchAll (found .glob (howMon (if t.wide then 8 else 4)) (watchElems p t (if d == .zero then [a, b] else [a, b, d]) a) s y).2 ((found .glob (howMon (if t.wide then 8 else 4)) (watchElems p t (if d == .zero then [a, b] else [a, b, d]) a) s y).2.fresh y) (found .glob (howMon (if t.wide then 8 else 4)) (watchElems p t (if d == .zero then [a, b] else [a, b, d]) a) s y).1.ok)).1.any fun q => q.2 == .waiting) = false := by
      simp only [List.any_eq_false]; intro l hl; simpa using h4 l hl
    rw [h5]
    rfl

theorem arms_of {i : Instr} {f : Form} {imm : Word} {p : Pred} {cond : Cond} {t : TypeCode} {d a b : Opnd}
    (hi : ∀ s, exec i s = issue f imm (armcSem p cond t d a b) s) (hk : f.closes = true) : Arms i f imm p cond t d a b := by
  refine ⟨falls_of (c := false) _ hi (fun s y hm hp => ?_) (by simp), falls_of (c := true) _ hi (fun s y hm hp => ?_) (by simp [hk])⟩
  · unfold armcSem
    exact access_silent hp _ _ _ _ _ _ _ _
  · obtain ⟨h2, h3, h4⟩ := hp
    have e : armcSem p cond t d a b s y = s.access y (y.v.act p) .glob (howMon (if t.wide then 8 else 4)) true .store 0 (watchElems p t [a, b] a y)
        (fun _ => .load 0) (fun s x ps =>
          match s.monReady x (y.v.act p) true ps, ps with
          | .error e, _ => e
          | .ok s, q :: _ =>
            let s := s.arm x cond t (x.v.rdT t b 0) q.x.addr
            let v := s.word x.own q.x.addr t.wide
            let x := s.fresh x
            .fall (s.putView x.r (if t.wide then x.v.wrUniform64 p d v else x.v.wrUniform p d v.lo)) true
          | .ok s, [] => .fall s true) := rfl
    rw [e, access_clear h2, monReady_watch h3]
    obtain ⟨q, l, hq⟩ := List.exists_cons_of_ne_nil h4
    dsimp only at hq
    simp only [hq]
    rfl

/-- A load that an instruction makes for itself. -/
theorem directLoad_fetched {ring : Ring} {va : DWord} {n : Nat} {t : State} {y : Ctx} (h : Fetches ring va n t y) (noIo : Bool) (len : Nat) (act : Word)
    (k : State → Ctx → List Byte → Done) :
    directLoad ring noIo len va n act k t y = k (fetched ring va n t y).2.1 (fetched ring va n t y).2.2 (fetched ring va n t y).1 := by
  obtain ⟨⟨h1, h2, h3, h4, h5, h6⟩, h7⟩ := h
  have h1' : y.v.part.pend = none := h1
  have hio : ((found .glob howLoad.own (fun z => directElems z va n) t (y.atRing ring)).1.ok.any fun p => p.x.io) = false := by
    simp only [List.any_eq_false]; intro p hp; simp [(h6 p hp).1]
  have hr : (found .glob howLoad.own (fun z => directElems z va n) t (y.atRing ring)).1.remote = false := remote_of_local h3 h6
  have e := readHere_ready h7 .glob true act (fun s x rd => k (s.unread x.r) ((s.unread x.r).fresh x) ((found .glob howLoad.own (fun z => directElems z va n) t (y.atRing ring)).1.ok.flatMap rd))
  simp only [found] at *
  simp only [directLoad, directGo, h1', Option.isSome_none, Bool.false_eq_true, if_false]
  have h5' : t.lost (State.checkElems (y.atRing ring) Space.glob howLoad.own (directElems (y.atRing ring) va n) t).2 y.r = false := h5
  simp only [h5', h3, h4, hio, hr, faultOf, Bool.and_false, Bool.false_eq_true, if_false]
  exact e

theorem copies_of {i : Instr} {f : Form} {imm : Word} {p : Pred} {ask : Ctx → CopyAsk} (hi : ∀ s, exec i s = issue f imm (copySem p ask) s) :
    Copies i f imm p ask := by
  refine ⟨falls_of _ hi (fun s y hm hp => ?_) (Bool.or_false _), falls_of _ hi (fun s y hm hp => ?_) (Bool.or_false _)⟩
  · simp only [View.acts] at hp
    simp only [copySem, hp]
    rfl
  · obtain ⟨h1, h2, h3, h4, h5, h6, h7, ⟨l, h8, h9⟩, h10⟩ := hp
    simp only [View.acts] at h1
    have h3' : ((ask y).aligned.find? fun q => q.1.toNat % q.2 != 0) = none := by
      rw [List.find?_eq_none]; intro q hq; simp [h3 q hq]
    have h5' : (if (ask y).total = 0 then none else (ask y).bufs.findSome? fun b => bufFault y.c b.1 b.2.1 b.2.2.1 b.2.2.2.1 b.2.2.2.2) = none := by
      by_cases ht : (ask y).total = 0
      · simp [ht]
      · simp only [ht, if_false]; rw [List.findSome?_eq_none_iff]; exact h5 ht
    have h7' : ((if (ask y).total = 0 then [] else (ask y).ranges).find? fun r => !r.ok) = none := by
      rw [List.find?_eq_none]
      by_cases ht : (ask y).total = 0
      · simp [ht]
      · simp only [ht, if_false]; intro r hr; simp [h7 ht r hr]
    have h9' : (l.filter Option.isSome).length = 0 := by
      rw [List.length_eq_zero_iff, List.filter_eq_nil_iff]; intro q hq; simp [h9 q hq]
    have hn : ¬ 64 ≤ y.v.gang.counters.copy := by omega
    simp only [copySem, h1, hn, h3', h4, h5', h6, h7', h8, h9', h10]
    rfl


theorem fresh_imm (s : State) (x : Ctx) : (s.fresh x).v.imm = x.v.imm := by
  unfold State.fresh
  cases h : s.ctx? x.v.imm with
  | none => rfl
  | some y => exact ctx?_imm h

theorem ctx?_fresh {s : State} {x : Ctx} {imm : Word} (hx : x.v.imm = imm) (h : (s.ctx? imm).isSome = true) :
    s.ctx? imm = some (s.fresh x) := by
  subst hx
  unfold State.fresh
  cases h' : s.ctx? x.v.imm with
  | none => simp [h'] at h
  | some y => rfl

/-- An access begun goes on with its requests, and then ends. -/
theorem startPend_complete {u : State} {w : Ctx} {pd : Pend} {ks : List (Piece × PeerKind)} {imm : Word} (hw : w.v.imm = imm)
    (h1 : ((u.begun w pd ks).ctx? imm).isSome = true)
    (h2 : (((u.begun w pd ks).advance ((u.begun w pd ks).fresh w).v.part.id
      (((u.begun w pd ks).partReqs ((u.begun w pd ks).fresh w).v.part.id).length + 1)).ctx? imm).isSome = true) :
    u.startPend w pd ks =
      ((u.begun w pd ks).advance ((u.begun w pd ks).fresh w).v.part.id
        (((u.begun w pd ks).partReqs ((u.begun w pd ks).fresh w).v.part.id).length + 1)).complete
        (((u.begun w pd ks).advance ((u.begun w pd ks).fresh w).v.part.id
          (((u.begun w pd ks).partReqs ((u.begun w pd ks).fresh w).v.part.id).length + 1)).fresh ((u.begun w pd ks).fresh w)) pd := by
  have e1 := ctx?_fresh (s := u.begun w pd ks) hw h1
  have hz : ((u.begun w pd ks).fresh w).v.imm = imm := by rw [fresh_imm, hw]
  have e2 := ctx?_fresh hz h2
  unfold State.startPend
  change (match (u.begun w pd ks).ctx? w.v.imm with | some y => (u.begun w pd ks).goOn y pd | none => .placed (u.begun w pd ks)) = _
  rw [hw, e1]
  dsimp only
  unfold State.goOn
  dsimp only
  rw [hz, e2]

theorem mem_putReq {q r : Request} : ∀ {l : List Request}, r ∈ putReq q l ↔ r = q ∨ r ∈ l
  | [] => by simp [putReq]
  | p :: t => by
    unfold putReq
    split
    · simp
    · simp only [List.mem_cons, mem_putReq]; tauto

/-- A lane's requests are those of the lane. -/
theorem mem_laneReqs {r : Request} {qs : List Request} {l : Nat} : r ∈ laneReqs qs l ↔ r ∈ qs ∧ r.lane = l := by
  have h : ∀ k : List Request, r ∈ k.foldr putReq [] ↔ r ∈ k := by
    intro k
    induction k with
    | nil => simp
    | cons a t ih => simp [mem_putReq, ih]
  simp [laneReqs, h]

theorem atomHere_complete {f : Form} {u : State} {w : Ctx} {ps : List Piece} {act : Word} {uni : Bool} {d : Opnd} {w64 : Bool} {kind : Piece → PeerKind} {imm : Word}
    (hw : w.v.imm = imm)
    (b : State) (hb : b = u.begun w ⟨.atom d w64, f.len, uni, act⟩ ((groupAll ps.length ps).map fun q => (q, kind q)))
    (z : Ctx) (hz : z = b.fresh w)
    (v : State) (hv : v = b.advance z.v.part.id ((b.partReqs z.v.part.id).length + 1))
    (x : Ctx) (hx : x = (v.fresh z).donePend)
    (h1 : (b.ctx? imm).isSome = true) (h2 : (v.ctx? imm).isSome = true)
    (h3 : ∀ q ∈ v.partReqs x.v.part.id, q.tout = false ∧ ∃ bs l, q.ans = some (.data bs l)) :
    atomHere act uni d w64 f.len kind u w ps = .fall (
      let r := (v.dropReqs x.v.part.id).modPart x.r fun q => { q with pend := none }
      if d = .zero then r else r.putView x.r
      (x.v.putLoad uni act d (if w64 then .b64 else .b32) false fun l =>
        (if uni then v.partReqs x.v.part.id else laneReqs (v.partReqs x.v.part.id) l).flatMap Request.bytes)) true := by
  subst hb; subst hz; subst hv
  unfold atomHere
  rw [startPend_complete hw h1 h2]
  have hid : x.v.part.id = (((u.begun w ⟨.atom d w64, f.len, uni, act⟩ ((groupAll ps.length ps).map fun q => (q, kind q))).advance
    ((u.begun w ⟨.atom d w64, f.len, uni, act⟩ ((groupAll ps.length ps).map fun q => (q, kind q))).fresh w).v.part.id
    (((u.begun w ⟨.atom d w64, f.len, uni, act⟩ ((groupAll ps.length ps).map fun q => (q, kind q))).partReqs
    ((u.begun w ⟨.atom d w64, f.len, uni, act⟩ ((groupAll ps.length ps).map fun q => (q, kind q))).fresh w).v.part.id).length + 1)).fresh
    ((u.begun w ⟨.atom d w64, f.len, uni, act⟩ ((groupAll ps.length ps).map fun q => (q, kind q))).fresh w)).v.part.id := by
    rw [hx]; rfl
  generalize hV : ((u.begun w ⟨.atom d w64, f.len, uni, act⟩ ((groupAll ps.length ps).map fun q => (q, kind q))).advance
    ((u.begun w ⟨.atom d w64, f.len, uni, act⟩ ((groupAll ps.length ps).map fun q => (q, kind q))).fresh w).v.part.id
    (((u.begun w ⟨.atom d w64, f.len, uni, act⟩ ((groupAll ps.length ps).map fun q => (q, kind q))).partReqs
    ((u.begun w ⟨.atom d w64, f.len, uni, act⟩ ((groupAll ps.length ps).map fun q => (q, kind q))).fresh w).v.part.id).length + 1)) = V at *
  generalize hZ : (u.begun w ⟨.atom d w64, f.len, uni, act⟩ ((groupAll ps.length ps).map fun q => (q, kind q))).fresh w = Z at *
  generalize hY : V.fresh Z = Y at *
  have hq : ∀ q ∈ V.partReqs Y.v.part.id, q.tout = false ∧ ∃ bs l, q.ans = some (.data bs l) := by rw [← hid]; exact h3
  have n1 : ((V.partReqs Y.v.part.id).any fun q => q.ans.isNone) = false := by
    simp only [List.any_eq_false]; intro q hm; obtain ⟨_, bs, l, e⟩ := hq q hm; simp [e]
  have n2 : (V.partReqs Y.v.part.id).filter (fun q => q.ans == some .poison) = [] := by
    rw [List.filter_eq_nil_iff]; intro q hm; obtain ⟨_, bs, l, e⟩ := hq q hm; simp [e]
  have n3 : (V.partReqs Y.v.part.id).filterMap Request.bad = [] := by
    rw [List.filterMap_eq_nil_iff]; intro q hm; obtain ⟨_, bs, l, e⟩ := hq q hm; simp [Request.bad, e]
  have n4 : ∀ l n, answerBytes n (if uni then V.partReqs Y.v.part.id else laneReqs (V.partReqs Y.v.part.id) l)
      = (if uni then V.partReqs Y.v.part.id else laneReqs (V.partReqs Y.v.part.id) l).flatMap Request.bytes := by
    intro l n
    have hsub : ∀ q ∈ (if uni then V.partReqs Y.v.part.id else laneReqs (V.partReqs Y.v.part.id) l), q.tout = false := by
      intro q hm
      cases uni
      · simp only [Bool.false_eq_true, if_false, mem_laneReqs] at hm; exact (hq q hm.1).1
      · exact (hq q hm).1
    have : ((if uni then V.partReqs Y.v.part.id else laneReqs (V.partReqs Y.v.part.id) l).any (·.tout)) = false := by
      simp only [List.any_eq_false]; intro q hm; simp [hsub q hm]
    unfold answerBytes
    rw [this]
    rfl
  have hb1 : (PendOp.atom d w64 == .raw) = false := rfl
  have hb2 : (PendOp.atom d w64 == .red) = false := rfl
  unfold State.complete
  dsimp only
  rw [n1, hb1, hb2]
  simp only [Bool.or_false, Bool.false_and, Bool.false_eq_true, if_false, n2, List.take_nil, List.foldl_nil, n3, faultOf, n4, hx]
  by_cases hd : d = .zero
  · simp [hd, Ctx.donePend]
  · simp [hd, Ctx.donePend]

theorem atomics_of {i : Instr} {f : Form} {imm : Word} {p : Pred} {w64 : Bool} {d a : Opnd} {os : List Opnd} {kind : Ctx → Piece → PeerKind}
    (sem : Sem) (hi : ∀ s, exec i s = issue f imm sem s)
    (hs : ∀ t y, sem t y = t.access y (y.v.act p) .glob (howAtom w64) (oneAccess (if d == .zero then os else os ++ [d])) (.atom d w64) f.len
      (atomElems .glob p w64 d a os y) (kind y)
      (atomHere (y.v.act p) (oneAccess (if d == .zero then os else os ++ [d])) d w64 f.len (kind y))) (hk : f.closes = true) :
    Atomics i f imm p w64 d a os kind := by
  refine ⟨falls_of (c := false) sem hi (fun t y hm hp => ?_) (by simp), falls_of (c := true) sem hi (fun t y hm hp => ?_) (by simp [hk])⟩
  · rw [hs, access_silent hp]
  · obtain ⟨hc, h1, h2, h3⟩ := hp
    rw [hs, access_clear hc, atomHere_complete (by rw [fresh_imm, hm]) _ rfl _ rfl _ rfl _ rfl h1 h2 h3]
    rfl

end Sys2Proof.Machine
end

