-- ==== Sys2Proof/Laws/View.lean ====
section
/-!
SUPPORT. What the operations on a part's view leave alone, once for each, and what a register instruction leaves alone.
-/
namespace Sys2Proof.Machine

/-! Vectors -/

theorem vget_vset {α : Type} {n : Nat} (v : Vector α n) (i j : Nat) (x d : α) (h : i ≠ j) : vget (vset v i x) j d = vget v j d := by
  simp [vget, vset, List.getD_eq_getElem?_getD, h]

theorem vget_vset_self {α : Type} {n : Nat} (v : Vector α n) (i : Nat) (x d : α) (h : i < n) : vget (vset v i x) i d = x := by
  simp [vget, vset, List.getD_eq_getElem?_getD, h]

/-! The relation -/

theorem View.Same.refl (b : List Nat) (m : Flags) (v : View) : v.Same b m v := by
  constructor <;> simp

theorem View.Same.trans {b : List Nat} {m : Flags} {v w u : View} (h : v.Same b m w) (k : w.Same b m u) : v.Same b m u := by
  have hp := h.part
  have hr : w.part.ring = v.part.ring := by rw [← h.part]
  have hq : w.part.quads = v.part.quads := by rw [← h.part]
  have hi : w.part.id = v.part.id := by rw [← h.part]
  constructor
  · intro r hr hb; rw [k.vregs r hr hb, h.vregs r hr hb]
  · intro r hr hb; rw [k.sregs r hr hb, h.sregs r hr hb]
  · intro r hr hb; rw [k.xregs r hr hb, h.xregs r hr hb]
  · intro r hr hb; rw [k.pregs r hr hb, h.pregs r hr hb]
  · intro hb; rw [k.exec hb, h.exec hb]
  · rw [k.kept, h.kept]
  · rw [← k.raised, ← h.raised, ← BitVec.or_assoc, ← BitVec.or_assoc, BitVec.or_self]
  · intro hu r hk; rw [k.vbelow (by rwa [hr]) r hk, h.vbelow hu r hk]
  · intro hu r hk; rw [k.sbelow (by rwa [hr]) r hk, h.sbelow hu r hk]
  · intro r h1 h2; rw [k.banks r h1 (by rwa [hr]), h.banks r h1 h2]
  · intro r; rw [k.frames, h.frames]
  · intro r q j h1 h2 h3; rw [k.copies r q j h1 h2 (by rwa [hq]), h.copies r q j h1 h2 h3]
  · have := k.others
    rw [hi, hq] at this
    rw [this, h.others]
  · rw [← k.part] at hp; exact hp
  · have hg := h.gang; rw [← k.gang] at hg; exact hg
  · exact ⟨k.place.1.trans h.place.1, k.place.2.trans h.place.2⟩

theorem View.Same.mono {b c : List Nat} {m n : Flags} {v w : View} (h : v.Same b m w) (hb : ∀ k ∈ b, k ∈ c) (hm : m &&& ~~~n = 0) : v.Same c n w := by
  have hk : w.part.aflags &&& ~~~n = v.part.aflags &&& ~~~n := by
    have h1 := h.kept
    apply BitVec.eq_of_getLsbD_eq
    intro i hi
    have h2 := congrArg (fun x : Flags => x.getLsbD i) h1
    have h3 := congrArg (fun x : Flags => x.getLsbD i) hm
    simp [hi] at h2 h3 ⊢
    cases hn : m.getLsbD i <;> cases hn2 : n.getLsbD i <;> simp_all
  exact ⟨fun r h1 h2 => h.vregs r h1 fun x => h2 (hb _ x), fun r h1 h2 => h.sregs r h1 fun x => h2 (hb _ x), fun r h1 h2 => h.xregs r h1 fun x => h2 (hb _ x),
    fun r h1 h2 => h.pregs r h1 fun x => h2 (hb _ x), fun h2 => h.exec fun x => h2 (hb _ x), hk, h.raised, h.vbelow, h.sbelow, h.banks, h.frames, h.copies,
    h.others, h.part, h.gang, h.place⟩

/-! Writes -/

theorem markWrite_logless (me : Nat) (u : Ring) (n : Nat) (p : Part) : (p.markWrite me u n).logless = p.logless := by
  unfold Part.markWrite; split <;> rfl

theorem markWrite_others (me : Nat) (u : Ring) (n k : Nat) (m : QMask) (ps : List Part) :
    ((ps.map (Part.markWrite me u n)).filter fun p => p.id != k && p.quads &&& m == 0).map Part.logless =
      (ps.filter fun p => p.id != k && p.quads &&& m == 0).map Part.logless := by
  induction ps with
  | nil => rfl
  | cons p t ih =>
    have h1 : (p.markWrite me u n).id = p.id := by unfold Part.markWrite; split <;> rfl
    have h2 : (p.markWrite me u n).quads = p.quads := by unfold Part.markWrite; split <;> rfl
    simp only [List.map_cons, List.filter_cons, h1, h2]
    split
    · simp only [List.map_cons, ih, markWrite_logless]
    · exact ih

theorem View.setVreg_same (v : View) (n : Nat) (x : VReg) : v.Same [n] 0 (v.setVreg n x) := by
  constructor
  · intro k hk hb
    have hn : n ≠ k := by simp at hb; omega
    simp only [View.vreg, View.setVreg, Gang.vreg, Gang.setVreg]
    cases hr : v.part.ring <;> by_cases h1 : 176 ≤ k <;> by_cases h2 : 176 ≤ n <;> simp [bankedV, Gang.bank, Gang.setBank, h1, h2]
    all_goals (apply vget_vset; omega)
  · intro k hk hb
    simp only [View.sreg, View.setVreg, Gang.setVreg]
    cases hr : v.part.ring <;> by_cases h1 : 24 ≤ k <;> by_cases h2 : 176 ≤ n <;> simp [bankedV, bankedS, Gang.bank, Gang.setBank, h1, h2]
  · intros; rfl
  · intros; rfl
  · intros; rfl
  · rfl
  · simp [View.setVreg]
  · intro hu k hk
    simp only [View.setVreg, Gang.setVreg]
    split
    · cases hr : v.part.ring <;> rfl
    · rename_i hb
      have hn : n ≠ k := by
        intro e; subst e; apply hb
        simp [bankedV, hu, hk]
      exact vget_vset _ _ _ _ _ hn
  · intros; rfl
  · intro r h1 h2
    simp only [View.setVreg, Gang.setVreg]
    split
    · cases hr : v.part.ring <;> cases r <;> simp_all [Gang.bank, Gang.setBank]
    · rfl
  · intro r
    simp only [View.setVreg, Gang.setVreg]
    split
    · cases hr : v.part.ring <;> cases r <;> rfl
    · rfl
  · intro r q k _ _ _
    simp only [View.setVreg, Gang.setVreg]
    split
    · cases hr : v.part.ring <;> cases r <;> rfl
    · rfl
  · exact markWrite_others ..
  · rfl
  · simp only [View.setVreg, Gang.setVreg]
    split
    · cases hr : v.part.ring <;> rfl
    · rfl
  · exact ⟨rfl, rfl⟩

theorem vget_setBankS (b : Vector Word 64) (qs : List Nat) (k j : Nat) (x : Word) (h : ∀ q ∈ qs, 8 * q + k ≠ j) :
    vget (setBankS b qs k x) j 0 = vget b j 0 := by
  induction qs generalizing b with
  | nil => rfl
  | cons q t ih =>
    rw [setBankS, ih _ fun q hq => h q (by simp [hq])]
    exact vget_vset _ _ _ _ _ (h q (by simp))

theorem quadList_bit {m : QMask} {q : Nat} (h : q ∈ quadList m) : m.getLsbD q = true := (List.mem_filter.mp h).2

theorem View.setSreg_same (v : View) (n : Nat) (hm : n < 32) (x : Word) : v.Same [0xC0 + n] 0 (v.setSreg n x) := by
  by_cases hb : bankedS v.part.ring n
  · have hn : 24 ≤ n := by simp [bankedS] at hb; exact hb.2
    have key := fun j h => vget_setBankS (v.gang.bank v.part.ring).s (quadList v.part.quads) (n - 24) j x h
    simp only [View.setSreg, if_pos hb]
    constructor
    case sregs =>
      intro k hk hk2
      have hne : n ≠ k := by simp at hk2; omega
      simp only [View.sreg]
      by_cases h24 : bankedS v.part.ring k
      · have h24' : 24 ≤ k := by simp [bankedS] at h24; exact h24.2
        simp only [if_pos h24]
        rw [← key]
        · cases hr : v.part.ring <;> first | rfl | (simp [bankedS, hr] at hb)
        · intros; omega
      · simp only [if_neg h24]
    case copies =>
      intro r q k h1 h2 h3
      by_cases h4 : r = v.part.ring
      · subst h4
        rw [← key]
        · cases hr : v.part.ring <;> first | rfl | (simp [bankedS, hr] at hb)
        · intro p hp e
          have : p = q := by omega
          rw [this] at hp
          rw [quadList_bit hp] at h3
          cases h3
      · cases r <;> cases hr : v.part.ring <;> first | rfl | (simp [hr] at h4; done) | (simp [bankedS, hr] at hb; done) | skip
        all_goals
          rw [hr] at key
          refine key _ ?_
          intro p hp e
          have : p = q := by omega
          rw [this] at hp
          rw [quadList_bit hp] at h3
          cases h3
    case vregs =>
      intro k _ _
      simp only [View.vreg, Gang.vreg]
      cases hr : v.part.ring <;> simp [bankedV, Gang.bank, Gang.setBank]
    case banks => intro r h1 h2; cases hr : v.part.ring <;> cases r <;> simp_all [Gang.bank, Gang.setBank]
    case frames => intro r; cases hr : v.part.ring <;> cases r <;> rfl
    all_goals cases hr : v.part.ring <;> first | (simp [bankedS, hr] at hb; done) | (intros; rfl) | rfl | (simp; done)
  · simp only [View.setSreg, if_neg hb]
    constructor
    case sregs =>
      intro k hk hk2
      have hne : n ≠ k := by simp at hk2; omega
      simp only [View.sreg]
      split
      · rfl
      · exact vget_vset _ _ _ _ _ hne
    case sbelow =>
      intro hu k hk
      refine vget_vset _ _ _ _ _ fun e => hb ?_
      subst e
      simp [bankedS, hu, hk]
    all_goals first | (intros; rfl) | rfl | simp

theorem View.setPreg_same (v : View) (n : Nat) (x : Word) : v.Same [0xE8 + n] 0 (v.setPreg n x) := by
  constructor
  case pregs =>
    intro k hk hb
    have hn : n ≠ k := by simp at hb; omega
    simp only [View.setPreg, Part.preg]
    split
    · rfl
    · exact vget_vset _ _ _ _ _ hn
  all_goals first | (intros; rfl) | rfl | simp [View.setPreg]

theorem View.setX_same (v : View) (n : Nat) (m : Word) (f : Nat → Word) : v.Same [0xE0 + n] 0 (v.setX n m f) := by
  constructor
  case xregs =>
    intro k hk hb
    have hn : n ≠ k := by simp at hb; omega
    exact vget_vset _ _ _ _ _ hn
  all_goals first | (intros; rfl) | rfl | simp [View.setX]

theorem View.setExec_same (v : View) (x : Word) : v.Same [0xF4] 0 { v with part := { v.part with exec := x } } := by
  constructor
  case exec => intro h; simp at h
  all_goals first | (intros; rfl) | rfl | simp

theorem View.raiseFlags_same (v : View) (m f : Flags) (h : f &&& ~~~m = 0) : v.Same [] m (v.raiseFlags f) := by
  constructor
  case kept =>
    have : (v.part.aflags ||| f) &&& ~~~m = v.part.aflags &&& ~~~m ||| f &&& ~~~m := by
      rw [BitVec.and_comm, BitVec.and_or_distrib_left, BitVec.and_comm, BitVec.and_comm f]
    simp [View.raiseFlags, this, h]
  case raised => simp [View.raiseFlags, ← BitVec.or_assoc]
  all_goals first | (intros; rfl) | rfl | simp [View.raiseFlags]

/-! Results -/

theorem View.wr32_same (v : View) (d : Opnd) (ls : List Nat) (act : Word) (f : Nat → Word) : v.Same [d.toByte] 0 (v.wr32 d ls act f) := by
  cases d with
  | v n => unfold View.wr32; dsimp only; split; exact .refl ..; exact v.setVreg_same ..
  | x n => exact v.setX_same ..
  | s n => cases ls with
    | nil => exact .refl ..
    | cons l t => exact v.setSreg_same _ n.isLt _
  | exec => cases ls with
    | nil => exact .refl ..
    | cons l t => exact v.setExec_same _
  | p n => cases ls with
    | nil => exact .refl ..
    | cons l t => exact v.setPreg_same ..
  | _ => exact .refl ..

theorem View.wr64_same (v : View) (d : Opnd) (ls : List Nat) (act : Word) (f : Nat → DWord) : v.Same (regBytes d 2) 0 (v.wr64 d ls act f) := by
  refine ((v.wr32_same d ls act _).mono ?_ (by simp)).trans (((v.wr32 d ls act _).wr32_same _ ls act _).mono ?_ (by simp))
  · intro k hk; simp at hk; subst hk; exact List.mem_map.mpr ⟨0, by simp, rfl⟩
  · intro k hk
    simp only [List.mem_singleton] at hk
    subst hk
    refine List.mem_map.mpr ⟨1, by simp, ?_⟩
    cases d <;> rfl

theorem orFlags_go (m : Flags) (l : List Flags) (a : Flags) (ha : a &&& ~~~m = 0) (h : ∀ f ∈ l, f &&& ~~~m = 0) : l.foldl (· ||| ·) a &&& ~~~m = 0 := by
  induction l generalizing a with
  | nil => exact ha
  | cons f t ih =>
    refine ih _ ?_ fun g hg => h g (by simp [hg])
    rw [BitVec.and_comm, BitVec.and_or_distrib_left, BitVec.and_comm, ha, BitVec.and_comm, h f (by simp)]
    rfl

theorem orFlags_in (m : Flags) (l : List Flags) (h : ∀ f ∈ l, f &&& ~~~m = 0) : orFlags l &&& ~~~m = 0 := orFlags_go m l 0 (by simp) h

theorem View.compute_same (v : View) (q : Pred) (wide : Bool) (d : Opnd) (srcs : List Opnd) (f : Nat → DWord × Flags) (m : Flags)
    (h : ∀ l, (f l).2 &&& ~~~m = 0) : v.Same (regBytes d (if wide then 2 else 1)) m (v.compute q wide d srcs f) := by
  unfold View.compute
  have hf := orFlags_in m ((v.evalLanes q d srcs).map fun l => (f l).2) (by simpa using fun l _ => h l)
  cases wide
  · exact ((v.wr32_same ..).mono (by simp [regBytes, List.range_succ, Opnd.plus]) (by simp)).trans ((raiseFlags_same _ m _ hf).mono (by simp) (by simp))
  · exact ((v.wr64_same ..).mono (fun _ h => by simpa using h) (by simp)).trans ((raiseFlags_same _ m _ hf).mono (by simp) (by simp))

theorem View.setBits_same (v : View) (d : Opnd) (act : Word) (f : Nat → Bool) : v.Same [d.toByte] 0 (v.setBits d act f) := by
  unfold View.setBits
  split
  · exact v.setPreg_same ..
  · exact .refl ..

theorem View.wrUniform_same (v : View) (q : Pred) (d : Opnd) (x : Word) : v.Same [d.toByte] 0 (v.wrUniform q d x) := v.wr32_same ..

theorem View.wrUniform64_same (v : View) (q : Pred) (d : Opnd) (x : DWord) : v.Same (regBytes d 2) 0 (v.wrUniform64 q d x) := v.wr64_same ..

/-! The gang's list of parts gains nothing but marks -/

/-- The parts of a gang are the same but for their logs. -/
def View.Kin (v w : View) : Prop := w.gang.parts.map Part.logless = v.gang.parts.map Part.logless

theorem View.Kin.refl (v : View) : v.Kin v := rfl
theorem View.Kin.trans {v w u : View} (h : v.Kin w) (k : w.Kin u) : v.Kin u := Eq.trans k h

theorem View.setVreg_kin (v : View) (n : Nat) (x : VReg) : v.Kin (v.setVreg n x) := by
  simp only [View.Kin, View.setVreg, List.map_map]
  exact List.map_congr_left fun p _ => markWrite_logless ..

theorem View.setSreg_kin (v : View) (n : Nat) (x : Word) : v.Kin (v.setSreg n x) := by
  unfold View.setSreg
  split
  · simp only [View.Kin]
    cases v.part.ring <;> rfl
  · rfl

theorem View.wr32_kin (v : View) (d : Opnd) (ls : List Nat) (act : Word) (f : Nat → Word) : v.Kin (v.wr32 d ls act f) := by
  cases d with
  | v n => unfold View.wr32; dsimp only; split; exact .refl ..; exact v.setVreg_kin ..
  | s n => cases ls with
    | nil => rfl
    | cons l t => exact v.setSreg_kin ..
  | exec => cases ls <;> rfl
  | p n => cases ls <;> rfl
  | _ => rfl

theorem View.wr64_kin (v : View) (d : Opnd) (ls : List Nat) (act : Word) (f : Nat → DWord) : v.Kin (v.wr64 d ls act f) :=
  (v.wr32_kin ..).trans (View.wr32_kin ..)

theorem View.compute_kin (v : View) (q : Pred) (wide : Bool) (d : Opnd) (srcs : List Opnd) (f : Nat → DWord × Flags) :
    v.Kin (v.compute q wide d srcs f) := by
  unfold View.compute
  cases wide
  · exact v.wr32_kin ..
  · exact v.wr64_kin ..

theorem View.setBits_kin (v : View) (d : Opnd) (act : Word) (f : Nat → Bool) : v.Kin (v.setBits d act f) := by
  unfold View.setBits
  split <;> rfl

/-! From the view to the state -/

theorem find_part {q i : Nat} {p P : Part} (hi : P.id = i) (hp : p.id = i) (hq : P.quads = p.quads) (l m : List Part)
    (hm : m.map Part.logless = l.map Part.logless) (hf : l.find? (fun p => p.quads.getLsbD q) = some p) :
    (m.map fun p => if p.id = i then P else p).find? (fun p => p.quads.getLsbD q) = some P := by
  induction l generalizing m with
  | nil => simp at hf
  | cons a t ih =>
    cases m with
    | nil => simp at hm
    | cons b u =>
      simp only [List.map_cons, List.cons.injEq] at hm
      have h1 : b.id = a.id := (congrArg (fun (p : Part) => p.id) hm.1 : b.logless.id = a.logless.id)
      have h2 : b.quads = a.quads := (congrArg (fun (p : Part) => p.quads) hm.1 : b.logless.quads = a.logless.quads)
      have h3 := List.find?_some hf
      simp only [List.map_cons, List.find?_cons] at hf ⊢
      by_cases h : b.id = i
      · simp only [if_pos h, hq, h3]
      · simp only [if_neg h, h2]
        cases ha : a.quads.getLsbD q with
        | true => rw [ha] at hf; cases hf; exact absurd (h1.trans hp) h
        | false => rw [ha] at hf; exact ih u hm.2 hf

theorem ctx?_parts {s : State} {imm : Word} {x : Ctx} (h : s.ctx? imm = some x) :
    s.cur = some x.r ∧ s.cohort? x.r.cohort = some x.c ∧ x.c.gang? x.r.gang = some x.v.gang ∧ x.v.gang.partOf? x.r.quad = some x.v.part ∧
      x.v.core = x.c.core ∧ x.v.imm = imm := by
  unfold State.ctx? at h
  repeat' split at h
  all_goals first | (cases h; done) | (injection h with h; subst h; simp_all)

theorem cohort?_modCohort (s : State) (i j : Nat) (f : Cohort → Cohort) (hf : ∀ c, (f c).id = c.id) :
    (s.modCohort i f).cohort? j = (s.cohort? j).map fun c => if j = i then f c else c := by
  simp only [State.cohort?, State.modCohort]
  induction s.cohorts with
  | nil => rfl
  | cons c t ih =>
    have hid : (if c.id = i then f c else c).id = c.id := by split; exact hf c; rfl
    simp only [List.map_cons, List.find?_cons, hid]
    by_cases h : c.id = j
    · simp [h]
    · simp only [beq_eq_false_iff_ne.mpr h]
      exact ih

theorem gang?_modGang (c : Cohort) (i j : Nat) (f : Gang → Gang) (hf : ∀ g, (f g).idx = g.idx) :
    (c.modGang i f).gang? j = (c.gang? j).map fun g => if j = i then f g else g := by
  simp only [Cohort.gang?, Cohort.modGang]
  induction c.gangs with
  | nil => rfl
  | cons g t ih =>
    have hid : (if g.idx = i then f g else g).idx = g.idx := by split; exact hf g; rfl
    simp only [List.map_cons, List.find?_cons, hid]
    by_cases h : g.idx = j
    · simp [h]
    · simp only [beq_eq_false_iff_ne.mpr h]
      exact ih

/-- A gang changed in a way that its part allows. -/
theorem modGang_sameBut {s : State} {imm : Word} {x : Ctx} (h : s.ctx? imm = some x) {b : List Nat} {m : Flags} {F : Gang → Gang} {p : Part}
    (hF : ∀ g, (F g).idx = g.idx) (hp : (F x.v.gang).partOf? x.r.quad = some p) (hs : x.v.Same b m ⟨F x.v.gang, p, x.v.core, x.v.imm⟩) :
    SameBut b m imm s x (s.modGang x.r.cohort x.r.gang F) := by
  obtain ⟨h1, h2, h3, h4, h5, h6⟩ := ctx?_parts h
  have hc : (s.modGang x.r.cohort x.r.gang F).cohort? x.r.cohort = some (x.c.modGang x.r.gang F) := by
    rw [State.modGang, cohort?_modCohort s _ _ (fun c => c.modGang x.r.gang F) (fun _ => rfl), h2]
    simp
  have hg : (x.c.modGang x.r.gang F).gang? x.r.gang = some (F x.v.gang) := by
    rw [gang?_modGang _ _ _ _ hF, h3]
    simp
  refine ⟨rfl, fun _ => rfl, ?_, ?_, ⟨⟨x.r, x.c.modGang x.r.gang F, ⟨F x.v.gang, p, x.c.core, imm⟩⟩, ?_, ?_⟩⟩
  · simp only [State.modGang, State.modCohort, List.map_map]
    refine List.map_congr_left fun c _ => ?_
    simp only [Function.comp]
    split <;> rfl
  · intro co g hne
    simp only [State.gang?, State.modGang]
    rw [cohort?_modCohort s _ _ (fun c => c.modGang x.r.gang F) (fun _ => rfl)]
    cases hco : s.cohort? co with
    | none => rfl
    | some c =>
      simp only [Option.map_some, Option.bind_some]
      split
      · rename_i he
        rw [gang?_modGang _ _ _ _ hF]
        have : g ≠ x.r.gang := fun e => hne ⟨he, e⟩
        simp [this]
      · rfl
  · have hcur : (s.modGang x.r.cohort x.r.gang F).cur = some x.r := h1
    simp only [State.ctx?, hcur, hc, hg, hp]
    rfl
  · rw [← h5, ← h6]; exact hs

theorem SameBut.trans {s t u : State} {imm : Word} {x y : Ctx} {b : List Nat} {m : Flags} (h : SameBut b m imm s x t) (hy : t.ctx? imm = some y)
    (hr : y.r = x.r) (k : SameBut b m imm t y u) : SameBut b m imm s x u := by
  obtain ⟨z, hz, hs⟩ := h.part
  rw [hy] at hz
  cases hz
  obtain ⟨w, hw, hs'⟩ := k.part
  refine ⟨?_, fun a => (k.memory a).trans (h.memory a), k.cohorts.trans h.cohorts, fun co g hn => ?_, ⟨w, hw, hs.trans hs'⟩⟩
  · have h1 := h.rest
    rw [← k.rest] at h1
    exact h1
  · rw [k.gangs co g (by rwa [hr]), h.gangs co g hn]

theorem SameBut.due {s t : State} {imm : Word} {x : Ctx} {b : List Nat} {m : Flags} (h : SameBut b m imm s x t) (is : List Instr) :
    SameBut b m imm s x (t.due is) := ⟨h.rest, h.memory, h.cohorts, h.gangs, h.part⟩

theorem filter_own (i : Nat) (m : QMask) (P : Part) (hP : P.id = i) (l : List Part) :
    ((l.map fun p => if p.id = i then P else p).filter fun p => p.id != i && p.quads &&& m == 0) =
      l.filter fun p => p.id != i && p.quads &&& m == 0 := by
  induction l with
  | nil => rfl
  | cons a t ih =>
    have hP' : (P.id != i && P.quads &&& m == 0) = false := by simp [hP]
    by_cases h : a.id = i
    · have ha : (a.id != i && a.quads &&& m == 0) = false := by simp [h]
      simp only [List.map_cons, if_pos h, List.filter_cons, hP', ha, ih]
      rfl
    · simp only [List.map_cons, if_neg h, List.filter_cons, ih]

theorem filter_quad (i q : Nat) (m : QMask) (hq : m.getLsbD q = true) (f : Part → Part) (hf : ∀ p, (f p).quads = p.quads) (l : List Part) :
    ((l.map fun p => if p.quads.getLsbD q then f p else p).filter fun p => p.id != i && p.quads &&& m == 0) =
      l.filter fun p => p.id != i && p.quads &&& m == 0 := by
  have key : ∀ p : Part, p.quads.getLsbD q = true → (p.quads &&& m == 0) = false := by
    intro p hp
    apply beq_eq_false_iff_ne.mpr
    intro h
    have := congrArg (fun x : QMask => x.getLsbD q) h
    simp [hp, hq] at this
  induction l with
  | nil => rfl
  | cons a t ih =>
    by_cases h : a.quads.getLsbD q = true
    · have h1 := key a h
      simp only [List.map_cons, if_pos h, List.filter_cons, hf, h1, ih, Bool.and_false]
      rfl
    · simp only [List.map_cons, if_neg h, List.filter_cons, ih]

theorem find_quad (q : Nat) (f : Part → Part) (hf : ∀ p, (f p).quads = p.quads) (l : List Part) :
    (l.map fun p => if p.quads.getLsbD q then f p else p).find? (fun p => p.quads.getLsbD q) =
      (l.find? fun p => p.quads.getLsbD q).map f := by
  induction l with
  | nil => rfl
  | cons a t ih =>
    by_cases h : a.quads.getLsbD q = true
    · rw [List.map_cons, if_pos h, List.find?_cons, hf, List.find?_cons, h]
      rfl
    · rw [List.map_cons, if_neg h, List.find?_cons, List.find?_cons, eq_false_of_ne_true h]
      exact ih

/-- What an instruction has made of its view, put back. -/
theorem putView_sameBut {s : State} {imm : Word} {x : Ctx} (h : s.ctx? imm = some x) {b : List Nat} {m : Flags} {w : View}
    (hs : x.v.Same b m w) (hk : x.v.Kin w) : SameBut b m imm s x (s.putView x.r w) := by
  have hi : w.part.id = x.v.part.id := by rw [← hs.part]
  have hq : w.part.quads = x.v.part.quads := by rw [← hs.part]
  have hidx : w.gang.idx = x.v.gang.idx := by rw [← hs.gang]
  obtain ⟨h1, h2, h3, h4, h5, h6⟩ := ctx?_parts h
  have hx : x.v.gang.idx = x.r.gang := by simpa using List.find?_some h3
  have e : s.putView x.r w = s.modGang x.r.cohort x.r.gang fun g => if g.idx = x.r.gang then w.toGang else g := by
    simp only [State.putView, State.modGang, State.modCohort, Cohort.modGang]
    congr 2
    funext c
    split
    · congr 2
      funext g
      split <;> simp_all
    · rfl
  rw [e]
  refine modGang_sameBut h (p := w.part) (fun g => ?_) ?_ ?_
  · show (if g.idx = x.r.gang then w.toGang else g).idx = g.idx
    split
    · rename_i hg; rw [hg, ← hx, ← hidx]; rfl
    · rfl
  · simp only [hx, if_true]
    exact find_part rfl hi.symm hq _ _ hk h4
  · simp only [hx, if_true]
    have ho : (w.toGang.parts.filter fun p => p.id != x.v.part.id && p.quads &&& x.v.part.quads == 0) =
        w.gang.parts.filter fun p => p.id != x.v.part.id && p.quads &&& x.v.part.quads == 0 := by
      simp only [View.toGang, hi]
      exact filter_own _ _ _ hi _
    exact ⟨hs.vregs, hs.sregs, hs.xregs, hs.pregs, hs.exec, hs.kept, hs.raised, hs.vbelow, hs.sbelow, hs.banks, hs.frames, hs.copies,
      by rw [ho]; exact hs.others, hs.part, hs.gang, ⟨rfl, rfl⟩⟩

/-- A part whose counter, wait and runs change. -/
theorem modPart_sameBut {s : State} {imm : Word} {x : Ctx} (h : s.ctx? imm = some x) (f : Part → Part)
    (hf : ∀ p, f p = { p with runs := (f p).runs, pc := (f p).pc, wait := (f p).wait }) : SameBut [] 0 imm s x (s.modPart x.r f) := by
  obtain ⟨h1, h2, h3, h4, h5, h6⟩ := ctx?_parts h
  have hq : ∀ p, (f p).quads = p.quads := fun p => by rw [hf p]
  have hb : x.v.part.quads.getLsbD x.r.quad = true := by simpa using List.find?_some h4
  refine modGang_sameBut h (F := fun g => g.modPart x.r.quad f) (p := f x.v.part) (fun _ => rfl) ?_ ?_
  · simp only [Gang.partOf?, Gang.modPart, find_quad _ f hq]
    rw [show x.v.gang.parts.find? (fun p => p.quads.getLsbD x.r.quad) = some x.v.part from h4]
    rfl
  · have hp := hf x.v.part
    constructor
    case others => simp only [Gang.modPart]; rw [filter_quad _ _ _ hb f hq]
    case pregs => intros; simp only [Part.preg]; rw [hp]
    case xregs => intros; simp only [Part.xreg]; rw [hp]
    case exec => intros; simp only []; rw [hp]
    case vregs => intros; simp only [View.vreg, Gang.modPart, Gang.vreg]; rw [hp]; rfl
    case sregs => intros; simp only [View.sreg, Gang.modPart]; rw [hp]; rfl
    case kept => simp only []; rw [hp]
    case raised => simp only []; rw [hp]; simp
    case sbelow => intros; simp only []; rw [hp]
    case part => simp only []; rw [hp]
    all_goals first | (intros; rfl) | rfl | simp

theorem ctx?_r {s t : State} {imm : Word} {x y : Ctx} (hx : s.ctx? imm = some x) (hy : t.ctx? imm = some y) (hc : t.cur = s.cur) : y.r = x.r := by
  have h1 := (ctx?_parts hx).1
  have h2 := (ctx?_parts hy).1
  rw [hc, h1] at h2
  exact (Option.some.inj h2).symm

theorem SameBut.mono {s t : State} {imm : Word} {x : Ctx} {b c : List Nat} {m n : Flags} (h : SameBut b m imm s x t) (hb : ∀ k ∈ b, k ∈ c)
    (hm : m &&& ~~~n = 0) : SameBut c n imm s x t := by
  obtain ⟨z, hz, hs⟩ := h.part
  exact ⟨h.rest, h.memory, h.cohorts, h.gangs, z, hz, hs.mono hb hm⟩

theorem SameBut.cur {s t : State} {imm : Word} {x : Ctx} {b : List Nat} {m : Flags} (h : SameBut b m imm s x t) : t.cur = s.cur := by
  rw [← h.rest]

/-- Opening a run for an instruction. -/
theorem openRun_sameBut {s : State} {imm : Word} {x : Ctx} (h : s.ctx? imm = some x) : SameBut [] 0 imm s x (s.openRun x).1 := by
  unfold State.openRun
  split
  · exact ⟨rfl, fun _ => rfl, rfl, fun _ _ _ => rfl, x, h, .refl ..⟩
  · have hs : x.v.Same [] 0 (x.v.startRun s.nextId) := by
      constructor <;> first | (intros; rfl) | rfl | simp [View.startRun]
    have := putView_sameBut (s := { s with nextId := s.nextId + 1 }) h hs rfl
    exact ⟨rfl, this.memory, this.cohorts, this.gangs, this.part⟩

/-- A plain instruction that only changes its view. -/
theorem frames_of {i : Instr} {f : Form} {imm : Word} {d : Opnd} {n : Nat} {m : Flags} {g : View → View}
    (hi : ∀ s, exec i s = issue f imm (onView g) s) (hk : f.kind = .plain)
    (hs : ∀ v : View, v.Same (regBytes d n) m (g v)) (hn : ∀ v : View, v.Kin (g v)) : Frames i f imm d n m := by
  intro s x t y s' h he
  have ht : t = (s.openRun x).1 := by
    have := h.prepared
    rw [hk] at this
    exact (Option.some.inj this).symm
  have h0 : SameBut [] 0 imm s x t := ht ▸ openRun_sameBut h.turn
  have hr : y.r = x.r := ctx?_r h.turn h.now h0.cur
  refine (h0.mono (by simp) (by simp)).trans h.now hr ?_
  rw [hi, issue_ready h] at he
  injection he with he
  rw [← he]
  simp only [onView, State.finish]
  split
  · have hw : SameBut (regBytes d n) m imm t y (t.waits y.r .room) := (modPart_sameBut h.now (fun p => { p with wait := .room }) fun _ => rfl).mono (by simp) (by simp)
    split
    · exact hw.due _
    · exact hw
  · have h1 := putView_sameBut h.now (hs y.v) (hn y.v)
    obtain ⟨z, hz, -⟩ := h1.part
    have hzr : z.r = y.r := ctx?_r h.now hz h1.cur
    have h2 := modPart_sameBut hz (fun q => { q.counted (f.kind != .plain || false) with pc := nextPc y.v.part.header y.v.part.pc f.len }) fun _ => rfl
    rw [hzr] at h2
    have h3 := h1.trans hz hzr (h2.mono (by simp) (by simp))
    unfold State.afterClose
    split
    · exact h3.due _
    · exact h3

end Sys2Proof.Machine
end

