-- ==== Sys2Proof/Laws/Flags.lean ====
section
/-!
SUPPORT. Which flags each computation can raise, once for each.
-/
namespace Sys2Proof.Machine

/-- Flags that all lie in a mask. -/
abbrev FlagsIn (m f : Flags) : Prop := f &&& ~~~m = 0

theorem flagsIn_zero (m : Flags) : FlagsIn m 0 := BitVec.zero_and

theorem flagsIn_or {m f g : Flags} (hf : FlagsIn m f) (hg : FlagsIn m g) : FlagsIn m (f ||| g) := by
  unfold FlagsIn at *
  rw [BitVec.and_comm, BitVec.and_or_distrib_left, BitVec.and_comm, hf, BitVec.and_comm, hg]
  rfl

theorem flagsIn_if {m f : Flags} (b : Bool) (hf : FlagsIn m f) : FlagsIn m (flagIf b f) := by
  cases b
  · exact flagsIn_zero m
  · exact hf

theorem flagsIn_mono {m n f : Flags} (h : FlagsIn m f) (hm : FlagsIn n m) : FlagsIn n f := by
  unfold FlagsIn at *
  apply BitVec.eq_of_getLsbD_eq
  intro i hi
  have h1 := congrArg (fun x : Flags => x.getLsbD i) h
  have h2 := congrArg (fun x : Flags => x.getLsbD i) hm
  simp [hi] at h1 h2 ⊢
  cases hn : f.getLsbD i <;> simp_all

theorem flagsIn_ite {α : Type} {m : Flags} {c : Prop} [Decidable c] {a b : α × Flags} (ha : FlagsIn m a.2) (hb : FlagsIn m b.2) :
    FlagsIn m (if c then a else b).2 := by
  split
  · exact ha
  · exact hb

theorem fit_flags (t : TypeCode) (sat : Bool) (r : Int) : FlagsIn flagOF (fit t sat r).2 := by
  unfold fit; split <;> (dsimp only; decide)

theorem divT_flags (t : TypeCode) (a b : DWord) : FlagsIn (flagDZ ||| flagOF) (divT t a b).2 := by
  simp only [divT]; repeat' split
  all_goals (dsimp only; decide)

theorem remT_flags (t : TypeCode) (a b : DWord) : FlagsIn flagDZ (remT t a b).2 := by
  simp only [remT]; repeat' split
  all_goals (dsimp only; decide)

theorem narrow_flags (n : Narrow) (w : Nat) (a : Word) : FlagsIn flagOF (narrow n w a).2 := by
  cases n
  · exact flagsIn_zero _
  · exact flagsIn_if _ (by decide)
  · exact flagsIn_if _ (by decide)

theorem packT_flags (t : TypeCode) (n : Narrow) (a b : Word) : FlagsIn flagOF (packT t n a b).2 :=
  flagsIn_or (narrow_flags ..) (narrow_flags ..)

/-- A conversion raises no DZ and no IV (R235 to R238). -/
theorem convertTo_flags (t : TypeCode) (md : RMode) (satn snan : Bool) (x : FVal) :
    FlagsIn (roundFlags ||| flagCV) (convertTo t md satn snan x).2 := by
  unfold convertTo
  split
  · cases x with
    | nan => dsimp only; split; decide; exact flagsIn_if _ (by decide)
    | zero n => dsimp only; decide
    | inf n => dsimp only; repeat' split
               all_goals (dsimp only; decide)
    | fin n m e =>
      dsimp only
      generalize roundFmt _ _ _ _ _ _ = r
      split
      · exact flagsIn_or (flagsIn_if _ (by decide)) (flagsIn_if _ (by decide))
      · repeat' split
        all_goals (dsimp only; decide)
  · split
    · cases x with
      | nan => exact flagsIn_if _ (by decide)
      | zero n => dsimp only; decide
      | inf n => dsimp only; decide
      | fin n m e =>
        dsimp only
        split
        · dsimp only; decide
        · split
          · dsimp only; decide
          · exact flagsIn_if _ (by decide)
    · cases x with
      | nan => dsimp only; decide
      | zero n => dsimp only; decide
      | inf n => dsimp only; decide
      | fin n m e =>
        dsimp only
        split
        · dsimp only; split <;> decide
        · exact flagsIn_ite (by dsimp only; decide) (flagsIn_if _ (by decide))

/-- A conversion into a format of IEEE 754 raises none but those of rounding. -/
theorem convertTo_ieee {t : TypeCode} (ht : t = .f32 ∨ t = .f16 ∨ t = .bf16) (md : RMode) (snan : Bool) (x : FVal) :
    FlagsIn roundFlags (convertTo t md false snan x).2 := by
  have h1 : (t == .e2m1) = false := by rcases ht with h | h | h <;> rw [h] <;> rfl
  have h2 : (t == .e4m3) = false := by rcases ht with h | h | h <;> rw [h] <;> rfl
  obtain ⟨f, hf⟩ : ∃ f, ffmt t = some f := by rcases ht with h | h | h <;> rw [h] <;> exact ⟨_, rfl⟩
  unfold convertTo
  rw [hf]
  simp only [h1, h2]
  cases x with
  | nan => exact flagsIn_if _ (by decide)
  | zero n => dsimp only; decide
  | inf n => dsimp only; repeat' split
             all_goals first | decide | (dsimp only; decide) | contradiction
  | fin n m e =>
    dsimp only
    generalize roundFmt _ _ _ _ _ _ = r
    split
    · exact flagsIn_or (flagsIn_if _ (by decide)) (flagsIn_if _ (by decide))
    · repeat' split
      all_goals first | decide | (dsimp only; decide) | simp_all

theorem finishFp_flags {t : TypeCode} (ht : t = .f32 ∨ t = .f16 ∨ t = .bf16) (md : RMode) (ftz nv : Bool) (x : FVal) :
    FlagsIn roundFlags (finishFp t md ftz nv x).2 := by
  have key : FlagsIn roundFlags (if ftz && isSub t (convertTo t md false false x).1 then
      (signZero t (convertTo t md false false x).1, flagUF ||| flagNX ||| flagIf nv flagNV)
    else ((convertTo t md false false x).1, (convertTo t md false false x).2 ||| flagIf nv flagNV)).2 := by
    split
    · exact flagsIn_or (by decide) (flagsIn_if _ (by decide))
    · exact flagsIn_or (convertTo_ieee ht ..) (flagsIn_if _ (by decide))
  unfold finishFp
  cases x with
  | nan => exact flagsIn_if _ (by decide)
  | _ => exact key

theorem farith_flags (o : FArith) {t : TypeCode} (ht : t = .f32 ∨ t = .f16 ∨ t = .bf16) (md : RMode) (ftz : Bool) (a b c : Nat) :
    FlagsIn roundFlags (farith o t md ftz a b c).2 := by
  cases o <;> exact finishFp_flags ht ..

theorem fminmax_flags (mx ftz : Bool) (a b : Word) : FlagsIn flagNV (fminmax mx ftz a b).2 := by
  simp only [fminmax, w32]
  repeat' split
  all_goals exact flagsIn_if _ (by decide)

theorem fcmp_flags (k : FCond) (ftz : Bool) (a b : Word) : FlagsIn flagNV (fcmp k ftz a b).2 := flagsIn_if _ (by decide)

theorem frnd_flags (md : RMode) (ftz : Bool) (a : Word) : FlagsIn flagNV (frnd md ftz a).2 := by
  simp only [frnd, w32]
  split
  · exact flagsIn_if _ (by decide)
  · dsimp only; decide
  · dsimp only; decide

theorem fscale_flags (md : RMode) (ftz : Bool) (a b : Word) : FlagsIn roundFlags (fscale md ftz a b).2 := finishFp_flags (.inl rfl) ..

theorem fdiv_flags (md : RMode) (ftz : Bool) (a b : Word) : FlagsIn (roundFlags ||| flagDZ) (fdiv md ftz a b).2 := by
  have key : ∀ nv x, FlagsIn (roundFlags ||| flagDZ) (finishFp .f32 md ftz nv x).2 := fun nv x =>
    flagsIn_mono (finishFp_flags (.inl rfl) ..) (by decide)
  simp only [fdiv, w32]
  split <;> first | exact key .. | (dsimp only; decide)

theorem fsqrt_flags (md : RMode) (ftz : Bool) (a : Word) : FlagsIn roundFlags (fsqrt md ftz a).2 := by
  have key : ∀ nv x, FlagsIn roundFlags (finishFp .f32 md ftz nv x).2 := fun nv x => finishFp_flags (.inl rfl) ..
  simp only [fsqrt, w32]
  repeat' split
  all_goals exact key ..

theorem special_flags (f : Special) (ftz : Bool) (a : Word) : FlagsIn (flagNV ||| flagDZ ||| flagOF ||| flagUF) (f.op ftz a).2 := by
  simp only [Special.op, w32, Special.result]
  split
  · exact flagsIn_if _ (by decide)
  · cases f <;> (dsimp only; decide)
  · cases f <;> dsimp only <;> repeat' split
    all_goals first | decide | exact flagsIn_if _ (by decide)
  · split
    · exact flagsIn_if _ (by decide)
    · exact flagsIn_or (flagsIn_if _ (by decide)) (flagsIn_if _ (by decide))

theorem cvt1_flags (v : View) (src t : TypeCode) (md : RMode) (o : Opnd) (l code : Nat) :
    FlagsIn (roundFlags ||| flagCV ||| flagIV) (v.cvt1 src t md o l code).2 := by
  refine flagsIn_or (flagsIn_mono (convertTo_flags ..) (by decide)) ?_
  unfold ivOf
  split
  · exact flagsIn_if _ (by decide)
  · decide

theorem ivOf_flags (b : Option Nat) : FlagsIn flagIV (ivOf b) := by
  unfold ivOf
  split
  · exact flagsIn_if _ (by decide)
  · decide

theorem dotLane_flags (t : TypeCode) (md : RMode) (n : Nat) (a b c : Word) (sa sb sc : Option Nat) :
    FlagsIn (roundFlags ||| flagIV) (dotLane t md n a b c sa sb sc).2 := by
  have key : ∀ nv x, FlagsIn (roundFlags ||| flagIV) ((finishFp .f32 md false nv x).2 ||| ivOf sa ||| ivOf sb ||| ivOf sc) :=
    fun nv x =>
    flagsIn_or (flagsIn_or (flagsIn_or (flagsIn_mono (finishFp_flags (.inl rfl) ..) (by decide))
      (flagsIn_mono (ivOf_flags _) (by decide))) (flagsIn_mono (ivOf_flags _) (by decide))) (flagsIn_mono (ivOf_flags _) (by decide))
  unfold dotLane
  extract_lets ea eb va vb is p z bad anyNan r nv f
  exact key nv r

theorem combine2_flags (t : TypeCode) (o : RedOp) (m a b : Word) : FlagsIn roundFlags (combine2 t o m a b).2 := by
  unfold combine2
  split
  · have h := farith_flags .add (.inl rfl) (modeOf m .dyn) (ftzOf m) a.toNat b.toNat 0
    generalize farith .add .f32 _ _ _ _ _ = r at h ⊢
    exact h
  · have h := flagsIn_mono (n := roundFlags) (fminmax_flags false (ftzOf m) a b) (by decide)
    generalize fminmax _ _ _ _ = r at h ⊢
    exact h
  · have h := flagsIn_mono (n := roundFlags) (fminmax_flags true (ftzOf m) a b) (by decide)
    generalize fminmax _ _ _ _ = r at h ⊢
    exact h
  all_goals (dsimp only; decide)

/-! Scans and groups of registers -/

theorem scanGo_flags (c : Word → Word → Word × Flags) (ex : Bool) (x : Nat → Word) (m : Flags) (hc : ∀ a b, FlagsIn m (c a b).2) (l : List Nat) (acc : Word) (fl : Flags)
    (h : FlagsIn m fl) : FlagsIn m (scanGo c ex x l acc fl).2.1 := by
  induction l generalizing acc fl with
  | nil => exact h
  | cons a t ih => exact ih _ _ (flagsIn_or h (hc ..))

theorem scanLanes_flags (t : TypeCode) (o : RedOp) (w : Word) (ex : Bool) (i : Word) (x : Nat → Word) (l : List Nat) :
    FlagsIn roundFlags (scanLanes (combine2 t o w) ex i x l).2.1 := by
  cases l with
  | nil => exact flagsIn_zero _
  | cons a t => exact scanGo_flags _ _ _ _ (fun _ _ => combine2_flags ..) _ _ _ (flagsIn_zero _)

theorem setVregs_kin (v w : View) (l : List Nat) (f : Nat → Nat) (g : Nat → VReg) (h : v.Kin w) : v.Kin (l.foldl (fun (w : View) j => w.setVreg (f j) (g j)) w) := by
  induction l generalizing w with
  | nil => exact h
  | cons a t ih => exact ih _ (h.trans (View.setVreg_kin ..))

theorem plus_v (n : Fin 192) (j : Nat) (h : n.val + j < 192) : (Opnd.v n).plus j = .v ⟨n.val + j, h⟩ := by
  induction j with
  | zero => rfl
  | succ k ih =>
    have := ih (by omega)
    show ((Opnd.v n).plus k).next = _
    rw [this]
    simp only [Opnd.next]
    congr 2
    show (n.val + k + 1) % 192 = _
    omega

theorem setVregs_go (v w : View) (n : Fin 192) (hn : n.val + 8 ≤ 192) (g : Nat → VReg) (l : List Nat) (hl : ∀ j ∈ l, j < 8) (h : v.Same (regBytes (.v n) 8) 0 w) :
    v.Same (regBytes (.v n) 8) 0 (l.foldl (fun (w : View) j => w.setVreg (n.val + j) (g j)) w) := by
  induction l generalizing w with
  | nil => exact h
  | cons a t ih =>
    refine ih _ (fun j hj => hl j (by simp [hj])) (h.trans ((View.setVreg_same ..).mono ?_ (by simp)))
    have ha := hl a (by simp)
    intro k hk
    simp only [List.mem_singleton] at hk
    subst hk
    refine List.mem_map.mpr ⟨a, by simpa using ha, ?_⟩
    rw [plus_v n a (by omega)]
    rfl

theorem orFlags_map (m : Flags) (l : List Nat) (f : Nat → Flags) (h : ∀ k, FlagsIn m (f k)) : FlagsIn m (orFlags (l.map f)) :=
  orFlags_in _ _ fun x hx => by
    obtain ⟨k, -, rfl⟩ := List.mem_map.mp hx
    exact h k

end Sys2Proof.Machine
end

