-- ==== Sys2Proof/Laws/Memory.lean ====
section
/-!
SUPPORT. What the operations of memory and of sidebands do to reads, and that they keep the canonical form.
-/
namespace Sys2Proof.Machine

/-! The canonical form as a proposition -/

/-- Every cell stands above a bound. -/
def Memory.above (n : Nat) (m : Memory) : Prop := ∀ c ∈ m, n < c.1
def Sides.above (n : Nat) (m : Sides) : Prop := ∀ c ∈ m, n < c.1

theorem Memory.wf_cons {a : Nat} {v : Byte} {t : Memory} :
    Memory.wf ((a, v) :: t) = true ↔ v ≠ blank ∧ Memory.above a t ∧ Memory.wf t = true := by
  induction t generalizing a v with
  | nil => simp [wf, above]
  | cons c t ih =>
    obtain ⟨b, w⟩ := c
    simp only [wf, Bool.and_eq_true, bne_iff_ne, decide_eq_true_eq]
    constructor
    · rintro ⟨⟨h1, h2⟩, h3⟩
      refine ⟨h1, fun c hc => ?_, h3⟩
      rcases List.mem_cons.mp hc with rfl | hc
      · exact h2
      · exact Nat.lt_trans h2 ((ih.mp h3).2.1 c hc)
    · rintro ⟨h1, h2, h3⟩
      exact ⟨⟨h1, h2 (b, w) (by simp)⟩, h3⟩

theorem Sides.wf_cons {a : Nat} {v : Side} {t : Sides} :
    Sides.wf ((a, v) :: t) = true ↔ v ≠ untyped ∧ Sides.above a t ∧ Sides.wf t = true := by
  induction t generalizing a v with
  | nil => simp [wf, above]
  | cons c t ih =>
    obtain ⟨b, w⟩ := c
    simp only [wf, Bool.and_eq_true, bne_iff_ne, decide_eq_true_eq]
    constructor
    · rintro ⟨⟨h1, h2⟩, h3⟩
      refine ⟨h1, fun c hc => ?_, h3⟩
      rcases List.mem_cons.mp hc with rfl | hc
      · exact h2
      · exact Nat.lt_trans h2 ((ih.mp h3).2.1 c hc)
    · rintro ⟨h1, h2, h3⟩
      exact ⟨⟨h1, h2 (b, w) (by simp)⟩, h3⟩

/-! One byte, one sideband -/

theorem Memory.read_above {n a : Nat} {m : Memory} (h : above n m) (ha : a ≤ n) : m.read a = blank := by
  cases m with
  | nil => rfl
  | cons c t =>
    have := h c (by simp)
    simp only [read]
    rw [if_neg (by omega), if_pos (by omega)]

theorem Memory.read_consCell {a b : Nat} {v : Byte} {t : Memory} (h : above a t) :
    (Memory.cons a v t).read b = if b = a then v else t.read b := by
  unfold cons
  split
  · rename_i hv
    split
    · subst_vars; exact read_above h (Nat.le_refl _)
    · rfl
  · simp only [read]
    split
    · rfl
    · split
      · rw [read_above h (by omega)]
      · rfl

/-- A byte reads as it was written, every other as before. -/
theorem Memory.read_write (m : Memory) (a b : Nat) (v : Byte) (h : m.wf = true) : (m.write a v).read b = if b = a then v else m.read b := by
  induction m with
  | nil => rw [write, read_consCell (by intro c hc; cases hc)]
  | cons c t ih =>
    obtain ⟨k, w⟩ := c
    obtain ⟨h1, h2, h3⟩ := wf_cons.mp h
    simp only [write]
    split
    · rename_i e; subst e
      rw [read_consCell h2]
      simp only [read]
      by_cases e : b = a
      · rw [if_pos e, if_pos e]
      · rw [if_neg e, if_neg e, if_neg e]
        split
        · exact read_above h2 (by omega)
        · rfl
    · split
      · rename_i h4 h5
        exact read_consCell (fun c hc => by
          rcases List.mem_cons.mp hc with rfl | hc
          · exact h5
          · exact Nat.lt_trans h5 (h2 c hc))
      · rename_i h4 h5
        simp only [read]
        rw [ih h3]
        by_cases e : b = a
        · subst e; rw [if_neg h4, if_neg h5, if_pos rfl, if_pos rfl]
        · simp only [e, if_false]

theorem Memory.above_write {n a : Nat} {v : Byte} {m : Memory} (h : above n m) (ha : n < a) : above n (m.write a v) := by
  induction m with
  | nil =>
    simp only [write, cons]
    split
    · exact h
    · intro c hc; simp only [List.mem_singleton] at hc; subst hc; exact ha
  | cons c t ih =>
    obtain ⟨k, w⟩ := c
    have ht : above n t := fun d hd => h d (by simp [hd])
    have hk : n < k := h (k, w) (by simp)
    have two : ∀ t' : Memory, above n t' → ∀ x : Nat × Byte, n < x.1 → above n (x :: t') := by
      intro t' h' x hx d hd
      rcases List.mem_cons.mp hd with rfl | hd
      · exact hx
      · exact h' d hd
    simp only [write, cons]
    split_ifs
    · exact ht
    · exact two _ ht _ ha
    · exact h
    · exact two _ h _ ha
    · exact two _ (ih ht) _ hk

/-- Writing a byte keeps the canonical form. -/
theorem Memory.wf_write (m : Memory) (a : Nat) (v : Byte) (h : m.wf = true) : (m.write a v).wf = true := by
  have none_ : above a ([] : Memory) := fun c hc => by cases hc
  induction m with
  | nil => simp only [write, cons]; split <;> simp_all [wf]
  | cons c t ih =>
    obtain ⟨k, w⟩ := c
    obtain ⟨h1, h2, h3⟩ := wf_cons.mp h
    simp only [write, cons]
    split_ifs with e1 e2 e3 e4
    · exact h3
    · subst e1; exact wf_cons.mpr ⟨e2, h2, h3⟩
    · exact h
    · refine wf_cons.mpr ⟨e4, fun c hc => ?_, h⟩
      rcases List.mem_cons.mp hc with rfl | hc
      · exact e3
      · exact Nat.lt_trans e3 (h2 c hc)
    · exact wf_cons.mpr ⟨h1, above_write h2 (by omega), ih h3⟩

theorem Memory.above_filter {n : Nat} {m : Memory} (f : Host.Cell → Bool) (h : above n m) : above n (m.filter f) :=
  fun c hc => h c (List.mem_filter.mp hc).1

/-- Keeping some cells keeps the canonical form. -/
theorem Memory.wf_filter (m : Memory) (f : Host.Cell → Bool) (h : m.wf = true) : Memory.wf (m.filter f) = true := by
  induction m with
  | nil => rfl
  | cons c t ih =>
    obtain ⟨k, w⟩ := c
    obtain ⟨h1, h2, h3⟩ := wf_cons.mp h
    rw [List.filter_cons]
    split
    · exact wf_cons.mpr ⟨h1, above_filter f h2, ih h3⟩
    · exact ih h3

/-- Writing bytes keeps the canonical form. -/
theorem Memory.wf_writeBytes (m : Memory) (a : Nat) (bs : List Byte) (h : m.wf = true) : (m.writeBytes a bs).wf = true := by
  induction bs generalizing m a with
  | nil => exact h
  | cons b t ih => exact ih _ _ (wf_write m a b h)

theorem Memory.length_readBytes (m : Memory) (a n : Nat) : (m.readBytes a n).length = n := by
  induction n generalizing a with
  | zero => rfl
  | succ n ih => simp [readBytes, ih]

theorem Sides.read_above {n a : Nat} {m : Sides} (h : above n m) (ha : a ≤ n) : m.read a = untyped := by
  cases m with
  | nil => rfl
  | cons c t =>
    have := h c (by simp)
    simp only [read]
    rw [if_neg (by omega), if_pos (by omega)]

theorem Sides.read_consCell {a b : Nat} {v : Side} {t : Sides} (h : above a t) :
    (Sides.cons a v t).read b = if b = a then v else t.read b := by
  unfold cons
  split
  · rename_i hv
    split
    · subst_vars; exact read_above h (Nat.le_refl _)
    · rfl
  · simp only [read]
    split
    · rfl
    · split
      · rw [read_above h (by omega)]
      · rfl

/-- A sideband reads as it was written, every other as before. -/
theorem Sides.read_write (m : Sides) (a b : Nat) (v : Side) (h : m.wf = true) : (m.write a v).read b = if b = a then v else m.read b := by
  induction m with
  | nil => rw [write, read_consCell (by intro c hc; cases hc)]
  | cons c t ih =>
    obtain ⟨k, w⟩ := c
    obtain ⟨h1, h2, h3⟩ := wf_cons.mp h
    simp only [write]
    split
    · rename_i e; subst e
      rw [read_consCell h2]
      simp only [read]
      by_cases e : b = a
      · rw [if_pos e, if_pos e]
      · rw [if_neg e, if_neg e, if_neg e]
        split
        · exact read_above h2 (by omega)
        · rfl
    · split
      · rename_i h4 h5
        exact read_consCell (fun c hc => by
          rcases List.mem_cons.mp hc with rfl | hc
          · exact h5
          · exact Nat.lt_trans h5 (h2 c hc))
      · rename_i h4 h5
        simp only [read]
        rw [ih h3]
        by_cases e : b = a
        · subst e; rw [if_neg h4, if_neg h5, if_pos rfl, if_pos rfl]
        · simp only [e, if_false]

theorem Sides.above_write {n a : Nat} {v : Side} {m : Sides} (h : above n m) (ha : n < a) : above n (m.write a v) := by
  induction m with
  | nil =>
    simp only [write, cons]
    split
    · exact h
    · intro c hc; simp only [List.mem_singleton] at hc; subst hc; exact ha
  | cons c t ih =>
    obtain ⟨k, w⟩ := c
    have ht : above n t := fun d hd => h d (by simp [hd])
    have hk : n < k := h (k, w) (by simp)
    have two : ∀ t' : Sides, above n t' → ∀ x : Nat × Side, n < x.1 → above n (x :: t') := by
      intro t' h' x hx d hd
      rcases List.mem_cons.mp hd with rfl | hd
      · exact hx
      · exact h' d hd
    simp only [write, cons]
    split_ifs
    · exact ht
    · exact two _ ht _ ha
    · exact h
    · exact two _ h _ ha
    · exact two _ (ih ht) _ hk

/-- Writing a sideband keeps the canonical form. -/
theorem Sides.wf_write (m : Sides) (a : Nat) (v : Side) (h : m.wf = true) : (m.write a v).wf = true := by
  induction m with
  | nil => simp only [write, cons]; split <;> simp_all [wf]
  | cons c t ih =>
    obtain ⟨k, w⟩ := c
    obtain ⟨h1, h2, h3⟩ := wf_cons.mp h
    simp only [write, cons]
    split_ifs with e1 e2 e3 e4
    · exact h3
    · subst e1; exact wf_cons.mpr ⟨e2, h2, h3⟩
    · exact h
    · refine wf_cons.mpr ⟨e4, fun c hc => ?_, h⟩
      rcases List.mem_cons.mp hc with rfl | hc
      · exact e3
      · exact Nat.lt_trans e3 (h2 c hc)
    · exact wf_cons.mpr ⟨h1, above_write h2 (by omega), ih h3⟩

theorem Sides.above_filter {n : Nat} {m : Sides} (f : Nat × Side → Bool) (h : above n m) : above n (m.filter f) :=
  fun c hc => h c (List.mem_filter.mp hc).1

/-- Keeping some sidebands keeps the canonical form. -/
theorem Sides.wf_filter (m : Sides) (f : Nat × Side → Bool) (h : m.wf = true) : Sides.wf (m.filter f) = true := by
  induction m with
  | nil => rfl
  | cons c t ih =>
    obtain ⟨k, w⟩ := c
    obtain ⟨h1, h2, h3⟩ := wf_cons.mp h
    rw [List.filter_cons]
    split
    · exact wf_cons.mpr ⟨h1, above_filter f h2, ih h3⟩
    · exact ih h3

end Sys2Proof.Machine
end

