-- ==== Sys2Proof/Laws/Reads.lean ====
section
/-!
SUPPORT. What loads and stores leave alone: reads change no byte of memory, checks of a buffer change nothing, a load's destination
lies within its registers, and a buffered piece is what its part reads there afterwards (R282 to R284).
-/
namespace Sys2Proof.Machine

theorem retireGang_mem (s : State) (r : PartRef) : (s.retireGang r).mem = s.mem := rfl
theorem unmade_mem (s : State) (l : List Nat) : (s.unmade l).mem = s.mem := rfl
theorem rollback_mem (s : State) (r : PartRef) (c : Bool) : (s.rollback r c).mem = s.mem := by
  unfold State.rollback; split
  · rfl
  · split
    · rfl
    · rw [retireGang_mem, unmade_mem]; rfl
theorem strike_mem (s : State) (line : Nat) (a : Access) (me : Option Nat) : (s.strike line a me).mem = s.mem := by
  unfold State.strike
  generalize s.allParts = l
  have : ∀ (l : List (PartRef × Part)) (t : State), (l.foldl (fun t x => if me != some x.2.id && s.strikes line a x.2 then t.rollback x.1 true else t) t).mem = t.mem := by
    intro l
    induction l with
    | nil => intro t; rfl
    | cons x k ih =>
      intro t
      rw [List.foldl_cons, ih]
      split
      · exact rollback_mem ..
      · rfl
  exact this l s
theorem readLine_mem (s : State) (x : Ctx) (a n : Nat) : (s.readLine x a n).mem = s.mem := by
  unfold State.readLine
  dsimp only
  split
  · exact strike_mem ..
  · rfl
theorem readAll_mem (u : State) (w : Ctx) (ps : List Piece) : (u.readAll w ps).mem = u.mem := by
  unfold State.readAll
  induction ps generalizing u with
  | nil => rfl
  | cons p t ih => rw [List.foldl_cons, ih]; exact readLine_mem ..
theorem checkElem_local {z : Space} (hz : z ≠ .glob) (x : Ctx) (h : How) (e : Elem) (s : State) : (s.checkElem x z h e).2 = s := by
  unfold State.checkElem
  cases z <;> first | exact absurd rfl hz | (dsimp only; split <;> [rfl; (split <;> rfl)])
theorem checkElems_local {z : Space} (hz : z ≠ .glob) (x : Ctx) (h : How) (es : List Elem) (s : State) : (State.checkElems x z h es s).2 = s := by
  induction es generalizing s with
  | nil => rfl
  | cons e t ih => simp only [State.checkElems]; rw [ih, checkElem_local hz]
theorem loadFrames_of {i : Instr} {f : Form} {imm : Word} {z : Space} {h : How} {es : Ctx → List Elem} {P : State → Ctx → List Piece → Prop}
    {b : List Nat} {sem : Sem} {g : State → Ctx → View → View} (hi : ∀ s, exec i s = issue f imm sem s) (hk : f.kind = .plain)
    (hs : ∀ t y, y.v.imm = imm → Clear z h es t y → Readable (found z h es t y).2 ((found z h es t y).2.fresh y) (found z h es t y).1.ok →
      P (found z h es t y).2 ((found z h es t y).2.fresh y) (found z h es t y).1.ok →
      ∀ w, (hasRead z h es t y).ctx? imm = some w → sem t y = .fall ((hasRead z h es t y).putView w.r (g t y w.v)) false)
    (hg : ∀ t y v, View.Same b 0 v (g t y v)) (hn : ∀ t y v, View.Kin v (g t y v)) : LoadFrames i f imm z h es P b := by
  intro s x t y w s' hr hc hrd hP hw hwr he
  have ht : t = (s.openRun x).1 := by
    have := hr.prepared
    rw [hk] at this
    exact (Option.some.inj this).symm
  have h0 : SameBut [] 0 imm s x t := ht ▸ openRun_sameBut hr.turn
  have hm : (hasRead z h es t y).mem = (found z h es t y).2.mem := readAll_mem ..
  have hy : y.v.imm = imm := ctx?_imm hr.now
  rw [hi, issue_ready hr, hs t y hy hc hrd hP w hw] at he
  injection he with he
  have key : SameBut b 0 imm (hasRead z h es t y) w s' ∨ SameBut [] 0 imm t y s' := by
    rw [← he]
    simp only [State.finish]
    split
    · right
      have hw : SameBut [] 0 imm t y (t.waits y.r .room) := (modPart_sameBut hr.now (fun p => { p with wait := .room }) fun _ => rfl)
      split
      · exact hw.due _
      · exact hw
    · left
      have h1 := putView_sameBut hw (hg t y w.v) (hn t y w.v)
      obtain ⟨z', hz, -⟩ := h1.part
      have hzr : z'.r = w.r := ctx?_r hw hz h1.cur
      have h2 := modPart_sameBut hz (fun q => { q.counted (f.kind != .plain || false) with pc := nextPc y.v.part.header y.v.part.pc f.len }) fun _ => rfl
      rw [hzr] at h2
      have h3 := h1.trans hz hzr (h2.mono (by simp) (by simp))
      unfold State.afterClose
      rw [← hwr]
      split
      · exact h3.due _
      · exact h3
  refine ⟨key, fun a => by rw [hm], fun hz a => ?_⟩
  rcases key with k | k
  · rw [k.memory, hm]
    have : (found z h es t y).2 = t := checkElems_local hz ..
    rw [this, h0.memory]
  · rw [k.memory, h0.memory]
theorem putLoad_same (v : View) (uni : Bool) (act : Word) (d : Opnd) (t : TypeCode) (sx : Bool) (data : Nat → List Byte) :
    v.Same (regBytes d t.regs) 0 (v.putLoad uni act d t sx data) := by
  unfold View.putLoad
  have : ∀ (l : List Nat) (w : View), (∀ k ∈ l, k < t.regs) → v.Same (regBytes d t.regs) 0 w →
      v.Same (regBytes d t.regs) 0 (l.foldl (fun (w : View) k => w.wr32 (d.plus k) (if uni then [0] else laneList act) act fun l => loadWord t sx (data l) k) w) := by
    intro l
    induction l with
    | nil => intro w _ h; exact h
    | cons k l ih =>
      intro w hl h
      refine ih _ (fun j hj => hl j (by simp [hj])) (h.trans ((View.wr32_same ..).mono ?_ (by simp)))
      intro j hj
      simp only [List.mem_singleton] at hj
      subst hj
      exact List.mem_map.mpr ⟨k, by simpa using hl k (by simp), rfl⟩
  exact this _ _ (fun k hk => by simpa using hk) (.refl ..)
theorem putLoad_kin (v : View) (uni : Bool) (act : Word) (d : Opnd) (t : TypeCode) (sx : Bool) (data : Nat → List Byte) : v.Kin (v.putLoad uni act d t sx data) := by
  unfold View.putLoad
  have : ∀ (l : List Nat) (w : View), v.Kin w → v.Kin (l.foldl (fun (w : View) k => w.wr32 (d.plus k) (if uni then [0] else laneList act) act fun l => loadWord t sx (data l) k) w) := by
    intro l
    induction l with
    | nil => intro w h; exact h
    | cons k l ih => intro w h; exact ih _ (h.trans (View.wr32_kin ..))
  exact this _ _ rfl
theorem loadFrames_ld {i : Instr} {f : Form} {imm : Word} {z : Space} {p : Pred} {t : TypeCode} {sx : Bool} {d a : Opnd} {len : Nat}
    (hi : ∀ s, exec i s = issue f imm (loadSem z p t sx d a len) s) (hk : f.kind = .plain) :
    LoadFrames i f imm z howLoad (loadElems z p t d a) (fun _ _ _ => True) (regBytes d t.regs) := by
  refine loadFrames_of (sem := loadSem z p t sx d a len)
    (g := fun u y v => v.putLoad (oneAccess [a, d]) (y.v.act p) d t sx (elemBytes (found z howLoad (loadElems z p t d a) u y).1.ok
      ((found z howLoad (loadElems z p t d a) u y).2.pieceBytes ((found z howLoad (loadElems z p t d a) u y).2.fresh y)) (oneAccess [a, d])))
    hi hk (fun u y hy hc hr _ w hw => ?_) (fun _ _ _ => putLoad_same ..) (fun _ _ _ => putLoad_kin ..)
  have e : loadSem z p t sx d a len u y = u.access y (y.v.act p) z howLoad (oneAccess [a, d]) (.ld d t sx) len (loadElems z p t d a y) (fun q => .load q.len)
      fun s x ps => readHere z (oneAccess [a, d]) (y.v.act p) (fun s x rd => .fall (s.putView x.r (x.v.putLoad (oneAccess [a, d]) (y.v.act p) d t sx (elemBytes ps rd (oneAccess [a, d])))) false) s x ps := rfl
  rw [e, access_clear hc, readHere_ready hr]
  have hf : (hasRead z howLoad (loadElems z p t d a) u y).fresh ((found z howLoad (loadElems z p t d a) u y).2.fresh y) = w := by
    unfold State.fresh at *
    have hi : ((found z howLoad (loadElems z p t d a) u y).2.fresh y).v.imm = imm := by rw [fresh_imm, hy]
    unfold State.fresh at hi
    rw [hi, hw]; rfl
  show Done.fall ((hasRead z howLoad (loadElems z p t d a) u y).putView ((hasRead z howLoad (loadElems z p t d a) u y).fresh _).r _) false = _
  have hf' := hf
  unfold hasRead at hf' ⊢
  rw [hf']
theorem checkPieces_ok (x : Ctx) (h : How) (l : Nat) (va : DWord) (ps : List (Nat × Nat)) (s : State) : (State.checkPieces x h l va ps s).1.ok.length ≤ ps.length := by
  induction ps generalizing s with
  | nil => exact Nat.le_refl _
  | cons p t ih =>
    obtain ⟨o, n⟩ := p
    simp only [State.checkPieces]
    split
    · simp
    · simp
    · have := ih (s.checkPiece x h l (va + BitVec.ofNat 64 o) o n).2
      simp only [List.length_cons]; omega
theorem mixElem_ok (s : State) (x : Ctx) (h : How) (l : Nat) (va : DWord) (n : Nat) (r : Found) : (s.mixElem x h l va n r).1.ok.length ≤ r.ok.length := by
  unfold State.mixElem
  split
  · generalize State.mixChecks _ _ _ _ _ = m
    dsimp only
    split <;> simp
  · exact Nat.le_refl _
theorem checkElem_ok (s : State) (x : Ctx) (h : How) (e : Elem) (he : 16 < e.len) : (s.checkElem x .glob h e).1.ok.length ≤ 1 := by
  unfold State.checkElem
  dsimp only
  split
  · simp
  · split
    · simp
    · refine Nat.le_trans (mixElem_ok ..) (Nat.le_trans (checkPieces_ok ..) ?_)
      simp [he]
theorem checkElems_ok (x : Ctx) (h : How) (es : List Elem) (s : State) (he : ∀ e ∈ es, 16 < e.len) : (State.checkElems x .glob h es s).1.ok.length ≤ es.length := by
  induction es generalizing s with
  | nil => exact Nat.le_refl _
  | cons e t ih =>
    have h1 := checkElem_ok s x h e (he e (by simp))
    have h2 := ih (s.checkElem x .glob h e).2 (fun e he' => he e (by simp [he']))
    simp only [State.checkElems, List.length_append, List.length_cons]; omega
theorem rowsAt_len (v : View) (p : Pred) (a : Opnd) (r : Nat) : (v.rowsAt p a r).length ≤ 2 * r ∧ ∀ e ∈ v.rowsAt p a r, 16 < e.len := by
  unfold View.rowsAt rowElems
  split
  · simp
  · simp
theorem putRows_same (v w : View) (b : List Nat) (d : Nat) (ls : List RowLine) (h : v.Same b 0 w) (hd : ∀ k < ls.length / 2, d + k ∈ b) : v.Same b 0 (w.putRows d ls) := by
  match ls with
  | [] => exact h
  | [_] => exact h
  | lo :: hi :: t =>
    simp only [View.putRows]
    refine putRows_same v _ b (d + 1) t (h.trans ((View.setVreg_same ..).mono ?_ (by simp))) (fun k hk => ?_)
    · intro k hk; simp only [List.mem_singleton] at hk; subst hk; exact hd 0 (by simp only [List.length_cons]; omega)
    · have := hd (k + 1) (by simp only [List.length_cons]; omega)
      rwa [show d + (k + 1) = d + 1 + k by omega] at this
theorem putRows_kin (v w : View) (d : Nat) (ls : List RowLine) (h : v.Kin w) : v.Kin (w.putRows d ls) := by
  match ls with
  | [] => exact h
  | [_] => exact h
  | lo :: hi :: t => simp only [View.putRows]; exact putRows_kin v _ _ t (h.trans (View.setVreg_kin ..))
theorem putWide_same (v w : View) (b : List Nat) (d : Nat) (t src : TypeCode) (lo hi : RowLine) (h : v.Same b 0 w) (hd : ∀ k < 16 / elemBits src, d + k ∈ b) :
    v.Same b 0 (w.putWide d t src lo hi) := by
  unfold View.putWide
  dsimp only
  have : ∀ (l : List Nat) (u : View) (f : Nat → Tag) (g : Nat → Nat → Word), (∀ k ∈ l, k < 16 / elemBits src) → v.Same b 0 u → v.Same b 0 (l.foldl (fun (w : View) j => w.putRow (d + j) (f j) (g j)) u) := by
    intro l
    induction l with
    | nil => intro u f g _ h; exact h
    | cons k l ih =>
      intro u f g hl h
      refine ih _ f g (fun j hj => hl j (by simp [hj])) (h.trans ((View.setVreg_same ..).mono ?_ (by simp)))
      intro j hj; simp only [List.mem_singleton] at hj; subst hj; exact hd k (hl k (by simp))
  exact this _ _ _ _ (fun k hk => by simpa using hk) h
theorem putWide_kin (v w : View) (d : Nat) (t src : TypeCode) (lo hi : RowLine) (h : v.Kin w) : v.Kin (w.putWide d t src lo hi) := by
  unfold View.putWide
  dsimp only
  have : ∀ (l : List Nat) (u : View) (f : Nat → Tag) (g : Nat → Nat → Word), v.Kin u → v.Kin (l.foldl (fun (w : View) j => w.putRow (d + j) (f j) (g j)) u) := by
    intro l
    induction l with
    | nil => intro u f g h; exact h
    | cons k l ih => intro u f g h; exact ih _ f g (h.trans (View.setVreg_kin ..))
  exact this _ _ _ _ h
theorem putWides_same (v w : View) (b : List Nat) (d : Nat) (t src : TypeCode) (ls : List RowLine) (h : v.Same b 0 w) (hd : ∀ k < ls.length / 2 * (16 / elemBits src), d + k ∈ b) :
    v.Same b 0 (w.putWides d t src ls) := by
  match ls with
  | [] => exact h
  | [_] => exact h
  | lo :: hi :: r =>
    simp only [View.putWides]
    have e : (lo :: hi :: r).length / 2 = r.length / 2 + 1 := by simp only [List.length_cons]; omega
    rw [e, Nat.add_mul] at hd
    refine putWides_same v _ b _ t src r (putWide_same v w b d t src lo hi h fun k hk => hd k (by omega)) (fun k hk => ?_)
    have := hd (16 / elemBits src + k) (by omega)
    rwa [← Nat.add_assoc] at this
theorem putWides_kin (v w : View) (d : Nat) (t src : TypeCode) (ls : List RowLine) (h : v.Kin w) : v.Kin (w.putWides d t src ls) := by
  match ls with
  | [] => exact h
  | [_] => exact h
  | lo :: hi :: r => simp only [View.putWides]; exact putWides_kin v _ _ t src r (putWide_kin _ _ _ _ _ _ _ h)
theorem loadFrames_rows {i : Instr} {f : Form} {imm : Word} {p : Pred} {a : Opnd} {rows : Nat} {op : PendOp} {len : Nat} {want : Option Nat}
    {put : View → List RowLine → View} {b : List Nat}
    (hi : ∀ s, exec i s = issue f imm (rowLoadSem p a rows op len) s) (hk : f.kind = .plain)
    (hop : ∀ s x act ls, rowsFault want ls = none → rowsDone s x op act ls = .fall (s.putView x.r (put x.v ls)) false)
    (hb : ∀ v ls, ls.length ≤ 2 * rows → View.Same b 0 v (put v ls)) (hkn : ∀ v ls, View.Kin v (put v ls)) :
    LoadFrames i f imm .glob (howRows .load) (fun y => y.v.rowsAt p a rows) (fun u w ps => rowsFault want (rowLines u w ps) = none) b := by
  have hl : ∀ (u : State) (y : Ctx), (rowLines (found .glob (howRows .load) (fun y => y.v.rowsAt p a rows) u y).2
      ((found .glob (howRows .load) (fun y => y.v.rowsAt p a rows) u y).2.fresh y) (found .glob (howRows .load) (fun y => y.v.rowsAt p a rows) u y).1.ok).length ≤ 2 * rows := by
    intro u y
    unfold rowLines
    rw [List.length_map]
    obtain ⟨h1, h2⟩ := rowsAt_len y.v p a rows
    exact Nat.le_trans (checkElems_ok _ _ _ _ h2) h1
  refine loadFrames_of (sem := rowLoadSem p a rows op len)
    (g := fun u y v => put v (rowLines (found .glob (howRows .load) (fun y => y.v.rowsAt p a rows) u y).2
      ((found .glob (howRows .load) (fun y => y.v.rowsAt p a rows) u y).2.fresh y) (found .glob (howRows .load) (fun y => y.v.rowsAt p a rows) u y).1.ok))
    hi hk (fun u y hy hc hr hP w hw => ?_) (fun u y v => hb v _ (hl u y)) (fun _ _ _ => hkn ..)
  have e : rowLoadSem p a rows op len u y = u.access y (y.v.act p) .glob (howRows .load) true op len (y.v.rowsAt p a rows) (fun q => .load q.len)
      fun s x ps => readHere .glob true (y.v.act p) (fun s' x' rd => rowsDone s' x' op (y.v.act p) (ps.map fun q => ⟨q.va, rd q, s.sideOwn x.v.part.id (q.x.addr / 64)⟩)) s x ps := rfl
  rw [e, access_clear (es := fun y => y.v.rowsAt p a rows) hc, readHere_ready hr]
  have hf : (hasRead .glob (howRows .load) (fun y => y.v.rowsAt p a rows) u y).fresh ((found .glob (howRows .load) (fun y => y.v.rowsAt p a rows) u y).2.fresh y) = w := by
    have hi : ((found .glob (howRows .load) (fun y => y.v.rowsAt p a rows) u y).2.fresh y).v.imm = imm := by rw [fresh_imm, hy]
    unfold State.fresh at hi ⊢
    rw [hi, hw]; rfl
  refine (congrArg (Done.forget u) (hop _ _ _ _ hP)).trans ?_
  simp only [Done.forget]
  unfold hasRead at hf ⊢
  rw [hf]

/-- The byte that a part's own entries, or storage, give. -/
theorem readOwn_one (s : State) (own pid a : Nat) : s.readOwn own pid a 1 = [(forwarded (s.ownOn pid (a / 64)) (a % 64)).getD (s.byteAs own a)] := by
  simp [State.readOwn, List.range_succ]
theorem byteAs_stores (s t : State) (own a : Nat) (h1 : t.mem = s.mem) (h2 : t.owners = s.owners) (h3 : t.parts = s.parts) (h4 : t.pkg = s.pkg) :
    t.byteAs own a = s.byteAs own a := by
  have e1 : ∀ n, t.partition? n = s.partition? n := fun n => by unfold State.partition?; rw [h3]
  have e2 : ∀ n, t.keyOf n = s.keyOf n := fun n => by unfold State.keyOf; rw [e1, h4]
  have e4 : ∀ n, t.cell n = s.cell n := fun n => by unfold State.cell State.farWindow; rw [h4]
  have e3 : ∀ n, t.foreign own n = s.foreign own n := fun n => by unfold State.foreign; rw [h2, e2, e4]
  unfold State.byteAs
  rw [e3, e2, h1, e4]
theorem put_mask (e : StoreEntry) (off : Nat) (bs : List Byte) (side : Side) (leaves : List (Nat × Option DWord)) (i : Nat) (hi : i < 64) :
    (e.put off bs side leaves).mask.getLsbD i = (e.mask.getLsbD i || (decide (off ≤ i) && decide (i < off + bs.length))) := by
  unfold StoreEntry.put
  have : ∀ (l : List Nat) (m : BitVec 64), (l.foldl (fun m i => m ||| ((1#64 : BitVec 64) <<< (off + i))) m).getLsbD i = (m.getLsbD i || decide (∃ k ∈ l, off + k = i)) := by
    intro l
    induction l with
    | nil => intro m; simp
    | cons k l ih =>
      intro m
      rw [List.foldl_cons, ih, BitVec.getLsbD_or, Bool.or_assoc]
      congr 1
      have : ((1#64 : BitVec 64) <<< (off + k)).getLsbD i = decide (off + k = i) := by
        rw [BitVec.getLsbD_shiftLeft]
        by_cases h : i < off + k
        · simp [h]; omega
        · by_cases h2 : off + k = i
          · subst h2; simp [hi]
          · simp [h, h2, hi]; omega
      rw [this]
      simp only [List.mem_cons, exists_eq_or_imp]
      simp
  show (List.foldl _ e.mask (List.range bs.length)).getLsbD i = _
  rw [this]
  congr 1
  simp only [List.mem_range]
  rw [← Bool.decide_and, decide_eq_decide]
  constructor
  · rintro ⟨k, hk, rfl⟩; omega
  · rintro ⟨h1, h2⟩; exact ⟨i - off, by omega, by omega⟩
theorem put_data (e : StoreEntry) (off : Nat) (bs : List Byte) (side : Side) (leaves : List (Nat × Option DWord)) (i : Nat) (hi : i < 64) :
    (e.put off bs side leaves).data.getD i 0 = if off ≤ i ∧ i < off + bs.length then bs.getD (i - off) 0 else e.data.getD i 0 := by
  unfold StoreEntry.put
  simp [List.getD_eq_getElem?_getD, hi]
/-- The entry at the head forwards what it holds. -/
theorem forwarded_cons (e : StoreEntry) (es : List StoreEntry) (i : Nat) (hr : e.red = none) :
    forwarded (e :: es) i = if e.mask.getLsbD i then some (e.data.getD i 0) else forwarded es i := by
  unfold forwarded
  rw [List.find?_cons]
  cases h : e.mask.getLsbD i <;> simp [hr]
theorem forwarded_put (e : StoreEntry) (es : List StoreEntry) (off : Nat) (bs : List Byte) (side : Side) (leaves : List (Nat × Option DWord)) (i : Nat) (hi : i < 64)
    (hr : e.red = none) :
    forwarded (e.put off bs side leaves :: es) i = if off ≤ i ∧ i < off + bs.length then some (bs.getD (i - off) 0) else forwarded (e :: es) i := by
  rw [forwarded_cons _ _ _ (show (e.put off bs side leaves).red = none from hr), put_mask _ _ _ _ _ _ hi, put_data _ _ _ _ _ _ hi, forwarded_cons _ _ _ hr]
  by_cases h : off ≤ i ∧ i < off + bs.length
  · have h1 := h.1; have h2 := h.2; simp [h1, h2]
  · have : (decide (off ≤ i) && decide (i < off + bs.length)) = false := by
      rw [← Bool.decide_and]; exact decide_eq_false h
    rw [this, Bool.or_false, if_neg h, if_neg h]
theorem filter_map_put (l : List StoreEntry) (e e' : StoreEntry) (p : StoreEntry → Bool) (hp : p e' = p e) :
    (l.map fun d => if d = e then e' else d).filter p = (l.filter p).map fun d => if d = e then e' else d := by
  induction l with
  | nil => rfl
  | cons d t ih =>
    simp only [List.map_cons, List.filter_cons]
    by_cases h : d = e
    · subst h
      simp only [if_true, hp]
      split
      · rw [ih, List.map_cons, if_pos rfl]
      · exact ih
    · simp only [if_neg h]
      split
      · rw [ih, List.map_cons, if_neg h]
      · exact ih
/-- An older entry that equals the head changes nothing that the head already forwards. -/
theorem forwarded_map (e : StoreEntry) (l : List StoreEntry) (off : Nat) (bs : List Byte) (side : Side) (leaves : List (Nat × Option DWord)) (i : Nat) (hi : i < 64)
    (hr : e.red = none) (hne : ¬(off ≤ i ∧ i < off + bs.length)) :
    forwarded (l.map fun d => if d = e then e.put off bs side leaves else d) i = forwarded l i := by
  induction l with
  | nil => rfl
  | cons d t ih =>
    rw [List.map_cons]
    by_cases h : d = e
    · subst h
      rw [if_pos rfl, forwarded_put _ _ _ _ _ _ _ hi hr, if_neg hne, forwarded_cons _ _ _ hr, forwarded_cons _ _ _ hr, ih]
    · rw [if_neg h]
      unfold forwarded at ih ⊢
      rw [List.find?_cons, List.find?_cons]
      split
      · rfl
      · exact ih
theorem storePiece_read (s : State) (x : Ctx) (p : Piece) (bs : List Byte) (side : Side) (hd : x.v.part.direct = false) (own pid a : Nat) :
    (s.storePiece x p bs side).readOwn own pid a 1 =
      if pid = x.v.part.id ∧ covers p bs.length a = true then [bs.getD (a - p.x.addr) 0] else s.readOwn own pid a 1 := by
  have ha : a % 64 < 64 := Nat.mod_lt _ (by decide)
  have hcov : covers p bs.length a = true ↔ (a / 64 = p.x.addr / 64 ∧ p.x.addr % 64 ≤ a % 64 ∧ a % 64 < p.x.addr % 64 + bs.length) := by
    unfold covers
    simp only [Bool.and_eq_true, decide_eq_true_eq, beq_iff_eq]
    constructor
    · rintro ⟨⟨h1, h2⟩, h3⟩; omega
    · rintro ⟨h1, h2, h3⟩; omega
  rw [readOwn_one, readOwn_one]
  unfold State.storePiece
  rw [if_neg (by simp [hd])]
  split
  · rename_i e he
    have hmem : (∃ es, s.ownOn x.v.part.id (p.x.addr / 64) = e :: es) ∧ e.red = none := by
      unfold State.openEntry at he
      split at he
      · rename_i e' es heq
        split at he
        · rename_i hc; injection he with he; subst he
          exact ⟨⟨es, heq⟩, by simp only [Bool.and_eq_true, Option.isNone_iff_eq_none] at hc; exact hc.1.1⟩
        · cases he
      · cases he
    obtain ⟨⟨es, hes⟩, hred⟩ := hmem
    have hin : e ∈ s.ownOn x.v.part.id (p.x.addr / 64) := by rw [hes]; simp
    have hpe : e.part = x.v.part.id ∧ e.line = p.x.addr / 64 := by
      simp only [State.ownOn, List.mem_reverse, List.mem_filter, Bool.and_eq_true, beq_iff_eq] at hin; exact hin.2
    have hby : ∀ st, ({ s with stores := st } : State).byteAs own a = s.byteAs own a := fun st => byteAs_stores _ _ _ _ rfl rfl rfl rfl
    rw [hby]
    have ho : ∀ q l, ({ s with stores := s.stores.map fun d => if d = e then d.put (p.x.addr % 64) bs side p.x.leaves else d } : State).ownOn q l =
        (s.ownOn q l).map fun d => if d = e then e.put (p.x.addr % 64) bs side p.x.leaves else d := by
      intro q l
      have : (s.stores.map fun d => if d = e then d.put (p.x.addr % 64) bs side p.x.leaves else d) = s.stores.map fun d => if d = e then e.put (p.x.addr % 64) bs side p.x.leaves else d := by
        apply List.map_congr_left; intro d _; split
        · rename_i h; rw [h]
        · rfl
      simp only [State.ownOn]
      rw [this, filter_map_put _ e (e.put (p.x.addr % 64) bs side p.x.leaves) (fun e => e.part == q && e.line == l) rfl, List.map_reverse]
    rw [ho]
    by_cases hc : pid = x.v.part.id ∧ covers p bs.length a = true
    · rw [if_pos hc]
      obtain ⟨rfl, hc2⟩ := hc
      obtain ⟨h1, h2, h3⟩ := hcov.mp hc2
      rw [h1, hes, List.map_cons, if_pos rfl, forwarded_put _ _ _ _ _ _ _ ha hred, if_pos ⟨h2, h3⟩]
      have : a % 64 - p.x.addr % 64 = a - p.x.addr := by omega
      rw [this]; rfl
    · rw [if_neg hc]
      congr 2
      by_cases hq : pid = x.v.part.id ∧ a / 64 = p.x.addr / 64
      · exact forwarded_map _ _ _ _ _ _ _ ha hred (fun hh => hc ⟨hq.1, hcov.mpr ⟨hq.2, hh⟩⟩)
      · have : ∀ d ∈ s.ownOn pid (a / 64), d ≠ e := by
          rintro d hd' rfl
          simp only [State.ownOn, List.mem_reverse, List.mem_filter, Bool.and_eq_true, beq_iff_eq] at hd'
          exact hq ⟨hd'.2.1.symm.trans hpe.1, hd'.2.2.symm.trans hpe.2⟩
        have : (s.ownOn pid (a / 64)).map (fun d => if d = e then e.put (p.x.addr % 64) bs side p.x.leaves else d) = s.ownOn pid (a / 64) := by
          rw [List.map_congr_left (g := id) (fun d hd' => by rw [if_neg (this d hd')]; rfl), List.map_id]
        rw [this]
  · have hby : ∀ e, (s.addEntry e).byteAs own a = s.byteAs own a := fun e => byteAs_stores _ _ _ _ rfl rfl rfl rfl
    rw [hby]
    generalize hE : (s.newEntry x (p.x.addr / 64) none []).put (p.x.addr % 64) bs side p.x.leaves = E
    have hEp : E.part = x.v.part.id := by rw [← hE]; rfl
    have hEl : E.line = p.x.addr / 64 := by rw [← hE]; rfl
    have ho : ∀ q l, (s.addEntry E).ownOn q l = if q = x.v.part.id ∧ l = p.x.addr / 64 then E :: s.ownOn q l else s.ownOn q l := by
      intro q l
      show ((s.stores ++ [E]).filter fun e => e.part == q && e.line == l).reverse = _
      rw [List.filter_append, List.reverse_append, List.filter_cons]
      by_cases h : q = x.v.part.id ∧ l = p.x.addr / 64
      · rw [if_pos h, if_pos (by simp [hEp, hEl, h.1, h.2])]; rfl
      · rw [if_neg h, if_neg (by simp only [Bool.and_eq_true, beq_iff_eq, hEp, hEl]; exact fun hh => h ⟨hh.1.symm, hh.2.symm⟩)]; rfl
    rw [ho]
    by_cases hc : pid = x.v.part.id ∧ covers p bs.length a = true
    · obtain ⟨h1, h2, h3⟩ := hcov.mp hc.2
      rw [if_pos hc, if_pos ⟨hc.1, h1⟩, ← hE, forwarded_put _ _ _ _ _ _ _ ha rfl, if_pos ⟨h2, h3⟩]
      have : a % 64 - p.x.addr % 64 = a - p.x.addr := by omega
      rw [this]; rfl
    · rw [if_neg hc]
      congr 2
      split
      · rename_i hq
        rw [← hE, forwarded_put _ _ _ _ _ _ _ ha rfl, if_neg (fun hh => hc ⟨hq.1, hcov.mpr ⟨hq.2, hh⟩⟩), forwarded_cons _ _ _ rfl, if_neg]
        show ¬ (0 : BitVec 64).getLsbD (a % 64) = true
        simp
      · rfl

theorem storePiece_others (s : State) (x : Ctx) (p : Piece) (bs : List Byte) (side : Side) (hd : x.v.part.direct = false) :
    { s.storePiece x p bs side with stores := s.stores, agenda := s.agenda, nextId := s.nextId } = s := by
  unfold State.storePiece
  rw [if_neg (by simp [hd])]
  split <;> rfl
theorem storeAll (ps : List Piece) (s : State) (x : Ctx) (data : Piece → List Byte) (side : Piece → Side) (hd : x.v.part.direct = false) (own : Nat) :
    { ps.foldl (fun s p => s.storePiece x p (data p) (side p)) s with stores := s.stores, agenda := s.agenda, nextId := s.nextId } = s ∧
    ∀ pid a, (ps.foldl (fun s p => s.storePiece x p (data p) (side p)) s).readOwn own pid a 1 =
      if pid = x.v.part.id then (match lastByte ps data a with | some b => [b] | none => s.readOwn own pid a 1) else s.readOwn own pid a 1 := by
  induction ps generalizing s with
  | nil => exact ⟨rfl, fun pid a => by split <;> rfl⟩
  | cons p t ih =>
    obtain ⟨h1, h2⟩ := ih (s.storePiece x p (data p) (side p))
    have h3 := storePiece_others s x p (data p) (side p) hd
    refine ⟨?_, fun pid a => ?_⟩
    · exact (congrArg (fun u : State => { u with stores := s.stores, agenda := s.agenda, nextId := s.nextId }) h1).trans h3
    · rw [List.foldl_cons, h2, storePiece_read _ _ _ _ _ hd]
      by_cases hp : pid = x.v.part.id
      · rw [if_pos hp, if_pos hp]
        have e : lastByte (p :: t) data a = (lastByte t data a).or (if covers p (data p).length a then some ((data p).getD (a - p.x.addr) 0) else none) := by
          unfold lastByte
          rw [List.reverse_cons, List.find?_append]
          cases (t.reverse.find? fun q => covers q (data q).length a) with
          | some q => rfl
          | none => simp only [Option.none_or, List.find?_singleton, Option.map_none]; split <;> rfl
        rw [e]
        cases lastByte t data a with
        | some b => rfl
        | none =>
          rw [Option.none_or]
          by_cases hc : covers p (data p).length a = true
          · rw [if_pos ⟨hp, hc⟩, if_pos hc]
          · rw [if_neg (fun h => hc h.2), if_neg hc]
      · rw [if_neg hp, if_neg hp, if_neg (fun h => hp h.1)]
theorem bufferedStore_of {i : Instr} {f : Form} {imm : Word} {z : Space} {h : How} {es : Ctx → List Elem} {data : Ctx → Piece → List Byte}
    {side : Ctx → Piece → Side} {sem : Sem} (hi : ∀ s, exec i s = issue f imm sem s)
    (hs : ∀ t y, y.v.imm = imm → Clear z h es t y → Writable (found z h es t y).2 ((found z h es t y).2.fresh y) (found z h es t y).1.ok →
      sem t y = .fall ((found z h es t y).1.ok.foldl (fun s q => s.storePiece ((found z h es t y).2.fresh y) q (data y q) (side y q)) (found z h es t y).2) false) :
    BufferedStore i f imm z h es data := by
  intro s x t y w s' hr hc hw hwr hd he
  have hy : y.v.imm = imm := ctx?_imm hr.now
  have hf : (found z h es t y).2.fresh y = w := by
    unfold State.fresh; rw [hy, hw]; rfl
  have hwt : Writable (found z h es t y).2 ((found z h es t y).2.fresh y) (found z h es t y).1.ok := by
    intro hh; rw [hf, hd] at hh; cases hh
  rw [hi, issue_ready hr, hs t y hy hc hwt, hf] at he
  injection he with he
  obtain ⟨h1, h2⟩ := storeAll (found z h es t y).1.ok (found z h es t y).2 w (data y) (side y) hd w.own
  generalize hu : (found z h es t y).1.ok.foldl (fun s q => s.storePiece w q (data y q) (side y q)) (found z h es t y).2 = u at *
  generalize hcc : (found z h es t y).2 = c at *
  rw [← he]
  simp only [State.finish]
  split
  · right
    have hw : SameBut [] 0 imm t y (t.waits y.r .room) := (modPart_sameBut hr.now (fun p => { p with wait := .room }) fun _ => rfl)
    split
    · exact hw.due _
    · exact hw
  · left
    have h3 := modPart_sameBut hw (fun q => { q.counted (f.closes || false) with pc := nextPc y.v.part.header y.v.part.pc f.len }) fun _ => rfl
    generalize hF : (fun q : Part => { q.counted (f.closes || false) with pc := nextPc y.v.part.header y.v.part.pc f.len }) = F at *
    rw [hwr] at h3
    have ro : ∀ (v : State) own pid a, v.stores = u.stores → v.mem = u.mem → v.owners = u.owners → v.parts = u.parts → v.pkg = u.pkg →
        v.readOwn own pid a 1 = u.readOwn own pid a 1 := by
      intro v own pid a e1 e2 e3 e4 e5
      rw [readOwn_one, readOwn_one, byteAs_stores _ _ _ _ e2 e3 e4 e5]
      unfold State.ownOn; rw [e1]
    refine ⟨?_, fun pid a => ?_⟩
    · have e : ({ (u.modPart y.r F) with stores := c.stores } : State) =
          { c.modPart y.r F with agenda := u.agenda, nextId := u.nextId } := by
        exact congrArg (fun v : State => { v.modPart y.r F with agenda := u.agenda, nextId := u.nextId }) h1
      have h4 : SameBut [] 0 imm c w { (u.modPart y.r F) with stores := c.stores } := by
        rw [e]
        exact ⟨by have := h3.rest; exact this, h3.memory, h3.cohorts, h3.gangs, h3.part⟩
      unfold State.afterClose
      split
      · exact ⟨h4.rest, h4.memory, h4.cohorts, h4.gangs, h4.part⟩
      · exact h4
    · refine Eq.trans ?_ (h2 pid a)
      unfold State.afterClose
      split <;> exact ro _ _ _ _ rfl rfl rfl rfl rfl

end Sys2Proof.Machine
end

