-- ==== Sys2Proof/Laws/Home.lean ====
section
/-!
SUPPORT. What a write at its home slice does to what partitions read there: the bytes that it names, its line's sideband, and nothing
else of storage (R75, R81, R206, R282).
-/
namespace Sys2Proof.Machine

/-- What an access to storage reads and writes. -/
def Keep (s t : State) : Prop := t.mem = s.mem ∧ t.sides = s.sides ∧ t.owners = s.owners ∧ t.parts = s.parts ∧ t.pkg = s.pkg ∧ t.stores.map (·.id) ⊆ s.stores.map (·.id)
theorem Keep.refl (s : State) : Keep s s := ⟨rfl, rfl, rfl, rfl, rfl, fun _ h => h⟩
theorem Keep.trans {s t u : State} (h : Keep s t) (k : Keep t u) : Keep s u :=
  ⟨k.1.trans h.1, k.2.1.trans h.2.1, k.2.2.1.trans h.2.2.1, k.2.2.2.1.trans h.2.2.2.1, k.2.2.2.2.1.trans h.2.2.2.2.1, fun _ x => h.2.2.2.2.2 (k.2.2.2.2.2 x)⟩
theorem retireGang_keep (s : State) (r : PartRef) : Keep s (s.retireGang r) := by
  unfold State.retireGang
  have h1 : ∀ t : State, Keep t (t.retireCopies r.cohort r.gang) := fun t => ⟨rfl, rfl, rfl, rfl, rfl, fun _ h => h⟩
  have h2 : ∀ t : State, Keep t (t.retireMatrix r.cohort r.gang) := fun t => ⟨rfl, rfl, rfl, rfl, rfl, fun _ h => h⟩
  have h3 : ∀ t : State, Keep t (t.retirePush r.cohort r.gang) := fun t => ⟨rfl, rfl, rfl, rfl, rfl, fun _ h => h⟩
  exact ((h1 _).trans (h2 _)).trans (h3 _)
theorem rollback_keep (s : State) (r : PartRef) (c : Bool) : Keep s (s.rollback r c) := by
  unfold State.rollback; split
  · exact .refl _
  · split
    · exact .refl _
    · refine Keep.trans ?_ (retireGang_keep _ r)
      refine ⟨rfl, rfl, rfl, rfl, rfl, ?_⟩
      intro x hx
      obtain ⟨d, hd, rfl⟩ := List.mem_map.mp hx
      exact List.mem_map.mpr ⟨d, (List.mem_filter.mp hd).1, rfl⟩
theorem fold_keep {α : Type} (l : List α) (f : State → α → State) (hf : ∀ s a, Keep s (f s a)) (s : State) : Keep s (l.foldl f s) := by
  induction l generalizing s with
  | nil => exact .refl _
  | cons a t ih => exact (hf s a).trans (ih _)
theorem strike_keep (s : State) (line : Nat) (a : Access) (me : Option Nat) : Keep s (s.strike line a me) := by
  unfold State.strike
  have : ∀ (l : List (PartRef × Part)) (t : State), Keep t (l.foldl (fun t x => if me != some x.2.id && s.strikes line a x.2 then t.rollback x.1 true else t) t) := by
    intro l t
    refine fold_keep l _ (fun t x => ?_) t
    split
    · exact rollback_keep ..
    · exact .refl _
  exact this _ s
theorem fire_keep (s : State) (m : Monitor) (x : LaneWait) : Keep s (s.fire m x) := by
  unfold State.fire; dsimp only; split <;> exact ⟨rfl, rfl, rfl, rfl, rfl, fun _ h => h⟩
theorem eval_keep (s : State) (line : Nat) : Keep s (s.evalMonitors line) := by
  unfold State.evalMonitors
  refine fold_keep _ _ (fun t m => ?_) s
  dsimp only; split
  · exact fire_keep ..
  · exact .refl _
theorem readBytes_congr (m n : Memory) (a k : Nat) (h : ∀ b, a ≤ b → b < a + k → m.read b = n.read b) : m.readBytes a k = n.readBytes a k := by
  induction k generalizing a with
  | zero => rfl
  | succ k ih =>
    show m.read a :: _ = n.read a :: _
    rw [h a (by omega) (by omega), ih (a + 1) (fun b h1 h2 => h b (by omega) (by omega))]
theorem writeBytes_read (m : Memory) (a : Nat) (bs : List Byte) (h : m.wf = true) (b : Nat) :
    (m.writeBytes a bs).read b = if a ≤ b ∧ b < a + bs.length then bs.getD (b - a) 0 else m.read b := by
  induction bs generalizing m a with
  | nil => simp [Memory.writeBytes]
  | cons c t ih =>
    show ((m.write a c).writeBytes (a + 1) t).read b = _
    rw [ih _ _ (Memory.wf_write m a c h), Memory.read_write _ _ _ _ h]
    simp only [List.length_cons]
    by_cases h1 : b = a
    · subst h1; simp
    · by_cases h2 : a + 1 ≤ b ∧ b < a + 1 + t.length
      · rw [if_pos h2, if_pos (by omega)]
        rw [show b - a = (b - (a + 1)) + 1 by omega]; rfl
      · rw [if_neg h2, if_neg h1, if_neg (by omega)]
theorem writeMask_go (base : Nat) (mask : BitVec 64) (data : List Byte) (l : List Nat) (m : Memory) (h : m.wf = true) (hn : l.Nodup) :
    let r := l.foldl (fun t i => if mask.getLsbD i then t.write (base + i) (data.getD i 0) else t) m
    Memory.wf r = true ∧ ∀ b, Memory.read r b = if base ≤ b ∧ b - base ∈ l ∧ mask.getLsbD (b - base) = true then data.getD (b - base) 0 else m.read b := by
  induction l generalizing m with
  | nil => exact ⟨h, fun b => by simp⟩
  | cons i t ih =>
    rw [List.nodup_cons] at hn
    dsimp only
    rw [List.foldl_cons]
    cases hm : mask.getLsbD i
    · obtain ⟨h1, h2⟩ := ih m h hn.2
      refine ⟨h1, fun b => ?_⟩
      simp only [Bool.false_eq_true, if_false]
      rw [h2 b]
      by_cases hb : b - base = i
      · rw [if_neg (by rw [hb]; exact fun h => hn.1 h.2.1), if_neg (by rw [hb, hm]; simp)]
      · simp [hb]
    · have hw := Memory.wf_write m (base + i) (data.getD i 0) h
      obtain ⟨h1, h2⟩ := ih _ hw hn.2
      refine ⟨h1, fun b => ?_⟩
      simp only [if_true]
      rw [h2 b, Memory.read_write _ _ _ _ h]
      by_cases hb : b - base = i
      · by_cases hl : base ≤ b
        · rw [if_neg (by rw [hb]; exact fun h => hn.1 h.2.1), if_pos (by omega), if_pos ⟨hl, by simp [hb], by rw [hb, hm]⟩, hb]
        · rw [if_neg (fun h => hl h.1), if_neg (by omega), if_neg (fun h => hl h.1)]
      · by_cases hc : base ≤ b ∧ b - base ∈ t ∧ mask.getLsbD (b - base) = true
        · rw [if_pos hc, if_pos ⟨hc.1, by simp [hc.2.1], hc.2.2⟩]
        · rw [if_neg hc, if_neg (by omega), if_neg (fun h => hc ⟨h.1, by have := h.2.1; simp [hb] at this; exact this, h.2.2⟩)]

/-! A write at its home slice, stage by stage -/

/-- The bytes change. -/
def State.homeBytes (s : State) (own line : Nat) (f : Memory → Memory) : State :=
  { s with mem := f (match s.foreign own line with
    | none => s.mem
    | some _ => s.mem.writeBytes (s.cell line) (s.bytesAs own (64 * line) 64)) }
/-- The sideband changes. -/
def State.homeSide (s : State) (line : Nat) (side : Option Side) : State := match side with | some x => s.setSide line x | none => s
/-- A whole line leaves its poison behind. -/
def State.homeClean (s : State) (line : Nat) (whole : Bool) : State :=
  if whole then { s with poison := s.poison.filter fun l => l != line, bufPoison := s.bufPoison.filter fun l => l.1 != line } else s
/-- The line is now written under its partition's key and its own address. -/
def State.homeKey (s : State) (own line : Nat) : State :=
  if isHbm (64 * line) || isFar (64 * line) then { s with owners := assocSet s.owners (s.cell line) (s.keyOf own, line) } else s
/-- The host loses its copy. -/
def State.homeHost (s : State) (line : Nat) : State :=
  if s.hostHeld.contains line then { s with hostHeld := s.hostHeld.filter (fun l => l != line), out := .backInvalidate line :: s.out } else s

theorem homeCore_stages (s : State) (acc : Access) (me : Option Nat) (own line : Nat) (f : Memory → Memory) (whole : Bool) (side : Option Side) :
    s.homeCore acc me own line f whole side =
      (((((((s.strike line acc me).homeBytes own line f).homeSide line side).homeClean line whole).homeKey own line).homeHost line).touchTiles (64 * line) 64).evalMonitors line := rfl

theorem keyOf_same {s t : State} (h1 : t.parts = s.parts) (h2 : t.pkg = s.pkg) (n : Nat) : t.keyOf n = s.keyOf n := by
  unfold State.keyOf State.partition?; rw [h1, h2]

theorem cell_same {s t : State} (h : t.pkg = s.pkg) (l : Nat) : t.cell l = s.cell l := by
  unfold State.cell State.farWindow; rw [h]

theorem foreign_same {s t : State} (h1 : t.parts = s.parts) (h2 : t.pkg = s.pkg) (h3 : t.owners = s.owners) (own l : Nat) :
    t.foreign own l = s.foreign own l := by
  unfold State.foreign; rw [h3, keyOf_same h1 h2, cell_same h2]

/-- The bytes of the line before they change are what its writer reads; every other byte stays. -/
theorem homeBytes_mem (s : State) (own line : Nat) (f : Memory → Memory) (h : s.mem.wf = true) :
    ∃ m : Memory, (s.homeBytes own line f).mem = f m ∧ m.wf = true ∧ (∀ a, a / 64 = line → m.read (s.cell line + a % 64) = s.byteAs own a) ∧
      ∀ b, ¬ (s.cell line ≤ b ∧ b < s.cell line + 64) → m.read b = s.mem.read b := by
  have hlen : (s.bytesAs own (64 * line) 64).length = 64 := by simp [State.bytesAs]
  refine ⟨_, rfl, ?_, fun a ha => ?_, fun b hb => ?_⟩
  · split
    · exact h
    · exact Memory.wf_writeBytes _ _ _ h
  · cases hf : s.foreign own line with
    | none => dsimp only; unfold State.byteAs; rw [ha, hf]
    | some k =>
      dsimp only
      rw [writeBytes_read _ _ _ h, hlen, if_pos (by omega)]
      simp only [State.bytesAs]
      rw [List.getD_eq_getElem _ _ (by simp; omega)]
      simp only [List.getElem_map, List.getElem_range]
      congr 1; omega
  · cases hf : s.foreign own line with
    | none => rfl
    | some k => dsimp only; rw [writeBytes_read _ _ _ h, hlen, if_neg (by omega)]

/-- A line's sideband outside far memory. -/
theorem homeSide_sides (s : State) (line : Nat) (side : Option Side) (h : s.sides.wf = true) (hp : isFar (64 * line) = true → side = none) :
    { s.homeSide line side with sides := s.sides } = s ∧ (s.homeSide line side).sides.wf = true ∧
      (∀ x, side = some x → (isHbm (64 * line) || (isBuf (64 * line) && !isAb (64 * line))) = true → (s.homeSide line side).sides.read line = x) ∧
      ∀ l, l ≠ line → (s.homeSide line side).sides.read l = s.sides.read l := by
  cases side with
  | none => exact ⟨rfl, h, nofun, fun _ _ => rfl⟩
  | some x =>
    have hf : isFar (64 * line) = false := by
      cases hc : isFar (64 * line)
      · rfl
      · exact absurd (hp hc) nofun
    simp only [State.homeSide, State.setSide, hf, Bool.false_eq_true, if_false]
    split
    · refine ⟨rfl, Sides.wf_write _ _ _ h, fun y hy _ => ?_, fun l hl => ?_⟩
      · injection hy with hy; subst hy
        show (s.sides.write line x).read line = x
        rw [Sides.read_write _ _ _ _ h, if_pos rfl]
      · show (s.sides.write line x).read l = _
        rw [Sides.read_write _ _ _ _ h, if_neg hl]
    · rename_i hh
      exact ⟨rfl, h, fun _ _ h2 => absurd h2 hh, fun _ _ => rfl⟩

theorem homeClean_same (s : State) (line : Nat) (w : Bool) : { s.homeClean line w with poison := s.poison, bufPoison := s.bufPoison } = s := by
  unfold State.homeClean; split <;> rfl
theorem homeKey_same (s : State) (own line : Nat) : { s.homeKey own line with owners := s.owners } = s := by
  unfold State.homeKey; split <;> rfl
theorem homeHost_same (s : State) (line : Nat) : { s.homeHost line with hostHeld := s.hostHeld, out := s.out } = s := by
  unfold State.homeHost; split <;> rfl

/-- A masked write that changes no sideband of far memory: its writer reads the masked bytes as the data, the line's other bytes as before, and as
before every byte of a line that stands apart from it in storage; the line's sideband is the one given (R23, R75, R81, R206). -/
theorem homeMask_reads (s : State) (me : Option Nat) (own line : Nat) (mask : BitVec 64) (data : List Byte) (side : Option Side) (hc : s.canonical)
    (hp : isFar (64 * line) = true → side = none) :
    let t := s.homeMask me own line mask data side
    t.canonical ∧ (∀ a, a / 64 = line ∨ s.cell (a / 64) + 64 ≤ s.cell line ∨ s.cell line + 64 ≤ s.cell (a / 64) →
        t.byteAs own a = if a / 64 = line ∧ mask.getLsbD (a % 64) = true then data.getD (a % 64) 0 else s.byteAs own a) ∧
      (∀ x, side = some x → (isHbm (64 * line) || (isBuf (64 * line) && !isAb (64 * line))) = true → t.sides.read line = x) ∧
      (∀ l, l ≠ line → t.sides.read l = s.sides.read l) ∧ t.stores.map (·.id) ⊆ s.stores.map (·.id) := by
  intro t
  obtain ⟨hcm, hcs⟩ := hc
  have et : t = _ := homeCore_stages ..
  obtain ⟨k1, k2, k3, k4, k5, k6⟩ := strike_keep s line .write me
  generalize s.strike line .write me = S at k1 k2 k3 k4 k5 k6 et
  obtain ⟨M, hM, hMwf, hMin, hMout⟩ := homeBytes_mem S own line (fun m => writeMask m (s.cell line) mask data) (by rw [k1]; exact hcm)
  rw [cell_same k5] at hMin hMout
  have hB : { S.homeBytes own line (fun m => writeMask m (s.cell line) mask data) with mem := S.mem } = S := rfl
  generalize S.homeBytes own line (fun m => writeMask m (s.cell line) mask data) = B at hM hB et
  have b2 : B.sides = S.sides := (congrArg State.sides hB :)
  have b3 : B.owners = S.owners := (congrArg State.owners hB :)
  have b4 : B.parts = S.parts := (congrArg State.parts hB :)
  have b5 : B.pkg = S.pkg := (congrArg State.pkg hB :)
  have b6 : B.stores = S.stores := (congrArg State.stores hB :)
  obtain ⟨c0, c1, c2, c3⟩ := homeSide_sides B line side (by rw [b2, k2]; exact hcs) hp
  generalize B.homeSide line side = C at c0 c1 c2 c3 et
  have d0 := homeClean_same C line (mask == BitVec.allOnes 64)
  generalize C.homeClean line (mask == BitVec.allOnes 64) = D at d0 et
  have e0 := homeKey_same D own line
  have eo : (D.homeKey own line).owners = if (isHbm (64 * line) || isFar (64 * line)) = true then assocSet D.owners (D.cell line) (D.keyOf own, line) else D.owners := by
    unfold State.homeKey; split <;> rfl
  generalize D.homeKey own line = E at e0 eo et
  have f0 := homeHost_same E line
  generalize E.homeHost line = F at f0 et
  have Fm : F.mem = writeMask M (s.cell line) mask data := by
    rw [← hM]
    exact (congrArg State.mem f0 :).trans ((congrArg State.mem e0 :).trans ((congrArg State.mem d0 :).trans (congrArg State.mem c0 :)))
  have Fs : F.sides = C.sides := (congrArg State.sides f0 :).trans ((congrArg State.sides e0 :).trans (congrArg State.sides d0 :))
  have Dp : D.parts = s.parts := (congrArg State.parts d0 :).trans ((congrArg State.parts c0 :).trans (b4.trans k4))
  have Dk : D.pkg = s.pkg := (congrArg State.pkg d0 :).trans ((congrArg State.pkg c0 :).trans (b5.trans k5))
  have Do : D.owners = s.owners := (congrArg State.owners d0 :).trans ((congrArg State.owners c0 :).trans (b3.trans k3))
  have Fp : F.parts = s.parts := (congrArg State.parts f0 :).trans ((congrArg State.parts e0 :).trans Dp)
  have Fk : F.pkg = s.pkg := (congrArg State.pkg f0 :).trans ((congrArg State.pkg e0 :).trans Dk)
  have Fo : F.owners = if (isHbm (64 * line) || isFar (64 * line)) = true then assocSet s.owners (s.cell line) (s.keyOf own, line) else s.owners := by
    rw [(show F.owners = E.owners from (congrArg State.owners f0 :)), eo, Do, keyOf_same Dp Dk, cell_same Dk]
  have Ft : F.stores = S.stores := (congrArg State.stores f0 :).trans ((congrArg State.stores e0 :).trans ((congrArg State.stores d0 :).trans ((congrArg State.stores c0 :).trans b6)))
  obtain ⟨e1, e2, e3, e4, e5, e6⟩ : Keep F ((F.touchTiles (64 * line) 64).evalMonitors line) :=
    Keep.trans ⟨rfl, rfl, rfl, rfl, rfl, fun _ h => h⟩ (eval_keep _ line)
  rw [← et] at e1 e2 e3 e4 e5 e6
  obtain ⟨wf2, rd2⟩ := writeMask_go (s.cell line) mask data (List.range 64) M hMwf List.nodup_range
  have tm : t.mem = writeMask M (s.cell line) mask data := e1.trans Fm
  have rd : ∀ b, t.mem.read b = if s.cell line ≤ b ∧ b < s.cell line + 64 ∧ mask.getLsbD (b - s.cell line) = true then data.getD (b - s.cell line) 0 else M.read b := by
    intro b
    rw [tm]
    refine (rd2 b).trans ?_
    by_cases h : s.cell line ≤ b ∧ b < s.cell line + 64 ∧ mask.getLsbD (b - s.cell line) = true
    · rw [if_pos h, if_pos ⟨h.1, by simp; omega, h.2.2⟩]
    · rw [if_neg h, if_neg (fun q => h ⟨q.1, by have := q.2.1; simp at this; omega, q.2.2⟩)]
  have cellt : ∀ l, t.cell l = s.cell l := cell_same (e5.trans Fk)
  have byS : ∀ a, S.byteAs own a = s.byteAs own a := fun a => byteAs_stores _ _ _ _ k1 k3 k4 k5
  have keyt : t.keyOf own = s.keyOf own := keyOf_same (e4.trans Fp) (e5.trans Fk) own
  refine ⟨⟨by rw [tm]; exact wf2, by rw [e2, Fs]; exact c1⟩, fun a hap => ?_, fun x hx hh => by rw [e2, Fs]; exact c2 x hx hh,
    fun l hl => by rw [e2, Fs, c3 l hl, b2, k2], fun x hx => k6 (by have := e6 hx; rwa [Ft] at this)⟩
  by_cases ha : a / 64 = line
  · have hn : t.foreign own (a / 64) = none := by
      unfold State.foreign
      rw [e3, Fo, keyt, ha, cellt]
      split
      · simp [assocGet, assocSet]
      · rfl
    have e : t.byteAs own a = t.mem.read (s.cell line + a % 64) := by unfold State.byteAs; rw [hn, cellt, ha]
    rw [e, rd, hMin a ha, byS, show s.cell line + a % 64 - s.cell line = a % 64 by omega]
    have : a % 64 < 64 := Nat.mod_lt _ (by omega)
    by_cases hm : mask.getLsbD (a % 64) = true
    · rw [if_pos ⟨by omega, by omega, hm⟩, if_pos ⟨ha, hm⟩]
    · rw [if_neg fun h => hm h.2.2, if_neg fun h => hm h.2]
  · rw [if_neg (fun h => ha h.1)]
    have hforeign : t.foreign own (a / 64) = s.foreign own (a / 64) := by
      unfold State.foreign
      rw [e3, Fo, keyt, cellt]
      have hne : s.cell (a / 64) ≠ s.cell line := by have := hap.resolve_left ha; omega
      have : assocGet (assocSet s.owners (s.cell line) (s.keyOf own, line)) (s.cell (a / 64)) = assocGet s.owners (s.cell (a / 64)) := by
        unfold assocGet assocSet
        rw [List.find?_cons_of_neg (by simpa using fun h => hne h.symm), List.find?_filter]
        congr 2
        funext p
        by_cases hp : p.1 = s.cell (a / 64)
        · simp [hp, hne]
        · simp [hp]
      by_cases hh : (isHbm (64 * line) || isFar (64 * line)) = true
      · rw [if_pos hh, this]
      · rw [if_neg hh]
    have hd := hap.resolve_left ha
    have hread : ∀ b, s.cell (a / 64) ≤ b → b < s.cell (a / 64) + 64 → t.mem.read b = s.mem.read b := fun b h1 h2 => by
      rw [rd, if_neg (by omega), hMout b (by omega), k1]
    unfold State.byteAs
    rw [hforeign, keyt, cellt]
    cases s.foreign own (a / 64) with
    | none => exact hread _ (by omega) (by omega)
    | some k =>
      dsimp only
      rw [readBytes_congr t.mem s.mem _ _ hread]

end Sys2Proof.Machine
end

