-- ==== Sys2Proof/Laws/Int.lean ====
section
/-!
SUPPORT. The exact-integer definitions of the integer engine agree with the bit-vector formulas.
-/
namespace Sys2Proof.Machine


/-- Fit at a width. -/
def fitAt (sg sat : Bool) (w : Nat) (r : Int) : BitVec w × Flags :=
  if sat && (decide (r < if sg then -(2 ^ (w - 1) : Int) else 0) || decide ((if sg then 2 ^ (w - 1) - 1 else 2 ^ w - 1 : Int) < r)) then
    (BitVec.ofInt w (if r < (if sg then -(2 ^ (w - 1) : Int) else 0) then (if sg then -(2 ^ (w - 1) : Int) else 0) else (if sg then 2 ^ (w - 1) - 1 else 2 ^ w - 1 : Int)), flagOF)
  else (BitVec.ofInt w r, 0)

theorem ofInt_emod64 (r : Int) : BitVec.ofInt 64 (r % 2 ^ 64) = BitVec.ofInt 64 r := by
  apply BitVec.eq_of_toNat_eq; simp [BitVec.toNat_ofInt]
theorem ofInt_emod32 (r : Int) : BitVec.ofInt 64 (r % 2 ^ 32) = (BitVec.ofInt 32 r).setWidth 64 := by
  apply BitVec.eq_of_toNat_eq; simp [BitVec.toNat_ofInt]; omega

theorem fit_at (t : TypeCode) (sat : Bool) (r : Int) : fit t sat r =
    if t.wide then fitAt t.signed sat 64 r else ((fitAt t.signed sat 32 r).1.setWidth 64, (fitAt t.signed sat 32 r).2) := by
  unfold fit fitAt wrapT loT hiT TypeCode.width
  cases t.wide <;> cases t.signed <;> simp only [Bool.false_eq_true, if_false, if_true, ofInt_emod64, ofInt_emod32] <;> split <;> simp

theorem valT_at (t : TypeCode) (a : DWord) : valT t a = if t.wide then valAt t.signed a else valAt t.signed a.lo := by
  unfold valT valueOf valAt
  cases t.wide <;> cases t.signed <;> rfl

theorem fitAt_plain (sg : Bool) (w : Nat) (r : Int) : fitAt sg false w r = (BitVec.ofInt w r, 0) := by
  simp [fitAt]

theorem ofInt_valAt (sg : Bool) {w : Nat} (a : BitVec w) : BitVec.ofInt w (valAt sg a) = a := by
  cases sg <;> simp [valAt]

theorem ofInt_hi (w : Nat) (hw : 0 < w) : BitVec.ofInt w (2 ^ (w - 1) - 1) = BitVec.intMax w := by
  have h1 : (2 : Int) ^ w = 2 * 2 ^ (w - 1) := by rw [← pow_succ', Nat.sub_add_cancel hw]
  have h2 : (0 : Int) < 2 ^ (w - 1) := by positivity
  apply BitVec.eq_of_toInt_eq
  rw [BitVec.toInt_intMax, BitVec.toInt_ofInt]
  push_cast
  rw [Int.bmod_eq_of_le] <;> push_cast <;> omega
theorem ofInt_lo (w : Nat) (hw : 0 < w) : BitVec.ofInt w (-(2 ^ (w - 1))) = BitVec.intMin w := by
  have h1 : (2 : Int) ^ w = 2 * 2 ^ (w - 1) := by rw [← pow_succ', Nat.sub_add_cancel hw]
  have h2 : (0 : Int) < 2 ^ (w - 1) := by positivity
  apply BitVec.eq_of_toInt_eq
  rw [BitVec.toInt_intMin_of_pos hw, BitVec.toInt_ofInt]
  rw [Int.bmod_eq_of_le] <;> push_cast <;> omega
theorem ofInt_top (w : Nat) : BitVec.ofInt w (2 ^ w - 1) = BitVec.allOnes w := by
  rw [show (2 ^ w - 1 : Int) = ((2 ^ w - 1 : Nat) : Int) by push_cast [Nat.one_le_two_pow]; rfl, BitVec.ofInt_natCast]
  apply BitVec.eq_of_toNat_eq; simp

theorem sum_at (sg sat : Bool) (w : Nat) (hw : 0 < w) (a b : BitVec w) : fitAt sg sat w (valAt sg a + valAt sg b) = sumAt sg sat w a b := by
  have hp : BitVec.ofInt w (valAt sg a + valAt sg b) = a + b := by rw [BitVec.ofInt_add, ofInt_valAt, ofInt_valAt]
  unfold sumAt
  cases sat
  · rw [fitAt_plain, hp]; rfl
  · unfold fitAt
    rw [hp]
    have h2 : (0 : Int) < 2 ^ (w - 1) := by positivity
    cases sg
    · have h3 := a.isLt
      have h4 := b.isLt
      have h5 : ((2 ^ w : Nat) : Int) = 2 ^ w := by push_cast; rfl
      have h1 : (1 : Int) ≤ 2 ^ w := by exact_mod_cast Nat.one_le_two_pow
      simp only [valAt, BitVec.uaddOverflow, Bool.false_eq_true, if_false, Bool.true_and, Bool.or_eq_true, decide_eq_true_eq, reduceCtorEq]
      split_ifs <;> first | rfl | (exfalso; omega) | (rw [ofInt_lo w hw]) | (rw [ofInt_hi w hw]) | (rw [ofInt_top]) | simp
    · have ha1 := BitVec.le_toInt a
      have ha2 := BitVec.toInt_lt (x := a)
      have hb1 := BitVec.le_toInt b
      have hb2 := BitVec.toInt_lt (x := b)
      simp only [valAt, BitVec.saddOverflow, if_true, Bool.true_and, Bool.or_eq_true, decide_eq_true_eq, reduceCtorEq, if_false, BitVec.msb_eq_toInt]
      split_ifs <;> first | rfl | (exfalso; omega) | (rw [ofInt_lo w hw]) | (rw [ofInt_hi w hw]) | (rw [ofInt_top]) | simp

theorem diff_at (sg sat : Bool) (w : Nat) (hw : 0 < w) (a b : BitVec w) : fitAt sg sat w (valAt sg a - valAt sg b) = diffAt sg sat w a b := by
  have hp : BitVec.ofInt w (valAt sg a - valAt sg b) = a - b := by
    rw [Int.sub_eq_add_neg, BitVec.ofInt_add, BitVec.ofInt_neg, ofInt_valAt, ofInt_valAt, BitVec.sub_eq_add_neg]
  unfold diffAt
  cases sat
  · rw [fitAt_plain, hp]; rfl
  · unfold fitAt
    rw [hp]
    have h2 : (0 : Int) < 2 ^ (w - 1) := by positivity
    cases sg
    · have h3 := a.isLt
      have h4 := b.isLt
      have h5 : ((2 ^ w : Nat) : Int) = 2 ^ w := by push_cast; rfl
      have h1 : (1 : Int) ≤ 2 ^ w := by exact_mod_cast Nat.one_le_two_pow
      simp only [valAt, BitVec.usubOverflow, Bool.false_eq_true, if_false, Bool.true_and, Bool.or_eq_true, decide_eq_true_eq, reduceCtorEq]
      split_ifs <;> first | rfl | (exfalso; omega) | (rw [ofInt_lo w hw]) | (rw [ofInt_hi w hw]) | (rw [ofInt_top]) | simp
    · have ha1 := BitVec.le_toInt a
      have ha2 := BitVec.toInt_lt (x := a)
      have hb1 := BitVec.le_toInt b
      have hb2 := BitVec.toInt_lt (x := b)
      simp only [valAt, BitVec.ssubOverflow, if_true, Bool.true_and, Bool.or_eq_true, decide_eq_true_eq, reduceCtorEq, if_false, BitVec.msb_eq_toInt]
      split_ifs <;> first | rfl | (exfalso; omega) | (rw [ofInt_lo w hw]) | (rw [ofInt_hi w hw]) | (rw [ofInt_top]) | simp

theorem addT_at (t : TypeCode) (sat : Bool) (a b : DWord) : addT t sat a b = atType t (sumAt t.signed sat) a b := by
  unfold addT atType
  rw [fit_at, valT_at, valT_at]
  cases t.wide
  · simp only [Bool.false_eq_true, if_false]; rw [sum_at _ _ _ (by decide)]
  · simp only [if_true]; rw [sum_at _ _ _ (by decide)]
theorem subT_at (t : TypeCode) (sat : Bool) (a b : DWord) : subT t sat a b = atType t (diffAt t.signed sat) a b := by
  unfold subT atType
  rw [fit_at, valT_at, valT_at]
  cases t.wide
  · simp only [Bool.false_eq_true, if_false]; rw [diff_at _ _ _ (by decide)]
  · simp only [if_true]; rw [diff_at _ _ _ (by decide)]

theorem ofInt_mul' (w : Nat) (x y : Int) : BitVec.ofInt w (x * y) = BitVec.ofInt w x * BitVec.ofInt w y := BitVec.ofInt_mul ..

theorem prod_at (sg sat : Bool) (w : Nat) (hw : 0 < w) (a b c : BitVec w) :
    fitAt sg sat w (valAt sg a * valAt sg b + valAt sg c) = prodAt sg sat w a b c := by
  have hp : BitVec.ofInt w (valAt sg a * valAt sg b + valAt sg c) = a * b + c := by
    rw [BitVec.ofInt_add, BitVec.ofInt_mul, ofInt_valAt, ofInt_valAt, ofInt_valAt]
  unfold prodAt
  dsimp only
  generalize hr : valAt sg a * valAt sg b + valAt sg c = r at *
  cases sat
  · rw [fitAt_plain, hp]; simp
  · unfold fitAt
    rw [hp]
    have h2 : (0 : Int) < 2 ^ (w - 1) := by positivity
    have h1 : (1 : Int) ≤ 2 ^ w := by exact_mod_cast Nat.one_le_two_pow
    cases sg
    · simp only [Bool.false_eq_true, if_false, Bool.true_and, Bool.or_eq_true, decide_eq_true_eq, true_and]
      split_ifs <;> first | rfl | (exfalso; omega) | (rw [ofInt_top]) | simp
    · simp only [if_true, Bool.true_and, Bool.or_eq_true, decide_eq_true_eq, true_and]
      split_ifs <;> first | rfl | (exfalso; omega) | (rw [ofInt_lo w hw]) | (rw [ofInt_hi w hw])

theorem valAt_eq_zero (sg : Bool) {w : Nat} (b : BitVec w) : valAt sg b = 0 ↔ b = 0 := by
  cases sg
  · simp only [valAt, Bool.false_eq_true, if_false]
    constructor
    · intro h; apply BitVec.eq_of_toNat_eq; simpa using h
    · intro h; subst h; simp
  · simp only [valAt, if_true]
    constructor
    · intro h; apply BitVec.eq_of_toInt_eq; simpa using h
    · intro h; subst h; simp

theorem ofInt_neg_one (w : Nat) : BitVec.ofInt w (-1) = BitVec.allOnes w := by
  rw [BitVec.ofInt_neg]
  simp [BitVec.neg_one_eq_allOnes]

/-- The quotient at a width. -/
def divAt (sg : Bool) (w : Nat) (x y : Int) : BitVec w × Flags :=
  if y = 0 then (BitVec.ofInt w (-1), flagDZ)
  else if sg && x == (if sg then -(2 ^ (w - 1) : Int) else 0) && y == -1 then (BitVec.ofInt w (if sg then -(2 ^ (w - 1) : Int) else 0), flagOF)
  else (BitVec.ofInt w (x.tdiv y), 0)
def modAt (sg : Bool) (w : Nat) (x y : Int) : BitVec w × Flags :=
  if y = 0 then (BitVec.ofInt w x, flagDZ)
  else if sg && x == (if sg then -(2 ^ (w - 1) : Int) else 0) && y == -1 then (0, 0)
  else (BitVec.ofInt w (x.tmod y), 0)

theorem div_at (sg : Bool) (w : Nat) (hw : 0 < w) (a b : BitVec w) : divAt sg w (valAt sg a) (valAt sg b) = quotAt sg w a b := by
  unfold divAt quotAt
  by_cases h0 : b = 0
  · rw [if_pos ((valAt_eq_zero ..).mpr h0), if_pos h0, ofInt_neg_one]
  · rw [if_neg (fun h => h0 ((valAt_eq_zero ..).mp h)), if_neg h0]
    cases sg
    · simp only [valAt, Bool.false_eq_true, if_false, Bool.false_and, false_and]
      congr 1
      show BitVec.ofInt w ((a.toNat : Int).tdiv b.toNat) = a / b
      rw [show ((a.toNat : Int).tdiv b.toNat) = ((a.toNat / b.toNat : Nat) : Int) by simp [Int.ofNat_tdiv], BitVec.ofInt_natCast]
      apply BitVec.eq_of_toNat_eq
      rw [BitVec.toNat_udiv, BitVec.toNat_ofNat]
      exact Nat.mod_eq_of_lt (lt_of_le_of_lt (Nat.div_le_self ..) a.isLt)
    · have e1 : (valAt true a == -(2 ^ (w - 1) : Int)) = decide (a = BitVec.intMin w) := by
        rw [Bool.eq_iff_iff, beq_iff_eq, decide_eq_true_eq, ← BitVec.toInt_inj, BitVec.toInt_intMin_of_pos hw]; rfl
      have e2 : (valAt true b == -1) = decide (b = BitVec.allOnes w) := by
        rw [Bool.eq_iff_iff, beq_iff_eq, decide_eq_true_eq, ← BitVec.toInt_inj, BitVec.toInt_allOnes, if_pos hw]; rfl
      simp only [if_true, Bool.true_and, true_and, e1, e2, Bool.and_eq_true, decide_eq_true_eq]
      split_ifs
      · rw [ofInt_lo w hw]
      · congr 1
        apply BitVec.eq_of_toInt_eq
        rw [BitVec.toInt_sdiv, BitVec.toInt_ofInt]
        push_cast; rfl

theorem mod_at (sg : Bool) (w : Nat) (hw : 0 < w) (a b : BitVec w) : modAt sg w (valAt sg a) (valAt sg b) = remAt sg w a b := by
  unfold modAt remAt
  by_cases h0 : b = 0
  · rw [if_pos ((valAt_eq_zero ..).mpr h0), if_pos h0, ofInt_valAt]
  · rw [if_neg (fun h => h0 ((valAt_eq_zero ..).mp h)), if_neg h0]
    cases sg
    · simp only [valAt, Bool.false_eq_true, if_false, Bool.false_and, false_and]
      congr 1
      show BitVec.ofInt w ((a.toNat : Int).tmod b.toNat) = a % b
      rw [show ((a.toNat : Int).tmod b.toNat) = ((a.toNat % b.toNat : Nat) : Int) from rfl, BitVec.ofInt_natCast]
      apply BitVec.eq_of_toNat_eq
      rw [BitVec.toNat_umod, BitVec.toNat_ofNat]
      exact Nat.mod_eq_of_lt (lt_of_le_of_lt (Nat.mod_le ..) a.isLt)
    · have key : BitVec.ofInt w ((valAt true a).tmod (valAt true b)) = a.srem b := by
        apply BitVec.eq_of_toInt_eq
        rw [BitVec.toInt_ofInt, ← BitVec.toInt_bmod_cancel (a.srem b), BitVec.toInt_srem]
        rfl
      simp only [if_true]
      split_ifs with h
      · rw [← key]
        simp only [Bool.true_and, Bool.and_eq_true, beq_iff_eq] at h
        rw [h.2]
        congr 1
        rw [show ∀ x : Int, x.tmod (-1) = 0 from fun x => by simp]
        simp
      · rw [key]

theorem wrapT_at (t : TypeCode) (r : Int) : wrapT t r = if t.wide then BitVec.ofInt 64 r else (BitVec.ofInt 32 r).setWidth 64 := by
  unfold wrapT TypeCode.width
  cases t.wide <;> simp only [Bool.false_eq_true, if_false, if_true, ofInt_emod64, ofInt_emod32]

theorem divT_at (t : TypeCode) (a b : DWord) : divT t a b = atType t (quotAt t.signed) a b := by
  unfold atType
  rw [← div_at _ _ (by decide), ← div_at _ _ (by decide)]
  unfold divT divAt
  dsimp only
  rw [valT_at, valT_at]
  simp only [wrapT_at]
  unfold loT TypeCode.width
  cases t.wide <;> simp only [Bool.false_eq_true, if_false, if_true] <;> split_ifs <;> rfl

theorem remT_at (t : TypeCode) (a b : DWord) : remT t a b = atType t (remAt t.signed) a b := by
  unfold atType
  rw [← mod_at _ _ (by decide), ← mod_at _ _ (by decide)]
  unfold remT modAt
  dsimp only
  rw [valT_at, valT_at]
  simp only [wrapT_at]
  unfold loT TypeCode.width
  cases t.wide <;> simp only [Bool.false_eq_true, if_false, if_true] <;> split_ifs <;> rfl

theorem mulT_at (t : TypeCode) (sat : Bool) (a b : DWord) : mulT t sat a b = atType t (fun w x y => prodAt t.signed sat w x y 0) a b := by
  unfold mulT atType
  rw [fit_at, valT_at, valT_at]
  have hz : ∀ w, valAt t.signed (0 : BitVec w) = 0 := fun w => (valAt_eq_zero ..).mpr rfl
  cases t.wide
  · simp only [Bool.false_eq_true, if_false]; rw [← prod_at _ _ _ (by decide), hz, Int.add_zero]
  · simp only [if_true]; rw [← prod_at _ _ _ (by decide), hz, Int.add_zero]

theorem madT_at (t : TypeCode) (sat : Bool) (a b c : DWord) : madT t sat a b c = atType3 t (prodAt t.signed sat) a b c := by
  unfold madT atType3
  rw [fit_at, valT_at, valT_at, valT_at]
  cases t.wide
  · simp only [Bool.false_eq_true, if_false]; rw [← prod_at _ _ _ (by decide)]
  · simp only [if_true]; rw [← prod_at _ _ _ (by decide)]

theorem valAt_extend (sg : Bool) (a : Word) : valAt sg (extendAt sg a) = valAt sg a := by
  cases sg
  · simp [valAt, extendAt]; omega
  · simp only [valAt, extendAt, if_true]; exact BitVec.toInt_signExtend_of_le (by decide)

theorem madwT_at (t : TypeCode) (ht : t = .i32 ∨ t = .n32) (sat : Bool) (a b c : DWord) :
    madwT t sat a b c = prodAt t.signed sat 64 (extendAt t.signed a.lo) (extendAt t.signed b.lo) c := by
  unfold madwT
  rw [fit_at, valT_at, valT_at, valT_at, ← prod_at _ _ _ (by decide), valAt_extend, valAt_extend]
  rcases ht with rfl | rfl <;> rfl

theorem mulhiT_at (t : TypeCode) (ht : t = .i32 ∨ t = .n32) (a b : DWord) : (mulhiT t a b).1.lo = highAt t.signed a.lo b.lo ∧ (mulhiT t a b).2 = 0 := by
  refine ⟨?_, rfl⟩
  have key : ∀ sg : Bool, (BitVec.ofInt 64 (valAt sg a.lo * valAt sg b.lo % 2 ^ 64 / 2 ^ 32) : DWord).setWidth 32 = highAt sg a.lo b.lo := by
    intro sg
    have e : highAt sg a.lo b.lo = ((extendAt sg a.lo * extendAt sg b.lo) >>> 32).setWidth 32 := by
      cases sg <;> rfl
    have e2 : extendAt sg a.lo * extendAt sg b.lo = BitVec.ofInt 64 (valAt sg a.lo * valAt sg b.lo) := by
      rw [← valAt_extend, ← valAt_extend, BitVec.ofInt_mul, ofInt_valAt, ofInt_valAt]
    rw [e, e2]
    generalize valAt sg a.lo * valAt sg b.lo = r
    apply BitVec.eq_of_toNat_eq
    simp only [BitVec.toNat_setWidth, BitVec.toNat_ushiftRight, BitVec.toNat_ofInt, Nat.shiftRight_eq_div_pow]
    omega
  rcases ht with rfl | rfl
  · exact key true
  · exact key false

theorem min_at (t : TypeCode) (a b : DWord) : minT t a b = atType t (minAt t.signed) a b := by
  have key : ∀ (sg : Bool) (w : Nat) (x y : BitVec w), BitVec.ofInt w (min (valAt sg x) (valAt sg y)) = (minAt sg w x y).1 := by
    intro sg w x y
    unfold minAt
    have : (if sg then x.sle y else x.ule y) = decide (valAt sg x ≤ valAt sg y) := by
      cases sg <;> simp [valAt, BitVec.sle, BitVec.ule]
    rw [this]
    by_cases h : valAt sg x ≤ valAt sg y
    · simp [h, ofInt_valAt]
    · simp [h, Int.min_def, ofInt_valAt]
  unfold minT atType
  rw [wrapT_at, valT_at, valT_at]
  cases t.wide
  · simp only [Bool.false_eq_true, if_false]; rw [key]; rfl
  · simp only [if_true]; rw [key]; rfl

theorem max_at (t : TypeCode) (a b : DWord) : maxT t a b = atType t (maxAt t.signed) a b := by
  have key : ∀ (sg : Bool) (w : Nat) (x y : BitVec w), BitVec.ofInt w (max (valAt sg x) (valAt sg y)) = (maxAt sg w x y).1 := by
    intro sg w x y
    unfold maxAt
    have : (if sg then x.sle y else x.ule y) = decide (valAt sg x ≤ valAt sg y) := by
      cases sg <;> simp [valAt, BitVec.sle, BitVec.ule]
    rw [this]
    by_cases h : valAt sg x ≤ valAt sg y
    · simp [h, ofInt_valAt]
    · simp [h, Int.max_def, ofInt_valAt]
  unfold maxT atType
  rw [wrapT_at, valT_at, valT_at]
  cases t.wide
  · simp only [Bool.false_eq_true, if_false]; rw [key]; rfl
  · simp only [if_true]; rw [key]; rfl

theorem neg_fit (sat : Bool) (w : Nat) (hw : 1 < w) (a : BitVec w) : fitAt true sat w (-valAt true a) = negAt sat w a := by
  have h2 : (0 : Int) < 2 ^ (w - 1) := by positivity
  have hp : BitVec.ofInt w (-valAt true a) = -a := by rw [BitVec.ofInt_neg, ofInt_valAt]
  have ha1 := BitVec.le_toInt a
  have ha2 := BitVec.toInt_lt (x := a)
  unfold fitAt negAt
  rw [hp]
  have hm : a = BitVec.intMin w ↔ valAt true a = -(2 ^ (w - 1) : Int) := by
    rw [← BitVec.toInt_inj, BitVec.toInt_intMin_of_pos (by omega)]; rfl
  simp only [hm]
  have hv : valAt true a = a.toInt := rfl
  have hn : -(BitVec.intMin w) = BitVec.intMin w := BitVec.neg_intMin
  cases sat
  · simp only [Bool.false_and, Bool.false_eq_true, if_false]
    split_ifs with h
    · rw [hm.mpr h, hn]
    · rfl
  · simp only [if_true, Bool.true_and, Bool.or_eq_true, decide_eq_true_eq]
    split_ifs <;> first | rfl | (exfalso; omega) | (rw [ofInt_hi w (by omega)])

theorem negT_at (t : TypeCode) (ht : t.signed = true) (sat : Bool) (a : DWord) : negT t sat a = atType1 t (negAt sat) a := by
  unfold negT atType1
  rw [fit_at, valT_at, ht]
  cases t.wide
  · simp only [Bool.false_eq_true, if_false]; rw [← neg_fit _ _ (by decide)]
  · simp only [if_true]; rw [← neg_fit _ _ (by decide)]

theorem abs_fit (sat : Bool) (w : Nat) (hw : 1 < w) (a : BitVec w) : fitAt true sat w (valAt true a).natAbs = absAt sat w a := by
  by_cases hn : valAt true a < 0
  · have e : ((valAt true a).natAbs : Int) = -valAt true a := by omega
    rw [e, neg_fit _ _ hw]
    unfold negAt absAt
    have hm : a.msb = true := by rw [BitVec.msb_eq_toInt]; simpa using (show a.toInt < 0 from hn)
    rw [hm]
    simp
  · have e : ((valAt true a).natAbs : Int) = valAt true a := by omega
    have h2 : (0 : Int) < 2 ^ (w - 1) := by positivity
    have ha2 := BitVec.toInt_lt (x := a)
    have hv : valAt true a = a.toInt := rfl
    have hm : a.msb = false := by rw [BitVec.msb_eq_toInt]; simpa using (show ¬ a.toInt < 0 from hn)
    have hi : a ≠ BitVec.intMin w := by
      intro h
      rw [← BitVec.toInt_inj, BitVec.toInt_intMin_of_pos (by omega)] at h
      omega
    rw [e]
    unfold fitAt absAt
    rw [ofInt_valAt, if_neg hi, hm, if_neg]
    · rfl
    · simp only [if_true, Bool.and_eq_true, Bool.or_eq_true, decide_eq_true_eq]
      omega

theorem absT_at (t : TypeCode) (ht : t.signed = true) (sat : Bool) (a : DWord) : absT t sat a = atType1 t (absAt sat) a := by
  unfold absT atType1
  rw [fit_at, valT_at, ht]
  cases t.wide
  · simp only [Bool.false_eq_true, if_false]; rw [← abs_fit _ _ (by decide)]
  · simp only [if_true]; rw [← abs_fit _ _ (by decide)]

theorem shl_at (t : TypeCode) (a : DWord) (k : Nat) : shlT t a k = patType t (fun _ x => x <<< k) a := by
  unfold shlT patType maskT TypeCode.width
  cases t.wide <;> simp only [Bool.false_eq_true, if_false, if_true]
  · split
    · congr 1
      apply BitVec.eq_of_getLsbD_eq; intro i hi
      show BitVec.getLsbD ((a <<< k).setWidth 32) i = BitVec.getLsbD ((a.setWidth 32) <<< k) i
      simp only [BitVec.getLsbD_setWidth, BitVec.getLsbD_shiftLeft, hi, decide_true, Bool.true_and]
      simp [show i < 64 by omega, show i - k < 32 by omega]
    · rw [BitVec.shiftLeft_eq_zero (by omega)]; rfl
  · split
    · rfl
    · rw [BitVec.shiftLeft_eq_zero (by omega)]; rfl
theorem shr_at (t : TypeCode) (a : DWord) (k : Nat) : shrT t a k = patType t (fun _ x => x >>> k) a := by
  unfold shrT patType maskT TypeCode.width
  cases t.wide <;> simp only [Bool.false_eq_true, if_false, if_true]
  · split
    · apply BitVec.eq_of_getLsbD_eq; intro i hi
      simp only [BitVec.getLsbD_ushiftRight, BitVec.getLsbD_setWidth, hi, decide_true, Bool.true_and]
      by_cases h : k + i < 64
      · simp [h]
      · simp [h, BitVec.getLsbD_of_ge a.lo (k + i) (by omega)]
    · rw [BitVec.ushiftRight_eq_zero (by omega)]; rfl
  · split
    · rfl
    · rw [BitVec.ushiftRight_eq_zero (by omega)]; rfl
theorem sshift_min {w : Nat} (x : BitVec w) (k : Nat) (hw : 0 < w) : x.sshiftRight (min k (w - 1)) = x.sshiftRight k := by
  apply BitVec.eq_of_getLsbD_eq; intro i hi
  simp only [BitVec.getLsbD_sshiftRight]
  by_cases h : k ≤ w - 1
  · rw [Nat.min_eq_left h]
  · rw [Nat.min_eq_right (by omega)]
    by_cases h0 : i = 0
    · subst h0; simp [show ¬ k < w by omega, BitVec.msb_eq_getLsbD_last, show ¬ w ≤ 0 by omega, show w - 1 < w by omega]
    · simp [show ¬ w - 1 + i < w by omega, show ¬ k + i < w by omega]
theorem sar_at (t : TypeCode) (a : DWord) (k : Nat) : sarT t a k = patType t (fun _ x => x.sshiftRight k) a := by
  unfold sarT patType
  cases t.wide <;> simp only [Bool.false_eq_true, if_false, if_true]
  · rw [sshift_min (w := 32) _ _ (by decide)]
  · rw [sshift_min (w := 64) _ _ (by decide)]
theorem rotl_at (t : TypeCode) (a : DWord) (k : Nat) : rotlT t a k = patType t (fun _ x => x.rotateLeft k) a := by
  unfold rotlT patType
  cases t.wide <;> simp [BitVec.rotateLeft, BitVec.rotateLeftAux]

theorem popCount_at (x : Nat) (n : Nat) : popCount x n = ((List.range n).filter fun i => x.testBit i).length := by
  induction n with
  | zero => rfl
  | succ k ih =>
    rw [List.range_succ, List.filter_append, List.length_append, popCount, ih]
    congr 1
    simp only [List.filter_cons, List.filter_nil, Nat.testBit_eq_decide_div_mod_eq]
    have : x / 2 ^ k % 2 < 2 := Nat.mod_lt _ (by decide)
    by_cases h : x / 2 ^ k % 2 = 1
    · simp [h]
    · have : x / 2 ^ k % 2 = 0 := by omega
      simp [this]

theorem ctzGo_at (x n i : Nat) : let r := ctzGo x n i; i ≤ r ∧ r ≤ i + n ∧ (∀ j, i ≤ j → j < r → x.testBit j = false) ∧ (r < i + n → x.testBit r = true) := by
  induction n generalizing i with
  | zero => simp [ctzGo]; omega
  | succ k ih =>
    unfold ctzGo
    split
    · rename_i h
      refine ⟨le_refl _, by omega, fun j h1 h2 => by omega, fun _ => ?_⟩
      rw [Nat.testBit_eq_decide_div_mod_eq]; simpa using h
    · rename_i h
      obtain ⟨h1, h2, h3, h4⟩ := ih (i + 1)
      refine ⟨by omega, by omega, fun j h5 h6 => ?_, fun h5 => h4 (by omega)⟩
      by_cases hj : j = i
      · subst hj; rw [Nat.testBit_eq_decide_div_mod_eq]; simpa using h
      · exact h3 j (by omega) h6

theorem brev_at (x w i : Nat) (hi : i < w) : (brev x w).testBit i = x.testBit (w - 1 - i) := by
  induction w generalizing x i with
  | zero => omega
  | succ k ih =>
    have hlt : ∀ (y m : Nat), brev y m < 2 ^ m := by
      intro y m
      induction m generalizing y with
      | zero => simp [brev]
      | succ m ih => have := ih (y / 2); simp only [brev, pow_succ]; have h2 : y % 2 < 2 := Nat.mod_lt _ (by decide); have : y % 2 * 2 ^ m ≤ 1 * 2 ^ m := Nat.mul_le_mul_right _ (by omega); omega
    have hb := hlt (x / 2) k
    rw [brev]
    rw [Nat.mul_comm, Nat.testBit_two_pow_mul_add _ hb]
    split
    · rename_i h
      rw [ih _ _ h]
      rw [Nat.testBit_div_two]
      congr 1; omega
    · have : i = k := by omega
      subst this
      simp [Nat.testBit_zero]
theorem bitLen_at (x : Nat) : (∀ i, bitLen x ≤ i → x.testBit i = false) ∧ (0 < bitLen x → x.testBit (bitLen x - 1) = true) := by
  unfold bitLen
  split
  · rename_i h; subst h; simp
  · rename_i h
    refine ⟨fun i hi => ?_, fun _ => ?_⟩
    · exact Nat.testBit_lt_two_pow (lt_of_lt_of_le (Nat.lt_log2_self) (Nat.pow_le_pow_right (by decide) hi))
    · simp [Nat.testBit_log2 h]

theorem bfe_eq (signed : Bool) (a c : Word) : bfe signed a c =
    if (signed && decide (0 < ctlLen c) && a.toNat / 2 ^ ctlPos c % 2 ^ ctlLen c / 2 ^ (ctlLen c - 1) % 2 == 1) = true then
      BitVec.ofNat 32 (a.toNat / 2 ^ ctlPos c % 2 ^ ctlLen c + 2 ^ 32 - 2 ^ ctlLen c)
    else BitVec.ofNat 32 (a.toNat / 2 ^ ctlPos c % 2 ^ ctlLen c) := rfl

theorem bfe_at (signed : Bool) (a c : Word) (i : Nat) (hi : i < 32) : (bfe signed a c).getLsbD i = bfeBit signed a c i := by
  rw [bfe_eq]
  unfold bfeBit
  have hL : ctlLen c ≤ 32 := by unfold ctlLen; omega
  generalize hl : ctlLen c = L at *
  generalize hp : ctlPos c = P at *
  have e : ∀ j, a.getLsbD (P + j) = (a.toNat / 2 ^ P).testBit j := by
    intro j; rw [BitVec.getLsbD, Nat.testBit_div_two_pow, Nat.add_comm]
  have hf : ∀ j, (a.toNat / 2 ^ P % 2 ^ L).testBit j = (decide (j < L) && a.getLsbD (P + j)) := by
    intro j; rw [Nat.testBit_mod_two_pow, e]
  have hs : (a.toNat / 2 ^ P % 2 ^ L / 2 ^ (L - 1) % 2 == 1) = (decide (L - 1 < L) && a.getLsbD (P + (L - 1))) := by
    rw [← hf, Nat.testBit_eq_decide_div_mod_eq]; rfl
  generalize hF : a.toNat / 2 ^ P % 2 ^ L = F at *
  have hlt : F < 2 ^ L := by rw [← hF]; exact Nat.mod_lt _ (by positivity)
  rw [hs]
  split
  · rename_i h
    simp only [Bool.and_eq_true, decide_eq_true_eq] at h
    have h2 : 2 ^ L ≤ 2 ^ 32 := Nat.pow_le_pow_right (by decide) hL
    have e3 : F + 2 ^ 32 - 2 ^ L = 2 ^ L * (2 ^ (32 - L) - 1) + F := by
      have : 2 ^ 32 = 2 ^ L * 2 ^ (32 - L) := by rw [← pow_add]; congr 1; omega
      rw [Nat.mul_sub, ← this]; omega
    rw [BitVec.getLsbD_ofNat, e3, Nat.testBit_two_pow_mul_add _ hlt]
    simp only [hi, decide_true, Bool.true_and]
    split
    · rename_i h4; rw [hf]; simp [h4]
    · rename_i h4
      rw [Nat.testBit_two_pow_sub_one]
      simp [h.1.1, h.1.2, h.2.2]; omega
  · rename_i h
    rw [BitVec.getLsbD_ofNat, hf]
    simp only [hi, decide_true, Bool.true_and]
    split
    · rename_i h4; simp [h4]
    · rename_i h4
      simp only [h4, decide_false, Bool.false_and]
      by_cases h5 : signed = true ∧ 0 < L
      · have h6 : L - 1 < L := by omega
        simp only [h5.1, h5.2, h6, decide_true, Bool.true_and, Bool.and_true] at h ⊢
        simpa using h
      · cases signed <;> simp at h5 ⊢
        omega

theorem bfi_at (a b c : Word) (i : Nat) (hi : i < 32) : (bfi a b c).getLsbD i = bfiBit a b c i := by
  unfold bfi bfiBit
  show BitVec.getLsbD ((a &&& ~~~(BitVec.ofNat 32 ((2 ^ ctlLen c - 1) * 2 ^ ctlPos c))) ||| (BitVec.ofNat 32 (b.toNat * 2 ^ ctlPos c) &&& BitVec.ofNat 32 ((2 ^ ctlLen c - 1) * 2 ^ ctlPos c))) i = _
  generalize ctlLen c = L
  generalize ctlPos c = P
  have hm : ((2 ^ L - 1) * 2 ^ P).testBit i = decide (P ≤ i ∧ i < P + L) := by
    rw [Nat.mul_comm, Nat.testBit_two_pow_mul, Nat.testBit_two_pow_sub_one]
    by_cases h : P ≤ i
    · by_cases h2 : i < P + L
      · simp [h, h2]; omega
      · simp [h, h2]; omega
    · simp [h]
  have hb : (b.toNat * 2 ^ P).testBit i = (decide (P ≤ i) && b.getLsbD (i - P)) := by
    rw [Nat.mul_comm, Nat.testBit_two_pow_mul]; rfl
  simp only [BitVec.getLsbD_or, BitVec.getLsbD_and, BitVec.getLsbD_not, BitVec.getLsbD_ofNat, hi, decide_true, Bool.true_and, hm, hb]
  by_cases h : P ≤ i ∧ i < P + L
  · simp [h]
  · simp [h]

theorem permb_at (a b c : Word) : permb a b c =
    permByte a b (c.extractLsb' 12 4).toNat ++ permByte a b (c.extractLsb' 8 4).toNat ++ permByte a b (c.extractLsb' 4 4).toNat ++ permByte a b (c.extractLsb' 0 4).toNat := by
  have key : ∀ n : Nat, n < 4 → (let x := b.toNat * 2 ^ 32 + a.toNat
      let k := c.toNat / 2 ^ (4 * n) % 16
      let y := x / 2 ^ (8 * (k % 8)) % 256
      if k < 8 then y else if 128 ≤ y then 255 else 0) = (permByte a b (c.extractLsb' (4 * n) 4).toNat).toNat := by
    intro n hn
    have e1 : (c.extractLsb' (4 * n) 4).toNat = c.toNat / 2 ^ (4 * n) % 16 := by
      rw [BitVec.extractLsb'_toNat, Nat.shiftRight_eq_div_pow]
    have e2 : ((b ++ a : DWord)).toNat = b.toNat * 2 ^ 32 + a.toNat := by
      rw [BitVec.toNat_append, ← Nat.shiftLeft_add_eq_or_of_lt a.isLt, Nat.shiftLeft_eq]
    rw [e1]
    generalize c.toNat / 2 ^ (4 * n) % 16 = k
    have e3 : ((b ++ a : DWord).extractLsb' (8 * (k % 8)) 8).toNat = (b.toNat * 2 ^ 32 + a.toNat) / 2 ^ (8 * (k % 8)) % 256 := by
      rw [BitVec.extractLsb'_toNat, Nat.shiftRight_eq_div_pow, e2]
    unfold permByte
    dsimp only
    rw [BitVec.msb_eq_decide, e3]
    split
    · rw [e3]
    · generalize (b.toNat * 2 ^ 32 + a.toNat) / 2 ^ (8 * (k % 8)) % 256 = y
      by_cases h : 128 ≤ y <;> simp [h]
  apply BitVec.eq_of_toNat_eq
  have k0 := key 0 (by decide)
  have k1 := key 1 (by decide)
  have k2 := key 2 (by decide)
  have k3 := key 3 (by decide)
  unfold permb
  dsimp only at k0 k1 k2 k3 ⊢
  rw [k0, k1, k2, k3]
  simp only [BitVec.toNat_append, BitVec.toNat_ofNat]
  generalize permByte a b _ = x0
  generalize permByte a b _ = x1
  generalize permByte a b _ = x2
  generalize permByte a b _ = x3
  have h0 := x0.isLt
  have h1 := x1.isLt
  have h2 := x2.isLt
  have h3 := x3.isLt
  rw [← Nat.shiftLeft_add_eq_or_of_lt (by omega), ← Nat.shiftLeft_add_eq_or_of_lt (by omega), ← Nat.shiftLeft_add_eq_or_of_lt (by omega)]
  simp only [Nat.shiftLeft_eq]
  omega

end Sys2Proof.Machine
end

