-- ==== Sys2Proof/Laws/PerInstr.lean ====
section
/-!
SUPPORT. Encoding and decoding, instruction by instruction: the fields of every encoded instruction fit their places, and the decoder
reads the instruction back from them (R44 to R50, R53). What fields and parcels have to do with each other stands first.
-/
namespace Sys2Proof.Laws.Coding
open Sys2Proof Sys2Proof.Machine
set_option Elab.async false

/-! Codes -/

theorem ofByte_toByte (o : Opnd) : Opnd.ofByte o.toByte = o := by
  cases o with
  | v n => simp [Opnd.toByte, Opnd.ofByte, n.isLt]
  | s n => revert n; decide
  | x n => revert n; decide
  | p n => revert n; decide
  | rsv n => revert n; decide
  | _ => rfl
theorem toByte_lt (o : Opnd) : o.toByte < 256 := by
  cases o with
  | v n => simp only [Opnd.toByte]; omega
  | s n => simp only [Opnd.toByte]; omega
  | x n => simp only [Opnd.toByte]; omega
  | p n => simp only [Opnd.toByte]; omega
  | rsv n => simp only [Opnd.toByte]; omega
  | _ => decide
theorem predOf (p : Pred) : Pred.ofNat p.toNat = p := by
  obtain ⟨r, n⟩ := p; revert r n; decide
theorem pred_lt (p : Pred) : p.toNat < 16 := by obtain ⟨r, n⟩ := p; revert r n; decide
theorem pred_ne (p : Pred) (h : p.ok = true) : p.toNat ≠ 8 := by obtain ⟨r, n⟩ := p; revert r n; decide

theorem of_TypeCode (x : TypeCode) : TypeCode.ofCode x.toCode = some x := by cases x <;> rfl
theorem lt_TypeCode (x : TypeCode) : x.toCode < 32 := by cases x <;> decide
theorem of_IdCode (x : IdCode) : IdCode.ofCode x.toCode = some x := by cases x <;> rfl
theorem lt_IdCode (x : IdCode) : x.toCode < 32 := by cases x <;> decide
theorem of_EngClass (x : EngClass) : EngClass.ofCode x.toCode = some x := by cases x <;> rfl
theorem lt_EngClass (x : EngClass) : x.toCode < 32 := by cases x <;> decide
theorem of_Cond (x : Cond) : Cond.ofCode x.toCode = some x := by cases x <;> rfl
theorem lt_Cond (x : Cond) : x.toCode < 32 := by cases x <;> decide
theorem of_FCond (x : FCond) : FCond.ofCode x.toCode = some x := by cases x <;> rfl
theorem lt_FCond (x : FCond) : x.toCode < 32 := by cases x <;> decide
theorem of_ExtW (x : ExtW) : ExtW.ofCode x.toCode = some x := by cases x <;> rfl
theorem lt_ExtW (x : ExtW) : x.toCode < 32 := by cases x <;> decide
theorem of_Narrow (x : Narrow) : Narrow.ofCode x.toCode = some x := by cases x <;> rfl
theorem lt_Narrow (x : Narrow) : x.toCode < 32 := by cases x <;> decide
theorem of_Rnd (x : Rnd) : Rnd.ofCode x.toCode = some x := by cases x <;> rfl
theorem lt_Rnd (x : Rnd) : x.toCode < 32 := by cases x <;> decide
theorem of_SrcCode (x : SrcCode) : SrcCode.ofCode x.toCode = some x := by cases x <;> rfl
theorem lt_SrcCode (x : SrcCode) : x.toCode < 32 := by cases x <;> decide
theorem of_RedOp (x : RedOp) : RedOp.ofCode x.toCode = some x := by cases x <;> rfl
theorem lt_RedOp (x : RedOp) : x.toCode < 32 := by cases x <;> decide
theorem of_ShflMode (x : ShflMode) : ShflMode.ofCode x.toCode = some x := by cases x <;> rfl
theorem lt_ShflMode (x : ShflMode) : x.toCode < 32 := by cases x <;> decide
theorem of_VoteMode (x : VoteMode) : VoteMode.ofCode x.toCode = some x := by cases x <;> rfl
theorem lt_VoteMode (x : VoteMode) : x.toCode < 32 := by cases x <;> decide
theorem of_LdwSrc (x : LdwSrc) : LdwSrc.ofCode x.toCode = some x := by cases x <;> rfl
theorem lt_LdwSrc (x : LdwSrc) : x.toCode < 32 := by cases x <;> decide
theorem of_AtomOp (x : AtomOp) : AtomOp.ofCode x.toCode = some x := by cases x <;> rfl
theorem lt_AtomOp (x : AtomOp) : x.toCode < 32 := by cases x <;> decide
theorem of_TlbiScope (x : TlbiScope) : TlbiScope.ofCode x.toCode = some x := by cases x <;> rfl
theorem lt_TlbiScope (x : TlbiScope) : x.toCode < 32 := by cases x <;> decide
theorem of_DSp (x : DSp) : DSp.ofCode x.toCode = some x := by cases x <;> rfl
theorem lt_DSp (x : DSp) : x.toCode < 32 := by cases x <;> decide
theorem of_SSp (x : SSp) : SSp.ofCode x.toCode = some x := by cases x <;> rfl
theorem lt_SSp (x : SSp) : x.toCode < 32 := by cases x <;> decide
theorem of_Comb (x : Comb) : Comb.ofCode x.toCode x.toC = x := by cases x <;> simp [Comb.ofCode, Comb.toCode, Comb.toC, ofByte_toByte]
theorem lt_Comb (x : Comb) : x.toCode < 4 := by cases x <;> simp [Comb.toCode]
theorem toC_lt (x : Comb) : x.toC < 256 := by cases x <;> simp [Comb.toC, toByte_lt]
theorem lt_Bool (x : Bool) : x.toNat < 2 := by cases x <;> decide
theorem of_Bool (x : Bool) (n : Nat) (h : n = x.toNat) : (n == 1) = x := by subst h; cases x <;> rfl
theorem and_left {a b : Bool} (h : (a && b) = true) : a = true := by simp at h; exact h.1
theorem of_fin (k : Nat) (x : Fin k) (n : Nat) (h : n = x.val) : finOr k n = .ok x := by subst h; simp [finOr]
theorem fin_self {k : Nat} (x : Fin k) : finOr k x.val = .ok x := of_fin k x _ rfl
theorem or_some {α : Type} (x : α) : orCode (some x) = .ok x := rfl

/-! Fields and parcels -/

/-- Fields fit their places (R44). -/
structure Fits (r : Raw) : Prop where
  maj : r.maj < 64
  pred : r.pred < 16
  d : r.d < 256
  a : r.a < 256
  b : r.b < 256
  c : r.c < 256
  m : r.m < 4096
  fn : r.fn < 256
  s : r.fmt = .S → r.fn < 16 ∧ r.b = 0 ∧ r.c = 0 ∧ r.m = 0 ∧ r.imm = 0
  l : r.fmt = .L → r.imm = 0

/-- Fields that fit are read back from their parcels. -/
theorem fits_parcels (r : Raw) (h : Fits r) : r.toParcels = r.toParcels.map (fun n => n % 4294967296) ∧
    (∃ n t, r.toParcels = n :: t ∧ fmtOf n = some r.fmt) ∧
    Raw.ofParcels r.fmt (r.toParcels.getD 0 0) (r.toParcels.getD 1 0) (r.toParcels.getD 2 0) = r ∧ r.toParcels.length ≤ 3 := by
  obtain ⟨fmt, maj, fn, pred, d, a, b, c, m, imm⟩ := r
  obtain ⟨h1, h2, h3, h4, h5, h6, h7, h8, h9, h10⟩ := h
  simp only at h1 h2 h3 h4 h5 h6 h7 h8 h9 h10
  have hi := imm.isLt
  cases fmt
  · obtain ⟨hf, rfl, rfl, rfl, rfl⟩ := h9 rfl
    simp only [Raw.toParcels, Raw.ofParcels, List.map_cons, List.map_nil, List.cons.injEq, and_true, List.getD_cons_zero, List.length_cons,
      List.length_nil, Raw.mk.injEq, true_and]
    refine ⟨by omega, ⟨_, _, ⟨rfl, rfl⟩, ?_⟩, ?_, by omega⟩
    · unfold fmtOf; rw [show (1 + 4 * maj + 256 * pred + 4096 * fn + 65536 * d + 16777216 * a) % 4 = 1 by omega]; rfl
    · refine ⟨?_, ?_, ?_, ?_, ?_⟩ <;> omega
  · have := h10 rfl; subst this
    simp only [Raw.toParcels, Raw.ofParcels, List.map_cons, List.map_nil, List.cons.injEq, and_true, List.getD_cons_zero, List.getD_cons_succ,
      List.length_cons, List.length_nil, Raw.mk.injEq, true_and]
    refine ⟨⟨by omega, by omega⟩, ⟨_, _, ⟨rfl, rfl⟩, ?_⟩, ?_, by omega⟩
    · unfold fmtOf; rw [show (2 + 4 * maj + 256 * pred + 4096 * fn + 1048576 * d + 268435456 * (m % 16)) % 4 = 2 by omega]; rfl
    · refine ⟨?_, ?_, ?_, ?_, ?_, ?_, ?_, ?_⟩ <;> omega
  · simp only [Raw.toParcels, Raw.ofParcels, List.map_cons, List.map_nil, List.cons.injEq, and_true, List.getD_cons_zero, List.getD_cons_succ,
      List.length_cons, List.length_nil, Raw.mk.injEq, true_and]
    refine ⟨⟨by omega, by omega, by omega⟩, ⟨_, _, ⟨rfl, rfl⟩, ?_⟩, ?_, by omega⟩
    · unfold fmtOf; rw [show (3 + 4 * maj + 256 * pred + 4096 * fn + 1048576 * d + 268435456 * (m % 16)) % 4 = 3 by omega]; rfl
    · refine ⟨?_, ?_, ?_, ?_, ?_, ?_, ?_, ?_, ?_⟩
      any_goals omega
      simp

theorem fits_s {maj fn pred d a : Nat} (h1 : maj < 64) (h2 : fn < 16) (h3 : pred < 16) (h4 : d < 256) (h5 : a < 256) :
    Fits ⟨.S, maj, fn, pred, d, a, 0, 0, 0, 0⟩ :=
  ⟨h1, h3, h4, h5, Nat.zero_lt_succ _, Nat.zero_lt_succ _, Nat.zero_lt_succ _, Nat.lt_trans h2 (by decide),
    fun _ => ⟨h2, rfl, rfl, rfl, rfl⟩, fun _ => rfl⟩
theorem fits_l {maj fn pred d a b c m : Nat} (h1 : maj < 64) (h2 : fn < 256) (h3 : pred < 16) (h4 : d < 256) (h5 : a < 256) (h6 : b < 256)
    (h7 : c < 256) (h8 : m < 4096) : Fits ⟨.L, maj, fn, pred, d, a, b, c, m, 0⟩ :=
  ⟨h1, h3, h4, h5, h6, h7, h8, h2, nofun, fun _ => rfl⟩
theorem fits_x {maj fn pred d a b c m : Nat} {imm : Word} (h1 : maj < 64) (h2 : fn < 256) (h3 : pred < 16) (h4 : d < 256) (h5 : a < 256)
    (h6 : b < 256) (h7 : c < 256) (h8 : m < 4096) : Fits ⟨.X, maj, fn, pred, d, a, b, c, m, imm⟩ :=
  ⟨h1, h3, h4, h5, h6, h7, h8, h2, nofun, nofun⟩

/-- An instruction's fields fit their places, and where it is well-formed the decoder reads it back from them. -/
structure Coded (i : Instr) : Prop where
  fits : ∀ r, encodeRaw i = some r → Fits r
  reads : i.WellFormed → ∀ r, encodeRaw i = some r → decodeRaw r = .ok i

/-- What every instruction is shown to satisfy. -/
def Statement (i : Instr) : Prop := Coded i

theorem said {i : Instr} {r : Raw} {fs : List Fmt} {n : Nat} (he : encodeRaw i = some r) (hr : Fits r) (hm : majInfo r.maj = some (fs, n))
    (hf : fs.contains r.fmt = true) (hn : ¬ n ≤ r.fn) (hp : i.WellFormed → r.pred ≠ 8) (hk : pick r = .ok i) : Statement i := by
  refine ⟨fun q hq => ?_, fun hw q hq => ?_⟩ <;> rw [he] at hq <;> cases hq
  · exact hr
  unfold decodeRaw
  simp only [hm, hf, Bool.not_true, Bool.false_eq_true, if_false, hn, hp hw, hk, he, if_true]
theorem silent {i : Instr} (he : encodeRaw i = none) : Statement i :=
  ⟨fun r hr => (by rw [he] at hr; cases hr), fun _ r hr => (by rw [he] at hr; cases hr)⟩

/-! The instructions -/

theorem runCommit (r : PartRef) : Statement (.runCommit r) := silent rfl
theorem continueWithoutLogging (r : PartRef) : Statement (.continueWithoutLogging r) := silent rfl
theorem partSplit (r : PartRef) : Statement (.partSplit r) := silent rfl
theorem regangMerge (co : Nat) (g : Nat) : Statement (.regangMerge co g) := silent rfl
theorem claimGrant (core : Nat) (sub : Nat) : Statement (.claimGrant core sub) := silent rfl
theorem claimDeadlock (co : Nat) : Statement (.claimDeadlock co) := silent rfl
theorem trapEntry (r : PartRef) : Statement (.trapEntry r) := silent rfl
theorem ownershipRequest (e : Nat) : Statement (.ownershipRequest e) := silent rfl
theorem ownershipGrant (e : Nat) : Statement (.ownershipGrant e) := silent rfl
theorem storeBufferDrain (e : Nat) : Statement (.storeBufferDrain e) := silent rfl
theorem pageWalk (sec : Nat) : Statement (.pageWalk sec) := silent rfl
theorem loadReply (r : PartRef) : Statement (.loadReply r) := silent rfl
theorem homeSliceAtomic (qs : List Nat) : Statement (.homeSliceAtomic qs) := silent rfl
theorem atomicReply (q : Nat) : Statement (.atomicReply q) := silent rfl
theorem remoteRequestIngress (q : PeerReq) : Statement (.remoteRequestIngress q) := silent rfl
theorem remoteReply (q : Nat) (rep : RemoteRep) : Statement (.remoteReply q rep) := silent rfl
theorem remoteTimeout (q : Nat) : Statement (.remoteTimeout q) := silent rfl
theorem ioCompletion (q : Nat) (c : IoResult) : Statement (.ioCompletion q c) := silent rfl
theorem ioTimeout (q : Nat) : Statement (.ioTimeout q) := silent rfl
theorem copyChunkIssue (core : Nat) : Statement (.copyChunkIssue core) := silent rfl
theorem copyChunkData (core : Nat) (op : Nat) : Statement (.copyChunkData core op) := silent rfl
theorem matrixOperationStart (core : Nat) : Statement (.matrixOperationStart core) := silent rfl
theorem matrixRowEntry (core : Nat) : Statement (.matrixRowEntry core) := silent rfl
theorem matrixRowWrite (core : Nat) : Statement (.matrixRowWrite core) := silent rfl
theorem queueEnqueue (op : Nat) : Statement (.queueEnqueue op) := silent rfl
theorem enqueueRoomResume (q : QKey) : Statement (.enqueueRoomResume q) := silent rfl
theorem refillStart (q : QKey) : Statement (.refillStart q) := silent rfl
theorem refillComplete (q : QKey) : Statement (.refillComplete q) := silent rfl
theorem queueDequeue (q : QKey) : Statement (.queueDequeue q) := silent rfl
theorem qpopWaitServe (q : QKey) : Statement (.qpopWaitServe q) := silent rfl
theorem summaryPublish : Statement (.summaryPublish) := silent rfl
theorem summaryEntryArrive (dst : SumDst) (q : QKey) (len : Nat) (aged : Bool) : Statement (.summaryEntryArrive dst q len aged) := silent rfl
theorem launchDecision (core : Nat) : Statement (.launchDecision core) := silent rfl
theorem launchDelivery (core : Nat) : Statement (.launchDelivery core) := silent rfl
theorem flitReceive (port : Nat) (f : Flit) : Statement (.flitReceive port f) := silent rfl
theorem flitTransmit (port : Nat) : Statement (.flitTransmit port) := silent rfl
theorem replayTimeout (port : Nat) : Statement (.replayTimeout port) := silent rfl
theorem linkSilenceTimeout (port : Nat) : Statement (.linkSilenceTimeout port) := silent rfl
theorem linkTrainingSuccess (port : Nat) (peer : Fin 16) : Statement (.linkTrainingSuccess port peer) := silent rfl
theorem linkTrainingTimeout (port : Nat) : Statement (.linkTrainingTimeout port) := silent rfl
theorem tokenGrant (port : Nat) (part : Nat) : Statement (.tokenGrant port part) := silent rfl
theorem tokenTick : Statement (.tokenTick) := silent rfl
theorem lengthReportSend (entry : Nat) : Statement (.lengthReportSend entry) := silent rfl
theorem lengthReportReceive (entry : Nat) (len : Nat) (room : Nat) (rseq : Nat) : Statement (.lengthReportReceive entry len room rseq) := silent rfl
theorem portForwardDecision (port : Nat) : Statement (.portForwardDecision port) := silent rfl
theorem batchReceive (src : Fin 16) (back : Nat) (entry : Nat) (seq : Nat) (recs : List (List Byte × Bool)) (deadline : Nat) : Statement (.batchReceive src back entry seq recs deadline) := silent rfl
theorem batchAck (entry : Nat) (seq : Nat) : Statement (.batchAck entry seq) := silent rfl
theorem batchRefusal (entry : Nat) (seq : Nat) : Statement (.batchRefusal entry seq) := silent rfl
theorem batchTimeout (entry : Nat) (seq : Nat) : Statement (.batchTimeout entry seq) := silent rfl
theorem tierPageMove (part : Nat) : Statement (.tierPageMove part) := silent rfl
theorem tierMoveComplete (mv : Nat) : Statement (.tierMoveComplete mv) := silent rfl
theorem logClose (part : Nat) : Statement (.logClose part) := silent rfl
theorem tierJobComplete (part : Nat) : Statement (.tierJobComplete part) := silent rfl
theorem sliceExpiry (part : Nat) : Statement (.sliceExpiry part) := silent rfl
theorem haltComplete (part : Nat) : Statement (.haltComplete part) := silent rfl
theorem haltDeadlineKill (part : Nat) : Statement (.haltDeadlineKill part) := silent rfl
theorem haltDeadlineReset (part : Nat) : Statement (.haltDeadlineReset part) := silent rfl
theorem cctlCreate (part : Nat) : Statement (.cctlCreate part) := silent rfl
theorem cctlDestroy (part : Nat) : Statement (.cctlDestroy part) := silent rfl
theorem cctlReset (part : Nat) : Statement (.cctlReset part) := silent rfl
theorem hpctlCreate : Statement (.hpctlCreate) := silent rfl
theorem hpctlDestroy : Statement (.hpctlDestroy) := silent rfl
theorem hpctlReset : Statement (.hpctlReset) := silent rfl
theorem lendSection (part : Nat) (sec : Nat) (borrower : Nat) : Statement (.lendSection part sec borrower) := silent rfl
theorem reclaimSection (part : Nat) (sec : Nat) : Statement (.reclaimSection part sec) := silent rfl
theorem borrowerSpill (co : Nat) : Statement (.borrowerSpill co) := silent rfl
theorem softErrorCorrected (sec : Nat) : Statement (.softErrorCorrected sec) := silent rfl
theorem uncorrectableError (w : ErrTarget) : Statement (.uncorrectableError w) := silent rfl
theorem corruptHeader (h : RouterHit) : Statement (.corruptHeader h) := silent rfl
theorem hostMemoryRead (vf : Nat) (addr : Nat) (len : Nat) : Statement (.hostMemoryRead vf addr len) := silent rfl
theorem hostMemoryWrite (vf : Nat) (addr : Nat) (bs : List Byte) : Statement (.hostMemoryWrite vf addr bs) := silent rfl
theorem hostInvalidate (line : Nat) (bs : List Byte) : Statement (.hostInvalidate line bs) := silent rfl
theorem hostRecordWrite (vf : Nat) (off : Nat) (bs : List Byte) : Statement (.hostRecordWrite vf off bs) := silent rfl
theorem hostSinkRead (vf : Nat) (off : Nat) (len : Nat) : Statement (.hostSinkRead vf off len) := silent rfl
theorem lockInterface (vf : Nat) : Statement (.lockInterface vf) := silent rfl
theorem startInterface (vf : Nat) : Statement (.startInterface vf) := silent rfl
theorem stopInterface (vf : Nat) : Statement (.stopInterface vf) := silent rfl
theorem getMeasurements (vf : Nat) (nonce : List Byte) : Statement (.getMeasurements vf nonce) := silent rfl
theorem configWrite (vf : Nat) (item : Nat) (val : Word) : Statement (.configWrite vf item val) := silent rfl
theorem packageReset : Statement (.packageReset) := silent rfl
theorem powerLimitWrite (watts : Nat) : Statement (.powerLimitWrite watts) := silent rfl
theorem powerArbiterTick : Statement (.powerArbiterTick) := silent rfl
theorem freeze : Statement (.freeze) := silent rfl
theorem scanReadout : Statement (.scanReadout) := silent rfl
theorem batchDeadlineDiscard (entry : Nat) (seq : Nat) : Statement (.batchDeadlineDiscard entry seq) := silent rfl
theorem nop (p : Pred) : Statement (.nop p) := by
  let r : Raw := ⟨.S, 0, 0, p.toNat, 0, 0, 0, 0, 0, 0⟩
  refine said (r := r) rfl (fits_s (by decide) (by decide) (pred_lt p) (by decide) (by decide)) rfl rfl
    (show ¬ 6 ≤ 0 by decide) (fun hw => pred_ne _ hw) ?_
  show pickCtl r = .ok (.nop p)
  dsimp only [r]
  delta pickCtl
  simp only [predOf, Raw.p]
theorem exit (p : Pred) : Statement (.exit p) := by
  let r : Raw := ⟨.S, 0, 1, p.toNat, 0, 0, 0, 0, 0, 0⟩
  refine said (r := r) rfl (fits_s (by decide) (by decide) (pred_lt p) (by decide) (by decide)) rfl rfl
    (show ¬ 6 ≤ 1 by decide) (fun hw => pred_ne _ hw) ?_
  show pickCtl r = .ok (.exit p)
  dsimp only [r]
  delta pickCtl
  simp only [predOf, Raw.p]
theorem yield (p : Pred) : Statement (.yield p) := by
  let r : Raw := ⟨.S, 0, 2, p.toNat, 0, 0, 0, 0, 0, 0⟩
  refine said (r := r) rfl (fits_s (by decide) (by decide) (pred_lt p) (by decide) (by decide)) rfl rfl
    (show ¬ 6 ≤ 2 by decide) (fun hw => pred_ne _ hw) ?_
  show pickCtl r = .ok (.yield p)
  dsimp only [r]
  delta pickCtl
  simp only [predOf, Raw.p]
theorem elect (p : Pred) (d : Opnd) : Statement (.elect p d) := by
  let r : Raw := ⟨.S, 0, 3, p.toNat, d.toByte, 0, 0, 0, 0, 0⟩
  refine said (r := r) rfl (fits_s (by decide) (by decide) (pred_lt p) (toByte_lt d) (by decide)) rfl rfl
    (show ¬ 6 ≤ 3 by decide) (fun hw => pred_ne _ (and_left hw)) ?_
  show pickCtl r = .ok (.elect p d)
  dsimp only [r]
  delta pickCtl
  simp only [ofByte_toByte, predOf, Raw.p]
theorem getid (p : Pred) (d : Opnd) (id : IdCode) : Statement (.getid p d id) := by
  have := lt_IdCode id
  let r : Raw := ⟨.S, 0, 4, p.toNat, d.toByte, id.toCode, 0, 0, 0, 0⟩
  refine said (r := r) rfl (fits_s (by decide) (by decide) (pred_lt p) (toByte_lt d) (by omega)) rfl rfl
    (show ¬ 6 ≤ 4 by decide) (fun hw => pred_ne _ (and_left hw)) ?_
  show pickCtl r = .ok (.getid p d id)
  dsimp only [r]
  delta pickCtl
  simp only [or_some, ofByte_toByte, predOf, Raw.p, of_IdCode, bind, Except.bind]
theorem time (p : Pred) (d : Opnd) : Statement (.time p d) := by
  let r : Raw := ⟨.S, 0, 5, p.toNat, d.toByte, 0, 0, 0, 0, 0⟩
  refine said (r := r) rfl (fits_s (by decide) (by decide) (pred_lt p) (toByte_lt d) (by decide)) rfl rfl
    (show ¬ 6 ≤ 5 by decide) (fun hw => pred_ne _ (and_left hw)) ?_
  show pickCtl r = .ok (.time p d)
  dsimp only [r]
  delta pickCtl
  simp only [ofByte_toByte, predOf, Raw.p]
theorem bra (p : Pred) (imm : Word) : Statement (.bra p imm) := by
  let r : Raw := ⟨.X, 1, 0, p.toNat, 0, 0, 0, 0, 0, imm⟩
  refine said (r := r) rfl (fits_x (by decide) (by decide) (pred_lt p) (by decide) (by decide) (by decide) (by decide) (by decide)) rfl rfl
    (show ¬ 4 ≤ 0 by decide) (fun hw => pred_ne _ (and_left hw)) ?_
  show pickBranch r = .ok (.bra p imm)
  dsimp only [r]
  delta pickBranch
  simp only [predOf, Raw.p]
theorem brc (p : Pred) (a : Opnd) (all : Bool) (neg : Bool) (imm : Word) : Statement (.brc p a all neg imm) := by
  have := lt_Bool all; have := lt_Bool neg
  let r : Raw := ⟨.X, 1, 1, p.toNat, 0, a.toByte, 0, 0, all.toNat + neg.toNat * 2, imm⟩
  have h0 : Raw.bit r 0 = all := by exact of_Bool _ _ (by dsimp only [r]; omega)
  have h1 : Raw.bit r 1 = neg := by exact of_Bool _ _ (by dsimp only [r]; omega)
  refine said (r := r) rfl (fits_x (by decide) (by decide) (pred_lt p) (by decide) (toByte_lt a) (by decide) (by decide) (by omega)) rfl rfl
    (show ¬ 4 ≤ 1 by decide) (fun hw => pred_ne _ (and_left hw)) ?_
  show pickBranch r = .ok (.brc p a all neg imm)
  dsimp only [r] at h0 h1 ⊢
  delta pickBranch
  simp only [ofByte_toByte, predOf, Raw.p, h0, h1]
theorem call (p : Pred) (d : Opnd) (imm : Word) : Statement (.call p d imm) := by
  let r : Raw := ⟨.X, 1, 2, p.toNat, d.toByte, 0, 0, 0, 0, imm⟩
  refine said (r := r) rfl (fits_x (by decide) (by decide) (pred_lt p) (toByte_lt d) (by decide) (by decide) (by decide) (by decide)) rfl rfl
    (show ¬ 4 ≤ 2 by decide) (fun hw => pred_ne _ (and_left hw)) ?_
  show pickBranch r = .ok (.call p d imm)
  dsimp only [r]
  delta pickBranch
  simp only [ofByte_toByte, predOf, Raw.p]
theorem loop (d : Opnd) (imm : Word) : Statement (.loop d imm) := by
  let r : Raw := ⟨.X, 1, 3, 0, d.toByte, 0, 0, 0, 0, imm⟩
  refine said (r := r) rfl (fits_x (by decide) (by decide) (by decide) (toByte_lt d) (by decide) (by decide) (by decide) (by decide)) rfl rfl
    (show ¬ 4 ≤ 3 by decide) (fun _ => (show 0 ≠ 8 by decide)) ?_
  show pickBranch r = .ok (.loop d imm)
  dsimp only [r]
  delta pickBranch
  simp only [ofByte_toByte]
theorem brx (p : Pred) (a : Opnd) : Statement (.brx p a) := by
  let r : Raw := ⟨.L, 2, 0, p.toNat, 0, a.toByte, 0, 0, 0, 0⟩
  refine said (r := r) rfl (fits_l (by decide) (by decide) (pred_lt p) (by decide) (toByte_lt a) (by decide) (by decide) (by decide)) rfl rfl
    (show ¬ 3 ≤ 0 by decide) (fun hw => pred_ne _ (and_left hw)) ?_
  show pickBrind r = .ok (.brx p a)
  dsimp only [r]
  delta pickBrind
  simp only [ofByte_toByte, predOf, Raw.p]
theorem callx (p : Pred) (d : Opnd) (a : Opnd) : Statement (.callx p d a) := by
  let r : Raw := ⟨.L, 2, 1, p.toNat, d.toByte, a.toByte, 0, 0, 0, 0⟩
  refine said (r := r) rfl (fits_l (by decide) (by decide) (pred_lt p) (toByte_lt d) (toByte_lt a) (by decide) (by decide) (by decide)) rfl rfl
    (show ¬ 3 ≤ 1 by decide) (fun hw => pred_ne _ (and_left hw)) ?_
  show pickBrind r = .ok (.callx p d a)
  dsimp only [r]
  delta pickBrind
  simp only [ofByte_toByte, predOf, Raw.p]
theorem ret (p : Pred) (a : Opnd) : Statement (.ret p a) := by
  let r : Raw := ⟨.L, 2, 2, p.toNat, 0, a.toByte, 0, 0, 0, 0⟩
  refine said (r := r) rfl (fits_l (by decide) (by decide) (pred_lt p) (by decide) (toByte_lt a) (by decide) (by decide) (by decide)) rfl rfl
    (show ¬ 3 ≤ 2 by decide) (fun hw => pred_ne _ (and_left hw)) ?_
  show pickBrind r = .ok (.ret p a)
  dsimp only [r]
  delta pickBrind
  simp only [ofByte_toByte, predOf, Raw.p]
theorem endr (a : Opnd) (b : Opnd) (c : Opnd) : Statement (.endr a b c) := by
  let r : Raw := ⟨.L, 3, 0, 0, 0, a.toByte, b.toByte, c.toByte, 0, 0⟩
  refine said (r := r) rfl (fits_l (by decide) (by decide) (by decide) (by decide) (toByte_lt a) (toByte_lt b) (toByte_lt c) (by decide)) rfl rfl
    (show ¬ 7 ≤ 0 by decide) (fun _ => (show 0 ≠ 8 by decide)) ?_
  show pickSync r = .ok (.endr a b c)
  dsimp only [r]
  delta pickSync
  simp only [ofByte_toByte]
theorem regangL (a : Opnd) : Statement (.regangL a) := by
  let r : Raw := ⟨.L, 3, 1, 0, 0, a.toByte, 0, 0, 0, 0⟩
  refine said (r := r) rfl (fits_l (by decide) (by decide) (by decide) (by decide) (toByte_lt a) (by decide) (by decide) (by decide)) rfl rfl
    (show ¬ 7 ≤ 1 by decide) (fun _ => (show 0 ≠ 8 by decide)) ?_
  show pickSync r = .ok (.regangL a)
  dsimp only [r]
  delta pickSync
  simp only [ofByte_toByte]
theorem regangX (a : Opnd) (imm : Word) : Statement (.regangX a imm) := by
  let r : Raw := ⟨.X, 3, 1, 0, 0, a.toByte, 0, 0, 0, imm⟩
  refine said (r := r) rfl (fits_x (by decide) (by decide) (by decide) (by decide) (toByte_lt a) (by decide) (by decide) (by decide)) rfl rfl
    (show ¬ 7 ≤ 1 by decide) (fun _ => (show 0 ≠ 8 by decide)) ?_
  show pickSync r = .ok (.regangX a imm)
  dsimp only [r]
  delta pickSync
  simp only [ofByte_toByte]
theorem barL (a : Opnd) : Statement (.barL a) := by
  let r : Raw := ⟨.L, 3, 2, 0, 0, a.toByte, 0, 0, 0, 0⟩
  refine said (r := r) rfl (fits_l (by decide) (by decide) (by decide) (by decide) (toByte_lt a) (by decide) (by decide) (by decide)) rfl rfl
    (show ¬ 7 ≤ 2 by decide) (fun _ => (show 0 ≠ 8 by decide)) ?_
  show pickSync r = .ok (.barL a)
  dsimp only [r]
  delta pickSync
  simp only [ofByte_toByte]
theorem barX (a : Opnd) (imm : Word) : Statement (.barX a imm) := by
  let r : Raw := ⟨.X, 3, 2, 0, 0, a.toByte, 0, 0, 0, imm⟩
  refine said (r := r) rfl (fits_x (by decide) (by decide) (by decide) (by decide) (toByte_lt a) (by decide) (by decide) (by decide)) rfl rfl
    (show ¬ 7 ≤ 2 by decide) (fun _ => (show 0 ≠ 8 by decide)) ?_
  show pickSync r = .ok (.barX a imm)
  dsimp only [r]
  delta pickSync
  simp only [ofByte_toByte]
theorem waiteL (a : Opnd) (cls : EngClass) : Statement (.waiteL a cls) := by
  have := lt_EngClass cls; have : cls.toCode < 2 ^ 2 := (by cases cls <;> decide)
  let r : Raw := ⟨.L, 3, 3, 0, 0, a.toByte, 0, 0, cls.toCode, 0⟩
  have h0 : Raw.bits r 0 2 = cls.toCode := by dsimp only [r, Raw.bits]; omega
  refine said (r := r) rfl (fits_l (by decide) (by decide) (by decide) (by decide) (toByte_lt a) (by decide) (by decide) (by omega)) rfl rfl
    (show ¬ 7 ≤ 3 by decide) (fun _ => (show 0 ≠ 8 by decide)) ?_
  show pickSync r = .ok (.waiteL a cls)
  dsimp only [r] at h0 ⊢
  delta pickSync
  simp only [or_some, ofByte_toByte, h0, of_EngClass, bind, Except.bind]
theorem waiteX (a : Opnd) (cls : EngClass) (imm : Word) : Statement (.waiteX a cls imm) := by
  have := lt_EngClass cls; have : cls.toCode < 2 ^ 2 := (by cases cls <;> decide)
  let r : Raw := ⟨.X, 3, 3, 0, 0, a.toByte, 0, 0, cls.toCode, imm⟩
  have h0 : Raw.bits r 0 2 = cls.toCode := by dsimp only [r, Raw.bits]; omega
  refine said (r := r) rfl (fits_x (by decide) (by decide) (by decide) (by decide) (toByte_lt a) (by decide) (by decide) (by omega)) rfl rfl
    (show ¬ 7 ≤ 3 by decide) (fun _ => (show 0 ≠ 8 by decide)) ?_
  show pickSync r = .ok (.waiteX a cls imm)
  dsimp only [r] at h0 ⊢
  delta pickSync
  simp only [or_some, ofByte_toByte, h0, of_EngClass, bind, Except.bind]
theorem rclaim (a : Opnd) (imm : Word) : Statement (.rclaim a imm) := by
  let r : Raw := ⟨.X, 3, 4, 0, 0, a.toByte, 0, 0, 0, imm⟩
  refine said (r := r) rfl (fits_x (by decide) (by decide) (by decide) (by decide) (toByte_lt a) (by decide) (by decide) (by decide)) rfl rfl
    (show ¬ 7 ≤ 4 by decide) (fun _ => (show 0 ≠ 8 by decide)) ?_
  show pickSync r = .ok (.rclaim a imm)
  dsimp only [r]
  delta pickSync
  simp only [ofByte_toByte]
theorem rrelease (a : Opnd) (imm : Word) : Statement (.rrelease a imm) := by
  let r : Raw := ⟨.X, 3, 5, 0, 0, a.toByte, 0, 0, 0, imm⟩
  refine said (r := r) rfl (fits_x (by decide) (by decide) (by decide) (by decide) (toByte_lt a) (by decide) (by decide) (by decide)) rfl rfl
    (show ¬ 7 ≤ 5 by decide) (fun _ => (show 0 ≠ 8 by decide)) ?_
  show pickSync r = .ok (.rrelease a imm)
  dsimp only [r]
  delta pickSync
  simp only [ofByte_toByte]
theorem pinfo (p : Pred) (d : Opnd) : Statement (.pinfo p d) := by
  let r : Raw := ⟨.L, 3, 6, p.toNat, d.toByte, 0, 0, 0, 0, 0⟩
  refine said (r := r) rfl (fits_l (by decide) (by decide) (pred_lt p) (toByte_lt d) (by decide) (by decide) (by decide) (by decide)) rfl rfl
    (show ¬ 7 ≤ 6 by decide) (fun hw => pred_ne _ (and_left hw)) ?_
  show pickSync r = .ok (.pinfo p d)
  dsimp only [r]
  delta pickSync
  simp only [ofByte_toByte, predOf, Raw.p]
theorem addL (p : Pred) (t : TypeCode) (sat : Bool) (d : Opnd) (a : Opnd) (b : Opnd) : Statement (.addL p t sat d a b) := by
  have := lt_TypeCode t; have := lt_Bool sat
  let r : Raw := ⟨.L, 4, 0, p.toNat, d.toByte, a.toByte, b.toByte, 0, t.toCode * 16 + sat.toNat, 0⟩
  have h0 : Raw.bits r 4 5 = t.toCode := by dsimp only [r, Raw.bits]; omega
  have h1 : Raw.bit r 0 = sat := by exact of_Bool _ _ (by dsimp only [r]; omega)
  refine said (r := r) rfl (fits_l (by decide) (by decide) (pred_lt p) (toByte_lt d) (toByte_lt a) (toByte_lt b) (by decide) (by omega)) rfl rfl
    (show ¬ 14 ≤ 0 by decide) (fun hw => pred_ne _ (and_left hw)) ?_
  show pickIarith r = .ok (.addL p t sat d a b)
  dsimp only [r] at h0 h1 ⊢
  delta pickIarith
  simp only [or_some, ofByte_toByte, predOf, Raw.p, h0, of_TypeCode, h1, bind, Except.bind]
theorem addX (p : Pred) (t : TypeCode) (sat : Bool) (d : Opnd) (a : Opnd) (b : Opnd) (imm : Word) : Statement (.addX p t sat d a b imm) := by
  have := lt_TypeCode t; have := lt_Bool sat
  let r : Raw := ⟨.X, 4, 0, p.toNat, d.toByte, a.toByte, b.toByte, 0, t.toCode * 16 + sat.toNat, imm⟩
  have h0 : Raw.bits r 4 5 = t.toCode := by dsimp only [r, Raw.bits]; omega
  have h1 : Raw.bit r 0 = sat := by exact of_Bool _ _ (by dsimp only [r]; omega)
  refine said (r := r) rfl (fits_x (by decide) (by decide) (pred_lt p) (toByte_lt d) (toByte_lt a) (toByte_lt b) (by decide) (by omega)) rfl rfl
    (show ¬ 14 ≤ 0 by decide) (fun hw => pred_ne _ (and_left hw)) ?_
  show pickIarith r = .ok (.addX p t sat d a b imm)
  dsimp only [r] at h0 h1 ⊢
  delta pickIarith
  simp only [or_some, ofByte_toByte, predOf, Raw.p, h0, of_TypeCode, h1, bind, Except.bind]
theorem subL (p : Pred) (t : TypeCode) (sat : Bool) (d : Opnd) (a : Opnd) (b : Opnd) : Statement (.subL p t sat d a b) := by
  have := lt_TypeCode t; have := lt_Bool sat
  let r : Raw := ⟨.L, 4, 1, p.toNat, d.toByte, a.toByte, b.toByte, 0, t.toCode * 16 + sat.toNat, 0⟩
  have h0 : Raw.bits r 4 5 = t.toCode := by dsimp only [r, Raw.bits]; omega
  have h1 : Raw.bit r 0 = sat := by exact of_Bool _ _ (by dsimp only [r]; omega)
  refine said (r := r) rfl (fits_l (by decide) (by decide) (pred_lt p) (toByte_lt d) (toByte_lt a) (toByte_lt b) (by decide) (by omega)) rfl rfl
    (show ¬ 14 ≤ 1 by decide) (fun hw => pred_ne _ (and_left hw)) ?_
  show pickIarith r = .ok (.subL p t sat d a b)
  dsimp only [r] at h0 h1 ⊢
  delta pickIarith
  simp only [or_some, ofByte_toByte, predOf, Raw.p, h0, of_TypeCode, h1, bind, Except.bind]
theorem subX (p : Pred) (t : TypeCode) (sat : Bool) (d : Opnd) (a : Opnd) (b : Opnd) (imm : Word) : Statement (.subX p t sat d a b imm) := by
  have := lt_TypeCode t; have := lt_Bool sat
  let r : Raw := ⟨.X, 4, 1, p.toNat, d.toByte, a.toByte, b.toByte, 0, t.toCode * 16 + sat.toNat, imm⟩
  have h0 : Raw.bits r 4 5 = t.toCode := by dsimp only [r, Raw.bits]; omega
  have h1 : Raw.bit r 0 = sat := by exact of_Bool _ _ (by dsimp only [r]; omega)
  refine said (r := r) rfl (fits_x (by decide) (by decide) (pred_lt p) (toByte_lt d) (toByte_lt a) (toByte_lt b) (by decide) (by omega)) rfl rfl
    (show ¬ 14 ≤ 1 by decide) (fun hw => pred_ne _ (and_left hw)) ?_
  show pickIarith r = .ok (.subX p t sat d a b imm)
  dsimp only [r] at h0 h1 ⊢
  delta pickIarith
  simp only [or_some, ofByte_toByte, predOf, Raw.p, h0, of_TypeCode, h1, bind, Except.bind]
theorem add64L (p : Pred) (t : TypeCode) (sat : Bool) (d : Opnd) (a : Opnd) (b : Opnd) : Statement (.add64L p t sat d a b) := by
  have := lt_TypeCode t; have := lt_Bool sat
  let r : Raw := ⟨.L, 4, 2, p.toNat, d.toByte, a.toByte, b.toByte, 0, t.toCode * 16 + sat.toNat, 0⟩
  have h0 : Raw.bits r 4 5 = t.toCode := by dsimp only [r, Raw.bits]; omega
  have h1 : Raw.bit r 0 = sat := by exact of_Bool _ _ (by dsimp only [r]; omega)
  refine said (r := r) rfl (fits_l (by decide) (by decide) (pred_lt p) (toByte_lt d) (toByte_lt a) (toByte_lt b) (by decide) (by omega)) rfl rfl
    (show ¬ 14 ≤ 2 by decide) (fun hw => pred_ne _ (and_left hw)) ?_
  show pickIarith r = .ok (.add64L p t sat d a b)
  dsimp only [r] at h0 h1 ⊢
  delta pickIarith
  simp only [or_some, ofByte_toByte, predOf, Raw.p, h0, of_TypeCode, h1, bind, Except.bind]
theorem add64X (p : Pred) (t : TypeCode) (sat : Bool) (d : Opnd) (a : Opnd) (b : Opnd) (imm : Word) : Statement (.add64X p t sat d a b imm) := by
  have := lt_TypeCode t; have := lt_Bool sat
  let r : Raw := ⟨.X, 4, 2, p.toNat, d.toByte, a.toByte, b.toByte, 0, t.toCode * 16 + sat.toNat, imm⟩
  have h0 : Raw.bits r 4 5 = t.toCode := by dsimp only [r, Raw.bits]; omega
  have h1 : Raw.bit r 0 = sat := by exact of_Bool _ _ (by dsimp only [r]; omega)
  refine said (r := r) rfl (fits_x (by decide) (by decide) (pred_lt p) (toByte_lt d) (toByte_lt a) (toByte_lt b) (by decide) (by omega)) rfl rfl
    (show ¬ 14 ≤ 2 by decide) (fun hw => pred_ne _ (and_left hw)) ?_
  show pickIarith r = .ok (.add64X p t sat d a b imm)
  dsimp only [r] at h0 h1 ⊢
  delta pickIarith
  simp only [or_some, ofByte_toByte, predOf, Raw.p, h0, of_TypeCode, h1, bind, Except.bind]
theorem sub64L (p : Pred) (t : TypeCode) (sat : Bool) (d : Opnd) (a : Opnd) (b : Opnd) : Statement (.sub64L p t sat d a b) := by
  have := lt_TypeCode t; have := lt_Bool sat
  let r : Raw := ⟨.L, 4, 3, p.toNat, d.toByte, a.toByte, b.toByte, 0, t.toCode * 16 + sat.toNat, 0⟩
  have h0 : Raw.bits r 4 5 = t.toCode := by dsimp only [r, Raw.bits]; omega
  have h1 : Raw.bit r 0 = sat := by exact of_Bool _ _ (by dsimp only [r]; omega)
  refine said (r := r) rfl (fits_l (by decide) (by decide) (pred_lt p) (toByte_lt d) (toByte_lt a) (toByte_lt b) (by decide) (by omega)) rfl rfl
    (show ¬ 14 ≤ 3 by decide) (fun hw => pred_ne _ (and_left hw)) ?_
  show pickIarith r = .ok (.sub64L p t sat d a b)
  dsimp only [r] at h0 h1 ⊢
  delta pickIarith
  simp only [or_some, ofByte_toByte, predOf, Raw.p, h0, of_TypeCode, h1, bind, Except.bind]
theorem sub64X (p : Pred) (t : TypeCode) (sat : Bool) (d : Opnd) (a : Opnd) (b : Opnd) (imm : Word) : Statement (.sub64X p t sat d a b imm) := by
  have := lt_TypeCode t; have := lt_Bool sat
  let r : Raw := ⟨.X, 4, 3, p.toNat, d.toByte, a.toByte, b.toByte, 0, t.toCode * 16 + sat.toNat, imm⟩
  have h0 : Raw.bits r 4 5 = t.toCode := by dsimp only [r, Raw.bits]; omega
  have h1 : Raw.bit r 0 = sat := by exact of_Bool _ _ (by dsimp only [r]; omega)
  refine said (r := r) rfl (fits_x (by decide) (by decide) (pred_lt p) (toByte_lt d) (toByte_lt a) (toByte_lt b) (by decide) (by omega)) rfl rfl
    (show ¬ 14 ≤ 3 by decide) (fun hw => pred_ne _ (and_left hw)) ?_
  show pickIarith r = .ok (.sub64X p t sat d a b imm)
  dsimp only [r] at h0 h1 ⊢
  delta pickIarith
  simp only [or_some, ofByte_toByte, predOf, Raw.p, h0, of_TypeCode, h1, bind, Except.bind]
theorem mulL (p : Pred) (t : TypeCode) (sat : Bool) (d : Opnd) (a : Opnd) (b : Opnd) : Statement (.mulL p t sat d a b) := by
  have := lt_TypeCode t; have := lt_Bool sat
  let r : Raw := ⟨.L, 4, 4, p.toNat, d.toByte, a.toByte, b.toByte, 0, t.toCode * 16 + sat.toNat, 0⟩
  have h0 : Raw.bits r 4 5 = t.toCode := by dsimp only [r, Raw.bits]; omega
  have h1 : Raw.bit r 0 = sat := by exact of_Bool _ _ (by dsimp only [r]; omega)
  refine said (r := r) rfl (fits_l (by decide) (by decide) (pred_lt p) (toByte_lt d) (toByte_lt a) (toByte_lt b) (by decide) (by omega)) rfl rfl
    (show ¬ 14 ≤ 4 by decide) (fun hw => pred_ne _ (and_left hw)) ?_
  show pickIarith r = .ok (.mulL p t sat d a b)
  dsimp only [r] at h0 h1 ⊢
  delta pickIarith
  simp only [or_some, ofByte_toByte, predOf, Raw.p, h0, of_TypeCode, h1, bind, Except.bind]
theorem mulX (p : Pred) (t : TypeCode) (sat : Bool) (d : Opnd) (a : Opnd) (b : Opnd) (imm : Word) : Statement (.mulX p t sat d a b imm) := by
  have := lt_TypeCode t; have := lt_Bool sat
  let r : Raw := ⟨.X, 4, 4, p.toNat, d.toByte, a.toByte, b.toByte, 0, t.toCode * 16 + sat.toNat, imm⟩
  have h0 : Raw.bits r 4 5 = t.toCode := by dsimp only [r, Raw.bits]; omega
  have h1 : Raw.bit r 0 = sat := by exact of_Bool _ _ (by dsimp only [r]; omega)
  refine said (r := r) rfl (fits_x (by decide) (by decide) (pred_lt p) (toByte_lt d) (toByte_lt a) (toByte_lt b) (by decide) (by omega)) rfl rfl
    (show ¬ 14 ≤ 4 by decide) (fun hw => pred_ne _ (and_left hw)) ?_
  show pickIarith r = .ok (.mulX p t sat d a b imm)
  dsimp only [r] at h0 h1 ⊢
  delta pickIarith
  simp only [or_some, ofByte_toByte, predOf, Raw.p, h0, of_TypeCode, h1, bind, Except.bind]
theorem mulhiL (p : Pred) (t : TypeCode) (d : Opnd) (a : Opnd) (b : Opnd) : Statement (.mulhiL p t d a b) := by
  have := lt_TypeCode t
  let r : Raw := ⟨.L, 4, 5, p.toNat, d.toByte, a.toByte, b.toByte, 0, t.toCode * 16, 0⟩
  have h0 : Raw.bits r 4 5 = t.toCode := by dsimp only [r, Raw.bits]; omega
  refine said (r := r) rfl (fits_l (by decide) (by decide) (pred_lt p) (toByte_lt d) (toByte_lt a) (toByte_lt b) (by decide) (by omega)) rfl rfl
    (show ¬ 14 ≤ 5 by decide) (fun hw => pred_ne _ (and_left hw)) ?_
  show pickIarith r = .ok (.mulhiL p t d a b)
  dsimp only [r] at h0 ⊢
  delta pickIarith
  simp only [or_some, ofByte_toByte, predOf, Raw.p, h0, of_TypeCode, bind, Except.bind]
theorem mulhiX (p : Pred) (t : TypeCode) (d : Opnd) (a : Opnd) (b : Opnd) (imm : Word) : Statement (.mulhiX p t d a b imm) := by
  have := lt_TypeCode t
  let r : Raw := ⟨.X, 4, 5, p.toNat, d.toByte, a.toByte, b.toByte, 0, t.toCode * 16, imm⟩
  have h0 : Raw.bits r 4 5 = t.toCode := by dsimp only [r, Raw.bits]; omega
  refine said (r := r) rfl (fits_x (by decide) (by decide) (pred_lt p) (toByte_lt d) (toByte_lt a) (toByte_lt b) (by decide) (by omega)) rfl rfl
    (show ¬ 14 ≤ 5 by decide) (fun hw => pred_ne _ (and_left hw)) ?_
  show pickIarith r = .ok (.mulhiX p t d a b imm)
  dsimp only [r] at h0 ⊢
  delta pickIarith
  simp only [or_some, ofByte_toByte, predOf, Raw.p, h0, of_TypeCode, bind, Except.bind]
theorem madL (p : Pred) (t : TypeCode) (sat : Bool) (d : Opnd) (a : Opnd) (b : Opnd) (c : Opnd) : Statement (.madL p t sat d a b c) := by
  have := lt_TypeCode t; have := lt_Bool sat
  let r : Raw := ⟨.L, 4, 6, p.toNat, d.toByte, a.toByte, b.toByte, c.toByte, t.toCode * 16 + sat.toNat, 0⟩
  have h0 : Raw.bits r 4 5 = t.toCode := by dsimp only [r, Raw.bits]; omega
  have h1 : Raw.bit r 0 = sat := by exact of_Bool _ _ (by dsimp only [r]; omega)
  refine said (r := r) rfl (fits_l (by decide) (by decide) (pred_lt p) (toByte_lt d) (toByte_lt a) (toByte_lt b) (toByte_lt c) (by omega)) rfl rfl
    (show ¬ 14 ≤ 6 by decide) (fun hw => pred_ne _ (and_left hw)) ?_
  show pickIarith r = .ok (.madL p t sat d a b c)
  dsimp only [r] at h0 h1 ⊢
  delta pickIarith
  simp only [or_some, ofByte_toByte, predOf, Raw.p, h0, of_TypeCode, h1, bind, Except.bind]
theorem madX (p : Pred) (t : TypeCode) (sat : Bool) (d : Opnd) (a : Opnd) (b : Opnd) (c : Opnd) (imm : Word) : Statement (.madX p t sat d a b c imm) := by
  have := lt_TypeCode t; have := lt_Bool sat
  let r : Raw := ⟨.X, 4, 6, p.toNat, d.toByte, a.toByte, b.toByte, c.toByte, t.toCode * 16 + sat.toNat, imm⟩
  have h0 : Raw.bits r 4 5 = t.toCode := by dsimp only [r, Raw.bits]; omega
  have h1 : Raw.bit r 0 = sat := by exact of_Bool _ _ (by dsimp only [r]; omega)
  refine said (r := r) rfl (fits_x (by decide) (by decide) (pred_lt p) (toByte_lt d) (toByte_lt a) (toByte_lt b) (toByte_lt c) (by omega)) rfl rfl
    (show ¬ 14 ≤ 6 by decide) (fun hw => pred_ne _ (and_left hw)) ?_
  show pickIarith r = .ok (.madX p t sat d a b c imm)
  dsimp only [r] at h0 h1 ⊢
  delta pickIarith
  simp only [or_some, ofByte_toByte, predOf, Raw.p, h0, of_TypeCode, h1, bind, Except.bind]
theorem madwL (p : Pred) (t : TypeCode) (sat : Bool) (d : Opnd) (a : Opnd) (b : Opnd) (c : Opnd) : Statement (.madwL p t sat d a b c) := by
  have := lt_TypeCode t; have := lt_Bool sat
  let r : Raw := ⟨.L, 4, 7, p.toNat, d.toByte, a.toByte, b.toByte, c.toByte, t.toCode * 16 + sat.toNat, 0⟩
  have h0 : Raw.bits r 4 5 = t.toCode := by dsimp only [r, Raw.bits]; omega
  have h1 : Raw.bit r 0 = sat := by exact of_Bool _ _ (by dsimp only [r]; omega)
  refine said (r := r) rfl (fits_l (by decide) (by decide) (pred_lt p) (toByte_lt d) (toByte_lt a) (toByte_lt b) (toByte_lt c) (by omega)) rfl rfl
    (show ¬ 14 ≤ 7 by decide) (fun hw => pred_ne _ (and_left hw)) ?_
  show pickIarith r = .ok (.madwL p t sat d a b c)
  dsimp only [r] at h0 h1 ⊢
  delta pickIarith
  simp only [or_some, ofByte_toByte, predOf, Raw.p, h0, of_TypeCode, h1, bind, Except.bind]
theorem madwX (p : Pred) (t : TypeCode) (sat : Bool) (d : Opnd) (a : Opnd) (b : Opnd) (c : Opnd) (imm : Word) : Statement (.madwX p t sat d a b c imm) := by
  have := lt_TypeCode t; have := lt_Bool sat
  let r : Raw := ⟨.X, 4, 7, p.toNat, d.toByte, a.toByte, b.toByte, c.toByte, t.toCode * 16 + sat.toNat, imm⟩
  have h0 : Raw.bits r 4 5 = t.toCode := by dsimp only [r, Raw.bits]; omega
  have h1 : Raw.bit r 0 = sat := by exact of_Bool _ _ (by dsimp only [r]; omega)
  refine said (r := r) rfl (fits_x (by decide) (by decide) (pred_lt p) (toByte_lt d) (toByte_lt a) (toByte_lt b) (toByte_lt c) (by omega)) rfl rfl
    (show ¬ 14 ≤ 7 by decide) (fun hw => pred_ne _ (and_left hw)) ?_
  show pickIarith r = .ok (.madwX p t sat d a b c imm)
  dsimp only [r] at h0 h1 ⊢
  delta pickIarith
  simp only [or_some, ofByte_toByte, predOf, Raw.p, h0, of_TypeCode, h1, bind, Except.bind]
theorem divL (p : Pred) (t : TypeCode) (d : Opnd) (a : Opnd) (b : Opnd) : Statement (.divL p t d a b) := by
  have := lt_TypeCode t
  let r : Raw := ⟨.L, 4, 8, p.toNat, d.toByte, a.toByte, b.toByte, 0, t.toCode * 16, 0⟩
  have h0 : Raw.bits r 4 5 = t.toCode := by dsimp only [r, Raw.bits]; omega
  refine said (r := r) rfl (fits_l (by decide) (by decide) (pred_lt p) (toByte_lt d) (toByte_lt a) (toByte_lt b) (by decide) (by omega)) rfl rfl
    (show ¬ 14 ≤ 8 by decide) (fun hw => pred_ne _ (and_left hw)) ?_
  show pickIarith r = .ok (.divL p t d a b)
  dsimp only [r] at h0 ⊢
  delta pickIarith
  simp only [or_some, ofByte_toByte, predOf, Raw.p, h0, of_TypeCode, bind, Except.bind]
theorem divX (p : Pred) (t : TypeCode) (d : Opnd) (a : Opnd) (b : Opnd) (imm : Word) : Statement (.divX p t d a b imm) := by
  have := lt_TypeCode t
  let r : Raw := ⟨.X, 4, 8, p.toNat, d.toByte, a.toByte, b.toByte, 0, t.toCode * 16, imm⟩
  have h0 : Raw.bits r 4 5 = t.toCode := by dsimp only [r, Raw.bits]; omega
  refine said (r := r) rfl (fits_x (by decide) (by decide) (pred_lt p) (toByte_lt d) (toByte_lt a) (toByte_lt b) (by decide) (by omega)) rfl rfl
    (show ¬ 14 ≤ 8 by decide) (fun hw => pred_ne _ (and_left hw)) ?_
  show pickIarith r = .ok (.divX p t d a b imm)
  dsimp only [r] at h0 ⊢
  delta pickIarith
  simp only [or_some, ofByte_toByte, predOf, Raw.p, h0, of_TypeCode, bind, Except.bind]
theorem remL (p : Pred) (t : TypeCode) (d : Opnd) (a : Opnd) (b : Opnd) : Statement (.remL p t d a b) := by
  have := lt_TypeCode t
  let r : Raw := ⟨.L, 4, 9, p.toNat, d.toByte, a.toByte, b.toByte, 0, t.toCode * 16, 0⟩
  have h0 : Raw.bits r 4 5 = t.toCode := by dsimp only [r, Raw.bits]; omega
  refine said (r := r) rfl (fits_l (by decide) (by decide) (pred_lt p) (toByte_lt d) (toByte_lt a) (toByte_lt b) (by decide) (by omega)) rfl rfl
    (show ¬ 14 ≤ 9 by decide) (fun hw => pred_ne _ (and_left hw)) ?_
  show pickIarith r = .ok (.remL p t d a b)
  dsimp only [r] at h0 ⊢
  delta pickIarith
  simp only [or_some, ofByte_toByte, predOf, Raw.p, h0, of_TypeCode, bind, Except.bind]
theorem remX (p : Pred) (t : TypeCode) (d : Opnd) (a : Opnd) (b : Opnd) (imm : Word) : Statement (.remX p t d a b imm) := by
  have := lt_TypeCode t
  let r : Raw := ⟨.X, 4, 9, p.toNat, d.toByte, a.toByte, b.toByte, 0, t.toCode * 16, imm⟩
  have h0 : Raw.bits r 4 5 = t.toCode := by dsimp only [r, Raw.bits]; omega
  refine said (r := r) rfl (fits_x (by decide) (by decide) (pred_lt p) (toByte_lt d) (toByte_lt a) (toByte_lt b) (by decide) (by omega)) rfl rfl
    (show ¬ 14 ≤ 9 by decide) (fun hw => pred_ne _ (and_left hw)) ?_
  show pickIarith r = .ok (.remX p t d a b imm)
  dsimp only [r] at h0 ⊢
  delta pickIarith
  simp only [or_some, ofByte_toByte, predOf, Raw.p, h0, of_TypeCode, bind, Except.bind]
theorem minL (p : Pred) (t : TypeCode) (d : Opnd) (a : Opnd) (b : Opnd) : Statement (.minL p t d a b) := by
  have := lt_TypeCode t
  let r : Raw := ⟨.L, 4, 10, p.toNat, d.toByte, a.toByte, b.toByte, 0, t.toCode * 16, 0⟩
  have h0 : Raw.bits r 4 5 = t.toCode := by dsimp only [r, Raw.bits]; omega
  refine said (r := r) rfl (fits_l (by decide) (by decide) (pred_lt p) (toByte_lt d) (toByte_lt a) (toByte_lt b) (by decide) (by omega)) rfl rfl
    (show ¬ 14 ≤ 10 by decide) (fun hw => pred_ne _ (and_left hw)) ?_
  show pickIarith r = .ok (.minL p t d a b)
  dsimp only [r] at h0 ⊢
  delta pickIarith
  simp only [or_some, ofByte_toByte, predOf, Raw.p, h0, of_TypeCode, bind, Except.bind]
theorem minX (p : Pred) (t : TypeCode) (d : Opnd) (a : Opnd) (b : Opnd) (imm : Word) : Statement (.minX p t d a b imm) := by
  have := lt_TypeCode t
  let r : Raw := ⟨.X, 4, 10, p.toNat, d.toByte, a.toByte, b.toByte, 0, t.toCode * 16, imm⟩
  have h0 : Raw.bits r 4 5 = t.toCode := by dsimp only [r, Raw.bits]; omega
  refine said (r := r) rfl (fits_x (by decide) (by decide) (pred_lt p) (toByte_lt d) (toByte_lt a) (toByte_lt b) (by decide) (by omega)) rfl rfl
    (show ¬ 14 ≤ 10 by decide) (fun hw => pred_ne _ (and_left hw)) ?_
  show pickIarith r = .ok (.minX p t d a b imm)
  dsimp only [r] at h0 ⊢
  delta pickIarith
  simp only [or_some, ofByte_toByte, predOf, Raw.p, h0, of_TypeCode, bind, Except.bind]
theorem maxL (p : Pred) (t : TypeCode) (d : Opnd) (a : Opnd) (b : Opnd) : Statement (.maxL p t d a b) := by
  have := lt_TypeCode t
  let r : Raw := ⟨.L, 4, 11, p.toNat, d.toByte, a.toByte, b.toByte, 0, t.toCode * 16, 0⟩
  have h0 : Raw.bits r 4 5 = t.toCode := by dsimp only [r, Raw.bits]; omega
  refine said (r := r) rfl (fits_l (by decide) (by decide) (pred_lt p) (toByte_lt d) (toByte_lt a) (toByte_lt b) (by decide) (by omega)) rfl rfl
    (show ¬ 14 ≤ 11 by decide) (fun hw => pred_ne _ (and_left hw)) ?_
  show pickIarith r = .ok (.maxL p t d a b)
  dsimp only [r] at h0 ⊢
  delta pickIarith
  simp only [or_some, ofByte_toByte, predOf, Raw.p, h0, of_TypeCode, bind, Except.bind]
theorem maxX (p : Pred) (t : TypeCode) (d : Opnd) (a : Opnd) (b : Opnd) (imm : Word) : Statement (.maxX p t d a b imm) := by
  have := lt_TypeCode t
  let r : Raw := ⟨.X, 4, 11, p.toNat, d.toByte, a.toByte, b.toByte, 0, t.toCode * 16, imm⟩
  have h0 : Raw.bits r 4 5 = t.toCode := by dsimp only [r, Raw.bits]; omega
  refine said (r := r) rfl (fits_x (by decide) (by decide) (pred_lt p) (toByte_lt d) (toByte_lt a) (toByte_lt b) (by decide) (by omega)) rfl rfl
    (show ¬ 14 ≤ 11 by decide) (fun hw => pred_ne _ (and_left hw)) ?_
  show pickIarith r = .ok (.maxX p t d a b imm)
  dsimp only [r] at h0 ⊢
  delta pickIarith
  simp only [or_some, ofByte_toByte, predOf, Raw.p, h0, of_TypeCode, bind, Except.bind]
theorem absL (p : Pred) (t : TypeCode) (sat : Bool) (d : Opnd) (a : Opnd) : Statement (.absL p t sat d a) := by
  have := lt_TypeCode t; have := lt_Bool sat
  let r : Raw := ⟨.L, 4, 12, p.toNat, d.toByte, a.toByte, 0, 0, t.toCode * 16 + sat.toNat, 0⟩
  have h0 : Raw.bits r 4 5 = t.toCode := by dsimp only [r, Raw.bits]; omega
  have h1 : Raw.bit r 0 = sat := by exact of_Bool _ _ (by dsimp only [r]; omega)
  refine said (r := r) rfl (fits_l (by decide) (by decide) (pred_lt p) (toByte_lt d) (toByte_lt a) (by decide) (by decide) (by omega)) rfl rfl
    (show ¬ 14 ≤ 12 by decide) (fun hw => pred_ne _ (and_left hw)) ?_
  show pickIarith r = .ok (.absL p t sat d a)
  dsimp only [r] at h0 h1 ⊢
  delta pickIarith
  simp only [or_some, ofByte_toByte, predOf, Raw.p, h0, of_TypeCode, h1, bind, Except.bind]
theorem absX (p : Pred) (t : TypeCode) (sat : Bool) (d : Opnd) (a : Opnd) (imm : Word) : Statement (.absX p t sat d a imm) := by
  have := lt_TypeCode t; have := lt_Bool sat
  let r : Raw := ⟨.X, 4, 12, p.toNat, d.toByte, a.toByte, 0, 0, t.toCode * 16 + sat.toNat, imm⟩
  have h0 : Raw.bits r 4 5 = t.toCode := by dsimp only [r, Raw.bits]; omega
  have h1 : Raw.bit r 0 = sat := by exact of_Bool _ _ (by dsimp only [r]; omega)
  refine said (r := r) rfl (fits_x (by decide) (by decide) (pred_lt p) (toByte_lt d) (toByte_lt a) (by decide) (by decide) (by omega)) rfl rfl
    (show ¬ 14 ≤ 12 by decide) (fun hw => pred_ne _ (and_left hw)) ?_
  show pickIarith r = .ok (.absX p t sat d a imm)
  dsimp only [r] at h0 h1 ⊢
  delta pickIarith
  simp only [or_some, ofByte_toByte, predOf, Raw.p, h0, of_TypeCode, h1, bind, Except.bind]
theorem negL (p : Pred) (t : TypeCode) (sat : Bool) (d : Opnd) (a : Opnd) : Statement (.negL p t sat d a) := by
  have := lt_TypeCode t; have := lt_Bool sat
  let r : Raw := ⟨.L, 4, 13, p.toNat, d.toByte, a.toByte, 0, 0, t.toCode * 16 + sat.toNat, 0⟩
  have h0 : Raw.bits r 4 5 = t.toCode := by dsimp only [r, Raw.bits]; omega
  have h1 : Raw.bit r 0 = sat := by exact of_Bool _ _ (by dsimp only [r]; omega)
  refine said (r := r) rfl (fits_l (by decide) (by decide) (pred_lt p) (toByte_lt d) (toByte_lt a) (by decide) (by decide) (by omega)) rfl rfl
    (show ¬ 14 ≤ 13 by decide) (fun hw => pred_ne _ (and_left hw)) ?_
  show pickIarith r = .ok (.negL p t sat d a)
  dsimp only [r] at h0 h1 ⊢
  delta pickIarith
  simp only [or_some, ofByte_toByte, predOf, Raw.p, h0, of_TypeCode, h1, bind, Except.bind]
theorem negX (p : Pred) (t : TypeCode) (sat : Bool) (d : Opnd) (a : Opnd) (imm : Word) : Statement (.negX p t sat d a imm) := by
  have := lt_TypeCode t; have := lt_Bool sat
  let r : Raw := ⟨.X, 4, 13, p.toNat, d.toByte, a.toByte, 0, 0, t.toCode * 16 + sat.toNat, imm⟩
  have h0 : Raw.bits r 4 5 = t.toCode := by dsimp only [r, Raw.bits]; omega
  have h1 : Raw.bit r 0 = sat := by exact of_Bool _ _ (by dsimp only [r]; omega)
  refine said (r := r) rfl (fits_x (by decide) (by decide) (pred_lt p) (toByte_lt d) (toByte_lt a) (by decide) (by decide) (by omega)) rfl rfl
    (show ¬ 14 ≤ 13 by decide) (fun hw => pred_ne _ (and_left hw)) ?_
  show pickIarith r = .ok (.negX p t sat d a imm)
  dsimp only [r] at h0 h1 ⊢
  delta pickIarith
  simp only [or_some, ofByte_toByte, predOf, Raw.p, h0, of_TypeCode, h1, bind, Except.bind]
theorem andL (p : Pred) (t : TypeCode) (d : Opnd) (a : Opnd) (b : Opnd) : Statement (.andL p t d a b) := by
  have := lt_TypeCode t
  let r : Raw := ⟨.L, 5, 0, p.toNat, d.toByte, a.toByte, b.toByte, 0, t.toCode * 16, 0⟩
  have h0 : Raw.bits r 4 5 = t.toCode := by dsimp only [r, Raw.bits]; omega
  refine said (r := r) rfl (fits_l (by decide) (by decide) (pred_lt p) (toByte_lt d) (toByte_lt a) (toByte_lt b) (by decide) (by omega)) rfl rfl
    (show ¬ 17 ≤ 0 by decide) (fun hw => pred_ne _ (and_left hw)) ?_
  show pickIbit r = .ok (.andL p t d a b)
  dsimp only [r] at h0 ⊢
  delta pickIbit
  simp only [or_some, ofByte_toByte, predOf, Raw.p, h0, of_TypeCode, bind, Except.bind]
theorem andX (p : Pred) (t : TypeCode) (d : Opnd) (a : Opnd) (b : Opnd) (imm : Word) : Statement (.andX p t d a b imm) := by
  have := lt_TypeCode t
  let r : Raw := ⟨.X, 5, 0, p.toNat, d.toByte, a.toByte, b.toByte, 0, t.toCode * 16, imm⟩
  have h0 : Raw.bits r 4 5 = t.toCode := by dsimp only [r, Raw.bits]; omega
  refine said (r := r) rfl (fits_x (by decide) (by decide) (pred_lt p) (toByte_lt d) (toByte_lt a) (toByte_lt b) (by decide) (by omega)) rfl rfl
    (show ¬ 17 ≤ 0 by decide) (fun hw => pred_ne _ (and_left hw)) ?_
  show pickIbit r = .ok (.andX p t d a b imm)
  dsimp only [r] at h0 ⊢
  delta pickIbit
  simp only [or_some, ofByte_toByte, predOf, Raw.p, h0, of_TypeCode, bind, Except.bind]
theorem orL (p : Pred) (t : TypeCode) (d : Opnd) (a : Opnd) (b : Opnd) : Statement (.orL p t d a b) := by
  have := lt_TypeCode t
  let r : Raw := ⟨.L, 5, 1, p.toNat, d.toByte, a.toByte, b.toByte, 0, t.toCode * 16, 0⟩
  have h0 : Raw.bits r 4 5 = t.toCode := by dsimp only [r, Raw.bits]; omega
  refine said (r := r) rfl (fits_l (by decide) (by decide) (pred_lt p) (toByte_lt d) (toByte_lt a) (toByte_lt b) (by decide) (by omega)) rfl rfl
    (show ¬ 17 ≤ 1 by decide) (fun hw => pred_ne _ (and_left hw)) ?_
  show pickIbit r = .ok (.orL p t d a b)
  dsimp only [r] at h0 ⊢
  delta pickIbit
  simp only [or_some, ofByte_toByte, predOf, Raw.p, h0, of_TypeCode, bind, Except.bind]
theorem orX (p : Pred) (t : TypeCode) (d : Opnd) (a : Opnd) (b : Opnd) (imm : Word) : Statement (.orX p t d a b imm) := by
  have := lt_TypeCode t
  let r : Raw := ⟨.X, 5, 1, p.toNat, d.toByte, a.toByte, b.toByte, 0, t.toCode * 16, imm⟩
  have h0 : Raw.bits r 4 5 = t.toCode := by dsimp only [r, Raw.bits]; omega
  refine said (r := r) rfl (fits_x (by decide) (by decide) (pred_lt p) (toByte_lt d) (toByte_lt a) (toByte_lt b) (by decide) (by omega)) rfl rfl
    (show ¬ 17 ≤ 1 by decide) (fun hw => pred_ne _ (and_left hw)) ?_
  show pickIbit r = .ok (.orX p t d a b imm)
  dsimp only [r] at h0 ⊢
  delta pickIbit
  simp only [or_some, ofByte_toByte, predOf, Raw.p, h0, of_TypeCode, bind, Except.bind]
theorem xorL (p : Pred) (t : TypeCode) (d : Opnd) (a : Opnd) (b : Opnd) : Statement (.xorL p t d a b) := by
  have := lt_TypeCode t
  let r : Raw := ⟨.L, 5, 2, p.toNat, d.toByte, a.toByte, b.toByte, 0, t.toCode * 16, 0⟩
  have h0 : Raw.bits r 4 5 = t.toCode := by dsimp only [r, Raw.bits]; omega
  refine said (r := r) rfl (fits_l (by decide) (by decide) (pred_lt p) (toByte_lt d) (toByte_lt a) (toByte_lt b) (by decide) (by omega)) rfl rfl
    (show ¬ 17 ≤ 2 by decide) (fun hw => pred_ne _ (and_left hw)) ?_
  show pickIbit r = .ok (.xorL p t d a b)
  dsimp only [r] at h0 ⊢
  delta pickIbit
  simp only [or_some, ofByte_toByte, predOf, Raw.p, h0, of_TypeCode, bind, Except.bind]
theorem xorX (p : Pred) (t : TypeCode) (d : Opnd) (a : Opnd) (b : Opnd) (imm : Word) : Statement (.xorX p t d a b imm) := by
  have := lt_TypeCode t
  let r : Raw := ⟨.X, 5, 2, p.toNat, d.toByte, a.toByte, b.toByte, 0, t.toCode * 16, imm⟩
  have h0 : Raw.bits r 4 5 = t.toCode := by dsimp only [r, Raw.bits]; omega
  refine said (r := r) rfl (fits_x (by decide) (by decide) (pred_lt p) (toByte_lt d) (toByte_lt a) (toByte_lt b) (by decide) (by omega)) rfl rfl
    (show ¬ 17 ≤ 2 by decide) (fun hw => pred_ne _ (and_left hw)) ?_
  show pickIbit r = .ok (.xorX p t d a b imm)
  dsimp only [r] at h0 ⊢
  delta pickIbit
  simp only [or_some, ofByte_toByte, predOf, Raw.p, h0, of_TypeCode, bind, Except.bind]
theorem andnL (p : Pred) (t : TypeCode) (d : Opnd) (a : Opnd) (b : Opnd) : Statement (.andnL p t d a b) := by
  have := lt_TypeCode t
  let r : Raw := ⟨.L, 5, 3, p.toNat, d.toByte, a.toByte, b.toByte, 0, t.toCode * 16, 0⟩
  have h0 : Raw.bits r 4 5 = t.toCode := by dsimp only [r, Raw.bits]; omega
  refine said (r := r) rfl (fits_l (by decide) (by decide) (pred_lt p) (toByte_lt d) (toByte_lt a) (toByte_lt b) (by decide) (by omega)) rfl rfl
    (show ¬ 17 ≤ 3 by decide) (fun hw => pred_ne _ (and_left hw)) ?_
  show pickIbit r = .ok (.andnL p t d a b)
  dsimp only [r] at h0 ⊢
  delta pickIbit
  simp only [or_some, ofByte_toByte, predOf, Raw.p, h0, of_TypeCode, bind, Except.bind]
theorem andnX (p : Pred) (t : TypeCode) (d : Opnd) (a : Opnd) (b : Opnd) (imm : Word) : Statement (.andnX p t d a b imm) := by
  have := lt_TypeCode t
  let r : Raw := ⟨.X, 5, 3, p.toNat, d.toByte, a.toByte, b.toByte, 0, t.toCode * 16, imm⟩
  have h0 : Raw.bits r 4 5 = t.toCode := by dsimp only [r, Raw.bits]; omega
  refine said (r := r) rfl (fits_x (by decide) (by decide) (pred_lt p) (toByte_lt d) (toByte_lt a) (toByte_lt b) (by decide) (by omega)) rfl rfl
    (show ¬ 17 ≤ 3 by decide) (fun hw => pred_ne _ (and_left hw)) ?_
  show pickIbit r = .ok (.andnX p t d a b imm)
  dsimp only [r] at h0 ⊢
  delta pickIbit
  simp only [or_some, ofByte_toByte, predOf, Raw.p, h0, of_TypeCode, bind, Except.bind]
theorem notL (p : Pred) (t : TypeCode) (d : Opnd) (a : Opnd) : Statement (.notL p t d a) := by
  have := lt_TypeCode t
  let r : Raw := ⟨.L, 5, 4, p.toNat, d.toByte, a.toByte, 0, 0, t.toCode * 16, 0⟩
  have h0 : Raw.bits r 4 5 = t.toCode := by dsimp only [r, Raw.bits]; omega
  refine said (r := r) rfl (fits_l (by decide) (by decide) (pred_lt p) (toByte_lt d) (toByte_lt a) (by decide) (by decide) (by omega)) rfl rfl
    (show ¬ 17 ≤ 4 by decide) (fun hw => pred_ne _ (and_left hw)) ?_
  show pickIbit r = .ok (.notL p t d a)
  dsimp only [r] at h0 ⊢
  delta pickIbit
  simp only [or_some, ofByte_toByte, predOf, Raw.p, h0, of_TypeCode, bind, Except.bind]
theorem notX (p : Pred) (t : TypeCode) (d : Opnd) (a : Opnd) (imm : Word) : Statement (.notX p t d a imm) := by
  have := lt_TypeCode t
  let r : Raw := ⟨.X, 5, 4, p.toNat, d.toByte, a.toByte, 0, 0, t.toCode * 16, imm⟩
  have h0 : Raw.bits r 4 5 = t.toCode := by dsimp only [r, Raw.bits]; omega
  refine said (r := r) rfl (fits_x (by decide) (by decide) (pred_lt p) (toByte_lt d) (toByte_lt a) (by decide) (by decide) (by omega)) rfl rfl
    (show ¬ 17 ≤ 4 by decide) (fun hw => pred_ne _ (and_left hw)) ?_
  show pickIbit r = .ok (.notX p t d a imm)
  dsimp only [r] at h0 ⊢
  delta pickIbit
  simp only [or_some, ofByte_toByte, predOf, Raw.p, h0, of_TypeCode, bind, Except.bind]
theorem shlL (p : Pred) (t : TypeCode) (d : Opnd) (a : Opnd) (b : Opnd) : Statement (.shlL p t d a b) := by
  have := lt_TypeCode t
  let r : Raw := ⟨.L, 5, 5, p.toNat, d.toByte, a.toByte, b.toByte, 0, t.toCode * 16, 0⟩
  have h0 : Raw.bits r 4 5 = t.toCode := by dsimp only [r, Raw.bits]; omega
  refine said (r := r) rfl (fits_l (by decide) (by decide) (pred_lt p) (toByte_lt d) (toByte_lt a) (toByte_lt b) (by decide) (by omega)) rfl rfl
    (show ¬ 17 ≤ 5 by decide) (fun hw => pred_ne _ (and_left hw)) ?_
  show pickIbit r = .ok (.shlL p t d a b)
  dsimp only [r] at h0 ⊢
  delta pickIbit
  simp only [or_some, ofByte_toByte, predOf, Raw.p, h0, of_TypeCode, bind, Except.bind]
theorem shlX (p : Pred) (t : TypeCode) (d : Opnd) (a : Opnd) (b : Opnd) (imm : Word) : Statement (.shlX p t d a b imm) := by
  have := lt_TypeCode t
  let r : Raw := ⟨.X, 5, 5, p.toNat, d.toByte, a.toByte, b.toByte, 0, t.toCode * 16, imm⟩
  have h0 : Raw.bits r 4 5 = t.toCode := by dsimp only [r, Raw.bits]; omega
  refine said (r := r) rfl (fits_x (by decide) (by decide) (pred_lt p) (toByte_lt d) (toByte_lt a) (toByte_lt b) (by decide) (by omega)) rfl rfl
    (show ¬ 17 ≤ 5 by decide) (fun hw => pred_ne _ (and_left hw)) ?_
  show pickIbit r = .ok (.shlX p t d a b imm)
  dsimp only [r] at h0 ⊢
  delta pickIbit
  simp only [or_some, ofByte_toByte, predOf, Raw.p, h0, of_TypeCode, bind, Except.bind]
theorem shrL (p : Pred) (t : TypeCode) (d : Opnd) (a : Opnd) (b : Opnd) : Statement (.shrL p t d a b) := by
  have := lt_TypeCode t
  let r : Raw := ⟨.L, 5, 6, p.toNat, d.toByte, a.toByte, b.toByte, 0, t.toCode * 16, 0⟩
  have h0 : Raw.bits r 4 5 = t.toCode := by dsimp only [r, Raw.bits]; omega
  refine said (r := r) rfl (fits_l (by decide) (by decide) (pred_lt p) (toByte_lt d) (toByte_lt a) (toByte_lt b) (by decide) (by omega)) rfl rfl
    (show ¬ 17 ≤ 6 by decide) (fun hw => pred_ne _ (and_left hw)) ?_
  show pickIbit r = .ok (.shrL p t d a b)
  dsimp only [r] at h0 ⊢
  delta pickIbit
  simp only [or_some, ofByte_toByte, predOf, Raw.p, h0, of_TypeCode, bind, Except.bind]
theorem shrX (p : Pred) (t : TypeCode) (d : Opnd) (a : Opnd) (b : Opnd) (imm : Word) : Statement (.shrX p t d a b imm) := by
  have := lt_TypeCode t
  let r : Raw := ⟨.X, 5, 6, p.toNat, d.toByte, a.toByte, b.toByte, 0, t.toCode * 16, imm⟩
  have h0 : Raw.bits r 4 5 = t.toCode := by dsimp only [r, Raw.bits]; omega
  refine said (r := r) rfl (fits_x (by decide) (by decide) (pred_lt p) (toByte_lt d) (toByte_lt a) (toByte_lt b) (by decide) (by omega)) rfl rfl
    (show ¬ 17 ≤ 6 by decide) (fun hw => pred_ne _ (and_left hw)) ?_
  show pickIbit r = .ok (.shrX p t d a b imm)
  dsimp only [r] at h0 ⊢
  delta pickIbit
  simp only [or_some, ofByte_toByte, predOf, Raw.p, h0, of_TypeCode, bind, Except.bind]
theorem sarL (p : Pred) (t : TypeCode) (d : Opnd) (a : Opnd) (b : Opnd) : Statement (.sarL p t d a b) := by
  have := lt_TypeCode t
  let r : Raw := ⟨.L, 5, 7, p.toNat, d.toByte, a.toByte, b.toByte, 0, t.toCode * 16, 0⟩
  have h0 : Raw.bits r 4 5 = t.toCode := by dsimp only [r, Raw.bits]; omega
  refine said (r := r) rfl (fits_l (by decide) (by decide) (pred_lt p) (toByte_lt d) (toByte_lt a) (toByte_lt b) (by decide) (by omega)) rfl rfl
    (show ¬ 17 ≤ 7 by decide) (fun hw => pred_ne _ (and_left hw)) ?_
  show pickIbit r = .ok (.sarL p t d a b)
  dsimp only [r] at h0 ⊢
  delta pickIbit
  simp only [or_some, ofByte_toByte, predOf, Raw.p, h0, of_TypeCode, bind, Except.bind]
theorem sarX (p : Pred) (t : TypeCode) (d : Opnd) (a : Opnd) (b : Opnd) (imm : Word) : Statement (.sarX p t d a b imm) := by
  have := lt_TypeCode t
  let r : Raw := ⟨.X, 5, 7, p.toNat, d.toByte, a.toByte, b.toByte, 0, t.toCode * 16, imm⟩
  have h0 : Raw.bits r 4 5 = t.toCode := by dsimp only [r, Raw.bits]; omega
  refine said (r := r) rfl (fits_x (by decide) (by decide) (pred_lt p) (toByte_lt d) (toByte_lt a) (toByte_lt b) (by decide) (by omega)) rfl rfl
    (show ¬ 17 ≤ 7 by decide) (fun hw => pred_ne _ (and_left hw)) ?_
  show pickIbit r = .ok (.sarX p t d a b imm)
  dsimp only [r] at h0 ⊢
  delta pickIbit
  simp only [or_some, ofByte_toByte, predOf, Raw.p, h0, of_TypeCode, bind, Except.bind]
theorem rotlL (p : Pred) (t : TypeCode) (d : Opnd) (a : Opnd) (b : Opnd) : Statement (.rotlL p t d a b) := by
  have := lt_TypeCode t
  let r : Raw := ⟨.L, 5, 8, p.toNat, d.toByte, a.toByte, b.toByte, 0, t.toCode * 16, 0⟩
  have h0 : Raw.bits r 4 5 = t.toCode := by dsimp only [r, Raw.bits]; omega
  refine said (r := r) rfl (fits_l (by decide) (by decide) (pred_lt p) (toByte_lt d) (toByte_lt a) (toByte_lt b) (by decide) (by omega)) rfl rfl
    (show ¬ 17 ≤ 8 by decide) (fun hw => pred_ne _ (and_left hw)) ?_
  show pickIbit r = .ok (.rotlL p t d a b)
  dsimp only [r] at h0 ⊢
  delta pickIbit
  simp only [or_some, ofByte_toByte, predOf, Raw.p, h0, of_TypeCode, bind, Except.bind]
theorem rotlX (p : Pred) (t : TypeCode) (d : Opnd) (a : Opnd) (b : Opnd) (imm : Word) : Statement (.rotlX p t d a b imm) := by
  have := lt_TypeCode t
  let r : Raw := ⟨.X, 5, 8, p.toNat, d.toByte, a.toByte, b.toByte, 0, t.toCode * 16, imm⟩
  have h0 : Raw.bits r 4 5 = t.toCode := by dsimp only [r, Raw.bits]; omega
  refine said (r := r) rfl (fits_x (by decide) (by decide) (pred_lt p) (toByte_lt d) (toByte_lt a) (toByte_lt b) (by decide) (by omega)) rfl rfl
    (show ¬ 17 ≤ 8 by decide) (fun hw => pred_ne _ (and_left hw)) ?_
  show pickIbit r = .ok (.rotlX p t d a b imm)
  dsimp only [r] at h0 ⊢
  delta pickIbit
  simp only [or_some, ofByte_toByte, predOf, Raw.p, h0, of_TypeCode, bind, Except.bind]
theorem funnelL (p : Pred) (t : TypeCode) (d : Opnd) (a : Opnd) (b : Opnd) (c : Opnd) : Statement (.funnelL p t d a b c) := by
  have := lt_TypeCode t
  let r : Raw := ⟨.L, 5, 9, p.toNat, d.toByte, a.toByte, b.toByte, c.toByte, t.toCode * 16, 0⟩
  have h0 : Raw.bits r 4 5 = t.toCode := by dsimp only [r, Raw.bits]; omega
  refine said (r := r) rfl (fits_l (by decide) (by decide) (pred_lt p) (toByte_lt d) (toByte_lt a) (toByte_lt b) (toByte_lt c) (by omega)) rfl rfl
    (show ¬ 17 ≤ 9 by decide) (fun hw => pred_ne _ (and_left hw)) ?_
  show pickIbit r = .ok (.funnelL p t d a b c)
  dsimp only [r] at h0 ⊢
  delta pickIbit
  simp only [or_some, ofByte_toByte, predOf, Raw.p, h0, of_TypeCode, bind, Except.bind]
theorem funnelX (p : Pred) (t : TypeCode) (d : Opnd) (a : Opnd) (b : Opnd) (c : Opnd) (imm : Word) : Statement (.funnelX p t d a b c imm) := by
  have := lt_TypeCode t
  let r : Raw := ⟨.X, 5, 9, p.toNat, d.toByte, a.toByte, b.toByte, c.toByte, t.toCode * 16, imm⟩
  have h0 : Raw.bits r 4 5 = t.toCode := by dsimp only [r, Raw.bits]; omega
  refine said (r := r) rfl (fits_x (by decide) (by decide) (pred_lt p) (toByte_lt d) (toByte_lt a) (toByte_lt b) (toByte_lt c) (by omega)) rfl rfl
    (show ¬ 17 ≤ 9 by decide) (fun hw => pred_ne _ (and_left hw)) ?_
  show pickIbit r = .ok (.funnelX p t d a b c imm)
  dsimp only [r] at h0 ⊢
  delta pickIbit
  simp only [or_some, ofByte_toByte, predOf, Raw.p, h0, of_TypeCode, bind, Except.bind]
theorem popcL (p : Pred) (t : TypeCode) (d : Opnd) (a : Opnd) : Statement (.popcL p t d a) := by
  have := lt_TypeCode t
  let r : Raw := ⟨.L, 5, 10, p.toNat, d.toByte, a.toByte, 0, 0, t.toCode * 16, 0⟩
  have h0 : Raw.bits r 4 5 = t.toCode := by dsimp only [r, Raw.bits]; omega
  refine said (r := r) rfl (fits_l (by decide) (by decide) (pred_lt p) (toByte_lt d) (toByte_lt a) (by decide) (by decide) (by omega)) rfl rfl
    (show ¬ 17 ≤ 10 by decide) (fun hw => pred_ne _ (and_left hw)) ?_
  show pickIbit r = .ok (.popcL p t d a)
  dsimp only [r] at h0 ⊢
  delta pickIbit
  simp only [or_some, ofByte_toByte, predOf, Raw.p, h0, of_TypeCode, bind, Except.bind]
theorem popcX (p : Pred) (t : TypeCode) (d : Opnd) (a : Opnd) (imm : Word) : Statement (.popcX p t d a imm) := by
  have := lt_TypeCode t
  let r : Raw := ⟨.X, 5, 10, p.toNat, d.toByte, a.toByte, 0, 0, t.toCode * 16, imm⟩
  have h0 : Raw.bits r 4 5 = t.toCode := by dsimp only [r, Raw.bits]; omega
  refine said (r := r) rfl (fits_x (by decide) (by decide) (pred_lt p) (toByte_lt d) (toByte_lt a) (by decide) (by decide) (by omega)) rfl rfl
    (show ¬ 17 ≤ 10 by decide) (fun hw => pred_ne _ (and_left hw)) ?_
  show pickIbit r = .ok (.popcX p t d a imm)
  dsimp only [r] at h0 ⊢
  delta pickIbit
  simp only [or_some, ofByte_toByte, predOf, Raw.p, h0, of_TypeCode, bind, Except.bind]
theorem clzL (p : Pred) (t : TypeCode) (d : Opnd) (a : Opnd) : Statement (.clzL p t d a) := by
  have := lt_TypeCode t
  let r : Raw := ⟨.L, 5, 11, p.toNat, d.toByte, a.toByte, 0, 0, t.toCode * 16, 0⟩
  have h0 : Raw.bits r 4 5 = t.toCode := by dsimp only [r, Raw.bits]; omega
  refine said (r := r) rfl (fits_l (by decide) (by decide) (pred_lt p) (toByte_lt d) (toByte_lt a) (by decide) (by decide) (by omega)) rfl rfl
    (show ¬ 17 ≤ 11 by decide) (fun hw => pred_ne _ (and_left hw)) ?_
  show pickIbit r = .ok (.clzL p t d a)
  dsimp only [r] at h0 ⊢
  delta pickIbit
  simp only [or_some, ofByte_toByte, predOf, Raw.p, h0, of_TypeCode, bind, Except.bind]
theorem clzX (p : Pred) (t : TypeCode) (d : Opnd) (a : Opnd) (imm : Word) : Statement (.clzX p t d a imm) := by
  have := lt_TypeCode t
  let r : Raw := ⟨.X, 5, 11, p.toNat, d.toByte, a.toByte, 0, 0, t.toCode * 16, imm⟩
  have h0 : Raw.bits r 4 5 = t.toCode := by dsimp only [r, Raw.bits]; omega
  refine said (r := r) rfl (fits_x (by decide) (by decide) (pred_lt p) (toByte_lt d) (toByte_lt a) (by decide) (by decide) (by omega)) rfl rfl
    (show ¬ 17 ≤ 11 by decide) (fun hw => pred_ne _ (and_left hw)) ?_
  show pickIbit r = .ok (.clzX p t d a imm)
  dsimp only [r] at h0 ⊢
  delta pickIbit
  simp only [or_some, ofByte_toByte, predOf, Raw.p, h0, of_TypeCode, bind, Except.bind]
theorem ctzL (p : Pred) (t : TypeCode) (d : Opnd) (a : Opnd) : Statement (.ctzL p t d a) := by
  have := lt_TypeCode t
  let r : Raw := ⟨.L, 5, 12, p.toNat, d.toByte, a.toByte, 0, 0, t.toCode * 16, 0⟩
  have h0 : Raw.bits r 4 5 = t.toCode := by dsimp only [r, Raw.bits]; omega
  refine said (r := r) rfl (fits_l (by decide) (by decide) (pred_lt p) (toByte_lt d) (toByte_lt a) (by decide) (by decide) (by omega)) rfl rfl
    (show ¬ 17 ≤ 12 by decide) (fun hw => pred_ne _ (and_left hw)) ?_
  show pickIbit r = .ok (.ctzL p t d a)
  dsimp only [r] at h0 ⊢
  delta pickIbit
  simp only [or_some, ofByte_toByte, predOf, Raw.p, h0, of_TypeCode, bind, Except.bind]
theorem ctzX (p : Pred) (t : TypeCode) (d : Opnd) (a : Opnd) (imm : Word) : Statement (.ctzX p t d a imm) := by
  have := lt_TypeCode t
  let r : Raw := ⟨.X, 5, 12, p.toNat, d.toByte, a.toByte, 0, 0, t.toCode * 16, imm⟩
  have h0 : Raw.bits r 4 5 = t.toCode := by dsimp only [r, Raw.bits]; omega
  refine said (r := r) rfl (fits_x (by decide) (by decide) (pred_lt p) (toByte_lt d) (toByte_lt a) (by decide) (by decide) (by omega)) rfl rfl
    (show ¬ 17 ≤ 12 by decide) (fun hw => pred_ne _ (and_left hw)) ?_
  show pickIbit r = .ok (.ctzX p t d a imm)
  dsimp only [r] at h0 ⊢
  delta pickIbit
  simp only [or_some, ofByte_toByte, predOf, Raw.p, h0, of_TypeCode, bind, Except.bind]
theorem brevL (p : Pred) (t : TypeCode) (d : Opnd) (a : Opnd) : Statement (.brevL p t d a) := by
  have := lt_TypeCode t
  let r : Raw := ⟨.L, 5, 13, p.toNat, d.toByte, a.toByte, 0, 0, t.toCode * 16, 0⟩
  have h0 : Raw.bits r 4 5 = t.toCode := by dsimp only [r, Raw.bits]; omega
  refine said (r := r) rfl (fits_l (by decide) (by decide) (pred_lt p) (toByte_lt d) (toByte_lt a) (by decide) (by decide) (by omega)) rfl rfl
    (show ¬ 17 ≤ 13 by decide) (fun hw => pred_ne _ (and_left hw)) ?_
  show pickIbit r = .ok (.brevL p t d a)
  dsimp only [r] at h0 ⊢
  delta pickIbit
  simp only [or_some, ofByte_toByte, predOf, Raw.p, h0, of_TypeCode, bind, Except.bind]
theorem brevX (p : Pred) (t : TypeCode) (d : Opnd) (a : Opnd) (imm : Word) : Statement (.brevX p t d a imm) := by
  have := lt_TypeCode t
  let r : Raw := ⟨.X, 5, 13, p.toNat, d.toByte, a.toByte, 0, 0, t.toCode * 16, imm⟩
  have h0 : Raw.bits r 4 5 = t.toCode := by dsimp only [r, Raw.bits]; omega
  refine said (r := r) rfl (fits_x (by decide) (by decide) (pred_lt p) (toByte_lt d) (toByte_lt a) (by decide) (by decide) (by omega)) rfl rfl
    (show ¬ 17 ≤ 13 by decide) (fun hw => pred_ne _ (and_left hw)) ?_
  show pickIbit r = .ok (.brevX p t d a imm)
  dsimp only [r] at h0 ⊢
  delta pickIbit
  simp only [or_some, ofByte_toByte, predOf, Raw.p, h0, of_TypeCode, bind, Except.bind]
theorem bfeL (p : Pred) (t : TypeCode) (d : Opnd) (a : Opnd) (b : Opnd) : Statement (.bfeL p t d a b) := by
  have := lt_TypeCode t
  let r : Raw := ⟨.L, 5, 14, p.toNat, d.toByte, a.toByte, b.toByte, 0, t.toCode * 16, 0⟩
  have h0 : Raw.bits r 4 5 = t.toCode := by dsimp only [r, Raw.bits]; omega
  refine said (r := r) rfl (fits_l (by decide) (by decide) (pred_lt p) (toByte_lt d) (toByte_lt a) (toByte_lt b) (by decide) (by omega)) rfl rfl
    (show ¬ 17 ≤ 14 by decide) (fun hw => pred_ne _ (and_left hw)) ?_
  show pickIbit r = .ok (.bfeL p t d a b)
  dsimp only [r] at h0 ⊢
  delta pickIbit
  simp only [or_some, ofByte_toByte, predOf, Raw.p, h0, of_TypeCode, bind, Except.bind]
theorem bfeX (p : Pred) (t : TypeCode) (d : Opnd) (a : Opnd) (b : Opnd) (imm : Word) : Statement (.bfeX p t d a b imm) := by
  have := lt_TypeCode t
  let r : Raw := ⟨.X, 5, 14, p.toNat, d.toByte, a.toByte, b.toByte, 0, t.toCode * 16, imm⟩
  have h0 : Raw.bits r 4 5 = t.toCode := by dsimp only [r, Raw.bits]; omega
  refine said (r := r) rfl (fits_x (by decide) (by decide) (pred_lt p) (toByte_lt d) (toByte_lt a) (toByte_lt b) (by decide) (by omega)) rfl rfl
    (show ¬ 17 ≤ 14 by decide) (fun hw => pred_ne _ (and_left hw)) ?_
  show pickIbit r = .ok (.bfeX p t d a b imm)
  dsimp only [r] at h0 ⊢
  delta pickIbit
  simp only [or_some, ofByte_toByte, predOf, Raw.p, h0, of_TypeCode, bind, Except.bind]
theorem bfiL (p : Pred) (t : TypeCode) (d : Opnd) (a : Opnd) (b : Opnd) (c : Opnd) : Statement (.bfiL p t d a b c) := by
  have := lt_TypeCode t
  let r : Raw := ⟨.L, 5, 15, p.toNat, d.toByte, a.toByte, b.toByte, c.toByte, t.toCode * 16, 0⟩
  have h0 : Raw.bits r 4 5 = t.toCode := by dsimp only [r, Raw.bits]; omega
  refine said (r := r) rfl (fits_l (by decide) (by decide) (pred_lt p) (toByte_lt d) (toByte_lt a) (toByte_lt b) (toByte_lt c) (by omega)) rfl rfl
    (show ¬ 17 ≤ 15 by decide) (fun hw => pred_ne _ (and_left hw)) ?_
  show pickIbit r = .ok (.bfiL p t d a b c)
  dsimp only [r] at h0 ⊢
  delta pickIbit
  simp only [or_some, ofByte_toByte, predOf, Raw.p, h0, of_TypeCode, bind, Except.bind]
theorem bfiX (p : Pred) (t : TypeCode) (d : Opnd) (a : Opnd) (b : Opnd) (c : Opnd) (imm : Word) : Statement (.bfiX p t d a b c imm) := by
  have := lt_TypeCode t
  let r : Raw := ⟨.X, 5, 15, p.toNat, d.toByte, a.toByte, b.toByte, c.toByte, t.toCode * 16, imm⟩
  have h0 : Raw.bits r 4 5 = t.toCode := by dsimp only [r, Raw.bits]; omega
  refine said (r := r) rfl (fits_x (by decide) (by decide) (pred_lt p) (toByte_lt d) (toByte_lt a) (toByte_lt b) (toByte_lt c) (by omega)) rfl rfl
    (show ¬ 17 ≤ 15 by decide) (fun hw => pred_ne _ (and_left hw)) ?_
  show pickIbit r = .ok (.bfiX p t d a b c imm)
  dsimp only [r] at h0 ⊢
  delta pickIbit
  simp only [or_some, ofByte_toByte, predOf, Raw.p, h0, of_TypeCode, bind, Except.bind]
theorem permbL (p : Pred) (t : TypeCode) (d : Opnd) (a : Opnd) (b : Opnd) (c : Opnd) : Statement (.permbL p t d a b c) := by
  have := lt_TypeCode t
  let r : Raw := ⟨.L, 5, 16, p.toNat, d.toByte, a.toByte, b.toByte, c.toByte, t.toCode * 16, 0⟩
  have h0 : Raw.bits r 4 5 = t.toCode := by dsimp only [r, Raw.bits]; omega
  refine said (r := r) rfl (fits_l (by decide) (by decide) (pred_lt p) (toByte_lt d) (toByte_lt a) (toByte_lt b) (toByte_lt c) (by omega)) rfl rfl
    (show ¬ 17 ≤ 16 by decide) (fun hw => pred_ne _ (and_left hw)) ?_
  show pickIbit r = .ok (.permbL p t d a b c)
  dsimp only [r] at h0 ⊢
  delta pickIbit
  simp only [or_some, ofByte_toByte, predOf, Raw.p, h0, of_TypeCode, bind, Except.bind]
theorem permbX (p : Pred) (t : TypeCode) (d : Opnd) (a : Opnd) (b : Opnd) (c : Opnd) (imm : Word) : Statement (.permbX p t d a b c imm) := by
  have := lt_TypeCode t
  let r : Raw := ⟨.X, 5, 16, p.toNat, d.toByte, a.toByte, b.toByte, c.toByte, t.toCode * 16, imm⟩
  have h0 : Raw.bits r 4 5 = t.toCode := by dsimp only [r, Raw.bits]; omega
  refine said (r := r) rfl (fits_x (by decide) (by decide) (pred_lt p) (toByte_lt d) (toByte_lt a) (toByte_lt b) (toByte_lt c) (by omega)) rfl rfl
    (show ¬ 17 ≤ 16 by decide) (fun hw => pred_ne _ (and_left hw)) ?_
  show pickIbit r = .ok (.permbX p t d a b c imm)
  dsimp only [r] at h0 ⊢
  delta pickIbit
  simp only [or_some, ofByte_toByte, predOf, Raw.p, h0, of_TypeCode, bind, Except.bind]
theorem cmpL (p : Pred) (t : TypeCode) (cond : Cond) (comb : Comb) (d : Opnd) (a : Opnd) (b : Opnd) : Statement (.cmpL p t cond comb d a b) := by
  have := lt_TypeCode t; have := lt_Cond cond; have := lt_Comb comb; have : cond.toCode < 2 ^ 4 := (by cases cond <;> decide)
  let r : Raw := ⟨.L, 6, 0, p.toNat, d.toByte, a.toByte, b.toByte, comb.toC, t.toCode * 16 + cond.toCode + comb.toCode * 512, 0⟩
  have h0 : Raw.bits r 4 5 = t.toCode := by dsimp only [r, Raw.bits]; omega
  have h1 : Raw.bits r 0 4 = cond.toCode := by dsimp only [r, Raw.bits]; omega
  have h2 : Raw.bits r 9 2 = comb.toCode := by dsimp only [r, Raw.bits]; omega
  refine said (r := r) rfl (fits_l (by decide) (by decide) (pred_lt p) (toByte_lt d) (toByte_lt a) (toByte_lt b) (toC_lt comb) (by omega)) rfl rfl
    (show ¬ 5 ≤ 0 by decide) (fun hw => pred_ne _ (and_left hw)) ?_
  show pickIpred r = .ok (.cmpL p t cond comb d a b)
  dsimp only [r] at h0 h1 h2 ⊢
  delta pickIpred
  simp only [or_some, ofByte_toByte, predOf, Raw.p, h0, of_TypeCode, h1, of_Cond, h2, of_Comb, bind, Except.bind]
theorem cmpX (p : Pred) (t : TypeCode) (cond : Cond) (comb : Comb) (d : Opnd) (a : Opnd) (b : Opnd) (imm : Word) : Statement (.cmpX p t cond comb d a b imm) := by
  have := lt_TypeCode t; have := lt_Cond cond; have := lt_Comb comb; have : cond.toCode < 2 ^ 4 := (by cases cond <;> decide)
  let r : Raw := ⟨.X, 6, 0, p.toNat, d.toByte, a.toByte, b.toByte, comb.toC, t.toCode * 16 + cond.toCode + comb.toCode * 512, imm⟩
  have h0 : Raw.bits r 4 5 = t.toCode := by dsimp only [r, Raw.bits]; omega
  have h1 : Raw.bits r 0 4 = cond.toCode := by dsimp only [r, Raw.bits]; omega
  have h2 : Raw.bits r 9 2 = comb.toCode := by dsimp only [r, Raw.bits]; omega
  refine said (r := r) rfl (fits_x (by decide) (by decide) (pred_lt p) (toByte_lt d) (toByte_lt a) (toByte_lt b) (toC_lt comb) (by omega)) rfl rfl
    (show ¬ 5 ≤ 0 by decide) (fun hw => pred_ne _ (and_left hw)) ?_
  show pickIpred r = .ok (.cmpX p t cond comb d a b imm)
  dsimp only [r] at h0 h1 h2 ⊢
  delta pickIpred
  simp only [or_some, ofByte_toByte, predOf, Raw.p, h0, of_TypeCode, h1, of_Cond, h2, of_Comb, bind, Except.bind]
theorem pandL (p : Pred) (d : Opnd) (a : Opnd) (b : Opnd) : Statement (.pandL p d a b) := by
  let r : Raw := ⟨.L, 6, 1, p.toNat, d.toByte, a.toByte, b.toByte, 0, 0, 0⟩
  refine said (r := r) rfl (fits_l (by decide) (by decide) (pred_lt p) (toByte_lt d) (toByte_lt a) (toByte_lt b) (by decide) (by decide)) rfl rfl
    (show ¬ 5 ≤ 1 by decide) (fun hw => pred_ne _ (and_left hw)) ?_
  show pickIpred r = .ok (.pandL p d a b)
  dsimp only [r]
  delta pickIpred
  simp only [ofByte_toByte, predOf, Raw.p]
theorem pandX (p : Pred) (d : Opnd) (a : Opnd) (b : Opnd) (imm : Word) : Statement (.pandX p d a b imm) := by
  let r : Raw := ⟨.X, 6, 1, p.toNat, d.toByte, a.toByte, b.toByte, 0, 0, imm⟩
  refine said (r := r) rfl (fits_x (by decide) (by decide) (pred_lt p) (toByte_lt d) (toByte_lt a) (toByte_lt b) (by decide) (by decide)) rfl rfl
    (show ¬ 5 ≤ 1 by decide) (fun hw => pred_ne _ (and_left hw)) ?_
  show pickIpred r = .ok (.pandX p d a b imm)
  dsimp only [r]
  delta pickIpred
  simp only [ofByte_toByte, predOf, Raw.p]
theorem porL (p : Pred) (d : Opnd) (a : Opnd) (b : Opnd) : Statement (.porL p d a b) := by
  let r : Raw := ⟨.L, 6, 2, p.toNat, d.toByte, a.toByte, b.toByte, 0, 0, 0⟩
  refine said (r := r) rfl (fits_l (by decide) (by decide) (pred_lt p) (toByte_lt d) (toByte_lt a) (toByte_lt b) (by decide) (by decide)) rfl rfl
    (show ¬ 5 ≤ 2 by decide) (fun hw => pred_ne _ (and_left hw)) ?_
  show pickIpred r = .ok (.porL p d a b)
  dsimp only [r]
  delta pickIpred
  simp only [ofByte_toByte, predOf, Raw.p]
theorem porX (p : Pred) (d : Opnd) (a : Opnd) (b : Opnd) (imm : Word) : Statement (.porX p d a b imm) := by
  let r : Raw := ⟨.X, 6, 2, p.toNat, d.toByte, a.toByte, b.toByte, 0, 0, imm⟩
  refine said (r := r) rfl (fits_x (by decide) (by decide) (pred_lt p) (toByte_lt d) (toByte_lt a) (toByte_lt b) (by decide) (by decide)) rfl rfl
    (show ¬ 5 ≤ 2 by decide) (fun hw => pred_ne _ (and_left hw)) ?_
  show pickIpred r = .ok (.porX p d a b imm)
  dsimp only [r]
  delta pickIpred
  simp only [ofByte_toByte, predOf, Raw.p]
theorem pxorL (p : Pred) (d : Opnd) (a : Opnd) (b : Opnd) : Statement (.pxorL p d a b) := by
  let r : Raw := ⟨.L, 6, 3, p.toNat, d.toByte, a.toByte, b.toByte, 0, 0, 0⟩
  refine said (r := r) rfl (fits_l (by decide) (by decide) (pred_lt p) (toByte_lt d) (toByte_lt a) (toByte_lt b) (by decide) (by decide)) rfl rfl
    (show ¬ 5 ≤ 3 by decide) (fun hw => pred_ne _ (and_left hw)) ?_
  show pickIpred r = .ok (.pxorL p d a b)
  dsimp only [r]
  delta pickIpred
  simp only [ofByte_toByte, predOf, Raw.p]
theorem pxorX (p : Pred) (d : Opnd) (a : Opnd) (b : Opnd) (imm : Word) : Statement (.pxorX p d a b imm) := by
  let r : Raw := ⟨.X, 6, 3, p.toNat, d.toByte, a.toByte, b.toByte, 0, 0, imm⟩
  refine said (r := r) rfl (fits_x (by decide) (by decide) (pred_lt p) (toByte_lt d) (toByte_lt a) (toByte_lt b) (by decide) (by decide)) rfl rfl
    (show ¬ 5 ≤ 3 by decide) (fun hw => pred_ne _ (and_left hw)) ?_
  show pickIpred r = .ok (.pxorX p d a b imm)
  dsimp only [r]
  delta pickIpred
  simp only [ofByte_toByte, predOf, Raw.p]
theorem pnotL (p : Pred) (d : Opnd) (a : Opnd) : Statement (.pnotL p d a) := by
  let r : Raw := ⟨.L, 6, 4, p.toNat, d.toByte, a.toByte, 0, 0, 0, 0⟩
  refine said (r := r) rfl (fits_l (by decide) (by decide) (pred_lt p) (toByte_lt d) (toByte_lt a) (by decide) (by decide) (by decide)) rfl rfl
    (show ¬ 5 ≤ 4 by decide) (fun hw => pred_ne _ (and_left hw)) ?_
  show pickIpred r = .ok (.pnotL p d a)
  dsimp only [r]
  delta pickIpred
  simp only [ofByte_toByte, predOf, Raw.p]
theorem pnotX (p : Pred) (d : Opnd) (a : Opnd) (imm : Word) : Statement (.pnotX p d a imm) := by
  let r : Raw := ⟨.X, 6, 4, p.toNat, d.toByte, a.toByte, 0, 0, 0, imm⟩
  refine said (r := r) rfl (fits_x (by decide) (by decide) (pred_lt p) (toByte_lt d) (toByte_lt a) (by decide) (by decide) (by decide)) rfl rfl
    (show ¬ 5 ≤ 4 by decide) (fun hw => pred_ne _ (and_left hw)) ?_
  show pickIpred r = .ok (.pnotX p d a imm)
  dsimp only [r]
  delta pickIpred
  simp only [ofByte_toByte, predOf, Raw.p]
theorem movL (p : Pred) (t : TypeCode) (d : Opnd) (a : Opnd) : Statement (.movL p t d a) := by
  have := lt_TypeCode t
  let r : Raw := ⟨.L, 7, 0, p.toNat, d.toByte, a.toByte, 0, 0, t.toCode * 16, 0⟩
  have h0 : Raw.bits r 4 5 = t.toCode := by dsimp only [r, Raw.bits]; omega
  refine said (r := r) rfl (fits_l (by decide) (by decide) (pred_lt p) (toByte_lt d) (toByte_lt a) (by decide) (by decide) (by omega)) rfl rfl
    (show ¬ 6 ≤ 0 by decide) (fun hw => pred_ne _ (and_left hw)) ?_
  show pickImove r = .ok (.movL p t d a)
  dsimp only [r] at h0 ⊢
  delta pickImove
  simp only [or_some, ofByte_toByte, predOf, Raw.p, h0, of_TypeCode, bind, Except.bind]
theorem movX (p : Pred) (t : TypeCode) (d : Opnd) (a : Opnd) (imm : Word) : Statement (.movX p t d a imm) := by
  have := lt_TypeCode t
  let r : Raw := ⟨.X, 7, 0, p.toNat, d.toByte, a.toByte, 0, 0, t.toCode * 16, imm⟩
  have h0 : Raw.bits r 4 5 = t.toCode := by dsimp only [r, Raw.bits]; omega
  refine said (r := r) rfl (fits_x (by decide) (by decide) (pred_lt p) (toByte_lt d) (toByte_lt a) (by decide) (by decide) (by omega)) rfl rfl
    (show ¬ 6 ≤ 0 by decide) (fun hw => pred_ne _ (and_left hw)) ?_
  show pickImove r = .ok (.movX p t d a imm)
  dsimp only [r] at h0 ⊢
  delta pickImove
  simp only [or_some, ofByte_toByte, predOf, Raw.p, h0, of_TypeCode, bind, Except.bind]
theorem movi (p : Pred) (t : TypeCode) (h : Fin 4) (d : Opnd) (a : Opnd) (imm : Word) : Statement (.movi p t h d a imm) := by
  have := lt_TypeCode t; have := h.isLt
  let r : Raw := ⟨.X, 7, 1, p.toNat, d.toByte, a.toByte, 0, 0, t.toCode * 16 + h.val, imm⟩
  have h0 : Raw.bits r 4 5 = t.toCode := by dsimp only [r, Raw.bits]; omega
  have h1 : Raw.bits r 0 2 = h.val := by dsimp only [r, Raw.bits]; omega
  refine said (r := r) rfl (fits_x (by decide) (by decide) (pred_lt p) (toByte_lt d) (toByte_lt a) (by decide) (by decide) (by omega)) rfl rfl
    (show ¬ 6 ≤ 1 by decide) (fun hw => pred_ne _ (and_left hw)) ?_
  show pickImove r = .ok (.movi p t h d a imm)
  dsimp only [r] at h0 h1 ⊢
  delta pickImove
  simp only [or_some, ofByte_toByte, predOf, Raw.p, h0, of_TypeCode, h1, fin_self, bind, Except.bind]
theorem selL (p : Pred) (t : TypeCode) (d : Opnd) (a : Opnd) (b : Opnd) (c : Opnd) : Statement (.selL p t d a b c) := by
  have := lt_TypeCode t
  let r : Raw := ⟨.L, 7, 2, p.toNat, d.toByte, a.toByte, b.toByte, c.toByte, t.toCode * 16, 0⟩
  have h0 : Raw.bits r 4 5 = t.toCode := by dsimp only [r, Raw.bits]; omega
  refine said (r := r) rfl (fits_l (by decide) (by decide) (pred_lt p) (toByte_lt d) (toByte_lt a) (toByte_lt b) (toByte_lt c) (by omega)) rfl rfl
    (show ¬ 6 ≤ 2 by decide) (fun hw => pred_ne _ (and_left hw)) ?_
  show pickImove r = .ok (.selL p t d a b c)
  dsimp only [r] at h0 ⊢
  delta pickImove
  simp only [or_some, ofByte_toByte, predOf, Raw.p, h0, of_TypeCode, bind, Except.bind]
theorem selX (p : Pred) (t : TypeCode) (d : Opnd) (a : Opnd) (b : Opnd) (c : Opnd) (imm : Word) : Statement (.selX p t d a b c imm) := by
  have := lt_TypeCode t
  let r : Raw := ⟨.X, 7, 2, p.toNat, d.toByte, a.toByte, b.toByte, c.toByte, t.toCode * 16, imm⟩
  have h0 : Raw.bits r 4 5 = t.toCode := by dsimp only [r, Raw.bits]; omega
  refine said (r := r) rfl (fits_x (by decide) (by decide) (pred_lt p) (toByte_lt d) (toByte_lt a) (toByte_lt b) (toByte_lt c) (by omega)) rfl rfl
    (show ¬ 6 ≤ 2 by decide) (fun hw => pred_ne _ (and_left hw)) ?_
  show pickImove r = .ok (.selX p t d a b c imm)
  dsimp only [r] at h0 ⊢
  delta pickImove
  simp only [or_some, ofByte_toByte, predOf, Raw.p, h0, of_TypeCode, bind, Except.bind]
theorem extL (p : Pred) (t : TypeCode) (w : ExtW) (d : Opnd) (a : Opnd) : Statement (.extL p t w d a) := by
  have := lt_TypeCode t; have := lt_ExtW w; have : w.toCode < 2 ^ 2 := (by cases w <;> decide)
  let r : Raw := ⟨.L, 7, 3, p.toNat, d.toByte, a.toByte, 0, 0, t.toCode * 16 + w.toCode, 0⟩
  have h0 : Raw.bits r 4 5 = t.toCode := by dsimp only [r, Raw.bits]; omega
  have h1 : Raw.bits r 0 2 = w.toCode := by dsimp only [r, Raw.bits]; omega
  refine said (r := r) rfl (fits_l (by decide) (by decide) (pred_lt p) (toByte_lt d) (toByte_lt a) (by decide) (by decide) (by omega)) rfl rfl
    (show ¬ 6 ≤ 3 by decide) (fun hw => pred_ne _ (and_left hw)) ?_
  show pickImove r = .ok (.extL p t w d a)
  dsimp only [r] at h0 h1 ⊢
  delta pickImove
  simp only [or_some, ofByte_toByte, predOf, Raw.p, h0, of_TypeCode, h1, of_ExtW, bind, Except.bind]
theorem extX (p : Pred) (t : TypeCode) (w : ExtW) (d : Opnd) (a : Opnd) (imm : Word) : Statement (.extX p t w d a imm) := by
  have := lt_TypeCode t; have := lt_ExtW w; have : w.toCode < 2 ^ 2 := (by cases w <;> decide)
  let r : Raw := ⟨.X, 7, 3, p.toNat, d.toByte, a.toByte, 0, 0, t.toCode * 16 + w.toCode, imm⟩
  have h0 : Raw.bits r 4 5 = t.toCode := by dsimp only [r, Raw.bits]; omega
  have h1 : Raw.bits r 0 2 = w.toCode := by dsimp only [r, Raw.bits]; omega
  refine said (r := r) rfl (fits_x (by decide) (by decide) (pred_lt p) (toByte_lt d) (toByte_lt a) (by decide) (by decide) (by omega)) rfl rfl
    (show ¬ 6 ≤ 3 by decide) (fun hw => pred_ne _ (and_left hw)) ?_
  show pickImove r = .ok (.extX p t w d a imm)
  dsimp only [r] at h0 h1 ⊢
  delta pickImove
  simp only [or_some, ofByte_toByte, predOf, Raw.p, h0, of_TypeCode, h1, of_ExtW, bind, Except.bind]
theorem packL (p : Pred) (t : TypeCode) (nar : Narrow) (d : Opnd) (a : Opnd) (b : Opnd) : Statement (.packL p t nar d a b) := by
  have := lt_TypeCode t; have := lt_Narrow nar; have : nar.toCode < 2 ^ 2 := (by cases nar <;> decide)
  let r : Raw := ⟨.L, 7, 4, p.toNat, d.toByte, a.toByte, b.toByte, 0, t.toCode * 16 + nar.toCode, 0⟩
  have h0 : Raw.bits r 4 5 = t.toCode := by dsimp only [r, Raw.bits]; omega
  have h1 : Raw.bits r 0 2 = nar.toCode := by dsimp only [r, Raw.bits]; omega
  refine said (r := r) rfl (fits_l (by decide) (by decide) (pred_lt p) (toByte_lt d) (toByte_lt a) (toByte_lt b) (by decide) (by omega)) rfl rfl
    (show ¬ 6 ≤ 4 by decide) (fun hw => pred_ne _ (and_left hw)) ?_
  show pickImove r = .ok (.packL p t nar d a b)
  dsimp only [r] at h0 h1 ⊢
  delta pickImove
  simp only [or_some, ofByte_toByte, predOf, Raw.p, h0, of_TypeCode, h1, of_Narrow, bind, Except.bind]
theorem packX (p : Pred) (t : TypeCode) (nar : Narrow) (d : Opnd) (a : Opnd) (b : Opnd) (imm : Word) : Statement (.packX p t nar d a b imm) := by
  have := lt_TypeCode t; have := lt_Narrow nar; have : nar.toCode < 2 ^ 2 := (by cases nar <;> decide)
  let r : Raw := ⟨.X, 7, 4, p.toNat, d.toByte, a.toByte, b.toByte, 0, t.toCode * 16 + nar.toCode, imm⟩
  have h0 : Raw.bits r 4 5 = t.toCode := by dsimp only [r, Raw.bits]; omega
  have h1 : Raw.bits r 0 2 = nar.toCode := by dsimp only [r, Raw.bits]; omega
  refine said (r := r) rfl (fits_x (by decide) (by decide) (pred_lt p) (toByte_lt d) (toByte_lt a) (toByte_lt b) (by decide) (by omega)) rfl rfl
    (show ¬ 6 ≤ 4 by decide) (fun hw => pred_ne _ (and_left hw)) ?_
  show pickImove r = .ok (.packX p t nar d a b imm)
  dsimp only [r] at h0 h1 ⊢
  delta pickImove
  simp only [or_some, ofByte_toByte, predOf, Raw.p, h0, of_TypeCode, h1, of_Narrow, bind, Except.bind]
theorem unpackL (p : Pred) (t : TypeCode) (idx : Fin 4) (sx : Bool) (d : Opnd) (a : Opnd) : Statement (.unpackL p t idx sx d a) := by
  have := lt_TypeCode t; have := idx.isLt; have := lt_Bool sx
  let r : Raw := ⟨.L, 7, 5, p.toNat, d.toByte, a.toByte, 0, 0, t.toCode * 16 + idx.val + sx.toNat * 4, 0⟩
  have h0 : Raw.bits r 4 5 = t.toCode := by dsimp only [r, Raw.bits]; omega
  have h1 : Raw.bits r 0 2 = idx.val := by dsimp only [r, Raw.bits]; omega
  have h2 : Raw.bit r 2 = sx := by exact of_Bool _ _ (by dsimp only [r]; omega)
  refine said (r := r) rfl (fits_l (by decide) (by decide) (pred_lt p) (toByte_lt d) (toByte_lt a) (by decide) (by decide) (by omega)) rfl rfl
    (show ¬ 6 ≤ 5 by decide) (fun hw => pred_ne _ (and_left hw)) ?_
  show pickImove r = .ok (.unpackL p t idx sx d a)
  dsimp only [r] at h0 h1 h2 ⊢
  delta pickImove
  simp only [or_some, ofByte_toByte, predOf, Raw.p, h0, of_TypeCode, h1, fin_self, h2, bind, Except.bind]
theorem unpackX (p : Pred) (t : TypeCode) (idx : Fin 4) (sx : Bool) (d : Opnd) (a : Opnd) (imm : Word) : Statement (.unpackX p t idx sx d a imm) := by
  have := lt_TypeCode t; have := idx.isLt; have := lt_Bool sx
  let r : Raw := ⟨.X, 7, 5, p.toNat, d.toByte, a.toByte, 0, 0, t.toCode * 16 + idx.val + sx.toNat * 4, imm⟩
  have h0 : Raw.bits r 4 5 = t.toCode := by dsimp only [r, Raw.bits]; omega
  have h1 : Raw.bits r 0 2 = idx.val := by dsimp only [r, Raw.bits]; omega
  have h2 : Raw.bit r 2 = sx := by exact of_Bool _ _ (by dsimp only [r]; omega)
  refine said (r := r) rfl (fits_x (by decide) (by decide) (pred_lt p) (toByte_lt d) (toByte_lt a) (by decide) (by decide) (by omega)) rfl rfl
    (show ¬ 6 ≤ 5 by decide) (fun hw => pred_ne _ (and_left hw)) ?_
  show pickImove r = .ok (.unpackX p t idx sx d a imm)
  dsimp only [r] at h0 h1 h2 ⊢
  delta pickImove
  simp only [or_some, ofByte_toByte, predOf, Raw.p, h0, of_TypeCode, h1, fin_self, h2, bind, Except.bind]
theorem faddL (p : Pred) (t : TypeCode) (rnd : Rnd) (d : Opnd) (a : Opnd) (b : Opnd) : Statement (.faddL p t rnd d a b) := by
  have := lt_TypeCode t; have := lt_Rnd rnd; have : rnd.toCode < 2 ^ 3 := (by cases rnd <;> decide)
  let r : Raw := ⟨.L, 8, 0, p.toNat, d.toByte, a.toByte, b.toByte, 0, t.toCode * 16 + rnd.toCode, 0⟩
  have h0 : Raw.bits r 4 5 = t.toCode := by dsimp only [r, Raw.bits]; omega
  have h1 : Raw.bits r 0 3 = rnd.toCode := by dsimp only [r, Raw.bits]; omega
  refine said (r := r) rfl (fits_l (by decide) (by decide) (pred_lt p) (toByte_lt d) (toByte_lt a) (toByte_lt b) (by decide) (by omega)) rfl rfl
    (show ¬ 12 ≤ 0 by decide) (fun hw => pred_ne _ (and_left hw)) ?_
  show pickFarith r = .ok (.faddL p t rnd d a b)
  dsimp only [r] at h0 h1 ⊢
  delta pickFarith
  simp only [or_some, ofByte_toByte, predOf, Raw.p, h0, of_TypeCode, h1, of_Rnd, bind, Except.bind]
theorem faddX (p : Pred) (t : TypeCode) (rnd : Rnd) (d : Opnd) (a : Opnd) (b : Opnd) (imm : Word) : Statement (.faddX p t rnd d a b imm) := by
  have := lt_TypeCode t; have := lt_Rnd rnd; have : rnd.toCode < 2 ^ 3 := (by cases rnd <;> decide)
  let r : Raw := ⟨.X, 8, 0, p.toNat, d.toByte, a.toByte, b.toByte, 0, t.toCode * 16 + rnd.toCode, imm⟩
  have h0 : Raw.bits r 4 5 = t.toCode := by dsimp only [r, Raw.bits]; omega
  have h1 : Raw.bits r 0 3 = rnd.toCode := by dsimp only [r, Raw.bits]; omega
  refine said (r := r) rfl (fits_x (by decide) (by decide) (pred_lt p) (toByte_lt d) (toByte_lt a) (toByte_lt b) (by decide) (by omega)) rfl rfl
    (show ¬ 12 ≤ 0 by decide) (fun hw => pred_ne _ (and_left hw)) ?_
  show pickFarith r = .ok (.faddX p t rnd d a b imm)
  dsimp only [r] at h0 h1 ⊢
  delta pickFarith
  simp only [or_some, ofByte_toByte, predOf, Raw.p, h0, of_TypeCode, h1, of_Rnd, bind, Except.bind]
theorem fsubL (p : Pred) (t : TypeCode) (rnd : Rnd) (d : Opnd) (a : Opnd) (b : Opnd) : Statement (.fsubL p t rnd d a b) := by
  have := lt_TypeCode t; have := lt_Rnd rnd; have : rnd.toCode < 2 ^ 3 := (by cases rnd <;> decide)
  let r : Raw := ⟨.L, 8, 1, p.toNat, d.toByte, a.toByte, b.toByte, 0, t.toCode * 16 + rnd.toCode, 0⟩
  have h0 : Raw.bits r 4 5 = t.toCode := by dsimp only [r, Raw.bits]; omega
  have h1 : Raw.bits r 0 3 = rnd.toCode := by dsimp only [r, Raw.bits]; omega
  refine said (r := r) rfl (fits_l (by decide) (by decide) (pred_lt p) (toByte_lt d) (toByte_lt a) (toByte_lt b) (by decide) (by omega)) rfl rfl
    (show ¬ 12 ≤ 1 by decide) (fun hw => pred_ne _ (and_left hw)) ?_
  show pickFarith r = .ok (.fsubL p t rnd d a b)
  dsimp only [r] at h0 h1 ⊢
  delta pickFarith
  simp only [or_some, ofByte_toByte, predOf, Raw.p, h0, of_TypeCode, h1, of_Rnd, bind, Except.bind]
theorem fsubX (p : Pred) (t : TypeCode) (rnd : Rnd) (d : Opnd) (a : Opnd) (b : Opnd) (imm : Word) : Statement (.fsubX p t rnd d a b imm) := by
  have := lt_TypeCode t; have := lt_Rnd rnd; have : rnd.toCode < 2 ^ 3 := (by cases rnd <;> decide)
  let r : Raw := ⟨.X, 8, 1, p.toNat, d.toByte, a.toByte, b.toByte, 0, t.toCode * 16 + rnd.toCode, imm⟩
  have h0 : Raw.bits r 4 5 = t.toCode := by dsimp only [r, Raw.bits]; omega
  have h1 : Raw.bits r 0 3 = rnd.toCode := by dsimp only [r, Raw.bits]; omega
  refine said (r := r) rfl (fits_x (by decide) (by decide) (pred_lt p) (toByte_lt d) (toByte_lt a) (toByte_lt b) (by decide) (by omega)) rfl rfl
    (show ¬ 12 ≤ 1 by decide) (fun hw => pred_ne _ (and_left hw)) ?_
  show pickFarith r = .ok (.fsubX p t rnd d a b imm)
  dsimp only [r] at h0 h1 ⊢
  delta pickFarith
  simp only [or_some, ofByte_toByte, predOf, Raw.p, h0, of_TypeCode, h1, of_Rnd, bind, Except.bind]
theorem fmulL (p : Pred) (t : TypeCode) (rnd : Rnd) (d : Opnd) (a : Opnd) (b : Opnd) : Statement (.fmulL p t rnd d a b) := by
  have := lt_TypeCode t; have := lt_Rnd rnd; have : rnd.toCode < 2 ^ 3 := (by cases rnd <;> decide)
  let r : Raw := ⟨.L, 8, 2, p.toNat, d.toByte, a.toByte, b.toByte, 0, t.toCode * 16 + rnd.toCode, 0⟩
  have h0 : Raw.bits r 4 5 = t.toCode := by dsimp only [r, Raw.bits]; omega
  have h1 : Raw.bits r 0 3 = rnd.toCode := by dsimp only [r, Raw.bits]; omega
  refine said (r := r) rfl (fits_l (by decide) (by decide) (pred_lt p) (toByte_lt d) (toByte_lt a) (toByte_lt b) (by decide) (by omega)) rfl rfl
    (show ¬ 12 ≤ 2 by decide) (fun hw => pred_ne _ (and_left hw)) ?_
  show pickFarith r = .ok (.fmulL p t rnd d a b)
  dsimp only [r] at h0 h1 ⊢
  delta pickFarith
  simp only [or_some, ofByte_toByte, predOf, Raw.p, h0, of_TypeCode, h1, of_Rnd, bind, Except.bind]
theorem fmulX (p : Pred) (t : TypeCode) (rnd : Rnd) (d : Opnd) (a : Opnd) (b : Opnd) (imm : Word) : Statement (.fmulX p t rnd d a b imm) := by
  have := lt_TypeCode t; have := lt_Rnd rnd; have : rnd.toCode < 2 ^ 3 := (by cases rnd <;> decide)
  let r : Raw := ⟨.X, 8, 2, p.toNat, d.toByte, a.toByte, b.toByte, 0, t.toCode * 16 + rnd.toCode, imm⟩
  have h0 : Raw.bits r 4 5 = t.toCode := by dsimp only [r, Raw.bits]; omega
  have h1 : Raw.bits r 0 3 = rnd.toCode := by dsimp only [r, Raw.bits]; omega
  refine said (r := r) rfl (fits_x (by decide) (by decide) (pred_lt p) (toByte_lt d) (toByte_lt a) (toByte_lt b) (by decide) (by omega)) rfl rfl
    (show ¬ 12 ≤ 2 by decide) (fun hw => pred_ne _ (and_left hw)) ?_
  show pickFarith r = .ok (.fmulX p t rnd d a b imm)
  dsimp only [r] at h0 h1 ⊢
  delta pickFarith
  simp only [or_some, ofByte_toByte, predOf, Raw.p, h0, of_TypeCode, h1, of_Rnd, bind, Except.bind]
theorem ffmaL (p : Pred) (t : TypeCode) (rnd : Rnd) (d : Opnd) (a : Opnd) (b : Opnd) (c : Opnd) : Statement (.ffmaL p t rnd d a b c) := by
  have := lt_TypeCode t; have := lt_Rnd rnd; have : rnd.toCode < 2 ^ 3 := (by cases rnd <;> decide)
  let r : Raw := ⟨.L, 8, 3, p.toNat, d.toByte, a.toByte, b.toByte, c.toByte, t.toCode * 16 + rnd.toCode, 0⟩
  have h0 : Raw.bits r 4 5 = t.toCode := by dsimp only [r, Raw.bits]; omega
  have h1 : Raw.bits r 0 3 = rnd.toCode := by dsimp only [r, Raw.bits]; omega
  refine said (r := r) rfl (fits_l (by decide) (by decide) (pred_lt p) (toByte_lt d) (toByte_lt a) (toByte_lt b) (toByte_lt c) (by omega)) rfl rfl
    (show ¬ 12 ≤ 3 by decide) (fun hw => pred_ne _ (and_left hw)) ?_
  show pickFarith r = .ok (.ffmaL p t rnd d a b c)
  dsimp only [r] at h0 h1 ⊢
  delta pickFarith
  simp only [or_some, ofByte_toByte, predOf, Raw.p, h0, of_TypeCode, h1, of_Rnd, bind, Except.bind]
theorem ffmaX (p : Pred) (t : TypeCode) (rnd : Rnd) (d : Opnd) (a : Opnd) (b : Opnd) (c : Opnd) (imm : Word) : Statement (.ffmaX p t rnd d a b c imm) := by
  have := lt_TypeCode t; have := lt_Rnd rnd; have : rnd.toCode < 2 ^ 3 := (by cases rnd <;> decide)
  let r : Raw := ⟨.X, 8, 3, p.toNat, d.toByte, a.toByte, b.toByte, c.toByte, t.toCode * 16 + rnd.toCode, imm⟩
  have h0 : Raw.bits r 4 5 = t.toCode := by dsimp only [r, Raw.bits]; omega
  have h1 : Raw.bits r 0 3 = rnd.toCode := by dsimp only [r, Raw.bits]; omega
  refine said (r := r) rfl (fits_x (by decide) (by decide) (pred_lt p) (toByte_lt d) (toByte_lt a) (toByte_lt b) (toByte_lt c) (by omega)) rfl rfl
    (show ¬ 12 ≤ 3 by decide) (fun hw => pred_ne _ (and_left hw)) ?_
  show pickFarith r = .ok (.ffmaX p t rnd d a b c imm)
  dsimp only [r] at h0 h1 ⊢
  delta pickFarith
  simp only [or_some, ofByte_toByte, predOf, Raw.p, h0, of_TypeCode, h1, of_Rnd, bind, Except.bind]
theorem fminL (p : Pred) (t : TypeCode) (d : Opnd) (a : Opnd) (b : Opnd) : Statement (.fminL p t d a b) := by
  have := lt_TypeCode t
  let r : Raw := ⟨.L, 8, 4, p.toNat, d.toByte, a.toByte, b.toByte, 0, t.toCode * 16, 0⟩
  have h0 : Raw.bits r 4 5 = t.toCode := by dsimp only [r, Raw.bits]; omega
  refine said (r := r) rfl (fits_l (by decide) (by decide) (pred_lt p) (toByte_lt d) (toByte_lt a) (toByte_lt b) (by decide) (by omega)) rfl rfl
    (show ¬ 12 ≤ 4 by decide) (fun hw => pred_ne _ (and_left hw)) ?_
  show pickFarith r = .ok (.fminL p t d a b)
  dsimp only [r] at h0 ⊢
  delta pickFarith
  simp only [or_some, ofByte_toByte, predOf, Raw.p, h0, of_TypeCode, bind, Except.bind]
theorem fminX (p : Pred) (t : TypeCode) (d : Opnd) (a : Opnd) (b : Opnd) (imm : Word) : Statement (.fminX p t d a b imm) := by
  have := lt_TypeCode t
  let r : Raw := ⟨.X, 8, 4, p.toNat, d.toByte, a.toByte, b.toByte, 0, t.toCode * 16, imm⟩
  have h0 : Raw.bits r 4 5 = t.toCode := by dsimp only [r, Raw.bits]; omega
  refine said (r := r) rfl (fits_x (by decide) (by decide) (pred_lt p) (toByte_lt d) (toByte_lt a) (toByte_lt b) (by decide) (by omega)) rfl rfl
    (show ¬ 12 ≤ 4 by decide) (fun hw => pred_ne _ (and_left hw)) ?_
  show pickFarith r = .ok (.fminX p t d a b imm)
  dsimp only [r] at h0 ⊢
  delta pickFarith
  simp only [or_some, ofByte_toByte, predOf, Raw.p, h0, of_TypeCode, bind, Except.bind]
theorem fmaxL (p : Pred) (t : TypeCode) (d : Opnd) (a : Opnd) (b : Opnd) : Statement (.fmaxL p t d a b) := by
  have := lt_TypeCode t
  let r : Raw := ⟨.L, 8, 5, p.toNat, d.toByte, a.toByte, b.toByte, 0, t.toCode * 16, 0⟩
  have h0 : Raw.bits r 4 5 = t.toCode := by dsimp only [r, Raw.bits]; omega
  refine said (r := r) rfl (fits_l (by decide) (by decide) (pred_lt p) (toByte_lt d) (toByte_lt a) (toByte_lt b) (by decide) (by omega)) rfl rfl
    (show ¬ 12 ≤ 5 by decide) (fun hw => pred_ne _ (and_left hw)) ?_
  show pickFarith r = .ok (.fmaxL p t d a b)
  dsimp only [r] at h0 ⊢
  delta pickFarith
  simp only [or_some, ofByte_toByte, predOf, Raw.p, h0, of_TypeCode, bind, Except.bind]
theorem fmaxX (p : Pred) (t : TypeCode) (d : Opnd) (a : Opnd) (b : Opnd) (imm : Word) : Statement (.fmaxX p t d a b imm) := by
  have := lt_TypeCode t
  let r : Raw := ⟨.X, 8, 5, p.toNat, d.toByte, a.toByte, b.toByte, 0, t.toCode * 16, imm⟩
  have h0 : Raw.bits r 4 5 = t.toCode := by dsimp only [r, Raw.bits]; omega
  refine said (r := r) rfl (fits_x (by decide) (by decide) (pred_lt p) (toByte_lt d) (toByte_lt a) (toByte_lt b) (by decide) (by omega)) rfl rfl
    (show ¬ 12 ≤ 5 by decide) (fun hw => pred_ne _ (and_left hw)) ?_
  show pickFarith r = .ok (.fmaxX p t d a b imm)
  dsimp only [r] at h0 ⊢
  delta pickFarith
  simp only [or_some, ofByte_toByte, predOf, Raw.p, h0, of_TypeCode, bind, Except.bind]
theorem fabsL (p : Pred) (t : TypeCode) (d : Opnd) (a : Opnd) : Statement (.fabsL p t d a) := by
  have := lt_TypeCode t
  let r : Raw := ⟨.L, 8, 6, p.toNat, d.toByte, a.toByte, 0, 0, t.toCode * 16, 0⟩
  have h0 : Raw.bits r 4 5 = t.toCode := by dsimp only [r, Raw.bits]; omega
  refine said (r := r) rfl (fits_l (by decide) (by decide) (pred_lt p) (toByte_lt d) (toByte_lt a) (by decide) (by decide) (by omega)) rfl rfl
    (show ¬ 12 ≤ 6 by decide) (fun hw => pred_ne _ (and_left hw)) ?_
  show pickFarith r = .ok (.fabsL p t d a)
  dsimp only [r] at h0 ⊢
  delta pickFarith
  simp only [or_some, ofByte_toByte, predOf, Raw.p, h0, of_TypeCode, bind, Except.bind]
theorem fabsX (p : Pred) (t : TypeCode) (d : Opnd) (a : Opnd) (imm : Word) : Statement (.fabsX p t d a imm) := by
  have := lt_TypeCode t
  let r : Raw := ⟨.X, 8, 6, p.toNat, d.toByte, a.toByte, 0, 0, t.toCode * 16, imm⟩
  have h0 : Raw.bits r 4 5 = t.toCode := by dsimp only [r, Raw.bits]; omega
  refine said (r := r) rfl (fits_x (by decide) (by decide) (pred_lt p) (toByte_lt d) (toByte_lt a) (by decide) (by decide) (by omega)) rfl rfl
    (show ¬ 12 ≤ 6 by decide) (fun hw => pred_ne _ (and_left hw)) ?_
  show pickFarith r = .ok (.fabsX p t d a imm)
  dsimp only [r] at h0 ⊢
  delta pickFarith
  simp only [or_some, ofByte_toByte, predOf, Raw.p, h0, of_TypeCode, bind, Except.bind]
theorem fnegL (p : Pred) (t : TypeCode) (d : Opnd) (a : Opnd) : Statement (.fnegL p t d a) := by
  have := lt_TypeCode t
  let r : Raw := ⟨.L, 8, 7, p.toNat, d.toByte, a.toByte, 0, 0, t.toCode * 16, 0⟩
  have h0 : Raw.bits r 4 5 = t.toCode := by dsimp only [r, Raw.bits]; omega
  refine said (r := r) rfl (fits_l (by decide) (by decide) (pred_lt p) (toByte_lt d) (toByte_lt a) (by decide) (by decide) (by omega)) rfl rfl
    (show ¬ 12 ≤ 7 by decide) (fun hw => pred_ne _ (and_left hw)) ?_
  show pickFarith r = .ok (.fnegL p t d a)
  dsimp only [r] at h0 ⊢
  delta pickFarith
  simp only [or_some, ofByte_toByte, predOf, Raw.p, h0, of_TypeCode, bind, Except.bind]
theorem fnegX (p : Pred) (t : TypeCode) (d : Opnd) (a : Opnd) (imm : Word) : Statement (.fnegX p t d a imm) := by
  have := lt_TypeCode t
  let r : Raw := ⟨.X, 8, 7, p.toNat, d.toByte, a.toByte, 0, 0, t.toCode * 16, imm⟩
  have h0 : Raw.bits r 4 5 = t.toCode := by dsimp only [r, Raw.bits]; omega
  refine said (r := r) rfl (fits_x (by decide) (by decide) (pred_lt p) (toByte_lt d) (toByte_lt a) (by decide) (by decide) (by omega)) rfl rfl
    (show ¬ 12 ≤ 7 by decide) (fun hw => pred_ne _ (and_left hw)) ?_
  show pickFarith r = .ok (.fnegX p t d a imm)
  dsimp only [r] at h0 ⊢
  delta pickFarith
  simp only [or_some, ofByte_toByte, predOf, Raw.p, h0, of_TypeCode, bind, Except.bind]
theorem fcmpL (p : Pred) (t : TypeCode) (cond : FCond) (comb : Comb) (d : Opnd) (a : Opnd) (b : Opnd) : Statement (.fcmpL p t cond comb d a b) := by
  have := lt_TypeCode t; have := lt_FCond cond; have := lt_Comb comb; have : cond.toCode < 2 ^ 4 := (by cases cond <;> decide)
  let r : Raw := ⟨.L, 8, 8, p.toNat, d.toByte, a.toByte, b.toByte, comb.toC, t.toCode * 16 + cond.toCode + comb.toCode * 512, 0⟩
  have h0 : Raw.bits r 4 5 = t.toCode := by dsimp only [r, Raw.bits]; omega
  have h1 : Raw.bits r 0 4 = cond.toCode := by dsimp only [r, Raw.bits]; omega
  have h2 : Raw.bits r 9 2 = comb.toCode := by dsimp only [r, Raw.bits]; omega
  refine said (r := r) rfl (fits_l (by decide) (by decide) (pred_lt p) (toByte_lt d) (toByte_lt a) (toByte_lt b) (toC_lt comb) (by omega)) rfl rfl
    (show ¬ 12 ≤ 8 by decide) (fun hw => pred_ne _ (and_left hw)) ?_
  show pickFarith r = .ok (.fcmpL p t cond comb d a b)
  dsimp only [r] at h0 h1 h2 ⊢
  delta pickFarith
  simp only [or_some, ofByte_toByte, predOf, Raw.p, h0, of_TypeCode, h1, of_FCond, h2, of_Comb, bind, Except.bind]
theorem fcmpX (p : Pred) (t : TypeCode) (cond : FCond) (comb : Comb) (d : Opnd) (a : Opnd) (b : Opnd) (imm : Word) : Statement (.fcmpX p t cond comb d a b imm) := by
  have := lt_TypeCode t; have := lt_FCond cond; have := lt_Comb comb; have : cond.toCode < 2 ^ 4 := (by cases cond <;> decide)
  let r : Raw := ⟨.X, 8, 8, p.toNat, d.toByte, a.toByte, b.toByte, comb.toC, t.toCode * 16 + cond.toCode + comb.toCode * 512, imm⟩
  have h0 : Raw.bits r 4 5 = t.toCode := by dsimp only [r, Raw.bits]; omega
  have h1 : Raw.bits r 0 4 = cond.toCode := by dsimp only [r, Raw.bits]; omega
  have h2 : Raw.bits r 9 2 = comb.toCode := by dsimp only [r, Raw.bits]; omega
  refine said (r := r) rfl (fits_x (by decide) (by decide) (pred_lt p) (toByte_lt d) (toByte_lt a) (toByte_lt b) (toC_lt comb) (by omega)) rfl rfl
    (show ¬ 12 ≤ 8 by decide) (fun hw => pred_ne _ (and_left hw)) ?_
  show pickFarith r = .ok (.fcmpX p t cond comb d a b imm)
  dsimp only [r] at h0 h1 h2 ⊢
  delta pickFarith
  simp only [or_some, ofByte_toByte, predOf, Raw.p, h0, of_TypeCode, h1, of_FCond, h2, of_Comb, bind, Except.bind]
theorem frndL (p : Pred) (t : TypeCode) (rnd : Rnd) (d : Opnd) (a : Opnd) : Statement (.frndL p t rnd d a) := by
  have := lt_TypeCode t; have := lt_Rnd rnd; have : rnd.toCode < 2 ^ 3 := (by cases rnd <;> decide)
  let r : Raw := ⟨.L, 8, 9, p.toNat, d.toByte, a.toByte, 0, 0, t.toCode * 16 + rnd.toCode, 0⟩
  have h0 : Raw.bits r 4 5 = t.toCode := by dsimp only [r, Raw.bits]; omega
  have h1 : Raw.bits r 0 3 = rnd.toCode := by dsimp only [r, Raw.bits]; omega
  refine said (r := r) rfl (fits_l (by decide) (by decide) (pred_lt p) (toByte_lt d) (toByte_lt a) (by decide) (by decide) (by omega)) rfl rfl
    (show ¬ 12 ≤ 9 by decide) (fun hw => pred_ne _ (and_left hw)) ?_
  show pickFarith r = .ok (.frndL p t rnd d a)
  dsimp only [r] at h0 h1 ⊢
  delta pickFarith
  simp only [or_some, ofByte_toByte, predOf, Raw.p, h0, of_TypeCode, h1, of_Rnd, bind, Except.bind]
theorem frndX (p : Pred) (t : TypeCode) (rnd : Rnd) (d : Opnd) (a : Opnd) (imm : Word) : Statement (.frndX p t rnd d a imm) := by
  have := lt_TypeCode t; have := lt_Rnd rnd; have : rnd.toCode < 2 ^ 3 := (by cases rnd <;> decide)
  let r : Raw := ⟨.X, 8, 9, p.toNat, d.toByte, a.toByte, 0, 0, t.toCode * 16 + rnd.toCode, imm⟩
  have h0 : Raw.bits r 4 5 = t.toCode := by dsimp only [r, Raw.bits]; omega
  have h1 : Raw.bits r 0 3 = rnd.toCode := by dsimp only [r, Raw.bits]; omega
  refine said (r := r) rfl (fits_x (by decide) (by decide) (pred_lt p) (toByte_lt d) (toByte_lt a) (by decide) (by decide) (by omega)) rfl rfl
    (show ¬ 12 ≤ 9 by decide) (fun hw => pred_ne _ (and_left hw)) ?_
  show pickFarith r = .ok (.frndX p t rnd d a imm)
  dsimp only [r] at h0 h1 ⊢
  delta pickFarith
  simp only [or_some, ofByte_toByte, predOf, Raw.p, h0, of_TypeCode, h1, of_Rnd, bind, Except.bind]
theorem fclassL (p : Pred) (t : TypeCode) (d : Opnd) (a : Opnd) : Statement (.fclassL p t d a) := by
  have := lt_TypeCode t
  let r : Raw := ⟨.L, 8, 10, p.toNat, d.toByte, a.toByte, 0, 0, t.toCode * 16, 0⟩
  have h0 : Raw.bits r 4 5 = t.toCode := by dsimp only [r, Raw.bits]; omega
  refine said (r := r) rfl (fits_l (by decide) (by decide) (pred_lt p) (toByte_lt d) (toByte_lt a) (by decide) (by decide) (by omega)) rfl rfl
    (show ¬ 12 ≤ 10 by decide) (fun hw => pred_ne _ (and_left hw)) ?_
  show pickFarith r = .ok (.fclassL p t d a)
  dsimp only [r] at h0 ⊢
  delta pickFarith
  simp only [or_some, ofByte_toByte, predOf, Raw.p, h0, of_TypeCode, bind, Except.bind]
theorem fclassX (p : Pred) (t : TypeCode) (d : Opnd) (a : Opnd) (imm : Word) : Statement (.fclassX p t d a imm) := by
  have := lt_TypeCode t
  let r : Raw := ⟨.X, 8, 10, p.toNat, d.toByte, a.toByte, 0, 0, t.toCode * 16, imm⟩
  have h0 : Raw.bits r 4 5 = t.toCode := by dsimp only [r, Raw.bits]; omega
  refine said (r := r) rfl (fits_x (by decide) (by decide) (pred_lt p) (toByte_lt d) (toByte_lt a) (by decide) (by decide) (by omega)) rfl rfl
    (show ¬ 12 ≤ 10 by decide) (fun hw => pred_ne _ (and_left hw)) ?_
  show pickFarith r = .ok (.fclassX p t d a imm)
  dsimp only [r] at h0 ⊢
  delta pickFarith
  simp only [or_some, ofByte_toByte, predOf, Raw.p, h0, of_TypeCode, bind, Except.bind]
theorem fscaleL (p : Pred) (t : TypeCode) (rnd : Rnd) (d : Opnd) (a : Opnd) (b : Opnd) : Statement (.fscaleL p t rnd d a b) := by
  have := lt_TypeCode t; have := lt_Rnd rnd; have : rnd.toCode < 2 ^ 3 := (by cases rnd <;> decide)
  let r : Raw := ⟨.L, 8, 11, p.toNat, d.toByte, a.toByte, b.toByte, 0, t.toCode * 16 + rnd.toCode, 0⟩
  have h0 : Raw.bits r 4 5 = t.toCode := by dsimp only [r, Raw.bits]; omega
  have h1 : Raw.bits r 0 3 = rnd.toCode := by dsimp only [r, Raw.bits]; omega
  refine said (r := r) rfl (fits_l (by decide) (by decide) (pred_lt p) (toByte_lt d) (toByte_lt a) (toByte_lt b) (by decide) (by omega)) rfl rfl
    (show ¬ 12 ≤ 11 by decide) (fun hw => pred_ne _ (and_left hw)) ?_
  show pickFarith r = .ok (.fscaleL p t rnd d a b)
  dsimp only [r] at h0 h1 ⊢
  delta pickFarith
  simp only [or_some, ofByte_toByte, predOf, Raw.p, h0, of_TypeCode, h1, of_Rnd, bind, Except.bind]
theorem fscaleX (p : Pred) (t : TypeCode) (rnd : Rnd) (d : Opnd) (a : Opnd) (b : Opnd) (imm : Word) : Statement (.fscaleX p t rnd d a b imm) := by
  have := lt_TypeCode t; have := lt_Rnd rnd; have : rnd.toCode < 2 ^ 3 := (by cases rnd <;> decide)
  let r : Raw := ⟨.X, 8, 11, p.toNat, d.toByte, a.toByte, b.toByte, 0, t.toCode * 16 + rnd.toCode, imm⟩
  have h0 : Raw.bits r 4 5 = t.toCode := by dsimp only [r, Raw.bits]; omega
  have h1 : Raw.bits r 0 3 = rnd.toCode := by dsimp only [r, Raw.bits]; omega
  refine said (r := r) rfl (fits_x (by decide) (by decide) (pred_lt p) (toByte_lt d) (toByte_lt a) (toByte_lt b) (by decide) (by omega)) rfl rfl
    (show ¬ 12 ≤ 11 by decide) (fun hw => pred_ne _ (and_left hw)) ?_
  show pickFarith r = .ok (.fscaleX p t rnd d a b imm)
  dsimp only [r] at h0 h1 ⊢
  delta pickFarith
  simp only [or_some, ofByte_toByte, predOf, Raw.p, h0, of_TypeCode, h1, of_Rnd, bind, Except.bind]
theorem frcp (p : Pred) (t : TypeCode) (d : Opnd) (a : Opnd) : Statement (.frcp p t d a) := by
  have := lt_TypeCode t
  let r : Raw := ⟨.L, 9, 0, p.toNat, d.toByte, a.toByte, 0, 0, t.toCode * 16, 0⟩
  have h0 : Raw.bits r 4 5 = t.toCode := by dsimp only [r, Raw.bits]; omega
  refine said (r := r) rfl (fits_l (by decide) (by decide) (pred_lt p) (toByte_lt d) (toByte_lt a) (by decide) (by decide) (by omega)) rfl rfl
    (show ¬ 8 ≤ 0 by decide) (fun hw => pred_ne _ (and_left hw)) ?_
  show pickFspec r = .ok (.frcp p t d a)
  dsimp only [r] at h0 ⊢
  delta pickFspec
  simp only [or_some, ofByte_toByte, predOf, Raw.p, h0, of_TypeCode, bind, Except.bind]
theorem frsq (p : Pred) (t : TypeCode) (d : Opnd) (a : Opnd) : Statement (.frsq p t d a) := by
  have := lt_TypeCode t
  let r : Raw := ⟨.L, 9, 1, p.toNat, d.toByte, a.toByte, 0, 0, t.toCode * 16, 0⟩
  have h0 : Raw.bits r 4 5 = t.toCode := by dsimp only [r, Raw.bits]; omega
  refine said (r := r) rfl (fits_l (by decide) (by decide) (pred_lt p) (toByte_lt d) (toByte_lt a) (by decide) (by decide) (by omega)) rfl rfl
    (show ¬ 8 ≤ 1 by decide) (fun hw => pred_ne _ (and_left hw)) ?_
  show pickFspec r = .ok (.frsq p t d a)
  dsimp only [r] at h0 ⊢
  delta pickFspec
  simp only [or_some, ofByte_toByte, predOf, Raw.p, h0, of_TypeCode, bind, Except.bind]
theorem fsqrt (p : Pred) (t : TypeCode) (rnd : Rnd) (d : Opnd) (a : Opnd) : Statement (.fsqrt p t rnd d a) := by
  have := lt_TypeCode t; have := lt_Rnd rnd; have : rnd.toCode < 2 ^ 3 := (by cases rnd <;> decide)
  let r : Raw := ⟨.L, 9, 2, p.toNat, d.toByte, a.toByte, 0, 0, t.toCode * 16 + rnd.toCode, 0⟩
  have h0 : Raw.bits r 4 5 = t.toCode := by dsimp only [r, Raw.bits]; omega
  have h1 : Raw.bits r 0 3 = rnd.toCode := by dsimp only [r, Raw.bits]; omega
  refine said (r := r) rfl (fits_l (by decide) (by decide) (pred_lt p) (toByte_lt d) (toByte_lt a) (by decide) (by decide) (by omega)) rfl rfl
    (show ¬ 8 ≤ 2 by decide) (fun hw => pred_ne _ (and_left hw)) ?_
  show pickFspec r = .ok (.fsqrt p t rnd d a)
  dsimp only [r] at h0 h1 ⊢
  delta pickFspec
  simp only [or_some, ofByte_toByte, predOf, Raw.p, h0, of_TypeCode, h1, of_Rnd, bind, Except.bind]
theorem fdiv (p : Pred) (t : TypeCode) (rnd : Rnd) (d : Opnd) (a : Opnd) (b : Opnd) : Statement (.fdiv p t rnd d a b) := by
  have := lt_TypeCode t; have := lt_Rnd rnd; have : rnd.toCode < 2 ^ 3 := (by cases rnd <;> decide)
  let r : Raw := ⟨.L, 9, 3, p.toNat, d.toByte, a.toByte, b.toByte, 0, t.toCode * 16 + rnd.toCode, 0⟩
  have h0 : Raw.bits r 4 5 = t.toCode := by dsimp only [r, Raw.bits]; omega
  have h1 : Raw.bits r 0 3 = rnd.toCode := by dsimp only [r, Raw.bits]; omega
  refine said (r := r) rfl (fits_l (by decide) (by decide) (pred_lt p) (toByte_lt d) (toByte_lt a) (toByte_lt b) (by decide) (by omega)) rfl rfl
    (show ¬ 8 ≤ 3 by decide) (fun hw => pred_ne _ (and_left hw)) ?_
  show pickFspec r = .ok (.fdiv p t rnd d a b)
  dsimp only [r] at h0 h1 ⊢
  delta pickFspec
  simp only [or_some, ofByte_toByte, predOf, Raw.p, h0, of_TypeCode, h1, of_Rnd, bind, Except.bind]
theorem fexp2 (p : Pred) (t : TypeCode) (d : Opnd) (a : Opnd) : Statement (.fexp2 p t d a) := by
  have := lt_TypeCode t
  let r : Raw := ⟨.L, 9, 4, p.toNat, d.toByte, a.toByte, 0, 0, t.toCode * 16, 0⟩
  have h0 : Raw.bits r 4 5 = t.toCode := by dsimp only [r, Raw.bits]; omega
  refine said (r := r) rfl (fits_l (by decide) (by decide) (pred_lt p) (toByte_lt d) (toByte_lt a) (by decide) (by decide) (by omega)) rfl rfl
    (show ¬ 8 ≤ 4 by decide) (fun hw => pred_ne _ (and_left hw)) ?_
  show pickFspec r = .ok (.fexp2 p t d a)
  dsimp only [r] at h0 ⊢
  delta pickFspec
  simp only [or_some, ofByte_toByte, predOf, Raw.p, h0, of_TypeCode, bind, Except.bind]
theorem flog2 (p : Pred) (t : TypeCode) (d : Opnd) (a : Opnd) : Statement (.flog2 p t d a) := by
  have := lt_TypeCode t
  let r : Raw := ⟨.L, 9, 5, p.toNat, d.toByte, a.toByte, 0, 0, t.toCode * 16, 0⟩
  have h0 : Raw.bits r 4 5 = t.toCode := by dsimp only [r, Raw.bits]; omega
  refine said (r := r) rfl (fits_l (by decide) (by decide) (pred_lt p) (toByte_lt d) (toByte_lt a) (by decide) (by decide) (by omega)) rfl rfl
    (show ¬ 8 ≤ 5 by decide) (fun hw => pred_ne _ (and_left hw)) ?_
  show pickFspec r = .ok (.flog2 p t d a)
  dsimp only [r] at h0 ⊢
  delta pickFspec
  simp only [or_some, ofByte_toByte, predOf, Raw.p, h0, of_TypeCode, bind, Except.bind]
theorem fsin (p : Pred) (t : TypeCode) (d : Opnd) (a : Opnd) : Statement (.fsin p t d a) := by
  have := lt_TypeCode t
  let r : Raw := ⟨.L, 9, 6, p.toNat, d.toByte, a.toByte, 0, 0, t.toCode * 16, 0⟩
  have h0 : Raw.bits r 4 5 = t.toCode := by dsimp only [r, Raw.bits]; omega
  refine said (r := r) rfl (fits_l (by decide) (by decide) (pred_lt p) (toByte_lt d) (toByte_lt a) (by decide) (by decide) (by omega)) rfl rfl
    (show ¬ 8 ≤ 6 by decide) (fun hw => pred_ne _ (and_left hw)) ?_
  show pickFspec r = .ok (.fsin p t d a)
  dsimp only [r] at h0 ⊢
  delta pickFspec
  simp only [or_some, ofByte_toByte, predOf, Raw.p, h0, of_TypeCode, bind, Except.bind]
theorem fcos (p : Pred) (t : TypeCode) (d : Opnd) (a : Opnd) : Statement (.fcos p t d a) := by
  have := lt_TypeCode t
  let r : Raw := ⟨.L, 9, 7, p.toNat, d.toByte, a.toByte, 0, 0, t.toCode * 16, 0⟩
  have h0 : Raw.bits r 4 5 = t.toCode := by dsimp only [r, Raw.bits]; omega
  refine said (r := r) rfl (fits_l (by decide) (by decide) (pred_lt p) (toByte_lt d) (toByte_lt a) (by decide) (by decide) (by omega)) rfl rfl
    (show ¬ 8 ≤ 7 by decide) (fun hw => pred_ne _ (and_left hw)) ?_
  show pickFspec r = .ok (.fcos p t d a)
  dsimp only [r] at h0 ⊢
  delta pickFspec
  simp only [or_some, ofByte_toByte, predOf, Raw.p, h0, of_TypeCode, bind, Except.bind]
theorem cvt (p : Pred) (src : SrcCode) (t : TypeCode) (rnd : Rnd) (d : Opnd) (a : Opnd) : Statement (.cvt p src t rnd d a) := by
  have := lt_SrcCode src; have := lt_TypeCode t; have := lt_Rnd rnd; have : src.toCode < 2 ^ 4 := (by cases src <;> decide); have : rnd.toCode < 2 ^ 3 := (by cases rnd <;> decide)
  let r : Raw := ⟨.L, 10, 0, p.toNat, d.toByte, a.toByte, 0, 0, src.toCode + t.toCode * 16 + rnd.toCode * 512, 0⟩
  have h0 : Raw.bits r 0 4 = src.toCode := by dsimp only [r, Raw.bits]; omega
  have h1 : Raw.bits r 4 5 = t.toCode := by dsimp only [r, Raw.bits]; omega
  have h2 : Raw.bits r 9 3 = rnd.toCode := by dsimp only [r, Raw.bits]; omega
  refine said (r := r) rfl (fits_l (by decide) (by decide) (pred_lt p) (toByte_lt d) (toByte_lt a) (by decide) (by decide) (by omega)) rfl rfl
    (show ¬ 4 ≤ 0 by decide) (fun hw => pred_ne _ (and_left hw)) ?_
  show pickFconv r = .ok (.cvt p src t rnd d a)
  dsimp only [r] at h0 h1 h2 ⊢
  delta pickFconv
  simp only [or_some, ofByte_toByte, predOf, Raw.p, h0, of_SrcCode, h1, of_TypeCode, h2, of_Rnd, bind, Except.bind]
theorem cvtp (p : Pred) (src : SrcCode) (t : TypeCode) (rnd : Rnd) (d : Opnd) (a : Opnd) (b : Opnd) (slot : Fin 8) : Statement (.cvtp p src t rnd d a b slot) := by
  have := lt_SrcCode src; have := lt_TypeCode t; have := lt_Rnd rnd; have := slot.isLt; have : src.toCode < 2 ^ 4 := (by cases src <;> decide); have : rnd.toCode < 2 ^ 3 := (by cases rnd <;> decide)
  let r : Raw := ⟨.L, 10, 1, p.toNat, d.toByte, a.toByte, b.toByte, slot.val, src.toCode + t.toCode * 16 + rnd.toCode * 512, 0⟩
  have h0 : Raw.bits r 0 4 = src.toCode := by dsimp only [r, Raw.bits]; omega
  have h1 : Raw.bits r 4 5 = t.toCode := by dsimp only [r, Raw.bits]; omega
  have h2 : Raw.bits r 9 3 = rnd.toCode := by dsimp only [r, Raw.bits]; omega
  refine said (r := r) rfl (fits_l (by decide) (by decide) (pred_lt p) (toByte_lt d) (toByte_lt a) (toByte_lt b) (by omega) (by omega)) rfl rfl
    (show ¬ 4 ≤ 1 by decide) (fun hw => pred_ne _ (and_left hw)) ?_
  show pickFconv r = .ok (.cvtp p src t rnd d a b slot)
  dsimp only [r] at h0 h1 h2 ⊢
  delta pickFconv
  simp only [or_some, ofByte_toByte, predOf, Raw.p, h0, of_SrcCode, h1, of_TypeCode, h2, of_Rnd, fin_self, bind, Except.bind]
theorem tagget (p : Pred) (d : Opnd) (a : Opnd) : Statement (.tagget p d a) := by
  let r : Raw := ⟨.L, 10, 2, p.toNat, d.toByte, a.toByte, 0, 0, 0, 0⟩
  refine said (r := r) rfl (fits_l (by decide) (by decide) (pred_lt p) (toByte_lt d) (toByte_lt a) (by decide) (by decide) (by decide)) rfl rfl
    (show ¬ 4 ≤ 2 by decide) (fun hw => pred_ne _ (and_left hw)) ?_
  show pickFconv r = .ok (.tagget p d a)
  dsimp only [r]
  delta pickFconv
  simp only [ofByte_toByte, predOf, Raw.p]
theorem tagset (p : Pred) (d : Opnd) (a : Opnd) : Statement (.tagset p d a) := by
  let r : Raw := ⟨.L, 10, 3, p.toNat, d.toByte, a.toByte, 0, 0, 0, 0⟩
  refine said (r := r) rfl (fits_l (by decide) (by decide) (pred_lt p) (toByte_lt d) (toByte_lt a) (by decide) (by decide) (by decide)) rfl rfl
    (show ¬ 4 ≤ 3 by decide) (fun hw => pred_ne _ (and_left hw)) ?_
  show pickFconv r = .ok (.tagset p d a)
  dsimp only [r]
  delta pickFconv
  simp only [ofByte_toByte, predOf, Raw.p]
theorem hadd2L (p : Pred) (t : TypeCode) (rnd : Rnd) (d : Opnd) (a : Opnd) (b : Opnd) : Statement (.hadd2L p t rnd d a b) := by
  have := lt_TypeCode t; have := lt_Rnd rnd; have : rnd.toCode < 2 ^ 3 := (by cases rnd <;> decide)
  let r : Raw := ⟨.L, 11, 0, p.toNat, d.toByte, a.toByte, b.toByte, 0, t.toCode * 16 + rnd.toCode, 0⟩
  have h0 : Raw.bits r 4 5 = t.toCode := by dsimp only [r, Raw.bits]; omega
  have h1 : Raw.bits r 0 3 = rnd.toCode := by dsimp only [r, Raw.bits]; omega
  refine said (r := r) rfl (fits_l (by decide) (by decide) (pred_lt p) (toByte_lt d) (toByte_lt a) (toByte_lt b) (by decide) (by omega)) rfl rfl
    (show ¬ 5 ≤ 0 by decide) (fun hw => pred_ne _ (and_left hw)) ?_
  show pickFpacked r = .ok (.hadd2L p t rnd d a b)
  dsimp only [r] at h0 h1 ⊢
  delta pickFpacked
  simp only [or_some, ofByte_toByte, predOf, Raw.p, h0, of_TypeCode, h1, of_Rnd, bind, Except.bind]
theorem hadd2X (p : Pred) (t : TypeCode) (rnd : Rnd) (d : Opnd) (a : Opnd) (b : Opnd) (imm : Word) : Statement (.hadd2X p t rnd d a b imm) := by
  have := lt_TypeCode t; have := lt_Rnd rnd; have : rnd.toCode < 2 ^ 3 := (by cases rnd <;> decide)
  let r : Raw := ⟨.X, 11, 0, p.toNat, d.toByte, a.toByte, b.toByte, 0, t.toCode * 16 + rnd.toCode, imm⟩
  have h0 : Raw.bits r 4 5 = t.toCode := by dsimp only [r, Raw.bits]; omega
  have h1 : Raw.bits r 0 3 = rnd.toCode := by dsimp only [r, Raw.bits]; omega
  refine said (r := r) rfl (fits_x (by decide) (by decide) (pred_lt p) (toByte_lt d) (toByte_lt a) (toByte_lt b) (by decide) (by omega)) rfl rfl
    (show ¬ 5 ≤ 0 by decide) (fun hw => pred_ne _ (and_left hw)) ?_
  show pickFpacked r = .ok (.hadd2X p t rnd d a b imm)
  dsimp only [r] at h0 h1 ⊢
  delta pickFpacked
  simp only [or_some, ofByte_toByte, predOf, Raw.p, h0, of_TypeCode, h1, of_Rnd, bind, Except.bind]
theorem hmul2L (p : Pred) (t : TypeCode) (rnd : Rnd) (d : Opnd) (a : Opnd) (b : Opnd) : Statement (.hmul2L p t rnd d a b) := by
  have := lt_TypeCode t; have := lt_Rnd rnd; have : rnd.toCode < 2 ^ 3 := (by cases rnd <;> decide)
  let r : Raw := ⟨.L, 11, 1, p.toNat, d.toByte, a.toByte, b.toByte, 0, t.toCode * 16 + rnd.toCode, 0⟩
  have h0 : Raw.bits r 4 5 = t.toCode := by dsimp only [r, Raw.bits]; omega
  have h1 : Raw.bits r 0 3 = rnd.toCode := by dsimp only [r, Raw.bits]; omega
  refine said (r := r) rfl (fits_l (by decide) (by decide) (pred_lt p) (toByte_lt d) (toByte_lt a) (toByte_lt b) (by decide) (by omega)) rfl rfl
    (show ¬ 5 ≤ 1 by decide) (fun hw => pred_ne _ (and_left hw)) ?_
  show pickFpacked r = .ok (.hmul2L p t rnd d a b)
  dsimp only [r] at h0 h1 ⊢
  delta pickFpacked
  simp only [or_some, ofByte_toByte, predOf, Raw.p, h0, of_TypeCode, h1, of_Rnd, bind, Except.bind]
theorem hmul2X (p : Pred) (t : TypeCode) (rnd : Rnd) (d : Opnd) (a : Opnd) (b : Opnd) (imm : Word) : Statement (.hmul2X p t rnd d a b imm) := by
  have := lt_TypeCode t; have := lt_Rnd rnd; have : rnd.toCode < 2 ^ 3 := (by cases rnd <;> decide)
  let r : Raw := ⟨.X, 11, 1, p.toNat, d.toByte, a.toByte, b.toByte, 0, t.toCode * 16 + rnd.toCode, imm⟩
  have h0 : Raw.bits r 4 5 = t.toCode := by dsimp only [r, Raw.bits]; omega
  have h1 : Raw.bits r 0 3 = rnd.toCode := by dsimp only [r, Raw.bits]; omega
  refine said (r := r) rfl (fits_x (by decide) (by decide) (pred_lt p) (toByte_lt d) (toByte_lt a) (toByte_lt b) (by decide) (by omega)) rfl rfl
    (show ¬ 5 ≤ 1 by decide) (fun hw => pred_ne _ (and_left hw)) ?_
  show pickFpacked r = .ok (.hmul2X p t rnd d a b imm)
  dsimp only [r] at h0 h1 ⊢
  delta pickFpacked
  simp only [or_some, ofByte_toByte, predOf, Raw.p, h0, of_TypeCode, h1, of_Rnd, bind, Except.bind]
theorem hfma2L (p : Pred) (t : TypeCode) (rnd : Rnd) (d : Opnd) (a : Opnd) (b : Opnd) (c : Opnd) : Statement (.hfma2L p t rnd d a b c) := by
  have := lt_TypeCode t; have := lt_Rnd rnd; have : rnd.toCode < 2 ^ 3 := (by cases rnd <;> decide)
  let r : Raw := ⟨.L, 11, 2, p.toNat, d.toByte, a.toByte, b.toByte, c.toByte, t.toCode * 16 + rnd.toCode, 0⟩
  have h0 : Raw.bits r 4 5 = t.toCode := by dsimp only [r, Raw.bits]; omega
  have h1 : Raw.bits r 0 3 = rnd.toCode := by dsimp only [r, Raw.bits]; omega
  refine said (r := r) rfl (fits_l (by decide) (by decide) (pred_lt p) (toByte_lt d) (toByte_lt a) (toByte_lt b) (toByte_lt c) (by omega)) rfl rfl
    (show ¬ 5 ≤ 2 by decide) (fun hw => pred_ne _ (and_left hw)) ?_
  show pickFpacked r = .ok (.hfma2L p t rnd d a b c)
  dsimp only [r] at h0 h1 ⊢
  delta pickFpacked
  simp only [or_some, ofByte_toByte, predOf, Raw.p, h0, of_TypeCode, h1, of_Rnd, bind, Except.bind]
theorem hfma2X (p : Pred) (t : TypeCode) (rnd : Rnd) (d : Opnd) (a : Opnd) (b : Opnd) (c : Opnd) (imm : Word) : Statement (.hfma2X p t rnd d a b c imm) := by
  have := lt_TypeCode t; have := lt_Rnd rnd; have : rnd.toCode < 2 ^ 3 := (by cases rnd <;> decide)
  let r : Raw := ⟨.X, 11, 2, p.toNat, d.toByte, a.toByte, b.toByte, c.toByte, t.toCode * 16 + rnd.toCode, imm⟩
  have h0 : Raw.bits r 4 5 = t.toCode := by dsimp only [r, Raw.bits]; omega
  have h1 : Raw.bits r 0 3 = rnd.toCode := by dsimp only [r, Raw.bits]; omega
  refine said (r := r) rfl (fits_x (by decide) (by decide) (pred_lt p) (toByte_lt d) (toByte_lt a) (toByte_lt b) (toByte_lt c) (by omega)) rfl rfl
    (show ¬ 5 ≤ 2 by decide) (fun hw => pred_ne _ (and_left hw)) ?_
  show pickFpacked r = .ok (.hfma2X p t rnd d a b c imm)
  dsimp only [r] at h0 h1 ⊢
  delta pickFpacked
  simp only [or_some, ofByte_toByte, predOf, Raw.p, h0, of_TypeCode, h1, of_Rnd, bind, Except.bind]
theorem dot4L (p : Pred) (t : TypeCode) (rnd : Rnd) (d : Opnd) (a : Opnd) (b : Opnd) (c : Opnd) : Statement (.dot4L p t rnd d a b c) := by
  have := lt_TypeCode t; have := lt_Rnd rnd; have : rnd.toCode < 2 ^ 3 := (by cases rnd <;> decide)
  let r : Raw := ⟨.L, 11, 3, p.toNat, d.toByte, a.toByte, b.toByte, c.toByte, t.toCode * 16 + rnd.toCode, 0⟩
  have h0 : Raw.bits r 4 5 = t.toCode := by dsimp only [r, Raw.bits]; omega
  have h1 : Raw.bits r 0 3 = rnd.toCode := by dsimp only [r, Raw.bits]; omega
  refine said (r := r) rfl (fits_l (by decide) (by decide) (pred_lt p) (toByte_lt d) (toByte_lt a) (toByte_lt b) (toByte_lt c) (by omega)) rfl rfl
    (show ¬ 5 ≤ 3 by decide) (fun hw => pred_ne _ (and_left hw)) ?_
  show pickFpacked r = .ok (.dot4L p t rnd d a b c)
  dsimp only [r] at h0 h1 ⊢
  delta pickFpacked
  simp only [or_some, ofByte_toByte, predOf, Raw.p, h0, of_TypeCode, h1, of_Rnd, bind, Except.bind]
theorem dot4X (p : Pred) (t : TypeCode) (rnd : Rnd) (d : Opnd) (a : Opnd) (b : Opnd) (c : Opnd) (imm : Word) : Statement (.dot4X p t rnd d a b c imm) := by
  have := lt_TypeCode t; have := lt_Rnd rnd; have : rnd.toCode < 2 ^ 3 := (by cases rnd <;> decide)
  let r : Raw := ⟨.X, 11, 3, p.toNat, d.toByte, a.toByte, b.toByte, c.toByte, t.toCode * 16 + rnd.toCode, imm⟩
  have h0 : Raw.bits r 4 5 = t.toCode := by dsimp only [r, Raw.bits]; omega
  have h1 : Raw.bits r 0 3 = rnd.toCode := by dsimp only [r, Raw.bits]; omega
  refine said (r := r) rfl (fits_x (by decide) (by decide) (pred_lt p) (toByte_lt d) (toByte_lt a) (toByte_lt b) (toByte_lt c) (by omega)) rfl rfl
    (show ¬ 5 ≤ 3 by decide) (fun hw => pred_ne _ (and_left hw)) ?_
  show pickFpacked r = .ok (.dot4X p t rnd d a b c imm)
  dsimp only [r] at h0 h1 ⊢
  delta pickFpacked
  simp only [or_some, ofByte_toByte, predOf, Raw.p, h0, of_TypeCode, h1, of_Rnd, bind, Except.bind]
theorem dot8L (p : Pred) (t : TypeCode) (rnd : Rnd) (d : Opnd) (a : Opnd) (b : Opnd) (c : Opnd) : Statement (.dot8L p t rnd d a b c) := by
  have := lt_TypeCode t; have := lt_Rnd rnd; have : rnd.toCode < 2 ^ 3 := (by cases rnd <;> decide)
  let r : Raw := ⟨.L, 11, 4, p.toNat, d.toByte, a.toByte, b.toByte, c.toByte, t.toCode * 16 + rnd.toCode, 0⟩
  have h0 : Raw.bits r 4 5 = t.toCode := by dsimp only [r, Raw.bits]; omega
  have h1 : Raw.bits r 0 3 = rnd.toCode := by dsimp only [r, Raw.bits]; omega
  refine said (r := r) rfl (fits_l (by decide) (by decide) (pred_lt p) (toByte_lt d) (toByte_lt a) (toByte_lt b) (toByte_lt c) (by omega)) rfl rfl
    (show ¬ 5 ≤ 4 by decide) (fun hw => pred_ne _ (and_left hw)) ?_
  show pickFpacked r = .ok (.dot8L p t rnd d a b c)
  dsimp only [r] at h0 h1 ⊢
  delta pickFpacked
  simp only [or_some, ofByte_toByte, predOf, Raw.p, h0, of_TypeCode, h1, of_Rnd, bind, Except.bind]
theorem dot8X (p : Pred) (t : TypeCode) (rnd : Rnd) (d : Opnd) (a : Opnd) (b : Opnd) (c : Opnd) (imm : Word) : Statement (.dot8X p t rnd d a b c imm) := by
  have := lt_TypeCode t; have := lt_Rnd rnd; have : rnd.toCode < 2 ^ 3 := (by cases rnd <;> decide)
  let r : Raw := ⟨.X, 11, 4, p.toNat, d.toByte, a.toByte, b.toByte, c.toByte, t.toCode * 16 + rnd.toCode, imm⟩
  have h0 : Raw.bits r 4 5 = t.toCode := by dsimp only [r, Raw.bits]; omega
  have h1 : Raw.bits r 0 3 = rnd.toCode := by dsimp only [r, Raw.bits]; omega
  refine said (r := r) rfl (fits_x (by decide) (by decide) (pred_lt p) (toByte_lt d) (toByte_lt a) (toByte_lt b) (toByte_lt c) (by omega)) rfl rfl
    (show ¬ 5 ≤ 4 by decide) (fun hw => pred_ne _ (and_left hw)) ?_
  show pickFpacked r = .ok (.dot8X p t rnd d a b c imm)
  dsimp only [r] at h0 h1 ⊢
  delta pickFpacked
  simp only [or_some, ofByte_toByte, predOf, Raw.p, h0, of_TypeCode, h1, of_Rnd, bind, Except.bind]
theorem qswap (p : Pred) (t : TypeCode) (pat : Fin 4) (d : Opnd) (a : Opnd) : Statement (.qswap p t pat d a) := by
  have := lt_TypeCode t; have := pat.isLt
  let r : Raw := ⟨.L, 12, 0, p.toNat, d.toByte, a.toByte, 0, 0, t.toCode * 16 + pat.val, 0⟩
  have h0 : Raw.bits r 4 5 = t.toCode := by dsimp only [r, Raw.bits]; omega
  have h1 : Raw.bits r 0 2 = pat.val := by dsimp only [r, Raw.bits]; omega
  refine said (r := r) rfl (fits_l (by decide) (by decide) (pred_lt p) (toByte_lt d) (toByte_lt a) (by decide) (by decide) (by omega)) rfl rfl
    (show ¬ 4 ≤ 0 by decide) (fun hw => pred_ne _ (and_left hw)) ?_
  show pickQexch r = .ok (.qswap p t pat d a)
  dsimp only [r] at h0 h1 ⊢
  delta pickQexch
  simp only [or_some, ofByte_toByte, predOf, Raw.p, h0, of_TypeCode, h1, fin_self, bind, Except.bind]
theorem qbcast (p : Pred) (t : TypeCode) (j : Fin 4) (d : Opnd) (a : Opnd) : Statement (.qbcast p t j d a) := by
  have := lt_TypeCode t; have := j.isLt
  let r : Raw := ⟨.L, 12, 1, p.toNat, d.toByte, a.toByte, 0, 0, t.toCode * 16 + j.val, 0⟩
  have h0 : Raw.bits r 4 5 = t.toCode := by dsimp only [r, Raw.bits]; omega
  have h1 : Raw.bits r 0 2 = j.val := by dsimp only [r, Raw.bits]; omega
  refine said (r := r) rfl (fits_l (by decide) (by decide) (pred_lt p) (toByte_lt d) (toByte_lt a) (by decide) (by decide) (by omega)) rfl rfl
    (show ¬ 4 ≤ 1 by decide) (fun hw => pred_ne _ (and_left hw)) ?_
  show pickQexch r = .ok (.qbcast p t j d a)
  dsimp only [r] at h0 h1 ⊢
  delta pickQexch
  simp only [or_some, ofByte_toByte, predOf, Raw.p, h0, of_TypeCode, h1, fin_self, bind, Except.bind]
theorem qshuf (p : Pred) (t : TypeCode) (d : Opnd) (a : Opnd) (b : Opnd) : Statement (.qshuf p t d a b) := by
  have := lt_TypeCode t
  let r : Raw := ⟨.L, 12, 2, p.toNat, d.toByte, a.toByte, b.toByte, 0, t.toCode * 16, 0⟩
  have h0 : Raw.bits r 4 5 = t.toCode := by dsimp only [r, Raw.bits]; omega
  refine said (r := r) rfl (fits_l (by decide) (by decide) (pred_lt p) (toByte_lt d) (toByte_lt a) (toByte_lt b) (by decide) (by omega)) rfl rfl
    (show ¬ 4 ≤ 2 by decide) (fun hw => pred_ne _ (and_left hw)) ?_
  show pickQexch r = .ok (.qshuf p t d a b)
  dsimp only [r] at h0 ⊢
  delta pickQexch
  simp only [or_some, ofByte_toByte, predOf, Raw.p, h0, of_TypeCode, bind, Except.bind]
theorem qred (p : Pred) (t : TypeCode) (op : RedOp) (d : Opnd) (a : Opnd) : Statement (.qred p t op d a) := by
  have := lt_TypeCode t; have := lt_RedOp op; have : op.toCode < 2 ^ 4 := (by cases op <;> decide)
  let r : Raw := ⟨.L, 12, 3, p.toNat, d.toByte, a.toByte, 0, 0, t.toCode * 16 + op.toCode, 0⟩
  have h0 : Raw.bits r 4 5 = t.toCode := by dsimp only [r, Raw.bits]; omega
  have h1 : Raw.bits r 0 4 = op.toCode := by dsimp only [r, Raw.bits]; omega
  refine said (r := r) rfl (fits_l (by decide) (by decide) (pred_lt p) (toByte_lt d) (toByte_lt a) (by decide) (by decide) (by omega)) rfl rfl
    (show ¬ 4 ≤ 3 by decide) (fun hw => pred_ne _ (and_left hw)) ?_
  show pickQexch r = .ok (.qred p t op d a)
  dsimp only [r] at h0 h1 ⊢
  delta pickQexch
  simp only [or_some, ofByte_toByte, predOf, Raw.p, h0, of_TypeCode, h1, of_RedOp, bind, Except.bind]
theorem shfl (p : Pred) (t : TypeCode) (mode : ShflMode) (d : Opnd) (a : Opnd) (b : Opnd) : Statement (.shfl p t mode d a b) := by
  have := lt_TypeCode t; have := lt_ShflMode mode; have : mode.toCode < 2 ^ 2 := (by cases mode <;> decide)
  let r : Raw := ⟨.L, 13, 0, p.toNat, d.toByte, a.toByte, b.toByte, 0, t.toCode * 16 + mode.toCode, 0⟩
  have h0 : Raw.bits r 4 5 = t.toCode := by dsimp only [r, Raw.bits]; omega
  have h1 : Raw.bits r 0 2 = mode.toCode := by dsimp only [r, Raw.bits]; omega
  refine said (r := r) rfl (fits_l (by decide) (by decide) (pred_lt p) (toByte_lt d) (toByte_lt a) (toByte_lt b) (by decide) (by omega)) rfl rfl
    (show ¬ 5 ≤ 0 by decide) (fun hw => pred_ne _ (and_left hw)) ?_
  show pickGexch r = .ok (.shfl p t mode d a b)
  dsimp only [r] at h0 h1 ⊢
  delta pickGexch
  simp only [or_some, ofByte_toByte, predOf, Raw.p, h0, of_TypeCode, h1, of_ShflMode, bind, Except.bind]
theorem vote (p : Pred) (mode : VoteMode) (d : Opnd) (a : Opnd) : Statement (.vote p mode d a) := by
  have := lt_VoteMode mode; have : mode.toCode < 2 ^ 2 := (by cases mode <;> decide)
  let r : Raw := ⟨.L, 13, 1, p.toNat, d.toByte, a.toByte, 0, 0, mode.toCode, 0⟩
  have h0 : Raw.bits r 0 2 = mode.toCode := by dsimp only [r, Raw.bits]; omega
  refine said (r := r) rfl (fits_l (by decide) (by decide) (pred_lt p) (toByte_lt d) (toByte_lt a) (by decide) (by decide) (by omega)) rfl rfl
    (show ¬ 5 ≤ 1 by decide) (fun hw => pred_ne _ (and_left hw)) ?_
  show pickGexch r = .ok (.vote p mode d a)
  dsimp only [r] at h0 ⊢
  delta pickGexch
  simp only [or_some, ofByte_toByte, predOf, Raw.p, h0, of_VoteMode, bind, Except.bind]
theorem scanPrefix (p : Pred) (t : TypeCode) (op : RedOp) (ex : Bool) (d : Opnd) (a : Opnd) : Statement (.scanPrefix p t op ex d a) := by
  have := lt_TypeCode t; have := lt_RedOp op; have := lt_Bool ex; have : op.toCode < 2 ^ 4 := (by cases op <;> decide)
  let r : Raw := ⟨.L, 13, 2, p.toNat, d.toByte, a.toByte, 0, 0, t.toCode * 16 + op.toCode + ex.toNat * 512, 0⟩
  have h0 : Raw.bits r 4 5 = t.toCode := by dsimp only [r, Raw.bits]; omega
  have h1 : Raw.bits r 0 4 = op.toCode := by dsimp only [r, Raw.bits]; omega
  have h2 : Raw.bit r 9 = ex := by exact of_Bool _ _ (by dsimp only [r]; omega)
  refine said (r := r) rfl (fits_l (by decide) (by decide) (pred_lt p) (toByte_lt d) (toByte_lt a) (by decide) (by decide) (by omega)) rfl rfl
    (show ¬ 5 ≤ 2 by decide) (fun hw => pred_ne _ (and_left hw)) ?_
  show pickGexch r = .ok (.scanPrefix p t op ex d a)
  dsimp only [r] at h0 h1 h2 ⊢
  delta pickGexch
  simp only [or_some, ofByte_toByte, predOf, Raw.p, h0, of_TypeCode, h1, of_RedOp, h2, bind, Except.bind]
theorem gred (p : Pred) (t : TypeCode) (op : RedOp) (d : Opnd) (a : Opnd) : Statement (.gred p t op d a) := by
  have := lt_TypeCode t; have := lt_RedOp op; have : op.toCode < 2 ^ 4 := (by cases op <;> decide)
  let r : Raw := ⟨.L, 13, 3, p.toNat, d.toByte, a.toByte, 0, 0, t.toCode * 16 + op.toCode, 0⟩
  have h0 : Raw.bits r 4 5 = t.toCode := by dsimp only [r, Raw.bits]; omega
  have h1 : Raw.bits r 0 4 = op.toCode := by dsimp only [r, Raw.bits]; omega
  refine said (r := r) rfl (fits_l (by decide) (by decide) (pred_lt p) (toByte_lt d) (toByte_lt a) (by decide) (by decide) (by omega)) rfl rfl
    (show ¬ 5 ≤ 3 by decide) (fun hw => pred_ne _ (and_left hw)) ?_
  show pickGexch r = .ok (.gred p t op d a)
  dsimp only [r] at h0 h1 ⊢
  delta pickGexch
  simp only [or_some, ofByte_toByte, predOf, Raw.p, h0, of_TypeCode, h1, of_RedOp, bind, Except.bind]
theorem xpose (p : Pred) (t : TypeCode) (d : Opnd) (a : Opnd) : Statement (.xpose p t d a) := by
  have := lt_TypeCode t
  let r : Raw := ⟨.L, 13, 4, p.toNat, d.toByte, a.toByte, 0, 0, t.toCode * 16, 0⟩
  have h0 : Raw.bits r 4 5 = t.toCode := by dsimp only [r, Raw.bits]; omega
  refine said (r := r) rfl (fits_l (by decide) (by decide) (pred_lt p) (toByte_lt d) (toByte_lt a) (by decide) (by decide) (by omega)) rfl rfl
    (show ¬ 5 ≤ 4 by decide) (fun hw => pred_ne _ (and_left hw)) ?_
  show pickGexch r = .ok (.xpose p t d a)
  dsimp only [r] at h0 ⊢
  delta pickGexch
  simp only [or_some, ofByte_toByte, predOf, Raw.p, h0, of_TypeCode, bind, Except.bind]
theorem ldL (p : Pred) (t : TypeCode) (sx : Bool) (d : Opnd) (a : Opnd) : Statement (.ldL p t sx d a) := by
  have := lt_TypeCode t; have := lt_Bool sx
  let r : Raw := ⟨.L, 16, 0, p.toNat, d.toByte, a.toByte, 0, 0, t.toCode * 16 + sx.toNat, 0⟩
  have h0 : Raw.bits r 4 5 = t.toCode := by dsimp only [r, Raw.bits]; omega
  have h1 : Raw.bit r 0 = sx := by exact of_Bool _ _ (by dsimp only [r]; omega)
  refine said (r := r) rfl (fits_l (by decide) (by decide) (pred_lt p) (toByte_lt d) (toByte_lt a) (by decide) (by decide) (by omega)) rfl rfl
    (show ¬ 4 ≤ 0 by decide) (fun hw => pred_ne _ (and_left hw)) ?_
  show pickLoad r = .ok (.ldL p t sx d a)
  dsimp only [r] at h0 h1 ⊢
  delta pickLoad
  simp only [or_some, ofByte_toByte, predOf, Raw.p, h0, of_TypeCode, h1, bind, Except.bind]
theorem ldX (p : Pred) (t : TypeCode) (sx : Bool) (d : Opnd) (a : Opnd) (imm : Word) : Statement (.ldX p t sx d a imm) := by
  have := lt_TypeCode t; have := lt_Bool sx
  let r : Raw := ⟨.X, 16, 0, p.toNat, d.toByte, a.toByte, 0, 0, t.toCode * 16 + sx.toNat, imm⟩
  have h0 : Raw.bits r 4 5 = t.toCode := by dsimp only [r, Raw.bits]; omega
  have h1 : Raw.bit r 0 = sx := by exact of_Bool _ _ (by dsimp only [r]; omega)
  refine said (r := r) rfl (fits_x (by decide) (by decide) (pred_lt p) (toByte_lt d) (toByte_lt a) (by decide) (by decide) (by omega)) rfl rfl
    (show ¬ 4 ≤ 0 by decide) (fun hw => pred_ne _ (and_left hw)) ?_
  show pickLoad r = .ok (.ldX p t sx d a imm)
  dsimp only [r] at h0 h1 ⊢
  delta pickLoad
  simp only [or_some, ofByte_toByte, predOf, Raw.p, h0, of_TypeCode, h1, bind, Except.bind]
theorem lddL (p : Pred) (rows : Fin 8) (d : Opnd) (a : Opnd) : Statement (.lddL p rows d a) := by
  have := rows.isLt
  let r : Raw := ⟨.L, 16, 1, p.toNat, d.toByte, a.toByte, 0, 0, rows.val, 0⟩
  have h0 : Raw.bits r 0 3 = rows.val := by dsimp only [r, Raw.bits]; omega
  refine said (r := r) rfl (fits_l (by decide) (by decide) (pred_lt p) (toByte_lt d) (toByte_lt a) (by decide) (by decide) (by omega)) rfl rfl
    (show ¬ 4 ≤ 1 by decide) (fun hw => pred_ne _ (and_left hw)) ?_
  show pickLoad r = .ok (.lddL p rows d a)
  dsimp only [r] at h0 ⊢
  delta pickLoad
  simp only [ofByte_toByte, predOf, Raw.p, h0, fin_self, bind, Except.bind]
theorem lddX (p : Pred) (rows : Fin 8) (d : Opnd) (a : Opnd) (imm : Word) : Statement (.lddX p rows d a imm) := by
  have := rows.isLt
  let r : Raw := ⟨.X, 16, 1, p.toNat, d.toByte, a.toByte, 0, 0, rows.val, imm⟩
  have h0 : Raw.bits r 0 3 = rows.val := by dsimp only [r, Raw.bits]; omega
  refine said (r := r) rfl (fits_x (by decide) (by decide) (pred_lt p) (toByte_lt d) (toByte_lt a) (by decide) (by decide) (by omega)) rfl rfl
    (show ¬ 4 ≤ 1 by decide) (fun hw => pred_ne _ (and_left hw)) ?_
  show pickLoad r = .ok (.lddX p rows d a imm)
  dsimp only [r] at h0 ⊢
  delta pickLoad
  simp only [ofByte_toByte, predOf, Raw.p, h0, fin_self, bind, Except.bind]
theorem ldwL (p : Pred) (t : TypeCode) (rows : Fin 4) (src : LdwSrc) (d : Opnd) (a : Opnd) : Statement (.ldwL p t rows src d a) := by
  have := lt_TypeCode t; have := rows.isLt; have := lt_LdwSrc src; have : src.toCode < 2 ^ 3 := (by cases src <;> decide)
  let r : Raw := ⟨.L, 16, 2, p.toNat, d.toByte, a.toByte, 0, 0, t.toCode * 16 + rows.val + src.toCode * 512, 0⟩
  have h0 : Raw.bits r 4 5 = t.toCode := by dsimp only [r, Raw.bits]; omega
  have h1 : Raw.bits r 0 2 = rows.val := by dsimp only [r, Raw.bits]; omega
  have h2 : Raw.bits r 9 3 = src.toCode := by dsimp only [r, Raw.bits]; omega
  refine said (r := r) rfl (fits_l (by decide) (by decide) (pred_lt p) (toByte_lt d) (toByte_lt a) (by decide) (by decide) (by omega)) rfl rfl
    (show ¬ 4 ≤ 2 by decide) (fun hw => pred_ne _ (and_left hw)) ?_
  show pickLoad r = .ok (.ldwL p t rows src d a)
  dsimp only [r] at h0 h1 h2 ⊢
  delta pickLoad
  simp only [or_some, ofByte_toByte, predOf, Raw.p, h0, of_TypeCode, h1, fin_self, h2, of_LdwSrc, bind, Except.bind]
theorem ldwX (p : Pred) (t : TypeCode) (rows : Fin 4) (src : LdwSrc) (d : Opnd) (a : Opnd) (imm : Word) : Statement (.ldwX p t rows src d a imm) := by
  have := lt_TypeCode t; have := rows.isLt; have := lt_LdwSrc src; have : src.toCode < 2 ^ 3 := (by cases src <;> decide)
  let r : Raw := ⟨.X, 16, 2, p.toNat, d.toByte, a.toByte, 0, 0, t.toCode * 16 + rows.val + src.toCode * 512, imm⟩
  have h0 : Raw.bits r 4 5 = t.toCode := by dsimp only [r, Raw.bits]; omega
  have h1 : Raw.bits r 0 2 = rows.val := by dsimp only [r, Raw.bits]; omega
  have h2 : Raw.bits r 9 3 = src.toCode := by dsimp only [r, Raw.bits]; omega
  refine said (r := r) rfl (fits_x (by decide) (by decide) (pred_lt p) (toByte_lt d) (toByte_lt a) (by decide) (by decide) (by omega)) rfl rfl
    (show ¬ 4 ≤ 2 by decide) (fun hw => pred_ne _ (and_left hw)) ?_
  show pickLoad r = .ok (.ldwX p t rows src d a imm)
  dsimp only [r] at h0 h1 h2 ⊢
  delta pickLoad
  simp only [or_some, ofByte_toByte, predOf, Raw.p, h0, of_TypeCode, h1, fin_self, h2, of_LdwSrc, bind, Except.bind]
theorem prefL (p : Pred) (slice : Bool) (a : Opnd) : Statement (.prefL p slice a) := by
  have := lt_Bool slice
  let r : Raw := ⟨.L, 16, 3, p.toNat, 0, a.toByte, 0, 0, slice.toNat, 0⟩
  have h0 : Raw.bit r 0 = slice := by exact of_Bool _ _ (by dsimp only [r]; omega)
  refine said (r := r) rfl (fits_l (by decide) (by decide) (pred_lt p) (by decide) (toByte_lt a) (by decide) (by decide) (by omega)) rfl rfl
    (show ¬ 4 ≤ 3 by decide) (fun hw => pred_ne _ (and_left hw)) ?_
  show pickLoad r = .ok (.prefL p slice a)
  dsimp only [r] at h0 ⊢
  delta pickLoad
  simp only [ofByte_toByte, predOf, Raw.p, h0]
theorem prefX (p : Pred) (slice : Bool) (a : Opnd) (imm : Word) : Statement (.prefX p slice a imm) := by
  have := lt_Bool slice
  let r : Raw := ⟨.X, 16, 3, p.toNat, 0, a.toByte, 0, 0, slice.toNat, imm⟩
  have h0 : Raw.bit r 0 = slice := by exact of_Bool _ _ (by dsimp only [r]; omega)
  refine said (r := r) rfl (fits_x (by decide) (by decide) (pred_lt p) (by decide) (toByte_lt a) (by decide) (by decide) (by omega)) rfl rfl
    (show ¬ 4 ≤ 3 by decide) (fun hw => pred_ne _ (and_left hw)) ?_
  show pickLoad r = .ok (.prefX p slice a imm)
  dsimp only [r] at h0 ⊢
  delta pickLoad
  simp only [ofByte_toByte, predOf, Raw.p, h0]
theorem stL (p : Pred) (t : TypeCode) (a : Opnd) (b : Opnd) : Statement (.stL p t a b) := by
  have := lt_TypeCode t
  let r : Raw := ⟨.L, 17, 0, p.toNat, 0, a.toByte, b.toByte, 0, t.toCode * 16, 0⟩
  have h0 : Raw.bits r 4 5 = t.toCode := by dsimp only [r, Raw.bits]; omega
  refine said (r := r) rfl (fits_l (by decide) (by decide) (pred_lt p) (by decide) (toByte_lt a) (toByte_lt b) (by decide) (by omega)) rfl rfl
    (show ¬ 2 ≤ 0 by decide) (fun hw => pred_ne _ (and_left hw)) ?_
  show pickStore r = .ok (.stL p t a b)
  dsimp only [r] at h0 ⊢
  delta pickStore
  simp only [or_some, ofByte_toByte, predOf, Raw.p, h0, of_TypeCode, bind, Except.bind]
theorem stX (p : Pred) (t : TypeCode) (a : Opnd) (b : Opnd) (imm : Word) : Statement (.stX p t a b imm) := by
  have := lt_TypeCode t
  let r : Raw := ⟨.X, 17, 0, p.toNat, 0, a.toByte, b.toByte, 0, t.toCode * 16, imm⟩
  have h0 : Raw.bits r 4 5 = t.toCode := by dsimp only [r, Raw.bits]; omega
  refine said (r := r) rfl (fits_x (by decide) (by decide) (pred_lt p) (by decide) (toByte_lt a) (toByte_lt b) (by decide) (by omega)) rfl rfl
    (show ¬ 2 ≤ 0 by decide) (fun hw => pred_ne _ (and_left hw)) ?_
  show pickStore r = .ok (.stX p t a b imm)
  dsimp only [r] at h0 ⊢
  delta pickStore
  simp only [or_some, ofByte_toByte, predOf, Raw.p, h0, of_TypeCode, bind, Except.bind]
theorem stdL (p : Pred) (rows : Fin 8) (a : Opnd) (b : Opnd) : Statement (.stdL p rows a b) := by
  have := rows.isLt
  let r : Raw := ⟨.L, 17, 1, p.toNat, 0, a.toByte, b.toByte, 0, rows.val, 0⟩
  have h0 : Raw.bits r 0 3 = rows.val := by dsimp only [r, Raw.bits]; omega
  refine said (r := r) rfl (fits_l (by decide) (by decide) (pred_lt p) (by decide) (toByte_lt a) (toByte_lt b) (by decide) (by omega)) rfl rfl
    (show ¬ 2 ≤ 1 by decide) (fun hw => pred_ne _ (and_left hw)) ?_
  show pickStore r = .ok (.stdL p rows a b)
  dsimp only [r] at h0 ⊢
  delta pickStore
  simp only [ofByte_toByte, predOf, Raw.p, h0, fin_self, bind, Except.bind]
theorem stdX (p : Pred) (rows : Fin 8) (a : Opnd) (b : Opnd) (imm : Word) : Statement (.stdX p rows a b imm) := by
  have := rows.isLt
  let r : Raw := ⟨.X, 17, 1, p.toNat, 0, a.toByte, b.toByte, 0, rows.val, imm⟩
  have h0 : Raw.bits r 0 3 = rows.val := by dsimp only [r, Raw.bits]; omega
  refine said (r := r) rfl (fits_x (by decide) (by decide) (pred_lt p) (by decide) (toByte_lt a) (toByte_lt b) (by decide) (by omega)) rfl rfl
    (show ¬ 2 ≤ 1 by decide) (fun hw => pred_ne _ (and_left hw)) ?_
  show pickStore r = .ok (.stdX p rows a b imm)
  dsimp only [r] at h0 ⊢
  delta pickStore
  simp only [ofByte_toByte, predOf, Raw.p, h0, fin_self, bind, Except.bind]
theorem ldsL (p : Pred) (t : TypeCode) (sx : Bool) (d : Opnd) (a : Opnd) : Statement (.ldsL p t sx d a) := by
  have := lt_TypeCode t; have := lt_Bool sx
  let r : Raw := ⟨.L, 18, 0, p.toNat, d.toByte, a.toByte, 0, 0, t.toCode * 16 + sx.toNat, 0⟩
  have h0 : Raw.bits r 4 5 = t.toCode := by dsimp only [r, Raw.bits]; omega
  have h1 : Raw.bit r 0 = sx := by exact of_Bool _ _ (by dsimp only [r]; omega)
  refine said (r := r) rfl (fits_l (by decide) (by decide) (pred_lt p) (toByte_lt d) (toByte_lt a) (by decide) (by decide) (by omega)) rfl rfl
    (show ¬ 5 ≤ 0 by decide) (fun hw => pred_ne _ (and_left hw)) ?_
  show pickLoc r = .ok (.ldsL p t sx d a)
  dsimp only [r] at h0 h1 ⊢
  delta pickLoc
  simp only [or_some, ofByte_toByte, predOf, Raw.p, h0, of_TypeCode, h1, bind, Except.bind]
theorem ldsX (p : Pred) (t : TypeCode) (sx : Bool) (d : Opnd) (a : Opnd) (imm : Word) : Statement (.ldsX p t sx d a imm) := by
  have := lt_TypeCode t; have := lt_Bool sx
  let r : Raw := ⟨.X, 18, 0, p.toNat, d.toByte, a.toByte, 0, 0, t.toCode * 16 + sx.toNat, imm⟩
  have h0 : Raw.bits r 4 5 = t.toCode := by dsimp only [r, Raw.bits]; omega
  have h1 : Raw.bit r 0 = sx := by exact of_Bool _ _ (by dsimp only [r]; omega)
  refine said (r := r) rfl (fits_x (by decide) (by decide) (pred_lt p) (toByte_lt d) (toByte_lt a) (by decide) (by decide) (by omega)) rfl rfl
    (show ¬ 5 ≤ 0 by decide) (fun hw => pred_ne _ (and_left hw)) ?_
  show pickLoc r = .ok (.ldsX p t sx d a imm)
  dsimp only [r] at h0 h1 ⊢
  delta pickLoc
  simp only [or_some, ofByte_toByte, predOf, Raw.p, h0, of_TypeCode, h1, bind, Except.bind]
theorem ldaL (p : Pred) (t : TypeCode) (sx : Bool) (d : Opnd) (a : Opnd) : Statement (.ldaL p t sx d a) := by
  have := lt_TypeCode t; have := lt_Bool sx
  let r : Raw := ⟨.L, 18, 2, p.toNat, d.toByte, a.toByte, 0, 0, t.toCode * 16 + sx.toNat, 0⟩
  have h0 : Raw.bits r 4 5 = t.toCode := by dsimp only [r, Raw.bits]; omega
  have h1 : Raw.bit r 0 = sx := by exact of_Bool _ _ (by dsimp only [r]; omega)
  refine said (r := r) rfl (fits_l (by decide) (by decide) (pred_lt p) (toByte_lt d) (toByte_lt a) (by decide) (by decide) (by omega)) rfl rfl
    (show ¬ 5 ≤ 2 by decide) (fun hw => pred_ne _ (and_left hw)) ?_
  show pickLoc r = .ok (.ldaL p t sx d a)
  dsimp only [r] at h0 h1 ⊢
  delta pickLoc
  simp only [or_some, ofByte_toByte, predOf, Raw.p, h0, of_TypeCode, h1, bind, Except.bind]
theorem ldaX (p : Pred) (t : TypeCode) (sx : Bool) (d : Opnd) (a : Opnd) (imm : Word) : Statement (.ldaX p t sx d a imm) := by
  have := lt_TypeCode t; have := lt_Bool sx
  let r : Raw := ⟨.X, 18, 2, p.toNat, d.toByte, a.toByte, 0, 0, t.toCode * 16 + sx.toNat, imm⟩
  have h0 : Raw.bits r 4 5 = t.toCode := by dsimp only [r, Raw.bits]; omega
  have h1 : Raw.bit r 0 = sx := by exact of_Bool _ _ (by dsimp only [r]; omega)
  refine said (r := r) rfl (fits_x (by decide) (by decide) (pred_lt p) (toByte_lt d) (toByte_lt a) (by decide) (by decide) (by omega)) rfl rfl
    (show ¬ 5 ≤ 2 by decide) (fun hw => pred_ne _ (and_left hw)) ?_
  show pickLoc r = .ok (.ldaX p t sx d a imm)
  dsimp only [r] at h0 h1 ⊢
  delta pickLoc
  simp only [or_some, ofByte_toByte, predOf, Raw.p, h0, of_TypeCode, h1, bind, Except.bind]
theorem ldwbL (p : Pred) (t : TypeCode) (sx : Bool) (d : Opnd) (a : Opnd) : Statement (.ldwbL p t sx d a) := by
  have := lt_TypeCode t; have := lt_Bool sx
  let r : Raw := ⟨.L, 18, 4, p.toNat, d.toByte, a.toByte, 0, 0, t.toCode * 16 + sx.toNat, 0⟩
  have h0 : Raw.bits r 4 5 = t.toCode := by dsimp only [r, Raw.bits]; omega
  have h1 : Raw.bit r 0 = sx := by exact of_Bool _ _ (by dsimp only [r]; omega)
  refine said (r := r) rfl (fits_l (by decide) (by decide) (pred_lt p) (toByte_lt d) (toByte_lt a) (by decide) (by decide) (by omega)) rfl rfl
    (show ¬ 5 ≤ 4 by decide) (fun hw => pred_ne _ (and_left hw)) ?_
  show pickLoc r = .ok (.ldwbL p t sx d a)
  dsimp only [r] at h0 h1 ⊢
  delta pickLoc
  simp only [or_some, ofByte_toByte, predOf, Raw.p, h0, of_TypeCode, h1, bind, Except.bind]
theorem ldwbX (p : Pred) (t : TypeCode) (sx : Bool) (d : Opnd) (a : Opnd) (imm : Word) : Statement (.ldwbX p t sx d a imm) := by
  have := lt_TypeCode t; have := lt_Bool sx
  let r : Raw := ⟨.X, 18, 4, p.toNat, d.toByte, a.toByte, 0, 0, t.toCode * 16 + sx.toNat, imm⟩
  have h0 : Raw.bits r 4 5 = t.toCode := by dsimp only [r, Raw.bits]; omega
  have h1 : Raw.bit r 0 = sx := by exact of_Bool _ _ (by dsimp only [r]; omega)
  refine said (r := r) rfl (fits_x (by decide) (by decide) (pred_lt p) (toByte_lt d) (toByte_lt a) (by decide) (by decide) (by omega)) rfl rfl
    (show ¬ 5 ≤ 4 by decide) (fun hw => pred_ne _ (and_left hw)) ?_
  show pickLoc r = .ok (.ldwbX p t sx d a imm)
  dsimp only [r] at h0 h1 ⊢
  delta pickLoc
  simp only [or_some, ofByte_toByte, predOf, Raw.p, h0, of_TypeCode, h1, bind, Except.bind]
theorem stsL (p : Pred) (t : TypeCode) (a : Opnd) (b : Opnd) : Statement (.stsL p t a b) := by
  have := lt_TypeCode t
  let r : Raw := ⟨.L, 18, 1, p.toNat, 0, a.toByte, b.toByte, 0, t.toCode * 16, 0⟩
  have h0 : Raw.bits r 4 5 = t.toCode := by dsimp only [r, Raw.bits]; omega
  refine said (r := r) rfl (fits_l (by decide) (by decide) (pred_lt p) (by decide) (toByte_lt a) (toByte_lt b) (by decide) (by omega)) rfl rfl
    (show ¬ 5 ≤ 1 by decide) (fun hw => pred_ne _ (and_left hw)) ?_
  show pickLoc r = .ok (.stsL p t a b)
  dsimp only [r] at h0 ⊢
  delta pickLoc
  simp only [or_some, ofByte_toByte, predOf, Raw.p, h0, of_TypeCode, bind, Except.bind]
theorem stsX (p : Pred) (t : TypeCode) (a : Opnd) (b : Opnd) (imm : Word) : Statement (.stsX p t a b imm) := by
  have := lt_TypeCode t
  let r : Raw := ⟨.X, 18, 1, p.toNat, 0, a.toByte, b.toByte, 0, t.toCode * 16, imm⟩
  have h0 : Raw.bits r 4 5 = t.toCode := by dsimp only [r, Raw.bits]; omega
  refine said (r := r) rfl (fits_x (by decide) (by decide) (pred_lt p) (by decide) (toByte_lt a) (toByte_lt b) (by decide) (by omega)) rfl rfl
    (show ¬ 5 ≤ 1 by decide) (fun hw => pred_ne _ (and_left hw)) ?_
  show pickLoc r = .ok (.stsX p t a b imm)
  dsimp only [r] at h0 ⊢
  delta pickLoc
  simp only [or_some, ofByte_toByte, predOf, Raw.p, h0, of_TypeCode, bind, Except.bind]
theorem staL (p : Pred) (t : TypeCode) (a : Opnd) (b : Opnd) : Statement (.staL p t a b) := by
  have := lt_TypeCode t
  let r : Raw := ⟨.L, 18, 3, p.toNat, 0, a.toByte, b.toByte, 0, t.toCode * 16, 0⟩
  have h0 : Raw.bits r 4 5 = t.toCode := by dsimp only [r, Raw.bits]; omega
  refine said (r := r) rfl (fits_l (by decide) (by decide) (pred_lt p) (by decide) (toByte_lt a) (toByte_lt b) (by decide) (by omega)) rfl rfl
    (show ¬ 5 ≤ 3 by decide) (fun hw => pred_ne _ (and_left hw)) ?_
  show pickLoc r = .ok (.staL p t a b)
  dsimp only [r] at h0 ⊢
  delta pickLoc
  simp only [or_some, ofByte_toByte, predOf, Raw.p, h0, of_TypeCode, bind, Except.bind]
theorem staX (p : Pred) (t : TypeCode) (a : Opnd) (b : Opnd) (imm : Word) : Statement (.staX p t a b imm) := by
  have := lt_TypeCode t
  let r : Raw := ⟨.X, 18, 3, p.toNat, 0, a.toByte, b.toByte, 0, t.toCode * 16, imm⟩
  have h0 : Raw.bits r 4 5 = t.toCode := by dsimp only [r, Raw.bits]; omega
  refine said (r := r) rfl (fits_x (by decide) (by decide) (pred_lt p) (by decide) (toByte_lt a) (toByte_lt b) (by decide) (by omega)) rfl rfl
    (show ¬ 5 ≤ 3 by decide) (fun hw => pred_ne _ (and_left hw)) ?_
  show pickLoc r = .ok (.staX p t a b imm)
  dsimp only [r] at h0 ⊢
  delta pickLoc
  simp only [or_some, ofByte_toByte, predOf, Raw.p, h0, of_TypeCode, bind, Except.bind]
theorem atomL (p : Pred) (op : AtomOp) (nr : Bool) (w64 : Bool) (d : Opnd) (a : Opnd) (b : Opnd) : Statement (.atomL p op nr w64 d a b) := by
  have := lt_AtomOp op; have := lt_Bool nr; have := lt_Bool w64; have : op.toCode < 2 ^ 4 := (by cases op <;> decide)
  let r : Raw := ⟨.L, 20, 0, p.toNat, d.toByte, a.toByte, b.toByte, 0, op.toCode + nr.toNat * 16 + w64.toNat * 32, 0⟩
  have h0 : Raw.bits r 0 4 = op.toCode := by dsimp only [r, Raw.bits]; omega
  have h1 : Raw.bit r 4 = nr := by exact of_Bool _ _ (by dsimp only [r]; omega)
  have h2 : Raw.bit r 5 = w64 := by exact of_Bool _ _ (by dsimp only [r]; omega)
  refine said (r := r) rfl (fits_l (by decide) (by decide) (pred_lt p) (toByte_lt d) (toByte_lt a) (toByte_lt b) (by decide) (by omega)) rfl rfl
    (show ¬ 4 ≤ 0 by decide) (fun hw => pred_ne _ (and_left hw)) ?_
  show pickAtom r = .ok (.atomL p op nr w64 d a b)
  dsimp only [r] at h0 h1 h2 ⊢
  delta pickAtom
  simp only [or_some, ofByte_toByte, predOf, Raw.p, h0, of_AtomOp, h1, h2, bind, Except.bind]
theorem atomX (p : Pred) (op : AtomOp) (nr : Bool) (w64 : Bool) (d : Opnd) (a : Opnd) (b : Opnd) (imm : Word) : Statement (.atomX p op nr w64 d a b imm) := by
  have := lt_AtomOp op; have := lt_Bool nr; have := lt_Bool w64; have : op.toCode < 2 ^ 4 := (by cases op <;> decide)
  let r : Raw := ⟨.X, 20, 0, p.toNat, d.toByte, a.toByte, b.toByte, 0, op.toCode + nr.toNat * 16 + w64.toNat * 32, imm⟩
  have h0 : Raw.bits r 0 4 = op.toCode := by dsimp only [r, Raw.bits]; omega
  have h1 : Raw.bit r 4 = nr := by exact of_Bool _ _ (by dsimp only [r]; omega)
  have h2 : Raw.bit r 5 = w64 := by exact of_Bool _ _ (by dsimp only [r]; omega)
  refine said (r := r) rfl (fits_x (by decide) (by decide) (pred_lt p) (toByte_lt d) (toByte_lt a) (toByte_lt b) (by decide) (by omega)) rfl rfl
    (show ¬ 4 ≤ 0 by decide) (fun hw => pred_ne _ (and_left hw)) ?_
  show pickAtom r = .ok (.atomX p op nr w64 d a b imm)
  dsimp only [r] at h0 h1 h2 ⊢
  delta pickAtom
  simp only [or_some, ofByte_toByte, predOf, Raw.p, h0, of_AtomOp, h1, h2, bind, Except.bind]
theorem casL (p : Pred) (w64 : Bool) (d : Opnd) (a : Opnd) (b : Opnd) (c : Opnd) : Statement (.casL p w64 d a b c) := by
  have := lt_Bool w64
  let r : Raw := ⟨.L, 20, 1, p.toNat, d.toByte, a.toByte, b.toByte, c.toByte, w64.toNat * 32, 0⟩
  have h0 : Raw.bit r 5 = w64 := by exact of_Bool _ _ (by dsimp only [r]; omega)
  refine said (r := r) rfl (fits_l (by decide) (by decide) (pred_lt p) (toByte_lt d) (toByte_lt a) (toByte_lt b) (toByte_lt c) (by omega)) rfl rfl
    (show ¬ 4 ≤ 1 by decide) (fun hw => pred_ne _ (and_left hw)) ?_
  show pickAtom r = .ok (.casL p w64 d a b c)
  dsimp only [r] at h0 ⊢
  delta pickAtom
  simp only [ofByte_toByte, predOf, Raw.p, h0]
theorem casX (p : Pred) (w64 : Bool) (d : Opnd) (a : Opnd) (b : Opnd) (c : Opnd) (imm : Word) : Statement (.casX p w64 d a b c imm) := by
  have := lt_Bool w64
  let r : Raw := ⟨.X, 20, 1, p.toNat, d.toByte, a.toByte, b.toByte, c.toByte, w64.toNat * 32, imm⟩
  have h0 : Raw.bit r 5 = w64 := by exact of_Bool _ _ (by dsimp only [r]; omega)
  refine said (r := r) rfl (fits_x (by decide) (by decide) (pred_lt p) (toByte_lt d) (toByte_lt a) (toByte_lt b) (toByte_lt c) (by omega)) rfl rfl
    (show ¬ 4 ≤ 1 by decide) (fun hw => pred_ne _ (and_left hw)) ?_
  show pickAtom r = .ok (.casX p w64 d a b c imm)
  dsimp only [r] at h0 ⊢
  delta pickAtom
  simp only [ofByte_toByte, predOf, Raw.p, h0]
theorem atomsL (p : Pred) (op : AtomOp) (nr : Bool) (w64 : Bool) (d : Opnd) (a : Opnd) (b : Opnd) : Statement (.atomsL p op nr w64 d a b) := by
  have := lt_AtomOp op; have := lt_Bool nr; have := lt_Bool w64; have : op.toCode < 2 ^ 4 := (by cases op <;> decide)
  let r : Raw := ⟨.L, 20, 2, p.toNat, d.toByte, a.toByte, b.toByte, 0, op.toCode + nr.toNat * 16 + w64.toNat * 32, 0⟩
  have h0 : Raw.bits r 0 4 = op.toCode := by dsimp only [r, Raw.bits]; omega
  have h1 : Raw.bit r 4 = nr := by exact of_Bool _ _ (by dsimp only [r]; omega)
  have h2 : Raw.bit r 5 = w64 := by exact of_Bool _ _ (by dsimp only [r]; omega)
  refine said (r := r) rfl (fits_l (by decide) (by decide) (pred_lt p) (toByte_lt d) (toByte_lt a) (toByte_lt b) (by decide) (by omega)) rfl rfl
    (show ¬ 4 ≤ 2 by decide) (fun hw => pred_ne _ (and_left hw)) ?_
  show pickAtom r = .ok (.atomsL p op nr w64 d a b)
  dsimp only [r] at h0 h1 h2 ⊢
  delta pickAtom
  simp only [or_some, ofByte_toByte, predOf, Raw.p, h0, of_AtomOp, h1, h2, bind, Except.bind]
theorem atomsX (p : Pred) (op : AtomOp) (nr : Bool) (w64 : Bool) (d : Opnd) (a : Opnd) (b : Opnd) (imm : Word) : Statement (.atomsX p op nr w64 d a b imm) := by
  have := lt_AtomOp op; have := lt_Bool nr; have := lt_Bool w64; have : op.toCode < 2 ^ 4 := (by cases op <;> decide)
  let r : Raw := ⟨.X, 20, 2, p.toNat, d.toByte, a.toByte, b.toByte, 0, op.toCode + nr.toNat * 16 + w64.toNat * 32, imm⟩
  have h0 : Raw.bits r 0 4 = op.toCode := by dsimp only [r, Raw.bits]; omega
  have h1 : Raw.bit r 4 = nr := by exact of_Bool _ _ (by dsimp only [r]; omega)
  have h2 : Raw.bit r 5 = w64 := by exact of_Bool _ _ (by dsimp only [r]; omega)
  refine said (r := r) rfl (fits_x (by decide) (by decide) (pred_lt p) (toByte_lt d) (toByte_lt a) (toByte_lt b) (by decide) (by omega)) rfl rfl
    (show ¬ 4 ≤ 2 by decide) (fun hw => pred_ne _ (and_left hw)) ?_
  show pickAtom r = .ok (.atomsX p op nr w64 d a b imm)
  dsimp only [r] at h0 h1 h2 ⊢
  delta pickAtom
  simp only [or_some, ofByte_toByte, predOf, Raw.p, h0, of_AtomOp, h1, h2, bind, Except.bind]
theorem cassL (p : Pred) (w64 : Bool) (d : Opnd) (a : Opnd) (b : Opnd) (c : Opnd) : Statement (.cassL p w64 d a b c) := by
  have := lt_Bool w64
  let r : Raw := ⟨.L, 20, 3, p.toNat, d.toByte, a.toByte, b.toByte, c.toByte, w64.toNat * 32, 0⟩
  have h0 : Raw.bit r 5 = w64 := by exact of_Bool _ _ (by dsimp only [r]; omega)
  refine said (r := r) rfl (fits_l (by decide) (by decide) (pred_lt p) (toByte_lt d) (toByte_lt a) (toByte_lt b) (toByte_lt c) (by omega)) rfl rfl
    (show ¬ 4 ≤ 3 by decide) (fun hw => pred_ne _ (and_left hw)) ?_
  show pickAtom r = .ok (.cassL p w64 d a b c)
  dsimp only [r] at h0 ⊢
  delta pickAtom
  simp only [ofByte_toByte, predOf, Raw.p, h0]
theorem cassX (p : Pred) (w64 : Bool) (d : Opnd) (a : Opnd) (b : Opnd) (c : Opnd) (imm : Word) : Statement (.cassX p w64 d a b c imm) := by
  have := lt_Bool w64
  let r : Raw := ⟨.X, 20, 3, p.toNat, d.toByte, a.toByte, b.toByte, c.toByte, w64.toNat * 32, imm⟩
  have h0 : Raw.bit r 5 = w64 := by exact of_Bool _ _ (by dsimp only [r]; omega)
  refine said (r := r) rfl (fits_x (by decide) (by decide) (pred_lt p) (toByte_lt d) (toByte_lt a) (toByte_lt b) (toByte_lt c) (by omega)) rfl rfl
    (show ¬ 4 ≤ 3 by decide) (fun hw => pred_ne _ (and_left hw)) ?_
  show pickAtom r = .ok (.cassX p w64 d a b c imm)
  dsimp only [r] at h0 ⊢
  delta pickAtom
  simp only [ofByte_toByte, predOf, Raw.p, h0]
theorem waitcL (p : Pred) (cond : Cond) (t : TypeCode) (d : Opnd) (a : Opnd) (b : Opnd) (c : Opnd) : Statement (.waitcL p cond t d a b c) := by
  have := lt_Cond cond; have := lt_TypeCode t; have : cond.toCode < 2 ^ 4 := (by cases cond <;> decide)
  let r : Raw := ⟨.L, 21, 0, p.toNat, d.toByte, a.toByte, b.toByte, c.toByte, cond.toCode + t.toCode * 16, 0⟩
  have h0 : Raw.bits r 0 4 = cond.toCode := by dsimp only [r, Raw.bits]; omega
  have h1 : Raw.bits r 4 5 = t.toCode := by dsimp only [r, Raw.bits]; omega
  refine said (r := r) rfl (fits_l (by decide) (by decide) (pred_lt p) (toByte_lt d) (toByte_lt a) (toByte_lt b) (toByte_lt c) (by omega)) rfl rfl
    (show ¬ 3 ≤ 0 by decide) (fun hw => pred_ne _ (and_left hw)) ?_
  show pickMonitor r = .ok (.waitcL p cond t d a b c)
  dsimp only [r] at h0 h1 ⊢
  delta pickMonitor
  simp only [or_some, ofByte_toByte, predOf, Raw.p, h0, of_Cond, h1, of_TypeCode, bind, Except.bind]
theorem waitcX (p : Pred) (cond : Cond) (t : TypeCode) (d : Opnd) (a : Opnd) (b : Opnd) (c : Opnd) (imm : Word) : Statement (.waitcX p cond t d a b c imm) := by
  have := lt_Cond cond; have := lt_TypeCode t; have : cond.toCode < 2 ^ 4 := (by cases cond <;> decide)
  let r : Raw := ⟨.X, 21, 0, p.toNat, d.toByte, a.toByte, b.toByte, c.toByte, cond.toCode + t.toCode * 16, imm⟩
  have h0 : Raw.bits r 0 4 = cond.toCode := by dsimp only [r, Raw.bits]; omega
  have h1 : Raw.bits r 4 5 = t.toCode := by dsimp only [r, Raw.bits]; omega
  refine said (r := r) rfl (fits_x (by decide) (by decide) (pred_lt p) (toByte_lt d) (toByte_lt a) (toByte_lt b) (toByte_lt c) (by omega)) rfl rfl
    (show ¬ 3 ≤ 0 by decide) (fun hw => pred_ne _ (and_left hw)) ?_
  show pickMonitor r = .ok (.waitcX p cond t d a b c imm)
  dsimp only [r] at h0 h1 ⊢
  delta pickMonitor
  simp only [or_some, ofByte_toByte, predOf, Raw.p, h0, of_Cond, h1, of_TypeCode, bind, Except.bind]
theorem armcL (p : Pred) (cond : Cond) (t : TypeCode) (d : Opnd) (a : Opnd) (b : Opnd) : Statement (.armcL p cond t d a b) := by
  have := lt_Cond cond; have := lt_TypeCode t; have : cond.toCode < 2 ^ 4 := (by cases cond <;> decide)
  let r : Raw := ⟨.L, 21, 1, p.toNat, d.toByte, a.toByte, b.toByte, 0, cond.toCode + t.toCode * 16, 0⟩
  have h0 : Raw.bits r 0 4 = cond.toCode := by dsimp only [r, Raw.bits]; omega
  have h1 : Raw.bits r 4 5 = t.toCode := by dsimp only [r, Raw.bits]; omega
  refine said (r := r) rfl (fits_l (by decide) (by decide) (pred_lt p) (toByte_lt d) (toByte_lt a) (toByte_lt b) (by decide) (by omega)) rfl rfl
    (show ¬ 3 ≤ 1 by decide) (fun hw => pred_ne _ (and_left hw)) ?_
  show pickMonitor r = .ok (.armcL p cond t d a b)
  dsimp only [r] at h0 h1 ⊢
  delta pickMonitor
  simp only [or_some, ofByte_toByte, predOf, Raw.p, h0, of_Cond, h1, of_TypeCode, bind, Except.bind]
theorem armcX (p : Pred) (cond : Cond) (t : TypeCode) (d : Opnd) (a : Opnd) (b : Opnd) (imm : Word) : Statement (.armcX p cond t d a b imm) := by
  have := lt_Cond cond; have := lt_TypeCode t; have : cond.toCode < 2 ^ 4 := (by cases cond <;> decide)
  let r : Raw := ⟨.X, 21, 1, p.toNat, d.toByte, a.toByte, b.toByte, 0, cond.toCode + t.toCode * 16, imm⟩
  have h0 : Raw.bits r 0 4 = cond.toCode := by dsimp only [r, Raw.bits]; omega
  have h1 : Raw.bits r 4 5 = t.toCode := by dsimp only [r, Raw.bits]; omega
  refine said (r := r) rfl (fits_x (by decide) (by decide) (pred_lt p) (toByte_lt d) (toByte_lt a) (toByte_lt b) (by decide) (by omega)) rfl rfl
    (show ¬ 3 ≤ 1 by decide) (fun hw => pred_ne _ (and_left hw)) ?_
  show pickMonitor r = .ok (.armcX p cond t d a b imm)
  dsimp only [r] at h0 h1 ⊢
  delta pickMonitor
  simp only [or_some, ofByte_toByte, predOf, Raw.p, h0, of_Cond, h1, of_TypeCode, bind, Except.bind]
theorem checkc (p : Pred) (d : Opnd) : Statement (.checkc p d) := by
  let r : Raw := ⟨.L, 21, 2, p.toNat, d.toByte, 0, 0, 0, 0, 0⟩
  refine said (r := r) rfl (fits_l (by decide) (by decide) (pred_lt p) (toByte_lt d) (by decide) (by decide) (by decide) (by decide)) rfl rfl
    (show ¬ 3 ≤ 2 by decide) (fun hw => pred_ne _ (and_left hw)) ?_
  show pickMonitor r = .ok (.checkc p d)
  dsimp only [r]
  delta pickMonitor
  simp only [ofByte_toByte, predOf, Raw.p]
theorem syscL (a : Opnd) : Statement (.syscL a) := by
  let r : Raw := ⟨.L, 24, 0, 0, 0, a.toByte, 0, 0, 0, 0⟩
  refine said (r := r) rfl (fits_l (by decide) (by decide) (by decide) (by decide) (toByte_lt a) (by decide) (by decide) (by decide)) rfl rfl
    (show ¬ 12 ≤ 0 by decide) (fun _ => (show 0 ≠ 8 by decide)) ?_
  show pickSys r = .ok (.syscL a)
  dsimp only [r]
  delta pickSys
  simp only [ofByte_toByte]
theorem syscX (a : Opnd) (imm : Word) : Statement (.syscX a imm) := by
  let r : Raw := ⟨.X, 24, 0, 0, 0, a.toByte, 0, 0, 0, imm⟩
  refine said (r := r) rfl (fits_x (by decide) (by decide) (by decide) (by decide) (toByte_lt a) (by decide) (by decide) (by decide)) rfl rfl
    (show ¬ 12 ≤ 0 by decide) (fun _ => (show 0 ≠ 8 by decide)) ?_
  show pickSys r = .ok (.syscX a imm)
  dsimp only [r]
  delta pickSys
  simp only [ofByte_toByte]
theorem hcallL (a : Opnd) : Statement (.hcallL a) := by
  let r : Raw := ⟨.L, 24, 1, 0, 0, a.toByte, 0, 0, 0, 0⟩
  refine said (r := r) rfl (fits_l (by decide) (by decide) (by decide) (by decide) (toByte_lt a) (by decide) (by decide) (by decide)) rfl rfl
    (show ¬ 12 ≤ 1 by decide) (fun _ => (show 0 ≠ 8 by decide)) ?_
  show pickSys r = .ok (.hcallL a)
  dsimp only [r]
  delta pickSys
  simp only [ofByte_toByte]
theorem hcallX (a : Opnd) (imm : Word) : Statement (.hcallX a imm) := by
  let r : Raw := ⟨.X, 24, 1, 0, 0, a.toByte, 0, 0, 0, imm⟩
  refine said (r := r) rfl (fits_x (by decide) (by decide) (by decide) (by decide) (toByte_lt a) (by decide) (by decide) (by decide)) rfl rfl
    (show ¬ 12 ≤ 1 by decide) (fun _ => (show 0 ≠ 8 by decide)) ?_
  show pickSys r = .ok (.hcallX a imm)
  dsimp only [r]
  delta pickSys
  simp only [ofByte_toByte]
theorem mcallL (a : Opnd) : Statement (.mcallL a) := by
  let r : Raw := ⟨.L, 24, 2, 0, 0, a.toByte, 0, 0, 0, 0⟩
  refine said (r := r) rfl (fits_l (by decide) (by decide) (by decide) (by decide) (toByte_lt a) (by decide) (by decide) (by decide)) rfl rfl
    (show ¬ 12 ≤ 2 by decide) (fun _ => (show 0 ≠ 8 by decide)) ?_
  show pickSys r = .ok (.mcallL a)
  dsimp only [r]
  delta pickSys
  simp only [ofByte_toByte]
theorem mcallX (a : Opnd) (imm : Word) : Statement (.mcallX a imm) := by
  let r : Raw := ⟨.X, 24, 2, 0, 0, a.toByte, 0, 0, 0, imm⟩
  refine said (r := r) rfl (fits_x (by decide) (by decide) (by decide) (by decide) (toByte_lt a) (by decide) (by decide) (by decide)) rfl rfl
    (show ¬ 12 ≤ 2 by decide) (fun _ => (show 0 ≠ 8 by decide)) ?_
  show pickSys r = .ok (.mcallX a imm)
  dsimp only [r]
  delta pickSys
  simp only [ofByte_toByte]
theorem trapL (a : Opnd) : Statement (.trapL a) := by
  let r : Raw := ⟨.L, 24, 5, 0, 0, a.toByte, 0, 0, 0, 0⟩
  refine said (r := r) rfl (fits_l (by decide) (by decide) (by decide) (by decide) (toByte_lt a) (by decide) (by decide) (by decide)) rfl rfl
    (show ¬ 12 ≤ 5 by decide) (fun _ => (show 0 ≠ 8 by decide)) ?_
  show pickSys r = .ok (.trapL a)
  dsimp only [r]
  delta pickSys
  simp only [ofByte_toByte]
theorem trapX (a : Opnd) (imm : Word) : Statement (.trapX a imm) := by
  let r : Raw := ⟨.X, 24, 5, 0, 0, a.toByte, 0, 0, 0, imm⟩
  refine said (r := r) rfl (fits_x (by decide) (by decide) (by decide) (by decide) (toByte_lt a) (by decide) (by decide) (by decide)) rfl rfl
    (show ¬ 12 ≤ 5 by decide) (fun _ => (show 0 ≠ 8 by decide)) ?_
  show pickSys r = .ok (.trapX a imm)
  dsimp only [r]
  delta pickSys
  simp only [ofByte_toByte]
theorem tret : Statement .tret := by
  let r : Raw := ⟨.L, 24, 3, 0, 0, 0, 0, 0, 0, 0⟩
  refine said (r := r) rfl (fits_l (by decide) (by decide) (by decide) (by decide) (by decide) (by decide) (by decide) (by decide)) rfl rfl
    (show ¬ 12 ≤ 3 by decide) (fun _ => (show 0 ≠ 8 by decide)) ?_
  show pickSys r = .ok .tret
  dsimp only [r]
  delta pickSys
  simp only []
theorem tretPark : Statement .tretPark := by
  let r : Raw := ⟨.L, 24, 3, 0, 0, 0, 0, 0, 1, 0⟩
  refine said (r := r) rfl (fits_l (by decide) (by decide) (by decide) (by decide) (by decide) (by decide) (by decide) (by decide)) rfl rfl
    (show ¬ 12 ≤ 3 by decide) (fun _ => (show 0 ≠ 8 by decide)) ?_
  show pickSys r = .ok .tretPark
  dsimp only [r]
  delta pickSys
  simp only []
theorem tfence : Statement .tfence := by
  let r : Raw := ⟨.L, 24, 4, 0, 0, 0, 0, 0, 0, 0⟩
  refine said (r := r) rfl (fits_l (by decide) (by decide) (by decide) (by decide) (by decide) (by decide) (by decide) (by decide)) rfl rfl
    (show ¬ 12 ≤ 4 by decide) (fun _ => (show 0 ≠ 8 by decide)) ?_
  show pickSys r = .ok .tfence
  dsimp only [r]
  delta pickSys
  simp only []
theorem mfsr (p : Pred) (num : Fin 1024) (d : Opnd) : Statement (.mfsr p num d) := by
  have := num.isLt
  let r : Raw := ⟨.L, 24, 6, p.toNat, d.toByte, 0, 0, 0, num.val, 0⟩
  have h0 : Raw.bits r 0 10 = num.val := by dsimp only [r, Raw.bits]; omega
  refine said (r := r) rfl (fits_l (by decide) (by decide) (pred_lt p) (toByte_lt d) (by decide) (by decide) (by decide) (by omega)) rfl rfl
    (show ¬ 12 ≤ 6 by decide) (fun hw => pred_ne _ (and_left hw)) ?_
  show pickSys r = .ok (.mfsr p num d)
  dsimp only [r] at h0 ⊢
  delta pickSys
  simp only [ofByte_toByte, predOf, Raw.p, h0, fin_self, bind, Except.bind]
theorem mtsrL (p : Pred) (num : Fin 1024) (a : Opnd) : Statement (.mtsrL p num a) := by
  have := num.isLt
  let r : Raw := ⟨.L, 24, 7, p.toNat, 0, a.toByte, 0, 0, num.val, 0⟩
  have h0 : Raw.bits r 0 10 = num.val := by dsimp only [r, Raw.bits]; omega
  refine said (r := r) rfl (fits_l (by decide) (by decide) (pred_lt p) (by decide) (toByte_lt a) (by decide) (by decide) (by omega)) rfl rfl
    (show ¬ 12 ≤ 7 by decide) (fun hw => pred_ne _ (and_left hw)) ?_
  show pickSys r = .ok (.mtsrL p num a)
  dsimp only [r] at h0 ⊢
  delta pickSys
  simp only [ofByte_toByte, predOf, Raw.p, h0, fin_self, bind, Except.bind]
theorem mtsrX (p : Pred) (num : Fin 1024) (a : Opnd) (imm : Word) : Statement (.mtsrX p num a imm) := by
  have := num.isLt
  let r : Raw := ⟨.X, 24, 7, p.toNat, 0, a.toByte, 0, 0, num.val, imm⟩
  have h0 : Raw.bits r 0 10 = num.val := by dsimp only [r, Raw.bits]; omega
  refine said (r := r) rfl (fits_x (by decide) (by decide) (pred_lt p) (by decide) (toByte_lt a) (by decide) (by decide) (by omega)) rfl rfl
    (show ¬ 12 ≤ 7 by decide) (fun hw => pred_ne _ (and_left hw)) ?_
  show pickSys r = .ok (.mtsrX p num a imm)
  dsimp only [r] at h0 ⊢
  delta pickSys
  simp only [ofByte_toByte, predOf, Raw.p, h0, fin_self, bind, Except.bind]
theorem gresumeL (d : Opnd) (a : Opnd) : Statement (.gresumeL d a) := by
  let r : Raw := ⟨.L, 24, 8, 0, d.toByte, a.toByte, 0, 0, 0, 0⟩
  refine said (r := r) rfl (fits_l (by decide) (by decide) (by decide) (toByte_lt d) (toByte_lt a) (by decide) (by decide) (by decide)) rfl rfl
    (show ¬ 12 ≤ 8 by decide) (fun _ => (show 0 ≠ 8 by decide)) ?_
  show pickSys r = .ok (.gresumeL d a)
  dsimp only [r]
  delta pickSys
  simp only [ofByte_toByte]
theorem gresumeX (d : Opnd) (a : Opnd) (imm : Word) : Statement (.gresumeX d a imm) := by
  let r : Raw := ⟨.X, 24, 8, 0, d.toByte, a.toByte, 0, 0, 0, imm⟩
  refine said (r := r) rfl (fits_x (by decide) (by decide) (by decide) (toByte_lt d) (toByte_lt a) (by decide) (by decide) (by decide)) rfl rfl
    (show ¬ 12 ≤ 8 by decide) (fun _ => (show 0 ≠ 8 by decide)) ?_
  show pickSys r = .ok (.gresumeX d a imm)
  dsimp only [r]
  delta pickSys
  simp only [ofByte_toByte]
theorem gkillL (drop : Bool) (d : Opnd) (a : Opnd) : Statement (.gkillL drop d a) := by
  have := lt_Bool drop
  let r : Raw := ⟨.L, 24, 9, 0, d.toByte, a.toByte, 0, 0, drop.toNat, 0⟩
  have h0 : Raw.bit r 0 = drop := by exact of_Bool _ _ (by dsimp only [r]; omega)
  refine said (r := r) rfl (fits_l (by decide) (by decide) (by decide) (toByte_lt d) (toByte_lt a) (by decide) (by decide) (by omega)) rfl rfl
    (show ¬ 12 ≤ 9 by decide) (fun _ => (show 0 ≠ 8 by decide)) ?_
  show pickSys r = .ok (.gkillL drop d a)
  dsimp only [r] at h0 ⊢
  delta pickSys
  simp only [ofByte_toByte, h0]
theorem gkillX (drop : Bool) (d : Opnd) (a : Opnd) (imm : Word) : Statement (.gkillX drop d a imm) := by
  have := lt_Bool drop
  let r : Raw := ⟨.X, 24, 9, 0, d.toByte, a.toByte, 0, 0, drop.toNat, imm⟩
  have h0 : Raw.bit r 0 = drop := by exact of_Bool _ _ (by dsimp only [r]; omega)
  refine said (r := r) rfl (fits_x (by decide) (by decide) (by decide) (toByte_lt d) (toByte_lt a) (by decide) (by decide) (by omega)) rfl rfl
    (show ¬ 12 ≤ 9 by decide) (fun _ => (show 0 ≠ 8 by decide)) ?_
  show pickSys r = .ok (.gkillX drop d a imm)
  dsimp only [r] at h0 ⊢
  delta pickSys
  simp only [ofByte_toByte, h0]
theorem tlbi (scope : TlbiScope) (s2 : Bool) (a : Opnd) (b : Opnd) : Statement (.tlbi scope s2 a b) := by
  have := lt_TlbiScope scope; have := lt_Bool s2; have : scope.toCode < 2 ^ 2 := (by cases scope <;> decide)
  let r : Raw := ⟨.L, 24, 10, 0, 0, a.toByte, b.toByte, 0, scope.toCode + s2.toNat * 4, 0⟩
  have h0 : Raw.bits r 0 2 = scope.toCode := by dsimp only [r, Raw.bits]; omega
  have h1 : Raw.bit r 2 = s2 := by exact of_Bool _ _ (by dsimp only [r]; omega)
  refine said (r := r) rfl (fits_l (by decide) (by decide) (by decide) (by decide) (toByte_lt a) (toByte_lt b) (by decide) (by omega)) rfl rfl
    (show ¬ 12 ≤ 10 by decide) (fun _ => (show 0 ≠ 8 by decide)) ?_
  show pickSys r = .ok (.tlbi scope s2 a b)
  dsimp only [r] at h0 h1 ⊢
  delta pickSys
  simp only [or_some, ofByte_toByte, h0, of_TlbiScope, h1, bind, Except.bind]
theorem tlbsync : Statement .tlbsync := by
  let r : Raw := ⟨.L, 24, 11, 0, 0, 0, 0, 0, 0, 0⟩
  refine said (r := r) rfl (fits_l (by decide) (by decide) (by decide) (by decide) (by decide) (by decide) (by decide) (by decide)) rfl rfl
    (show ¬ 12 ≤ 11 by decide) (fun _ => (show 0 ≠ 8 by decide)) ?_
  show pickSys r = .ok .tlbsync
  dsimp only [r]
  delta pickSys
  simp only []
theorem cpy (p : Pred) (dsp : DSp) (ssp : SSp) (d : Opnd) (a : Opnd) (b : Opnd) (c : Opnd) (imm : Word) : Statement (.cpy p dsp ssp d a b c imm) := by
  have := lt_DSp dsp; have := lt_SSp ssp; have : dsp.toCode < 2 ^ 2 := (by cases dsp <;> decide); have : ssp.toCode < 2 ^ 2 := (by cases ssp <;> decide)
  let r : Raw := ⟨.X, 28, 0, p.toNat, d.toByte, a.toByte, b.toByte, c.toByte, dsp.toCode + ssp.toCode * 4, imm⟩
  have h0 : Raw.bits r 0 2 = dsp.toCode := by dsimp only [r, Raw.bits]; omega
  have h1 : Raw.bits r 2 2 = ssp.toCode := by dsimp only [r, Raw.bits]; omega
  refine said (r := r) rfl (fits_x (by decide) (by decide) (pred_lt p) (toByte_lt d) (toByte_lt a) (toByte_lt b) (toByte_lt c) (by omega)) rfl rfl
    (show ¬ 8 ≤ 0 by decide) (fun hw => pred_ne _ (and_left hw)) ?_
  show pickCopy r = .ok (.cpy p dsp ssp d a b c imm)
  dsimp only [r] at h0 h1 ⊢
  delta pickCopy
  simp only [or_some, ofByte_toByte, predOf, Raw.p, h0, of_DSp, h1, of_SSp, bind, Except.bind]
theorem cpys (p : Pred) (dsp : DSp) (ssp : SSp) (d : Opnd) (a : Opnd) (b : Opnd) (c : Opnd) (imm : Word) : Statement (.cpys p dsp ssp d a b c imm) := by
  have := lt_DSp dsp; have := lt_SSp ssp; have : dsp.toCode < 2 ^ 2 := (by cases dsp <;> decide); have : ssp.toCode < 2 ^ 2 := (by cases ssp <;> decide)
  let r : Raw := ⟨.X, 28, 1, p.toNat, d.toByte, a.toByte, b.toByte, c.toByte, dsp.toCode + ssp.toCode * 4, imm⟩
  have h0 : Raw.bits r 0 2 = dsp.toCode := by dsimp only [r, Raw.bits]; omega
  have h1 : Raw.bits r 2 2 = ssp.toCode := by dsimp only [r, Raw.bits]; omega
  refine said (r := r) rfl (fits_x (by decide) (by decide) (pred_lt p) (toByte_lt d) (toByte_lt a) (toByte_lt b) (toByte_lt c) (by omega)) rfl rfl
    (show ¬ 8 ≤ 1 by decide) (fun hw => pred_ne _ (and_left hw)) ?_
  show pickCopy r = .ok (.cpys p dsp ssp d a b c imm)
  dsimp only [r] at h0 h1 ⊢
  delta pickCopy
  simp only [or_some, ofByte_toByte, predOf, Raw.p, h0, of_DSp, h1, of_SSp, bind, Except.bind]
theorem cpyg (p : Pred) (dsp : DSp) (d : Opnd) (a : Opnd) (b : Opnd) (c : Opnd) (imm : Word) : Statement (.cpyg p dsp d a b c imm) := by
  have := lt_DSp dsp; have : dsp.toCode < 2 ^ 2 := (by cases dsp <;> decide)
  let r : Raw := ⟨.X, 28, 2, p.toNat, d.toByte, a.toByte, b.toByte, c.toByte, dsp.toCode, imm⟩
  have h0 : Raw.bits r 0 2 = dsp.toCode := by dsimp only [r, Raw.bits]; omega
  refine said (r := r) rfl (fits_x (by decide) (by decide) (pred_lt p) (toByte_lt d) (toByte_lt a) (toByte_lt b) (toByte_lt c) (by omega)) rfl rfl
    (show ¬ 8 ≤ 2 by decide) (fun hw => pred_ne _ (and_left hw)) ?_
  show pickCopy r = .ok (.cpyg p dsp d a b c imm)
  dsimp only [r] at h0 ⊢
  delta pickCopy
  simp only [or_some, ofByte_toByte, predOf, Raw.p, h0, of_DSp, bind, Except.bind]
theorem cpyt (p : Pred) (ssp : SSp) (d : Opnd) (a : Opnd) (b : Opnd) (c : Opnd) (imm : Word) : Statement (.cpyt p ssp d a b c imm) := by
  have := lt_SSp ssp; have : ssp.toCode < 2 ^ 2 := (by cases ssp <;> decide)
  let r : Raw := ⟨.X, 28, 3, p.toNat, d.toByte, a.toByte, b.toByte, c.toByte, ssp.toCode * 4, imm⟩
  have h0 : Raw.bits r 2 2 = ssp.toCode := by dsimp only [r, Raw.bits]; omega
  refine said (r := r) rfl (fits_x (by decide) (by decide) (pred_lt p) (toByte_lt d) (toByte_lt a) (toByte_lt b) (toByte_lt c) (by omega)) rfl rfl
    (show ¬ 8 ≤ 3 by decide) (fun hw => pred_ne _ (and_left hw)) ?_
  show pickCopy r = .ok (.cpyt p ssp d a b c imm)
  dsimp only [r] at h0 ⊢
  delta pickCopy
  simp only [or_some, ofByte_toByte, predOf, Raw.p, h0, of_SSp, bind, Except.bind]
theorem cpym (p : Pred) (dsp : DSp) (d : Opnd) (a : Opnd) (b : Opnd) (imm : Word) : Statement (.cpym p dsp d a b imm) := by
  have := lt_DSp dsp; have : dsp.toCode < 2 ^ 2 := (by cases dsp <;> decide)
  let r : Raw := ⟨.X, 28, 4, p.toNat, d.toByte, a.toByte, b.toByte, 0, dsp.toCode, imm⟩
  have h0 : Raw.bits r 0 2 = dsp.toCode := by dsimp only [r, Raw.bits]; omega
  refine said (r := r) rfl (fits_x (by decide) (by decide) (pred_lt p) (toByte_lt d) (toByte_lt a) (toByte_lt b) (by decide) (by omega)) rfl rfl
    (show ¬ 8 ≤ 4 by decide) (fun hw => pred_ne _ (and_left hw)) ?_
  show pickCopy r = .ok (.cpym p dsp d a b imm)
  dsimp only [r] at h0 ⊢
  delta pickCopy
  simp only [or_some, ofByte_toByte, predOf, Raw.p, h0, of_DSp, bind, Except.bind]
theorem cpyf (p : Pred) (dsp : DSp) (fc : Fin 11) (d : Opnd) (a : Opnd) (b : Opnd) (c : Opnd) (imm : Word) : Statement (.cpyf p dsp fc d a b c imm) := by
  have := lt_DSp dsp; have := fc.isLt; have : dsp.toCode < 2 ^ 2 := (by cases dsp <;> decide)
  let r : Raw := ⟨.X, 28, 5, p.toNat, d.toByte, a.toByte, b.toByte, c.toByte, dsp.toCode + fc.val * 16, imm⟩
  have h0 : Raw.bits r 0 2 = dsp.toCode := by dsimp only [r, Raw.bits]; omega
  have h1 : Raw.bits r 4 5 = fc.val := by dsimp only [r, Raw.bits]; omega
  refine said (r := r) rfl (fits_x (by decide) (by decide) (pred_lt p) (toByte_lt d) (toByte_lt a) (toByte_lt b) (toByte_lt c) (by omega)) rfl rfl
    (show ¬ 8 ≤ 5 by decide) (fun hw => pred_ne _ (and_left hw)) ?_
  show pickCopy r = .ok (.cpyf p dsp fc d a b c imm)
  dsimp only [r] at h0 h1 ⊢
  delta pickCopy
  simp only [or_some, ofByte_toByte, predOf, Raw.p, h0, of_DSp, h1, fin_self, bind, Except.bind]
theorem swinit (p : Pred) (a : Opnd) (b : Opnd) (imm : Word) : Statement (.swinit p a b imm) := by
  let r : Raw := ⟨.X, 28, 6, p.toNat, 0, a.toByte, b.toByte, 0, 0, imm⟩
  refine said (r := r) rfl (fits_x (by decide) (by decide) (pred_lt p) (by decide) (toByte_lt a) (toByte_lt b) (by decide) (by decide)) rfl rfl
    (show ¬ 8 ≤ 6 by decide) (fun hw => pred_ne _ (and_left hw)) ?_
  show pickCopy r = .ok (.swinit p a b imm)
  dsimp only [r]
  delta pickCopy
  simp only [ofByte_toByte, predOf, Raw.p]
theorem swwait (p : Pred) (d : Opnd) (a : Opnd) (b : Opnd) (imm : Word) : Statement (.swwait p d a b imm) := by
  let r : Raw := ⟨.X, 28, 7, p.toNat, d.toByte, a.toByte, b.toByte, 0, 0, imm⟩
  refine said (r := r) rfl (fits_x (by decide) (by decide) (pred_lt p) (toByte_lt d) (toByte_lt a) (toByte_lt b) (by decide) (by decide)) rfl rfl
    (show ¬ 8 ≤ 7 by decide) (fun hw => pred_ne _ (and_left hw)) ?_
  show pickCopy r = .ok (.swwait p d a b imm)
  dsimp only [r]
  delta pickCopy
  simp only [ofByte_toByte, predOf, Raw.p]
theorem mma (p : Pred) (m : Fin 32) (reuse : Bool) (z : Bool) (d : Opnd) (a : Opnd) (b : Opnd) (imm : Word) : Statement (.mma p m reuse z d a b imm) := by
  have := m.isLt; have := lt_Bool reuse; have := lt_Bool z
  let r : Raw := ⟨.X, 32, 0, p.toNat, d.toByte, a.toByte, b.toByte, 0, m.val + reuse.toNat * 32 + z.toNat * 64, imm⟩
  have h0 : Raw.bits r 0 5 = m.val := by dsimp only [r, Raw.bits]; omega
  have h1 : Raw.bit r 5 = reuse := by exact of_Bool _ _ (by dsimp only [r]; omega)
  have h2 : Raw.bit r 6 = z := by exact of_Bool _ _ (by dsimp only [r]; omega)
  refine said (r := r) rfl (fits_x (by decide) (by decide) (pred_lt p) (toByte_lt d) (toByte_lt a) (toByte_lt b) (by decide) (by omega)) rfl rfl
    (show ¬ 6 ≤ 0 by decide) (fun hw => pred_ne _ (and_left hw)) ?_
  show pickMatrix r = .ok (.mma p m reuse z d a b imm)
  dsimp only [r] at h0 h1 h2 ⊢
  delta pickMatrix
  simp only [ofByte_toByte, predOf, Raw.p, h0, fin_self, h1, h2, bind, Except.bind]
theorem mmap (p : Pred) (m : Fin 32) (reuse : Bool) (z : Bool) (d : Opnd) (a : Opnd) (b : Opnd) (imm : Word) : Statement (.mmap p m reuse z d a b imm) := by
  have := m.isLt; have := lt_Bool reuse; have := lt_Bool z
  let r : Raw := ⟨.X, 32, 1, p.toNat, d.toByte, a.toByte, b.toByte, 0, m.val + reuse.toNat * 32 + z.toNat * 64, imm⟩
  have h0 : Raw.bits r 0 5 = m.val := by dsimp only [r, Raw.bits]; omega
  have h1 : Raw.bit r 5 = reuse := by exact of_Bool _ _ (by dsimp only [r]; omega)
  have h2 : Raw.bit r 6 = z := by exact of_Bool _ _ (by dsimp only [r]; omega)
  refine said (r := r) rfl (fits_x (by decide) (by decide) (pred_lt p) (toByte_lt d) (toByte_lt a) (toByte_lt b) (by decide) (by omega)) rfl rfl
    (show ¬ 6 ≤ 1 by decide) (fun hw => pred_ne _ (and_left hw)) ?_
  show pickMatrix r = .ok (.mmap p m reuse z d a b imm)
  dsimp only [r] at h0 h1 h2 ⊢
  delta pickMatrix
  simp only [ofByte_toByte, predOf, Raw.p, h0, fin_self, h1, h2, bind, Except.bind]
theorem mclr (p : Pred) (m : Fin 32) (d : Opnd) (imm : Word) : Statement (.mclr p m d imm) := by
  have := m.isLt
  let r : Raw := ⟨.X, 32, 2, p.toNat, d.toByte, 0, 0, 0, m.val, imm⟩
  have h0 : Raw.bits r 0 5 = m.val := by dsimp only [r, Raw.bits]; omega
  refine said (r := r) rfl (fits_x (by decide) (by decide) (pred_lt p) (toByte_lt d) (by decide) (by decide) (by decide) (by omega)) rfl rfl
    (show ¬ 6 ≤ 2 by decide) (fun hw => pred_ne _ (and_left hw)) ?_
  show pickMatrix r = .ok (.mclr p m d imm)
  dsimp only [r] at h0 ⊢
  delta pickMatrix
  simp only [ofByte_toByte, predOf, Raw.p, h0, fin_self, bind, Except.bind]
theorem mcvt (p : Pred) (m : Fin 32) (fmt : TypeCode) (d : Opnd) (a : Opnd) (b : Opnd) (imm : Word) : Statement (.mcvt p m fmt d a b imm) := by
  have := m.isLt; have := lt_TypeCode fmt
  let r : Raw := ⟨.X, 32, 3, p.toNat, d.toByte, a.toByte, b.toByte, 0, m.val + fmt.toCode * 32, imm⟩
  have h0 : Raw.bits r 0 5 = m.val := by dsimp only [r, Raw.bits]; omega
  have h1 : Raw.bits r 5 5 = fmt.toCode := by dsimp only [r, Raw.bits]; omega
  refine said (r := r) rfl (fits_x (by decide) (by decide) (pred_lt p) (toByte_lt d) (toByte_lt a) (toByte_lt b) (by decide) (by omega)) rfl rfl
    (show ¬ 6 ≤ 3 by decide) (fun hw => pred_ne _ (and_left hw)) ?_
  show pickMatrix r = .ok (.mcvt p m fmt d a b imm)
  dsimp only [r] at h0 h1 ⊢
  delta pickMatrix
  simp only [or_some, ofByte_toByte, predOf, Raw.p, h0, fin_self, h1, of_TypeCode, bind, Except.bind]
theorem macc (p : Pred) (m : Fin 32) (team : Bool) (d : Opnd) (a : Opnd) (imm : Word) : Statement (.macc p m team d a imm) := by
  have := m.isLt; have := lt_Bool team
  let r : Raw := ⟨.X, 32, 4, p.toNat, d.toByte, a.toByte, 0, 0, m.val + team.toNat * 32, imm⟩
  have h0 : Raw.bits r 0 5 = m.val := by dsimp only [r, Raw.bits]; omega
  have h1 : Raw.bit r 5 = team := by exact of_Bool _ _ (by dsimp only [r]; omega)
  refine said (r := r) rfl (fits_x (by decide) (by decide) (pred_lt p) (toByte_lt d) (toByte_lt a) (by decide) (by decide) (by omega)) rfl rfl
    (show ¬ 6 ≤ 4 by decide) (fun hw => pred_ne _ (and_left hw)) ?_
  show pickMatrix r = .ok (.macc p m team d a imm)
  dsimp only [r] at h0 h1 ⊢
  delta pickMatrix
  simp only [ofByte_toByte, predOf, Raw.p, h0, fin_self, h1, bind, Except.bind]
theorem mrel (p : Pred) (imm : Word) : Statement (.mrel p imm) := by
  let r : Raw := ⟨.X, 32, 5, p.toNat, 0, 0, 0, 0, 0, imm⟩
  refine said (r := r) rfl (fits_x (by decide) (by decide) (pred_lt p) (by decide) (by decide) (by decide) (by decide) (by decide)) rfl rfl
    (show ¬ 6 ≤ 5 by decide) (fun hw => pred_ne _ (and_left hw)) ?_
  show pickMatrix r = .ok (.mrel p imm)
  dsimp only [r]
  delta pickMatrix
  simp only [predOf, Raw.p]
theorem qpopL (p : Pred) (wait : Bool) (d : Opnd) (a : Opnd) : Statement (.qpopL p wait d a) := by
  have := lt_Bool wait
  let r : Raw := ⟨.L, 36, 0, p.toNat, d.toByte, a.toByte, 0, 0, wait.toNat, 0⟩
  have h0 : Raw.bit r 0 = wait := by exact of_Bool _ _ (by dsimp only [r]; omega)
  refine said (r := r) rfl (fits_l (by decide) (by decide) (pred_lt p) (toByte_lt d) (toByte_lt a) (by decide) (by decide) (by omega)) rfl rfl
    (show ¬ 7 ≤ 0 by decide) (fun hw => pred_ne _ (and_left hw)) ?_
  show pickQueue r = .ok (.qpopL p wait d a)
  dsimp only [r] at h0 ⊢
  delta pickQueue
  simp only [ofByte_toByte, predOf, Raw.p, h0]
theorem qpopX (p : Pred) (wait : Bool) (d : Opnd) (a : Opnd) (imm : Word) : Statement (.qpopX p wait d a imm) := by
  have := lt_Bool wait
  let r : Raw := ⟨.X, 36, 0, p.toNat, d.toByte, a.toByte, 0, 0, wait.toNat, imm⟩
  have h0 : Raw.bit r 0 = wait := by exact of_Bool _ _ (by dsimp only [r]; omega)
  refine said (r := r) rfl (fits_x (by decide) (by decide) (pred_lt p) (toByte_lt d) (toByte_lt a) (by decide) (by decide) (by omega)) rfl rfl
    (show ¬ 7 ≤ 0 by decide) (fun hw => pred_ne _ (and_left hw)) ?_
  show pickQueue r = .ok (.qpopX p wait d a imm)
  dsimp only [r] at h0 ⊢
  delta pickQueue
  simp only [ofByte_toByte, predOf, Raw.p, h0]
theorem qpushL (p : Pred) (o : Fin 8) (a : Opnd) : Statement (.qpushL p o a) := by
  have := o.isLt
  let r : Raw := ⟨.L, 36, 1, p.toNat, 0, a.toByte, 0, 0, o.val, 0⟩
  have h0 : Raw.bits r 0 3 = o.val := by dsimp only [r, Raw.bits]; omega
  refine said (r := r) rfl (fits_l (by decide) (by decide) (pred_lt p) (by decide) (toByte_lt a) (by decide) (by decide) (by omega)) rfl rfl
    (show ¬ 7 ≤ 1 by decide) (fun hw => pred_ne _ (and_left hw)) ?_
  show pickQueue r = .ok (.qpushL p o a)
  dsimp only [r] at h0 ⊢
  delta pickQueue
  simp only [ofByte_toByte, predOf, Raw.p, h0, fin_self, bind, Except.bind]
theorem qpushX (p : Pred) (o : Fin 8) (a : Opnd) (imm : Word) : Statement (.qpushX p o a imm) := by
  have := o.isLt
  let r : Raw := ⟨.X, 36, 1, p.toNat, 0, a.toByte, 0, 0, o.val, imm⟩
  have h0 : Raw.bits r 0 3 = o.val := by dsimp only [r, Raw.bits]; omega
  refine said (r := r) rfl (fits_x (by decide) (by decide) (pred_lt p) (by decide) (toByte_lt a) (by decide) (by decide) (by omega)) rfl rfl
    (show ¬ 7 ≤ 1 by decide) (fun hw => pred_ne _ (and_left hw)) ?_
  show pickQueue r = .ok (.qpushX p o a imm)
  dsimp only [r] at h0 ⊢
  delta pickQueue
  simp only [ofByte_toByte, predOf, Raw.p, h0, fin_self, bind, Except.bind]
theorem qpushsL (p : Pred) (o : Fin 8) (a : Opnd) (b : Opnd) : Statement (.qpushsL p o a b) := by
  have := o.isLt
  let r : Raw := ⟨.L, 36, 2, p.toNat, 0, a.toByte, b.toByte, 0, o.val, 0⟩
  have h0 : Raw.bits r 0 3 = o.val := by dsimp only [r, Raw.bits]; omega
  refine said (r := r) rfl (fits_l (by decide) (by decide) (pred_lt p) (by decide) (toByte_lt a) (toByte_lt b) (by decide) (by omega)) rfl rfl
    (show ¬ 7 ≤ 2 by decide) (fun hw => pred_ne _ (and_left hw)) ?_
  show pickQueue r = .ok (.qpushsL p o a b)
  dsimp only [r] at h0 ⊢
  delta pickQueue
  simp only [ofByte_toByte, predOf, Raw.p, h0, fin_self, bind, Except.bind]
theorem qpushsX (p : Pred) (o : Fin 8) (a : Opnd) (b : Opnd) (imm : Word) : Statement (.qpushsX p o a b imm) := by
  have := o.isLt
  let r : Raw := ⟨.X, 36, 2, p.toNat, 0, a.toByte, b.toByte, 0, o.val, imm⟩
  have h0 : Raw.bits r 0 3 = o.val := by dsimp only [r, Raw.bits]; omega
  refine said (r := r) rfl (fits_x (by decide) (by decide) (pred_lt p) (by decide) (toByte_lt a) (toByte_lt b) (by decide) (by omega)) rfl rfl
    (show ¬ 7 ≤ 2 by decide) (fun hw => pred_ne _ (and_left hw)) ?_
  show pickQueue r = .ok (.qpushsX p o a b imm)
  dsimp only [r] at h0 ⊢
  delta pickQueue
  simp only [ofByte_toByte, predOf, Raw.p, h0, fin_self, bind, Except.bind]
theorem qdone (p : Pred) : Statement (.qdone p) := by
  let r : Raw := ⟨.L, 36, 3, p.toNat, 0, 0, 0, 0, 0, 0⟩
  refine said (r := r) rfl (fits_l (by decide) (by decide) (pred_lt p) (by decide) (by decide) (by decide) (by decide) (by decide)) rfl rfl
    (show ¬ 7 ≤ 3 by decide) (fun hw => pred_ne _ hw) ?_
  show pickQueue r = .ok (.qdone p)
  dsimp only [r]
  delta pickQueue
  simp only [predOf, Raw.p]
theorem qlen (p : Pred) (sel : Fin 9) (d : Opnd) : Statement (.qlen p sel d) := by
  have := sel.isLt
  let r : Raw := ⟨.L, 36, 4, p.toNat, d.toByte, 0, 0, 0, sel.val, 0⟩
  have h0 : Raw.bits r 0 4 = sel.val := by dsimp only [r, Raw.bits]; omega
  refine said (r := r) rfl (fits_l (by decide) (by decide) (pred_lt p) (toByte_lt d) (by decide) (by decide) (by decide) (by omega)) rfl rfl
    (show ¬ 7 ≤ 4 by decide) (fun hw => pred_ne _ (and_left hw)) ?_
  show pickQueue r = .ok (.qlen p sel d)
  dsimp only [r] at h0 ⊢
  delta pickQueue
  simp only [ofByte_toByte, predOf, Raw.p, h0, fin_self, bind, Except.bind]
theorem qseedL (p : Pred) (o : Fin 8) (d : Opnd) (a : Opnd) (b : Opnd) (c : Opnd) : Statement (.qseedL p o d a b c) := by
  have := o.isLt
  let r : Raw := ⟨.L, 36, 5, p.toNat, d.toByte, a.toByte, b.toByte, c.toByte, o.val, 0⟩
  have h0 : Raw.bits r 0 3 = o.val := by dsimp only [r, Raw.bits]; omega
  refine said (r := r) rfl (fits_l (by decide) (by decide) (pred_lt p) (toByte_lt d) (toByte_lt a) (toByte_lt b) (toByte_lt c) (by omega)) rfl rfl
    (show ¬ 7 ≤ 5 by decide) (fun hw => pred_ne _ (and_left hw)) ?_
  show pickQueue r = .ok (.qseedL p o d a b c)
  dsimp only [r] at h0 ⊢
  delta pickQueue
  simp only [ofByte_toByte, predOf, Raw.p, h0, fin_self, bind, Except.bind]
theorem qseedX (p : Pred) (o : Fin 8) (d : Opnd) (a : Opnd) (b : Opnd) (c : Opnd) (imm : Word) : Statement (.qseedX p o d a b c imm) := by
  have := o.isLt
  let r : Raw := ⟨.X, 36, 5, p.toNat, d.toByte, a.toByte, b.toByte, c.toByte, o.val, imm⟩
  have h0 : Raw.bits r 0 3 = o.val := by dsimp only [r, Raw.bits]; omega
  refine said (r := r) rfl (fits_x (by decide) (by decide) (pred_lt p) (toByte_lt d) (toByte_lt a) (toByte_lt b) (toByte_lt c) (by omega)) rfl rfl
    (show ¬ 7 ≤ 5 by decide) (fun hw => pred_ne _ (and_left hw)) ?_
  show pickQueue r = .ok (.qseedX p o d a b c imm)
  dsimp only [r] at h0 ⊢
  delta pickQueue
  simp only [ofByte_toByte, predOf, Raw.p, h0, fin_self, bind, Except.bind]
theorem qctlSetq (p : Pred) (d : Opnd) (a : Opnd) (b : Opnd) (c : Opnd) : Statement (.qctlSetq p d a b c) := by
  let r : Raw := ⟨.L, 36, 6, p.toNat, d.toByte, a.toByte, b.toByte, c.toByte, 0, 0⟩
  refine said (r := r) rfl (fits_l (by decide) (by decide) (pred_lt p) (toByte_lt d) (toByte_lt a) (toByte_lt b) (toByte_lt c) (by decide)) rfl rfl
    (show ¬ 7 ≤ 6 by decide) (fun hw => pred_ne _ (and_left hw)) ?_
  show pickQueue r = .ok (.qctlSetq p d a b c)
  dsimp only [r]
  delta pickQueue
  simp only [ofByte_toByte, predOf, Raw.p]
theorem qctlSets (p : Pred) (d : Opnd) (a : Opnd) (b : Opnd) (c : Opnd) : Statement (.qctlSets p d a b c) := by
  let r : Raw := ⟨.L, 36, 6, p.toNat, d.toByte, a.toByte, b.toByte, c.toByte, 1, 0⟩
  refine said (r := r) rfl (fits_l (by decide) (by decide) (pred_lt p) (toByte_lt d) (toByte_lt a) (toByte_lt b) (toByte_lt c) (by decide)) rfl rfl
    (show ¬ 7 ≤ 6 by decide) (fun hw => pred_ne _ (and_left hw)) ?_
  show pickQueue r = .ok (.qctlSets p d a b c)
  dsimp only [r]
  delta pickQueue
  simp only [ofByte_toByte, predOf, Raw.p]
theorem qctlBind (p : Pred) (d : Opnd) (a : Opnd) (b : Opnd) (c : Opnd) : Statement (.qctlBind p d a b c) := by
  let r : Raw := ⟨.L, 36, 6, p.toNat, d.toByte, a.toByte, b.toByte, c.toByte, 2, 0⟩
  refine said (r := r) rfl (fits_l (by decide) (by decide) (pred_lt p) (toByte_lt d) (toByte_lt a) (toByte_lt b) (toByte_lt c) (by decide)) rfl rfl
    (show ¬ 7 ≤ 6 by decide) (fun hw => pred_ne _ (and_left hw)) ?_
  show pickQueue r = .ok (.qctlBind p d a b c)
  dsimp only [r]
  delta pickQueue
  simp only [ofByte_toByte, predOf, Raw.p]
theorem qctlUnbind (p : Pred) (d : Opnd) (a : Opnd) (b : Opnd) (c : Opnd) : Statement (.qctlUnbind p d a b c) := by
  let r : Raw := ⟨.L, 36, 6, p.toNat, d.toByte, a.toByte, b.toByte, c.toByte, 3, 0⟩
  refine said (r := r) rfl (fits_l (by decide) (by decide) (pred_lt p) (toByte_lt d) (toByte_lt a) (toByte_lt b) (toByte_lt c) (by decide)) rfl rfl
    (show ¬ 7 ≤ 6 by decide) (fun hw => pred_ne _ (and_left hw)) ?_
  show pickQueue r = .ok (.qctlUnbind p d a b c)
  dsimp only [r]
  delta pickQueue
  simp only [ofByte_toByte, predOf, Raw.p]
theorem qctlStat (p : Pred) (d : Opnd) (a : Opnd) (b : Opnd) (c : Opnd) : Statement (.qctlStat p d a b c) := by
  let r : Raw := ⟨.L, 36, 6, p.toNat, d.toByte, a.toByte, b.toByte, c.toByte, 4, 0⟩
  refine said (r := r) rfl (fits_l (by decide) (by decide) (pred_lt p) (toByte_lt d) (toByte_lt a) (toByte_lt b) (toByte_lt c) (by decide)) rfl rfl
    (show ¬ 7 ≤ 6 by decide) (fun hw => pred_ne _ (and_left hw)) ?_
  show pickQueue r = .ok (.qctlStat p d a b c)
  dsimp only [r]
  delta pickQueue
  simp only [ofByte_toByte, predOf, Raw.p]
theorem qctlStop (p : Pred) (d : Opnd) (a : Opnd) (b : Opnd) (c : Opnd) : Statement (.qctlStop p d a b c) := by
  let r : Raw := ⟨.L, 36, 6, p.toNat, d.toByte, a.toByte, b.toByte, c.toByte, 5, 0⟩
  refine said (r := r) rfl (fits_l (by decide) (by decide) (pred_lt p) (toByte_lt d) (toByte_lt a) (toByte_lt b) (toByte_lt c) (by decide)) rfl rfl
    (show ¬ 7 ≤ 6 by decide) (fun hw => pred_ne _ (and_left hw)) ?_
  show pickQueue r = .ok (.qctlStop p d a b c)
  dsimp only [r]
  delta pickQueue
  simp only [ofByte_toByte, predOf, Raw.p]
theorem qctlStart (p : Pred) (d : Opnd) (a : Opnd) (b : Opnd) (c : Opnd) : Statement (.qctlStart p d a b c) := by
  let r : Raw := ⟨.L, 36, 6, p.toNat, d.toByte, a.toByte, b.toByte, c.toByte, 6, 0⟩
  refine said (r := r) rfl (fits_l (by decide) (by decide) (pred_lt p) (toByte_lt d) (toByte_lt a) (toByte_lt b) (toByte_lt c) (by decide)) rfl rfl
    (show ¬ 7 ≤ 6 by decide) (fun hw => pred_ne _ (and_left hw)) ?_
  show pickQueue r = .ok (.qctlStart p d a b c)
  dsimp only [r]
  delta pickQueue
  simp only [ofByte_toByte, predOf, Raw.p]
theorem qctlClear (p : Pred) (d : Opnd) (a : Opnd) (b : Opnd) (c : Opnd) : Statement (.qctlClear p d a b c) := by
  let r : Raw := ⟨.L, 36, 6, p.toNat, d.toByte, a.toByte, b.toByte, c.toByte, 7, 0⟩
  refine said (r := r) rfl (fits_l (by decide) (by decide) (pred_lt p) (toByte_lt d) (toByte_lt a) (toByte_lt b) (toByte_lt c) (by decide)) rfl rfl
    (show ¬ 7 ≤ 6 by decide) (fun hw => pred_ne _ (and_left hw)) ?_
  show pickQueue r = .ok (.qctlClear p d a b c)
  dsimp only [r]
  delta pickQueue
  simp only [ofByte_toByte, predOf, Raw.p]
theorem fstatPort (p : Pred) (d : Opnd) (a : Opnd) : Statement (.fstatPort p d a) := by
  let r : Raw := ⟨.L, 40, 0, p.toNat, d.toByte, a.toByte, 0, 0, 0, 0⟩
  refine said (r := r) rfl (fits_l (by decide) (by decide) (pred_lt p) (toByte_lt d) (toByte_lt a) (by decide) (by decide) (by decide)) rfl rfl
    (show ¬ 4 ≤ 0 by decide) (fun hw => pred_ne _ (and_left hw)) ?_
  show pickFabric r = .ok (.fstatPort p d a)
  dsimp only [r]
  delta pickFabric
  simp only [ofByte_toByte, predOf, Raw.p]
theorem fstatRoute (p : Pred) (d : Opnd) (a : Opnd) : Statement (.fstatRoute p d a) := by
  let r : Raw := ⟨.L, 40, 0, p.toNat, d.toByte, a.toByte, 0, 0, 1, 0⟩
  refine said (r := r) rfl (fits_l (by decide) (by decide) (pred_lt p) (toByte_lt d) (toByte_lt a) (by decide) (by decide) (by decide)) rfl rfl
    (show ¬ 4 ≤ 0 by decide) (fun hw => pred_ne _ (and_left hw)) ?_
  show pickFabric r = .ok (.fstatRoute p d a)
  dsimp only [r]
  delta pickFabric
  simp only [ofByte_toByte, predOf, Raw.p]
theorem fstatMirror (p : Pred) (d : Opnd) (a : Opnd) : Statement (.fstatMirror p d a) := by
  let r : Raw := ⟨.L, 40, 0, p.toNat, d.toByte, a.toByte, 0, 0, 2, 0⟩
  refine said (r := r) rfl (fits_l (by decide) (by decide) (pred_lt p) (toByte_lt d) (toByte_lt a) (by decide) (by decide) (by decide)) rfl rfl
    (show ¬ 4 ≤ 0 by decide) (fun hw => pred_ne _ (and_left hw)) ?_
  show pickFabric r = .ok (.fstatMirror p d a)
  dsimp only [r]
  delta pickFabric
  simp only [ofByte_toByte, predOf, Raw.p]
theorem fstatTokens (p : Pred) (d : Opnd) (a : Opnd) : Statement (.fstatTokens p d a) := by
  let r : Raw := ⟨.L, 40, 0, p.toNat, d.toByte, a.toByte, 0, 0, 3, 0⟩
  refine said (r := r) rfl (fits_l (by decide) (by decide) (pred_lt p) (toByte_lt d) (toByte_lt a) (by decide) (by decide) (by decide)) rfl rfl
    (show ¬ 4 ≤ 0 by decide) (fun hw => pred_ne _ (and_left hw)) ?_
  show pickFabric r = .ok (.fstatTokens p d a)
  dsimp only [r]
  delta pickFabric
  simp only [ofByte_toByte, predOf, Raw.p]
theorem fstatRto (p : Pred) (d : Opnd) (a : Opnd) : Statement (.fstatRto p d a) := by
  let r : Raw := ⟨.L, 40, 0, p.toNat, d.toByte, a.toByte, 0, 0, 4, 0⟩
  refine said (r := r) rfl (fits_l (by decide) (by decide) (pred_lt p) (toByte_lt d) (toByte_lt a) (by decide) (by decide) (by decide)) rfl rfl
    (show ¬ 4 ≤ 0 by decide) (fun hw => pred_ne _ (and_left hw)) ?_
  show pickFabric r = .ok (.fstatRto p d a)
  dsimp only [r]
  delta pickFabric
  simp only [ofByte_toByte, predOf, Raw.p]
theorem fclr (p : Pred) (psn : Bool) (d : Opnd) : Statement (.fclr p psn d) := by
  have := lt_Bool psn
  let r : Raw := ⟨.L, 40, 1, p.toNat, d.toByte, 0, 0, 0, psn.toNat, 0⟩
  have h0 : Raw.bit r 0 = psn := by exact of_Bool _ _ (by dsimp only [r]; omega)
  refine said (r := r) rfl (fits_l (by decide) (by decide) (pred_lt p) (toByte_lt d) (by decide) (by decide) (by decide) (by omega)) rfl rfl
    (show ¬ 4 ≤ 1 by decide) (fun hw => pred_ne _ (and_left hw)) ?_
  show pickFabric r = .ok (.fclr p psn d)
  dsimp only [r] at h0 ⊢
  delta pickFabric
  simp only [ofByte_toByte, predOf, Raw.p, h0]
theorem ftok (fld : Fin 5) (rd : Bool) (d : Opnd) (a : Opnd) (b : Opnd) (c : Opnd) : Statement (.ftok fld rd d a b c) := by
  have := fld.isLt; have := lt_Bool rd
  let r : Raw := ⟨.L, 40, 2, 0, d.toByte, a.toByte, b.toByte, c.toByte, fld.val + rd.toNat * 8, 0⟩
  have h0 : Raw.bits r 0 3 = fld.val := by dsimp only [r, Raw.bits]; omega
  have h1 : Raw.bit r 3 = rd := by exact of_Bool _ _ (by dsimp only [r]; omega)
  refine said (r := r) rfl (fits_l (by decide) (by decide) (by decide) (toByte_lt d) (toByte_lt a) (toByte_lt b) (toByte_lt c) (by omega)) rfl rfl
    (show ¬ 4 ≤ 2 by decide) (fun _ => (show 0 ≠ 8 by decide)) ?_
  show pickFabric r = .ok (.ftok fld rd d a b c)
  dsimp only [r] at h0 h1 ⊢
  delta pickFabric
  simp only [ofByte_toByte, h0, fin_self, h1, bind, Except.bind]
theorem flinkPort (d : Opnd) (a : Opnd) (b : Opnd) (c : Opnd) : Statement (.flinkPort d a b c) := by
  let r : Raw := ⟨.L, 40, 3, 0, d.toByte, a.toByte, b.toByte, c.toByte, 0, 0⟩
  refine said (r := r) rfl (fits_l (by decide) (by decide) (by decide) (toByte_lt d) (toByte_lt a) (toByte_lt b) (toByte_lt c) (by decide)) rfl rfl
    (show ¬ 4 ≤ 3 by decide) (fun _ => (show 0 ≠ 8 by decide)) ?_
  show pickFabric r = .ok (.flinkPort d a b c)
  dsimp only [r]
  delta pickFabric
  simp only [ofByte_toByte]
theorem flinkRoute (d : Opnd) (a : Opnd) (b : Opnd) (c : Opnd) : Statement (.flinkRoute d a b c) := by
  let r : Raw := ⟨.L, 40, 3, 0, d.toByte, a.toByte, b.toByte, c.toByte, 1, 0⟩
  refine said (r := r) rfl (fits_l (by decide) (by decide) (by decide) (toByte_lt d) (toByte_lt a) (toByte_lt b) (toByte_lt c) (by decide)) rfl rfl
    (show ¬ 4 ≤ 3 by decide) (fun _ => (show 0 ≠ 8 by decide)) ?_
  show pickFabric r = .ok (.flinkRoute d a b c)
  dsimp only [r]
  delta pickFabric
  simp only [ofByte_toByte]
theorem flinkKey (d : Opnd) (a : Opnd) (b : Opnd) (c : Opnd) : Statement (.flinkKey d a b c) := by
  let r : Raw := ⟨.L, 40, 3, 0, d.toByte, a.toByte, b.toByte, c.toByte, 2, 0⟩
  refine said (r := r) rfl (fits_l (by decide) (by decide) (by decide) (toByte_lt d) (toByte_lt a) (toByte_lt b) (toByte_lt c) (by decide)) rfl rfl
    (show ¬ 4 ≤ 3 by decide) (fun _ => (show 0 ≠ 8 by decide)) ?_
  show pickFabric r = .ok (.flinkKey d a b c)
  dsimp only [r]
  delta pickFabric
  simp only [ofByte_toByte]
theorem flinkMirror (d : Opnd) (a : Opnd) (b : Opnd) (c : Opnd) : Statement (.flinkMirror d a b c) := by
  let r : Raw := ⟨.L, 40, 3, 0, d.toByte, a.toByte, b.toByte, c.toByte, 3, 0⟩
  refine said (r := r) rfl (fits_l (by decide) (by decide) (by decide) (toByte_lt d) (toByte_lt a) (toByte_lt b) (toByte_lt c) (by decide)) rfl rfl
    (show ¬ 4 ≤ 3 by decide) (fun _ => (show 0 ≠ 8 by decide)) ?_
  show pickFabric r = .ok (.flinkMirror d a b c)
  dsimp only [r]
  delta pickFabric
  simp only [ofByte_toByte]
theorem flinkUnmirror (d : Opnd) (a : Opnd) (b : Opnd) (c : Opnd) : Statement (.flinkUnmirror d a b c) := by
  let r : Raw := ⟨.L, 40, 3, 0, d.toByte, a.toByte, b.toByte, c.toByte, 4, 0⟩
  refine said (r := r) rfl (fits_l (by decide) (by decide) (by decide) (toByte_lt d) (toByte_lt a) (toByte_lt b) (toByte_lt c) (by decide)) rfl rfl
    (show ¬ 4 ≤ 3 by decide) (fun _ => (show 0 ≠ 8 by decide)) ?_
  show pickFabric r = .ok (.flinkUnmirror d a b c)
  dsimp only [r]
  delta pickFabric
  simp only [ofByte_toByte]
theorem flinkGrant (d : Opnd) (a : Opnd) (b : Opnd) (c : Opnd) : Statement (.flinkGrant d a b c) := by
  let r : Raw := ⟨.L, 40, 3, 0, d.toByte, a.toByte, b.toByte, c.toByte, 5, 0⟩
  refine said (r := r) rfl (fits_l (by decide) (by decide) (by decide) (toByte_lt d) (toByte_lt a) (toByte_lt b) (toByte_lt c) (by decide)) rfl rfl
    (show ¬ 4 ≤ 3 by decide) (fun _ => (show 0 ≠ 8 by decide)) ?_
  show pickFabric r = .ok (.flinkGrant d a b c)
  dsimp only [r]
  delta pickFabric
  simp only [ofByte_toByte]
theorem flinkRevoke (d : Opnd) (a : Opnd) (b : Opnd) (c : Opnd) : Statement (.flinkRevoke d a b c) := by
  let r : Raw := ⟨.L, 40, 3, 0, d.toByte, a.toByte, b.toByte, c.toByte, 6, 0⟩
  refine said (r := r) rfl (fits_l (by decide) (by decide) (by decide) (toByte_lt d) (toByte_lt a) (toByte_lt b) (toByte_lt c) (by decide)) rfl rfl
    (show ¬ 4 ≤ 3 by decide) (fun _ => (show 0 ≠ 8 by decide)) ?_
  show pickFabric r = .ok (.flinkRevoke d a b c)
  dsimp only [r]
  delta pickFabric
  simp only [ofByte_toByte]
theorem flinkSetid (d : Opnd) (a : Opnd) (b : Opnd) (c : Opnd) : Statement (.flinkSetid d a b c) := by
  let r : Raw := ⟨.L, 40, 3, 0, d.toByte, a.toByte, b.toByte, c.toByte, 7, 0⟩
  refine said (r := r) rfl (fits_l (by decide) (by decide) (by decide) (toByte_lt d) (toByte_lt a) (toByte_lt b) (toByte_lt c) (by decide)) rfl rfl
    (show ¬ 4 ≤ 3 by decide) (fun _ => (show 0 ≠ 8 by decide)) ?_
  show pickFabric r = .ok (.flinkSetid d a b c)
  dsimp only [r]
  delta pickFabric
  simp only [ofByte_toByte]
theorem tswap (p : Pred) (up : Bool) (d : Opnd) (a : Opnd) (b : Opnd) : Statement (.tswap p up d a b) := by
  have := lt_Bool up
  let r : Raw := ⟨.L, 44, 0, p.toNat, d.toByte, a.toByte, b.toByte, 0, up.toNat, 0⟩
  have h0 : Raw.bit r 0 = up := by exact of_Bool _ _ (by dsimp only [r]; omega)
  refine said (r := r) rfl (fits_l (by decide) (by decide) (pred_lt p) (toByte_lt d) (toByte_lt a) (toByte_lt b) (by decide) (by omega)) rfl rfl
    (show ¬ 7 ≤ 0 by decide) (fun hw => pred_ne _ (and_left hw)) ?_
  show pickTier r = .ok (.tswap p up d a b)
  dsimp only [r] at h0 ⊢
  delta pickTier
  simp only [ofByte_toByte, predOf, Raw.p, h0]
theorem tpinL (p : Pred) (d : Opnd) (a : Opnd) (b : Opnd) : Statement (.tpinL p d a b) := by
  let r : Raw := ⟨.L, 44, 1, p.toNat, d.toByte, a.toByte, b.toByte, 0, 0, 0⟩
  refine said (r := r) rfl (fits_l (by decide) (by decide) (pred_lt p) (toByte_lt d) (toByte_lt a) (toByte_lt b) (by decide) (by decide)) rfl rfl
    (show ¬ 7 ≤ 1 by decide) (fun hw => pred_ne _ (and_left hw)) ?_
  show pickTier r = .ok (.tpinL p d a b)
  dsimp only [r]
  delta pickTier
  simp only [ofByte_toByte, predOf, Raw.p]
theorem tpinX (p : Pred) (d : Opnd) (a : Opnd) (b : Opnd) (imm : Word) : Statement (.tpinX p d a b imm) := by
  let r : Raw := ⟨.X, 44, 1, p.toNat, d.toByte, a.toByte, b.toByte, 0, 0, imm⟩
  refine said (r := r) rfl (fits_x (by decide) (by decide) (pred_lt p) (toByte_lt d) (toByte_lt a) (toByte_lt b) (by decide) (by decide)) rfl rfl
    (show ¬ 7 ≤ 1 by decide) (fun hw => pred_ne _ (and_left hw)) ?_
  show pickTier r = .ok (.tpinX p d a b imm)
  dsimp only [r]
  delta pickTier
  simp only [ofByte_toByte, predOf, Raw.p]
theorem tunpinL (p : Pred) (d : Opnd) (a : Opnd) (b : Opnd) : Statement (.tunpinL p d a b) := by
  let r : Raw := ⟨.L, 44, 2, p.toNat, d.toByte, a.toByte, b.toByte, 0, 0, 0⟩
  refine said (r := r) rfl (fits_l (by decide) (by decide) (pred_lt p) (toByte_lt d) (toByte_lt a) (toByte_lt b) (by decide) (by decide)) rfl rfl
    (show ¬ 7 ≤ 2 by decide) (fun hw => pred_ne _ (and_left hw)) ?_
  show pickTier r = .ok (.tunpinL p d a b)
  dsimp only [r]
  delta pickTier
  simp only [ofByte_toByte, predOf, Raw.p]
theorem tunpinX (p : Pred) (d : Opnd) (a : Opnd) (b : Opnd) (imm : Word) : Statement (.tunpinX p d a b imm) := by
  let r : Raw := ⟨.X, 44, 2, p.toNat, d.toByte, a.toByte, b.toByte, 0, 0, imm⟩
  refine said (r := r) rfl (fits_x (by decide) (by decide) (pred_lt p) (toByte_lt d) (toByte_lt a) (toByte_lt b) (by decide) (by decide)) rfl rfl
    (show ¬ 7 ≤ 2 by decide) (fun hw => pred_ne _ (and_left hw)) ?_
  show pickTier r = .ok (.tunpinX p d a b imm)
  dsimp only [r]
  delta pickTier
  simp only [ofByte_toByte, predOf, Raw.p]
theorem tresL (p : Pred) (d : Opnd) (a : Opnd) (b : Opnd) : Statement (.tresL p d a b) := by
  let r : Raw := ⟨.L, 44, 3, p.toNat, d.toByte, a.toByte, b.toByte, 0, 0, 0⟩
  refine said (r := r) rfl (fits_l (by decide) (by decide) (pred_lt p) (toByte_lt d) (toByte_lt a) (toByte_lt b) (by decide) (by decide)) rfl rfl
    (show ¬ 7 ≤ 3 by decide) (fun hw => pred_ne _ (and_left hw)) ?_
  show pickTier r = .ok (.tresL p d a b)
  dsimp only [r]
  delta pickTier
  simp only [ofByte_toByte, predOf, Raw.p]
theorem tresX (p : Pred) (d : Opnd) (a : Opnd) (b : Opnd) (imm : Word) : Statement (.tresX p d a b imm) := by
  let r : Raw := ⟨.X, 44, 3, p.toNat, d.toByte, a.toByte, b.toByte, 0, 0, imm⟩
  refine said (r := r) rfl (fits_x (by decide) (by decide) (pred_lt p) (toByte_lt d) (toByte_lt a) (toByte_lt b) (by decide) (by decide)) rfl rfl
    (show ¬ 7 ≤ 3 by decide) (fun hw => pred_ne _ (and_left hw)) ?_
  show pickTier r = .ok (.tresX p d a b imm)
  dsimp only [r]
  delta pickTier
  simp only [ofByte_toByte, predOf, Raw.p]
theorem tresStage (p : Pred) (d : Opnd) (a : Opnd) (b : Opnd) (c : Opnd) : Statement (.tresStage p d a b c) := by
  let r : Raw := ⟨.L, 44, 3, p.toNat, d.toByte, a.toByte, b.toByte, c.toByte, 1, 0⟩
  refine said (r := r) rfl (fits_l (by decide) (by decide) (pred_lt p) (toByte_lt d) (toByte_lt a) (toByte_lt b) (toByte_lt c) (by decide)) rfl rfl
    (show ¬ 7 ≤ 3 by decide) (fun hw => pred_ne _ (and_left hw)) ?_
  show pickTier r = .ok (.tresStage p d a b c)
  dsimp only [r]
  delta pickTier
  simp only [ofByte_toByte, predOf, Raw.p]
theorem twrecWs (p : Pred) (d : Opnd) (a : Opnd) (b : Opnd) : Statement (.twrecWs p d a b) := by
  let r : Raw := ⟨.L, 44, 4, p.toNat, d.toByte, a.toByte, b.toByte, 0, 0, 0⟩
  refine said (r := r) rfl (fits_l (by decide) (by decide) (pred_lt p) (toByte_lt d) (toByte_lt a) (toByte_lt b) (by decide) (by decide)) rfl rfl
    (show ¬ 7 ≤ 4 by decide) (fun hw => pred_ne _ (and_left hw)) ?_
  show pickTier r = .ok (.twrecWs p d a b)
  dsimp only [r]
  delta pickTier
  simp only [ofByte_toByte, predOf, Raw.p]
theorem twrecDeclare (p : Pred) (d : Opnd) (a : Opnd) (b : Opnd) : Statement (.twrecDeclare p d a b) := by
  let r : Raw := ⟨.L, 44, 4, p.toNat, d.toByte, a.toByte, b.toByte, 0, 1, 0⟩
  refine said (r := r) rfl (fits_l (by decide) (by decide) (pred_lt p) (toByte_lt d) (toByte_lt a) (toByte_lt b) (by decide) (by decide)) rfl rfl
    (show ¬ 7 ≤ 4 by decide) (fun hw => pred_ne _ (and_left hw)) ?_
  show pickTier r = .ok (.twrecDeclare p d a b)
  dsimp only [r]
  delta pickTier
  simp only [ofByte_toByte, predOf, Raw.p]
theorem twrecUndeclare (p : Pred) (d : Opnd) (a : Opnd) (b : Opnd) : Statement (.twrecUndeclare p d a b) := by
  let r : Raw := ⟨.L, 44, 4, p.toNat, d.toByte, a.toByte, b.toByte, 0, 2, 0⟩
  refine said (r := r) rfl (fits_l (by decide) (by decide) (pred_lt p) (toByte_lt d) (toByte_lt a) (toByte_lt b) (by decide) (by decide)) rfl rfl
    (show ¬ 7 ≤ 4 by decide) (fun hw => pred_ne _ (and_left hw)) ?_
  show pickTier r = .ok (.twrecUndeclare p d a b)
  dsimp only [r]
  delta pickTier
  simp only [ofByte_toByte, predOf, Raw.p]
theorem twrecDirty (p : Pred) (d : Opnd) (a : Opnd) (b : Opnd) : Statement (.twrecDirty p d a b) := by
  let r : Raw := ⟨.L, 44, 4, p.toNat, d.toByte, a.toByte, b.toByte, 0, 3, 0⟩
  refine said (r := r) rfl (fits_l (by decide) (by decide) (pred_lt p) (toByte_lt d) (toByte_lt a) (toByte_lt b) (by decide) (by decide)) rfl rfl
    (show ¬ 7 ≤ 4 by decide) (fun hw => pred_ne _ (and_left hw)) ?_
  show pickTier r = .ok (.twrecDirty p d a b)
  dsimp only [r]
  delta pickTier
  simp only [ofByte_toByte, predOf, Raw.p]
theorem haltc (p : Pred) (d : Opnd) (a : Opnd) (b : Opnd) : Statement (.haltc p d a b) := by
  let r : Raw := ⟨.L, 44, 5, p.toNat, d.toByte, a.toByte, b.toByte, 0, 0, 0⟩
  refine said (r := r) rfl (fits_l (by decide) (by decide) (pred_lt p) (toByte_lt d) (toByte_lt a) (toByte_lt b) (by decide) (by decide)) rfl rfl
    (show ¬ 7 ≤ 5 by decide) (fun hw => pred_ne _ (and_left hw)) ?_
  show pickTier r = .ok (.haltc p d a b)
  dsimp only [r]
  delta pickTier
  simp only [ofByte_toByte, predOf, Raw.p]
theorem haltcStop (p : Pred) (d : Opnd) (a : Opnd) (b : Opnd) : Statement (.haltcStop p d a b) := by
  let r : Raw := ⟨.L, 44, 5, p.toNat, d.toByte, a.toByte, b.toByte, 0, 1, 0⟩
  refine said (r := r) rfl (fits_l (by decide) (by decide) (pred_lt p) (toByte_lt d) (toByte_lt a) (toByte_lt b) (by decide) (by decide)) rfl rfl
    (show ¬ 7 ≤ 5 by decide) (fun hw => pred_ne _ (and_left hw)) ?_
  show pickTier r = .ok (.haltcStop p d a b)
  dsimp only [r]
  delta pickTier
  simp only [ofByte_toByte, predOf, Raw.p]
theorem resumec (p : Pred) (d : Opnd) (b : Opnd) : Statement (.resumec p d b) := by
  let r : Raw := ⟨.L, 44, 6, p.toNat, d.toByte, 0, b.toByte, 0, 0, 0⟩
  refine said (r := r) rfl (fits_l (by decide) (by decide) (pred_lt p) (toByte_lt d) (by decide) (toByte_lt b) (by decide) (by decide)) rfl rfl
    (show ¬ 7 ≤ 6 by decide) (fun hw => pred_ne _ (and_left hw)) ?_
  show pickTier r = .ok (.resumec p d b)
  dsimp only [r]
  delta pickTier
  simp only [ofByte_toByte, predOf, Raw.p]

end Sys2Proof.Laws.Coding
end

