-- ==== Sys2Proof/Laws/Result.lean ====
section
/-!
SUPPORT. What `View.compute` leaves in its destination and in AFLAGS, once for every instruction that computes lane by lane.
-/
namespace Sys2Proof.Machine

theorem vreg_setVreg (v : View) (n : Nat) (x : VReg) (h : n < 192) : (v.setVreg n x).vreg n = x := by
  simp only [View.vreg, View.setVreg, Gang.vreg, Gang.setVreg]
  cases hr : v.part.ring <;> by_cases h2 : 176 ≤ n <;> simp [bankedV, Gang.bank, Gang.setBank, h2]
  all_goals (apply vget_vset_self; omega)

theorem vreg_setVreg_ne (v : View) (n k : Nat) (x : VReg) (h : k < 192) (hn : k ≠ n) : (v.setVreg n x).vreg k = v.vreg k :=
  (v.setVreg_same n x).vregs k h (by simpa using hn)

theorem lane_upd (r : Row) (m : Word) (f : Nat → Word) (l : Nat) (h : l < 32) : Row.lane (Row.upd r m f) l = if m.getLsbD l then f l else Row.lane r l := by
  conv_lhs => unfold Row.lane
  simp [Row.upd, rowOf, vof, vget, List.getD_eq_getElem?_getD, h]

theorem evalLanes_flag (v : View) (q : Pred) (d : Opnd) (srcs : List Opnd) : v.evalLanes q d srcs = flagLanes v q d srcs := by
  unfold View.evalLanes flagLanes uniformLane View.uniLane
  by_cases h0 : v.act q = 0
  · by_cases h1 : d.uniDst = true ∨ d = .zero ∧ allUniform srcs = true
    · have h2 : (d.uniDst || d == .zero && allUniform srcs) = true := by simpa using h1
      simp only [h2, if_true, h0, h1]
      cases hq : (q.always && allUniform srcs) <;> simp [hq]
    · have h2 : (d.uniDst || d == .zero && allUniform srcs) = false := by simpa using h1
      simp only [h2, if_neg h1]
      simp
  · by_cases h1 : d.uniDst = true ∨ d = .zero ∧ allUniform srcs = true
    · have h2 : (d.uniDst || d == .zero && allUniform srcs) = true := by simpa using h1
      have h3 : (v.act q != 0) = true := by simpa using h0
      have h4 : (v.act q ≠ 0) = True := by simpa using h0
      simp only [h2, if_true, h1, h3, h4, Bool.true_or, if_neg h0, Option.toList]
    · have h2 : (d.uniDst || d == .zero && allUniform srcs) = false := by simpa using h1
      simp only [h2, if_neg h1]
      simp

theorem flags_setVreg (v : View) (n : Nat) (x : VReg) : (v.setVreg n x).part.aflags = v.part.aflags := rfl
theorem flags_setSreg (v : View) (n : Nat) (x : Word) : (v.setSreg n x).part.aflags = v.part.aflags := by
  unfold View.setSreg; split <;> rfl
theorem flags_wr32 (v : View) (d : Opnd) (ls : List Nat) (act : Word) (f : Nat → Word) : (v.wr32 d ls act f).part.aflags = v.part.aflags := by
  cases d with
  | v n => unfold View.wr32; dsimp only; split <;> rfl
  | s n => cases ls with
    | nil => rfl
    | cons l t => exact flags_setSreg ..
  | exec => cases ls <;> rfl
  | p n => cases ls <;> rfl
  | _ => rfl

theorem sreg_setSreg (v : View) (n : Nat) (x : Word) (h : n < 32) (hq : v.part.quads ≠ 0) : (v.setSreg n x).sreg n = x := by
  by_cases hb : bankedS v.part.ring n
  · have hn : 24 ≤ n := by simp [bankedS] at hb; exact hb.2
    have hl : lowQuad v.part.quads ∈ quadList v.part.quads := by
      unfold lowQuad
      cases hql : quadList v.part.quads with
      | nil =>
        exfalso; apply hq
        apply BitVec.eq_of_getLsbD_eq
        intro i hi
        simp only [quadList, List.filter_eq_nil_iff] at hql
        simpa using hql i (by simpa using hi)
      | cons a t => simp
    have key : ∀ (b : Vector Word 64) (qs : List Nat), (∀ q ∈ qs, q < 8) → lowQuad v.part.quads ∈ qs →
        vget (setBankS b qs (n - 24) x) (8 * lowQuad v.part.quads + (n - 24)) 0 = x := by
      intro b qs
      induction qs generalizing b with
      | nil => simp
      | cons q t ih =>
        intro hlt hm
        by_cases ht : lowQuad v.part.quads ∈ t
        · exact ih _ (fun p hp => hlt p (by simp [hp])) ht
        · have : lowQuad v.part.quads = q := by simpa [ht] using hm
          have h8 := hlt q (by simp)
          show vget (setBankS (vset b (8 * q + (n - 24)) x) t (n - 24) x) _ 0 = x
          have hne : ∀ p ∈ t, 8 * p + (n - 24) ≠ 8 * lowQuad v.part.quads + (n - 24) := by
            intro p hp e
            have hpq : p = lowQuad v.part.quads := by omega
            exact ht (hpq ▸ hp)
          rw [vget_setBankS _ _ _ _ _ hne, this]
          exact vget_vset_self _ _ _ _ (by omega)
    have h8 : ∀ q ∈ quadList v.part.quads, q < 8 := fun q hq => by
      simp only [quadList, List.mem_filter, List.mem_range] at hq; exact hq.1
    simp only [View.setSreg, if_pos hb, View.sreg]
    cases hr : v.part.ring <;> first | (simp [bankedS, hr] at hb; done) | skip
    all_goals
      exact key _ _ h8 hl
  · simp only [View.setSreg, if_neg hb, View.sreg]
    exact vget_vset_self _ _ _ _ h

theorem sreg_setSreg_ne (v : View) (n k : Nat) (x : Word) (h : n < 32) (hk : k < 32) (hn : k ≠ n) : (v.setSreg n x).sreg k = v.sreg k :=
  (v.setSreg_same n h x).sregs k hk (by simp; omega)

theorem quads_setSreg (v : View) (n : Nat) (x : Word) : (v.setSreg n x).part.quads = v.part.quads := by
  unfold View.setSreg; split <;> rfl

theorem flagLanes_uni {v : View} {q : Pred} {d : Opnd} {srcs : List Opnd} (h : d.uniDst = true) : flagLanes v q d srcs = (uniformLane v q srcs).toList := by
  simp [flagLanes, h]

theorem compute_narrow (v : View) (q : Pred) (d : Opnd) (srcs : List Opnd) (f : Nat → DWord × Flags) : v.compute q false d srcs f =
    (v.wr32 d (v.evalLanes q d srcs) (v.act q) fun l => (f l).1.lo).raiseFlags (orFlags ((v.evalLanes q d srcs).map fun l => (f l).2)) := rfl
theorem compute_wide (v : View) (q : Pred) (d : Opnd) (srcs : List Opnd) (f : Nat → DWord × Flags) : v.compute q true d srcs f =
    (v.wr64 d (v.evalLanes q d srcs) (v.act q) fun l => (f l).1).raiseFlags (orFlags ((v.evalLanes q d srcs).map fun l => (f l).2)) := rfl
theorem wr32_v (v : View) (n : Fin 192) (ls : List Nat) (act : Word) (f : Nat → Word) : v.wr32 (.v n) ls act f =
    if act = 0 then v else v.setVreg n.val ⟨Row.upd (v.vreg n.val).row act f, untypedTag⟩ := rfl
theorem next_v (n : Fin 192) (h : n.val + 1 < 192) : (Opnd.v n).next = .v ⟨n.val + 1, h⟩ := congrArg Opnd.v (Fin.ext (Nat.mod_eq_of_lt h))
theorem next_s (n : Fin 32) (h : n.val + 1 < 32) : (Opnd.s n).next = .s ⟨n.val + 1, h⟩ := congrArg Opnd.s (Fin.ext (Nat.mod_eq_of_lt h))
theorem next_x (n : Fin 8) (h : n.val + 1 < 8) : (Opnd.x n).next = .x ⟨n.val + 1, h⟩ := congrArg Opnd.x (Fin.ext (Nat.mod_eq_of_lt h))
theorem wr64_next (v : View) (d : Opnd) (hd : d ≠ .zero) (ls : List Nat) (act : Word) (f : Nat → DWord) : v.wr64 d ls act f =
    (v.wr32 d ls act fun l => (f l).lo).wr32 d.next ls act fun l => (f l).hi := by
  cases d <;> first | rfl | exact absurd rfl hd
theorem vreg_raise (v : View) (f : Flags) (n : Nat) : (v.raiseFlags f).vreg n = v.vreg n := rfl
theorem sreg_raise (v : View) (f : Flags) (n : Nat) : (v.raiseFlags f).sreg n = v.sreg n := rfl
theorem xreg_setX (v : View) (n : Nat) (h : n < 8) (m : Word) (f : Nat → Word) : (v.setX n m f).part.xreg n = Row.upd (v.part.xreg n) m f :=
  vget_vset_self _ _ _ _ h
theorem xreg_setX_ne (v : View) (n k : Nat) (h : n ≠ k) (m : Word) (f : Nat → Word) : (v.setX n m f).part.xreg k = v.part.xreg k :=
  vget_vset _ _ _ _ _ h
theorem xw_setX (v : View) (n : Nat) (h : n < 8) (m : Word) (f : Nat → Word) : vget (v.setX n m f).part.xw n 0 = vget v.part.xw n 0 ||| m :=
  vget_vset_self _ _ _ _ h
theorem xw_setX_ne (v : View) (n k : Nat) (h : n ≠ k) (m : Word) (f : Nat → Word) : vget (v.setX n m f).part.xw k 0 = vget v.part.xw k 0 :=
  vget_vset _ _ _ _ _ h

theorem compute_vector (q : Pred) (wide : Bool) (n : Fin 192) (srcs : List Opnd) (f : Nat → DWord × Flags) (v : View)
    (hw : wide = true → n.val + 1 < 192) (h0 : v.act q ≠ 0) (l : Nat) (hl : l < 32) :
    let w := v.compute q wide (.v n) srcs f
    (w.vreg n.val).tag = untypedTag ∧
    Row.lane (w.vreg n.val).row l = (if (v.act q).getLsbD l then (f l).1.lo else Row.lane (v.vreg n.val).row l) ∧
    (wide = true → (w.vreg (n.val + 1)).tag = untypedTag ∧
      Row.lane (w.vreg (n.val + 1)).row l = if (v.act q).getLsbD l then (f l).1.hi else Row.lane (v.vreg (n.val + 1)).row l) := by
  have hi := n.isLt
  cases wide
  · rw [compute_narrow, wr32_v, if_neg h0]
    dsimp only
    rw [vreg_raise, vreg_setVreg _ _ _ hi]
    exact ⟨rfl, lane_upd _ _ _ _ hl, fun h => by cases h⟩
  · have hn := hw rfl
    rw [compute_wide, wr64_next _ _ (fun h => by cases h), next_v n hn, wr32_v, wr32_v, if_neg h0, if_neg h0]
    dsimp only
    rw [vreg_raise, vreg_raise, vreg_setVreg _ _ _ hn, vreg_setVreg_ne _ _ _ _ hi (by omega), vreg_setVreg _ _ _ hi, vreg_setVreg_ne _ _ _ _ hn (by omega)]
    exact ⟨rfl, lane_upd _ _ _ _ hl, fun _ => ⟨rfl, lane_upd _ _ _ _ hl⟩⟩

theorem compute_temporary (q : Pred) (wide : Bool) (n : Fin 8) (srcs : List Opnd) (f : Nat → DWord × Flags) (v : View)
    (hw : wide = true → n.val + 1 < 8) (l : Nat) (hl : l < 32) :
    let w := v.compute q wide (.x n) srcs f
    Row.lane (w.part.xreg n.val) l = (if (v.act q).getLsbD l then (f l).1.lo else Row.lane (v.part.xreg n.val) l) ∧
    vget w.part.xw n.val 0 = vget v.part.xw n.val 0 ||| v.act q ∧
    (wide = true → Row.lane (w.part.xreg (n.val + 1)) l = (if (v.act q).getLsbD l then (f l).1.hi else Row.lane (v.part.xreg (n.val + 1)) l) ∧
      vget w.part.xw (n.val + 1) 0 = vget v.part.xw (n.val + 1) 0 ||| v.act q) := by
  have hi := n.isLt
  cases wide
  · have hx := xreg_setX v n.val hi (v.act q) fun l => (f l).1.lo
    refine ⟨?_, xw_setX v _ hi _ fun l => (f l).1.lo, fun h => by cases h⟩
    show Row.lane ((v.setX n.val (v.act q) fun l => (f l).1.lo).part.xreg n.val) l = _
    rw [hx]
    exact lane_upd _ _ _ _ hl
  · have hn := hw rfl
    rw [compute_wide, wr64_next _ _ (fun h => by cases h), next_x n hn]
    refine ⟨?_, ?_, fun _ => ⟨?_, ?_⟩⟩
    · show Row.lane (((v.setX n.val (v.act q) fun l => (f l).1.lo).setX (n.val + 1) (v.act q) fun l => (f l).1.hi).part.xreg n.val) l = _
      rw [xreg_setX_ne _ _ _ (by omega), xreg_setX _ _ hi, lane_upd _ _ _ _ hl]
    · show vget ((v.setX n.val (v.act q) fun l => (f l).1.lo).setX (n.val + 1) (v.act q) fun l => (f l).1.hi).part.xw n.val 0 = _
      rw [xw_setX_ne _ _ _ (by omega), xw_setX _ _ hi]
    · show Row.lane (((v.setX n.val (v.act q) fun l => (f l).1.lo).setX (n.val + 1) (v.act q) fun l => (f l).1.hi).part.xreg (n.val + 1)) l = _
      rw [xreg_setX _ _ hn, lane_upd _ _ _ _ hl, xreg_setX_ne _ _ _ (by omega)]
    · show vget ((v.setX n.val (v.act q) fun l => (f l).1.lo).setX (n.val + 1) (v.act q) fun l => (f l).1.hi).part.xw (n.val + 1) 0 = _
      rw [xw_setX _ _ hn, xw_setX_ne _ _ _ (by omega)]

theorem compute_scalar (q : Pred) (wide : Bool) (n : Fin 32) (srcs : List Opnd) (f : Nat → DWord × Flags) (v : View)
    (hw : wide = true → n.val + 1 < 32) (hq : v.part.quads ≠ 0) :
    let w := v.compute q wide (.s n) srcs f
    match uniformLane v q srcs with
    | some l => w.sreg n.val = (f l).1.lo ∧ (wide = true → w.sreg (n.val + 1) = (f l).1.hi)
    | none => w = v.raiseFlags 0 := by
  have hi := n.isLt
  have he := evalLanes_flag v q (.s n) srcs
  rw [flagLanes_uni rfl] at he
  cases hu : uniformLane v q srcs with
  | none =>
    rw [hu] at he
    cases wide
    · rw [compute_narrow, he]; rfl
    · rw [compute_wide, he]; rfl
  | some l =>
    rw [hu] at he
    cases wide
    · rw [compute_narrow, he]; exact ⟨sreg_setSreg v n.val _ hi hq, fun h => by cases h⟩
    · have hn := hw rfl
      rw [compute_wide, he, wr64_next _ _ (fun h => by cases h), next_s n hn]
      refine ⟨?_, fun _ => ?_⟩
      · show (View.setSreg (v.setSreg n.val _) (n.val + 1) _).sreg n.val = _
        rw [sreg_setSreg_ne _ _ _ _ hn hi (by omega), sreg_setSreg _ _ _ hi hq]
      · show (View.setSreg (v.setSreg n.val _) (n.val + 1) _).sreg (n.val + 1) = _
        rw [sreg_setSreg _ _ _ hn (by rw [quads_setSreg]; exact hq)]

theorem compute_result (q : Pred) (wide : Bool) (d : Opnd) (srcs : List Opnd) (f : Nat → DWord × Flags) (v : View) :
    LaneResult q wide d srcs f v (v.compute q wide d srcs f) := by
  have he := evalLanes_flag v q d srcs
  constructor
  · intro n hd hw h0 l hl
    subst hd
    exact compute_vector q wide n srcs f v hw h0 l hl
  · intro n hd h0 k hk
    subst hd
    cases wide
    · rw [compute_narrow, wr32_v, if_pos h0]; rfl
    · rw [compute_wide, wr64_next _ _ (fun h => by cases h), wr32_v, if_pos h0]
      show (View.wr32 v _ _ _ _).vreg k = _
      unfold Opnd.next
      rw [wr32_v, if_pos h0]
  · intro n hd hw l hl
    subst hd
    exact compute_temporary q wide n srcs f v hw l hl
  · intro n hd hw hq
    subst hd
    exact compute_scalar q wide n srcs f v hw hq
  · intro hd hw
    subst hd hw
    rw [flagLanes_uni rfl] at he
    rw [compute_narrow, he]
    cases hu : uniformLane v q srcs <;> rfl
  · intro n hd h0 hw
    subst hd hw
    rw [flagLanes_uni rfl] at he
    rw [compute_narrow, he]
    cases hu : uniformLane v q srcs with
    | none => rfl
    | some l =>
      show Part.preg { v.part with p := vset v.part.p n.val (f l).1.lo } n.val = _
      unfold Part.preg
      rw [if_neg h0]
      exact vget_vset_self _ _ _ _ n.isLt
  · intro hd
    subst hd
    cases wide
    · rw [compute_narrow, he]; rfl
    · rw [compute_wide, he]; rfl
  · cases wide
    · rw [compute_narrow, he]
      show (View.wr32 ..).part.aflags ||| _ = _
      rw [flags_wr32]
    · rw [compute_wide, he]
      show (View.wr64 ..).part.aflags ||| _ = _
      unfold View.wr64
      rw [flags_wr32, flags_wr32]

end Sys2Proof.Machine
end

