-- ==== Sys2Proof/Laws/Sections.lean ====
section
/-!
SUPPORT. What noting who is active on a section can do (R15, R561): it changes which recorded children stay halted and what the
tier engine has noted, and nothing else. A tier job uses a section's TLBs where its partition is active alone.
-/
namespace Sys2Proof.Machine

/-- Noting a section answers a state that differs in its partitions' recorded children and in the notes alone. -/
theorem State.noteSec_changes (s : State) (sec : Nat) :
    ∃ ps on, s.noteSec sec = { s with parts := ps, tier := { s.tier with onSecs := on } } := by
  unfold State.noteSec
  dsimp only
  split
  · exact ⟨s.parts, s.tier.onSecs, rfl⟩
  · cases s.onSec sec with
    | none => exact ⟨_, _, rfl⟩
    | some p => exact ⟨_, _, rfl⟩

theorem State.noteSec_cohorts (s : State) (sec : Nat) : (s.noteSec sec).cohorts = s.cohorts := by
  obtain ⟨ps, on, h⟩ := s.noteSec_changes sec; rw [h]

theorem State.noteSec_cycle (s : State) (sec : Nat) : (s.noteSec sec).cycle = s.cycle := by
  obtain ⟨ps, on, h⟩ := s.noteSec_changes sec; rw [h]

theorem State.noteSec_stage (s : State) (sec : Nat) : (s.noteSec sec).stage = s.stage := by
  obtain ⟨ps, on, h⟩ := s.noteSec_changes sec; rw [h]

/-- The slots of a core are what they were. -/
theorem State.noteSec_freeSlot (s : State) (sec core : Nat) : (s.noteSec sec).freeSlot core = s.freeSlot core := by
  simp only [State.freeSlot, State.noteSec_cohorts]

/-- A core may decide when it might before. -/
theorem State.noteSec_decideAt (s : State) (sec core : Nat) : (s.noteSec sec).decideAt core = s.decideAt core := by
  simp only [State.decideAt, State.noteSec_stage]

/-- The core whose TLBs and walker serve a job's partition has that partition active on its section (R15). -/
theorem State.jobCore_active {s : State} {w : Whose} {core : Nat} (h : s.jobCore w = some core) : s.onSec (core / 4) = some w.part := by
  unfold State.jobCore at h
  split at h
  next ha => rwa [← Option.some.inj h]
  next =>
    obtain ⟨k, hk, rfl⟩ := Option.map_eq_some_iff.mp h
    rw [Nat.mul_div_cancel_left k (by decide)]
    simpa using List.find?_some hk

/-- A physical access to a page under a tier move waits (R558). -/
theorem State.physical_underMove {s : State} {va : Nat} (h : s.underMove va = true) : s.physical va = .wait := by
  simp [State.physical, h]

end Sys2Proof.Machine
end

