-- ==== Sys2Proof/Laws/Shared.lean ====
section
/-!
SUPPORT. What barriers, answers, an instruction's own stores, jobs and matrix commands come to once their checks have passed.
-/
namespace Sys2Proof.Machine

theorem bar_pass {a : Opnd} {imm : Word} {t : State} {y : Ctx} (hm : y.v.imm = imm)
    (h : (∃ v k g, y.v.part.wait = .bar v k (some g)) ∧ Passed (barUnit a imm) t y.r) : barSem a t y = .fall t true := by
  subst hm
  obtain ⟨⟨v, k, g, hv⟩, p', v', k', g', h1, h2, h3⟩ := h
  simp only [barUnit] at h3
  simp only [barSem, hv, h1, Option.map_some, h2]
  simp only [h3, decide_true, if_true]

theorem bar_arr {a : Opnd} {imm : Word} {t : State} {y : Ctx} (hm : y.v.imm = imm)
    (h : (∀ v k g, y.v.part.wait ≠ .bar v k (some g)) ∧ Passed (barUnit a imm) (arrived a imm t y) y.r) : barSem a t y = .fall (arrived a imm t y) true := by
  subst hm
  obtain ⟨hv, p', v', k', g', h1, h2, h3⟩ := h
  simp only [barUnit] at h3
  unfold barSem
  dsimp only
  split
  · rename_i u' k' g' hh; exact absurd hh (hv _ _ _)
  · change (if (match ((arrived a y.v.imm t y).part? y.r).map (fun (p : Part) => p.wait) with | some (.bar _ _ (some g)) => decide (g < ((((arrived a y.v.imm t y).cohort? y.r.cohort).map fun c => c.barriers.getD ((if a == .imm then y.v.imm.toNat else 0) % 16) barrierIdle).getD barrierIdle).gen) | _ => false) = true then _ else _) = _
    rw [h1]
    simp only [Option.map_some, h2, h3, decide_true, if_true]
    rfl

theorem answers_of {i : Instr} {f : Form} {imm : Word} {p : Pred} {d : Opnd} {P : State → Ctx → Prop} {g : State → Ctx → State} {n : State → Ctx → Nat}
    (sem : Sem) (hi : ∀ s, exec i s = issue f imm sem s)
    (hs : ∀ t y, y.v.imm = imm → P t y → ∃ z : Ctx, z.v.imm = y.v.imm ∧ sem t y = (g t y).answer z p d (n t y)) :
    Answers i f imm p d P g n := by
  refine falls_of (c := true) sem hi (fun t y hm hp => ?_) (Bool.or_true _)
  obtain ⟨z, h1, h2⟩ := hs t y hm hp.1
  have e := ctx?_fresh (h1.trans hm) hp.2
  rw [h2]
  simp only [State.answer, State.replied, e]

@[simp] theorem Ctx.atRing_imm (x : Ctx) (r : Ring) : (x.atRing r).v.imm = x.v.imm := rfl
@[simp] theorem Ctx.atRing_id (x : Ctx) (r : Ring) : (x.atRing r).v.part.id = x.v.part.id := rfl
@[simp] theorem Ctx.atRing_r (x : Ctx) (r : Ring) : (x.atRing r).r = x.r := rfl
@[simp] theorem Ctx.atRing_c (x : Ctx) (r : Ring) : (x.atRing r).c = x.c := rfl

theorem fetched_imm (ring : Ring) (va : DWord) (n : Nat) (t : State) (y : Ctx) : (fetched ring va n t y).2.2.v.imm = y.v.imm := by
  simp only [fetched, fresh_imm, Ctx.atRing_imm]

theorem wordReached_imm (va : DWord) (t : State) (y : Ctx) : (wordReached va t y).2.v.imm = y.v.imm := by
  simp only [wordReached, fresh_imm]

theorem directStore_stored {ring : Ring} {va : DWord} {bs : List Byte} {t : State} {y : Ctx} (h : Puts ring va bs.length t y) (len : Nat) (act : Word)
    (k : State → Ctx → Done) :
    ∃ z : Ctx, z.v.imm = y.v.imm ∧ directStore ring len va bs act k t y = k (stored ring va bs t y) z := by
  obtain ⟨⟨h1, h2, h3, h4, h5, h6⟩, h7⟩ := h
  have h1' : y.v.part.pend = none := h1
  have hr : (found .glob howStore.own (fun z => directElems z va bs.length) t (y.atRing ring)).1.remote = false := remote_of_local h3 h6
  have hb : ((found .glob howStore.own (fun z => directElems z va bs.length) t (y.atRing ring)).1.ok.any fun p =>
      (found .glob howStore.own (fun z => directElems z va bs.length) t (y.atRing ring)).2.blocked (p.x.addr / 64) .write
        (some ((found .glob howStore.own (fun z => directElems z va bs.length) t (y.atRing ring)).2.fresh y).v.part.id)) = false := by
    simp only [List.any_eq_false]; intro p hp; simp [h7 p hp]
  have h5' : t.lost (found .glob howStore.own (fun z => directElems z va bs.length) t (y.atRing ring)).2 y.r = false := h5
  refine ⟨(stored ring va bs t y).fresh (((found .glob howStore.own (fun z => directElems z va bs.length) t (y.atRing ring)).2.fresh y).atRing ring), ?_, ?_⟩
  · rw [fresh_imm, Ctx.atRing_imm, fresh_imm]
  · simp only [stored, found] at *
    simp only [directStore, directGo, h1', Option.isSome_none, Bool.false_eq_true, if_false, h5', h3, h4, hr, faultOf, Bool.false_and, Ctx.atRing_id, hb]
    rfl

theorem wordReaches_found {va : DWord} {t : State} {y : Ctx} (h : WordReaches va t y) (stop : Bool) (p : Pred) (d a b : Opnd) (hv : y.v.base a = va)
    (ha : y.v.acts p = true) : haltcSem stop p d a b t y = (wordReached va t y).1.startJob (wordReached va t y).2 p d b false (y.job (.halt stop) 0 0 0 0 va) := by
  obtain ⟨h1, h2, h3, h4⟩ := h
  simp only [found] at *
  simp only [haltcSem, qctl, ha, hv, h1, h2, h3, h4, faultOf, if_true]
  simp [wordReached, found]

theorem startJob_starts {r : State × Ctx} {b : Opnd} {j : Job} (h : JobStarts r b j) (p : Pred) (d : Opnd) :
    r.1.startJob r.2 p d b false j = (jobStarted r b j).answer r.2 p d 0 := by
  obtain ⟨h1, k, h2, h3⟩ := h
  have : ¬ 8 ≤ (r.1.tier.jobs.filter fun k => k.owner == r.2.c.part).length := by omega
  simp only [State.startJob, this, h2, h3, jobStarted, Option.elim]
  simp

theorem matSem_ready {p : Pred} {t : State} {y : Ctx} (h : MatReady p y) (k : State → Ctx → Word → Done) : matSem p k t y = k t y (y.v.act p) := by
  obtain ⟨h1, h2⟩ := h
  unfold View.acts at h1
  have : ¬ 64 ≤ y.v.gang.counters.matrix := by omega
  simp only [matSem, h1, this, Bool.not_true, Bool.false_eq_true, if_false]

theorem rangeFault_fits {rs : List MatRange} (h : MatFits rs) (act : Word) (t : State) : rangeFault rs act t = none := by
  have h1 : (rs.any fun r => r.off % 64 != 0) = false := by
    simp only [List.any_eq_false]; intro r hr; simp [(h r hr).1]
  have h2 : (rs.find? fun r => !r.fits) = none := by
    rw [List.find?_eq_none]; intro r hr; simp [(h r hr).2]
  simp only [rangeFault, h1, h2, Bool.false_eq_true, if_false, Option.map_none]

theorem teamOf_ready {team : Bool} {t : State} {y : Ctx} (h : TeamReady team t y) (act : Word) (k : Option Cohort → Done) :
    t.teamOf y team act k = k (mate team t y) := by
  cases team
  · rfl
  · obtain ⟨h1, h2⟩ := h rfl
    obtain ⟨q, h2⟩ := Option.isSome_iff_exists.mp h2
    simp [State.teamOf, mate, h1, h2]

theorem mmaGo_ready {s : State} {x : Ctx} {act : Word} {reuse : Bool} {a : Opnd} {m : Nat} {rs : List MatRange} {rows : List VReg} {codes : List Nat}
    {k : TypeCode → TypeCode → Done} {fa fb : TypeCode} (h4 : reuse = true → x.v.gang.parts.length ≤ 1) (h5 : x.mmaLatchBad reuse a m = false) (h6 : MatFits rs)
    (h7 : firstBad (rows.map fun (v : VReg) => v.tag.toNat % 256) = none) (h8 : firstBad codes = none) (h9 : mmaFmts rows codes = some (fa, fb)) :
    s.mmaGo x act reuse a m rs rows codes k = k fa fb := by
  have e1 : (reuse && decide (1 < x.v.gang.parts.length)) = false := by
    cases hr : reuse
    · rfl
    · have := h4 hr; simp; omega
  unfold State.mmaGo
  rw [if_neg (by simp [e1]), if_neg (by simp [h5]), rangeFault_fits h6, h7, h8, h9]

theorem mma_ready {p : Pred} {m : Nat} {reuse z pair : Bool} {d a b : Opnd} {t : State} {y : Ctx} (h : MmaReady p m reuse pair d a b t y) :
    mmaSem p m reuse z pair d a b t y = .fall (mmaIssued m reuse z pair d a b t y) false := by
  obtain ⟨h1, h2, h3, h4, h5, h6, h7, h8, h9⟩ := h
  obtain ⟨⟨fa, fb⟩, h9⟩ := Option.isSome_iff_exists.mp h9
  unfold mmaSem mmaIssued
  rw [matSem_ready h1, if_neg (by simp [h2]), teamOf_ready h3]
  generalize t.mmaCodes y b (mate pair t y) = codes at *
  generalize y.mmaRows reuse a m = rows at *
  rw [mmaGo_ready h4 h5 h6 h7 h8 h9]
  dsimp only
  rw [h9]
  rfl

theorem answered_ends {s u : State} {r : PartRef} {x : Ctx} {pd : Pend} {c : Bool} (h1 : ({ s with cur := some r } : State).ctx? 0 = some x)
    (h2 : x.v.part.pend = some pd) (h3 : ({ s with cur := some r } : State).goOn x pd = .fall u c) (h4 : u.overfull x = false) :
    s.answered r = s.accessEnds r x pd u := by
  unfold State.answered
  dsimp only
  rw [h1]
  dsimp only
  rw [h2]
  dsimp only
  rw [h3, finish_fall h4]
  rfl

end Sys2Proof.Machine
end

