-- ==== Sys2Proof/Laws/State.lean ====
section
/-!
SUPPORT. What the updates of the state leave in each field: one lemma for each field and update, so that no proof has to unfold an update.
-/
namespace Sys2Proof.Machine

/-! A cohort changed: every field but cohorts stays -/

@[simp] theorem State.modCohort_agenda (s : State) (id : Nat) (f : Cohort → Cohort) : (s.modCohort id f).agenda = s.agenda := rfl
@[simp] theorem State.modCohort_cur (s : State) (id : Nat) (f : Cohort → Cohort) : (s.modCohort id f).cur = s.cur := rfl
@[simp] theorem State.modCohort_turn (s : State) (id : Nat) (f : Cohort → Cohort) : (s.modCohort id f).turn = s.turn := rfl
@[simp] theorem State.modCohort_owed (s : State) (id : Nat) (f : Cohort → Cohort) : (s.modCohort id f).owed = s.owed := rfl
@[simp] theorem State.modCohort_freeCtr (s : State) (id : Nat) (f : Cohort → Cohort) : (s.modCohort id f).freeCtr = s.freeCtr := rfl
@[simp] theorem State.modCohort_nextId (s : State) (id : Nat) (f : Cohort → Cohort) : (s.modCohort id f).nextId = s.nextId := rfl
@[simp] theorem State.modCohort_out (s : State) (id : Nat) (f : Cohort → Cohort) : (s.modCohort id f).out = s.out := rfl
@[simp] theorem State.modCohort_cycle (s : State) (id : Nat) (f : Cohort → Cohort) : (s.modCohort id f).cycle = s.cycle := rfl
@[simp] theorem State.modCohort_boot (s : State) (id : Nat) (f : Cohort → Cohort) : (s.modCohort id f).boot = s.boot := rfl
@[simp] theorem State.modCohort_frozen (s : State) (id : Nat) (f : Cohort → Cohort) : (s.modCohort id f).frozen = s.frozen := rfl
@[simp] theorem State.modCohort_mem (s : State) (id : Nat) (f : Cohort → Cohort) : (s.modCohort id f).mem = s.mem := rfl
@[simp] theorem State.modCohort_sides (s : State) (id : Nat) (f : Cohort → Cohort) : (s.modCohort id f).sides = s.sides := rfl
@[simp] theorem State.modCohort_poison (s : State) (id : Nat) (f : Cohort → Cohort) : (s.modCohort id f).poison = s.poison := rfl
@[simp] theorem State.modCohort_bufPoison (s : State) (id : Nat) (f : Cohort → Cohort) : (s.modCohort id f).bufPoison = s.bufPoison := rfl
@[simp] theorem State.modCohort_owners (s : State) (id : Nat) (f : Cohort → Cohort) : (s.modCohort id f).owners = s.owners := rfl
@[simp] theorem State.modCohort_lastLane (s : State) (id : Nat) (f : Cohort → Cohort) : (s.modCohort id f).lastLane = s.lastLane := rfl
@[simp] theorem State.modCohort_spoiled (s : State) (id : Nat) (f : Cohort → Cohort) : (s.modCohort id f).spoiled = s.spoiled := rfl
@[simp] theorem State.modCohort_hostHeld (s : State) (id : Nat) (f : Cohort → Cohort) : (s.modCohort id f).hostHeld = s.hostHeld := rfl
@[simp] theorem State.modCohort_hostWaits (s : State) (id : Nat) (f : Cohort → Cohort) : (s.modCohort id f).hostWaits = s.hostWaits := rfl
@[simp] theorem State.modCohort_engWaits (s : State) (id : Nat) (f : Cohort → Cohort) : (s.modCohort id f).engWaits = s.engWaits := rfl
@[simp] theorem State.modCohort_stores (s : State) (id : Nat) (f : Cohort → Cohort) : (s.modCohort id f).stores = s.stores := rfl
@[simp] theorem State.modCohort_cmds (s : State) (id : Nat) (f : Cohort → Cohort) : (s.modCohort id f).cmds = s.cmds := rfl
@[simp] theorem State.modCohort_monitors (s : State) (id : Nat) (f : Cohort → Cohort) : (s.modCohort id f).monitors = s.monitors := rfl
@[simp] theorem State.modCohort_waitcs (s : State) (id : Nat) (f : Cohort → Cohort) : (s.modCohort id f).waitcs = s.waitcs := rfl
@[simp] theorem State.modCohort_tlb (s : State) (id : Nat) (f : Cohort → Cohort) : (s.modCohort id f).tlb = s.tlb := rfl
@[simp] theorem State.modCohort_walkCache (s : State) (id : Nat) (f : Cohort → Cohort) : (s.modCohort id f).walkCache = s.walkCache := rfl
@[simp] theorem State.modCohort_walks (s : State) (id : Nat) (f : Cohort → Cohort) : (s.modCohort id f).walks = s.walks := rfl
@[simp] theorem State.modCohort_claims (s : State) (id : Nat) (f : Cohort → Cohort) : (s.modCohort id f).claims = s.claims := rfl
@[simp] theorem State.modCohort_parts (s : State) (id : Nat) (f : Cohort → Cohort) : (s.modCohort id f).parts = s.parts := rfl
@[simp] theorem State.modCohort_pkg (s : State) (id : Nat) (f : Cohort → Cohort) : (s.modCohort id f).pkg = s.pkg := rfl
@[simp] theorem State.modCohort_copy (s : State) (id : Nat) (f : Cohort → Cohort) : (s.modCohort id f).copy = s.copy := rfl
@[simp] theorem State.modCohort_matrix (s : State) (id : Nat) (f : Cohort → Cohort) : (s.modCohort id f).matrix = s.matrix := rfl
@[simp] theorem State.modCohort_stage (s : State) (id : Nat) (f : Cohort → Cohort) : (s.modCohort id f).stage = s.stage := rfl
@[simp] theorem State.modCohort_fabric (s : State) (id : Nat) (f : Cohort → Cohort) : (s.modCohort id f).fabric = s.fabric := rfl
@[simp] theorem State.modCohort_tier (s : State) (id : Nat) (f : Cohort → Cohort) : (s.modCohort id f).tier = s.tier := rfl
@[simp] theorem State.modCohort_reqs (s : State) (id : Nat) (f : Cohort → Cohort) : (s.modCohort id f).reqs = s.reqs := rfl

/-! A gang changed: every field but cohorts stays -/

@[simp] theorem State.modGang_agenda (s : State) (co g : Nat) (f : Gang → Gang) : (s.modGang co g f).agenda = s.agenda := rfl
@[simp] theorem State.modGang_cur (s : State) (co g : Nat) (f : Gang → Gang) : (s.modGang co g f).cur = s.cur := rfl
@[simp] theorem State.modGang_turn (s : State) (co g : Nat) (f : Gang → Gang) : (s.modGang co g f).turn = s.turn := rfl
@[simp] theorem State.modGang_owed (s : State) (co g : Nat) (f : Gang → Gang) : (s.modGang co g f).owed = s.owed := rfl
@[simp] theorem State.modGang_freeCtr (s : State) (co g : Nat) (f : Gang → Gang) : (s.modGang co g f).freeCtr = s.freeCtr := rfl
@[simp] theorem State.modGang_nextId (s : State) (co g : Nat) (f : Gang → Gang) : (s.modGang co g f).nextId = s.nextId := rfl
@[simp] theorem State.modGang_out (s : State) (co g : Nat) (f : Gang → Gang) : (s.modGang co g f).out = s.out := rfl
@[simp] theorem State.modGang_cycle (s : State) (co g : Nat) (f : Gang → Gang) : (s.modGang co g f).cycle = s.cycle := rfl
@[simp] theorem State.modGang_boot (s : State) (co g : Nat) (f : Gang → Gang) : (s.modGang co g f).boot = s.boot := rfl
@[simp] theorem State.modGang_frozen (s : State) (co g : Nat) (f : Gang → Gang) : (s.modGang co g f).frozen = s.frozen := rfl
@[simp] theorem State.modGang_mem (s : State) (co g : Nat) (f : Gang → Gang) : (s.modGang co g f).mem = s.mem := rfl
@[simp] theorem State.modGang_sides (s : State) (co g : Nat) (f : Gang → Gang) : (s.modGang co g f).sides = s.sides := rfl
@[simp] theorem State.modGang_poison (s : State) (co g : Nat) (f : Gang → Gang) : (s.modGang co g f).poison = s.poison := rfl
@[simp] theorem State.modGang_bufPoison (s : State) (co g : Nat) (f : Gang → Gang) : (s.modGang co g f).bufPoison = s.bufPoison := rfl
@[simp] theorem State.modGang_owners (s : State) (co g : Nat) (f : Gang → Gang) : (s.modGang co g f).owners = s.owners := rfl
@[simp] theorem State.modGang_lastLane (s : State) (co g : Nat) (f : Gang → Gang) : (s.modGang co g f).lastLane = s.lastLane := rfl
@[simp] theorem State.modGang_spoiled (s : State) (co g : Nat) (f : Gang → Gang) : (s.modGang co g f).spoiled = s.spoiled := rfl
@[simp] theorem State.modGang_hostHeld (s : State) (co g : Nat) (f : Gang → Gang) : (s.modGang co g f).hostHeld = s.hostHeld := rfl
@[simp] theorem State.modGang_hostWaits (s : State) (co g : Nat) (f : Gang → Gang) : (s.modGang co g f).hostWaits = s.hostWaits := rfl
@[simp] theorem State.modGang_engWaits (s : State) (co g : Nat) (f : Gang → Gang) : (s.modGang co g f).engWaits = s.engWaits := rfl
@[simp] theorem State.modGang_stores (s : State) (co g : Nat) (f : Gang → Gang) : (s.modGang co g f).stores = s.stores := rfl
@[simp] theorem State.modGang_cmds (s : State) (co g : Nat) (f : Gang → Gang) : (s.modGang co g f).cmds = s.cmds := rfl
@[simp] theorem State.modGang_monitors (s : State) (co g : Nat) (f : Gang → Gang) : (s.modGang co g f).monitors = s.monitors := rfl
@[simp] theorem State.modGang_waitcs (s : State) (co g : Nat) (f : Gang → Gang) : (s.modGang co g f).waitcs = s.waitcs := rfl
@[simp] theorem State.modGang_tlb (s : State) (co g : Nat) (f : Gang → Gang) : (s.modGang co g f).tlb = s.tlb := rfl
@[simp] theorem State.modGang_walkCache (s : State) (co g : Nat) (f : Gang → Gang) : (s.modGang co g f).walkCache = s.walkCache := rfl
@[simp] theorem State.modGang_walks (s : State) (co g : Nat) (f : Gang → Gang) : (s.modGang co g f).walks = s.walks := rfl
@[simp] theorem State.modGang_claims (s : State) (co g : Nat) (f : Gang → Gang) : (s.modGang co g f).claims = s.claims := rfl
@[simp] theorem State.modGang_parts (s : State) (co g : Nat) (f : Gang → Gang) : (s.modGang co g f).parts = s.parts := rfl
@[simp] theorem State.modGang_pkg (s : State) (co g : Nat) (f : Gang → Gang) : (s.modGang co g f).pkg = s.pkg := rfl
@[simp] theorem State.modGang_copy (s : State) (co g : Nat) (f : Gang → Gang) : (s.modGang co g f).copy = s.copy := rfl
@[simp] theorem State.modGang_matrix (s : State) (co g : Nat) (f : Gang → Gang) : (s.modGang co g f).matrix = s.matrix := rfl
@[simp] theorem State.modGang_stage (s : State) (co g : Nat) (f : Gang → Gang) : (s.modGang co g f).stage = s.stage := rfl
@[simp] theorem State.modGang_fabric (s : State) (co g : Nat) (f : Gang → Gang) : (s.modGang co g f).fabric = s.fabric := rfl
@[simp] theorem State.modGang_tier (s : State) (co g : Nat) (f : Gang → Gang) : (s.modGang co g f).tier = s.tier := rfl
@[simp] theorem State.modGang_reqs (s : State) (co g : Nat) (f : Gang → Gang) : (s.modGang co g f).reqs = s.reqs := rfl

/-! A part changed: every field but cohorts stays -/

@[simp] theorem State.modPart_agenda (s : State) (r : PartRef) (f : Part → Part) : (s.modPart r f).agenda = s.agenda := rfl
@[simp] theorem State.modPart_cur (s : State) (r : PartRef) (f : Part → Part) : (s.modPart r f).cur = s.cur := rfl
@[simp] theorem State.modPart_turn (s : State) (r : PartRef) (f : Part → Part) : (s.modPart r f).turn = s.turn := rfl
@[simp] theorem State.modPart_owed (s : State) (r : PartRef) (f : Part → Part) : (s.modPart r f).owed = s.owed := rfl
@[simp] theorem State.modPart_freeCtr (s : State) (r : PartRef) (f : Part → Part) : (s.modPart r f).freeCtr = s.freeCtr := rfl
@[simp] theorem State.modPart_nextId (s : State) (r : PartRef) (f : Part → Part) : (s.modPart r f).nextId = s.nextId := rfl
@[simp] theorem State.modPart_out (s : State) (r : PartRef) (f : Part → Part) : (s.modPart r f).out = s.out := rfl
@[simp] theorem State.modPart_cycle (s : State) (r : PartRef) (f : Part → Part) : (s.modPart r f).cycle = s.cycle := rfl
@[simp] theorem State.modPart_boot (s : State) (r : PartRef) (f : Part → Part) : (s.modPart r f).boot = s.boot := rfl
@[simp] theorem State.modPart_frozen (s : State) (r : PartRef) (f : Part → Part) : (s.modPart r f).frozen = s.frozen := rfl
@[simp] theorem State.modPart_mem (s : State) (r : PartRef) (f : Part → Part) : (s.modPart r f).mem = s.mem := rfl
@[simp] theorem State.modPart_sides (s : State) (r : PartRef) (f : Part → Part) : (s.modPart r f).sides = s.sides := rfl
@[simp] theorem State.modPart_poison (s : State) (r : PartRef) (f : Part → Part) : (s.modPart r f).poison = s.poison := rfl
@[simp] theorem State.modPart_bufPoison (s : State) (r : PartRef) (f : Part → Part) : (s.modPart r f).bufPoison = s.bufPoison := rfl
@[simp] theorem State.modPart_owners (s : State) (r : PartRef) (f : Part → Part) : (s.modPart r f).owners = s.owners := rfl
@[simp] theorem State.modPart_lastLane (s : State) (r : PartRef) (f : Part → Part) : (s.modPart r f).lastLane = s.lastLane := rfl
@[simp] theorem State.modPart_spoiled (s : State) (r : PartRef) (f : Part → Part) : (s.modPart r f).spoiled = s.spoiled := rfl
@[simp] theorem State.modPart_hostHeld (s : State) (r : PartRef) (f : Part → Part) : (s.modPart r f).hostHeld = s.hostHeld := rfl
@[simp] theorem State.modPart_hostWaits (s : State) (r : PartRef) (f : Part → Part) : (s.modPart r f).hostWaits = s.hostWaits := rfl
@[simp] theorem State.modPart_engWaits (s : State) (r : PartRef) (f : Part → Part) : (s.modPart r f).engWaits = s.engWaits := rfl
@[simp] theorem State.modPart_stores (s : State) (r : PartRef) (f : Part → Part) : (s.modPart r f).stores = s.stores := rfl
@[simp] theorem State.modPart_cmds (s : State) (r : PartRef) (f : Part → Part) : (s.modPart r f).cmds = s.cmds := rfl
@[simp] theorem State.modPart_monitors (s : State) (r : PartRef) (f : Part → Part) : (s.modPart r f).monitors = s.monitors := rfl
@[simp] theorem State.modPart_waitcs (s : State) (r : PartRef) (f : Part → Part) : (s.modPart r f).waitcs = s.waitcs := rfl
@[simp] theorem State.modPart_tlb (s : State) (r : PartRef) (f : Part → Part) : (s.modPart r f).tlb = s.tlb := rfl
@[simp] theorem State.modPart_walkCache (s : State) (r : PartRef) (f : Part → Part) : (s.modPart r f).walkCache = s.walkCache := rfl
@[simp] theorem State.modPart_walks (s : State) (r : PartRef) (f : Part → Part) : (s.modPart r f).walks = s.walks := rfl
@[simp] theorem State.modPart_claims (s : State) (r : PartRef) (f : Part → Part) : (s.modPart r f).claims = s.claims := rfl
@[simp] theorem State.modPart_parts (s : State) (r : PartRef) (f : Part → Part) : (s.modPart r f).parts = s.parts := rfl
@[simp] theorem State.modPart_pkg (s : State) (r : PartRef) (f : Part → Part) : (s.modPart r f).pkg = s.pkg := rfl
@[simp] theorem State.modPart_copy (s : State) (r : PartRef) (f : Part → Part) : (s.modPart r f).copy = s.copy := rfl
@[simp] theorem State.modPart_matrix (s : State) (r : PartRef) (f : Part → Part) : (s.modPart r f).matrix = s.matrix := rfl
@[simp] theorem State.modPart_stage (s : State) (r : PartRef) (f : Part → Part) : (s.modPart r f).stage = s.stage := rfl
@[simp] theorem State.modPart_fabric (s : State) (r : PartRef) (f : Part → Part) : (s.modPart r f).fabric = s.fabric := rfl
@[simp] theorem State.modPart_tier (s : State) (r : PartRef) (f : Part → Part) : (s.modPart r f).tier = s.tier := rfl
@[simp] theorem State.modPart_reqs (s : State) (r : PartRef) (f : Part → Part) : (s.modPart r f).reqs = s.reqs := rfl

/-! What an instruction has computed put back: every field but cohorts stays -/

@[simp] theorem State.putView_agenda (s : State) (r : PartRef) (v : View) : (s.putView r v).agenda = s.agenda := rfl
@[simp] theorem State.putView_cur (s : State) (r : PartRef) (v : View) : (s.putView r v).cur = s.cur := rfl
@[simp] theorem State.putView_turn (s : State) (r : PartRef) (v : View) : (s.putView r v).turn = s.turn := rfl
@[simp] theorem State.putView_owed (s : State) (r : PartRef) (v : View) : (s.putView r v).owed = s.owed := rfl
@[simp] theorem State.putView_freeCtr (s : State) (r : PartRef) (v : View) : (s.putView r v).freeCtr = s.freeCtr := rfl
@[simp] theorem State.putView_nextId (s : State) (r : PartRef) (v : View) : (s.putView r v).nextId = s.nextId := rfl
@[simp] theorem State.putView_out (s : State) (r : PartRef) (v : View) : (s.putView r v).out = s.out := rfl
@[simp] theorem State.putView_cycle (s : State) (r : PartRef) (v : View) : (s.putView r v).cycle = s.cycle := rfl
@[simp] theorem State.putView_boot (s : State) (r : PartRef) (v : View) : (s.putView r v).boot = s.boot := rfl
@[simp] theorem State.putView_frozen (s : State) (r : PartRef) (v : View) : (s.putView r v).frozen = s.frozen := rfl
@[simp] theorem State.putView_mem (s : State) (r : PartRef) (v : View) : (s.putView r v).mem = s.mem := rfl
@[simp] theorem State.putView_sides (s : State) (r : PartRef) (v : View) : (s.putView r v).sides = s.sides := rfl
@[simp] theorem State.putView_poison (s : State) (r : PartRef) (v : View) : (s.putView r v).poison = s.poison := rfl
@[simp] theorem State.putView_bufPoison (s : State) (r : PartRef) (v : View) : (s.putView r v).bufPoison = s.bufPoison := rfl
@[simp] theorem State.putView_owners (s : State) (r : PartRef) (v : View) : (s.putView r v).owners = s.owners := rfl
@[simp] theorem State.putView_lastLane (s : State) (r : PartRef) (v : View) : (s.putView r v).lastLane = s.lastLane := rfl
@[simp] theorem State.putView_spoiled (s : State) (r : PartRef) (v : View) : (s.putView r v).spoiled = s.spoiled := rfl
@[simp] theorem State.putView_hostHeld (s : State) (r : PartRef) (v : View) : (s.putView r v).hostHeld = s.hostHeld := rfl
@[simp] theorem State.putView_hostWaits (s : State) (r : PartRef) (v : View) : (s.putView r v).hostWaits = s.hostWaits := rfl
@[simp] theorem State.putView_engWaits (s : State) (r : PartRef) (v : View) : (s.putView r v).engWaits = s.engWaits := rfl
@[simp] theorem State.putView_stores (s : State) (r : PartRef) (v : View) : (s.putView r v).stores = s.stores := rfl
@[simp] theorem State.putView_cmds (s : State) (r : PartRef) (v : View) : (s.putView r v).cmds = s.cmds := rfl
@[simp] theorem State.putView_monitors (s : State) (r : PartRef) (v : View) : (s.putView r v).monitors = s.monitors := rfl
@[simp] theorem State.putView_waitcs (s : State) (r : PartRef) (v : View) : (s.putView r v).waitcs = s.waitcs := rfl
@[simp] theorem State.putView_tlb (s : State) (r : PartRef) (v : View) : (s.putView r v).tlb = s.tlb := rfl
@[simp] theorem State.putView_walkCache (s : State) (r : PartRef) (v : View) : (s.putView r v).walkCache = s.walkCache := rfl
@[simp] theorem State.putView_walks (s : State) (r : PartRef) (v : View) : (s.putView r v).walks = s.walks := rfl
@[simp] theorem State.putView_claims (s : State) (r : PartRef) (v : View) : (s.putView r v).claims = s.claims := rfl
@[simp] theorem State.putView_parts (s : State) (r : PartRef) (v : View) : (s.putView r v).parts = s.parts := rfl
@[simp] theorem State.putView_pkg (s : State) (r : PartRef) (v : View) : (s.putView r v).pkg = s.pkg := rfl
@[simp] theorem State.putView_copy (s : State) (r : PartRef) (v : View) : (s.putView r v).copy = s.copy := rfl
@[simp] theorem State.putView_matrix (s : State) (r : PartRef) (v : View) : (s.putView r v).matrix = s.matrix := rfl
@[simp] theorem State.putView_stage (s : State) (r : PartRef) (v : View) : (s.putView r v).stage = s.stage := rfl
@[simp] theorem State.putView_fabric (s : State) (r : PartRef) (v : View) : (s.putView r v).fabric = s.fabric := rfl
@[simp] theorem State.putView_tier (s : State) (r : PartRef) (v : View) : (s.putView r v).tier = s.tier := rfl
@[simp] theorem State.putView_reqs (s : State) (r : PartRef) (v : View) : (s.putView r v).reqs = s.reqs := rfl

/-! Steps put on the agenda: every field but agenda stays -/

@[simp] theorem State.due_cur (s : State) (l : List Instr) : (s.due l).cur = s.cur := rfl
@[simp] theorem State.due_turn (s : State) (l : List Instr) : (s.due l).turn = s.turn := rfl
@[simp] theorem State.due_owed (s : State) (l : List Instr) : (s.due l).owed = s.owed := rfl
@[simp] theorem State.due_freeCtr (s : State) (l : List Instr) : (s.due l).freeCtr = s.freeCtr := rfl
@[simp] theorem State.due_nextId (s : State) (l : List Instr) : (s.due l).nextId = s.nextId := rfl
@[simp] theorem State.due_out (s : State) (l : List Instr) : (s.due l).out = s.out := rfl
@[simp] theorem State.due_cycle (s : State) (l : List Instr) : (s.due l).cycle = s.cycle := rfl
@[simp] theorem State.due_boot (s : State) (l : List Instr) : (s.due l).boot = s.boot := rfl
@[simp] theorem State.due_frozen (s : State) (l : List Instr) : (s.due l).frozen = s.frozen := rfl
@[simp] theorem State.due_mem (s : State) (l : List Instr) : (s.due l).mem = s.mem := rfl
@[simp] theorem State.due_sides (s : State) (l : List Instr) : (s.due l).sides = s.sides := rfl
@[simp] theorem State.due_poison (s : State) (l : List Instr) : (s.due l).poison = s.poison := rfl
@[simp] theorem State.due_bufPoison (s : State) (l : List Instr) : (s.due l).bufPoison = s.bufPoison := rfl
@[simp] theorem State.due_owners (s : State) (l : List Instr) : (s.due l).owners = s.owners := rfl
@[simp] theorem State.due_lastLane (s : State) (l : List Instr) : (s.due l).lastLane = s.lastLane := rfl
@[simp] theorem State.due_spoiled (s : State) (l : List Instr) : (s.due l).spoiled = s.spoiled := rfl
@[simp] theorem State.due_hostHeld (s : State) (l : List Instr) : (s.due l).hostHeld = s.hostHeld := rfl
@[simp] theorem State.due_hostWaits (s : State) (l : List Instr) : (s.due l).hostWaits = s.hostWaits := rfl
@[simp] theorem State.due_engWaits (s : State) (l : List Instr) : (s.due l).engWaits = s.engWaits := rfl
@[simp] theorem State.due_stores (s : State) (l : List Instr) : (s.due l).stores = s.stores := rfl
@[simp] theorem State.due_cmds (s : State) (l : List Instr) : (s.due l).cmds = s.cmds := rfl
@[simp] theorem State.due_monitors (s : State) (l : List Instr) : (s.due l).monitors = s.monitors := rfl
@[simp] theorem State.due_waitcs (s : State) (l : List Instr) : (s.due l).waitcs = s.waitcs := rfl
@[simp] theorem State.due_tlb (s : State) (l : List Instr) : (s.due l).tlb = s.tlb := rfl
@[simp] theorem State.due_walkCache (s : State) (l : List Instr) : (s.due l).walkCache = s.walkCache := rfl
@[simp] theorem State.due_walks (s : State) (l : List Instr) : (s.due l).walks = s.walks := rfl
@[simp] theorem State.due_cohorts (s : State) (l : List Instr) : (s.due l).cohorts = s.cohorts := rfl
@[simp] theorem State.due_claims (s : State) (l : List Instr) : (s.due l).claims = s.claims := rfl
@[simp] theorem State.due_parts (s : State) (l : List Instr) : (s.due l).parts = s.parts := rfl
@[simp] theorem State.due_pkg (s : State) (l : List Instr) : (s.due l).pkg = s.pkg := rfl
@[simp] theorem State.due_copy (s : State) (l : List Instr) : (s.due l).copy = s.copy := rfl
@[simp] theorem State.due_matrix (s : State) (l : List Instr) : (s.due l).matrix = s.matrix := rfl
@[simp] theorem State.due_stage (s : State) (l : List Instr) : (s.due l).stage = s.stage := rfl
@[simp] theorem State.due_fabric (s : State) (l : List Instr) : (s.due l).fabric = s.fabric := rfl
@[simp] theorem State.due_tier (s : State) (l : List Instr) : (s.due l).tier = s.tier := rfl
@[simp] theorem State.due_reqs (s : State) (l : List Instr) : (s.due l).reqs = s.reqs := rfl

/-! A partition changed: only parts changes -/

theorem State.modPartition_rest (s : State) (n : Nat) (f : Partition → Partition) : { s.modPartition n f with parts := s.parts } = s := rfl
@[simp] theorem State.modPartition_agenda (s : State) (n : Nat) (f : Partition → Partition) : (s.modPartition n f).agenda = s.agenda := rfl
@[simp] theorem State.modPartition_cohorts (s : State) (n : Nat) (f : Partition → Partition) : (s.modPartition n f).cohorts = s.cohorts := rfl
@[simp] theorem State.modPartition_mem (s : State) (n : Nat) (f : Partition → Partition) : (s.modPartition n f).mem = s.mem := rfl
@[simp] theorem State.modPartition_sides (s : State) (n : Nat) (f : Partition → Partition) : (s.modPartition n f).sides = s.sides := rfl
@[simp] theorem State.modPartition_poison (s : State) (n : Nat) (f : Partition → Partition) : (s.modPartition n f).poison = s.poison := rfl
@[simp] theorem State.modPartition_stores (s : State) (n : Nat) (f : Partition → Partition) : (s.modPartition n f).stores = s.stores := rfl
@[simp] theorem State.modPartition_monitors (s : State) (n : Nat) (f : Partition → Partition) : (s.modPartition n f).monitors = s.monitors := rfl
@[simp] theorem State.modPartition_tlb (s : State) (n : Nat) (f : Partition → Partition) : (s.modPartition n f).tlb = s.tlb := rfl
@[simp] theorem State.modPartition_pkg (s : State) (n : Nat) (f : Partition → Partition) : (s.modPartition n f).pkg = s.pkg := rfl
@[simp] theorem State.modPartition_copy (s : State) (n : Nat) (f : Partition → Partition) : (s.modPartition n f).copy = s.copy := rfl
@[simp] theorem State.modPartition_matrix (s : State) (n : Nat) (f : Partition → Partition) : (s.modPartition n f).matrix = s.matrix := rfl
@[simp] theorem State.modPartition_stage (s : State) (n : Nat) (f : Partition → Partition) : (s.modPartition n f).stage = s.stage := rfl
@[simp] theorem State.modPartition_fabric (s : State) (n : Nat) (f : Partition → Partition) : (s.modPartition n f).fabric = s.fabric := rfl
@[simp] theorem State.modPartition_tier (s : State) (n : Nat) (f : Partition → Partition) : (s.modPartition n f).tier = s.tier := rfl
@[simp] theorem State.modPartition_reqs (s : State) (n : Nat) (f : Partition → Partition) : (s.modPartition n f).reqs = s.reqs := rfl
@[simp] theorem State.modPartition_freeCtr (s : State) (n : Nat) (f : Partition → Partition) : (s.modPartition n f).freeCtr = s.freeCtr := rfl
@[simp] theorem State.modPartition_nextId (s : State) (n : Nat) (f : Partition → Partition) : (s.modPartition n f).nextId = s.nextId := rfl
@[simp] theorem State.modPartition_frozen (s : State) (n : Nat) (f : Partition → Partition) : (s.modPartition n f).frozen = s.frozen := rfl
@[simp] theorem State.modPartition_boot (s : State) (n : Nat) (f : Partition → Partition) : (s.modPartition n f).boot = s.boot := rfl

/-! A copy operation changed: only copy changes -/

theorem State.modCopy_rest (s : State) (id : Nat) (f : CopyOp → CopyOp) : { s.modCopy id f with copy := s.copy } = s := rfl
@[simp] theorem State.modCopy_agenda (s : State) (id : Nat) (f : CopyOp → CopyOp) : (s.modCopy id f).agenda = s.agenda := rfl
@[simp] theorem State.modCopy_cohorts (s : State) (id : Nat) (f : CopyOp → CopyOp) : (s.modCopy id f).cohorts = s.cohorts := rfl
@[simp] theorem State.modCopy_mem (s : State) (id : Nat) (f : CopyOp → CopyOp) : (s.modCopy id f).mem = s.mem := rfl
@[simp] theorem State.modCopy_sides (s : State) (id : Nat) (f : CopyOp → CopyOp) : (s.modCopy id f).sides = s.sides := rfl
@[simp] theorem State.modCopy_poison (s : State) (id : Nat) (f : CopyOp → CopyOp) : (s.modCopy id f).poison = s.poison := rfl
@[simp] theorem State.modCopy_stores (s : State) (id : Nat) (f : CopyOp → CopyOp) : (s.modCopy id f).stores = s.stores := rfl
@[simp] theorem State.modCopy_monitors (s : State) (id : Nat) (f : CopyOp → CopyOp) : (s.modCopy id f).monitors = s.monitors := rfl
@[simp] theorem State.modCopy_tlb (s : State) (id : Nat) (f : CopyOp → CopyOp) : (s.modCopy id f).tlb = s.tlb := rfl
@[simp] theorem State.modCopy_parts (s : State) (id : Nat) (f : CopyOp → CopyOp) : (s.modCopy id f).parts = s.parts := rfl
@[simp] theorem State.modCopy_pkg (s : State) (id : Nat) (f : CopyOp → CopyOp) : (s.modCopy id f).pkg = s.pkg := rfl
@[simp] theorem State.modCopy_matrix (s : State) (id : Nat) (f : CopyOp → CopyOp) : (s.modCopy id f).matrix = s.matrix := rfl
@[simp] theorem State.modCopy_stage (s : State) (id : Nat) (f : CopyOp → CopyOp) : (s.modCopy id f).stage = s.stage := rfl
@[simp] theorem State.modCopy_fabric (s : State) (id : Nat) (f : CopyOp → CopyOp) : (s.modCopy id f).fabric = s.fabric := rfl
@[simp] theorem State.modCopy_tier (s : State) (id : Nat) (f : CopyOp → CopyOp) : (s.modCopy id f).tier = s.tier := rfl
@[simp] theorem State.modCopy_reqs (s : State) (id : Nat) (f : CopyOp → CopyOp) : (s.modCopy id f).reqs = s.reqs := rfl
@[simp] theorem State.modCopy_freeCtr (s : State) (id : Nat) (f : CopyOp → CopyOp) : (s.modCopy id f).freeCtr = s.freeCtr := rfl
@[simp] theorem State.modCopy_nextId (s : State) (id : Nat) (f : CopyOp → CopyOp) : (s.modCopy id f).nextId = s.nextId := rfl
@[simp] theorem State.modCopy_frozen (s : State) (id : Nat) (f : CopyOp → CopyOp) : (s.modCopy id f).frozen = s.frozen := rfl
@[simp] theorem State.modCopy_boot (s : State) (id : Nat) (f : CopyOp → CopyOp) : (s.modCopy id f).boot = s.boot := rfl

/-! A matrix operation changed: only matrix changes -/

theorem State.modMat_rest (s : State) (id : Nat) (f : MatOp → MatOp) : { s.modMat id f with matrix := s.matrix } = s := rfl
@[simp] theorem State.modMat_agenda (s : State) (id : Nat) (f : MatOp → MatOp) : (s.modMat id f).agenda = s.agenda := rfl
@[simp] theorem State.modMat_cohorts (s : State) (id : Nat) (f : MatOp → MatOp) : (s.modMat id f).cohorts = s.cohorts := rfl
@[simp] theorem State.modMat_mem (s : State) (id : Nat) (f : MatOp → MatOp) : (s.modMat id f).mem = s.mem := rfl
@[simp] theorem State.modMat_sides (s : State) (id : Nat) (f : MatOp → MatOp) : (s.modMat id f).sides = s.sides := rfl
@[simp] theorem State.modMat_poison (s : State) (id : Nat) (f : MatOp → MatOp) : (s.modMat id f).poison = s.poison := rfl
@[simp] theorem State.modMat_stores (s : State) (id : Nat) (f : MatOp → MatOp) : (s.modMat id f).stores = s.stores := rfl
@[simp] theorem State.modMat_monitors (s : State) (id : Nat) (f : MatOp → MatOp) : (s.modMat id f).monitors = s.monitors := rfl
@[simp] theorem State.modMat_tlb (s : State) (id : Nat) (f : MatOp → MatOp) : (s.modMat id f).tlb = s.tlb := rfl
@[simp] theorem State.modMat_parts (s : State) (id : Nat) (f : MatOp → MatOp) : (s.modMat id f).parts = s.parts := rfl
@[simp] theorem State.modMat_pkg (s : State) (id : Nat) (f : MatOp → MatOp) : (s.modMat id f).pkg = s.pkg := rfl
@[simp] theorem State.modMat_copy (s : State) (id : Nat) (f : MatOp → MatOp) : (s.modMat id f).copy = s.copy := rfl
@[simp] theorem State.modMat_stage (s : State) (id : Nat) (f : MatOp → MatOp) : (s.modMat id f).stage = s.stage := rfl
@[simp] theorem State.modMat_fabric (s : State) (id : Nat) (f : MatOp → MatOp) : (s.modMat id f).fabric = s.fabric := rfl
@[simp] theorem State.modMat_tier (s : State) (id : Nat) (f : MatOp → MatOp) : (s.modMat id f).tier = s.tier := rfl
@[simp] theorem State.modMat_reqs (s : State) (id : Nat) (f : MatOp → MatOp) : (s.modMat id f).reqs = s.reqs := rfl
@[simp] theorem State.modMat_freeCtr (s : State) (id : Nat) (f : MatOp → MatOp) : (s.modMat id f).freeCtr = s.freeCtr := rfl
@[simp] theorem State.modMat_nextId (s : State) (id : Nat) (f : MatOp → MatOp) : (s.modMat id f).nextId = s.nextId := rfl
@[simp] theorem State.modMat_frozen (s : State) (id : Nat) (f : MatOp → MatOp) : (s.modMat id f).frozen = s.frozen := rfl
@[simp] theorem State.modMat_boot (s : State) (id : Nat) (f : MatOp → MatOp) : (s.modMat id f).boot = s.boot := rfl

/-! A queue changed: only stage changes -/

theorem State.modQueue_rest (s : State) (k : QKey) (f : Queue → Queue) : { s.modQueue k f with stage := s.stage } = s := rfl
@[simp] theorem State.modQueue_agenda (s : State) (k : QKey) (f : Queue → Queue) : (s.modQueue k f).agenda = s.agenda := rfl
@[simp] theorem State.modQueue_cohorts (s : State) (k : QKey) (f : Queue → Queue) : (s.modQueue k f).cohorts = s.cohorts := rfl
@[simp] theorem State.modQueue_mem (s : State) (k : QKey) (f : Queue → Queue) : (s.modQueue k f).mem = s.mem := rfl
@[simp] theorem State.modQueue_sides (s : State) (k : QKey) (f : Queue → Queue) : (s.modQueue k f).sides = s.sides := rfl
@[simp] theorem State.modQueue_poison (s : State) (k : QKey) (f : Queue → Queue) : (s.modQueue k f).poison = s.poison := rfl
@[simp] theorem State.modQueue_stores (s : State) (k : QKey) (f : Queue → Queue) : (s.modQueue k f).stores = s.stores := rfl
@[simp] theorem State.modQueue_monitors (s : State) (k : QKey) (f : Queue → Queue) : (s.modQueue k f).monitors = s.monitors := rfl
@[simp] theorem State.modQueue_tlb (s : State) (k : QKey) (f : Queue → Queue) : (s.modQueue k f).tlb = s.tlb := rfl
@[simp] theorem State.modQueue_parts (s : State) (k : QKey) (f : Queue → Queue) : (s.modQueue k f).parts = s.parts := rfl
@[simp] theorem State.modQueue_pkg (s : State) (k : QKey) (f : Queue → Queue) : (s.modQueue k f).pkg = s.pkg := rfl
@[simp] theorem State.modQueue_copy (s : State) (k : QKey) (f : Queue → Queue) : (s.modQueue k f).copy = s.copy := rfl
@[simp] theorem State.modQueue_matrix (s : State) (k : QKey) (f : Queue → Queue) : (s.modQueue k f).matrix = s.matrix := rfl
@[simp] theorem State.modQueue_fabric (s : State) (k : QKey) (f : Queue → Queue) : (s.modQueue k f).fabric = s.fabric := rfl
@[simp] theorem State.modQueue_tier (s : State) (k : QKey) (f : Queue → Queue) : (s.modQueue k f).tier = s.tier := rfl
@[simp] theorem State.modQueue_reqs (s : State) (k : QKey) (f : Queue → Queue) : (s.modQueue k f).reqs = s.reqs := rfl
@[simp] theorem State.modQueue_freeCtr (s : State) (k : QKey) (f : Queue → Queue) : (s.modQueue k f).freeCtr = s.freeCtr := rfl
@[simp] theorem State.modQueue_nextId (s : State) (k : QKey) (f : Queue → Queue) : (s.modQueue k f).nextId = s.nextId := rfl
@[simp] theorem State.modQueue_frozen (s : State) (k : QKey) (f : Queue → Queue) : (s.modQueue k f).frozen = s.frozen := rfl
@[simp] theorem State.modQueue_boot (s : State) (k : QKey) (f : Queue → Queue) : (s.modQueue k f).boot = s.boot := rfl

/-! A graph slot changed: only stage changes -/

theorem State.modGraph_rest (s : State) (p g : Nat) (f : Graph → Graph) : { s.modGraph p g f with stage := s.stage } = s := rfl
@[simp] theorem State.modGraph_agenda (s : State) (p g : Nat) (f : Graph → Graph) : (s.modGraph p g f).agenda = s.agenda := rfl
@[simp] theorem State.modGraph_cohorts (s : State) (p g : Nat) (f : Graph → Graph) : (s.modGraph p g f).cohorts = s.cohorts := rfl
@[simp] theorem State.modGraph_mem (s : State) (p g : Nat) (f : Graph → Graph) : (s.modGraph p g f).mem = s.mem := rfl
@[simp] theorem State.modGraph_sides (s : State) (p g : Nat) (f : Graph → Graph) : (s.modGraph p g f).sides = s.sides := rfl
@[simp] theorem State.modGraph_poison (s : State) (p g : Nat) (f : Graph → Graph) : (s.modGraph p g f).poison = s.poison := rfl
@[simp] theorem State.modGraph_stores (s : State) (p g : Nat) (f : Graph → Graph) : (s.modGraph p g f).stores = s.stores := rfl
@[simp] theorem State.modGraph_monitors (s : State) (p g : Nat) (f : Graph → Graph) : (s.modGraph p g f).monitors = s.monitors := rfl
@[simp] theorem State.modGraph_tlb (s : State) (p g : Nat) (f : Graph → Graph) : (s.modGraph p g f).tlb = s.tlb := rfl
@[simp] theorem State.modGraph_parts (s : State) (p g : Nat) (f : Graph → Graph) : (s.modGraph p g f).parts = s.parts := rfl
@[simp] theorem State.modGraph_pkg (s : State) (p g : Nat) (f : Graph → Graph) : (s.modGraph p g f).pkg = s.pkg := rfl
@[simp] theorem State.modGraph_copy (s : State) (p g : Nat) (f : Graph → Graph) : (s.modGraph p g f).copy = s.copy := rfl
@[simp] theorem State.modGraph_matrix (s : State) (p g : Nat) (f : Graph → Graph) : (s.modGraph p g f).matrix = s.matrix := rfl
@[simp] theorem State.modGraph_fabric (s : State) (p g : Nat) (f : Graph → Graph) : (s.modGraph p g f).fabric = s.fabric := rfl
@[simp] theorem State.modGraph_tier (s : State) (p g : Nat) (f : Graph → Graph) : (s.modGraph p g f).tier = s.tier := rfl
@[simp] theorem State.modGraph_reqs (s : State) (p g : Nat) (f : Graph → Graph) : (s.modGraph p g f).reqs = s.reqs := rfl
@[simp] theorem State.modGraph_freeCtr (s : State) (p g : Nat) (f : Graph → Graph) : (s.modGraph p g f).freeCtr = s.freeCtr := rfl
@[simp] theorem State.modGraph_nextId (s : State) (p g : Nat) (f : Graph → Graph) : (s.modGraph p g f).nextId = s.nextId := rfl
@[simp] theorem State.modGraph_frozen (s : State) (p g : Nat) (f : Graph → Graph) : (s.modGraph p g f).frozen = s.frozen := rfl
@[simp] theorem State.modGraph_boot (s : State) (p g : Nat) (f : Graph → Graph) : (s.modGraph p g f).boot = s.boot := rfl

/-! A port changed: only fabric changes -/

theorem State.modPort_rest (s : State) (n : Nat) (f : Port → Port) : { s.modPort n f with fabric := s.fabric } = s := rfl
@[simp] theorem State.modPort_agenda (s : State) (n : Nat) (f : Port → Port) : (s.modPort n f).agenda = s.agenda := rfl
@[simp] theorem State.modPort_cohorts (s : State) (n : Nat) (f : Port → Port) : (s.modPort n f).cohorts = s.cohorts := rfl
@[simp] theorem State.modPort_mem (s : State) (n : Nat) (f : Port → Port) : (s.modPort n f).mem = s.mem := rfl
@[simp] theorem State.modPort_sides (s : State) (n : Nat) (f : Port → Port) : (s.modPort n f).sides = s.sides := rfl
@[simp] theorem State.modPort_poison (s : State) (n : Nat) (f : Port → Port) : (s.modPort n f).poison = s.poison := rfl
@[simp] theorem State.modPort_stores (s : State) (n : Nat) (f : Port → Port) : (s.modPort n f).stores = s.stores := rfl
@[simp] theorem State.modPort_monitors (s : State) (n : Nat) (f : Port → Port) : (s.modPort n f).monitors = s.monitors := rfl
@[simp] theorem State.modPort_tlb (s : State) (n : Nat) (f : Port → Port) : (s.modPort n f).tlb = s.tlb := rfl
@[simp] theorem State.modPort_parts (s : State) (n : Nat) (f : Port → Port) : (s.modPort n f).parts = s.parts := rfl
@[simp] theorem State.modPort_pkg (s : State) (n : Nat) (f : Port → Port) : (s.modPort n f).pkg = s.pkg := rfl
@[simp] theorem State.modPort_copy (s : State) (n : Nat) (f : Port → Port) : (s.modPort n f).copy = s.copy := rfl
@[simp] theorem State.modPort_matrix (s : State) (n : Nat) (f : Port → Port) : (s.modPort n f).matrix = s.matrix := rfl
@[simp] theorem State.modPort_stage (s : State) (n : Nat) (f : Port → Port) : (s.modPort n f).stage = s.stage := rfl
@[simp] theorem State.modPort_tier (s : State) (n : Nat) (f : Port → Port) : (s.modPort n f).tier = s.tier := rfl
@[simp] theorem State.modPort_reqs (s : State) (n : Nat) (f : Port → Port) : (s.modPort n f).reqs = s.reqs := rfl
@[simp] theorem State.modPort_freeCtr (s : State) (n : Nat) (f : Port → Port) : (s.modPort n f).freeCtr = s.freeCtr := rfl
@[simp] theorem State.modPort_nextId (s : State) (n : Nat) (f : Port → Port) : (s.modPort n f).nextId = s.nextId := rfl
@[simp] theorem State.modPort_frozen (s : State) (n : Nat) (f : Port → Port) : (s.modPort n f).frozen = s.frozen := rfl
@[simp] theorem State.modPort_boot (s : State) (n : Nat) (f : Port → Port) : (s.modPort n f).boot = s.boot := rfl

/-! A mirror entry changed: only fabric changes -/

theorem State.modMirror_rest (s : State) (i : Nat) (f : Mirror → Mirror) : { s.modMirror i f with fabric := s.fabric } = s := rfl
@[simp] theorem State.modMirror_agenda (s : State) (i : Nat) (f : Mirror → Mirror) : (s.modMirror i f).agenda = s.agenda := rfl
@[simp] theorem State.modMirror_cohorts (s : State) (i : Nat) (f : Mirror → Mirror) : (s.modMirror i f).cohorts = s.cohorts := rfl
@[simp] theorem State.modMirror_mem (s : State) (i : Nat) (f : Mirror → Mirror) : (s.modMirror i f).mem = s.mem := rfl
@[simp] theorem State.modMirror_sides (s : State) (i : Nat) (f : Mirror → Mirror) : (s.modMirror i f).sides = s.sides := rfl
@[simp] theorem State.modMirror_poison (s : State) (i : Nat) (f : Mirror → Mirror) : (s.modMirror i f).poison = s.poison := rfl
@[simp] theorem State.modMirror_stores (s : State) (i : Nat) (f : Mirror → Mirror) : (s.modMirror i f).stores = s.stores := rfl
@[simp] theorem State.modMirror_monitors (s : State) (i : Nat) (f : Mirror → Mirror) : (s.modMirror i f).monitors = s.monitors := rfl
@[simp] theorem State.modMirror_tlb (s : State) (i : Nat) (f : Mirror → Mirror) : (s.modMirror i f).tlb = s.tlb := rfl
@[simp] theorem State.modMirror_parts (s : State) (i : Nat) (f : Mirror → Mirror) : (s.modMirror i f).parts = s.parts := rfl
@[simp] theorem State.modMirror_pkg (s : State) (i : Nat) (f : Mirror → Mirror) : (s.modMirror i f).pkg = s.pkg := rfl
@[simp] theorem State.modMirror_copy (s : State) (i : Nat) (f : Mirror → Mirror) : (s.modMirror i f).copy = s.copy := rfl
@[simp] theorem State.modMirror_matrix (s : State) (i : Nat) (f : Mirror → Mirror) : (s.modMirror i f).matrix = s.matrix := rfl
@[simp] theorem State.modMirror_stage (s : State) (i : Nat) (f : Mirror → Mirror) : (s.modMirror i f).stage = s.stage := rfl
@[simp] theorem State.modMirror_tier (s : State) (i : Nat) (f : Mirror → Mirror) : (s.modMirror i f).tier = s.tier := rfl
@[simp] theorem State.modMirror_reqs (s : State) (i : Nat) (f : Mirror → Mirror) : (s.modMirror i f).reqs = s.reqs := rfl
@[simp] theorem State.modMirror_freeCtr (s : State) (i : Nat) (f : Mirror → Mirror) : (s.modMirror i f).freeCtr = s.freeCtr := rfl
@[simp] theorem State.modMirror_nextId (s : State) (i : Nat) (f : Mirror → Mirror) : (s.modMirror i f).nextId = s.nextId := rfl
@[simp] theorem State.modMirror_frozen (s : State) (i : Nat) (f : Mirror → Mirror) : (s.modMirror i f).frozen = s.frozen := rfl
@[simp] theorem State.modMirror_boot (s : State) (i : Nat) (f : Mirror → Mirror) : (s.modMirror i f).boot = s.boot := rfl

/-! A tier job changed: only tier changes -/

theorem State.modJob_rest (s : State) (id : Nat) (f : Job → Job) : { s.modJob id f with tier := s.tier } = s := rfl
@[simp] theorem State.modJob_agenda (s : State) (id : Nat) (f : Job → Job) : (s.modJob id f).agenda = s.agenda := rfl
@[simp] theorem State.modJob_cohorts (s : State) (id : Nat) (f : Job → Job) : (s.modJob id f).cohorts = s.cohorts := rfl
@[simp] theorem State.modJob_mem (s : State) (id : Nat) (f : Job → Job) : (s.modJob id f).mem = s.mem := rfl
@[simp] theorem State.modJob_sides (s : State) (id : Nat) (f : Job → Job) : (s.modJob id f).sides = s.sides := rfl
@[simp] theorem State.modJob_poison (s : State) (id : Nat) (f : Job → Job) : (s.modJob id f).poison = s.poison := rfl
@[simp] theorem State.modJob_stores (s : State) (id : Nat) (f : Job → Job) : (s.modJob id f).stores = s.stores := rfl
@[simp] theorem State.modJob_monitors (s : State) (id : Nat) (f : Job → Job) : (s.modJob id f).monitors = s.monitors := rfl
@[simp] theorem State.modJob_tlb (s : State) (id : Nat) (f : Job → Job) : (s.modJob id f).tlb = s.tlb := rfl
@[simp] theorem State.modJob_parts (s : State) (id : Nat) (f : Job → Job) : (s.modJob id f).parts = s.parts := rfl
@[simp] theorem State.modJob_pkg (s : State) (id : Nat) (f : Job → Job) : (s.modJob id f).pkg = s.pkg := rfl
@[simp] theorem State.modJob_copy (s : State) (id : Nat) (f : Job → Job) : (s.modJob id f).copy = s.copy := rfl
@[simp] theorem State.modJob_matrix (s : State) (id : Nat) (f : Job → Job) : (s.modJob id f).matrix = s.matrix := rfl
@[simp] theorem State.modJob_stage (s : State) (id : Nat) (f : Job → Job) : (s.modJob id f).stage = s.stage := rfl
@[simp] theorem State.modJob_fabric (s : State) (id : Nat) (f : Job → Job) : (s.modJob id f).fabric = s.fabric := rfl
@[simp] theorem State.modJob_reqs (s : State) (id : Nat) (f : Job → Job) : (s.modJob id f).reqs = s.reqs := rfl
@[simp] theorem State.modJob_freeCtr (s : State) (id : Nat) (f : Job → Job) : (s.modJob id f).freeCtr = s.freeCtr := rfl
@[simp] theorem State.modJob_nextId (s : State) (id : Nat) (f : Job → Job) : (s.modJob id f).nextId = s.nextId := rfl
@[simp] theorem State.modJob_frozen (s : State) (id : Nat) (f : Job → Job) : (s.modJob id f).frozen = s.frozen := rfl
@[simp] theorem State.modJob_boot (s : State) (id : Nat) (f : Job → Job) : (s.modJob id f).boot = s.boot := rfl

/-! A request changed: only reqs changes -/

theorem State.modReq_rest (s : State) (id : Nat) (f : Request → Request) : { s.modReq id f with reqs := s.reqs } = s := rfl
@[simp] theorem State.modReq_agenda (s : State) (id : Nat) (f : Request → Request) : (s.modReq id f).agenda = s.agenda := rfl
@[simp] theorem State.modReq_cohorts (s : State) (id : Nat) (f : Request → Request) : (s.modReq id f).cohorts = s.cohorts := rfl
@[simp] theorem State.modReq_mem (s : State) (id : Nat) (f : Request → Request) : (s.modReq id f).mem = s.mem := rfl
@[simp] theorem State.modReq_sides (s : State) (id : Nat) (f : Request → Request) : (s.modReq id f).sides = s.sides := rfl
@[simp] theorem State.modReq_poison (s : State) (id : Nat) (f : Request → Request) : (s.modReq id f).poison = s.poison := rfl
@[simp] theorem State.modReq_stores (s : State) (id : Nat) (f : Request → Request) : (s.modReq id f).stores = s.stores := rfl
@[simp] theorem State.modReq_monitors (s : State) (id : Nat) (f : Request → Request) : (s.modReq id f).monitors = s.monitors := rfl
@[simp] theorem State.modReq_tlb (s : State) (id : Nat) (f : Request → Request) : (s.modReq id f).tlb = s.tlb := rfl
@[simp] theorem State.modReq_parts (s : State) (id : Nat) (f : Request → Request) : (s.modReq id f).parts = s.parts := rfl
@[simp] theorem State.modReq_pkg (s : State) (id : Nat) (f : Request → Request) : (s.modReq id f).pkg = s.pkg := rfl
@[simp] theorem State.modReq_copy (s : State) (id : Nat) (f : Request → Request) : (s.modReq id f).copy = s.copy := rfl
@[simp] theorem State.modReq_matrix (s : State) (id : Nat) (f : Request → Request) : (s.modReq id f).matrix = s.matrix := rfl
@[simp] theorem State.modReq_stage (s : State) (id : Nat) (f : Request → Request) : (s.modReq id f).stage = s.stage := rfl
@[simp] theorem State.modReq_fabric (s : State) (id : Nat) (f : Request → Request) : (s.modReq id f).fabric = s.fabric := rfl
@[simp] theorem State.modReq_tier (s : State) (id : Nat) (f : Request → Request) : (s.modReq id f).tier = s.tier := rfl
@[simp] theorem State.modReq_freeCtr (s : State) (id : Nat) (f : Request → Request) : (s.modReq id f).freeCtr = s.freeCtr := rfl
@[simp] theorem State.modReq_nextId (s : State) (id : Nat) (f : Request → Request) : (s.modReq id f).nextId = s.nextId := rfl
@[simp] theorem State.modReq_frozen (s : State) (id : Nat) (f : Request → Request) : (s.modReq id f).frozen = s.frozen := rfl
@[simp] theorem State.modReq_boot (s : State) (id : Nat) (f : Request → Request) : (s.modReq id f).boot = s.boot := rfl

/-! What the updates do to the field they change -/

@[simp] theorem State.due_agenda (s : State) (l : List Instr) : (s.due l).agenda = s.agenda ++ l := rfl
theorem State.modCohort_cohorts (s : State) (id : Nat) (f : Cohort → Cohort) :
    (s.modCohort id f).cohorts = s.cohorts.map fun c => if c.id = id then f c else c := rfl
theorem State.modReq_reqs (s : State) (id : Nat) (f : Request → Request) :
    (s.modReq id f).reqs = s.reqs.map fun q => if q.id = id then f q else q := rfl

end Sys2Proof.Machine
end

