-- ==== Sys2Proof/Laws/Stores.lean ====
section
/-!
SUPPORT. What stores do that are performed directly or leave the package: which bytes and sidebands of storage change, and that nothing
else does (R23, R93, R109, R114, R206, R279).
-/
namespace Sys2Proof.Machine

theorem sideCell_same {s t : State} (h : t.pkg = s.pkg) (l : Nat) : t.sideCell l = s.sideCell l := by
  unfold State.sideCell State.farWindow; rw [h]

theorem setSide_reads (s : State) (line : Nat) (x : Side) (hc : s.canonical) :
    let t := s.setSide line x
    t.canonical ∧ { t with mem := s.mem, sides := s.sides } = s ∧
      (∀ b, (∀ c, isFar (64 * line) = true → s.sideCell line = some c → ¬ (c ≤ b ∧ b < c + 2)) → t.mem.read b = s.mem.read b) ∧
      (∀ l, l ≠ line → t.sides.read l = s.sides.read l) := by
  intro t
  obtain ⟨h1, h2⟩ := hc
  have e : t = s.setSide line x := rfl
  unfold State.setSide at e
  dsimp only at e
  split at e
  · rename_i hf
    split at e
    · rw [e]; exact ⟨⟨h1, h2⟩, rfl, fun _ _ => rfl, fun _ _ => rfl⟩
    · rename_i c hcell
      rw [e]
      refine ⟨⟨Memory.wf_writeBytes _ _ _ h1, h2⟩, rfl, fun b hb => ?_, fun _ _ => rfl⟩
      dsimp only
      rw [writeBytes_read _ _ _ h1, if_neg]
      have : (natLe 2 x.toNat).length = 2 := by simp [natLe]
      rw [this]
      exact hb c hf hcell
  · split at e
    · rw [e]
      refine ⟨⟨h1, Sides.wf_write _ _ _ h2⟩, rfl, fun _ _ => rfl, fun l hl => ?_⟩
      dsimp only
      rw [Sides.read_write _ _ _ _ h2, if_neg hl]
    · rw [e]; exact ⟨⟨h1, h2⟩, rfl, fun _ _ => rfl, fun _ _ => rfl⟩

/-- A write of bytes of one line: what it does to storage, and the rest of its effects. -/
theorem homeWrite_reads (s : State) (me : Option Nat) (own a : Nat) (bs : List Byte) (side : Side) (hc : s.canonical)
    (hl : a % 64 + bs.length ≤ 64) :
    let t := s.homeWrite me own a bs (some side)
    t.canonical ∧ t.parts = s.parts ∧ t.pkg = s.pkg ∧
      (∀ b, s.clearOf b (a / 64) → t.mem.read b = s.mem.read b) ∧
      (∀ l, l ≠ a / 64 → t.sides.read l = s.sides.read l) ∧
      (∀ k, k ≠ s.cell (a / 64) → assocGet t.owners k = assocGet s.owners k) ∧
      (∀ d, d / 64 = a / 64 → (∀ i < 64, ∀ c, isFar (64 * (a / 64)) = true → s.sideCell (a / 64) = some c → ¬ (c ≤ s.cell (a / 64) + i ∧ s.cell (a / 64) + i < c + 2)) →
        t.byteAs own d = if a ≤ d ∧ d < a + bs.length then bs.getD (d - a) 0 else s.byteAs own d) := by
  intro t
  by_cases hb : bs = []
  · subst hb
    have : t = s := rfl
    rw [this]
    exact ⟨hc, rfl, rfl, fun _ _ => rfl, fun _ _ => rfl, fun _ _ => rfl, fun d _ _ => by rw [if_neg]; simp⟩
  have et : t = s.homeCore .write me own (a / 64) (fun m => m.writeBytes (s.cell (a / 64) + a % 64) bs) (bs.length == 64) (some side) := by
    show s.homeWriteAs _ _ _ _ _ _ = _
    unfold State.homeWriteAs
    rw [if_neg (by simpa using hb)]
  rw [homeCore_stages] at et
  set line := a / 64 with hline
  obtain ⟨hcm, hcs⟩ := hc
  obtain ⟨k1, k2, k3, k4, k5, k6⟩ := strike_keep s line .write me
  generalize s.strike line .write me = S at k1 k2 k3 k4 k5 k6 et
  obtain ⟨M, hM, hMwf, hMin, hMout⟩ := homeBytes_mem S own line (fun m => m.writeBytes (s.cell line + a % 64) bs) (by rw [k1]; exact hcm)
  rw [cell_same k5] at hMin hMout
  have hB : { S.homeBytes own line (fun m => m.writeBytes (s.cell line + a % 64) bs) with mem := S.mem } = S := rfl
  generalize S.homeBytes own line (fun m => m.writeBytes (s.cell line + a % 64) bs) = B at hM hB et
  have b2 : B.sides = S.sides := (congrArg State.sides hB :)
  have b3 : B.owners = S.owners := (congrArg State.owners hB :)
  have b4 : B.parts = S.parts := (congrArg State.parts hB :)
  have b5 : B.pkg = S.pkg := (congrArg State.pkg hB :)
  have hBc : B.canonical := ⟨by rw [hM]; exact Memory.wf_writeBytes _ _ _ hMwf, by rw [b2, k2]; exact hcs⟩
  obtain ⟨c1, c0, c2, c3⟩ := setSide_reads B line side hBc
  have eC : B.homeSide line (some side) = B.setSide line side := rfl
  rw [eC] at et
  rw [sideCell_same (b5.trans k5)] at c2
  generalize B.setSide line side = C at c0 c1 c2 c3 et
  have d0 := homeClean_same C line (bs.length == 64)
  generalize C.homeClean line (bs.length == 64) = D at d0 et
  have e0 := homeKey_same D own line
  have eo : (D.homeKey own line).owners = if (isHbm (64 * line) || isFar (64 * line)) = true then assocSet D.owners (D.cell line) (D.keyOf own, line) else D.owners := by
    unfold State.homeKey; split <;> rfl
  generalize D.homeKey own line = E at e0 eo et
  have f0 := homeHost_same E line
  generalize E.homeHost line = F at f0 et
  have Fm : F.mem = C.mem :=
    (congrArg State.mem f0 :).trans ((congrArg State.mem e0 :).trans (congrArg State.mem d0 :))
  have Fs : F.sides = C.sides := (congrArg State.sides f0 :).trans ((congrArg State.sides e0 :).trans (congrArg State.sides d0 :))
  have Dp : D.parts = s.parts := (congrArg State.parts d0 :).trans ((congrArg State.parts c0 :).trans (b4.trans k4))
  have Dk : D.pkg = s.pkg := (congrArg State.pkg d0 :).trans ((congrArg State.pkg c0 :).trans (b5.trans k5))
  have Do : D.owners = s.owners := (congrArg State.owners d0 :).trans ((congrArg State.owners c0 :).trans (b3.trans k3))
  have Fp : F.parts = s.parts := (congrArg State.parts f0 :).trans ((congrArg State.parts e0 :).trans Dp)
  have Fk : F.pkg = s.pkg := (congrArg State.pkg f0 :).trans ((congrArg State.pkg e0 :).trans Dk)
  have Fo : F.owners = if (isHbm (64 * line) || isFar (64 * line)) = true then assocSet s.owners (s.cell line) (s.keyOf own, line) else s.owners := by
    rw [(show F.owners = E.owners from (congrArg State.owners f0 :)), eo, Do, keyOf_same Dp Dk, cell_same Dk]
  obtain ⟨e1, e2, e3, e4, e5, e6⟩ : Keep F ((F.touchTiles (64 * line) 64).evalMonitors line) :=
    Keep.trans ⟨rfl, rfl, rfl, rfl, rfl, fun _ h => h⟩ (eval_keep _ line)
  rw [← et] at e1 e2 e3 e4 e5 e6
  have tm : t.mem = C.mem := e1.trans Fm
  have rdB : ∀ b, B.mem.read b = if s.cell line + a % 64 ≤ b ∧ b < s.cell line + a % 64 + bs.length then bs.getD (b - (s.cell line + a % 64)) 0 else M.read b := by
    intro b; rw [hM]; exact writeBytes_read _ _ _ hMwf b
  have cellt : ∀ l, t.cell l = s.cell l := cell_same (e5.trans Fk)
  have byS : ∀ d, S.byteAs own d = s.byteAs own d := fun d => byteAs_stores _ _ _ _ k1 k3 k4 k5
  have keyt : t.keyOf own = s.keyOf own := keyOf_same (e4.trans Fp) (e5.trans Fk) own
  refine ⟨⟨by rw [tm]; exact c1.1, by rw [e2, Fs]; exact c1.2⟩, e4.trans Fp, e5.trans Fk, fun b hcl => ?_,
    fun l hl => by rw [e2, Fs, c3 l hl, b2, k2], fun k hk => ?_, fun d hd hs => ?_⟩
  · rw [tm, c2 b hcl.2, rdB, if_neg (by have := hcl.1; omega), hMout b hcl.1, k1]
  · rw [e3, Fo]
    split
    · unfold assocGet assocSet
      rw [List.find?_cons_of_neg (by simpa using fun h => hk h.symm), List.find?_filter]
      congr 2
      funext p
      by_cases hp : p.1 = k
      · simp [hp, hk]
      · simp [hp]
    · rfl
  · have hn : t.foreign own (d / 64) = none := by
      unfold State.foreign
      rw [e3, Fo, keyt, hd, cellt]
      split
      · simp [assocGet, assocSet]
      · rfl
    have hd64 : d % 64 < 64 := Nat.mod_lt _ (by omega)
    have e : t.byteAs own d = t.mem.read (s.cell line + d % 64) := by unfold State.byteAs; rw [hn, cellt, hd]
    rw [e, tm, c2 _ (hs _ hd64), rdB, hMin d hd, byS]
    have hx : a = 64 * line + a % 64 := by omega
    have hy : d = 64 * line + d % 64 := by omega
    by_cases hq : a ≤ d ∧ d < a + bs.length
    · rw [if_pos (by omega), if_pos hq]; congr 1; omega
    · rw [if_neg (by omega), if_neg hq]

/-- A line that stands apart from a written one reads as before, to every partition. -/
theorem byteAs_apart {s t : State} (hp : t.parts = s.parts) (hk : t.pkg = s.pkg) (own a line : Nat)
    (hm : ∀ b, s.clearOf b line → t.mem.read b = s.mem.read b) (ho : ∀ k, k ≠ s.cell line → assocGet t.owners k = assocGet s.owners k)
    (ha : ∀ i < 64, s.clearOf (s.cell (a / 64) + i) line) : t.byteAs own a = s.byteAs own a := by
  have hne : s.cell (a / 64) ≠ s.cell line := by
    have := (ha 0 (by omega)).1; omega
  have hforeign : t.foreign own (a / 64) = s.foreign own (a / 64) := by
    unfold State.foreign; rw [keyOf_same hp hk, cell_same hk, ho _ hne]
  have hread : ∀ b, s.cell (a / 64) ≤ b → b < s.cell (a / 64) + 64 → t.mem.read b = s.mem.read b := fun b h1 h2 => by
    have := ha (b - s.cell (a / 64)) (by omega)
    rw [show s.cell (a / 64) + (b - s.cell (a / 64)) = b by omega] at this
    exact hm b this
  unfold State.byteAs
  rw [hforeign, keyOf_same hp hk, cell_same hk]
  have h64 : a % 64 < 64 := Nat.mod_lt _ (by omega)
  cases s.foreign own (a / 64) with
  | none => exact hread _ (by omega) (by omega)
  | some k => dsimp only; rw [readBytes_congr t.mem s.mem _ _ hread]

theorem StoredOnly.refl (s : State) : StoredOnly s s := ⟨rfl, rfl⟩
theorem StoredOnly.trans {s t u : State} (h : StoredOnly s t) (k : StoredOnly t u) : StoredOnly s u := by
  refine ⟨?_, k.cohorts.trans h.cohorts⟩
  have h1 := h.rest
  rw [← k.rest] at h1
  exact h1
theorem quiet_modGang (c : Cohort) (g : Nat) (f : Gang → Gang) (hf : ∀ x, { f x with arm := .idle } = f { x with arm := .idle }) :
    (c.modGang g f).unarmed = c.unarmed.modGang g f := by
  unfold Cohort.unarmed Cohort.modGang
  simp only [List.map_map]
  congr 2
  funext x
  simp only [Function.comp]
  split
  · exact hf x
  · rfl
theorem modCohort_unarmed (s : State) (co : Nat) (f : Cohort → Cohort) (hf : ∀ c, (f c).unarmed = c.unarmed) :
    StoredOnly s (s.modCohort co f) := by
  refine ⟨rfl, ?_⟩
  simp only [State.modCohort, List.map_map]
  congr 1
  funext c
  simp only [Function.comp]
  split
  · exact hf c
  · rfl
theorem fire_stored (s : State) (m : Monitor) (x : LaneWait) : StoredOnly s (s.fire m x) := by
  unfold State.fire
  dsimp only
  split
  · refine StoredOnly.trans (t := { s with monitors := s.monitors.filter fun e => e.id != m.id, waitcs := _ }) ⟨rfl, rfl⟩ (modCohort_unarmed _ _ _ fun c => ?_)
    split <;> rfl
  · refine StoredOnly.trans (t := { s with monitors := s.monitors.filter fun e => e.id != m.id }) ⟨rfl, rfl⟩ (modCohort_unarmed _ _ _ fun c => ?_)
    unfold Cohort.unarmed Cohort.modGang
    simp only [List.map_map]
    congr 2
    funext g
    simp only [Function.comp]
    split
    · split <;> rfl
    · rfl
theorem eval_stored (s : State) (line : Nat) : StoredOnly s (s.evalMonitors line) := by
  unfold State.evalMonitors
  generalize (s.monitors.filter fun m => m.addr / 64 == line) = l
  induction l generalizing s with
  | nil => exact .refl s
  | cons m t ih =>
    rw [List.foldl_cons]
    refine .trans ?_ (ih _)
    dsimp only
    split
    · exact fire_stored ..
    · exact .refl s
theorem allParts_unarmed (s : State) : s.allParts = ({ s with cohorts := s.cohorts.map Cohort.unarmed } : State).allParts := by
  unfold State.allParts
  simp only [Cohort.unarmed, List.flatMap_map]
/-- A write that strikes nobody (R105) changes storage and nothing else. -/
theorem homeWrite_stored (s : State) (me : Option Nat) (own a : Nat) (bs : List Byte) (side : Option Side)
    (hn : ∀ o ∈ s.allParts, me ≠ some o.2.id → s.strikes (a / 64) .write o.2 = false) : StoredOnly s (s.homeWrite me own a bs side) := by
  have hs : s.strike (a / 64) .write me = s := by
    unfold State.strike
    have : ∀ (l : List (PartRef × Part)), (∀ o ∈ l, me ≠ some o.2.id → s.strikes (a / 64) .write o.2 = false) →
        l.foldl (fun t x => if me != some x.2.id && s.strikes (a / 64) .write x.2 then t.rollback x.1 true else t) s = s := by
      intro l
      induction l with
      | nil => intro _; rfl
      | cons o l ih =>
        intro h
        rw [List.foldl_cons, if_neg, ih fun p hp => h p (by simp [hp])]
        simp only [Bool.and_eq_true, bne_iff_ne, ne_eq, not_and, Bool.not_eq_true]
        exact h o (by simp)
    exact this _ hn
  unfold State.homeWrite State.homeWriteAs
  split
  · exact .refl s
  rw [homeCore_stages, hs]
  refine .trans (t := (s.homeBytes own (a / 64) (fun m => m.writeBytes (s.cell (a / 64) + a % 64) bs))) ⟨rfl, rfl⟩ ?_
  generalize s.homeBytes own (a / 64) (fun m => m.writeBytes (s.cell (a / 64) + a % 64) bs) = B
  refine .trans (t := B.homeSide (a / 64) side) ?_ ?_
  · unfold State.homeSide State.setSide
    dsimp only
    repeat' split
    all_goals exact ⟨rfl, rfl⟩
  generalize B.homeSide (a / 64) side = C
  refine .trans (t := C.homeClean (a / 64) (bs.length == 64)) ?_ ?_
  · unfold State.homeClean; split <;> exact ⟨rfl, rfl⟩
  generalize C.homeClean (a / 64) (bs.length == 64) = D
  refine .trans (t := D.homeKey own (a / 64)) ?_ ?_
  · unfold State.homeKey; split <;> exact ⟨rfl, rfl⟩
  generalize D.homeKey own (a / 64) = E
  refine .trans (t := E.homeHost (a / 64)) ?_ ?_
  · unfold State.homeHost; split <;> exact ⟨rfl, rfl⟩
  generalize E.homeHost (a / 64) = F
  exact .trans (t := F.touchTiles (64 * (a / 64)) 64) ⟨rfl, rfl⟩ (eval_stored ..)
/-- Pieces written one after another at their home slices. -/
theorem homeWrites_all (own : Nat) (me : Option Nat) (data : Piece → List Byte) (side : Piece → Side) (ps : List Piece) (s : State) (hc : s.canonical)
    (hl : ∀ q ∈ ps, q.x.addr % 64 + (data q).length ≤ 64) :
    let t := ps.foldl (fun t q => t.homeWrite me own q.x.addr (data q) (some (side q))) s
    t.canonical ∧ t.parts = s.parts ∧ t.pkg = s.pkg ∧
      (∀ b, (∀ q ∈ ps, s.clearOf b (q.x.addr / 64)) → t.mem.read b = s.mem.read b) ∧
      (∀ l, (∀ q ∈ ps, l ≠ q.x.addr / 64) → t.sides.read l = s.sides.read l) ∧
      (∀ o a, (∀ q ∈ ps, s.apart (a / 64) (q.x.addr / 64)) → t.byteAs o a = s.byteAs o a) ∧
      (∀ a, (∀ q ∈ ps, s.sound (a / 64) (q.x.addr / 64)) → t.byteAs own a = (lastByte ps data a).getD (s.byteAs own a)) := by
  induction ps generalizing s with
  | nil => exact ⟨hc, rfl, rfl, fun _ _ => rfl, fun _ _ => rfl, fun _ _ _ => rfl, fun _ _ => rfl⟩
  | cons q ps ih =>
    obtain ⟨h1, h2, h3, h4, h5, h6, h7⟩ := homeWrite_reads s me own q.x.addr (data q) (side q) hc (hl q (by simp))
    have hb := fun o a => byteAs_apart h2 h3 o a (q.x.addr / 64) h4 h6
    generalize hu : s.homeWrite me own q.x.addr (data q) (some (side q)) = u at *
    obtain ⟨k1, k2, k3, k4, k5, k6, k7⟩ := ih u h1 fun q hq => hl q (by simp [hq])
    have ecl : ∀ b l, u.clearOf b l ↔ s.clearOf b l := fun b l => by unfold State.clearOf; rw [cell_same h3, sideCell_same h3]
    have eap : ∀ k l, u.apart k l ↔ s.apart k l := fun k l => by unfold State.apart; simp only [ecl, cell_same h3]
    have eso : ∀ k l, u.sound k l ↔ s.sound k l := fun k l => by unfold State.sound; simp only [eap, cell_same h3, sideCell_same h3]
    simp only [List.foldl_cons, hu]
    refine ⟨k1, k2.trans h2, k3.trans h3, fun b hq => ?_, fun l hq => ?_, fun o a hq => ?_, fun a hq => ?_⟩
    · rw [k4 b fun p hp => (ecl ..).mpr (hq p (by simp [hp])), h4 b (hq q (by simp))]
    · rw [k5 l fun p hp => hq p (by simp [hp]), h5 l (hq q (by simp))]
    · rw [k6 o a fun p hp => (eap ..).mpr (hq p (by simp [hp])), hb o a (hq q (by simp))]
    · rw [k7 a fun p hp => (eso ..).mpr (hq p (by simp [hp]))]
      have hq0 := hq q (by simp)
      have : u.byteAs own a = if covers q (data q).length a = true then (data q).getD (a - q.x.addr) 0 else s.byteAs own a := by
        rcases hq0 with ⟨he, hs⟩ | hs
        · rw [h7 a he fun i hi c hf hc => by have := hs i hi c hf hc; rwa [he] at this]
          have : covers q (data q).length a = true ↔ (q.x.addr ≤ a ∧ a < q.x.addr + (data q).length) := by
            unfold covers; simp only [Bool.and_eq_true, decide_eq_true_eq, beq_iff_eq]; exact ⟨fun h => h.1, fun h => ⟨h, he⟩⟩
          simp only [this]
        · rw [hb own a hs, if_neg]
          unfold covers
          simp only [Bool.and_eq_true, decide_eq_true_eq, beq_iff_eq]
          rintro ⟨-, he⟩
          have h0 := (hs 0 (by omega)).1
          rw [he] at h0; omega
      rw [this]
      unfold lastByte
      rw [List.reverse_cons, List.find?_append]
      cases hf : ps.reverse.find? fun q => covers q (data q).length a with
      | some p => simp
      | none =>
        by_cases hcv : covers q (data q).length a = true
        · simp [hcv]
        · simp [hcv]

/-- Pieces that strike nobody change storage and nothing else. -/
theorem homeWrites_stored (own : Nat) (me : Option Nat) (data : Piece → List Byte) (side : Piece → Side) (ps : List Piece) (s : State)
    (hn : ∀ o ∈ s.allParts, me ≠ some o.2.id → ∀ q ∈ ps, s.strikes (q.x.addr / 64) .write o.2 = false) :
    StoredOnly s (ps.foldl (fun t q => t.homeWrite me own q.x.addr (data q) (some (side q))) s) := by
  induction ps generalizing s with
  | nil => exact .refl s
  | cons q ps ih =>
    have h := homeWrite_stored s me own q.x.addr (data q) (some (side q)) fun o ho hm => hn o ho hm q (by simp)
    rw [List.foldl_cons]
    generalize s.homeWrite me own q.x.addr (data q) (some (side q)) = u at *
    refine h.trans (ih u fun o ho hm p hp => ?_)
    have ha : u.allParts = s.allParts := by
      rw [allParts_unarmed u, allParts_unarmed s, h.cohorts]; rfl
    have hst : u.stores = s.stores := (congrArg State.stores h.rest :)
    have := hn o (ha ▸ ho) hm p (by simp [hp])
    unfold State.strikes at this ⊢
    rw [hst]; exact this

theorem modPart_unarmed (u : State) (r : PartRef) (f : Part → Part) : (u.modPart r f).cohorts.map Cohort.unarmed =
    (u.cohorts.map Cohort.unarmed).map fun c => if c.id = r.cohort then c.modGang r.gang fun g => g.modPart r.quad f else c := by
  simp only [State.modPart, State.modGang, State.modCohort, List.map_map]
  congr 1
  funext c
  simp only [Function.comp]
  have hi : c.unarmed.id = c.id := rfl
  rw [hi]
  split
  · unfold Cohort.unarmed Cohort.modGang
    simp only [List.map_map]
    congr 2
    funext x
    simp only [Function.comp]
    split <;> rfl
  · rfl
theorem modPart_stored {s t : State} (h : StoredOnly s t) (r : PartRef) (f : Part → Part) : StoredOnly (s.modPart r f) (t.modPart r f) := by
  refine ⟨?_, by rw [modPart_unarmed, modPart_unarmed, h.cohorts]⟩
  have := congrArg (fun u : State => ({ u with cohorts := (s.modPart r f).cohorts } : State)) h.rest
  exact this
theorem flows_stored {s t : State} (h : StoredOnly s t) (y : Ctx) (f : Form) (c : Bool) : StoredOnly (s.flows y f c) (t.flows y f c) := by
  have h1 := modPart_stored h y.r fun q => { q.counted c with pc := nextPc y.v.part.header y.v.part.pc f.len }
  unfold State.flows State.afterClose
  split
  · refine ⟨?_, h1.cohorts⟩
    have := congrArg (fun u : State => u.due [.runCommit y.r]) h1.rest
    exact this
  · exact h1

theorem directStore_of {i : Instr} {f : Form} {imm : Word} {z : Space} {h : How} {es : Ctx → List Elem} {data : Ctx → Piece → List Byte}
    {side : Ctx → Piece → Side} {sem : Sem} (hi : ∀ s, exec i s = issue f imm sem s)
    (hs : ∀ t y, y.v.imm = imm → Clear z h es t y → Writable (found z h es t y).2 ((found z h es t y).2.fresh y) (found z h es t y).1.ok →
      sem t y = .fall ((found z h es t y).1.ok.foldl (fun s q => s.storePiece ((found z h es t y).2.fresh y) q (data y q) (side y q)) (found z h es t y).2) false) :
    DirectStore i f imm z h es data := by
  intro s x t y w s' hr hc hw hwr hd hwt hl hp hcan he
  have hy : y.v.imm = imm := ctx?_imm hr.now
  have hf : (found z h es t y).2.fresh y = w := by
    unfold State.fresh; rw [hy, hw]; rfl
  rw [hi, issue_ready hr, hs t y hy hc (hf ▸ hwt), hf] at he
  injection he with he
  generalize (found z h es t y).1.ok = ps at *
  generalize (found z h es t y).2 = u at *
  have hfold : ∀ (l : List Piece) (v : State), (∀ q ∈ l, q.x.leaves = []) → l.foldl (fun s q => s.storePiece w q (data y q) (side y q)) v =
      l.foldl (fun s q => s.homeWrite (some w.v.part.id) w.own q.x.addr (data y q) (some (side y q))) v := by
    intro l
    induction l with
    | nil => intro v _; rfl
    | cons q l ih =>
      intro v hq
      rw [List.foldl_cons, List.foldl_cons, ih _ fun p hp => hq p (by simp [hp])]
      congr 1
      unfold State.storePiece
      rw [hd, hq q (by simp)]
      rfl
  rw [hfold ps u hl] at he
  obtain ⟨h1, h2, h3, h4, h5, h6, h7⟩ := homeWrites_all w.own (some w.v.part.id) (data y) (side y) ps u hcan hp
  have h8 := homeWrites_stored w.own (some w.v.part.id) (data y) (side y) ps u
  generalize ps.foldl (fun s q => s.homeWrite (some w.v.part.id) w.own q.x.addr (data y q) (some (side y q))) u = v at *
  rw [← he]
  simp only [State.finish]
  split
  · right
    have hw : SameBut [] 0 imm t y (t.waits y.r .room) := (modPart_sameBut hr.now (fun p => { p with wait := .room }) fun _ => rfl)
    split
    · exact hw.due _
    · exact hw
  · left
    have eb : ∀ e : State, e.mem = v.mem → e.sides = v.sides → e.owners = v.owners → e.parts = v.parts → e.pkg = v.pkg → e.canonical ∧
      (∀ b, (∀ q ∈ ps, u.clearOf b (q.x.addr / 64)) → e.mem.read b = u.mem.read b) ∧
      (∀ l, (∀ q ∈ ps, l ≠ q.x.addr / 64) → e.sides.read l = u.sides.read l) ∧
      (∀ o a, (∀ q ∈ ps, u.apart (a / 64) (q.x.addr / 64)) → e.byteAs o a = u.byteAs o a) ∧
      (∀ a, (∀ q ∈ ps, u.sound (a / 64) (q.x.addr / 64)) → e.byteAs w.own a = (lastByte ps (data y) a).getD (u.byteAs w.own a)) := by
      intro e e1 e2 e3 e4 e5
      have eby : ∀ o a, e.byteAs o a = v.byteAs o a := fun o a => byteAs_stores _ _ _ _ e1 e3 e4 e5
      unfold State.canonical at *
      simp only [e1, e2, eby]
      exact ⟨h1, h4, h5, h6, h7⟩
    have hfl : v.flows y f f.closes = (v.modPart y.r fun q => { q.counted (f.closes || false) with pc := nextPc y.v.part.header y.v.part.pc f.len }).afterClose y.r (f.closes || false) := by
      unfold State.flows; rw [Bool.or_false]
    rw [← hfl]
    obtain ⟨g1, g2, g3, g4, g5⟩ := eb (v.flows y f f.closes) (by unfold State.flows State.afterClose; split <;> rfl) (by unfold State.flows State.afterClose; split <;> rfl)
      (by unfold State.flows State.afterClose; split <;> rfl) (by unfold State.flows State.afterClose; split <;> rfl) (by unfold State.flows State.afterClose; split <;> rfl)
    have hmem : ∀ P : Nat → Prop, (∀ l ∈ ps.map fun q => q.x.addr / 64, P l) → ∀ q ∈ ps, P (q.x.addr / 64) := fun P h q hq => h _ (List.mem_map.mpr ⟨q, hq, rfl⟩)
    refine ⟨⟨g1, fun b hb => g2 b (hmem _ hb), fun l hl => g3 l fun q hq e => hl (e ▸ List.mem_map.mpr ⟨q, hq, rfl⟩), fun o a ha => g4 o a (hmem _ ha)⟩, g5, fun hn => ⟨?_, flows_stored (h8 fun o ho hm q hq => hn o ho (fun h => hm (by rw [h])) q hq) y f f.closes⟩⟩
    have h9 := modPart_sameBut hw (fun q => { q.counted f.closes with pc := nextPc y.v.part.header y.v.part.pc f.len }) fun _ => rfl
    rw [hwr] at h9
    unfold State.flows State.afterClose
    split
    · exact h9.due _
    · exact h9
theorem dirtyFor_none (s : State) (part : Nat) (l : List Request) (h : ∀ q ∈ l, q.leaves = []) : s.dirtyFor part l = s := by
  unfold State.dirtyFor
  induction l with
  | nil => rfl
  | cons q l ih =>
    rw [List.foldl_cons, h q (by simp)]
    have : s.setDirty part [] = s := rfl
    rw [this, ite_self, ih fun p hp => h p (by simp [hp])]

/-- What requests of a part change that leave the package or write some lines here, striking nobody. -/
structure Going (ls : List Nat) (v t : State) : Prop where
  stored : StoredIn ls v t
  moved : StoredOnly v { t with reqs := v.reqs, fabric := v.fabric, agenda := v.agenda }

theorem Going.moves {ls : List Nat} {v t u : State} (h : Going ls v t)
    (e : u = { t with reqs := u.reqs, fabric := u.fabric, agenda := u.agenda, out := u.out }) : Going ls v u := by
  have em : u.mem = t.mem := (congrArg State.mem e :)
  have es : u.sides = t.sides := (congrArg State.sides e :)
  have eo : u.owners = t.owners := (congrArg State.owners e :)
  have ep : u.parts = t.parts := (congrArg State.parts e :)
  have ek : u.pkg = t.pkg := (congrArg State.pkg e :)
  refine ⟨⟨?_, fun b hb => ?_, fun l hl => ?_, fun o a ha => ?_⟩, ⟨?_, ?_⟩⟩
  · unfold State.canonical; rw [em, es]; exact h.stored.canonical
  · rw [em]; exact h.stored.bytes b hb
  · rw [es]; exact h.stored.sides l hl
  · rw [byteAs_stores _ _ _ _ em eo ep ek]; exact h.stored.reads o a ha
  · rw [e]; exact h.moved.rest
  · rw [show ({ u with reqs := v.reqs, fabric := v.fabric, agenda := v.agenda } : State).cohorts = t.cohorts from (congrArg State.cohorts e :)]
    exact h.moved.cohorts

/-- One more piece written here. -/
theorem Going.writes {ls : List Nat} {v t : State} (h : Going ls v t) (me : Nat) (own a : Nat) (bs : List Byte) (side : Side) (ha : a / 64 ∈ ls)
    (hl : a % 64 + bs.length ≤ 64) (hn : ∀ o ∈ v.allParts, o.2.id ≠ me → ∀ l ∈ ls, v.strikes l .write o.2 = false) :
    Going ls v (t.homeWrite (some me) own a bs (some side)) ∧ (t.homeWrite (some me) own a bs (some side)).reqs = t.reqs := by
  have hpk : t.pkg = v.pkg := (congrArg State.pkg h.moved.rest :)
  have hall : t.allParts = v.allParts := by
    rw [allParts_unarmed t, allParts_unarmed v, show t.cohorts.map Cohort.unarmed = _ from h.moved.cohorts]; rfl
  have hst : t.stores = v.stores := (congrArg State.stores h.moved.rest :)
  have hs := homeWrite_stored t (some me) own a bs (some side) fun o ho hm => by
    have := hn o (hall ▸ ho) (fun e => hm (by rw [e])) (a / 64) ha
    unfold State.strikes at this ⊢
    rw [hst]; exact this
  obtain ⟨h1, h2, h3, h4, h5, h6, h7⟩ := homeWrite_reads t (some me) own a bs side h.stored.canonical hl
  have hb := fun o d => byteAs_apart h2 h3 o d (a / 64) h4 h6
  have hrq : (t.homeWrite (some me) own a bs (some side)).reqs = t.reqs := (congrArg State.reqs hs.rest :)
  have hfb : (t.homeWrite (some me) own a bs (some side)).fabric = t.fabric := (congrArg State.fabric hs.rest :)
  have hag : (t.homeWrite (some me) own a bs (some side)).agenda = t.agenda := (congrArg State.agenda hs.rest :)
  generalize t.homeWrite (some me) own a bs (some side) = u at *
  have ecl : ∀ b l, t.clearOf b l ↔ v.clearOf b l := fun b l => by unfold State.clearOf; rw [cell_same hpk, sideCell_same hpk]
  have eap : ∀ k l, t.apart k l ↔ v.apart k l := fun k l => by unfold State.apart; simp only [ecl, cell_same hpk]
  refine ⟨⟨⟨h1, fun b hq => ?_, fun l hq => ?_, fun o d hq => ?_⟩, ?_⟩, hrq⟩
  · rw [h4 b ((ecl ..).mpr (hq _ ha)), h.stored.bytes b hq]
  · rw [h5 l (fun e => hq (e ▸ ha)), h.stored.sides l hq]
  · rw [hb o d ((eap ..).mpr (hq _ ha)), h.stored.reads o d hq]
  · refine h.moved.trans ⟨?_, hs.cohorts⟩
    have := congrArg (fun x : State => ({ x with reqs := v.reqs, fabric := v.fabric, agenda := v.agenda } : State)) hs.rest
    exact this

/-- A request of a store that leaves the package, or writes some line here, and sets no dirty bit. -/
def Request.goes (ls : List Nat) (q : Request) : Prop :=
  (q.io = true ∨ q.peer ≠ none ∨ (q.addr / 64 ∈ ls ∧ ∃ bs x, q.kind = .store bs x false ∧ q.addr % 64 + bs.length ≤ 64)) ∧
  q.leaves = [] ∧ (q.ans = none ∨ q.ans = some .ack)

/-- All requests of a part are such, and so are all of their groups; errors in payloads have struck none of them. -/
def Bound (ls : List Nat) (pid : Nat) (s : State) : Prop :=
  (∀ q ∈ s.reqs, q.copyOp = none → q.part = pid → q.goes ls ∧ assocGet s.spoiled q.id = none ∧
    ∀ r ∈ s.reqs, r.group = q.group → r.copyOp = none ∧ r.part = pid ∧ r.io = q.io ∧ r.peer = q.peer) ∧ assocGet s.spoiled pid = none

theorem sendRemote_sent (s : State) (q : Request) : s.sendRemote q =
    { s with reqs := (s.sendRemote q).reqs, fabric := (s.sendRemote q).fabric, agenda := (s.sendRemote q).agenda, out := (s.sendRemote q).out } ∧
    ∃ f : Request → Request, (s.sendRemote q).reqs = s.reqs.map f ∧ ∀ x, { f x with port := x.port } = x := by
  unfold State.sendRemote
  split
  · exact ⟨rfl, id, by simp, fun _ => rfl⟩
  · split
    · exact ⟨rfl, id, by simp, fun _ => rfl⟩
    · exact ⟨rfl, _, rfl, fun x => by split <;> rfl⟩

theorem bound_map {ls : List Nat} {pid : Nat} {s t : State} {f : Request → Request} (hs : Bound ls pid s) (ht : t.reqs = s.reqs.map f) (hp : t.spoiled = s.spoiled)
    (hf : ∀ x, { f x with ans := x.ans, sent := x.sent, deadline := x.deadline, port := x.port } = x ∧
      (x.goes ls → (f x).ans = none ∨ (f x).ans = some .ack)) : Bound ls pid t := by
  refine ⟨fun q hq hc hpt => ?_, by rw [hp]; exact hs.2⟩
  rw [ht] at hq ⊢
  obtain ⟨x, hx, rfl⟩ := List.mem_map.mp hq
  obtain ⟨e, e7⟩ := hf x
  have e4 : (f x).copyOp = x.copyOp := (congrArg Request.copyOp e :)
  have e5 : (f x).part = x.part := (congrArg Request.part e :)
  obtain ⟨hl, hsp, hg⟩ := hs.1 x hx (e4 ▸ hc) (e5 ▸ hpt)
  refine ⟨⟨?_, ?_, e7 hl⟩, ?_, fun r hr hrg => ?_⟩
  · rw [show (f x).io = x.io from (congrArg Request.io e :), show (f x).peer = x.peer from (congrArg Request.peer e :),
      show (f x).addr = x.addr from (congrArg Request.addr e :), show (f x).kind = x.kind from (congrArg Request.kind e :)]
    exact hl.1
  · rw [show (f x).leaves = x.leaves from (congrArg Request.leaves e :)]; exact hl.2.1
  · rw [hp, show (f x).id = x.id from (congrArg Request.id e :)]; exact hsp
  · obtain ⟨y, hy, rfl⟩ := List.mem_map.mp hr
    have g := (hf y).1
    rw [show (f y).copyOp = y.copyOp from (congrArg Request.copyOp g :), show (f y).part = y.part from (congrArg Request.part g :),
      show (f y).io = y.io from (congrArg Request.io g :), show (f y).peer = y.peer from (congrArg Request.peer g :),
      show (f x).io = x.io from (congrArg Request.io e :), show (f x).peer = x.peer from (congrArg Request.peer e :)]
    refine hg y hy ?_
    rw [← show (f y).group = y.group from (congrArg Request.group g :), hrg]
    exact (congrArg Request.group e :)

theorem homeWrites_line (s : State) (me : Option Nat) (own a : Nat) (bs : List Byte) (side : Option Side) (h : a % 64 + bs.length ≤ 64) :
    s.homeWrites me own a bs side = s.homeWrite me own a bs side := by
  unfold State.homeWrites splitLines
  dsimp only
  rw [if_pos (by omega)]
  rfl

/-- Requests of a store here performed. -/
theorem performHere_going {ls : List Nat} {pid : Nat} {v : State} (hn : ∀ o ∈ v.allParts, o.2.id ≠ pid → ∀ l ∈ ls, v.strikes l .write o.2 = false)
    (l : List Request) {s : State} (hg : Going ls v s) (hs : Bound ls pid s)
    (hl : ∀ q ∈ l, q.part = pid ∧ assocGet s.spoiled q.id = none ∧ q.leaves = [] ∧ q.addr / 64 ∈ ls ∧ ∃ bs x, q.kind = .store bs x false ∧ q.addr % 64 + bs.length ≤ 64) :
    Going ls v (s.performHere l) ∧ Bound ls pid (s.performHere l) := by
  unfold State.performHere
  induction l generalizing s with
  | nil => exact ⟨hg, hs⟩
  | cons q l ih =>
    rw [List.foldl_cons]
    obtain ⟨h1, h2, h3, h4, bs, x, h5, h6⟩ := hl q (by simp)
    obtain ⟨k1, k2⟩ := hg.writes pid q.own q.addr bs (x.getD Sides.untyped) h4 h6 hn
    have ksp : (s.homeWrite (some pid) q.own q.addr bs (some (x.getD Sides.untyped))).spoiled = s.spoiled :=
      (congrArg State.spoiled k1.moved.rest :).trans (congrArg State.spoiled hg.moved.rest :).symm
    have hp : s.performOne q = (s.homeWrite (some pid) q.own q.addr bs (some (x.getD Sides.untyped)), .ack) := by
      have hd : s.setDirty q.own [] = s := rfl
      have ha : s.homeAccess (some q.part) q.own q.addr q.leaves q.kind = (s.homeWrite (some pid) q.own q.addr bs (some (x.getD Sides.untyped)), .ack) := by
        unfold State.homeAccess
        simp only [h5, h3, hd, h1, homeWrites_line _ _ _ _ _ _ h6, Bool.false_eq_true, if_false]
      generalize s.homeWrite (some pid) q.own q.addr bs (some (x.getD Sides.untyped)) = u at *
      have hst : ∀ k n, assocGet s.spoiled k = none → u.struck k n = (false, u) := fun k n h => by
        unfold State.struck State.struckWith; rw [ksp, h]
      rw [h1] at ha
      unfold State.performOne
      simp only [h1, ha, hst _ _ hs.2, hst _ _ h2]
      rfl
    rw [hp]
    dsimp only
    generalize s.homeWrite (some pid) q.own q.addr bs (some (x.getD Sides.untyped)) = u at *
    have hb : Bound ls pid (u.modReq q.id fun q => { q with sent := true, ans := some .ack }) := by
      refine bound_map (s := s) hs (f := fun y => if y.id = q.id then { y with sent := true, ans := some .ack } else y) ?_ ksp fun y => ?_
      · show (u.reqs.map _) = _
        rw [k2]
      · split
        · exact ⟨rfl, fun _ => .inr rfl⟩
        · exact ⟨rfl, fun h => h.2.2⟩
    refine ih (k1.moves rfl) hb fun r hr => ?_
    have : (u.modReq q.id fun q => { q with sent := true, ans := some .ack }).spoiled = s.spoiled := ksp
    rw [this]
    exact hl r (by simp [hr])

theorem issueReq_going {ls : List Nat} {pid : Nat} {v s : State} {q : Request}
    (hn : ∀ o ∈ v.allParts, o.2.id ≠ pid → ∀ l ∈ ls, v.strikes l .write o.2 = false) (hg : Going ls v s) (hs : Bound ls pid s)
    (hq : q ∈ s.reqs) (hc : q.copyOp = none) (hp : q.part = pid) :
    Going ls v (s.issueReq q) ∧ Bound ls pid (s.issueReq q) := by
  obtain ⟨hl, hsp, hgr⟩ := hs.1 q hq hc hp
  have hgo : ∀ r ∈ s.groupOf q, r ∈ s.reqs ∧ r.group = q.group := by
    intro r hr
    simpa only [State.groupOf, List.mem_filter, beq_iff_eq] using hr
  have hgl : ∀ r ∈ s.groupOf q, r.leaves = [] := by
    intro r hr
    obtain ⟨a, b⟩ := hgo r hr
    obtain ⟨c, d, -⟩ := hgr r a b
    exact (hs.1 r a c d).1.2.1
  unfold State.issueReq
  split
  · dsimp only
    rw [dirtyFor_none _ _ _ hgl]
    generalize hd : s.fabricTime + 1000 * s.rto ((s.cohort? q.cohort).elim q.own (·.part)) = d
    generalize hu : s.modGroup q.group (fun x => { x with sent := true, deadline := d }) = u
    have h1 : Going ls v u := hg.moves (by rw [← hu]; rfl)
    have h2 : Bound ls pid u := by
      rw [← hu]
      refine bound_map hs rfl rfl fun x => ?_
      split <;> exact ⟨rfl, fun h => h.2.2⟩
    obtain ⟨k1, f, k2, k3⟩ := sendRemote_sent u { q with sent := true, deadline := d }
    refine ⟨h1.moves k1, bound_map h2 k2 (by rw [k1]) fun x => ?_⟩
    have := k3 x
    refine ⟨?_, fun h => by rw [(congrArg Request.ans this :)]; exact h.2.2⟩
    have := congrArg (fun y : Request => ({ y with ans := x.ans, sent := x.sent, deadline := x.deadline } : Request)) this
    exact this
  · split
    · dsimp only
      rw [dirtyFor_none _ _ _ (by simp [hl.2.1])]
      refine ⟨hg.moves rfl, bound_map hs rfl rfl fun x => ?_⟩
      split
      · exact ⟨rfl, fun _ => .inr rfl⟩
      · exact ⟨rfl, fun h => h.2.2⟩
    · refine ⟨hg.moves rfl, bound_map hs rfl rfl fun x => ?_⟩
      split <;> exact ⟨rfl, fun h => h.2.2⟩
    · exact ⟨hg, hs⟩
  · rename_i h1 h2
    have hlocal : ∀ r ∈ s.groupOf q, r.part = pid ∧ assocGet s.spoiled r.id = none ∧ r.leaves = [] ∧ r.addr / 64 ∈ ls ∧
        ∃ bs x, r.kind = .store bs x false ∧ r.addr % 64 + bs.length ≤ 64 := by
      intro r hr
      obtain ⟨a, b⟩ := hgo r hr
      obtain ⟨c, d, i1, i2⟩ := hgr r a b
      obtain ⟨e, f, -⟩ := hs.1 r a c d
      rcases e.1 with h | h | h
      · rw [i1, h2] at h; cases h
      · rw [i2, h1] at h; exact absurd rfl h
      · exact ⟨d, f, e.2.1, h⟩
    have hqm : q ∈ s.groupOf q := by simp [State.groupOf, hq]
    obtain ⟨-, -, -, -, bs, x, hk, -⟩ := hlocal q hqm
    split
    · rw [hk]; exact ⟨hg, hs⟩
    · exact performHere_going hn _ hg hs hlocal

theorem advance_going {ls : List Nat} {pid : Nat} {v : State} (hn : ∀ o ∈ v.allParts, o.2.id ≠ pid → ∀ l ∈ ls, v.strikes l .write o.2 = false)
    (n : Nat) {s : State} (hg : Going ls v s) (hs : Bound ls pid s) : Going ls v (s.advance pid n) ∧ Bound ls pid (s.advance pid n) := by
  induction n generalizing s with
  | zero => exact ⟨hg, hs⟩
  | succ n ih =>
    unfold State.advance
    split
    · exact ⟨hg, hs⟩
    · rename_i q hq
      have hm := List.mem_of_find?_eq_some hq
      simp only [State.partReqs, List.mem_filter, Bool.and_eq_true, Option.isNone_iff_eq_none, beq_iff_eq] at hm
      split
      · exact ⟨hg, hs⟩
      · obtain ⟨a, b⟩ := issueReq_going hn hg hs hm.1 hm.2.1 hm.2.2
        dsimp only
        split
        · exact ih a b
        · exact ⟨a, b⟩

/-- What is asked of an access of a store: it leaves, or writes some line here. -/
def asksOf (ls : List Nat) (a : Piece × PeerKind) : Prop :=
  (∃ bs x, a.2 = .store bs x false) ∧ a.1.x.leaves = [] ∧
  (a.1.x.io = true ∨ a.1.x.peer ≠ none ∨ (a.1.x.addr / 64 ∈ ls ∧ ∃ bs x, a.2 = .store bs x false ∧ a.1.x.addr % 64 + bs.length ≤ 64))

theorem joinIo_asks {ls : List Nat} (l : List (Piece × PeerKind)) (h : ∀ a ∈ l, asksOf ls a) : ∀ a ∈ joinIo l, asksOf ls a := by
  induction l with
  | nil => exact h
  | cons a t ih =>
    have ih := ih fun b hb => h b (by simp [hb])
    unfold joinIo
    split
    · simpa using h a (by simp)
    · rename_i b u hj
      rw [hj] at ih
      split
      · rename_i hc
        intro c hcm
        rcases List.mem_cons.mp hcm with rfl | hcm
        · obtain ⟨⟨bs, x, e⟩, hl, -⟩ := h a (by simp)
          obtain ⟨⟨cs, y, g⟩, -⟩ := ih b (by simp)
          simp only [Bool.and_eq_true] at hc
          exact ⟨⟨bs ++ cs, x, by simp only [e, g, joinKind]⟩, hl, .inl hc.1.1.1.1⟩
        · exact ih c (by simp [hcm])
      · intro c hc
        rcases List.mem_cons.mp hc with rfl | hc
        · exact h _ (by simp)
        · exact ih c hc

/-- Stores performed as one are both here (R277). -/
theorem groupRequests_same {ls : List Nat} (n : Nat) (l : List (Piece × PeerKind)) (h : ∀ a ∈ l, asksOf ls a) :
    ∀ g ∈ groupRequests n l, ∀ a ∈ g, ∀ b ∈ g, a.1.x.io = b.1.x.io ∧ a.1.x.peer = b.1.x.peer := by
  have key : ∀ a b : Piece × PeerKind, asksOf ls a → asksOf ls b → sameRequest a b = true → (a.1.x.io = false ∧ a.1.x.peer = none) ∧ (b.1.x.io = false ∧ b.1.x.peer = none) := by
    rintro ⟨p, k⟩ ⟨r, m⟩ ⟨⟨bs, x, e⟩, -⟩ ⟨⟨cs, y, g⟩, -⟩ hs
    simp only at e g
    subst e; subst g
    simp only [sameRequest, sameRequest.here, Bool.and_eq_true, Bool.not_eq_true', Option.isNone_iff_eq_none] at hs
    exact ⟨hs.1.1, hs.1.2⟩
  induction n generalizing l with
  | zero =>
    intro g hg a ha b hb
    simp only [groupRequests, List.mem_map] at hg
    obtain ⟨c, -, rfl⟩ := hg
    simp only [List.mem_singleton] at ha hb
    rw [ha, hb]; exact ⟨rfl, rfl⟩
  | succ n ih =>
    cases l with
    | nil => intro g hg; simp [groupRequests] at hg
    | cons c t =>
      intro g hg a ha b hb
      simp only [groupRequests, List.mem_cons] at hg
      rcases hg with rfl | hg
      · have hm : ∀ d ∈ c :: t.filter (sameRequest c), d = c ∨ ((c.1.x.io = false ∧ c.1.x.peer = none) ∧ (d.1.x.io = false ∧ d.1.x.peer = none)) := by
          intro d hd
          rcases List.mem_cons.mp hd with rfl | hd
          · exact .inl rfl
          · have := List.mem_filter.mp hd
            exact .inr (key c d (h c (by simp)) (h d (by simp [this.1])) this.2)
        rcases hm a ha with rfl | ⟨⟨h1, h2⟩, h3, h4⟩ <;> rcases hm b hb with rfl | ⟨⟨g1, g2⟩, g3, g4⟩
        · exact ⟨rfl, rfl⟩
        · exact ⟨g1.trans g3.symm, g2.trans g4.symm⟩
        · exact ⟨h3.trans h1.symm, h4.trans h2.symm⟩
        · exact ⟨h3.trans g3.symm, h4.trans g4.symm⟩
      · exact ih _ (fun d hd => h d (by have := (List.mem_filter.mp hd).1; simp [this])) g hg a ha b hb

theorem numberRequests_mem (x : Ctx) (id : Nat) (gs : List (List (Piece × PeerKind))) : ∀ q ∈ numberRequests x id gs,
    id ≤ q.id ∧ id ≤ q.group ∧ q.copyOp = none ∧ q.part = x.v.part.id ∧ q.ans = none ∧
    ∃ g ∈ gs, (∃ a ∈ g, q.io = a.1.x.io ∧ q.peer = a.1.x.peer ∧ q.leaves = a.1.x.leaves ∧ q.addr = a.1.x.addr ∧ q.kind = a.2) ∧
      ∀ r ∈ numberRequests x id gs, r.group = q.group → ∃ b ∈ g, r.io = b.1.x.io ∧ r.peer = b.1.x.peer := by
  induction gs generalizing id with
  | nil => intro q hq; simp [numberRequests] at hq
  | cons g t ih =>
    have hfrom : ∀ q ∈ (g.zipIdx.map fun q => q.1.1.request x (id + q.2) id q.1.2), id ≤ q.id ∧ q.group = id ∧ q.copyOp = none ∧ q.part = x.v.part.id ∧ q.ans = none ∧
        ∃ a ∈ g, q.io = a.1.x.io ∧ q.peer = a.1.x.peer ∧ q.leaves = a.1.x.leaves ∧ q.addr = a.1.x.addr ∧ q.kind = a.2 := by
      intro q hq
      obtain ⟨p, hp, rfl⟩ := List.mem_map.mp hq
      have hm : p.1 ∈ g := by
        obtain ⟨a, b⟩ := List.mem_zipIdx' hp
        rw [b]; exact List.getElem_mem _
      exact ⟨Nat.le_add_right .., rfl, rfl, rfl, rfl, p.1, hm, rfl, rfl, rfl, rfl, rfl⟩
    intro q hq
    simp only [numberRequests, List.mem_append] at hq
    rcases hq with hq | hq
    · obtain ⟨h0, h1, h2, h3, h4, h5⟩ := hfrom q hq
      have hgl : 0 < g.length := by
        obtain ⟨a, ha, -⟩ := h5
        exact List.length_pos_of_mem ha
      refine ⟨h0, by omega, h2, h3, h4, g, by simp, h5, fun r hr hrg => ?_⟩
      simp only [numberRequests, List.mem_append] at hr
      rcases hr with hr | hr
      · obtain ⟨-, -, -, -, -, b, hb, e1, e2, -⟩ := hfrom r hr
        exact ⟨b, hb, e1, e2⟩
      · have := (ih _ r hr).2.1; omega
    · obtain ⟨h0, h1, h2, h3, h4, g', hg, h5, h6⟩ := ih _ q hq
      refine ⟨by omega, by omega, h2, h3, h4, g', by simp [hg], h5, fun r hr hrg => ?_⟩
      simp only [numberRequests, List.mem_append] at hr
      rcases hr with hr | hr
      · obtain ⟨-, g1, -, -, -, b, hb, -⟩ := hfrom r hr
        have := List.length_pos_of_mem hb
        omega
      · exact h6 r hr hrg
theorem groupRequests_mem (n : Nat) (l : List (Piece × PeerKind)) : ∀ g ∈ groupRequests n l, ∀ a ∈ g, a ∈ l := by
  induction n generalizing l with
  | zero =>
    intro g hg a ha
    simp only [groupRequests, List.mem_map] at hg
    obtain ⟨b, hb, rfl⟩ := hg
    simp only [List.mem_singleton] at ha
    exact ha ▸ hb
  | succ n ih =>
    cases l with
    | nil => intro g hg; simp [groupRequests] at hg
    | cons a t =>
      intro g hg b hb
      simp only [groupRequests, List.mem_cons] at hg
      rcases hg with rfl | hg
      · simp only [List.mem_cons, List.mem_filter] at hb
        rcases hb with rfl | hb
        · simp
        · simp [hb.1]
      · have := ih _ g hg b hb
        simp only [List.mem_filter] at this
        simp [this.1]

theorem modPart_modPart (s : State) (r : PartRef) (f g : Part → Part) (hf : ∀ p, (f p).quads = p.quads) :
    (s.modPart r f).modPart r g = s.modPart r fun p => g (f p) := by
  unfold State.modPart State.modGang State.modCohort
  simp only [List.map_map]
  congr 2
  funext c
  simp only [Function.comp]
  by_cases hc : c.id = r.cohort
  · rw [if_pos hc, if_pos (show (c.modGang r.gang fun g => g.modPart r.quad f).id = r.cohort from hc), if_pos hc]
    unfold Cohort.modGang
    simp only [List.map_map]
    congr 2
    funext x
    simp only [Function.comp]
    by_cases hx : x.idx = r.gang
    · rw [if_pos hx, if_pos (show (x.modPart r.quad f).idx = r.gang from hx), if_pos hx]
      unfold Gang.modPart
      simp only [List.map_map]
      congr 2
      funext p
      simp only [Function.comp]
      by_cases hp : p.quads.getLsbD r.quad = true
      · rw [if_pos hp, if_pos (by rw [hf]; exact hp), if_pos hp]
      · rw [if_neg hp, if_neg hp, if_neg hp]
    · rw [if_neg hx, if_neg hx, if_neg hx]
  · rw [if_neg hc, if_neg hc, if_neg hc]
theorem ctx?_modPart {s : State} {imm : Word} {w : Ctx} (h : s.ctx? imm = some w) (f : Part → Part) (hf : ∀ p, (f p).quads = p.quads) :
    ∃ z, (s.modPart w.r f).ctx? imm = some z ∧ z.r = w.r ∧ z.v.part = f w.v.part := by
  obtain ⟨h1, h2, h3, h4, h5, h6⟩ := ctx?_parts h
  have hcur : (s.modPart w.r f).cur = some w.r := h1
  have hc : (s.modPart w.r f).cohort? w.r.cohort = some (w.c.modGang w.r.gang fun g => g.modPart w.r.quad f) := by
    have hid : w.c.id = w.r.cohort := by simpa using List.find?_some h2
    unfold State.cohort? State.modPart State.modGang State.modCohort at *
    simp only
    rw [List.find?_map]
    have : ((fun c : Cohort => c.id == w.r.cohort) ∘ fun c => if c.id = w.r.cohort then c.modGang w.r.gang (fun g => g.modPart w.r.quad f) else c) = fun c => c.id == w.r.cohort := by
      funext c; simp only [Function.comp]; split <;> rfl
    rw [this, h2]
    simp [hid]
  have hg : (w.c.modGang w.r.gang fun g => g.modPart w.r.quad f).gang? w.r.gang = some (w.v.gang.modPart w.r.quad f) := by
    have hid : w.v.gang.idx = w.r.gang := by simpa using List.find?_some h3
    unfold Cohort.gang? Cohort.modGang at *
    simp only
    rw [List.find?_map]
    have : ((fun g : Gang => g.idx == w.r.gang) ∘ fun g => if g.idx = w.r.gang then g.modPart w.r.quad f else g) = fun g => g.idx == w.r.gang := by
      funext c; simp only [Function.comp]; split <;> rfl
    rw [this, h3]
    simp [hid]
  have hp : (w.v.gang.modPart w.r.quad f).partOf? w.r.quad = some (f w.v.part) := by
    unfold Gang.partOf? Gang.modPart
    simp only
    rw [find_quad _ f hf]
    rw [show w.v.gang.parts.find? (fun p => p.quads.getLsbD w.r.quad) = some w.v.part from h4]
    rfl
  exact ⟨⟨w.r, w.c.modGang w.r.gang fun g => g.modPart w.r.quad f, ⟨w.v.gang.modPart w.r.quad f, f w.v.part, w.c.core, imm⟩⟩,
    by unfold State.ctx?; simp only [hcur, hc, hg, hp]; rfl, rfl, rfl⟩

/-- A store whose requests have been acknowledged, or wait for it. -/
theorem complete_acked (s : State) (x : Ctx) {pd : Pend} (hop : pd.op = .store) (hqs : ∀ q ∈ s.partReqs x.v.part.id, q.ans = none ∨ q.ans = some .ack) :
    s.complete x pd = .stall s .remote ∨ s.complete x pd = .fall ((s.dropReqs x.v.part.id).modPart x.r fun p => { p with pend := none }) true := by
  obtain ⟨op, len, uni, act⟩ := pd
  subst hop
  unfold State.complete
  dsimp only
  split
  · exact .inl rfl
  · right
    have hpoi : (s.partReqs x.v.part.id).filter (fun q => q.ans == some RemoteRep.poison) = [] := by
      rw [List.filter_eq_nil_iff]
      intro q hq
      rcases hqs q hq with h | h <;> simp [h]
    have hbad : ((s.partReqs x.v.part.id).filterMap fun q => if (PendOp.store == .red && (s.partReqs x.v.part.id).any fun q => q.ans == some RemoteRep.poison) && q.ans == some RemoteRep.poison then none else q.bad) = [] := by
      rw [List.filterMap_eq_nil_iff]
      intro q hq
      unfold Request.bad
      rcases hqs q hq with h | h <;> simp [h]
    have hd : (PendOp.store == PendOp.red) = false := by decide
    rw [hbad, hpoi]
    simp only [hd, Bool.false_and, Bool.false_eq_true, if_false, List.take_nil, List.foldl_nil, faultOf]

theorem find_unarmed (l : List Cohort) (k : Nat) : (l.map Cohort.unarmed).find? (fun c => c.id == k) = (l.find? fun c => c.id == k).map Cohort.unarmed := by
  rw [List.find?_map]; rfl
theorem find_idle (l : List Gang) (k : Nat) : (l.map fun g => ({ g with arm := .idle } : Gang)).find? (fun g => g.idx == k) =
    (l.find? fun g => g.idx == k).map fun g => { g with arm := .idle } := by
  rw [List.find?_map]; rfl
/-- A part's own fields are where cohorts agree but for armed conditions. -/
theorem ctx?_unarmed {s t : State} {imm : Word} {w : Ctx} (h : s.ctx? imm = some w) (hc : t.cohorts.map Cohort.unarmed = s.cohorts.map Cohort.unarmed)
    (hcur : t.cur = s.cur) : ∃ z, t.ctx? imm = some z ∧ z.r = w.r ∧ z.v.part = w.v.part := by
  obtain ⟨h1, h2, h3, h4, h5, h6⟩ := ctx?_parts h
  have e1 : (t.cohort? w.r.cohort).map Cohort.unarmed = some w.c.unarmed := by
    unfold State.cohort?
    rw [← find_unarmed, hc, find_unarmed]
    exact congrArg (Option.map Cohort.unarmed) h2
  obtain ⟨c, hc1, hc2⟩ := Option.map_eq_some_iff.mp e1
  have e2 : (c.gang? w.r.gang).map (fun g => ({ g with arm := .idle } : Gang)) = some { w.v.gang with arm := .idle } := by
    unfold Cohort.gang?
    rw [← find_idle, show c.gangs.map (fun g => ({ g with arm := .idle } : Gang)) = _ from (congrArg Cohort.gangs hc2 :)]
    show (w.c.gangs.map fun g => ({ g with arm := .idle } : Gang)).find? _ = _
    rw [find_idle]
    exact congrArg (Option.map fun g => ({ g with arm := .idle } : Gang)) h3
  obtain ⟨g, hg1, hg2⟩ := Option.map_eq_some_iff.mp e2
  have e3 : g.partOf? w.r.quad = some w.v.part := by
    unfold Gang.partOf?
    rw [show g.parts = w.v.gang.parts from (congrArg Gang.parts hg2 :)]
    exact h4
  exact ⟨⟨w.r, c, ⟨g, w.v.part, c.core, imm⟩⟩, by unfold State.ctx?; simp only [hcur, h1, hc1, hg1, e3], rfl, rfl⟩

theorem allParts_modPart (s : State) (r : PartRef) (f : Part → Part) : ∀ o ∈ (s.modPart r f).allParts, ∃ o' ∈ s.allParts, o.2 = o'.2 ∨ o.2 = f o'.2 := by
  intro o ho
  simp only [State.allParts, State.modPart, State.modGang, State.modCohort, List.mem_flatMap, List.mem_map] at ho ⊢
  obtain ⟨c, ⟨c0, hc0, rfl⟩, g, hg, p, hp, rfl⟩ := ho
  have h1 : ∃ g0 ∈ c0.gangs, g = g0 ∨ g = g0.modPart r.quad f := by
    split at hg
    · obtain ⟨g0, h0, rfl⟩ := List.mem_map.mp hg
      refine ⟨g0, h0, ?_⟩
      split
      · exact .inr rfl
      · exact .inl rfl
    · exact ⟨g, hg, .inl rfl⟩
  obtain ⟨g0, hg0, h1⟩ := h1
  have h2 : ∃ p0 ∈ g0.parts, p = p0 ∨ p = f p0 := by
    rcases h1 with rfl | rfl
    · exact ⟨p, hp, .inl rfl⟩
    · obtain ⟨p0, h0, rfl⟩ := List.mem_map.mp hp
      refine ⟨p0, h0, ?_⟩
      split
      · exact .inr rfl
      · exact .inl rfl
  obtain ⟨p0, hp0, h2⟩ := h2
  exact ⟨_, ⟨c0, hc0, g0, hg0, p0, hp0, rfl⟩, h2⟩
theorem leavingStore_of {i : Instr} {f : Form} {imm : Word} {z : Space} {h : How} {es : Ctx → List Elem} {data : Ctx → Piece → List Byte} {sem : Sem} (act : Ctx → Word) (uni : Bool) (len : Nat)
    (side : Ctx → Piece → Option Side) (here : Ctx → State → Ctx → List Piece → Done) (hi : ∀ s, exec i s = issue f imm sem s)
    (hs : ∀ t y, y.v.imm = imm → sem t y = t.access y (act y) z h uni .store len (es y) (fun q => .store (data y q) (side y q) false) (here y)) : LeavingStore i f imm z h es data := by
  intro s x t y v w s' hr hpd hes hbad hwt hlost hne hps hset hw hwr hcan hreq hspo ls hn he
  have hy : y.v.imm = imm := ctx?_imm hr.now
  have hwi : w.v.imm = imm := ctx?_imm hw
  rw [hi, issue_ready hr, hs _ _ hy] at he
  injection he with he
  have hacc : t.access y (act y) z h uni .store len (es y) (fun q => .store (data y q) (side y q) false) (here y) =
      v.startPend w ⟨.store, len, uni, act y⟩ ((found z h es t y).1.ok.map fun p => (p, .store (data y p) (side y p) false)) := by
    have hrem : (found z h es t y).1.remote = true := remote_of_far hne
    have hfr : v.fresh y = w := by unfold State.fresh; rw [hy, hw]; rfl
    unfold found at *
    simp [State.access, hpd, hes, hlost, hwt, hrem, hset, hbad, faultOf, hfr]
  rw [hacc] at he
  clear hacc hs
  unfold State.startPend at he
  dsimp only at he
  have hask : ∀ a ∈ ((found z h es t y).1.ok.map fun p => (p, PeerKind.store (data y p) (side y p) false)), asksOf ls a := by
    intro a ha
    obtain ⟨p, hp, rfl⟩ := List.mem_map.mp ha
    obtain ⟨h1, h2⟩ := hps p hp
    refine ⟨⟨_, _, rfl⟩, h1, ?_⟩
    by_cases hl : p.leaves = true
    · unfold Piece.leaves Xlat.far at hl
      simp only [Bool.or_eq_true, Option.isSome_iff_ne_none] at hl
      rcases hl with hl | hl
      · exact .inl hl
      · exact .inr (.inl hl)
    · refine .inr (.inr ⟨?_, _, _, rfl, h2.resolve_left hl⟩)
      exact List.mem_map.mpr ⟨p, List.mem_filter.mpr ⟨hp, by simpa using hl⟩, rfl⟩
  generalize ((found z h es t y).1.ok.map fun p => (p, PeerKind.store (data y p) (side y p) false)) = ps at he hask
  generalize hpend : (⟨.store, len, uni, act y⟩ : Pend) = pd at he
  have hop : pd.op = .store := by rw [← hpend]
  generalize hv0 : ({ v with reqs := v.reqs ++ requestsOf w v.nextId ps, nextId := v.nextId + ps.length } : State) = v0 at he
  have hw0 : v0.ctx? imm = some w := by rw [← hv0]; exact hw
  obtain ⟨w1, hw1, hr1, hp1⟩ := ctx?_modPart hw0 (fun p => { p with pend := some pd }) (fun _ => rfl)
  have hid : w1.v.part.id = w.v.part.id := by rw [hp1]
  have hb1 : Bound ls w.v.part.id (v0.modPart w.r fun p => { p with pend := some pd }) := by
    have hrq : (v0.modPart w.r fun p => { p with pend := some pd }).reqs = v.reqs ++ requestsOf w v.nextId ps := by rw [← hv0]; rfl
    have hsp : (v0.modPart w.r fun p => { p with pend := some pd }).spoiled = v.spoiled := by rw [← hv0]; rfl
    have hfree : ∀ k, (k = w.v.part.id ∨ v.nextId ≤ k) → assocGet v.spoiled k = none := by
      intro k hk
      unfold assocGet
      rw [Option.map_eq_none_iff, List.find?_eq_none]
      intro e he
      have := hspo e he
      simp only [beq_iff_eq]
      rcases hk with rfl | hk
      · exact this.1
      · omega
    have hnew : ∀ q ∈ requestsOf w v.nextId ps, v.nextId ≤ q.group ∧ q.copyOp = none ∧ q.part = w.v.part.id ∧ q.goes ls ∧ v.nextId ≤ q.id ∧
        ∀ r ∈ requestsOf w v.nextId ps, r.group = q.group → r.io = q.io ∧ r.peer = q.peer := by
      intro q hq
      obtain ⟨h0, h1, h2, h3, h4, g, hg, ⟨e, he, f1, f2, f3, f4, f5⟩, h6⟩ := numberRequests_mem _ _ _ q hq
      have hm := groupRequests_mem _ _ g hg e he
      have hj := joinIo_asks ps hask
      obtain ⟨-, j2, j3⟩ := hj e hm
      refine ⟨h1, h2, h3, ⟨by rw [f1, f2, f4, f5]; exact j3, by rw [f3]; exact j2, .inl h4⟩, h0, fun r hr hrg => ?_⟩
      obtain ⟨b, hb, b1, b2⟩ := h6 r hr hrg
      obtain ⟨k1, k2⟩ := groupRequests_same _ _ hj g hg b hb e he
      rw [b1, b2, f1, f2]; exact ⟨k1, k2⟩
    refine ⟨fun q hq hc hp => ?_, by rw [hsp]; exact hfree _ (.inl rfl)⟩
    rw [hrq] at hq ⊢
    rcases List.mem_append.mp hq with hq | hq
    · exact absurd hp ((hreq q hq).2 hc)
    · obtain ⟨a, b, c, d, e, f⟩ := hnew q hq
      refine ⟨d, by rw [hsp]; exact hfree _ (.inr e), fun r hr hg => ?_⟩
      rcases List.mem_append.mp hr with hr | hr
      · have := (hreq r hr).1; omega
      · obtain ⟨a', b', c', -⟩ := hnew r hr
        exact ⟨b', c', f r hr hg⟩
  -- the part with its access begun, and its first requests performed or sent
  generalize hv1 : (v0.modPart w.r fun p => { p with pend := some pd }) = v1 at *
  generalize hV : ({ (v.modPart w.r fun p => { p with pend := some pd }) with nextId := v.nextId + ps.length } : State) = V
  have hVn : ∀ o ∈ V.allParts, o.2.id ≠ w.v.part.id → ∀ l ∈ ls, V.strikes l .write o.2 = false := by
    intro o ho hne l hl
    obtain ⟨o', ho', ho''⟩ := allParts_modPart v w.r (fun p => { p with pend := some pd }) o (by rw [← hV] at ho; exact ho)
    have hst : V.stores = v.stores := by rw [← hV]; rfl
    have := hn o' ho' (by rcases ho'' with h | h <;> rw [h] at hne <;> exact hne) l hl
    unfold State.strikes at this ⊢
    rw [hst]
    rcases ho'' with h | h <;> rw [h] <;> exact this
  have hg1 : Going ls V v1 := by
    have e : v1 = { V with reqs := v1.reqs, fabric := v1.fabric, agenda := v1.agenda, out := v1.out } := by rw [← hv1, ← hV, ← hv0]; rfl
    have h0 : Going ls V V := by
      refine ⟨⟨by rw [← hV]; exact hcan, fun _ _ => rfl, fun _ _ => rfl, fun _ _ _ => rfl⟩, .refl V⟩
    exact h0.moves e
  rw [hwi] at he
  rw [hw1] at he
  dsimp only at he
  unfold State.goOn at he
  rw [hid] at he
  obtain ⟨a1, a2⟩ := advance_going hVn ((v1.partReqs w.v.part.id).length + 1) hg1 hb1
  have hq1 : v1.cur = V.cur := by rw [← hv1, ← hV, ← hv0]; rfl
  have hc1 : v1.cohorts = V.cohorts := by rw [← hv1, ← hV, ← hv0]; rfl
  generalize v1.advance w.v.part.id ((v1.partReqs w.v.part.id).length + 1) = v3 at *
  obtain ⟨w3, hw3, hr3, hp3⟩ := ctx?_unarmed (t := v3) hw1 (by rw [hc1]; exact a1.moved.cohorts) (by rw [hq1]; exact (congrArg State.cur a1.moved.rest :))
  have hw1i : w1.v.imm = imm := ctx?_imm hw1
  dsimp only at he
  rw [hw1i, hw3] at he
  dsimp only at he
  have hid3 : w3.v.part.id = w.v.part.id := by rw [hp3]; exact hid
  have hqs : ∀ q ∈ v3.partReqs w3.v.part.id, q.ans = none ∨ q.ans = some .ack := by
    intro q hq
    simp only [State.partReqs, List.mem_filter, Bool.and_eq_true, Option.isNone_iff_eq_none, beq_iff_eq] at hq
    exact (a2.1 q hq.1 hq.2.1 (hq.2.2.trans hid3)).1.2.2
  -- a state that has of `v3` everything but requests, due steps and its part changed further
  have key : ∀ (e : State) (g : Part → Part), (∀ p, g p = { p with runs := (g p).runs, pc := (g p).pc, wait := (g p).wait, pend := (g p).pend }) →
      e = { v3.modPart y.r g with reqs := e.reqs, agenda := e.agenda } → (StoredIn ls v e ∧ ∃ g : Part → Part, (∀ p, g p = { p with runs := (g p).runs, pc := (g p).pc, wait := (g p).wait, pend := (g p).pend }) ∧
        StoredOnly (v.modPart y.r g) { e with reqs := v.reqs, fabric := v.fabric, agenda := v.agenda, nextId := v.nextId }) := by
    intro e g hg hee
    obtain ⟨⟨k1, k2, k3, k4⟩, k5⟩ := a1
    refine ⟨⟨?_, fun b hb => ?_, fun l hl => ?_, fun o a ha => ?_⟩, fun p => g { p with pend := some pd }, fun p => hg _, ?_⟩
    · have h1 : e.mem = v3.mem := (congrArg State.mem hee :)
      have h2 : e.sides = v3.sides := (congrArg State.sides hee :)
      unfold State.canonical; rw [h1, h2]; exact k1
    · rw [show e.mem = v3.mem from (congrArg State.mem hee :)]
      rw [← hV] at k2; exact k2 b hb
    · rw [show e.sides = v3.sides from (congrArg State.sides hee :)]
      rw [← hV] at k3; exact k3 l hl
    · rw [byteAs_stores v3 e o a (congrArg State.mem hee :) (congrArg State.owners hee :) (congrArg State.parts hee :) (congrArg State.pkg hee :)]
      rw [← hV] at k4; exact k4 o a ha
    · rw [← modPart_modPart v y.r (fun p => { p with pend := some pd }) g fun _ => rfl]
      have h := modPart_stored k5 y.r g
      rw [← hV, hwr] at h
      refine ⟨?_, ?_⟩
      · have := congrArg (fun u : State => ({ u with nextId := v.nextId } : State)) h.rest
        rw [hee]
        exact this
      · rw [hee]; exact h.cohorts
  rw [← he]
  rcases complete_acked v3 w3 hop hqs with hcm | hcm <;> rw [hcm]
  · left
    exact key _ (fun p => { p with wait := .remote }) (fun _ => rfl) rfl
  · rw [hr3, hr1, hwr]
    simp only [State.finish]
    split
    · right
      have hw : SameBut [] 0 imm t y (t.waits y.r .room) := (modPart_sameBut hr.now (fun p => { p with wait := .room }) fun _ => rfl)
      split
      · exact hw.due _
      · exact hw
    · left
      rw [modPart_modPart _ _ (fun p => { p with pend := none }) _ fun _ => rfl]
      refine key _ (fun p => { ({ p with pend := none } : Part).counted (f.closes || true) with pc := nextPc y.v.part.header y.v.part.pc f.len }) (fun _ => rfl) ?_
      unfold State.afterClose; split <;> rfl

theorem storeFrames_st {i : Instr} {f : Form} {imm : Word} {z : Space} {p : Pred} {t : TypeCode} {a b : Opnd} {len : Nat}
    (hi : ∀ s, exec i s = issue f imm (storeSem z p t a b len) s) :
    StoreFrames i f imm z howStore (storeElems z p t a b) (fun y q => ((y.v.storeBytes t b q.lane).drop q.off).take q.len) := by
  have e : ∀ u y, storeSem z p t a b len u y = u.access y (y.v.act p) z howStore (oneAccess [a, b]) .store len (storeElems z p t a b y)
      (fun q => .store (((y.v.storeBytes t b q.lane).drop q.off).take q.len) (some Sides.untyped) false)
      (storeHere (fun q => ((y.v.storeBytes t b q.lane).drop q.off).take q.len) fun _ => Sides.untyped) := fun _ _ => rfl
  have key : ∀ u y, y.v.imm = imm → Clear z howStore (storeElems z p t a b) u y → Writable (found z howStore (storeElems z p t a b) u y).2
      ((found z howStore (storeElems z p t a b) u y).2.fresh y) (found z howStore (storeElems z p t a b) u y).1.ok →
      storeSem z p t a b len u y = .fall ((found z howStore (storeElems z p t a b) u y).1.ok.foldl (fun s q =>
        s.storePiece ((found z howStore (storeElems z p t a b) u y).2.fresh y) q (((y.v.storeBytes t b q.lane).drop q.off).take q.len) Sides.untyped)
        (found z howStore (storeElems z p t a b) u y).2) false := fun u y _ hc hw => by
    rw [e, access_clear hc, storeHere_ready hw]; rfl
  exact ⟨bufferedStore_of (side := fun _ _ => Sides.untyped) hi key, directStore_of (side := fun _ _ => Sides.untyped) hi key,
    leavingStore_of (fun y => y.v.act p) (oneAccess [a, b]) len (fun _ _ => some Sides.untyped)
      (fun y => storeHere (fun q => ((y.v.storeBytes t b q.lane).drop q.off).take q.len) fun _ => Sides.untyped) hi fun u y _ => e u y⟩
theorem storeFrames_rows {i : Instr} {f : Form} {imm : Word} {p : Pred} {a b : Opnd} {n : Fin 192} {rows len : Nat}
    (hb : b = .v n) (hi : ∀ s, exec i s = issue f imm (stdSem p a b rows len) s) :
    StoreFrames i f imm .glob (howRows .store) (fun y => y.v.rowsAt p a rows) (fun y q => y.v.rowBytes n.val ((q.va - y.v.effAddr a 0).toNat / 64)) := by
  subst hb
  have e : ∀ u y, stdSem p a (.v n) rows len u y = u.access y (y.v.act p) .glob (howRows .store) true .store len (y.v.rowsAt p a rows)
      (fun q => .store (y.v.rowBytes n.val ((q.va - y.v.effAddr a 0).toNat / 64)) (some (y.v.rowSide n.val ((q.va - y.v.effAddr a 0).toNat / 64))) false)
      (storeHere (fun q => y.v.rowBytes n.val ((q.va - y.v.effAddr a 0).toNat / 64)) fun q => y.v.rowSide n.val ((q.va - y.v.effAddr a 0).toNat / 64)) := fun _ _ => rfl
  have key : ∀ u y, y.v.imm = imm → Clear .glob (howRows .store) (fun y => y.v.rowsAt p a rows) u y →
      Writable (found .glob (howRows .store) (fun y => y.v.rowsAt p a rows) u y).2
        ((found .glob (howRows .store) (fun y => y.v.rowsAt p a rows) u y).2.fresh y) (found .glob (howRows .store) (fun y => y.v.rowsAt p a rows) u y).1.ok →
      stdSem p a (.v n) rows len u y = .fall ((found .glob (howRows .store) (fun y => y.v.rowsAt p a rows) u y).1.ok.foldl (fun s q =>
        s.storePiece ((found .glob (howRows .store) (fun y => y.v.rowsAt p a rows) u y).2.fresh y) q
          (y.v.rowBytes n.val ((q.va - y.v.effAddr a 0).toNat / 64)) (y.v.rowSide n.val ((q.va - y.v.effAddr a 0).toNat / 64)))
        (found .glob (howRows .store) (fun y => y.v.rowsAt p a rows) u y).2) false := fun u y _ hc hw => by
    rw [e, access_clear (es := fun y => y.v.rowsAt p a rows) hc, storeHere_ready hw]; rfl
  exact ⟨bufferedStore_of (side := fun y q => y.v.rowSide n.val ((q.va - y.v.effAddr a 0).toNat / 64)) hi key,
    directStore_of (side := fun y q => y.v.rowSide n.val ((q.va - y.v.effAddr a 0).toNat / 64)) hi key,
    leavingStore_of (fun y => y.v.act p) true len (fun y q => some (y.v.rowSide n.val ((q.va - y.v.effAddr a 0).toNat / 64)))
      (fun y => storeHere (fun q => y.v.rowBytes n.val ((q.va - y.v.effAddr a 0).toNat / 64)) fun q => y.v.rowSide n.val ((q.va - y.v.effAddr a 0).toNat / 64)) hi fun u y _ => e u y⟩

end Sys2Proof.Machine
end

