-- ==== Sys2Proof/Tests/Slice0.lean ====
section
/-!
SUPPORT. Tests: words of each family decode to what they stand for, what row 10 of R56 refuses, and states that meet
the hypotheses of the statements. The words are written from the encoding tables of spec/: R35 and R44 for the places
of the fields, and each family's own table for the first parcel and the codes.
-/
namespace Sys2Proof.Tests

open Sys2Proof Sys2Proof.Machine

/-! ### Words -/

/-- No predicate (R45). -/
def always : Pred := ⟨0, false⟩

/-- The parcels of an S form: the first parcel of the family's table with PRED, D and A put in (R44). -/
def wordS (first pred d a : Nat) : List Word := [BitVec.ofNat 32 (first + pred * 2 ^ 8 + d * 2 ^ 16 + a * 2 ^ 24)]

/-- The parcels of an L form: the first parcel of the family's table with FN, PRED, D and MOD put in (R44). -/
def wordL (first fn pred d a b c m : Nat) : List Word :=
  [BitVec.ofNat 32 (first + pred * 2 ^ 8 + fn * 2 ^ 12 + d * 2 ^ 20 + m % 16 * 2 ^ 28),
    BitVec.ofNat 32 (a + b * 2 ^ 8 + c * 2 ^ 16 + m / 16 * 2 ^ 24)]

/-- The parcels of an X form: those of the L form, and IMM32 (R44). -/
def wordX (first fn pred d a b c m : Nat) (imm : Word) : List Word := wordL first fn pred d a b c m ++ [imm]

/-- The decoder reads these parcels as this instruction. -/
abbrev Reads (ws : List Word) (i : Instr) : Prop := (decodeBytes (parcelBytes ws)).toOption = some i

/-! ### Every family's words (R49 for the specifier bytes, R46 for the type codes) -/

theorem test_decode_nop : decodeTableWord 32 1 = some (.nop always) := by decide +kernel

/-- The worked encoding behind R58: (p3) add.i32 v8, v9, v10 and add.i32 v8, v9, 100. -/
theorem test_decode_worked : Reads [0x00800312#32, 0x10000A09#32] (.addL ⟨3, false⟩ .i32 false (.v 8) (.v 9) (.v 10)) ∧
    Reads [0x00800013#32, 0x1000F509#32, 100#32] (.addX always .i32 false (.v 8) (.v 9) .imm 100#32) := by
  decide +kernel

/-- CTL (R144): exit (!p2), getid s3 with code 2, time v4. -/
theorem test_decode_ctl : Reads (wordS 0x1001 0xA 0 0) (.exit ⟨2, true⟩) ∧
    Reads (wordS 0x3001 0 0xE9 0) (.elect always (.p 1)) ∧ Reads (wordS 0x5001 0 4 0) (.time always (.v 4)) := by
  decide +kernel

/-- BRANCH and BRIND (R144). -/
theorem test_decode_branch : Reads (wordX 0x7 0 0 0 0 0 0 0 0xFFFFFFE2#32) (.bra always 0xFFFFFFE2#32) ∧
    Reads (wordX 0x7 3 0 0xC5 0 0 0 0 0x22#32) (.loop (.s 5) 0x22#32) ∧
    Reads (wordL 0xA 1 0 0xC6 0xC8 0 0 0) (.callx always (.s 6) (.s 8)) := by
  decide +kernel

/-- SYNC (R144). -/
theorem test_decode_sync : Reads (wordL 0xE 0 0 0 7 0xC2 0xF0 0) (.endr (.v 7) (.s 2) .zero) ∧
    Reads (wordX 0xF 1 0 0 0xF5 0 0 0 3#32) (.regangX .imm 3#32) ∧
    Reads (wordX 0xF 4 0 0 0xF5 0 0 0 2#32) (.rclaim .imm 2#32) := by
  decide +kernel

/-- IARITH (R175): mad.n32.sat, and div.i64. -/
theorem test_decode_iarith : Reads (wordL 0x12 6 0 1 2 3 4 (1 + 0x11 * 16)) (.madL always .n32 true (.v 1) (.v 2) (.v 3) (.v 4)) ∧
    Reads (wordL 0x12 8 0 2 4 6 0 (0x12 * 16)) (.divL always .i64 (.v 2) (.v 4) (.v 6)) := by
  decide +kernel

/-- IBIT (R175): shr.b64 by a constant, and permb.b32. -/
theorem test_decode_ibit : Reads (wordX 0x17 6 0 2 4 0xF5 0 (0x17 * 16) 40#32) (.shrX always .b64 (.v 2) (.v 4) .imm 40#32) ∧
    Reads (wordL 0x16 16 0 1 2 3 4 (0x16 * 16)) (.permbL always .b32 (.v 1) (.v 2) (.v 3) (.v 4)) := by
  decide +kernel

/-- IPRED (R175): cmp.lt.n32 combined by and with p3, and pnot of EXEC. -/
theorem test_decode_ipred :
    Reads (wordL 0x1A 0 0 0xE9 2 3 0xEB (2 + 0x11 * 16 + 1 * 512)) (.cmpL always .n32 .lt (.and (.p 3)) (.p 1) (.v 2) (.v 3)) ∧
    Reads (wordL 0x1A 4 0 0xF4 0xE9 0 0 0) (.pnotL always .exec (.p 1)) := by
  decide +kernel

/-- IMOVE (R175): movi halfword 2, sel. -/
theorem test_decode_imove : Reads (wordX 0x1F 1 0 0xC4 0xF5 0 0 (2 + 0x17 * 16) 9#32) (.movi always .b64 2 (.s 4) .imm 9#32) ∧
    Reads (wordL 0x1E 2 0 1 2 3 0xEB (0x16 * 16)) (.selL always .b32 (.v 1) (.v 2) (.v 3) (.p 3)) := by
  decide +kernel

/-- FARITH (R217): ffma.f32 with rounding field 3, fabs. -/
theorem test_decode_farith : Reads (wordL 0x22 3 0 1 2 3 4 (3 + 16)) (.ffmaL always .f32 .rm (.v 1) (.v 2) (.v 3) (.v 4)) ∧
    Reads (wordL 0x22 6 0 1 2 0 0 16) (.fabsL always .f32 (.v 1) (.v 2)) := by
  decide +kernel

/-- FSPEC (R217): frsq, fdiv. -/
theorem test_decode_fspec : Reads (wordL 0x26 1 0 1 2 0 0 16) (.frsq always .f32 (.v 1) (.v 2)) ∧
    Reads (wordL 0x26 3 0 1 2 3 0 (1 + 16)) (.fdiv always .f32 .rn (.v 1) (.v 2) (.v 3)) := by
  decide +kernel

/-- FCONV (R217, R229): tagset. -/
theorem test_decode_fconv : Reads (wordL 0x2A 3 0 5 0xC3 0 0 0) (.tagset always (.v 5) (.s 3)) ∧
    Reads (wordL 0x2A 2 0 0xC3 5 0 0 0) (.tagget always (.s 3) (.v 5)) := by
  decide +kernel

/-- FPACKED (R217): dot8.lg4, hmul2.bf16. -/
theorem test_decode_fpacked : Reads (wordL 0x2E 4 0 1 2 3 4 (0x0A * 16)) (.dot8L always .lg4 .dyn (.v 1) (.v 2) (.v 3) (.v 4)) ∧
    Reads (wordL 0x2E 1 0 1 2 3 0 (2 + 3 * 16)) (.hmul2L always .bf16 .rz (.v 1) (.v 2) (.v 3)) := by
  decide +kernel

/-- QEXCH and GEXCH (R250). -/
theorem test_decode_exch : Reads (wordL 0x32 0 0 1 2 0 0 (3 + 0x16 * 16)) (.qswap always .b32 3 (.v 1) (.v 2)) ∧
    Reads (wordL 0x36 0 0 1 2 3 0 (1 + 0x16 * 16)) (.shfl always .b32 .up (.v 1) (.v 2) (.v 3)) ∧
    Reads (wordL 0x36 2 0 1 2 0 0 (0 + 0x10 * 16 + 512)) (.scanPrefix always .i32 .add true (.v 1) (.v 2)) := by
  decide +kernel

/-- LOAD, STORE and LOCAL (R285). -/
theorem test_decode_memory : Reads (wordX 0x43 0 0 1 2 0 0 (1 + 0x14 * 16) 8#32) (.ldX always .b8 true (.v 1) (.v 2) 8#32) ∧
    Reads (wordL 0x46 0 0 0 2 1 0 (0x16 * 16)) (.stL always .b32 (.v 2) (.v 1)) ∧
    Reads (wordL 0x4A 1 0 0 0xC2 1 0 (0x17 * 16)) (.stsL always .b64 (.s 2) (.v 1)) ∧
    Reads (wordL 0x42 1 0 8 0xC2 0 0 7) (.lddL always 7 (.v 8) (.s 2)) := by
  decide +kernel

/-- ATOM and MONITOR (R311): xor, non-returning, 64 bits wide; armc.ge.n32. -/
theorem test_decode_atom : Reads (wordL 0x52 0 0 0xF0 2 4 0 (7 + 16 + 32)) (.atomL always .xor true true .zero (.v 2) (.v 4)) ∧
    Reads (wordL 0x56 1 0 0xC1 0xC2 0xC4 0 (5 + 0x11 * 16)) (.armcL always .ge .n32 (.s 1) (.s 2) (.s 4)) := by
  decide +kernel

/-- SYS (R362): MFSR of number 0x1F3, whose bits 3:0 stand in the first parcel and 9:4 in the second. -/
theorem test_decode_sys : Reads (wordL 0x62 6 0 0xC1 0 0 0 0x1F3) (.mfsr always 0x1F3 (.s 1)) ∧
    Reads (wordL 0x62 3 0 0 0 0 0 1) .tretPark ∧
    Reads (wordL 0x62 0xA 0 0 0xC2 0xC4 0 (1 + 4)) (.tlbi .asid true (.s 2) (.s 4)) := by
  decide +kernel

/-- COPY (R391): a copy from global memory to SP, and swwait. -/
theorem test_decode_copy : Reads (wordX 0x73 0 0 0xC1 0xC2 0xC4 0xC5 1 0#32) (.cpy always .sp .glob (.s 1) (.s 2) (.s 4) (.s 5) 0#32) ∧
    Reads (wordX 0x73 7 0 0xC1 0xC2 0xC3 0 0 0#32) (.swwait always (.s 1) (.s 2) (.s 3) 0#32) := by
  decide +kernel

/-- MATRIX (R440): sixteen rows with .z, and macc.team. -/
theorem test_decode_matrix : Reads (wordX 0x83 0 0 0xC1 8 0xC2 0 (15 + 64) 0x20001#32) (.mma always 15 false true (.s 1) (.v 8) (.s 2) 0x20001#32) ∧
    Reads (wordX 0x83 4 0 0xC1 0xC2 0 0 (3 + 32) 0#32) (.macc always 3 true (.s 1) (.s 2) 0#32) := by
  decide +kernel

/-- QUEUE (R476): qpop.wait of four, qlen of the input. -/
theorem test_decode_queue : Reads (wordX 0x93 0 0 0xC1 0xF5 0 0 1 4#32) (.qpopX always true (.s 1) .imm 4#32) ∧
    Reads (wordL 0x92 4 0 0xC1 0 0 0 8) (.qlen always 8 (.s 1)) := by
  decide +kernel

/-- FABRIC (R528): fstat.tokens is selector 3, ftok field 4 with .rd. -/
theorem test_decode_fabric : Reads (wordL 0xA2 0 0 0xC1 0xC2 0 0 3) (.fstatTokens always (.s 1) (.s 2)) ∧
    Reads (wordL 0xA2 2 0 0xC1 0xF0 0xC3 0xF0 (4 + 8)) (.ftok 4 true (.s 1) .zero (.s 3) .zero) := by
  decide +kernel

/-- TIER (R575): tswap.up, resumec. -/
theorem test_decode_tier : Reads (wordL 0xB2 0 0 0xC1 0xC2 0xC4 0 1) (.tswap always true (.s 1) (.s 2) (.s 4)) ∧
    Reads (wordL 0xB2 6 0 0xC1 0 0xC4 0 0) (.resumec always (.s 1) (.s 4)) := by
  decide +kernel

/-- What R56 refuses: length bits 0 (row 5), a reserved MAJ, an FN that is not listed, PRED 0b1000, a bit that is not
used, a reserved rounding field (rows 7 to 10). -/
theorem test_decode_refuses : decodeBytes (parcelBytes [0#32]) = .error .badLength ∧
    decodeBytes (parcelBytes [0x39#32]) = .error .reservedMaj ∧
    decodeBytes (parcelBytes (wordS 0x6001 0 0 0)) = .error .reservedFn ∧
    decodeBytes (parcelBytes (wordS 1 8 0 0)) = .error .reservedPred ∧
    decodeBytes (parcelBytes (wordS 1 0 1 0)) = .error .unusedField ∧
    decodeBytes (parcelBytes (wordL 0x22 0 0 1 2 3 0 (7 + 16))) = .error .reservedCode := by
  decide +kernel

/-! ### What is not well formed (R56 row 10) -/

/-- A specifier that no position admits; an odd pair; p0 as a destination; IMM32 in an L form; a type that the
instruction has not. -/
theorem test_ill_formed : ¬ (Instr.addL always .i32 false (.v 1) (.rsv 0) (.v 2)).WellFormed ∧
    ¬ (Instr.add64L always .i64 false (.v 1) (.v 2) (.v 4)).WellFormed ∧
    ¬ (Instr.pnotL always (.p 0) (.p 1)).WellFormed ∧
    ¬ (Instr.addL always .i32 false (.v 1) (.v 2) .imm).WellFormed ∧
    ¬ (Instr.addL always .b8 false (.v 1) (.v 2) (.v 3)).WellFormed := by
  decide +kernel

/-- An X form without IMM32 in a position; a branch to parcel 30; CALL to a parcel that is not 0; SYNC with a
predicate; a copy whose IMM32 is not used. -/
theorem test_ill_formed_forms : ¬ (Instr.addX always .i32 false (.v 1) (.v 2) (.v 3) 0#32).WellFormed ∧
    ¬ (Instr.bra always 30#32).WellFormed ∧ ¬ (Instr.call always (.s 2) 1#32).WellFormed ∧
    ¬ (Instr.mmap always 31 false false (.s 1) (.v 170) (.s 2) 0#32).WellFormed ∧
    ¬ (Instr.cpy always .sp .glob (.s 1) (.s 2) (.s 4) (.s 5) 1#32).WellFormed ∧
    ¬ (Instr.qpopX always false (.s 1) (.s 2) 0#32).WellFormed := by
  decide +kernel

/-- The same forms as the spec admits them. -/
theorem test_well_formed : (Instr.addL always .i32 false (.v 1) (.v 3) (.v 2)).WellFormed ∧
    (Instr.add64L always .i64 false (.v 2) (.v 2) (.v 4)).WellFormed ∧ (Instr.pnotL always (.p 1) (.p 1)).WellFormed ∧
    (Instr.bra always 29#32).WellFormed ∧ (Instr.call always (.s 2) 32#32).WellFormed ∧
    (Instr.qpopX always false (.s 1) .imm 0#32).WellFormed := by
  decide +kernel

section Witnesses
-- One after another: the many kernel evaluations below would otherwise each hold a thread.
set_option Elab.async false

/-! ### States that meet the hypotheses of the statements

Each theorem below is named after the statement whose hypotheses it shows to be met together. -/

/-- A program's first state, its only part chosen (log 2); the header of its first line names parcels 0 and 2 and lets parcel 0 be a target. -/
def begun : State :=
  let s := State.reset.load (natLe 12 1)
  ({ s with mem := s.mem.writeBytes firstLine (natLe 8 0x40000005) } : State).chosen ⟨1, 0, 0⟩

/-- The program's part. -/
def me : PartRef := ⟨1, 0, 0⟩

/-- The same with something done to its part, or to its gang. -/
def begunPart (f : Part → Part) : State := begun.modPart me f
def begunGang (f : Gang → Gang) : State := begun.modGang 1 0 f

/-- A run as the part has it. -/
def someRun (closed : Bool) : Run :=
  { id := 7, start := 0, count := 1, closed := closed, noLog := false, ckpt := ⟨vof 32 fun _ => 0, vof 8 fun _ => 0, 0, 0, vof 64 fun _ => 0, none⟩
    undo := [], reads := [], spill := [], cmds := [], finishing := 0 }

/-- A store of the part's, owned and committed or not. -/
def someEntry (owned committed : Bool) : StoreEntry :=
  { id := 5, own := 63, cohort := 1, gang := 0, part := 2, run := 7, core := 0, sub := 0, line := 0x8000, mask := 1, data := List.replicate 64 9, side := none
    owned := owned, committed := committed, red := none, leaves := [] }

/-- A request of the part's to a peer, to I/O space or to this package. -/
def someRequest (peer : Option Nat) (io sent : Bool) : Request :=
  { id := 6, cohort := 1, gang := 0, part := 2, copyOp := none, own := 63, pos := 0, port := none, lane := 0, off := 0, group := 6, va := 0, peer := peer, io := io
    addr := 0x200000, leaves := [], kind := .atomic .add false 1, sent := sent, deadline := 0, ans := none, tout := false }

/-- Queue settings, stage settings, a bound queue with some records, and a graph of the boot context with two queues. -/
def someQDesc (mirror : Bool) : QDesc := ⟨4, 6, true, mirror, 0, 0, 0⟩
def someStage : StageDesc := ⟨0, [1], 1, 1, 1, 1, 4, 0, 0, 1, 1, 0x100000⟩
def someRecord : Record := ⟨List.replicate 16 3, 0, false⟩
def someQueue (k : QKey) (mirror : Bool) (ring : List Record) : Queue :=
  ⟨k, someQDesc mirror, 0, ring, [], 0, [], [], [], [], 0, 0⟩
def someGraph (part : Nat) (bound : Bool) : Graph :=
  ⟨part, 0, [(0, someQDesc false), (1, someQDesc false)], [(0, ⟨someStage, false, none, 0⟩)], bound, 0⟩
def withGraph (s : State) (part : Nat) (n : Nat) : State :=
  { s with stage := { s.stage with
    graphs := [someGraph part true], queues := [someQueue ⟨part, 0, 0⟩ true (List.replicate n someRecord), someQueue ⟨part, 0, 1⟩ false []] } }

/-- A level-1 partition that holds every section, active. -/
def withPartition (s : State) (f : Partition → Partition) : State :=
  (s.addPartition 0 1 63).modPartition 0 fun p => f { p with secs := BitVec.allOnes 48, active := true, halted := false }

/-- Ports 0 and 1 are up, with keys, to package 1; a mirror entry of queue 0 of a partition there. -/
def linked (s : State) (part : Nat) (f : Port → Port) (g : Mirror → Mirror) : State :=
  { s with fabric := { s.fabric with
    ports := s.fabric.ports.map fun p => if p.num < 2 then
      f { p with state := .up, peer := 1, txKey := some (List.replicate 16 0, 0), rx0 := some (List.replicate 16 0) } else p
    mirrors := [g { idx := 0, key := ⟨part, 0, 0⟩, peer := 1, pidx := 0, w := 1, theta := 0, sentRecs := 0, seq := 0, repLen := 0, repRoom := 64, repSeq := 0
                    batches := [], expect := 0, held := [], complete := [], dropped := [], rseq := 0 }] } }

/-- The state in which a form executes and its part there, where it is ready. -/
def ready (f : Form) (imm : Word) (s : State) : Option (Ctx × State × Ctx) :=
  match s.ctx? imm with
  | none => none
  | some x =>
    if s.frozen || x.v.part.still || x.noRun || (s.openRun x).2.check f != none then none
    else
      match (s.openRun x).1.prepare (s.openRun x).2 f.kind with
      | none => none
      | some t => (t.ctx? imm).map fun y => (x, t, y)

theorem ready_spec (f : Form) (imm : Word) (s : State) (x : Ctx) (t : State) (y : Ctx) (h : ready f imm s = some (x, t, y)) :
    Ready f imm s x t y := by
  unfold ready at h
  split at h
  · cases h
  · next x' hx =>
    split at h
    · cases h
    · next hc =>
      simp only [Bool.or_eq_true, not_or, Bool.not_eq_true, bne_iff_ne, ne_eq, not_not] at hc
      split at h
      · cases h
      · next t' ht =>
        rw [Option.map_eq_some_iff] at h
        obtain ⟨y', hy, he⟩ := h
        cases he
        exact ⟨hc.1.1.1, hx, hc.1.1.2, hc.1.2, hc.2, ht, hy⟩

/-- A form is ready in a state and meets some conditions there. -/
def Met (f : Form) (imm : Word) (s : State) (P : State → Ctx → Prop) : Prop := ∃ x t y, Ready f imm s x t y ∧ P t y

theorem met (f : Form) (imm : Word) (s : State) (P : State → Ctx → Prop) (h : (ready f imm s).isSome = true)
    (hp : P ((ready f imm s).get h).2.1 ((ready f imm s).get h).2.2) : Met f imm s P :=
  ⟨((ready f imm s).get h).1, _, _, ready_spec f imm s _ _ _ (by simp), hp⟩

/-- Forms that name registers and have no other condition. -/
abbrev plainForm (n : Nat) (l : List (Opnd × Nat)) : Form := ⟨always, n, 0, l, [], .plain, .none⟩
abbrev soleForm (n : Nat) : Form := ⟨always, n, 0, [], [], .irrevocable, .none⟩
abbrev aloneForm (r : Nat) : Form := ⟨always, 2, r, [(.s 1, 1)], [], .alone, .none⟩

/-- Room for entries after an effect, as every `Falls` asks. -/
abbrev Fits (g : State → Ctx → State) (t : State) (y : Ctx) : Prop := (g t y).overfull y = false

/-- Room, and a part that is still there, as every `Answers` asks. -/
abbrev Replies (g : State → Ctx → State) (t : State) (y : Ctx) : Prop := ((g t y).ctx? y.v.imm).isSome = true

/-! #### Steps and checks -/

/-- The state after withFetchWord meets what `StepRunsDecoded` asks of a part that fetches. -/
theorem witness_StepRunsDecoded :
    let s := State.withFetchWord State.reset 32 1
    let h := s.chosen me
    s.boot ≠ .notBooted ∧ s.frozen = false ∧ s.agenda = [] ∧ s.choose = some me ∧
      ∃ x, h.ctx? 0 = some x ∧ x.v.part.waitsIn = none ∧
        (h.fetchLine x.c.core x.c.part x.c.gslot x.v.part.ring x.v.part.pc).1 = .ok firstLine ∧
        (let u := (h.fetchLine x.c.core x.c.part x.c.gslot x.v.part.ring x.v.part.pc).2
         h.lost u x.r = false ∧ u.poison = [] ∧ pcOk x.v.part.pc = true ∧ leNat (u.bytesAs x.own firstLine 8) = 1 ∧
          decodeBytes ((u.bytesAs x.own (firstLine + 8) 12).take 4) = .ok (.nop always) ∧ x.v.part.runpos < 24) := by
  refine ⟨by decide +kernel, by decide +kernel, by decide +kernel, by decide +kernel, ((State.withFetchWord State.reset 32 1).chosen me |>.ctx? 0).get
    (by decide +kernel), by simp, ?_⟩
  decide +kernel

/-- A part that waits in an instruction which it has fetched. -/
theorem witness_StepRunsDecoded_waits : let s := begunPart fun p => { p with wait := .load, under := some (p.pc, .nop always) }
    s.choose = some me ∧ ((s.chosen me).ctx? 0).any (fun x => x.v.part.waitsIn == some (.nop always)) = true := by
  decide +kernel

/-- Not booted; frozen with nothing due; a step due; nothing to do. -/
theorem witness_StepOrder : State.reset.boot = .notBooted ∧ begun.boot ≠ .notBooted ∧ begun.frozen = false ∧
    ({ begun with cohorts := [] } : State).choose = none := by
  decide +kernel

/-- A first line with KIND 1. -/
theorem witness_FetchRefuses :
    let s : State := { begun with mem := begun.mem.writeBytes firstLine (natLe 8 (2 ^ 60 + 1)), cur := none }
    s.agenda = [] ∧ s.choose = some me ∧ ((s.chosen me).ctx? 0).any (fun x => x.v.part.waitsIn == none &&
      (s.chosen me).fetchLine x.c.core x.c.part x.c.gslot x.v.part.ring x.v.part.pc == (.ok firstLine, s.chosen me) &&
      hdrKind (BitVec.ofNat 64 (leNat ((s.chosen me).bytesAs x.own firstLine 8))) == 1) = true := by
  decide +kernel

/-- The program's part at its 25th instruction, which is a BRA. -/
def atLast (imm : Word) : State :=
  let s := begunPart fun p => { p with runs := [{ someRun false with count := 24 }] }
  { s with mem := s.mem.writeBytes firstLine (natLe 8 0x40000001 ++ (encode (.bra always imm)).flatMap fun w => natLe 4 w.toNat), cur := none }

/-- What `FetchRefuses` asks of a 25th instruction that is a taken branch, and how its target's check ends. -/
noncomputable def lastBranch (imm : Word) : Option (XRes DWord) :=
  let s := atLast imm
  let h := s.chosen me
  (h.ctx? 0).bind fun x =>
    let bs := h.bytesAs x.own (firstLine + 8) 12
    let i : Instr := .bra always imm
    if s.agenda == [] && s.choose == some me && x.v.part.waitsIn == none && decide (24 ≤ x.v.part.runpos) && fmtOf (leNat (bs.take 4)) == some .X &&
        (match decodeBytes bs with | .ok k => k == i | .error _ => false) && admissible i && !h.newRun x i then
      (x.v.jump? i).bind fun j =>
        if j.quads == 0 then none else some (h.checkTarget x.c.core x.c.part x.c.gslot x.v.part.ring j.target true j.indirect).1
    else none

/-- A target that is no START fails, the first parcel, which may be a target, does not. -/
theorem witness_FetchRefuses_last :
    lastBranch 5 = some (.fault ⟨3, false⟩) ∧ ∃ h, lastBranch 0 = some (.ok h) := by
  refine ⟨by decide +kernel, 0x40000001, by decide +kernel⟩

/-- C is scaled by a tag of its FP32, and is NaN with IV under a scale of 0xFF (R211, R240). -/
theorem test_dot_scales_c : dotLane .e4m3 .ne 4 0 0 0x3F800000 none none (some 128) = (0x40000000, 0) ∧
    dotLane .e4m3 .ne 4 0 0 0x3F800000 none none (some 255) = (BitVec.ofNat 64 (nanCode .f32), flagIV) := by
  decide +kernel

/-- An I/O request goes to its offset in I/O space (R22). -/
theorem test_io_address :
    ((begun.issueReq { someRequest none true false with addr := 0x3000000000040, kind := .load 4 }).out.head? == some (.ioRead 6 0x40 4)) = true := by
  decide +kernel

/-- A gang arrives at a barrier once its last other part has exited (R138, R147). -/
theorem test_exit_arrives : let s := begunGang fun g => { g with
      parts := g.parts.flatMap fun p => [{ p with id := 8, quads := 1, wait := .bar 3 0 none }, { p with quads := 0xFE }] }
    ((s.finishQuads 1 0 0xFE).part? me).map (fun p => p.wait) = some (.bar 3 0 (some 0)) ∧
    ((s.finishQuads 1 0 0xFE).cohort? 1).map (fun c => (c.barriers.getD 3 barrierIdle).gen) = some 1 := by
  decide +kernel

/-- An ATOM of uniform operands with PRED 0b0000 accesses nothing while EXEC is 0 (R332). -/
theorem test_atom_no_lanes :
    ((begunPart fun p => { p with exec := 0 }).ctx? 0).map (fun x => (x.v.atomLanes always [.s 0, .s 2], x.v.accLanes always [.s 0, .s 2])) =
      some ([], [0]) := by
  decide +kernel

/-- A register at the end of the window (R51), a ring that is too low, a temporary that nobody has written. -/
theorem witness_IssueChecks : begun.ctx? 0 ≠ none ∧
    (begun.ctx? 0).any (fun x => !x.v.part.still && !x.noRun && x.v.gang.units == 44 && !bankedV x.v.part.ring 175) = true ∧
    ((begunPart fun p => { p with ring := .U }).ctx? 0).any (fun x => x.v.part.ring.num < 1) = true ∧
    (begun.ctx? 0).any (fun x => (x.v.part.tempFault (x.v.part.act always) [(.x 1, 1)]).isSome) = true := by
  decide +kernel

theorem witness_BranchTargets : pcOk (BitVec.ofNat 64 (firstLine + 8)) = true ∧ pcOk (BitVec.ofNat 64 (firstLine + 124)) = true := by
  decide +kernel

/-- A part at ring U, ring S of its partition without a vector and ring M with one. -/
theorem witness_TrapTarget : let s : State := { begun with pkg := { begun.pkg with setM := { begun.pkg.setM with tvec := 0x100001 } } }
    s.accepts 63 .M = true ∧ s.accepts 63 .H = false ∧ s.trapTarget 63 .U .H = some (.M, true) := by
  decide +kernel

/-- The same package with a part at ring U that traps: its entry line passes its checks. -/
theorem witness_TrapEntry :
    let s : State := { begunPart fun p => { p with ring := .U } with pkg := { begun.pkg with setM := { begun.pkg.setM with tvec := 0x100001 } } }
    let t : Trap := ⟨0x16, 1, 0, 0, false, 0x100008, 0, 0x100010, .next⟩
    s.trapTarget 63 .U (naturalRing t.code t.s2) = some (.M, false) ∧
    (s.part? me).any (fun p => let e := s.entered me p t .M false 0x100010 (s.entryPc 63 .M false)
      (match (e.checkTarget 0 63 0 .M (s.entryPc 63 .M false) true true).1 with | .ok _ => true | _ => false)) = true := by
  decide +kernel

theorem witness_SpecialRegisters :
    Met ⟨always, 3, 2, [], [], .irrevocable, .none⟩ 5 begun (fun t y => y.v.acts always = true ∧ t.overfull y = false) ∧
    Met ⟨always, 3, 1, [], [], .irrevocable, .none⟩ 5 (withPartition (begun.modCohort 1 fun c => { c with part := 0 }) id) fun t y =>
      y.v.acts always = true ∧ t.overfull y = false ∧ (t.partition? y.c.part).any (fun d => decide (d.asidsel < 16)) = true :=
  ⟨met _ _ _ _ (by decide +kernel) (by decide +kernel), met _ _ _ _ (by decide +kernel) (by decide +kernel)⟩

/-- The first and last registers that the clauses speak of, and a part to write them. -/
theorem witness_SpecialRegisters_ends : setReg 0 ∧ setReg 0x11 ∧ frameReg 0x20 ∧ frameReg 0x4F ∧ 2 ∈ userRegs ∧ 13 ∈ userRegs ∧ 0x84 ∈ plainRegs ∧
    0x99 ∈ plainRegs ∧ (begun.ctx? 0).isSome = true := by
  unfold setReg frameReg
  decide +kernel

/-- A committed entry of bytes, alone in the buffer. -/
theorem witness_DrainWrites : let s : State := { begun with stores := [someEntry true true] }
    s.frozen = false ∧ s.mem.wf = true ∧ s.sides.wf = true ∧ s.stores.find? (fun x => x.id == 5 && x.committed) = some (someEntry true true) ∧
    isFar (64 * (someEntry true true).line) = false := by
  decide +kernel

theorem witness_CanonicalKept : begun.mem.wf = true ∧ begun.sides.wf = true ∧ ∃ s, step State.reset = .next s :=
  ⟨by decide +kernel, by decide +kernel, _, rfl⟩

theorem witness_DecodeOfEncode : (Instr.madL always .n32 true (.v 1) (.v 2) (.v 3) (.v 4)).WellFormed ∧
    encode (.madL always .n32 true (.v 1) (.v 2) (.v 3) (.v 4)) ≠ [] := by
  decide +kernel

theorem witness_MemoryLaws : begun.mem.wf = true ∧ begun.mem ≠ [] := by decide +kernel

/-! #### Instructions -/

/-- A register form that computes lane by lane is ready, and its entries fit: so for the result statements of the integer and float families,
the frame statements and those of completion. -/
theorem witness_registerForms : ∀ l ∈ [[(Opnd.v 1, 1), (.v 2, 1), (.v 3, 1)], [(.v 2, 2), (.v 4, 2), (.s 6, 2)], [(.p 1, 1), (.v 2, 1)], [(.v 8, 8), (.v 16, 8)]],
    (ready (plainForm 2 l) 0 begun).any (fun r => !(r.2.1.putView r.2.2.r r.2.2.v).overfull r.2.2) = true := by
  decide +kernel

theorem witness_CompletesCtl : Met ⟨always, 1, 0, [], [], .endr, .none⟩ 0 begun (Fits fun t _ => t) := met _ _ _ _ (by decide +kernel) (by decide +kernel)

/-- EXIT is for ring U. -/
theorem witness_CompletesCtl_exit : Met ⟨always, 1, 0, [], [], .endr, .exit⟩ 0 (begunPart fun p => { p with ring := .U }) (Fits fun t _ => t) :=
  met _ _ _ _ (by decide +kernel) (by decide +kernel)

/-- A branch to the first parcel of its own line: nobody takes it, all do, some do. -/
theorem witness_CompletesBranch : let tgt := fun (y : Ctx) => directTarget y.v.part.pc 0
    Met ⟨⟨1, false⟩, 3, 0, [], [], .plain, .none⟩ 0 begun (fun _ y => y.v.votes ⟨1, false⟩ = 0) ∧
    Met (plainForm 3 []) 0 begun (fun t y => y.v.votes always = y.v.part.quads ∧ y.v.part.quads ≠ 0 ∧ (tgt y).toNat % 128 = 8 ∧
      (match (targetOf false (tgt y) t y).1 with | .ok _ => true | _ => false) = true ∧ t.lost (targetOf false (tgt y) t y).2 y.r = false) ∧
    Met ⟨⟨1, false⟩, 3, 0, [], [], .plain, .none⟩ 0 (begunPart fun p => { p with p := vof 8 fun i => if i = 1 then 0xF else vget p.p i 0 })
      (fun _ y => y.v.votes ⟨1, false⟩ = 1) :=
  ⟨met _ _ _ _ (by decide +kernel) (by decide +kernel), met _ _ _ _ (by decide +kernel) (by decide +kernel),
    met _ _ _ _ (by decide +kernel) (by decide +kernel)⟩

/-- WAITE of an idle engine; RRELEASE by a gang whose other parts have no run. -/
theorem witness_CompletesSync : Met (plainForm 2 []) 0 begun (fun _ y => y.v.gang.counters.get .copy ≤ (y.v.rd32 .zero 0).toNat) ∧
    Met ⟨always, 3, 0, [], [], .irrevocable, .release 2⟩ 2 begun (fun _ y => y.v.othersRun = false) ∧
    Met ⟨always, 3, 0, [], [], .irrevocable, .claim 0⟩ 0 { begun with claims := [⟨1, 0, 2, 0, 0, 0, true, []⟩] } (fun t y => y.v.othersRun = false ∧
      (t.claimBy y).any (fun c => c.granted) = true) :=
  ⟨met _ _ _ _ (by decide +kernel) (by decide +kernel), met _ _ _ _ (by decide +kernel) (by decide +kernel),
    met _ _ _ _ (by decide +kernel) (by decide +kernel)⟩

/-- BAR of a cohort whose only gang arrives. -/
theorem witness_CompletesSync_bar : Met (soleForm 2) 0 begun (fun t y => Passed (barUnit .zero 0) (arrived .zero 0 t y) y.r) :=
  met _ _ _ _ (by decide +kernel) (by
    refine ⟨((arrived .zero 0 ((ready (soleForm 2) 0 begun).get (by decide +kernel)).2.1 ((ready (soleForm 2) 0 begun).get (by decide +kernel)).2.2).part? me).get
      (by decide +kernel), 0, 0, 0, ?_⟩
    decide +kernel)

/-- LD of a word of HBM. -/
theorem witness_CompletesLoad : Met (plainForm 3 [(.v 1, 1)]) 0x200000 begun fun t y =>
    Clear .glob howLoad (loadElems .glob always .b32 (.v 1) .zero) t y ∧
    Readable (found .glob howLoad (loadElems .glob always .b32 (.v 1) .zero) t y).2
      ((found .glob howLoad (loadElems .glob always .b32 (.v 1) .zero) t y).2.fresh y)
      (found .glob howLoad (loadElems .glob always .b32 (.v 1) .zero) t y).1.ok :=
  met _ _ _ _ (by decide +kernel) ⟨⟨by decide +kernel, by decide +kernel, by decide +kernel, by decide +kernel, by decide +kernel, by decide +kernel⟩,
    by unfold Readable; decide +kernel⟩

/-- LDD of a row of HBM, whose lines have one format. -/
theorem witness_FrameLoads : Met (plainForm 3 [(.v 1, 1)]) 0x200000 begun fun t y =>
    Clear .glob (howRows .load) (fun y => y.v.rowsAt always .zero 1) t y ∧
    rowsFault none (rowLines (found .glob (howRows .load) (fun y => y.v.rowsAt always .zero 1) t y).2
      ((found .glob (howRows .load) (fun y => y.v.rowsAt always .zero 1) t y).2.fresh y)
      (found .glob (howRows .load) (fun y => y.v.rowsAt always .zero 1) t y).1.ok) = none :=
  met _ _ _ _ (by decide +kernel) ⟨⟨by decide +kernel, by decide +kernel, by decide +kernel, by decide +kernel, by decide +kernel, by decide +kernel⟩,
    by decide +kernel⟩

/-- ST of a word of HBM by a part whose stores are buffered. -/
theorem witness_CompletesStore : Met (plainForm 3 [(.v 1, 1)]) 0x200000 begun fun t y =>
    Clear .glob howStore (storeElems .glob always .b32 .zero (.v 1)) t y ∧
    Writable (found .glob howStore (storeElems .glob always .b32 .zero (.v 1)) t y).2
      ((found .glob howStore (storeElems .glob always .b32 .zero (.v 1)) t y).2.fresh y)
      (found .glob howStore (storeElems .glob always .b32 .zero (.v 1)) t y).1.ok :=
  met _ _ _ _ (by decide +kernel) ⟨⟨by decide +kernel, by decide +kernel, by decide +kernel, by decide +kernel, by decide +kernel, by decide +kernel⟩,
    by unfold Writable; decide +kernel⟩

theorem witness_FrameStores : (begun.ctx? 0).any (fun w => !w.v.part.direct) = true := by decide +kernel

/-- ST of a word of HBM by a part in drag mode, which strikes nobody. -/
theorem witness_FrameStores_direct : Met (plainForm 3 [(.v 1, 1)]) 0x200000 (begunPart fun p => { p with drag := true }) fun t y =>
    let u := (found .glob howStore (storeElems .glob always .b32 .zero (.v 1)) t y).2
    let ps := (found .glob howStore (storeElems .glob always .b32 .zero (.v 1)) t y).1.ok
    Clear .glob howStore (storeElems .glob always .b32 .zero (.v 1)) t y ∧ ps.length = 32 ∧
    (u.ctx? 0x200000).any (fun w => w.r == y.r && w.v.part.direct) = true ∧ Writable u (u.fresh y) ps ∧
    (∀ q ∈ ps, q.x.leaves = [] ∧ q.x.addr % 64 + 4 ≤ 64) ∧ u.canonical ∧
    (∀ o ∈ u.allParts, o.2.id ≠ y.v.part.id → ∀ q ∈ ps, u.strikes (q.x.addr / 64) .write o.2 = false) :=
  met _ _ _ _ (by decide +kernel) ⟨⟨by decide +kernel, by decide +kernel, by decide +kernel, by decide +kernel, by decide +kernel, by decide +kernel⟩,
    by decide +kernel, by decide +kernel, by unfold Writable; decide +kernel, by decide +kernel, by unfold State.canonical; decide +kernel, by decide +kernel⟩

/-- The program's part with scalar registers that hold some values from s2 on. -/
def withScalars (l : List Word) (s : State) : State :=
  s.modPart me fun p => { p with s := vof 32 fun i => if 2 ≤ i then l.getD (i - 2) 0 else 0 }

/-- ST of a word of I/O space. -/
theorem witness_FrameStores_leaving : Met (plainForm 3 [(.s 2, 2), (.s 1, 1)]) 0 (withScalars [0, 0x30000] begun) fun t y =>
    let es := storeElems .glob always .b32 (.s 2) (.s 1)
    let u := (found .glob howStore es t y).2
    let ps := (found .glob howStore es t y).1.ok
    y.v.part.pend = none ∧ es y ≠ [] ∧ (found .glob howStore es t y).1.bad = [] ∧ (found .glob howStore es t y).1.wait = false ∧ t.lost u y.r = false ∧
    ps.map (fun q => (q.leaves, q.x.leaves.isEmpty)) = [(true, true)] ∧
    (u.settle y.r).any (fun v => (v.ctx? 0).any (fun w => w.r == y.r) && v.reqs.isEmpty && v.spoiled.isEmpty && v.mem.wf && v.sides.wf) = true :=
  met _ _ _ _ (by decide +kernel) ⟨by decide +kernel, by decide +kernel, by decide +kernel, by decide +kernel, by decide +kernel, by decide +kernel,
    by decide +kernel⟩

/-- STS into the last word of SP (R270), and one that no lane makes. -/
theorem witness_CompletesLocal : Met (plainForm 3 [(.v 1, 1)]) 0x7FFC begun (fun t y => Clear .sp howStore (storeElems .sp always .b32 .zero (.s 1)) t y) ∧
    Met (plainForm 3 [(.v 1, 1)]) 0 (begunPart fun p => { p with exec := 0 }) (fun _ y => Silent (loadElems .sp always .b32 (.v 1) (.v 2)) y) :=
  ⟨met _ _ _ _ (by decide +kernel) ⟨by decide +kernel, by decide +kernel, by decide +kernel, by decide +kernel, by decide +kernel, by decide +kernel⟩,
    met _ _ _ _ (by decide +kernel) ⟨by decide +kernel, by decide +kernel⟩⟩

/-- ATOM and ATOMS of one word. -/
theorem witness_CompletesAtom : Met (soleForm 3) 0x200000 begun
      (fun t y => Clear .glob (howAtom false) (atomElems .glob always false (.s 1) .zero [.zero, .s 2]) t y) ∧
    Met (plainForm 3 []) 0x40 begun (fun t y => Clear .sp (howAtom false) (atomElems .sp always false (.s 1) .zero [.zero, .s 2]) t y) :=
  ⟨met _ _ _ _ (by decide +kernel) ⟨by decide +kernel, by decide +kernel, by decide +kernel, by decide +kernel, by decide +kernel, by decide +kernel⟩,
    met _ _ _ _ (by decide +kernel) ⟨by decide +kernel, by decide +kernel, by decide +kernel, by decide +kernel, by decide +kernel, by decide +kernel⟩⟩

/-- WAITC of one word. -/
theorem witness_CompletesMonitor : Met (soleForm 3) 0x200000 begun fun t y =>
    Clear .glob (howMon 4) (watchElems always .i32 [.zero, .s 2, .s 1] .zero) t y ∧
    Watchable (found .glob (howMon 4) (watchElems always .i32 [.zero, .s 2, .s 1] .zero) t y).2
      ((found .glob (howMon 4) (watchElems always .i32 [.zero, .s 2, .s 1] .zero) t y).2.fresh y)
      (found .glob (howMon 4) (watchElems always .i32 [.zero, .s 2, .s 1] .zero) t y).1.ok :=
  met _ _ _ _ (by decide +kernel) ⟨⟨by decide +kernel, by decide +kernel, by decide +kernel, by decide +kernel, by decide +kernel, by decide +kernel⟩,
    by unfold Watchable; decide +kernel⟩

/-- CPY of a line from HBM to SP; SWINIT; SWWAIT for generation 0. -/
theorem witness_CompletesCopy :
    Met (plainForm 3 []) 64 (withScalars [0x200000] begun) (CopyReady always (cpyAsk .sp .glob .zero (.s 2) .imm .zero)) ∧
    Met (plainForm 3 []) 0 begun (fun t y => y.v.acts always = true ∧ syncFault y.c (y.v.uni .zero).toNat = none ∧
      Writable t y [swPiece y (y.v.uni .zero).toNat]) ∧
    Met (plainForm 3 [(.s 1, 1)]) 0 begun (fun t y => y.v.acts always = true ∧ syncFault y.c (y.v.uni .zero).toNat = none ∧
      Readable t y [swPiece y (y.v.uni .zero).toNat] ∧
      (BitVec.ofNat 32 (SyncWord.of (t.pieceBytes y (swPiece y (y.v.uni .zero).toNat))).gen - y.v.uni .zero).toNat < 2 ^ 31) :=
  ⟨met _ _ _ _ (by decide +kernel) ⟨by decide +kernel, by decide +kernel, by decide +kernel, by decide +kernel, by decide +kernel, by decide +kernel,
      by decide +kernel, ⟨[none], by decide +kernel, by simp⟩, by decide +kernel⟩,
    met _ _ _ _ (by decide +kernel) ⟨by decide +kernel, by decide +kernel, by unfold Writable; decide +kernel⟩,
    met _ _ _ _ (by decide +kernel) ⟨by decide +kernel, by decide +kernel, by unfold Readable; decide +kernel, by decide +kernel⟩⟩

/-- The program's part with rows of a format in v registers, and a tile of the format in WB. -/
def withTile (code : Nat) (s : State) : State :=
  let s := s.modGang 1 0 fun g => { g with v := vof 192 fun _ => ⟨rowOf fun _ => 0, BitVec.ofNat _ code⟩ }
  { s with sides := (List.range 256).map fun k => (wbAt 0 0 / 64 + k, BitVec.ofNat _ code) }

/-- MCLR of two rows, and MMA of one row with a tile. -/
theorem witness_CompletesMatrix :
    Met (plainForm 3 []) 0 begun (fun _ y => MatReady always y ∧ MatFits [abRange y y.c .zero 0 (512 * 2)]) ∧
    Met ⟨always, 3, 0, [(.v 1, 1)], [], .plain, .rows 1 1⟩ 0 (withTile 7 begun) (MmaReady always 1 false false .zero (.v 1) .zero) :=
  ⟨met _ _ _ _ (by decide +kernel) ⟨by unfold MatReady; decide +kernel, by unfold MatFits; decide +kernel⟩,
    met _ _ _ _ (by decide +kernel) ⟨by unfold MatReady; decide +kernel, by decide +kernel, by unfold TeamReady; decide +kernel, by decide +kernel, by decide +kernel,
      by unfold MatFits; decide +kernel, by decide +kernel, by decide +kernel, by decide +kernel⟩⟩

/-- The boot context's queues bound: QPOP of a record, QPUSH, QPUSHS and QSEED of one, STAT, STOP and UNBIND; the slot not bound: SETQ, SETS, BIND and
CLEAR. -/
def withQueues (bound : Bool) (n : Nat) : State :=
  let s := withGraph (begun.modCohort 1 fun c => { c with bound := true }) 63 n
  { s with stage := { s.stage with graphs := [{ someGraph 63 bound with queues := [(0, ⟨4, 6, true, false, 0, 0, 0⟩), (1, someQDesc false)] }]
                                   queues := if bound then s.stage.queues else [] } }

theorem witness_CompletesQueue :
    Met ⟨always, 3, 0, [(.s 1, 1)], [], .irrevocable, .none⟩ 1 (withQueues true 2) (fun t y => y.v.acts always = true ∧ t.popWaits y.v.part.id = false ∧
      ((t.inputOf y.c).bind t.queue?).any Queue.behind = false ∧ 1 ≤ (y.v.uni .imm).toNat ∧ (y.v.uni .imm).toNat ≤ 32 ∧ (popped .imm t y).1 = 1) ∧
    Met ⟨always, 2, 0, [(.v 1, 1)], [(.v 1, 1)], .plain, .none⟩ 0 (withQueues true 2) (fun t y => y.v.act always ≠ 0 ∧ y.v.gang.counters.push < 64 ∧
      ∃ key, t.outputOf y.c 0 = some key ∧
        pushFault y.c (y.v.act always) false (t.sizeOf key) ((laneList (y.v.act always)).map fun l => (l, y.v.offset (.v 1) l)) = none) ∧
    Met (plainForm 2 []) 0 (withScalars [1] (withQueues true 2)) (fun t y => y.v.acts always = true ∧ y.v.gang.counters.push < 64 ∧ (y.v.uni (.s 2)).toNat ≤ 256 ∧
      ∃ key, t.outputOf y.c 0 = some key ∧
        pushFault y.c (y.v.act always) true (t.sizeOf key) (rowOffs y .zero (t.sizeOf key) (y.v.uni (.s 2)).toNat) = none) ∧
    Met ⟨always, 2, 0, [(.s 1, 1)], [], .irrevocable, .none⟩ 0 (withScalars [0x200000] (withQueues true 2)) (fun t y => y.v.acts always = true ∧
      Fetches y.v.part.ring (y.v.effAddr (.s 2) 0) 4 t y ∧ SeedReady always 0 (.s 2) .zero t y) ∧
    Met (aloneForm 1) 0 (withQueues true 2) (fun t y => y.v.acts always = true ∧ (y.v.uni .zero).toNat ≤ 255 ∧ slotOk y.c.part (y.v.uni .zero).toNat = true ∧
      (t.graphOr y.c.part (y.v.uni .zero).toNat).bound = true ∧ (assocGet (t.graphOr y.c.part (y.v.uni .zero).toNat).stages (y.v.uni .zero).toNat).isSome) ∧
    Met (aloneForm 1) 0 (withQueues false 2) (fun t y => y.v.acts always = true ∧ slotOk y.c.part (y.v.uni .zero).toNat = true ∧
      (t.graphOr y.c.part (y.v.uni .zero).toNat).bound = false ∧ (t.graphOr y.c.part (y.v.uni .zero).toNat).whole = true ∧
      ∃ hs, t.homesOf y.c.part (t.graphOr y.c.part (y.v.uni .zero).toNat).queues = some hs ∧ t.slicesFit hs = true) :=
  ⟨met _ _ _ _ (by decide +kernel) (by decide +kernel),
    met _ _ _ _ (by decide +kernel) ⟨by decide +kernel, by decide +kernel, ⟨63, 0, 1⟩, by decide +kernel⟩,
    met _ _ _ _ (by decide +kernel) ⟨by decide +kernel, by decide +kernel, by decide +kernel, ⟨63, 0, 1⟩, by decide +kernel⟩,
    met _ _ _ _ (by decide +kernel) ⟨by decide +kernel,
      ⟨⟨by decide +kernel, by decide +kernel, by decide +kernel, by decide +kernel, by decide +kernel, by decide +kernel⟩, by unfold Readable; decide +kernel⟩,
      by decide +kernel, by decide +kernel, ⟨63, 0, 1⟩, by decide +kernel⟩,
    met _ _ _ _ (by decide +kernel) (by decide +kernel),
    met _ _ _ _ (by decide +kernel) ⟨by decide +kernel, by decide +kernel, by decide +kernel, by decide +kernel,
      [(0, ⟨4, 6, true, false, 0, 0, 0⟩, 0), (1, someQDesc false, 0)], by decide +kernel⟩⟩

/-- The loads that QCTL makes of a queue's and of a stage's descriptor, whose values they can hold. -/
theorem witness_CompletesQueue_set :
    let s : State := { begun with mem := begun.mem.writeBytes 0x200000 ([4, 6, 1, 0, 0, 0, 0, 0, 1] ++ List.replicate 23 0) }
    Met (aloneForm 1) 0 (withScalars [0x200000] s) (fun t y => y.v.acts always = true ∧ (y.v.base (.s 2)).toNat % 32 = 0 ∧
      (t.graphOr y.c.part (y.v.uni .zero).toNat).bound = false ∧ Fetches .S (y.v.base (.s 2)) 32 t y ∧
      ∃ q, qdescOf (fetched .S (y.v.base (.s 2)) 32 t y).1 = some q) := by
  refine met _ _ _ _ (by decide +kernel) ⟨by decide +kernel, by decide +kernel, by decide +kernel,
      ⟨⟨by decide +kernel, by decide +kernel, by decide +kernel, by decide +kernel, by decide +kernel, by decide +kernel⟩, by unfold Readable; decide +kernel⟩,
      ⟨4, 6, true, false, 0, 1, 0⟩, by decide +kernel⟩

/-- FTOK's reads, FLINK PORT of an UP port and of a DISABLED one, ROUTE, UNMIRROR, SETID, KEY. -/
theorem witness_CompletesFabric :
    Met ⟨always, 2, 2, [(.s 1, 1)], [], .irrevocable, .none⟩ 0 (linked begun 63 id id) (fun t y => (y.v.uni .zero).toNat ≤ 15 ∧ (y.v.uni .zero).toNat ≤ 47 ∧
      (y.v.uni .zero).toNat = 0 ∧ (t.port? (y.v.uni .zero).toNat).any (fun q => q.state == .up) = true ∧
      (t.mirror? (y.v.uni .zero).toNat).any (fun m => m.batches.all fun k => k.settled) = true) ∧
    Met ⟨always, 2, 2, [(.s 1, 1)], [], .irrevocable, .none⟩ 0 (withScalars [1] begun) (fun t y =>
      (t.port? (y.v.uni .zero).toNat).any (fun q => q.state == .disabled && (y.v.uni (.s 2)).toNat == 1) = true ∧
      (y.v.uni .zero).toNat ≤ 15 ∧ ∀ q ∈ t.fabric.ports, q.state = .disabled) ∧
    Met ⟨always, 2, 2, [(.s 1, 1)], [], .irrevocable, .none⟩ 0 (withScalars [0x200000] begun) (fun t y => (y.v.base (.s 2)).toNat % 32 = 0 ∧
      Fetches y.v.part.ring (y.v.base (.s 2)) 32 t y ∧ leNat ((fetched y.v.part.ring (y.v.base (.s 2)) 32 t y).1.drop 20) = 0 ∧
      ((fetched y.v.part.ring (y.v.base (.s 2)) 32 t y).2.1.port? ((fetched y.v.part.ring (y.v.base (.s 2)) 32 t y).2.2.v.uni .zero).toNat).isSome = true) :=
  ⟨met _ _ _ _ (by decide +kernel) (by decide +kernel), met _ _ _ _ (by decide +kernel) (by decide +kernel),
    met _ _ _ _ (by decide +kernel) ⟨by decide +kernel,
      ⟨⟨by decide +kernel, by decide +kernel, by decide +kernel, by decide +kernel, by decide +kernel, by decide +kernel⟩, by unfold Readable; decide +kernel⟩,
      by decide +kernel⟩⟩

/-- The boot context sets off a job for partition 0, whose word lies in HBM; it resumes the partition, which has halted. -/
theorem witness_CompletesTier :
    Met ⟨always, 2, 1, [(.s 1, 1)], [], .irrevocable, .none⟩ 0 (withScalars [0x200000, 0, 0] (withPartition begun id)) (fun t y => y.v.acts always = true ∧
      WordReaches (y.v.base (.s 2)) t y ∧ JobStarts (wordReached (y.v.base (.s 2)) t y) (.s 4) (y.job (.halt false) 0 0 0 0 (y.v.base (.s 2)))) ∧
    Met ⟨always, 2, 1, [(.s 1, 1)], [], .irrevocable, .none⟩ 0 (withScalars [0, 0, 0] (withPartition begun fun p => { p with secs := 2, active := false, halted := true }))
      (fun t y => y.v.acts always = true ∧ ∃ k, t.tierTarget y (.s 4) = some k ∧ (t.resumePart k).1 = 0) :=
  ⟨met _ _ _ _ (by decide +kernel) ⟨by decide +kernel, ⟨by decide +kernel, by decide +kernel, by decide +kernel, by decide +kernel⟩,
      by decide +kernel, 0, by decide +kernel⟩,
    met _ _ _ _ (by decide +kernel) ⟨by decide +kernel, 0, by decide +kernel⟩⟩

/-- A part at ring U whose calls ring M takes: an MCALL in its first line, others in the next. -/
def calling : State :=
  let s := begunPart fun p => { p with ring := .U }
  { s with
    mem := s.mem.writeBytes (firstLine + 128) (natLe 8 0x40000005)
    pkg := { s.pkg with setM := { s.pkg.setM with tvec := BitVec.ofNat 64 (firstLine + 1) } } }

/-- SYSC and MCALL of all lanes that ring M takes. -/
theorem witness_CompletesSys_calls :
    Met (soleForm 2) 0 calling (fun t y => y.v.act ⟨0, false⟩ ≠ 0 ∧ t.callFate y 0x14 0 = .taken) ∧
    Met (soleForm 2) 0 calling (fun t y => y.v.act ⟨0, false⟩ ≠ 0 ∧ t.callFate y 0x16 0 = .taken) ∧
    Met (soleForm 2) 0 begun (fun t y => y.v.act ⟨0, false⟩ ≠ 0 ∧ t.callFate y 0x14 0 = .stops) :=
  ⟨met _ _ _ _ (by decide +kernel) (by decide +kernel), met _ _ _ _ (by decide +kernel) (by decide +kernel),
    met _ _ _ _ (by decide +kernel) (by decide +kernel)⟩

/-- A SYSC behind another instruction of its run that no ring takes: the part stands at its run's start (R340, R379). -/
theorem test_call_stops : let s := begunPart fun p => { p with pc := 0x200, runs := [{ someRun false with start := 0x100 }] }
    (match execSyscL .zero s with | .next t => (t.monStopped me, (t.part? me).map (·.pc)) | _ => (false, none)) = (true, some 0x100) := by
  decide +kernel

/-- GKILL of its own cohort; MTSR; TLBSYNC with nothing to wait for. -/
theorem witness_CompletesSys :
    Met (aloneForm 0) 0 begun (fun t y => (t.cohortOf y.c.part (y.v.rd32 .zero 0)).any (fun c => c.id == y.c.id) = true) ∧
    Met (soleForm 2) 0 begun (fun _ y => y.v.acts always = true) ∧
    Met ⟨always, 2, 1, [], [], .alone, .none⟩ 0 begun (fun t y => ∀ k ∈ y.v.part.tlbis, k ∉ t.underWay y.c.part) :=
  ⟨met _ _ _ _ (by decide +kernel) (by decide +kernel), met _ _ _ _ (by decide +kernel) (by decide +kernel),
    met _ _ _ _ (by decide +kernel) (by decide +kernel)⟩

/-- TRET of a frame of all quads that returns to the first line. -/
theorem witness_CompletesSys_tret :
    let f : Frame := ⟨true, 0x300, 0, 0, 0, 0xFFFFFFFF, 0, 0xFF, 0, vof 8 fun _ => 0, vof 8 fun _ => BitVec.ofNat 64 (firstLine + 8)⟩
    Met (aloneForm 0) 0 (begunGang fun g => { g with bankM := { g.bankM with frames := vof 8 fun _ => f } }) (fun _ _ => True) ∧
    Met ⟨⟨0, false⟩, 2, 1, [], [], .alone, .none⟩ 0 (begunGang fun g => { g with bankM := { g.bankM with frames := vof 8 fun _ => f } }) Returns :=
  ⟨met _ _ _ _ (by decide +kernel) trivial,
    met _ _ _ _ (by decide +kernel) ⟨by decide +kernel, ⟨(List.range 8).map fun q => (q, 0x40000005), by decide +kernel⟩, by decide +kernel⟩⟩

/-- GRESUME of a parked gang of another cohort. -/
theorem witness_CompletesSys_gresume :
    let s : State := { begun with cohorts := begun.cohorts ++ [{ firstCohort 40 with core := 1, gangs := [{ gangAt 0 0 (List.range 44) with parts := [firstPart 41], parked := true }] }] }
    Met (aloneForm 1) 0 (withScalars [1] s) (fun t y => (t.ofHandle y.c.part (y.v.rd32 (.s 2) 0)).any (fun k => k.2.parked && k.1.id == 40) = true) :=
  met _ _ _ _ (by decide +kernel) (by decide +kernel)

/-! #### Steps of the engines and of the outside -/

/-- A run that may commit; one that goes on without its log; a part to be split; a claim that can be granted, and one that never can; a trap to
take; an entry to be owned; a walk that waits. -/
theorem witness_CompletesSeqSteps :
    (let s := begunPart fun p => { p with runs := [someRun true] }
     (s.part? me).any fun p => s.canCommit p (someRun true)) = true ∧
    (let s : State := { begunPart fun p => { p with runs := [someRun false], wait := .room } with stores := [someEntry true false] }
     (s.part? me).any (fun p => p.wait == .room && p.runs == [someRun false]) && s.stores.all fun e => e.run != 7 || e.owned) = true ∧
    ((begunPart fun p => { p with wait := .split 1 0 0 }).part? me).any (fun p => p.wait == .split 1 0 0 && p.runs == []) = true ∧
    (begun.gang? 1 0).isSome = true ∧
    (let s : State := { begun with claims := [⟨1, 0, 2, 0, 0, 2, false, []⟩] }
     decide (2 ≤ s.unitsAvailable 63 0 0) && (s.takeUnits 63 0 0 2).isSome) = true ∧
    (let s : State := { begun with claims := [⟨1, 0, 2, 0, 0, 230, false, []⟩] }
     (s.cohort? 1).any fun c => !c.halted && (c.gangs.all fun g => g.live == 0 || s.blockedGang g) &&
       decide (min 256 (s.unitShare c.part) - s.unitsTaken c.core 0 (fun x => x.id == c.id) < 230)) = true ∧
    (let t : Trap := ⟨0x16, 1, 0, 0, false, 0x100008, 0, 0x100010, .next⟩
     let s : State := { begunPart fun p => { p with ring := .U, trap := some t } with pkg := { begun.pkg with setM := { begun.pkg.setM with tvec := 0x100001 } } }
     (s.part? me).any (fun p => p.trap == some t && p.runs == []) && (s.takeTrap me t t.after).isSome) = true ∧
    ({ begun with stores := [someEntry false false] } : State).blocked 0x8000 (someEntry false false).asks (some 2) = false ∧
    (({ begun with walks := [⟨0, 0, 63, 0, .S, 0x1000, false⟩] } : State).walks.find? fun x => x.sec == 0 && begun.onSec 0 == some x.part).isSome = true := by
  decide +kernel

/-- Requests that are performed, answered or late; a peer's request with its grant. -/
theorem witness_CompletesSeqSteps_requests :
    (let s : State := { begun with reqs := [someRequest none false false] }
     (((s.issueReq (someRequest none false false)).req? 6).bind (·.ans)).isSome) = true ∧
    (let pd : Pend := ⟨.red, 3, false, 1⟩
     let s : State := { begunPart fun p => { p with pend := some pd } with reqs := [{ someRequest (some 1) false true with ans := some .ack }], cur := some me }
     (s.ctx? 0).any fun x => match s.goOn x pd with | .fall u _ => !u.overfull x | _ => false) = true ∧
    (let q : PeerReq := ⟨9, 1, 3, 0, 0x200000, .load 4, [], 100⟩
     let s : State := { begun with fabric := { begun.fabric with grants := [⟨0, 1, 3, 63, 0x200000, 0x10000⟩] } }
     s.fabricTime ≤ q.deadline ∧ (s.grantFor q (kindWidth q.kind)).isSome = true ∧ s.physStore q.addr = some (0x200000, false) ∧ s.underMove 0x200000 = false) ∧
    (let s : State := { begun with reqs := [someRequest (some 1) false true] }
     s.req? 6 = some (someRequest (some 1) false true) ∧ s.fabricTime ≤ 200) ∧
    200 < ({ begun with cycle := 10000, reqs := [someRequest (some 1) false true] } : State).fabricTime ∧
    ({ begun with reqs := [someRequest none true true] } : State).req? 6 = some (someRequest none true true) := by
  decide +kernel

/-- A copy of a line from HBM to SP, and its chunk; a matrix operation that clears a row, which enters and is written. -/
def someCopy (fs : List Flight) : CopyOp :=
  { id := 8, place := 0, cohort := 1, gang := 0, cmd := ⟨.rows 64 1 0 0, .buf (spAt 0 0), .glob 0x200000, 0, none, 63, 0, 0, .M, 0, false, false⟩, pos := 0, flights := fs
    whole := false, started := true, pool := none, phase := .entry, looked := false, blk := 0, old := none, fresh := false, lead := 0, upto := 0, targets := []
    join := none, stash := [], recv := [], ended := false }
def someFlight : Flight := ⟨List.replicate 64 5, none, none, [], spAt 0 0, none, [], 64, false, true, false⟩
def someMatrix (started : Bool) (entered : Option (List Byte)) : MatOp :=
  { id := 8, cohort := 1, gang := 0, cmd := ⟨.clr, 1, [], 0, abAt 0 0, 0, false, 0, 0, none, 63, 0⟩, started := started, row := 0, entered := entered, ended := false }
def withCopy (o : CopyOp) : State := { begun with copy := { begun.copy with ops := [o] } }
def withMatrix (o : MatOp) : State := { begun with matrix := { begun.matrix with ops := [o] } }

theorem witness_CompletesEngSteps :
    (let s := withCopy (someCopy [])
     s.activeCopies 0 == [someCopy []] && match s.issueOp (someCopy []) with | .did _ => true | _ => false) = true ∧
    (withCopy (someCopy [someFlight])).copyOp? 8 = some (someCopy [someFlight]) ∧
    (withMatrix (someMatrix false none)).matrixNow 0 = some (someMatrix false none) ∧
    (withMatrix (someMatrix true none)).matrixNow 0 = some (someMatrix true none) ∧
    ((withMatrix (someMatrix true none)).matrixRow (someMatrix true none) 0 (abAt 0 0)).2.1 = none ∧
    (withMatrix (someMatrix true (some (List.replicate 512 0)))).matrixNow 0 = some (someMatrix true (some (List.replicate 512 0))) := by
  decide +kernel

/-- Queues of the boot context, the second with something done to it. -/
def withQueue (n : Nat) (f : Queue → Queue) : State := (withGraph begun 63 n).modQueue ⟨63, 0, 0⟩ f

/-- A push at the head of the line; a refill; a launch's and a batch's request; a QPOP that waits; a stage that a core may launch; a reply. -/
theorem witness_CompletesStageSteps :
    (let o : PushOp := ⟨8, 1, 0, ⟨⟨63, 0, 0⟩, 16, .places [spAt 0 0]⟩, 0, false⟩
     let s := withQueue 1 fun q => { q with line := [.push 8] }
     let r := s.pushRecord o.cmd 0
     r.2.1 == none && (r.2.2.enqueue o.cmd.key r.1).isSome) = true ∧
    ((withQueue 0 fun q => { q with desc := { q.desc with ccap := 64 }, coach := [someRecord] }).queue? ⟨63, 0, 0⟩).any
      (fun q => decide (32 ≤ q.free) && !q.coach.isEmpty && q.transit == 0) = true ∧
    ((withQueue 2 fun q => { q with asks := [.batch 0 0 1] }).queue? ⟨63, 0, 0⟩).any (fun q => q.asks == [.batch 0 0 1] && q.pops.isEmpty) = true ∧
    (let w : PopWait := ⟨1, 0, 2, 1, .s 1, 2, always, none⟩
     let s : State := { begunPart (fun p => { p with wait := .qpop }) with stage := (withQueue 2 fun q => { q with pops := [w] }).stage }
     (s.partNo? 2).isSome && s.popHere w && (({ s with cur := some me } : State).ctx? 0).isSome) = true ∧
    (let s : State := { withGraph begun 63 2 with stage := { (withGraph begun 63 2).stage with sums := [⟨.core 1, ⟨63, 0, 0⟩, 2, false⟩] } }
     let v := s.decidesNow 1
     decide (s.decideAt 1 ≤ s.cycle) && (s.freeSlot 1).isSome && (v.readyOn 1).isEmpty && (v.bestStage 1 fun g t => (v.resources 1 g t.desc).isSome).isSome) = true ∧
    (let s := begun.decidesNow 1
     s.cycle < s.decideAt 1) ∧
    (({ begun with stage := { begun.stage with launches := [⟨0, 1, ⟨63, 0, 0⟩, some []⟩] } } : State).stage.launches.find?
      fun l => l.core == 0 && l.recs.isSome).isSome = true := by
  decide +kernel

/-- A flit that comes with its tag. -/
def someFlit (lseq : Nat) : Flit := ⟨lseq, 0, 0, false, false, false, 0, 1, 0, 0, List.replicate 16 0, List.replicate 64 0, 0, [], []⟩

/-- A port's time of arrival, of a replay, of silence and of training. -/
theorem witness_CompletesFabSteps_links :
    (let s := linked begun 63 id id
     (s.port? 0).any fun p => p.live && p.again == none && decide (p.held.length < 4096) &&
       ((s.nextFlit p).orElse fun _ => s.idleFlit p).isSome) = true ∧
    ((linked begun 63 (fun p => { p with again := some 0, held := [⟨someFlit 0, 0⟩] }) id).port? 0).any
      (fun p => p.live && p.again == some 0 && p.held.dropWhile (fun k => seqBefore k.flit.lseq 0) == [⟨someFlit 0, 0⟩]) = true ∧
    (let s : State := { linked begun 63 (fun p => { p with held := [⟨someFlit 0, 0⟩] }) id with cycle := 24000 }
     (s.port? 0).any fun p => p.live && decide (p.lastValid + 24000 ≤ s.cycle) && p.held.any fun h => decide (h.time + 4800 ≤ s.cycle)) = true ∧
    ((linked begun 63 (fun p => { p with state := .training }) id).port? 0).any (fun p => p.state == .training && decide (0 < p.since + 240000)) = true ∧
    (let s : State := { linked begun 63 (fun p => { p with state := .training }) id with cycle := 240000 }
     (s.port? 0).any fun p => p.state == .training && decide (p.since + 240000 ≤ s.cycle)) = true := by
  decide +kernel

/-- A flit sealed with the key of the port that receives it. -/
theorem witness_CompletesFabSteps_receive : ∃ f key, (linked begun 63 id id).port? 0 = some (((linked begun 63 id id).port? 0).get (by decide +kernel)) ∧
    ((linked begun 63 id id).port? 0).any (fun p => p.live && (if f.kslot then p.rx1 else p.rx0) == some key && p.nextRx == none) = true ∧
    f.tag = flitTag f key (nonceOf (Config.farPort 0) 1 (Config.keyIndex 0 f.kslot { f with tag := [] }) f.lseq) :=
  ⟨{ someFlit 0 with tag := flitTag (someFlit 0) (List.replicate 16 0) (nonceOf (Config.farPort 0) 1 (Config.keyIndex 0 false (someFlit 0)) 0) },
    List.replicate 16 0, by simp, by decide +kernel, rfl⟩

/-- Tokens for a request and too few; a report to send; a queue to forward from; batches that arrive, are late, and are acknowledged. -/
theorem witness_CompletesFabSteps_mirrors :
    (let s : State := { linked begun 63 (fun p => { p with waiting := [⟨63, 1, .req 6⟩] }) id with reqs := [someRequest (some 1) false false] }
     (s.metered ⟨63, 1, .req 6⟩).isSome && (((s.payers 63).map fun t => s.bucket 0 t).all fun b => decide (min 1 b.depth ≤ b.balance))) = true ∧
    (let s : State := { linked (withPartition begun id) 0 (fun p => { p with waiting := [⟨0, 1, .req 6⟩] }) id with reqs := [someRequest (some 1) false false] }
     ((s.payers 0).map fun t => s.bucket 0 t).any fun b => decide (b.balance < min 1 b.depth)) = true ∧
    (let s := linked (withGraph begun 63 4) 63 id id
     (s.mirror? 0).any fun m => s.mirrorOn m && (s.queue? m.key).isSome && (s.pick m.peer m.idx).isSome) = true ∧
    (let s : State := linked { withGraph begun 63 4 with stage := { (withGraph begun 63 4).stage with sums := [⟨.port 0, ⟨63, 0, 0⟩, 4, false⟩] } } 63 id id
     !s.asking 0 && ((s.port? 0).any fun p => decide (p.decideAt ≤ s.cycle)) && (s.nextMirror 0).isSome) = true ∧
    (let s := linked (withGraph begun 63 4) 63 id fun m => { m with held := [⟨1, [], 0⟩] }
     (s.mirror? 0).any fun m => !seqBefore 0 m.expect && !m.complete.contains 0 && (s.queue? m.key).isSome && m.held.all fun h => h.seq != 0) = true ∧
    (let s : State := { linked (withGraph begun 63 4) 63 id fun m => { m with held := [⟨1, [], 0⟩] } with cycle := 10000 }
     (s.mirror? 0).any fun m => m.held.any fun h => h.seq == 1 && decide (h.deadline < s.fabricTime)) = true ∧
    (let s := linked begun 63 id fun m => { m with expect := 2, dropped := [1] }
     (s.mirror? 0).any fun m => seqBefore 0 m.expect && !m.dropped.contains 0 && (s.queue? m.key).isNone && m.dropped.contains 1) = true ∧
    (let s := linked (withGraph begun 63 4) 63 id fun m => { m with expect := 2, dropped := [1] }
     (s.mirror? 0).any fun m => seqBefore 1 m.expect && m.dropped.contains 1 && (s.queue? m.key).isSome) = true ∧
    (let s := linked (withGraph begun 63 4) 63 id fun m => { m with batches := [⟨0, [(List.replicate 16 3, false)], 0, 0, false⟩] }
     (s.openBatch 0 0).any fun b => decide (s.fabricTime ≤ b.deadline + 200)) = true ∧
    (let s : State := { linked (withGraph begun 63 4) 63 id fun m => { m with batches := [⟨0, [(List.replicate 16 3, false)], 0, 0, false⟩] } with cycle := 10000 }
     (s.openBatch 0 0).any fun b => decide (b.deadline + 200 < s.fabricTime)) = true := by
  decide +kernel

/-- A job of partition 0's for itself. -/
def someJob (k : JobKind) : Job :=
  { id := 8, owner := 0, target := 0, kind := k, whose := ⟨0, 63, 0, .M⟩, list := 0x200000, len := 0, slot := 0, stage := 0, word := 0x200000, pos := 0, count := 0, short := false
    result := 0, begun := false, moving := false, finished := false, hold := [] }
def withJob (j : Job) (f : Partition → Partition) : State :=
  let s := withPartition begun f
  { s with tier := { s.tier with jobs := [j] } }

/-- Jobs that end, close and write their words; a move that completes; a slice's end; a halt that begins, completes and is late; partitions made,
destroyed and reset; sections lent and reclaimed. -/
theorem witness_CompletesTierSteps :
    (let s := withJob (someJob (.swap true)) id
     s.headJob 0 = some (someJob (.swap true)) ∧ s.suspended (someJob (.swap true)) = false ∧ s.tier.moves.length < 16) ∧
    (let s := withJob (someJob (.close false)) id
     (s.partition? 0).isSome = true ∧ s.suspended (someJob (.close false)) = false ∧ s.anyWay [] = false) ∧
    (let j := { someJob .declare with finished := true }
     let s := withJob j id
     s.headJob 0 = some j ∧ s.suspended j = false ∧ (s.writeWord j).isSome = true) ∧
    (let m : Move := ⟨9, 8, 0, 0x300000, true, 0x400000, 0x500000, 64, 80, true⟩
     let s := withJob (someJob (.swap true)) id
     let t : State := { s with tier := { s.tier with moves := [m] } }
     t.tier.moves.find? (fun x => x.id == 9) = some m ∧ t.pageBusy m.old = false ∧ ((t.partition? m.part).bind fun p => t.freeFrame p (!m.up) m.oldFrame).isSome = true) ∧
    (let s : State := { withPartition begun fun p => { p with slice := 1 } with cycle := 2400 }
     (s.partition? 0).any fun p => p.active && !p.halting && p.slice != 0 && decide (p.began + 2400 * s.sliceOf p ≤ s.cycle)) = true ∧
    (let s := withJob (someJob (.halt false)) id
     s.nextHalt 0 = some (someJob (.halt false)) ∧ s.tier.halts = [] ∧ (s.partition? 0).any (fun p => !p.halting) = true ∧
      (((s.modJob 8 fun k => { k with begun := true }).startHalt 0 (some 8) false).tier.halts.find? fun (x : Halt) => x.part == 0).isSome = true) ∧
    (let s := withPartition begun fun p => { p with halting := true }
     let t : State := { s with tier := { s.tier with halts := [⟨0, 0, none, false, 0, false⟩] }, cycle := 4800 * 2 ^ 32, stores := [{ someEntry true true with own := 0 }] }
     t.nextHalt 0 = none ∧ t.outstanding 0 = true ∧ (t.partition? 0).any (fun p => decide (4800 * p.deadline.toNat ≤ t.cycle)) = true) ∧
    (let s := withPartition begun id
     (s.partition? 0).any (fun p => p.level != 2) = true ∧ s.freePartition = some 1 ∧ (s.partition? s.pkg.hrsvsel).any (fun p => p.level == 1) = true) ∧
    (let s := (withPartition begun fun p => { p with csel := 1 }).addPartition 1 2 0
     (1 ∈ s.childrenOf 0) ∧ (s.partition? 0).any (fun p => p.secs.getLsbD 3 && p.csel == 1) = true ∧ s.tier.lends = [] ∧ (s.partition? 1).isSome = true) := by
  decide +kernel

/-- A cohort that has lost its section and settles. -/
theorem witness_CompletesTierSteps_spill :
    let s := (withPartition (begun.modCohort 1 fun c => { c with part := 0, halted := true, slot := none, saveIdx := some 0 }) fun p => { p with secs := 2 })
    ((s.leaveSlot 1).cohort? 1).any (fun c => (s.leaveSlot 1).misplaced c && c.givesWay && (s.leaveSlot 1).settled c) = true := by
  decide +kernel

/-- A running package, a function bound to partition 0. -/
def hosted (f : State → State) : State := f (withGraph (withPartition begun fun p => { p with vf := 0 }) 0 1)

/-- The host's accesses, records and control of its function. -/
theorem witness_CompletesHostSteps :
    (let s := hosted id
     s.hostOk 0 = true ∧ (s.boundTo 0).isSome = true ∧ s.hostHolds = false ∧ s.boot = .running ∧ s.tdi 0 = .unlocked ∧ s.isFrozen 0 = false ∧ s.frozen = false) ∧
    (hosted id).hostOk 96 = false ∧
    (hosted fun s => s.setTdi 0 .locked).isFrozen 0 = true ∧ isHost (64 * (hostLo / 64)) = true ∧
    (let s := hosted id
     s.aperture 0 0 = (some ⟨0, 0, 0⟩, 0) ∧ (s.queue? ⟨0, 0, 0⟩).any (fun q => q.desc.entry && q.line.isEmpty && q.desc.size == 16) = true ∧
      (s.enqueue ⟨0, 0, 0⟩ (List.replicate 16 1)).isSome = true ∧ s.aperture 0 256 = (some ⟨0, 0, 0⟩, 256)) ∧
    (let s := hosted fun s => s.modQueue ⟨0, 0, 0⟩ fun q => { q with ring := List.replicate q.desc.cap someRecord }
     s.coachWaits ⟨0, 0, 0⟩ 1 = false ∧ (s.enqueue ⟨0, 0, 0⟩ (List.replicate 16 1)).isNone = true) ∧
    ((hosted fun s => s.modQueue ⟨0, 0, 0⟩ fun q => { q with line := [.host []] }).queue? ⟨0, 0, 0⟩).any (fun q => q.line != []) = true ∧
    (let s := hosted fun s => { s with stage := { s.stage with graphs := [] } }
     (s.queue? ⟨0, 0, 0⟩).any (fun q => !q.ring.isEmpty && q.desc.size == 16) = true ∧ (s.consumer ⟨0, 0, 0⟩).isNone = true) ∧
    ((hosted id).boundTo 0).any (fun p => match (State.hostBytes p (splitLines 0x200000 (List.replicate 8 0)) (hosted id)).1 with | .ok _ => true | _ => false) = true ∧
    ((hosted id).boundTo 0).any (fun p => match ((hosted id).hostReach p true 0x200000).1 with | .at_ _ => true | _ => false) = true ∧
    (hosted id).physStore 0x200000 = some (0x200000, false) ∧ ({ hosted id with frozen := true } : State).frozen = true := by
  decide +kernel

end Witnesses

end Sys2Proof.Tests
end

-- Proofs: memory and sidebands as canonical data
section
/-!
PROOFS. Memory and sidebands are lists of cells in one canonical form, so what is read of them determines them; bytes written are read back,
and little-endian bytes spell their number (R5, R75, R206).
-/
namespace Sys2Proof.Machine

/-! Cells with a value for what is not listed: what memory and sidebands have in common -/

section Cells
variable {V : Type} {d : V} {l k : List (Nat × V)}

/-- What a list of cells reads at a key, an unlisted key as `d`. -/
def cellAt (d : V) : List (Nat × V) → Nat → V
  | [], _ => d
  | (b, v) :: t, a => if a = b then v else if a < b then d else cellAt d t a

/-- Keys strictly rising, no entry equal to what an unlisted key reads as. -/
def CellsCanonical (d : V) (l : List (Nat × V)) : Prop := l.Pairwise (fun c e => c.1 < e.1) ∧ ∀ c ∈ l, c.2 ≠ d

theorem cellsCanonical_cons {c : Nat × V} :
    CellsCanonical d (c :: l) ↔ c.2 ≠ d ∧ (∀ e ∈ l, c.1 < e.1) ∧ CellsCanonical d l := by
  simp only [CellsCanonical, List.pairwise_cons, List.forall_mem_cons]
  tauto

/-- A canonical list holds exactly the cells that its reads show. -/
theorem mem_iff_cellAt (h : CellsCanonical d l) (a : Nat) (v : V) : (a, v) ∈ l ↔ v ≠ d ∧ cellAt d l a = v := by
  induction l with
  | nil => simpa [cellAt] using fun hv e => hv e.symm
  | cons c t ih =>
    obtain ⟨b, w⟩ := c
    obtain ⟨hw, habove, ht⟩ := cellsCanonical_cons.mp h
    have hlt : (a, v) ∈ t → b < a := habove (a, v)
    rw [List.mem_cons, Prod.mk.injEq, cellAt]
    split_ifs with hab hlow
    · subst hab
      have : (a, v) ∉ t := fun hm => Nat.lt_irrefl a (hlt hm)
      simp only [this, true_and, or_false]
      exact ⟨fun e => ⟨e ▸ hw, e.symm⟩, fun ⟨_, e⟩ => e.symm⟩
    · have : (a, v) ∉ t := fun hm => Nat.lt_asymm hlow (hlt hm)
      simp only [hab, this, false_and, or_false, false_iff, not_and]
      exact Ne.symm
    · rw [← ih ht]
      simp only [hab, false_and, false_or]

/-- Canonical lists that read alike are equal. -/
theorem cells_eq_of_cellAt_eq (hl : CellsCanonical d l) (hk : CellsCanonical d k) (h : ∀ a, cellAt d l a = cellAt d k a) : l = k := by
  have : Std.Irrefl (fun c e : Nat × V => c.1 < e.1) := ⟨fun c => Nat.lt_irrefl c.1⟩
  have : Std.Antisymm (fun c e : Nat × V => c.1 < e.1) := ⟨fun _ _ h1 h2 => absurd h2 (Nat.lt_asymm h1)⟩
  refine hl.1.eq_of_mem_iff hk.1 fun ⟨a, v⟩ => ?_
  rw [mem_iff_cellAt hl, mem_iff_cellAt hk, h]

end Cells

theorem Memory.read_eq_cellAt (m : Memory) (a : Nat) : m.read a = cellAt blank m a := by
  induction m with
  | nil => rfl
  | cons c t ih => rw [read, cellAt, ih]

theorem Sides.read_eq_cellAt (m : Sides) (l : Nat) : m.read l = cellAt untyped m l := by
  induction m with
  | nil => rfl
  | cons c t ih => rw [read, cellAt, ih]

theorem Memory.cellsCanonical_of_wf {m : Memory} (h : m.wf = true) : CellsCanonical blank m := by
  induction m with
  | nil => exact ⟨.nil, nofun⟩
  | cons c t ih =>
    obtain ⟨hv, habove, ht⟩ := wf_cons.mp h
    exact cellsCanonical_cons.mpr ⟨hv, habove, ih ht⟩

theorem Sides.cellsCanonical_of_wf {m : Sides} (h : m.wf = true) : CellsCanonical untyped m := by
  induction m with
  | nil => exact ⟨.nil, nofun⟩
  | cons c t ih =>
    obtain ⟨hv, habove, ht⟩ := wf_cons.mp h
    exact cellsCanonical_cons.mpr ⟨hv, habove, ih ht⟩

/-- Canonical memories that read alike are equal. -/
theorem Memory.eq_of_read_eq {m n : Memory} (hm : m.wf = true) (hn : n.wf = true) (h : ∀ a, m.read a = n.read a) : m = n :=
  cells_eq_of_cellAt_eq (cellsCanonical_of_wf hm) (cellsCanonical_of_wf hn) fun a => by
    rw [← read_eq_cellAt, h, read_eq_cellAt]

/-- Canonical sidebands that read alike are equal. -/
theorem Sides.eq_of_read_eq {m n : Sides} (hm : m.wf = true) (hn : n.wf = true) (h : ∀ l, m.read l = n.read l) : m = n :=
  cells_eq_of_cellAt_eq (cellsCanonical_of_wf hm) (cellsCanonical_of_wf hn) fun l => by
    rw [← read_eq_cellAt, h, read_eq_cellAt]

/-! Bytes in a row -/

/-- The bytes just written are read back in order. -/
theorem Memory.readBytes_writeBytes (m : Memory) (a : Nat) (bs : List Byte) (h : m.wf = true) :
    (m.writeBytes a bs).readBytes a bs.length = bs := by
  induction bs generalizing m a with
  | nil => rfl
  | cons b t ih =>
    have hw := wf_write m a b h
    have hfirst : ((m.write a b).writeBytes (a + 1) t).read a = b := by
      rw [writeBytes_read _ _ _ hw, if_neg (by omega), read_write _ _ _ _ h, if_pos rfl]
    rw [writeBytes, List.length_cons, readBytes, hfirst, ih _ _ hw]

/-- Bytes outside those written read as before. -/
theorem Memory.read_writeBytes_of_outside (m : Memory) (a b : Nat) (bs : List Byte) (h : m.wf = true) (hb : b < a ∨ a + bs.length ≤ b) :
    (m.writeBytes a bs).read b = m.read b := by
  rw [writeBytes_read _ _ _ h, if_neg (by omega)]

/-- The number spelled in `n` little-endian bytes, modulo what they can spell (R5). -/
theorem leNat_natLe (n x : Nat) : leNat (natLe n x) = x % 256 ^ n := by
  induction n generalizing x with
  | zero => simp [natLe, leNat, Nat.mod_one]
  | succ n ih =>
    calc leNat (natLe (n + 1) x) = x % 256 + 256 * (x / 256 % 256 ^ n) := by
          rw [natLe, leNat, ih, BitVec.toNat_ofNat]
      _ = x % 256 ^ (n + 1) := by rw [pow_succ', Nat.mod_mul]

/-- Settles O7: one write's reads are carried along the bytes, and a canonical list of cells is determined by its reads. -/
theorem memoryLaws : Obligations.MemoryLaws := by
  unfold Obligations.MemoryLaws
  refine ⟨fun m a bs h => ⟨?canonical, ?readBack, fun b hb => ?frame⟩, fun _ _ => Memory.eq_of_read_eq, fun _ _ => Sides.eq_of_read_eq,
    fun m l k x h => ⟨Sides.wf_write m l x h, Sides.read_write m l k x h⟩, leNat_natLe⟩
  case canonical => exact Memory.wf_writeBytes m a bs h
  case readBack => exact Memory.readBytes_writeBytes m a bs h
  case frame => exact Memory.read_writeBytes_of_outside m a b bs h hb

end Sys2Proof.Machine
end

-- Proofs: decoding is the inverse of encoding
section
/-!
PROOFS. The decoder gives back what was encoded, and nothing else decodes: each operand, code and number of MOD is read back where it
was written, and the parcels of R44 hold each field in bits of its own (R32 to R50, R56).
-/
namespace Sys2Proof

/-! Operands, predicates and codes (R45, R46, R49) -/

theorem Opnd.toByte_lt (o : Opnd) : o.toByte < 256 := by
  cases o <;> simp only [toByte] <;> omega

@[simp] theorem Opnd.ofByte_toByte (o : Opnd) : ofByte o.toByte = o := by
  cases o with
  | v n | s n | x n | p n => simp +arith [toByte, ofByte, Nat.not_lt.mpr (Nat.le_add_right _ _)]
  | rsv n => fin_cases n <;> rfl
  | zero | lane | quad | gang | exec | imm => rfl

theorem Pred.toNat_lt (p : Pred) : p.toNat < 16 := by
  have := p.neg.toNat_lt
  simp only [toNat]; omega

@[simp] theorem Pred.ofNat_toNat (p : Pred) : ofNat p.toNat = p := by
  obtain ⟨r, n⟩ := p
  cases n <;> fin_cases r <;> rfl

theorem Pred.toNat_ne_eight {p : Pred} (h : p.ok = true) : p.toNat ≠ 8 := by
  intro h8
  rw [← ofNat_toNat p, h8] at h
  exact absurd h (by decide)

theorem Comb.ofCode_toCode (c : Comb) : ofCode c.toCode c.toC = c := by
  cases c with
  | none => rfl
  | and c | or c | xor c => simp [ofCode, toCode, toC]

theorem Comb.toCode_lt (c : Comb) : c.toCode < 4 := by cases c <;> simp [toCode]

theorem Comb.toC_lt (c : Comb) : c.toC < 256 := by cases c <;> simp [toC, Opnd.toByte_lt]

/-- A field of `n` bits spells the values of a type: each code fits, and is read back. -/
structure Codes {α : Type} (enc : α → Nat) (dec : Nat → Option α) (n : Nat) : Prop where
  lt : ∀ a, enc a < 2 ^ n
  dec_enc : ∀ a, dec (enc a) = some a

theorem TypeCode.codes : Codes toCode ofCode 5 := ⟨by rintro ⟨⟩ <;> decide, by rintro ⟨⟩ <;> rfl⟩
theorem IdCode.codes : Codes toCode ofCode 8 := ⟨by rintro ⟨⟩ <;> decide, by rintro ⟨⟩ <;> rfl⟩
theorem EngClass.codes : Codes toCode ofCode 2 := ⟨by rintro ⟨⟩ <;> decide, by rintro ⟨⟩ <;> rfl⟩
theorem Cond.codes : Codes toCode ofCode 4 := ⟨by rintro ⟨⟩ <;> decide, by rintro ⟨⟩ <;> rfl⟩
theorem FCond.codes : Codes toCode ofCode 4 := ⟨by rintro ⟨⟩ <;> decide, by rintro ⟨⟩ <;> rfl⟩
theorem ExtW.codes : Codes toCode ofCode 2 := ⟨by rintro ⟨⟩ <;> decide, by rintro ⟨⟩ <;> rfl⟩
theorem Narrow.codes : Codes toCode ofCode 2 := ⟨by rintro ⟨⟩ <;> decide, by rintro ⟨⟩ <;> rfl⟩
theorem Rnd.codes : Codes toCode ofCode 3 := ⟨by rintro ⟨⟩ <;> decide, by rintro ⟨⟩ <;> rfl⟩
theorem SrcCode.codes : Codes toCode ofCode 4 := ⟨by rintro ⟨⟩ <;> decide, by rintro ⟨⟩ <;> rfl⟩
theorem RedOp.codes : Codes toCode ofCode 4 := ⟨by rintro ⟨⟩ <;> decide, by rintro ⟨⟩ <;> rfl⟩
theorem ShflMode.codes : Codes toCode ofCode 2 := ⟨by rintro ⟨⟩ <;> decide, by rintro ⟨⟩ <;> rfl⟩
theorem VoteMode.codes : Codes toCode ofCode 2 := ⟨by rintro ⟨⟩ <;> decide, by rintro ⟨⟩ <;> rfl⟩
theorem LdwSrc.codes : Codes toCode ofCode 3 := ⟨by rintro ⟨⟩ <;> decide, by rintro ⟨⟩ <;> rfl⟩
theorem AtomOp.codes : Codes toCode ofCode 4 := ⟨by rintro ⟨⟩ <;> decide, by rintro ⟨⟩ <;> rfl⟩
theorem TlbiScope.codes : Codes toCode ofCode 2 := ⟨by rintro ⟨⟩ <;> decide, by rintro ⟨⟩ <;> rfl⟩
theorem DSp.codes : Codes toCode ofCode 2 := ⟨by rintro ⟨⟩ <;> decide, by rintro ⟨⟩ <;> rfl⟩
theorem SSp.codes : Codes toCode ofCode 2 := ⟨by rintro ⟨⟩ <;> decide, by rintro ⟨⟩ <;> rfl⟩

/-! The fields of MOD: each layout that the encoding tables use fits in its 12 bits, and its parts are read back (R44, R47) -/

section Layouts
variable {α : Type} {enc : α → Nat} {dec : Nat → Option α} {n : Nat} {r : Raw} {t : TypeCode} {x y : Bool}

theorem Codes.read (hc : Codes enc dec n) {lo : Nat} {a : α} (h : r.m / 2 ^ lo % 2 ^ n = enc a) : dec (r.bits lo n) = some a := by
  rw [Raw.bits, h, hc.dec_enc]

theorem Raw.bit_eq {lo : Nat} {x : Bool} (h : r.m / 2 ^ lo % 2 = x.toNat) : r.bit lo = x := by
  rw [Raw.bit, h]; cases x <;> rfl

theorem mod_eq_of_some_eq {q r : Raw} (h : some q = some r) : r.m = q.m := by rw [Option.some.inj h]

/-- The decoder goes on with a code that it could read. -/
theorem orCode_then {c : Option α} {a : α} {k : α → Except DecErr Instr} (h : c = some a) : (orCode c >>= k) = k a := by
  rw [h]; rfl

/-- The decoder goes on with a number that is in range. -/
theorem finOr_then {m : Nat} {a : Fin n} {k : Fin n → Except DecErr Instr} (h : m = a.val) : (finOr n m >>= k) = k a := by
  subst h; simp [finOr]; rfl

theorem type_layout (h : r.m = t.toCode * 16) : r.m < 4096 ∧ TypeCode.ofCode (r.bits 4 5) = some t := by
  have := TypeCode.codes.lt t
  exact ⟨by omega, TypeCode.codes.read (by omega)⟩

theorem type_flag_layout (h : r.m = t.toCode * 16 + x.toNat) :
    r.m < 4096 ∧ TypeCode.ofCode (r.bits 4 5) = some t ∧ r.bit 0 = x := by
  have := TypeCode.codes.lt t
  have := x.toNat_lt
  exact ⟨by omega, TypeCode.codes.read (by omega), r.bit_eq (by omega)⟩

theorem type_code_layout (hc : Codes enc dec n) (hn : n ≤ 4) {a : α} (h : r.m = t.toCode * 16 + enc a) :
    r.m < 4096 ∧ TypeCode.ofCode (r.bits 4 5) = some t ∧ dec (r.bits 0 n) = some a := by
  have := TypeCode.codes.lt t
  have := hc.lt a
  interval_cases n <;> exact ⟨by omega, TypeCode.codes.read (by omega), hc.read (by omega)⟩

theorem cond_type_layout {c : Cond} (h : r.m = c.toCode + t.toCode * 16) :
    r.m < 4096 ∧ Cond.ofCode (r.bits 0 4) = some c ∧ TypeCode.ofCode (r.bits 4 5) = some t := by
  have := TypeCode.codes.lt t
  have := Cond.codes.lt c
  exact ⟨by omega, Cond.codes.read (by omega), TypeCode.codes.read (by omega)⟩

theorem compare_layout (hc : Codes enc dec 4) {a : α} {b : Comb} (h : r.m = t.toCode * 16 + enc a + b.toCode * 512) :
    r.m < 4096 ∧ TypeCode.ofCode (r.bits 4 5) = some t ∧ dec (r.bits 0 4) = some a ∧ r.bits 9 2 = b.toCode := by
  have := TypeCode.codes.lt t
  have := hc.lt a
  have := b.toCode_lt
  exact ⟨by omega, TypeCode.codes.read (by omega), hc.read (by omega), by rw [Raw.bits]; omega⟩

theorem type_number_layout {k : Fin 4} (h : r.m = t.toCode * 16 + k.val) :
    r.m < 4096 ∧ TypeCode.ofCode (r.bits 4 5) = some t ∧ r.bits 0 2 = k.val := by
  have := TypeCode.codes.lt t
  exact ⟨by omega, TypeCode.codes.read (by omega), by rw [Raw.bits]; omega⟩

theorem type_number_flag_layout {k : Fin 4} (h : r.m = t.toCode * 16 + k.val + x.toNat * 4) :
    r.m < 4096 ∧ TypeCode.ofCode (r.bits 4 5) = some t ∧ r.bits 0 2 = k.val ∧ r.bit 2 = x := by
  have := TypeCode.codes.lt t
  have := x.toNat_lt
  exact ⟨by omega, TypeCode.codes.read (by omega), by rw [Raw.bits]; omega, r.bit_eq (by omega)⟩

theorem ldw_layout {k : Fin 4} {c : LdwSrc} (h : r.m = t.toCode * 16 + k.val + c.toCode * 512) :
    r.m < 4096 ∧ TypeCode.ofCode (r.bits 4 5) = some t ∧ r.bits 0 2 = k.val ∧ LdwSrc.ofCode (r.bits 9 3) = some c := by
  have := TypeCode.codes.lt t
  have := LdwSrc.codes.lt c
  exact ⟨by omega, TypeCode.codes.read (by omega), by rw [Raw.bits]; omega, LdwSrc.codes.read (by omega)⟩

theorem scan_layout {c : RedOp} (h : r.m = t.toCode * 16 + c.toCode + x.toNat * 512) :
    r.m < 4096 ∧ TypeCode.ofCode (r.bits 4 5) = some t ∧ RedOp.ofCode (r.bits 0 4) = some c ∧ r.bit 9 = x := by
  have := TypeCode.codes.lt t
  have := RedOp.codes.lt c
  have := x.toNat_lt
  exact ⟨by omega, TypeCode.codes.read (by omega), RedOp.codes.read (by omega), r.bit_eq (by omega)⟩

theorem convert_layout {c : SrcCode} {d : Rnd} (h : r.m = c.toCode + t.toCode * 16 + d.toCode * 512) :
    r.m < 4096 ∧ SrcCode.ofCode (r.bits 0 4) = some c ∧ TypeCode.ofCode (r.bits 4 5) = some t ∧ Rnd.ofCode (r.bits 9 3) = some d := by
  have := TypeCode.codes.lt t
  have := SrcCode.codes.lt c
  have := Rnd.codes.lt d
  exact ⟨by omega, SrcCode.codes.read (by omega), TypeCode.codes.read (by omega), Rnd.codes.read (by omega)⟩

theorem code_layout (hc : Codes enc dec n) (hn : n ≤ 4) {a : α} (h : r.m = enc a) : r.m < 4096 ∧ dec (r.bits 0 n) = some a := by
  have := hc.lt a
  interval_cases n <;> exact ⟨by omega, hc.read (by omega)⟩

theorem source_layout {c : SSp} (h : r.m = c.toCode * 4) : r.m < 4096 ∧ SSp.ofCode (r.bits 2 2) = some c := by
  have := SSp.codes.lt c
  exact ⟨by omega, SSp.codes.read (by omega)⟩

theorem spaces_layout {c : DSp} {d : SSp} (h : r.m = c.toCode + d.toCode * 4) :
    r.m < 4096 ∧ DSp.ofCode (r.bits 0 2) = some c ∧ SSp.ofCode (r.bits 2 2) = some d := by
  have := DSp.codes.lt c
  have := SSp.codes.lt d
  exact ⟨by omega, DSp.codes.read (by omega), SSp.codes.read (by omega)⟩

theorem fill_layout {c : DSp} {k : Fin 11} (h : r.m = c.toCode + k.val * 16) :
    r.m < 4096 ∧ DSp.ofCode (r.bits 0 2) = some c ∧ r.bits 4 5 = k.val := by
  have := DSp.codes.lt c
  exact ⟨by omega, DSp.codes.read (by omega), by rw [Raw.bits]; omega⟩

theorem scope_layout {c : TlbiScope} (h : r.m = c.toCode + x.toNat * 4) :
    r.m < 4096 ∧ TlbiScope.ofCode (r.bits 0 2) = some c ∧ r.bit 2 = x := by
  have := TlbiScope.codes.lt c
  have := x.toNat_lt
  exact ⟨by omega, TlbiScope.codes.read (by omega), r.bit_eq (by omega)⟩

theorem atomic_layout {c : AtomOp} (h : r.m = c.toCode + x.toNat * 16 + y.toNat * 32) :
    r.m < 4096 ∧ AtomOp.ofCode (r.bits 0 4) = some c ∧ r.bit 4 = x ∧ r.bit 5 = y := by
  have := AtomOp.codes.lt c
  have := x.toNat_lt
  have := y.toNat_lt
  exact ⟨by omega, AtomOp.codes.read (by omega), r.bit_eq (by omega), r.bit_eq (by omega)⟩

theorem flag_layout (h : r.m = x.toNat) : r.m < 4096 ∧ r.bit 0 = x := by
  have := x.toNat_lt
  exact ⟨by omega, r.bit_eq (by omega)⟩

theorem two_flags_layout (h : r.m = x.toNat + y.toNat * 2) : r.m < 4096 ∧ r.bit 0 = x ∧ r.bit 1 = y := by
  have := x.toNat_lt
  have := y.toNat_lt
  exact ⟨by omega, r.bit_eq (by omega), r.bit_eq (by omega)⟩

theorem width_layout (h : r.m = x.toNat * 32) : r.m < 4096 ∧ r.bit 5 = x := by
  have := x.toNat_lt
  exact ⟨by omega, r.bit_eq (by omega)⟩

theorem number_layout (k : Nat) (hk : 2 ^ k ≤ 4096) (hn : n ≤ 2 ^ k) {a : Fin n} (h : r.m = a.val) :
    r.m < 4096 ∧ r.bits 0 k = a.val := by
  have := a.isLt
  exact ⟨by omega, by rw [Raw.bits, h, pow_zero, Nat.div_one, Nat.mod_eq_of_lt (by omega)]⟩

theorem mma_layout {k : Fin 32} (h : r.m = k.val + x.toNat * 32 + y.toNat * 64) :
    r.m < 4096 ∧ r.bits 0 5 = k.val ∧ r.bit 5 = x ∧ r.bit 6 = y := by
  have := x.toNat_lt
  have := y.toNat_lt
  exact ⟨by omega, by rw [Raw.bits]; omega, r.bit_eq (by omega), r.bit_eq (by omega)⟩

theorem rows_type_layout {k : Fin 32} (h : r.m = k.val + t.toCode * 32) :
    r.m < 4096 ∧ r.bits 0 5 = k.val ∧ TypeCode.ofCode (r.bits 5 5) = some t := by
  have := TypeCode.codes.lt t
  exact ⟨by omega, by rw [Raw.bits]; omega, TypeCode.codes.read (by omega)⟩

theorem rows_flag_layout {k : Fin 32} (h : r.m = k.val + x.toNat * 32) : r.m < 4096 ∧ r.bits 0 5 = k.val ∧ r.bit 5 = x := by
  have := x.toNat_lt
  exact ⟨by omega, by rw [Raw.bits]; omega, r.bit_eq (by omega)⟩

theorem field_flag_layout {k : Fin 5} (h : r.m = k.val + x.toNat * 8) : r.m < 4096 ∧ r.bits 0 3 = k.val ∧ r.bit 3 = x := by
  have := x.toNat_lt
  exact ⟨by omega, by rw [Raw.bits]; omega, r.bit_eq (by omega)⟩

end Layouts

/-- The encoding tables of the engine chapters, their rows grouped by what they write into MOD: it fits, and the decoder picks the row and
reads its operands, codes and numbers back. -/
theorem mod_lt_and_pick_of_encodeRaw {i : Instr} {r : Raw} (h : encodeRaw i = some r) : r.m < 4096 ∧ pick r = .ok i := by
  cases i with
  | nop | exit | yield | elect | time | bra | call | loop | brx | callx | ret | endr | regangL | regangX | barL | barX | rclaim | rrelease
  | pinfo | pandL | pandX | porL | porX | pxorL | pxorX | pnotL | pnotX | tagget | tagset | checkc | syscL | syscX | hcallL | hcallX
  | mcallL | mcallX | trapL | trapX | tret | tretPark | tfence | gresumeL | gresumeX | tlbsync | swinit | swwait | mrel | qdone | qctlSetq
  | qctlSets | qctlBind | qctlUnbind | qctlStat | qctlStop | qctlStart | qctlClear | fstatPort | fstatRoute | fstatMirror | fstatTokens
  | fstatRto | flinkPort | flinkRoute | flinkKey | flinkMirror | flinkUnmirror | flinkGrant | flinkRevoke | flinkSetid | tpinL | tpinX
  | tunpinL | tunpinX | tresL | tresX | tresStage | twrecWs | twrecDeclare | twrecUndeclare | twrecDirty | haltc | haltcStop | resumec =>
    cases h
    exact ⟨by simp, (rfl : _ = Except.ok _).trans (by simp only [Raw.p, Opnd.ofByte_toByte, Pred.ofNat_toNat])⟩
  | getid _ _ id =>
    cases h
    exact ⟨by simp, (orCode_then (IdCode.codes.dec_enc id)).trans (by simp only [Raw.p, Opnd.ofByte_toByte, Pred.ofNat_toNat])⟩
  | mulhiL | mulhiX | divL | divX | remL | remX | minL | minX | maxL | maxX | andL | andX | orL | orX | xorL | xorX | andnL | andnX | notL
  | notX | shlL | shlX | shrL | shrX | sarL | sarX | rotlL | rotlX | funnelL | funnelX | popcL | popcX | clzL | clzX | ctzL | ctzX | brevL
  | brevX | bfeL | bfeX | bfiL | bfiX | permbL | permbX | movL | movX | selL | selX | fminL | fminX | fmaxL | fmaxX | fabsL | fabsX | fnegL
  | fnegX | fclassL | fclassX | frcp | frsq | fexp2 | flog2 | fsin | fcos | qshuf | xpose | stL | stX | stsL | stsX | staL | staX =>
    obtain ⟨hm, ht⟩ := type_layout (mod_eq_of_some_eq h :)
    cases h
    exact ⟨hm, (orCode_then ht).trans (by simp only [Raw.p, Opnd.ofByte_toByte, Pred.ofNat_toNat])⟩
  | addL | addX | subL | subX | add64L | add64X | sub64L | sub64X | mulL | mulX | madL | madX | madwL | madwX | absL | absX | negL | negX
  | ldL | ldX | ldsL | ldsX | ldaL | ldaX | ldwbL | ldwbX =>
    obtain ⟨hm, ht, hs⟩ := type_flag_layout (mod_eq_of_some_eq h :)
    cases h
    exact ⟨hm, (orCode_then ht).trans (by simp only [hs, Raw.p, Opnd.ofByte_toByte, Pred.ofNat_toNat])⟩
  | faddL | faddX | fsubL | fsubX | fmulL | fmulX | ffmaL | ffmaX | frndL | frndX | fscaleL | fscaleX | fsqrt | fdiv | hadd2L | hadd2X
  | hmul2L | hmul2X | hfma2L | hfma2X | dot4L | dot4X | dot8L | dot8X =>
    obtain ⟨hm, ht, hc⟩ := type_code_layout Rnd.codes (by decide) (mod_eq_of_some_eq h :)
    cases h
    exact ⟨hm, (orCode_then ht).trans ((orCode_then hc).trans (by simp only [Raw.p, Opnd.ofByte_toByte, Pred.ofNat_toNat]))⟩
  | extL | extX =>
    obtain ⟨hm, ht, hc⟩ := type_code_layout ExtW.codes (by decide) (mod_eq_of_some_eq h :)
    cases h
    exact ⟨hm, (orCode_then ht).trans ((orCode_then hc).trans (by simp only [Raw.p, Opnd.ofByte_toByte, Pred.ofNat_toNat]))⟩
  | packL | packX =>
    obtain ⟨hm, ht, hc⟩ := type_code_layout Narrow.codes (by decide) (mod_eq_of_some_eq h :)
    cases h
    exact ⟨hm, (orCode_then ht).trans ((orCode_then hc).trans (by simp only [Raw.p, Opnd.ofByte_toByte, Pred.ofNat_toNat]))⟩
  | qred | gred =>
    obtain ⟨hm, ht, hc⟩ := type_code_layout RedOp.codes (by decide) (mod_eq_of_some_eq h :)
    cases h
    exact ⟨hm, (orCode_then ht).trans ((orCode_then hc).trans (by simp only [Raw.p, Opnd.ofByte_toByte, Pred.ofNat_toNat]))⟩
  | shfl =>
    obtain ⟨hm, ht, hc⟩ := type_code_layout ShflMode.codes (by decide) (mod_eq_of_some_eq h :)
    cases h
    exact ⟨hm, (orCode_then ht).trans ((orCode_then hc).trans (by simp only [Raw.p, Opnd.ofByte_toByte, Pred.ofNat_toNat]))⟩
  | waitcL | waitcX | armcL | armcX =>
    obtain ⟨hm, hc, ht⟩ := cond_type_layout (mod_eq_of_some_eq h :)
    cases h
    exact ⟨hm, (orCode_then hc).trans ((orCode_then ht).trans (by simp only [Raw.p, Opnd.ofByte_toByte, Pred.ofNat_toNat]))⟩
  | cmpL | cmpX =>
    obtain ⟨hm, ht, hc, hb⟩ := compare_layout Cond.codes (mod_eq_of_some_eq h :)
    cases h
    exact ⟨hm, (orCode_then ht).trans ((orCode_then hc).trans
      (by simp only [hb, Comb.ofCode_toCode, Raw.p, Opnd.ofByte_toByte, Pred.ofNat_toNat]))⟩
  | fcmpL | fcmpX =>
    obtain ⟨hm, ht, hc, hb⟩ := compare_layout FCond.codes (mod_eq_of_some_eq h :)
    cases h
    exact ⟨hm, (orCode_then ht).trans ((orCode_then hc).trans
      (by simp only [hb, Comb.ofCode_toCode, Raw.p, Opnd.ofByte_toByte, Pred.ofNat_toNat]))⟩
  | movi | qswap | qbcast =>
    obtain ⟨hm, ht, hn⟩ := type_number_layout (mod_eq_of_some_eq h :)
    cases h
    exact ⟨hm, (orCode_then ht).trans ((finOr_then hn).trans (by simp only [Raw.p, Opnd.ofByte_toByte, Pred.ofNat_toNat]))⟩
  | unpackL | unpackX =>
    obtain ⟨hm, ht, hn, hs⟩ := type_number_flag_layout (mod_eq_of_some_eq h :)
    cases h
    exact ⟨hm, (orCode_then ht).trans ((finOr_then hn).trans (by simp only [hs, Raw.p, Opnd.ofByte_toByte, Pred.ofNat_toNat]))⟩
  | ldwL | ldwX =>
    obtain ⟨hm, ht, hn, hc⟩ := ldw_layout (mod_eq_of_some_eq h :)
    cases h
    exact ⟨hm, (orCode_then ht).trans ((finOr_then hn).trans ((orCode_then hc).trans
      (by simp only [Raw.p, Opnd.ofByte_toByte, Pred.ofNat_toNat])))⟩
  | scanPrefix =>
    obtain ⟨hm, ht, hc, hs⟩ := scan_layout (mod_eq_of_some_eq h :)
    cases h
    exact ⟨hm, (orCode_then ht).trans ((orCode_then hc).trans (by simp only [hs, Raw.p, Opnd.ofByte_toByte, Pred.ofNat_toNat]))⟩
  | cvt =>
    obtain ⟨hm, hs, ht, hr⟩ := convert_layout (mod_eq_of_some_eq h :)
    cases h
    exact ⟨hm, (orCode_then hs).trans ((orCode_then ht).trans ((orCode_then hr).trans
      (by simp only [Raw.p, Opnd.ofByte_toByte, Pred.ofNat_toNat])))⟩
  | cvtp =>
    obtain ⟨hm, hs, ht, hr⟩ := convert_layout (mod_eq_of_some_eq h :)
    cases h
    exact ⟨hm, (orCode_then hs).trans ((orCode_then ht).trans ((orCode_then hr).trans ((finOr_then rfl).trans
      (by simp only [Raw.p, Opnd.ofByte_toByte, Pred.ofNat_toNat]))))⟩
  | waiteL | waiteX =>
    obtain ⟨hm, hc⟩ := code_layout EngClass.codes (by decide) (mod_eq_of_some_eq h :)
    cases h
    exact ⟨hm, (orCode_then hc).trans (by simp only [Opnd.ofByte_toByte])⟩
  | vote =>
    obtain ⟨hm, hc⟩ := code_layout VoteMode.codes (by decide) (mod_eq_of_some_eq h :)
    cases h
    exact ⟨hm, (orCode_then hc).trans (by simp only [Raw.p, Opnd.ofByte_toByte, Pred.ofNat_toNat])⟩
  | cpyg | cpym =>
    obtain ⟨hm, hc⟩ := code_layout DSp.codes (by decide) (mod_eq_of_some_eq h :)
    cases h
    exact ⟨hm, (orCode_then hc).trans (by simp only [Raw.p, Opnd.ofByte_toByte, Pred.ofNat_toNat])⟩
  | cpyt =>
    obtain ⟨hm, hc⟩ := source_layout (mod_eq_of_some_eq h :)
    cases h
    exact ⟨hm, (orCode_then hc).trans (by simp only [Raw.p, Opnd.ofByte_toByte, Pred.ofNat_toNat])⟩
  | cpy | cpys =>
    obtain ⟨hm, hd, hs⟩ := spaces_layout (mod_eq_of_some_eq h :)
    cases h
    exact ⟨hm, (orCode_then hd).trans ((orCode_then hs).trans (by simp only [Raw.p, Opnd.ofByte_toByte, Pred.ofNat_toNat]))⟩
  | cpyf =>
    obtain ⟨hm, hd, hn⟩ := fill_layout (mod_eq_of_some_eq h :)
    cases h
    exact ⟨hm, (orCode_then hd).trans ((finOr_then hn).trans (by simp only [Raw.p, Opnd.ofByte_toByte, Pred.ofNat_toNat]))⟩
  | tlbi =>
    obtain ⟨hm, hc, hs⟩ := scope_layout (mod_eq_of_some_eq h :)
    cases h
    exact ⟨hm, (orCode_then hc).trans (by simp only [hs, Opnd.ofByte_toByte])⟩
  | atomL | atomX | atomsL | atomsX =>
    obtain ⟨hm, hc, hn, hw⟩ := atomic_layout (mod_eq_of_some_eq h :)
    cases h
    exact ⟨hm, (orCode_then hc).trans (by simp only [hn, hw, Raw.p, Opnd.ofByte_toByte, Pred.ofNat_toNat])⟩
  | prefL | prefX | gkillL | gkillX | qpopL | qpopX | fclr | tswap =>
    obtain ⟨hm, hs⟩ := flag_layout (mod_eq_of_some_eq h :)
    cases h
    exact ⟨hm, (rfl : _ = Except.ok _).trans (by simp only [hs, Raw.p, Opnd.ofByte_toByte, Pred.ofNat_toNat])⟩
  | brc =>
    obtain ⟨hm, ha, hn⟩ := two_flags_layout (mod_eq_of_some_eq h :)
    cases h
    exact ⟨hm, (rfl : _ = Except.ok _).trans (by simp only [ha, hn, Raw.p, Opnd.ofByte_toByte, Pred.ofNat_toNat])⟩
  | casL | casX | cassL | cassX =>
    obtain ⟨hm, hw⟩ := width_layout (mod_eq_of_some_eq h :)
    cases h
    exact ⟨hm, (rfl : _ = Except.ok _).trans (by simp only [hw, Raw.p, Opnd.ofByte_toByte, Pred.ofNat_toNat])⟩
  | lddL | lddX | stdL | stdX | qpushL | qpushX | qpushsL | qpushsX | qseedL | qseedX =>
    obtain ⟨hm, hn⟩ := number_layout 3 (by decide) (by decide) (mod_eq_of_some_eq h :)
    cases h
    exact ⟨hm, (finOr_then hn).trans (by simp only [Raw.p, Opnd.ofByte_toByte, Pred.ofNat_toNat])⟩
  | mfsr | mtsrL | mtsrX =>
    obtain ⟨hm, hn⟩ := number_layout 10 (by decide) (by decide) (mod_eq_of_some_eq h :)
    cases h
    exact ⟨hm, (finOr_then hn).trans (by simp only [Raw.p, Opnd.ofByte_toByte, Pred.ofNat_toNat])⟩
  | mclr =>
    obtain ⟨hm, hn⟩ := number_layout 5 (by decide) (by decide) (mod_eq_of_some_eq h :)
    cases h
    exact ⟨hm, (finOr_then hn).trans (by simp only [Raw.p, Opnd.ofByte_toByte, Pred.ofNat_toNat])⟩
  | qlen =>
    obtain ⟨hm, hn⟩ := number_layout 4 (by decide) (by decide) (mod_eq_of_some_eq h :)
    cases h
    exact ⟨hm, (finOr_then hn).trans (by simp only [Raw.p, Opnd.ofByte_toByte, Pred.ofNat_toNat])⟩
  | mma | mmap =>
    obtain ⟨hm, hn, hr, hz⟩ := mma_layout (mod_eq_of_some_eq h :)
    cases h
    exact ⟨hm, (finOr_then hn).trans (by simp only [hr, hz, Raw.p, Opnd.ofByte_toByte, Pred.ofNat_toNat])⟩
  | mcvt =>
    obtain ⟨hm, hn, ht⟩ := rows_type_layout (mod_eq_of_some_eq h :)
    cases h
    exact ⟨hm, (finOr_then hn).trans ((orCode_then ht).trans (by simp only [Raw.p, Opnd.ofByte_toByte, Pred.ofNat_toNat]))⟩
  | macc =>
    obtain ⟨hm, hn, hs⟩ := rows_flag_layout (mod_eq_of_some_eq h :)
    cases h
    exact ⟨hm, (finOr_then hn).trans (by simp only [hs, Raw.p, Opnd.ofByte_toByte, Pred.ofNat_toNat])⟩
  | ftok =>
    obtain ⟨hm, hn, hs⟩ := field_flag_layout (mod_eq_of_some_eq h :)
    cases h
    exact ⟨hm, (finOr_then hn).trans (by simp only [hs, Opnd.ofByte_toByte])⟩
  | _ => cases h

/-- The row of the opcode table that fields name admits their format and lists their FN (R53). -/
def Raw.Listed (r : Raw) : Prop := (majInfo r.maj).any (fun row => row.1.contains r.fmt && decide (r.fn < row.2)) = true

theorem encodeRaw_listed {i : Instr} {r : Raw} (h : encodeRaw i = some r) : r.Listed := by
  cases i <;> cases h <;> rfl

/-- Fields other than MOD fit their places in the parcels of their format (R44), and fields that the format does not have are zero. -/
def Raw.Fits (r : Raw) : Prop :=
  r.maj < 64 ∧ r.pred < 16 ∧ r.fn ≤ 16 ∧ r.d < 256 ∧ r.a < 256 ∧ r.b < 256 ∧ r.c < 256 ∧
    (r.fmt ≠ .X → r.imm = 0) ∧ (r.fmt = .S → r.fn < 16 ∧ r.b = 0 ∧ r.c = 0 ∧ r.m = 0)

theorem encodeRaw_fits {i : Instr} {r : Raw} (h : encodeRaw i = some r) : r.Fits := by
  have hid : ∀ c : IdCode, c.toCode < 256 := IdCode.codes.lt
  have hslot : ∀ k : Fin 8, k.val < 256 := fun k => by omega
  cases i <;> cases h <;> simp [Raw.Fits, Opnd.toByte_lt, Pred.toNat_lt, Comb.toC_lt, hid, hslot]

/-- PRED is not the reserved 0b1000 (R45): where a form has the field, row 10 of R56 looks at it first. -/
theorem encodeRaw_pred_ne_eight {i : Instr} {r : Raw} (hw : i.WellFormed) (h : encodeRaw i = some r) : r.pred ≠ 8 := by
  have hp : ∀ {p : Pred} {b : Bool}, (p.ok && b) = true → p.toNat ≠ 8 := fun h => Pred.toNat_ne_eight (Bool.and_elim_left h)
  cases i with
  | loop | endr | regangL | regangX | barL | barX | waiteL | waiteX | rclaim | rrelease | syscL | syscX | hcallL | hcallX | mcallL | mcallX
  | trapL | trapX | tret | tretPark | tfence | gresumeL | gresumeX | gkillL | gkillX | tlbi | tlbsync | ftok | flinkPort | flinkRoute
  | flinkKey | flinkMirror | flinkUnmirror | flinkGrant | flinkRevoke | flinkSetid =>
    cases h
    exact nofun
  | nop | exit | yield | qdone =>
    cases h
    exact Pred.toNat_ne_eight hw
  | _ => cases h <;> exact hp hw

theorem decodeRaw_encodeRaw {i : Instr} {r : Raw} (hw : i.WellFormed) (h : encodeRaw i = some r) : decodeRaw r = .ok i := by
  have hl := encodeRaw_listed h
  unfold Raw.Listed at hl
  unfold decodeRaw
  split
  next hm => simp [hm] at hl
  next fs n hm =>
    simp only [hm, Option.any_some, Bool.and_eq_true, decide_eq_true_eq] at hl
    obtain ⟨hfmt, hfn⟩ := hl
    rw [hfmt, if_neg (by decide), if_neg (Nat.not_le.mpr hfn), if_neg (encodeRaw_pred_ne_eight hw h), (mod_lt_and_pick_of_encodeRaw h).2]
    exact if_pos h

theorem encodeRaw_of_decodeRaw {i : Instr} {r : Raw} (h : decodeRaw r = .ok i) : encodeRaw i = some r := by
  unfold decodeRaw at h
  repeat' split at h
  all_goals cases h
  assumption

/-! Parcels and bytes -/

theorem leNat_lt (bs : List Byte) : leNat bs < 256 ^ bs.length := by
  induction bs with
  | nil => decide
  | cons b t ih =>
    have := b.isLt
    rw [leNat, List.length_cons, pow_succ]
    omega

theorem natLe_leNat (bs : List Byte) : natLe bs.length (leNat bs) = bs := by
  induction bs with
  | nil => rfl
  | cons b t ih =>
    have hb : BitVec.ofNat 8 (leNat (b :: t)) = b := by
      apply BitVec.eq_of_toNat_eq
      rw [BitVec.toNat_ofNat, leNat, Nat.add_mul_mod_self_left, Nat.mod_eq_of_lt b.isLt]
    have ht : leNat (b :: t) / 256 = leNat t := by
      have := b.isLt
      rw [leNat]; omega
    rw [List.length_cons, natLe, hb, ht, ih]

/-- The parcel that four bytes spell, and its bytes. -/
theorem parcel_of_bytes {bs : List Byte} (h : bs.length = 4) : leNat bs < 2 ^ 32 ∧ natLe 4 (BitVec.ofNat 32 (leNat bs)).toNat = bs := by
  have hl := leNat_lt bs
  rw [h] at hl
  refine ⟨by omega, ?_⟩
  rw [BitVec.toNat_ofNat, Nat.mod_eq_of_lt (by omega), ← h, natLe_leNat]

@[simp] theorem length_natLe (n x : Nat) : (natLe n x).length = n := by
  induction n generalizing x with
  | zero => rfl
  | succ n ih => rw [natLe, List.length_cons, ih]

theorem leNat_natLe_word (w : Word) : leNat (natLe 4 w.toNat) = w.toNat := by
  rw [Machine.leNat_natLe]
  exact Nat.mod_eq_of_lt w.isLt

@[simp] theorem parcelBytes_cons (w : Word) (ws : List Word) : parcelBytes (w :: ws) = natLe 4 w.toNat ++ parcelBytes ws := rfl
@[simp] theorem parcelBytes_nil : parcelBytes [] = [] := rfl

/-- The first parcel of the bytes of some parcels, and the bytes behind it. -/
theorem take_parcelBytes (ws : List Word) :
    leNat ((parcelBytes ws).take 4) = (ws.headD 0).toNat ∧ (parcelBytes ws).drop 4 = parcelBytes ws.tail := by
  cases ws with
  | nil => exact ⟨rfl, rfl⟩
  | cons w ws => simp [leNat_natLe_word]

theorem decodeBytes_parcelBytes (ws : List Word) :
    decodeBytes (parcelBytes ws) = decodeParcels (ws.headD 0).toNat (ws.tail.headD 0).toNat (ws.tail.tail.headD 0).toNat := by
  have hd : (parcelBytes ws).drop 8 = ((parcelBytes ws).drop 4).drop 4 := by rw [List.drop_drop]
  rw [decodeBytes, hd, (take_parcelBytes ws).2, (take_parcelBytes ws.tail).2, (take_parcelBytes ws).1, (take_parcelBytes _).1,
    (take_parcelBytes _).1]

theorem decodeParcels_of_ofParcels {r : Raw} {p0 p1 p2 : Nat} (hf : fmtOf p0 = some r.fmt) (hr : .ofParcels r.fmt p0 p1 p2 = r) :
    decodeParcels p0 p1 p2 = decodeRaw r := by
  rw [decodeParcels, hf]
  exact congrArg decodeRaw hr

theorem word_toNat {p : Nat} (h : p < 2 ^ 32) : (BitVec.ofNat 32 p).toNat = p := by
  rw [BitVec.toNat_ofNat, Nat.mod_eq_of_lt h]

/-- Fields that fit are read back from their parcels. -/
theorem decodeBytes_toParcels {r : Raw} (hf : r.Fits) (hm : r.m < 4096) :
    decodeBytes (parcelBytes (r.toParcels.map (BitVec.ofNat 32))) = decodeRaw r := by
  rw [decodeBytes_parcelBytes]
  obtain ⟨fmt, maj, fn, pred, d, a, b, c, m, imm⟩ := r
  obtain ⟨hmaj, hpred, hfn, hd, ha, hb, hc, himm, hS⟩ := hf
  dsimp only at *
  cases fmt with
  | S =>
    obtain ⟨hfn, rfl, rfl, rfl⟩ := hS rfl
    obtain rfl := himm (by decide)
    simp only [Raw.toParcels, List.map_cons, List.headD_cons, List.tail_cons]
    rw [word_toNat (by omega)]
    refine decodeParcels_of_ofParcels ?_ ?_
    · rw [fmtOf, show _ % 4 = 1 by omega]; rfl
    · rw [Raw.ofParcels]
      congr 1 <;> omega
  | L =>
    obtain rfl := himm (by decide)
    simp only [Raw.toParcels, List.map_cons, List.headD_cons, List.tail_cons]
    rw [word_toNat (by omega), word_toNat (by omega)]
    refine decodeParcels_of_ofParcels ?_ ?_
    · rw [fmtOf, show _ % 4 = 2 by omega]; rfl
    · rw [Raw.ofParcels]
      congr 1 <;> omega
  | X =>
    simp only [Raw.toParcels, List.map_cons, List.headD_cons, List.tail_cons]
    rw [word_toNat (by omega), word_toNat (by omega), word_toNat imm.isLt]
    refine decodeParcels_of_ofParcels ?_ ?_
    · rw [fmtOf, show _ % 4 = 3 by omega]; rfl
    · rw [Raw.ofParcels, BitVec.ofNat_toNat, BitVec.setWidth_eq]
      congr 1 <;> omega

/-- The parcels of the fields of some parcels are these parcels. -/
theorem toParcels_ofParcels {f : Fmt} {p0 p1 p2 : Nat} (hf : fmtOf p0 = some f) (h0 : p0 < 2 ^ 32) (h1 : p1 < 2 ^ 32) (h2 : p2 < 2 ^ 32) :
    (Raw.ofParcels f p0 p1 p2).toParcels = [p0, p1, p2].take f.parcels := by
  unfold fmtOf at hf
  split at hf <;> cases hf
  · simp only [Raw.ofParcels, Raw.toParcels, Fmt.parcels, List.take_succ_cons, List.take_zero, List.cons.injEq, and_true]
    omega
  · simp only [Raw.ofParcels, Raw.toParcels, Fmt.parcels, List.take_succ_cons, List.take_zero, List.cons.injEq, and_true]
    omega
  · simp only [Raw.ofParcels, Raw.toParcels, Fmt.parcels, List.take_succ_cons, List.take_zero, List.cons.injEq, and_true, word_toNat h2]
    omega

/-- Bytes are the bytes of the parcels that they spell. -/
theorem parcelBytes_of_bytes {bs : List Byte} (h : bs.length = 12) (f : Fmt) :
    parcelBytes (([leNat (bs.take 4), leNat ((bs.drop 4).take 4), leNat ((bs.drop 8).take 4)].take f.parcels).map (BitVec.ofNat 32)) =
      bs.take (4 * f.parcels) := by
  have h0 := (parcel_of_bytes (bs := bs.take 4) (by simp [h])).2
  have h1 := (parcel_of_bytes (bs := (bs.drop 4).take 4) (by simp [h])).2
  have h2 := (parcel_of_bytes (bs := (bs.drop 8).take 4) (by simp [h])).2
  cases f <;>
    simp only [Fmt.parcels, List.take_succ_cons, List.take_zero, List.map_cons, List.map_nil, parcelBytes_cons, parcelBytes_nil, h0, h1, h2]
  · simp
  · simp [← List.take_add]
  · rw [List.append_nil, ← List.append_assoc, ← List.take_add, ← List.take_add]

theorem encode_of_encodeRaw {i : Instr} {r : Raw} (h : encodeRaw i = some r) : encode i = r.toParcels.map (BitVec.ofNat 32) := by
  rw [encode, h]

theorem decodeBytes_encode {i : Instr} (hw : i.WellFormed) (he : encode i ≠ []) : decodeBytes (parcelBytes (encode i)) = .ok i := by
  cases h : encodeRaw i with
  | none => exact absurd (by rw [encode, h]) he
  | some r =>
    obtain ⟨hm, -⟩ := mod_lt_and_pick_of_encodeRaw h
    rw [encode_of_encodeRaw h, decodeBytes_toParcels (encodeRaw_fits h) hm, decodeRaw_encodeRaw hw h]

/-- The parcels of what bytes decode to are the first of them. -/
theorem encode_of_decodeBytes {bs : List Byte} {i : Instr} (h : bs.length = 12) (hd : decodeBytes bs = .ok i) :
    ∃ f : Fmt, (encode i).length = f.parcels ∧ bs.take (4 * f.parcels) = parcelBytes (encode i) := by
  unfold decodeBytes decodeParcels at hd
  split at hd
  next => cases hd
  next f hf =>
    have h0 := (parcel_of_bytes (bs := bs.take 4) (by simp [h])).1
    have h1 := (parcel_of_bytes (bs := (bs.drop 4).take 4) (by simp [h])).1
    have h2 := (parcel_of_bytes (bs := (bs.drop 8).take 4) (by simp [h])).1
    have he := encode_of_encodeRaw (encodeRaw_of_decodeRaw hd)
    rw [toParcels_ofParcels hf h0 h1 h2] at he
    refine ⟨f, ?_, ?_⟩
    · rw [he]
      cases f <;> rfl
    · rw [he, parcelBytes_of_bytes h]

/-- Settles O5: fields are read back from their parcels and instructions from their fields, and the decoder accepts fields only when
they are those of the instruction that it answers. -/
theorem decodeOfEncode : Obligations.DecodeOfEncode := by
  unfold Obligations.DecodeOfEncode
  refine ⟨fun i => decodeBytes_encode, fun bs i h hd => ?_⟩
  obtain ⟨f, hlen, htake⟩ := encode_of_decodeBytes h hd
  have hf : 0 < f.parcels := by cases f <;> decide
  exact ⟨List.ne_nil_of_length_pos (by rw [hlen]; exact hf), by rw [hlen, htake]⟩

/-- The words of a well-formed instruction decode to it. -/
theorem decodeBytes_of_encode {i : Instr} {ws : List Word} (he : encode i = ws) (hw : i.WellFormed) (hne : ws ≠ []) :
    decodeBytes (parcelBytes ws) = .ok i := by
  subst he
  exact decodeBytes_encode hw hne

/-- Settles O4: the words are those instructions' encodings, and the two refused ones fail the decoder's first and third check. -/
theorem workedEncodings : Obligations.WorkedEncodings :=
  ⟨decodeBytes_of_encode (by decide) (by decide) (by decide), decodeBytes_of_encode (by decide) (by decide) (by decide),
    decodeBytes_of_encode (by decide) (by decide) (by decide), decodeBytes_of_encode (by decide) (by decide) (by decide), rfl, rfl⟩

end Sys2Proof
end

-- Proofs: fetching and the step of a part
section
/-!
PROOFS. What the header of a line, the length bits and the decoder make of the bytes at a counter, and the step that follows: the instruction
executes, or its fault is raised before any effect (R33 to R42, R56).
-/
namespace Sys2Proof.Machine

/-! Patterns of a line (R36, R56 rows 3 and 5 to 10) -/

/-- The START bits of a line hold an instruction of a format at parcel `k` (R36). -/
def Spans (h : DWord) (k : Nat) (f : Fmt) : Prop :=
  k + f.parcels ≤ 30 ∧ hdrStart h k = true ∧ ∀ j, 0 < j → j < f.parcels → hdrStart h (k + j) = false

theorem Spans.guard {h : DWord} {k : Nat} {f : Fmt} (hs : Spans h k f) :
    (!hdrStart h k || 30 < k + f.parcels || (List.range (f.parcels - 1)).any fun j => hdrStart h (k + 1 + j)) = false := by
  obtain ⟨hroom, hstart, hinside⟩ := hs
  have hrest : ((List.range (f.parcels - 1)).any fun j => hdrStart h (k + 1 + j)) = false := by
    rw [List.any_eq_false]
    intro j hj
    rw [List.mem_range] at hj
    rw [Nat.add_assoc, hinside (1 + j) (by omega) (by omega)]
    decide
  rw [hstart, hrest, Bool.or_false, Bool.not_true, Bool.false_or, decide_eq_false (by omega)]

theorem spans_of_guard {h : DWord} {k : Nat} {f : Fmt}
    (hg : (!hdrStart h k || 30 < k + f.parcels || (List.range (f.parcels - 1)).any fun j => hdrStart h (k + 1 + j)) = false) : Spans h k f := by
  simp only [Bool.or_eq_false_iff, Bool.not_eq_false', decide_eq_false_iff_not, List.any_eq_false, List.mem_range] at hg
  obtain ⟨⟨hstart, hroom⟩, hinside⟩ := hg
  refine ⟨by omega, hstart, fun j hj hjn => Bool.eq_false_of_not_eq_true ?_⟩
  have hk : k + j = k + 1 + (j - 1) := by omega
  rw [hk]
  exact hinside (j - 1) (by omega)

section Patterns
variable {h : DWord} {k : Nat} {f : Fmt} {full : Bool} {fresh : Instr → Bool} {bs : List Byte} {i : Instr}

/-- What the header and the length bits refuse, whatever the run (rows 3, 5 and 6). -/
theorem readPattern_of_not_spans (hn : hdrKind h = 0 → ∀ f, fmtOf (leNat (bs.take 4)) = some f → ¬ Spans h k f) :
    readPattern h k full fresh bs = .error 1 := by
  unfold readPattern
  by_cases hkind : hdrKind h = 0
  · rw [if_neg (not_not.mpr hkind)]
    split
    next => rfl
    next f hf =>
      rw [if_pos]
      by_contra hg
      exact hn hkind f hf (spans_of_guard (Bool.eq_false_of_not_eq_true hg))
  · rw [if_pos hkind]

/-- What the bits decode to is left where the header holds an instruction. -/
theorem readPattern_of_spans (hkind : hdrKind h = 0) (hf : fmtOf (leNat (bs.take 4)) = some f) (hs : Spans h k f) :
    (∀ e, decodeBytes (bs.take (4 * f.parcels)) = .error e → readPattern h k full fresh bs = .error (if full then 4 else 1)) ∧
    (∀ i, decodeBytes (bs.take (4 * f.parcels)) = .ok i → readPattern h k full fresh bs =
      if full && !(fresh i && admissible i) then .error 4 else if admissible i then .ok i else .error 1) := by
  unfold readPattern
  rw [if_neg (not_not.mpr hkind), hf]
  simp only [hs.guard]
  refine ⟨fun e he => ?_, fun i hi => ?_⟩
  · rw [he]; rfl
  · rw [hi]; rfl

theorem readPattern_ok (hkind : hdrKind h = 0) (hf : fmtOf (leNat (bs.take 4)) = some f) (hs : Spans h k f)
    (hi : decodeBytes (bs.take (4 * f.parcels)) = .ok i) (hw : i.WellFormed) (hnew : full = true → fresh i = true) :
    readPattern h k full fresh bs = .ok i := by
  rw [(readPattern_of_spans hkind hf hs).2 i hi, hw, Bool.and_true, if_neg, if_pos rfl]
  cases full with
  | false => exact nofun
  | true => rw [hnew rfl]; exact nofun

/-- Bits that do not decode to an admissible instruction, before the 25th place (rows 7 to 10). -/
theorem readPattern_of_inadmissible (hkind : hdrKind h = 0) (hf : fmtOf (leNat (bs.take 4)) = some f) (hs : Spans h k f)
    (hno : ∀ i, decodeBytes (bs.take (4 * f.parcels)) = .ok i → ¬ i.WellFormed) : readPattern h k false fresh bs = .error 1 := by
  obtain ⟨herr, hok⟩ := readPattern_of_spans (full := false) (fresh := fresh) hkind hf hs
  cases hd : decodeBytes (bs.take (4 * f.parcels)) with
  | error e => exact herr e hd
  | ok i => rw [hok i hd, Bool.false_and, if_neg nofun, if_neg (hno i hd)]

/-- At the 25th place nothing stands that does not begin a run of its own (log 41). -/
theorem readPattern_full (hkind : hdrKind h = 0) (hf : fmtOf (leNat (bs.take 4)) = some f) (hs : Spans h k f)
    (hold : ∀ i, decodeBytes (bs.take (4 * f.parcels)) = .ok i → i.WellFormed → fresh i = false) :
    readPattern h k true fresh bs = .error 4 := by
  obtain ⟨herr, hok⟩ := readPattern_of_spans (full := true) (fresh := fresh) hkind hf hs
  cases hd : decodeBytes (bs.take (4 * f.parcels)) with
  | error e => exact herr e hd
  | ok i =>
    rw [hok i hd, if_pos]
    by_cases hw : admissible i = true
    · rw [hold i hd hw]; rfl
    · rw [Bool.eq_false_of_not_eq_true hw, Bool.and_false]; rfl

end Patterns

/-! A fetch and the step that it is part of -/

/-- The line of a part's counter has been fetched at `a` without a fault, its storage lines hold no poison, and the counter is valid;
`u` is the state after it. -/
structure LineFetched (s : State) (x : Ctx) (a : Nat) (u : State) : Prop where
  line : s.fetchLine x.c.core x.c.part x.c.gslot x.v.part.ring x.v.part.pc = (.ok a, u)
  kept : s.lost u x.r = false
  clean : ∀ l ∈ u.codeLines x.own a x.v.part.pc, u.poisoned l = false
  valid : pcOk x.v.part.pc = true

/-- The header of the line at `a`, and the bytes from the counter on. -/
def lineHeader (x : Ctx) (a : Nat) (u : State) : DWord := BitVec.ofNat 64 (leNat (u.bytesAs x.own a 8))
def patternBytes (x : Ctx) (a : Nat) (u : State) : List Byte := u.bytesAs x.own (a + x.v.part.pc.toNat % 128) 12

/-- What is read of the line, in a run that has 24 instructions or not. -/
noncomputable def lineRead (x : Ctx) (a : Nat) (u : State) (full : Bool) : Except Nat Instr :=
  readPattern (lineHeader x a u) (parcelOf x.v.part.pc) full (u.newRun x) (patternBytes x a u)

section Fetch
variable {s u : State} {r : PartRef} {x : Ctx} {a c : Nat} {i : Instr}

theorem LineFetched.unpoisoned (hl : LineFetched s x a u) : (u.codeLines x.own a x.v.part.pc).find? u.poisoned = none :=
  List.find?_eq_none.mpr fun l hm => by rw [hl.clean l hm]; exact nofun

theorem fetch_of_ok (hl : LineFetched s x a u) (hr : lineRead x a u (decide (24 ≤ x.v.part.runpos)) = .ok i) :
    s.fetch x = .instr i (u.modPart x.r fun p => { p with header := lineHeader x a u, under := some (x.v.part.pc, i) }) := by
  unfold lineRead lineHeader patternBytes at hr
  simp only [State.fetch, hl.line, hl.kept, hl.valid, hl.unpoisoned, hr, lineHeader]
  rfl

theorem fetch_of_error (hl : LineFetched s x a u) (hr : lineRead x a u (decide (24 ≤ x.v.part.runpos)) = .error 1) :
    s.fetch x = .failed (u.fetchFails x 1 x.v.part.pc false) := by
  unfold lineRead lineHeader patternBytes at hr
  simp only [State.fetch, hl.line, hl.kept, hl.valid, hl.unpoisoned, hr]
  rfl

theorem fetch_of_full (hl : LineFetched s x a u) (hr : lineRead x a u (decide (24 ≤ x.v.part.runpos)) = .error 4) :
    s.fetch x = .failed (u.overrun x (lineRead x a u false).toOption) := by
  unfold lineRead lineHeader patternBytes at hr
  simp only [State.fetch, hl.line, hl.kept, hl.valid, hl.unpoisoned, hr, lineRead, lineHeader, patternBytes]
  rfl

/-- A part is chosen for this step: the boot ROM has run, the clocks run and nothing is due. -/
structure Chosen (s : State) (r : PartRef) (x : Ctx) : Prop where
  booted : s.boot ≠ .notBooted
  running : s.frozen = false
  idle : s.agenda = []
  turn : s.choose = some r
  here : (s.chosen r).ctx? 0 = some x

theorem step_of_chosen (h : Chosen s r x) : step s = stepPart (s.chosen r) x := by
  simp only [step, if_neg h.booted, h.running, h.idle, stepTurn, h.turn, h.here]
  rfl

theorem step_of_waitsIn (h : Chosen s r x) (hw : x.v.part.waitsIn = some i) : step s = afterCycle (exec i (s.chosen r)) := by
  rw [step_of_chosen h, stepPart, hw]

theorem step_of_instr (h : Chosen s r x) (hw : x.v.part.waitsIn = none) (hf : (s.chosen r).fetch x = .instr i u) :
    step s = afterCycle (exec i u) := by
  rw [step_of_chosen h, stepPart, hw]
  simp only [hf]

theorem step_of_failed (h : Chosen s r x) (hw : x.v.part.waitsIn = none) (hf : (s.chosen r).fetch x = .failed u) :
    step s = .next u.passCycle := by
  rw [step_of_chosen h, stepPart, hw]
  simp only [hf]

/-! The 25th instruction of a run (R56 rows 4 and 6) -/

/-- Nothing that would leave the line is taken. -/
theorem overrun_of_no_quads {o : Option Instr} (h : ∀ i j, o = some i → x.v.jump? i = some j → j.quads = 0) :
    s.overrun x o = s.fetchFails x 4 0 false := by
  have hnone : ((o.bind x.v.jump?).filter fun j => j.quads != 0) = none := by
    rw [Option.filter_eq_none_iff]
    intro j hj
    obtain ⟨i, ho, hi⟩ := Option.bind_eq_some_iff.mp hj
    simp [h i j ho hi]
  rw [State.overrun, hnone]

section Taken
variable {j : Jump} {t : State} (hj : x.v.jump? i = some j) (hq : j.quads ≠ 0)
include hj hq

theorem taken_jump : ((some i).bind x.v.jump?).filter (fun j => j.quads != 0) = some j := by
  simpa [hj] using hq

theorem overrun_entry (he : j.entry = true) (hp : j.target.toNat % 128 ≠ 8) : s.overrun x (some i) = s.fetchFailsIn x j.lanes 3 j.target false := by
  rw [State.overrun, taken_jump hj hq]
  simp [he, hp]

theorem overrun_target (he : j.entry = true → j.target.toNat % 128 = 8) {c : XRes DWord} (hl : s.lost t x.r = false)
    (hc : s.checkTarget x.c.core x.c.part x.c.gslot x.v.part.ring j.target true j.indirect = (c, t)) :
    (∀ e, c = .fault e → s.overrun x (some i) = t.fetchFailsIn x j.lanes e.code j.target e.s2) ∧
    (∀ h, c = .ok h → s.overrun x (some i) = t.fetchFails x 4 0 false) := by
  have hentry : (j.entry && j.target.toNat % 128 != 8) = false := by
    cases hje : j.entry with
    | false => rfl
    | true => simp [he hje]
  rw [State.overrun, taken_jump hj hq]
  simp only [hentry, hc, hl]
  refine ⟨fun e hce => ?_, fun h hch => ?_⟩
  · rw [hce]; rfl
  · rw [hch]; rfl

end Taken
end Fetch

/-- What is read before the 25th place is what the bits decode to, and admissible. -/
theorem decoded_of_lineRead {x : Ctx} {a : Nat} {u : State} {i : Instr} {f : Fmt} (hkind : hdrKind (lineHeader x a u) = 0)
    (hf : fmtOf (leNat ((patternBytes x a u).take 4)) = some f) (hs : Spans (lineHeader x a u) (parcelOf x.v.part.pc) f)
    (hi : (lineRead x a u false).toOption = some i) : decodeBytes ((patternBytes x a u).take (4 * f.parcels)) = .ok i ∧ i.WellFormed := by
  by_cases h : ∃ k, decodeBytes ((patternBytes x a u).take (4 * f.parcels)) = .ok k ∧ k.WellFormed
  · obtain ⟨k, hd, hw⟩ := h
    have hread : lineRead x a u false = .ok k := readPattern_ok hkind hf hs hd hw nofun
    rw [hread] at hi
    obtain rfl := Option.some.inj hi
    exact ⟨hd, hw⟩
  · rw [lineRead, readPattern_of_inadmissible hkind hf hs fun k hd hw => h ⟨k, hd, hw⟩] at hi
    exact nomatch hi

/-- Settles O1: the bytes at the counter are read as the instruction that they decode to. -/
theorem stepRunsDecoded : Obligations.StepRunsDecoded := by
  unfold Obligations.StepRunsDecoded
  refine ⟨fun s r x i hb hf ha hc hx hw => step_of_waitsIn ⟨hb, hf, ha, hc, hx⟩ hw, ?_⟩
  intro s u r x a f i hb hf ha hc hx hw hline hlost hclean hpc h k bs hkind hfmt hroom hstart hinside hdec hwf hpos
  have hl : LineFetched (s.chosen r) x a u := ⟨hline, hlost, hclean, hpc⟩
  have hr : lineRead x a u (decide (24 ≤ x.v.part.runpos)) = .ok i :=
    readPattern_ok hkind hfmt ⟨hroom, hstart, hinside⟩ hdec hwf fun hfull => hpos.resolve_left (by simpa using hfull)
  exact step_of_instr ⟨hb, hf, ha, hc, hx⟩ hw (fetch_of_ok hl hr)

/-- Settles O3: what the header, the length bits or the decoder refuse is read as a cause, before the 25th place and at it. -/
theorem fetchRefuses : Obligations.FetchRefuses := by
  unfold Obligations.FetchRefuses
  intro s u r x a hb hf ha hc hx hw hline hlost hclean hpc h k bs spans
  have hch : Chosen s r x := ⟨hb, hf, ha, hc, hx⟩
  have hl : LineFetched (s.chosen r) x a u := ⟨hline, hlost, hclean, hpc⟩
  refine ⟨fun hno => ?refused, fun hkind hfull f hfmt hs => ?last⟩
  case refused =>
    refine step_of_failed hch hw (fetch_of_error hl ?_)
    obtain hkind | hfmt | ⟨f, hfmt, hs⟩ | ⟨f, hfmt, hs, hpos, hbad⟩ := hno
    · exact readPattern_of_not_spans fun h0 => absurd h0 hkind
    · exact readPattern_of_not_spans fun _ f hf => nomatch hfmt.symm.trans hf
    · exact readPattern_of_not_spans fun _ g hg => by
        obtain rfl := Option.some.inj (hfmt.symm.trans hg)
        exact hs
    · rw [decide_eq_false (Nat.not_le.mpr hpos)]
      by_cases hkind : hdrKind h = 0
      · exact readPattern_of_inadmissible hkind hfmt hs hbad
      · exact readPattern_of_not_spans fun h0 => absurd h0 hkind
  case last =>
    have hover : (∀ i, decodeBytes (bs.take (4 * f.parcels)) = .ok i → i.WellFormed → u.newRun x i = false) →
        step s = .next (u.overrun x (lineRead x a u false).toOption).passCycle := fun hold =>
      step_of_failed hch hw (fetch_of_full hl (by rw [decide_eq_true hfull]; exact readPattern_full hkind hfmt hs hold))
    refine ⟨fun hquiet => ?quiet, fun i j hdec hwf hnew hj hq => ?taken⟩
    case quiet =>
      rw [hover fun i hd hwf => (hquiet i hd hwf).1, overrun_of_no_quads]
      intro i j hi hj
      obtain ⟨hd, hwf⟩ := decoded_of_lineRead hkind hfmt hs hi
      exact (hquiet i hd hwf).2 j hj
    case taken =>
      have hread : lineRead x a u false = .ok i := readPattern_ok hkind hfmt hs hdec hwf nofun
      rw [hover fun k hd _ => by obtain rfl := Except.ok.inj (hdec.symm.trans hd); exact hnew, hread]
      refine ⟨fun he hp => ?_, fun he w hlost => ⟨fun e hc => ?_, fun t hc => ?_⟩⟩
      · rw [Except.toOption, overrun_entry hj hq he hp]
      · rw [Except.toOption, (overrun_target hj hq he hlost hc).1 e rfl]
      · rw [Except.toOption, (overrun_target hj hq he hlost hc).2 t rfl]

end Sys2Proof.Machine
end

-- Proofs: the checks at issue
section
/-!
PROOFS. The checks that depend on the ring, the window and the run, in the order of R56, and what a form that fails one of them comes to (R51,
R52, R54, R57).
-/
namespace Sys2Proof.Machine

/-! Opening a run keeps what the checks look at -/

section OpenRun
variable (s : State) (x : Ctx)

theorem openRun_gang : (s.openRun x).2.v.gang = x.v.gang := by
  unfold State.openRun; split <;> rfl

theorem openRun_ring : (s.openRun x).2.v.part.ring = x.v.part.ring := by
  unfold State.openRun; split <;> rfl

theorem openRun_exec : (s.openRun x).2.v.part.exec = x.v.part.exec := by
  unfold State.openRun; split <;> rfl

theorem openRun_pc : (s.openRun x).2.v.part.pc = x.v.part.pc := by
  unfold State.openRun; split <;> rfl

end OpenRun

/-- What an instruction form that fails a check at issue comes to: the counterpart of `issue_ready`. -/
theorem issue_refused {f : Form} {imm : Word} {sem : Sem} {s : State} {x : Ctx} {code : Nat} {lanes : Word} {addr : DWord} {info : Word}
    (hr : s.frozen = false) (hx : s.ctx? imm = some x) (ha : x.v.part.still = false) (hn : x.noRun = false)
    (hc : (s.openRun x).2.check f = some (code, lanes, addr, info)) :
    issue f imm sem s = .next ((s.openRun x).1.faultPlain (s.openRun x).2 f (runposOf s x) code lanes addr info false) := by
  simp only [issue, hr, hx, issueAt, ha, hn, hc, runposOf]
  rfl

/-! The checks in the order of R56 -/

/-- A v register outside the window and not banked (R51). -/
theorem windowOk_eq_false {units : Nat} {r : Ring} {n : Fin 192} {k j : Nat} (hj : j < k) (hb : bankedV r (n.val + j) = false)
    (hw : (if r = .U then 4 * units else min (4 * units) 176) ≤ n.val + j) : windowOk units r (.v n, k) = false := by
  apply Bool.eq_false_of_not_eq_true
  intro hok
  have hreg := List.all_eq_true.mp hok j (List.mem_range.mpr hj)
  rw [hb, Bool.or_false, decide_eq_true_eq] at hreg
  exact absurd hreg (Nat.not_lt.mpr hw)

section Check
variable {f : Form} {x : Ctx}

theorem check_window {u : Opnd × Nat} (hu : u ∈ f.uses) (hw : windowOk x.v.gang.units x.v.part.ring u = false) :
    x.check f = some (1, x.v.part.exec, x.v.part.pc, 0) := by
  have hall : f.uses.all (windowOk x.v.gang.units x.v.part.ring) = false :=
    List.all_eq_false.mpr ⟨u, hu, by rw [hw]; exact nofun⟩
  rw [Ctx.check, hall]
  rfl

variable (hw : f.uses.all (windowOk x.v.gang.units x.v.part.ring) = true) (hd : f.dyn.ok x.v.part.ring x.v.gang.units = true)
include hw hd

theorem check_ring (hr : x.v.part.ring.num < f.ring) : x.check f = some (2, x.v.part.exec, 0, 0) := by
  rw [Ctx.check, hw, hd]
  exact if_pos hr

theorem check_temp (hr : f.ring ≤ x.v.part.ring.num) {n : Nat} {m : Word} (ht : x.v.part.tempFault (x.v.part.act f.pred) f.temps = some (n, m)) :
    x.check f = some (5, m, 0, BitVec.ofNat 32 n) := by
  simp only [Ctx.check, hw, hd, if_neg (Nat.not_lt.mpr hr), ht]
  rfl

end Check

/-! Unwritten temporaries (R52, log 103) -/

theorem tempFault_x (p : Part) (act : Word) (n : Fin 8) (l : List (Opnd × Nat)) : p.tempFault act ((.x n, 1) :: l) =
    if act &&& ~~~(vget p.xw n.val 0) = 0 then p.tempFault act l else some (n.val, act &&& ~~~(vget p.xw n.val 0)) := by
  rw [Part.tempFault, show List.range 1 = [0] from rfl]
  by_cases h : act &&& ~~~(vget p.xw n.val 0) = 0
  · simp only [List.filterMap_cons, List.filterMap_nil, Nat.add_zero, if_pos h]
  · simp only [List.filterMap_cons, List.filterMap_nil, Nat.add_zero, if_neg h]

theorem tempFault_of_ne_x (p : Part) (act : Word) {o : Opnd} (k : Nat) (l : List (Opnd × Nat)) (ho : ∀ m, o ≠ .x m) :
    p.tempFault act ((o, k) :: l) = p.tempFault act l := by
  cases o with
  | x n => exact absurd rfl (ho n)
  | _ => rfl

/-! What a fault of a run that logs holds (R57, R111, R354) -/

theorem faultPlain_of_logs (s : State) {x : Ctx} (f : Form) (pos code : Nat) (lanes : Word) (addr : DWord) (info : Word) (s2 : Bool)
    (h : (x.v.part.curRun?.map (·.noLog)).getD false = false) : s.faultPlain x f pos code lanes addr info s2 =
      s.raise x.r ⟨code, lanes, addr, info, s2, x.v.part.pc, pos, nextPc x.v.part.header x.v.part.pc f.len, .runStart⟩ := by
  rw [State.faultPlain, h]
  rfl

/-- A form whose registers alone decide row 10 is denied below its lowest ring (R54). -/
theorem denied_of_issue {i : Instr} {f : Form} {imm : Word} (sem : State → Sem) (hi : ∀ s, exec i s = issue f imm (sem s) s) (hd : f.dyn = .none) :
    Denied i f imm := by
  intro s x hr hx ha hn hw hring
  rw [hi]
  refine issue_refused hr hx ha hn ?_
  rw [check_ring, openRun_exec]
  · rwa [openRun_gang, openRun_ring]
  · rw [hd]; rfl
  · rwa [openRun_ring]

/-- Settles O9: the checks at issue are a chain of else cases over what opening a run leaves alone. -/
theorem issueChecks : Obligations.IssueChecks := by
  unfold Obligations.IssueChecks
  refine ⟨fun f imm sem s x hr hx ha hn => ?checks, fun p act n l => ⟨rfl, tempFault_x p act n l, fun o k => tempFault_of_ne_x p act k l⟩,
    fun s x f pos code lanes addr info s2 => faultPlain_of_logs s f pos code lanes addr info s2, ?denied⟩
  case checks =>
    intro y no
    have hgang : y.v.gang = x.v.gang := openRun_gang s x
    have hring : y.v.part.ring = x.v.part.ring := openRun_ring s x
    have hexec : y.v.part.exec = x.v.part.exec := openRun_exec s x
    have hpc : y.v.part.pc = x.v.part.pc := openRun_pc s x
    rw [← hgang, ← hring, ← hexec, ← hpc]
    refine ⟨fun n k j hu hj hb hlim => ?_, fun hw hd => ⟨fun hlow => ?_, fun hhigh n m ht => ?_⟩⟩
    · exact issue_refused hr hx ha hn (check_window hu (windowOk_eq_false hj hb hlim))
    · exact issue_refused hr hx ha hn (check_ring hw hd hlow)
    · exact issue_refused hr hx ha hn (check_temp hw hd hhigh ht)
  case denied =>
    and_intros
    all_goals intros; exact denied_of_issue _ (fun _ => rfl) rfl

end Sys2Proof.Machine
end

-- Proofs: sequential flow and direct targets
section
/-!
PROOFS. Counters as their line and parcel, the next counter, and the target that the two fields of a direct branch name (R34, R37, R39, R41).
-/
namespace Sys2Proof.Machine

/-- A 64-bit address without its offset in a line: what clears the low seven bits (R34). -/
theorem lineOf_eq_and (pc : DWord) : lineOf pc = pc &&& ~~~127#64 := by
  apply BitVec.eq_of_getLsbD_eq
  intro i hi
  have h127 : (127#64).getLsbD i = decide (i < 7) := by
    rw [BitVec.getLsbD_ofNat, show (127 : Nat) = 2 ^ 7 - 1 by rfl, Nat.testBit_two_pow_sub_one]
    simp [hi]
  rw [lineOf, BitVec.getLsbD_ofNat, BitVec.getLsbD_and, BitVec.getLsbD_not, h127, show (128 : Nat) = 2 ^ 7 by rfl, ← Nat.shiftRight_eq_div_pow,
    ← Nat.shiftLeft_eq, Nat.testBit_shiftLeft, Nat.testBit_shiftRight]
  by_cases h : i < 7
  · simp [h, hi, Nat.not_le.mpr h]
  · simp [h, hi, Nat.le_of_not_lt h, BitVec.getLsbD]

theorem toNat_lineOf (pc : DWord) : (lineOf pc).toNat = pc.toNat / 128 * 128 := by
  have := pc.isLt
  rw [lineOf, BitVec.toNat_ofNat, Nat.mod_eq_of_lt (by omega)]

theorem pcOk_iff {pc : DWord} : pcOk pc = true ↔ 8 ≤ pc.toNat % 128 ∧ pc.toNat % 4 = 0 := by
  simp [pcOk]

/-- A valid counter is 8 + 4k behind its line, where k is its parcel (R34). -/
theorem toNat_of_pcOk {pc : DWord} (h : pcOk pc = true) : pc.toNat = (lineOf pc).toNat + 8 + 4 * parcelOf pc ∧ parcelOf pc ≤ 29 := by
  obtain ⟨h8, h4⟩ := pcOk_iff.mp h
  rw [toNat_lineOf, parcelOf]
  omega

theorem eq_of_pcOk {pc : DWord} (h : pcOk pc = true) : pc = lineOf pc + 8 + 4 * BitVec.ofNat 64 (parcelOf pc) := by
  have hself : ∀ x : DWord, BitVec.ofNat 64 x.toNat = x := fun x => by rw [BitVec.ofNat_toNat, BitVec.setWidth_eq]
  calc pc = BitVec.ofNat 64 ((lineOf pc).toNat + 8 + 4 * parcelOf pc) := by rw [← (toNat_of_pcOk h).1, hself]
    _ = lineOf pc + 8 + 4 * BitVec.ofNat 64 (parcelOf pc) := by rw [BitVec.ofNat_add, BitVec.ofNat_add, BitVec.ofNat_mul, hself]; rfl

/-- The next parcels of the line (R37). -/
theorem nextPc_inLine {hd pc : DWord} {n : Nat} (h : pcOk pc = true) (hn : parcelOf pc + n ≤ 29) (hs : hd.getLsbD (parcelOf pc + n) = true) :
    nextPc hd pc n = lineOf pc + 8 + 4 * BitVec.ofNat 64 (parcelOf pc + n) := by
  have hstart : hdrStart hd (parcelOf pc + n) = true := hs
  rw [nextPc, if_pos ⟨hn, hstart⟩]
  conv_lhs => rw [eq_of_pcOk h]
  rw [BitVec.ofNat_add, BitVec.ofNat_mul, BitVec.mul_add, BitVec.add_assoc]
  rfl

/-- The line behind it (R37). -/
theorem nextPc_nextLine {hd pc : DWord} {n : Nat} (h : ¬ (parcelOf pc + n ≤ 29 ∧ hd.getLsbD (parcelOf pc + n) = true)) :
    nextPc hd pc n = lineOf pc + 128 + 8 := by
  have hline : ¬ (parcelOf pc + n ≤ 29 ∧ hdrStart hd (parcelOf pc + n) = true) := h
  rw [nextPc, if_neg hline, BitVec.add_assoc]
  rfl

/-- The signed line delta of a direct branch (R39). -/
theorem signExtend_sshiftRight_five (imm : Word) : (imm.sshiftRight 5).signExtend 64 = (imm.extractLsb' 5 27).signExtend 64 := by
  apply BitVec.eq_of_getLsbD_eq
  intro i hi
  simp only [BitVec.getLsbD_signExtend, BitVec.getLsbD_sshiftRight, BitVec.getLsbD_extractLsb', BitVec.msb_eq_getLsbD_last]
  by_cases h27 : i < 27
  · simp [h27, hi, show ¬ 32 ≤ i by omega, show i < 32 by omega, show 5 + i < 32 by omega]
  · by_cases h32 : i < 32
    · simp [h27, h32, hi, show ¬ 32 ≤ i by omega, show ¬ 5 + i < 32 by omega]
    · simp [h27, h32]

theorem parcel_field (imm : Word) : BitVec.ofNat 64 (8 + 4 * (imm.toNat % 32)) = 8 + 4 * (imm.extractLsb' 0 5).setWidth 64 := by
  apply BitVec.eq_of_toNat_eq
  simp [BitVec.extractLsb'_toNat]

theorem directTarget_eq (pc : DWord) (imm : Word) : directTarget pc imm =
    (pc &&& ~~~127#64) + 128 * (imm.extractLsb' 5 27).signExtend 64 + 8 + 4 * (imm.extractLsb' 0 5).setWidth 64 := by
  rw [directTarget, lineOf_eq_and, signExtend_sshiftRight_five, parcel_field, BitVec.add_assoc _ 8]

theorem not_parcelOk {imm : Word} (h : 30 ≤ imm.toNat % 32) : ¬ parcelOk imm = true :=
  fun hp => Nat.not_lt.mpr h (of_decide_eq_true hp)

/-- Settles O10: a valid counter is its line plus 8 plus four times its parcel, in 64-bit arithmetic as in numbers, and a direct
branch's fields are the low five bits and the signed rest of its IMM32. -/
theorem branchTargets : Obligations.BranchTargets := by
  unfold Obligations.BranchTargets
  refine ⟨fun hd pc n h => ⟨?_, (toNat_of_pcOk h).2, fun hn hs => ?_, fun hno => ?_⟩, directTarget_eq, fun p imm h => ?_, fun p a x y imm h => ?_,
    fun p d imm h => ?_, fun d imm h => ?_⟩
  · rw [← lineOf_eq_and]; exact (toNat_of_pcOk h).1
  · rw [← lineOf_eq_and]; exact nextPc_inLine h hn hs
  · rw [← lineOf_eq_and]; exact nextPc_nextLine hno
  · exact fun hw => not_parcelOk h (Bool.and_elim_right hw)
  · exact fun hw => not_parcelOk h (Bool.and_elim_right (Bool.and_elim_right hw))
  · exact fun hw => h (eq_of_beq (Bool.and_elim_right (Bool.and_elim_right hw)))
  · exact fun hw => not_parcelOk h (Bool.and_elim_right hw)

end Sys2Proof.Machine
end

-- Proofs: what a store writes and leaves alone
section
/-!
PROOFS. The frames of the store forms, from the lemmas on stores of lanes and of rows (R282, R290, R295).
-/
namespace Sys2Proof.Machine

/-- Settles O29: every store form issues one of the two meanings of a store, of lanes or of rows, and the frames of both are the
lemmas on stores. -/
theorem frameStores : Obligations.FrameStores := by
  unfold Obligations.FrameStores
  refine ⟨?stL, ?stX, ?stsL, ?stsX, ?staL, ?staX, ?stdL, ?stdX⟩
  case stL => exact fun _ _ _ _ => storeFrames_st fun _ => rfl
  case stX => exact fun _ _ _ _ _ => storeFrames_st fun _ => rfl
  case stsL => exact fun _ _ _ _ => storeFrames_st fun _ => rfl
  case stsX => exact fun _ _ _ _ _ => storeFrames_st fun _ => rfl
  case staL => exact fun _ _ _ _ => storeFrames_st fun _ => rfl
  case staX => exact fun _ _ _ _ _ => storeFrames_st fun _ => rfl
  case stdL => exact fun _ _ _ _ _ hb => storeFrames_rows hb fun _ => rfl
  case stdX => exact fun _ _ _ _ _ _ hb => storeFrames_rows hb fun _ => rfl

end Sys2Proof.Machine
end

-- Proofs: a drain with an error's record
section
/-!
PROOFS. A drain of an entry that an error in a flit's payload has struck writes the error's record too (R283, R371, R373).
-/
namespace Sys2Proof.Machine

/-! A committed entry of one byte, whose payload an error has struck (R371), on a package whose H error queue stands at 0x100000: the drain
writes the error's record there (R373), outside the entry's line. -/

/-- The entry: the first byte of line 0x8000. -/
def struckEntry : StoreEntry :=
  { id := 5, own := 63, cohort := 1, gang := 0, part := 2, run := 7, core := 0, sub := 0, line := 0x8000, mask := 1, data := List.replicate 64 9
    side := none, owned := true, committed := true, red := none, leaves := [] }

/-- The package, with the error's record still to be written: core 0, the containment identifier of package-level traffic. -/
def struckPackage : State :=
  { State.reset with
    boot := .running
    stores := [struckEntry]
    spoiled := [(5, some (0, 63 * 128 + 127))]
    pkg := { pkgZero with setH := { regsZero with eqbase := 0x100000, eqcap := 4 } } }

/-- The first byte of the queue's first record, which is the record's kind, before and after the drain. -/
theorem struckPackage_before : struckPackage.byteAs 63 0x100000 = 0 := by decide +kernel

theorem struckPackage_after : (struckPackage.drainNext 5).byteAs 63 0x100000 = 1 := by decide +kernel

/-- Refutes O30: where an error in a flit's payload has struck the entry, its drain also writes the error's record, so that bytes of the
error queue change, which lie in no line of the entry's. -/
theorem not_drainWrites : ¬ Obligations.DrainWrites := by
  unfold Obligations.DrainWrites
  intro h
  obtain ⟨t, ht, -, -, hbytes, -⟩ := h struckPackage 5 struckEntry rfl ⟨rfl, rfl⟩ rfl (by decide) rfl rfl (by decide) (by decide)
  have hnext : struckPackage.drainNext 5 = t := Host.Outcome.next.inj ht
  have hsame : t.byteAs 63 0x100000 = struckPackage.byteAs 63 0x100000 := (hbytes 0x100000 (by decide +kernel)).trans (if_neg (by decide))
  rw [← hnext, struckPackage_after, struckPackage_before] at hsame
  exact absurd hsame (by decide)

end Sys2Proof.Machine
end

-- Proofs: steps of the sequencer and of the home slices
section
/-!
PROOFS. What each step of the sequencer, the store buffer, the walker and of requests does in the state that it is for (R101, R126, R141, R155, R273,
R283, R308, R355, R511, R604).
-/
namespace Sys2Proof.Machine

/-! Commit and runs (R101, R110) -/

theorem tryCommit_of_canCommit {s : State} {r : PartRef} {p : Part} {x : Run} {l : List Run} (hp : s.part? r = some p) (hr : p.runs = x :: l)
    (hc : s.canCommit p x = true) : s.tryCommit r = (s.commitRun r).afterCommit p.id := by
  simp only [State.tryCommit, hp, hr, hc, if_true]

theorem goUnlogged_of_room {s : State} {r : PartRef} {p : Part} {x : Run} (hp : s.part? r = some p) (hr : p.runs = [x]) (hw : p.wait = .room)
    (hl : x.noLog = false) (ho : ∀ e ∈ s.stores, e.run = x.id → e.owned = true) : s.goUnlogged r = s.unlog r p x := by
  have hall : (s.stores.all fun e => e.run != x.id || e.owned) = true := by
    simp only [List.all_eq_true, Bool.or_eq_true, bne_iff_ne, ne_eq]
    exact fun e he => (Decidable.em (e.run = x.id)).elim (fun h => .inr (ho e he h)) .inl
  simp only [State.goUnlogged, hp, hr, hw, hl, hall, beq_self_eq_true, Bool.not_false, Bool.and_self, if_true]

theorem split_of_wait {s : State} {r : PartRef} {p : Part} {v : QMask} {t h : DWord} (hp : s.part? r = some p) (hw : p.wait = .split v t h)
    (hr : p.runs = []) : s.split r = s.splitPart r p v t h := by
  simp only [State.split, hp, hw, hr]

theorem merge_of_gang {s : State} {co i : Nat} {g : Gang} (hg : s.gang? co i = some g) :
    s.merge co i = s.modGang co i fun k => (g.parts.map fun p => p.id).foldl Gang.mergeOne k := by
  simp only [State.merge, hg]

/-! Claims (R141, R142) -/

theorem claimGrants_first {s u : State} {core sub : Nat} {c : Claim} {l : List Claim} {us : List Nat}
    (hl : (s.claims.filter fun k => k.core == core && k.sub == sub && !k.granted) = c :: l)
    (hn : c.n ≤ s.unitsAvailable ((s.cohort? c.cohort).elim 0 (·.part)) core sub)
    (ht : s.takeUnits ((s.cohort? c.cohort).elim 0 (·.part)) core sub c.n = some (us, u)) :
    s.claimGrants core sub = State.grantClaims core sub l
      { u with claims := u.claims.map fun (d : Claim) => if d.part = c.part then { d with granted := true, pool := us } else d } := by
  rw [State.claimGrants, hl]
  simp only [State.grantClaims, if_neg (Nat.not_lt.mpr hn), ht]

theorem claimDead_of_short {s : State} {c : Cohort} {k : Claim} {l : List Claim} (hc : s.cohort? c.id = some c)
    (hl : (s.claims.filter fun d => d.cohort == c.id && !d.granted) = k :: l) (hb : ∀ g ∈ c.gangs, g.live ≠ 0 → s.blockedGang g = true)
    (hh : c.halted = false)
    (hs : ∀ d ∈ k :: l, min 256 (s.unitShare c.part) - s.unitsTaken c.core d.sub (fun x => x.id == c.id) < d.n) :
    s.claimDead c.id = (k :: l).foldl State.failClaim s := by
  have hlive : (c.gangs.filter fun g => g.live != 0).all s.blockedGang = true := by
    simp only [List.all_eq_true, List.mem_filter, bne_iff_ne]
    exact fun g hg => hb g hg.1 hg.2
  have hshort : ((k :: l).all fun d => decide (min 256 (s.unitShare c.part) - s.unitsTaken c.core d.sub (fun x => x.id == c.id) < d.n)) = true :=
    List.all_eq_true.mpr fun d hd => decide_eq_true (hs d hd)
  simp only [State.claimDead, hc, hl]
  exact if_pos ⟨nofun, hlive, hshort, hh⟩

/-! A trap (R355) -/

/-- Where a pending trap resumes, and the state in which it is taken. -/
theorem tryTrap_taken {s v : State} {r : PartRef} {p : Part} {t : Trap} (hp : s.part? r = some p) (ht : p.trap = some t) (hr : p.runs.length ≤ 1)
    (hd : ∀ e ∈ s.entriesOf p.id, e.committed = false)
    (hv : (match t.resume with
      | .runStart => ((s.rollback r false).modPart r fun q => { q with trap := none }).takeTrap r t
          ((((s.rollback r false).modPart r fun q => { q with trap := none }).part? r).elim 0 (·.pc))
      | .here => s.takeTrap r t t.fpc
      | .next => s.takeTrap r t t.after) = some v) : s.tryTrap r = v := by
  have hno : (decide (1 < p.runs.length) || (s.entriesOf p.id).any (·.committed)) = false := by
    rw [Bool.or_eq_false_iff, List.any_eq_false]
    exact ⟨decide_eq_false (Nat.not_lt.mpr hr), fun e he => by simp [hd e he]⟩
  simp only [State.tryTrap, hp, ht, hno, Bool.false_eq_true, if_false]
  cases h : t.resume <;> rw [h] at hv <;> simp only [hv, Option.getD_some]

/-! The store buffer and the walker (R273, R283) -/

theorem askOwner_of_free {s : State} {id : Nat} {e : StoreEntry} (he : s.stores.find? (fun x => x.id == id) = some e) (ho : e.owned = false)
    (hb : s.blocked e.line e.asks (some e.part) = false) :
    s.askOwner id = (s.strike e.line e.asks (some e.part)).due [.ownershipGrant id] := by
  simp only [State.askOwner, he, ho, hb, Bool.or_self, Bool.false_eq_true, if_false]

theorem grantOwner_of_free {s : State} {id : Nat} {e : StoreEntry} (he : s.stores.find? (fun x => x.id == id) = some e) (ho : e.owned = false)
    (hb : s.blocked e.line e.asks (some e.part) = false) :
    s.grantOwner id =
      let u := s.strike e.line e.asks (some e.part)
      let v := { u with stores := u.stores.map fun (x : StoreEntry) => if x.id = id then { x with owned := true } else x }
      match v.partNo? e.part with
      | some (r, _) => v.due [.runCommit r]
      | none => v := by
  simp only [State.grantOwner, he, ho, hb, Bool.false_eq_true, if_false] <;> rfl

/-- A drain takes the older committed entries of its part with it (log 61). -/
theorem drainNext_of_committed {s : State} {id : Nat} {e : StoreEntry} (he : s.stores.find? (fun x => x.id == id && x.committed) = some e) :
    s.drainNext id =
      let u := ((((s.entriesOf e.part).takeWhile fun x => x.id != id).filter fun x => x.committed) ++ [e]).foldl State.drainEntry s
      match u.partNo? e.part with
      | some (r, p) => if p.trap.isSome then u.due [.trapEntry r] else u
      | none => u := by
  simp only [State.drainNext, he] <;> rfl

theorem walkOne_of_next {s : State} {sec : Nat} {w : WalkReq} (hw : s.walks.find? (fun x => x.sec == sec && s.onSec sec == some x.part) = some w) :
    s.walkOne sec =
      let u := (({ s with walks := s.walks.erase w } : State).translate w.core w.part w.gslot w.ring (if w.store then .store else .load) false w.va).2
      if u.walks.any fun x => x.sec == sec && u.onSec sec == some x.part then u.due [.pageWalk sec] else u := by
  have hn : s.nextWalk sec = some w := hw
  simp only [State.walkOne, State.walkNext, hn]
  simp only [State.nextWalk, List.find?_isSome, List.any_eq_true]

/-! Requests (R94, R308, R322, R511, R512, R604) -/

theorem atomicOne_answered {s : State} {id : Nat} {q : Request} (hq : s.req? id = some q) (hs : q.sent = false) (hp : q.peer = none)
    (hi : q.io = false) (hf : ∃ k, (s.partReqs q.part).find? (fun x => x.ans.isNone) = some k ∧ k.id = id)
    (ha : (((s.issueReq q).req? id).bind (·.ans)).isSome = true) : s.atomicOne id = (s.issueReq q).due [.atomicReply id] := by
  obtain ⟨k, hk, hid⟩ := hf
  simp [State.atomicOne, hq, hs, hp, hi, hk, hid, ha]

theorem inputPort_lt (core slice : Nat) : inputPort core slice < 5 := by
  unfold inputPort
  dsimp only
  split_ifs <;> decide

/-- A single request arrives at one of the five ports, so that its order is itself. -/
theorem combined_single (s : State) (id : Nat) : s.combined [id] = [id] := by
  unfold State.combined
  split
  · have hport := inputPort_lt (s.atomFrom id).1 (s.homeSlice (s.atomFrom id).2)
    simp only [List.filter_cons, List.filter_nil]
    generalize inputPort (s.atomFrom id).1 (s.homeSlice (s.atomFrom id).2) = n at hport
    interval_cases n <;> rfl
  · rfl

theorem homeAtomics_answered {s : State} {id : Nat} {q : Request} (hq : s.req? id = some q) (hs : q.sent = false) (hp : q.peer = none)
    (hi : q.io = false) (hf : ∃ k, (s.partReqs q.part).find? (fun x => x.ans.isNone) = some k ∧ k.id = id)
    (ha : (((s.issueReq q).req? id).bind (·.ans)).isSome = true) : s.homeAtomics [id] = (s.issueReq q).due [.atomicReply id] := by
  rw [State.homeAtomics, combined_single]
  exact atomicOne_answered hq hs hp hi hf ha

theorem atomicBack_of_req {s : State} {id : Nat} {q : Request} {r : PartRef} {p : Part} (hq : s.req? id = some q)
    (hp : s.partNo? q.part = some (r, p)) : s.atomicBack id = s.answered r := by
  simp only [State.atomicBack, hq, Option.bind_some, hp]

/-- A peer's request with nothing of its source before it is performed under its grant (R94, R513, log 136). -/
theorem ingress_granted {s : State} {q : PeerReq} {g : Grant} {a : Nat}
    (hw : ∀ r ∈ s.fabric.ingress, ¬ (r.q.pkg = q.pkg ∧ r.q.part = q.part ∧ r.q.src = q.src)) (hd : s.fabricTime ≤ q.deadline)
    (hg : s.grantFor q (kindWidth q.kind) = some g) (ha : s.physStore q.addr = some (a, false)) (hm : s.underMove a = false) :
    s.ingress q =
      let r := State.homeMore g.own a q.more (((linesOf a (kindWidth q.kind)).foldl State.clearLine s).homeAccess none g.own a [] q.kind)
      r.1.replyTo q r.2 g.own := by
  have hno : (s.fabric.ingress.any fun r => r.q.pkg == q.pkg && r.q.part == q.part && r.q.src == q.src) = false :=
    List.any_eq_false.mpr fun r hr => by simpa [and_assoc] using hw r hr
  simp only [State.ingress, State.offerIngress, hno, State.serveIngress, if_neg (Nat.not_lt.mpr hd), hg, ha, hm, Option.map_some,
    Option.orElse, Bool.false_eq_true, if_false]

section Requests
variable {s : State} {id : Nat} {q : Request} (hq : s.req? id = some q) (hs : q.sent = true) (hn : q.ans = none)
include hq hs hn

theorem remoteAnswer_inTime (hp : q.peer.isSome = true) (hd : s.fabricTime ≤ q.deadline + 200) (rep : RemoteRep) :
    s.remoteAnswer id rep = (s.answerGroup q rep).resumeReq q := by
  simp [State.remoteAnswer, hq, hs, hn, hp, Nat.not_lt.mpr hd]

theorem remoteLate_of_deadline (hp : q.peer.isSome = true) (hd : q.deadline + 200 < s.fabricTime) : s.remoteLate id = s.giveUp q := by
  simp [State.remoteLate, hq, hs, hn, hp, hd]

theorem ioAnswer_inTime (hi : q.io = true) (hd : s.cycle < q.deadline) (r : IoResult) : s.ioAnswer id r = match r with
    | .data bs => (s.modReq id fun x => { x with ans := some (.data bs []) }).resumeReq q
    | .poison => (s.modReq id fun x => { x with ans := some .poison }).resumeReq q
    | .error => s.giveUp q := by
  simp only [State.ioAnswer, hq, hs, hn, hi, Option.isNone_none, Bool.and_self, if_true, if_neg (Nat.not_le.mpr hd)] <;> rfl

theorem ioAnswer_late (hi : q.io = true) (hd : q.deadline ≤ s.cycle) (r : IoResult) : s.ioAnswer id r = s.giveUp q := by
  simp [State.ioAnswer, hq, hs, hn, hi, hd]

theorem ioLate_of_deadline (hi : q.io = true) (hd : q.deadline ≤ s.cycle) : s.ioLate id = s.giveUp q := by
  simp [State.ioLate, hq, hs, hn, hi, hd]

end Requests

/-- Settles O55: each step is an event, whose effect its own lemma above gives. -/
theorem completesSeqSteps : Obligations.CompletesSeqSteps := by
  unfold Obligations.CompletesSeqSteps
  refine ⟨?commit, ?unlogged, ?split, ?merge, ?grant, ?deadlock, ?trap, ?ask, ?own, ?drain, ?walk, ?load, ?single, ?atomics, ?atomic, ?ingress,
    ?reply, ?late, ?io, ?ioLate⟩
  case commit => exact fun s r p x l hp hr hc => acts_of (fun _ => rfl) (tryCommit_of_canCommit hp hr hc)
  case unlogged => exact fun s r p x hp hr hw hl ho => acts_of (fun _ => rfl) (goUnlogged_of_room hp hr hw hl ho)
  case split => exact fun s r p v t h hp hw hr => acts_of (fun _ => rfl) (split_of_wait hp hw hr)
  case merge => exact fun s co i g hg => acts_of (fun _ => rfl) (merge_of_gang hg)
  case grant => exact fun s core sub c l us u hl hn ht => acts_of (fun _ => rfl) (claimGrants_first hl hn ht)
  case deadlock => exact fun s c k l hc hl hb hh hs => acts_of (fun _ => rfl) (claimDead_of_short hc hl hb hh hs)
  case trap => exact fun s r p t hp ht hr hd v hv => acts_of (fun _ => rfl) (tryTrap_taken hp ht hr hd hv)
  case ask => exact fun s id e he ho hb => acts_of (fun _ => rfl) (askOwner_of_free he ho hb)
  case own => exact fun s id e he ho hb => acts_of (fun _ => rfl) (grantOwner_of_free he ho hb)
  case drain => exact fun s id e he => acts_of (fun _ => rfl) (drainNext_of_committed he)
  case walk => exact fun s sec w hw => acts_of (fun _ => rfl) (walkOne_of_next hw)
  case load => exact fun s r x pd u c hx hpd hg ho => acts_of (fun _ => rfl) (answered_ends hx hpd hg ho)
  case single => exact fun s id q hq hs hp hi hf ha => acts_of (fun _ => rfl) (homeAtomics_answered hq hs hp hi hf ha)
  case atomics => exact fun s qs => acts_of (h := fun s => s.homeAtomics qs) (fun _ => rfl) rfl
  case atomic =>
    exact fun s id q r p x pd u c hq hp hx hpd hg ho => acts_of (fun _ => rfl) ((atomicBack_of_req hq hp).trans (answered_ends hx hpd hg ho))
  case ingress => exact fun s q g a hw hd hg ha hm => acts_of (fun _ => rfl) (ingress_granted hw hd hg ha hm)
  case reply => exact fun s id q rep hq hs hn hp hd => acts_of (fun _ => rfl) (remoteAnswer_inTime hq hs hn hp hd rep)
  case late => exact fun s id q hq hs hn hp hd => acts_of (fun _ => rfl) (remoteLate_of_deadline hq hs hn hp hd)
  case io =>
    exact fun s id q r hq hs hn hi => ⟨fun hd => acts_of (fun _ => rfl) (ioAnswer_inTime hq hs hn hi hd r),
      fun hd => acts_of (fun _ => rfl) (ioAnswer_late hq hs hn hi hd r)⟩
  case ioLate => exact fun s id q hq hs hn hi hd => acts_of (fun _ => rfl) (ioLate_of_deadline hq hs hn hi hd)

end Sys2Proof.Machine
end

-- Proofs: canonical forms at the home of a line
section
/-!
PROOFS. Canonical forms at the home of a line (R75, R206).
-/
namespace Sys2Proof.Machine

-- One declaration after another, which keeps the compile within its memory.
set_option Elab.async false

variable {s t : State}

/-! What keeps the canonical form without a lemma of its own -/

/-- A change of anything but memory and sidebands. -/
theorem State.canonical.upd {agenda cur turn owed freeCtr nextId out cycle boot frozen poison bufPoison owners lastLane spoiled hostHeld
    hostWaits engWaits stores cmds monitors waitcs tlb walkCache walks cohorts claims parts pkg copy matrix stage fabric tier reqs}
    (h : s.canonical) : State.canonical (.mk agenda cur turn owed freeCtr nextId out cycle boot frozen s.mem s.sides poison bufPoison owners
      lastLane spoiled hostHeld hostWaits engWaits stores cmds monitors waitcs tlb walkCache walks cohorts claims parts pkg copy matrix stage
      fabric tier reqs) := h

/-- A state with the memory and the sidebands of a canonical state. -/
theorem State.canonical.keep (h : s.canonical) (hm : t.mem = s.mem := by rfl) (hd : t.sides = s.sides := by rfl) : t.canonical := by
  unfold State.canonical
  rw [hm, hd]
  exact h

theorem canonical_ite {c : Prop} [Decidable c] (hs : s.canonical) (ht : t.canonical) : (if c then s else t).canonical := by
  split
  · exact hs
  · exact ht

theorem canonical_elim {α : Type} {o : Option α} {f : α → State} (h : s.canonical) (hf : ∀ a, (f a).canonical) :
    (o.elim s f).canonical := by
  cases o with
  | none => exact h
  | some a => exact hf a

/-- The state that an operation answers, where it answers one, is canonical. -/
def CanonicalSome (o : Option State) : Prop := ∀ t, o = some t → t.canonical

theorem CanonicalSome.none : CanonicalSome .none := fun t e => (Option.some_ne_none t e.symm).elim

theorem CanonicalSome.some (h : s.canonical) : CanonicalSome (.some s) := fun _ e => Option.some.inj e ▸ h

theorem CanonicalSome.ite {c : Prop} [Decidable c] {o p : Option State} (ho : CanonicalSome o) (hp : CanonicalSome p) :
    CanonicalSome (if c then o else p) := by
  split
  · exact ho
  · exact hp

theorem CanonicalSome.map {α : Type} {o : Option α} {f : α → State} (hf : ∀ a, (f a).canonical) : CanonicalSome (o.map f) := by
  intro t e
  obtain ⟨a, -, rfl⟩ := Option.map_eq_some_iff.mp e
  exact hf a

theorem canonical_getD {o : Option State} (h : s.canonical) (ho : CanonicalSome o) : (o.getD s).canonical := by
  cases o with
  | none => exact h
  | some t => exact ho t rfl

/-- Whatever it is given, a change of a canonical state is canonical. -/
def KeepsCanonical {α : Type} (f : State → α → State) : Prop := ∀ s a, s.canonical → (f s a).canonical

theorem State.canonical.foldl {α : Type} {l : List α} {f : State → α → State} (h : s.canonical) (hf : KeepsCanonical f) :
    (l.foldl f s).canonical :=
  List.foldlRecOn l f h fun t ht a _ => hf t a ht

/-! A state that is carried along beside something else -/

theorem canonical_ite_2 {β : Type} {c : Prop} [Decidable c] {p q : β × State} (hp : p.2.canonical) (hq : q.2.canonical) :
    (if c then p else q).2.canonical := by
  split
  · exact hp
  · exact hq

theorem canonical_ite_1 {β : Type} {c : Prop} [Decidable c] {p q : State × β} (hp : p.1.canonical) (hq : q.1.canonical) :
    (if c then p else q).1.canonical := by
  split
  · exact hp
  · exact hq

theorem State.canonical.foldl_2 {α β : Type} {l : List α} {f : β × State → α → β × State} {b : β} (h : s.canonical)
    (hf : ∀ q a, q.2.canonical → (f q a).2.canonical) : (l.foldl f (b, s)).2.canonical :=
  List.foldlRecOn (motive := fun q => q.2.canonical) l f h fun q hq a _ => hf q a hq

theorem State.canonical.foldl_1 {α β : Type} {l : List α} {f : State × β → α → State × β} {b : β} (h : s.canonical)
    (hf : ∀ q a, q.1.canonical → (f q a).1.canonical) : (l.foldl f (s, b)).1.canonical :=
  List.foldlRecOn (motive := fun q => q.1.canonical) l f h fun q hq a _ => hf q a hq

theorem canonical_of_eq {β : Type} {p : β × State} {b : β} (e : p = (b, t)) (h : p.2.canonical) : t.canonical := by
  rw [e] at h; exact h

theorem canonical_of_eq_1 {β : Type} {p : State × β} {b : β} (e : p = (t, b)) (h : p.1.canonical) : t.canonical := by
  rw [e] at h; exact h

/-! How an instruction or an operation ends -/

/-- The state in which an instruction ends is canonical. -/
def Done.canonical : Done → Prop
  | .fall s _ => s.canonical
  | .goto s _ _ => s.canonical
  | .placed s => s.canonical
  | .stall s _ => s.canonical
  | .trap s _ _ _ _ _ => s.canonical
  | .raise s _ _ _ _ _ _ => s.canonical
  | .illegal s => s.canonical

/-- The state in which an operation's access ends is canonical. -/
def Turn.canonical : Turn → Prop
  | .idle s => s.canonical
  | .did s => s.canonical
  | .stop s _ _ => s.canonical

/-- The state in which a fetch ends is canonical. -/
def Fetched.canonical : Fetched → Prop
  | .failed s => s.canonical
  | .instr _ s => s.canonical

/-- The next state of a step, if there is one, is canonical. -/
def Out.canonical : Out → Prop
  | .next s => s.canonical
  | _ => True

theorem Done.canonical_ite {c : Prop} [Decidable c] {d e : Done} (hd : d.canonical) (he : e.canonical) : (if c then d else e).canonical := by
  split
  · exact hd
  · exact he

theorem Turn.canonical_ite {c : Prop} [Decidable c] {d e : Turn} (hd : d.canonical) (he : e.canonical) : (if c then d else e).canonical := by
  split
  · exact hd
  · exact he

theorem Done.canonical.of_stall {d : Done} {w : Wait} (h : d.canonical) (e : d = .stall s w) : s.canonical := by
  rw [e] at h; exact h

theorem Fetched.canonical.of_failed {f : Fetched} (h : f.canonical) (e : f = .failed s) : s.canonical := by
  rw [e] at h; exact h

theorem Fetched.canonical.of_instr {f : Fetched} {i : Instr} (h : f.canonical) (e : f = .instr i s) : s.canonical := by
  rw [e] at h; exact h

/-! Runs and conflicts -/

theorem State.canonical.rollback {r : PartRef} {counted : Bool} (h : s.canonical) : (s.rollback r counted).canonical := by
  unfold State.rollback
  split
  · exact h
  split
  · exact h
  · exact h.upd.upd.upd.upd.upd

theorem State.canonical.strike {line : Nat} {a : Access} {me : Option Nat} (h : s.canonical) : (s.strike line a me).canonical :=
  h.foldl fun _ _ ht => canonical_ite ht.rollback ht

/-! The home slice -/

theorem State.canonical.setSide {line : Nat} {x : Side} (h : s.canonical) : (s.setSide line x).canonical := by
  obtain ⟨hm, hsd⟩ := h
  unfold State.setSide
  extract_lets a
  split
  · split
    · exact ⟨hm, hsd⟩
    · exact ⟨Memory.wf_writeBytes _ _ _ hm, hsd⟩
  exact canonical_ite ⟨hm, Sides.wf_write _ _ _ hsd⟩ ⟨hm, hsd⟩

theorem State.canonical.fire {m : Monitor} {x : LaneWait} (h : s.canonical) : (s.fire m x).canonical := by
  unfold State.fire
  extract_lets t
  split <;> exact h.keep

theorem State.canonical.evalMonitors {line : Nat} (h : s.canonical) : (s.evalMonitors line).canonical :=
  h.foldl fun _ _ ht => canonical_ite ht.fire ht

theorem State.canonical.retryMonitors {p : Nat → Bool} (h : s.canonical) : (s.retryMonitors p).canonical := h.foldl fun _ _ ht => ht.fire

theorem State.canonical.homeBytes {own line : Nat} {f : Memory → Memory} (hf : ∀ m, m.wf = true → (f m).wf = true) (h : s.canonical) :
    (s.homeBytes own line f).canonical := by
  obtain ⟨hm, hsd⟩ := h
  refine ⟨hf _ ?_, hsd⟩
  split
  · exact hm
  · exact Memory.wf_writeBytes _ _ _ hm

theorem State.canonical.homeSide {line : Nat} {side : Option Side} (h : s.canonical) : (s.homeSide line side).canonical := by
  cases side with
  | none => exact h
  | some x => exact h.setSide

theorem State.canonical.homeClean {line : Nat} {whole : Bool} (h : s.canonical) : (s.homeClean line whole).canonical :=
  canonical_ite h.keep h

theorem State.canonical.homeKey {own line : Nat} (h : s.canonical) : (s.homeKey own line).canonical := canonical_ite h.keep h

theorem State.canonical.homeHost {line : Nat} (h : s.canonical) : (s.homeHost line).canonical := canonical_ite h.keep h

theorem State.canonical.homeCore {acc : Access} {me : Option Nat} {own line : Nat} {f : Memory → Memory} {whole : Bool}
    {side : Option Side} (hf : ∀ m, m.wf = true → (f m).wf = true) (h : s.canonical) :
    (s.homeCore acc me own line f whole side).canonical := by
  rw [homeCore_stages]
  exact (h.strike.homeBytes hf).homeSide.homeClean.homeKey.homeHost.upd.evalMonitors

theorem State.canonical.homeWriteAs {acc : Access} {me : Option Nat} {own a : Nat} {bs : List Byte} {side : Option Side} (h : s.canonical) :
    (s.homeWriteAs acc me own a bs side).canonical := canonical_ite h (h.homeCore fun _ hm => Memory.wf_writeBytes _ _ _ hm)

theorem State.canonical.homeWrite {me : Option Nat} {own a : Nat} {bs : List Byte} {side : Option Side} (h : s.canonical) :
    (s.homeWrite me own a bs side).canonical := h.homeWriteAs

theorem State.canonical.homeMask {me : Option Nat} {own line : Nat} {mask : BitVec 64} {data : List Byte} {side : Option Side}
    (h : s.canonical) : (s.homeMask me own line mask data side).canonical :=
  h.homeCore fun m hm => (writeMask_go _ _ _ _ m hm List.nodup_range).1

theorem State.canonical.homeWrites {me : Option Nat} {own a : Nat} {bs : List Byte} {side : Option Side} (h : s.canonical) :
    (s.homeWrites me own a bs side).canonical := h.foldl fun _ _ ht => ht.homeWrite

theorem State.canonical.homeRead {me : Option Nat} {line : Nat} (h : s.canonical) : (s.homeRead me line).canonical := h.strike

/-! Error queues -/

theorem State.canonical.setEqSet {q : EQ} {f : RegSet → RegSet} (h : s.canonical) : (s.setEqSet q f).canonical := by
  unfold State.setEqSet
  split <;> exact h.keep

theorem State.canonical.engWith {clear : State → Nat → State} {own a : Nat} {bs : List Byte} {side : Option Side} (h : s.canonical)
    (hclear : KeepsCanonical clear) : (s.engWith clear own a bs side).canonical := (h.foldl hclear).homeWrites

theorem State.canonical.putWith {clear : State → Nat → State} {part own a : Nat} {bs : List Byte} {side : Option Side} {bad near : Bool}
    (h : s.canonical) (hclear : KeepsCanonical clear) : (s.putWith clear part own a bs side bad near).canonical := by
  unfold State.putWith
  split
  · exact h.keep
  · exact h
  exact canonical_ite h (canonical_ite (h.engWith hclear).upd (h.engWith hclear))

theorem State.canonical.reportWith {clear : State → Nat → State} {q : EQ} {e : ErrRecord} {cycle : Nat} (h : s.canonical)
    (hclear : KeepsCanonical clear) : (s.reportWith clear q e cycle).canonical := by
  unfold State.reportWith
  extract_lets q drop bs
  split
  · exact h
  refine canonical_ite h.setEqSet ?_
  extract_lets base
  split
  · exact h.keep
  · exact h.keep
  · exact h.setEqSet
  extract_lets t u v
  have hu : u.canonical := (h.engWith hclear).engWith hclear
  split
  · exact hu.setEqSet.engWith hclear
  · exact hu.setEqSet.setEqSet

theorem State.canonical.setBad {line src : Nat} (h : s.canonical) : (s.setBad line src).canonical := canonical_ite h.keep h.keep

theorem State.canonical.struckWith {clear : State → Nat → State} {id line : Nat} (h : s.canonical) (hclear : KeepsCanonical clear) :
    (s.struckWith clear id line).2.canonical := by
  unfold State.struckWith
  split
  · exact h
  extract_lets t
  split
  · exact h.keep.reportWith hclear
  · exact h.keep

/-! Drains, accesses of engines and translation -/

theorem State.canonical.reduce {clear : State → Nat → State} {me own co g : Nat} {op : AtomOp} {w64 : Bool} {a : Nat} {b : DWord}
    (h : s.canonical) (hclear : KeepsCanonical clear) : (s.reduce clear me own co g op w64 a b).canonical :=
  canonical_ite (h.keep.reportWith hclear) h.homeWriteAs

theorem State.canonical.logWith {clear : State → Nat → State} {part : Nat} {dirty : Bool} {x : DWord} (h : s.canonical)
    (hclear : KeepsCanonical clear) : (s.logWith clear part dirty x).canonical := by
  unfold State.logWith
  split
  · exact h
  · exact canonical_ite h (canonical_ite h.keep (h.keep.putWith hclear))

theorem State.canonical.bitWith {clear : State → Nat → State} {part leaf bit : Nat} {dirty : Bool} {log : Option DWord} (h : s.canonical)
    (hclear : KeepsCanonical clear) : (s.bitWith clear part leaf bit dirty log).canonical := by
  unfold State.bitWith
  split
  · extract_lets own t e u
    split
    · exact h
    split
    · exact hclear _ _ h
    split
    · exact (hclear _ _ h).homeWrites.logWith hclear
    · exact (hclear _ _ h).homeWrites
  · exact h

theorem State.canonical.dirtyWith {clear : State → Nat → State} {part : Nat} {leaves : List (Nat × Option DWord)} (h : s.canonical)
    (hclear : KeepsCanonical clear) : (s.dirtyWith clear part leaves).canonical := h.foldl fun _ _ ht => ht.bitWith hclear

theorem State.canonical.clearWith {one : State → StoreEntry → State} {line : Nat} (h : s.canonical) (hone : KeepsCanonical one) :
    (s.clearWith one line).canonical := h.foldl fun _ _ ht => ht.foldl hone

/-- The drains that an entry's dirty bits and reports need are those of fewer entries. -/
theorem State.canonical.drainGo {n : Nat} {e : StoreEntry} (h : s.canonical) : (State.drainGo n s e).canonical := by
  induction n generalizing s e with
  | zero => exact h
  | succ n ih =>
    have hclear : ∀ t l, t.canonical → (State.clearWith (State.drainGo n) t l).canonical := fun _ _ ht => ht.clearWith fun _ _ hu => ih hu
    refine canonical_ite h ?_
    extract_lets t u v k
    have hu : u.canonical := h.keep.dirtyWith hclear
    have hv : v.canonical := by
      unfold v
      cases e.red with
      | none => exact canonical_ite hu hu.homeMask
      | some q => exact hu.reduce hclear
    have hk : k.2.canonical := hv.struckWith hclear
    exact (canonical_ite hk.setBad hk).upd

theorem State.canonical.drainEntry {e : StoreEntry} (h : s.canonical) : (s.drainEntry e).canonical := h.drainGo

theorem State.canonical.clearLine {line : Nat} (h : s.canonical) : (s.clearLine line).canonical := h.clearWith fun _ _ ht => ht.drainEntry

theorem State.canonical.setPteBit {part leaf bit : Nat} {dirty : Bool} {log : Option DWord} (h : s.canonical) :
    (s.setPteBit part leaf bit dirty log).canonical := h.bitWith fun _ _ ht => ht.clearLine

theorem State.canonical.setDirty {part : Nat} {leaves : List (Nat × Option DWord)} (h : s.canonical) : (s.setDirty part leaves).canonical :=
  h.dirtyWith fun _ _ ht => ht.clearLine

theorem State.canonical.engRead {own a n : Nat} (h : s.canonical) : (s.engRead own a n).2.canonical :=
  h.foldl fun _ _ ht => ht.clearLine.homeRead

theorem State.canonical.struck {id line : Nat} (h : s.canonical) : (s.struck id line).2.canonical := h.struckWith fun _ _ ht => ht.clearLine

theorem State.canonical.engWrite {own a : Nat} {bs : List Byte} {side : Option Side} (h : s.canonical) :
    (s.engWrite own a bs side).canonical := h.engWith fun _ _ ht => ht.clearLine

theorem State.canonical.engPut {part own a : Nat} {bs : List Byte} {side : Option Side} {bad near : Bool} (h : s.canonical) :
    (s.engPut part own a bs side bad near).canonical := h.putWith fun _ _ ht => ht.clearLine

theorem State.canonical.report {q : EQ} {e : ErrRecord} (h : s.canonical) : (s.report q e).canonical :=
  h.reportWith fun _ _ ht => ht.clearLine

theorem State.canonical.poisonRead {own core co g line : Nat} (h : s.canonical) : (s.poisonRead own core co g line).canonical := h.report

theorem State.canonical.engAgain {x1 : EngWrite} (h : s.canonical) : (s.engAgain x1).canonical := by
  unfold State.engAgain
  split
  · exact h.reportWith fun _ _ ht => ht.clearLine
  · exact h.engPut

theorem State.canonical.flushEng (h : s.canonical) : s.flushEng.canonical := h.keep.foldl fun _ _ ht => ht.engAgain

theorem State.canonical.setAccessed {e : TlbEntry} {q : Seen} (h : s.canonical) : (s.setAccessed e q).canonical := by
  unfold State.setAccessed
  extract_lets t
  have ht : t.canonical := h.foldl fun _ _ hu => hu.setPteBit
  split
  · exact ht.setPteBit
  · exact ht.setPteBit.setPteBit

theorem State.canonical.afterWalk {core part : Nat} {e : TlbEntry} {q : Seen} (h : s.canonical) :
    (s.afterWalk core part e q).canonical := by
  unfold State.afterWalk
  exact h.keep.setAccessed

theorem State.canonical.translate {core part gslot : Nat} {ring : Ring} {k : Kind} {atomic : Bool} {va : DWord} (h : s.canonical) :
    (s.translate core part gslot ring k atomic va).2.canonical := by
  unfold State.translate
  refine canonical_ite_2 h ?_
  split
  · exact h
  extract_lets v at_
  split
  · exact h
  split
  · exact h
  · exact h
  split
  · exact h.afterWalk
  · exact h

theorem State.canonical.translateAlone {part gslot : Nat} {ring : Ring} {k : Kind} {va : DWord} (h : s.canonical) :
    (s.translateAlone part gslot ring k va).2.canonical := by
  unfold State.translateAlone
  refine canonical_ite_2 h ?_
  split
  · exact h
  extract_lets v
  split
  · exact h
  · exact h
  split
  · exact h.setAccessed
  · exact h

end Sys2Proof.Machine
end

-- Proofs: canonical forms through what engines and instructions share
section
/-!
PROOFS. Canonical forms through what engines and instructions share (R75, R206).
-/
namespace Sys2Proof.Machine

-- One declaration after another, which keeps the compile within its memory.
set_option Elab.async false

variable {s t : State}

/-! Copies that pass to their engine -/

theorem State.canonical.takeFree (h : s.canonical) : (s.takeFree).2.canonical := h.keep

theorem State.canonical.takeBytes {n : Nat} (h : s.canonical) : (s.takeBytes n).2.canonical := h.keep

theorem State.canonical.spot {c : CopyCmd} {k : Kind} {peer : Bool} {e : CopyEnd} (h : s.canonical) : (s.spot c k peer e).2.canonical := by
  unfold State.spot
  split
  · exact h
  refine canonical_ite_2 h ?_
  extract_lets t
  split
  · exact h.translate
  · exact h.translate
  · split <;> exact h.translate

theorem State.canonical.copyRecord {o : CopyOp} {kind addr : Nat} (h : s.canonical) : (s.copyRecord o kind addr).canonical := h.report

theorem State.canonical.passCopy {id co g : Nat} {c : CopyCmd} (h : s.canonical) : (s.passCopy id co g c).canonical :=
  canonical_ite h.keep h.keep

/-! Queues at their home slices -/

theorem State.canonical.stirRing {k : QKey} (h : s.canonical) : (s.stirRing k).canonical := by
  unfold State.stirRing
  split
  · exact h
  extract_lets t
  have ht : t.canonical := canonical_ite h.keep h
  exact canonical_ite ht.keep ht

theorem State.canonical.stirQueue {k : QKey} (h : s.canonical) : (s.stirQueue k).canonical := canonical_ite h.stirRing.upd h.stirRing

theorem State.canonical.enqueueAs {k : QKey} {bs : List Byte} {bad : Bool} (h : s.canonical) : CanonicalSome (s.enqueueAs k bs bad) := by
  unfold State.enqueueAs
  split
  · exact CanonicalSome.none
  · exact CanonicalSome.ite (CanonicalSome.ite (CanonicalSome.some h.engPut.upd.stirRing) CanonicalSome.none)
      (CanonicalSome.some h.keep.stirRing)

theorem State.canonical.wakeHost (h : s.canonical) : s.wakeHost.canonical := canonical_ite h h.keep

theorem State.canonical.enqueue {k : QKey} {bs : List Byte} (h : s.canonical) : CanonicalSome (s.enqueue k bs) := h.enqueueAs

theorem State.canonical.releaseHeld {p : Held → Bool} (h : s.canonical) : (s.releaseHeld p).canonical :=
  h.keep.foldl fun _ _ ht => ht.stirQueue

theorem State.canonical.requeueHeld {p : Held → Bool} (h : s.canonical) : (s.requeueHeld p).canonical :=
  h.keep.foldl fun _ _ ht => ht.stirQueue

theorem State.canonical.releaseRecords {co g : Nat} (h : s.canonical) : (s.releaseRecords co g).canonical := h.releaseHeld

theorem State.canonical.cancelPops {pid : Nat} (h : s.canonical) : (s.cancelPops pid).canonical := h.keep.foldl fun _ _ ht => ht.stirRing

theorem State.canonical.passPush {id co g : Nat} {c : PushCmd} (h : s.canonical) : (s.passPush id co g c).canonical :=
  canonical_ite h.keep h.keep

/-! Ports, token queues and messages -/

theorem State.canonical.sendRemote {q : Request} (h : s.canonical) : (s.sendRemote q).canonical := by
  unfold State.sendRemote
  split
  · exact h
  split
  · exact h
  · exact h.keep

/-! Commands that pass to their engines -/

theorem State.canonical.passCmd {c : Cmd} (h : s.canonical) : (s.passCmd c).canonical := by
  unfold State.passCmd
  extract_lets t
  split
  · exact h.keep.passCopy
  · exact h.keep
  · exact h.keep.passPush

/-! A part's own entries, and poison -/

theorem State.canonical.drainAll {pid : Nat} (h : s.canonical) : (s.drainAll pid).canonical := h.foldl fun _ _ ht => ht.drainEntry

theorem State.canonical.pushRecord {c : PushCmd} {i : Nat} (h : s.canonical) : (s.pushRecord c i).2.2.canonical := by
  unfold State.pushRecord
  extract_lets record seeded
  have hrecord : ∀ a, (record a).2.2.canonical := fun _ => h.engRead (own := 63)
  split
  · exact hrecord _
  · exact hrecord _
  · exact h
  · exact h

theorem State.canonical.readAhead {o : PushOp} (h : s.canonical) : (s.readAhead o).canonical := by
  unfold State.readAhead
  extract_lets put
  split
  · extract_lets t
    have ht : t.2.canonical := h.foldl_2 fun _ _ hu => hu.engRead (own := 63)
    exact ht.keep
  · exact h.engRead.upd
  · exact h

theorem State.canonical.readPushes {co : Nat} (h : s.canonical) : (s.readPushes co).canonical := h.foldl fun _ _ ht => ht.readAhead

/-! The end of a cohort -/

theorem State.canonical.returnUnits {co : Nat} (h : s.canonical) : (s.returnUnits co).canonical := by
  unfold State.returnUnits
  split
  · exact h
  · exact canonical_ite h h.keep

theorem State.canonical.tryEndCohort {co : Nat} (h : s.canonical) : (s.tryEndCohort co).canonical := by
  unfold State.tryEndCohort
  extract_lets t
  split
  · exact h.returnUnits
  refine canonical_ite h.returnUnits ?_
  extract_lets u v w
  have hu : u.canonical := canonical_ite h.returnUnits (h.returnUnits.foldl (fun _ _ hy => hy.releaseRecords))
  exact canonical_ite hu.keep ((canonical_ite hu.keep hu.keep.readPushes).upd)

theorem State.canonical.clearRange {a n : Nat} (h : s.canonical) : (s.clearRange a n).canonical :=
  ⟨Memory.wf_filter _ _ h.1, Sides.wf_filter _ _ h.2⟩

theorem State.canonical.scrub {c : Cohort} (h : s.canonical) : (s.scrub c).canonical := h.clearRange.clearRange

theorem State.canonical.stopTeams {co : Nat} (h : s.canonical) : (s.stopTeams co).canonical := by
  unfold State.stopTeams
  exact h.foldl fun _ _ ht => ht.upd.report.upd.tryEndCohort.upd

theorem State.canonical.stopCopies {co : Nat} (h : s.canonical) : (s.stopCopies co).canonical := by
  unfold State.stopCopies
  extract_lets mine left t keep fix __src
  have ht : t.canonical := h.foldl fun _ _ hu => canonical_ite hu hu.copyRecord
  exact ht.keep

/-! Commit, quads and gangs, branch targets, taking a trap -/

theorem State.canonical.passCmds {co g : Nat} {ids : List Nat} (h : s.canonical) : (s.passCmds co g ids).canonical := by
  unfold State.passCmds
  extract_lets cs t
  have ht : t.canonical := h.foldl fun _ _ hu => hu.passCmd
  exact ht.keep

theorem State.canonical.arriveRest {co g : Nat} (h : s.canonical) : (s.arriveRest co g).canonical := by
  unfold State.arriveRest
  split
  · exact h.keep
  · exact h

theorem State.canonical.finishQuads {co g : Nat} {q : QMask} (h : s.canonical) : (s.finishQuads co g q).canonical :=
  canonical_ite h h.upd.arriveRest.upd.tryEndCohort.upd

theorem State.canonical.commitRun {r : PartRef} (h : s.canonical) : (s.commitRun r).canonical := by
  unfold State.commitRun
  split
  · exact h
  split
  · exact h
  · exact (h.keep.passCmds (co := r.cohort) (g := r.gang)).upd.upd.finishQuads

theorem State.canonical.settle {r : PartRef} (h : s.canonical) : CanonicalSome (s.settle r) := by
  unfold State.settle
  split
  · exact CanonicalSome.none
  split
  · exact CanonicalSome.some h.drainAll
  · split
    · extract_lets t u v
      have hv : v.canonical := canonical_ite h.keep.drainAll.passCmds h.upd.drainAll.passCmds.upd
      split
      · exact CanonicalSome.ite CanonicalSome.none (CanonicalSome.some hv.keep)
      · exact CanonicalSome.none
    · exact CanonicalSome.none
  · exact CanonicalSome.none

theorem State.canonical.fetchLine {core part gslot : Nat} {ring : Ring} {pc : DWord} (h : s.canonical) :
    (s.fetchLine core part gslot ring pc).2.canonical := by
  unfold State.fetchLine
  extract_lets t
  split
  · exact h.translate
  · exact h.translate
  · split <;> exact h.translate

theorem State.canonical.checkTarget {core part gslot : Nat} {ring : Ring} {t : DWord} {tgt indirect : Bool} (h : s.canonical) :
    (s.checkTarget core part gslot ring t tgt indirect).2.canonical := by
  unfold State.checkTarget
  refine canonical_ite_2 h ?_
  extract_lets t
  split
  · exact h.fetchLine
  · exact h.fetchLine
  · exact canonical_ite_2 h.fetchLine h.fetchLine

theorem State.canonical.commitSome {pid n : Nat} (h : s.canonical) : (s.commitSome pid n).canonical := by
  induction n generalizing s with
  | zero => exact h
  | succ n ih =>
    conv => arg 1; whnf
    rcases s.partNo? _ with _ | ⟨r, p⟩
    · exact h
    dsimp -zeta only
    cases p.runs with
    | nil => exact h
    | cons run l => exact canonical_ite (ih h.commitRun) h

theorem State.canonical.commitReady {pid : Nat} (h : s.canonical) : (s.commitReady pid).canonical := h.commitSome

theorem State.canonical.stopPart {pid : Nat} (h : s.canonical) : (s.stopPart pid).canonical := by
  unfold State.stopPart
  extract_lets t u
  have hu : u.canonical := h.upd.cancelPops.upd.commitReady
  split
  · exact hu
  refine canonical_ite hu ?_
  split
  · exact hu
  · exact hu
  · exact hu.upd.rollback.upd

theorem State.canonical.stopGang {co g : Nat} (h : s.canonical) : (s.stopGang co g).canonical := by
  unfold State.stopGang
  split
  · exact h
  · exact h.foldl fun _ _ ht => ht.stopPart

theorem State.canonical.park {co g : Nat} (h : s.canonical) : (s.park co g).canonical := h.stopGang.upd

theorem State.canonical.finishKill {co : Nat} {drop : Bool} (h : s.canonical) : (s.finishKill co drop).canonical := by
  unfold State.finishKill
  extract_lets t mine
  have ht : t.canonical := h.foldl fun _ _ hu => hu.commitReady
  split
  · exact ht
  extract_lets pids u v w cores __src y z __src a' b'
  have hw : w.canonical := ht.upd.stopTeams.upd.stopCopies.readPushes.upd
  have hz : z.canonical := canonical_ite hw.upd.releaseHeld hw.upd.requeueHeld
  have hb' : b'.canonical := canonical_ite hz.upd.scrub hz.upd
  exact hb'.upd

theorem State.canonical.killCohort {co : Nat} {drop : Bool} (h : s.canonical) : (s.killCohort co drop).canonical := by
  unfold State.killCohort
  split
  · exact h
  exact canonical_ite h.upd h.finishKill

theorem State.canonical.settleDying {co : Nat} (h : s.canonical) : (s.settleDying co).canonical := by
  unfold State.settleDying
  split
  · exact h
  split
  · exact canonical_ite h h.finishKill
  · exact h

theorem State.canonical.monitorStop {r : PartRef} {part core : Nat} (h : s.canonical) : (s.monitorStop r part core).canonical :=
  h.upd.park.upd.report.upd

theorem State.canonical.enterTrap {s0 : State} {r : PartRef} {t : Trap} {resume : DWord} {n : Nat} (h0 : s0.canonical) (h : s.canonical) :
    CanonicalSome (s0.enterTrap s r t resume n) := by
  induction n generalizing s t resume with
  | zero => exact .some h0.monitorStop
  | succ n ih =>
    conv => arg 1; whnf
    cases s.cohort? _ with
    | none => exact .some h
    | some c =>
    cases s.part? _ with
    | none => exact .some h
    | some p =>
    dsimp -zeta only
    rcases s.trapTarget _ _ _ with _ | ⟨ring, dbl⟩
    · exact .some h0.monitorStop
    dsimp -zeta only
    extract_lets entry u k
    have hk : k.2.canonical := h.keep.checkTarget
    cases k.1 with
    | ok _ => exact .some hk.keep
    | wait => exact .none
    | fault f => exact ih hk

theorem State.canonical.takeTrap {r : PartRef} {t : Trap} {resume : DWord} (h : s.canonical) : CanonicalSome (s.takeTrap r t resume) :=
  h.enterTrap h

theorem State.canonical.tryTrap {r : PartRef} (h : s.canonical) : (s.tryTrap r).canonical := by
  unfold State.tryTrap
  split
  · exact h
  split
  · exact h
  refine canonical_ite h ?_
  split
  · exact canonical_getD h h.rollback.upd.takeTrap
  · exact canonical_getD h h.takeTrap
  · exact canonical_getD h h.takeTrap

theorem State.canonical.raise {r : PartRef} {t : Trap} (h : s.canonical) : (s.raise r t).canonical := by
  unfold State.raise
  extract_lets t u v
  have ht : t.canonical := by
    unfold t
    split
    · exact h.upd.cancelPops.upd
    · exact h
  exact canonical_ite ht.upd.tryTrap.upd ht.keep.tryTrap

end Sys2Proof.Machine
end

-- Proofs: canonical forms through instructions that access memory
section
/-!
PROOFS. Canonical forms through instructions that access memory (R75, R206).
-/
namespace Sys2Proof.Machine

-- One declaration after another, which keeps the compile within its memory.
set_option Elab.async false

variable {s t : State}

/-! How one instruction issues -/

theorem State.canonical.trapFrom {x : Ctx} {f : Form} {resume : Resume} {pos code : Nat} {lanes : Word} {addr : DWord} {info : Word}
    {s2 : Bool} (h : s.canonical) : (s.trapFrom x f resume pos code lanes addr info s2).canonical := by
  unfold State.trapFrom
  extract_lets p t
  have ht : t.canonical := canonical_ite h.keep h
  exact ht.raise

theorem State.canonical.faultPlain {x : Ctx} {f : Form} {pos code : Nat} {lanes : Word} {addr : DWord} {info : Word} {s2 : Bool}
    (h : s.canonical) : (s.faultPlain x f pos code lanes addr info s2).canonical := by
  unfold State.faultPlain
  split
  · split
    next t heq =>
      have ht : t.canonical := h.settle _ heq
      exact ht.trapFrom
    · exact h.keep
  · exact h.trapFrom

theorem State.canonical.afterClose {r : PartRef} {close : Bool} (h : s.canonical) : (s.afterClose r close).canonical :=
  canonical_ite h.keep h

theorem State.canonical.finish {s0 : State} {x : Ctx} {f : Form} {close : Bool} {pos : Nat} {d : Done} (h : s0.canonical)
    (hd : d.canonical) : (s0.finish x f close pos d).canonical := by
  cases d with
  | fall t c =>
    have ht : t.canonical := hd
    rw [State.finish]
    exact canonical_ite (canonical_ite h.keep h.keep) ht.keep.afterClose
  | goto t pc hdr =>
    have ht : t.canonical := hd
    exact ht.keep.afterClose
  | placed t => exact hd
  | stall t w => exact State.canonical.upd hd
  | trap t code lanes addr info s2 =>
    have ht : t.canonical := hd
    exact canonical_ite ht.trapFrom ht.faultPlain
  | raise t rs code lanes addr info s2 => exact State.canonical.trapFrom hd
  | illegal t => exact State.canonical.faultPlain hd

theorem State.canonical.prepare {x : Ctx} {k : IKind} (h : s.canonical) : CanonicalSome (s.prepare x k) := by
  unfold State.prepare
  split
  · exact CanonicalSome.some h
  · exact CanonicalSome.some h
  · exact h.settle
  exact CanonicalSome.ite (CanonicalSome.some h) CanonicalSome.none

theorem State.canonical.stallFor {x : Ctx} {k : IKind} (h : s.canonical) : (s.stallFor x k).canonical := canonical_ite h.keep h.keep

theorem State.canonical.openRun {x : Ctx} (h : s.canonical) : (s.openRun x).1.canonical := by
  unfold State.openRun
  split
  · exact h
  · exact h.keep

theorem State.canonical.failAt {x : Ctx} {lanes : Word} {code : Nat} {addr : DWord} {s2 : Bool} (h : s.canonical) :
    (s.failAt x lanes code addr s2).canonical := by
  unfold State.failAt
  refine canonical_ite h.keep ?_
  refine State.canonical.faultPlain ?_
  split
  · exact h
  · exact h.keep

theorem State.canonical.issueAt {f : Form} {sem : Sem} {x : Ctx} (h : s.canonical) (hsem : ∀ t y, t.canonical → (sem t y).canonical) :
    (issueAt f sem s x).canonical := by
  unfold Machine.issueAt
  refine canonical_ite h ?_
  refine canonical_ite h.keep ?_
  split
  next u y heq =>
  have ho : u.canonical := canonical_of_eq_1 heq h.openRun
  extract_lets pos
  split
  · exact ho.faultPlain
  split
  · exact ho.stallFor
  next t heq =>
    have ht : t.canonical := ho.prepare _ heq
    split
    · exact ht
    · exact ht.finish (hsem _ _ ht)

theorem State.canonical.issue {f : Form} {imm : Word} {sem : Sem} (h : s.canonical) (hsem : ∀ t y, t.canonical → (sem t y).canonical) :
    Out.canonical (issue f imm sem s) := by
  unfold Machine.issue
  split
  · exact h
  split
  · exact trivial
  · exact h.issueAt hsem

theorem State.canonical.onView {f : View → View} {x : Ctx} (h : s.canonical) : (onView f s x).canonical := h.keep

/-! Accesses of lanes -/

theorem State.canonical.forget {s0 : State} (h : s.canonical) : (s0.forget s).canonical := h.keep

theorem Done.canonical.forget {d : Done} (hd : d.canonical) : (Done.forget s d).canonical := by
  cases d with
  | fall t c => exact hd
  | goto t pc hdr => exact hd
  | placed t => exact State.canonical.forget hd
  | stall t w => exact State.canonical.forget hd
  | trap t code lanes addr info s2 => exact State.canonical.forget hd
  | raise t rs code lanes addr info s2 => exact State.canonical.forget hd
  | illegal t => exact State.canonical.forget hd

theorem State.canonical.mixCheck {part line : Nat} {off : Int} {n : Nat} {run : Option Nat} (h : s.canonical) :
    (s.mixCheck part line off n run).2.canonical := by
  unfold State.mixCheck
  split
  · exact canonical_ite_2 h h.keep
  · exact h.keep

theorem State.canonical.mixChecks {part n : Nat} {run : Option Nat} {ps : List Piece} (h : s.canonical) :
    (State.mixChecks part n run ps s).2.canonical := by
  induction ps generalizing s with
  | nil => exact h
  | cons p ps ih => exact canonical_ite_2 (ih h) (canonical_ite_2 (ih h.mixCheck) h.mixCheck)

theorem State.canonical.mixElem {x : Ctx} {h : How} {l : Nat} {va : DWord} {n : Nat} {r : Found} (hs : s.canonical) :
    (s.mixElem x h l va n r).2.canonical := canonical_ite_2 (canonical_ite_2 hs.mixChecks hs.mixChecks) hs

theorem State.canonical.flitHit {x : Ctx} {z : Space} {lines : List Nat} (h : s.canonical) : (s.flitHit x z lines).2.canonical := by
  unfold State.flitHit
  split
  · exact h.struck
  · exact h

theorem State.canonical.sawPoison {x : Ctx} {lines : List Nat} (h : s.canonical) : (s.sawPoison x lines).canonical := by
  unfold State.sawPoison
  split
  · exact h.poisonRead
  · exact h

theorem State.canonical.checkPiece {x : Ctx} {h : How} {l : Nat} {va : DWord} {off n : Nat} (hs : s.canonical) :
    (s.checkPiece x h l va off n).2.canonical := by
  unfold State.checkPiece
  refine canonical_ite_2 hs ?_
  extract_lets t
  split
  · exact hs.translate
  · exact hs.translate
  · split <;> exact hs.translate

theorem State.canonical.checkPieces {x : Ctx} {how : How} {l : Nat} {va : DWord} {ps : List (Nat × Nat)} (h : s.canonical) :
    (State.checkPieces x how l va ps s).2.canonical := by
  induction ps generalizing s with
  | nil => exact h
  | cons p ps ih =>
    rw [State.checkPieces]
    split
    · exact h.checkPiece
    · exact h.checkPiece
    · exact ih h.checkPiece

theorem State.canonical.checkElem {x : Ctx} {z : Space} {h : How} {e : Elem} (hs : s.canonical) : (s.checkElem x z h e).2.canonical := by
  unfold State.checkElem
  extract_lets va ps t
  refine canonical_ite_2 hs ?_
  split
  · exact canonical_ite_2 hs hs.checkPieces.mixElem
  · exact canonical_ite_2 hs hs

theorem State.canonical.checkElems {x : Ctx} {z : Space} {how : How} {es : List Elem} (h : s.canonical) :
    (State.checkElems x z how es s).2.canonical := by
  induction es generalizing s with
  | nil => exact h
  | cons e es ih => exact ih h.checkElem

theorem State.canonical.readLine {x : Ctx} {a n : Nat} (h : s.canonical) : (s.readLine x a n).canonical := by
  unfold State.readLine
  extract_lets line t
  have ht : t.canonical := canonical_ite h.strike h
  exact ht.keep

theorem State.canonical.waitLine {x : Ctx} {red : Bool} (h : s.canonical) : (s.waitLine x red).canonical := Done.canonical_ite h.keep h

theorem State.canonical.storePiece {x : Ctx} {p : Piece} {bs : List Byte} {side : Side} (h : s.canonical) :
    (s.storePiece x p bs side).canonical := by
  unfold State.storePiece
  extract_lets line
  refine canonical_ite h.setDirty.homeWrite ?_
  split <;> exact h.keep

/-! Accesses made one request at a time -/

theorem State.canonical.homeAccess {me : Option Nat} {own a : Nat} {leaves : List (Nat × Option DWord)} {k : PeerKind} (h : s.canonical) :
    (s.homeAccess me own a leaves k).1.canonical := by
  unfold State.homeAccess
  extract_lets line t
  split
  · exact canonical_ite_1 h (h.foldl (fun _ _ hu => hu.homeRead))
  · exact canonical_ite h.setDirty.homeWrites.upd h.setDirty.homeWrites
  · exact canonical_ite_1 h h.setDirty.homeWrite
  exact canonical_ite_1 h (canonical_ite_1 h.setDirty.homeWrite h.homeRead)

theorem State.canonical.homeMore {own a : Nat} {ks : List PeerKind} {r : State × RemoteRep} (h : r.1.canonical) :
    (State.homeMore own a ks r).1.canonical := by
  induction ks generalizing r with
  | nil => exact h
  | cons k ks ih => exact ih h.homeAccess

theorem State.canonical.performOne {q : Request} (h : s.canonical) : (s.performOne q).1.canonical := by
  unfold State.performOne
  extract_lets line t u v
  split
  · split
    · exact h.homeAccess.struck.struck.setBad
    · exact h.homeAccess.struck.struck
  · exact h.homeAccess.struck.struck

theorem State.canonical.performHere {l : List Request} (h : s.canonical) : (s.performHere l).canonical :=
  h.foldl fun _ _ ht => ht.performOne.upd

theorem State.canonical.awaitSlice {id : Nat} (h : s.canonical) : (s.awaitSlice id).canonical := canonical_ite h (canonical_ite h.keep h.keep)

theorem State.canonical.dirtyFor {part : Nat} {l : List Request} (h : s.canonical) : (s.dirtyFor part l).canonical :=
  h.foldl fun _ _ ht => canonical_ite ht.setDirty ht

theorem State.canonical.dirtyHeld {l : List Request} (h : s.canonical) : (s.dirtyHeld l).canonical :=
  h.foldl fun _ _ ht => canonical_ite ht.setDirty ht

theorem State.canonical.issueReq {q : Request} (h : s.canonical) : (s.issueReq q).canonical := by
  unfold State.issueReq
  extract_lets part d t u v
  split
  · exact h.dirtyFor.upd.sendRemote
  · split
    · exact h.dirtyFor.upd
    · exact h.keep
    · exact h
  split
  · split
    · exact h
    · exact h
    · exact h.awaitSlice
  · exact h.performHere

theorem State.canonical.advance {pid n : Nat} (h : s.canonical) : (s.advance pid n).canonical := by
  induction n generalizing s with
  | zero => exact h
  | succ n ih =>
    rw [State.advance]
    split
    · exact h
    refine canonical_ite h ?_
    extract_lets t
    have ht : t.canonical := h.issueReq
    exact canonical_ite (ih ht) ht

theorem State.canonical.rowsDone {x : Ctx} {op : PendOp} {act : Word} {ls : List RowLine} (h : s.canonical) :
    (rowsDone s x op act ls).canonical := by
  unfold Machine.rowsDone
  extract_lets want v
  split
  · exact h
  · exact h.keep

theorem Done.canonical.irrev {d : Done} (hd : d.canonical) : d.irrev.canonical := by
  cases d with
  | fall t c => exact hd
  | goto t pc hdr => exact hd
  | placed t => exact hd
  | stall t w => exact hd
  | trap t code lanes addr info s2 => exact hd
  | raise t rs code lanes addr info s2 => exact hd
  | illegal t => exact hd

theorem State.canonical.complete {x : Ctx} {pd : Pend} (h : s.canonical) : (s.complete x pd).canonical := by
  unfold State.complete
  extract_lets qs t __src __src x drops u struck v data
  have hu : u.canonical := canonical_ite h.keep h.keep
  have hv : v.canonical := hu.foldl fun _ _ hw => hw.poisonRead
  refine Done.canonical_ite h ?_
  split
  · exact hv
  split
  · exact hv
  · exact hv
  · exact hv.keep
  · exact Done.canonical_ite hv hv.keep
  split
  · split
    · exact hv.keep
    · exact hv.keep
    · exact hv
  · exact Done.canonical.irrev hv.rowsDone

theorem State.canonical.goOn {x : Ctx} {pd : Pend} (h : s.canonical) : (s.goOn x pd).canonical := by
  unfold State.goOn
  extract_lets t
  split
  · exact h.advance.complete
  · exact h.advance

theorem State.canonical.startPend {x : Ctx} {pd : Pend} {ps : List (Piece × PeerKind)} (h : s.canonical) :
    (s.startPend x pd ps).canonical := by
  unfold State.startPend
  extract_lets t u
  split
  · exact h.keep.goOn
  · exact h.keep

theorem State.canonical.answered {r : PartRef} (h : s.canonical) : (s.answered r).canonical := by
  unfold State.answered
  extract_lets t
  split
  · exact h
  split
  · exact h
  · exact (h.keep.finish h.keep.goOn).upd.settleDying

/-! LOAD, STORE and LOCAL -/

theorem State.canonical.access {x : Ctx} {act : Word} {z : Space} {how : How} {uni : Bool} {op : PendOp} {len : Nat} {es : List Elem}
    {kind : Piece → PeerKind} {here : State → Ctx → List Piece → Done} (h : s.canonical)
    (hhere : ∀ t y ps, t.canonical → (here t y ps).canonical) : (s.access x act z how uni op len es kind here).canonical := by
  unfold State.access
  split
  · exact h.goOn
  refine Done.canonical_ite h ?_
  extract_lets r v f
  have hv : v.canonical := h.checkElems
  refine Done.canonical_ite hv.forget ?_
  refine Done.canonical_ite hv.forget ?_
  split
  · split
    · exact hv.keep.forget
    next w heq =>
      have hw : w.canonical := hv.settle _ heq
      split
      · exact hw.forget
      · exact hw.startPend
  split
  · exact hv.forget
  · exact (hhere _ _ _ hv).forget

theorem State.canonical.readHere {z : Space} {uni : Bool} {act : Word} {fin : State → Ctx → (Piece → List Byte) → Done} {x : Ctx}
    {ps : List Piece} (h : s.canonical) (hfin : ∀ u a b, u.canonical → (fin u a b).canonical) :
    (readHere z uni act fin s x ps).canonical := by
  unfold Machine.readHere
  extract_lets red hit t bad u
  have hu : u.canonical := h.foldl fun _ _ hv => hv.readLine
  split
  · exact h.waitLine
  split
  · exact h.keep
  split
  · exact canonical_elim h.flitHit fun _ => h.flitHit.poisonRead
  · exact hfin _ _ _ hu

theorem State.canonical.loadSem {z : Space} {p : Pred} {t : TypeCode} {sx : Bool} {d a : Opnd} {len : Nat} {x : Ctx} (h : s.canonical) :
    (loadSem z p t sx d a len s x).canonical := by
  unfold Machine.loadSem
  exact h.access fun _ _ _ ht => ht.readHere (fun _ _ _ hu => hu.keep)

theorem State.canonical.rowLoadSem {p : Pred} {a : Opnd} {rows : Nat} {op : PendOp} {len : Nat} {x : Ctx} (h : s.canonical) :
    (rowLoadSem p a rows op len s x).canonical := by
  unfold Machine.rowLoadSem
  exact h.access fun _ _ _ ht => ht.readHere (fun _ _ _ hu => hu.rowsDone)

theorem State.canonical.storeHere {bytes : Piece → List Byte} {side : Piece → Side} {x : Ctx} {ps : List Piece} (h : s.canonical) :
    (storeHere bytes side s x ps).canonical := Done.canonical_ite h (h.foldl fun _ _ ht => ht.storePiece)

theorem State.canonical.storeSem {z : Space} {p : Pred} {t : TypeCode} {a b : Opnd} {len : Nat} {x : Ctx} (h : s.canonical) :
    (storeSem z p t a b len s x).canonical := by
  unfold Machine.storeSem
  exact h.access fun _ _ _ ht => ht.storeHere

theorem State.canonical.stdSem {p : Pred} {a b : Opnd} {rows len : Nat} {x : Ctx} (h : s.canonical) :
    (stdSem p a b rows len s x).canonical := by
  unfold Machine.stdSem
  exact h.access fun _ _ _ ht => ht.storeHere

theorem State.canonical.queueWalk {x : Ctx} {va : DWord} (h : s.canonical) : (s.queueWalk x va).canonical := canonical_ite h h.keep

theorem State.canonical.prefSem {p : Pred} {a : Opnd} {x : Ctx} (h : s.canonical) : (prefSem p a s x).canonical :=
  h.foldl fun _ _ ht => ht.queueWalk

/-! ATOM and MONITOR -/

theorem State.canonical.requestOwn {id : Nat} (h : s.canonical) : (s.requestOwn id).2.canonical := by
  unfold State.requestOwn
  split
  · exact h
  exact canonical_ite_2 h h.strike

theorem State.canonical.reducePiece {x : Ctx} {op : AtomOp} {w64 : Bool} {p : Piece} {b : DWord} (h : s.canonical) :
    (s.reducePiece x op w64 p b).canonical := canonical_ite (h.setDirty.reduce fun _ _ ht => ht.clearLine) h.keep

theorem State.canonical.reduceHere {op : AtomOp} {w64 : Bool} {b : Nat → DWord} {x : Ctx} {ps : List Piece} (h : s.canonical) :
    (reduceHere op w64 b s x ps).canonical := Done.canonical_ite h (h.foldl fun _ _ ht => ht.reducePiece)

theorem State.canonical.atomHere {act : Word} {uni : Bool} {d : Opnd} {w64 : Bool} {len : Nat} {kind : Piece → PeerKind} {x : Ctx}
    {ps : List Piece} (h : s.canonical) : (atomHere act uni d w64 len kind s x ps).canonical := h.startPend

theorem State.canonical.atomSem {p : Pred} {op : AtomOp} {nr w64 : Bool} {d a b : Opnd} {len : Nat} {x : Ctx} (h : s.canonical) :
    (atomSem p op nr w64 d a b len s x).canonical := by
  cases nr with
  | true => exact h.access fun _ _ _ ht => ht.reduceHere
  | false => exact h.access fun _ _ _ ht => ht.atomHere

theorem State.canonical.casSem {p : Pred} {w64 : Bool} {d a b c : Opnd} {len : Nat} {x : Ctx} (h : s.canonical) :
    (casSem p w64 d a b c len s x).canonical := by
  unfold Machine.casSem
  exact h.access fun _ _ _ ht => ht.atomHere

theorem State.canonical.ownGranule {x : Ctx} {line : Nat} (h : s.canonical) : (s.ownGranule x line).canonical := by
  unfold State.ownGranule
  split
  next id u heq =>
  have hu : u.canonical := by
    split at heq
    · exact canonical_of_eq heq h
    · exact canonical_of_eq heq h.keep
  have hr : (u.requestOwn id).2.canonical := hu.requestOwn
  exact canonical_ite hu (canonical_ite hr.keep hr.keep)

theorem State.canonical.spAtom {x : Ctx} {w64 : Bool} {p : Piece} {new : DWord → Option DWord} (h : s.canonical) :
    (s.spAtom x w64 p new).2.canonical := by
  unfold State.spAtom
  extract_lets n old t
  split
  · exact h.readLine
  · exact h.readLine.storePiece

theorem State.canonical.spAtoms {x : Ctx} {w64 : Bool} {new : Nat → DWord → Option DWord} {ps : List Piece} (h : s.canonical) :
    (State.spAtoms x w64 new ps s).2.canonical := by
  induction ps generalizing s with
  | nil => exact h
  | cons p ps ih => exact ih h.spAtom

theorem State.canonical.spAtomHere {act : Word} {uni : Bool} {d : Opnd} {w64 : Bool} {new : Nat → DWord → Option DWord} {x : Ctx}
    {ps : List Piece} (h : s.canonical) : (spAtomHere act uni d w64 new s x ps).canonical := by
  unfold Machine.spAtomHere
  extract_lets lines need t x u x val
  have ht : t.canonical := canonical_ite h (h.foldl (fun _ _ hv => hv.ownGranule))
  split
  · exact h
  split
  · exact ht
  split
  · exact ht
  split
  · exact ht.keep
  exact Done.canonical_ite ht.spAtoms ht.spAtoms.upd

theorem State.canonical.atomsSem {p : Pred} {op : AtomOp} {w64 : Bool} {d a b : Opnd} {len : Nat} {x : Ctx} (h : s.canonical) :
    (atomsSem p op w64 d a b len s x).canonical := by
  unfold Machine.atomsSem
  exact h.access fun _ _ _ ht => ht.spAtomHere

theorem State.canonical.cassSem {p : Pred} {w64 : Bool} {d a b c : Opnd} {len : Nat} {x : Ctx} (h : s.canonical) :
    (cassSem p w64 d a b c len s x).canonical := by
  unfold Machine.cassSem
  exact h.access fun _ _ _ ht => ht.spAtomHere

theorem State.canonical.waitLane {x : Ctx} {cond : Cond} {t : TypeCode} {l a : Nat} {b : DWord} (h : s.canonical) :
    (s.waitLane x cond t l a b).2.canonical := by
  unfold State.waitLane
  extract_lets v b m
  split
  · exact h
  split
  · exact h.keep
  exact canonical_ite_2 h.keep h

theorem State.canonical.waitLanes {x : Ctx} {cond : Cond} {t : TypeCode} {b : Nat → DWord} {ps : List Piece} (h : s.canonical) :
    (State.waitLanes x cond t b ps s).2.canonical := by
  induction ps generalizing s with
  | nil => exact h
  | cons p ps ih => exact ih h.waitLane

theorem State.canonical.waitcDone {x : Ctx} {act : Word} {uni : Bool} {t : TypeCode} {d c : Opnd} {ls : List (Nat × LaneWait)}
    (h : s.canonical) : (waitcDone s x act uni t d c ls).canonical := h.keep

theorem State.canonical.monReady_ok {x : Ctx} {act : Word} {uni : Bool} {ps : List Piece} (h : s.canonical)
    (e : s.monReady x act uni ps = .ok t) : t.canonical := by
  unfold State.monReady at e
  split at e
  · nomatch e
  split at e
  · nomatch e
  · exact Except.ok.inj e ▸ h.foldl fun _ _ ht => ht.homeRead

theorem State.canonical.monReady_error {x : Ctx} {act : Word} {uni : Bool} {ps : List Piece} {d : Done} (h : s.canonical)
    (e : s.monReady x act uni ps = .error d) : d.canonical := by
  unfold State.monReady at e
  split at e
  · exact Except.error.inj e ▸ h
  split at e
  · exact Except.error.inj e ▸ h.sawPoison
  · nomatch e

theorem State.canonical.waitcSem {p : Pred} {cond : Cond} {t : TypeCode} {d a b c : Opnd} {x : Ctx} (h : s.canonical) :
    (waitcSem p cond t d a b c s x).canonical := by
  unfold Machine.waitcSem
  extract_lets os uni act es
  split
  · exact Done.canonical_ite h h.keep.waitcDone
  refine h.access fun t _ _ ht => ?_
  split
  next e heq => exact ht.monReady_error heq
  next u heq =>
    have hu : u.canonical := ht.monReady_ok heq
    exact Done.canonical_ite hu.waitLanes.upd hu.waitLanes.waitcDone

theorem State.canonical.disarm {co g : Nat} (h : s.canonical) : (s.disarm co g).canonical := by
  unfold State.disarm
  extract_lets t
  have ht : t.canonical := by
    unfold t
    split
    · split
      · exact h.keep
      · exact h
    · exact h
  exact ht.keep

theorem State.canonical.arm {x : Ctx} {cond : Cond} {t : TypeCode} {b : DWord} {a : Nat} (h : s.canonical) :
    (s.arm x cond t b a).canonical := by
  unfold State.arm
  extract_lets t v m
  refine State.canonical.upd (s := (if m.holds v then _ else _ : _ × State).2) ?_
  exact canonical_ite_2 h.disarm (canonical_ite_2 h.disarm.upd h.disarm)

theorem State.canonical.armcSem {p : Pred} {cond : Cond} {t : TypeCode} {d a b : Opnd} {x : Ctx} (h : s.canonical) :
    (armcSem p cond t d a b s x).canonical := by
  unfold Machine.armcSem
  extract_lets act n es
  refine h.access fun t _ _ ht => ?_
  split
  next e heq => exact ht.monReady_error heq
  next u q _ heq => exact (ht.monReady_ok heq).arm.upd
  next u heq => exact ht.monReady_ok heq

end Sys2Proof.Machine
end

-- Proofs: canonical forms through the sequencer, copies and the matrix engine
section
/-!
PROOFS. Canonical forms through the sequencer, copies and the matrix engine (R75, R206).
-/
namespace Sys2Proof.Machine

-- One declaration after another, which keeps the compile within its memory.
set_option Elab.async false

variable {s t : State}

/-! The sequencer's instructions -/

theorem State.canonical.nopSem {x1 : Ctx} (h : s.canonical) : (nopSem s x1).canonical := h

theorem State.canonical.yieldSem {x : Ctx} (h : s.canonical) : (yieldSem s x).canonical := h.keep

theorem State.canonical.exitSem {p : Pred} {x : Ctx} (h : s.canonical) : (exitSem p s x).canonical := h.keep

theorem State.canonical.getidSem {p : Pred} {d : Opnd} {i : IdCode} {x : Ctx} (h : s.canonical) : (getidSem p d i s x).canonical := h.keep

theorem State.canonical.timeSem {p : Pred} {d : Opnd} {x : Ctx} (h : s.canonical) : (timeSem p d s x).canonical := h.keep

theorem State.canonical.transfer {p : Pred} {len : Nat} {vs : QMask} {t : DWord} {entry0 indirect : Bool} {w : View → View} {x : Ctx}
    (h : s.canonical) : (transfer p len vs t entry0 indirect w s x).canonical := by
  unfold Machine.transfer
  refine Done.canonical_ite h ?_
  refine Done.canonical_ite h ?_
  extract_lets t u
  refine Done.canonical_ite h.checkTarget ?_
  split
  · exact h.checkTarget
  · exact h.checkTarget
  · split <;> exact h.checkTarget.upd.upd.upd

theorem State.canonical.braSem {p : Pred} {x : Ctx} (h : s.canonical) : (braSem p s x).canonical := h.transfer

theorem State.canonical.brcSem {p : Pred} {a : Opnd} {all neg : Bool} {x : Ctx} (h : s.canonical) : (brcSem p a all neg s x).canonical :=
  h.transfer

theorem State.canonical.callSem {p : Pred} {d : Opnd} {x : Ctx} (h : s.canonical) : (callSem p d s x).canonical := h.transfer

theorem State.canonical.callxSem {p : Pred} {d a : Opnd} {x : Ctx} (h : s.canonical) : (callxSem p d a s x).canonical := h.transfer

theorem State.canonical.jumpSem {p : Pred} {a : Opnd} {x : Ctx} (h : s.canonical) : (jumpSem p a s x).canonical := h.transfer

theorem State.canonical.loopSem {d : Opnd} {x : Ctx} (h : s.canonical) : (loopSem d s x).canonical := Done.canonical_ite h.keep h.transfer

theorem State.canonical.regangSem {len : Nat} {a : Opnd} {x : Ctx} (h : s.canonical) : (regangSem len a s x).canonical := h.keep

theorem State.canonical.barSem {a : Opnd} {x : Ctx} (h : s.canonical) : (barSem a s x).canonical := by
  unfold Machine.barSem
  extract_lets imm u k done t
  split
  · split <;> exact h
  · split <;> exact h.keep

theorem State.canonical.waiteSem {a : Opnd} {cls : EngClass} {x : Ctx} (h : s.canonical) : (waiteSem a cls s x).canonical :=
  Done.canonical_ite h (Done.canonical_ite h.keep h)

theorem State.canonical.rclaimSem {x : Ctx} (h : s.canonical) : (rclaimSem s x).canonical := by
  unfold Machine.rclaimSem
  extract_lets n cl t
  split
  · exact h.keep
  exact Done.canonical_ite h.keep (Done.canonical_ite h h.keep)

theorem State.canonical.rreleaseSem {x : Ctx} (h : s.canonical) : (rreleaseSem s x).canonical := Done.canonical_ite h h.keep

/-! The copy engine and COPY -/

theorem State.canonical.sync {own : Nat} {a : Option SAddr} {f : SyncWord → SyncWord} (h : s.canonical) : (s.sync own a f).canonical := by
  unfold State.sync
  split
  · exact h
  · exact h.engRead.engWrite

theorem State.canonical.endCopy {o : CopyOp} (h : s.canonical) : (s.endCopy o).canonical := h.upd.tryEndCohort.upd

theorem State.canonical.abortCopy {o : CopyOp} {reason addr : Nat} (h : s.canonical) : (s.abortCopy o reason addr).canonical := by
  unfold State.abortCopy
  extract_lets upd t u v
  have ht : t.canonical := by
    unfold t
    split
    · exact h.foldl fun _ _ hw => hw.sync
    · exact h.sync
  have hu : u.canonical := canonical_ite ht.keep ht
  have hv : v.canonical := canonical_ite hu.keep hu
  exact hv.copyRecord.endCopy

theorem State.canonical.tableRead {o : CopyOp} {va n : Nat} {k : State → List Byte → Turn} (h : s.canonical)
    (hk : ∀ u a, u.canonical → (k u a).canonical) : (s.tableRead o va n k).canonical := by
  unfold State.tableRead
  extract_lets t
  split
  · exact h.spot
  · exact h.spot
  extract_lets u
  split
  · exact h.spot.engRead
  · exact hk _ _ h.spot.engRead

theorem State.canonical.tableWrite {o : CopyOp} {va : Nat} {bs : List Byte} {k : State → Turn} (h : s.canonical)
    (hk : ∀ u, u.canonical → (k u).canonical) : (s.tableWrite o va bs k).canonical := by
  unfold State.tableWrite
  extract_lets t
  split
  · exact h.spot
  · exact h.spot
  · exact hk _ h.spot.setDirty.engWrite

theorem State.canonical.lineRead {o : CopyOp} {line : Nat} {cores : List Nat} (h : s.canonical) :
    (s.lineRead o line cores).2.canonical := by
  unfold State.lineRead
  split
  · exact h.keep
  · exact h.engRead.struck

theorem State.canonical.plan {o : CopyOp} {join : Bool} {fuel : Nat} {e : CopyEnd} {idx n : Nat} {k : State → List SrcPlan → Turn}
    (h : s.canonical) (hk : ∀ t l, t.canonical → (k t l).canonical) : (State.plan o join fuel e idx n s k).canonical := by
  induction fuel generalizing s e idx n k with
  | zero => exact hk _ _ h
  | succ f ih =>
    refine Turn.canonical_ite (hk _ _ h) ?_
    extract_lets m next
    cases (if join then assocGet _ _ else none) with
    | some r => exact ih h fun _ _ ht => hk _ _ ht
    | none =>
      refine Turn.canonical_ite (d := .idle s) h ?_
      rename_i r
      have hr : r.2.canonical := h.spot
      cases r.1 with
      | wait => exact hr
      | abort c => exact hr
      | at_ a p m =>
        cases p with
        | none => exact ih hr fun _ _ ht => hk _ _ ht
        | some p => exact ih hr fun _ _ ht => hk _ _ ht

theorem State.canonical.readPlan {o : CopyOp} {cores : List Nat} {ps : List SrcPlan} (h : s.canonical) :
    (State.readPlan o cores ps s).2.canonical := by
  induction ps generalizing s with
  | nil => exact h
  | cons p ps ih =>
    cases p with
    | got r lo n => exact ih h
    | peer p a n => exact ih h
    | line a n => exact ih h.lineRead

theorem State.canonical.sources {o : CopyOp} {cores : List Nat} {join : Bool} {fuel : Nat} {e : CopyEnd} {idx n : Nat}
    {k : State → List Src → Turn} (h : s.canonical) (hk : ∀ u a, u.canonical → (k u a).canonical) :
    (s.sources o cores join fuel e idx n k).canonical := h.plan fun _ _ ht => hk _ _ ht.readPlan

theorem State.canonical.launch {o : CopyOp} {ps : List Src} {f : Flight} {upd : CopyOp → CopyOp} (h : s.canonical) :
    (s.launch o ps f upd).canonical := canonical_ite (canonical_ite h.keep h.keep) (h.upd.foldl (fun _ _ ht => ht.keep.issueReq))

theorem State.canonical.chunkTo {o : CopyOp} {dst : CopyEnd} {len : Nat} {counts : Bool} {k : State → Flight → Turn} (h : s.canonical)
    (hk : ∀ u a, u.canonical → (k u a).canonical) : (s.chunkTo o dst len counts k).canonical := by
  unfold State.chunkTo
  extract_lets t
  split
  · exact h.spot
  · exact h.spot
  · exact hk _ _ h.spot

theorem State.canonical.rowChunk {o : CopyOp} {rb : Nat} {ss ds : Int} (h : s.canonical) : (s.rowChunk o rb ss ds).canonical := by
  unfold State.rowChunk
  refine Turn.canonical_ite h ?_
  refine State.canonical.chunkTo h fun t _ ht => ?_
  split
  · exact ht.keep
  · exact ht.sources fun _ _ hu => hu.launch

theorem State.canonical.issueRows {o : CopyOp} {rb : Nat} {ss ds : Int} (h : s.canonical) : (s.issueRows o rb ss ds).canonical := by
  unfold State.issueRows
  split
  · exact h.rowChunk
  split
  · exact h
  · exact h.keep.rowChunk

theorem State.canonical.readPool {o : CopyOp} {a : DWord} (h : s.canonical) : (s.readPool o a).canonical :=
  h.tableRead fun _ _ ht => Turn.canonical_ite ht.keep ht

theorem State.canonical.issueGather {o : CopyOp} {pa : DWord} {off n : Nat} (h : s.canonical) : (s.issueGather o pa off n).canonical := by
  unfold State.issueGather
  split
  · exact h.readPool
  refine Turn.canonical_ite h ?_
  exact Turn.canonical_ite (h.tableRead (fun _ _ ht => Turn.canonical_ite ht ht.keep))
    (h.chunkTo (fun _ _ ht => ht.sources (fun _ _ hu => hu.launch)))

theorem State.canonical.takeChunk {o : CopyOp} {off n : Nat} (h : s.canonical) : (s.takeChunk o off n).canonical :=
  Turn.canonical_ite h.keep (h.sources (fun _ _ ht => ht.keep))

theorem State.canonical.blockChunk {o : CopyOp} {p : Pool} {off : Nat} (h : s.canonical) : (s.blockChunk o p off).canonical := by
  unfold State.blockChunk
  refine Turn.canonical_ite h.keep ?_
  extract_lets d len
  refine State.canonical.chunkTo h fun t _ ht => ?_
  split
  · exact ht.keep
  · exact ht.sources fun _ _ hu => hu.launch

theorem State.canonical.issueAppend {o : CopyOp} {pa : DWord} {off n : Nat} (h : s.canonical) : (s.issueAppend o pa off n).canonical := by
  unfold State.issueAppend
  split
  · exact h.readPool
  extract_lets bs log upd first entryAt k len a
  refine Turn.canonical_ite h ?_
  split
  · refine Turn.canonical_ite h ?_
    split
    · split
      · exact h
      · exact h.keep
    · exact h.tableRead fun _ _ ht => Turn.canonical_ite (Turn.canonical_ite ht ht.keep)
        (Turn.canonical_ite ht (ht.tableRead (fun _ _ hu => Turn.canonical_ite hu.keep hu.keep)))
  · exact h.tableRead fun _ _ ht => Turn.canonical_ite ht (ht.tableWrite (fun _ hu => hu.keep))
  · exact h.tableRead fun _ _ ht => Turn.canonical_ite ht ht.keep
  · exact Turn.canonical_ite h.keep (h.chunkTo fun _ _ ht => ht.sources (fun _ _ hu => hu.launch))
  · exact h.takeChunk
  · split
    · exact h
    · exact h.keep.blockChunk
  · exact h.blockChunk
  · exact h.tableWrite fun _ ht => ht.keep
  · exact h.tableWrite fun _ ht => ht.keep
  · exact h.tableRead fun _ _ ht => ht.tableWrite (fun _ hu => hu.keep)

theorem State.canonical.readTargets {o : CopyOp} {n : Nat} {wb : Bool} {off : Nat} {is : List Nat}
    {k : State → List (Option Target) → Turn} (h : s.canonical) (hk : ∀ t l, t.canonical → (k t l).canonical) :
    (State.readTargets o n wb off is s k).canonical := by
  induction is generalizing s k with
  | nil => exact hk _ _ h
  | cons i is ih => exact h.tableRead fun _ _ ht => ih ht fun _ _ hu => hk _ _ hu

theorem State.canonical.issueCast {o : CopyOp} {mask : Word} {n : Nat} {wb : Bool} {off : Nat} (h : s.canonical) :
    (s.issueCast o mask n wb off).canonical := by
  unfold State.issueCast
  extract_lets used e len idx
  split
  · refine Turn.canonical_ite h ?_
    refine State.canonical.readTargets h fun t _ ht => ?_
    extract_lets ts u join
    have hu : u.canonical := ht.foldl fun _ _ hv => hv.copyRecord
    exact hu.keep
  exact Turn.canonical_ite h (h.sources fun _ _ ht => ht.launch)

theorem State.canonical.issueOp {o : CopyOp} (h : s.canonical) : (s.issueOp o).canonical := by
  unfold State.issueOp
  split
  · exact h.issueRows
  · exact h.issueRows
  · exact h.issueGather
  · exact h.issueAppend
  · exact h.issueCast

theorem State.canonical.tryEndCopy {id : Nat} (h : s.canonical) : (s.tryEndCopy id).canonical := by
  unfold State.tryEndCopy
  split
  · exact h
  exact canonical_ite h.endCopy h.keep

theorem State.canonical.serveCopy {core : Nat} {os : List CopyOp} (h : s.canonical) : (State.serveCopy core os s).canonical := by
  induction os generalizing s with
  | nil => exact h
  | cons o os ih =>
    have ho : (s.issueOp o).canonical := h.issueOp
    conv => arg 1; whnf
    revert ho
    cases s.issueOp o with
    | idle t => exact fun ht => ih ht
    | did t => exact fun ht => ht.upd.tryEndCopy
    | stop t r a => exact fun ht => ht.upd.abortCopy

theorem State.canonical.copyIssue {core : Nat} (h : s.canonical) : (s.copyIssue core).canonical := h.serveCopy

theorem State.canonical.writeChunk {own a : Nat} {bs : List Byte} {side : Option Side} {bad : Option Nat} (h : s.canonical) :
    (s.writeChunk own a bs side bad).canonical := by
  unfold State.writeChunk
  refine State.canonical.foldl h fun t _ ht => ?_
  extract_lets u
  split
  · exact ht.engWrite.setBad
  · exact ht.engWrite

theorem State.canonical.copyPoison {o : CopyOp} {bad : Option Nat} (h : s.canonical) : (s.copyPoison o bad).canonical := by
  unfold State.copyPoison
  split
  · exact h
  · exact h.keep.copyRecord

theorem State.canonical.castLine {o : CopyOp} {f : Flight} {ts : List Target} (h : s.canonical) : (State.castLine o f ts s).canonical := by
  induction ts generalizing s with
  | nil => exact h
  | cons t ts ih => exact canonical_ite (ih h.writeChunk.sync) (ih h.keep.copyRecord)

theorem State.canonical.handJoiners {o : CopyOp} {f : Flight} (h : s.canonical) : (s.handJoiners o f).canonical := by
  unfold State.handJoiners
  extract_lets idx joins js __src
  split
  · exact h
  extract_lets take t u
  have hu : u.canonical := h.keep.foldl fun _ _ hv => hv.keep
  exact hu.keep

theorem State.canonical.chunkHere {o : CopyOp} {f : Flight} (h : s.canonical) : (s.chunkHere o f).canonical := by
  unfold State.chunkHere
  extract_lets t u
  have hu : u.canonical := canonical_ite h.setDirty.writeChunk.sync h.setDirty.writeChunk
  exact hu.keep

theorem State.canonical.copyData {id : Nat} (h : s.canonical) : (s.copyData id).canonical := by
  unfold State.copyData
  split
  · exact h
  split
  · exact h
  refine canonical_ite h ?_
  extract_lets t u v w
  split
  · exact h.copyPoison.upd.castLine.handJoiners.upd.tryEndCopy
  · exact h.copyPoison.upd.setDirty.upd.issueReq
  exact canonical_ite h.copyPoison.upd.chunkHere.tryEndCopy h.copyPoison.upd.chunkHere.upd

theorem State.canonical.copyAnswered {id : Nat} (h : s.canonical) : (s.copyAnswered id).canonical := by
  unfold State.copyAnswered
  extract_lets qs t bad side
  split
  · exact h.keep
  refine canonical_ite h.abortCopy ?_
  refine canonical_ite h.abortCopy ?_
  refine canonical_ite h ?_
  split
  · exact h.keep
  split
  · extract_lets u v
    have hu : u.canonical := canonical_ite h.keep.sync h.keep
    exact canonical_ite hu.keep.tryEndCopy hu.keep
  extract_lets u v data
  have hv : v.canonical := canonical_ite h.keep.takeBytes h.keep
  exact hv.keep

theorem State.canonical.bufferCmd {x : Ctx} {b : CmdBody} (h : s.canonical) : (s.bufferCmd x b).canonical :=
  canonical_ite h.keep.passCmd h.keep

theorem State.canonical.checkRanges {x : Ctx} {rs : List CopyRange} (h : s.canonical) : (State.checkRanges x rs s).2.canonical := by
  induction rs generalizing s with
  | nil => exact h
  | cons r rs ih =>
    conv => arg 1; arg 1; whnf
    cases (s.translate _ _ _ _ _ _ _).1 with
    | wait => exact h.translate
    | fault f => exact h.translate
    | ok y =>
      dsimp -zeta only
      extract_lets k
      have hk : k.2.canonical := ih h.translate
      rcases k.1 with _ | _ | l
      · exact hk
      · exact hk
      · exact canonical_ite_2 hk hk

theorem State.canonical.copySem {p : Pred} {ask : Ctx → CopyAsk} {x : Ctx} (h : s.canonical) : (copySem p ask s x).canonical := by
  unfold Machine.copySem
  extract_lets act a bad t rs u
  refine Done.canonical_ite h ?_
  refine Done.canonical_ite h ?_
  split
  · exact h
  refine Done.canonical_ite h.takeFree ?_
  split
  · exact h
  split
  · exact h
  split
  · exact h
  refine Done.canonical_ite h.checkRanges ?_
  split
  · exact h.checkRanges
  · exact h.checkRanges
  extract_lets n
  refine Done.canonical_ite h.checkRanges.bufferCmd ?_
  refine Done.canonical_ite h.checkRanges ?_
  split
  · exact h.checkRanges.upd
  next v heq =>
    have hv : v.canonical := h.checkRanges.settle _ heq
    exact hv.bufferCmd

theorem State.canonical.cpySem {p : Pred} {zd : DSp} {zs : SSp} {d a b c : Opnd} {x : Ctx} (h : s.canonical) :
    (cpySem p zd zs d a b c s x).canonical := h.copySem

theorem State.canonical.cpysSem {p : Pred} {zd : DSp} {zs : SSp} {d a b c : Opnd} {x : Ctx} (h : s.canonical) :
    (cpysSem p zd zs d a b c s x).canonical := h.copySem

theorem State.canonical.cpyfSem {p : Pred} {zd : DSp} {code : Nat} {d a b c : Opnd} {x : Ctx} (h : s.canonical) :
    (cpyfSem p zd code d a b c s x).canonical := h.copySem

theorem State.canonical.cpygSem {p : Pred} {zd : DSp} {d a b c : Opnd} {x : Ctx} (h : s.canonical) : (cpygSem p zd d a b c s x).canonical :=
  h.copySem

theorem State.canonical.cpytSem {p : Pred} {zs : SSp} {d a b c : Opnd} {x : Ctx} (h : s.canonical) : (cpytSem p zs d a b c s x).canonical :=
  h.copySem

theorem State.canonical.cpymSem {p : Pred} {zd : DSp} {d a b : Opnd} {x : Ctx} (h : s.canonical) : (cpymSem p zd d a b s x).canonical :=
  h.copySem

theorem State.canonical.swCheck {p : Pred} {a : Opnd} {k : State → Ctx → Nat → Done} {x : Ctx} (h : s.canonical)
    (hk : ∀ u a b, u.canonical → (k u a b).canonical) : (swCheck p a k s x).canonical := by
  unfold Machine.swCheck
  extract_lets act off
  split
  · exact h
  split
  · exact h
  · exact hk _ _ _ h

theorem State.canonical.swinitSem {p : Pred} {a b : Opnd} {x : Ctx} (h : s.canonical) : (swinitSem p a b s x).canonical :=
  h.swCheck fun _ _ _ ht => ht.storeHere

theorem State.canonical.swwaitSem {p : Pred} {d a b : Opnd} {x : Ctx} (h : s.canonical) : (swwaitSem p d a b s x).canonical := by
  unfold Machine.swwaitSem
  exact h.swCheck fun _ _ _ ht => Done.canonical_ite (ht.readHere (fun _ _ _ hu => hu.keep)) ht

/-! Steps without an encoding -/

theorem State.canonical.event {f : State → State} (h : s.canonical) (hf : ∀ u, u.canonical → (f u).canonical) :
    Out.canonical (event f s) := by
  unfold Machine.event
  split
  · exact h
  · exact hf _ h

/-! A write of sidebands -/

theorem State.canonical.tagsetSem {p : Pred} {d a : Opnd} {x : Ctx} (h : s.canonical) : (tagsetSem p d a s x).canonical := by
  unfold Machine.tagsetSem
  extract_lets act w
  split
  · exact h
  split
  · exact h
  split
  · exact h.keep
  · exact h

/-! The matrix engine and MATRIX -/

theorem State.canonical.loadTile {core : Nat} {a : SAddr} (h : s.canonical) : (s.loadTile core a).2.canonical := h.engRead.upd

theorem State.canonical.endMatrix {o : MatOp} (h : s.canonical) : (s.endMatrix o).canonical := h.upd.tryEndCohort.upd

theorem State.canonical.matrixStart {core : Nat} (h : s.canonical) : (s.matrixStart core).canonical := by
  unfold State.matrixStart
  split
  · exact h
  refine canonical_ite h ?_
  extract_lets loads loads t u
  have ht : t.2.canonical := canonical_ite_2 h.loadTile h
  have hu : u.2.canonical := canonical_ite_2 ht.loadTile ht
  split <;> exact hu.keep

theorem State.canonical.abRow {a : Nat} (h : s.canonical) : (s.abRow a).2.2.canonical := h.engRead (own := 63) (a := a) (n := 512)

theorem State.canonical.matrixRow {o : MatOp} {core at_ : Nat} (h : s.canonical) : (s.matrixRow o core at_).2.2.canonical := by
  unfold State.matrixRow
  split <;> dsimp only
  · split
    · exact h
    · exact h.abRow
  · exact h
  · exact h.abRow
  · exact h.abRow.abRow

theorem State.canonical.matrixEntry {core : Nat} (h : s.canonical) : (s.matrixEntry core).canonical := by
  unfold State.matrixEntry
  split
  · exact h
  refine canonical_ite h ?_
  extract_lets t
  split <;> exact h.matrixRow.upd

theorem State.canonical.matrixNext {o : MatOp} (h : s.canonical) : (s.matrixNext o).canonical := canonical_ite h.keep.endMatrix h.keep

theorem State.canonical.matrixWrite {core : Nat} (h : s.canonical) : (s.matrixWrite core).canonical := by
  unfold State.matrixWrite
  split
  · exact h
  split
  · exact h
  extract_lets t u
  split
  · split
    · exact h.engWrite.matrixRow.upd
    · exact h.engWrite.matrixRow.engWrite.matrixNext
  · exact h.engWrite.matrixNext

theorem State.canonical.matSem {p : Pred} {k : State → Ctx → Word → Done} {x : Ctx} (h : s.canonical)
    (hk : ∀ u a b, u.canonical → (k u a b).canonical) : (matSem p k s x).canonical :=
  Done.canonical_ite h (Done.canonical_ite h (hk _ _ _ h))

theorem State.canonical.issueMat {x : Ctx} {c : MatCmd} (h : s.canonical) : (s.issueMat x c).canonical := h.bufferCmd

theorem State.canonical.teamOf {x : Ctx} {team : Bool} {act : Word} {k : Option Cohort → Done} (h : s.canonical)
    (hk : ∀ a, (k a).canonical) : (s.teamOf x team act k).canonical := by
  unfold State.teamOf
  split
  · exact hk _
  split
  · exact h
  split
  · exact h
  · exact hk _

theorem State.canonical.rangeFault {rs : List MatRange} {act : Word} {d : Done} (h : s.canonical) (e : rangeFault rs act s = some d) :
    d.canonical := by
  unfold Machine.rangeFault at e
  split at e
  · exact Option.some.inj e ▸ h
  obtain ⟨r, -, rfl⟩ := Option.map_eq_some_iff.mp e
  exact h

theorem State.canonical.mmaGo {x : Ctx} {act : Word} {reuse : Bool} {a : Opnd} {m : Nat} {rs : List MatRange} {rows : List VReg}
    {codes : List Nat} {k : TypeCode → TypeCode → Done} (h : s.canonical) (hk : ∀ f g, (k f g).canonical) :
    (s.mmaGo x act reuse a m rs rows codes k).canonical := by
  unfold State.mmaGo
  refine Done.canonical_ite h ?_
  refine Done.canonical_ite h ?_
  split
  next d heq => exact h.rangeFault heq
  split
  · exact h
  split
  · exact h
  split
  · exact hk _ _
  · exact h

theorem State.canonical.mmaSem {p : Pred} {m : Nat} {reuse z pair : Bool} {d a b : Opnd} {x : Ctx} (h : s.canonical) :
    (mmaSem p m reuse z pair d a b s x).canonical :=
  h.matSem fun _ _ _ ht => Done.canonical_ite ht (ht.teamOf fun _ => ht.mmaGo fun _ _ => ht.keep.issueMat)

theorem State.canonical.mclrSem {p : Pred} {m : Nat} {d : Opnd} {x : Ctx} (h : s.canonical) : (mclrSem p m d s x).canonical := by
  unfold Machine.mclrSem
  refine h.matSem fun t _ _ ht => ?_
  extract_lets
  split
  next d heq => exact ht.rangeFault heq
  next => exact ht.issueMat

theorem State.canonical.mcvtSem {p : Pred} {m : Nat} {ty : TypeCode} {d a b : Opnd} {x : Ctx} (h : s.canonical) :
    (mcvtSem p m ty d a b s x).canonical := by
  unfold Machine.mcvtSem
  refine h.matSem fun t _ _ ht => ?_
  extract_lets
  split
  next d heq => exact ht.rangeFault heq
  next => exact ht.issueMat

theorem State.canonical.maccSem {p : Pred} {m : Nat} {team : Bool} {d a : Opnd} {x : Ctx} (h : s.canonical) :
    (maccSem p m team d a s x).canonical := by
  unfold Machine.maccSem
  refine h.matSem fun t _ _ ht => ht.teamOf fun q => ?_
  extract_lets
  split
  next d heq => exact ht.rangeFault heq
  next => exact ht.issueMat

theorem State.canonical.mrelSem {p : Pred} {x : Ctx} (h : s.canonical) : (mrelSem p s x).canonical := Done.canonical_ite h.keep h

end Sys2Proof.Machine
end

-- Proofs: canonical forms through system instructions and the stage engine
section
/-!
PROOFS. Canonical forms through system instructions and the stage engine (R75, R206).
-/
namespace Sys2Proof.Machine

-- One declaration after another, which keeps the compile within its memory.
set_option Elab.async false

variable {s t : State}

/-! Loads and stores that an instruction makes for itself -/

theorem State.canonical.directDone {n : Nat} {act : Word} {k : State → Ctx → List Byte → Done} {x : Ctx} (h : s.canonical)
    (hk : ∀ u a b, u.canonical → (k u a b).canonical) : (directDone n act k s x).canonical := by
  unfold Machine.directDone
  extract_lets pid t qs u
  split
  · exact h.advance
  split
  · exact h.advance.upd
  · exact hk _ _ _ h.advance.upd

theorem State.canonical.directGo {ring : Ring} {noIo : Bool} {len : Nat} {va : DWord} {n : Nat} {act : Word} {how : How}
    {kind : Piece → PeerKind} {here : State → Ctx → List Piece → Done} {k : State → Ctx → List Byte → Done} {x : Ctx} (h : s.canonical)
    (hhere : ∀ t y ps, t.canonical → (here t y ps).canonical) (hk : ∀ t y bs, t.canonical → (k t y bs).canonical) :
    (directGo ring noIo len va n act how kind here k s x).canonical := by
  unfold Machine.directGo
  refine Done.canonical_ite (h.directDone hk) ?_
  extract_lets y r
  have hr : r.2.canonical := h.checkElems
  refine Done.canonical_ite hr ?_
  refine Done.canonical_ite hr ?_
  split
  · exact hr
  refine Done.canonical_ite hr ?_
  split
  · have hp : (r.2.startPend y ⟨.raw, len, true, act⟩ (r.1.ok.map fun p => (p, kind p))).canonical := hr.startPend
    split
    next t w heq => exact (hp.of_stall heq).directDone hk
    next => exact hp
  · exact hhere _ _ _ hr

theorem State.canonical.directLoad {ring : Ring} {noIo : Bool} {len : Nat} {va : DWord} {n : Nat} {act : Word}
    {k : State → Ctx → List Byte → Done} {x : Ctx} (h : s.canonical) (hk : ∀ t y bs, t.canonical → (k t y bs).canonical) :
    (directLoad ring noIo len va n act k s x).canonical := h.directGo (fun _ _ _ ht => ht.readHere fun _ _ _ hu => hk _ _ _ hu.keep) hk

theorem State.canonical.directStore {ring : Ring} {len : Nat} {va : DWord} {bs : List Byte} {act : Word} {k : State → Ctx → Done}
    {x : Ctx} (h : s.canonical) (hk : ∀ t y, t.canonical → (k t y).canonical) : (directStore ring len va bs act k s x).canonical := by
  unfold Machine.directStore
  refine h.directGo (fun t _ _ ht => ?_) fun t y _ ht => hk t y ht
  exact Done.canonical_ite ht (hk _ _ (ht.foldl fun _ _ hu => hu.setDirty.homeWrite))

theorem State.canonical.answer {x : Ctx} {p : Pred} {d : Opnd} {n : Nat} (h : s.canonical) : (s.answer x p d n).canonical := h.keep

/-! SYS -/

theorem State.canonical.checkEpcs {x : Ctx} {f : Frame} {ring : Ring} {qs : List Nat} (h : s.canonical) :
    (State.checkEpcs x f ring qs s).2.canonical := by
  induction qs generalizing s with
  | nil => exact h
  | cons q qs ih =>
    conv => arg 1; arg 1; whnf
    cases (s.checkTarget _ _ _ _ _ _ _).1 with
    | wait => exact h.checkTarget
    | fault f => exact h.checkTarget
    | ok y =>
      dsimp -zeta only
      extract_lets r
      have hr : r.2.canonical := ih h.checkTarget
      cases r.1 <;> exact hr

theorem State.canonical.returned {x : Ctx} {park : Bool} {i : Nat} {f : Frame} {hs : List (Nat × DWord)} (h : s.canonical) :
    (s.returned x park i f hs).canonical := canonical_ite h.keep.park h.keep

theorem State.canonical.tretSem {park : Bool} {x : Ctx} (h : s.canonical) : (tretSem park s x).canonical := by
  unfold Machine.tretSem
  split
  extract_lets q ps ring r
  split
  · split
    · split
      · exact h.keep
      · exact h
    · exact h
  have hr : r.2.canonical := h.checkEpcs
  refine Done.canonical_ite hr ?_
  split
  · exact hr
  · exact hr
  · exact hr.returned

theorem State.canonical.callTrapSem {code : Nat} {a : Opnd} {s0 : State} {x : Ctx} (h : s0.canonical) (hs : s.canonical) :
    (callTrapSem code a s0 s x).canonical := by
  unfold Machine.callTrapSem
  extract_lets act info
  refine Done.canonical_ite hs ?_
  split
  · exact hs
  · exact h.rollback.monitorStop
  · exact h

theorem State.canonical.tfenceSem {x : Ctx} (h : s.canonical) : (tfenceSem s x).canonical := Done.canonical_ite h h

theorem State.canonical.status {x : Ctx} {d : Opnd} {n : Nat} (h : s.canonical) : (s.status x d n).canonical := h.keep

theorem State.canonical.gresumeSem {d a : Opnd} {x : Ctx} (h : s.canonical) : (gresumeSem d a s x).canonical := by
  unfold Machine.gresumeSem
  split
  · exact h.status
  exact Done.canonical_ite h.keep.status h.status

theorem State.canonical.tlbiSem {sc : TlbiScope} {s2 : Bool} {a b : Opnd} {x : Ctx} (h : s.canonical) : (tlbiSem sc s2 a b s x).canonical :=
  h.keep

theorem State.canonical.tlbsyncSem {x : Ctx} (h : s.canonical) : (tlbsyncSem s x).canonical := Done.canonical_ite h h.keep

/-! Register units, buffer ranges and the save area -/

theorem State.canonical.noteSec {sec : Nat} (h : s.canonical) : (s.noteSec sec).canonical := by
  unfold State.noteSec
  extract_lets now u rest
  have hu : u.canonical := by
    unfold u now
    split
    · exact h.keep
    · exact h
  exact canonical_ite h hu.keep

theorem State.canonical.noteSecs (h : s.canonical) : s.noteSecs.canonical := h.foldl fun _ _ ht => ht.noteSec

theorem State.canonical.walkNext {sec : Nat} (h : s.canonical) : (s.walkNext sec).canonical := by
  unfold State.walkNext
  split
  · exact h
  · exact h.keep.translate

theorem State.canonical.saveWrite {c : Cohort} {off : Nat} {bs : List Byte} {side : Side} {bad : Bool} (h : s.canonical) :
    (s.saveWrite c off bs side bad).canonical := by
  unfold State.saveWrite
  split
  · exact h
  · exact h.engPut

theorem State.canonical.saveRead {c : Cohort} {off n : Nat} (h : s.canonical) : (s.saveRead c off n).2.canonical := by
  unfold State.saveRead
  split
  · exact h.takeBytes
  · exact h.engRead

theorem State.canonical.evictTop {c : Cohort} {g : Gang} (h : s.canonical) : (s.evictTop c g).canonical := by
  unfold State.evictTop
  split
  · exact h
  · exact h.saveWrite.saveWrite.upd.upd.upd

theorem State.canonical.evict {part core sub n : Nat} (h : s.canonical) : (s.evict part core sub n).canonical := by
  induction n generalizing s with
  | zero => exact h
  | succ n ih =>
    conv => arg 1; whnf
    cases s.victim _ _ _ with
    | none => exact h
    | some q => exact ih h.evictTop

theorem State.canonical.takeUnits {part core sub n : Nat} {us : List Nat} (h : s.canonical)
    (e : s.takeUnits part core sub n = some (us, t)) : t.canonical := by
  unfold State.takeUnits at e
  extract_lets u l at e
  split at e
  · nomatch e
  · exact (Prod.mk.inj (Option.some.inj e)).2 ▸ h.evict

theorem State.canonical.fillOne {co g unit : Nat} (h : s.canonical) : (s.fillOne co g unit).canonical := by
  unfold State.fillOne
  split
  · split
    · exact h
    · exact h.saveRead.saveRead.upd.upd
  · exact h

theorem State.canonical.fillUnits {co g : Nat} {us : List Nat} (h : s.canonical) : (s.fillUnits co g us).canonical :=
  h.foldl fun _ _ ht => ht.fillOne

theorem State.canonical.spillBuf {co : Nat} {b : Buf} (h : s.canonical) : (s.spillBuf co b).canonical := by
  unfold State.spillBuf
  split
  · exact h
  extract_lets a t
  have ht : t.canonical := h.foldl fun _ _ hu => hu.engRead.saveWrite
  exact canonical_ite h ht.keep

theorem State.canonical.unspillBuf {co : Nat} {b : Buf} (h : s.canonical) : (s.unspillBuf co b).canonical := by
  unfold State.unspillBuf
  split
  · exact h
  extract_lets a t
  have ht : t.canonical := by
    unfold t
    refine State.canonical.foldl h fun u _ hu => ?_
    extract_lets off dst v
    split
    · exact hu.takeBytes.engWrite
    extract_lets w y
    split
    · exact hu.engRead.engWrite.setBad
    · exact hu.engRead.engWrite
  exact canonical_ite h ht.keep

theorem State.canonical.makeRoom {core : Nat} {b : Buf} {r : Alloc} (h : s.canonical) : (s.makeRoom core b r).canonical :=
  h.foldl fun _ _ ht => ht.spillBuf

theorem State.canonical.writeRecords {co : Nat} (h : s.canonical) : (s.writeRecords co).canonical := by
  unfold State.writeRecords
  split
  · exact h
  exact canonical_ite h (h.foldl fun _ _ ht => ht.takeBytes.saveWrite)

theorem State.canonical.readRecords {c : Cohort} (h : s.canonical) : (s.readRecords c).canonical :=
  canonical_ite h (h.foldl fun _ _ ht => ht.saveRead)

theorem State.canonical.haltInPlace {co : Nat} {idle : Bool} (h : s.canonical) : (s.haltInPlace co idle).canonical := by
  unfold State.haltInPlace
  split
  · exact h
  · exact h.keep.writeRecords

theorem State.canonical.refillGangs {co part core : Nat} {gs : List Gang} (h : s.canonical) :
    CanonicalSome (State.refillGangs co part core gs s) := by
  induction gs generalizing s with
  | nil => exact .some h
  | cons g gs ih =>
    refine CanonicalSome.ite .none ?_
    split
    · exact .none
    next us u heq => exact ih (h.takeUnits heq).fillUnits

theorem State.canonical.resumeOn {co core : Nat} (h : s.canonical) : CanonicalSome (s.resumeOn co core) := by
  unfold State.resumeOn
  split
  · extract_lets others clear t
    split
    · exact CanonicalSome.none
    refine CanonicalSome.ite CanonicalSome.none ?_
    split
    · exact CanonicalSome.none
    next u heq =>
      have hu : u.canonical := h.readRecords.upd.refillGangs _ heq
      exact CanonicalSome.some hu.unspillBuf.unspillBuf.unspillBuf.upd.upd
  · exact CanonicalSome.none

/-! The stage engine -/

theorem State.canonical.drainHeld {i n : Nat} (h : s.canonical) : (State.drainHeld i n s).canonical := by
  induction n generalizing s with
  | zero => exact h
  | succ n ih =>
    conv => arg 1; whnf
    cases s.mirror? i with
    | none => exact h
    | some m =>
    dsimp -zeta only
    refine canonical_ite (ih h.keep) ?_
    cases m.held.find? _ with
    | none => exact h
    | some a =>
    cases s.queue? _ with
    | none => exact h
    | some q =>
      refine canonical_ite (ih h.keep) (canonical_ite h ?_)
      extract_lets u v w
      have hu : u.canonical := h.foldl fun _ _ hy => canonical_getD hy hy.enqueueAs
      have hw : w.canonical := by
        unfold w
        split <;> exact hu.keep
      exact ih hw

theorem State.canonical.resumeLine {k : QKey} {n : Nat} (h : s.canonical) : (s.resumeLine k n).canonical := by
  induction n generalizing s with
  | zero => exact h
  | succ n ih =>
    conv => arg 1; whnf
    cases s.queue? k with
    | none => exact h
    | some q =>
    dsimp -zeta only
    rcases q.line with _ | ⟨_ | bs, rest⟩
    · exact h.foldl fun _ _ ht => ht.drainHeld
    · exact h.keep
    refine canonical_ite h ?_
    extract_lets u v
    have hv : v.canonical := by
      unfold v
      split
      next w heq => exact State.canonical.enqueue (s := u) h.keep _ heq
      next => exact h.keep
    exact ih hv.wakeHost

theorem State.canonical.roomResume {k : QKey} (h : s.canonical) : (s.roomResume k).canonical := h.resumeLine

theorem State.canonical.pushEnds {o : PushOp} (h : s.canonical) : (s.pushEnds o).canonical := h.upd.tryEndCohort.upd

theorem State.canonical.enqueueNext {op : Nat} (h : s.canonical) : (s.enqueueNext op).canonical := by
  unfold State.enqueueNext
  split
  · exact h
  refine canonical_ite h ?_
  extract_lets t u upd
  split
  · exact h.pushRecord.pushEnds.upd
  split
  · exact h.pushRecord
  next v heq =>
    have hv : v.canonical := h.pushRecord.enqueue _ heq
    exact canonical_ite hv.keep.pushEnds hv.keep

theorem State.canonical.refillStart {k : QKey} (h : s.canonical) : (s.refillStart k).canonical := by
  unfold State.refillStart
  split
  · exact h
  exact canonical_ite h.keep h

theorem State.canonical.refillComplete {k : QKey} (h : s.canonical) : (s.refillComplete k).canonical := h.keep.stirQueue

theorem State.canonical.makeBatch {k : QKey} {port entry n : Nat} (h : s.canonical) : (s.makeBatch k port entry n).canonical := by
  unfold State.makeBatch
  split
  · exact canonical_ite h h.keep
  · exact h

theorem State.canonical.serveAsk {k : QKey} (h : s.canonical) : (s.serveAsk k).canonical := by
  unfold State.serveAsk
  split
  · exact h
  split
  · exact h
  extract_lets t
  split
  · exact h.keep.makeBatch
  · split <;> exact h.keep

theorem State.canonical.putRecord {a : SAddr} {r : Record} (h : s.canonical) : (s.putRecord a r).canonical :=
  canonical_ite (h.engWrite.foldl (fun _ _ ht => ht.setBad)) h.engWrite

theorem State.canonical.deliver {c : Cohort} {g : Nat} {rs : List Record} (h : s.canonical) : (s.deliver c g rs).canonical :=
  h.foldl fun _ _ ht => ht.putRecord

theorem State.canonical.popRecords {c : Cohort} {g n : Nat} (h : s.canonical) : (s.popRecords c g n).2.canonical := by
  unfold State.popRecords
  split
  · exact h
  · exact h.keep.deliver

theorem State.canonical.popDone {k : QKey} {w : PopWait} {r : PartRef} {rs : List Record} (h : s.canonical) :
    (s.popDone k w r rs).canonical := by
  unfold State.popDone
  extract_lets t u f
  split
  · exact h.keep
  · exact canonical_ite h.keep (State.canonical.finish (d := .fall _ true) h.keep h.upd.deliver.upd).upd

theorem State.canonical.servePop {k : QKey} {q : Queue} {w : PopWait} (h : s.canonical) : (s.servePop k q w).canonical := by
  unfold State.servePop
  split
  · exact h.keep
  extract_lets got t u
  have hu : u.canonical := canonical_ite h.keep.popDone h.keep
  exact hu.stirQueue

theorem State.canonical.servePops {k : QKey} (h : s.canonical) : (s.servePops k).canonical := by
  unfold State.servePops
  split
  · exact h
  split
  · split
    · exact h.keep
    · exact h.popDone.stirQueue
  split
  · exact h
  exact canonical_ite h h.servePop

theorem State.canonical.popsFirst {k : QKey} {n : Nat} (h : s.canonical) : (State.popsFirst k n s).canonical := by
  induction n generalizing s with
  | zero => exact h
  | succ n ih => exact canonical_ite (ih h.servePops) h

theorem State.canonical.dequeue {k : QKey} (h : s.canonical) : (s.dequeue k).canonical := h.popsFirst.serveAsk

theorem State.canonical.summaryArrive {dst : SumDst} {k : QKey} {len : Nat} {aged : Bool} (h : s.canonical) :
    (s.summaryArrive dst k len aged).canonical := by
  unfold State.summaryArrive
  extract_lets e __src t
  refine canonical_ite h ?_
  split <;> exact h.keep

theorem State.canonical.newGangs {part core units : Nat} {slots : List Nat} {g n : Nat} {acc : List Gang} (h : s.canonical) :
    (State.newGangs part core units slots g n acc s).2.canonical := by
  induction n generalizing s g acc with
  | zero => exact h
  | succ n ih => exact ih h.evict

theorem State.canonical.launchStage {core : Nat} {g : Graph} {idx : Nat} {d : StageDesc} {r : Nat × List Nat × Nat × Nat × Nat}
    (h : s.canonical) : (s.launchStage core g idx d r).canonical := h.makeRoom.makeRoom.makeRoom.newGangs.upd

theorem State.canonical.resumeReady {core : Nat} (h : s.canonical) : CanonicalSome (s.resumeReady core) := by
  intro t e
  obtain ⟨c, -, hc⟩ := List.exists_of_findSome?_eq_some e
  exact h.resumeOn _ hc

theorem State.canonical.freeSleeper {core : Nat} (h : s.canonical) : (s.freeSleeper core).canonical := by
  unfold State.freeSleeper
  split
  · split
    · exact h.haltInPlace
    · exact h
  · exact h

theorem State.canonical.launchDecide {core : Nat} (h : s.canonical) : (s.launchDecide core).canonical := by
  unfold State.launchDecide
  extract_lets t u
  refine canonical_ite h.noteSec.upd ?_
  refine canonical_ite h.noteSec.freeSleeper ?_
  split
  next v heq =>
    have hv : v.canonical := h.noteSec.freeSleeper.upd.resumeReady _ heq
    exact hv.keep
  split
  · exact h.noteSec.freeSleeper.upd
  split
  · exact h.noteSec.freeSleeper.upd
  split
  · exact h.noteSec.freeSleeper.upd.launchStage.upd
  · exact h.noteSec.freeSleeper.upd

theorem State.canonical.launched {core : Nat} {c : Cohort} {rs : List Record} (h : s.canonical) : (s.launched core c rs).canonical := by
  unfold State.launched
  extract_lets t part u code data ring id
  have ht : t.canonical := h.clearRange.clearRange.clearRange
  have hu : u.canonical := ht.foldl fun _ _ hv => hv.deliver
  exact hu.keep

theorem State.canonical.launchDeliver {core : Nat} (h : s.canonical) : (s.launchDeliver core).canonical := by
  unfold State.launchDeliver
  split
  · exact h
  extract_lets __src t
  split
  · exact h.keep
  · exact h.keep
  · exact canonical_ite h.keep.launched h.keep.launched.haltInPlace

end Sys2Proof.Machine
end

-- Proofs: canonical forms through the fabric and queues
section
/-!
PROOFS. Canonical forms through the fabric and queues (R75, R206).
-/
namespace Sys2Proof.Machine

-- One declaration after another, which keeps the compile within its memory.
set_option Elab.async false

variable {s t : State}

/-! The fabric engine -/

theorem State.canonical.linkRecord {port event : Nat} (h : s.canonical) : (s.linkRecord port event).canonical := h.report

theorem State.canonical.wakeRoutes (h : s.canonical) : s.wakeRoutes.canonical := by
  unfold State.wakeRoutes
  extract_lets t
  have ht : t.canonical := h.foldl fun _ _ hu => hu.sendRemote
  refine State.canonical.foldl ht fun u _ hu => ?_
  refine State.canonical.foldl hu fun v _ hv => ?_
  split
  · exact hv
  · exact hv.keep

theorem State.canonical.reroute {f : State → State} (h : s.canonical) (hf : ∀ u, u.canonical → (f u).canonical) :
    (s.reroute f).canonical :=
  (hf _ h).upd.wakeRoutes

theorem State.canonical.routeRecords {port event : Nat} {ks : List Nat} (h : s.canonical) : (s.routeRecords port event ks).canonical :=
  h.foldl fun _ _ ht => ht.linkRecord

theorem State.canonical.failPort {port : Nat} (h : s.canonical) : (s.failPort port).canonical :=
  (h.linkRecord.reroute (fun _ ht => ht.keep)).upd.routeRecords

theorem State.canonical.transmit {port : Nat} (h : s.canonical) : (s.transmit port).canonical := by
  unfold State.transmit
  split
  · exact h
  refine canonical_ite h ?_
  split
  · split
    · exact canonical_ite h.upd.failPort (canonical_ite h.keep h.keep)
    · exact h.keep
  split
  · exact canonical_ite h (canonical_ite h.keep.linkRecord h.keep)
  · exact h

theorem State.canonical.replay {port l : Nat} (h : s.canonical) : (s.replay port l).canonical := canonical_ite h.keep h

theorem State.canonical.arriveMsg {port : Nat} {src : Fin 16} {x3 : FMsg} (h : s.canonical) : (s.arriveMsg port src x3).canonical := by
  unfold State.arriveMsg
  split
  · exact h.keep
  · exact h.keep
  · exact h.keep
  · exact h.keep
  · exact h.keep
  · exact h.keep
  · exact h.replay
  · exact h

theorem State.canonical.relayOn {f : Flit} (h : s.canonical) : (s.relayOn f).canonical := by
  unfold State.relayOn
  split
  · exact h
  split
  · exact h.keep
  · exact h

theorem State.canonical.accept {port : Nat} {p : Port} {f g : Flit} (h : s.canonical) : (s.accept port p f g).canonical := by
  unfold State.accept
  extract_lets t mine fs first u
  refine canonical_ite h.keep.relayOn ?_
  split
  · exact canonical_ite h.keep h.keep.arriveMsg
  · exact h.keep

theorem State.canonical.receive {port : Nat} {f : Flit} (h : s.canonical) : (s.receive port f).canonical := by
  unfold State.receive
  split
  · exact h
  refine canonical_ite h ?_
  extract_lets want ask nonce t
  split
  · exact h.keep
  exact canonical_ite h.keep (canonical_ite h.keep h.keep.accept)

theorem State.canonical.replayLate {port : Nat} (h : s.canonical) : (s.replayLate port).canonical := by
  unfold State.replayLate
  split
  · exact canonical_ite h.replay h
  · exact h

theorem State.canonical.silent {port : Nat} (h : s.canonical) : (s.silent port).canonical := by
  unfold State.silent
  split
  · exact canonical_ite h.failPort h
  · exact h

theorem State.canonical.alignTime (h : s.canonical) : s.alignTime.canonical := canonical_ite h h.keep

theorem State.canonical.trained {port : Nat} {peer : Fin 16} (h : s.canonical) : (s.trained port peer).canonical := by
  unfold State.trained
  split
  · exact canonical_ite (h.alignTime.reroute fun _ ht => ht.keep).routeRecords h
  · exact h

theorem State.canonical.untrained {port : Nat} (h : s.canonical) : (s.untrained port).canonical := by
  unfold State.untrained
  split
  · exact canonical_ite h.failPort h
  · exact h

theorem State.canonical.replyTo {q : PeerReq} {rep : RemoteRep} {own : Nat} (h : s.canonical) : (s.replyTo q rep own).canonical := by
  unfold State.replyTo
  split
  · exact h.keep
  · exact h

theorem State.canonical.serveIngress {h : HeldReq} (hs : s.canonical) : (s.serveIngress h).canonical := by
  unfold State.serveIngress
  extract_lets q __src
  refine canonical_ite hs ?_
  split
  · exact hs.replyTo
  split
  · refine canonical_ite hs.keep ?_
    extract_lets t u
    have ht : t.canonical := hs.foldl fun _ _ hv => hv.clearLine
    have hu : u.1.canonical := State.canonical.homeMore ht.homeAccess
    exact hu.replyTo
  · exact hs.replyTo

theorem State.canonical.offerIngress {h : HeldReq} (hs : s.canonical) : (s.offerIngress h).canonical := canonical_ite hs.keep hs.serveIngress

theorem State.canonical.ingress {q : PeerReq} (h : s.canonical) : (s.ingress q).canonical := h.offerIngress

theorem State.canonical.retryIngress (h : s.canonical) : s.retryIngress.canonical := h.keep.foldl fun _ _ ht => ht.offerIngress

theorem State.canonical.resumeReq {q : Request} (h : s.canonical) : (s.resumeReq q).canonical := by
  unfold State.resumeReq
  split
  · exact h.copyAnswered
  split
  · split <;> exact h.keep
  · exact h

theorem State.canonical.answerGroup {q : Request} {rep : RemoteRep} (h : s.canonical) : (s.answerGroup q rep).canonical := by
  unfold State.answerGroup
  extract_lets t
  refine State.canonical.dirtyHeld (h.foldl (fun _ _ hu => hu.keep))

theorem State.canonical.giveUp {q : Request} (h : s.canonical) : (s.giveUp q).canonical := by
  unfold State.giveUp
  extract_lets t
  refine State.canonical.resumeReq ?_
  unfold State.unmeter
  refine State.canonical.upd ?_
  unfold State.modGroup
  refine State.canonical.upd ?_
  exact h.foldl fun _ _ hu => hu.keep

theorem State.canonical.remoteAnswer {id : Nat} {rep : RemoteRep} (h : s.canonical) : (s.remoteAnswer id rep).canonical := by
  unfold State.remoteAnswer
  split
  · split
    · exact canonical_ite h.giveUp h.answerGroup.resumeReq
    · exact h
  · exact h

theorem State.canonical.remoteLate {id : Nat} (h : s.canonical) : (s.remoteLate id).canonical := by
  unfold State.remoteLate
  split
  · exact canonical_ite h.giveUp h
  · exact h

theorem State.canonical.ioAnswer {id : Nat} {c : IoResult} (h : s.canonical) : (s.ioAnswer id c).canonical := by
  unfold State.ioAnswer
  split
  · split
    · refine canonical_ite h.giveUp ?_
      split
      · exact h.keep.resumeReq
      · exact h.keep.resumeReq
      · exact h.giveUp
    · exact h
  · exact h

theorem State.canonical.ioLate {id : Nat} (h : s.canonical) : (s.ioLate id).canonical := by
  unfold State.ioLate
  split
  · exact canonical_ite h.giveUp h
  · exact h

theorem State.canonical.tokenGrant {port part : Nat} (h : s.canonical) : (s.tokenGrant port part).canonical := by
  unfold State.tokenGrant
  split
  · exact h
  extract_lets leave bs t
  have ht : t.canonical := h.keep.foldl fun _ _ hu => hu.keep
  split
  · exact h.keep
  exact canonical_ite ht.keep h.keep

theorem State.canonical.tickPort {port : Nat} (h : s.canonical) : (s.tickPort port).canonical := by
  unfold State.tickPort
  split
  · exact h
  extract_lets parts t wants v u v
  have ht : t.1.canonical := h.foldl_1 fun _ _ hw => canonical_ite hw hw.keep
  have hu : u.canonical := ht.foldl fun _ _ hw => hw.keep
  exact hu.keep

theorem State.canonical.tokenTick (h : s.canonical) : s.tokenTick.canonical := h.foldl fun _ _ ht => ht.tickPort

theorem State.canonical.childBuckets {part : Nat} (h : s.canonical) : (s.childBuckets part).canonical :=
  h.foldl fun _ _ ht => canonical_ite ht ht.keep

theorem State.canonical.sendReport {e : Nat} (h : s.canonical) : (s.sendReport e).canonical := by
  unfold State.sendReport
  split
  · exact h
  split
  · exact h.keep
  · exact h

theorem State.canonical.takeReport {e len room rseq : Nat} (h : s.canonical) : (s.takeReport e len room rseq).canonical := by
  unfold State.takeReport
  split
  · exact h
  · exact h.keep

theorem State.canonical.forwardDecide {port : Nat} (h : s.canonical) : (s.forwardDecide port).canonical := by
  unfold State.forwardDecide
  extract_lets out t
  refine canonical_ite h ?_
  refine canonical_ite h.keep ?_
  split <;> exact h.keep

theorem State.canonical.batchAnswer {src m : Nat} {f : FMsg} (h : s.canonical) : (s.batchAnswer src m f).canonical := by
  unfold State.batchAnswer
  split
  · exact h.keep
  · exact h

theorem State.canonical.batchIn {src : Fin 16} {back e seq : Nat} {recs : List (List Byte × Bool)} {deadline : Nat} (h : s.canonical) :
    (s.batchIn src back e seq recs deadline).canonical := by
  unfold State.batchIn
  split
  · exact h.batchAnswer
  refine canonical_ite h.batchAnswer ?_
  refine canonical_ite h.batchAnswer ?_
  refine canonical_ite h ?_
  extract_lets late t
  have ht : t.canonical := canonical_ite h (canonical_ite h.keep (canonical_ite h h.keep))
  exact ht.drainHeld

theorem State.canonical.batchStale {e seq : Nat} (h : s.canonical) : (s.batchStale e seq).canonical := by
  unfold State.batchStale
  split
  · exact canonical_ite h.keep.drainHeld h
  · exact h

theorem State.canonical.batchBack {e seq : Nat} (h : s.canonical) : (s.batchBack e seq).canonical := by
  unfold State.batchBack
  split
  · exact h
  · exact h.keep.requeueHeld

theorem State.canonical.batchAcked {e seq : Nat} (h : s.canonical) : (s.batchAcked e seq).canonical := by
  unfold State.batchAcked
  split
  · exact h
  exact canonical_ite h.batchBack h.keep.releaseHeld

theorem State.canonical.batchLate {e seq : Nat} (h : s.canonical) : (s.batchLate e seq).canonical := by
  unfold State.batchLate
  split
  · exact canonical_ite h.batchBack h
  · exact h

theorem State.canonical.fstatSem {p : Pred} {sel : Nat} {d a : Opnd} {x : Ctx} (h : s.canonical) : (fstatSem p sel d a s x).canonical :=
  h.keep

theorem State.canonical.fclrSem {p : Pred} {psn : Bool} {d : Opnd} {x : Ctx} (h : s.canonical) : (fclrSem p psn d s x).canonical :=
  Done.canonical_ite h h.keep.answer

theorem State.canonical.setTok {fld port part n : Nat} (h : s.canonical) : (s.setTok fld port part n).canonical := by
  unfold State.setTok
  extract_lets b __src t u
  have ht : t.canonical := by
    unfold t
    split <;> exact h.keep
  have hu : u.canonical := ht.foldl fun _ _ hv => hv.childBuckets
  exact hu.keep

theorem State.canonical.ftokSem {fld : Nat} {rd : Bool} {d a b c : Opnd} {x : Ctx} (h : s.canonical) :
    (ftokSem fld rd d a b c s x).canonical := Done.canonical_ite h.answer (canonical_ite h h.setTok).answer

theorem State.canonical.flinkPortSem {d b c : Opnd} {x : Ctx} (h : s.canonical) : (flinkPortSem d b c s x).canonical := by
  unfold Machine.flinkPortSem
  extract_lets port mode ans go
  split
  · exact h.answer
  refine Done.canonical_ite h.answer ?_
  refine Done.canonical_ite h.answer ?_
  split
  · exact h.answer
  · exact (h.reroute (fun _ ht => ht.keep)).answer
  · exact h.answer
  · exact (h.reroute (fun _ ht => ht.keep)).answer
  · exact h.answer
  · exact (h.reroute (fun _ ht => ht.keep)).answer
  · exact h.keep.answer

theorem State.canonical.flinkRouteSem {d b c : Opnd} {x : Ctx} (h : s.canonical) : (flinkRouteSem d b c s x).canonical :=
  Done.canonical_ite h.answer (h.reroute (fun _ ht => ht.keep)).answer

theorem State.canonical.flinkDesc {d a : Opnd} {k : State → Ctx → List Byte → Done} {x : Ctx} (h : s.canonical)
    (hk : ∀ u a b, u.canonical → (k u a b).canonical) : (flinkDesc d a k s x).canonical := Done.canonical_ite h.answer (h.directLoad hk)

theorem State.canonical.flinkKeySem {d a b c : Opnd} {x : Ctx} (h : s.canonical) : (flinkKeySem d a b c s x).canonical := by
  unfold Machine.flinkKeySem
  refine h.flinkDesc fun t _ _ ht => ?_
  extract_lets port w slot ans
  split
  · exact ht.answer
  exact Done.canonical_ite ht.answer (Done.canonical_ite ht.keep.answer (Done.canonical_ite ht.answer ht.keep.answer))

theorem State.canonical.flinkMirrorSem {d a b : Opnd} {x : Ctx} (h : s.canonical) : (flinkMirrorSem d a b s x).canonical :=
  h.flinkDesc fun _ _ _ ht => Done.canonical_ite ht.answer (Done.canonical_ite ht.answer ht.keep.answer)

theorem State.canonical.flinkUnmirrorSem {d b : Opnd} {x : Ctx} (h : s.canonical) : (flinkUnmirrorSem d b s x).canonical := by
  unfold Machine.flinkUnmirrorSem
  extract_lets i ans __src
  split
  · exact h.answer
  split
  · exact h.answer
  exact Done.canonical_ite h.answer h.keep.answer

theorem State.canonical.flinkGrantSem {d a b : Opnd} {x : Ctx} (h : s.canonical) : (flinkGrantSem d a b s x).canonical :=
  h.flinkDesc fun _ _ _ ht => Done.canonical_ite ht.answer (Done.canonical_ite ht.answer ht.keep.answer)

theorem State.canonical.flinkRevokeSem {d b : Opnd} {x : Ctx} (h : s.canonical) : (flinkRevokeSem d b s x).canonical :=
  Done.canonical_ite h.answer (Done.canonical_ite h.answer h.keep.answer)

theorem State.canonical.flinkSetidSem {d c : Opnd} {x : Ctx} (h : s.canonical) : (flinkSetidSem d c s x).canonical :=
  Done.canonical_ite h.answer (Done.canonical_ite h.answer h.keep.answer)

/-! QUEUE -/

theorem State.canonical.qpushSem {p : Pred} {o : Nat} {a : Opnd} {x : Ctx} (h : s.canonical) : (qpushSem p o a s x).canonical := by
  unfold Machine.qpushSem
  extract_lets act offs
  refine Done.canonical_ite h ?_
  refine Done.canonical_ite h ?_
  split
  · exact h
  extract_lets size
  split
  · exact h
  · exact h.bufferCmd

theorem State.canonical.qpushsSem {p : Pred} {o : Nat} {a b : Opnd} {x : Ctx} (h : s.canonical) : (qpushsSem p o a b s x).canonical := by
  unfold Machine.qpushsSem
  extract_lets act k
  refine Done.canonical_ite h ?_
  refine Done.canonical_ite h ?_
  split
  · exact h
  refine Done.canonical_ite h ?_
  extract_lets size offs
  split
  · exact h
  · exact h.bufferCmd

theorem State.canonical.passNow {x : Ctx} {key : QKey} {c : PushCmd} (h : s.canonical) : (s.passNow x key c).canonical := h.keep.passCmd

theorem State.canonical.qseedSem {p : Pred} {o : Nat} {d a b c : Opnd} {len : Nat} {x : Ctx} (h : s.canonical) :
    (qseedSem p o d a b c len s x).canonical := by
  unfold Machine.qseedSem
  extract_lets act
  refine Done.canonical_ite h ?_
  refine Done.canonical_ite h ?_
  split
  · exact h
  refine State.canonical.directLoad h fun t _ _ ht => ?_
  extract_lets k size off u
  split
  · exact ht
  split
  · exact ht
  · exact ht.passNow.answer

theorem State.canonical.qpopSem {p : Pred} {wait : Bool} {d a : Opnd} {len : Nat} {x : Ctx} (h : s.canonical) :
    (qpopSem p wait d a len s x).canonical := by
  unfold Machine.qpopSem
  extract_lets act n u got w
  refine Done.canonical_ite h ?_
  refine Done.canonical_ite (canonical_getD h (.map fun _ => h.keep)) ?_
  have hg : got.2.canonical := h.releaseHeld.popRecords
  refine Done.canonical_ite h ?_
  refine Done.canonical_ite (canonical_getD h (.map fun _ => h.keep)) ?_
  split
  · split
    · exact h.releaseHeld.upd
    · exact h.releaseHeld
  · exact hg.answer

theorem State.canonical.qdoneSem {p : Pred} {x : Ctx} (h : s.canonical) : (qdoneSem p s x).canonical := canonical_ite h.releaseHeld h

theorem State.canonical.qlenSem {p : Pred} {sel : Nat} {d : Opnd} {x : Ctx} (h : s.canonical) : (qlenSem p sel d s x).canonical := h.keep

theorem State.canonical.qctl {p : Pred} {f : Sem} {x : Ctx} (h : s.canonical) (hf : ∀ u a, u.canonical → (f u a).canonical) :
    (qctl p f s x).canonical := Done.canonical_ite (hf _ _ h) h

theorem State.canonical.setqSem {p : Pred} {d a b c : Opnd} {x : Ctx} (h : s.canonical) : (setqSem p d a b c s x).canonical := by
  unfold Machine.setqSem
  refine State.canonical.qctl h fun t _ ht => ?_
  extract_lets va i k
  refine Done.canonical_ite ht.answer ?_
  refine Done.canonical_ite ht.answer ?_
  refine State.canonical.directLoad ht fun u _ _ hu => ?_
  split
  · exact hu.answer
  exact Done.canonical_ite hu.answer hu.keep.answer

theorem State.canonical.setsSem {p : Pred} {d a b c : Opnd} {x : Ctx} (h : s.canonical) : (setsSem p d a b c s x).canonical := by
  unfold Machine.setsSem
  refine State.canonical.qctl h fun t _ ht => ?_
  extract_lets va i k
  refine Done.canonical_ite ht.answer ?_
  refine State.canonical.directLoad ht fun u _ _ hu => ?_
  split
  · exact hu.answer
  extract_lets g
  split
  · exact hu.keep.answer
  · exact hu.answer
  exact Done.canonical_ite hu.answer hu.keep.answer

theorem State.canonical.bindSem {p : Pred} {d c : Opnd} {x : Ctx} (h : s.canonical) : (bindSem p d c s x).canonical := by
  unfold Machine.bindSem
  refine State.canonical.qctl h fun t _ ht => ?_
  extract_lets k g u
  split
  · exact ht.answer
  split
  · exact ht.answer
  split
  · exact ht.answer
  split
  · exact ht.answer
  exact Done.canonical_ite ht.answer ht.takeFree.upd.answer

theorem State.canonical.dropGraph {part slot : Nat} (h : s.canonical) : (s.dropGraph part slot).canonical := h.keep.wakeHost

theorem State.canonical.unbindSem {p : Pred} {d c : Opnd} {x : Ctx} (h : s.canonical) : (unbindSem p d c s x).canonical :=
  h.qctl fun _ _ ht => Done.canonical_ite ht.answer (Done.canonical_ite ht.answer (Done.canonical_ite ht.answer ht.dropGraph.answer))

theorem State.canonical.statSem {p : Pred} {d a b c : Opnd} {x : Ctx} (h : s.canonical) : (statSem p d a b c s x).canonical := by
  unfold Machine.statSem
  refine State.canonical.qctl h fun t _ ht => ?_
  extract_lets va i k
  split
  · exact ht.answer
  split
  · exact ht.answer
  · exact ht.directStore fun _ _ hu => hu.answer

theorem State.canonical.stopSem {stop : Bool} {p : Pred} {d b c : Opnd} {x : Ctx} (h : s.canonical) :
    (stopSem stop p d b c s x).canonical := by
  unfold Machine.stopSem
  refine State.canonical.qctl h fun t _ ht => ?_
  extract_lets i k g
  split
  · exact ht.answer
  split
  · exact ht.keep.answer
  · exact ht.answer

theorem State.canonical.clearSem {p : Pred} {d c : Opnd} {x : Ctx} (h : s.canonical) : (clearSem p d c s x).canonical :=
  h.qctl fun _ _ ht => Done.canonical_ite ht.answer (Done.canonical_ite ht.answer ht.dropGraph.answer)

end Sys2Proof.Machine
end

-- Proofs: canonical forms through tiers, tenancy and the host
section
/-!
PROOFS. Canonical forms through tiers, tenancy and the host (R75, R206).
-/
namespace Sys2Proof.Machine

-- One declaration after another, which keeps the compile within its memory.
set_option Elab.async false

variable {s t : State}

/-! The tier engine -/

theorem State.canonical.reach {w : Whose} {va : DWord} (h : s.canonical) : (s.reach w va).2.canonical := by
  unfold State.reach
  refine canonical_ite_2 h ?_
  extract_lets t
  have ht : t.2.canonical := by
    unfold t
    split
    · exact h.translate
    · exact h.translateAlone
  split
  · exact ht
  · exact ht
  · split <;> exact ht

theorem State.canonical.setLeaf {part leaf e : Nat} (h : s.canonical) : (s.setLeaf part leaf e).canonical := by
  unfold State.setLeaf
  split
  · exact h.engWrite
  · exact h

theorem State.canonical.framePool {p : Partition} {up : Bool} (h : s.canonical) : (s.framePool p up).2.canonical := by
  unfold State.framePool
  extract_lets g
  split
  · exact h
  · exact h
  · exact h.engRead (own := p.num)

theorem State.canonical.poolPut {p : Partition} {a n : Nat} (h : s.canonical) : (s.poolPut p a n).canonical := h.engPut

theorem State.canonical.popFrame {p : Partition} {q : FramePool} (h : s.canonical) : (s.popFrame p q).2.canonical := by
  unfold State.popFrame
  refine canonical_ite_2 h ?_
  split
  · exact h
  · exact h
  · exact h.engRead.poolPut

theorem State.canonical.pushFrame {p : Partition} {q : FramePool} {frame : Nat} (h : s.canonical) : (s.pushFrame p q frame).canonical := by
  unfold State.pushFrame
  extract_lets a
  split
  · exact h
  · exact h.poolPut.poolPut

theorem State.canonical.kick {owner : Nat} (h : s.canonical) : (s.kick owner).canonical := by
  unfold State.kick
  split
  · exact h
  refine canonical_ite h ?_
  refine canonical_ite h.keep ?_
  split <;> exact h.keep

theorem State.canonical.kickAll (h : s.canonical) : s.kickAll.canonical := h.foldl fun _ _ ht => ht.kick

theorem State.canonical.writeWord {j : Job} (h : s.canonical) : CanonicalSome (s.writeWord j) := by
  unfold State.writeWord
  extract_lets stop t
  split
  · exact CanonicalSome.some h.reach.engWrite
  · exact CanonicalSome.some h.reach
  · exact CanonicalSome.none

theorem State.canonical.beginMove {j : Job} {p : Partition} {up : Bool} {l : Leaf} (h : s.canonical) :
    (s.beginMove j p up l).2.canonical := by
  have hv : ((s.framePool p !up).2.framePool p up).2.canonical := h.framePool.framePool
  fun_cases State.beginMove s j p up l
  case case1 => exact h
  case case5 e => exact canonical_of_eq e hv.popFrame
  case case6 e _ _ _ u w _ =>
    have hu : u.canonical := State.canonical.upd (canonical_of_eq e hv.popFrame)
    have hw : w.canonical := hu.setLeaf
    exact hw.keep.retryMonitors
  case case7 e _ => exact canonical_of_eq e hv.popFrame
  case case8 e _ => exact canonical_of_eq e hv.popFrame
  all_goals exact hv

theorem State.canonical.pageMove {owner : Nat} (h : s.canonical) : (s.pageMove owner).canonical := by
  unfold State.pageMove
  split
  · exact h
  next j _ =>
  split
  next up _ =>
    refine canonical_ite h ?_
    refine canonical_ite h.keep ?_
    extract_lets r skip
    have hr : r.2.canonical := h.reach
    split
    · exact hr
    · exact hr.keep
    extract_lets b e v
    have hb : b.2.canonical := hr.engRead
    have hv : v.canonical := hb.keep
    split
    · exact hv.keep
    split
    · exact hv.keep
    split
    next heq => exact (canonical_of_eq heq hv.beginMove).upd.upd
    next heq => exact (canonical_of_eq heq hv.beginMove).upd.upd
    next heq => exact (canonical_of_eq heq hv.beginMove).upd
    next heq => exact (canonical_of_eq heq hv.beginMove).upd.upd
  · exact h

theorem State.canonical.moveLine {m : Move} {k : Nat} (h : s.canonical) : (s.moveLine m k).canonical := by
  unfold State.moveLine
  extract_lets a b t lose u bs v w y
  have hu : u.canonical := by
    unfold u
    refine State.canonical.foldl h.engRead fun z _ hz => ?_
    split
    · exact hz.rollback
    · exact hz
  have hw : w.canonical := canonical_ite hu.engWrite.upd hu.engWrite
  split <;> exact hw.keep

theorem State.canonical.movePage {m : Move} (h : s.canonical) : (s.movePage m).canonical := by
  unfold State.movePage
  extract_lets t e keep
  have ht : t.canonical := h.foldl fun _ _ hu => hu.moveLine
  exact ht.setLeaf

theorem State.canonical.wakePage (h : s.canonical) : s.wakePage.canonical := h.flushEng.wakeHost.retryIngress.upd

theorem State.canonical.jobMoved {m : Move} (h : s.canonical) : (s.jobMoved m).canonical := h.keep.kickAll

theorem State.canonical.freeFrame {p : Partition} {up : Bool} {frame : Nat} (h : s.canonical) : CanonicalSome (s.freeFrame p up frame) := by
  unfold State.freeFrame
  extract_lets t
  split
  · exact CanonicalSome.some h.framePool.pushFrame
  · exact CanonicalSome.some h.framePool
  · exact CanonicalSome.none

theorem State.canonical.pushOld {m : Move} (h : s.canonical) : (s.pushOld m).canonical := by
  unfold State.pushOld
  split
  · exact h.keep.jobMoved
  next p _ =>
    cases ho : s.freeFrame p (!m.up) m.oldFrame with
    | none => exact h
    | some t =>
      have ht : t.canonical := h.freeFrame _ ho
      exact ht.keep.jobMoved

theorem State.canonical.moveDone {mv : Nat} (h : s.canonical) : (s.moveDone mv).canonical := by
  unfold State.moveDone
  split
  · exact h
  split
  · exact h.pushOld
  split
  · exact h
  split
  · exact h.keep.wakePage.jobMoved
  · exact h.movePage.upd.wakePage.pushOld

theorem State.canonical.closeEntry {p : Partition} {dirty : Bool} {e : DWord} (h : s.canonical) : (s.closeEntry p dirty e).2.canonical := by
  unfold State.closeEntry
  split
  · exact h
  · exact (canonical_ite h.setLeaf h).upd

theorem State.canonical.closeAt {part : Nat} {dirty : Bool} {a : Nat} {r : List Nat × State} (h : s.canonical)
    (e : s.closeAt part dirty a = .ok r) : r.2.canonical := by
  unfold State.closeAt at e
  split at e
  · nomatch e
  next p _ =>
    split at e
    · nomatch e
    · nomatch e
    · exact XRes.ok.inj e ▸ (h.engRead (own := part)).closeEntry

theorem State.canonical.logStep {owner : Nat} (h : s.canonical) : (s.logStep owner).canonical := by
  unfold State.logStep
  split
  · exact h
  split
  · refine canonical_ite h ?_
    split
    · exact h.keep
    refine canonical_ite h.keep ?_
    refine canonical_ite h.keep ?_
    split
    · exact h.keep
    · exact h
    next way t heq =>
      have ht : t.canonical := h.closeAt heq -- CHECK
      exact ht.keep
  · exact h

theorem State.canonical.closeAll {part : Nat} (h : s.canonical) : (s.closeAll part).canonical := by
  unfold State.closeAll
  split
  · exact h
  refine State.canonical.foldl h.keep fun t _ ht => ?_
  split
  next r heq => exact ht.closeAt heq
  next => exact ht

theorem State.canonical.recount {part : Nat} (h : s.canonical) : (s.recount part).canonical := by
  unfold State.recount
  split
  · exact h
  · exact h.keep

theorem State.canonical.readList {j : Job} {n : Nat} {acc : List DWord} (h : s.canonical) : (State.readList j n acc s).2.canonical := by
  induction n generalizing s acc with
  | zero => exact h
  | succ n ih =>
    conv => arg 1; arg 1; whnf
    cases (s.reach _ _).1 with
    | at_ a => exact ih h.reach.engRead
    | fail => exact h.reach
    | wait => exact h.reach

theorem State.canonical.declareStep {j : Job} (h : s.canonical) : (s.declareStep j).canonical := by
  unfold State.declareStep
  split
  · extract_lets t
    split
    · exact h.readList.upd
    · exact h.readList
    · exact h.readList.upd
  · exact h.keep
  · exact h

theorem State.canonical.jobDone {owner : Nat} (h : s.canonical) : (s.jobDone owner).canonical := by
  unfold State.jobDone
  split
  · exact h
  refine canonical_ite h ?_
  extract_lets t
  have ht : t.canonical := canonical_ite h h.declareStep
  split
  · exact ht
  refine canonical_ite ht ?_
  extract_lets u
  have hu : u.canonical := by
    unfold u
    split
    · exact canonical_ite ht ht.recount
    · exact ht
  split
  · exact hu
  next v heq =>
    have hv : v.canonical := hu.writeWord _ heq
    exact hv.keep.kick

/-! Partitions, lent sections and virtual functions -/

theorem State.canonical.haltCohort {co : Nat} (h : s.canonical) : (s.haltCohort co).canonical := by
  unfold State.haltCohort
  split
  · exact h
  extract_lets t u idx
  have ht : t.canonical := h.foldl fun _ _ hv => hv.stopGang
  exact ht.keep

theorem State.canonical.leaveSlot {co : Nat} (h : s.canonical) : (s.leaveSlot co).canonical := by
  unfold State.leaveSlot
  split
  · exact h
  refine canonical_ite h ?_
  extract_lets t
  have ht : t.canonical := by
    unfold t
    split
    · unfold State.disarmAll
      unfold State.modCohort
      refine State.canonical.upd ?_
      unfold State.freeMonitors
      refine State.canonical.upd ?_
      exact h.foldl fun _ _ hu => hu.stopGang
    · exact h
  split
  · exact ht
  exact canonical_ite ht.upd.writeRecords.upd ht

theorem State.canonical.clearSection {part sec : Nat} (h : s.canonical) : (s.clearSection part sec).canonical := by
  unfold State.clearSection
  extract_lets cs t
  have ht : t.canonical := h.foldl fun _ _ hu => hu.haltCohort
  exact ht.keep

theorem State.canonical.regroup {f : State → State} (h : s.canonical) (hf : ∀ u, u.canonical → (f u).canonical) :
    (s.regroup f).canonical := by
  unfold State.regroup
  extract_lets t lost u
  have hu : u.canonical := h.foldl fun _ _ hv => hv.clearSection
  exact (hf _ hu.noteSecs).noteSecs.upd

theorem State.canonical.startHalt {part : Nat} {job : Option Nat} {slice : Bool} (h : s.canonical) :
    (s.startHalt part job slice).canonical := by
  unfold State.startHalt
  split
  · exact h
  · exact State.canonical.upd (State.canonical.foldl h.noteSecs.upd fun _ _ hv => hv.haltCohort)

theorem State.canonical.reap {c : Cohort} (h : s.canonical) : (s.reap c).canonical := h.report.killCohort

theorem State.canonical.sliceWord {part result count : Nat} (h : s.canonical) : (s.sliceWord part result count).canonical := by
  unfold State.sliceWord
  split
  · exact h
  exact canonical_ite h h.engPut

theorem State.canonical.finishHalt {h : Halt} (hs : s.canonical) : (s.finishHalt h).canonical := by
  unfold State.finishHalt
  extract_lets fam stuck t n result done upd __src u v w
  have ht : t.canonical := hs.foldl fun _ _ hy => hy.reap
  have hv : v.canonical := canonical_ite ht.keep.sliceWord ht.keep
  have hw : w.canonical := by
    unfold w
    split
    · extract_lets y
      have hy : y.canonical := by
        unfold y
        split
        · exact hv.closeAll
        · exact hv
      exact hy.keep
    · exact hv
  unfold State.stirCores
  unfold State.due
  refine State.canonical.upd ?_
  exact hw.foldl fun _ _ hy => hy.kick

theorem State.canonical.haltPoll {part : Nat} (h : s.canonical) : (s.haltPoll part).canonical := by
  unfold State.haltPoll
  extract_lets busy t fam u
  have ht : t.canonical := by
    unfold t
    split
    · exact canonical_ite h h.keep.startHalt
    · exact h
  have hu : u.canonical := ht.foldl fun _ _ hv => hv.leaveSlot
  split
  · exact ht
  exact canonical_ite hu.finishHalt hu

theorem State.canonical.sliceEnds {part : Nat} (h : s.canonical) : (s.sliceEnds part).canonical := by
  unfold State.sliceEnds
  split
  · exact h
  exact canonical_ite h.startHalt h

theorem State.canonical.haltKill {part : Nat} (h : s.canonical) : (s.haltKill part).canonical := by
  unfold State.haltKill
  split
  · split
    · extract_lets fam late kill t mark __src
      have ht : t.canonical := h.foldl fun _ _ hu => hu.report.killCohort
      exact ht.keep
    · exact h
  · exact h

theorem State.canonical.tdiError {vf : Nat} (h : s.canonical) : (s.tdiError vf).canonical := by
  unfold State.tdiError
  split
  · extract_lets t
    split
    · exact canonical_ite h.keep.startHalt h.keep
    · exact h.keep
  · extract_lets t
    split
    · exact canonical_ite h.keep.startHalt h.keep
    · exact h.keep
  · exact h

theorem State.canonical.cutHalt {part : Nat} (h : s.canonical) : (s.cutHalt part).canonical := by
  unfold State.cutHalt
  split
  · exact h
  extract_lets __src t u
  have hu : u.canonical := canonical_ite h.keep.sliceWord h.keep
  split
  · exact hu.keep
  · exact hu

theorem State.canonical.resetOne {part : Nat} (h : s.canonical) : (s.resetOne part).canonical := by
  unfold State.resetOne
  extract_lets t u wipe port done __src __src __src
  have ht : t.canonical := h.foldl fun _ _ hv => hv.drainEntry
  have hu : u.canonical := ht.foldl fun _ _ hv => hv.dropGraph
  exact hu.upd

theorem State.canonical.discard {fam : List Nat} (h : s.canonical) : (s.discard fam).canonical := h.regroup fun _ ht => ht.keep

theorem State.canonical.settleReset {part : Nat} (h : s.canonical) : (s.settleReset part).canonical := by
  unfold State.settleReset
  split
  · exact h
  extract_lets fam words t
  have ht : t.canonical := h.foldl fun _ _ hu => hu.resetOne
  exact canonical_ite h (canonical_ite (h.foldl fun _ _ hu => hu.kick) ((canonical_ite ht.discard ht).upd))

theorem State.canonical.endPart {part : Nat} {destroy : Bool} (h : s.canonical) : (s.endPart part destroy).canonical := by
  unfold State.endPart
  extract_lets fam vfs t __src u mark v w
  have ht : t.canonical := h.foldl fun _ _ hy => hy.cutHalt
  have hw : w.canonical := ht.keep.foldl fun _ _ hy => hy.killCohort
  unfold State.stirCores
  unfold State.due
  refine State.canonical.upd ?_
  exact hw.settleReset.foldl fun _ _ hy => hy.tdiError

theorem State.canonical.resetPart {part : Nat} (h : s.canonical) : (s.resetPart part).canonical := h.endPart

theorem State.canonical.destroyPart {part : Nat} (h : s.canonical) : (s.destroyPart part).canonical := h.endPart

theorem State.canonical.settleResets (h : s.canonical) : s.settleResets.canonical := h.foldl fun _ _ ht => ht.settleReset

theorem State.canonical.haltReset {part : Nat} (h : s.canonical) : (s.haltReset part).canonical := by
  unfold State.haltReset
  split
  · exact canonical_ite h.report.resetPart h
  · exact h

theorem State.canonical.cctlCreate {part : Nat} (h : s.canonical) : (s.cctlCreate part).canonical := by
  unfold State.cctlCreate
  split
  · exact h
  refine canonical_ite h ?_
  split <;> exact h.keep

theorem State.canonical.cctlOn {part : Nat} {f : State → Nat → State} (h : s.canonical) (hf : KeepsCanonical f) :
    (s.cctlOn part f).canonical := by
  unfold State.cctlOn
  split
  · exact h
  exact canonical_ite h (canonical_ite ((hf _ _ h).upd) h.keep)

theorem State.canonical.hpctlCreate (h : s.canonical) : s.hpctlCreate.canonical := by
  unfold State.hpctlCreate
  split <;> exact h.keep

theorem State.canonical.hpctlOn {f : State → Nat → State} (h : s.canonical) (hf : KeepsCanonical f) : (s.hpctlOn f).canonical :=
  canonical_ite ((hf _ _ h).upd) h.keep

theorem State.canonical.barKids {part : Nat} (h : s.canonical) : (s.barKids part).canonical := h.foldl fun _ _ ht => ht.keep

theorem State.canonical.activate {part : Nat} (h : s.canonical) : (s.activate part).canonical := h.upd.barKids.recount.kick.upd

theorem State.canonical.resumePart {part : Nat} (h : s.canonical) : (s.resumePart part).2.canonical := by
  unfold State.resumePart
  split
  · exact h
  extract_lets orphan kid
  refine canonical_ite_2 h ?_
  refine canonical_ite_2 h ?_
  refine State.canonical.foldl h.activate fun t _ ht => ?_
  unfold kid
  split
  · split
    · exact ht.activate
    · exact ht
  · exact ht

theorem State.canonical.lendSection {part sec borrower : Nat} (h : s.canonical) : (s.lendSection part sec borrower).canonical := by
  unfold State.lendSection
  split
  · exact h
  exact canonical_ite h.keep (canonical_ite h.keep ((h.regroup (fun _ ht => ht.keep)).upd))

theorem State.canonical.reclaimSection {part sec : Nat} (h : s.canonical) : (s.reclaimSection part sec).canonical := by
  unfold State.reclaimSection
  split
  · exact h.keep
  · exact (h.regroup (fun _ ht => ht.keep)).upd

theorem State.canonical.spilledWhole {c : Cohort} (h : s.canonical) : (s.spilledWhole c).canonical := by
  unfold State.spilledWhole
  extract_lets count unit t u v w
  have ht : t.canonical := by
    unfold t
    refine State.canonical.foldl h fun y _ hy => ?_
    refine State.canonical.foldl hy fun z _ hz => ?_
    unfold unit
    split
    · exact hz.evictTop
    · exact hz
  have hv : v.canonical := ht.keep.spillBuf.spillBuf.spillBuf
  exact hv.keep

theorem State.canonical.spillWhole {co : Nat} (h : s.canonical) : (s.spillWhole co).canonical := by
  unfold State.spillWhole
  extract_lets t
  split
  · exact h.leaveSlot
  exact canonical_ite h.leaveSlot h.leaveSlot.spilledWhole

/-! What the outside does -/

theorem State.canonical.hostMarks {p : Partition} {store : Bool} {a : Nat} {l : Option Leaf} (h : s.canonical) :
    (s.hostMarks p store a l).canonical := by
  unfold State.hostMarks
  split
  · exact h
  · exact canonical_ite h.setPteBit.setPteBit h.setPteBit

theorem State.canonical.hostBytes {p : Partition} {xs : List (Nat × List Byte)} (h : s.canonical) :
    (State.hostBytes p xs s).2.canonical := by
  induction xs generalizing s with
  | nil => exact h
  | cons x xs ih =>
    conv => arg 1; arg 1; whnf
    cases (s.hostReach _ _ _).1 with
    | wait => exact h
    | fail => exact h
    | at_ a =>
      dsimp -zeta only
      extract_lets b u q
      have hu : u.canonical := h.hostMarks.engRead
      refine canonical_ite_2 hu ?_
      rename_i v
      have hv : v.2.canonical := ih hu
      cases v.1 <;> exact hv

theorem State.canonical.hostRead {vf addr len : Nat} (h : s.canonical) : (s.hostRead vf addr len).canonical := by
  unfold State.hostRead
  refine canonical_ite h.keep ?_
  refine canonical_ite h.keep ?_
  split
  · exact h.keep
  extract_lets t
  split
  · exact h.hostBytes.upd
  · exact h.keep
  · exact h.hostBytes.upd

theorem State.canonical.hostWrite {vf addr : Nat} {bs : List Byte} (h : s.canonical) : (s.hostWrite vf addr bs).canonical := by
  unfold State.hostWrite
  refine canonical_ite h ?_
  split
  · exact h
  extract_lets ps
  refine canonical_ite h.keep ?_
  refine State.canonical.foldl h fun t _ ht => ?_
  extract_lets r
  split
  · exact ht.hostMarks.engWrite
  · exact ht

theorem State.canonical.hostInvalidate {line : Nat} {bs : List Byte} (h : s.canonical) : (s.hostInvalidate line bs).canonical :=
  canonical_ite h.keep (canonical_ite h.keep.engWrite h)

theorem State.canonical.hostRecord {vf off : Nat} {bs : List Byte} (h : s.canonical) : (s.hostRecord vf off bs).canonical := by
  unfold State.hostRecord
  refine canonical_ite h ?_
  refine canonical_ite h.keep ?_
  split
  · split
    · exact h
    · exact canonical_ite h (canonical_ite h.keep (canonical_ite h.keep (canonical_getD h.keep h.enqueue)))
  · exact h

theorem State.canonical.hostSink {vf off len : Nat} (h : s.canonical) : (s.hostSink vf off len).canonical := by
  unfold State.hostSink
  refine canonical_ite h.keep ?_
  refine canonical_ite h.keep ?_
  extract_lets t
  split
  · split <;> exact h.keep
  refine canonical_ite h.keep ?_
  split
  · exact h.keep
  split
  · exact canonical_ite h.keep h.upd.stirQueue.upd
  · exact h.keep

theorem State.canonical.tdiStep {vf : Nat} {old new : Tdi} (h : s.canonical) : (s.tdiStep vf old new).canonical := canonical_ite h.keep h

theorem State.canonical.tdiStop {vf : Nat} (h : s.canonical) : (s.tdiStop vf).canonical := by
  unfold State.tdiStop
  refine canonical_ite h ?_
  extract_lets t
  split
  · exact h.keep.resetPart
  · exact h.keep

theorem State.canonical.management {item : Nat} {val : Word} (h : s.canonical) : (s.management item val).canonical := by
  unfold State.management
  extract_lets __src flash byte
  split
  · exact h.keep
  · exact h.keep
  · exact h.keep
  · exact h.keep
  · exact h.keep
  · exact h.keep
  · exact h.keep
  · exact h.keep
  · exact h

theorem State.canonical.configWrite {vf item : Nat} {val : Word} (h : s.canonical) : (s.configWrite vf item val).canonical :=
  canonical_ite h.management (canonical_ite h (canonical_ite h.tdiError h.keep))

theorem State.canonical.measure {vf : Nat} {nonce : List Byte} (h : s.canonical) : (s.measure vf nonce).canonical := canonical_ite h h.keep

theorem State.canonical.softError {sec : Nat} (h : s.canonical) : (s.softError sec).canonical := canonical_ite h.keep.report h.keep

theorem State.canonical.vfError {part : Nat} (h : s.canonical) : (s.vfError part).canonical := by
  unfold State.vfError
  split
  · exact h.tdiError
  · exact h

theorem State.canonical.retireAll {co : Nat} (h : s.canonical) : (s.retireAll co).canonical :=
  canonical_elim h fun _ => h.foldl (fun _ _ ht => ht.keep)

theorem State.canonical.errorKill {co structure_ addr : Nat} (h : s.canonical) : (s.errorKill co structure_ addr).canonical := by
  unfold State.errorKill
  split
  · exact h
  · exact h.report.upd.killCohort.retireAll.vfError

theorem State.canonical.uncorrectable {x1 : ErrTarget} (h : s.canonical) : (s.uncorrectable x1).canonical := by
  unfold State.uncorrectable
  split
  · extract_lets part t
    have ht : t.canonical := by
      unfold t
      split
      · exact h.keep
      · exact h
    exact ht.report.vfError
  · extract_lets part
    split
    · exact h.keep.report.vfError
    · exact h.keep.vfError
  · exact h.errorKill
  split
  · exact h
  extract_lets t
  split
  · exact h.errorKill.errorKill
  · exact h.errorKill

theorem State.canonical.dropPacket {packet : Nat} (h : s.canonical) : (s.dropPacket packet).canonical := canonical_ite h.keep h

theorem State.canonical.corrupt {hit : RouterHit} (h : s.canonical) : (s.corrupt hit).canonical := by
  unfold State.corrupt
  extract_lets core t own u
  have hu : u.canonical := h.dropPacket.report
  clear_value own
  split
  · exact hu.resetPart
  · exact hu

/-! Reset and the boot ROM -/

theorem State.canonical.resetPackage (h : s.canonical) : s.resetPackage.canonical := ⟨Memory.wf_filter _ _ h.1, Sides.wf_filter _ _ h.2⟩

theorem State.canonical.loadImage {m : Image} (h : s.canonical) : (s.loadImage m).canonical :=
  h.homeWrites.foldl fun _ _ ht => ht.homeWrites

theorem State.canonical.startFirmware {m : Image} (h : s.canonical) : (s.startFirmware m).canonical := by
  unfold State.startFirmware
  extract_lets r u p v
  have hv : v.canonical := h.takeFree.loadImage.upd
  split
  · exact h
  extract_lets homes w
  have hw : w.canonical := hv.keep
  split
  · exact h
  split
  · exact hw
  · exact canonical_getD hw hw.enqueue

theorem State.canonical.bootRom (h : s.canonical) : s.bootRom.canonical := by
  unfold State.bootRom
  extract_lets t __src
  split
  · split
    · exact h.resetPackage.upd.startFirmware
    · exact h.resetPackage
  · exact h.resetPackage

end Sys2Proof.Machine
end

-- Proofs: every step keeps the canonical forms
section
/-!
PROOFS. Every step keeps the canonical forms (R75, R206).
-/
namespace Sys2Proof.Machine

-- One declaration after another, which keeps the compile within its memory.
set_option Elab.async false

variable {s t : State}

/-! Special registers and GKILL -/

theorem State.canonical.setPartition {p p' : Partition} (h : s.canonical) : (s.setPartition p p').canonical :=
  canonical_ite h.keep (h.regroup fun _ ht => ht.keep)

theorem State.canonical.partSet {p : Partition} {o : Nat} {w : Word} (h : s.canonical) : (s.partSet p o w).canonical := by
  unfold State.partSet
  extract_lets put ws dl
  iterate 18 refine canonical_ite h.keep ?_
  refine canonical_ite ?_ (canonical_ite (canonical_ite h.keep h.keep) (canonical_ite h.keep (canonical_ite ?_ h)))
  · exact canonical_ite h (canonical_ite h.keep (canonical_ite h.keep (canonical_ite h.keep h.keep)))
  split
  · exact h.keep
  split
  · exact h.tdiError
  split
  · exact h.keep
  · exact h.setPartition

theorem State.canonical.hSet {o : Nat} {w : Word} (h : s.canonical) : (s.hSet o w).canonical := by
  unfold State.hSet
  refine canonical_ite h.keep ?_
  split
  · refine canonical_ite h.keep ?_
    refine canonical_ite h.keep ?_
    split <;> exact h.keep
  split
  · exact h.keep
  split
  · exact h.tdiError
  split
  · exact h.keep
  · exact h.setPartition

theorem State.canonical.userSet {x : Ctx} {n : Nat} {w : Word} (h : s.canonical) : (s.userSet x n w).canonical :=
  canonical_ite h.keep <| canonical_ite h.keep <| canonical_ite h.keep <| canonical_ite h.keep <| canonical_ite h.keep <|
    canonical_ite h.keep <| canonical_ite h.keep <| canonical_ite h.keep h

theorem State.canonical.srSet {x : Ctx} {n : Nat} {w : Word} (h : s.canonical) : (s.srSet x n w).canonical :=
  canonical_ite h.userSet <| canonical_ite h.keep <| canonical_ite (canonical_elim h fun _ => canonical_ite h.keep h.partSet) <|
    canonical_ite (canonical_ite h.keep h.hSet) (canonical_ite h.keep h.keep)

theorem State.canonical.mfsrSem {p : Pred} {n : Nat} {d : Opnd} {x : Ctx} (h : s.canonical) : (mfsrSem p n d s x).canonical := h.keep

theorem State.canonical.mtsrSem {p : Pred} {n : Nat} {a : Opnd} {x : Ctx} (h : s.canonical) : (mtsrSem p n a s x).canonical :=
  canonical_ite h.srSet h

theorem State.canonical.gkillSem {drop : Bool} {d a : Opnd} {x : Ctx} (h : s.canonical) : (gkillSem drop d a s x).canonical := by
  unfold Machine.gkillSem
  split
  · exact h.status
  · exact Done.canonical_ite h.killCohort h.killCohort.status

/-! TIER -/

theorem State.canonical.addJob {x : Ctx} {j : Job} {t : Nat} (h : s.canonical) : (s.addJob x j t).canonical :=
  canonical_ite h.keep.kick h.keep

theorem State.canonical.startJob {x : Ctx} {p : Pred} {d b : Opnd} {bad : Bool} {j : Job} (h : s.canonical) :
    (s.startJob x p d b bad j).canonical := by
  unfold State.startJob
  split
  · exact h.answer
  split
  · exact h.answer
  split
  · exact h.answer
  exact Done.canonical_ite h.answer h.addJob.answer

theorem State.canonical.tierJobSem {kind : JobKind} {p : Pred} {d a b : Opnd} {x : Ctx} (h : s.canonical) :
    (tierJobSem kind p d a b s x).canonical :=
  h.qctl fun _ _ ht => Done.canonical_ite ht.answer (ht.directLoad (fun _ _ _ hu => hu.startJob))

theorem State.canonical.haltcSem {stop : Bool} {p : Pred} {d a b : Opnd} {x : Ctx} (h : s.canonical) :
    (haltcSem stop p d a b s x).canonical := by
  unfold Machine.haltcSem
  refine State.canonical.qctl h fun t _ ht => ?_
  extract_lets va u
  split
  · exact ht.answer
  split
  · exact ht.checkElems
  split
  · exact ht.checkElems
  split
  · exact ht.checkElems
  · exact ht.checkElems.startJob

theorem State.canonical.resumecSem {p : Pred} {d b : Opnd} {x : Ctx} (h : s.canonical) : (resumecSem p d b s x).canonical := by
  unfold Machine.resumecSem
  refine State.canonical.qctl h fun t _ ht => ?_
  split
  · exact ht.answer
  · exact ht.resumePart.answer

theorem State.canonical.tresSem {p : Pred} {d a b : Opnd} {x : Ctx} (h : s.canonical) : (tresSem p d a b s x).canonical :=
  Done.canonical_ite h h.answer

theorem State.canonical.tresStageSem {p : Pred} {d b c : Opnd} {x : Ctx} (h : s.canonical) : (tresStageSem p d b c s x).canonical :=
  Done.canonical_ite h h.answer

theorem State.canonical.pinPage {part leaf : Nat} {up : Bool} (h : s.canonical) : (s.pinPage part leaf up).2.canonical :=
  canonical_ite_2 (canonical_ite_2 h h.keep) (canonical_ite_2 h h.keep)

theorem State.canonical.pinOne {x : Ctx} {up : Bool} {acc : Nat × State} {va : DWord} (h : acc.2.canonical) :
    (State.pinOne x up acc va).2.canonical := by
  obtain ⟨bad, u⟩ := acc
  have hu : u.canonical := h
  unfold State.pinOne
  refine canonical_ite_2 hu ?_
  extract_lets r
  split
  · refine canonical_ite_2 hu.translate ?_
    exact canonical_ite_2 hu.translate hu.translate.pinPage
  · exact hu.translate

theorem State.canonical.pinSem {up : Bool} {p : Pred} {d a b : Opnd} {x : Ctx} (h : s.canonical) : (pinSem up p d a b s x).canonical := by
  unfold Machine.pinSem
  refine Done.canonical_ite h ?_
  extract_lets t
  have ht : t.2.canonical := h.foldl_2 fun _ _ hu => State.canonical.pinOne hu
  exact Done.canonical_ite ht ht.answer

/-! The sequencer's own steps -/

theorem State.canonical.afterCommit {pid : Nat} (h : s.canonical) : (s.afterCommit pid).canonical := by
  unfold State.afterCommit
  split
  · exact h
  extract_lets t u
  have ht : t.canonical := canonical_ite h.keep h
  have hu : u.canonical := canonical_ite ht.keep ht
  split
  · exact hu.keep
  · exact hu.keep
  · exact hu

theorem State.canonical.tryCommit {r : PartRef} (h : s.canonical) : (s.tryCommit r).canonical := by
  unfold State.tryCommit
  split
  · exact h
  split
  · exact h.afterCommit
  exact canonical_ite h.commitRun.afterCommit h

theorem State.canonical.unlog {r : PartRef} {p : Part} {run : Run} (h : s.canonical) : (s.unlog r p run).canonical :=
  h.upd.drainAll.passCmds.upd

theorem State.canonical.goUnlogged {r : PartRef} (h : s.canonical) : (s.goUnlogged r).canonical := by
  unfold State.goUnlogged
  split
  · exact h
  split
  · exact canonical_ite h.unlog h
  · exact h

theorem State.canonical.split {r : PartRef} (h : s.canonical) : (s.split r).canonical := by
  unfold State.split
  split
  · exact h
  split
  · exact h.keep
  · exact h

theorem State.canonical.merge {co gi : Nat} (h : s.canonical) : (s.merge co gi).canonical := by
  unfold State.merge
  split
  · exact h
  · exact h.keep

theorem State.canonical.grantClaims {core sub : Nat} {cs : List Claim} (h : s.canonical) : (State.grantClaims core sub cs s).canonical := by
  induction cs generalizing s with
  | nil => exact h
  | cons c cs ih =>
    refine canonical_ite h ?_
    split
    · exact h
    next us u heq =>
      have hu : u.canonical := h.takeUnits heq
      exact ih hu.keep

theorem State.canonical.claimGrants {core sub : Nat} (h : s.canonical) : (s.claimGrants core sub).canonical := h.grantClaims

theorem State.canonical.failClaim {t : State} {k : Claim} (h : t.canonical) : (t.failClaim k).canonical := by
  unfold State.failClaim
  extract_lets t
  split
  · exact h.keep
  · exact h.keep.raise

theorem State.canonical.claimDead {co : Nat} (h : s.canonical) : (s.claimDead co).canonical := by
  unfold State.claimDead
  split
  · exact h
  · exact canonical_ite (h.foldl (fun _ _ ht => ht.failClaim)) h

theorem State.canonical.askOwner {id : Nat} (h : s.canonical) : (s.askOwner id).canonical := by
  unfold State.askOwner
  split
  · exact h
  exact canonical_ite h h.strike.upd

theorem State.canonical.grantOwner {id : Nat} (h : s.canonical) : (s.grantOwner id).canonical := by
  unfold State.grantOwner
  split
  · exact h
  refine canonical_ite h ?_
  refine canonical_ite h ?_
  extract_lets t own u
  split <;> exact h.strike.upd

theorem State.canonical.drainNext {id : Nat} (h : s.canonical) : (s.drainNext id).canonical := by
  unfold State.drainNext
  split
  · exact h
  extract_lets older t
  have ht : t.canonical := h.foldl fun _ _ hu => hu.drainEntry
  split
  · exact canonical_ite ht.keep ht
  · exact ht

theorem State.canonical.walkOne {sec : Nat} (h : s.canonical) : (s.walkOne sec).canonical := canonical_ite h.walkNext.upd h.walkNext

theorem State.canonical.atomicOne {id : Nat} (h : s.canonical) : (s.atomicOne id).canonical := by
  unfold State.atomicOne
  split
  · exact h.drainNext
  · exact canonical_ite h (canonical_ite h.issueReq.upd h.issueReq)

theorem State.canonical.homeAtomics {qs : List Nat} (h : s.canonical) : (s.homeAtomics qs).canonical := h.foldl fun _ _ ht => ht.atomicOne

theorem State.canonical.atomicBack {id : Nat} (h : s.canonical) : (s.atomicBack id).canonical := by
  unfold State.atomicBack
  split
  · exact h.answered
  · exact h

/-! Turns, fetching and time -/

theorem State.canonical.chosen {r : PartRef} (h : s.canonical) : (s.chosen r).canonical := by
  unfold State.chosen
  split <;> exact h.keep

theorem State.canonical.fetchFailsIn {x : Ctx} {lanes : Word} {code : Nat} {addr : DWord} {s2 : Bool} (h : s.canonical) :
    (s.fetchFailsIn x lanes code addr s2).canonical := h.failAt.upd

theorem State.canonical.fetchFails {x : Ctx} {code : Nat} {addr : DWord} {s2 : Bool} (h : s.canonical) :
    (s.fetchFails x code addr s2).canonical := h.fetchFailsIn

theorem State.canonical.overrun {x : Ctx} {i : Option Instr} (h : s.canonical) : (s.overrun x i).canonical := by
  unfold State.overrun
  split
  · exact h.fetchFails
  refine canonical_ite h.fetchFailsIn ?_
  extract_lets t
  refine canonical_ite h.checkTarget ?_
  split
  · exact h.checkTarget.fetchFailsIn
  · exact h.checkTarget.upd.upd
  · exact h.checkTarget.fetchFails

theorem State.canonical.fetch {x : Ctx} (h : s.canonical) : (s.fetch x).canonical := by
  unfold State.fetch
  extract_lets pc f u own
  have hu : u.canonical := h.fetchLine
  split
  · exact hu
  split
  · exact hu.fetchFails
  · exact hu.keep
  extract_lets at_ header read
  split
  · exact hu.poisonRead.fetchFails
  split
  · exact hu.fetchFails
  split
  · exact hu.overrun
  · exact hu.fetchFails
  · exact hu.keep

theorem State.canonical.tick128 (h : s.canonical) : s.tick128.canonical := h.keep.kickAll

theorem State.canonical.settleKills (h : s.canonical) : s.settleKills.canonical := by
  unfold State.settleKills
  refine State.canonical.settleResets (h.foldl (fun _ _ ht => ht.settleDying))

theorem State.canonical.passCycle (h : s.canonical) : s.passCycle.canonical := by
  unfold State.passCycle
  extract_lets t u v
  have hv : v.canonical := canonical_ite h.settleKills.upd.tick128 h.settleKills.upd
  exact canonical_ite hv.keep hv

/-! One step -/

theorem Out.canonical.afterCycle {o : Out} (h : Out.canonical o) : Out.canonical (afterCycle o) := by
  cases o with
  | next s => exact State.canonical.passCycle h
  | fault e => trivial
  | refused e => trivial

/-- Every instruction of a part and every step of an engine. -/
theorem State.canonical.exec (h : s.canonical) (i : Instr) : Out.canonical (exec i s) := by
  -- The choice among the instructions is laid open once, so that it is not unfolded again for each of them.
  set_option smartUnfolding false in
  conv => arg 1; whnf
  beta_reduce
  cases i with
  | runCommit => exact h.event fun _ ht => ht.tryCommit
  | continueWithoutLogging => exact h.event fun _ ht => ht.goUnlogged
  | partSplit => exact h.event fun _ ht => ht.split
  | regangMerge => exact h.event fun _ ht => ht.merge
  | claimGrant => exact h.event (f := fun t => t.claimGrants _ _) fun _ ht => ht.claimGrants
  | claimDeadlock => exact h.event fun _ ht => ht.claimDead
  | trapEntry => exact h.event fun _ ht => ht.tryTrap
  | ownershipRequest => exact h.event fun _ ht => ht.askOwner
  | ownershipGrant => exact h.event fun _ ht => ht.grantOwner
  | storeBufferDrain => exact h.event fun _ ht => ht.drainNext
  | pageWalk => exact h.event fun _ ht => ht.walkOne
  | loadReply => exact h.event fun _ ht => ht.answered
  | homeSliceAtomic => exact h.event fun _ ht => ht.homeAtomics
  | atomicReply => exact h.event fun _ ht => ht.atomicBack
  | remoteRequestIngress => exact h.event fun _ ht => ht.ingress
  | remoteReply => exact h.event fun _ ht => ht.remoteAnswer
  | remoteTimeout => exact h.event fun _ ht => ht.remoteLate
  | ioCompletion => exact h.event fun _ ht => ht.ioAnswer
  | ioTimeout => exact h.event fun _ ht => ht.ioLate
  | copyChunkIssue => exact h.event (f := fun t => t.copyIssue _) fun _ ht => ht.copyIssue
  | copyChunkData => exact h.event fun _ ht => ht.copyData
  | matrixOperationStart => exact h.event fun _ ht => ht.matrixStart
  | matrixRowEntry => exact h.event fun _ ht => ht.matrixEntry
  | matrixRowWrite => exact h.event fun _ ht => ht.matrixWrite
  | queueEnqueue => exact h.event fun _ ht => ht.enqueueNext
  | enqueueRoomResume => exact h.event fun _ ht => ht.roomResume
  | refillStart => exact h.event fun _ ht => ht.refillStart
  | refillComplete => exact h.event fun _ ht => ht.refillComplete
  | queueDequeue => exact h.event fun _ ht => ht.dequeue
  | qpopWaitServe => exact h.event fun _ ht => ht.servePops
  | summaryPublish | powerLimitWrite | powerArbiterTick | freeze => exact h.event fun _ ht => ht.upd
  | summaryEntryArrive => exact h.event fun _ ht => ht.summaryArrive
  | launchDecision => exact h.event fun _ ht => ht.launchDecide
  | launchDelivery => exact h.event fun _ ht => ht.launchDeliver
  | flitReceive => exact h.event fun _ ht => ht.receive
  | flitTransmit => exact h.event fun _ ht => ht.transmit
  | replayTimeout => exact h.event fun _ ht => ht.replayLate
  | linkSilenceTimeout => exact h.event fun _ ht => ht.silent
  | linkTrainingSuccess => exact h.event fun _ ht => ht.trained
  | linkTrainingTimeout => exact h.event fun _ ht => ht.untrained
  | tokenGrant => exact h.event fun _ ht => ht.tokenGrant
  | tokenTick => exact h.event fun _ ht => ht.tokenTick
  | lengthReportSend => exact h.event fun _ ht => ht.sendReport
  | lengthReportReceive => exact h.event fun _ ht => ht.takeReport
  | portForwardDecision => exact h.event fun _ ht => ht.forwardDecide
  | batchReceive => exact h.event fun _ ht => ht.batchIn
  | batchAck => exact h.event fun _ ht => ht.batchAcked
  | batchRefusal => exact h.event fun _ ht => ht.batchBack
  | batchTimeout => exact h.event fun _ ht => ht.batchLate
  | tierPageMove => exact h.event fun _ ht => ht.pageMove
  | tierMoveComplete => exact h.event fun _ ht => ht.moveDone
  | logClose => exact h.event fun _ ht => ht.logStep
  | tierJobComplete => exact h.event fun _ ht => ht.jobDone
  | sliceExpiry => exact h.event fun _ ht => ht.sliceEnds
  | haltComplete => exact h.event fun _ ht => ht.haltPoll
  | haltDeadlineKill => exact h.event fun _ ht => ht.haltKill
  | haltDeadlineReset => exact h.event fun _ ht => ht.haltReset
  | cctlCreate => exact h.event fun _ ht => ht.cctlCreate
  | cctlDestroy => exact h.event fun _ ht => ht.cctlOn (f := State.destroyPart) fun _ _ hu => hu.destroyPart
  | cctlReset => exact h.event fun _ ht => ht.cctlOn (f := State.resetPart) fun _ _ hu => hu.resetPart
  | hpctlCreate => exact h.event fun _ ht => ht.hpctlCreate
  | hpctlDestroy => exact h.event fun _ ht => ht.hpctlOn (f := State.destroyPart) fun _ _ hu => hu.destroyPart
  | hpctlReset => exact h.event fun _ ht => ht.hpctlOn (f := State.resetPart) fun _ _ hu => hu.resetPart
  | lendSection => exact h.event fun _ ht => ht.lendSection
  | reclaimSection => exact h.event fun _ ht => ht.reclaimSection
  | borrowerSpill => exact h.event fun _ ht => ht.spillWhole
  | softErrorCorrected => exact h.event fun _ ht => ht.softError
  | uncorrectableError => exact h.event fun _ ht => ht.uncorrectable
  | corruptHeader => exact h.event fun _ ht => ht.corrupt
  | hostMemoryRead => exact h.event fun _ ht => ht.hostRead
  | hostMemoryWrite => exact h.event fun _ ht => ht.hostWrite
  | hostInvalidate => exact h.event fun _ ht => ht.hostInvalidate
  | hostRecordWrite => exact h.event fun _ ht => ht.hostRecord
  | hostSinkRead => exact h.event fun _ ht => ht.hostSink
  | lockInterface | startInterface => exact h.event (f := fun t => t.tdiStep _ _ _) fun _ ht => ht.tdiStep
  | stopInterface => exact h.event fun _ ht => ht.tdiStop
  | getMeasurements => exact h.event fun _ ht => ht.measure
  | configWrite => exact h.event fun _ ht => ht.configWrite
  | packageReset => exact h.bootRom
  | scanReadout => exact canonical_ite h.keep h
  | batchDeadlineDiscard => exact h.event fun _ ht => ht.batchStale
  | nop | endr => exact h.issue fun _ _ ht => ht.nopSem
  | exit => exact h.issue fun _ _ ht => ht.exitSem
  | yield => exact h.issue fun _ _ ht => ht.yieldSem
  | getid => exact h.issue fun _ _ ht => ht.getidSem
  | time => exact h.issue fun _ _ ht => ht.timeSem
  | bra => exact h.issue fun _ _ ht => ht.braSem
  | brc => exact h.issue fun _ _ ht => ht.brcSem
  | call => exact h.issue fun _ _ ht => ht.callSem
  | loop => exact h.issue fun _ _ ht => ht.loopSem
  | brx | ret => exact h.issue fun _ _ ht => ht.jumpSem
  | callx => exact h.issue fun _ _ ht => ht.callxSem
  | regangL | regangX => exact h.issue fun _ _ ht => ht.regangSem
  | barL | barX => exact h.issue fun _ _ ht => ht.barSem
  | waiteL | waiteX => exact h.issue fun _ _ ht => ht.waiteSem
  | rclaim => exact h.issue fun _ _ ht => ht.rclaimSem
  | rrelease => exact h.issue fun _ _ ht => ht.rreleaseSem
  | tagset => exact h.issue fun _ _ ht => ht.tagsetSem
  | ldL | ldX | ldsL | ldsX | ldaL | ldaX | ldwbL | ldwbX => exact h.issue fun _ _ ht => ht.loadSem
  | lddL | lddX | ldwL | ldwX => exact h.issue fun _ _ ht => ht.rowLoadSem
  | prefL | prefX => exact h.issue fun _ _ ht => ht.prefSem
  | stL | stX | stsL | stsX | staL | staX => exact h.issue fun _ _ ht => ht.storeSem
  | stdL | stdX => exact h.issue fun _ _ ht => ht.stdSem
  | atomL | atomX => exact h.issue fun _ _ ht => ht.atomSem
  | casL | casX => exact h.issue fun _ _ ht => ht.casSem
  | atomsL | atomsX => exact h.issue fun _ _ ht => ht.atomsSem
  | cassL | cassX => exact h.issue fun _ _ ht => ht.cassSem
  | waitcL | waitcX => exact h.issue fun _ _ ht => ht.waitcSem
  | armcL | armcX => exact h.issue fun _ _ ht => ht.armcSem
  | syscL | syscX | hcallL | hcallX | mcallL | mcallX | trapL | trapX => exact h.issue fun _ _ ht => h.callTrapSem ht
  | tret | tretPark => exact h.issue fun _ _ ht => ht.tretSem
  | tfence => exact h.issue fun _ _ ht => ht.tfenceSem
  | mfsr => exact h.issue fun _ _ ht => ht.mfsrSem
  | mtsrL | mtsrX => exact h.issue fun _ _ ht => ht.mtsrSem
  | gresumeL | gresumeX => exact h.issue fun _ _ ht => ht.gresumeSem
  | gkillL | gkillX => exact h.issue fun _ _ ht => ht.gkillSem
  | tlbi => exact h.issue fun _ _ ht => ht.tlbiSem
  | tlbsync => exact h.issue fun _ _ ht => ht.tlbsyncSem
  | cpy => exact h.issue fun _ _ ht => ht.cpySem
  | cpys => exact h.issue fun _ _ ht => ht.cpysSem
  | cpyg => exact h.issue fun _ _ ht => ht.cpygSem
  | cpyt => exact h.issue fun _ _ ht => ht.cpytSem
  | cpym => exact h.issue fun _ _ ht => ht.cpymSem
  | cpyf => exact h.issue fun _ _ ht => ht.cpyfSem
  | swinit => exact h.issue fun _ _ ht => ht.swinitSem
  | swwait => exact h.issue fun _ _ ht => ht.swwaitSem
  | mma | mmap => exact h.issue fun _ _ ht => ht.mmaSem
  | mclr => exact h.issue fun _ _ ht => ht.mclrSem
  | mcvt => exact h.issue fun _ _ ht => ht.mcvtSem
  | macc => exact h.issue fun _ _ ht => ht.maccSem
  | mrel => exact h.issue fun _ _ ht => ht.mrelSem
  | qpopL | qpopX => exact h.issue fun _ _ ht => ht.qpopSem
  | qpushL | qpushX => exact h.issue fun _ _ ht => ht.qpushSem
  | qpushsL | qpushsX => exact h.issue fun _ _ ht => ht.qpushsSem
  | qdone => exact h.issue fun _ _ ht => ht.qdoneSem
  | qlen => exact h.issue fun _ _ ht => ht.qlenSem
  | qseedL | qseedX => exact h.issue fun _ _ ht => ht.qseedSem
  | qctlSetq => exact h.issue fun _ _ ht => ht.setqSem
  | qctlSets => exact h.issue fun _ _ ht => ht.setsSem
  | qctlBind => exact h.issue fun _ _ ht => ht.bindSem
  | qctlUnbind => exact h.issue fun _ _ ht => ht.unbindSem
  | qctlStat => exact h.issue fun _ _ ht => ht.statSem
  | qctlStop | qctlStart => exact h.issue fun _ _ ht => ht.stopSem
  | qctlClear => exact h.issue fun _ _ ht => ht.clearSem
  | fstatPort | fstatRoute | fstatMirror | fstatTokens | fstatRto => exact h.issue fun _ _ ht => ht.fstatSem
  | fclr => exact h.issue fun _ _ ht => ht.fclrSem
  | ftok => exact h.issue fun _ _ ht => ht.ftokSem
  | flinkPort => exact h.issue fun _ _ ht => ht.flinkPortSem
  | flinkRoute => exact h.issue fun _ _ ht => ht.flinkRouteSem
  | flinkKey => exact h.issue fun _ _ ht => ht.flinkKeySem
  | flinkMirror => exact h.issue fun _ _ ht => ht.flinkMirrorSem
  | flinkUnmirror => exact h.issue fun _ _ ht => ht.flinkUnmirrorSem
  | flinkGrant => exact h.issue fun _ _ ht => ht.flinkGrantSem
  | flinkRevoke => exact h.issue fun _ _ ht => ht.flinkRevokeSem
  | flinkSetid => exact h.issue fun _ _ ht => ht.flinkSetidSem
  | tswap | twrecWs | twrecDeclare | twrecUndeclare | twrecDirty => exact h.issue fun _ _ ht => ht.tierJobSem
  | tpinL | tpinX | tunpinL | tunpinX => exact h.issue fun _ _ ht => ht.pinSem
  | tresL | tresX => exact h.issue fun _ _ ht => ht.tresSem
  | tresStage => exact h.issue fun _ _ ht => ht.tresStageSem
  | haltc | haltcStop => exact h.issue fun _ _ ht => ht.haltcSem
  | resumec => exact h.issue fun _ _ ht => ht.resumecSem
  | _ => exact h.issue fun _ _ ht => ht.onView

theorem State.canonical.stepPart {x : Ctx} (h : s.canonical) : Out.canonical (stepPart s x) := by
  have hf : (s.fetch x).canonical := h.fetch
  unfold Machine.stepPart
  split
  · exact (h.exec _).afterCycle
  split
  next t heq => exact State.canonical.passCycle (hf.of_failed heq)
  next i t heq => exact ((hf.of_instr heq).exec i).afterCycle

theorem State.canonical.stepTurn (h : s.canonical) : Out.canonical (stepTurn s) := by
  unfold Machine.stepTurn
  split
  · exact h.passCycle
  split
  · exact h.passCycle
  · exact h.chosen.stepPart

theorem State.canonical.step (h : s.canonical) : Out.canonical (step s) := by
  unfold Machine.step
  split
  · exact h.exec _
  split
  · split
    · exact h.keep.exec _
    · exact h
  split
  · exact h.keep.exec _
  · exact h.stepTurn

/-- Settles O8. Of all that a step does, only an access to the home of a line, a sideband that is set, a range that is cleared and a
reset change memory or sidebands, and each of them keeps the canonical forms. -/
theorem canonicalKept : Obligations.CanonicalKept := by
  intro s s' h e
  have hs : Out.canonical (step s) := h.step
  rw [e] at hs
  exact hs

end Sys2Proof.Machine
end

-- Proofs: the sequencer's instructions complete
section
/-!
PROOFS. How the instructions of the sequencer end: those that fall through, branches, and those that wait for others (R146 to R159).
-/
namespace Sys2Proof.Machine

/-! Branches (R151 to R153) -/

/-- The last round of LOOP falls through (R153). -/
theorem loopSem_last {d : Opnd} {t : State} {y : Ctx} (h : y.v.rd32 d 0 = 1) : loopSem d t y = .fall (t.putView y.r (loopView d y.v)) false :=
  if_pos (by rw [h]; rfl)

/-- A round of LOOP that is not the last is a transfer of all quads, which writes the counter less one (R153). -/
theorem loopSem_again {d : Opnd} {t : State} {y : Ctx} (h : y.v.rd32 d 0 ≠ 1) :
    loopSem d t y = transfer ⟨0, false⟩ 3 y.v.part.quads (directTarget y.v.part.pc y.v.imm) false false (loopView d) t y :=
  if_neg fun h0 => h (sub_eq_zero.mp h0)

/-- A transfer that all quads of a part take goes on at its target, once the target's checks have passed (R126, R151). -/
theorem transfer_all {p : Pred} {len : Nat} {tgt hd : DWord} {indirect : Bool} {w : View → View} {t : State} {y : Ctx} (hq : y.v.part.quads ≠ 0)
    (hok : (targetOf indirect tgt t y).1 = .ok hd) (hl : t.lost (targetOf indirect tgt t y).2 y.r = false) :
    transfer p len y.v.part.quads tgt false indirect w t y =
      .goto ((targetOf indirect tgt t y).2.putView y.r (w ((targetOf indirect tgt t y).2.fresh y).v)) tgt hd := by
  simp only [targetOf] at hok hl ⊢
  simp only [transfer, if_neg hq, hok, hl, Bool.false_and, Bool.false_eq_true, if_false, if_true]

/-- Settles O32: each branch is a transfer of its quads to its target; LOOP is one where its counter has not run out. -/
theorem completesBranch : Obligations.CompletesBranch := by
  unfold Obligations.CompletesBranch
  refine ⟨fun p imm => ?bra, fun p a all neg imm => ?brc, fun p d imm => ?call, fun d imm => ⟨?last, ?again⟩, fun p a => ?brx, fun p d a => ?callx,
    fun p a => ?ret⟩
  case bra => exact transfers_of (braSem p) p (fun _ => rfl) fun _ _ h => by subst h; rfl
  case brc => exact transfers_of (brcSem p a all neg) p (fun _ => rfl) fun _ _ h => by subst h; rfl
  case call => exact transfers_of (callSem p d) p (fun _ => rfl) fun _ _ h => by subst h; rfl
  case last => exact falls_of (loopSem d) (fun _ => rfl) (fun _ _ _ h => loopSem_last h) rfl
  case again =>
    refine goes_of (loopSem d) (fun _ => rfl) fun t y himm ⟨hd, hq, ⟨hdr, hok⟩, hl⟩ => ?_
    rw [loopSem_again hd, himm, transfer_all hq hok hl, hok]
    rfl
  case brx => exact transfers_of (jumpSem p a) p (fun _ => rfl) fun _ _ _ => rfl
  case callx => exact transfers_of (callxSem p d a) p (fun _ => rfl) fun _ _ _ => rfl
  case ret => exact transfers_of (jumpSem p a) p (fun _ => rfl) fun _ _ _ => rfl

/-! Waiting for others (R155 to R158) -/

/-- WAITE falls through where the counter is low enough (R157). -/
theorem waiteSem_low {a : Opnd} {cls : EngClass} {t : State} {y : Ctx} (h : y.v.gang.counters.get cls ≤ (y.v.rd32 a 0).toNat) :
    waiteSem a cls t y = .fall t false := if_pos h

/-- RCLAIM with a granted claim takes its units, where no other part of the gang holds an uncommitted run (R141, R158). -/
theorem rclaimSem_granted {t : State} {y : Ctx} {c : Claim} (hc : t.claimBy y = some c) (hg : c.granted = true) (ho : y.v.othersRun = false) :
    rclaimSem t y = .fall (({ t with claims := t.claims.filter fun c => c.part != y.v.part.id } : State).modGang y.r.cohort y.r.gang fun g =>
      { g.clearFrom (4 * g.units) (4 * y.v.imm.toNat) with pool := g.pool ++ c.pool }) true := by
  have hfind : (t.claims.find? fun c => c.part == y.v.part.id) = some c := hc
  simp only [rclaimSem, hfind, hg, ho, Bool.not_true, Bool.false_eq_true, if_false]

/-- RRELEASE gives units back, where no other part of the gang holds an uncommitted run (R158). -/
theorem rreleaseSem_alone {t : State} {y : Ctx} (ho : y.v.othersRun = false) :
    rreleaseSem t y = .fall ((t.modGang y.r.cohort y.r.gang fun g => { g with pool := g.pool.take (g.pool.length - y.v.imm.toNat) }).due
      [.claimGrant y.c.core y.v.gang.sub, .launchDecision y.c.core]) true := by
  rw [rreleaseSem, ho]
  rfl

/-- Settles O33: each of them ends at once where what it waits for has come about. -/
theorem completesSync : Obligations.CompletesSync := by
  unfold Obligations.CompletesSync
  refine ⟨fun a b c => ?endr, fun a => ?regangL, fun a imm => ?regangX, fun a => ?barL, fun a imm => ?barX, fun a cls => ?waiteL,
    fun a cls imm => ?waiteX, fun a imm => ?rclaim, fun a imm => ?rrelease, fun p d => ?pinfo⟩
  case endr => exact falls_of nopSem (fun _ => rfl) (fun _ _ _ _ => rfl) rfl
  case regangL => exact places_of (regangSem 2 a) (fun _ => rfl) fun _ _ _ _ => rfl
  case regangX => exact places_of (regangSem 3 a) (fun _ => rfl) fun _ _ _ _ => rfl
  case barL => exact ⟨falls_of (barSem a) (fun _ => rfl) (fun _ _ => bar_pass) rfl, falls_of (barSem a) (fun _ => rfl) (fun _ _ => bar_arr) rfl⟩
  case barX => exact ⟨falls_of (barSem a) (fun _ => rfl) (fun _ _ => bar_pass) rfl, falls_of (barSem a) (fun _ => rfl) (fun _ _ => bar_arr) rfl⟩
  case waiteL => exact falls_of (waiteSem a cls) (fun _ => rfl) (fun _ _ _ => waiteSem_low) rfl
  case waiteX => exact falls_of (waiteSem a cls) (fun _ => rfl) (fun _ _ _ => waiteSem_low) rfl
  case rclaim =>
    refine falls_of (c := true) rclaimSem (fun _ => rfl) (fun t y himm ⟨ho, c, hc, hg⟩ => ?_) rfl
    rw [rclaimSem_granted hc hg ho, himm, hc]
    rfl
  case rrelease =>
    refine falls_of (c := true) rreleaseSem (fun _ => rfl) (fun t y himm ho => ?_) rfl
    rw [rreleaseSem_alone ho, himm]
  case pinfo => exact views_of fun _ => rfl

/-- Settles O31: none of them waits for anything, so each ends with the effect of its meaning. -/
theorem completesCtl : Obligations.CompletesCtl := by
  unfold Obligations.CompletesCtl
  refine ⟨fun p => ?nop, fun p => ?exit, fun p => ?yield, fun p d => ?elect, fun p d id => ?getid, fun p d => ?time⟩
  case nop => exact falls_of nopSem (fun _ => rfl) (fun _ _ _ _ => rfl) rfl
  case exit => exact falls_of (exitSem p) (fun _ => rfl) (fun _ _ _ _ => rfl) rfl
  case yield => exact falls_of yieldSem (fun _ => rfl) (fun _ _ _ _ => rfl) rfl
  case elect => exact views_of fun _ => rfl
  case getid => exact falls_of (getidSem p d id) (fun _ => rfl) (fun _ _ _ _ => rfl) rfl
  case time => exact falls_of (timeSem p d) (fun _ => rfl) (fun _ _ _ _ => rfl) rfl

end Sys2Proof.Machine
end

-- Proofs: what exchanges and small writers leave alone
section
/-!
PROOFS. ELECT, PINFO, CHECKC and the exchanges write a destination and raise flags, and nothing else: each is built of the writes of a view, which
leave the rest of the part and its gang as they were (R148, R159, R252 to R261, R330).
-/
namespace Sys2Proof.Machine

/-- From `v` to `w` only the registers of `b` and the flags of `m` change, and the gang's parts stay but for their logs. -/
structure View.Keeps (b : List Nat) (m : Flags) (v w : View) : Prop where
  same : v.Same b m w
  kin : v.Kin w

/-- A plain form whose meaning keeps all but its destination and flags has the frame of these. -/
theorem frames_of_keeps {i : Instr} {f : Form} {imm : Word} {d : Opnd} {n : Nat} {m : Flags} {g : View → View} (hi : ∀ s, exec i s = issue f imm (onView g) s)
    (hk : f.kind = .plain) (hg : ∀ v : View, v.Keeps (regBytes d n) m (g v)) : Frames i f imm d n m :=
  frames_of hi hk (fun v => (hg v).same) fun v => (hg v).kin

/-- A quad's reduction raises no flags but those of rounding (R256). -/
theorem qredQuad_flags (t : TypeCode) (o : RedOp) (k : Word) (x : Nat → Word) : FlagsIn roundFlags (qredQuad t o k x).2 :=
  flagsIn_or (flagsIn_or (combine2_flags ..) (combine2_flags ..)) (combine2_flags ..)

namespace View
variable {b : List Nat} {m : Flags} {v w : View}

theorem Keeps.refl (b : List Nat) (m : Flags) (v : View) : v.Keeps b m v := ⟨.refl .., .refl ..⟩

/-- Flags raised after writes that raise none. -/
theorem Keeps.raiseFlags (h : v.Keeps b 0 w) {f : Flags} (hf : FlagsIn m f) : v.Keeps b m (w.raiseFlags f) :=
  ⟨(h.same.mono (fun _ => id) BitVec.zero_and).trans ((w.raiseFlags_same m f hf).mono nofun (BitVec.and_not_self m)), h.kin⟩

variable (v)

theorem wr32_keeps (d : Opnd) (ls : List Nat) (act : Word) (f : Nat → Word) : v.Keeps (regBytes d 1) 0 (v.wr32 d ls act f) :=
  ⟨v.wr32_same .., v.wr32_kin ..⟩

theorem wr64_keeps (d : Opnd) (ls : List Nat) (act : Word) (f : Nat → DWord) : v.Keeps (regBytes d 2) 0 (v.wr64 d ls act f) :=
  ⟨v.wr64_same .., v.wr64_kin ..⟩

theorem wrUniform_keeps (p : Pred) (d : Opnd) (x : Word) : v.Keeps (regBytes d 1) 0 (v.wrUniform p d x) := v.wr32_keeps ..

theorem electOp_keeps (p : Pred) (d : Opnd) : v.Keeps (regBytes d 1) 0 (electOp p d v) := by
  cases d with
  | p n => exact ⟨v.setPreg_same .., rfl⟩
  | s n => exact ⟨v.setSreg_same _ n.isLt _, v.setSreg_kin ..⟩
  | _ => exact .refl ..

theorem qredOp_keeps (p : Pred) (t : TypeCode) (o : RedOp) (d a : Opnd) : v.Keeps (regBytes d 1) roundFlags (qredOp p t o d a v) :=
  (v.wr32_keeps ..).raiseFlags (orFlags_map _ _ _ fun _ => qredQuad_flags ..)

theorem scanOp_keeps (p : Pred) (t : TypeCode) (o : RedOp) (ex : Bool) (d a : Opnd) : v.Keeps (regBytes d 1) roundFlags (scanOp p t o ex d a v) :=
  (v.wr32_keeps ..).raiseFlags (scanLanes_flags ..)

theorem gredOp_keeps (p : Pred) (t : TypeCode) (o : RedOp) (d a : Opnd) : v.Keeps (regBytes d 1) roundFlags (gredOp p t o d a v) :=
  (v.wrUniform_keeps ..).raiseFlags (scanLanes_flags ..)

theorem shflOp_keeps (p : Pred) (t : TypeCode) (mode : ShflMode) (d a b : Opnd) :
    v.Keeps (regBytes d (if t.wide then 2 else 1)) 0 (shflOp p t mode d a b v) := by
  unfold shflOp
  cases t.wide
  · exact v.wr32_keeps ..
  · exact v.wr64_keeps ..

theorem xposeOp_keeps (p : Pred) (t : TypeCode) (n : Fin 192) (a : Opnd) (hn : n.val + 8 ≤ 192) : v.Keeps (regBytes (.v n) 8) 0 (xposeOp p t (.v n) a v) := by
  by_cases hact : v.act p = 0
  · rw [xposeOp, if_pos hact]
    exact .refl ..
  · rw [xposeOp, if_neg hact]
    exact ⟨setVregs_go v v n hn _ _ (fun _ => List.mem_range.mp) (.refl ..), setVregs_kin v v _ _ _ (.refl v)⟩

end View

/-- Settles O27: what each form writes is a destination's registers, after which it raises at most the flags of rounding. -/
theorem frameOthers : Obligations.FrameOthers := by
  unfold Obligations.FrameOthers
  refine ⟨fun p d => ?elect, fun p d => ?pinfo, fun p t pat d a => ?qswap, fun p t j d a => ?qbcast, fun p t d a b => ?qshuf, fun p t op d a => ?qred,
    fun p t mode d a b => ?shfl, fun p mode d a => ?vote, fun p t op ex d a => ?scan, fun p t op d a => ?gred, fun p t n a hn => ?xpose,
    fun p d => ?checkc⟩
  case elect => exact frames_of_keeps (fun _ => rfl) rfl fun v => v.electOp_keeps p d
  case pinfo => exact frames_of_keeps (fun _ => rfl) rfl fun v => v.wrUniform_keeps p d (pinfoVal v)
  case qswap => exact frames_of_keeps (g := qswapOp p pat.val d a) (fun _ => rfl) rfl fun v => v.wr32_keeps d ..
  case qbcast => exact frames_of_keeps (g := qbcastOp p j.val d a) (fun _ => rfl) rfl fun v => v.wr32_keeps d ..
  case qshuf => exact frames_of_keeps (g := qshufOp p d a b) (fun _ => rfl) rfl fun v => v.wr32_keeps d ..
  case qred => exact frames_of_keeps (fun _ => rfl) rfl fun v => v.qredOp_keeps p t op d a
  case shfl => exact frames_of_keeps (fun _ => rfl) rfl fun v => v.shflOp_keeps p t mode d a b
  case vote => exact frames_of_keeps (g := voteOp p mode d a) (fun _ => rfl) rfl fun v => v.wrUniform_keeps p d _
  case scan => exact frames_of_keeps (fun _ => rfl) rfl fun v => v.scanOp_keeps p t op ex d a
  case gred => exact frames_of_keeps (fun _ => rfl) rfl fun v => v.gredOp_keeps p t op d a
  case xpose => exact frames_of_keeps (fun _ => rfl) rfl fun v => v.xposeOp_keeps p t n a hn
  case checkc => exact frames_of_keeps (g := checkcOp p d) (fun _ => rfl) rfl fun v => v.wrUniform_keeps p d _

end Sys2Proof.Machine
end

-- Proofs: results of the integer engine in each lane
section
/-!
PROOFS. What the integer engine writes: a form computes its result in each lane with the exact integers of the model, and these agree with the
bit vectors of the rules (R177 to R182).
-/
namespace Sys2Proof.Machine
-- Every clause unfolds `exec`, a match of all instructions; one declaration at a time keeps the memory this takes small.
set_option Elab.async false

/-! From a form's meaning to what it leaves -/

section Computes
variable {i : Instr} {f : Form} {imm : Word} {q : Pred} {wide : Bool} {d : Opnd} {srcs : List Opnd} {F : View → Nat → DWord × Flags}

/-- A form that computes `F` in each lane leaves the results of `F`, of which `R` holds. -/
theorem gives_some {R : View → (Nat → DWord × Flags) → Prop} (hi : ∀ s, exec i s = issue f imm (onView fun v => v.compute q wide d srcs (F v)) s)
    (hR : ∀ v, R v (F v)) : Gives i f imm fun v w => ∃ g, R v g ∧ LaneResult q wide d srcs g v w :=
  ⟨_, views_of hi, fun v => ⟨F v, hR v, compute_result ..⟩⟩

/-- A form that computes in each lane what `G` says. -/
theorem gives_lanes {G : View → Nat → DWord × Flags} (hi : ∀ s, exec i s = issue f imm (onView fun v => v.compute q wide d srcs (F v)) s)
    (hG : ∀ v l, F v l = G v l) : Gives i f imm (LaneGives q wide d srcs G) :=
  ⟨_, views_of hi, fun v => (funext (hG v) : F v = G v) ▸ compute_result ..⟩

end Computes

/-! Sums and differences (R177) -/

/-- Settles O14: the exact sum or difference, fitted to the type, is that of bit vectors. -/
theorem sumsAndDifferences : Obligations.SumsAndDifferences := by
  unfold Obligations.SumsAndDifferences
  refine ⟨?addL, ?addX, ?subL, ?subX, ?add64L, ?add64X, ?sub64L, ?sub64X⟩
  case addL | addX | add64L | add64X => intros; exact gives_lanes (fun _ => rfl) fun _ _ => addT_at ..
  case subL | subX | sub64L | sub64X => intros; exact gives_lanes (fun _ => rfl) fun _ _ => subT_at ..

/-! Products (R178) -/

/-- MULHI makes no more than a word. -/
theorem mulhiT_lt (t : TypeCode) (a b : DWord) : (mulhiT t a b).1.toNat < 2 ^ 32 := by
  have h0 : 0 ≤ valT t a * valT t b % 2 ^ 64 / 2 ^ 32 := Int.ediv_nonneg (Int.emod_nonneg _ (by decide)) (by decide)
  have h1 : valT t a * valT t b % 2 ^ 64 / 2 ^ 32 < 2 ^ 32 := Int.ediv_lt_of_lt_mul (by decide) (Int.emod_lt_of_pos _ (by decide))
  rw [mulhiT, BitVec.toNat_ofInt, Int.emod_eq_of_lt h0 (h1.trans (by decide))]
  exact (Int.toNat_lt h0).mpr h1

/-- The high word of the product is all that MULHI makes. -/
theorem mulhiT_eq (t : TypeCode) (ht : t = .i32 ∨ t = .n32) (a b : DWord) : mulhiT t a b = ((highAt t.signed a.lo b.lo).setWidth 64, 0) := by
  obtain ⟨hlo, hfl⟩ := mulhiT_at t ht a b
  refine Prod.ext (BitVec.eq_of_toNat_eq ?_) hfl
  rw [← hlo, BitVec.toNat_setWidth_of_le (by decide), DWord.lo, BitVec.toNat_setWidth, Nat.mod_eq_of_lt (mulhiT_lt t a b)]

theorem wide_eq_false {t : TypeCode} (ht : t = .i32 ∨ t = .n32) : t.wide = false := by
  rcases ht with rfl | rfl <;> rfl

/-- Settles O15: the exact product, with the third operand added, is fitted to the type as the rule says. -/
theorem products : Obligations.Products := by
  unfold Obligations.Products
  refine ⟨?mulL, ?mulX, ?madL, ?madX, ?mulhiL, ?mulhiX, ?madwL, ?madwX⟩
  case mulL | mulX => intros; exact gives_lanes (fun _ => rfl) fun _ _ => mulT_at ..
  case madL | madX => intros; exact gives_lanes (fun _ => rfl) fun _ _ => madT_at ..
  case mulhiL => exact fun p t d a b ht => gives_lanes (fun _ => wide_eq_false ht ▸ rfl) fun _ _ => mulhiT_eq t ht ..
  case mulhiX => exact fun p t d a b imm ht => gives_lanes (fun _ => wide_eq_false ht ▸ rfl) fun _ _ => mulhiT_eq t ht ..
  case madwL => exact fun p t sat d a b c ht => gives_lanes (fun _ => rfl) fun _ _ => madwT_at t ht ..
  case madwX => exact fun p t sat d a b c imm ht => gives_lanes (fun _ => rfl) fun _ _ => madwT_at t ht ..

/-! Quotients (R179) -/

theorem sdiv_eq_ofInt {w : Nat} (a b : BitVec w) : a.sdiv b = BitVec.ofInt w (a.toInt.tdiv b.toInt) :=
  BitVec.eq_of_toInt_eq (by rw [BitVec.toInt_sdiv, BitVec.toInt_ofInt])

theorem srem_eq_ofInt {w : Nat} (a b : BitVec w) : a.srem b = BitVec.ofInt w (a.toInt.tmod b.toInt) := by
  rw [← BitVec.toInt_srem, BitVec.ofInt_toInt]

theorem mul_sdiv_add_srem {w : Nat} (a b : BitVec w) : b * a.sdiv b + a.srem b = a := by
  calc b * a.sdiv b + a.srem b
      = BitVec.ofInt w b.toInt * BitVec.ofInt w (a.toInt.tdiv b.toInt) + BitVec.ofInt w (a.toInt.tmod b.toInt) := by
        rw [sdiv_eq_ofInt, srem_eq_ofInt, BitVec.ofInt_toInt]
    _ = BitVec.ofInt w (b.toInt * a.toInt.tdiv b.toInt + a.toInt.tmod b.toInt) := by rw [BitVec.ofInt_add, BitVec.ofInt_mul]
    _ = a := by rw [Int.mul_tdiv_add_tmod, BitVec.ofInt_toInt]

theorem mul_udiv_add_umod {w : Nat} (a b : BitVec w) : b * (a / b) + a % b = a :=
  BitVec.eq_of_toNat_eq (by simp [Nat.div_add_mod, BitVec.toNat_add, BitVec.toNat_mul])

/-- The quotient of Lo(T) by −1, which overflows, is the wrapped one (R179). -/
theorem quotAt_signed {w : Nat} {a b : BitVec w} (hb : b ≠ 0) : (quotAt true w a b).1 = a.sdiv b := by
  unfold quotAt
  rw [if_neg hb]
  split
  next h =>
    obtain ⟨-, rfl, rfl⟩ := h
    rw [← BitVec.neg_one_eq_allOnes, BitVec.intMin_sdiv_neg_one]
  next => rfl

theorem quotAt_unsigned {w : Nat} {a b : BitVec w} (hb : b ≠ 0) : (quotAt false w a b).1 = a / b := by
  rw [quotAt, if_neg hb]
  rfl

theorem remAt_of_ne {sg : Bool} {w : Nat} {a b : BitVec w} (hb : b ≠ 0) : (remAt sg w a b).1 = if sg then a.srem b else a % b := by
  rw [remAt, if_neg hb]

/-- Settles O16: quotient and remainder of exact integers are those of bit vectors, corners included, and they make the dividend again. -/
theorem divisions : Obligations.Divisions := by
  unfold Obligations.Divisions
  refine ⟨?divL, ?divX, ?remL, ?remX, fun w a b _ hb => ⟨?unsigned, ?signed⟩⟩
  case divL | divX => intros; exact gives_lanes (fun _ => rfl) fun _ _ => divT_at ..
  case remL | remX => intros; exact gives_lanes (fun _ => rfl) fun _ _ => remT_at ..
  case unsigned => rw [quotAt_unsigned hb, remAt_of_ne hb]; exact (mul_udiv_add_umod a b).symm
  case signed => rw [quotAt_signed hb, remAt_of_ne hb]; exact (mul_sdiv_add_srem a b).symm

/-! Extrema and signs (R180) -/

/-- Settles O17: the lesser or greater exact integer and the fitted absolute value or negation are those of bit vectors. -/
theorem extremaAndSigns : Obligations.ExtremaAndSigns := by
  unfold Obligations.ExtremaAndSigns
  refine ⟨?minL, ?minX, ?maxL, ?maxX, ?absL, ?absX, ?negL, ?negX⟩
  case minL | minX => intros; exact gives_lanes (fun _ => rfl) fun _ _ => min_at ..
  case maxL | maxX => intros; exact gives_lanes (fun _ => rfl) fun _ _ => max_at ..
  case absL => exact fun p t sat d a ht => gives_lanes (fun _ => rfl) fun _ _ => absT_at t ht ..
  case absX => exact fun p t sat d a imm ht => gives_lanes (fun _ => rfl) fun _ _ => absT_at t ht ..
  case negL => exact fun p t sat d a ht => gives_lanes (fun _ => rfl) fun _ _ => negT_at t ht ..
  case negX => exact fun p t sat d a imm ht => gives_lanes (fun _ => rfl) fun _ _ => negT_at t ht ..

/-! Bitwise operations and shifts (R181, R182) -/

/-- An operation on 64 bits whose low word is one on low words, cut to the width of a type, is that operation at the width. -/
theorem maskT_atType (t : TypeCode) {g : ∀ w, BitVec w → BitVec w → BitVec w} (hg : ∀ a b : DWord, DWord.lo (g 64 a b) = g 32 a.lo b.lo) (a b : DWord) :
    (maskT t (g 64 a b), (0 : Flags)) = atType t (fun w x y => (g w x y, 0)) a b := by
  unfold maskT atType
  rw [hg]
  split <;> rfl

theorem maskT_atType1 (t : TypeCode) {g : ∀ w, BitVec w → BitVec w} (hg : ∀ a : DWord, DWord.lo (g 64 a) = g 32 a.lo) (a : DWord) :
    (maskT t (g 64 a), (0 : Flags)) = atType1 t (fun w x => (g w x, 0)) a := by
  unfold maskT atType1
  rw [hg]
  split <;> rfl

theorem lo_not (a : DWord) : (~~~a).lo = ~~~a.lo := BitVec.setWidth_not (by decide)

/-- Settles O18: the low word of a bitwise result is that of the low words. -/
theorem bitwiseOperations : Obligations.BitwiseOperations := by
  unfold Obligations.BitwiseOperations
  refine ⟨?andL, ?andX, ?orL, ?orX, ?xorL, ?xorX, ?andnL, ?andnX, ?notL, ?notX⟩
  case andL | andX => intros; exact gives_lanes (fun _ => rfl) fun _ _ => maskT_atType _ (g := fun _ x y => x &&& y) (fun _ _ => BitVec.setWidth_and) ..
  case orL | orX => intros; exact gives_lanes (fun _ => rfl) fun _ _ => maskT_atType _ (g := fun _ x y => x ||| y) (fun _ _ => BitVec.setWidth_or) ..
  case xorL | xorX => intros; exact gives_lanes (fun _ => rfl) fun _ _ => maskT_atType _ (g := fun _ x y => x ^^^ y) (fun _ _ => BitVec.setWidth_xor) ..
  case andnL | andnX =>
    intros
    exact gives_lanes (fun _ => rfl) fun _ _ => maskT_atType _ (g := fun _ x y => x &&& ~~~y) (fun _ b => BitVec.setWidth_and.trans (congrArg _ (lo_not b))) ..
  case notL | notX => intros; exact gives_lanes (fun _ => rfl) fun _ _ => maskT_atType1 _ (g := fun _ x => ~~~x) lo_not _

/-- Settles O19: each shift and rotation at a type's width is that of bit vectors. -/
theorem shifts : Obligations.Shifts := by
  unfold Obligations.Shifts
  refine ⟨?shlL, ?shlX, ?shrL, ?shrX, ?sarL, ?sarX, ?rotlL, ?rotlX, ?funnelL, ?funnelX⟩
  case shlL | shlX => intros; exact gives_lanes (fun _ => rfl) fun _ _ => congrArg (·, 0) (shl_at ..)
  case shrL | shrX => intros; exact gives_lanes (fun _ => rfl) fun _ _ => congrArg (·, 0) (shr_at ..)
  case sarL | sarX => intros; exact gives_lanes (fun _ => rfl) fun _ _ => congrArg (·, 0) (sar_at ..)
  case rotlL | rotlX => intros; exact gives_lanes (fun _ => rfl) fun _ _ => congrArg (·, 0) (rotl_at ..)
  case funnelL | funnelX => intros; exact gives_lanes (fun _ => rfl) fun _ _ => rfl

end Sys2Proof.Machine
end

-- Proofs: counts, bit fields and predicates
section
/-!
PROOFS. What the integer engine says of single bits: counts and fields are made with numbers, and the rules give them bit by bit; CMP sets and
clears the bits of ACT in a predicate (R183 to R188).
-/
namespace Sys2Proof.Machine
-- Every clause unfolds `exec`, a match of all instructions; one declaration at a time keeps the memory this takes small.
set_option Elab.async false

/-! Counts (R183) -/

theorem lo_setWidth (x : Word) : DWord.lo (x.setWidth 64) = x := by
  simp [DWord.lo]

theorem toNat_lo_ofNat {n : Nat} (h : n ≤ 64) : (DWord.lo (BitVec.ofNat 64 n)).toNat = n := by
  rw [DWord.lo, BitVec.toNat_setWidth, BitVec.toNat_ofNat, Nat.mod_eq_of_lt (h.trans_lt (by decide)), Nat.mod_eq_of_lt (h.trans_lt (by decide))]

theorem width_le (t : TypeCode) : t.width ≤ 64 := by
  unfold TypeCode.width; split <;> decide

theorem maskT_lt (t : TypeCode) (x : DWord) : (maskT t x).toNat < 2 ^ t.width := by
  unfold maskT TypeCode.width
  split
  · exact x.isLt
  · rw [BitVec.toNat_setWidth_of_le (by decide)]
    exact x.lo.isLt

theorem bitLen_le {x w : Nat} (h : x < 2 ^ w) : bitLen x ≤ w := by
  unfold bitLen
  split
  next => exact Nat.zero_le w
  next h0 => exact (Nat.log2_lt h0).mpr h

theorem popCount_le (x n : Nat) : popCount x n ≤ n := by
  rw [popCount_at]
  exact (List.length_filter_le ..).trans_eq List.length_range

/-- What CLZ leaves in a word: no bit is set above its count from the top, and one is set there unless none is (R183). -/
theorem clz_spec {x w : Nat} (hx : x < 2 ^ w) :
    clz w x ≤ w ∧ (∀ i, w - clz w x ≤ i → x.testBit i = false) ∧ (clz w x < w → x.testBit (w - 1 - clz w x) = true) := by
  have hlen : w - (w - bitLen x) = bitLen x := Nat.sub_sub_self (bitLen_le hx)
  obtain ⟨habove, htop⟩ := bitLen_at x
  unfold clz
  refine ⟨Nat.sub_le .., fun i hi => habove i (hlen ▸ hi), fun hlt => ?_⟩
  rw [Nat.sub_right_comm, hlen]
  exact htop (Nat.pos_of_ne_zero fun h0 => hlt.ne (h0 ▸ Nat.sub_zero w))

/-- What CTZ leaves: no bit below its count is set, and one is set there unless none is (R183). -/
theorem ctz_spec (w x : Nat) : ctz w x ≤ w ∧ (∀ i < ctz w x, x.testBit i = false) ∧ (ctz w x < w → x.testBit (ctz w x) = true) := by
  obtain ⟨-, hle, hbelow, hbit⟩ := ctzGo_at x w 0
  rw [Nat.zero_add] at hle hbit
  exact ⟨hle, fun i => hbelow i (Nat.zero_le i), hbit⟩

/-- The count that CLZ puts in a word. -/
theorem clz_word (t : TypeCode) (x : DWord) :
    let c := (DWord.lo (BitVec.ofNat 64 (clz t.width (maskT t x).toNat))).toNat
    c ≤ t.width ∧ (∀ i, t.width - c ≤ i → (maskT t x).getLsbD i = false) ∧ (c < t.width → (maskT t x).getLsbD (t.width - 1 - c) = true) := by
  have h := clz_spec (maskT_lt t x)
  rw [toNat_lo_ofNat (h.1.trans (width_le t))]
  exact h

/-- The count that CTZ puts in a word. -/
theorem ctz_word (t : TypeCode) (x : DWord) :
    let c := (DWord.lo (BitVec.ofNat 64 (ctz t.width (maskT t x).toNat))).toNat
    c ≤ t.width ∧ (∀ i < c, (maskT t x).getLsbD i = false) ∧ (c < t.width → (maskT t x).getLsbD c = true) := by
  have h := ctz_spec t.width (maskT t x).toNat
  rw [toNat_lo_ofNat (h.1.trans (width_le t))]
  exact h

/-- The count that POPC puts in a word. -/
theorem popCount_word (t : TypeCode) (x : DWord) : (DWord.lo (BitVec.ofNat 64 (popCount (maskT t x).toNat t.width))).toNat =
    ((List.range t.width).filter fun i => (maskT t x).getLsbD i).length := by
  rw [toNat_lo_ofNat ((popCount_le ..).trans (width_le t)), popCount_at]
  rfl

theorem brev_bit {t : TypeCode} (x : Nat) {i : Nat} (hi : i < t.width) :
    (BitVec.ofNat 64 (brev x t.width)).getLsbD i = x.testBit (t.width - 1 - i) := by
  rw [BitVec.getLsbD_ofNat, brev_at _ _ _ hi, decide_eq_true (hi.trans_le (width_le t)), Bool.true_and]

/-- Settles O20: a count is at most 64 and so fits the destination's word; its bits are those of the operand as a number. -/
theorem bitCounts : Obligations.BitCounts := by
  unfold Obligations.BitCounts
  refine ⟨?popcL, ?popcX, ?clzL, ?clzX, ?ctzL, ?ctzX, ?brevL, ?brevX⟩
  case popcL | popcX => intros; exact gives_some (fun _ => rfl) fun _ _ => ⟨rfl, popCount_word ..⟩
  case clzL | clzX => intros; exact gives_some (fun _ => rfl) fun _ _ => ⟨rfl, clz_word ..⟩
  case ctzL | ctzX => intros; exact gives_some (fun _ => rfl) fun _ _ => ⟨rfl, ctz_word ..⟩
  case brevL | brevX => intros; exact gives_some (fun _ => rfl) fun _ _ => ⟨rfl, fun _ => brev_bit _⟩

/-! Bit fields (R184 to R186) -/

/-- Settles O21: the fields, cut from and put into numbers, are those of the rules bit by bit. -/
theorem bitFields : Obligations.BitFields := by
  unfold Obligations.BitFields
  refine ⟨?bfeL, ?bfeX, ?bfiL, ?bfiX, ?permbL, ?permbX⟩
  case bfeL | bfeX => intros; exact gives_some (fun _ => rfl) fun _ _ => ⟨rfl, fun i hi => (lo_setWidth _).symm ▸ bfe_at _ _ _ i hi⟩
  case bfiL | bfiX => intros; exact gives_some (fun _ => rfl) fun _ _ => ⟨rfl, fun i hi => (lo_setWidth _).symm ▸ bfi_at _ _ _ i hi⟩
  case permbL | permbX => intros; exact gives_some (fun _ => rfl) fun _ _ => ⟨rfl, (lo_setWidth _).trans (permb_at ..)⟩

/-! Predicates (R187, R188) -/

theorem mem_laneList {m : Word} {l : Nat} : l ∈ laneList m ↔ l < 32 ∧ m.getLsbD l = true := by
  simp [laneList]

theorem getLsbD_lbit {k l : Nat} (hl : l < 32) : (lbit k).getLsbD l = decide (k = l) := by
  rw [lbit, ← BitVec.twoPow_eq, BitVec.getLsbD_twoPow]
  by_cases h : k = l
  · simp [h, hl]
  · simp [h]

/-- The bits of a mask with one bit set or cleared. -/
theorem getLsbD_putBit (m : Word) (b : Bool) (k : Nat) {l : Nat} (hl : l < 32) :
    (if b then m ||| lbit k else m &&& ~~~(lbit k)).getLsbD l = if k = l then b else m.getLsbD l := by
  have hk : (lbit k).getLsbD l = decide (k = l) := getLsbD_lbit hl
  cases b
  · simp only [Bool.false_eq_true, if_false, BitVec.getLsbD_and, BitVec.getLsbD_not, hk, hl]
    by_cases h : k = l <;> simp [h]
  · simp only [if_true, BitVec.getLsbD_or, hk]
    by_cases h : k = l <;> simp [h]

/-- The bits of a mask in which some lanes' have been set or cleared. -/
theorem getLsbD_putBits (f : Nat → Bool) (ls : List Nat) (m : Word) {l : Nat} (hl : l < 32) :
    (ls.foldl (fun m k => if f k then m ||| lbit k else m &&& ~~~(lbit k)) m).getLsbD l = if l ∈ ls then f l else m.getLsbD l := by
  induction ls generalizing m with
  | nil => rfl
  | cons k ls ih =>
    rw [List.foldl_cons, ih, getLsbD_putBit m (f k) k hl]
    by_cases hk : k = l
    · subst hk; simp
    · simp [hk, Ne.symm hk]

theorem preg_setPreg (v : View) {n : Nat} (h0 : n ≠ 0) (hn : n < 8) (x : Word) : (v.setPreg n x).part.preg n = x := by
  rw [Part.preg, if_neg h0]
  exact vget_vset_self _ _ _ _ hn

/-- A predicate other than p0 takes the bits of ACT, and keeps the others (R187, R222). -/
theorem setBits_bit (v : View) (n : Fin 8) (h0 : n.val ≠ 0) (act : Word) (f : Nat → Bool) {l : Nat} (hl : l < 32) :
    ((v.setBits (.p n) act f).part.preg n.val).getLsbD l = if act.getLsbD l then f l else (v.part.preg n.val).getLsbD l := by
  rw [View.setBits, preg_setPreg v h0 n.isLt, getLsbD_putBits f _ _ hl]
  simp [mem_laneList, hl]

theorem setBits_aflags (v : View) (d : Opnd) (act : Word) (f : Nat → Bool) : (v.setBits d act f).part.aflags = v.part.aflags := by
  cases d <;> rfl

/-- What CMP leaves (R187). -/
theorem cmpOp_result (p : Pred) (t : TypeCode) (cond : Cond) (comb : Comb) (d a b : Opnd) (v : View) :
    (cmpOp p t cond comb d a b v).part.aflags = v.part.aflags ∧
      ∀ n : Fin 8, d = .p n → n.val ≠ 0 → ∀ l < 32, ((cmpOp p t cond comb d a b v).part.preg n.val).getLsbD l =
        if (v.act p).getLsbD l then combine comb v l (condHolds cond (valT t (v.rdT t a l)) (valT t (v.rdT t b l)))
        else (v.part.preg n.val).getLsbD l :=
  ⟨setBits_aflags .., fun n hd h0 _ hl => hd ▸ setBits_bit v n h0 _ _ hl⟩

/-- Settles O22: CMP sets or clears the bits of ACT one by one; the others compute on whole words. -/
theorem predicateResults : Obligations.PredicateResults := by
  unfold Obligations.PredicateResults
  refine ⟨?cmpL, ?cmpX, ?pandL, ?pandX, ?porL, ?porX, ?pxorL, ?pxorX, ?pnotL, ?pnotX⟩
  case cmpL | cmpX => intros; exact ⟨_, views_of fun _ => rfl, fun _ => cmpOp_result ..⟩
  case pandL | pandX | porL | porX | pxorL | pxorX | pnotL | pnotX => intros; exact gives_lanes (fun _ => rfl) fun _ _ => rfl

end Sys2Proof.Machine
end

-- Proofs: what integer and floating-point instructions leave alone
section
/-!
PROOFS. A form that computes in each lane changes its destination and the flags that its computation can raise; CMP, FCMP and TAGGET write theirs
in ways of their own (R169 to R173).
-/
namespace Sys2Proof.Machine
-- Every clause unfolds `exec`, a match of all instructions; one declaration at a time keeps the memory this takes small.
set_option Elab.async false

/-! From what a form computes to its frame -/

/-- Results written to a destination, with flags of `m`, keep the rest. -/
theorem View.compute_keeps (v : View) (q : Pred) (wide : Bool) (d : Opnd) (srcs : List Opnd) {f : Nat → DWord × Flags} {m : Flags}
    (hf : ∀ l, FlagsIn m (f l).2) : v.Keeps (regBytes d (if wide then 2 else 1)) m (v.compute q wide d srcs f) :=
  ⟨v.compute_same q wide d srcs f m hf, v.compute_kin ..⟩

section Computes
variable {i : Instr} {f : Form} {imm : Word} {q : Pred} {wide : Bool} {d : Opnd} {srcs : List Opnd} {F : View → Nat → DWord × Flags} {m : Flags}

/-- A plain form that computes `F` in each lane, which raises no flag outside `m`. -/
theorem frames_of_compute (hi : ∀ s, exec i s = issue f imm (onView fun v => v.compute q wide d srcs (F v)) s) (hk : f.kind = .plain)
    (hF : ∀ v l, FlagsIn m (F v l).2) : Frames i f imm d (if wide then 2 else 1) m :=
  frames_of_keeps hi hk fun v => v.compute_keeps q wide d srcs (hF v)

/-- The same with a single destination register. -/
theorem frames_of_compute32 (hi : ∀ s, exec i s = issue f imm (onView fun v => v.compute q false d srcs (F v)) s) (hk : f.kind = .plain)
    (hF : ∀ v l, FlagsIn m (F v l).2) : Frames i f imm d 1 m := frames_of_compute hi hk hF

end Computes

/-! Integer instructions -/

theorem cmpOp_keeps (p : Pred) (t : TypeCode) (cond : Cond) (comb : Comb) (d a b : Opnd) (v : View) :
    v.Keeps (regBytes d 1) 0 (cmpOp p t cond comb d a b v) := ⟨v.setBits_same .., v.setBits_kin ..⟩

/-- Settles O25: sums, products, signs and packed elements raise OF, quotients DZ and OF, remainders DZ, and nothing else raises a flag. -/
theorem frameIntegers : Obligations.FrameIntegers := by
  unfold Obligations.FrameIntegers
  refine ⟨?addL, ?addX, ?subL, ?subX, ?add64L, ?add64X, ?sub64L, ?sub64X, ?mulL, ?mulX, ?mulhiL, ?mulhiX, ?madL, ?madX, ?madwL, ?madwX, ?divL, ?divX,
    ?remL, ?remX, ?minL, ?minX, ?maxL, ?maxX, ?absL, ?absX, ?negL, ?negX, ?andL, ?andX, ?orL, ?orX, ?xorL, ?xorX, ?andnL, ?andnX, ?notL, ?notX, ?shlL,
    ?shlX, ?shrL, ?shrX, ?sarL, ?sarX, ?rotlL, ?rotlX, ?funnelL, ?funnelX, ?popcL, ?popcX, ?clzL, ?clzX, ?ctzL, ?ctzX, ?brevL, ?brevX, ?bfeL, ?bfeX,
    ?bfiL, ?bfiX, ?permbL, ?permbX, ?cmpL, ?cmpX, ?pandL, ?pandX, ?porL, ?porX, ?pxorL, ?pxorX, ?pnotL, ?pnotX, ?movL, ?movX, ?movi, ?selL, ?selX,
    ?extL, ?extX, ?packL, ?packX, ?unpackL, ?unpackX⟩
  case addL | addX | subL | subX | add64L | add64X | sub64L | sub64X | mulL | mulX | madL | madX | absL | absX | negL | negX =>
    intros; exact frames_of_compute (fun _ => rfl) rfl fun _ _ => fit_flags ..
  case madwL | madwX => intros; exact frames_of_compute (wide := true) (fun _ => rfl) rfl fun _ _ => fit_flags ..
  case divL | divX => intros; exact frames_of_compute (fun _ => rfl) rfl fun _ _ => divT_flags ..
  case remL | remX => intros; exact frames_of_compute (fun _ => rfl) rfl fun _ _ => remT_flags ..
  case packL | packX => intros; exact frames_of_compute32 (fun _ => rfl) rfl fun _ _ => packT_flags ..
  case cmpL | cmpX => intros; exact frames_of_keeps (fun _ => rfl) rfl fun _ => cmpOp_keeps ..
  case funnelL | funnelX | popcL | popcX | clzL | clzX | ctzL | ctzX | bfeL | bfeX | bfiL | bfiX | permbL | permbX | pandL | pandX | porL | porX |
      pxorL | pxorX | pnotL | pnotX | unpackL | unpackX =>
    intros; exact frames_of_compute32 (fun _ => rfl) rfl fun _ _ => flagsIn_zero 0
  case mulhiL | mulhiX | minL | minX | maxL | maxX | andL | andX | orL | orX | xorL | xorX | andnL | andnX | notL | notX | shlL | shlX | shrL | shrX |
      sarL | sarX | rotlL | rotlX | brevL | brevX | movL | movX | movi | selL | selX | extL | extX =>
    intros; exact frames_of_compute (fun _ => rfl) rfl fun _ _ => flagsIn_zero 0

/-! Floating-point and packed instructions -/

theorem fcmpOp_keeps (p : Pred) (k : FCond) (comb : Comb) (d a b : Opnd) (v : View) : v.Keeps (regBytes d 1) flagNV (fcmpOp p k comb d a b v) :=
  View.Keeps.raiseFlags ⟨v.setBits_same .., v.setBits_kin ..⟩ (orFlags_map _ _ _ fun _ => fcmp_flags ..)

theorem taggetOp_keeps (p : Pred) (d a : Opnd) (v : View) : v.Keeps (regBytes d 1) 0 (taggetOp p d a v) := by
  cases a with
  | v n => exact v.wrUniform_keeps ..
  | _ => exact .refl ..

theorem cvtpOp_keeps (p : Pred) (src : SrcCode) (t : TypeCode) (rnd : Rnd) (d a b : Opnd) (s : Nat) (v : View) :
    v.Keeps (regBytes d 1) (roundFlags ||| flagCV ||| flagIV) (cvtpOp p src t rnd d a b s v) := by
  unfold cvtpOp
  dsimp only
  split
  · exact v.compute_keeps _ false _ _ fun _ => flagsIn_or (cvt1_flags ..) (cvt1_flags ..)
  · split
    · exact v.compute_keeps _ false _ _ fun _ => cvt1_flags ..
    · exact v.compute_keeps _ false _ _ fun _ => flagsIn_or (cvt1_flags ..) (cvt1_flags ..)

/-- A dot product of any type raises flags of rounding, OF by its clamp among them, or IV (R240). -/
theorem dot_flags (t : TypeCode) (md : RMode) (n : Nat) (a b c : Word) (sa sb sc : Option Nat) :
    FlagsIn (roundFlags ||| flagIV) (if t == .int8 || t == .int4 then dotIntLane t n a b c else dotLane t md n a b c sa sb sc).2 :=
  flagsIn_ite (flagsIn_mono (fit_flags ..) (by decide)) (dotLane_flags ..)

/-- Settles O26: what each form can raise is that of the arithmetic it computes with. -/
theorem frameFloats : Obligations.FrameFloats := by
  unfold Obligations.FrameFloats
  refine ⟨?faddL, ?faddX, ?fsubL, ?fsubX, ?fmulL, ?fmulX, ?ffmaL, ?ffmaX, ?fminL, ?fminX, ?fmaxL, ?fmaxX, ?fabsL, ?fabsX, ?fnegL, ?fnegX, ?fcmpL, ?fcmpX,
    ?frndL, ?frndX, ?fclassL, ?fclassX, ?fscaleL, ?fscaleX, ?frcp, ?frsq, ?fsqrt, ?fdiv, ?fexp2, ?flog2, ?fsin, ?fcos, ?cvt, ?cvtp, ?tagget,
    ?hadd2L, ?hadd2X, ?hmul2L, ?hmul2X, ?hfma2L, ?hfma2X, ?dot4L, ?dot4X, ?dot8L, ?dot8X⟩
  case faddL | faddX | fsubL | fsubX | fmulL | fmulX | ffmaL | ffmaX =>
    intros; exact frames_of_compute32 (fun _ => rfl) rfl fun _ _ => farith_flags _ (.inl rfl) ..
  case fminL | fminX | fmaxL | fmaxX => intros; exact frames_of_compute32 (fun _ => rfl) rfl fun _ _ => fminmax_flags ..
  case fabsL | fabsX | fnegL | fnegX | fclassL | fclassX => intros; exact frames_of_compute32 (fun _ => rfl) rfl fun _ _ => flagsIn_zero 0
  case fcmpL | fcmpX => intros; exact frames_of_keeps (fun _ => rfl) rfl fun _ => fcmpOp_keeps ..
  case frndL | frndX => intros; exact frames_of_compute32 (fun _ => rfl) rfl fun _ _ => frnd_flags ..
  case fscaleL | fscaleX => intros; exact frames_of_compute32 (fun _ => rfl) rfl fun _ _ => fscale_flags ..
  case frcp | frsq | fexp2 | flog2 | fsin | fcos => intros; exact frames_of_compute32 (fun _ => rfl) rfl fun _ _ => special_flags ..
  case fsqrt => intros; exact frames_of_compute32 (fun _ => rfl) rfl fun _ _ => fsqrt_flags ..
  case fdiv => intros; exact frames_of_compute32 (fun _ => rfl) rfl fun _ _ => fdiv_flags ..
  case cvt => intros; exact frames_of_compute32 (fun _ => rfl) rfl fun _ _ => cvt1_flags ..
  case cvtp => intros; exact frames_of_keeps (fun _ => rfl) rfl fun _ => cvtpOp_keeps ..
  case tagget => intros; exact frames_of_keeps (fun _ => rfl) rfl fun _ => taggetOp_keeps ..
  case hadd2L | hmul2L | hadd2X | hmul2X | hfma2L | hfma2X =>
    intros
    exact frames_of_compute32 (fun _ => rfl) rfl fun _ _ => flagsIn_or (farith_flags _ (.inr ‹_›) ..) (farith_flags _ (.inr ‹_›) ..)
  case dot4L | dot4X | dot8L | dot8X => intros; exact frames_of_compute32 (fun _ => rfl) rfl fun _ _ => dot_flags ..

end Sys2Proof.Machine
end

-- Proofs: the integer instructions complete
section
/-!
PROOFS. Each integer instruction is by definition the issue of its form with a meaning that changes what its part and gang hold, so a ready form
completes with that effect (R177 to R193).
-/
namespace Sys2Proof.Machine
-- Every clause unfolds `exec`, a match of all instructions; one declaration at a time keeps the memory this takes small.
set_option Elab.async false

/-- Settles O34: the meanings are `bin`, `tern`, `un` and `madw` of the type's arithmetic. -/
theorem completesIarith : Obligations.CompletesIarith := by
  unfold Obligations.CompletesIarith
  and_intros
  all_goals
    intros
    exact views_of fun _ => rfl

/-- Settles O35: the meanings are bitwise operations, shifts, counts and fields in each lane. -/
theorem completesIbit : Obligations.CompletesIbit := by
  unfold Obligations.CompletesIbit
  and_intros
  all_goals
    intros
    exact views_of fun _ => rfl

/-- Settles O36: the meanings are `cmpOp` and whole words combined. -/
theorem completesIpred : Obligations.CompletesIpred := by
  unfold Obligations.CompletesIpred
  and_intros
  all_goals
    intros
    exact views_of fun _ => rfl

/-- Settles O37: the meanings compute the value moved, selected, extended, packed or unpacked in each lane. -/
theorem completesImove : Obligations.CompletesImove := by
  unfold Obligations.CompletesImove
  and_intros
  all_goals
    intros
    exact views_of fun _ => rfl

end Sys2Proof.Machine
end

-- Proofs: floating-point and packed instructions
section
/-!
PROOFS. FABS and FNEG touch a word's bit 31 only. Each floating-point and packed instruction is by definition the issue of its form with a meaning
that changes what its part and gang hold, so a ready form completes with that effect; TAGSET has a case for each of its conditions (R219 to R240).
-/
namespace Sys2Proof.Machine
-- Every clause unfolds `exec`, a match of all instructions; one declaration at a time keeps the memory this takes small.
set_option Elab.async false

/-! Signs (R221) -/

/-- The bits that FABS leaves of a word: all but bit 31. -/
theorem getLsbD_clearSign (x : Word) {i : Nat} (hi : i < 32) : (x &&& 0x7FFFFFFF).getLsbD i = (decide (i ≠ 31) && x.getLsbD i) := by
  have hm : (0x7FFFFFFF : Word) = ~~~(BitVec.twoPow 32 31) := by decide
  rw [hm, BitVec.getLsbD_and, BitVec.getLsbD_not, BitVec.getLsbD_twoPow]
  simp [hi, eq_comm, Bool.and_comm]

/-- The bits that FNEG makes of a word: bit 31 is inverted. -/
theorem getLsbD_flipSign (x : Word) (i : Nat) : (x ^^^ 0x80000000).getLsbD i = (x.getLsbD i != decide (i = 31)) := by
  have hm : (0x80000000 : Word) = BitVec.twoPow 32 31 := by decide
  rw [hm, BitVec.getLsbD_xor, BitVec.getLsbD_twoPow]
  simp [eq_comm]

/-- Settles O23: what FABS and FNEG compute in a lane raises no flag, and its bits are those of A but for bit 31. -/
theorem floatSigns : Obligations.FloatSigns := by
  unfold Obligations.FloatSigns
  refine ⟨?fabsL, ?fabsX, ?fnegL, ?fnegX⟩
  case fabsL | fabsX => intros; exact gives_some (fun _ => rfl) fun _ _ => ⟨rfl, fun _ hi => (lo_setWidth _).symm ▸ getLsbD_clearSign _ hi⟩
  case fnegL | fnegX => intros; exact gives_some (fun _ => rfl) fun _ _ => ⟨rfl, fun _ _ => (lo_setWidth _).symm ▸ getLsbD_flipSign ..⟩

/-! Arithmetic, special functions and packed halves (R219 to R226, R239, R240) -/

/-- Settles O38: the meanings are `farith2` and `farith3`, `f1`, `f2` and `w1` of the operation, and `fcmpOp`. -/
theorem completesFarith : Obligations.CompletesFarith := by
  unfold Obligations.CompletesFarith
  and_intros
  all_goals
    intros
    exact views_of fun _ => rfl

/-- Settles O39: the meanings are `f1` of a special function or of the root, and `f2` of the quotient. -/
theorem completesFspec : Obligations.CompletesFspec := by
  unfold Obligations.CompletesFspec
  and_intros
  all_goals
    intros
    exact views_of fun _ => rfl

/-- Settles O41: the meanings are `packed2` and `dotOp`. -/
theorem completesFpacked : Obligations.CompletesFpacked := by
  unfold Obligations.CompletesFpacked
  and_intros
  all_goals
    intros
    exact views_of fun _ => rfl

/-! Conversions and tags (R231 to R234) -/

/-- What TAGSET asks before it does anything is whether no lane acts under a guard (R234). -/
theorem guard_eq_not_acts (v : View) (p : Pred) : (!p.always && decide (v.act p = 0)) = !v.acts p := by
  rw [View.acts, Bool.not_or, bne, Bool.not_not, Bool.beq_eq_decide_eq]

/-- Where no lane acts, TAGSET does nothing (R234). -/
theorem tagsetSem_idle {p : Pred} {d a : Opnd} {t : State} {y : Ctx} (h : y.v.acts p = false) : tagsetSem p d a t y = .fall t false := by
  simp only [tagsetSem, guard_eq_not_acts, h, Bool.not_false, if_true]

/-- Otherwise, where A is a tag of a known code, TAGSET gives this tag to the register and leaves its row (R234). -/
theorem tagsetSem_valid {p : Pred} {n : Fin 192} {a : Opnd} {t : State} {y : Ctx} (h : y.v.acts p = true) (hlt : (y.v.rd32 a 0).toNat < 2 ^ 24)
    (hcode : sideCodeOk ((y.v.rd32 a 0).toNat % 256) = true) : tagsetSem p (.v n) a t y =
      .fall (t.putView y.r (y.v.setVreg n.val ⟨(y.v.vreg n.val).row, (y.v.rd32 a 0).setWidth 24⟩)) false := by
  have htag : ((y.v.rd32 a 0).toNat / 2 ^ 24 != 0 || !sideCodeOk ((y.v.rd32 a 0).toNat % 256)) = false := by
    rw [Nat.div_eq_of_lt hlt, hcode]
    rfl
  simp only [tagsetSem, guard_eq_not_acts, h, htag, Bool.not_true, Bool.false_eq_true, if_false]

/-- Settles O40: CVT, CVTP and TAGGET complete with `cvtOp`, `cvtpOp` and `taggetOp`, and TAGSET in each of its two cases. -/
theorem completesFconv : Obligations.CompletesFconv := by
  unfold Obligations.CompletesFconv
  refine ⟨fun p src t rnd d a => ?cvt, fun p src t rnd d a b slot => ?cvtp, fun p d a => ?tagget, fun p d a => ⟨?idle, fun n hd => ?valid⟩⟩
  case cvt | cvtp | tagget => exact views_of fun _ => rfl
  case idle => exact falls_of (tagsetSem p d a) (fun _ => rfl) (fun _ _ _ => tagsetSem_idle) rfl
  case valid =>
    subst hd
    exact falls_of (tagsetSem p (.v n) a) (fun _ => rfl) (fun _ _ _ ⟨hacts, hlt, hcode⟩ => tagsetSem_valid hacts hlt hcode) rfl

end Sys2Proof.Machine
end

-- Proofs: quad and gang exchanges
section
/-!
PROOFS. Each exchange within a quad or over the gang is by definition the issue of its form with a meaning that changes what its part and gang
hold, so a ready form completes with that effect (R252 to R261).
-/
namespace Sys2Proof.Machine
-- Every clause unfolds `exec`, a match of all instructions; one declaration at a time keeps the memory this takes small.
set_option Elab.async false

/-- Settles O42: three meanings move a word within its quad, from the lane that the pattern, the number J or B names, and `qredOp` combines the
quad's four words (R252, R256). -/
theorem completesQexch : Obligations.CompletesQexch := by
  unfold Obligations.CompletesQexch
  refine ⟨?qswap, ?qbcast, ?qshuf, ?qred⟩
  case qswap | qbcast | qshuf | qred => intros; exact views_of fun _ => rfl

/-- Settles O43: the meanings exchange over the lanes that act: a source lane's word, a vote, a scan and its last value, and blocks of
eight registers transposed (R257 to R261). -/
theorem completesGexch : Obligations.CompletesGexch := by
  unfold Obligations.CompletesGexch
  refine ⟨?shfl, ?vote, ?scanPrefix, ?gred, ?xpose⟩
  case shfl | vote | scanPrefix | gred | xpose => intros; exact views_of fun _ => rfl

end Sys2Proof.Machine
end

-- Proofs: loads and stores complete, and what a load leaves alone
section
/-!
PROOFS. Every load issues the meaning of a load of lanes or of rows, and every store that of a store of lanes or of rows: what these come to
where an access passes its checks, and what a load then leaves alone (R289 to R296).
-/
namespace Sys2Proof.Machine

/-! Rows that pass their format check (R292, R294) -/

section
variable {p : Pred} {a d : Opnd} {n : Fin 192} {rows len : Nat} {i : Instr} {f : Form} {imm : Word} {t : TypeCode} {src : LdwSrc}

/-- LDD writes the rows of lines whose formats agree into the registers from its destination on. -/
theorem rowsDone_ldd (s : State) (x : Ctx) (act : Word) {ls : List RowLine} (h : rowsFault none ls = none) :
    rowsDone s x (.ldd (.v n) rows) act ls = .fall (s.putView x.r (x.v.putRows n.val ls)) false := by
  simp only [rowsDone, h]

/-- LDW widens the rows of lines of the format that it names. -/
theorem rowsDone_ldw (s : State) (x : Ctx) (act : Word) {ls : List RowLine} (h : rowsFault (some (fmtCode (ldwType src))) ls = none) :
    rowsDone s x (.ldw (.v n) t rows src) act ls = .fall (s.putView x.r (x.v.putWides n.val t (ldwType src) ls)) false := by
  simp only [rowsDone, h]

theorem loadsRows_ldd (hd : d = .v n) (hi : ∀ s, exec i s = issue f imm (rowLoadSem p a rows (.ldd d rows) len) s) :
    LoadsRows i f imm p a rows none fun v l => v.putRows n.val l := by
  subst hd
  exact loadsRows_of hi fun s x act _ => rowsDone_ldd s x act

theorem loadsRows_ldw (hd : d = .v n) (hi : ∀ s, exec i s = issue f imm (rowLoadSem p a rows (.ldw d t rows src) len) s) :
    LoadsRows i f imm p a rows (some (fmtCode (ldwType src))) fun v l => v.putWides n.val t (ldwType src) l := by
  subst hd
  exact loadsRows_of hi fun s x act _ => rowsDone_ldw s x act

/-! The registers that rows write (R292 to R294): at most one register, or one group of registers, for every two lines -/

theorem putRows_within (v : View) (d rows : Nat) {ls : List RowLine} (h : ls.length ≤ 2 * rows) :
    v.Same ((List.range rows).map (d + ·)) 0 (v.putRows d ls) :=
  putRows_same v v _ d ls (.refl ..) fun k hk => List.mem_map_of_mem (List.mem_range.mpr (by omega))

theorem putWides_within (v : View) (d rows : Nat) (t src : TypeCode) {ls : List RowLine} (h : ls.length ≤ 2 * rows) :
    v.Same ((List.range (rows * (16 / elemBits src))).map (d + ·)) 0 (v.putWides d t src ls) := by
  have hgroups : ls.length / 2 * (16 / elemBits src) ≤ rows * (16 / elemBits src) := Nat.mul_le_mul_right _ (by omega)
  exact putWides_same v v _ d t src ls (.refl ..) fun k hk => List.mem_map_of_mem (List.mem_range.mpr (Nat.lt_of_lt_of_le hk hgroups))

theorem loadFrames_ldd (hd : d = .v n) (hi : ∀ s, exec i s = issue f imm (rowLoadSem p a rows (.ldd d rows) len) s) (hk : f.kind = .plain) :
    LoadFrames i f imm .glob (howRows .load) (fun y => y.v.rowsAt p a rows) (fun u w ps => rowsFault none (rowLines u w ps) = none)
      ((List.range rows).map (n.val + ·)) := by
  subst hd
  exact loadFrames_rows hi hk (fun s x act _ => rowsDone_ldd s x act) (fun v _ => putRows_within v n.val rows)
    fun v ls => putRows_kin v v n.val ls (.refl v)

theorem loadFrames_ldw (hd : d = .v n) (hi : ∀ s, exec i s = issue f imm (rowLoadSem p a rows (.ldw d t rows src) len) s) (hk : f.kind = .plain) :
    LoadFrames i f imm .glob (howRows .load) (fun y => y.v.rowsAt p a rows)
      (fun u w ps => rowsFault (some (fmtCode (ldwType src))) (rowLines u w ps) = none)
      ((List.range (rows * (16 / elemBits (ldwType src)))).map (n.val + ·)) := by
  subst hd
  exact loadFrames_rows hi hk (fun s x act _ => rowsDone_ldw s x act) (fun v _ => putWides_within v n.val rows t (ldwType src))
    fun v ls => putWides_kin v v n.val t (ldwType src) ls (.refl v)

end

/-- Settles O28: a load of lanes writes the registers of its type, and one of rows at most a register or a group for every two lines read. -/
theorem frameLoads : Obligations.FrameLoads := by
  unfold Obligations.FrameLoads
  refine ⟨?ldL, ?ldX, ?ldsL, ?ldsX, ?ldaL, ?ldaX, ?ldwbL, ?ldwbX, ?lddL, ?lddX, ?ldwL, ?ldwX⟩
  case ldL | ldX | ldsL | ldsX | ldaL | ldaX | ldwbL | ldwbX => intros; exact loadFrames_ld (fun _ => rfl) rfl
  case lddL => exact fun _ _ _ _ _ hd => loadFrames_ldd hd (fun _ => rfl) rfl
  case lddX => exact fun _ _ _ _ _ _ hd => loadFrames_ldd hd (fun _ => rfl) rfl
  case ldwL => exact fun _ _ _ _ _ _ _ hd => loadFrames_ldw hd (fun _ => rfl) rfl
  case ldwX => exact fun _ _ _ _ _ _ _ _ hd => loadFrames_ldw hd (fun _ => rfl) rfl

/-- Settles O44: LD loads lanes, LDD and LDW load rows that pass their format check, and PREF, which accesses nothing, only queues walks. -/
theorem completesLoad : Obligations.CompletesLoad := by
  unfold Obligations.CompletesLoad
  refine ⟨?ldL, ?ldX, ?lddL, ?lddX, ?ldwL, ?ldwX, ?prefL, ?prefX⟩
  case ldL | ldX => intros; exact loads_of fun _ => rfl
  case lddL => exact fun _ _ _ _ _ hd => loadsRows_ldd hd fun _ => rfl
  case lddX => exact fun _ _ _ _ _ _ hd => loadsRows_ldd hd fun _ => rfl
  case ldwL => exact fun _ _ _ _ _ _ _ hd => loadsRows_ldw hd fun _ => rfl
  case ldwX => exact fun _ _ _ _ _ _ _ _ hd => loadsRows_ldw hd fun _ => rfl
  case prefL => exact fun p _ a => falls_of (prefSem p a) (fun _ => rfl) (fun _ _ _ _ => rfl) rfl
  case prefX => exact fun p _ a _ => falls_of (prefSem p a) (fun _ => rfl) (fun _ _ _ _ => rfl) rfl

/-- Settles O45: ST stores lanes and STD rows. -/
theorem completesStore : Obligations.CompletesStore := by
  unfold Obligations.CompletesStore
  refine ⟨?stL, ?stX, ?stdL, ?stdX⟩
  case stL | stX => intros; exact stores_of fun _ => rfl
  case stdL => exact fun _ _ _ _ _ hb => storesRows_of hb fun _ => rfl
  case stdX => exact fun _ _ _ _ _ _ hb => storesRows_of hb fun _ => rfl

/-- Settles O46: the local forms are loads and stores of lanes in their buffers. -/
theorem completesLocal : Obligations.CompletesLocal := by
  unfold Obligations.CompletesLocal
  refine ⟨?ldsL, ?ldsX, ?ldaL, ?ldaX, ?ldwbL, ?ldwbX, ?stsL, ?stsX, ?staL, ?staX⟩
  case ldsL | ldsX | ldaL | ldaX | ldwbL | ldwbX => intros; exact loads_of fun _ => rfl
  case stsL | stsX | staL | staX => intros; exact stores_of fun _ => rfl

end Sys2Proof.Machine
end

-- Proofs: condition monitors complete
section
/-!
PROOFS. WAITC and ARMC each issue a meaning that is one access: what this comes to where its checks pass is a lemma on accesses (R326 to R330).
-/
namespace Sys2Proof.Machine

/-- Settles O48: WAITC and ARMC watch their words, and CHECKC reads its gang's arm. -/
theorem completesMonitor : Obligations.CompletesMonitor := by
  unfold Obligations.CompletesMonitor
  refine ⟨?waitcL, ?waitcX, ?armcL, ?armcX, ?checkc⟩
  case waitcL => exact fun p cond t d a b c => waitsFor_of (fun s => rfl) rfl
  case waitcX => exact fun p cond t d a b c imm => waitsFor_of (fun s => rfl) rfl
  case armcL => exact fun p cond t d a b => arms_of (fun s => rfl) rfl
  case armcX => exact fun p cond t d a b imm => arms_of (fun s => rfl) rfl
  case checkc => exact fun p d => views_of fun s => rfl

end Sys2Proof.Machine
end
